-- ==== Sys2Proof/Word.lean ====
section
/-! DEFINITION. The word types, the plain names of the manual (type codes, conditions, selectors) and the operand
structures that the constructors of `Instr` carry. -/

namespace Sys2Proof

/-- A byte of memory (R7). -/
abbrev Byte := BitVec 8
/-- A 32-bit register or instruction word (R21, R67). -/
abbrev Word := BitVec 32
/-- A 64-bit value: a register pair, a 64-bit CSR (R22, R123). -/
abbrev DWord := BitVec 64
/-- A register field D, A, B or C (R21): 0 to 191 `v`, 192 to 255 `s0` to `s63`. -/
abbrev RegNo := BitVec 8
/-- A sparse table: (key, value) pairs with strictly rising keys. -/
abbrev SMap (α : Type) := List (Nat × α)
/-- A team's lane mask (R17): bit l is lane l. -/
abbrev Mask := BitVec 1024

/-- Type codes of R42 and R44. -/
inductive Ty where
  | s8 | s16 | s32 | s64 | n8 | n16 | n32 | n64 | f16 | bf16 | f32 | e4m3 | e2m1 | b32 | b64 | e5m2
  deriving DecidableEq, Repr

/-- The 4-bit code of a type (R42, R44, R100, R154). -/
def Ty.code : Ty → BitVec 4
  | .s8 => 0 | .s16 => 1 | .s32 => 2 | .s64 => 3 | .n8 => 4 | .n16 => 5 | .n32 => 6 | .n64 => 7
  | .f16 => 8 | .bf16 => 9 | .f32 => 10 | .e4m3 => 11 | .e2m1 => 12 | .b32 => 13 | .b64 => 14 | .e5m2 => 15

/-- The type of a 4-bit code; every code names one (R78). -/
def Ty.ofCode (c : BitVec 4) : Ty :=
  match c.toNat with
  | 0 => .s8 | 1 => .s16 | 2 => .s32 | 3 => .s64 | 4 => .n8 | 5 => .n16 | 6 => .n32 | 7 => .n64
  | 8 => .f16 | 9 => .bf16 | 10 => .f32 | 11 => .e4m3 | 12 => .e2m1 | 13 => .b32 | 14 => .b64 | _ => .e5m2

theorem Ty.ofCode_code (t : Ty) : Ty.ofCode t.code = t := by cases t <;> rfl

/-- Element width in bits (R42, R44). -/
def Ty.width : Ty → Nat
  | .s8 | .n8 | .e4m3 | .e5m2 => 8
  | .s16 | .n16 | .f16 | .bf16 => 16
  | .s32 | .n32 | .f32 | .b32 => 32
  | .s64 | .n64 | .b64 => 64
  | .e2m1 => 4

/-- The s types (two's complement, R44). -/
def Ty.isSigned : Ty → Bool
  | .s8 | .s16 | .s32 | .s64 => true
  | _ => false

/-- The types whose value fills a register pair (R22). -/
def Ty.is64 (t : Ty) : Bool := t.width == 64

/-- The n types (unsigned, R44). -/
def Ty.isUnsigned : Ty → Bool
  | .n8 | .n16 | .n32 | .n64 => true
  | _ => false

/-- The conditions of `s.cmp`, `v.cmp` (R102): F = 0 to 5. -/
inductive Cc where
  | eq | ne | lt | le | gt | ge
  deriving DecidableEq, Repr

/-- The F value of a condition (R102). -/
def Cc.code : Cc → BitVec 7
  | .eq => 0 | .ne => 1 | .lt => 2 | .le => 3 | .gt => 4 | .ge => 5

/-- The condition of an F value; 6 and above are reserved (R102, R154). -/
def Cc.ofCode (f : BitVec 7) : Option Cc :=
  match f.toNat with
  | 0 => some .eq | 1 => some .ne | 2 => some .lt | 3 => some .le | 4 => some .gt | 5 => some .ge | _ => none

theorem Cc.ofCode_code (c : Cc) : Cc.ofCode c.code = some c := by cases c <;> rfl

/-- The conditions of `v.fcmp` (R163, R167): F = 0 to 6. -/
inductive Fcc where
  | eq | ne | lt | le | gt | ge | un
  deriving DecidableEq, Repr

/-- The F value of a floating-point condition (R163). -/
def Fcc.code : Fcc → BitVec 7
  | .eq => 0 | .ne => 1 | .lt => 2 | .le => 3 | .gt => 4 | .ge => 5 | .un => 6

/-- The floating-point condition of an F value (R163). -/
def Fcc.ofCode (f : BitVec 7) : Option Fcc :=
  match f.toNat with
  | 0 => some .eq | 1 => some .ne | 2 => some .lt | 3 => some .le | 4 => some .gt | 5 => some .ge | 6 => some .un
  | _ => none

theorem Fcc.ofCode_code (c : Fcc) : Fcc.ofCode c.code = some c := by cases c <;> rfl

/-- The selector of format J (R72): a `p` or `q` predicate, or an `s`-register. -/
inductive Sel where
  | p (neg : Bool) (n : BitVec 4)
  | q (neg : Bool) (n : BitVec 3)
  | reg (n : BitVec 6)
  deriving DecidableEq, Repr

/-- The 7-bit SEL field (R72). -/
def Sel.code : Sel → BitVec 7
  | .p neg n => (BitVec.ofBool neg).zeroExtend 7 <<< 5 ||| n.zeroExtend 7
  | .q neg n => (BitVec.ofBool neg).zeroExtend 7 <<< 5 ||| 16#7 ||| n.zeroExtend 7
  | .reg n => 64#7 ||| n.zeroExtend 7

/-- The selector of a SEL field; KIND = 1 with NUM at or above 8 is illegal (R72). -/
def Sel.ofCode (c : BitVec 7) : Option Sel :=
  if c.getLsbD 6 then some (.reg (c.extractLsb' 0 6))
  else if c.getLsbD 4 then
    if c.getLsbD 3 then none else some (.q (c.getLsbD 5) (c.extractLsb' 0 3))
  else some (.p (c.getLsbD 5) (c.extractLsb' 0 4))

theorem Sel.ofCode_code (s : Sel) : Sel.ofCode s.code = some s := by
  cases s with
  | p neg n => revert neg n; decide
  | q neg n => revert neg n; decide
  | reg n => revert n; decide

/-- What every instruction word carries beside its operands: X, and from the extension word the guard predicate number,
its negation and the lookahead count (R67, R68). With X = 0 the three others are zero (R77). -/
structure Hdr where
  x : Bool
  g : BitVec 4
  gn : Bool
  la : BitVec 4
  deriving DecidableEq, Repr

/-- The F field of a memory instruction (R262). -/
structure MemF where
  sp : Bool
  ix : Bool
  sc : BitVec 2
  q : Bool
  hint : BitVec 2
  deriving DecidableEq, Repr

/-- SP, IX, SC, Q and HINT at their places in F (R262). -/
def MemF.code (m : MemF) : BitVec 7 :=
  (BitVec.ofBool m.sp).zeroExtend 7 <<< 6 ||| (BitVec.ofBool m.ix).zeroExtend 7 <<< 5 |||
    m.sc.zeroExtend 7 <<< 3 ||| (BitVec.ofBool m.q).zeroExtend 7 <<< 2 ||| m.hint.zeroExtend 7

/-- The fields of an F (R262). -/
def MemF.ofCode (f : BitVec 7) : MemF :=
  { sp := f.getLsbD 6, ix := f.getLsbD 5, sc := f.extractLsb' 3 2, q := f.getLsbD 2, hint := f.extractLsb' 0 2 }

theorem MemF.ofCode_code (m : MemF) : MemF.ofCode m.code = m := by
  obtain ⟨sp, ix, sc, q, hint⟩ := m
  revert sp ix sc q hint; decide

/-- The atomic operations of R272, E[7:4] = 0 to 10. -/
inductive AtomOp where
  | add | adds | min | max | and | or | xor | xchg | rr | fadd | fmax
  deriving DecidableEq, Repr

/-- The E[7:4] value of an atomic operation (R272). -/
def AtomOp.code : AtomOp → BitVec 4
  | .add => 0 | .adds => 1 | .min => 2 | .max => 3 | .and => 4 | .or => 5 | .xor => 6 | .xchg => 7 | .rr => 8
  | .fadd => 9 | .fmax => 10

/-- The atomic operation of an E[7:4] value; 11 to 15 are reserved (R272). -/
def AtomOp.ofCode (c : BitVec 4) : Option AtomOp :=
  match c.toNat with
  | 0 => some .add | 1 => some .adds | 2 => some .min | 3 => some .max | 4 => some .and | 5 => some .or
  | 6 => some .xor | 7 => some .xchg | 8 => some .rr | 9 => some .fadd | 10 => some .fmax | _ => none

theorem AtomOp.ofCode_code (o : AtomOp) : AtomOp.ofCode o.code = some o := by cases o <;> rfl

/-- The types an atomic operation accepts (R272). -/
def AtomOp.accepts (o : AtomOp) (ty : Ty) : Bool :=
  match o with
  | .add | .adds | .min | .max => ([.s32, .s64, .n32, .n64] : List Ty).contains ty
  | .and | .or | .xor | .xchg => ([.b32, .b64] : List Ty).contains ty
  | .rr => ([.s32, .s64, .n32, .n64, .f32] : List Ty).contains ty
  | .fadd => ([.bf16, .f32] : List Ty).contains ty
  | .fmax => ty == .f32

/-- The kinds of collective message (R374, R378, R379). -/
inductive ClMsgKind where
  | offer | grant | data | signal | abort | refuseMismatch | refusePeer
  deriving DecidableEq, Repr

/-- A collective message (R374): the device it comes from, the channel, the partition whose link key authenticates it, GTAG, h, H, the
sending rank, the kind, the chunk index, the place of an offer, grant or data message among those of its kind to that rank or the number of
a signal counter, and the data of a chunk. `full` marks a message that a full table of held messages sends back to its sender. -/
structure ClMsg where
  peer : Nat
  ch : Nat
  part : Nat
  auth : Bool
  gtag : Word
  h : Word
  hash : Word
  rank : Nat
  kind : ClMsgKind
  chunk : Nat
  k : Nat
  data : List Byte
  full : Bool := false
  deriving DecidableEq, Repr

/-- The access whose right a translation is checked against (R237, R238). -/
inductive Acc where
  | read | write | atomic | fetch
  deriving DecidableEq, Repr

/-- Why the home of a page refuses an access (R238, R243, R245, R199): no translation or one hop too many, a page that is not resident, a frame that
another page has, a right or key that is missing, or a poisoned block. -/
inductive Refused where
  | page | absent | aliased | perm | lost
  deriving DecidableEq, Repr

/-- What a message between devices about one address asks for, or answers (R242, R243, R271, R284); a floating add carries its rounding mode
and draw (R58). `code` is a load of code, whose right is X; `nibble` writes the low or the high four bits of a byte (R321). `check` asks whether an access would pass its home's translation, before any lane of its instruction acts (R265, log entry
64). `data` and `refused` are the home's answers to the asker, `revoke` goes from a home to the device whose core held a word, and `revoked`
answers it. -/
inductive RemoteOp where
  | load (n : Nat)
  | code (n : Nat)
  | store (bytes : List Byte)
  | atomic (op : AtomOp) (ty : Ty) (data : DWord) (rm draw : Nat)
  | cas (ty : Ty) (cmp swap : DWord)
  | nibble (nib v : Nat)
  | check (acc : Acc) (n : Nat)
  | data (bytes : List Byte)
  | refused (why : Refused)
  | revoke (core : Nat)
  | revoked (core : Nat)
  deriving DecidableEq, Repr

/-- A message between devices about one address (R242, R243): the partition that authenticates it, the original requester with the core that
issued the access (512 where none of its cores did), the virtual address, the hops that it has made, and the requester's number for it. The accesses
of one instruction to one block travel together: `more` holds those after the first, in lane order (R261, R267, R274). -/
structure RemoteReq where
  part : Nat
  peer : Nat
  core : Nat
  va : Nat
  op : RemoteOp
  hops : Nat
  tag : Nat
  more : List (Nat × RemoteOp) := []
  deriving DecidableEq, Repr

/-- A sensor reading of cold boot (R450): tenths of a degree Celsius. -/
abbrev Temp := Int

end Sys2Proof
end

