-- ==== Sys2Proof/Syntax.lean ====
section
/-! DEFINITION. The instructions and events of the C960: one constructor for each row of spec/opcode_table.json, the
instruction words first (Flotch, 03_encoding_and_assembly.md), then the events that are no instruction words
(95_what_each_step_holds.md). An instruction word carries its header `h` (guard, lookahead, X) and its operand fields. -/

namespace Sys2Proof

/-- The steps of the part. A word constructor is what `decode` gives; an event constructor stands in the inputs of the state or is made by the machine's own cycle. -/
inductive Instr where
  /-- `s.add` (R101). -/
  | sAdd (h : Hdr) (ty : Ty) (d a b : RegNo)
  /-- `s.sub` (R101). -/
  | sSub (h : Hdr) (ty : Ty) (d a b : RegNo)
  /-- `s.mul` (R101). -/
  | sMul (h : Hdr) (ty : Ty) (d a b : RegNo)
  /-- `s.mulh` (R101). -/
  | sMulh (h : Hdr) (ty : Ty) (d a b : RegNo)
  /-- `s.and` (R101). -/
  | sAnd (h : Hdr) (ty : Ty) (d a b : RegNo)
  /-- `s.or` (R101). -/
  | sOr (h : Hdr) (ty : Ty) (d a b : RegNo)
  /-- `s.xor` (R101). -/
  | sXor (h : Hdr) (ty : Ty) (d a b : RegNo)
  /-- `s.andn` (R101). -/
  | sAndn (h : Hdr) (ty : Ty) (d a b : RegNo)
  /-- `s.shl` (R101). -/
  | sShl (h : Hdr) (ty : Ty) (d a b : RegNo)
  /-- `s.shr` (R101). -/
  | sShr (h : Hdr) (ty : Ty) (d a b : RegNo)
  /-- `s.sra` (R101). -/
  | sSra (h : Hdr) (ty : Ty) (d a b : RegNo)
  /-- `s.min` (R101). -/
  | sMin (h : Hdr) (ty : Ty) (d a b : RegNo)
  /-- `s.max` (R101). -/
  | sMax (h : Hdr) (ty : Ty) (d a b : RegNo)
  /-- `s.lea` (R101). -/
  | sLea (h : Hdr) (ty : Ty) (d a b : RegNo) (sh : BitVec 4)
  /-- `s.addi` (R101). -/
  | sAddi (h : Hdr) (ty : Ty) (d a : RegNo) (imm : BitVec 8)
  /-- `s.andi` (R101). -/
  | sAndi (h : Hdr) (ty : Ty) (d a : RegNo) (imm : BitVec 8)
  /-- `s.ori` (R101). -/
  | sOri (h : Hdr) (ty : Ty) (d a : RegNo) (imm : BitVec 8)
  /-- `s.xori` (R101). -/
  | sXori (h : Hdr) (ty : Ty) (d a : RegNo) (imm : BitVec 8)
  /-- `s.shli` (R101). -/
  | sShli (h : Hdr) (ty : Ty) (d a : RegNo) (imm : BitVec 8)
  /-- `s.shri` (R101). -/
  | sShri (h : Hdr) (ty : Ty) (d a : RegNo) (imm : BitVec 8)
  /-- `s.srai` (R101). -/
  | sSrai (h : Hdr) (ty : Ty) (d a : RegNo) (imm : BitVec 8)
  /-- `s.movi` (R101). -/
  | sMovi (h : Hdr) (ty : Ty) (d : RegNo) (imm : BitVec 16)
  /-- `s.movhi` (R101). -/
  | sMovhi (h : Hdr) (d : RegNo) (imm : BitVec 16)
  /-- `s.cmp.cc` (R102). -/
  | sCmp (h : Hdr) (cc : Cc) (ty : Ty) (q : BitVec 3) (a b : RegNo)
  /-- `s.cmpi.cc` (R102). -/
  | sCmpi (h : Hdr) (cc : Cc) (ty : Ty) (q : BitVec 3) (a : RegNo) (imm : BitVec 8)
  /-- `s.sel` (R102). -/
  | sSel (h : Hdr) (ty : Ty) (d a b : RegNo) (q : BitVec 3) (neg : Bool)
  /-- `s.mov` (R103). -/
  | sMov (h : Hdr) (ty : Ty) (d a b : RegNo)
  /-- `s.vrd` (R103). -/
  | sVrd (h : Hdr) (ty : Ty) (d a b c : RegNo)
  /-- `s.vrdf` (R103). -/
  | sVrdf (h : Hdr) (ty : Ty) (d a b : RegNo)
  /-- `s.qand` (R102). -/
  | sQand (h : Hdr) (q qa qb : BitVec 3)
  /-- `s.qor` (R102). -/
  | sQor (h : Hdr) (q qa qb : BitVec 3)
  /-- `s.qxor` (R102). -/
  | sQxor (h : Hdr) (q qa qb : BitVec 3)
  /-- `s.qany` (R102). -/
  | sQany (h : Hdr) (q : BitVec 3) (pa : BitVec 4)
  /-- `s.qall` (R102). -/
  | sQall (h : Hdr) (q : BitVec 3) (pa : BitVec 4)
  /-- `s.jmp` (R105). -/
  | sJmp (h : Hdr) (off rcv : BitVec 13)
  /-- `s.br` (R105). -/
  | sBr (h : Hdr) (sel : Sel) (off rcv : BitVec 13)
  /-- `s.br.all` (R105). -/
  | sBrAll (h : Hdr) (sel : Sel) (off rcv : BitVec 13)
  /-- `s.br.any` (R105). -/
  | sBrAny (h : Hdr) (sel : Sel) (off rcv : BitVec 13)
  /-- `s.loop` (R105). -/
  | sLoop (h : Hdr) (n : BitVec 6) (off rcv : BitVec 13)
  /-- `s.call` (R106). -/
  | sCall (h : Hdr) (off rcv : BitVec 13)
  /-- `s.jr` (R105). -/
  | sJr (h : Hdr) (n : BitVec 6) (rcv : BitVec 13)
  /-- `s.callr` (R106). -/
  | sCallr (h : Hdr) (n : BitVec 6) (rcv : BitVec 13)
  /-- `s.btab` (R105). -/
  | sBtab (h : Hdr) (idx : RegNo) (rcv : BitVec 13) (targets : List (BitVec 16))
  /-- `s.btabc` (R106). -/
  | sBtabc (h : Hdr) (idx : RegNo) (rcv : BitVec 13) (targets : List (BitVec 16))
  /-- `s.exit` (R107). -/
  | sExit (h : Hdr)
  /-- `s.nop` (R104). -/
  | sNop (h : Hdr)
  /-- `s.bar.sync` (R116). -/
  | sBarSync (h : Hdr) (d : RegNo) (bar : BitVec 11)
  /-- `s.bar.arr` (R116). -/
  | sBarArr (h : Hdr) (d : RegNo) (bar : BitVec 11) (c : RegNo)
  /-- `s.bar.wait` (R116). -/
  | sBarWait (h : Hdr) (d : RegNo) (bar : BitVec 11)
  /-- `s.sleepu` (R119). -/
  | sSleepu (h : Hdr) (a : RegNo)
  /-- `s.wait` (R119). -/
  | sWait (h : Hdr) (d a : RegNo)
  /-- `s.poll` (R119). -/
  | sPoll (h : Hdr) (d a : RegNo)
  /-- `s.waitall` (R119). -/
  | sWaitall (h : Hdr)
  /-- `S_FENCE_ACQ` (R288). -/
  | sFenceAcq (h : Hdr)
  /-- `S_FENCE_REL` (R288). -/
  | sFenceRel (h : Hdr)
  /-- `S_FENCE_ACQREL` (R288). -/
  | sFenceAcqrel (h : Hdr)
  /-- `S_FENCE_SC` (R288). -/
  | sFenceSc (h : Hdr)
  /-- `s.fmt` (R113). -/
  | sFmt (h : Hdr) (imm : BitVec 16)
  /-- `s.csrr` (R122). -/
  | sCsrr (h : Hdr) (d : RegNo) (csr : BitVec 12)
  /-- `s.csrw` (R122). -/
  | sCsrw (h : Hdr) (d : RegNo) (csr : BitVec 12)
  /-- `s.csrs` (R122). -/
  | sCsrs (h : Hdr) (d : RegNo) (csr : BitVec 12)
  /-- `s.csrc` (R122). -/
  | sCsrc (h : Hdr) (d : RegNo) (csr : BitVec 12)
  /-- `s.seed` (R125). -/
  | sSeed (h : Hdr) (n : BitVec 2) (a : RegNo)
  /-- `s.seedmix` (R125). -/
  | sSeedmix (h : Hdr) (n : BitVec 2) (a : RegNo)
  /-- `s.cfetch` (R133). -/
  | sCfetch (h : Hdr) (d a : RegNo) (n : BitVec 4)
  /-- `s.cfetch.reload` (R133). -/
  | sCfetchReload (h : Hdr) (d a : RegNo) (n : BitVec 4)
  /-- `s.cstat` (R134). -/
  | sCstat (h : Hdr) (d : RegNo) (n : BitVec 4)
  /-- `s.jmpf` (R135). -/
  | sJmpf (h : Hdr) (target : BitVec 16)
  /-- `s.cfence` (R136). -/
  | sCfence (h : Hdr)
  /-- `s.trap` (R150). -/
  | sTrap (h : Hdr) (code : BitVec 16)
  /-- `s.brk` (R150). -/
  | sBrk (h : Hdr) (code : BitVec 16)
  /-- `s.rth` (R148). -/
  | sRth (h : Hdr)
  /-- `v.add` (R155). -/
  | vAdd (h : Hdr) (ty : Ty) (d a b : RegNo)
  /-- `v.adds` (R155). -/
  | vAdds (h : Hdr) (ty : Ty) (d a b : RegNo)
  /-- `v.sub` (R155). -/
  | vSub (h : Hdr) (ty : Ty) (d a b : RegNo)
  /-- `v.subs` (R155). -/
  | vSubs (h : Hdr) (ty : Ty) (d a b : RegNo)
  /-- `v.mul` (R155). -/
  | vMul (h : Hdr) (ty : Ty) (d a b : RegNo)
  /-- `v.mulh` (R155). -/
  | vMulh (h : Hdr) (ty : Ty) (d a b : RegNo)
  /-- `v.mulw` (R155). -/
  | vMulw (h : Hdr) (ty : Ty) (d a b : RegNo)
  /-- `v.mad` (R155). -/
  | vMad (h : Hdr) (ty : Ty) (d a b c : RegNo)
  /-- `v.madh` (R155). -/
  | vMadh (h : Hdr) (ty : Ty) (d a b c : RegNo)
  /-- `v.madw` (R155). -/
  | vMadw (h : Hdr) (ty : Ty) (d a b c : RegNo)
  /-- `v.dot4` (R155). -/
  | vDot4 (h : Hdr) (ty ty2 : Ty) (d a b c : RegNo)
  /-- `v.dot4s` (R155). -/
  | vDot4s (h : Hdr) (ty ty2 : Ty) (d a b c : RegNo)
  /-- `v.and` (R156). -/
  | vAnd (h : Hdr) (ty : Ty) (d a b : RegNo)
  /-- `v.or` (R156). -/
  | vOr (h : Hdr) (ty : Ty) (d a b : RegNo)
  /-- `v.xor` (R156). -/
  | vXor (h : Hdr) (ty : Ty) (d a b : RegNo)
  /-- `v.andn` (R156). -/
  | vAndn (h : Hdr) (ty : Ty) (d a b : RegNo)
  /-- `v.shl` (R156). -/
  | vShl (h : Hdr) (ty : Ty) (d a b : RegNo)
  /-- `v.shr` (R156). -/
  | vShr (h : Hdr) (ty : Ty) (d a b : RegNo)
  /-- `v.sra` (R156). -/
  | vSra (h : Hdr) (ty : Ty) (d a b : RegNo)
  /-- `v.rotl` (R156). -/
  | vRotl (h : Hdr) (ty : Ty) (d a b : RegNo)
  /-- `v.rotr` (R156). -/
  | vRotr (h : Hdr) (ty : Ty) (d a b : RegNo)
  /-- `v.addi` (R155). -/
  | vAddi (h : Hdr) (ty : Ty) (d a : RegNo) (imm : BitVec 8)
  /-- `v.addis` (R155). -/
  | vAddis (h : Hdr) (ty : Ty) (d a : RegNo) (imm : BitVec 8)
  /-- `v.andi` (R156). -/
  | vAndi (h : Hdr) (ty : Ty) (d a : RegNo) (imm : BitVec 8)
  /-- `v.ori` (R156). -/
  | vOri (h : Hdr) (ty : Ty) (d a : RegNo) (imm : BitVec 8)
  /-- `v.xori` (R156). -/
  | vXori (h : Hdr) (ty : Ty) (d a : RegNo) (imm : BitVec 8)
  /-- `v.shli` (R156). -/
  | vShli (h : Hdr) (ty : Ty) (d a : RegNo) (imm : BitVec 8)
  /-- `v.shri` (R156). -/
  | vShri (h : Hdr) (ty : Ty) (d a : RegNo) (imm : BitVec 8)
  /-- `v.srai` (R156). -/
  | vSrai (h : Hdr) (ty : Ty) (d a : RegNo) (imm : BitVec 8)
  /-- `v.rotli` (R156). -/
  | vRotli (h : Hdr) (ty : Ty) (d a : RegNo) (imm : BitVec 8)
  /-- `v.min` (R155). -/
  | vMin (h : Hdr) (ty : Ty) (d a b : RegNo)
  /-- `v.max` (R155). -/
  | vMax (h : Hdr) (ty : Ty) (d a b : RegNo)
  /-- `v.fshl` (R156). -/
  | vFshl (h : Hdr) (d a b c : RegNo)
  /-- `v.fshr` (R156). -/
  | vFshr (h : Hdr) (d a b c : RegNo)
  /-- `v.bfx` (R156). -/
  | vBfx (h : Hdr) (ty : Ty) (d a b : RegNo)
  /-- `v.bfi` (R156). -/
  | vBfi (h : Hdr) (d a b c : RegNo)
  /-- `v.popc` (R156). -/
  | vPopc (h : Hdr) (ty : Ty) (d a : RegNo)
  /-- `v.clz` (R156). -/
  | vClz (h : Hdr) (ty : Ty) (d a : RegNo)
  /-- `v.ctz` (R156). -/
  | vCtz (h : Hdr) (ty : Ty) (d a : RegNo)
  /-- `v.brev` (R156). -/
  | vBrev (h : Hdr) (ty : Ty) (d a : RegNo)
  /-- `v.perm` (R157). -/
  | vPerm (h : Hdr) (d a b c : RegNo)
  /-- `v.perms` (R157). -/
  | vPerms (h : Hdr) (d a b c : RegNo)
  /-- `v.cmp.cc` (R157). -/
  | vCmp (h : Hdr) (cc : Cc) (ty : Ty) (p : BitVec 4) (a b : RegNo)
  /-- `v.cmpi.cc` (R157). -/
  | vCmpi (h : Hdr) (cc : Cc) (ty : Ty) (p : BitVec 4) (a : RegNo) (imm : BitVec 8)
  /-- `v.sel` (R157). -/
  | vSel (h : Hdr) (ty : Ty) (d a b : RegNo) (p : BitVec 4) (neg : Bool)
  /-- `v.mov` (R157). -/
  | vMov (h : Hdr) (ty : Ty) (d a : RegNo)
  /-- `v.lid` (R157). -/
  | vLid (h : Hdr) (d : RegNo)
  /-- `v.glid` (R157). -/
  | vGlid (h : Hdr) (d : RegNo)
  /-- `v.movi` (R157). -/
  | vMovi (h : Hdr) (ty : Ty) (d : RegNo) (imm : BitVec 16)
  /-- `v.movhi` (R157). -/
  | vMovhi (h : Hdr) (d : RegNo) (imm : BitVec 16)
  /-- `v.cvt` (R158). -/
  | vCvt (h : Hdr) (ty ty2 : Ty) (d a : RegNo) (sat : Bool) (idx : BitVec 2)
  /-- `v.lea` (R159). -/
  | vLea (h : Hdr) (ty : Ty) (d a b : RegNo) (sh : BitVec 4)
  /-- `v.pand` (R160). -/
  | vPand (h : Hdr) (p pa pb : BitVec 4)
  /-- `v.por` (R160). -/
  | vPor (h : Hdr) (p pa pb : BitVec 4)
  /-- `v.pxor` (R160). -/
  | vPxor (h : Hdr) (p pa pb : BitVec 4)
  /-- `v.pandn` (R160). -/
  | vPandn (h : Hdr) (p pa pb : BitVec 4)
  /-- `v.pq` (R160). -/
  | vPq (h : Hdr) (p : BitVec 4) (qa : BitVec 3)
  /-- `v.fadd` (R164). -/
  | vFadd (h : Hdr) (ty : Ty) (d a b : RegNo)
  /-- `v.fsub` (R164). -/
  | vFsub (h : Hdr) (ty : Ty) (d a b : RegNo)
  /-- `v.fmul` (R164). -/
  | vFmul (h : Hdr) (ty : Ty) (d a b : RegNo)
  /-- `v.fma` (R164). -/
  | vFma (h : Hdr) (ty : Ty) (d a b c : RegNo)
  /-- `v.fms` (R164). -/
  | vFms (h : Hdr) (ty : Ty) (d a b c : RegNo)
  /-- `v.fnma` (R164). -/
  | vFnma (h : Hdr) (ty : Ty) (d a b c : RegNo)
  /-- `v.fnms` (R164). -/
  | vFnms (h : Hdr) (ty : Ty) (d a b c : RegNo)
  /-- `v.fmin` (R165). -/
  | vFmin (h : Hdr) (ty : Ty) (d a b : RegNo)
  /-- `v.fmax` (R165). -/
  | vFmax (h : Hdr) (ty : Ty) (d a b : RegNo)
  /-- `v.fneg` (R165). -/
  | vFneg (h : Hdr) (ty : Ty) (d a : RegNo)
  /-- `v.fabs` (R165). -/
  | vFabs (h : Hdr) (ty : Ty) (d a : RegNo)
  /-- `v.fcsgn` (R165). -/
  | vFcsgn (h : Hdr) (ty : Ty) (d a b : RegNo)
  /-- `v.fcmp.cc` (R167). -/
  | vFcmp (h : Hdr) (cc : Fcc) (p : BitVec 4) (a b : RegNo)
  /-- `v.fclass` (R167). -/
  | vFclass (h : Hdr) (d a : RegNo)
  /-- `v.fcvt` (R168). -/
  | vFcvt (h : Hdr) (ty ty2 : Ty) (d a : RegNo) (idx : BitVec 3)
  /-- `v.fcvt.pk` (R168). -/
  | vFcvtPk (h : Hdr) (ty : Ty) (d a b : RegNo)
  /-- `v.ftoi` (R169). -/
  | vFtoi (h : Hdr) (ty ty2 : Ty) (d a : RegNo) (idx : BitVec 3)
  /-- `v.itof` (R169). -/
  | vItof (h : Hdr) (ty ty2 : Ty) (d a : RegNo)
  /-- `v.fscl` (R170). -/
  | vFscl (h : Hdr) (ty : Ty) (d a b : RegNo)
  /-- `v.fqnt` (R170). -/
  | vFqnt (h : Hdr) (ty : Ty) (d a b : RegNo)
  /-- `v.frcp` (R171). -/
  | vFrcp (h : Hdr) (d a : RegNo)
  /-- `v.fsqrt` (R171). -/
  | vFsqrt (h : Hdr) (d a : RegNo)
  /-- `v.frsq` (R171). -/
  | vFrsq (h : Hdr) (d a : RegNo)
  /-- `v.fexp2` (R173). -/
  | vFexp2 (h : Hdr) (d a : RegNo)
  /-- `v.flog2` (R173). -/
  | vFlog2 (h : Hdr) (d a : RegNo)
  /-- `v.frr` (R174). -/
  | vFrr (h : Hdr) (d a : RegNo)
  /-- `v.frr.turn` (R174). -/
  | vFrrTurn (h : Hdr) (d a : RegNo)
  /-- `v.fsin` (R173). -/
  | vFsin (h : Hdr) (d a : RegNo)
  /-- `v.fcos` (R173). -/
  | vFcos (h : Hdr) (d a : RegNo)
  /-- `v.fsincos` (R173). -/
  | vFsincos (h : Hdr) (d a : RegNo)
  /-- `v.fdot2` (R166). -/
  | vFdot2 (h : Hdr) (ty2 : Ty) (d a b c : RegNo)
  /-- `v.shfl` (R175). -/
  | vShfl (h : Hdr) (ty : Ty) (d a b : RegNo)
  /-- `v.shup` (R175). -/
  | vShup (h : Hdr) (ty : Ty) (d a c : RegNo)
  /-- `v.shdn` (R175). -/
  | vShdn (h : Hdr) (ty : Ty) (d a c : RegNo)
  /-- `v.xswz` (R175). -/
  | vXswz (h : Hdr) (ty : Ty) (d a c : RegNo)
  /-- `v.bcast` (R175). -/
  | vBcast (h : Hdr) (ty : Ty) (d a c : RegNo)
  /-- `v.bcastf` (R175). -/
  | vBcastf (h : Hdr) (ty : Ty) (d a : RegNo)
  /-- `v.match` (R176). -/
  | vMatch (h : Hdr) (ty : Ty) (d a : RegNo)
  /-- `v.vote.any` (R177). -/
  | vVoteAny (h : Hdr) (p pa : BitVec 4)
  /-- `v.vote.all` (R177). -/
  | vVoteAll (h : Hdr) (p pa : BitVec 4)
  /-- `v.ballot` (R177). -/
  | vBallot (h : Hdr) (d : RegNo) (pa : BitVec 4)
  /-- `v.red.add` (R178). -/
  | vRedAdd (h : Hdr) (ty : Ty) (d a : RegNo)
  /-- `v.red.min` (R178). -/
  | vRedMin (h : Hdr) (ty : Ty) (d a : RegNo)
  /-- `v.red.max` (R178). -/
  | vRedMax (h : Hdr) (ty : Ty) (d a : RegNo)
  /-- `v.red.and` (R178). -/
  | vRedAnd (h : Hdr) (d a : RegNo)
  /-- `v.red.or` (R178). -/
  | vRedOr (h : Hdr) (d a : RegNo)
  /-- `v.red.xor` (R178). -/
  | vRedXor (h : Hdr) (d a : RegNo)
  /-- `v.scan.add` (R179). -/
  | vScanAdd (h : Hdr) (ty : Ty) (d a : RegNo)
  /-- `v.scan.min` (R179). -/
  | vScanMin (h : Hdr) (ty : Ty) (d a : RegNo)
  /-- `v.scan.max` (R179). -/
  | vScanMax (h : Hdr) (ty : Ty) (d a : RegNo)
  /-- `v.scan.addx` (R179). -/
  | vScanAddx (h : Hdr) (ty : Ty) (d a : RegNo)
  /-- `v.kgen` (R181). -/
  | vKgen (h : Hdr) (d a b c : RegNo)
  /-- `v.ld` (R267). -/
  | vLd (h : Hdr) (ty : Ty) (d a b c : RegNo) (m : MemF)
  /-- `v.st` (R267). -/
  | vSt (h : Hdr) (ty : Ty) (d a b c : RegNo) (m : MemF)
  /-- `v.ldr` (R268). -/
  | vLdr (h : Hdr) (ty : Ty) (d a b c : RegNo) (m : MemF) (p : BitVec 4)
  /-- `v.pf` (R269). -/
  | vPf (h : Hdr) (a b c : RegNo) (m : MemF)
  /-- `v.atom` (R272). -/
  | vAtom (h : Hdr) (aop : AtomOp) (ty : Ty) (d a b c : RegNo) (sp : Bool)
  /-- `v.atomn` (R272). -/
  | vAtomn (h : Hdr) (aop : AtomOp) (ty : Ty) (a b c : RegNo) (sp : Bool)
  /-- `v.cas` (R273). -/
  | vCas (h : Hdr) (ty : Ty) (d a b c : RegNo) (sp : Bool)
  /-- `ck.res` (R205). -/
  | ckRes (h : Hdr) (d a : RegNo)
  /-- `ck.vfy` (R205). -/
  | ckVfy (h : Hdr) (ty : Ty) (p : BitVec 4) (a : RegNo)
  /-- `ck.injr` (R205). -/
  | ckInjr (h : Hdr) (d a b : RegNo)
  /-- `ck.mcrd` (R205). -/
  | ckMcrd (h : Hdr) (d a : RegNo)
  /-- `ck.ecnt` (R205). -/
  | ckEcnt (h : Hdr) (d a : RegNo)
  /-- `ck.injm.g.ce` (R206). -/
  | ckInjmGCe (h : Hdr) (a : RegNo)
  /-- `ck.injm.g.ue` (R206). -/
  | ckInjmGUe (h : Hdr) (a : RegNo)
  /-- `ck.injm.vt.ce` (R206). -/
  | ckInjmVtCe (h : Hdr) (a : RegNo)
  /-- `ck.injm.vt.ue` (R206). -/
  | ckInjmVtUe (h : Hdr) (a : RegNo)
  /-- `mx.gang` (R300). -/
  | mxGang (h : Hdr) (d a b : RegNo)
  /-- `mx.free` (R304). -/
  | mxFree (h : Hdr)
  /-- `mx.mma` (R301). -/
  | mxMma (h : Hdr) (d a b c : RegNo) (acc z acq : Bool)
  /-- `mx.zero` (R313). -/
  | mxZero (h : Hdr) (d a c : RegNo)
  /-- `mx.ld` (R313). -/
  | mxLd (h : Hdr) (ty : Ty) (d a c : RegNo) (tr acq : Bool)
  /-- `mx.st` (R313). -/
  | mxSt (h : Hdr) (d a c : RegNo) (tr clr acq rel : Bool)
  /-- `sa.open` (R340). -/
  | saOpen (h : Hdr) (d a b c : RegNo)
  /-- `sa.close` (R357). -/
  | saClose (h : Hdr) (d a : RegNo)
  /-- `sa.norm` (R341). -/
  | saNorm (h : Hdr) (d a b : RegNo) (acq : Bool)
  /-- `sa.build` (R342). -/
  | saBuild (h : Hdr) (d a b c : RegNo)
  /-- `sa.draw` (R347). -/
  | saDraw (h : Hdr) (d a : RegNo) (acq : Bool)
  /-- `sa.fin` (R351). -/
  | saFin (h : Hdr) (d a : RegNo)
  /-- `sa.stat` (R337). -/
  | saStat (h : Hdr) (d a : RegNo)
  /-- `cp.copy` (R323). -/
  | cpCopy (h : Hdr) (d a b : RegNo) (acq rel : Bool)
  /-- `cp.mcast` (R324). -/
  | cpMcast (h : Hdr) (d a b c : RegNo) (acq rel : Bool)
  /-- `cp.off` (R329). -/
  | cpOff (h : Hdr) (d a b c : RegNo) (acq rel : Bool)
  /-- `cp.ret` (R330). -/
  | cpRet (h : Hdr) (d a b c : RegNo) (acq rel : Bool)
  /-- `cp.prom` (R325). -/
  | cpProm (h : Hdr) (d a : RegNo)
  /-- `cp.renew` (R328). -/
  | cpRenew (h : Hdr) (d a : RegNo)
  /-- `cp.cncl` (R328). -/
  | cpCncl (h : Hdr) (d a : RegNo)
  /-- `pg.req` (R255). -/
  | pgReq (h : Hdr) (d a : RegNo)
  /-- `pg.probe` (R255). -/
  | pgProbe (h : Hdr) (d a : RegNo)
  /-- `pg.shoot` (R247). -/
  | pgShoot (h : Hdr) (d a b : RegNo)
  /-- `pg.mig` (R255). -/
  | pgMig (h : Hdr) (d a b : RegNo)
  /-- `pg.cnt` (R255). -/
  | pgCnt (h : Hdr) (d a : RegNo)
  /-- `cl.run` (R383). -/
  | clRun (h : Hdr) (d a b : RegNo) (acq rel : Bool)
  /-- `cl.cncl` (R383). -/
  | clCncl (h : Hdr) (d a : RegNo)
  /-- `cl.info` (R383). -/
  | clInfo (h : Hdr) (d a : RegNo)
  /-- `cl.prog` (R383). -/
  | clProg (h : Hdr) (d a : RegNo)
  /-- `cl.abort` (R383). -/
  | clAbort (h : Hdr) (d a : RegNo)
  /-- `dp.launch` (R226). -/
  | dpLaunch (h : Hdr) (d a b : RegNo)
  /-- `dp.qstat` (R226). -/
  | dpQstat (h : Hdr) (d b : RegNo)
  /-- `dp.tadd` (R226). -/
  | dpTadd (h : Hdr) (d a : RegNo)
  /-- `dp.tdrop` (R226). -/
  | dpTdrop (h : Hdr) (d a : RegNo)
  /-- `dp.tdepth` (R226). -/
  | dpTdepth (h : Hdr) (d : RegNo)
  /-- `dp.lsovf` (R224). -/
  | dpLsovf (h : Hdr)
  /-- `dp.lsstep` (R224). -/
  | dpLsstep (h : Hdr)
  /-- `tk.price` (R402). -/
  | tkPrice (h : Hdr) (d a : RegNo)
  /-- `tk.wait` (R402). -/
  | tkWait (h : Hdr) (a : RegNo)
  /-- `tk.dbal` (R402). -/
  | tkDbal (h : Hdr) (d a : RegNo)
  /-- `tk.intent` (R429). -/
  | tkIntent (h : Hdr) (d a b : RegNo)
  /-- `tk.icncl` (R429). -/
  | tkIcncl (h : Hdr) (d a : RegNo)
  /-- COLD_BOOT (R450). -/
  | coldBoot (vset : Nat) (stackTemps portTemps : List Temp)
  /-- HOST_LINK_DOWN (R435). -/
  | hostLinkDown
  /-- OWNER_VACANCY (R440). -/
  | ownerVacancy
  /-- MCLAIM_WRITE (R440). -/
  | mclaimWrite (claims : List (Nat × DWord))
  /-- MACCEPT_WRITE (R440). -/
  | macceptWrite (master : Nat) (value : DWord)
  /-- MOWN_PEND_WRITE (R440). -/
  | mownPendWrite (master : Nat) (value : DWord)
  /-- PEND_TIMEOUT (R440). -/
  | pendTimeout
  /-- REGISTER_WRITE (R437). -/
  | registerWrite (master : Nat) (off : Nat) (value : DWord)
  /-- HOST_WINDOW_ACCESS (R438). -/
  | hostWindowAccess (write : Bool) (off n : Nat) (bytes : List Byte)
  /-- CTX_SAVE_CMD (R443). -/
  | ctxSaveCmd (master slot : Nat) (value : DWord)
  /-- CTX_RESTORE_CMD (R443). -/
  | ctxRestoreCmd (master slot : Nat) (value : DWord)
  /-- CTX_DESTROY_CMD (R443). -/
  | ctxDestroyCmd (master slot : Nat) (value : DWord)
  /-- CONTEXT_SAVE (R230). -/
  | contextSave (slot : Nat)
  /-- CONTEXT_SAVE_COMPLETE (R230). -/
  | contextSaveComplete (slot : Nat)
  /-- CONTEXT_DESTROY_COMPLETE (R443). -/
  | contextDestroyComplete (slot : Nat)
  /-- PARTCFG_WRITE (R442). -/
  | partcfgWrite (master : Nat) (value : DWord)
  /-- PART_WRITE (R444). -/
  | partWrite (master m : Nat) (value : DWord)
  /-- LINK_KEY_ZEROISE (R444). -/
  | linkKeyZeroise (m : Nat)
  /-- MEMORY_KEY_INSTALL (R446). -/
  | memoryKeyInstall (master : Nat)
  /-- LINK_KEY_INSTALL (R446). -/
  | linkKeyInstall (master : Nat)
  /-- CLEAR_KEY_SLOT (R446). -/
  | clearKeySlot (master : Nat)
  /-- ATTESTATION_REQUEST (R448). -/
  | attestationRequest (master : Nat)
  /-- PRICE_TABLE_WRITE (R388). -/
  | priceTableWrite (master c f : Nat) (value : DWord)
  /-- TKCORE_WRITE (R391). -/
  | tkcoreWrite (master core : Nat) (value : DWord)
  /-- LSCFG_WRITE (R208). -/
  | lscfgWrite (master slot : Nat) (value : DWord)
  /-- WEAR_COUNTER_SAVE (R451). -/
  | wearCounterSave
  /-- THERMAL_CYCLE_COUNT (R451). -/
  | thermalCycleCount (dt : Temp)
  /-- QUEUE_TABLE_ENTRY_WRITE (R209). -/
  | queueTableEntryWrite (slot q : Nat)
  /-- QUEUE_TAIL_STORE (R210). -/
  | queueTailStore (slot q : Nat)
  /-- LAUNCH_PACKET_CONSUME (R210). -/
  | launchPacketConsume (slot q : Nat)
  /-- PACKET_START (R211). -/
  | packetStart (slot q : Nat)
  /-- PACK_PLACE (R217). -/
  | packPlace (gid : Nat)
  /-- WHOLE_GRID_PLACE (R218). -/
  | wholeGridPlace (gid : Nat)
  /-- PARTIAL_EVICTION (R228). -/
  | partialEviction (gid : Nat)
  /-- EVICTION_DRAIN_DONE (R151). -/
  | evictionDrainDone (uid : Nat)
  /-- TEAM_RESTORE (R229). -/
  | teamRestore (uid : Nat)
  /-- GRID_END (R215). -/
  | gridEnd (gid : Nat)
  /-- TAPE_RUN_START (R222). -/
  | tapeRunStart (slot q : Nat)
  /-- TAPE_POP (R222). -/
  | tapePop (slot : Nat)
  /-- STEP_END_CLOSE (R224). -/
  | stepEndClose (slot q : Nat)
  /-- ISSUE_CYCLE (R396). -/
  | issueCycle (core : Nat)
  /-- MCREC_READABLE (R194). -/
  | mcrecReadable (core n : Nat)
  /-- PRECISE_STOP (R143). -/
  | preciseStop (uid : Nat)
  /-- ASYNC_FAULT (R33). -/
  | asyncFault (uid slot : Nat) (cause : Nat)
  /-- BARRIER_ARRIVAL (R116). -/
  | barrierArrival (i : Nat)
  /-- BARRIER_RELEASE (R118). -/
  | barrierRelease (uid : Nat)
  /-- BARRIER_TOKEN_RETURN (R116). -/
  | barrierTokenReturn (uid : Nat)
  /-- HANDLE_COMPLETE_WAKE (R121). -/
  | handleCompleteWake (uid : Nat)
  /-- SLEEP_WAKE (R121). -/
  | sleepWake (uid : Nat)
  /-- COPY_LATE_CHECK (R120). -/
  | copyLateCheck (uid : Nat)
  /-- CFETCH_LAND (R133). -/
  | cfetchLand (core slot : Nat)
  /-- CORE_REFILL (R393). -/
  | coreRefill (core : Nat)
  /-- DIE_REFILL (R393). -/
  | dieRefill
  /-- RESERVATION_TAKE (R397). -/
  | reservationTake (core uid : Nat)
  /-- RAMP_STEP (R407). -/
  | rampStep
  /-- GOVERNOR_CYCLE (R408). -/
  | governorCycle
  /-- INTENT_RECEIVE (R431). -/
  | intentReceive (peer idx gen dr lead part : Nat) (auth : Bool)
  /-- INTENT_CANCEL_RECEIVE (R429). -/
  | intentCancelReceive (peer idx gen part : Nat) (auth : Bool)
  /-- INTENT_EXPIRE (R430). -/
  | intentExpire (idx : Nat)
  /-- ISLAND_IDLE (R426). -/
  | islandIdle (i : Nat)
  /-- ISLAND_RETENTION (R426). -/
  | islandRetention (i : Nat)
  /-- ISLAND_WAKE (R427). -/
  | islandWake (i : Nat)
  /-- ISLAND_WAKE_DONE (R434). -/
  | islandWakeDone (i : Nat)
  /-- SUBARRAY_GATE (R317). -/
  | subarrayGate (v sub : Nat)
  /-- GANG_FORM (R300). -/
  | gangForm (v id : Nat)
  /-- WINDOW_ALLOCATE (R300). -/
  | windowAllocate (v : Nat)
  /-- MMA_LATCH_COMPLETE (R301). -/
  | mmaLatchComplete (v id : Nat)
  /-- MX_PASS_GRANT (R316). -/
  | mxPassGrant (v : Nat)
  /-- MX_PASS_END (R312). -/
  | mxPassEnd (v sub : Nat)
  /-- MX_WINDOW_OP_COMPLETE (R313). -/
  | mxWindowOpComplete (v op : Nat)
  /-- SA_COMMAND_START (R357). -/
  | saCommandStart (v slot : Nat)
  /-- SA_BATCH_PASS (R358). -/
  | saBatchPass (v slot : Nat)
  /-- SA_COMMAND_COMPLETE (R357). -/
  | saCommandComplete (v slot : Nat)
  /-- COPY_COMMAND_START (R326). -/
  | copyCommandStart (v : Nat) (remote : Bool)
  /-- COPY_COMPLETE (R323). -/
  | copyComplete (v : Nat) (remote : Bool)
  /-- CL_PROGRAM_START (R369). -/
  | clProgramStart (ch : Nat)
  /-- CL_STEP_START (R373). -/
  | clStepStart (ch : Nat)
  /-- CL_MESSAGE_ARRIVE (R378). -/
  | clMessageArrive (msg : ClMsg)
  /-- CL_STEP_COMPLETE (R373). -/
  | clStepComplete (ch idx : Nat)
  /-- CL_STEP_TIMEOUT (R379). -/
  | clStepTimeout (ch idx : Nat)
  /-- CL_ABORT_ARRIVE (R379). -/
  | clAbortArrive (msg : ClMsg)
  /-- FABRIC_PEER_LOST (R379). -/
  | fabricPeerLost (peer : Nat)
  /-- FABRIC_PORT_DOWN (R362). -/
  | fabricPortDown (port : Nat)
  /-- LLC_MISS_TRANSLATE (R234). -/
  | llcMissTranslate (slot va : Nat) (acc : Acc)
  /-- PAGE_WALK_COMPLETE (R238). -/
  | pageWalkComplete (slot va : Nat)
  /-- REMOTE_REQUEST_ARRIVE (R243). -/
  | remoteRequestArrive (req : RemoteReq)
  /-- PENDING_REQUEST_REWALK (R246). -/
  | pendingRequestRewalk (slot : Nat)
  /-- ATS_INVALIDATE (R253). -/
  | atsInvalidate (pasid va n : Nat)
  /-- PRI_RESPONSE (R252). -/
  | priResponse (pasid va : Nat) (success : Bool)
  /-- MREQ_ARRIVE (R249). -/
  | mreqArrive (peer part va : Nat)
  /-- MIGRATION_HOLD (R249). -/
  | migrationHold (slot va : Nat)
  /-- MIGRATION_SWITCH (R249). -/
  | migrationSwitch (slot va : Nat) (incoming : Bool) (bytes : List Byte)
  /-- HOME_STORE_REGISTER (R284). -/
  | homeStoreRegister (i : Nat)
  /-- REVOKE_ACK (R284). -/
  | revokeAck (i : Nat)
  /-- ATOMIC_APPLY (R274). -/
  | atomicApply (i : Nat)
  /-- LOAD_DATA_RETURN (R266). -/
  | loadDataReturn (uid : Nat)
  /-- SCRUB_READ (R200). -/
  | scrubRead
  /-- HOST_LINK_UP (R435). -/
  | hostLinkUp
  /-- FABRIC_PORT_UP (R362). -/
  | fabricPortUp (port : Nat)
  /-- POWER_LOSS (R451). -/
  | powerLoss
  /-- HOURS_AT_TEMPERATURE (R451). -/
  | hoursAtTemperature (temp : Temp)
  /-- ATS_TRANSLATION_COMPLETION (R252). -/
  | atsTranslationCompletion (pasid va : Nat) (r w : Bool)
  /-- ZERO_LENGTH_READ_COMPLETE (R295). -/
  | zeroLengthReadComplete (tag : Nat)
  /-- CONTEXT_RESTORE_COMPLETE (R443). -/
  | contextRestoreComplete (slot : Nat)
  /-- MIGRATION_REFUSAL (R249). -/
  | migrationRefusal (slot va peer : Nat)
  /-- CODE_SLOT_PIN_EXPIRY (R131). -/
  | codeSlotPinExpiry (core slot : Nat)
  deriving DecidableEq, Repr

end Sys2Proof
end

