-- ==== Sys2Proof/WellFormed.lean ====
section
/-! DEFINITION. Well-formed instructions: exactly those an encoding names (R67 to R79). A word constructor carries only
type codes its row accepts, a lookahead count only where its row is long-latency (R76), a uniform guard below 8 (R74),
and, with X = 0, the fields of the short form (R77). An event carries no encoding and is not well-formed as a word. -/

namespace Sys2Proof

/-- HINT 3 is illegal, and so is any hint on a vault access (R262). -/
def MemF.okLdSt (m : MemF) : Bool := m.hint != 3#2 && (!m.sp || m.hint == 0#2)

/-- `v.ldr` reaches the global space only (R264). -/
def MemF.okGlobal (m : MemF) : Bool := m.okLdSt && !m.sp

/-- `v.pf`: global, no Q, LEVEL 0 to 2 (R264, R269). -/
def MemF.okPrefetch (m : MemF) : Bool := !m.sp && !m.q && m.hint != 3#2

/-- With X = 0 the header holds no guard and no lookahead (R77). -/
def Hdr.ok (h : Hdr) : Bool := h.x || (h.g == 0#4 && !h.gn && h.la == 0#4)

/-- The header of a lane word that is not long-latency: LA is zero (R76). -/
def Hdr.okLane (h : Hdr) : Bool := h.ok && h.la == 0#4

/-- The header of a uniform word: its guard names q0 to q7 (R74). -/
def Hdr.okUniLong (h : Hdr) : Bool := h.ok && !h.g.getLsbD 3

/-- The header of a uniform word that is not long-latency. -/
def Hdr.okUni (h : Hdr) : Bool := h.okUniLong && h.la == 0#4

/-- Well-formedness of an instruction word. -/
def Instr.wf : Instr → Bool
  | .sAdd h ty _ _ _ => h.okUni && ([.s32, .s64, .n32, .n64] : List Ty).contains ty && (h.x || (ty == .s32))
  | .sSub h ty _ _ _ => h.okUni && ([.s32, .s64, .n32, .n64] : List Ty).contains ty && (h.x || (ty == .s32))
  | .sMul h ty _ _ _ => h.okUni && ([.s32, .n32] : List Ty).contains ty && (h.x || (ty == .s32))
  | .sMulh h ty _ _ _ => h.okUni && ([.s32, .n32] : List Ty).contains ty && h.x
  | .sAnd h ty _ _ _ => h.okUni && ([.b32, .b64] : List Ty).contains ty && (h.x || (ty == .b32))
  | .sOr h ty _ _ _ => h.okUni && ([.b32, .b64] : List Ty).contains ty && h.x
  | .sXor h ty _ _ _ => h.okUni && ([.b32, .b64] : List Ty).contains ty && h.x
  | .sAndn h ty _ _ _ => h.okUni && ([.b32, .b64] : List Ty).contains ty && h.x
  | .sShl h ty _ _ _ => h.okUni && ([.b32, .b64] : List Ty).contains ty && (h.x || (ty == .b32))
  | .sShr h ty _ _ _ => h.okUni && ([.b32, .b64] : List Ty).contains ty && h.x
  | .sSra h ty _ _ _ => h.okUni && ([.b32, .b64] : List Ty).contains ty && h.x
  | .sMin h ty _ _ _ => h.okUni && ([.s32, .s64, .n32, .n64] : List Ty).contains ty && (h.x || (ty == .s32))
  | .sMax h ty _ _ _ => h.okUni && ([.s32, .s64, .n32, .n64] : List Ty).contains ty && h.x
  | .sLea h ty _ _ _ sh => h.okUni && ([.s32, .n32] : List Ty).contains ty && (h.x || (ty == .n32 && sh == 0#4))
  | .sAddi h ty _ _ _ => h.okUni && ([.s32, .s64] : List Ty).contains ty && (h.x || (ty == .s32))
  | .sAndi h ty _ _ _ => h.okUni && ([.b32, .b64] : List Ty).contains ty && (h.x || (ty == .b32))
  | .sOri h ty _ _ _ => h.okUni && ([.b32, .b64] : List Ty).contains ty && h.x
  | .sXori h ty _ _ _ => h.okUni && ([.b32, .b64] : List Ty).contains ty && h.x
  | .sShli h ty _ _ _ => h.okUni && ([.b32, .b64] : List Ty).contains ty && h.x
  | .sShri h ty _ _ _ => h.okUni && ([.b32, .b64] : List Ty).contains ty && h.x
  | .sSrai h ty _ _ _ => h.okUni && ([.b32, .b64] : List Ty).contains ty && h.x
  | .sMovi h ty _ _ => h.okUni && ([.s32, .s64, .n32] : List Ty).contains ty && (h.x || (ty == .s32))
  | .sMovhi h _ _ => h.okUni
  | .sCmp h cc ty _ _ _ => h.okUni && ([.s32, .s64, .n32, .n64] : List Ty).contains ty && (h.x || (ty == .s32 && cc == .eq))
  | .sCmpi h cc ty _ _ _ => h.okUni && ([.s32, .s64, .n32, .n64] : List Ty).contains ty && (h.x || (ty == .s32 && cc == .eq))
  | .sSel h ty _ _ _ _ _ => h.okUni && ([.b32, .b64] : List Ty).contains ty && h.x
  | .sMov h ty _ _ _ => h.okUni && ([.b32, .b64] : List Ty).contains ty && (h.x || (ty == .b32))
  | .sVrd h ty _ _ _ _ => h.okUni && ([.b32, .b64] : List Ty).contains ty && h.x
  | .sVrdf h ty _ _ _ => h.okUni && ([.b32, .b64] : List Ty).contains ty && h.x
  | .sQand h _ _ _ => h.okUni
  | .sQor h _ _ _ => h.okUni && h.x
  | .sQxor h _ _ _ => h.okUni && h.x
  | .sQany h _ _ => h.okUni && h.x
  | .sQall h _ _ => h.okUni && h.x
  | .sJmp h _ rcv => h.okUni && (h.x || (rcv == 0#13))
  | .sBr h _ _ _ => h.okUni && h.x
  | .sBrAll h _ _ rcv => h.okUni && (h.x || (rcv == 0#13))
  | .sBrAny h _ _ rcv => h.okUni && (h.x || (rcv == 0#13))
  | .sLoop h n _ _ => h.okUni && n != 62#6 && h.x
  | .sCall h _ rcv => h.okUni && (h.x || (rcv == 0#13))
  | .sJr h _ rcv => h.okUni && (h.x || (rcv == 0#13))
  | .sCallr h _ rcv => h.okUni && (h.x || (rcv == 0#13))
  | .sBtab h _ _ targets => h.okUni && targets.length != 0 && decide (targets.length ≤ 256) && h.x
  | .sBtabc h _ _ targets => h.okUni && targets.length != 0 && decide (targets.length ≤ 256) && h.x
  | .sExit h => h.okUni
  | .sNop h => h.okUni
  | .sBarSync h _ _ => h.okUni
  | .sBarArr h _ _ _ => h.okUni && h.x
  | .sBarWait h _ _ => h.okUni && h.x
  | .sSleepu h _ => h.okUni
  | .sWait h _ _ => h.okUni
  | .sPoll h _ _ => h.okUni && h.x
  | .sWaitall h => h.okUni && h.x
  | .sFenceAcq h => h.okUni
  | .sFenceRel h => h.okUni && h.x
  | .sFenceAcqrel h => h.okUni && h.x
  | .sFenceSc h => h.okUni && h.x
  | .sFmt h _ => h.okUni
  | .sCsrr h _ _ => h.okUni
  | .sCsrw h _ _ => h.okUni && h.x
  | .sCsrs h _ _ => h.okUni && h.x
  | .sCsrc h _ _ => h.okUni && h.x
  | .sSeed h _ _ => h.okUni
  | .sSeedmix h _ _ => h.okUni && h.x
  | .sCfetch h _ _ _ => h.okUniLong && h.x
  | .sCfetchReload h _ _ _ => h.okUniLong && h.x
  | .sCstat h _ _ => h.okUni && h.x
  | .sJmpf h _ => h.okUni
  | .sCfence h => h.okUni && h.x
  | .sTrap h _ => h.okUni
  | .sBrk h _ => h.okUni
  | .sRth h => h.okUni && !h.x
  | .vAdd h ty _ _ _ => h.okLane && ([.s8, .s16, .s32, .s64, .n8, .n16, .n32, .n64] : List Ty).contains ty && (h.x || (ty == .s32))
  | .vAdds h ty _ _ _ => h.okLane && ([.s8, .s16, .s32, .s64, .n8, .n16, .n32, .n64] : List Ty).contains ty && h.x
  | .vSub h ty _ _ _ => h.okLane && ([.s8, .s16, .s32, .s64, .n8, .n16, .n32, .n64] : List Ty).contains ty && (h.x || (ty == .s32))
  | .vSubs h ty _ _ _ => h.okLane && ([.s8, .s16, .s32, .s64, .n8, .n16, .n32, .n64] : List Ty).contains ty && h.x
  | .vMul h ty _ _ _ => h.okLane && ([.s32, .s64, .n32, .n64] : List Ty).contains ty && (h.x || (ty == .s32))
  | .vMulh h ty _ _ _ => h.okLane && ([.s32, .n32] : List Ty).contains ty && h.x
  | .vMulw h ty _ _ _ => h.okLane && ([.s32, .n32] : List Ty).contains ty && h.x
  | .vMad h ty _ _ _ _ => h.okLane && ([.s32, .s64, .n32, .n64] : List Ty).contains ty && h.x
  | .vMadh h ty _ _ _ _ => h.okLane && ([.s32, .n32] : List Ty).contains ty && h.x
  | .vMadw h ty _ _ _ _ => h.okLane && ([.s32, .n32] : List Ty).contains ty && h.x
  | .vDot4 h ty ty2 _ _ _ _ => h.okLane && ([.s8, .n8] : List Ty).contains ty && ([.s8, .n8] : List Ty).contains ty2 && h.x
  | .vDot4s h ty ty2 _ _ _ _ => h.okLane && ([.s8, .n8] : List Ty).contains ty && ([.s8, .n8] : List Ty).contains ty2 && h.x
  | .vAnd h ty _ _ _ => h.okLane && ([.b32, .b64] : List Ty).contains ty && (h.x || (ty == .b32))
  | .vOr h ty _ _ _ => h.okLane && ([.b32, .b64] : List Ty).contains ty && h.x
  | .vXor h ty _ _ _ => h.okLane && ([.b32, .b64] : List Ty).contains ty && h.x
  | .vAndn h ty _ _ _ => h.okLane && ([.b32, .b64] : List Ty).contains ty && h.x
  | .vShl h ty _ _ _ => h.okLane && ([.b32, .b64] : List Ty).contains ty && (h.x || (ty == .b32))
  | .vShr h ty _ _ _ => h.okLane && ([.b32, .b64] : List Ty).contains ty && h.x
  | .vSra h ty _ _ _ => h.okLane && ([.b32, .b64] : List Ty).contains ty && h.x
  | .vRotl h ty _ _ _ => h.okLane && ([.b32, .b64] : List Ty).contains ty && h.x
  | .vRotr h ty _ _ _ => h.okLane && ([.b32, .b64] : List Ty).contains ty && h.x
  | .vAddi h ty _ _ _ => h.okLane && ([.s32, .s64, .n32, .n64] : List Ty).contains ty && (h.x || (ty == .s32))
  | .vAddis h ty _ _ _ => h.okLane && ([.s32, .s64, .n32, .n64] : List Ty).contains ty && h.x
  | .vAndi h ty _ _ _ => h.okLane && ([.b32, .b64] : List Ty).contains ty && h.x
  | .vOri h ty _ _ _ => h.okLane && ([.b32, .b64] : List Ty).contains ty && h.x
  | .vXori h ty _ _ _ => h.okLane && ([.b32, .b64] : List Ty).contains ty && h.x
  | .vShli h ty _ _ _ => h.okLane && ([.b32, .b64] : List Ty).contains ty && h.x
  | .vShri h ty _ _ _ => h.okLane && ([.b32, .b64] : List Ty).contains ty && h.x
  | .vSrai h ty _ _ _ => h.okLane && ([.b32, .b64] : List Ty).contains ty && h.x
  | .vRotli h ty _ _ _ => h.okLane && ([.b32, .b64] : List Ty).contains ty && h.x
  | .vMin h ty _ _ _ => h.okLane && ([.s8, .s16, .s32, .s64, .n8, .n16, .n32, .n64] : List Ty).contains ty && (h.x || (ty == .s32))
  | .vMax h ty _ _ _ => h.okLane && ([.s8, .s16, .s32, .s64, .n8, .n16, .n32, .n64] : List Ty).contains ty && h.x
  | .vFshl h _ _ _ _ => h.okLane && h.x
  | .vFshr h _ _ _ _ => h.okLane && h.x
  | .vBfx h ty _ _ _ => h.okLane && ([.s32, .n32] : List Ty).contains ty && (h.x || (ty == .n32))
  | .vBfi h _ _ _ _ => h.okLane && h.x
  | .vPopc h ty _ _ => h.okLane && ([.b32, .b64] : List Ty).contains ty && (h.x || (ty == .b32))
  | .vClz h ty _ _ => h.okLane && ([.b32, .b64] : List Ty).contains ty && h.x
  | .vCtz h ty _ _ => h.okLane && ([.b32, .b64] : List Ty).contains ty && h.x
  | .vBrev h ty _ _ => h.okLane && ([.b32, .b64] : List Ty).contains ty && h.x
  | .vPerm h _ _ _ _ => h.okLane && h.x
  | .vPerms h _ _ _ _ => h.okLane && h.x
  | .vCmp h cc ty _ _ _ => h.okLane && ([.s32, .s64, .n32, .n64] : List Ty).contains ty && (h.x || (ty == .s32 && cc == .eq))
  | .vCmpi h cc ty _ _ _ => h.okLane && ([.s32, .s64, .n32, .n64] : List Ty).contains ty && (h.x || (ty == .s32 && cc == .eq))
  | .vSel h ty _ _ _ _ _ => h.okLane && ([.b32, .b64] : List Ty).contains ty && h.x
  | .vMov h ty _ _ => h.okLane && ([.b32, .b64] : List Ty).contains ty && (h.x || (ty == .b32))
  | .vLid h _ => h.okLane && h.x
  | .vGlid h _ => h.okLane && h.x
  | .vMovi h ty _ _ => h.okLane && ([.s32, .s64, .n32] : List Ty).contains ty && (h.x || (ty == .s32))
  | .vMovhi h _ _ => h.okLane && h.x
  | .vCvt h ty ty2 _ _ _ _ => h.okLane && ([.s8, .s16, .s32, .s64, .n8, .n16, .n32, .n64] : List Ty).contains ty && ([.s8, .s16, .s32, .s64, .n8, .n16, .n32, .n64] : List Ty).contains ty2 && h.x
  | .vLea h ty _ _ _ sh => h.okLane && ([.s32, .n32] : List Ty).contains ty && (h.x || (ty == .n32 && sh == 0#4))
  | .vPand h _ _ _ => h.okLane
  | .vPor h _ _ _ => h.okLane && h.x
  | .vPxor h _ _ _ => h.okLane && h.x
  | .vPandn h _ _ _ => h.okLane && h.x
  | .vPq h _ _ => h.okLane && h.x
  | .vFadd h ty _ _ _ => h.okLane && ([.f16, .bf16, .f32] : List Ty).contains ty && (h.x || (ty == .f32))
  | .vFsub h ty _ _ _ => h.okLane && ([.f16, .bf16, .f32] : List Ty).contains ty && h.x
  | .vFmul h ty _ _ _ => h.okLane && ([.f16, .bf16, .f32] : List Ty).contains ty && (h.x || (ty == .f32))
  | .vFma h ty _ _ _ _ => h.okLane && ([.f16, .bf16, .f32] : List Ty).contains ty && h.x
  | .vFms h ty _ _ _ _ => h.okLane && ([.f16, .bf16, .f32] : List Ty).contains ty && h.x
  | .vFnma h ty _ _ _ _ => h.okLane && ([.f16, .bf16, .f32] : List Ty).contains ty && h.x
  | .vFnms h ty _ _ _ _ => h.okLane && ([.f16, .bf16, .f32] : List Ty).contains ty && h.x
  | .vFmin h ty _ _ _ => h.okLane && ([.f16, .bf16, .f32] : List Ty).contains ty && (h.x || (ty == .f32))
  | .vFmax h ty _ _ _ => h.okLane && ([.f16, .bf16, .f32] : List Ty).contains ty && h.x
  | .vFneg h ty _ _ => h.okLane && ([.f16, .bf16, .f32] : List Ty).contains ty && h.x
  | .vFabs h ty _ _ => h.okLane && ([.f16, .bf16, .f32] : List Ty).contains ty && h.x
  | .vFcsgn h ty _ _ _ => h.okLane && ([.f16, .bf16, .f32] : List Ty).contains ty && h.x
  | .vFcmp h cc _ _ _ => h.okLane && (h.x || (cc == .eq))
  | .vFclass h _ _ => h.okLane
  | .vFcvt h ty ty2 _ _ _ => h.okLane && ([.f16, .bf16, .f32, .e4m3, .e2m1, .e5m2] : List Ty).contains ty && ([.f16, .bf16, .f32, .e4m3, .e2m1, .e5m2] : List Ty).contains ty2 && h.x
  | .vFcvtPk h ty _ _ _ => h.okLane && ([.f16, .bf16] : List Ty).contains ty && h.x
  | .vFtoi h ty ty2 _ _ _ => h.okLane && ([.s8, .s16, .s32, .s64, .n8, .n16, .n32, .n64] : List Ty).contains ty && ([.f16, .bf16, .f32] : List Ty).contains ty2 && h.x
  | .vItof h ty ty2 _ _ => h.okLane && ([.f16, .bf16, .f32] : List Ty).contains ty && ([.s32, .s64, .n32, .n64] : List Ty).contains ty2 && h.x
  | .vFscl h ty _ _ _ => h.okLane && ([.s8, .e4m3, .e2m1, .e5m2] : List Ty).contains ty && h.x
  | .vFqnt h ty _ _ _ => h.okLane && ([.s8, .e4m3, .e2m1, .e5m2] : List Ty).contains ty && h.x
  | .vFrcp h _ _ => h.okLane
  | .vFsqrt h _ _ => h.okLane && h.x
  | .vFrsq h _ _ => h.okLane && h.x
  | .vFexp2 h _ _ => h.okLane
  | .vFlog2 h _ _ => h.okLane && h.x
  | .vFrr h _ _ => h.okLane
  | .vFrrTurn h _ _ => h.okLane && h.x
  | .vFsin h _ _ => h.okLane && h.x
  | .vFcos h _ _ => h.okLane && h.x
  | .vFsincos h _ _ => h.okLane && h.x
  | .vFdot2 h ty2 _ _ _ _ => h.okLane && ([.f16, .bf16] : List Ty).contains ty2 && h.x
  | .vShfl h ty _ _ _ => h.okLane && ([.b32, .b64] : List Ty).contains ty && (h.x || (ty == .b32))
  | .vShup h ty _ _ _ => h.okLane && ([.b32, .b64] : List Ty).contains ty && h.x
  | .vShdn h ty _ _ _ => h.okLane && ([.b32, .b64] : List Ty).contains ty && h.x
  | .vXswz h ty _ _ _ => h.okLane && ([.b32, .b64] : List Ty).contains ty && h.x
  | .vBcast h ty _ _ _ => h.okLane && ([.b32, .b64] : List Ty).contains ty && h.x
  | .vBcastf h ty _ _ => h.okLane && ([.b32, .b64] : List Ty).contains ty && h.x
  | .vMatch h ty _ _ => h.okLane && ([.b32, .b64] : List Ty).contains ty && (h.x || (ty == .b32))
  | .vVoteAny h _ _ => h.okLane
  | .vVoteAll h _ _ => h.okLane && h.x
  | .vBallot h _ _ => h.okLane && h.x
  | .vRedAdd h ty _ _ => h.okLane && ([.s32, .n32, .f32] : List Ty).contains ty && h.x
  | .vRedMin h ty _ _ => h.okLane && ([.s32, .n32, .f32] : List Ty).contains ty && h.x
  | .vRedMax h ty _ _ => h.okLane && ([.s32, .n32, .f32] : List Ty).contains ty && h.x
  | .vRedAnd h _ _ => h.okLane && h.x
  | .vRedOr h _ _ => h.okLane && h.x
  | .vRedXor h _ _ => h.okLane && h.x
  | .vScanAdd h ty _ _ => h.okLane && ([.s32, .n32, .f32] : List Ty).contains ty && h.x
  | .vScanMin h ty _ _ => h.okLane && ([.s32, .n32, .f32] : List Ty).contains ty && h.x
  | .vScanMax h ty _ _ => h.okLane && ([.s32, .n32, .f32] : List Ty).contains ty && h.x
  | .vScanAddx h ty _ _ => h.okLane && ([.s32, .n32] : List Ty).contains ty && h.x
  | .vKgen h _ _ _ _ => h.okLane && h.x
  | .vLd h ty _ _ b _ m => h.ok && ([.s8, .s16, .n8, .n16, .b32, .b64] : List Ty).contains ty && MemF.okLdSt m && (m.ix || b == 0#8) && (!m.q || ty == .b64) && h.x
  | .vSt h ty _ _ b _ m => h.ok && ([.s8, .s16, .n8, .n16, .b32, .b64] : List Ty).contains ty && MemF.okLdSt m && (m.ix || b == 0#8) && (!m.q || ty == .b64) && h.x
  | .vLdr h ty _ _ b _ m _ => h.ok && ([.s8, .s16, .n8, .n16, .b32, .b64] : List Ty).contains ty && MemF.okGlobal m && (m.ix || b == 0#8) && (!m.q || ty == .b64) && h.x
  | .vPf h _ b _ m => h.okLane && MemF.okPrefetch m && (m.ix || b == 0#8) && h.x
  | .vAtom h aop ty _ _ b _ _ => h.ok && aop.accepts ty && (aop != .rr || b == 0#8) && h.x
  | .vAtomn h aop ty _ b _ _ => h.ok && aop.accepts ty && (aop != .rr || b == 0#8) && h.x
  | .vCas h ty _ _ _ _ _ => h.ok && ([.b32, .b64] : List Ty).contains ty && h.x
  | .ckRes h _ _ => h.okLane
  | .ckVfy h ty _ _ => h.okLane && ([.b32, .b64] : List Ty).contains ty && h.x
  | .ckInjr h _ _ _ => h.okLane && h.x
  | .ckMcrd h _ _ => h.okLane
  | .ckEcnt h _ _ => h.okLane && h.x
  | .ckInjmGCe h _ => h.ok && h.x
  | .ckInjmGUe h _ => h.ok && h.x
  | .ckInjmVtCe h _ => h.ok && h.x
  | .ckInjmVtUe h _ => h.ok && h.x
  | .mxGang h _ _ _ => h.okUni
  | .mxFree h => h.okUni && h.x
  | .mxMma h _ _ _ _ _ _ _ => h.okUni && h.x
  | .mxZero h _ _ _ => h.okUni && h.x
  | .mxLd h ty _ _ _ _ _ => h.okUni && ([.f16, .bf16, .f32] : List Ty).contains ty && h.x
  | .mxSt h _ _ _ _ _ _ _ => h.okUni && h.x
  | .saOpen h _ _ _ _ => h.okUni && h.x
  | .saClose h _ _ => h.okUni && h.x
  | .saNorm h _ _ _ acq => h.okUni && (h.x || (!acq))
  | .saBuild h _ _ _ _ => h.okUni && h.x
  | .saDraw h _ _ acq => h.okUni && (h.x || (!acq))
  | .saFin h _ _ => h.okUni && h.x
  | .saStat h _ _ => h.okUniLong && h.x
  | .cpCopy h _ _ _ acq rel => h.okUni && (h.x || (!rel && !acq))
  | .cpMcast h _ _ _ _ _ _ => h.okUni && h.x
  | .cpOff h _ _ _ _ _ _ => h.okUni && h.x
  | .cpRet h _ _ _ _ _ _ => h.okUni && h.x
  | .cpProm h _ _ => h.okUni
  | .cpRenew h _ _ => h.okUni && h.x
  | .cpCncl h _ _ => h.okUni && h.x
  | .pgReq h _ _ => h.okUni
  | .pgProbe h _ _ => h.okUniLong && h.x
  | .pgShoot h _ _ _ => h.okUni
  | .pgMig h _ _ _ => h.okUni
  | .pgCnt h _ _ => h.okUniLong && h.x
  | .clRun h _ _ _ acq rel => h.okUni && (h.x || (!rel && !acq))
  | .clCncl h _ _ => h.okUni
  | .clInfo h _ _ => h.okUniLong && h.x
  | .clProg h _ _ => h.okUniLong && h.x
  | .clAbort h _ _ => h.okUni
  | .dpLaunch h _ _ _ => h.okUni
  | .dpQstat h _ _ => h.okUni && h.x
  | .dpTadd h _ _ => h.okUni
  | .dpTdrop h _ _ => h.okUni && h.x
  | .dpTdepth h _ => h.okUni && h.x
  | .dpLsovf h => h.okUni
  | .dpLsstep h => h.okUni && h.x
  | .tkPrice h _ _ => h.okUni
  | .tkWait h _ => h.okUni && h.x
  | .tkDbal h _ _ => h.okUni && h.x
  | .tkIntent h _ _ _ => h.okUni && h.x
  | .tkIcncl h _ _ => h.okUni && h.x
  | .coldBoot _ _ _ => false
  | .hostLinkDown => false
  | .ownerVacancy => false
  | .mclaimWrite _ => false
  | .macceptWrite _ _ => false
  | .mownPendWrite _ _ => false
  | .pendTimeout => false
  | .registerWrite _ _ _ => false
  | .hostWindowAccess _ _ _ _ => false
  | .ctxSaveCmd _ _ _ => false
  | .ctxRestoreCmd _ _ _ => false
  | .ctxDestroyCmd _ _ _ => false
  | .contextSave _ => false
  | .contextSaveComplete _ => false
  | .contextDestroyComplete _ => false
  | .partcfgWrite _ _ => false
  | .partWrite _ _ _ => false
  | .linkKeyZeroise _ => false
  | .memoryKeyInstall _ => false
  | .linkKeyInstall _ => false
  | .clearKeySlot _ => false
  | .attestationRequest _ => false
  | .priceTableWrite _ _ _ _ => false
  | .tkcoreWrite _ _ _ => false
  | .lscfgWrite _ _ _ => false
  | .wearCounterSave => false
  | .thermalCycleCount _ => false
  | .queueTableEntryWrite _ _ => false
  | .queueTailStore _ _ => false
  | .launchPacketConsume _ _ => false
  | .packetStart _ _ => false
  | .packPlace _ => false
  | .wholeGridPlace _ => false
  | .partialEviction _ => false
  | .evictionDrainDone _ => false
  | .teamRestore _ => false
  | .gridEnd _ => false
  | .tapeRunStart _ _ => false
  | .tapePop _ => false
  | .stepEndClose _ _ => false
  | .issueCycle _ => false
  | .mcrecReadable _ _ => false
  | .preciseStop _ => false
  | .asyncFault _ _ _ => false
  | .barrierArrival _ => false
  | .barrierRelease _ => false
  | .barrierTokenReturn _ => false
  | .handleCompleteWake _ => false
  | .sleepWake _ => false
  | .copyLateCheck _ => false
  | .cfetchLand _ _ => false
  | .coreRefill _ => false
  | .dieRefill => false
  | .reservationTake _ _ => false
  | .rampStep => false
  | .governorCycle => false
  | .intentReceive _ _ _ _ _ _ _ => false
  | .intentCancelReceive _ _ _ _ _ => false
  | .intentExpire _ => false
  | .islandIdle _ => false
  | .islandRetention _ => false
  | .islandWake _ => false
  | .islandWakeDone _ => false
  | .subarrayGate _ _ => false
  | .gangForm _ _ => false
  | .windowAllocate _ => false
  | .mmaLatchComplete _ _ => false
  | .mxPassGrant _ => false
  | .mxPassEnd _ _ => false
  | .mxWindowOpComplete _ _ => false
  | .saCommandStart _ _ => false
  | .saBatchPass _ _ => false
  | .saCommandComplete _ _ => false
  | .copyCommandStart _ _ => false
  | .copyComplete _ _ => false
  | .clProgramStart _ => false
  | .clStepStart _ => false
  | .clMessageArrive _ => false
  | .clStepComplete _ _ => false
  | .clStepTimeout _ _ => false
  | .clAbortArrive _ => false
  | .fabricPeerLost _ => false
  | .fabricPortDown _ => false
  | .llcMissTranslate _ _ _ => false
  | .pageWalkComplete _ _ => false
  | .remoteRequestArrive _ => false
  | .pendingRequestRewalk _ => false
  | .atsInvalidate _ _ _ => false
  | .priResponse _ _ _ => false
  | .mreqArrive _ _ _ => false
  | .migrationHold _ _ => false
  | .migrationSwitch _ _ _ _ => false
  | .homeStoreRegister _ => false
  | .revokeAck _ => false
  | .atomicApply _ => false
  | .loadDataReturn _ => false
  | .scrubRead => false
  | .hostLinkUp => false
  | .fabricPortUp _ => false
  | .powerLoss => false
  | .hoursAtTemperature _ => false
  | .atsTranslationCompletion _ _ _ _ => false
  | .zeroLengthReadComplete _ => false
  | .contextRestoreComplete _ => false
  | .migrationRefusal _ _ _ => false
  | .codeSlotPinExpiry _ _ => false

end Sys2Proof
end

