-- ==== Sys2Proof/Decode.lean ====
section
/-! DEFINITION. The decoder, total on any words, and the encoder, both from the encoding tables of the spec (R67 to R79).
The decoder reads the words into `Fields`, gives X = 0 its short form (R77), and then finds the row of the opcode; a word
that no row takes is illegal at decode (R79) and gives `none`. The register rules of R22, which depend on the team's NV,
and the operand-value rules of single chapters are `Instr.legal` in Machine/Operands.lean. -/

namespace Sys2Proof

/-- The fields of an instruction word and its extension (R67, R68), with E split into its two halves, and the target
list of format T (R73). -/
structure Fields where
  p : Bool
  x : Bool
  op : BitVec 6
  d : BitVec 8
  a : BitVec 8
  b : BitVec 8
  g : BitVec 4
  gn : Bool
  la : BitVec 4
  f : BitVec 7
  c : BitVec 8
  ty : BitVec 4
  ty2 : BitVec 4
  targets : List (BitVec 16)
  deriving DecidableEq, Repr

/-- The header part of the fields. -/
def Fields.hdr (f : Fields) : Hdr := { x := f.x, g := f.g, gn := f.gn, la := f.la }


/-- The fields of an instruction word, from the encoding row of its constructor (R67 to R73 and the chapters' tables). -/
def toFields : Instr → Option Fields
  | .sAdd h ty d a b => some { p := true, x := h.x, op := 0#6, d := d, a := a, b := b, g := h.g, gn := h.gn, la := h.la, f := 0#7, c := 0#8, ty := ty.code, ty2 := 0#4, targets := [] }
  | .sSub h ty d a b => some { p := true, x := h.x, op := 1#6, d := d, a := a, b := b, g := h.g, gn := h.gn, la := h.la, f := 0#7, c := 0#8, ty := ty.code, ty2 := 0#4, targets := [] }
  | .sMul h ty d a b => some { p := true, x := h.x, op := 2#6, d := d, a := a, b := b, g := h.g, gn := h.gn, la := h.la, f := 0#7, c := 0#8, ty := ty.code, ty2 := 0#4, targets := [] }
  | .sMulh h ty d a b => some { p := true, x := h.x, op := 2#6, d := d, a := a, b := b, g := h.g, gn := h.gn, la := h.la, f := 1#7, c := 0#8, ty := ty.code, ty2 := 0#4, targets := [] }
  | .sAnd h ty d a b => some { p := true, x := h.x, op := 3#6, d := d, a := a, b := b, g := h.g, gn := h.gn, la := h.la, f := 0#7, c := 0#8, ty := ty.code, ty2 := 0#4, targets := [] }
  | .sOr h ty d a b => some { p := true, x := h.x, op := 3#6, d := d, a := a, b := b, g := h.g, gn := h.gn, la := h.la, f := 1#7, c := 0#8, ty := ty.code, ty2 := 0#4, targets := [] }
  | .sXor h ty d a b => some { p := true, x := h.x, op := 3#6, d := d, a := a, b := b, g := h.g, gn := h.gn, la := h.la, f := 2#7, c := 0#8, ty := ty.code, ty2 := 0#4, targets := [] }
  | .sAndn h ty d a b => some { p := true, x := h.x, op := 3#6, d := d, a := a, b := b, g := h.g, gn := h.gn, la := h.la, f := 3#7, c := 0#8, ty := ty.code, ty2 := 0#4, targets := [] }
  | .sShl h ty d a b => some { p := true, x := h.x, op := 4#6, d := d, a := a, b := b, g := h.g, gn := h.gn, la := h.la, f := 0#7, c := 0#8, ty := ty.code, ty2 := 0#4, targets := [] }
  | .sShr h ty d a b => some { p := true, x := h.x, op := 4#6, d := d, a := a, b := b, g := h.g, gn := h.gn, la := h.la, f := 1#7, c := 0#8, ty := ty.code, ty2 := 0#4, targets := [] }
  | .sSra h ty d a b => some { p := true, x := h.x, op := 4#6, d := d, a := a, b := b, g := h.g, gn := h.gn, la := h.la, f := 2#7, c := 0#8, ty := ty.code, ty2 := 0#4, targets := [] }
  | .sMin h ty d a b => some { p := true, x := h.x, op := 5#6, d := d, a := a, b := b, g := h.g, gn := h.gn, la := h.la, f := 0#7, c := 0#8, ty := ty.code, ty2 := 0#4, targets := [] }
  | .sMax h ty d a b => some { p := true, x := h.x, op := 5#6, d := d, a := a, b := b, g := h.g, gn := h.gn, la := h.la, f := 1#7, c := 0#8, ty := ty.code, ty2 := 0#4, targets := [] }
  | .sLea h ty d a b sh => some { p := true, x := h.x, op := 6#6, d := d, a := a, b := b, g := h.g, gn := h.gn, la := h.la, f := 0#3 ++ sh, c := 0#8, ty := ty.code, ty2 := 0#4, targets := [] }
  | .sAddi h ty d a imm => some { p := true, x := h.x, op := 7#6, d := d, a := a, b := imm, g := h.g, gn := h.gn, la := h.la, f := 0#7, c := 0#8, ty := ty.code, ty2 := 0#4, targets := [] }
  | .sAndi h ty d a imm => some { p := true, x := h.x, op := 8#6, d := d, a := a, b := imm, g := h.g, gn := h.gn, la := h.la, f := 0#7, c := 0#8, ty := ty.code, ty2 := 0#4, targets := [] }
  | .sOri h ty d a imm => some { p := true, x := h.x, op := 8#6, d := d, a := a, b := imm, g := h.g, gn := h.gn, la := h.la, f := 1#7, c := 0#8, ty := ty.code, ty2 := 0#4, targets := [] }
  | .sXori h ty d a imm => some { p := true, x := h.x, op := 8#6, d := d, a := a, b := imm, g := h.g, gn := h.gn, la := h.la, f := 2#7, c := 0#8, ty := ty.code, ty2 := 0#4, targets := [] }
  | .sShli h ty d a imm => some { p := true, x := h.x, op := 8#6, d := d, a := a, b := imm, g := h.g, gn := h.gn, la := h.la, f := 3#7, c := 0#8, ty := ty.code, ty2 := 0#4, targets := [] }
  | .sShri h ty d a imm => some { p := true, x := h.x, op := 8#6, d := d, a := a, b := imm, g := h.g, gn := h.gn, la := h.la, f := 4#7, c := 0#8, ty := ty.code, ty2 := 0#4, targets := [] }
  | .sSrai h ty d a imm => some { p := true, x := h.x, op := 8#6, d := d, a := a, b := imm, g := h.g, gn := h.gn, la := h.la, f := 5#7, c := 0#8, ty := ty.code, ty2 := 0#4, targets := [] }
  | .sMovi h ty d imm => some { p := true, x := h.x, op := 9#6, d := d, a := imm.extractLsb' 8 8, b := imm.extractLsb' 0 8, g := h.g, gn := h.gn, la := h.la, f := 0#7, c := 0#8, ty := ty.code, ty2 := 0#4, targets := [] }
  | .sMovhi h d imm => some { p := true, x := h.x, op := 10#6, d := d, a := imm.extractLsb' 8 8, b := imm.extractLsb' 0 8, g := h.g, gn := h.gn, la := h.la, f := 0#7, c := 0#8, ty := 13#4, ty2 := 0#4, targets := [] }
  | .sCmp h cc ty q a b => some { p := true, x := h.x, op := 11#6, d := 0#5 ++ q, a := a, b := b, g := h.g, gn := h.gn, la := h.la, f := cc.code, c := 0#8, ty := ty.code, ty2 := 0#4, targets := [] }
  | .sCmpi h cc ty q a imm => some { p := true, x := h.x, op := 12#6, d := 0#5 ++ q, a := a, b := imm, g := h.g, gn := h.gn, la := h.la, f := cc.code, c := 0#8, ty := ty.code, ty2 := 0#4, targets := [] }
  | .sSel h ty d a b q neg => some { p := true, x := h.x, op := 13#6, d := d, a := a, b := b, g := h.g, gn := h.gn, la := h.la, f := 0#3 ++ BitVec.ofBool neg ++ q, c := 0#8, ty := ty.code, ty2 := 0#4, targets := [] }
  | .sMov h ty d a b => some { p := true, x := h.x, op := 14#6, d := d, a := a, b := b, g := h.g, gn := h.gn, la := h.la, f := 0#7, c := 0#8, ty := ty.code, ty2 := 0#4, targets := [] }
  | .sVrd h ty d a b c => some { p := true, x := h.x, op := 14#6, d := d, a := a, b := b, g := h.g, gn := h.gn, la := h.la, f := 1#7, c := c, ty := ty.code, ty2 := 0#4, targets := [] }
  | .sVrdf h ty d a b => some { p := true, x := h.x, op := 14#6, d := d, a := a, b := b, g := h.g, gn := h.gn, la := h.la, f := 2#7, c := 0#8, ty := ty.code, ty2 := 0#4, targets := [] }
  | .sQand h q qa qb => some { p := true, x := h.x, op := 15#6, d := 0#5 ++ q, a := 0#5 ++ qa, b := 0#5 ++ qb, g := h.g, gn := h.gn, la := h.la, f := 0#7, c := 0#8, ty := 0#4, ty2 := 0#4, targets := [] }
  | .sQor h q qa qb => some { p := true, x := h.x, op := 15#6, d := 0#5 ++ q, a := 0#5 ++ qa, b := 0#5 ++ qb, g := h.g, gn := h.gn, la := h.la, f := 1#7, c := 0#8, ty := 0#4, ty2 := 0#4, targets := [] }
  | .sQxor h q qa qb => some { p := true, x := h.x, op := 15#6, d := 0#5 ++ q, a := 0#5 ++ qa, b := 0#5 ++ qb, g := h.g, gn := h.gn, la := h.la, f := 2#7, c := 0#8, ty := 0#4, ty2 := 0#4, targets := [] }
  | .sQany h q pa => some { p := true, x := h.x, op := 15#6, d := 0#5 ++ q, a := 0#4 ++ pa, b := 0#8, g := h.g, gn := h.gn, la := h.la, f := 3#7, c := 0#8, ty := 0#4, ty2 := 0#4, targets := [] }
  | .sQall h q pa => some { p := true, x := h.x, op := 15#6, d := 0#5 ++ q, a := 0#4 ++ pa, b := 0#8, g := h.g, gn := h.gn, la := h.la, f := 4#7, c := 0#8, ty := 0#4, ty2 := 0#4, targets := [] }
  | .sJmp h off rcv => some { p := true, x := h.x, op := 16#6, d := 0#4 ++ off.extractLsb' 9 4, a := off.extractLsb' 1 8, b := off.extractLsb' 0 1 ++ 0#7, g := h.g, gn := h.gn, la := h.la, f := 0#2 ++ rcv.extractLsb' 8 5, c := rcv.extractLsb' 0 8, ty := 0#4, ty2 := 0#4, targets := [] }
  | .sBr h sel off rcv => some { p := true, x := h.x, op := 16#6, d := 1#4 ++ off.extractLsb' 9 4, a := off.extractLsb' 1 8, b := off.extractLsb' 0 1 ++ sel.code, g := h.g, gn := h.gn, la := h.la, f := 0#2 ++ rcv.extractLsb' 8 5, c := rcv.extractLsb' 0 8, ty := 0#4, ty2 := 0#4, targets := [] }
  | .sBrAll h sel off rcv => some { p := true, x := h.x, op := 16#6, d := 2#4 ++ off.extractLsb' 9 4, a := off.extractLsb' 1 8, b := off.extractLsb' 0 1 ++ sel.code, g := h.g, gn := h.gn, la := h.la, f := 0#2 ++ rcv.extractLsb' 8 5, c := rcv.extractLsb' 0 8, ty := 0#4, ty2 := 0#4, targets := [] }
  | .sBrAny h sel off rcv => some { p := true, x := h.x, op := 16#6, d := 3#4 ++ off.extractLsb' 9 4, a := off.extractLsb' 1 8, b := off.extractLsb' 0 1 ++ sel.code, g := h.g, gn := h.gn, la := h.la, f := 0#2 ++ rcv.extractLsb' 8 5, c := rcv.extractLsb' 0 8, ty := 0#4, ty2 := 0#4, targets := [] }
  | .sLoop h n off rcv => some { p := true, x := h.x, op := 16#6, d := 4#4 ++ off.extractLsb' 9 4, a := off.extractLsb' 1 8, b := off.extractLsb' 0 1 ++ (1#1 ++ n), g := h.g, gn := h.gn, la := h.la, f := 0#2 ++ rcv.extractLsb' 8 5, c := rcv.extractLsb' 0 8, ty := 0#4, ty2 := 0#4, targets := [] }
  | .sCall h off rcv => some { p := true, x := h.x, op := 17#6, d := 0#4 ++ off.extractLsb' 9 4, a := off.extractLsb' 1 8, b := off.extractLsb' 0 1 ++ 0#7, g := h.g, gn := h.gn, la := h.la, f := 0#2 ++ rcv.extractLsb' 8 5, c := rcv.extractLsb' 0 8, ty := 0#4, ty2 := 0#4, targets := [] }
  | .sJr h n rcv => some { p := true, x := h.x, op := 18#6, d := 0#4 ++ 0#4, a := 0#8, b := 0#1 ++ (1#1 ++ n), g := h.g, gn := h.gn, la := h.la, f := 0#2 ++ rcv.extractLsb' 8 5, c := rcv.extractLsb' 0 8, ty := 0#4, ty2 := 0#4, targets := [] }
  | .sCallr h n rcv => some { p := true, x := h.x, op := 18#6, d := 1#4 ++ 0#4, a := 0#8, b := 0#1 ++ (1#1 ++ n), g := h.g, gn := h.gn, la := h.la, f := 0#2 ++ rcv.extractLsb' 8 5, c := rcv.extractLsb' 0 8, ty := 0#4, ty2 := 0#4, targets := [] }
  | .sBtab h idx rcv targets => some { p := true, x := h.x, op := 19#6, d := idx, a := BitVec.ofNat 8 (targets.length - 1), b := 0#8, g := h.g, gn := h.gn, la := h.la, f := 0#2 ++ rcv.extractLsb' 8 5, c := rcv.extractLsb' 0 8, ty := 0#4, ty2 := 0#4, targets := targets }
  | .sBtabc h idx rcv targets => some { p := true, x := h.x, op := 19#6, d := idx, a := BitVec.ofNat 8 (targets.length - 1), b := 0#8, g := h.g, gn := h.gn, la := h.la, f := 0#2 ++ rcv.extractLsb' 8 5, c := rcv.extractLsb' 0 8, ty := 1#4, ty2 := 0#4, targets := targets }
  | .sExit h => some { p := true, x := h.x, op := 20#6, d := 0#8, a := 0#8, b := 0#8, g := h.g, gn := h.gn, la := h.la, f := 0#7, c := 0#8, ty := 0#4, ty2 := 0#4, targets := [] }
  | .sNop h => some { p := true, x := h.x, op := 21#6, d := 0#8, a := 0#8, b := 0#8, g := h.g, gn := h.gn, la := h.la, f := 0#7, c := 0#8, ty := 0#4, ty2 := 0#4, targets := [] }
  | .sBarSync h d bar => some { p := true, x := h.x, op := 24#6, d := d, a := 0#5 ++ bar.extractLsb' 8 3, b := bar.extractLsb' 0 8, g := h.g, gn := h.gn, la := h.la, f := 0#7, c := 0#8, ty := 0#4, ty2 := 0#4, targets := [] }
  | .sBarArr h d bar c => some { p := true, x := h.x, op := 24#6, d := d, a := 0#5 ++ bar.extractLsb' 8 3, b := bar.extractLsb' 0 8, g := h.g, gn := h.gn, la := h.la, f := 1#7, c := c, ty := 0#4, ty2 := 0#4, targets := [] }
  | .sBarWait h d bar => some { p := true, x := h.x, op := 24#6, d := d, a := 0#5 ++ bar.extractLsb' 8 3, b := bar.extractLsb' 0 8, g := h.g, gn := h.gn, la := h.la, f := 2#7, c := 0#8, ty := 0#4, ty2 := 0#4, targets := [] }
  | .sSleepu h a => some { p := true, x := h.x, op := 25#6, d := 0#8, a := a, b := 0#8, g := h.g, gn := h.gn, la := h.la, f := 0#7, c := 0#8, ty := 0#4, ty2 := 0#4, targets := [] }
  | .sWait h d a => some { p := true, x := h.x, op := 26#6, d := d, a := a, b := 0#8, g := h.g, gn := h.gn, la := h.la, f := 0#7, c := 0#8, ty := 0#4, ty2 := 0#4, targets := [] }
  | .sPoll h d a => some { p := true, x := h.x, op := 26#6, d := d, a := a, b := 0#8, g := h.g, gn := h.gn, la := h.la, f := 1#7, c := 0#8, ty := 0#4, ty2 := 0#4, targets := [] }
  | .sWaitall h => some { p := true, x := h.x, op := 26#6, d := 0#8, a := 0#8, b := 0#8, g := h.g, gn := h.gn, la := h.la, f := 2#7, c := 0#8, ty := 0#4, ty2 := 0#4, targets := [] }
  | .sFenceAcq h => some { p := true, x := h.x, op := 27#6, d := 0#8, a := 0#8, b := 0#8, g := h.g, gn := h.gn, la := h.la, f := 0#7, c := 0#8, ty := 0#4, ty2 := 0#4, targets := [] }
  | .sFenceRel h => some { p := true, x := h.x, op := 27#6, d := 0#8, a := 0#8, b := 0#8, g := h.g, gn := h.gn, la := h.la, f := 1#7, c := 0#8, ty := 0#4, ty2 := 0#4, targets := [] }
  | .sFenceAcqrel h => some { p := true, x := h.x, op := 27#6, d := 0#8, a := 0#8, b := 0#8, g := h.g, gn := h.gn, la := h.la, f := 2#7, c := 0#8, ty := 0#4, ty2 := 0#4, targets := [] }
  | .sFenceSc h => some { p := true, x := h.x, op := 27#6, d := 0#8, a := 0#8, b := 0#8, g := h.g, gn := h.gn, la := h.la, f := 3#7, c := 0#8, ty := 0#4, ty2 := 0#4, targets := [] }
  | .sFmt h imm => some { p := true, x := h.x, op := 28#6, d := 0#8, a := imm.extractLsb' 8 8, b := imm.extractLsb' 0 8, g := h.g, gn := h.gn, la := h.la, f := 0#7, c := 0#8, ty := 0#4, ty2 := 0#4, targets := [] }
  | .sCsrr h d csr => some { p := true, x := h.x, op := 29#6, d := d, a := 0#4 ++ csr.extractLsb' 8 4, b := csr.extractLsb' 0 8, g := h.g, gn := h.gn, la := h.la, f := 0#7, c := 0#8, ty := 0#4, ty2 := 0#4, targets := [] }
  | .sCsrw h d csr => some { p := true, x := h.x, op := 29#6, d := d, a := 0#4 ++ csr.extractLsb' 8 4, b := csr.extractLsb' 0 8, g := h.g, gn := h.gn, la := h.la, f := 1#7, c := 0#8, ty := 0#4, ty2 := 0#4, targets := [] }
  | .sCsrs h d csr => some { p := true, x := h.x, op := 29#6, d := d, a := 0#4 ++ csr.extractLsb' 8 4, b := csr.extractLsb' 0 8, g := h.g, gn := h.gn, la := h.la, f := 2#7, c := 0#8, ty := 0#4, ty2 := 0#4, targets := [] }
  | .sCsrc h d csr => some { p := true, x := h.x, op := 29#6, d := d, a := 0#4 ++ csr.extractLsb' 8 4, b := csr.extractLsb' 0 8, g := h.g, gn := h.gn, la := h.la, f := 3#7, c := 0#8, ty := 0#4, ty2 := 0#4, targets := [] }
  | .sSeed h n a => some { p := true, x := h.x, op := 30#6, d := 0#6 ++ n, a := a, b := 0#8, g := h.g, gn := h.gn, la := h.la, f := 0#7, c := 0#8, ty := 0#4, ty2 := 0#4, targets := [] }
  | .sSeedmix h n a => some { p := true, x := h.x, op := 30#6, d := 0#6 ++ n, a := a, b := 0#8, g := h.g, gn := h.gn, la := h.la, f := 1#7, c := 0#8, ty := 0#4, ty2 := 0#4, targets := [] }
  | .sCfetch h d a n => some { p := true, x := h.x, op := 60#6, d := d, a := a, b := 0#4 ++ n, g := h.g, gn := h.gn, la := h.la, f := 0#7, c := 0#8, ty := 0#4, ty2 := 0#4, targets := [] }
  | .sCfetchReload h d a n => some { p := true, x := h.x, op := 60#6, d := d, a := a, b := 0#4 ++ n, g := h.g, gn := h.gn, la := h.la, f := 1#7, c := 0#8, ty := 0#4, ty2 := 0#4, targets := [] }
  | .sCstat h d n => some { p := true, x := h.x, op := 60#6, d := d, a := 0#8, b := 0#4 ++ n, g := h.g, gn := h.gn, la := h.la, f := 2#7, c := 0#8, ty := 0#4, ty2 := 0#4, targets := [] }
  | .sJmpf h target => some { p := true, x := h.x, op := 61#6, d := 0#8, a := target.extractLsb' 8 8, b := target.extractLsb' 0 8, g := h.g, gn := h.gn, la := h.la, f := 0#7, c := 0#8, ty := 0#4, ty2 := 0#4, targets := [] }
  | .sCfence h => some { p := true, x := h.x, op := 61#6, d := 0#8, a := 0#8, b := 0#8, g := h.g, gn := h.gn, la := h.la, f := 1#7, c := 0#8, ty := 0#4, ty2 := 0#4, targets := [] }
  | .sTrap h code => some { p := true, x := h.x, op := 62#6, d := 0#8, a := code.extractLsb' 8 8, b := code.extractLsb' 0 8, g := h.g, gn := h.gn, la := h.la, f := 0#7, c := 0#8, ty := 0#4, ty2 := 0#4, targets := [] }
  | .sBrk h code => some { p := true, x := h.x, op := 62#6, d := 1#8, a := code.extractLsb' 8 8, b := code.extractLsb' 0 8, g := h.g, gn := h.gn, la := h.la, f := 0#7, c := 0#8, ty := 0#4, ty2 := 0#4, targets := [] }
  | .sRth h => some { p := true, x := h.x, op := 62#6, d := 2#8, a := 0#8, b := 0#8, g := h.g, gn := h.gn, la := h.la, f := 0#7, c := 0#8, ty := 0#4, ty2 := 0#4, targets := [] }
  | .vAdd h ty d a b => some { p := false, x := h.x, op := 0#6, d := d, a := a, b := b, g := h.g, gn := h.gn, la := h.la, f := 0#7, c := 0#8, ty := ty.code, ty2 := 0#4, targets := [] }
  | .vAdds h ty d a b => some { p := false, x := h.x, op := 0#6, d := d, a := a, b := b, g := h.g, gn := h.gn, la := h.la, f := 1#7, c := 0#8, ty := ty.code, ty2 := 0#4, targets := [] }
  | .vSub h ty d a b => some { p := false, x := h.x, op := 1#6, d := d, a := a, b := b, g := h.g, gn := h.gn, la := h.la, f := 0#7, c := 0#8, ty := ty.code, ty2 := 0#4, targets := [] }
  | .vSubs h ty d a b => some { p := false, x := h.x, op := 1#6, d := d, a := a, b := b, g := h.g, gn := h.gn, la := h.la, f := 1#7, c := 0#8, ty := ty.code, ty2 := 0#4, targets := [] }
  | .vMul h ty d a b => some { p := false, x := h.x, op := 2#6, d := d, a := a, b := b, g := h.g, gn := h.gn, la := h.la, f := 0#7, c := 0#8, ty := ty.code, ty2 := 0#4, targets := [] }
  | .vMulh h ty d a b => some { p := false, x := h.x, op := 2#6, d := d, a := a, b := b, g := h.g, gn := h.gn, la := h.la, f := 1#7, c := 0#8, ty := ty.code, ty2 := 0#4, targets := [] }
  | .vMulw h ty d a b => some { p := false, x := h.x, op := 2#6, d := d, a := a, b := b, g := h.g, gn := h.gn, la := h.la, f := 2#7, c := 0#8, ty := ty.code, ty2 := 0#4, targets := [] }
  | .vMad h ty d a b c => some { p := false, x := h.x, op := 3#6, d := d, a := a, b := b, g := h.g, gn := h.gn, la := h.la, f := 0#7, c := c, ty := ty.code, ty2 := 0#4, targets := [] }
  | .vMadh h ty d a b c => some { p := false, x := h.x, op := 3#6, d := d, a := a, b := b, g := h.g, gn := h.gn, la := h.la, f := 1#7, c := c, ty := ty.code, ty2 := 0#4, targets := [] }
  | .vMadw h ty d a b c => some { p := false, x := h.x, op := 3#6, d := d, a := a, b := b, g := h.g, gn := h.gn, la := h.la, f := 2#7, c := c, ty := ty.code, ty2 := 0#4, targets := [] }
  | .vDot4 h ty ty2 d a b c => some { p := false, x := h.x, op := 3#6, d := d, a := a, b := b, g := h.g, gn := h.gn, la := h.la, f := 3#7, c := c, ty := ty.code, ty2 := ty2.code, targets := [] }
  | .vDot4s h ty ty2 d a b c => some { p := false, x := h.x, op := 3#6, d := d, a := a, b := b, g := h.g, gn := h.gn, la := h.la, f := 4#7, c := c, ty := ty.code, ty2 := ty2.code, targets := [] }
  | .vAnd h ty d a b => some { p := false, x := h.x, op := 4#6, d := d, a := a, b := b, g := h.g, gn := h.gn, la := h.la, f := 0#7, c := 0#8, ty := ty.code, ty2 := 0#4, targets := [] }
  | .vOr h ty d a b => some { p := false, x := h.x, op := 4#6, d := d, a := a, b := b, g := h.g, gn := h.gn, la := h.la, f := 1#7, c := 0#8, ty := ty.code, ty2 := 0#4, targets := [] }
  | .vXor h ty d a b => some { p := false, x := h.x, op := 4#6, d := d, a := a, b := b, g := h.g, gn := h.gn, la := h.la, f := 2#7, c := 0#8, ty := ty.code, ty2 := 0#4, targets := [] }
  | .vAndn h ty d a b => some { p := false, x := h.x, op := 4#6, d := d, a := a, b := b, g := h.g, gn := h.gn, la := h.la, f := 3#7, c := 0#8, ty := ty.code, ty2 := 0#4, targets := [] }
  | .vShl h ty d a b => some { p := false, x := h.x, op := 5#6, d := d, a := a, b := b, g := h.g, gn := h.gn, la := h.la, f := 0#7, c := 0#8, ty := ty.code, ty2 := 0#4, targets := [] }
  | .vShr h ty d a b => some { p := false, x := h.x, op := 5#6, d := d, a := a, b := b, g := h.g, gn := h.gn, la := h.la, f := 1#7, c := 0#8, ty := ty.code, ty2 := 0#4, targets := [] }
  | .vSra h ty d a b => some { p := false, x := h.x, op := 5#6, d := d, a := a, b := b, g := h.g, gn := h.gn, la := h.la, f := 2#7, c := 0#8, ty := ty.code, ty2 := 0#4, targets := [] }
  | .vRotl h ty d a b => some { p := false, x := h.x, op := 5#6, d := d, a := a, b := b, g := h.g, gn := h.gn, la := h.la, f := 3#7, c := 0#8, ty := ty.code, ty2 := 0#4, targets := [] }
  | .vRotr h ty d a b => some { p := false, x := h.x, op := 5#6, d := d, a := a, b := b, g := h.g, gn := h.gn, la := h.la, f := 4#7, c := 0#8, ty := ty.code, ty2 := 0#4, targets := [] }
  | .vAddi h ty d a imm => some { p := false, x := h.x, op := 6#6, d := d, a := a, b := imm, g := h.g, gn := h.gn, la := h.la, f := 0#7, c := 0#8, ty := ty.code, ty2 := 0#4, targets := [] }
  | .vAddis h ty d a imm => some { p := false, x := h.x, op := 6#6, d := d, a := a, b := imm, g := h.g, gn := h.gn, la := h.la, f := 1#7, c := 0#8, ty := ty.code, ty2 := 0#4, targets := [] }
  | .vAndi h ty d a imm => some { p := false, x := h.x, op := 6#6, d := d, a := a, b := imm, g := h.g, gn := h.gn, la := h.la, f := 2#7, c := 0#8, ty := ty.code, ty2 := 0#4, targets := [] }
  | .vOri h ty d a imm => some { p := false, x := h.x, op := 6#6, d := d, a := a, b := imm, g := h.g, gn := h.gn, la := h.la, f := 3#7, c := 0#8, ty := ty.code, ty2 := 0#4, targets := [] }
  | .vXori h ty d a imm => some { p := false, x := h.x, op := 6#6, d := d, a := a, b := imm, g := h.g, gn := h.gn, la := h.la, f := 4#7, c := 0#8, ty := ty.code, ty2 := 0#4, targets := [] }
  | .vShli h ty d a imm => some { p := false, x := h.x, op := 6#6, d := d, a := a, b := imm, g := h.g, gn := h.gn, la := h.la, f := 5#7, c := 0#8, ty := ty.code, ty2 := 0#4, targets := [] }
  | .vShri h ty d a imm => some { p := false, x := h.x, op := 6#6, d := d, a := a, b := imm, g := h.g, gn := h.gn, la := h.la, f := 6#7, c := 0#8, ty := ty.code, ty2 := 0#4, targets := [] }
  | .vSrai h ty d a imm => some { p := false, x := h.x, op := 6#6, d := d, a := a, b := imm, g := h.g, gn := h.gn, la := h.la, f := 7#7, c := 0#8, ty := ty.code, ty2 := 0#4, targets := [] }
  | .vRotli h ty d a imm => some { p := false, x := h.x, op := 6#6, d := d, a := a, b := imm, g := h.g, gn := h.gn, la := h.la, f := 8#7, c := 0#8, ty := ty.code, ty2 := 0#4, targets := [] }
  | .vMin h ty d a b => some { p := false, x := h.x, op := 7#6, d := d, a := a, b := b, g := h.g, gn := h.gn, la := h.la, f := 0#7, c := 0#8, ty := ty.code, ty2 := 0#4, targets := [] }
  | .vMax h ty d a b => some { p := false, x := h.x, op := 7#6, d := d, a := a, b := b, g := h.g, gn := h.gn, la := h.la, f := 1#7, c := 0#8, ty := ty.code, ty2 := 0#4, targets := [] }
  | .vFshl h d a b c => some { p := false, x := h.x, op := 8#6, d := d, a := a, b := b, g := h.g, gn := h.gn, la := h.la, f := 0#7, c := c, ty := 13#4, ty2 := 0#4, targets := [] }
  | .vFshr h d a b c => some { p := false, x := h.x, op := 8#6, d := d, a := a, b := b, g := h.g, gn := h.gn, la := h.la, f := 1#7, c := c, ty := 13#4, ty2 := 0#4, targets := [] }
  | .vBfx h ty d a b => some { p := false, x := h.x, op := 9#6, d := d, a := a, b := b, g := h.g, gn := h.gn, la := h.la, f := 0#7, c := 0#8, ty := ty.code, ty2 := 0#4, targets := [] }
  | .vBfi h d a b c => some { p := false, x := h.x, op := 9#6, d := d, a := a, b := b, g := h.g, gn := h.gn, la := h.la, f := 1#7, c := c, ty := 13#4, ty2 := 0#4, targets := [] }
  | .vPopc h ty d a => some { p := false, x := h.x, op := 10#6, d := d, a := a, b := 0#8, g := h.g, gn := h.gn, la := h.la, f := 0#7, c := 0#8, ty := ty.code, ty2 := 0#4, targets := [] }
  | .vClz h ty d a => some { p := false, x := h.x, op := 10#6, d := d, a := a, b := 0#8, g := h.g, gn := h.gn, la := h.la, f := 1#7, c := 0#8, ty := ty.code, ty2 := 0#4, targets := [] }
  | .vCtz h ty d a => some { p := false, x := h.x, op := 10#6, d := d, a := a, b := 0#8, g := h.g, gn := h.gn, la := h.la, f := 2#7, c := 0#8, ty := ty.code, ty2 := 0#4, targets := [] }
  | .vBrev h ty d a => some { p := false, x := h.x, op := 10#6, d := d, a := a, b := 0#8, g := h.g, gn := h.gn, la := h.la, f := 3#7, c := 0#8, ty := ty.code, ty2 := 0#4, targets := [] }
  | .vPerm h d a b c => some { p := false, x := h.x, op := 11#6, d := d, a := a, b := b, g := h.g, gn := h.gn, la := h.la, f := 0#7, c := c, ty := 13#4, ty2 := 0#4, targets := [] }
  | .vPerms h d a b c => some { p := false, x := h.x, op := 11#6, d := d, a := a, b := b, g := h.g, gn := h.gn, la := h.la, f := 1#7, c := c, ty := 13#4, ty2 := 0#4, targets := [] }
  | .vCmp h cc ty p a b => some { p := false, x := h.x, op := 12#6, d := 0#4 ++ p, a := a, b := b, g := h.g, gn := h.gn, la := h.la, f := cc.code, c := 0#8, ty := ty.code, ty2 := 0#4, targets := [] }
  | .vCmpi h cc ty p a imm => some { p := false, x := h.x, op := 13#6, d := 0#4 ++ p, a := a, b := imm, g := h.g, gn := h.gn, la := h.la, f := cc.code, c := 0#8, ty := ty.code, ty2 := 0#4, targets := [] }
  | .vSel h ty d a b p neg => some { p := false, x := h.x, op := 14#6, d := d, a := a, b := b, g := h.g, gn := h.gn, la := h.la, f := 0#2 ++ BitVec.ofBool neg ++ p, c := 0#8, ty := ty.code, ty2 := 0#4, targets := [] }
  | .vMov h ty d a => some { p := false, x := h.x, op := 15#6, d := d, a := a, b := 0#8, g := h.g, gn := h.gn, la := h.la, f := 0#7, c := 0#8, ty := ty.code, ty2 := 0#4, targets := [] }
  | .vLid h d => some { p := false, x := h.x, op := 15#6, d := d, a := 0#8, b := 0#8, g := h.g, gn := h.gn, la := h.la, f := 1#7, c := 0#8, ty := 13#4, ty2 := 0#4, targets := [] }
  | .vGlid h d => some { p := false, x := h.x, op := 15#6, d := d, a := 0#8, b := 0#8, g := h.g, gn := h.gn, la := h.la, f := 2#7, c := 0#8, ty := 13#4, ty2 := 0#4, targets := [] }
  | .vMovi h ty d imm => some { p := false, x := h.x, op := 16#6, d := d, a := imm.extractLsb' 8 8, b := imm.extractLsb' 0 8, g := h.g, gn := h.gn, la := h.la, f := 0#7, c := 0#8, ty := ty.code, ty2 := 0#4, targets := [] }
  | .vMovhi h d imm => some { p := false, x := h.x, op := 16#6, d := d, a := imm.extractLsb' 8 8, b := imm.extractLsb' 0 8, g := h.g, gn := h.gn, la := h.la, f := 1#7, c := 0#8, ty := 13#4, ty2 := 0#4, targets := [] }
  | .vCvt h ty ty2 d a sat idx => some { p := false, x := h.x, op := 17#6, d := d, a := a, b := 0#8, g := h.g, gn := h.gn, la := h.la, f := 0#1 ++ idx ++ 0#3 ++ BitVec.ofBool sat, c := 0#8, ty := ty.code, ty2 := ty2.code, targets := [] }
  | .vLea h ty d a b sh => some { p := false, x := h.x, op := 18#6, d := d, a := a, b := b, g := h.g, gn := h.gn, la := h.la, f := 0#3 ++ sh, c := 0#8, ty := ty.code, ty2 := 0#4, targets := [] }
  | .vPand h p pa pb => some { p := false, x := h.x, op := 19#6, d := 0#4 ++ p, a := 0#4 ++ pa, b := 0#4 ++ pb, g := h.g, gn := h.gn, la := h.la, f := 0#7, c := 0#8, ty := 0#4, ty2 := 0#4, targets := [] }
  | .vPor h p pa pb => some { p := false, x := h.x, op := 19#6, d := 0#4 ++ p, a := 0#4 ++ pa, b := 0#4 ++ pb, g := h.g, gn := h.gn, la := h.la, f := 1#7, c := 0#8, ty := 0#4, ty2 := 0#4, targets := [] }
  | .vPxor h p pa pb => some { p := false, x := h.x, op := 19#6, d := 0#4 ++ p, a := 0#4 ++ pa, b := 0#4 ++ pb, g := h.g, gn := h.gn, la := h.la, f := 2#7, c := 0#8, ty := 0#4, ty2 := 0#4, targets := [] }
  | .vPandn h p pa pb => some { p := false, x := h.x, op := 19#6, d := 0#4 ++ p, a := 0#4 ++ pa, b := 0#4 ++ pb, g := h.g, gn := h.gn, la := h.la, f := 3#7, c := 0#8, ty := 0#4, ty2 := 0#4, targets := [] }
  | .vPq h p qa => some { p := false, x := h.x, op := 19#6, d := 0#4 ++ p, a := 0#5 ++ qa, b := 0#8, g := h.g, gn := h.gn, la := h.la, f := 4#7, c := 0#8, ty := 0#4, ty2 := 0#4, targets := [] }
  | .vFadd h ty d a b => some { p := false, x := h.x, op := 20#6, d := d, a := a, b := b, g := h.g, gn := h.gn, la := h.la, f := 0#7, c := 0#8, ty := ty.code, ty2 := 0#4, targets := [] }
  | .vFsub h ty d a b => some { p := false, x := h.x, op := 20#6, d := d, a := a, b := b, g := h.g, gn := h.gn, la := h.la, f := 1#7, c := 0#8, ty := ty.code, ty2 := 0#4, targets := [] }
  | .vFmul h ty d a b => some { p := false, x := h.x, op := 21#6, d := d, a := a, b := b, g := h.g, gn := h.gn, la := h.la, f := 0#7, c := 0#8, ty := ty.code, ty2 := 0#4, targets := [] }
  | .vFma h ty d a b c => some { p := false, x := h.x, op := 22#6, d := d, a := a, b := b, g := h.g, gn := h.gn, la := h.la, f := 0#7, c := c, ty := ty.code, ty2 := 0#4, targets := [] }
  | .vFms h ty d a b c => some { p := false, x := h.x, op := 22#6, d := d, a := a, b := b, g := h.g, gn := h.gn, la := h.la, f := 1#7, c := c, ty := ty.code, ty2 := 0#4, targets := [] }
  | .vFnma h ty d a b c => some { p := false, x := h.x, op := 22#6, d := d, a := a, b := b, g := h.g, gn := h.gn, la := h.la, f := 2#7, c := c, ty := ty.code, ty2 := 0#4, targets := [] }
  | .vFnms h ty d a b c => some { p := false, x := h.x, op := 22#6, d := d, a := a, b := b, g := h.g, gn := h.gn, la := h.la, f := 3#7, c := c, ty := ty.code, ty2 := 0#4, targets := [] }
  | .vFmin h ty d a b => some { p := false, x := h.x, op := 23#6, d := d, a := a, b := b, g := h.g, gn := h.gn, la := h.la, f := 0#7, c := 0#8, ty := ty.code, ty2 := 0#4, targets := [] }
  | .vFmax h ty d a b => some { p := false, x := h.x, op := 23#6, d := d, a := a, b := b, g := h.g, gn := h.gn, la := h.la, f := 1#7, c := 0#8, ty := ty.code, ty2 := 0#4, targets := [] }
  | .vFneg h ty d a => some { p := false, x := h.x, op := 23#6, d := d, a := a, b := 0#8, g := h.g, gn := h.gn, la := h.la, f := 2#7, c := 0#8, ty := ty.code, ty2 := 0#4, targets := [] }
  | .vFabs h ty d a => some { p := false, x := h.x, op := 23#6, d := d, a := a, b := 0#8, g := h.g, gn := h.gn, la := h.la, f := 3#7, c := 0#8, ty := ty.code, ty2 := 0#4, targets := [] }
  | .vFcsgn h ty d a b => some { p := false, x := h.x, op := 23#6, d := d, a := a, b := b, g := h.g, gn := h.gn, la := h.la, f := 4#7, c := 0#8, ty := ty.code, ty2 := 0#4, targets := [] }
  | .vFcmp h cc p a b => some { p := false, x := h.x, op := 24#6, d := 0#4 ++ p, a := a, b := b, g := h.g, gn := h.gn, la := h.la, f := cc.code, c := 0#8, ty := 10#4, ty2 := 0#4, targets := [] }
  | .vFclass h d a => some { p := false, x := h.x, op := 25#6, d := d, a := a, b := 0#8, g := h.g, gn := h.gn, la := h.la, f := 0#7, c := 0#8, ty := 10#4, ty2 := 0#4, targets := [] }
  | .vFcvt h ty ty2 d a idx => some { p := false, x := h.x, op := 26#6, d := d, a := a, b := 0#8, g := h.g, gn := h.gn, la := h.la, f := idx ++ 0#4, c := 0#8, ty := ty.code, ty2 := ty2.code, targets := [] }
  | .vFcvtPk h ty d a b => some { p := false, x := h.x, op := 26#6, d := d, a := a, b := b, g := h.g, gn := h.gn, la := h.la, f := 1#7, c := 0#8, ty := ty.code, ty2 := 10#4, targets := [] }
  | .vFtoi h ty ty2 d a idx => some { p := false, x := h.x, op := 27#6, d := d, a := a, b := 0#8, g := h.g, gn := h.gn, la := h.la, f := idx ++ 0#4, c := 0#8, ty := ty.code, ty2 := ty2.code, targets := [] }
  | .vItof h ty ty2 d a => some { p := false, x := h.x, op := 27#6, d := d, a := a, b := 0#8, g := h.g, gn := h.gn, la := h.la, f := 1#7, c := 0#8, ty := ty.code, ty2 := ty2.code, targets := [] }
  | .vFscl h ty d a b => some { p := false, x := h.x, op := 28#6, d := d, a := a, b := b, g := h.g, gn := h.gn, la := h.la, f := 0#7, c := 0#8, ty := ty.code, ty2 := 10#4, targets := [] }
  | .vFqnt h ty d a b => some { p := false, x := h.x, op := 28#6, d := d, a := a, b := b, g := h.g, gn := h.gn, la := h.la, f := 1#7, c := 0#8, ty := ty.code, ty2 := 10#4, targets := [] }
  | .vFrcp h d a => some { p := false, x := h.x, op := 29#6, d := d, a := a, b := 0#8, g := h.g, gn := h.gn, la := h.la, f := 0#7, c := 0#8, ty := 10#4, ty2 := 0#4, targets := [] }
  | .vFsqrt h d a => some { p := false, x := h.x, op := 29#6, d := d, a := a, b := 0#8, g := h.g, gn := h.gn, la := h.la, f := 1#7, c := 0#8, ty := 10#4, ty2 := 0#4, targets := [] }
  | .vFrsq h d a => some { p := false, x := h.x, op := 29#6, d := d, a := a, b := 0#8, g := h.g, gn := h.gn, la := h.la, f := 2#7, c := 0#8, ty := 10#4, ty2 := 0#4, targets := [] }
  | .vFexp2 h d a => some { p := false, x := h.x, op := 30#6, d := d, a := a, b := 0#8, g := h.g, gn := h.gn, la := h.la, f := 0#7, c := 0#8, ty := 10#4, ty2 := 0#4, targets := [] }
  | .vFlog2 h d a => some { p := false, x := h.x, op := 30#6, d := d, a := a, b := 0#8, g := h.g, gn := h.gn, la := h.la, f := 1#7, c := 0#8, ty := 10#4, ty2 := 0#4, targets := [] }
  | .vFrr h d a => some { p := false, x := h.x, op := 31#6, d := d, a := a, b := 0#8, g := h.g, gn := h.gn, la := h.la, f := 0#7, c := 0#8, ty := 10#4, ty2 := 0#4, targets := [] }
  | .vFrrTurn h d a => some { p := false, x := h.x, op := 31#6, d := d, a := a, b := 0#8, g := h.g, gn := h.gn, la := h.la, f := 1#7, c := 0#8, ty := 10#4, ty2 := 0#4, targets := [] }
  | .vFsin h d a => some { p := false, x := h.x, op := 31#6, d := d, a := a, b := 0#8, g := h.g, gn := h.gn, la := h.la, f := 2#7, c := 0#8, ty := 10#4, ty2 := 0#4, targets := [] }
  | .vFcos h d a => some { p := false, x := h.x, op := 31#6, d := d, a := a, b := 0#8, g := h.g, gn := h.gn, la := h.la, f := 3#7, c := 0#8, ty := 10#4, ty2 := 0#4, targets := [] }
  | .vFsincos h d a => some { p := false, x := h.x, op := 31#6, d := d, a := a, b := 0#8, g := h.g, gn := h.gn, la := h.la, f := 4#7, c := 0#8, ty := 10#4, ty2 := 0#4, targets := [] }
  | .vFdot2 h ty2 d a b c => some { p := false, x := h.x, op := 32#6, d := d, a := a, b := b, g := h.g, gn := h.gn, la := h.la, f := 0#7, c := c, ty := 10#4, ty2 := ty2.code, targets := [] }
  | .vShfl h ty d a b => some { p := false, x := h.x, op := 34#6, d := d, a := a, b := b, g := h.g, gn := h.gn, la := h.la, f := 0#7, c := 0#8, ty := ty.code, ty2 := 0#4, targets := [] }
  | .vShup h ty d a c => some { p := false, x := h.x, op := 34#6, d := d, a := a, b := 0#8, g := h.g, gn := h.gn, la := h.la, f := 1#7, c := c, ty := ty.code, ty2 := 0#4, targets := [] }
  | .vShdn h ty d a c => some { p := false, x := h.x, op := 34#6, d := d, a := a, b := 0#8, g := h.g, gn := h.gn, la := h.la, f := 2#7, c := c, ty := ty.code, ty2 := 0#4, targets := [] }
  | .vXswz h ty d a c => some { p := false, x := h.x, op := 34#6, d := d, a := a, b := 0#8, g := h.g, gn := h.gn, la := h.la, f := 3#7, c := c, ty := ty.code, ty2 := 0#4, targets := [] }
  | .vBcast h ty d a c => some { p := false, x := h.x, op := 35#6, d := d, a := a, b := 0#8, g := h.g, gn := h.gn, la := h.la, f := 0#7, c := c, ty := ty.code, ty2 := 0#4, targets := [] }
  | .vBcastf h ty d a => some { p := false, x := h.x, op := 35#6, d := d, a := a, b := 0#8, g := h.g, gn := h.gn, la := h.la, f := 1#7, c := 0#8, ty := ty.code, ty2 := 0#4, targets := [] }
  | .vMatch h ty d a => some { p := false, x := h.x, op := 36#6, d := d, a := a, b := 0#8, g := h.g, gn := h.gn, la := h.la, f := 0#7, c := 0#8, ty := ty.code, ty2 := 0#4, targets := [] }
  | .vVoteAny h p pa => some { p := false, x := h.x, op := 37#6, d := 0#4 ++ p, a := 0#4 ++ pa, b := 0#8, g := h.g, gn := h.gn, la := h.la, f := 0#7, c := 0#8, ty := 0#4, ty2 := 0#4, targets := [] }
  | .vVoteAll h p pa => some { p := false, x := h.x, op := 37#6, d := 0#4 ++ p, a := 0#4 ++ pa, b := 0#8, g := h.g, gn := h.gn, la := h.la, f := 1#7, c := 0#8, ty := 0#4, ty2 := 0#4, targets := [] }
  | .vBallot h d pa => some { p := false, x := h.x, op := 37#6, d := d, a := 0#4 ++ pa, b := 0#8, g := h.g, gn := h.gn, la := h.la, f := 2#7, c := 0#8, ty := 0#4, ty2 := 0#4, targets := [] }
  | .vRedAdd h ty d a => some { p := false, x := h.x, op := 38#6, d := d, a := a, b := 0#8, g := h.g, gn := h.gn, la := h.la, f := 0#7, c := 0#8, ty := ty.code, ty2 := 0#4, targets := [] }
  | .vRedMin h ty d a => some { p := false, x := h.x, op := 38#6, d := d, a := a, b := 0#8, g := h.g, gn := h.gn, la := h.la, f := 1#7, c := 0#8, ty := ty.code, ty2 := 0#4, targets := [] }
  | .vRedMax h ty d a => some { p := false, x := h.x, op := 38#6, d := d, a := a, b := 0#8, g := h.g, gn := h.gn, la := h.la, f := 2#7, c := 0#8, ty := ty.code, ty2 := 0#4, targets := [] }
  | .vRedAnd h d a => some { p := false, x := h.x, op := 38#6, d := d, a := a, b := 0#8, g := h.g, gn := h.gn, la := h.la, f := 3#7, c := 0#8, ty := 13#4, ty2 := 0#4, targets := [] }
  | .vRedOr h d a => some { p := false, x := h.x, op := 38#6, d := d, a := a, b := 0#8, g := h.g, gn := h.gn, la := h.la, f := 4#7, c := 0#8, ty := 13#4, ty2 := 0#4, targets := [] }
  | .vRedXor h d a => some { p := false, x := h.x, op := 38#6, d := d, a := a, b := 0#8, g := h.g, gn := h.gn, la := h.la, f := 5#7, c := 0#8, ty := 13#4, ty2 := 0#4, targets := [] }
  | .vScanAdd h ty d a => some { p := false, x := h.x, op := 39#6, d := d, a := a, b := 0#8, g := h.g, gn := h.gn, la := h.la, f := 0#7, c := 0#8, ty := ty.code, ty2 := 0#4, targets := [] }
  | .vScanMin h ty d a => some { p := false, x := h.x, op := 39#6, d := d, a := a, b := 0#8, g := h.g, gn := h.gn, la := h.la, f := 1#7, c := 0#8, ty := ty.code, ty2 := 0#4, targets := [] }
  | .vScanMax h ty d a => some { p := false, x := h.x, op := 39#6, d := d, a := a, b := 0#8, g := h.g, gn := h.gn, la := h.la, f := 2#7, c := 0#8, ty := ty.code, ty2 := 0#4, targets := [] }
  | .vScanAddx h ty d a => some { p := false, x := h.x, op := 39#6, d := d, a := a, b := 0#8, g := h.g, gn := h.gn, la := h.la, f := 8#7, c := 0#8, ty := ty.code, ty2 := 0#4, targets := [] }
  | .vKgen h d a b c => some { p := false, x := h.x, op := 40#6, d := d, a := a, b := b, g := h.g, gn := h.gn, la := h.la, f := 0#7, c := c, ty := 13#4, ty2 := 0#4, targets := [] }
  | .vLd h ty d a b c m => some { p := false, x := h.x, op := 44#6, d := d, a := a, b := b, g := h.g, gn := h.gn, la := h.la, f := m.code, c := c, ty := ty.code, ty2 := 0#4, targets := [] }
  | .vSt h ty d a b c m => some { p := false, x := h.x, op := 45#6, d := d, a := a, b := b, g := h.g, gn := h.gn, la := h.la, f := m.code, c := c, ty := ty.code, ty2 := 0#4, targets := [] }
  | .vLdr h ty d a b c m p => some { p := false, x := h.x, op := 46#6, d := d, a := a, b := b, g := h.g, gn := h.gn, la := h.la, f := m.code, c := c, ty := ty.code, ty2 := p, targets := [] }
  | .vPf h a b c m => some { p := false, x := h.x, op := 47#6, d := 0#8, a := a, b := b, g := h.g, gn := h.gn, la := h.la, f := m.code, c := c, ty := 0#4, ty2 := 0#4, targets := [] }
  | .vAtom h aop ty d a b c sp => some { p := false, x := h.x, op := 48#6, d := d, a := a, b := b, g := h.g, gn := h.gn, la := h.la, f := BitVec.ofBool sp ++ 0#6, c := c, ty := ty.code, ty2 := aop.code, targets := [] }
  | .vAtomn h aop ty a b c sp => some { p := false, x := h.x, op := 49#6, d := 0#8, a := a, b := b, g := h.g, gn := h.gn, la := h.la, f := BitVec.ofBool sp ++ 0#6, c := c, ty := ty.code, ty2 := aop.code, targets := [] }
  | .vCas h ty d a b c sp => some { p := false, x := h.x, op := 50#6, d := d, a := a, b := b, g := h.g, gn := h.gn, la := h.la, f := BitVec.ofBool sp ++ 0#6, c := c, ty := ty.code, ty2 := 0#4, targets := [] }
  | .ckRes h d a => some { p := false, x := h.x, op := 54#6, d := d, a := a, b := 0#8, g := h.g, gn := h.gn, la := h.la, f := 0#7, c := 0#8, ty := 13#4, ty2 := 0#4, targets := [] }
  | .ckVfy h ty p a => some { p := false, x := h.x, op := 54#6, d := 0#4 ++ p, a := a, b := 0#8, g := h.g, gn := h.gn, la := h.la, f := 1#7, c := 0#8, ty := ty.code, ty2 := 0#4, targets := [] }
  | .ckInjr h d a b => some { p := false, x := h.x, op := 54#6, d := d, a := a, b := b, g := h.g, gn := h.gn, la := h.la, f := 2#7, c := 0#8, ty := 13#4, ty2 := 0#4, targets := [] }
  | .ckMcrd h d a => some { p := false, x := h.x, op := 55#6, d := d, a := a, b := 0#8, g := h.g, gn := h.gn, la := h.la, f := 0#7, c := 0#8, ty := 14#4, ty2 := 0#4, targets := [] }
  | .ckEcnt h d a => some { p := false, x := h.x, op := 55#6, d := d, a := a, b := 0#8, g := h.g, gn := h.gn, la := h.la, f := 1#7, c := 0#8, ty := 13#4, ty2 := 0#4, targets := [] }
  | .ckInjmGCe h a => some { p := false, x := h.x, op := 55#6, d := 0#8, a := a, b := 0#8, g := h.g, gn := h.gn, la := h.la, f := 2#7, c := 0#8, ty := 0#4, ty2 := 0#4, targets := [] }
  | .ckInjmGUe h a => some { p := false, x := h.x, op := 55#6, d := 0#8, a := a, b := 0#8, g := h.g, gn := h.gn, la := h.la, f := 3#7, c := 0#8, ty := 0#4, ty2 := 0#4, targets := [] }
  | .ckInjmVtCe h a => some { p := false, x := h.x, op := 55#6, d := 0#8, a := a, b := 0#8, g := h.g, gn := h.gn, la := h.la, f := 4#7, c := 0#8, ty := 0#4, ty2 := 0#4, targets := [] }
  | .ckInjmVtUe h a => some { p := false, x := h.x, op := 55#6, d := 0#8, a := a, b := 0#8, g := h.g, gn := h.gn, la := h.la, f := 5#7, c := 0#8, ty := 0#4, ty2 := 0#4, targets := [] }
  | .mxGang h d a b => some { p := true, x := h.x, op := 32#6, d := d, a := a, b := b, g := h.g, gn := h.gn, la := h.la, f := 0#7, c := 0#8, ty := 0#4, ty2 := 0#4, targets := [] }
  | .mxFree h => some { p := true, x := h.x, op := 32#6, d := 0#8, a := 0#8, b := 0#8, g := h.g, gn := h.gn, la := h.la, f := 1#7, c := 0#8, ty := 0#4, ty2 := 0#4, targets := [] }
  | .mxMma h d a b c acc z acq => some { p := true, x := h.x, op := 34#6, d := d, a := a, b := b, g := h.g, gn := h.gn, la := h.la, f := 0#1 ++ 0#1 ++ 0#1 ++ 0#1 ++ BitVec.ofBool acq ++ BitVec.ofBool z ++ BitVec.ofBool acc, c := c, ty := 0#4, ty2 := 0#4, targets := [] }
  | .mxZero h d a c => some { p := true, x := h.x, op := 35#6, d := d, a := a, b := 0#8, g := h.g, gn := h.gn, la := h.la, f := 0#7, c := c, ty := 0#4, ty2 := 0#4, targets := [] }
  | .mxLd h ty d a c tr acq => some { p := true, x := h.x, op := 36#6, d := d, a := a, b := 0#8, g := h.g, gn := h.gn, la := h.la, f := 0#1 ++ 0#1 ++ 0#1 ++ 0#1 ++ BitVec.ofBool acq ++ 0#1 ++ BitVec.ofBool tr, c := c, ty := ty.code, ty2 := 0#4, targets := [] }
  | .mxSt h d a c tr clr acq rel => some { p := true, x := h.x, op := 37#6, d := d, a := a, b := 0#8, g := h.g, gn := h.gn, la := h.la, f := 0#1 ++ 0#1 ++ 0#1 ++ BitVec.ofBool rel ++ BitVec.ofBool acq ++ BitVec.ofBool clr ++ BitVec.ofBool tr, c := c, ty := 0#4, ty2 := 0#4, targets := [] }
  | .saOpen h d a b c => some { p := true, x := h.x, op := 40#6, d := d, a := a, b := b, g := h.g, gn := h.gn, la := h.la, f := 0#7, c := c, ty := 0#4, ty2 := 0#4, targets := [] }
  | .saClose h d a => some { p := true, x := h.x, op := 40#6, d := d, a := a, b := 0#8, g := h.g, gn := h.gn, la := h.la, f := 1#7, c := 0#8, ty := 0#4, ty2 := 0#4, targets := [] }
  | .saNorm h d a b acq => some { p := true, x := h.x, op := 41#6, d := d, a := a, b := b, g := h.g, gn := h.gn, la := h.la, f := 0#1 ++ 0#1 ++ 0#1 ++ 0#1 ++ BitVec.ofBool acq ++ 0#1 ++ 0#1, c := 0#8, ty := 0#4, ty2 := 0#4, targets := [] }
  | .saBuild h d a b c => some { p := true, x := h.x, op := 41#6, d := d, a := a, b := b, g := h.g, gn := h.gn, la := h.la, f := 1#7, c := c, ty := 0#4, ty2 := 0#4, targets := [] }
  | .saDraw h d a acq => some { p := true, x := h.x, op := 42#6, d := d, a := a, b := 0#8, g := h.g, gn := h.gn, la := h.la, f := 0#1 ++ 0#1 ++ 0#1 ++ 0#1 ++ BitVec.ofBool acq ++ 0#1 ++ 0#1, c := 0#8, ty := 0#4, ty2 := 0#4, targets := [] }
  | .saFin h d a => some { p := true, x := h.x, op := 42#6, d := d, a := a, b := 0#8, g := h.g, gn := h.gn, la := h.la, f := 1#7, c := 0#8, ty := 0#4, ty2 := 0#4, targets := [] }
  | .saStat h d a => some { p := true, x := h.x, op := 43#6, d := d, a := a, b := 0#8, g := h.g, gn := h.gn, la := h.la, f := 0#7, c := 0#8, ty := 0#4, ty2 := 0#4, targets := [] }
  | .cpCopy h d a b acq rel => some { p := true, x := h.x, op := 44#6, d := d, a := a, b := b, g := h.g, gn := h.gn, la := h.la, f := 0#1 ++ 0#1 ++ 0#1 ++ 0#1 ++ 0#1 ++ BitVec.ofBool rel ++ BitVec.ofBool acq, c := 0#8, ty := 0#4, ty2 := 0#4, targets := [] }
  | .cpMcast h d a b c acq rel => some { p := true, x := h.x, op := 45#6, d := d, a := a, b := b, g := h.g, gn := h.gn, la := h.la, f := 0#1 ++ 0#1 ++ 0#1 ++ 0#1 ++ 0#1 ++ BitVec.ofBool rel ++ BitVec.ofBool acq, c := c, ty := 0#4, ty2 := 0#4, targets := [] }
  | .cpOff h d a b c acq rel => some { p := true, x := h.x, op := 46#6, d := d, a := a, b := b, g := h.g, gn := h.gn, la := h.la, f := 0#1 ++ 0#1 ++ 0#1 ++ 0#1 ++ 0#1 ++ BitVec.ofBool rel ++ BitVec.ofBool acq, c := c, ty := 0#4, ty2 := 0#4, targets := [] }
  | .cpRet h d a b c acq rel => some { p := true, x := h.x, op := 46#6, d := d, a := a, b := b, g := h.g, gn := h.gn, la := h.la, f := 0#1 ++ 0#1 ++ 0#1 ++ 1#1 ++ 0#1 ++ BitVec.ofBool rel ++ BitVec.ofBool acq, c := c, ty := 0#4, ty2 := 0#4, targets := [] }
  | .cpProm h d a => some { p := true, x := h.x, op := 47#6, d := d, a := a, b := 0#8, g := h.g, gn := h.gn, la := h.la, f := 0#7, c := 0#8, ty := 0#4, ty2 := 0#4, targets := [] }
  | .cpRenew h d a => some { p := true, x := h.x, op := 47#6, d := d, a := a, b := 0#8, g := h.g, gn := h.gn, la := h.la, f := 1#7, c := 0#8, ty := 0#4, ty2 := 0#4, targets := [] }
  | .cpCncl h d a => some { p := true, x := h.x, op := 47#6, d := d, a := a, b := 0#8, g := h.g, gn := h.gn, la := h.la, f := 2#7, c := 0#8, ty := 0#4, ty2 := 0#4, targets := [] }
  | .pgReq h d a => some { p := true, x := h.x, op := 48#6, d := d, a := a, b := 0#8, g := h.g, gn := h.gn, la := h.la, f := 0#7, c := 0#8, ty := 0#4, ty2 := 0#4, targets := [] }
  | .pgProbe h d a => some { p := true, x := h.x, op := 48#6, d := d, a := a, b := 0#8, g := h.g, gn := h.gn, la := h.la, f := 1#7, c := 0#8, ty := 0#4, ty2 := 0#4, targets := [] }
  | .pgShoot h d a b => some { p := true, x := h.x, op := 49#6, d := d, a := a, b := b, g := h.g, gn := h.gn, la := h.la, f := 0#7, c := 0#8, ty := 0#4, ty2 := 0#4, targets := [] }
  | .pgMig h d a b => some { p := true, x := h.x, op := 50#6, d := d, a := a, b := b, g := h.g, gn := h.gn, la := h.la, f := 0#7, c := 0#8, ty := 0#4, ty2 := 0#4, targets := [] }
  | .pgCnt h d a => some { p := true, x := h.x, op := 51#6, d := d, a := a, b := 0#8, g := h.g, gn := h.gn, la := h.la, f := 0#7, c := 0#8, ty := 0#4, ty2 := 0#4, targets := [] }
  | .clRun h d a b acq rel => some { p := true, x := h.x, op := 52#6, d := d, a := a, b := b, g := h.g, gn := h.gn, la := h.la, f := 0#1 ++ 0#1 ++ 0#1 ++ 0#1 ++ 0#1 ++ BitVec.ofBool rel ++ BitVec.ofBool acq, c := 0#8, ty := 0#4, ty2 := 0#4, targets := [] }
  | .clCncl h d a => some { p := true, x := h.x, op := 53#6, d := d, a := a, b := 0#8, g := h.g, gn := h.gn, la := h.la, f := 0#7, c := 0#8, ty := 0#4, ty2 := 0#4, targets := [] }
  | .clInfo h d a => some { p := true, x := h.x, op := 54#6, d := d, a := a, b := 0#8, g := h.g, gn := h.gn, la := h.la, f := 0#7, c := 0#8, ty := 0#4, ty2 := 0#4, targets := [] }
  | .clProg h d a => some { p := true, x := h.x, op := 54#6, d := d, a := a, b := 0#8, g := h.g, gn := h.gn, la := h.la, f := 1#7, c := 0#8, ty := 0#4, ty2 := 0#4, targets := [] }
  | .clAbort h d a => some { p := true, x := h.x, op := 55#6, d := d, a := a, b := 0#8, g := h.g, gn := h.gn, la := h.la, f := 0#7, c := 0#8, ty := 0#4, ty2 := 0#4, targets := [] }
  | .dpLaunch h d a b => some { p := true, x := h.x, op := 56#6, d := d, a := a, b := b, g := h.g, gn := h.gn, la := h.la, f := 0#7, c := 0#8, ty := 0#4, ty2 := 0#4, targets := [] }
  | .dpQstat h d b => some { p := true, x := h.x, op := 56#6, d := d, a := 0#8, b := b, g := h.g, gn := h.gn, la := h.la, f := 1#7, c := 0#8, ty := 0#4, ty2 := 0#4, targets := [] }
  | .dpTadd h d a => some { p := true, x := h.x, op := 57#6, d := d, a := a, b := 0#8, g := h.g, gn := h.gn, la := h.la, f := 0#7, c := 0#8, ty := 0#4, ty2 := 0#4, targets := [] }
  | .dpTdrop h d a => some { p := true, x := h.x, op := 57#6, d := d, a := a, b := 0#8, g := h.g, gn := h.gn, la := h.la, f := 1#7, c := 0#8, ty := 0#4, ty2 := 0#4, targets := [] }
  | .dpTdepth h d => some { p := true, x := h.x, op := 57#6, d := d, a := 0#8, b := 0#8, g := h.g, gn := h.gn, la := h.la, f := 2#7, c := 0#8, ty := 0#4, ty2 := 0#4, targets := [] }
  | .dpLsovf h => some { p := true, x := h.x, op := 58#6, d := 0#8, a := 0#8, b := 0#8, g := h.g, gn := h.gn, la := h.la, f := 0#7, c := 0#8, ty := 0#4, ty2 := 0#4, targets := [] }
  | .dpLsstep h => some { p := true, x := h.x, op := 58#6, d := 0#8, a := 0#8, b := 0#8, g := h.g, gn := h.gn, la := h.la, f := 1#7, c := 0#8, ty := 0#4, ty2 := 0#4, targets := [] }
  | .tkPrice h d a => some { p := true, x := h.x, op := 59#6, d := d, a := a, b := 0#8, g := h.g, gn := h.gn, la := h.la, f := 0#7, c := 0#8, ty := 0#4, ty2 := 0#4, targets := [] }
  | .tkWait h a => some { p := true, x := h.x, op := 59#6, d := 0#8, a := a, b := 0#8, g := h.g, gn := h.gn, la := h.la, f := 1#7, c := 0#8, ty := 0#4, ty2 := 0#4, targets := [] }
  | .tkDbal h d a => some { p := true, x := h.x, op := 59#6, d := d, a := a, b := 0#8, g := h.g, gn := h.gn, la := h.la, f := 2#7, c := 0#8, ty := 0#4, ty2 := 0#4, targets := [] }
  | .tkIntent h d a b => some { p := true, x := h.x, op := 59#6, d := d, a := a, b := b, g := h.g, gn := h.gn, la := h.la, f := 3#7, c := 0#8, ty := 0#4, ty2 := 0#4, targets := [] }
  | .tkIcncl h d a => some { p := true, x := h.x, op := 59#6, d := d, a := a, b := 0#8, g := h.g, gn := h.gn, la := h.la, f := 4#7, c := 0#8, ty := 0#4, ty2 := 0#4, targets := [] }
  | .coldBoot _ _ _ => none
  | .hostLinkDown => none
  | .ownerVacancy => none
  | .mclaimWrite _ => none
  | .macceptWrite _ _ => none
  | .mownPendWrite _ _ => none
  | .pendTimeout => none
  | .registerWrite _ _ _ => none
  | .hostWindowAccess _ _ _ _ => none
  | .ctxSaveCmd _ _ _ => none
  | .ctxRestoreCmd _ _ _ => none
  | .ctxDestroyCmd _ _ _ => none
  | .contextSave _ => none
  | .contextSaveComplete _ => none
  | .contextDestroyComplete _ => none
  | .partcfgWrite _ _ => none
  | .partWrite _ _ _ => none
  | .linkKeyZeroise _ => none
  | .memoryKeyInstall _ => none
  | .linkKeyInstall _ => none
  | .clearKeySlot _ => none
  | .attestationRequest _ => none
  | .priceTableWrite _ _ _ _ => none
  | .tkcoreWrite _ _ _ => none
  | .lscfgWrite _ _ _ => none
  | .wearCounterSave => none
  | .thermalCycleCount _ => none
  | .queueTableEntryWrite _ _ => none
  | .queueTailStore _ _ => none
  | .launchPacketConsume _ _ => none
  | .packetStart _ _ => none
  | .packPlace _ => none
  | .wholeGridPlace _ => none
  | .partialEviction _ => none
  | .evictionDrainDone _ => none
  | .teamRestore _ => none
  | .gridEnd _ => none
  | .tapeRunStart _ _ => none
  | .tapePop _ => none
  | .stepEndClose _ _ => none
  | .issueCycle _ => none
  | .mcrecReadable _ _ => none
  | .preciseStop _ => none
  | .asyncFault _ _ _ => none
  | .barrierArrival _ => none
  | .barrierRelease _ => none
  | .barrierTokenReturn _ => none
  | .handleCompleteWake _ => none
  | .sleepWake _ => none
  | .copyLateCheck _ => none
  | .cfetchLand _ _ => none
  | .coreRefill _ => none
  | .dieRefill => none
  | .reservationTake _ _ => none
  | .rampStep => none
  | .governorCycle => none
  | .intentReceive _ _ _ _ _ _ _ => none
  | .intentCancelReceive _ _ _ _ _ => none
  | .intentExpire _ => none
  | .islandIdle _ => none
  | .islandRetention _ => none
  | .islandWake _ => none
  | .islandWakeDone _ => none
  | .subarrayGate _ _ => none
  | .gangForm _ _ => none
  | .windowAllocate _ => none
  | .mmaLatchComplete _ _ => none
  | .mxPassGrant _ => none
  | .mxPassEnd _ _ => none
  | .mxWindowOpComplete _ _ => none
  | .saCommandStart _ _ => none
  | .saBatchPass _ _ => none
  | .saCommandComplete _ _ => none
  | .copyCommandStart _ _ => none
  | .copyComplete _ _ => none
  | .clProgramStart _ => none
  | .clStepStart _ => none
  | .clMessageArrive _ => none
  | .clStepComplete _ _ => none
  | .clStepTimeout _ _ => none
  | .clAbortArrive _ => none
  | .fabricPeerLost _ => none
  | .fabricPortDown _ => none
  | .llcMissTranslate _ _ _ => none
  | .pageWalkComplete _ _ => none
  | .remoteRequestArrive _ => none
  | .pendingRequestRewalk _ => none
  | .atsInvalidate _ _ _ => none
  | .priResponse _ _ _ => none
  | .mreqArrive _ _ _ => none
  | .migrationHold _ _ => none
  | .migrationSwitch _ _ _ _ => none
  | .homeStoreRegister _ => none
  | .revokeAck _ => none
  | .atomicApply _ => none
  | .loadDataReturn _ => none
  | .scrubRead => none
  | .hostLinkUp => none
  | .fabricPortUp _ => none
  | .powerLoss => none
  | .hoursAtTemperature _ => none
  | .atsTranslationCompletion _ _ _ _ => none
  | .zeroLengthReadComplete _ => none
  | .contextRestoreComplete _ => none
  | .migrationRefusal _ _ _ => none
  | .codeSlotPinExpiry _ _ => none

/-- Uniform-pipe opcode 0x00. -/
def decUniform00 (f : Fields) : Option Instr :=
  if ([.s32, .s64, .n32, .n64] : List Ty).contains (Ty.ofCode f.ty) && f.ty2 == 0#4 && f.c == 0#8 && f.f == 0#7 && f.la == 0#4 && !f.g.getLsbD 3 && f.targets.isEmpty then some (.sAdd f.hdr (Ty.ofCode f.ty) (f.d) (f.a) (f.b)) else
  none

/-- Uniform-pipe opcode 0x01. -/
def decUniform01 (f : Fields) : Option Instr :=
  if ([.s32, .s64, .n32, .n64] : List Ty).contains (Ty.ofCode f.ty) && f.ty2 == 0#4 && f.c == 0#8 && f.f == 0#7 && f.la == 0#4 && !f.g.getLsbD 3 && f.targets.isEmpty then some (.sSub f.hdr (Ty.ofCode f.ty) (f.d) (f.a) (f.b)) else
  none

/-- Uniform-pipe opcode 0x02. -/
def decUniform02 (f : Fields) : Option Instr :=
  if ([.s32, .n32] : List Ty).contains (Ty.ofCode f.ty) && f.ty2 == 0#4 && f.c == 0#8 && f.f == 0#7 && f.la == 0#4 && !f.g.getLsbD 3 && f.targets.isEmpty then some (.sMul f.hdr (Ty.ofCode f.ty) (f.d) (f.a) (f.b)) else
  if ([.s32, .n32] : List Ty).contains (Ty.ofCode f.ty) && f.ty2 == 0#4 && f.c == 0#8 && f.f == 1#7 && f.la == 0#4 && !f.g.getLsbD 3 && f.targets.isEmpty then some (.sMulh f.hdr (Ty.ofCode f.ty) (f.d) (f.a) (f.b)) else
  none

/-- Uniform-pipe opcode 0x03. -/
def decUniform03 (f : Fields) : Option Instr :=
  if ([.b32, .b64] : List Ty).contains (Ty.ofCode f.ty) && f.ty2 == 0#4 && f.c == 0#8 && f.f == 0#7 && f.la == 0#4 && !f.g.getLsbD 3 && f.targets.isEmpty then some (.sAnd f.hdr (Ty.ofCode f.ty) (f.d) (f.a) (f.b)) else
  if ([.b32, .b64] : List Ty).contains (Ty.ofCode f.ty) && f.ty2 == 0#4 && f.c == 0#8 && f.f == 1#7 && f.la == 0#4 && !f.g.getLsbD 3 && f.targets.isEmpty then some (.sOr f.hdr (Ty.ofCode f.ty) (f.d) (f.a) (f.b)) else
  if ([.b32, .b64] : List Ty).contains (Ty.ofCode f.ty) && f.ty2 == 0#4 && f.c == 0#8 && f.f == 2#7 && f.la == 0#4 && !f.g.getLsbD 3 && f.targets.isEmpty then some (.sXor f.hdr (Ty.ofCode f.ty) (f.d) (f.a) (f.b)) else
  if ([.b32, .b64] : List Ty).contains (Ty.ofCode f.ty) && f.ty2 == 0#4 && f.c == 0#8 && f.f == 3#7 && f.la == 0#4 && !f.g.getLsbD 3 && f.targets.isEmpty then some (.sAndn f.hdr (Ty.ofCode f.ty) (f.d) (f.a) (f.b)) else
  none

/-- Uniform-pipe opcode 0x04. -/
def decUniform04 (f : Fields) : Option Instr :=
  if ([.b32, .b64] : List Ty).contains (Ty.ofCode f.ty) && f.ty2 == 0#4 && f.c == 0#8 && f.f == 0#7 && f.la == 0#4 && !f.g.getLsbD 3 && f.targets.isEmpty then some (.sShl f.hdr (Ty.ofCode f.ty) (f.d) (f.a) (f.b)) else
  if ([.b32, .b64] : List Ty).contains (Ty.ofCode f.ty) && f.ty2 == 0#4 && f.c == 0#8 && f.f == 1#7 && f.la == 0#4 && !f.g.getLsbD 3 && f.targets.isEmpty then some (.sShr f.hdr (Ty.ofCode f.ty) (f.d) (f.a) (f.b)) else
  if ([.b32, .b64] : List Ty).contains (Ty.ofCode f.ty) && f.ty2 == 0#4 && f.c == 0#8 && f.f == 2#7 && f.la == 0#4 && !f.g.getLsbD 3 && f.targets.isEmpty then some (.sSra f.hdr (Ty.ofCode f.ty) (f.d) (f.a) (f.b)) else
  none

/-- Uniform-pipe opcode 0x05. -/
def decUniform05 (f : Fields) : Option Instr :=
  if ([.s32, .s64, .n32, .n64] : List Ty).contains (Ty.ofCode f.ty) && f.ty2 == 0#4 && f.c == 0#8 && f.f == 0#7 && f.la == 0#4 && !f.g.getLsbD 3 && f.targets.isEmpty then some (.sMin f.hdr (Ty.ofCode f.ty) (f.d) (f.a) (f.b)) else
  if ([.s32, .s64, .n32, .n64] : List Ty).contains (Ty.ofCode f.ty) && f.ty2 == 0#4 && f.c == 0#8 && f.f == 1#7 && f.la == 0#4 && !f.g.getLsbD 3 && f.targets.isEmpty then some (.sMax f.hdr (Ty.ofCode f.ty) (f.d) (f.a) (f.b)) else
  none

/-- Uniform-pipe opcode 0x06. -/
def decUniform06 (f : Fields) : Option Instr :=
  if ([.s32, .n32] : List Ty).contains (Ty.ofCode f.ty) && f.ty2 == 0#4 && f.c == 0#8 && f.f.extractLsb' 4 3 == 0#3 && f.la == 0#4 && !f.g.getLsbD 3 && f.targets.isEmpty then some (.sLea f.hdr (Ty.ofCode f.ty) (f.d) (f.a) (f.b) (f.f.extractLsb' 0 4)) else
  none

/-- Uniform-pipe opcode 0x07. -/
def decUniform07 (f : Fields) : Option Instr :=
  if ([.s32, .s64] : List Ty).contains (Ty.ofCode f.ty) && f.ty2 == 0#4 && f.c == 0#8 && f.f == 0#7 && f.la == 0#4 && !f.g.getLsbD 3 && f.targets.isEmpty then some (.sAddi f.hdr (Ty.ofCode f.ty) (f.d) (f.a) (f.b)) else
  none

/-- Uniform-pipe opcode 0x08. -/
def decUniform08 (f : Fields) : Option Instr :=
  if ([.b32, .b64] : List Ty).contains (Ty.ofCode f.ty) && f.ty2 == 0#4 && f.c == 0#8 && f.f == 0#7 && f.la == 0#4 && !f.g.getLsbD 3 && f.targets.isEmpty then some (.sAndi f.hdr (Ty.ofCode f.ty) (f.d) (f.a) (f.b)) else
  if ([.b32, .b64] : List Ty).contains (Ty.ofCode f.ty) && f.ty2 == 0#4 && f.c == 0#8 && f.f == 1#7 && f.la == 0#4 && !f.g.getLsbD 3 && f.targets.isEmpty then some (.sOri f.hdr (Ty.ofCode f.ty) (f.d) (f.a) (f.b)) else
  if ([.b32, .b64] : List Ty).contains (Ty.ofCode f.ty) && f.ty2 == 0#4 && f.c == 0#8 && f.f == 2#7 && f.la == 0#4 && !f.g.getLsbD 3 && f.targets.isEmpty then some (.sXori f.hdr (Ty.ofCode f.ty) (f.d) (f.a) (f.b)) else
  if ([.b32, .b64] : List Ty).contains (Ty.ofCode f.ty) && f.ty2 == 0#4 && f.c == 0#8 && f.f == 3#7 && f.la == 0#4 && !f.g.getLsbD 3 && f.targets.isEmpty then some (.sShli f.hdr (Ty.ofCode f.ty) (f.d) (f.a) (f.b)) else
  if ([.b32, .b64] : List Ty).contains (Ty.ofCode f.ty) && f.ty2 == 0#4 && f.c == 0#8 && f.f == 4#7 && f.la == 0#4 && !f.g.getLsbD 3 && f.targets.isEmpty then some (.sShri f.hdr (Ty.ofCode f.ty) (f.d) (f.a) (f.b)) else
  if ([.b32, .b64] : List Ty).contains (Ty.ofCode f.ty) && f.ty2 == 0#4 && f.c == 0#8 && f.f == 5#7 && f.la == 0#4 && !f.g.getLsbD 3 && f.targets.isEmpty then some (.sSrai f.hdr (Ty.ofCode f.ty) (f.d) (f.a) (f.b)) else
  none

/-- Uniform-pipe opcode 0x09. -/
def decUniform09 (f : Fields) : Option Instr :=
  if ([.s32, .s64, .n32] : List Ty).contains (Ty.ofCode f.ty) && f.ty2 == 0#4 && f.c == 0#8 && f.f == 0#7 && f.la == 0#4 && !f.g.getLsbD 3 && f.targets.isEmpty then some (.sMovi f.hdr (Ty.ofCode f.ty) (f.d) (f.a ++ f.b)) else
  none

/-- Uniform-pipe opcode 0x0A. -/
def decUniform0A (f : Fields) : Option Instr :=
  if f.ty == 13#4 && f.ty2 == 0#4 && f.c == 0#8 && f.f == 0#7 && f.la == 0#4 && !f.g.getLsbD 3 && f.targets.isEmpty then some (.sMovhi f.hdr (f.d) (f.a ++ f.b)) else
  none

/-- Uniform-pipe opcode 0x0B. -/
def decUniform0B (f : Fields) : Option Instr :=
  match (Cc.ofCode f.f) with
  | some cc => if ([.s32, .s64, .n32, .n64] : List Ty).contains (Ty.ofCode f.ty) && f.ty2 == 0#4 && f.d.extractLsb' 3 5 == 0#5 && f.c == 0#8 && f.la == 0#4 && !f.g.getLsbD 3 && f.targets.isEmpty then some (.sCmp f.hdr cc (Ty.ofCode f.ty) (f.d.extractLsb' 0 3) (f.a) (f.b)) else none
  | none =>
  none

/-- Uniform-pipe opcode 0x0C. -/
def decUniform0C (f : Fields) : Option Instr :=
  match (Cc.ofCode f.f) with
  | some cc => if ([.s32, .s64, .n32, .n64] : List Ty).contains (Ty.ofCode f.ty) && f.ty2 == 0#4 && f.d.extractLsb' 3 5 == 0#5 && f.c == 0#8 && f.la == 0#4 && !f.g.getLsbD 3 && f.targets.isEmpty then some (.sCmpi f.hdr cc (Ty.ofCode f.ty) (f.d.extractLsb' 0 3) (f.a) (f.b)) else none
  | none =>
  none

/-- Uniform-pipe opcode 0x0D. -/
def decUniform0D (f : Fields) : Option Instr :=
  if ([.b32, .b64] : List Ty).contains (Ty.ofCode f.ty) && f.ty2 == 0#4 && f.c == 0#8 && f.f.extractLsb' 4 3 == 0#3 && f.la == 0#4 && !f.g.getLsbD 3 && f.targets.isEmpty then some (.sSel f.hdr (Ty.ofCode f.ty) (f.d) (f.a) (f.b) (f.f.extractLsb' 0 3) (f.f.getLsbD 3)) else
  none

/-- Uniform-pipe opcode 0x0E. -/
def decUniform0E (f : Fields) : Option Instr :=
  if ([.b32, .b64] : List Ty).contains (Ty.ofCode f.ty) && f.ty2 == 0#4 && f.c == 0#8 && f.f == 0#7 && f.la == 0#4 && !f.g.getLsbD 3 && f.targets.isEmpty then some (.sMov f.hdr (Ty.ofCode f.ty) (f.d) (f.a) (f.b)) else
  if ([.b32, .b64] : List Ty).contains (Ty.ofCode f.ty) && f.ty2 == 0#4 && f.f == 1#7 && f.la == 0#4 && !f.g.getLsbD 3 && f.targets.isEmpty then some (.sVrd f.hdr (Ty.ofCode f.ty) (f.d) (f.a) (f.b) (f.c)) else
  if ([.b32, .b64] : List Ty).contains (Ty.ofCode f.ty) && f.ty2 == 0#4 && f.c == 0#8 && f.f == 2#7 && f.la == 0#4 && !f.g.getLsbD 3 && f.targets.isEmpty then some (.sVrdf f.hdr (Ty.ofCode f.ty) (f.d) (f.a) (f.b)) else
  none

/-- Uniform-pipe opcode 0x0F. -/
def decUniform0F (f : Fields) : Option Instr :=
  if f.ty == 0#4 && f.ty2 == 0#4 && f.d.extractLsb' 3 5 == 0#5 && f.a.extractLsb' 3 5 == 0#5 && f.b.extractLsb' 3 5 == 0#5 && f.c == 0#8 && f.f == 0#7 && f.la == 0#4 && !f.g.getLsbD 3 && f.targets.isEmpty then some (.sQand f.hdr (f.d.extractLsb' 0 3) (f.a.extractLsb' 0 3) (f.b.extractLsb' 0 3)) else
  if f.ty == 0#4 && f.ty2 == 0#4 && f.d.extractLsb' 3 5 == 0#5 && f.a.extractLsb' 3 5 == 0#5 && f.b.extractLsb' 3 5 == 0#5 && f.c == 0#8 && f.f == 1#7 && f.la == 0#4 && !f.g.getLsbD 3 && f.targets.isEmpty then some (.sQor f.hdr (f.d.extractLsb' 0 3) (f.a.extractLsb' 0 3) (f.b.extractLsb' 0 3)) else
  if f.ty == 0#4 && f.ty2 == 0#4 && f.d.extractLsb' 3 5 == 0#5 && f.a.extractLsb' 3 5 == 0#5 && f.b.extractLsb' 3 5 == 0#5 && f.c == 0#8 && f.f == 2#7 && f.la == 0#4 && !f.g.getLsbD 3 && f.targets.isEmpty then some (.sQxor f.hdr (f.d.extractLsb' 0 3) (f.a.extractLsb' 0 3) (f.b.extractLsb' 0 3)) else
  if f.ty == 0#4 && f.ty2 == 0#4 && f.d.extractLsb' 3 5 == 0#5 && f.a.extractLsb' 4 4 == 0#4 && f.b == 0#8 && f.c == 0#8 && f.f == 3#7 && f.la == 0#4 && !f.g.getLsbD 3 && f.targets.isEmpty then some (.sQany f.hdr (f.d.extractLsb' 0 3) (f.a.extractLsb' 0 4)) else
  if f.ty == 0#4 && f.ty2 == 0#4 && f.d.extractLsb' 3 5 == 0#5 && f.a.extractLsb' 4 4 == 0#4 && f.b == 0#8 && f.c == 0#8 && f.f == 4#7 && f.la == 0#4 && !f.g.getLsbD 3 && f.targets.isEmpty then some (.sQall f.hdr (f.d.extractLsb' 0 3) (f.a.extractLsb' 0 4)) else
  none

/-- Uniform-pipe opcode 0x10. -/
def decUniform10 (f : Fields) : Option Instr :=
  (if f.d.extractLsb' 4 4 == 0#4 && f.b.extractLsb' 0 7 == 0#7 && f.ty == 0#4 && f.ty2 == 0#4 && f.f.extractLsb' 5 2 == 0#2 && f.la == 0#4 && !f.g.getLsbD 3 && f.targets.isEmpty then some (.sJmp f.hdr (f.d.extractLsb' 0 4 ++ f.a ++ f.b.extractLsb' 7 1) (f.f.extractLsb' 0 5 ++ f.c)) else none) <|>
  (match (Sel.ofCode (f.b.extractLsb' 0 7)) with | some sel => (if f.d.extractLsb' 4 4 == 1#4 && f.ty == 0#4 && f.ty2 == 0#4 && f.f.extractLsb' 5 2 == 0#2 && f.la == 0#4 && !f.g.getLsbD 3 && f.x && f.targets.isEmpty then some (.sBr f.hdr sel (f.d.extractLsb' 0 4 ++ f.a ++ f.b.extractLsb' 7 1) (f.f.extractLsb' 0 5 ++ f.c)) else none) | none => none) <|>
  (match (Sel.ofCode (f.b.extractLsb' 0 7)) with | some sel => (if f.d.extractLsb' 4 4 == 2#4 && f.ty == 0#4 && f.ty2 == 0#4 && f.f.extractLsb' 5 2 == 0#2 && f.la == 0#4 && !f.g.getLsbD 3 && f.targets.isEmpty then some (.sBrAll f.hdr sel (f.d.extractLsb' 0 4 ++ f.a ++ f.b.extractLsb' 7 1) (f.f.extractLsb' 0 5 ++ f.c)) else none) | none => none) <|>
  (match (Sel.ofCode (f.b.extractLsb' 0 7)) with | some sel => (if f.d.extractLsb' 4 4 == 3#4 && f.ty == 0#4 && f.ty2 == 0#4 && f.f.extractLsb' 5 2 == 0#2 && f.la == 0#4 && !f.g.getLsbD 3 && f.targets.isEmpty then some (.sBrAny f.hdr sel (f.d.extractLsb' 0 4 ++ f.a ++ f.b.extractLsb' 7 1) (f.f.extractLsb' 0 5 ++ f.c)) else none) | none => none) <|>
  (if f.d.extractLsb' 4 4 == 4#4 && f.b.getLsbD 6 && f.b.extractLsb' 0 6 != 62#6 && f.ty == 0#4 && f.ty2 == 0#4 && f.f.extractLsb' 5 2 == 0#2 && f.la == 0#4 && !f.g.getLsbD 3 && f.x && f.targets.isEmpty then some (.sLoop f.hdr (f.b.extractLsb' 0 6) (f.d.extractLsb' 0 4 ++ f.a ++ f.b.extractLsb' 7 1) (f.f.extractLsb' 0 5 ++ f.c)) else none) <|>
  none

/-- Uniform-pipe opcode 0x11. -/
def decUniform11 (f : Fields) : Option Instr :=
  if f.d.extractLsb' 4 4 == 0#4 && f.b.extractLsb' 0 7 == 0#7 && f.ty == 0#4 && f.ty2 == 0#4 && f.f.extractLsb' 5 2 == 0#2 && f.la == 0#4 && !f.g.getLsbD 3 && f.targets.isEmpty then some (.sCall f.hdr (f.d.extractLsb' 0 4 ++ f.a ++ f.b.extractLsb' 7 1) (f.f.extractLsb' 0 5 ++ f.c)) else
  none

/-- Uniform-pipe opcode 0x12. -/
def decUniform12 (f : Fields) : Option Instr :=
  if f.d.extractLsb' 4 4 == 0#4 && f.b.getLsbD 6 && f.d.extractLsb' 0 4 == 0#4 && f.a == 0#8 && !f.b.getLsbD 7 && f.ty == 0#4 && f.ty2 == 0#4 && f.f.extractLsb' 5 2 == 0#2 && f.la == 0#4 && !f.g.getLsbD 3 && f.targets.isEmpty then some (.sJr f.hdr (f.b.extractLsb' 0 6) (f.f.extractLsb' 0 5 ++ f.c)) else
  if f.d.extractLsb' 4 4 == 1#4 && f.b.getLsbD 6 && f.d.extractLsb' 0 4 == 0#4 && f.a == 0#8 && !f.b.getLsbD 7 && f.ty == 0#4 && f.ty2 == 0#4 && f.f.extractLsb' 5 2 == 0#2 && f.la == 0#4 && !f.g.getLsbD 3 && f.targets.isEmpty then some (.sCallr f.hdr (f.b.extractLsb' 0 6) (f.f.extractLsb' 0 5 ++ f.c)) else
  none

/-- Uniform-pipe opcode 0x13. -/
def decUniform13 (f : Fields) : Option Instr :=
  if f.b == 0#8 && f.ty == 0#4 && f.ty2 == 0#4 && f.f.extractLsb' 5 2 == 0#2 && f.targets.length == f.a.toNat + 1 && f.la == 0#4 && !f.g.getLsbD 3 && f.x then some (.sBtab f.hdr (f.d) (f.f.extractLsb' 0 5 ++ f.c) (f.targets)) else
  if f.b == 0#8 && f.ty == 1#4 && f.ty2 == 0#4 && f.f.extractLsb' 5 2 == 0#2 && f.targets.length == f.a.toNat + 1 && f.la == 0#4 && !f.g.getLsbD 3 && f.x then some (.sBtabc f.hdr (f.d) (f.f.extractLsb' 0 5 ++ f.c) (f.targets)) else
  none

/-- Uniform-pipe opcode 0x14. -/
def decUniform14 (f : Fields) : Option Instr :=
  if f.ty == 0#4 && f.ty2 == 0#4 && f.d == 0#8 && f.a == 0#8 && f.b == 0#8 && f.c == 0#8 && f.f == 0#7 && f.la == 0#4 && !f.g.getLsbD 3 && f.targets.isEmpty then some (.sExit f.hdr) else
  none

/-- Uniform-pipe opcode 0x15. -/
def decUniform15 (f : Fields) : Option Instr :=
  if f.ty == 0#4 && f.ty2 == 0#4 && f.d == 0#8 && f.a == 0#8 && f.b == 0#8 && f.c == 0#8 && f.f == 0#7 && f.la == 0#4 && !f.g.getLsbD 3 && f.targets.isEmpty then some (.sNop f.hdr) else
  none

/-- Uniform-pipe opcode 0x18. -/
def decUniform18 (f : Fields) : Option Instr :=
  if f.ty == 0#4 && f.ty2 == 0#4 && f.a.extractLsb' 3 5 == 0#5 && f.c == 0#8 && f.f == 0#7 && f.la == 0#4 && !f.g.getLsbD 3 && f.targets.isEmpty then some (.sBarSync f.hdr (f.d) (f.a.extractLsb' 0 3 ++ f.b)) else
  if f.ty == 0#4 && f.ty2 == 0#4 && f.a.extractLsb' 3 5 == 0#5 && f.f == 1#7 && f.la == 0#4 && !f.g.getLsbD 3 && f.targets.isEmpty then some (.sBarArr f.hdr (f.d) (f.a.extractLsb' 0 3 ++ f.b) (f.c)) else
  if f.ty == 0#4 && f.ty2 == 0#4 && f.a.extractLsb' 3 5 == 0#5 && f.c == 0#8 && f.f == 2#7 && f.la == 0#4 && !f.g.getLsbD 3 && f.targets.isEmpty then some (.sBarWait f.hdr (f.d) (f.a.extractLsb' 0 3 ++ f.b)) else
  none

/-- Uniform-pipe opcode 0x19. -/
def decUniform19 (f : Fields) : Option Instr :=
  if f.ty == 0#4 && f.ty2 == 0#4 && f.d == 0#8 && f.b == 0#8 && f.c == 0#8 && f.f == 0#7 && f.la == 0#4 && !f.g.getLsbD 3 && f.targets.isEmpty then some (.sSleepu f.hdr (f.a)) else
  none

/-- Uniform-pipe opcode 0x1A. -/
def decUniform1A (f : Fields) : Option Instr :=
  if f.ty == 0#4 && f.ty2 == 0#4 && f.b == 0#8 && f.c == 0#8 && f.f == 0#7 && f.la == 0#4 && !f.g.getLsbD 3 && f.targets.isEmpty then some (.sWait f.hdr (f.d) (f.a)) else
  if f.ty == 0#4 && f.ty2 == 0#4 && f.b == 0#8 && f.c == 0#8 && f.f == 1#7 && f.la == 0#4 && !f.g.getLsbD 3 && f.targets.isEmpty then some (.sPoll f.hdr (f.d) (f.a)) else
  if f.ty == 0#4 && f.ty2 == 0#4 && f.d == 0#8 && f.a == 0#8 && f.b == 0#8 && f.c == 0#8 && f.f == 2#7 && f.la == 0#4 && !f.g.getLsbD 3 && f.targets.isEmpty then some (.sWaitall f.hdr) else
  none

/-- Uniform-pipe opcode 0x1B. -/
def decUniform1B (f : Fields) : Option Instr :=
  if f.ty == 0#4 && f.ty2 == 0#4 && f.d == 0#8 && f.a == 0#8 && f.b == 0#8 && f.c == 0#8 && f.f == 0#7 && f.la == 0#4 && !f.g.getLsbD 3 && f.targets.isEmpty then some (.sFenceAcq f.hdr) else
  if f.ty == 0#4 && f.ty2 == 0#4 && f.d == 0#8 && f.a == 0#8 && f.b == 0#8 && f.c == 0#8 && f.f == 1#7 && f.la == 0#4 && !f.g.getLsbD 3 && f.targets.isEmpty then some (.sFenceRel f.hdr) else
  if f.ty == 0#4 && f.ty2 == 0#4 && f.d == 0#8 && f.a == 0#8 && f.b == 0#8 && f.c == 0#8 && f.f == 2#7 && f.la == 0#4 && !f.g.getLsbD 3 && f.targets.isEmpty then some (.sFenceAcqrel f.hdr) else
  if f.ty == 0#4 && f.ty2 == 0#4 && f.d == 0#8 && f.a == 0#8 && f.b == 0#8 && f.c == 0#8 && f.f == 3#7 && f.la == 0#4 && !f.g.getLsbD 3 && f.targets.isEmpty then some (.sFenceSc f.hdr) else
  none

/-- Uniform-pipe opcode 0x1C. -/
def decUniform1C (f : Fields) : Option Instr :=
  if f.ty == 0#4 && f.ty2 == 0#4 && f.d == 0#8 && f.c == 0#8 && f.f == 0#7 && f.la == 0#4 && !f.g.getLsbD 3 && f.targets.isEmpty then some (.sFmt f.hdr (f.a ++ f.b)) else
  none

/-- Uniform-pipe opcode 0x1D. -/
def decUniform1D (f : Fields) : Option Instr :=
  if f.ty == 0#4 && f.ty2 == 0#4 && f.a.extractLsb' 4 4 == 0#4 && f.c == 0#8 && f.f == 0#7 && f.la == 0#4 && !f.g.getLsbD 3 && f.targets.isEmpty then some (.sCsrr f.hdr (f.d) (f.a.extractLsb' 0 4 ++ f.b)) else
  if f.ty == 0#4 && f.ty2 == 0#4 && f.a.extractLsb' 4 4 == 0#4 && f.c == 0#8 && f.f == 1#7 && f.la == 0#4 && !f.g.getLsbD 3 && f.targets.isEmpty then some (.sCsrw f.hdr (f.d) (f.a.extractLsb' 0 4 ++ f.b)) else
  if f.ty == 0#4 && f.ty2 == 0#4 && f.a.extractLsb' 4 4 == 0#4 && f.c == 0#8 && f.f == 2#7 && f.la == 0#4 && !f.g.getLsbD 3 && f.targets.isEmpty then some (.sCsrs f.hdr (f.d) (f.a.extractLsb' 0 4 ++ f.b)) else
  if f.ty == 0#4 && f.ty2 == 0#4 && f.a.extractLsb' 4 4 == 0#4 && f.c == 0#8 && f.f == 3#7 && f.la == 0#4 && !f.g.getLsbD 3 && f.targets.isEmpty then some (.sCsrc f.hdr (f.d) (f.a.extractLsb' 0 4 ++ f.b)) else
  none

/-- Uniform-pipe opcode 0x1E. -/
def decUniform1E (f : Fields) : Option Instr :=
  if f.ty == 0#4 && f.ty2 == 0#4 && f.d.extractLsb' 2 6 == 0#6 && f.b == 0#8 && f.c == 0#8 && f.f == 0#7 && f.la == 0#4 && !f.g.getLsbD 3 && f.targets.isEmpty then some (.sSeed f.hdr (f.d.extractLsb' 0 2) (f.a)) else
  if f.ty == 0#4 && f.ty2 == 0#4 && f.d.extractLsb' 2 6 == 0#6 && f.b == 0#8 && f.c == 0#8 && f.f == 1#7 && f.la == 0#4 && !f.g.getLsbD 3 && f.targets.isEmpty then some (.sSeedmix f.hdr (f.d.extractLsb' 0 2) (f.a)) else
  none

/-- Uniform-pipe opcode 0x20. -/
def decUniform20 (f : Fields) : Option Instr :=
  if f.ty == 0#4 && f.ty2 == 0#4 && f.c == 0#8 && f.f == 0#7 && f.la == 0#4 && !f.g.getLsbD 3 && f.targets.isEmpty then some (.mxGang f.hdr (f.d) (f.a) (f.b)) else
  if f.ty == 0#4 && f.ty2 == 0#4 && f.d == 0#8 && f.a == 0#8 && f.b == 0#8 && f.c == 0#8 && f.f == 1#7 && f.la == 0#4 && !f.g.getLsbD 3 && f.targets.isEmpty then some (.mxFree f.hdr) else
  none

/-- Uniform-pipe opcode 0x22. -/
def decUniform22 (f : Fields) : Option Instr :=
  if f.ty == 0#4 && f.ty2 == 0#4 && !f.f.getLsbD 6 && !f.f.getLsbD 5 && !f.f.getLsbD 4 && !f.f.getLsbD 3 && f.la == 0#4 && !f.g.getLsbD 3 && f.targets.isEmpty then some (.mxMma f.hdr (f.d) (f.a) (f.b) (f.c) (f.f.getLsbD 0) (f.f.getLsbD 1) (f.f.getLsbD 2)) else
  none

/-- Uniform-pipe opcode 0x23. -/
def decUniform23 (f : Fields) : Option Instr :=
  if f.ty == 0#4 && f.ty2 == 0#4 && f.b == 0#8 && f.f == 0#7 && f.la == 0#4 && !f.g.getLsbD 3 && f.targets.isEmpty then some (.mxZero f.hdr (f.d) (f.a) (f.c)) else
  none

/-- Uniform-pipe opcode 0x24. -/
def decUniform24 (f : Fields) : Option Instr :=
  if ([.f16, .bf16, .f32] : List Ty).contains (Ty.ofCode f.ty) && f.ty2 == 0#4 && f.b == 0#8 && !f.f.getLsbD 6 && !f.f.getLsbD 5 && !f.f.getLsbD 4 && !f.f.getLsbD 3 && !f.f.getLsbD 1 && f.la == 0#4 && !f.g.getLsbD 3 && f.targets.isEmpty then some (.mxLd f.hdr (Ty.ofCode f.ty) (f.d) (f.a) (f.c) (f.f.getLsbD 0) (f.f.getLsbD 2)) else
  none

/-- Uniform-pipe opcode 0x25. -/
def decUniform25 (f : Fields) : Option Instr :=
  if f.ty == 0#4 && f.ty2 == 0#4 && f.b == 0#8 && !f.f.getLsbD 6 && !f.f.getLsbD 5 && !f.f.getLsbD 4 && f.la == 0#4 && !f.g.getLsbD 3 && f.targets.isEmpty then some (.mxSt f.hdr (f.d) (f.a) (f.c) (f.f.getLsbD 0) (f.f.getLsbD 1) (f.f.getLsbD 2) (f.f.getLsbD 3)) else
  none

/-- Uniform-pipe opcode 0x28. -/
def decUniform28 (f : Fields) : Option Instr :=
  if f.ty == 0#4 && f.ty2 == 0#4 && f.f == 0#7 && f.la == 0#4 && !f.g.getLsbD 3 && f.targets.isEmpty then some (.saOpen f.hdr (f.d) (f.a) (f.b) (f.c)) else
  if f.ty == 0#4 && f.ty2 == 0#4 && f.b == 0#8 && f.c == 0#8 && f.f == 1#7 && f.la == 0#4 && !f.g.getLsbD 3 && f.targets.isEmpty then some (.saClose f.hdr (f.d) (f.a)) else
  none

/-- Uniform-pipe opcode 0x29. -/
def decUniform29 (f : Fields) : Option Instr :=
  if f.ty == 0#4 && f.ty2 == 0#4 && f.c == 0#8 && !f.f.getLsbD 6 && !f.f.getLsbD 5 && !f.f.getLsbD 4 && !f.f.getLsbD 3 && !f.f.getLsbD 1 && !f.f.getLsbD 0 && f.la == 0#4 && !f.g.getLsbD 3 && f.targets.isEmpty then some (.saNorm f.hdr (f.d) (f.a) (f.b) (f.f.getLsbD 2)) else
  if f.ty == 0#4 && f.ty2 == 0#4 && f.f == 1#7 && f.la == 0#4 && !f.g.getLsbD 3 && f.targets.isEmpty then some (.saBuild f.hdr (f.d) (f.a) (f.b) (f.c)) else
  none

/-- Uniform-pipe opcode 0x2A. -/
def decUniform2A (f : Fields) : Option Instr :=
  if f.ty == 0#4 && f.ty2 == 0#4 && f.b == 0#8 && f.c == 0#8 && !f.f.getLsbD 6 && !f.f.getLsbD 5 && !f.f.getLsbD 4 && !f.f.getLsbD 3 && !f.f.getLsbD 1 && !f.f.getLsbD 0 && f.la == 0#4 && !f.g.getLsbD 3 && f.targets.isEmpty then some (.saDraw f.hdr (f.d) (f.a) (f.f.getLsbD 2)) else
  if f.ty == 0#4 && f.ty2 == 0#4 && f.b == 0#8 && f.c == 0#8 && f.f == 1#7 && f.la == 0#4 && !f.g.getLsbD 3 && f.targets.isEmpty then some (.saFin f.hdr (f.d) (f.a)) else
  none

/-- Uniform-pipe opcode 0x2B. -/
def decUniform2B (f : Fields) : Option Instr :=
  if f.ty == 0#4 && f.ty2 == 0#4 && f.b == 0#8 && f.c == 0#8 && f.f == 0#7 && !f.g.getLsbD 3 && f.targets.isEmpty then some (.saStat f.hdr (f.d) (f.a)) else
  none

/-- Uniform-pipe opcode 0x2C. -/
def decUniform2C (f : Fields) : Option Instr :=
  if f.ty == 0#4 && f.ty2 == 0#4 && f.c == 0#8 && !f.f.getLsbD 6 && !f.f.getLsbD 5 && !f.f.getLsbD 4 && !f.f.getLsbD 3 && !f.f.getLsbD 2 && f.la == 0#4 && !f.g.getLsbD 3 && f.targets.isEmpty then some (.cpCopy f.hdr (f.d) (f.a) (f.b) (f.f.getLsbD 0) (f.f.getLsbD 1)) else
  none

/-- Uniform-pipe opcode 0x2D. -/
def decUniform2D (f : Fields) : Option Instr :=
  if f.ty == 0#4 && f.ty2 == 0#4 && !f.f.getLsbD 6 && !f.f.getLsbD 5 && !f.f.getLsbD 4 && !f.f.getLsbD 3 && !f.f.getLsbD 2 && f.la == 0#4 && !f.g.getLsbD 3 && f.targets.isEmpty then some (.cpMcast f.hdr (f.d) (f.a) (f.b) (f.c) (f.f.getLsbD 0) (f.f.getLsbD 1)) else
  none

/-- Uniform-pipe opcode 0x2E. -/
def decUniform2E (f : Fields) : Option Instr :=
  if f.ty == 0#4 && f.ty2 == 0#4 && !f.f.getLsbD 6 && !f.f.getLsbD 5 && !f.f.getLsbD 4 && !f.f.getLsbD 3 && !f.f.getLsbD 2 && f.la == 0#4 && !f.g.getLsbD 3 && f.targets.isEmpty then some (.cpOff f.hdr (f.d) (f.a) (f.b) (f.c) (f.f.getLsbD 0) (f.f.getLsbD 1)) else
  if f.ty == 0#4 && f.ty2 == 0#4 && !f.f.getLsbD 6 && !f.f.getLsbD 5 && !f.f.getLsbD 4 && f.f.getLsbD 3 && !f.f.getLsbD 2 && f.la == 0#4 && !f.g.getLsbD 3 && f.targets.isEmpty then some (.cpRet f.hdr (f.d) (f.a) (f.b) (f.c) (f.f.getLsbD 0) (f.f.getLsbD 1)) else
  none

/-- Uniform-pipe opcode 0x2F. -/
def decUniform2F (f : Fields) : Option Instr :=
  if f.ty == 0#4 && f.ty2 == 0#4 && f.b == 0#8 && f.c == 0#8 && f.f == 0#7 && f.la == 0#4 && !f.g.getLsbD 3 && f.targets.isEmpty then some (.cpProm f.hdr (f.d) (f.a)) else
  if f.ty == 0#4 && f.ty2 == 0#4 && f.b == 0#8 && f.c == 0#8 && f.f == 1#7 && f.la == 0#4 && !f.g.getLsbD 3 && f.targets.isEmpty then some (.cpRenew f.hdr (f.d) (f.a)) else
  if f.ty == 0#4 && f.ty2 == 0#4 && f.b == 0#8 && f.c == 0#8 && f.f == 2#7 && f.la == 0#4 && !f.g.getLsbD 3 && f.targets.isEmpty then some (.cpCncl f.hdr (f.d) (f.a)) else
  none

/-- Uniform-pipe opcode 0x30. -/
def decUniform30 (f : Fields) : Option Instr :=
  if f.ty == 0#4 && f.ty2 == 0#4 && f.b == 0#8 && f.c == 0#8 && f.f == 0#7 && f.la == 0#4 && !f.g.getLsbD 3 && f.targets.isEmpty then some (.pgReq f.hdr (f.d) (f.a)) else
  if f.ty == 0#4 && f.ty2 == 0#4 && f.b == 0#8 && f.c == 0#8 && f.f == 1#7 && !f.g.getLsbD 3 && f.targets.isEmpty then some (.pgProbe f.hdr (f.d) (f.a)) else
  none

/-- Uniform-pipe opcode 0x31. -/
def decUniform31 (f : Fields) : Option Instr :=
  if f.ty == 0#4 && f.ty2 == 0#4 && f.c == 0#8 && f.f == 0#7 && f.la == 0#4 && !f.g.getLsbD 3 && f.targets.isEmpty then some (.pgShoot f.hdr (f.d) (f.a) (f.b)) else
  none

/-- Uniform-pipe opcode 0x32. -/
def decUniform32 (f : Fields) : Option Instr :=
  if f.ty == 0#4 && f.ty2 == 0#4 && f.c == 0#8 && f.f == 0#7 && f.la == 0#4 && !f.g.getLsbD 3 && f.targets.isEmpty then some (.pgMig f.hdr (f.d) (f.a) (f.b)) else
  none

/-- Uniform-pipe opcode 0x33. -/
def decUniform33 (f : Fields) : Option Instr :=
  if f.ty == 0#4 && f.ty2 == 0#4 && f.b == 0#8 && f.c == 0#8 && f.f == 0#7 && !f.g.getLsbD 3 && f.targets.isEmpty then some (.pgCnt f.hdr (f.d) (f.a)) else
  none

/-- Uniform-pipe opcode 0x34. -/
def decUniform34 (f : Fields) : Option Instr :=
  if f.ty == 0#4 && f.ty2 == 0#4 && f.c == 0#8 && !f.f.getLsbD 6 && !f.f.getLsbD 5 && !f.f.getLsbD 4 && !f.f.getLsbD 3 && !f.f.getLsbD 2 && f.la == 0#4 && !f.g.getLsbD 3 && f.targets.isEmpty then some (.clRun f.hdr (f.d) (f.a) (f.b) (f.f.getLsbD 0) (f.f.getLsbD 1)) else
  none

/-- Uniform-pipe opcode 0x35. -/
def decUniform35 (f : Fields) : Option Instr :=
  if f.ty == 0#4 && f.ty2 == 0#4 && f.b == 0#8 && f.c == 0#8 && f.f == 0#7 && f.la == 0#4 && !f.g.getLsbD 3 && f.targets.isEmpty then some (.clCncl f.hdr (f.d) (f.a)) else
  none

/-- Uniform-pipe opcode 0x36. -/
def decUniform36 (f : Fields) : Option Instr :=
  if f.ty == 0#4 && f.ty2 == 0#4 && f.b == 0#8 && f.c == 0#8 && f.f == 0#7 && !f.g.getLsbD 3 && f.targets.isEmpty then some (.clInfo f.hdr (f.d) (f.a)) else
  if f.ty == 0#4 && f.ty2 == 0#4 && f.b == 0#8 && f.c == 0#8 && f.f == 1#7 && !f.g.getLsbD 3 && f.targets.isEmpty then some (.clProg f.hdr (f.d) (f.a)) else
  none

/-- Uniform-pipe opcode 0x37. -/
def decUniform37 (f : Fields) : Option Instr :=
  if f.ty == 0#4 && f.ty2 == 0#4 && f.b == 0#8 && f.c == 0#8 && f.f == 0#7 && f.la == 0#4 && !f.g.getLsbD 3 && f.targets.isEmpty then some (.clAbort f.hdr (f.d) (f.a)) else
  none

/-- Uniform-pipe opcode 0x38. -/
def decUniform38 (f : Fields) : Option Instr :=
  if f.ty == 0#4 && f.ty2 == 0#4 && f.c == 0#8 && f.f == 0#7 && f.la == 0#4 && !f.g.getLsbD 3 && f.targets.isEmpty then some (.dpLaunch f.hdr (f.d) (f.a) (f.b)) else
  if f.ty == 0#4 && f.ty2 == 0#4 && f.a == 0#8 && f.c == 0#8 && f.f == 1#7 && f.la == 0#4 && !f.g.getLsbD 3 && f.targets.isEmpty then some (.dpQstat f.hdr (f.d) (f.b)) else
  none

/-- Uniform-pipe opcode 0x39. -/
def decUniform39 (f : Fields) : Option Instr :=
  if f.ty == 0#4 && f.ty2 == 0#4 && f.b == 0#8 && f.c == 0#8 && f.f == 0#7 && f.la == 0#4 && !f.g.getLsbD 3 && f.targets.isEmpty then some (.dpTadd f.hdr (f.d) (f.a)) else
  if f.ty == 0#4 && f.ty2 == 0#4 && f.b == 0#8 && f.c == 0#8 && f.f == 1#7 && f.la == 0#4 && !f.g.getLsbD 3 && f.targets.isEmpty then some (.dpTdrop f.hdr (f.d) (f.a)) else
  if f.ty == 0#4 && f.ty2 == 0#4 && f.a == 0#8 && f.b == 0#8 && f.c == 0#8 && f.f == 2#7 && f.la == 0#4 && !f.g.getLsbD 3 && f.targets.isEmpty then some (.dpTdepth f.hdr (f.d)) else
  none

/-- Uniform-pipe opcode 0x3A. -/
def decUniform3A (f : Fields) : Option Instr :=
  if f.ty == 0#4 && f.ty2 == 0#4 && f.d == 0#8 && f.a == 0#8 && f.b == 0#8 && f.c == 0#8 && f.f == 0#7 && f.la == 0#4 && !f.g.getLsbD 3 && f.targets.isEmpty then some (.dpLsovf f.hdr) else
  if f.ty == 0#4 && f.ty2 == 0#4 && f.d == 0#8 && f.a == 0#8 && f.b == 0#8 && f.c == 0#8 && f.f == 1#7 && f.la == 0#4 && !f.g.getLsbD 3 && f.targets.isEmpty then some (.dpLsstep f.hdr) else
  none

/-- Uniform-pipe opcode 0x3B. -/
def decUniform3B (f : Fields) : Option Instr :=
  if f.ty == 0#4 && f.ty2 == 0#4 && f.b == 0#8 && f.c == 0#8 && f.f == 0#7 && f.la == 0#4 && !f.g.getLsbD 3 && f.targets.isEmpty then some (.tkPrice f.hdr (f.d) (f.a)) else
  if f.ty == 0#4 && f.ty2 == 0#4 && f.d == 0#8 && f.b == 0#8 && f.c == 0#8 && f.f == 1#7 && f.la == 0#4 && !f.g.getLsbD 3 && f.targets.isEmpty then some (.tkWait f.hdr (f.a)) else
  if f.ty == 0#4 && f.ty2 == 0#4 && f.b == 0#8 && f.c == 0#8 && f.f == 2#7 && f.la == 0#4 && !f.g.getLsbD 3 && f.targets.isEmpty then some (.tkDbal f.hdr (f.d) (f.a)) else
  if f.ty == 0#4 && f.ty2 == 0#4 && f.c == 0#8 && f.f == 3#7 && f.la == 0#4 && !f.g.getLsbD 3 && f.targets.isEmpty then some (.tkIntent f.hdr (f.d) (f.a) (f.b)) else
  if f.ty == 0#4 && f.ty2 == 0#4 && f.b == 0#8 && f.c == 0#8 && f.f == 4#7 && f.la == 0#4 && !f.g.getLsbD 3 && f.targets.isEmpty then some (.tkIcncl f.hdr (f.d) (f.a)) else
  none

/-- Uniform-pipe opcode 0x3C. -/
def decUniform3C (f : Fields) : Option Instr :=
  if f.ty == 0#4 && f.ty2 == 0#4 && f.b.extractLsb' 4 4 == 0#4 && f.c == 0#8 && f.f == 0#7 && !f.g.getLsbD 3 && f.targets.isEmpty then some (.sCfetch f.hdr (f.d) (f.a) (f.b.extractLsb' 0 4)) else
  if f.ty == 0#4 && f.ty2 == 0#4 && f.b.extractLsb' 4 4 == 0#4 && f.c == 0#8 && f.f == 1#7 && !f.g.getLsbD 3 && f.targets.isEmpty then some (.sCfetchReload f.hdr (f.d) (f.a) (f.b.extractLsb' 0 4)) else
  if f.ty == 0#4 && f.ty2 == 0#4 && f.a == 0#8 && f.b.extractLsb' 4 4 == 0#4 && f.c == 0#8 && f.f == 2#7 && f.la == 0#4 && !f.g.getLsbD 3 && f.targets.isEmpty then some (.sCstat f.hdr (f.d) (f.b.extractLsb' 0 4)) else
  none

/-- Uniform-pipe opcode 0x3D. -/
def decUniform3D (f : Fields) : Option Instr :=
  if f.ty == 0#4 && f.ty2 == 0#4 && f.d == 0#8 && f.c == 0#8 && f.f == 0#7 && f.la == 0#4 && !f.g.getLsbD 3 && f.targets.isEmpty then some (.sJmpf f.hdr (f.a ++ f.b)) else
  if f.ty == 0#4 && f.ty2 == 0#4 && f.d == 0#8 && f.a == 0#8 && f.b == 0#8 && f.c == 0#8 && f.f == 1#7 && f.la == 0#4 && !f.g.getLsbD 3 && f.targets.isEmpty then some (.sCfence f.hdr) else
  none

/-- Uniform-pipe opcode 0x3E. -/
def decUniform3E (f : Fields) : Option Instr :=
  if f.ty == 0#4 && f.ty2 == 0#4 && f.d == 0#8 && f.c == 0#8 && f.f == 0#7 && f.la == 0#4 && !f.g.getLsbD 3 && f.targets.isEmpty then some (.sTrap f.hdr (f.a ++ f.b)) else
  if f.ty == 0#4 && f.ty2 == 0#4 && f.d == 1#8 && f.c == 0#8 && f.f == 0#7 && f.la == 0#4 && !f.g.getLsbD 3 && f.targets.isEmpty then some (.sBrk f.hdr (f.a ++ f.b)) else
  if f.ty == 0#4 && f.ty2 == 0#4 && f.d == 2#8 && f.a == 0#8 && f.b == 0#8 && f.c == 0#8 && f.f == 0#7 && f.la == 0#4 && !f.g.getLsbD 3 && !f.x && f.targets.isEmpty then some (.sRth f.hdr) else
  none

/-- The uniform pipe's opcode map (R83). -/
def decUniform (f : Fields) : Option Instr :=
  match f.op.toNat with
  | 0 => decUniform00 f
  | 1 => decUniform01 f
  | 2 => decUniform02 f
  | 3 => decUniform03 f
  | 4 => decUniform04 f
  | 5 => decUniform05 f
  | 6 => decUniform06 f
  | 7 => decUniform07 f
  | 8 => decUniform08 f
  | 9 => decUniform09 f
  | 10 => decUniform0A f
  | 11 => decUniform0B f
  | 12 => decUniform0C f
  | 13 => decUniform0D f
  | 14 => decUniform0E f
  | 15 => decUniform0F f
  | 16 => decUniform10 f
  | 17 => decUniform11 f
  | 18 => decUniform12 f
  | 19 => decUniform13 f
  | 20 => decUniform14 f
  | 21 => decUniform15 f
  | 24 => decUniform18 f
  | 25 => decUniform19 f
  | 26 => decUniform1A f
  | 27 => decUniform1B f
  | 28 => decUniform1C f
  | 29 => decUniform1D f
  | 30 => decUniform1E f
  | 32 => decUniform20 f
  | 34 => decUniform22 f
  | 35 => decUniform23 f
  | 36 => decUniform24 f
  | 37 => decUniform25 f
  | 40 => decUniform28 f
  | 41 => decUniform29 f
  | 42 => decUniform2A f
  | 43 => decUniform2B f
  | 44 => decUniform2C f
  | 45 => decUniform2D f
  | 46 => decUniform2E f
  | 47 => decUniform2F f
  | 48 => decUniform30 f
  | 49 => decUniform31 f
  | 50 => decUniform32 f
  | 51 => decUniform33 f
  | 52 => decUniform34 f
  | 53 => decUniform35 f
  | 54 => decUniform36 f
  | 55 => decUniform37 f
  | 56 => decUniform38 f
  | 57 => decUniform39 f
  | 58 => decUniform3A f
  | 59 => decUniform3B f
  | 60 => decUniform3C f
  | 61 => decUniform3D f
  | 62 => decUniform3E f
  | _ => none

/-- Lane-pipe opcode 0x00. -/
def decLane00 (f : Fields) : Option Instr :=
  if ([.s8, .s16, .s32, .s64, .n8, .n16, .n32, .n64] : List Ty).contains (Ty.ofCode f.ty) && f.ty2 == 0#4 && f.c == 0#8 && f.f == 0#7 && f.la == 0#4 && f.targets.isEmpty then some (.vAdd f.hdr (Ty.ofCode f.ty) (f.d) (f.a) (f.b)) else
  if ([.s8, .s16, .s32, .s64, .n8, .n16, .n32, .n64] : List Ty).contains (Ty.ofCode f.ty) && f.ty2 == 0#4 && f.c == 0#8 && f.f == 1#7 && f.la == 0#4 && f.targets.isEmpty then some (.vAdds f.hdr (Ty.ofCode f.ty) (f.d) (f.a) (f.b)) else
  none

/-- Lane-pipe opcode 0x01. -/
def decLane01 (f : Fields) : Option Instr :=
  if ([.s8, .s16, .s32, .s64, .n8, .n16, .n32, .n64] : List Ty).contains (Ty.ofCode f.ty) && f.ty2 == 0#4 && f.c == 0#8 && f.f == 0#7 && f.la == 0#4 && f.targets.isEmpty then some (.vSub f.hdr (Ty.ofCode f.ty) (f.d) (f.a) (f.b)) else
  if ([.s8, .s16, .s32, .s64, .n8, .n16, .n32, .n64] : List Ty).contains (Ty.ofCode f.ty) && f.ty2 == 0#4 && f.c == 0#8 && f.f == 1#7 && f.la == 0#4 && f.targets.isEmpty then some (.vSubs f.hdr (Ty.ofCode f.ty) (f.d) (f.a) (f.b)) else
  none

/-- Lane-pipe opcode 0x02. -/
def decLane02 (f : Fields) : Option Instr :=
  if ([.s32, .s64, .n32, .n64] : List Ty).contains (Ty.ofCode f.ty) && f.ty2 == 0#4 && f.c == 0#8 && f.f == 0#7 && f.la == 0#4 && f.targets.isEmpty then some (.vMul f.hdr (Ty.ofCode f.ty) (f.d) (f.a) (f.b)) else
  if ([.s32, .n32] : List Ty).contains (Ty.ofCode f.ty) && f.ty2 == 0#4 && f.c == 0#8 && f.f == 1#7 && f.la == 0#4 && f.targets.isEmpty then some (.vMulh f.hdr (Ty.ofCode f.ty) (f.d) (f.a) (f.b)) else
  if ([.s32, .n32] : List Ty).contains (Ty.ofCode f.ty) && f.ty2 == 0#4 && f.c == 0#8 && f.f == 2#7 && f.la == 0#4 && f.targets.isEmpty then some (.vMulw f.hdr (Ty.ofCode f.ty) (f.d) (f.a) (f.b)) else
  none

/-- Lane-pipe opcode 0x03. -/
def decLane03 (f : Fields) : Option Instr :=
  if ([.s32, .s64, .n32, .n64] : List Ty).contains (Ty.ofCode f.ty) && f.ty2 == 0#4 && f.f == 0#7 && f.la == 0#4 && f.targets.isEmpty then some (.vMad f.hdr (Ty.ofCode f.ty) (f.d) (f.a) (f.b) (f.c)) else
  if ([.s32, .n32] : List Ty).contains (Ty.ofCode f.ty) && f.ty2 == 0#4 && f.f == 1#7 && f.la == 0#4 && f.targets.isEmpty then some (.vMadh f.hdr (Ty.ofCode f.ty) (f.d) (f.a) (f.b) (f.c)) else
  if ([.s32, .n32] : List Ty).contains (Ty.ofCode f.ty) && f.ty2 == 0#4 && f.f == 2#7 && f.la == 0#4 && f.targets.isEmpty then some (.vMadw f.hdr (Ty.ofCode f.ty) (f.d) (f.a) (f.b) (f.c)) else
  if ([.s8, .n8] : List Ty).contains (Ty.ofCode f.ty) && ([.s8, .n8] : List Ty).contains (Ty.ofCode f.ty2) && f.f == 3#7 && f.la == 0#4 && f.targets.isEmpty then some (.vDot4 f.hdr (Ty.ofCode f.ty) (Ty.ofCode f.ty2) (f.d) (f.a) (f.b) (f.c)) else
  if ([.s8, .n8] : List Ty).contains (Ty.ofCode f.ty) && ([.s8, .n8] : List Ty).contains (Ty.ofCode f.ty2) && f.f == 4#7 && f.la == 0#4 && f.targets.isEmpty then some (.vDot4s f.hdr (Ty.ofCode f.ty) (Ty.ofCode f.ty2) (f.d) (f.a) (f.b) (f.c)) else
  none

/-- Lane-pipe opcode 0x04. -/
def decLane04 (f : Fields) : Option Instr :=
  if ([.b32, .b64] : List Ty).contains (Ty.ofCode f.ty) && f.ty2 == 0#4 && f.c == 0#8 && f.f == 0#7 && f.la == 0#4 && f.targets.isEmpty then some (.vAnd f.hdr (Ty.ofCode f.ty) (f.d) (f.a) (f.b)) else
  if ([.b32, .b64] : List Ty).contains (Ty.ofCode f.ty) && f.ty2 == 0#4 && f.c == 0#8 && f.f == 1#7 && f.la == 0#4 && f.targets.isEmpty then some (.vOr f.hdr (Ty.ofCode f.ty) (f.d) (f.a) (f.b)) else
  if ([.b32, .b64] : List Ty).contains (Ty.ofCode f.ty) && f.ty2 == 0#4 && f.c == 0#8 && f.f == 2#7 && f.la == 0#4 && f.targets.isEmpty then some (.vXor f.hdr (Ty.ofCode f.ty) (f.d) (f.a) (f.b)) else
  if ([.b32, .b64] : List Ty).contains (Ty.ofCode f.ty) && f.ty2 == 0#4 && f.c == 0#8 && f.f == 3#7 && f.la == 0#4 && f.targets.isEmpty then some (.vAndn f.hdr (Ty.ofCode f.ty) (f.d) (f.a) (f.b)) else
  none

/-- Lane-pipe opcode 0x05. -/
def decLane05 (f : Fields) : Option Instr :=
  if ([.b32, .b64] : List Ty).contains (Ty.ofCode f.ty) && f.ty2 == 0#4 && f.c == 0#8 && f.f == 0#7 && f.la == 0#4 && f.targets.isEmpty then some (.vShl f.hdr (Ty.ofCode f.ty) (f.d) (f.a) (f.b)) else
  if ([.b32, .b64] : List Ty).contains (Ty.ofCode f.ty) && f.ty2 == 0#4 && f.c == 0#8 && f.f == 1#7 && f.la == 0#4 && f.targets.isEmpty then some (.vShr f.hdr (Ty.ofCode f.ty) (f.d) (f.a) (f.b)) else
  if ([.b32, .b64] : List Ty).contains (Ty.ofCode f.ty) && f.ty2 == 0#4 && f.c == 0#8 && f.f == 2#7 && f.la == 0#4 && f.targets.isEmpty then some (.vSra f.hdr (Ty.ofCode f.ty) (f.d) (f.a) (f.b)) else
  if ([.b32, .b64] : List Ty).contains (Ty.ofCode f.ty) && f.ty2 == 0#4 && f.c == 0#8 && f.f == 3#7 && f.la == 0#4 && f.targets.isEmpty then some (.vRotl f.hdr (Ty.ofCode f.ty) (f.d) (f.a) (f.b)) else
  if ([.b32, .b64] : List Ty).contains (Ty.ofCode f.ty) && f.ty2 == 0#4 && f.c == 0#8 && f.f == 4#7 && f.la == 0#4 && f.targets.isEmpty then some (.vRotr f.hdr (Ty.ofCode f.ty) (f.d) (f.a) (f.b)) else
  none

/-- Lane-pipe opcode 0x06. -/
def decLane06 (f : Fields) : Option Instr :=
  if ([.s32, .s64, .n32, .n64] : List Ty).contains (Ty.ofCode f.ty) && f.ty2 == 0#4 && f.c == 0#8 && f.f == 0#7 && f.la == 0#4 && f.targets.isEmpty then some (.vAddi f.hdr (Ty.ofCode f.ty) (f.d) (f.a) (f.b)) else
  if ([.s32, .s64, .n32, .n64] : List Ty).contains (Ty.ofCode f.ty) && f.ty2 == 0#4 && f.c == 0#8 && f.f == 1#7 && f.la == 0#4 && f.targets.isEmpty then some (.vAddis f.hdr (Ty.ofCode f.ty) (f.d) (f.a) (f.b)) else
  if ([.b32, .b64] : List Ty).contains (Ty.ofCode f.ty) && f.ty2 == 0#4 && f.c == 0#8 && f.f == 2#7 && f.la == 0#4 && f.targets.isEmpty then some (.vAndi f.hdr (Ty.ofCode f.ty) (f.d) (f.a) (f.b)) else
  if ([.b32, .b64] : List Ty).contains (Ty.ofCode f.ty) && f.ty2 == 0#4 && f.c == 0#8 && f.f == 3#7 && f.la == 0#4 && f.targets.isEmpty then some (.vOri f.hdr (Ty.ofCode f.ty) (f.d) (f.a) (f.b)) else
  if ([.b32, .b64] : List Ty).contains (Ty.ofCode f.ty) && f.ty2 == 0#4 && f.c == 0#8 && f.f == 4#7 && f.la == 0#4 && f.targets.isEmpty then some (.vXori f.hdr (Ty.ofCode f.ty) (f.d) (f.a) (f.b)) else
  if ([.b32, .b64] : List Ty).contains (Ty.ofCode f.ty) && f.ty2 == 0#4 && f.c == 0#8 && f.f == 5#7 && f.la == 0#4 && f.targets.isEmpty then some (.vShli f.hdr (Ty.ofCode f.ty) (f.d) (f.a) (f.b)) else
  if ([.b32, .b64] : List Ty).contains (Ty.ofCode f.ty) && f.ty2 == 0#4 && f.c == 0#8 && f.f == 6#7 && f.la == 0#4 && f.targets.isEmpty then some (.vShri f.hdr (Ty.ofCode f.ty) (f.d) (f.a) (f.b)) else
  if ([.b32, .b64] : List Ty).contains (Ty.ofCode f.ty) && f.ty2 == 0#4 && f.c == 0#8 && f.f == 7#7 && f.la == 0#4 && f.targets.isEmpty then some (.vSrai f.hdr (Ty.ofCode f.ty) (f.d) (f.a) (f.b)) else
  if ([.b32, .b64] : List Ty).contains (Ty.ofCode f.ty) && f.ty2 == 0#4 && f.c == 0#8 && f.f == 8#7 && f.la == 0#4 && f.targets.isEmpty then some (.vRotli f.hdr (Ty.ofCode f.ty) (f.d) (f.a) (f.b)) else
  none

/-- Lane-pipe opcode 0x07. -/
def decLane07 (f : Fields) : Option Instr :=
  if ([.s8, .s16, .s32, .s64, .n8, .n16, .n32, .n64] : List Ty).contains (Ty.ofCode f.ty) && f.ty2 == 0#4 && f.c == 0#8 && f.f == 0#7 && f.la == 0#4 && f.targets.isEmpty then some (.vMin f.hdr (Ty.ofCode f.ty) (f.d) (f.a) (f.b)) else
  if ([.s8, .s16, .s32, .s64, .n8, .n16, .n32, .n64] : List Ty).contains (Ty.ofCode f.ty) && f.ty2 == 0#4 && f.c == 0#8 && f.f == 1#7 && f.la == 0#4 && f.targets.isEmpty then some (.vMax f.hdr (Ty.ofCode f.ty) (f.d) (f.a) (f.b)) else
  none

/-- Lane-pipe opcode 0x08. -/
def decLane08 (f : Fields) : Option Instr :=
  if f.ty == 13#4 && f.ty2 == 0#4 && f.f == 0#7 && f.la == 0#4 && f.targets.isEmpty then some (.vFshl f.hdr (f.d) (f.a) (f.b) (f.c)) else
  if f.ty == 13#4 && f.ty2 == 0#4 && f.f == 1#7 && f.la == 0#4 && f.targets.isEmpty then some (.vFshr f.hdr (f.d) (f.a) (f.b) (f.c)) else
  none

/-- Lane-pipe opcode 0x09. -/
def decLane09 (f : Fields) : Option Instr :=
  if ([.s32, .n32] : List Ty).contains (Ty.ofCode f.ty) && f.ty2 == 0#4 && f.c == 0#8 && f.f == 0#7 && f.la == 0#4 && f.targets.isEmpty then some (.vBfx f.hdr (Ty.ofCode f.ty) (f.d) (f.a) (f.b)) else
  if f.ty == 13#4 && f.ty2 == 0#4 && f.f == 1#7 && f.la == 0#4 && f.targets.isEmpty then some (.vBfi f.hdr (f.d) (f.a) (f.b) (f.c)) else
  none

/-- Lane-pipe opcode 0x0A. -/
def decLane0A (f : Fields) : Option Instr :=
  if ([.b32, .b64] : List Ty).contains (Ty.ofCode f.ty) && f.ty2 == 0#4 && f.b == 0#8 && f.c == 0#8 && f.f == 0#7 && f.la == 0#4 && f.targets.isEmpty then some (.vPopc f.hdr (Ty.ofCode f.ty) (f.d) (f.a)) else
  if ([.b32, .b64] : List Ty).contains (Ty.ofCode f.ty) && f.ty2 == 0#4 && f.b == 0#8 && f.c == 0#8 && f.f == 1#7 && f.la == 0#4 && f.targets.isEmpty then some (.vClz f.hdr (Ty.ofCode f.ty) (f.d) (f.a)) else
  if ([.b32, .b64] : List Ty).contains (Ty.ofCode f.ty) && f.ty2 == 0#4 && f.b == 0#8 && f.c == 0#8 && f.f == 2#7 && f.la == 0#4 && f.targets.isEmpty then some (.vCtz f.hdr (Ty.ofCode f.ty) (f.d) (f.a)) else
  if ([.b32, .b64] : List Ty).contains (Ty.ofCode f.ty) && f.ty2 == 0#4 && f.b == 0#8 && f.c == 0#8 && f.f == 3#7 && f.la == 0#4 && f.targets.isEmpty then some (.vBrev f.hdr (Ty.ofCode f.ty) (f.d) (f.a)) else
  none

/-- Lane-pipe opcode 0x0B. -/
def decLane0B (f : Fields) : Option Instr :=
  if f.ty == 13#4 && f.ty2 == 0#4 && f.f == 0#7 && f.la == 0#4 && f.targets.isEmpty then some (.vPerm f.hdr (f.d) (f.a) (f.b) (f.c)) else
  if f.ty == 13#4 && f.ty2 == 0#4 && f.f == 1#7 && f.la == 0#4 && f.targets.isEmpty then some (.vPerms f.hdr (f.d) (f.a) (f.b) (f.c)) else
  none

/-- Lane-pipe opcode 0x0C. -/
def decLane0C (f : Fields) : Option Instr :=
  match (Cc.ofCode f.f) with
  | some cc => if ([.s32, .s64, .n32, .n64] : List Ty).contains (Ty.ofCode f.ty) && f.ty2 == 0#4 && f.d.extractLsb' 4 4 == 0#4 && f.c == 0#8 && f.la == 0#4 && f.targets.isEmpty then some (.vCmp f.hdr cc (Ty.ofCode f.ty) (f.d.extractLsb' 0 4) (f.a) (f.b)) else none
  | none =>
  none

/-- Lane-pipe opcode 0x0D. -/
def decLane0D (f : Fields) : Option Instr :=
  match (Cc.ofCode f.f) with
  | some cc => if ([.s32, .s64, .n32, .n64] : List Ty).contains (Ty.ofCode f.ty) && f.ty2 == 0#4 && f.d.extractLsb' 4 4 == 0#4 && f.c == 0#8 && f.la == 0#4 && f.targets.isEmpty then some (.vCmpi f.hdr cc (Ty.ofCode f.ty) (f.d.extractLsb' 0 4) (f.a) (f.b)) else none
  | none =>
  none

/-- Lane-pipe opcode 0x0E. -/
def decLane0E (f : Fields) : Option Instr :=
  if ([.b32, .b64] : List Ty).contains (Ty.ofCode f.ty) && f.ty2 == 0#4 && f.c == 0#8 && f.f.extractLsb' 5 2 == 0#2 && f.la == 0#4 && f.targets.isEmpty then some (.vSel f.hdr (Ty.ofCode f.ty) (f.d) (f.a) (f.b) (f.f.extractLsb' 0 4) (f.f.getLsbD 4)) else
  none

/-- Lane-pipe opcode 0x0F. -/
def decLane0F (f : Fields) : Option Instr :=
  if ([.b32, .b64] : List Ty).contains (Ty.ofCode f.ty) && f.ty2 == 0#4 && f.b == 0#8 && f.c == 0#8 && f.f == 0#7 && f.la == 0#4 && f.targets.isEmpty then some (.vMov f.hdr (Ty.ofCode f.ty) (f.d) (f.a)) else
  if f.ty == 13#4 && f.ty2 == 0#4 && f.a == 0#8 && f.b == 0#8 && f.c == 0#8 && f.f == 1#7 && f.la == 0#4 && f.targets.isEmpty then some (.vLid f.hdr (f.d)) else
  if f.ty == 13#4 && f.ty2 == 0#4 && f.a == 0#8 && f.b == 0#8 && f.c == 0#8 && f.f == 2#7 && f.la == 0#4 && f.targets.isEmpty then some (.vGlid f.hdr (f.d)) else
  none

/-- Lane-pipe opcode 0x10. -/
def decLane10 (f : Fields) : Option Instr :=
  if ([.s32, .s64, .n32] : List Ty).contains (Ty.ofCode f.ty) && f.ty2 == 0#4 && f.c == 0#8 && f.f == 0#7 && f.la == 0#4 && f.targets.isEmpty then some (.vMovi f.hdr (Ty.ofCode f.ty) (f.d) (f.a ++ f.b)) else
  if f.ty == 13#4 && f.ty2 == 0#4 && f.c == 0#8 && f.f == 1#7 && f.la == 0#4 && f.targets.isEmpty then some (.vMovhi f.hdr (f.d) (f.a ++ f.b)) else
  none

/-- Lane-pipe opcode 0x11. -/
def decLane11 (f : Fields) : Option Instr :=
  if ([.s8, .s16, .s32, .s64, .n8, .n16, .n32, .n64] : List Ty).contains (Ty.ofCode f.ty) && ([.s8, .s16, .s32, .s64, .n8, .n16, .n32, .n64] : List Ty).contains (Ty.ofCode f.ty2) && f.b == 0#8 && f.c == 0#8 && f.f.extractLsb' 6 1 == 0#1 && f.f.extractLsb' 1 3 == 0#3 && f.la == 0#4 && f.targets.isEmpty then some (.vCvt f.hdr (Ty.ofCode f.ty) (Ty.ofCode f.ty2) (f.d) (f.a) (f.f.getLsbD 0) (f.f.extractLsb' 4 2)) else
  none

/-- Lane-pipe opcode 0x12. -/
def decLane12 (f : Fields) : Option Instr :=
  if ([.s32, .n32] : List Ty).contains (Ty.ofCode f.ty) && f.ty2 == 0#4 && f.c == 0#8 && f.f.extractLsb' 4 3 == 0#3 && f.la == 0#4 && f.targets.isEmpty then some (.vLea f.hdr (Ty.ofCode f.ty) (f.d) (f.a) (f.b) (f.f.extractLsb' 0 4)) else
  none

/-- Lane-pipe opcode 0x13. -/
def decLane13 (f : Fields) : Option Instr :=
  if f.ty == 0#4 && f.ty2 == 0#4 && f.d.extractLsb' 4 4 == 0#4 && f.a.extractLsb' 4 4 == 0#4 && f.b.extractLsb' 4 4 == 0#4 && f.c == 0#8 && f.f == 0#7 && f.la == 0#4 && f.targets.isEmpty then some (.vPand f.hdr (f.d.extractLsb' 0 4) (f.a.extractLsb' 0 4) (f.b.extractLsb' 0 4)) else
  if f.ty == 0#4 && f.ty2 == 0#4 && f.d.extractLsb' 4 4 == 0#4 && f.a.extractLsb' 4 4 == 0#4 && f.b.extractLsb' 4 4 == 0#4 && f.c == 0#8 && f.f == 1#7 && f.la == 0#4 && f.targets.isEmpty then some (.vPor f.hdr (f.d.extractLsb' 0 4) (f.a.extractLsb' 0 4) (f.b.extractLsb' 0 4)) else
  if f.ty == 0#4 && f.ty2 == 0#4 && f.d.extractLsb' 4 4 == 0#4 && f.a.extractLsb' 4 4 == 0#4 && f.b.extractLsb' 4 4 == 0#4 && f.c == 0#8 && f.f == 2#7 && f.la == 0#4 && f.targets.isEmpty then some (.vPxor f.hdr (f.d.extractLsb' 0 4) (f.a.extractLsb' 0 4) (f.b.extractLsb' 0 4)) else
  if f.ty == 0#4 && f.ty2 == 0#4 && f.d.extractLsb' 4 4 == 0#4 && f.a.extractLsb' 4 4 == 0#4 && f.b.extractLsb' 4 4 == 0#4 && f.c == 0#8 && f.f == 3#7 && f.la == 0#4 && f.targets.isEmpty then some (.vPandn f.hdr (f.d.extractLsb' 0 4) (f.a.extractLsb' 0 4) (f.b.extractLsb' 0 4)) else
  if f.ty == 0#4 && f.ty2 == 0#4 && f.d.extractLsb' 4 4 == 0#4 && f.a.extractLsb' 3 5 == 0#5 && f.b == 0#8 && f.c == 0#8 && f.f == 4#7 && f.la == 0#4 && f.targets.isEmpty then some (.vPq f.hdr (f.d.extractLsb' 0 4) (f.a.extractLsb' 0 3)) else
  none

/-- Lane-pipe opcode 0x14. -/
def decLane14 (f : Fields) : Option Instr :=
  if ([.f16, .bf16, .f32] : List Ty).contains (Ty.ofCode f.ty) && f.ty2 == 0#4 && f.c == 0#8 && f.f == 0#7 && f.la == 0#4 && f.targets.isEmpty then some (.vFadd f.hdr (Ty.ofCode f.ty) (f.d) (f.a) (f.b)) else
  if ([.f16, .bf16, .f32] : List Ty).contains (Ty.ofCode f.ty) && f.ty2 == 0#4 && f.c == 0#8 && f.f == 1#7 && f.la == 0#4 && f.targets.isEmpty then some (.vFsub f.hdr (Ty.ofCode f.ty) (f.d) (f.a) (f.b)) else
  none

/-- Lane-pipe opcode 0x15. -/
def decLane15 (f : Fields) : Option Instr :=
  if ([.f16, .bf16, .f32] : List Ty).contains (Ty.ofCode f.ty) && f.ty2 == 0#4 && f.c == 0#8 && f.f == 0#7 && f.la == 0#4 && f.targets.isEmpty then some (.vFmul f.hdr (Ty.ofCode f.ty) (f.d) (f.a) (f.b)) else
  none

/-- Lane-pipe opcode 0x16. -/
def decLane16 (f : Fields) : Option Instr :=
  if ([.f16, .bf16, .f32] : List Ty).contains (Ty.ofCode f.ty) && f.ty2 == 0#4 && f.f == 0#7 && f.la == 0#4 && f.targets.isEmpty then some (.vFma f.hdr (Ty.ofCode f.ty) (f.d) (f.a) (f.b) (f.c)) else
  if ([.f16, .bf16, .f32] : List Ty).contains (Ty.ofCode f.ty) && f.ty2 == 0#4 && f.f == 1#7 && f.la == 0#4 && f.targets.isEmpty then some (.vFms f.hdr (Ty.ofCode f.ty) (f.d) (f.a) (f.b) (f.c)) else
  if ([.f16, .bf16, .f32] : List Ty).contains (Ty.ofCode f.ty) && f.ty2 == 0#4 && f.f == 2#7 && f.la == 0#4 && f.targets.isEmpty then some (.vFnma f.hdr (Ty.ofCode f.ty) (f.d) (f.a) (f.b) (f.c)) else
  if ([.f16, .bf16, .f32] : List Ty).contains (Ty.ofCode f.ty) && f.ty2 == 0#4 && f.f == 3#7 && f.la == 0#4 && f.targets.isEmpty then some (.vFnms f.hdr (Ty.ofCode f.ty) (f.d) (f.a) (f.b) (f.c)) else
  none

/-- Lane-pipe opcode 0x17. -/
def decLane17 (f : Fields) : Option Instr :=
  if ([.f16, .bf16, .f32] : List Ty).contains (Ty.ofCode f.ty) && f.ty2 == 0#4 && f.c == 0#8 && f.f == 0#7 && f.la == 0#4 && f.targets.isEmpty then some (.vFmin f.hdr (Ty.ofCode f.ty) (f.d) (f.a) (f.b)) else
  if ([.f16, .bf16, .f32] : List Ty).contains (Ty.ofCode f.ty) && f.ty2 == 0#4 && f.c == 0#8 && f.f == 1#7 && f.la == 0#4 && f.targets.isEmpty then some (.vFmax f.hdr (Ty.ofCode f.ty) (f.d) (f.a) (f.b)) else
  if ([.f16, .bf16, .f32] : List Ty).contains (Ty.ofCode f.ty) && f.ty2 == 0#4 && f.b == 0#8 && f.c == 0#8 && f.f == 2#7 && f.la == 0#4 && f.targets.isEmpty then some (.vFneg f.hdr (Ty.ofCode f.ty) (f.d) (f.a)) else
  if ([.f16, .bf16, .f32] : List Ty).contains (Ty.ofCode f.ty) && f.ty2 == 0#4 && f.b == 0#8 && f.c == 0#8 && f.f == 3#7 && f.la == 0#4 && f.targets.isEmpty then some (.vFabs f.hdr (Ty.ofCode f.ty) (f.d) (f.a)) else
  if ([.f16, .bf16, .f32] : List Ty).contains (Ty.ofCode f.ty) && f.ty2 == 0#4 && f.c == 0#8 && f.f == 4#7 && f.la == 0#4 && f.targets.isEmpty then some (.vFcsgn f.hdr (Ty.ofCode f.ty) (f.d) (f.a) (f.b)) else
  none

/-- Lane-pipe opcode 0x18. -/
def decLane18 (f : Fields) : Option Instr :=
  match (Fcc.ofCode f.f) with
  | some cc => if f.ty == 10#4 && f.ty2 == 0#4 && f.d.extractLsb' 4 4 == 0#4 && f.c == 0#8 && f.la == 0#4 && f.targets.isEmpty then some (.vFcmp f.hdr cc (f.d.extractLsb' 0 4) (f.a) (f.b)) else none
  | none =>
  none

/-- Lane-pipe opcode 0x19. -/
def decLane19 (f : Fields) : Option Instr :=
  if f.ty == 10#4 && f.ty2 == 0#4 && f.b == 0#8 && f.c == 0#8 && f.f == 0#7 && f.la == 0#4 && f.targets.isEmpty then some (.vFclass f.hdr (f.d) (f.a)) else
  none

/-- Lane-pipe opcode 0x1A. -/
def decLane1A (f : Fields) : Option Instr :=
  if ([.f16, .bf16, .f32, .e4m3, .e2m1, .e5m2] : List Ty).contains (Ty.ofCode f.ty) && ([.f16, .bf16, .f32, .e4m3, .e2m1, .e5m2] : List Ty).contains (Ty.ofCode f.ty2) && f.b == 0#8 && f.c == 0#8 && f.f.extractLsb' 0 4 == 0#4 && f.la == 0#4 && f.targets.isEmpty then some (.vFcvt f.hdr (Ty.ofCode f.ty) (Ty.ofCode f.ty2) (f.d) (f.a) (f.f.extractLsb' 4 3)) else
  if ([.f16, .bf16] : List Ty).contains (Ty.ofCode f.ty) && f.ty2 == 10#4 && f.c == 0#8 && f.f == 1#7 && f.la == 0#4 && f.targets.isEmpty then some (.vFcvtPk f.hdr (Ty.ofCode f.ty) (f.d) (f.a) (f.b)) else
  none

/-- Lane-pipe opcode 0x1B. -/
def decLane1B (f : Fields) : Option Instr :=
  if ([.s8, .s16, .s32, .s64, .n8, .n16, .n32, .n64] : List Ty).contains (Ty.ofCode f.ty) && ([.f16, .bf16, .f32] : List Ty).contains (Ty.ofCode f.ty2) && f.b == 0#8 && f.c == 0#8 && f.f.extractLsb' 0 4 == 0#4 && f.la == 0#4 && f.targets.isEmpty then some (.vFtoi f.hdr (Ty.ofCode f.ty) (Ty.ofCode f.ty2) (f.d) (f.a) (f.f.extractLsb' 4 3)) else
  if ([.f16, .bf16, .f32] : List Ty).contains (Ty.ofCode f.ty) && ([.s32, .s64, .n32, .n64] : List Ty).contains (Ty.ofCode f.ty2) && f.b == 0#8 && f.c == 0#8 && f.f == 1#7 && f.la == 0#4 && f.targets.isEmpty then some (.vItof f.hdr (Ty.ofCode f.ty) (Ty.ofCode f.ty2) (f.d) (f.a)) else
  none

/-- Lane-pipe opcode 0x1C. -/
def decLane1C (f : Fields) : Option Instr :=
  if ([.s8, .e4m3, .e2m1, .e5m2] : List Ty).contains (Ty.ofCode f.ty) && f.ty2 == 10#4 && f.c == 0#8 && f.f == 0#7 && f.la == 0#4 && f.targets.isEmpty then some (.vFscl f.hdr (Ty.ofCode f.ty) (f.d) (f.a) (f.b)) else
  if ([.s8, .e4m3, .e2m1, .e5m2] : List Ty).contains (Ty.ofCode f.ty) && f.ty2 == 10#4 && f.c == 0#8 && f.f == 1#7 && f.la == 0#4 && f.targets.isEmpty then some (.vFqnt f.hdr (Ty.ofCode f.ty) (f.d) (f.a) (f.b)) else
  none

/-- Lane-pipe opcode 0x1D. -/
def decLane1D (f : Fields) : Option Instr :=
  if f.ty == 10#4 && f.ty2 == 0#4 && f.b == 0#8 && f.c == 0#8 && f.f == 0#7 && f.la == 0#4 && f.targets.isEmpty then some (.vFrcp f.hdr (f.d) (f.a)) else
  if f.ty == 10#4 && f.ty2 == 0#4 && f.b == 0#8 && f.c == 0#8 && f.f == 1#7 && f.la == 0#4 && f.targets.isEmpty then some (.vFsqrt f.hdr (f.d) (f.a)) else
  if f.ty == 10#4 && f.ty2 == 0#4 && f.b == 0#8 && f.c == 0#8 && f.f == 2#7 && f.la == 0#4 && f.targets.isEmpty then some (.vFrsq f.hdr (f.d) (f.a)) else
  none

/-- Lane-pipe opcode 0x1E. -/
def decLane1E (f : Fields) : Option Instr :=
  if f.ty == 10#4 && f.ty2 == 0#4 && f.b == 0#8 && f.c == 0#8 && f.f == 0#7 && f.la == 0#4 && f.targets.isEmpty then some (.vFexp2 f.hdr (f.d) (f.a)) else
  if f.ty == 10#4 && f.ty2 == 0#4 && f.b == 0#8 && f.c == 0#8 && f.f == 1#7 && f.la == 0#4 && f.targets.isEmpty then some (.vFlog2 f.hdr (f.d) (f.a)) else
  none

/-- Lane-pipe opcode 0x1F. -/
def decLane1F (f : Fields) : Option Instr :=
  if f.ty == 10#4 && f.ty2 == 0#4 && f.b == 0#8 && f.c == 0#8 && f.f == 0#7 && f.la == 0#4 && f.targets.isEmpty then some (.vFrr f.hdr (f.d) (f.a)) else
  if f.ty == 10#4 && f.ty2 == 0#4 && f.b == 0#8 && f.c == 0#8 && f.f == 1#7 && f.la == 0#4 && f.targets.isEmpty then some (.vFrrTurn f.hdr (f.d) (f.a)) else
  if f.ty == 10#4 && f.ty2 == 0#4 && f.b == 0#8 && f.c == 0#8 && f.f == 2#7 && f.la == 0#4 && f.targets.isEmpty then some (.vFsin f.hdr (f.d) (f.a)) else
  if f.ty == 10#4 && f.ty2 == 0#4 && f.b == 0#8 && f.c == 0#8 && f.f == 3#7 && f.la == 0#4 && f.targets.isEmpty then some (.vFcos f.hdr (f.d) (f.a)) else
  if f.ty == 10#4 && f.ty2 == 0#4 && f.b == 0#8 && f.c == 0#8 && f.f == 4#7 && f.la == 0#4 && f.targets.isEmpty then some (.vFsincos f.hdr (f.d) (f.a)) else
  none

/-- Lane-pipe opcode 0x20. -/
def decLane20 (f : Fields) : Option Instr :=
  if f.ty == 10#4 && ([.f16, .bf16] : List Ty).contains (Ty.ofCode f.ty2) && f.f == 0#7 && f.la == 0#4 && f.targets.isEmpty then some (.vFdot2 f.hdr (Ty.ofCode f.ty2) (f.d) (f.a) (f.b) (f.c)) else
  none

/-- Lane-pipe opcode 0x22. -/
def decLane22 (f : Fields) : Option Instr :=
  if ([.b32, .b64] : List Ty).contains (Ty.ofCode f.ty) && f.ty2 == 0#4 && f.c == 0#8 && f.f == 0#7 && f.la == 0#4 && f.targets.isEmpty then some (.vShfl f.hdr (Ty.ofCode f.ty) (f.d) (f.a) (f.b)) else
  if ([.b32, .b64] : List Ty).contains (Ty.ofCode f.ty) && f.ty2 == 0#4 && f.b == 0#8 && f.f == 1#7 && f.la == 0#4 && f.targets.isEmpty then some (.vShup f.hdr (Ty.ofCode f.ty) (f.d) (f.a) (f.c)) else
  if ([.b32, .b64] : List Ty).contains (Ty.ofCode f.ty) && f.ty2 == 0#4 && f.b == 0#8 && f.f == 2#7 && f.la == 0#4 && f.targets.isEmpty then some (.vShdn f.hdr (Ty.ofCode f.ty) (f.d) (f.a) (f.c)) else
  if ([.b32, .b64] : List Ty).contains (Ty.ofCode f.ty) && f.ty2 == 0#4 && f.b == 0#8 && f.f == 3#7 && f.la == 0#4 && f.targets.isEmpty then some (.vXswz f.hdr (Ty.ofCode f.ty) (f.d) (f.a) (f.c)) else
  none

/-- Lane-pipe opcode 0x23. -/
def decLane23 (f : Fields) : Option Instr :=
  if ([.b32, .b64] : List Ty).contains (Ty.ofCode f.ty) && f.ty2 == 0#4 && f.b == 0#8 && f.f == 0#7 && f.la == 0#4 && f.targets.isEmpty then some (.vBcast f.hdr (Ty.ofCode f.ty) (f.d) (f.a) (f.c)) else
  if ([.b32, .b64] : List Ty).contains (Ty.ofCode f.ty) && f.ty2 == 0#4 && f.b == 0#8 && f.c == 0#8 && f.f == 1#7 && f.la == 0#4 && f.targets.isEmpty then some (.vBcastf f.hdr (Ty.ofCode f.ty) (f.d) (f.a)) else
  none

/-- Lane-pipe opcode 0x24. -/
def decLane24 (f : Fields) : Option Instr :=
  if ([.b32, .b64] : List Ty).contains (Ty.ofCode f.ty) && f.ty2 == 0#4 && f.b == 0#8 && f.c == 0#8 && f.f == 0#7 && f.la == 0#4 && f.targets.isEmpty then some (.vMatch f.hdr (Ty.ofCode f.ty) (f.d) (f.a)) else
  none

/-- Lane-pipe opcode 0x25. -/
def decLane25 (f : Fields) : Option Instr :=
  if f.ty == 0#4 && f.ty2 == 0#4 && f.d.extractLsb' 4 4 == 0#4 && f.a.extractLsb' 4 4 == 0#4 && f.b == 0#8 && f.c == 0#8 && f.f == 0#7 && f.la == 0#4 && f.targets.isEmpty then some (.vVoteAny f.hdr (f.d.extractLsb' 0 4) (f.a.extractLsb' 0 4)) else
  if f.ty == 0#4 && f.ty2 == 0#4 && f.d.extractLsb' 4 4 == 0#4 && f.a.extractLsb' 4 4 == 0#4 && f.b == 0#8 && f.c == 0#8 && f.f == 1#7 && f.la == 0#4 && f.targets.isEmpty then some (.vVoteAll f.hdr (f.d.extractLsb' 0 4) (f.a.extractLsb' 0 4)) else
  if f.ty == 0#4 && f.ty2 == 0#4 && f.a.extractLsb' 4 4 == 0#4 && f.b == 0#8 && f.c == 0#8 && f.f == 2#7 && f.la == 0#4 && f.targets.isEmpty then some (.vBallot f.hdr (f.d) (f.a.extractLsb' 0 4)) else
  none

/-- Lane-pipe opcode 0x26. -/
def decLane26 (f : Fields) : Option Instr :=
  if ([.s32, .n32, .f32] : List Ty).contains (Ty.ofCode f.ty) && f.ty2 == 0#4 && f.b == 0#8 && f.c == 0#8 && f.f == 0#7 && f.la == 0#4 && f.targets.isEmpty then some (.vRedAdd f.hdr (Ty.ofCode f.ty) (f.d) (f.a)) else
  if ([.s32, .n32, .f32] : List Ty).contains (Ty.ofCode f.ty) && f.ty2 == 0#4 && f.b == 0#8 && f.c == 0#8 && f.f == 1#7 && f.la == 0#4 && f.targets.isEmpty then some (.vRedMin f.hdr (Ty.ofCode f.ty) (f.d) (f.a)) else
  if ([.s32, .n32, .f32] : List Ty).contains (Ty.ofCode f.ty) && f.ty2 == 0#4 && f.b == 0#8 && f.c == 0#8 && f.f == 2#7 && f.la == 0#4 && f.targets.isEmpty then some (.vRedMax f.hdr (Ty.ofCode f.ty) (f.d) (f.a)) else
  if f.ty == 13#4 && f.ty2 == 0#4 && f.b == 0#8 && f.c == 0#8 && f.f == 3#7 && f.la == 0#4 && f.targets.isEmpty then some (.vRedAnd f.hdr (f.d) (f.a)) else
  if f.ty == 13#4 && f.ty2 == 0#4 && f.b == 0#8 && f.c == 0#8 && f.f == 4#7 && f.la == 0#4 && f.targets.isEmpty then some (.vRedOr f.hdr (f.d) (f.a)) else
  if f.ty == 13#4 && f.ty2 == 0#4 && f.b == 0#8 && f.c == 0#8 && f.f == 5#7 && f.la == 0#4 && f.targets.isEmpty then some (.vRedXor f.hdr (f.d) (f.a)) else
  none

/-- Lane-pipe opcode 0x27. -/
def decLane27 (f : Fields) : Option Instr :=
  if ([.s32, .n32, .f32] : List Ty).contains (Ty.ofCode f.ty) && f.ty2 == 0#4 && f.b == 0#8 && f.c == 0#8 && f.f == 0#7 && f.la == 0#4 && f.targets.isEmpty then some (.vScanAdd f.hdr (Ty.ofCode f.ty) (f.d) (f.a)) else
  if ([.s32, .n32, .f32] : List Ty).contains (Ty.ofCode f.ty) && f.ty2 == 0#4 && f.b == 0#8 && f.c == 0#8 && f.f == 1#7 && f.la == 0#4 && f.targets.isEmpty then some (.vScanMin f.hdr (Ty.ofCode f.ty) (f.d) (f.a)) else
  if ([.s32, .n32, .f32] : List Ty).contains (Ty.ofCode f.ty) && f.ty2 == 0#4 && f.b == 0#8 && f.c == 0#8 && f.f == 2#7 && f.la == 0#4 && f.targets.isEmpty then some (.vScanMax f.hdr (Ty.ofCode f.ty) (f.d) (f.a)) else
  if ([.s32, .n32] : List Ty).contains (Ty.ofCode f.ty) && f.ty2 == 0#4 && f.b == 0#8 && f.c == 0#8 && f.f == 8#7 && f.la == 0#4 && f.targets.isEmpty then some (.vScanAddx f.hdr (Ty.ofCode f.ty) (f.d) (f.a)) else
  none

/-- Lane-pipe opcode 0x28. -/
def decLane28 (f : Fields) : Option Instr :=
  if f.ty == 13#4 && f.ty2 == 0#4 && f.f == 0#7 && f.la == 0#4 && f.targets.isEmpty then some (.vKgen f.hdr (f.d) (f.a) (f.b) (f.c)) else
  none

/-- Lane-pipe opcode 0x2C. -/
def decLane2C (f : Fields) : Option Instr :=
  if ([.s8, .s16, .n8, .n16, .b32, .b64] : List Ty).contains (Ty.ofCode f.ty) && f.ty2 == 0#4 && MemF.okLdSt (MemF.ofCode f.f) && ((MemF.ofCode f.f).ix || f.b == 0#8) && (!(MemF.ofCode f.f).q || Ty.ofCode f.ty == .b64) && f.targets.isEmpty then some (.vLd f.hdr (Ty.ofCode f.ty) (f.d) (f.a) (f.b) (f.c) (MemF.ofCode f.f)) else
  none

/-- Lane-pipe opcode 0x2D. -/
def decLane2D (f : Fields) : Option Instr :=
  if ([.s8, .s16, .n8, .n16, .b32, .b64] : List Ty).contains (Ty.ofCode f.ty) && f.ty2 == 0#4 && MemF.okLdSt (MemF.ofCode f.f) && ((MemF.ofCode f.f).ix || f.b == 0#8) && (!(MemF.ofCode f.f).q || Ty.ofCode f.ty == .b64) && f.targets.isEmpty then some (.vSt f.hdr (Ty.ofCode f.ty) (f.d) (f.a) (f.b) (f.c) (MemF.ofCode f.f)) else
  none

/-- Lane-pipe opcode 0x2E. -/
def decLane2E (f : Fields) : Option Instr :=
  if ([.s8, .s16, .n8, .n16, .b32, .b64] : List Ty).contains (Ty.ofCode f.ty) && MemF.okGlobal (MemF.ofCode f.f) && ((MemF.ofCode f.f).ix || f.b == 0#8) && (!(MemF.ofCode f.f).q || Ty.ofCode f.ty == .b64) && f.targets.isEmpty then some (.vLdr f.hdr (Ty.ofCode f.ty) (f.d) (f.a) (f.b) (f.c) (MemF.ofCode f.f) (f.ty2)) else
  none

/-- Lane-pipe opcode 0x2F. -/
def decLane2F (f : Fields) : Option Instr :=
  if f.ty == 0#4 && f.ty2 == 0#4 && f.d == 0#8 && MemF.okPrefetch (MemF.ofCode f.f) && ((MemF.ofCode f.f).ix || f.b == 0#8) && f.la == 0#4 && f.targets.isEmpty then some (.vPf f.hdr (f.a) (f.b) (f.c) (MemF.ofCode f.f)) else
  none

/-- Lane-pipe opcode 0x30. -/
def decLane30 (f : Fields) : Option Instr :=
  match (AtomOp.ofCode f.ty2) with
  | some aop => if aop.accepts (Ty.ofCode f.ty) && (aop != .rr || f.b == 0#8) && f.f.extractLsb' 0 6 == 0#6 && f.targets.isEmpty then some (.vAtom f.hdr aop (Ty.ofCode f.ty) (f.d) (f.a) (f.b) (f.c) (f.f.getLsbD 6)) else none
  | none =>
  none

/-- Lane-pipe opcode 0x31. -/
def decLane31 (f : Fields) : Option Instr :=
  match (AtomOp.ofCode f.ty2) with
  | some aop => if aop.accepts (Ty.ofCode f.ty) && (aop != .rr || f.b == 0#8) && f.d == 0#8 && f.f.extractLsb' 0 6 == 0#6 && f.targets.isEmpty then some (.vAtomn f.hdr aop (Ty.ofCode f.ty) (f.a) (f.b) (f.c) (f.f.getLsbD 6)) else none
  | none =>
  none

/-- Lane-pipe opcode 0x32. -/
def decLane32 (f : Fields) : Option Instr :=
  if ([.b32, .b64] : List Ty).contains (Ty.ofCode f.ty) && f.ty2 == 0#4 && f.f.extractLsb' 0 6 == 0#6 && f.targets.isEmpty then some (.vCas f.hdr (Ty.ofCode f.ty) (f.d) (f.a) (f.b) (f.c) (f.f.getLsbD 6)) else
  none

/-- Lane-pipe opcode 0x36. -/
def decLane36 (f : Fields) : Option Instr :=
  if f.ty == 13#4 && f.ty2 == 0#4 && f.b == 0#8 && f.c == 0#8 && f.f == 0#7 && f.la == 0#4 && f.targets.isEmpty then some (.ckRes f.hdr (f.d) (f.a)) else
  if ([.b32, .b64] : List Ty).contains (Ty.ofCode f.ty) && f.ty2 == 0#4 && f.d.extractLsb' 4 4 == 0#4 && f.b == 0#8 && f.c == 0#8 && f.f == 1#7 && f.la == 0#4 && f.targets.isEmpty then some (.ckVfy f.hdr (Ty.ofCode f.ty) (f.d.extractLsb' 0 4) (f.a)) else
  if f.ty == 13#4 && f.ty2 == 0#4 && f.c == 0#8 && f.f == 2#7 && f.la == 0#4 && f.targets.isEmpty then some (.ckInjr f.hdr (f.d) (f.a) (f.b)) else
  none

/-- Lane-pipe opcode 0x37. -/
def decLane37 (f : Fields) : Option Instr :=
  if f.ty == 14#4 && f.ty2 == 0#4 && f.b == 0#8 && f.c == 0#8 && f.f == 0#7 && f.la == 0#4 && f.targets.isEmpty then some (.ckMcrd f.hdr (f.d) (f.a)) else
  if f.ty == 13#4 && f.ty2 == 0#4 && f.b == 0#8 && f.c == 0#8 && f.f == 1#7 && f.la == 0#4 && f.targets.isEmpty then some (.ckEcnt f.hdr (f.d) (f.a)) else
  if f.ty == 0#4 && f.ty2 == 0#4 && f.d == 0#8 && f.b == 0#8 && f.c == 0#8 && f.f == 2#7 && f.targets.isEmpty then some (.ckInjmGCe f.hdr (f.a)) else
  if f.ty == 0#4 && f.ty2 == 0#4 && f.d == 0#8 && f.b == 0#8 && f.c == 0#8 && f.f == 3#7 && f.targets.isEmpty then some (.ckInjmGUe f.hdr (f.a)) else
  if f.ty == 0#4 && f.ty2 == 0#4 && f.d == 0#8 && f.b == 0#8 && f.c == 0#8 && f.f == 4#7 && f.targets.isEmpty then some (.ckInjmVtCe f.hdr (f.a)) else
  if f.ty == 0#4 && f.ty2 == 0#4 && f.d == 0#8 && f.b == 0#8 && f.c == 0#8 && f.f == 5#7 && f.targets.isEmpty then some (.ckInjmVtUe f.hdr (f.a)) else
  none

/-- The lane pipe's opcode map (R82). -/
def decLane (f : Fields) : Option Instr :=
  match f.op.toNat with
  | 0 => decLane00 f
  | 1 => decLane01 f
  | 2 => decLane02 f
  | 3 => decLane03 f
  | 4 => decLane04 f
  | 5 => decLane05 f
  | 6 => decLane06 f
  | 7 => decLane07 f
  | 8 => decLane08 f
  | 9 => decLane09 f
  | 10 => decLane0A f
  | 11 => decLane0B f
  | 12 => decLane0C f
  | 13 => decLane0D f
  | 14 => decLane0E f
  | 15 => decLane0F f
  | 16 => decLane10 f
  | 17 => decLane11 f
  | 18 => decLane12 f
  | 19 => decLane13 f
  | 20 => decLane14 f
  | 21 => decLane15 f
  | 22 => decLane16 f
  | 23 => decLane17 f
  | 24 => decLane18 f
  | 25 => decLane19 f
  | 26 => decLane1A f
  | 27 => decLane1B f
  | 28 => decLane1C f
  | 29 => decLane1D f
  | 30 => decLane1E f
  | 31 => decLane1F f
  | 32 => decLane20 f
  | 34 => decLane22 f
  | 35 => decLane23 f
  | 36 => decLane24 f
  | 37 => decLane25 f
  | 38 => decLane26 f
  | 39 => decLane27 f
  | 40 => decLane28 f
  | 44 => decLane2C f
  | 45 => decLane2D f
  | 46 => decLane2E f
  | 47 => decLane2F f
  | 48 => decLane30 f
  | 49 => decLane31 f
  | 50 => decLane32 f
  | 54 => decLane36 f
  | 55 => decLane37 f
  | _ => none

/-- The type that X = 0 implies for an opcode (R77), as the E field; none where it has no short form. -/
def shortForm (p : Bool) (op : BitVec 6) : Option (BitVec 4) :=
  if p then
    match op.toNat with
    | 0 => some 2#4
    | 1 => some 2#4
    | 2 => some 2#4
    | 3 => some 13#4
    | 4 => some 13#4
    | 5 => some 2#4
    | 6 => some 6#4
    | 7 => some 2#4
    | 8 => some 13#4
    | 9 => some 2#4
    | 10 => some 13#4
    | 11 => some 2#4
    | 12 => some 2#4
    | 14 => some 13#4
    | 15 => some 0#4
    | 16 => some 0#4
    | 17 => some 0#4
    | 18 => some 0#4
    | 20 => some 0#4
    | 21 => some 0#4
    | 24 => some 0#4
    | 25 => some 0#4
    | 26 => some 0#4
    | 27 => some 0#4
    | 28 => some 0#4
    | 29 => some 0#4
    | 30 => some 0#4
    | 32 => some 0#4
    | 41 => some 0#4
    | 42 => some 0#4
    | 44 => some 0#4
    | 47 => some 0#4
    | 48 => some 0#4
    | 49 => some 0#4
    | 50 => some 0#4
    | 52 => some 0#4
    | 53 => some 0#4
    | 55 => some 0#4
    | 56 => some 0#4
    | 57 => some 0#4
    | 58 => some 0#4
    | 59 => some 0#4
    | 61 => some 0#4
    | 62 => some 0#4
    | _ => none
  else
    match op.toNat with
    | 0 => some 2#4
    | 1 => some 2#4
    | 2 => some 2#4
    | 4 => some 13#4
    | 5 => some 13#4
    | 6 => some 2#4
    | 7 => some 2#4
    | 9 => some 6#4
    | 10 => some 13#4
    | 12 => some 2#4
    | 13 => some 2#4
    | 15 => some 13#4
    | 16 => some 2#4
    | 18 => some 6#4
    | 19 => some 0#4
    | 20 => some 10#4
    | 21 => some 10#4
    | 23 => some 10#4
    | 24 => some 10#4
    | 25 => some 10#4
    | 29 => some 10#4
    | 30 => some 10#4
    | 31 => some 10#4
    | 34 => some 13#4
    | 36 => some 13#4
    | 37 => some 0#4
    | 54 => some 13#4
    | 55 => some 14#4
    | _ => none

/-- The instruction of a set of fields. -/
def decodeFields (f : Fields) : Option Instr := if f.p then decUniform f else decLane f

/-- The base word of a set of fields (R67). -/
def Fields.base (f : Fields) : Word :=
  BitVec.ofBool f.p ++ BitVec.ofBool f.x ++ f.op ++ f.d ++ f.a ++ f.b

/-- The extension word of a set of fields (R68). -/
def Fields.ext (f : Fields) : Word :=
  f.g ++ BitVec.ofBool f.gn ++ f.la ++ f.f ++ f.c ++ f.ty2 ++ f.ty

/-- The target list of format T as words: even targets in the low half (R73). -/
def packTargets : List (BitVec 16) → List Word
  | [] => []
  | [a] => [0#16 ++ a]
  | a :: b :: rest => (b ++ a) :: packTargets rest

/-- The first `n` targets that a list of words holds (R73). -/
def unpackTargets : Nat → List Word → Option (List (BitVec 16))
  | 0, _ => some []
  | 1, w :: _ => some [w.extractLsb' 0 16]
  | n + 2, w :: ws => (unpackTargets n ws).map fun ts => w.extractLsb' 0 16 :: w.extractLsb' 16 16 :: ts
  | _ + 1, [] => none

/-- The fields that a base word with X = 1 and its extension word hold. -/
def Fields.ofExt (w e : Word) (targets : List (BitVec 16)) : Fields :=
  { p := w.getLsbD 31, x := true, op := w.extractLsb' 24 6, d := w.extractLsb' 16 8, a := w.extractLsb' 8 8,
    b := w.extractLsb' 0 8, g := e.extractLsb' 28 4, gn := e.getLsbD 27, la := e.extractLsb' 23 4,
    f := e.extractLsb' 16 7, c := e.extractLsb' 8 8, ty2 := e.extractLsb' 4 4, ty := e.extractLsb' 0 4,
    targets := targets }

/-- The fields that a base word with X = 0 stands for: the short form's (R77). -/
def Fields.ofShort (w : Word) (ty : BitVec 4) : Fields :=
  { p := w.getLsbD 31, x := false, op := w.extractLsb' 24 6, d := w.extractLsb' 16 8, a := w.extractLsb' 8 8,
    b := w.extractLsb' 0 8, g := 0, gn := false, la := 0, f := 0, c := 0, ty2 := 0, ty := ty, targets := [] }

/-- The base word is of format T: uniform opcode 0x13 (R104). -/
def isTableWord (w : Word) : Bool := w.getLsbD 31 && w.extractLsb' 24 6 == 0x13#6

/-- The decoder: the instruction that a list of words begins with, and the words after it; `none` is a word that is illegal at
decode (R79). -/
def decode : List Word → Option (Instr × List Word)
  | [] => none
  | w :: rest =>
    if w.getLsbD 30 then
      match rest with
      | [] => none
      | e :: more =>
        let n := if isTableWord w then (w.extractLsb' 8 8).toNat + 1 else 0
        match unpackTargets n more with
        | none => none
        | some ts =>
          match decodeFields (Fields.ofExt w e ts) with
          | none => none
          | some i => some (i, more.drop ((n + 1) / 2))
    else
      match shortForm (w.getLsbD 31) (w.extractLsb' 24 6) with
      | none => none
      | some ty =>
        match decodeFields (Fields.ofShort w ty) with
        | none => none
        | some i => some (i, rest)

/-- The number of words that a base word makes the instruction: 1 + X, and the words of a target list (R69, R73). -/
def instrWords (w : Word) : Nat :=
  if w.getLsbD 30 then 2 + (if isTableWord w then ((w.extractLsb' 8 8).toNat + 2) / 2 else 0) else 1

/-- The number of words of an instruction: 1 + X, and the words of the target list (R69). -/
def Instr.length (i : Instr) : Nat :=
  match toFields i with
  | none => 0
  | some f => (if f.x then 2 else 1) + (f.targets.length + 1) / 2

/-- The encoder: the words of an instruction (R67 to R73); none for an event. -/
def encode (i : Instr) : List Word :=
  match toFields i with
  | none => []
  | some f => f.base :: ((if f.x then [f.ext] else []) ++ packTargets f.targets)

/-- The words of a number whose bits are numbered as the opcode table numbers them: the first word in the low 32 bits. -/
def tableWords : Nat → Nat → List Word
  | 0, _ => []
  | n + 1, w => BitVec.ofNat 32 w :: tableWords n (w / 2 ^ 32)

/-- The longest instruction: a branch table of 256 targets with its extension word (R73). -/
def maxWords : Nat := 130

/-- The instruction that the decoder reads from an instruction of the table whose bits are `w`; the bits above `nbits` are zero. -/
def decodeTableWord (nbits w : Nat) : Option Instr :=
  (decode (tableWords maxWords (w % 2 ^ nbits))).map (·.1)

end Sys2Proof
end

