-- ==== Sys2Proof/Config.lean ====
section
/-! DEFINITION. What an implementation fixes and what the spec leaves open. Every value here is opaque: nothing can be proved of it but
that it is a value (log entries 5 and 13). -/

namespace Sys2Proof

/-- The values that the spec leaves open, in the order in which the machine meets them: the state's counter `freeCtr` names the next one
(log entry 5). -/
opaque Config.freeValue : Nat → BitVec 64

/-- The bytes of a save image, by its number and their places in it: the image's layout is private to the part (R230; log entry 33). -/
opaque Config.imageByte : Nat → Nat → BitVec 8

/-- Where in the bound of R172 the internal approximation of `v.fexp2` (0), `v.flog2` (1), `v.fsin` (2), `v.fcos` (3) and the two halves of
`v.fsincos` (4, 5) lies for an operand (log entry 10). -/
opaque Config.sfuError : Nat → BitVec 32 → BitVec 64

/-- AES Key Wrap with Padding (RFC 5649) under the key that ECDH and HKDF derive from the sender's point (R446): the key that a
72-byte wrapped key unwraps to, or none where it fails (log entry 13). -/
opaque Config.unwrapKey : List Byte → List Byte → Option (List Byte)

/-- The public point of an identity key pair (R445, R448; log entry 13). -/
opaque Config.identityPoint : BitVec 64 → List Byte

/-- The SHA-384 digest of what numbers describe (R448; log entry 13). -/
opaque Config.sha384 : List Int → List Byte

/-- The ECDSA signature under an identity key over bytes 64 to 316 of the attestation block (R448; log entry 13). -/
opaque Config.sign : BitVec 64 → List Byte → List Byte

end Sys2Proof
end

