-- ==== Sys2Proof/Machine/State.lean ====
section
/-! DEFINITION. The state of the package as plain data: every piece of state that the spec names, the fault and refusal names,
and the state after reset. Sparse tables are sorted lists of (key, value) pairs, `SMap`, that list no default value. -/

namespace Sys2Proof.Machine

open Sys2Proof

/-- Why a step stops. No rule of the spec raises it. -/
inductive Fault where
  /-- Raised by an instruction word that is executed while no team is the issuing team: the spec gives a word an effect
  only in a team. Safe: the step stops where the hardware has no such step. -/
  | noTeam
  deriving DecidableEq, Repr

/-- Why an instruction has no meaning. -/
inductive Refusal where
  /-- Raised by an arm of `exec` that has no meaning yet. Safe: the model stops where the hardware goes on. -/
  | notModelled (mnemonic : String)
  deriving DecidableEq, Repr

/-- The outcome of a step. -/
abbrev Out (σ : Type) := Host.Outcome σ Fault Refusal

/-! ### Registers and the reconvergence stack -/

/-- A 32-bit register word with the 3-bit residue code it carries (R24, R184). -/
structure RWord where
  val : Word
  code : BitVec 3
  deriving DecidableEq, Repr

/-- The word that a register holds at team start: zero with residue zero (R24). -/
def RWord.zero : RWord := { val := 0, code := 0 }

/-- An entry of the reconvergence stack (R108): PC, mask, reconvergence PC where valid, and `FMT`. -/
structure PathEntry where
  pc : BitVec 16
  mask : Mask
  rpc : Option (BitVec 16)
  fmt : Word
  deriving DecidableEq, Repr

/-! ### Traps -/

/-- The causes of R139, by bit number. -/
inductive Cause where
  | illegal | priv | btabRange | ovlMiss | fetch | page | perm | align | bounds | rights | copyLate | window | gang
  | vault | barrier | stack | mcheck | memUe | collMismatch | collPeer | fabricKey | tokenDebtOvf | swtrap | brk
  | launchFull | tape | sample | aliased | lscale | double
  deriving DecidableEq, Repr

/-- The bit of a cause in `TCAUSE` (R139). -/
def Cause.bit : Cause → Nat
  | .illegal => 0 | .priv => 1 | .btabRange => 2 | .ovlMiss => 3 | .fetch => 4 | .page => 5 | .perm => 6 | .align => 7
  | .bounds => 8 | .rights => 9 | .copyLate => 10 | .window => 11 | .gang => 12 | .vault => 13 | .barrier => 14
  | .stack => 15 | .mcheck => 16 | .memUe => 17 | .collMismatch => 18 | .collPeer => 19 | .fabricKey => 20
  | .tokenDebtOvf => 21 | .swtrap => 22 | .brk => 23 | .launchFull => 24 | .tape => 25 | .sample => 26 | .aliased => 27
  | .lscale => 28 | .double => 29

/-- A synchronous stop (R143): the cause, the lanes it names, and for `s.trap` and `s.brk` the code. `after` says that the
cause resumes after the instruction (SWTRAP, LSCALE of `dp.lsstep`). -/
structure Stop where
  cause : Cause
  lanes : Mask
  code : BitVec 16
  after : Bool
  deriving DecidableEq, Repr

/-! ### Handles -/

/-- The status of a handle slot (R33). -/
inductive HStatus where
  | pending | done | faulted | cancelled
  deriving DecidableEq, Repr

/-- The 2-bit value of a status (R33). -/
def HStatus.code : HStatus → Nat
  | .pending => 0 | .done => 1 | .faulted => 2 | .cancelled => 3

/-- A slot of the handle table (R32): its generation, the status it holds, the engine of its last command, and the promise of
a copy (R325): the promised completion time on `CYC`, where the slot holds a copy handle. -/
structure HSlot where
  gen : Nat
  status : HStatus
  eng : Nat
  promise : Option Nat
  deriving DecidableEq, Repr

/-- A slot at team start (R32): generation 0. -/
def HSlot.reset : HSlot := { gen := 0, status := .done, eng := 0, promise := none }

/-- The owner of an engine operation's outcome: the team, the handle slot, and the grid that waits for the operation (R34, R215). -/
structure HRef where
  uid : Nat
  slot : Nat
  gid : Nat
  deriving DecidableEq, Repr

/-! ### What holds a team -/

/-- What holds a team from issuing (R28, R119, R116, R301, R402). `barIn` is an arrival on its way to the slot, `barTok` a
token on its way back (R116); `drained` is a team stopped for eviction or a save (R151); `link` waits for a release to complete (R285,
R295), `ats` for a translation by the host (R252), `remote` for the answers of other devices (R242, R243). -/
inductive Hold where
  | free
  | sleep (untilCyc : Nat)
  | wait (h : BitVec 16) (d : RegNo) (groups : List Nat)
  | waitAll
  | barIn
  | barTok (token : BitVec 16) (d : RegNo) (groups : List Nat)
  | barWait (idx : Nat) (token : BitVec 16)
  | latch
  | tokens (need : Nat)
  | drained
  | link
  | ats (pasid va : Nat)
  | remote
  deriving DecidableEq, Repr

/-- A fence whose release has not completed, and what it holds until then (R288): nothing, the later stores, atomics and commands with ACQ
(`rel`), or every later memory instruction and engine command, with an acquire at its end (`sc`). -/
inductive FenceWait where
  | none | rel | sc
  deriving DecidableEq, Repr

/-- Where a team is (R40, R228, R229, R151). -/
inductive Residence where
  | starting | resident | draining | evicted
  deriving DecidableEq, Repr

/-- A register write that a pending long-latency instruction still has to make: of a lane's register, a lane's predicate, or a group's
register. -/
inductive PendWrite where
  | reg (key : Nat) (w : RWord)
  | pred (key : Nat) (b : Bool)
  | sreg (key : Nat) (w : RWord)
  deriving DecidableEq, Repr

/-- What a pending `sa.stat` reads once every command of the slot accepted before number `before` has completed (R352, R357). -/
structure SaRead where
  slot : Nat
  sel : Nat
  before : Nat
  d : RegNo
  groups : List Nat
  deriving DecidableEq, Repr

/-- A long-latency instruction in flight (R29, R76, R141): its place in the team's issue order, its PC, LA, the registers it
writes and still reads (register numbers; predicates as 256 + n), and its outcome: a stop, the writes it makes, or in `stat` what the sampling
engine has still to answer. -/
structure Flight where
  seq : Nat
  pc : BitVec 16
  la : Nat
  regs : List Nat
  stop : Option Stop
  writes : List PendWrite
  stat : Option SaRead
  deriving DecidableEq, Repr

/-- A loop buffer that a team fetches from (R137, R138): the code slot it was copied from and when that slot had landed, the range, and its
words. -/
structure LoopBuf where
  id : Nat
  slot : Nat
  landedAt : Nat
  seg : BitVec 4
  start : Nat
  words : List Word
  deriving DecidableEq, Repr

/-- A team (R13, R25, R108). `heldLen` is the length of the instruction that
`hold` belongs to, `fence` a fence that waits (R288), `hostStores` whether the team has stored to HOST pages since its last zero-length read
(R295), `relTag` the number before which every registration has to complete for the release begun last,
and `relIssue` the place in issue order of the instruction that began it (R285), `dueAt` the core cycle at which a barrier's token or release reaches the team (R118), `stopReq` a stop that an engine or
a slot raised at the instruction that holds the team, not yet taken. Its lanes, groups and registers: `v` is keyed by n·1024 + lane, `s` by
n·1024 + group, `p` and `q` the same way (only writable predicates are listed). `spilled` counts the stack entries in the spill area, whose
private bytes are `area`, by virtual address (R111). `debtSeq` and `debtSeqOdd` place the debts on its cores in the order of their creation
(R393). -/
structure Team where
  uid : Nat
  gid : Nat
  ctx : Nat
  asid : Nat
  pri : Nat
  home : Nat
  pair : Bool
  slot : Nat
  lanes : Nat
  group : Nat
  nv : Nat
  lin : Nat
  res : Residence
  placedAt : Nat
  evictedAt : Nat
  stack : List PathEntry
  spilled : Nat
  area : SMap Byte
  frame : Option PathEntry
  frameDepth : Nat
  v : SMap RWord
  s : SMap RWord
  p : SMap Bool
  q : SMap Bool
  tcw : Word
  seed0 : DWord
  seed1 : DWord
  seed2 : DWord
  seed3 : DWord
  tstka : DWord
  tcause : DWord
  tpc : Word
  tvb : Word
  tskip : Word
  skipPos : Nat
  flm : Mask
  dropl : Mask
  ckinj : Word
  mxgang : Word
  mxwin : Word
  segs : List (BitVec 64)
  segBind : List (BitVec 64)
  segFaulted : List Bool
  handles : SMap HSlot
  freeSlots : List Nat
  rounds : SMap (BitVec 32)
  pendCauses : DWord
  hold : Hold
  heldLen : Nat
  fence : FenceWait
  hostStores : Bool
  relTag : Nat
  relIssue : Option Nat
  dueAt : Nat
  copyLateHeld : Bool
  debtHome : Nat
  debtOdd : Nat
  heldHome : Nat
  heldOdd : Nat
  readyAt : Option Nat
  debtSeq : Nat
  debtSeqOdd : Nat
  loopBuf : Option LoopBuf
  flight : List Flight
  issued : Nat
  stopReq : Option Stop
  deriving DecidableEq, Repr

/-! ### Cores -/

/-- The state of a code slot (R128). -/
inductive SlotState where
  | free | loading | landed | bad
  deriving DecidableEq, Repr

/-- A handle that waits for a load of code to land: the team, its handle slot, the segment it bound (16 once a later `s.cfetch` into that
segment has landed) and its place in the order of the fetches. -/
structure CodeWaiter where
  who : HRef
  seg : Nat
  no : Nat
  deriving DecidableEq, Repr

/-- A code slot (R128, R131): tag, state, landing core cycle, whether a landing pins it still, its words and the handles that
wait for the load. -/
structure CodeSlot where
  asid : Nat
  addr : Nat
  st : SlotState
  landedAt : Nat
  pinned : Bool
  words : List Word
  waiters : List CodeWaiter
  deriving DecidableEq, Repr

/-- A free code slot. -/
def CodeSlot.reset : CodeSlot :=
  { asid := 0, addr := 0, st := .free, landedAt := 0, pinned := false, words := [], waiters := [] }

/-- A load of code that waits for a slot (R131). -/
structure CodeLoad where
  core : Nat
  asid : Nat
  addr : Nat
  waiter : CodeWaiter
  deriving DecidableEq, Repr

/-- A named barrier slot of a core (R114): the owning grid, EXP, CNT and GEN. -/
structure BarSlot where
  gid : Nat
  exp : Nat
  cnt : Nat
  gen : BitVec 16
  deriving DecidableEq, Repr

/-- A barrier arrival on its way to its slot (R116): its team and that team's core `src`, the slot's core, and the core cycle `at_` at which it
gets there (R118). `sync` tells `s.bar.sync` from `s.bar.arr`. -/
structure Arrival where
  uid : Nat
  src : Nat
  at_ : Nat
  core : Nat
  idx : Nat
  count : Nat
  sync : Bool
  d : RegNo
  groups : List Nat
  deriving DecidableEq, Repr

/-- A machine-check record (R194, R195): its words once filed, the core cycle from which it can be read, and its place in the
filing order. -/
structure McRec where
  words : List DWord
  readyAt : Nat
  readable : Bool
  seq : Nat
  deriving DecidableEq, Repr

/-- A free record: all words zero. -/
def McRec.reset : McRec := { words := List.replicate 8 0, readyAt := 0, readable := true, seq := 0 }

/-- A core (R25, R391 to R397): the bucket, the pipes' rotation pointers and the core cycle from which each pipe is free, the
reservation and its queue, the sixteen code slots, the loop buffers in use by
their ids, most recently used first (R137), the barrier slots and the records. -/
structure Core where
  tkcore : DWord
  bal : Nat
  frac : Nat
  lanePtr : Nat
  uniPtr : Nat
  laneFree : Nat
  uniFree : Nat
  resv : Option Nat
  resvQ : List Nat
  code : SMap CodeSlot
  bars : SMap BarSlot
  mcrec : SMap McRec
  bufs : List Nat
  deriving DecidableEq, Repr

/-- `TKCORE` after reset: RTO 256, RATE 128, CAP 1,024, DMAX 65,535 (R391). -/
def Core.tkcoreReset : DWord := 0x0001_0020_0400_FFFF

/-- A core after reset: the balance is CAP (R400), nothing is loaded and nothing held. -/
def Core.reset : Core :=
  { tkcore := Core.tkcoreReset, bal := 1024, frac := 0, lanePtr := 0, uniPtr := 0, laneFree := 0, uniFree := 0,
    resv := none, resvQ := [], code := [], bars := [], mcrec := [], bufs := [] }

/-! ### Dispatch -/

/-- A launch packet (R212): its 128 bytes as 16 little-endian words of 64 bits. -/
abbrev PacketWords := List DWord

/-- Where a consumed packet stands (R211): it waits, its grid runs, or its tape run runs. -/
inductive PacketState where
  | waiting | grid (gid : Nat) | tapeRun
  deriving DecidableEq, Repr

/-- A launch queue as the engine holds it (R209, R210, R220): the table entry as last read, HEAD, TAIL, whether it is stopped, whether the entry
or the tail word has been written since (`told`), the number before which an engine's question is older than the tail last read, and the parents of the packets that `dp.launch` wrote, by position. -/
structure Queue where
  entry : List DWord
  head : Nat
  tail : Nat
  stopped : Bool
  rewritten : Bool
  told : Bool
  acqTag : Nat
  parents : SMap Nat
  deriving DecidableEq, Repr


/-- A grid (R211 to R220): the completed packet's fields, the image header's, what has been placed, and once its end has begun the number before
which every registration has to complete (R215). -/
structure Grid where
  gid : Nat
  ctx : Nat
  q : Nat
  pos : Nat
  pri : Nat
  seq : Nat
  fromTape : Bool
  pack : Nat
  flags : BitVec 16
  lanes : Nat
  group : Nat
  nv : Nat
  image : Nat
  gx : Nat
  gy : Nat
  gz : Nat
  trav : Nat
  swz : Nat
  tcwi : Word
  fmti : BitVec 16
  nbar : Nat
  tvbi : Word
  seed0 : DWord
  doneAddr : DWord
  doneVal : DWord
  cmask : BitVec 96
  args : List Word
  segMask : BitVec 16
  entryPc : BitVec 16
  vbytes : Nat
  constVa : DWord
  dataVa : DWord
  stepsVa : DWord
  order : List Nat
  next : Nat
  cursor : Nat
  regions : SMap Nat
  barCore : Option Nat
  barBase : Nat
  relTag : Option Nat
  deriving DecidableEq, Repr

/-- An active tape run (R222): its queue, the packet's position, TMARK, the record popped that waits for its RETWAIT tags with the grid that it
describes (R219), and the grid of the record it last launched. -/
structure TapeRun where
  q : Nat
  pos : Nat
  mark : Nat
  popped : Option (Nat × Grid)
  running : Option Nat
  deriving DecidableEq, Repr

/-- A consumed packet of a queue that has not ended (R210, R211). `parent` is the launching grid of a `dp.launch` packet
(R220), `ready` the grid that a GRID packet describes once its fields are complete (R213). -/
structure Packet where
  q : Nat
  pos : Nat
  words : PacketWords
  parent : Option Nat
  st : PacketState
  seq : Nat
  ready : Option Grid
  deriving DecidableEq, Repr

/-! ### Pages -/

/-- A leaf that a walk found (R236, R237), with the level it stands at (2, 3 or 4). -/
structure Leaf where
  level : Nat
  mode : Nat
  r : Bool
  w : Bool
  a : Bool
  x : Bool
  peer : Nat
  key : Nat
  thr : Nat
  res : Bool
  frame : Nat
  deriving DecidableEq, Repr

/-- A TLB entry (R235): its controller, ASID, the virtual page's first address and the leaf. -/
structure TlbEntry where
  ctrl : Nat
  asid : Nat
  page : Nat
  leaf : Leaf
  deriving DecidableEq, Repr

/-- A non-leaf entry that a die's walk cache holds (R235): the address space, the level, which entry of it, and the entry. -/
structure WalkEntry where
  die : Nat
  asid : Nat
  level : Nat
  at_ : Nat
  value : Nat
  deriving DecidableEq, Repr

/-- A frame-table entry that a die's walker holds (R235): the frame and the entry. -/
structure FrameEntry where
  die : Nat
  frame : Nat
  value : Nat
  deriving DecidableEq, Repr

/-- A pending page request of a context (R246): the page, and the handles joined to it. -/
structure PageReq where
  va : Nat
  host : Bool
  waiters : List HRef
  deriving DecidableEq, Repr

/-- A migration that this device takes part in or has asked for (R249): the page's home and the device that is to become it, whether that
device has asked the home for it, the frame taken from the pool, whether the hold has begun, the requests queued at the hold, and the handles
of `pg.mig`. -/
structure Move where
  ctx : Nat
  asid : Nat
  va : Nat
  home : Nat
  target : Nat
  agreed : Bool
  frame : Option Nat
  held : Bool
  queue : List RemoteReq
  waiters : List HRef
  deriving DecidableEq, Repr

/-- A counter of the migration table (R248). -/
structure MigCount where
  asid : Nat
  va : Nat
  count : Nat
  deriving DecidableEq, Repr

/-- An ATS translation that the host granted for a 4 KiB page of a PASID (R252). -/
structure AtsGrant where
  r : Bool
  w : Bool
  deriving DecidableEq, Repr

/-- The rights, mode and residency that a last-level line keeps from its translation (R233), its home address, whether it is the first to be
evicted (R262), and whether it is modified (R447). -/
structure Line where
  leaf : Leaf
  pa : Nat
  ev : Bool
  dirty : Bool
  deriving DecidableEq, Repr

/-! ### Accesses in flight -/

/-- What a pending write does at its home (R266, R284). `atomic` carries the rounding mode and draw of a floating add (R58), and
`inj` a pending injection for the atomic unit (R203). -/
inductive WriteKind where
  | store
  | atomic (op : AtomOp) (ty : Ty) (data : DWord) (rm : Nat) (draw : Nat) (inj : Nat)
  | cas (ty : Ty) (cmp swap : DWord) (inj : Nat)
  deriving DecidableEq, Repr

/-- A write that has been accepted and not registered (R284): the writer, its instruction's place in issue order with its PC and words, the
lane's core and the team's cores, the space's ASID and address, the home key of its first byte, and what it does. -/
structure PWrite where
  uid : Nat
  seq : Nat
  core : Nat
  cores : List Nat
  gid : Nat
  asid : Nat
  va : Nat
  vault : Bool
  key : Nat
  lane : Nat
  pc : BitVec 16
  base : Nat
  ext : Nat
  bytes : List Byte
  kind : WriteKind
  deriving DecidableEq, Repr

/-- A revoke that a registration waits for (R284): its number, the core that held the word's record, as the record names it, the word, and the
writer's core. -/
structure Revoke where
  no : Nat
  core : Nat
  asid : Nat
  va : Nat
  by_ : Nat
  deriving DecidableEq, Repr

/-- A byte in an L1 (R260), with its HOST mark (R286). -/
structure L1Byte where
  val : Byte
  host : Bool
  deriving DecidableEq, Repr

/-- A stored code error of a block (R196, R206): correctable or uncorrectable. -/
inductive CodeErr where
  | ce | ue
  deriving DecidableEq, Repr

/-- A context (R95, R208, R241, R364): its registers and what the dispatch, page and collective engines keep for it, with `hostStores`, whether
its engines or teams that have gone have stored to HOST pages since the last zero-length read of the context's grids and engines (R295).
`spillBase` is the model's own: where the dispatch engine lays out the spill areas of its teams (log entry 5). -/
structure Ctx where
  valid : Bool
  asid : Nat
  otbase : DWord
  otlen : Word
  qtbase : DWord
  tapebase : DWord
  flogbase : DWord
  flogpos : DWord
  lscfg : DWord
  tdepth : DWord
  lscale : Word
  lskip : Word
  ptbase : DWord
  pgcfg : DWord
  prqbase : DWord
  prqpos : DWord
  clgbase : DWord
  queues : SMap Queue
  packets : List Packet
  tape : Option TapeRun
  pageReqs : List PageReq
  hostStores : Bool
  spillBase : DWord
  deriving DecidableEq, Repr

/-! ### Matrix engine -/

/-- How an operation rounds: the mode of `TCW`.RM and the seed that `TCW`.SRSEED selects, as held at acceptance (R58). -/
structure Round where
  rm : Nat
  seed : DWord
  deriving DecidableEq, Repr

/-- A member of a gang (R299, R300): its rank and team, the handle of its `mx.gang` once formed, whether it has left (R304), and
the sequence number of its window (R59). -/
structure GangMember where
  rank : Nat
  uid : Nat
  rows : Nat
  d : RegNo
  groups : List Nat
  handle : Option HRef
  left : Bool
  q : Nat
  deriving DecidableEq, Repr

/-- An arrival at the rendezvous latch (R301): what the member's `mx.mma` held when it reached issue, with its words `ins` (R195). -/
structure MmaArrival where
  rank : Nat
  uid : Nat
  f : BitVec 7
  aAddr : Word
  aLay : Word
  bAddr : Word
  bLay : Word
  ctrl : Word
  fmt : Word
  d : RegNo
  groups : List Nat
  pc : BitVec 16
  ins : Nat × Nat
  deriving DecidableEq, Repr

/-- A gang slot in use (R299 to R304): the grid, the member count, whether it has formed, and once the windows are allocated their
first row and the rows of each. -/
structure Gang where
  gid : Nat
  n : Nat
  formed : Bool
  formedAt : Nat
  rows : Nat
  base : Option Nat
  members : List GangMember
  latch : List MmaArrival
  deriving DecidableEq, Repr

/-- What a reservation-table entry does (R312, R313, R358). -/
inductive MxKind where
  | mma (z acc : Bool) (aAddr aLay bAddr bLay : Word) (nk : Nat)
  | zero (blocks : Nat)
  | ld (tr : Bool) (ty : Ty) (addr : Word)
  | st (tr clr rel : Bool) (addr : Word)
  | draw (slot count : Nat)
  | fin (slot : Nat)
  deriving DecidableEq, Repr

/-- A reservation-table entry (R315): its owner, the handles it waits on, its window's rows, what it does, and how far it is. `joint`
is common to the parts of one product; `sub` the sub-array of a pass that runs, with the core cycle at which it ends. Records name the team
`by_`, the gang's leader for a product, its PC and its words `ins` (R192). -/
structure MxEntry where
  id : Nat
  joint : Nat
  uid : Nat
  gid : Nat
  asid : Nat
  who : HRef
  deps : List (Nat × BitVec 16)
  pri : Nat
  at_ : Nat
  rank : Nat
  winBase : Nat
  row : Nat
  fmt : Word
  rnd : Round
  q : Nat
  by_ : Nat
  pc : BitVec 16
  ins : Nat × Nat
  inj : Nat
  kind : MxKind
  tile : Nat
  sub : Option Nat
  endsAt : Nat
  started : Bool
  deriving DecidableEq, Repr

/-- A sub-array (R316, R317): whether it is gated, the core cycle at which its last pass ended, and the one until which a granted pass of a
context that has ended still runs (R421). -/
structure SubArray where
  gated : Bool
  lastPass : Nat
  busyTill : Nat
  deriving DecidableEq, Repr

/-- A window allocation that waits for rows (R300): the gang slot and the core cycle at which it formed. -/
structure WinWait where
  slot : Nat
  since : Nat
  deriving DecidableEq, Repr

/-! ### Sampling engine -/

/-- The states of a sampling slot (R336). -/
inductive SaState where
  | free | opened | built | stopped | final
  deriving DecidableEq, Repr

/-- A sampling slot (R335). -/
structure SaSlot where
  st : SaState
  uid : Nat
  gid : Nat
  winBase : Nat
  row : Nat
  aAddr : Word
  aLay : Word
  bAddr : Word
  bLay : Word
  fmt : Word
  sid : Nat
  nk : Nat
  na : SMap Word
  nb : SMap Word
  normed : List Nat
  counts : List Nat
  thr : List Nat
  alias_ : List Nat
  log2n : Nat
  nbld : Nat
  nlost : Nat
  t : Nat
  mean : Word
  m2 : Word
  eps2 : Word
  abs2 : Word
  tmin : Nat
  signU : DWord
  signV : DWord
  nonfin : Bool
  limit : Bool
  err : Nat
  deriving DecidableEq, Repr

/-- A sampling command (R352): its slot word, operands and what it does. -/
inductive SaOp where
  | opened (aAddr aLay bAddr bLay desc ctrl : Word)
  | close
  | norm (first : Word)
  | build (eps2 abs2 u0 u1 v0 v1 : Word)
  | draw
  | fin
  deriving DecidableEq, Repr

/-- A sampling command accepted and not completed (R357), with the base of its team's window and the row in it that it names (R358, R360);
`nextAt` is the core cycle before which its next unit does not start (R361). -/
structure SaCmd where
  id : Nat
  uid : Nat
  gid : Nat
  asid : Nat
  winBase : Nat
  row : Nat
  who : HRef
  slot : Nat
  word : Word
  op : SaOp
  fmt : Word
  rnd : Round
  q : Nat
  entry : Option Nat
  batch : Nat
  running : Bool
  pc : BitVec 16
  ins : Nat × Nat
  inj : Nat
  nextAt : Nat := 0
  deriving DecidableEq, Repr

/-! ### Copy engine -/

/-- A shape record as an engine read it (R96). -/
structure Shape where
  v : Bool
  rd : Bool
  wr : Bool
  mc : Bool
  off : Bool
  ndim : Nat
  ty : Ty
  lay : Nat
  space : Nat
  addr : Nat
  ext : List Nat
  str : List Int
  limit : Nat
  ok : Bool
  deriving DecidableEq, Repr

/-- The four data commands of R322. -/
inductive CopyKind where
  | copy | mcast | off | ret
  deriving DecidableEq, Repr

/-- A copy command accepted and not completed (R326, R333): its records, the vaults of a multicast fill, its tag, its estimate in core
cycles, the bytes it has moved and in `elems` the scale lines and then the elements, those of them that were skipped for an error (R199), once
its last write is made the number before which with REL every registration has to complete (R290), the core cycle from which its next piece may
move, for how many reference cycles the metering engine has held its grants (R328), and its promise (R325). `after` is a return that starts when every earlier
transfer of its tag has ended (R330). -/
structure CopyCmd where
  id : Nat
  uid : Nat
  gid : Nat
  ctx : Nat
  asid : Nat
  who : HRef
  pc : BitVec 16
  ins : Nat × Nat
  kind : CopyKind
  dst : Shape
  src : Shape
  vaults : List Nat
  tag : Nat
  after : Bool
  rel : Bool
  relTag : Option Nat
  bytes : Nat
  rate : Nat
  setup : Nat
  moved : Nat
  elems : Nat
  skipped : List Nat
  started : Bool
  nextAt : Nat
  heldCycles : Nat
  promise : Nat
  finished : Bool
  deriving DecidableEq, Repr

/-- The copy engine of a cluster (R326): its two streams in acceptance order. -/
structure CopyEngine where
  loc : List CopyCmd
  rem : List CopyCmd
  deriving DecidableEq, Repr

/-- The most recent transfer of an offload tag in use (R329 to R331): the command, whether it is a return, whether it is pending, whether it is an
offload that was cancelled or has faulted, and an offload's source. -/
structure TagUse where
  ctx : Nat
  tag : Nat
  cmd : Nat
  cluster : Nat
  isRet : Bool
  pending : Bool
  dead : Bool
  src : Option Shape
  deriving DecidableEq, Repr

/-- A cluster's engines (R25, R26). `upsets` is an input as plain data: of each draw to come, which of its probe value (0), mean (1) and M2 (2) fails
its residue check twice, if one does (R356; log entry 5). -/
structure Cluster where
  mxcfg : DWord
  gangs : SMap Gang
  acc : SMap Word
  entries : List MxEntry
  winWait : List WinWait
  subs : List SubArray
  sa : List SaSlot
  saQ : List SaCmd
  copy : CopyEngine
  upsets : List (Option Nat) := []
  deriving DecidableEq, Repr

/-- A free sampling slot. -/
def SaSlot.reset : SaSlot :=
  { st := .free, uid := 0, gid := 0, winBase := 0, row := 0, aAddr := 0, aLay := 0, bAddr := 0, bLay := 0, fmt := 0,
    sid := 0, nk := 0, na := [], nb := [], normed := [], counts := [], thr := [], alias_ := [], log2n := 0, nbld := 0,
    nlost := 0, t := 0, mean := 0, m2 := 0, eps2 := 0, abs2 := 0, tmin := 0, signU := 0, signV := 0, nonfin := false,
    limit := false, err := 0 }

/-- A cluster after reset: AGE 4,096, GATE 1,024 (R317); nothing allocated; the sub-arrays awake. -/
def Cluster.reset : Cluster :=
  { mxcfg := 0x1000_0400, gangs := [], acc := [], entries := [], winWait := [],
    subs := List.replicate 4 { gated := false, lastPass := 0, busyTill := 0 }, sa := List.replicate 4 SaSlot.reset, saQ := [],
    copy := { loc := [], rem := [] } }

/-! ### Collective engine -/

/-- A started step that has not completed (R373, R374): its kind and slots, its chunk or flag index, the slots and chunks that it reads and writes, the rank and
chunk that it receives from and sends to, and their places `seqIn`, `seqOut` among the program's parts that name that rank. `arrived` is
the data that came, `payload` what the step sends; `inMoved`, `redMoved` and `outMoved` are the bytes granted so far for receiving, reducing and
sending, `nextAt` when the piece in
progress ends, `since` from when it waits for a message (R379), and `tag` the number before which what a flag step waits for is registered
(R377). -/
structure ClStep where
  kind : Nat
  sa : Nat
  sb : Nat
  chunk : Nat
  reads : Option (Nat × Nat)
  writes : Option (Nat × Nat)
  inn : Option (Nat × Nat)
  out : Option (Nat × Nat)
  seqIn : Nat
  seqOut : Nat
  tag : Option Nat
  arrived : Option (List Byte)
  payload : Option (List Byte)
  inMoved : Nat
  redMoved : Nat := 0
  redAt : Nat := 0
  outMoved : Nat
  nextAt : Nat
  wrote : Bool
  since : Option Nat
  deriving DecidableEq, Repr

/-- A grant that has arrived (R374): the rank that gave it, its place among that rank's grants, and the chunk. -/
structure ClGrant where
  rank : Nat
  k : Nat
  chunk : Nat
  deriving DecidableEq, Repr

/-- A collective program accepted and not ended (R367, R368): its descriptor's fields, its group, the captured rounding, and the state of
its run. -/
structure ClProg where
  id : Nat
  uid : Nat
  gid : Nat
  ctx : Nat
  asid : Nat
  home : Nat
  who : HRef
  pc : BitVec 16
  ins : Nat × Nat
  rel : Bool
  relTag : Option Nat
  ch : Nat
  grp : Nat
  ty : Ty
  op : Nat
  chunk : Nat
  nc : Nat
  nsteps : Nat
  flagv : Word
  flagaddr : Nat
  steps : Nat
  slots : List (Option Shape)
  n : Nat
  rank : Nat
  gtag : Word
  map : List Nat
  h : Word
  hash : Word
  rnd : Round
  inj : Nat
  started : Bool
  words : List DWord
  next : Nat
  loops : List Nat
  counts : List Nat
  sigs : List Nat
  active : List ClStep
  waiting : Option (Nat × Nat)
  waitSince : Nat
  sendSeq : SMap Nat
  recvSeq : SMap Nat
  grants : List ClGrant
  deriving DecidableEq, Repr

/-- A channel (R362, R374): its queue, the running program at the head, and the held messages. -/
structure Channel where
  progs : List ClProg
  held : List ClMsg
  deriving DecidableEq, Repr

/-- A channel after reset. -/
def Channel.reset : Channel := { progs := [], held := [] }

/-! ### Ramp governor -/

/-- What a running unit is (R406, R417). -/
inductive UnitKind where
  | engine | pfq (block : Nat) (asid : Nat) | scrub | wake (island : Nat)
  deriving DecidableEq, Repr

/-- A unit that runs at a rate until a reference cycle (R406, R411, R417). `die` is none for a collective unit; `work` is the
cluster, cost and core cycles of a unit whose rate follows its cluster's clock (R406, R428). -/
structure RunUnit where
  kind : UnitKind
  rate : Nat
  die : Option Nat
  endsAt : Nat
  work : Option (Nat × Nat × Nat)
  deriving DecidableEq, Repr

/-- A power intent (R429, R430): its context, generation, rise and lead, when its work is due, when its ramp starts, and the level at its
acceptance. -/
structure Intent where
  ctx : Nat
  gen : Nat
  dr : Nat
  lead : Nat
  due : Nat
  start : Nat
  base : Nat
  deriving DecidableEq, Repr

/-- An intent received from another device (R431), with the `CYC` of its receipt. -/
structure IntentRx where
  peer : Nat
  idx : Nat
  gen : Nat
  dr : Nat
  lead : Nat
  part : Nat
  at_ : Nat
  deriving DecidableEq, Repr

/-- A prefetch queued as a tadpole (R269, R417): its block and the grid that queued it. -/
structure Prefetch where
  asid : Nat
  va : Nat
  gid : Nat
  deriving DecidableEq, Repr

/-- The states of an island (R425). -/
inductive Island where
  | run | idle | ret | waking
  deriving DecidableEq, Repr

/-- The 2-bit value of an island state (R425). -/
def Island.code : Island → Nat
  | .run => 0 | .idle => 1 | .ret => 2 | .waking => 3

/-- An island: its state, since when (in `CYC`; for WAKING, when it will run), its clock in MHz (R428), and the count of its clock's cycles: `base`
that it had made when its clock last started or changed, at the half reference cycle `from_`. -/
structure IslandRec where
  st : Island
  since : Nat
  mhz : Nat
  base : Nat
  from_ : Nat
  deriving DecidableEq, Repr

/-- An island after reset: RUN (R425), at 2,000 MHz. -/
def IslandRec.reset : IslandRec := { st := .run, since := 0, mhz := 2000, base := 0, from_ := 0 }

/-- The ramp governor (R404 to R433): level, ballast rate, setpoint; `RAMPCFG` and the largest rise and
changes as they stand for the current step; the two dies' average loads of the previous step, their
caps, the sums of their loads over this step and their real loads at its start; the load of this reference cycle and of each die in it; the
running units; whether ballast has fallen short in this step; the steps spent at GMIN and the steps that an external offset still holds; the
PFQ queues of the dies; the intents by entry, the last generation, and the intents received; and inputs as plain data (log entries 5, 41): the readings that the power module will report at the step boundaries to come, the
operating points that system software sets of islands, in MHz (R428), the states to which it directs islands other than clusters (R426), the
islands of those that an access waits for, and how many self-test vectors of a cycle with ballast mismatch (R417). -/
structure Governor where
  level : Nat
  balr : Nat
  vset : Nat
  cfg : DWord
  up : Nat
  dstep : Nat
  dstepd : Nat
  prevDie : List Nat
  dieCap : List Nat
  dieSum : List Nat
  loadNow : Nat
  dieNow : List Nat
  startDie : List Nat
  short : Bool
  units : List RunUnit
  atMin : Nat
  xoffLeft : Nat
  pfq : List (List Prefetch)
  intents : SMap Intent
  gen : Nat
  rx : List IntentRx
  openAt : Nat
  retStep : Option Nat
  reports : List DWord
  points : List (Nat × Nat)
  directs : List (Nat × Island)
  wanted : List Nat
  misses : List Nat
  deriving DecidableEq, Repr

/-- The governor after reset: level 0 (R414), VSET 800 mV. -/
def Governor.reset : Governor :=
  { level := 0, balr := 0, vset := 800, cfg := 0x3E82_5800_0428_4440, up := 400, dstep := 400, dstepd := 240, prevDie := [0, 0],
    dieCap := [240, 240], dieSum := [0, 0], loadNow := 0, dieNow := [0, 0], startDie := [0, 0], short := false, units := [], atMin := 0, xoffLeft := 0, pfq := [[], []], intents := [], gen := 0,
    rx := [], openAt := 0, retStep := none, reports := [], points := [], directs := [], wanted := [], misses := [] }

/-! ### Host interface and the non-volatile memory -/

/-- A stored training record of an HBM stack or a port group, with the identity key under which its signature verifies (R445, R450). -/
structure TrainRec where
  signer : Option DWord
  vset : Nat
  temp : Temp
  deriving DecidableEq, Repr

/-- A firmware image in a bank: what it is, the digest of the key under which its signature verifies, and its version (R449). -/
structure FwImage where
  code : DWord
  signer : Option DWord
  version : Nat
  deriving DecidableEq, Repr

/-- The non-volatile memory (R445, R449 to R451): the identity key pair once it has been made, the digest that is fused in the package, the two
firmware banks, the fused rollback counter, the training records, the wear counters as they count, and in `saved` the counters as last written. -/
structure Nvm where
  identity : Option DWord
  fused : DWord
  banks : List FwImage
  rollback : Word
  hbmRecs : List TrainRec
  portRecs : List TrainRec
  wtc0 : DWord
  wtc1 : DWord
  wpwr : DWord
  whrs0 : DWord
  whrs1 : DWord
  saved : List DWord
  deriving DecidableEq, Repr

/-- The non-volatile memory of a package that has been powered up once, with firmware in both banks that passes (log entry 4). -/
def Nvm.reset : Nvm :=
  { identity := some 0, fused := 0, banks := List.replicate 2 { code := 0, signer := some 0, version := 0 }, rollback := 0,
    hbmRecs := List.replicate 8 { signer := none, vset := 0, temp := 0 },
    portRecs := List.replicate 8 { signer := none, vset := 0, temp := 0 }, wtc0 := 0, wtc1 := 0, wpwr := 0, whrs0 := 0,
    whrs1 := 0, saved := List.replicate 5 0 }

/-- The package registers that software reads and writes whole (R241, R364, R391, R392, R414, R422, R437 to R444), and what the host interface
keeps beside them: the interfaces that are up, the installed key slots and link keys, the lost peers, the messages discarded, the vectors
signalled, the image of each context slot's save or restore, the slots being destroyed, the partitions whose keys go, as 64 · slot + m, the
readings of the junction's temperature that come, one a reference cycle, and the least and greatest of the thermal cycle under way (R451). -/
structure Pkg where
  frtab : DWord
  mpool : DWord
  mphead : DWord
  mptail : DWord
  mlog : DWord
  mlogpos : DWord
  peerid : DWord
  clcfg : DWord
  rampcfg : DWord
  ramplim : DWord
  ramptab : SMap Word
  rampWrites : List (Nat × DWord) := []
  capchg : DWord
  dcap0 : Nat
  dcap1 : Nat
  dbal0 : Nat
  dbal1 : Nat
  pcap : Nat
  pbal : Nat
  diePtr0 : Nat
  diePtr1 : Nat
  mown : DWord
  pendSince : Nat
  ownerDownSince : Option Nat
  hostUp : Bool
  portsUp : List Bool
  boardUp : Bool
  win : SMap DWord
  ctxctl : SMap DWord
  part : SMap DWord
  partSet : Bool
  keyBlock : List Byte
  attBlock : List Byte
  hostTag : Nat
  memKeys : List Nat
  linkKeys : List Nat
  lost : List Nat
  discarded : Nat
  msix : List Nat
  img : SMap Nat
  dying : List Nat
  zeroing : List Nat
  temps : List Temp := []
  swing : Option (Temp × Temp) := none
  deriving DecidableEq, Repr

/-- The package registers after reset (R241, R364, R392, R414, R438 to R444). -/
def Pkg.reset : Pkg :=
  { frtab := 0, mpool := 0, mphead := 0, mptail := 0, mlog := 0, mlogpos := 0, peerid := 0, clcfg := 30,
    rampcfg := 0x3E82_5800_0428_4440, ramplim := 0, ramptab := [], capchg := 0xFFF1_E3C7_8F1E_3C78, dcap0 := 1048576,
    dcap1 := 1048576, dbal0 := 1048576, dbal1 := 1048576, pcap := 16777216, pbal := 16777216, diePtr0 := 0, diePtr1 := 0,
    mown := 0, pendSince := 0, ownerDownSince := none, hostUp := true, portsUp := List.replicate 64 true, boardUp := true,
    win := [], ctxctl := [], part := [], partSet := false, keyBlock := List.replicate 256 0,
    attBlock := List.replicate 512 0, hostTag := 0, memKeys := [], linkKeys := [], lost := [], discarded := 0, msix := [], img := [], dying := [], zeroing := [] }

/-- A context slot after reset (R95, R208, R241, R364): `LSCFG` N 2,000, EINIT 16, EMAX 24, EMIN 0; `LSCALE` 2^16. -/
def Ctx.reset : Ctx :=
  { valid := false, asid := 0, otbase := 0, otlen := 0, qtbase := 0, tapebase := 0, flogbase := 0, flogpos := 0,
    lscfg := 0x0000_07D0_1018_0000, tdepth := 0, lscale := 0x4780_0000, lskip := 0, ptbase := 0, pgcfg := 0, prqbase := 0,
    prqpos := 0, clgbase := 0, queues := [], packets := [], tape := none, pageReqs := [], hostStores := false, spillBase := 0 }

/-! ### The state -/

/-- A saved context (R230): what a save wrote to an image of `size` units of 64 KiB, with the bytes and the regions it holds. -/
structure SavedCtx where
  size : Nat := 0
  ctx : Ctx
  teams : List Team
  grids : List Grid
  bars : List (Nat × Nat × BarSlot)
  vault : List Host.Cell
  poison : List Nat
  gangs : List (Nat × Nat × Gang)
  rows : List (Nat × Nat × Word)
  slots : List (Nat × Nat × SaSlot)
  tags : List TagUse
  deriving DecidableEq, Repr

/-- A message that the package sends (R243, R249, R374, R379, R429): to another device, or to the host. `mreq` goes from the device that is to
become a page's home to the home, and from any other device to that one; `migPage` carries the page's bytes and its ownership records. -/
inductive OutMsg where
  | coll (peer : Nat) (msg : ClMsg)
  | intent (idx gen dr lead part : Nat)
  | intentCancel (idx gen part : Nat)
  | mreq (home target asid va : Nat)
  | migRefuse (peer asid va : Nat)
  | migPage (peer asid va : Nat) (bytes : List Byte)
  | request (peer : Nat) (req : RemoteReq)
  | forward (peer : Nat) (req : RemoteReq)
  | reply (peer : Nat) (va tag : Nat) (data : List Byte)
  | replyFail (peer : Nat) (va tag : Nat) (why : Refused)
  | revoke (peer asid va core : Nat)
  | revoked (peer va core : Nat)
  | ats (pasid va : Nat)
  | pri (pasid va : Nat)
  | invalidateDone (pasid va : Nat)
  | zeroRead (tag : Nat)
  | hostRead (off : Nat) (data : List Byte)
  deriving DecidableEq, Repr

/-- What an engine still has to write once the host has answered a translation (R252): the bytes of a record, a page request's record, whose
place in its ring is taken as it is written (R246), or a completion word of a queue's packet (R215); and a prefetch (R269). -/
inductive RecWhat where
  | bytes (bs : List Byte)
  | request (page lin core : Nat)
  | done (q pos : Nat) (val : DWord)
  | prefetch (core level : Nat)
  deriving DecidableEq, Repr

/-- An engine's access that waits for a translation by the host (R252): the context slot and the address. -/
structure RecWait where
  slot : Nat
  at_ : Nat
  what : RecWhat
  deriving DecidableEq, Repr

/-- Who asks another device: a team, an engine, or a prefetch of a level (R242, R269, R279). -/
inductive Asker where
  | team (uid : Nat)
  | engine
  | prefetch (level : Nat)
  deriving DecidableEq, Repr

/-- A home's answer to an access: bytes, or why it refuses. -/
inductive RemAns where
  | bytes (bs : List Byte)
  | refused (why : Refused)
  deriving DecidableEq, Repr

/-- An access that this device has asked another device for (R242, R243): its number, who asked, the core that issued it, the home key and the
address, and what it asks; for a team's writes what they are, and for returning atomics their lanes. `ans` is none while it is out, then the
home's answer, which came at the core cycle `at_`. A block that is loaded is kept in the caches only where `keep` still holds: no acquire, no write of this device to
the block and no other answer with its bytes has come since it was asked for (R270, R283, R286). A write of an engine's command names it with
`cmd` (R321). With a host key it is the zero-length read
of a release (R295). -/
structure RemAsk where
  tag : Nat
  asker : Asker
  core : Nat
  asid : Nat
  key : Nat
  va : Nat
  op : RemoteOp
  writes : List PWrite
  ret : List Nat
  ans : Option RemAns
  at_ : Nat
  keep : Bool
  cmd : Option HRef := none
  deriving DecidableEq, Repr

/-- A team as its engine operations know it after it has gone (R34, R192, R194). -/
structure TeamId where
  uid : Nat
  gid : Nat
  home : Nat
  pair : Bool
  lin : Nat
  deriving DecidableEq, Repr

/-- The whole package. `cc` counts half reference cycles, the core cycles at 2 GHz, and `later` the core cycles that the cores of a faster
cluster have still to make in this one (R6, R428). `pick` and `inputs` say what the next steps are: the teams chosen to issue, and what arrives from
outside; `l1Rights` holds the translation that filled each block of an L1, by its first byte's key (R233);
`remoteWait` holds requests of other devices, and `recWaits` writes of engines, that wait for a translation by the host; `replies`
holds answers to other devices with the number before which every revoke has to be acknowledged (R284); `gone` names the teams that have exited
while their grid lasts. `cur` is the team whose instruction is being executed. -/
structure State where
  cyc : BitVec 64
  cc : Nat
  later : Nat
  powered : Bool
  mem : List Host.Cell
  tags : SMap Nat
  poison : SMap Bool
  codeErrs : SMap CodeErr
  pend : List PWrite
  revokes : List Revoke
  l1 : SMap L1Byte
  l1Rights : SMap Leaf
  owners : SMap Nat
  lines : SMap Line
  remote : SMap Byte
  tlb : List TlbEntry
  walks : List WalkEntry
  frames : List FrameEntry
  ats : SMap AtsGrant
  counters : SMap Nat
  scrubPos : Nat
  scrubPasses : Nat
  cores : SMap Core
  clusters : SMap Cluster
  ctxs : SMap Ctx
  saved : SMap SavedCtx
  teams : List Team
  grids : List Grid
  arrivals : List Arrival
  loads : List CodeLoad
  chans : SMap Channel
  tagUses : List TagUse
  migCounts : List MigCount
  moves : List Move
  prices : SMap Nat
  islands : SMap IslandRec
  gov : Governor
  pkg : Pkg
  nvm : Nvm
  outbox : List OutMsg
  inputs : List Instr
  remoteWait : List RemoteReq
  recWaits : List RecWait
  remAsks : List RemAsk
  replies : List (Nat × OutMsg)
  gone : List TeamId
  pick : List Nat
  cur : Option Nat
  nextId : Nat
  freeCtr : Nat
  deriving DecidableEq, Repr

/-- The package right after reset: `CYC` zero (R35), nothing resident, no context, every register at the value of its structure's
reset; the boot sequence (R450) has run. -/
def State.reset : State :=
  { cyc := 0, cc := 0, later := 0, powered := true, mem := [], tags := [], poison := [], codeErrs := [], pend := [], revokes := [],
    l1 := [], l1Rights := [], owners := [], lines := [], remote := [], tlb := [], walks := [], frames := [], ats := [], counters := [], scrubPos := 0,
    scrubPasses := 0, cores := [], clusters := [], ctxs := [], saved := [], teams := [], grids := [], arrivals := [],
    loads := [], chans := [], tagUses := [], migCounts := [], moves := [], prices := [], islands := [],
    gov := Governor.reset, pkg := Pkg.reset, nvm := Nvm.reset, outbox := [], inputs := [], remoteWait := [], recWaits := [],
    remAsks := [], replies := [], gone := [], pick := [], cur := none, nextId := 1, freeCtr := 0 }

end Sys2Proof.Machine
end

