-- ==== Sys2Proof/Machine/Map.lean ====
section
/-! DEFINITION. Operations on sparse tables and on lists of bytes. A table made by `put`, `del` and `set` keeps its keys strictly rising. -/

namespace Sys2Proof.Machine

open Sys2Proof

/-- The entry of a key. -/
def SMap.find {α : Type} : SMap α → Nat → Option α
  | [], _ => none
  | (k, v) :: m, x => if x = k then some v else SMap.find m x

/-- Writes the entry of a key. -/
def SMap.put {α : Type} : SMap α → Nat → α → SMap α
  | [], x, v => [(x, v)]
  | (k, w) :: m, x, v => if x = k then (x, v) :: m else if x < k then (x, v) :: (k, w) :: m else (k, w) :: SMap.put m x v

/-- Removes the entry of a key. -/
def SMap.del {α : Type} : SMap α → Nat → SMap α
  | [], _ => []
  | (k, w) :: m, x => if x = k then SMap.del m x else (k, w) :: SMap.del m x

/-- The value of a key, `d` where it is not listed. -/
def SMap.get {α : Type} (d : α) (m : SMap α) (x : Nat) : α := (SMap.find m x).getD d

/-- Writes a value; writing `d` removes the entry. -/
def SMap.set {α : Type} [DecidableEq α] (d : α) (m : SMap α) (x : Nat) (v : α) : SMap α :=
  if v = d then SMap.del m x else SMap.put m x v

/-- The keys rise strictly, from above `lo`. -/
def SMap.wfFrom {α : Type} : Option Nat → SMap α → Bool
  | _, [] => true
  | lo, (k, _) :: m => (match lo with | none => true | some l => decide (l < k)) && SMap.wfFrom (some k) m

/-- The keys rise strictly and no value is the default. -/
def SMap.wf {α : Type} [DecidableEq α] (d : α) (m : SMap α) : Bool :=
  SMap.wfFrom none m && m.all fun e => decide (e.2 ≠ d)

/-- A list without repeats; of equal elements the last stays. -/
def distinct {α : Type} [DecidableEq α] : List α → List α
  | [] => []
  | x :: xs => if x ∈ xs then distinct xs else x :: distinct xs

/-- The first element of a list that satisfies a test, with its place. -/
def findPlace {α : Type} (p : α → Bool) : List α → Option (Nat × α)
  | [] => none
  | x :: xs => if p x then some (0, x) else (findPlace p xs).map fun r => (r.1 + 1, r.2)

/-- Replaces each element that satisfies a test. -/
def replaceWhere {α : Type} (p : α → Bool) (f : α → α) (l : List α) : List α := l.map fun x => if p x then f x else x

/-- Puts an element before the first that is larger under `lt`. -/
def insertBy {α : Type} (lt : α → α → Bool) (x : α) : List α → List α
  | [] => [x]
  | y :: ys => if lt x y then x :: y :: ys else y :: insertBy lt x ys

/-- A list sorted by `lt`; equal elements keep their order. -/
def sortBy {α : Type} (lt : α → α → Bool) (l : List α) : List α := l.foldl (fun acc x => insertBy lt x acc) []

/-- The number that little-endian bytes hold (R7). -/
def leNat : List Byte → Nat
  | [] => 0
  | b :: bs => b.toNat + 256 * leNat bs

/-- The first `n` little-endian bytes of a number (R7). -/
def natLe : Nat → Nat → List Byte
  | 0, _ => []
  | n + 1, x => BitVec.ofNat 8 x :: natLe n (x / 256)

/-- The integer that a bit field of a number holds: bits `hi` to `lo`. -/
def bits (x hi lo : Nat) : Nat := x / 2 ^ lo % 2 ^ (hi + 1 - lo)

/-- A bit of a number. -/
def bit (x n : Nat) : Bool := x.testBit n

/-- `x` with bits `hi` to `lo` replaced by `v`. -/
def withBits (x hi lo v : Nat) : Nat :=
  x - bits x hi lo * 2 ^ lo + v % 2 ^ (hi + 1 - lo) * 2 ^ lo

/-- The ceiling of a quotient. -/
def ceilDiv (a b : Nat) : Nat := (a + b - 1) / b

end Sys2Proof.Machine
end

