-- ==== Sys2Proof/Machine/Flags.lean ====
section
/-! DEFINITION. Conditions, signed and unsigned values, saturation, residues and the keyed generator. The machine keeps no arithmetic
flags (R101, R155): what stands here is every computation that decides a predicate or a check. -/

namespace Sys2Proof.Machine

open Sys2Proof

/-- The residue modulo 7 of a word, as the code a register word carries (R184). -/
def residue7 (w : Word) : BitVec 3 := BitVec.ofNat 3 (w.toNat % 7)

/-- A register word with the right code. -/
def RWord.of (w : Word) : RWord := { val := w, code := residue7 w }

/-- The carried code is the word's residue (R184, R190). -/
def RWord.good (r : RWord) : Bool := r.code == residue7 r.val

/-- A number of 32 bits as a register word. -/
def RWord.ofNat (x : Nat) : RWord := RWord.of (BitVec.ofNat 32 x)

/-- The value of the low `w` bits of a number under two's complement (R44). -/
def signedVal (w x : Nat) : Int :=
  let y := x % 2 ^ w
  if y ≥ 2 ^ (w - 1) then (y : Int) - 2 ^ w else y

/-- The value of an element under a type: two's complement for s types, unsigned for n and b types (R154). -/
def tyVal (ty : Ty) (x : Nat) : Int := if ty.isSigned then signedVal ty.width x else ((x % 2 ^ ty.width : Nat) : Int)

/-- The low `w` bits of an integer. -/
def wrap (w : Nat) (z : Int) : Nat := (z % (2 ^ w : Nat)).toNat

/-- Clamps an integer to the range of a type (R154). -/
def saturate (ty : Ty) (z : Int) : Int :=
  let lo : Int := if ty.isSigned then -(2 ^ (ty.width - 1) : Nat) else 0
  let hi : Int := if ty.isSigned then (2 ^ (ty.width - 1) : Nat) - 1 else (2 ^ ty.width : Nat) - 1
  if z < lo then lo else if z > hi then hi else z

/-- Extends the low `w` bits of a number to `n` bits, by sign or by zero. -/
def extend (signed : Bool) (w n x : Nat) : Nat := if signed then wrap n (signedVal w x) else x % 2 ^ w

/-- An integer condition (R102). -/
def Cc.holds (cc : Cc) (x y : Int) : Bool :=
  match cc with
  | .eq => x == y
  | .ne => x != y
  | .lt => decide (x < y)
  | .le => decide (x ≤ y)
  | .gt => decide (x > y)
  | .ge => decide (x ≥ y)

/-- Element `i` of width `w` of a number (R154). -/
def elem (x i w : Nat) : Nat := x / 2 ^ (w * i) % 2 ^ w

/-- Packs elements of width `w`, element 0 lowest. -/
def packElems (w : Nat) : List Nat → Nat
  | [] => 0
  | x :: xs => x % 2 ^ w + 2 ^ w * packElems w xs

/-- Elements per source of a type: max(1, 32/w) (R154). -/
def elemCount (ty : Ty) : Nat := if ty.width ≥ 32 then 1 else 32 / ty.width

/-- Applies an operation element-wise (R155). -/
def mapElems (ty : Ty) (f : Nat → Nat → Nat) (a b : Nat) : Nat :=
  packElems ty.width ((List.range (elemCount ty)).map fun i => f (elem a i ty.width) (elem b i ty.width))

/-- Shifts of `w` bits by `n` (R101, R156). -/
def shl (w a n : Nat) : Nat := if n ≥ w then 0 else a * 2 ^ n % 2 ^ w
/-- Logical right shift. -/
def shr (w a n : Nat) : Nat := if n ≥ w then 0 else a % 2 ^ w / 2 ^ n
/-- Arithmetic right shift; all sign bits from `w` on. -/
def sra (w a n : Nat) : Nat := wrap w (signedVal w a / (2 ^ (if n ≥ w then w else n) : Nat))
/-- Rotates the low `w` bits left. -/
def rotl (w a n : Nat) : Nat := let m := n % w; (a * 2 ^ m % 2 ^ w) + a % 2 ^ w / 2 ^ (w - m)

/-- A bitwise complement within `w` bits. -/
def notBits (w a : Nat) : Nat := 2 ^ w - 1 - a % 2 ^ w

/-! ### The keyed generator (R180) -/

/-- The rotation counts of KG. -/
def kgRot : List Nat := [27, 41, 13, 52, 35, 19, 46, 9, 31, 58]

/-- The rounds of KG from round `i` on, over the rotation counts that are left. -/
def kgRounds : List Nat → Nat → DWord → DWord → DWord
  | [], _, x, _ => x
  | r :: rs, i, x, s =>
    let m : DWord := if i % 2 = 0 then 0xA3B1_95C2_7E4D_0F6B else 0xD58E_2C47_B913_6A05
    let x := x * m
    let x := x ^^^ (x >>> 29)
    let x := x.rotateLeft r ^^^ s
    kgRounds rs (i + 1) x (s + 0x8F3C_61D5_2A97_E4B3)

/-- KG(key, stream, coord): 32 bits (R180). -/
def kg (key : DWord) (stream : Nat) (coord : DWord) : Word :=
  let s : DWord := (BitVec.ofNat 64 stream <<< 32) ^^^ key.rotateLeft 32 ^^^ 0x6C0E_93A7_F25B_48D1
  let x := kgRounds kgRot 0 (coord ^^^ key) s
  x.extractLsb' 32 32 ^^^ x.extractLsb' 0 32

/-- The 16 bits that a stochastic rounding takes from a draw (R55). -/
def kg16 (key : DWord) (stream : Nat) (coord : Nat) : Nat := (kg key stream (BitVec.ofNat 64 coord)).toNat % 65536

end Sys2Proof.Machine
end

