-- ==== Sys2Proof/Machine/Mem.lean ====
section
/-! DEFINITION. Memory and translation: the home bytes of every space in one list of cells, owner tags and poison, the page-table walk,
the frame table, the TLBs and last-level lines, and the L1 copies (R198, R199, R233 to R245, R258 to R270, R284 to R286). -/

namespace Sys2Proof.Machine

open Sys2Proof

/-! ### Keys of cells

A cell's key names a byte of one of four spaces: local HBM by physical address, the vaults, a page of another device, the host. -/

/-- HBM capacity, 384 GiB (R1). -/
def hbmSize : Nat := 384 * 2 ^ 30

/-- The key of a vault byte (R258): the vault address, number in bits 29:23, offset in bits 22:0. -/
def vaultKey (a : Nat) : Nat := 2 ^ 44 + a

/-- The key of a byte of another device (R242). -/
def peerKey (peer asid va : Nat) : Nat := 2 ^ 80 + (peer * 2 ^ 12 + asid) * 2 ^ 56 + va

/-- The key of a byte of host memory (R252). -/
def hostKey (pasid va : Nat) : Nat := 2 ^ 120 + pasid * 2 ^ 64 + va

/-- The key is of host memory. -/
def hostHome (key : Nat) : Bool := decide (key ≥ 2 ^ 120)

/-- The key is of a page of another device. -/
def peerHome (key : Nat) : Bool := decide (2 ^ 80 ≤ key) && decide (key < 2 ^ 120)

/-- The device that a key of `peerHome` names. -/
def peerOf (key : Nat) : Nat := (key - 2 ^ 80) / 2 ^ 68

/-! ### The places of stored codes (R196)

A code error is listed by the block's number in HBM or a vault, else by one of these places. -/

/-- The place of a word of a code slot. -/
def codeErrKey (core slot word : Nat) : Nat := 2 ^ 125 + (core * 16 + slot) * 4096 + word

/-- The place of a block in a core's L1. -/
def l1ErrKey (core asid va : Nat) : Nat := 2 ^ 126 + (core * 2 ^ 12 + asid) * 2 ^ 50 + va / 64

/-- The place of a line of the last-level cache. -/
def llcErrKey (asid va : Nat) : Nat := 2 ^ 127 + asid * 2 ^ 56 + va / 64

/-- The place of a row of a cluster's accumulator store. -/
def accErrKey (cluster row : Nat) : Nat := 2 ^ 128 + cluster * 2 ^ 16 + row

/-- A byte at its home; a byte that nothing has written reads 0 (log entry 3). -/
def State.byte (s : State) (key : Nat) : Byte := SMap.get 0 s.mem key

/-- `n` bytes at their home. -/
def State.bytes (s : State) (key n : Nat) : List Byte := (List.range n).map fun i => s.byte (key + i)

/-- Bytes written into a memory from a key on. -/
def memWrite : List Host.Cell → Nat → List Byte → List Host.Cell
  | m, _, [] => m
  | m, k, b :: bs => memWrite (SMap.set 0 m k b) (k + 1) bs

/-- Entries put into a table from a key on. -/
def memPut {α : Type} : SMap α → Nat → List α → SMap α
  | m, _, [] => m
  | m, k, b :: bs => memPut (SMap.put m k b) (k + 1) bs

/-- The memory's canonical form: keys strictly rising and no listed byte equal to what an unlisted one reads as. -/
def Memory.wf (m : List Host.Cell) : Bool := SMap.wf 0 m

/-- A key of this package's own arrays: HBM or a vault. -/
def ownKey (key : Nat) : Bool := decide (key < 2 ^ 80)

/-- Writes bytes at their home with the owner tag of R198: `some asid` for a context, `none` for system software. -/
def State.poke (s : State) (key : Nat) (bs : List Byte) : State := { s with mem := memWrite s.mem key bs }

/-- Sets or clears the owner tag of a block (R198). -/
def State.setTag (s : State) (key : Nat) (asid : Option Nat) : State :=
  if ownKey key then
    match asid with
    | some a => { s with tags := SMap.put s.tags (key / 64) a }
    | none => { s with tags := SMap.del s.tags (key / 64) }
  else s

/-- 64 bits at an HBM address, little-endian. -/
def State.hbm64 (s : State) (pa : Nat) : Nat := leNat (s.bytes pa 8)

/-- The frame-table entry of a frame (R239). -/
def State.frameEntry (s : State) (f : Nat) : Nat := s.hbm64 (bits s.pkg.frtab.toNat 38 12 * 2 ^ 12 + 8 * f)

/-- The last-level lines of an HBM block are modified by a write, but for those of a frame of tables, which are written through (R240,
R447). -/
def State.modifyLines (s : State) (key : Nat) : State :=
  if key ≥ 2 ^ 44 ∨ !(s.lines.any fun e => e.2.pa / 64 == key / 64) || bit (s.frameEntry (key / 2 ^ 19)) 62 then s
  else { s with lines := s.lines.map fun e => if e.2.pa / 64 = key / 64 then (e.1, { e.2 with dirty := true }) else e }

/-- A write within one block at its home (R198, R199): a write of the whole block replaces its code and clears any poison (R197, R201); a
partial write to a poisoned block is not performed, and the answer says so. -/
def State.homeWrite (s : State) (asid : Option Nat) (key : Nat) (bs : List Byte) : State × Bool :=
  if key % 64 = 0 ∧ bs.length = 64 then
    (({ (s.poke key bs).setTag key asid with poison := SMap.del s.poison (key / 64), codeErrs := SMap.del s.codeErrs (key / 64) } :
      State).modifyLines key, true)
  else if SMap.get false s.poison (key / 64) then (s, false)
  else (((s.poke key bs).setTag key asid).modifyLines key, true)

/-- A write of any length, block by block, the first block holding `64 - key mod 64` bytes. -/
def State.writeRange : Nat → State → Option Nat → Nat → List Byte → State
  | 0, s, _, _, _ => s
  | fuel + 1, s, asid, key, bs =>
    if bs.isEmpty then s
    else
      let n := 64 - key % 64
      State.writeRange fuel (s.homeWrite asid key (bs.take n)).1 asid (key + n) (bs.drop n)

/-- Writes 64 bits at an HBM address, outside any context. -/
def State.pokeHbm64 (s : State) (pa v : Nat) : State := (s.homeWrite none pa (natLe 8 v)).1

/-! ### Page tables -/

/-- A context's registers; a free slot reads its reset values. -/
def State.ctx (s : State) (slot : Nat) : Ctx := SMap.get Ctx.reset s.ctxs slot

/-- Writes a context. -/
def State.setCtx (s : State) (slot : Nat) (c : Ctx) : State := { s with ctxs := SMap.put s.ctxs slot c }

/-- The state `CTXCTL`.ST of a context slot (R443). -/
def State.ctxSt (s : State) (slot : Nat) : Nat := bits (SMap.get 0 s.pkg.ctxctl slot).toNat 59 57

/-- The dispatch engine starts nothing of a context that is being saved, is saved, is being restored or destroyed, or has ended (R230, R443). -/
def State.ctxStopped (s : State) (slot : Nat) : Bool := decide (s.ctxSt slot ≥ 2) || s.pkg.dying.contains slot

/-- This device's peer number (R241). -/
def State.peerId (s : State) : Nat := bits s.pkg.peerid.toNat 8 0

/-- The index of an address at a level (R236). -/
def ptIndex (level va : Nat) : Nat :=
  match level with
  | 1 => bits va 55 43
  | 2 => bits va 42 31
  | 3 => bits va 30 25
  | _ => bits va 24 19

/-- The size of a table of a level (R236). -/
def ptSize (level : Nat) : Nat :=
  match level with
  | 1 => 65536
  | 2 => 32768
  | _ => 512

/-- The bytes of a page that a leaf of a level maps (R236). -/
def pageSize (level : Nat) : Nat :=
  match level with
  | 2 => 2 ^ 31
  | 3 => 2 ^ 25
  | _ => 2 ^ 19

/-- The leaf that an entry holds (R237). -/
def Leaf.ofEntry (level e : Nat) : Leaf :=
  { level := level, mode := bits e 61 60, r := bit e 59, w := bit e 58, a := bit e 57, x := bit e 56, peer := bits e 55 47,
    key := bits e 46 38, thr := bits e 37 35, res := bit e 34, frame := bits e 33 14 }

/-- The controller of a block (R234): half its home slice. -/
def homeCtrl (va : Nat) : Nat := (bits va 12 6 ^^^ bits va 18 13) / 2

/-- The die of a block's home slice (R234). -/
def homeDie (va : Nat) : Nat := homeCtrl va / 32

/-- An island's record. -/
def State.island (s : State) (n : Nat) : IslandRec := SMap.get IslandRec.reset s.islands n

/-- The core cycles that a cluster's clock has made; a stopped clock makes none (R6, R425, R428). -/
def State.ccOf (s : State) (v : Nat) : Nat :=
  let x := s.island v
  x.base + (if x.st = .run then (s.cc - x.from_) * x.mhz / 2000 else 0) - s.later

/-- The clock of a cluster's island in MHz (R428). -/
def State.clusterMhz (s : State) (v : Nat) : Nat := max 1 (s.island v).mhz

/-- The half reference cycles that `n` core cycles of a cluster last. -/
def State.ticks (s : State) (v n : Nat) : Nat := (n * 2000 + s.clusterMhz v - 1) / s.clusterMhz v

/-- The islands that an access to a block of a page needs: the segment of its home slice, of the eight slices by number, and the group of its HBM
controller where no line of the last level holds the block (R424, R426, log entry 41). -/
def State.blockIslands (s : State) (asid va : Nat) (here : Bool) : List Nat :=
  let hs := bits va 12 6 ^^^ bits va 18 13
  (96 + hs / 8) :: (if here && (SMap.find s.lines (asid * 2 ^ 56 + va / 64)).isNone then [112 + homeCtrl va / 8] else [])

/-- The bytes of an address space that an entry of a level stands for (R236). -/
def entrySpan (level : Nat) : Nat := if level ≤ 1 then 2 ^ 43 else pageSize level

/-- A non-leaf entry that the walk cache of an address's die holds (R235). -/
def State.cachedEntry (s : State) (asid va level : Nat) : Option WalkEntry :=
  s.walks.find? fun e => e.die == homeDie va && e.asid == asid && e.level == level && e.at_ == va / entrySpan level

/-- An entry as a walk meets it: from the walk cache, or read from the table at its address; a poisoned block holds no valid entry (R199, log
entry 65). -/
def State.tableEntry (s : State) (asid va level a : Nat) : Nat :=
  match s.cachedEntry asid va level with
  | some e => e.value
  | none => if SMap.get false s.poison (a / 64) then 0 else s.hbm64 a

/-- The walk (R238) from a table at a level; `fuel` is the number of levels that are left. -/
def walkFrom (s : State) (asid va : Nat) : Nat → Nat → Nat → Option Leaf
  | 0, _, _ => none
  | fuel + 1, level, t =>
    let e := s.tableEntry asid va level (t + 8 * ptIndex level va)
    if !bit e 63 then none
    else if bit e 62 then
      if level = 1 ∨ bits e 13 0 ≠ 0 then none else some (Leaf.ofEntry level e)
    else
      let next := bits e 38 9 * 2 ^ 9
      if level = 4 ∨ bits e 61 39 ≠ 0 ∨ bits e 8 0 ≠ 0 ∨ next % ptSize (level + 1) ≠ 0 ∨ next ≥ hbmSize then none
      else walkFrom s asid va fuel (level + 1) next

/-- The walk of a context's table (R236, R238). -/
def State.walk (s : State) (c : Ctx) (va : Nat) : Option Leaf :=
  if va ≥ 2 ^ 56 then none else walkFrom s c.asid va 4 1 (bits c.ptbase.toNat 38 16 * 2 ^ 16)

/-- The entries on the way of a walk: their levels, addresses and values. -/
def walkPath (s : State) (asid va : Nat) : Nat → Nat → Nat → List (Nat × Nat × Nat)
  | 0, _, _ => []
  | fuel + 1, level, t =>
    let a := t + 8 * ptIndex level va
    let e := s.tableEntry asid va level a
    (level, a, e) :: if bit e 63 && !bit e 62 then walkPath s asid va fuel (level + 1) (bits e 38 9 * 2 ^ 9) else []

/-- The entries on the way of a context's walk. -/
def State.path (s : State) (c : Ctx) (va : Nat) : List (Nat × Nat × Nat) :=
  walkPath s c.asid va 4 1 (bits c.ptbase.toNat 38 16 * 2 ^ 16)

/-- The addresses of the entries that a walk reads from the tables: those that the walk cache does not hold. -/
def State.walkPlaces (s : State) (c : Ctx) (va : Nat) : List Nat :=
  ((s.path c va).filter fun p => (s.cachedEntry c.asid va p.1).isNone).map fun p => p.2.1

/-- The leaf names a page of this device (R242). -/
def Leaf.isLocal (s : State) (l : Leaf) : Bool := l.mode != 3 && l.peer == s.peerId

/-- The islands that an access needs and that do not run (R426). -/
def State.darkFor (s : State) (c : Ctx) (va : Nat) (l : Leaf) : List Nat :=
  if s.islands.isEmpty then []
  else (s.blockIslands c.asid va (l.isLocal s)).filter fun i => (s.island i).st != .run

/-- The frame that backs an address of a local page (R238). -/
def Leaf.frameOf (l : Leaf) (va : Nat) : Nat := l.frame + va % pageSize l.level / 2 ^ 19

/-- The frame-table entry that a walk meets: from the cache of its die's walker, or from the table (R235, R239). -/
def State.walkFrame (s : State) (die f : Nat) : Nat :=
  match s.frames.find? fun e => e.die == die && e.frame == f with
  | some e => e.value
  | none => s.frameEntry f

/-- The frame and key checks of R238 on a local page. -/
def State.checkLocal (s : State) (c : Ctx) (va : Nat) (l : Leaf) : Option Cause :=
  let n := pageSize l.level / 2 ^ 19
  if l.frame % n ≠ 0 ∨ l.frame + n > 786432 then some .page
  else
    let e := s.walkFrame (homeDie va) (l.frameOf va)
    if !bit e 63 || bits e 61 50 != c.asid || bits e 49 13 != bits va 55 19 then some .aliased
    else if !s.pkg.memKeys.contains l.key then some .perm
    else none

/-- A TLB entry of an address's controller translates it. -/
def TlbEntry.serves (e : TlbEntry) (asid va : Nat) : Bool :=
  e.ctrl == homeCtrl va && e.asid == asid && e.page == va / pageSize e.leaf.level

/-- The leaf that governs an address: the one its last-level line keeps, else the TLB's unless its key slot is empty (R447), else what a walk that
passes R238's frame and key checks finds; or the cause that it fails with. -/
def State.leaf (s : State) (c : Ctx) (va : Nat) : Except Cause Leaf :=
  match SMap.find s.lines (c.asid * 2 ^ 56 + va / 64) with
  | some ln => .ok ln.leaf
  | none =>
    match s.tlb.find? fun e => e.serves c.asid va with
    | some e => if e.leaf.isLocal s && !s.pkg.memKeys.contains e.leaf.key then .error .perm else .ok e.leaf
    | none =>
      match s.walk c va with
      | none => .error .page
      | some l =>
        if l.isLocal s then
          match s.checkLocal c va l with
          | some f => .error f
          | none => .ok l
        else .ok l

/-- What a translation gives: the key of the byte at its home and the leaf; a fault; an absent page (R245); an ATS translation that the
host has still to answer (R252); or a page of this home whose requests queue (R249). -/
inductive Trans where
  | ok (key : Nat) (leaf : Leaf)
  | fault (c : Cause)
  | absent
  | ats (pasid va : Nat)
  | held
  deriving DecidableEq, Repr

/-- A page of this home is moving and its hold has begun: requests for it wait until it has gone (R249, R250). -/
def State.pageHeld (s : State) (c : Ctx) (va : Nat) : Bool :=
  s.moves.any fun m => m.held && m.home == s.peerId && m.asid == c.asid && m.va == va / 2 ^ 19 * 2 ^ 19

/-- The PASID of a context (R241). -/
def Ctx.pasid (c : Ctx) : Nat := bits c.pgcfg.toNat 19 0

/-- A leaf gives an access its right (R237). -/
def Leaf.allows (l : Leaf) : Acc → Bool
  | .read => l.r
  | .write => l.w
  | .atomic => l.a
  | .fetch => l.x

/-- The home key of an address under a leaf that is not HOST (R242). -/
def Leaf.key_ (l : Leaf) (s : State) (c : Ctx) (va : Nat) : Nat :=
  if l.isLocal s then l.frameOf va * 2 ^ 19 + va % 2 ^ 19 else peerKey l.peer c.asid va

/-- Translates an address for an access (R238, R242, R245, R252). A HOST page's rights are the leaf's AND the granted ones; where the host
grants less than the access needs, the page is not resident (R245). -/
def State.translate (s : State) (c : Ctx) (va : Nat) (acc : Acc) : Trans :=
  if va ≥ 2 ^ 56 then .fault .page
  else
    match s.leaf c va with
    | .error f => .fault f
    | .ok l =>
      if !l.allows acc then .fault .perm
      else if l.mode = 3 then
        if !l.res then .absent
        else
          match SMap.find s.ats (c.pasid * 2 ^ 52 + va / 4096) with
          | none => .ats c.pasid (va / 4096 * 4096)
          | some g =>
            if !g.r && !g.w then .absent
            else
              let granted := match acc with
                | .read | .fetch => g.r
                | .write => g.w
                | .atomic => g.r && g.w
              if granted then .ok (hostKey c.pasid va) l else .absent
      else if !l.res then .absent
      else if s.pageHeld c va || !(s.darkFor c va l).isEmpty then .held
      else .ok (l.key_ s c va) l

/-- The key of a byte of an address space: remote copies, and owner records by the word's first byte (R233, R284). -/
def spaceKey (asid va : Nat) : Nat := asid * 2 ^ 56 + va

/-- A MIGRATE leaf of a page that may move: 512 KiB (R242). -/
def Leaf.movable (l : Leaf) : Bool := l.mode == 2 && l.level == 4

/-- A page's counter in the migration table (R248). -/
def State.migCount (s : State) (asid va : Nat) : Option MigCount := s.migCounts.find? fun m => m.asid == asid && m.va == va

/-- The least count of a table, its first entry where several have it. -/
def leastCount : List MigCount → Option MigCount
  | [] => none
  | m :: ms =>
    match leastCount ms with
    | none => some m
    | some x => if x.count < m.count then some x else some m

/-- Sets a page's counter; a page that misses in the full table of 4,096 takes the entry with the smallest count (R248). -/
def State.setMigCount (s : State) (asid va n : Nat) : State :=
  let e : MigCount := { asid := asid, va := va, count := n }
  let same := fun (m : MigCount) => m.asid == asid && m.va == va
  if s.migCounts.any same then { s with migCounts := replaceWhere same (fun _ => e) s.migCounts }
  else
    let l := if s.migCounts.length < 4096 then s.migCounts
      else match leastCount s.migCounts with
        | some m => s.migCounts.erase m
        | none => s.migCounts
    { s with migCounts := l ++ [e] }

/-- `PGCFG`.MIGEN (R241). -/
def Ctx.migen (c : Ctx) : Bool := c.pgcfg.getLsbD 32

/-- A frame is left in the migration pool (R241). -/
def State.poolHas (s : State) : Bool := s.pkg.mptail != s.pkg.mphead

/-- Sends a message through the ports, which carry only management traffic until this device has its peer number (R442). -/
def State.sendPort (s : State) (m : OutMsg) : State := if s.pkg.partSet then { s with outbox := s.outbox ++ [m] } else s

/-- This device asks for a page (R249): the request is sent, unless `MIGEN` is 0, the pool is empty, or the ports carry only management traffic
(R442). -/
def State.requestMove (s : State) (c : Ctx) (slot va home : Nat) (ws : List HRef) : Option State :=
  if !c.migen || !s.poolHas || !s.pkg.partSet then none
  else
    let m : Move := {
      ctx := slot, asid := c.asid, va := va, home := home, target := s.peerId, agreed := true, frame := none, held := false, queue := [],
      waiters := ws }
    some { s with moves := s.moves ++ [m], outbox := s.outbox ++ [OutMsg.mreq home s.peerId c.asid va] }

/-- A last-level miss on a page of another device that may move counts toward its migration, which is requested at 2^(THR+5) (R248). -/
def State.countMiss (s : State) (slot : Nat) (c : Ctx) (va : Nat) (l : Leaf) : State :=
  if l.movable && !l.isLocal s && l.thr != 0 then
    let page := va / 2 ^ 19 * 2 ^ 19
    let n := min 65535 (((s.migCount c.asid page).map fun m => m.count).getD 0 + 1)
    if n ≥ 2 ^ (l.thr + 5) then
      let s := s.setMigCount c.asid page 0
      (s.requestMove c slot page l.peer []).getD s
    else s.setMigCount c.asid page n
  else s

/-- The first `n` entries of a list that belong to one cache, and every other cache's. -/
def keepFirst {α : Type} (mine : α → Bool) : Nat → List α → List α
  | _, [] => []
  | n, e :: es =>
    if !mine e then e :: keepFirst mine n es else if n = 0 then keepFirst mine 0 es else e :: keepFirst mine (n - 1) es

/-- The walker of an address's die keeps what a walk has read: 256 non-leaf entries and 1,024 frame-table entries, most recently used first
(R235; log entry 11). -/
def State.keepWalk (s : State) (c : Ctx) (va : Nat) (l : Leaf) : State :=
  let d := homeDie va
  let es := ((s.path c va).filter fun p => decide (p.1 < l.level)).map fun p =>
    ({ die := d, asid := c.asid, level := p.1, at_ := va / entrySpan p.1, value := p.2.2 } : WalkEntry)
  let walks := es.foldl (fun (m : List WalkEntry) e => keepFirst (fun x => x.die == d) 256 (e :: m.erase e)) s.walks
  let frames := if l.isLocal s then
      let e : FrameEntry := { die := d, frame := l.frameOf va, value := s.walkFrame d (l.frameOf va) }
      keepFirst (fun x => x.die == d) 1024 (e :: s.frames.erase e)
    else s.frames
  { s with walks := walks, frames := frames }

/-- Puts the translation of an address into its controller's TLB, which holds 2,048 entries, most recently used first; where the TLB did not hold
it a walk has found it (R235). -/
def State.fillTlb (s : State) (c : Ctx) (va : Nat) (l : Leaf) : State :=
  let e : TlbEntry := { ctrl := homeCtrl va, asid := c.asid, page := va / pageSize l.level, leaf := l }
  let s := if s.tlb.any fun x => x.serves c.asid va then s else s.keepWalk c va l
  { s with tlb := keepFirst (fun x => x.ctrl == e.ctrl) 2048 (e :: s.tlb.erase e) }

/-- The translation of an address enters its controller's TLB as an access uses it, that of an absent page too; a line of the last level needs
none, and one that fails is not held (R235). -/
def State.useTlb (s : State) (c : Ctx) (va : Nat) : State :=
  if va ≥ 2 ^ 56 ∨ (SMap.find s.lines (c.asid * 2 ^ 56 + va / 64)).isSome then s
  else match s.leaf c va with
    | .ok l => s.fillTlb c va l
    | .error _ => s

/-- The translations of the blocks of a range enter the TLBs of their controllers. -/
def State.useRange (s : State) (c : Ctx) (va n : Nat) : State :=
  (List.range ((va + n + 63) / 64 - va / 64)).foldl (fun (s : State) i => s.useTlb c ((va / 64 + i) * 64)) s

/-- Last-level lines go. The write-back of a modified one replaces the block and its code (R201); where its key slot has been cleared it is
discarded, and its block is poisoned (R447). -/
def State.dropLines (s : State) (p : Nat → Bool) : State :=
  let dirty := s.lines.filter fun e => p e.1 && e.2.dirty
  let lost := dirty.filter fun e => !s.pkg.memKeys.contains e.2.leaf.key
  { s with
    codeErrs := (dirty.filter fun e => s.pkg.memKeys.contains e.2.leaf.key).foldl (fun (m : SMap CodeErr) e => SMap.del m (e.2.pa / 64)) s.codeErrs
    lines := s.lines.filter fun e => !p e.1
    poison := lost.foldl (fun (m : SMap Bool) e => SMap.put m (e.2.pa / 64) true) s.poison }

/-- A die's last-level cache of 128 MiB holds at most 2,097,152 blocks (R1): beyond them one goes, of those that were loaded `.ev` where there
are any (R262); the spec does not name it (log entry 11). -/
def State.boundLlc (s : State) (die : Nat) : State :=
  let mine := s.lines.filter fun e => homeDie (e.1 % 2 ^ 56 * 64) == die
  if mine.length ≤ 2097152 then s
  else
    let first := mine.filter fun e => e.2.ev
    let cand := (if first.isEmpty then mine else first).map Prod.fst
    let r := s.freeCtr
    let k := (cand[(Config.freeValue r).toNat % cand.length]?).getD 0
    { s.dropLines (fun x => x == k) with
      remote := s.remote.filter fun e => !(e.1 / 2 ^ 56 == k / 2 ^ 56 && e.1 % 2 ^ 56 / 64 == k % 2 ^ 56)
      freeCtr := r + 1 }

/-- Puts the translation of an address that no line of the last level holds into its controller's TLB and, when the page is resident, its last-level line (R233, R235). HOST lines
are kept in L1 only (R252), and no line of a DIRECT remote page is kept (R242). -/
def State.fill (s : State) (c : Ctx) (va : Nat) (l : Leaf) (ev : Bool) : State :=
  let s := if (SMap.find s.lines (c.asid * 2 ^ 56 + va / 64)).isSome then s else s.fillTlb c va l
  if l.res && l.mode != 3 && (l.isLocal s || l.mode != 0) then
    let k := c.asid * 2 ^ 56 + va / 64
    let line : Line := { leaf := l, pa := l.key_ s c (va / 64 * 64), ev := ev, dirty := (SMap.find s.lines k).any fun x => x.dirty }
    ({ s with lines := SMap.put s.lines k line } : State).boundLlc (homeDie va)
  else s

/-! ### Copies in caches -/

/-- The key of a byte in a core's L1 (R233, R260). -/
def l1Key (core asid va : Nat) : Nat := (core * 2 ^ 12 + asid) * 2 ^ 56 + va

/-- A remote page whose lines the last-level cache may keep: CACHE or MIGRATE on another device (R242). -/
def Leaf.isCached (s : State) (l : Leaf) : Bool := !l.isLocal s && (l.mode == 1 || l.mode == 2)

/-- The eight bytes around an address are all held: copies serve a load, and are filled, by aligned 8-byte parts, so that a load takes each part
from one place (R280). -/
def held8 {α : Type} (m : SMap α) (key : Nat) (va : Nat) : Bool :=
  (List.range 8).all fun i => (SMap.find m (key + va / 8 * 8 + i)).isSome

/-- The last level holds a remote copy of the part that an address lies in. -/
def State.llcHolds (s : State) (c : Ctx) (va : Nat) (l : Leaf) : Bool := l.isCached s && held8 s.remote (spaceKey c.asid 0) va

/-- A core's L1 holds the part that an address lies in. -/
def State.l1Holds (s : State) (core : Nat) (c : Ctx) (va : Nat) : Bool := held8 s.l1 (l1Key core c.asid 0) va

/-- The translation that filled the block of a core's L1 which holds the part that an address lies in (R233). -/
def State.l1Leaf (s : State) (core : Nat) (c : Ctx) (va : Nat) : Option Leaf :=
  if s.l1Holds core c va then SMap.find s.l1Rights (l1Key core c.asid (va / 64 * 64)) else none

/-- Translates an address for an access of a core: a hit in its L1 is checked against the line's own rights and needs no other translation
(R233, R260); a load that hits does not reach the home of a page that is held. -/
def State.translateOn (s : State) (core : Nat) (c : Ctx) (va : Nat) (acc : Acc) : Trans :=
  match s.l1Leaf core c va with
  | none => s.translate c va acc
  | some l =>
    if !l.allows acc then .fault .perm
    else if l.mode = 3 then .ok (hostKey c.pasid va) l
    else if acc != .read && (s.pageHeld c va || !(s.darkFor c va l).isEmpty) then .held
    else .ok (l.key_ s c va) l

/-- The islands that an access waits for which finds them not running (R426). -/
def State.darkAt (s : State) (c : Ctx) (va : Nat) : List Nat :=
  match s.leaf c va with
  | .ok l => s.darkFor c va l
  | .error _ => []

/-- Islands are wanted: they wake (R426). -/
def State.wantIslands (s : State) (is : List Nat) : State := { s with gov := { s.gov with wanted := distinct (s.gov.wanted ++ is) } }

/-- A byte as the last level serves it: a remote copy where one is held, else the home byte (R260, R294). -/
def State.serveByte (s : State) (c : Ctx) (va key : Nat) (l : Leaf) : Byte :=
  if s.llcHolds c va l then SMap.get 0 s.remote (spaceKey c.asid va) else s.byte key

/-- A byte as a core's load sees it: its L1 copy where one is held, else what the last level serves. -/
def State.coreByte (s : State) (core : Nat) (c : Ctx) (va key : Nat) (l : Leaf) : Byte :=
  if s.l1Holds core c va then
    match SMap.find s.l1 (l1Key core c.asid va) with
    | some b => b.val
    | none => s.serveByte c va key l
  else s.serveByte c va key l

/-- Removes the copies of a 64-byte block from one L1. -/
def dropLine (l1 : SMap L1Byte) (line : Nat) : SMap L1Byte := l1.filter fun e => e.1 / 64 != line

/-- An L1 of 256 KiB holds at most 4,096 blocks (R1): beyond them one goes, which the spec does not name (log entry 11). -/
def State.boundL1 (s : State) (core : Nat) : State :=
  let lines := distinct ((s.l1.filter fun e => e.1 / 2 ^ 68 == core).map fun e => e.1 / 64)
  if lines.length ≤ 4096 then s
  else
    let r := s.freeCtr
    { s with l1 := dropLine s.l1 ((lines[(Config.freeValue r).toNat % lines.length]?).getD 0), freeCtr := r + 1 }


/-- The leaf that a line filled in an L1 keeps (R233): of a HOST page with the rights that the host grants (R252). -/
def State.lineLeaf (s : State) (c : Ctx) (va : Nat) (l : Leaf) : Leaf :=
  if l.mode = 3 then
    let g := (SMap.find s.ats (c.pasid * 2 ^ 52 + va / 4096)).getD { r := false, w := false }
    { l with r := l.r && g.r, w := l.w && g.w, a := l.a && g.r && g.w, x := l.x && g.r }
  else l

/-- A core's L1 takes bytes of a block with the translation that filled it (R233, R260). -/
def State.fillL1 (s : State) (core : Nat) (c : Ctx) (va : Nat) (l : Leaf) (bs : List Byte) : State :=
  ({ s with
    l1 := memPut s.l1 (l1Key core c.asid va) (bs.map fun b => { val := b, host := l.mode == 3 })
    l1Rights := SMap.put s.l1Rights (l1Key core c.asid (va / 64 * 64)) (s.lineLeaf c va l) } : State).boundL1 core

/-- Fills the L1 copy of an aligned 8-byte part that a load or prefetch makes, from what the last level serves, unless `.nc` (R260, R262, R267). A
block's other parts are not kept (log entry 11). -/
def State.keepPart (s : State) (core : Nat) (c : Ctx) (va key : Nat) (l : Leaf) (nc : Bool) : State :=
  if nc || s.l1Holds core c va || (peerHome key && !s.llcHolds c va l) then s
  else s.fillL1 core c va l ((List.range 8).map fun i => s.serveByte c (va + i) (key + i) l)

/-- Keeps the parts of `n` bytes from an address on. -/
def State.keepBytes (s : State) (core : Nat) (c : Ctx) (va key : Nat) (l : Leaf) (nc : Bool) (n : Nat) : State :=
  (List.range ((va + n + 7) / 8 - va / 8)).foldl (fun (s : State) i =>
    s.keepPart core c ((va / 8 + i) * 8) (key - va % 8 + 8 * i) l nc) s

/-- A block that its home has sent is kept: as a remote copy where the page's mode lets the last level keep it, and by a core's L1 (R242, R260,
R267, R269). -/
def State.keepBlock (s : State) (core : Option Nat) (c : Ctx) (va : Nat) (l : Leaf) (bs : List Byte) : State :=
  let bs := (List.range 64).map fun i => (bs[i]?).getD 0
  let s := if l.isCached s then { s with remote := memPut s.remote (spaceKey c.asid va) bs } else s
  match core with
  | some k => s.fillL1 k c va l bs
  | none => s

/-- Removes a core's L1 copies of a range of bytes. -/
def State.dropL1 (s : State) (core asid va n : Nat) : State :=
  { s with l1 := s.l1.filter fun e => !(decide (l1Key core asid va ≤ e.1) && decide (e.1 < l1Key core asid va + n)) }

/-- Writes a byte into the copies that hold it: the L1s of a writer's cores, and the local remote copy (R267). -/
def State.updateByte (s : State) (cores : List Nat) (asid va : Nat) (b : Byte) : State :=
  let s := cores.foldl (fun (s : State) k =>
    match SMap.find s.l1 (l1Key k asid va) with
    | some o => { s with l1 := SMap.put s.l1 (l1Key k asid va) { o with val := b } }
    | none => s) s
  if (SMap.find s.remote (spaceKey asid va)).isSome then { s with remote := SMap.put s.remote (spaceKey asid va) b } else s

/-- Makes a held copy of a registered word's bytes what the home holds (R267, R286). -/
def State.refreshByte (s : State) (cores : List Nat) (asid va key : Nat) : State := s.updateByte cores asid va (s.byte key)

/-- Drops the copies of every word that a write touches in the L1s of the writer's cores, and the local remote copy. -/
def State.dropCopies (s : State) (cores : List Nat) (asid va n : Nat) : State :=
  let lo := va / 4 * 4
  let m := (va + n + 3) / 4 * 4 - lo
  let s := cores.foldl (fun (s : State) k => s.dropL1 k asid lo m) s
  { s with remote := s.remote.filter fun e => !(decide (spaceKey asid lo ≤ e.1) && decide (e.1 < spaceKey asid lo + m)) }

/-- Refreshes the copies of every aligned 8-byte part that a write touches, so that no load sees a part from before and after another write
(R280). -/
def State.refreshCopies (s : State) (cores : List Nat) (asid va key n : Nat) : State :=
  (List.range (((va + n + 7) / 8 - va / 8) * 8)).foldl (fun (s : State) i =>
    s.refreshByte cores asid (va / 8 * 8 + i) (key - va % 8 + i)) s


/-- Removes every L1 copy of a range of an address space, on every core (R247, R253). -/
def State.dropL1All (s : State) (asid va n : Nat) : State :=
  { s with l1 := s.l1.filter fun e =>
      !(e.1 / 2 ^ 56 % 2 ^ 12 == asid && decide (va ≤ e.1 % 2 ^ 56) && decide (e.1 % 2 ^ 56 < va + n)) }

/-- The core number of an owner record that names no core of this device: the atomic units (R284). -/
def atomicOwner : Nat := 512

/-- An owner record that names a core of another device (R284). -/
def deviceOwner (peer core : Nat) : Nat := 1024 + peer * 512 + core

/-- What an acquire leaves of the remote copies: those of words that the device owns (R286, R290). -/
def ownedCopies (owners : SMap Nat) (remote : SMap Byte) : SMap Byte :=
  remote.filter fun e =>
    match SMap.find owners (e.1 / 4 * 4) with
    | some o => decide (o < atomicOwner)
    | none => false

/-- The blocks that satisfy a test are not kept when they come, but serve those who asked for them alone (R283, R286). -/
def State.keepNone (s : State) (p : RemAsk → Bool) : State :=
  { s with remAsks := s.remAsks.map fun a => if p a then { a with keep := false } else a }

/-- The acquire of R286 by a core: unowned L1 words and HOST lines of the core go, and the unowned remote copies of the device. -/
def State.acquire (s : State) (core : Nat) : State :=
  let s := s.keepNone fun _ => true
  { s with
    l1 := s.l1.filter fun e =>
      e.1 / 2 ^ 68 != core ||
        (!e.2.host && SMap.find s.owners (spaceKey (e.1 / 2 ^ 56 % 2 ^ 12) (e.1 % 2 ^ 56 / 4 * 4)) == some core)
    remote := ownedCopies s.owners s.remote }

/-- The acquire that an engine makes before its first read (R290): the unowned remote copies go, and the blocks that engines asked for before a
number are asked for again by whoever still needs them. -/
def State.engineAcquire (s : State) (before : Nat) : State :=
  let s := s.keepNone fun _ => true
  { s with
    remote := ownedCopies s.owners s.remote
    remAsks := s.remAsks.filter fun a => !(a.asker == .engine && a.op == .load 64 && decide (a.tag < before)) }

/-! ### Writes on their way to their home -/

/-- Two ranges of bytes of one home meet. -/
def meets (k1 n1 k2 n2 : Nat) : Bool := decide (k1 < k2 + n2) && decide (k2 < k1 + n1)

/-- Records a core as the owner of the words of a written range, and notes the revokes that this asks for (R284). -/
def State.ownWords (s : State) (core asid : Nat) (va n : Nat) : State :=
  let first := va / 4
  let count := (va + n + 3) / 4 - first
  (List.range count).foldl (fun (s : State) i =>
    let k := spaceKey asid ((first + i) * 4)
    let s := match SMap.find s.owners k with
      | some o =>
        if o = core ∨ o = atomicOwner then s
        else
          let r : Revoke := { no := s.nextId, core := o, asid := asid, va := (first + i) * 4, by_ := core }
          let s := { s with revokes := s.revokes ++ [r], nextId := s.nextId + 1 }
          if o < atomicOwner then s
          else s.sendPort (OutMsg.revoke ((o - 1024) / 512) asid ((first + i) * 4) ((o - 1024) % 512))
      | none => s
    { s with owners := SMap.put s.owners k core }) s

/-- A revoke of a core of this device: its L1 acknowledges it without a message. -/
def Revoke.isLocal (r : Revoke) : Bool := decide (r.core < atomicOwner)

/-- Completes a revoke: the word leaves the L1 of the core that held it (R284); another device has dropped its copies itself. -/
def State.ackRevoke (s : State) (r : Revoke) : State := if r.isLocal then s.dropL1 r.core r.asid r.va 4 else s

/-- Completes every revoke of a core of this device. -/
def State.ackAll (s : State) : State :=
  let t := (s.revokes.filter Revoke.isLocal).foldl State.ackRevoke s
  { t with revokes := t.revokes.filter fun r => !r.isLocal }

/-! ### Vault regions (R259) -/

/-- A vault address is valid for a grid: it lies in the region that the grid holds in the vault it names (R259). -/
def Grid.holdsVaultAt (g : Grid) (a : Nat) : Bool :=
  decide (a < 2 ^ 30) && decide (a / 2 ^ 23 ≤ 95) &&
    match SMap.find g.regions (a / 2 ^ 23) with
    | none => false
    | some b => decide (b ≤ a % 2 ^ 23) && decide (a % 2 ^ 23 < b + g.vbytes)

/-- A range of a vault lies wholly in the region that a grid holds in the vault that its address names (R259, R305). -/
def Grid.holdsVault (g : Grid) (a n : Nat) : Bool :=
  g.holdsVaultAt a &&
    match SMap.find g.regions (a / 2 ^ 23) with
    | none => false
    | some b => decide (a % 2 ^ 23 + n ≤ b + g.vbytes)

end Sys2Proof.Machine
end

