-- ==== Sys2Proof/Machine/Operands.lean ====
section
/-! DEFINITION. The operand forms: which registers each instruction names and how, the checks that decode makes on them in a team (R22, R79),
privilege (R80), price classes and units (R388 to R390), and the CSR numbers with their widths (R123 and the engine chapters). -/

namespace Sys2Proof.Machine

open Sys2Proof

/-- How an instruction uses a register (R22). `lsrc`: a lane reads `v` or its group's `s`; `lvsrc`: a lane reads `v` only; `ldst`: a lane writes
`v`; `usrc`, `udst`: a group reads, writes `s`; `uvsrc`: a gathering instruction reads `v`. -/
inductive UseKind where
  | lsrc | lvsrc | ldst | usrc | udst | uvsrc
  deriving DecidableEq, Repr

/-- A use of `n` consecutive registers from `r` on; `n` = 0 where the field names none. -/
structure Use where
  r : RegNo
  n : Nat
  kind : UseKind
  deriving DecidableEq, Repr

/-- What issue needs to know of an instruction word: its header, its pipe, price class and format column, whether it is team-scoped (R20),
privileged (R80) and long-latency (R76), its core cycles per pass (R162, R183, R277), and its table name. -/
structure Info where
  hdr : Hdr
  lane : Bool
  cls : Nat
  col : Nat
  team : Bool
  priv : Bool
  long : Bool
  cpp : Nat
  name : String
  deriving DecidableEq, Repr

/-- The registers that a J selector names (R72). -/
def Sel.uses : Sel → List Use
  | .reg n => [⟨192#8 + n.zeroExtend 8, 1, .usrc⟩]
  | _ => []

/-! ### CSR numbers -/

/-- A CSR's number of 32-bit words: 2 for a 64-bit CSR (R122, R123, R208, R241, R364, R391, R392, R414, R425, R451). -/
def csrWidthNat (n : Nat) : Nat :=
  if (4 ≤ n ∧ n ≤ 7) ∨ n = 0x00B ∨ n = 0x010 ∨ n = 0x012 ∨ n = 0x018 ∨ n = 0x020 ∨ (0x100 ≤ n ∧ n < 0x180) ∨
      (0x220 ≤ n ∧ n ≤ 0x225) ∨ (0x230 ≤ n ∧ n ≤ 0x23A) ∨ n = 0x240 ∨ n = 0x241 ∨ (0x250 ≤ n ∧ n ≤ 0x252) ∨
      (0x260 ≤ n ∧ n ≤ 0x262) ∨ (0x264 ≤ n ∧ n ≤ 0x267) ∨ (0x280 ≤ n ∧ n ≤ 0x284) then 2 else 1

/-- The width of the CSR that a 12-bit number names. -/
def csrWidth (n : BitVec 12) : Nat := csrWidthNat n.toNat

/-- The CSR numbers that a table assigns (R123 and the engine chapters). -/
def csrExists (n : Nat) : Bool :=
  n == 0 || n == 1 || (decide (4 ≤ n) && decide (n ≤ 0xB)) || (decide (0x10 ≤ n) && decide (n ≤ 0x15)) || n == 0x18 || n == 0x19 ||
  (decide (0x20 ≤ n) && decide (n ≤ 0x23)) || (decide (0x40 ≤ n) && decide (n < 0x80)) ||
  (decide (0x100 ≤ n) && decide (n < 0x180)) || n == 0x200 || (decide (0x210 ≤ n) && decide (n ≤ 0x212)) ||
  (decide (0x220 ≤ n) && decide (n ≤ 0x225)) || (decide (0x230 ≤ n) && decide (n ≤ 0x23A)) || n == 0x240 || n == 0x241 ||
  (decide (0x250 ≤ n) && decide (n ≤ 0x252)) || (decide (0x260 ≤ n) && decide (n ≤ 0x262)) ||
  (decide (0x264 ≤ n) && decide (n ≤ 0x267)) || (decide (0x270 ≤ n) && decide (n < 0x280)) ||
  (decide (0x280 ≤ n) && decide (n ≤ 0x284))

/-- The privileged CSRs (R95, R123, R203, R208, R241, R317, R364, R391, R392, R414, R425, R451). -/
def csrPriv (n : Nat) : Bool :=
  n == 0x00B || n == 0x18 || n == 0x19 || n == 0x200 || n == 0x212 || decide (0x220 ≤ n)

/-! ### Value checks -/

/-- A type that the A or B field of `FMT` allows (R112): 0, 8, 9, 11, 12, 15. -/
def fmtOperand (x : Nat) : Bool := x == 0 || x == 8 || x == 9 || x == 11 || x == 12 || x == 15

/-- A value of `FMT`[15:0] that `s.fmt` accepts (R112, R113). -/
def fmtOk (x : Nat) : Bool :=
  (bits x 15 12 == 8 || bits x 15 12 == 9 || bits x 15 12 == 10 || bits x 15 12 == 11 || bits x 15 12 == 12 || bits x 15 12 == 15) &&
  fmtOperand (bits x 11 8) && fmtOperand (bits x 7 4) && bits x 1 0 == 0 &&
  !(bit x 2 && (bits x 7 4 == 8 || bits x 7 4 == 9)) && !(bit x 3 && (bits x 11 8 == 8 || bits x 11 8 == 9))

/-- The word at an offset from a base word lies in the segment (R72, R104). -/
def pcReach (pc : BitVec 16) (off : Int) : Bool :=
  decide (0 ≤ (pc.toNat % 4096 : Nat) + off) && decide ((pc.toNat % 4096 : Nat) + off ≤ 4095)


/-- What issue needs to know of an instruction word (R100, R104, R154, R163, R204, R254, R264, R309, R322, R352, R382, R401). -/
def Instr.info : Instr → Option Info
  | .sAdd h ty _ _ _ => some ⟨h, false, 16, (ty.code).toNat, false, false, false, 1, "S_ADD"⟩
  | .sSub h ty _ _ _ => some ⟨h, false, 16, (ty.code).toNat, false, false, false, 1, "S_SUB"⟩
  | .sMul h ty _ _ _ => some ⟨h, false, 17, (ty.code).toNat, false, false, false, 1, "S_MUL"⟩
  | .sMulh h ty _ _ _ => some ⟨h, false, 17, (ty.code).toNat, false, false, false, 1, "S_MULH"⟩
  | .sAnd h ty _ _ _ => some ⟨h, false, 16, (ty.code).toNat, false, false, false, 1, "S_AND"⟩
  | .sOr h ty _ _ _ => some ⟨h, false, 16, (ty.code).toNat, false, false, false, 1, "S_OR"⟩
  | .sXor h ty _ _ _ => some ⟨h, false, 16, (ty.code).toNat, false, false, false, 1, "S_XOR"⟩
  | .sAndn h ty _ _ _ => some ⟨h, false, 16, (ty.code).toNat, false, false, false, 1, "S_ANDN"⟩
  | .sShl h ty _ _ _ => some ⟨h, false, 16, (ty.code).toNat, false, false, false, 1, "S_SHL"⟩
  | .sShr h ty _ _ _ => some ⟨h, false, 16, (ty.code).toNat, false, false, false, 1, "S_SHR"⟩
  | .sSra h ty _ _ _ => some ⟨h, false, 16, (ty.code).toNat, false, false, false, 1, "S_SRA"⟩
  | .sMin h ty _ _ _ => some ⟨h, false, 16, (ty.code).toNat, false, false, false, 1, "S_MIN"⟩
  | .sMax h ty _ _ _ => some ⟨h, false, 16, (ty.code).toNat, false, false, false, 1, "S_MAX"⟩
  | .sLea h ty _ _ _ _ => some ⟨h, false, 16, (ty.code).toNat, false, false, false, 1, "S_LEA"⟩
  | .sAddi h ty _ _ _ => some ⟨h, false, 16, (ty.code).toNat, false, false, false, 1, "S_ADDI"⟩
  | .sAndi h ty _ _ _ => some ⟨h, false, 16, (ty.code).toNat, false, false, false, 1, "S_ANDI"⟩
  | .sOri h ty _ _ _ => some ⟨h, false, 16, (ty.code).toNat, false, false, false, 1, "S_ORI"⟩
  | .sXori h ty _ _ _ => some ⟨h, false, 16, (ty.code).toNat, false, false, false, 1, "S_XORI"⟩
  | .sShli h ty _ _ _ => some ⟨h, false, 16, (ty.code).toNat, false, false, false, 1, "S_SHLI"⟩
  | .sShri h ty _ _ _ => some ⟨h, false, 16, (ty.code).toNat, false, false, false, 1, "S_SHRI"⟩
  | .sSrai h ty _ _ _ => some ⟨h, false, 16, (ty.code).toNat, false, false, false, 1, "S_SRAI"⟩
  | .sMovi h ty _ _ => some ⟨h, false, 16, (ty.code).toNat, false, false, false, 1, "S_MOVI"⟩
  | .sMovhi h _ _ => some ⟨h, false, 16, (13#4).toNat, false, false, false, 1, "S_MOVHI"⟩
  | .sCmp h _ ty _ _ _ => some ⟨h, false, 16, (ty.code).toNat, false, false, false, 1, "S_CMP"⟩
  | .sCmpi h _ ty _ _ _ => some ⟨h, false, 16, (ty.code).toNat, false, false, false, 1, "S_CMPI"⟩
  | .sSel h ty _ _ _ _ _ => some ⟨h, false, 16, (ty.code).toNat, false, false, false, 1, "S_SEL"⟩
  | .sMov h ty _ _ _ => some ⟨h, false, 16, (ty.code).toNat, false, false, false, 1, "S_MOV"⟩
  | .sVrd h ty _ _ _ _ => some ⟨h, false, 18, (ty.code).toNat, false, false, false, 1, "S_VRD"⟩
  | .sVrdf h ty _ _ _ => some ⟨h, false, 18, (ty.code).toNat, false, false, false, 1, "S_VRDF"⟩
  | .sQand h _ _ _ => some ⟨h, false, 16, (0#4).toNat, false, false, false, 1, "S_QAND"⟩
  | .sQor h _ _ _ => some ⟨h, false, 16, (0#4).toNat, false, false, false, 1, "S_QOR"⟩
  | .sQxor h _ _ _ => some ⟨h, false, 16, (0#4).toNat, false, false, false, 1, "S_QXOR"⟩
  | .sQany h _ _ => some ⟨h, false, 18, (0#4).toNat, false, false, false, 1, "S_QANY"⟩
  | .sQall h _ _ => some ⟨h, false, 18, (0#4).toNat, false, false, false, 1, "S_QALL"⟩
  | .sJmp h _ _ => some ⟨h, false, 19, (0#4).toNat, false, false, false, 1, "S_JMP"⟩
  | .sBr h _ _ _ => some ⟨h, false, 19, (0#4).toNat, false, false, false, 1, "S_BR"⟩
  | .sBrAll h _ _ _ => some ⟨h, false, 19, (0#4).toNat, false, false, false, 1, "S_BR_ALL"⟩
  | .sBrAny h _ _ _ => some ⟨h, false, 19, (0#4).toNat, false, false, false, 1, "S_BR_ANY"⟩
  | .sLoop h _ _ _ => some ⟨h, false, 19, (0#4).toNat, false, false, false, 1, "S_LOOP"⟩
  | .sCall h _ _ => some ⟨h, false, 19, (0#4).toNat, false, false, false, 1, "S_CALL"⟩
  | .sJr h _ _ => some ⟨h, false, 19, (0#4).toNat, false, false, false, 1, "S_JR"⟩
  | .sCallr h _ _ => some ⟨h, false, 19, (0#4).toNat, false, false, false, 1, "S_CALLR"⟩
  | .sBtab h _ _ _ => some ⟨h, false, 19, (0#4).toNat, false, false, false, 1, "S_BTAB"⟩
  | .sBtabc h _ _ _ => some ⟨h, false, 19, (0#4).toNat, false, false, false, 1, "S_BTABC"⟩
  | .sExit h => some ⟨h, false, 19, (0#4).toNat, false, false, false, 1, "S_EXIT"⟩
  | .sNop h => some ⟨h, false, 16, (0#4).toNat, false, false, false, 1, "S_NOP"⟩
  | .sBarSync h _ _ => some ⟨h, false, 20, (0#4).toNat, true, false, false, 1, "S_BAR_SYNC"⟩
  | .sBarArr h _ _ _ => some ⟨h, false, 20, (0#4).toNat, true, false, false, 1, "S_BAR_ARR"⟩
  | .sBarWait h _ _ => some ⟨h, false, 20, (0#4).toNat, true, false, false, 1, "S_BAR_WAIT"⟩
  | .sSleepu h _ => some ⟨h, false, 20, (0#4).toNat, true, false, false, 1, "S_SLEEPU"⟩
  | .sWait h _ _ => some ⟨h, false, 20, (0#4).toNat, true, false, false, 1, "S_WAIT"⟩
  | .sPoll h _ _ => some ⟨h, false, 20, (0#4).toNat, true, false, false, 1, "S_POLL"⟩
  | .sWaitall h => some ⟨h, false, 20, (0#4).toNat, true, false, false, 1, "S_WAITALL"⟩
  | .sFenceAcq h => some ⟨h, false, 20, (0#4).toNat, true, false, false, 1, "S_FENCE_ACQ"⟩
  | .sFenceRel h => some ⟨h, false, 20, (0#4).toNat, true, false, false, 1, "S_FENCE_REL"⟩
  | .sFenceAcqrel h => some ⟨h, false, 20, (0#4).toNat, true, false, false, 1, "S_FENCE_ACQREL"⟩
  | .sFenceSc h => some ⟨h, false, 20, (0#4).toNat, true, false, false, 1, "S_FENCE_SC"⟩
  | .sFmt h _ => some ⟨h, false, 21, (0#4).toNat, true, false, false, 1, "S_FMT"⟩
  | .sCsrr h _ _ => some ⟨h, false, 21, (0#4).toNat, false, false, false, 1, "S_CSRR"⟩
  | .sCsrw h _ _ => some ⟨h, false, 21, (0#4).toNat, true, false, false, 1, "S_CSRW"⟩
  | .sCsrs h _ _ => some ⟨h, false, 21, (0#4).toNat, true, false, false, 1, "S_CSRS"⟩
  | .sCsrc h _ _ => some ⟨h, false, 21, (0#4).toNat, true, false, false, 1, "S_CSRC"⟩
  | .sSeed h _ _ => some ⟨h, false, 21, (0#4).toNat, true, false, false, 1, "S_SEED"⟩
  | .sSeedmix h _ _ => some ⟨h, false, 21, (0#4).toNat, true, false, false, 1, "S_SEEDMIX"⟩
  | .sCfetch h _ _ _ => some ⟨h, false, 22, (0#4).toNat, true, false, true, 1, "S_CFETCH"⟩
  | .sCfetchReload h _ _ _ => some ⟨h, false, 22, (0#4).toNat, true, false, true, 1, "S_CFETCH_RELOAD"⟩
  | .sCstat h _ _ => some ⟨h, false, 16, (0#4).toNat, false, false, false, 1, "S_CSTAT"⟩
  | .sJmpf h _ => some ⟨h, false, 19, (0#4).toNat, true, false, false, 1, "S_JMPF"⟩
  | .sCfence h => some ⟨h, false, 19, (0#4).toNat, true, false, false, 1, "S_CFENCE"⟩
  | .sTrap h _ => some ⟨h, false, 23, (0#4).toNat, true, false, false, 1, "S_TRAP"⟩
  | .sBrk h _ => some ⟨h, false, 23, (0#4).toNat, true, false, false, 1, "S_BRK"⟩
  | .sRth h => some ⟨h, false, 23, (0#4).toNat, false, false, false, 1, "S_RTH"⟩
  | .vAdd h ty _ _ _ => some ⟨h, true, 0, (ty.code).toNat, false, false, false, (if ty.is64 then 2 else 1), "V_ADD"⟩
  | .vAdds h ty _ _ _ => some ⟨h, true, 0, (ty.code).toNat, false, false, false, (if ty.is64 then 2 else 1), "V_ADDS"⟩
  | .vSub h ty _ _ _ => some ⟨h, true, 0, (ty.code).toNat, false, false, false, (if ty.is64 then 2 else 1), "V_SUB"⟩
  | .vSubs h ty _ _ _ => some ⟨h, true, 0, (ty.code).toNat, false, false, false, (if ty.is64 then 2 else 1), "V_SUBS"⟩
  | .vMul h ty _ _ _ => some ⟨h, true, 1, (ty.code).toNat, false, false, false, (if ty.is64 then 2 else 1), "V_MUL"⟩
  | .vMulh h ty _ _ _ => some ⟨h, true, 1, (ty.code).toNat, false, false, false, (if ty.is64 then 2 else 1), "V_MULH"⟩
  | .vMulw h ty _ _ _ => some ⟨h, true, 1, (ty.code).toNat, false, false, false, 2, "V_MULW"⟩
  | .vMad h ty _ _ _ _ => some ⟨h, true, 1, (ty.code).toNat, false, false, false, (if ty.is64 then 2 else 1), "V_MAD"⟩
  | .vMadh h ty _ _ _ _ => some ⟨h, true, 1, (ty.code).toNat, false, false, false, (if ty.is64 then 2 else 1), "V_MADH"⟩
  | .vMadw h ty _ _ _ _ => some ⟨h, true, 1, (ty.code).toNat, false, false, false, 2, "V_MADW"⟩
  | .vDot4 h ty _ _ _ _ _ => some ⟨h, true, 2, (ty.code).toNat, false, false, false, (if ty.is64 then 2 else 1), "V_DOT4"⟩
  | .vDot4s h ty _ _ _ _ _ => some ⟨h, true, 2, (ty.code).toNat, false, false, false, (if ty.is64 then 2 else 1), "V_DOT4S"⟩
  | .vAnd h ty _ _ _ => some ⟨h, true, 0, (ty.code).toNat, false, false, false, (if ty.is64 then 2 else 1), "V_AND"⟩
  | .vOr h ty _ _ _ => some ⟨h, true, 0, (ty.code).toNat, false, false, false, (if ty.is64 then 2 else 1), "V_OR"⟩
  | .vXor h ty _ _ _ => some ⟨h, true, 0, (ty.code).toNat, false, false, false, (if ty.is64 then 2 else 1), "V_XOR"⟩
  | .vAndn h ty _ _ _ => some ⟨h, true, 0, (ty.code).toNat, false, false, false, (if ty.is64 then 2 else 1), "V_ANDN"⟩
  | .vShl h ty _ _ _ => some ⟨h, true, 0, (ty.code).toNat, false, false, false, (if ty.is64 then 2 else 1), "V_SHL"⟩
  | .vShr h ty _ _ _ => some ⟨h, true, 0, (ty.code).toNat, false, false, false, (if ty.is64 then 2 else 1), "V_SHR"⟩
  | .vSra h ty _ _ _ => some ⟨h, true, 0, (ty.code).toNat, false, false, false, (if ty.is64 then 2 else 1), "V_SRA"⟩
  | .vRotl h ty _ _ _ => some ⟨h, true, 0, (ty.code).toNat, false, false, false, (if ty.is64 then 2 else 1), "V_ROTL"⟩
  | .vRotr h ty _ _ _ => some ⟨h, true, 0, (ty.code).toNat, false, false, false, (if ty.is64 then 2 else 1), "V_ROTR"⟩
  | .vAddi h ty _ _ _ => some ⟨h, true, 0, (ty.code).toNat, false, false, false, (if ty.is64 then 2 else 1), "V_ADDI"⟩
  | .vAddis h ty _ _ _ => some ⟨h, true, 0, (ty.code).toNat, false, false, false, (if ty.is64 then 2 else 1), "V_ADDIS"⟩
  | .vAndi h ty _ _ _ => some ⟨h, true, 0, (ty.code).toNat, false, false, false, (if ty.is64 then 2 else 1), "V_ANDI"⟩
  | .vOri h ty _ _ _ => some ⟨h, true, 0, (ty.code).toNat, false, false, false, (if ty.is64 then 2 else 1), "V_ORI"⟩
  | .vXori h ty _ _ _ => some ⟨h, true, 0, (ty.code).toNat, false, false, false, (if ty.is64 then 2 else 1), "V_XORI"⟩
  | .vShli h ty _ _ _ => some ⟨h, true, 0, (ty.code).toNat, false, false, false, (if ty.is64 then 2 else 1), "V_SHLI"⟩
  | .vShri h ty _ _ _ => some ⟨h, true, 0, (ty.code).toNat, false, false, false, (if ty.is64 then 2 else 1), "V_SHRI"⟩
  | .vSrai h ty _ _ _ => some ⟨h, true, 0, (ty.code).toNat, false, false, false, (if ty.is64 then 2 else 1), "V_SRAI"⟩
  | .vRotli h ty _ _ _ => some ⟨h, true, 0, (ty.code).toNat, false, false, false, (if ty.is64 then 2 else 1), "V_ROTLI"⟩
  | .vMin h ty _ _ _ => some ⟨h, true, 0, (ty.code).toNat, false, false, false, (if ty.is64 then 2 else 1), "V_MIN"⟩
  | .vMax h ty _ _ _ => some ⟨h, true, 0, (ty.code).toNat, false, false, false, (if ty.is64 then 2 else 1), "V_MAX"⟩
  | .vFshl h _ _ _ _ => some ⟨h, true, 3, (13#4).toNat, false, false, false, 1, "V_FSHL"⟩
  | .vFshr h _ _ _ _ => some ⟨h, true, 3, (13#4).toNat, false, false, false, 1, "V_FSHR"⟩
  | .vBfx h ty _ _ _ => some ⟨h, true, 3, (ty.code).toNat, false, false, false, (if ty.is64 then 2 else 1), "V_BFX"⟩
  | .vBfi h _ _ _ _ => some ⟨h, true, 3, (13#4).toNat, false, false, false, 1, "V_BFI"⟩
  | .vPopc h ty _ _ => some ⟨h, true, 3, (ty.code).toNat, false, false, false, (if ty.is64 then 2 else 1), "V_POPC"⟩
  | .vClz h ty _ _ => some ⟨h, true, 3, (ty.code).toNat, false, false, false, (if ty.is64 then 2 else 1), "V_CLZ"⟩
  | .vCtz h ty _ _ => some ⟨h, true, 3, (ty.code).toNat, false, false, false, (if ty.is64 then 2 else 1), "V_CTZ"⟩
  | .vBrev h ty _ _ => some ⟨h, true, 3, (ty.code).toNat, false, false, false, (if ty.is64 then 2 else 1), "V_BREV"⟩
  | .vPerm h _ _ _ _ => some ⟨h, true, 3, (13#4).toNat, false, false, false, 1, "V_PERM"⟩
  | .vPerms h _ _ _ _ => some ⟨h, true, 3, (13#4).toNat, false, false, false, 1, "V_PERMS"⟩
  | .vCmp h _ ty _ _ _ => some ⟨h, true, 4, (ty.code).toNat, false, false, false, (if ty.is64 then 2 else 1), "V_CMP"⟩
  | .vCmpi h _ ty _ _ _ => some ⟨h, true, 4, (ty.code).toNat, false, false, false, (if ty.is64 then 2 else 1), "V_CMPI"⟩
  | .vSel h ty _ _ _ _ _ => some ⟨h, true, 0, (ty.code).toNat, false, false, false, (if ty.is64 then 2 else 1), "V_SEL"⟩
  | .vMov h ty _ _ => some ⟨h, true, 0, (ty.code).toNat, false, false, false, (if ty.is64 then 2 else 1), "V_MOV"⟩
  | .vLid h _ => some ⟨h, true, 0, (13#4).toNat, false, false, false, 1, "V_LID"⟩
  | .vGlid h _ => some ⟨h, true, 0, (13#4).toNat, false, false, false, 1, "V_GLID"⟩
  | .vMovi h ty _ _ => some ⟨h, true, 0, (ty.code).toNat, false, false, false, (if ty.is64 then 2 else 1), "V_MOVI"⟩
  | .vMovhi h _ _ => some ⟨h, true, 0, (13#4).toNat, false, false, false, 1, "V_MOVHI"⟩
  | .vCvt h ty ty2 _ _ _ _ => some ⟨h, true, 0, (ty.code).toNat, false, false, false, (if ty.is64 || ty2.is64 then 2 else 1), "V_CVT"⟩
  | .vLea h ty _ _ _ _ => some ⟨h, true, 0, (ty.code).toNat, false, false, false, (if ty.is64 then 2 else 1), "V_LEA"⟩
  | .vPand h _ _ _ => some ⟨h, true, 4, (0#4).toNat, false, false, false, 1, "V_PAND"⟩
  | .vPor h _ _ _ => some ⟨h, true, 4, (0#4).toNat, false, false, false, 1, "V_POR"⟩
  | .vPxor h _ _ _ => some ⟨h, true, 4, (0#4).toNat, false, false, false, 1, "V_PXOR"⟩
  | .vPandn h _ _ _ => some ⟨h, true, 4, (0#4).toNat, false, false, false, 1, "V_PANDN"⟩
  | .vPq h _ _ => some ⟨h, true, 4, (0#4).toNat, false, false, false, 1, "V_PQ"⟩
  | .vFadd h ty _ _ _ => some ⟨h, true, 5, (ty.code).toNat, false, false, false, 1, "V_FADD"⟩
  | .vFsub h ty _ _ _ => some ⟨h, true, 5, (ty.code).toNat, false, false, false, 1, "V_FSUB"⟩
  | .vFmul h ty _ _ _ => some ⟨h, true, 5, (ty.code).toNat, false, false, false, 1, "V_FMUL"⟩
  | .vFma h ty _ _ _ _ => some ⟨h, true, 5, (ty.code).toNat, false, false, false, 1, "V_FMA"⟩
  | .vFms h ty _ _ _ _ => some ⟨h, true, 5, (ty.code).toNat, false, false, false, 1, "V_FMS"⟩
  | .vFnma h ty _ _ _ _ => some ⟨h, true, 5, (ty.code).toNat, false, false, false, 1, "V_FNMA"⟩
  | .vFnms h ty _ _ _ _ => some ⟨h, true, 5, (ty.code).toNat, false, false, false, 1, "V_FNMS"⟩
  | .vFmin h ty _ _ _ => some ⟨h, true, 5, (ty.code).toNat, false, false, false, 1, "V_FMIN"⟩
  | .vFmax h ty _ _ _ => some ⟨h, true, 5, (ty.code).toNat, false, false, false, 1, "V_FMAX"⟩
  | .vFneg h ty _ _ => some ⟨h, true, 5, (ty.code).toNat, false, false, false, 1, "V_FNEG"⟩
  | .vFabs h ty _ _ => some ⟨h, true, 5, (ty.code).toNat, false, false, false, 1, "V_FABS"⟩
  | .vFcsgn h ty _ _ _ => some ⟨h, true, 5, (ty.code).toNat, false, false, false, 1, "V_FCSGN"⟩
  | .vFcmp h _ _ _ _ => some ⟨h, true, 5, (10#4).toNat, false, false, false, 1, "V_FCMP"⟩
  | .vFclass h _ _ => some ⟨h, true, 5, (10#4).toNat, false, false, false, 1, "V_FCLASS"⟩
  | .vFcvt h ty _ _ _ _ => some ⟨h, true, 5, (ty.code).toNat, false, false, false, 1, "V_FCVT"⟩
  | .vFcvtPk h ty _ _ _ => some ⟨h, true, 5, (ty.code).toNat, false, false, false, 1, "V_FCVT_PK"⟩
  | .vFtoi h ty _ _ _ _ => some ⟨h, true, 5, (ty.code).toNat, false, false, false, 1, "V_FTOI"⟩
  | .vItof h ty _ _ _ => some ⟨h, true, 5, (ty.code).toNat, false, false, false, 1, "V_ITOF"⟩
  | .vFscl h ty _ _ _ => some ⟨h, true, 6, (ty.code).toNat, false, false, false, 1, "V_FSCL"⟩
  | .vFqnt h ty _ _ _ => some ⟨h, true, 6, (ty.code).toNat, false, false, false, (if ty == .e2m1 then 4 else 2), "V_FQNT"⟩
  | .vFrcp h _ _ => some ⟨h, true, 7, (10#4).toNat, false, false, false, 4, "V_FRCP"⟩
  | .vFsqrt h _ _ => some ⟨h, true, 7, (10#4).toNat, false, false, false, 4, "V_FSQRT"⟩
  | .vFrsq h _ _ => some ⟨h, true, 7, (10#4).toNat, false, false, false, 4, "V_FRSQ"⟩
  | .vFexp2 h _ _ => some ⟨h, true, 7, (10#4).toNat, false, false, false, 4, "V_FEXP2"⟩
  | .vFlog2 h _ _ => some ⟨h, true, 7, (10#4).toNat, false, false, false, 4, "V_FLOG2"⟩
  | .vFrr h _ _ => some ⟨h, true, 7, (10#4).toNat, false, false, false, 4, "V_FRR"⟩
  | .vFrrTurn h _ _ => some ⟨h, true, 7, (10#4).toNat, false, false, false, 4, "V_FRR_TURN"⟩
  | .vFsin h _ _ => some ⟨h, true, 7, (10#4).toNat, false, false, false, 4, "V_FSIN"⟩
  | .vFcos h _ _ => some ⟨h, true, 7, (10#4).toNat, false, false, false, 4, "V_FCOS"⟩
  | .vFsincos h _ _ => some ⟨h, true, 7, (10#4).toNat, false, false, false, 8, "V_FSINCOS"⟩
  | .vFdot2 h _ _ _ _ _ => some ⟨h, true, 5, (10#4).toNat, false, false, false, 1, "V_FDOT2"⟩
  | .vShfl h ty _ _ _ => some ⟨h, true, 8, (ty.code).toNat, false, false, false, 1, "V_SHFL"⟩
  | .vShup h ty _ _ _ => some ⟨h, true, 8, (ty.code).toNat, false, false, false, 1, "V_SHUP"⟩
  | .vShdn h ty _ _ _ => some ⟨h, true, 8, (ty.code).toNat, false, false, false, 1, "V_SHDN"⟩
  | .vXswz h ty _ _ _ => some ⟨h, true, 8, (ty.code).toNat, false, false, false, 1, "V_XSWZ"⟩
  | .vBcast h ty _ _ _ => some ⟨h, true, 8, (ty.code).toNat, false, false, false, 1, "V_BCAST"⟩
  | .vBcastf h ty _ _ => some ⟨h, true, 8, (ty.code).toNat, false, false, false, 1, "V_BCASTF"⟩
  | .vMatch h ty _ _ => some ⟨h, true, 8, (ty.code).toNat, false, false, false, 1, "V_MATCH"⟩
  | .vVoteAny h _ _ => some ⟨h, true, 8, (0#4).toNat, false, false, false, 1, "V_VOTE_ANY"⟩
  | .vVoteAll h _ _ => some ⟨h, true, 8, (0#4).toNat, false, false, false, 1, "V_VOTE_ALL"⟩
  | .vBallot h _ _ => some ⟨h, true, 8, (0#4).toNat, false, false, false, 1, "V_BALLOT"⟩
  | .vRedAdd h ty _ _ => some ⟨h, true, 8, (ty.code).toNat, false, false, false, 2, "V_RED_ADD"⟩
  | .vRedMin h ty _ _ => some ⟨h, true, 8, (ty.code).toNat, false, false, false, 2, "V_RED_MIN"⟩
  | .vRedMax h ty _ _ => some ⟨h, true, 8, (ty.code).toNat, false, false, false, 2, "V_RED_MAX"⟩
  | .vRedAnd h _ _ => some ⟨h, true, 8, (13#4).toNat, false, false, false, 2, "V_RED_AND"⟩
  | .vRedOr h _ _ => some ⟨h, true, 8, (13#4).toNat, false, false, false, 2, "V_RED_OR"⟩
  | .vRedXor h _ _ => some ⟨h, true, 8, (13#4).toNat, false, false, false, 2, "V_RED_XOR"⟩
  | .vScanAdd h ty _ _ => some ⟨h, true, 8, (ty.code).toNat, false, false, false, 2, "V_SCAN_ADD"⟩
  | .vScanMin h ty _ _ => some ⟨h, true, 8, (ty.code).toNat, false, false, false, 2, "V_SCAN_MIN"⟩
  | .vScanMax h ty _ _ => some ⟨h, true, 8, (ty.code).toNat, false, false, false, 2, "V_SCAN_MAX"⟩
  | .vScanAddx h ty _ _ => some ⟨h, true, 8, (ty.code).toNat, false, false, false, 2, "V_SCAN_ADDX"⟩
  | .vKgen h _ _ _ _ => some ⟨h, true, 9, (13#4).toNat, false, false, false, 2, "V_KGEN"⟩
  | .vLd h ty _ _ _ _ m => some ⟨h, true, 10, (ty.code).toNat, false, false, true, (if m.q then 2 else 1), "V_LD"⟩
  | .vSt h ty _ _ _ _ m => some ⟨h, true, 11, (ty.code).toNat, false, false, true, (if m.q then 2 else 1), "V_ST"⟩
  | .vLdr h ty _ _ _ _ m _ => some ⟨h, true, 10, (ty.code).toNat, false, false, true, (if m.q then 2 else 1), "V_LDR"⟩
  | .vPf h _ _ _ _ => some ⟨h, true, 12, (0#4).toNat, false, false, false, 1, "V_PF"⟩
  | .vAtom h _ ty _ _ _ _ _ => some ⟨h, true, 13, (ty.code).toNat, false, false, true, 1, "V_ATOM"⟩
  | .vAtomn h _ ty _ _ _ _ => some ⟨h, true, 13, (ty.code).toNat, false, false, true, 1, "V_ATOMN"⟩
  | .vCas h ty _ _ _ _ _ => some ⟨h, true, 13, (ty.code).toNat, false, false, true, 1, "V_CAS"⟩
  | .ckRes h _ _ => some ⟨h, true, 0, (13#4).toNat, false, false, false, 1, "CK_RES"⟩
  | .ckVfy h ty _ _ => some ⟨h, true, 0, (ty.code).toNat, false, false, false, 1, "CK_VFY"⟩
  | .ckInjr h _ _ _ => some ⟨h, true, 0, (13#4).toNat, false, false, false, 1, "CK_INJR"⟩
  | .ckMcrd h _ _ => some ⟨h, true, 14, (14#4).toNat, false, false, false, 1, "CK_MCRD"⟩
  | .ckEcnt h _ _ => some ⟨h, true, 14, (13#4).toNat, false, false, false, 1, "CK_ECNT"⟩
  | .ckInjmGCe h _ => some ⟨h, true, 14, (0#4).toNat, false, true, true, 1, "CK_INJM_G_CE"⟩
  | .ckInjmGUe h _ => some ⟨h, true, 14, (0#4).toNat, false, true, true, 1, "CK_INJM_G_UE"⟩
  | .ckInjmVtCe h _ => some ⟨h, true, 14, (0#4).toNat, false, true, true, 1, "CK_INJM_VT_CE"⟩
  | .ckInjmVtUe h _ => some ⟨h, true, 14, (0#4).toNat, false, true, true, 1, "CK_INJM_VT_UE"⟩
  | .mxGang h _ _ _ => some ⟨h, false, 26, (0#4).toNat, true, false, false, 1, "MX_GANG"⟩
  | .mxFree h => some ⟨h, false, 26, (0#4).toNat, true, false, false, 1, "MX_FREE"⟩
  | .mxMma h _ _ _ _ _ _ _ => some ⟨h, false, 27, (0#4).toNat, true, false, false, 1, "MX_MMA"⟩
  | .mxZero h _ _ _ => some ⟨h, false, 28, (0#4).toNat, true, false, false, 1, "MX_ZERO"⟩
  | .mxLd h ty _ _ _ _ _ => some ⟨h, false, 28, (ty.code).toNat, true, false, false, 1, "MX_LD"⟩
  | .mxSt h _ _ _ _ _ _ _ => some ⟨h, false, 28, (0#4).toNat, true, false, false, 1, "MX_ST"⟩
  | .saOpen h _ _ _ _ => some ⟨h, false, 30, (0#4).toNat, true, false, false, 1, "SA_OPEN"⟩
  | .saClose h _ _ => some ⟨h, false, 30, (0#4).toNat, true, false, false, 1, "SA_CLOSE"⟩
  | .saNorm h _ _ _ _ => some ⟨h, false, 30, (0#4).toNat, true, false, false, 1, "SA_NORM"⟩
  | .saBuild h _ _ _ _ => some ⟨h, false, 30, (0#4).toNat, true, false, false, 1, "SA_BUILD"⟩
  | .saDraw h _ _ _ => some ⟨h, false, 30, (0#4).toNat, true, false, false, 1, "SA_DRAW"⟩
  | .saFin h _ _ => some ⟨h, false, 30, (0#4).toNat, true, false, false, 1, "SA_FIN"⟩
  | .saStat h _ _ => some ⟨h, false, 31, (0#4).toNat, true, false, true, 1, "SA_STAT"⟩
  | .cpCopy h _ _ _ _ _ => some ⟨h, false, 29, (0#4).toNat, true, false, false, 1, "CP_COPY"⟩
  | .cpMcast h _ _ _ _ _ _ => some ⟨h, false, 29, (0#4).toNat, true, false, false, 1, "CP_MCAST"⟩
  | .cpOff h _ _ _ _ _ _ => some ⟨h, false, 29, (0#4).toNat, true, false, false, 1, "CP_OFF"⟩
  | .cpRet h _ _ _ _ _ _ => some ⟨h, false, 29, (0#4).toNat, true, false, false, 1, "CP_RET"⟩
  | .cpProm h _ _ => some ⟨h, false, 21, (0#4).toNat, true, false, false, 1, "CP_PROM"⟩
  | .cpRenew h _ _ => some ⟨h, false, 21, (0#4).toNat, true, false, false, 1, "CP_RENEW"⟩
  | .cpCncl h _ _ => some ⟨h, false, 21, (0#4).toNat, true, false, false, 1, "CP_CNCL"⟩
  | .pgReq h _ _ => some ⟨h, false, 25, (0#4).toNat, true, false, false, 1, "PG_REQ"⟩
  | .pgProbe h _ _ => some ⟨h, false, 25, (0#4).toNat, true, false, true, 1, "PG_PROBE"⟩
  | .pgShoot h _ _ _ => some ⟨h, false, 25, (0#4).toNat, true, true, false, 1, "PG_SHOOT"⟩
  | .pgMig h _ _ _ => some ⟨h, false, 25, (0#4).toNat, true, true, false, 1, "PG_MIG"⟩
  | .pgCnt h _ _ => some ⟨h, false, 25, (0#4).toNat, true, true, true, 1, "PG_CNT"⟩
  | .clRun h _ _ _ _ _ => some ⟨h, false, 32, (0#4).toNat, true, false, false, 1, "CL_RUN"⟩
  | .clCncl h _ _ => some ⟨h, false, 32, (0#4).toNat, true, false, false, 1, "CL_CNCL"⟩
  | .clInfo h _ _ => some ⟨h, false, 32, (0#4).toNat, true, false, true, 1, "CL_INFO"⟩
  | .clProg h _ _ => some ⟨h, false, 32, (0#4).toNat, true, false, true, 1, "CL_PROG"⟩
  | .clAbort h _ _ => some ⟨h, false, 32, (0#4).toNat, true, true, false, 1, "CL_ABORT"⟩
  | .dpLaunch h _ _ _ => some ⟨h, false, 24, (0#4).toNat, true, false, false, 1, "DP_LAUNCH"⟩
  | .dpQstat h _ _ => some ⟨h, false, 24, (0#4).toNat, true, false, false, 1, "DP_QSTAT"⟩
  | .dpTadd h _ _ => some ⟨h, false, 24, (0#4).toNat, true, false, false, 1, "DP_TADD"⟩
  | .dpTdrop h _ _ => some ⟨h, false, 24, (0#4).toNat, true, false, false, 1, "DP_TDROP"⟩
  | .dpTdepth h _ => some ⟨h, false, 24, (0#4).toNat, true, false, false, 1, "DP_TDEPTH"⟩
  | .dpLsovf h => some ⟨h, false, 24, (0#4).toNat, true, false, false, 1, "DP_LSOVF"⟩
  | .dpLsstep h => some ⟨h, false, 24, (0#4).toNat, true, false, false, 1, "DP_LSSTEP"⟩
  | .tkPrice h _ _ => some ⟨h, false, 33, (0#4).toNat, false, false, false, 1, "TK_PRICE"⟩
  | .tkWait h _ => some ⟨h, false, 33, (0#4).toNat, true, false, false, 1, "TK_WAIT"⟩
  | .tkDbal h _ _ => some ⟨h, false, 33, (0#4).toNat, false, false, false, 1, "TK_DBAL"⟩
  | .tkIntent h _ _ _ => some ⟨h, false, 33, (0#4).toNat, true, false, false, 1, "TK_INTENT"⟩
  | .tkIcncl h _ _ => some ⟨h, false, 33, (0#4).toNat, true, false, false, 1, "TK_ICNCL"⟩
  | .coldBoot _ _ _ => none
  | .hostLinkDown => none
  | .ownerVacancy => none
  | .mclaimWrite _ => none
  | .macceptWrite _ _ => none
  | .mownPendWrite _ _ => none
  | .pendTimeout => none
  | .registerWrite _ _ _ => none
  | .hostWindowAccess _ _ _ _ => none
  | .ctxSaveCmd _ _ _ => none
  | .ctxRestoreCmd _ _ _ => none
  | .ctxDestroyCmd _ _ _ => none
  | .contextSave _ => none
  | .contextSaveComplete _ => none
  | .contextDestroyComplete _ => none
  | .partcfgWrite _ _ => none
  | .partWrite _ _ _ => none
  | .linkKeyZeroise _ => none
  | .memoryKeyInstall _ => none
  | .linkKeyInstall _ => none
  | .clearKeySlot _ => none
  | .attestationRequest _ => none
  | .priceTableWrite _ _ _ _ => none
  | .tkcoreWrite _ _ _ => none
  | .lscfgWrite _ _ _ => none
  | .wearCounterSave => none
  | .thermalCycleCount _ => none
  | .queueTableEntryWrite _ _ => none
  | .queueTailStore _ _ => none
  | .launchPacketConsume _ _ => none
  | .packetStart _ _ => none
  | .packPlace _ => none
  | .wholeGridPlace _ => none
  | .partialEviction _ => none
  | .evictionDrainDone _ => none
  | .teamRestore _ => none
  | .gridEnd _ => none
  | .tapeRunStart _ _ => none
  | .tapePop _ => none
  | .stepEndClose _ _ => none
  | .issueCycle _ => none
  | .mcrecReadable _ _ => none
  | .preciseStop _ => none
  | .asyncFault _ _ _ => none
  | .barrierArrival _ => none
  | .barrierRelease _ => none
  | .barrierTokenReturn _ => none
  | .handleCompleteWake _ => none
  | .sleepWake _ => none
  | .copyLateCheck _ => none
  | .cfetchLand _ _ => none
  | .coreRefill _ => none
  | .dieRefill => none
  | .reservationTake _ _ => none
  | .rampStep => none
  | .governorCycle => none
  | .intentReceive _ _ _ _ _ _ _ => none
  | .intentCancelReceive _ _ _ _ _ => none
  | .intentExpire _ => none
  | .islandIdle _ => none
  | .islandRetention _ => none
  | .islandWake _ => none
  | .islandWakeDone _ => none
  | .subarrayGate _ _ => none
  | .gangForm _ _ => none
  | .windowAllocate _ => none
  | .mmaLatchComplete _ _ => none
  | .mxPassGrant _ => none
  | .mxPassEnd _ _ => none
  | .mxWindowOpComplete _ _ => none
  | .saCommandStart _ _ => none
  | .saBatchPass _ _ => none
  | .saCommandComplete _ _ => none
  | .copyCommandStart _ _ => none
  | .copyComplete _ _ => none
  | .clProgramStart _ => none
  | .clStepStart _ => none
  | .clMessageArrive _ => none
  | .clStepComplete _ _ => none
  | .clStepTimeout _ _ => none
  | .clAbortArrive _ => none
  | .fabricPeerLost _ => none
  | .fabricPortDown _ => none
  | .llcMissTranslate _ _ _ => none
  | .pageWalkComplete _ _ => none
  | .remoteRequestArrive _ => none
  | .pendingRequestRewalk _ => none
  | .atsInvalidate _ _ _ => none
  | .priResponse _ _ _ => none
  | .mreqArrive _ _ _ => none
  | .migrationHold _ _ => none
  | .migrationSwitch _ _ _ _ => none
  | .homeStoreRegister _ => none
  | .revokeAck _ => none
  | .atomicApply _ => none
  | .loadDataReturn _ => none
  | .scrubRead => none
  | .hostLinkUp => none
  | .fabricPortUp _ => none
  | .powerLoss => none
  | .hoursAtTemperature _ => none
  | .atsTranslationCompletion _ _ _ _ => none
  | .zeroLengthReadComplete _ => none
  | .contextRestoreComplete _ => none
  | .migrationRefusal _ _ _ => none
  | .codeSlotPinExpiry _ _ => none

/-- The registers that an instruction word names, with their counts and uses (R21, R22, and the encoding tables). -/
def Instr.uses : Instr → List Use
  | .sAdd _ ty d a b => [⟨d, (if ty.is64 then 2 else 1), .udst⟩, ⟨a, (if ty.is64 then 2 else 1), .usrc⟩, ⟨b, (if ty.is64 then 2 else 1), .usrc⟩]
  | .sSub _ ty d a b => [⟨d, (if ty.is64 then 2 else 1), .udst⟩, ⟨a, (if ty.is64 then 2 else 1), .usrc⟩, ⟨b, (if ty.is64 then 2 else 1), .usrc⟩]
  | .sMul _ ty d a b => [⟨d, (if ty.is64 then 2 else 1), .udst⟩, ⟨a, (if ty.is64 then 2 else 1), .usrc⟩, ⟨b, (if ty.is64 then 2 else 1), .usrc⟩]
  | .sMulh _ ty d a b => [⟨d, (if ty.is64 then 2 else 1), .udst⟩, ⟨a, (if ty.is64 then 2 else 1), .usrc⟩, ⟨b, (if ty.is64 then 2 else 1), .usrc⟩]
  | .sAnd _ ty d a b => [⟨d, (if ty.is64 then 2 else 1), .udst⟩, ⟨a, (if ty.is64 then 2 else 1), .usrc⟩, ⟨b, (if ty.is64 then 2 else 1), .usrc⟩]
  | .sOr _ ty d a b => [⟨d, (if ty.is64 then 2 else 1), .udst⟩, ⟨a, (if ty.is64 then 2 else 1), .usrc⟩, ⟨b, (if ty.is64 then 2 else 1), .usrc⟩]
  | .sXor _ ty d a b => [⟨d, (if ty.is64 then 2 else 1), .udst⟩, ⟨a, (if ty.is64 then 2 else 1), .usrc⟩, ⟨b, (if ty.is64 then 2 else 1), .usrc⟩]
  | .sAndn _ ty d a b => [⟨d, (if ty.is64 then 2 else 1), .udst⟩, ⟨a, (if ty.is64 then 2 else 1), .usrc⟩, ⟨b, (if ty.is64 then 2 else 1), .usrc⟩]
  | .sShl _ ty d a b => [⟨d, (if ty.is64 then 2 else 1), .udst⟩, ⟨a, (if ty.is64 then 2 else 1), .usrc⟩, ⟨b, (if ty.is64 then 2 else 1), .usrc⟩]
  | .sShr _ ty d a b => [⟨d, (if ty.is64 then 2 else 1), .udst⟩, ⟨a, (if ty.is64 then 2 else 1), .usrc⟩, ⟨b, (if ty.is64 then 2 else 1), .usrc⟩]
  | .sSra _ ty d a b => [⟨d, (if ty.is64 then 2 else 1), .udst⟩, ⟨a, (if ty.is64 then 2 else 1), .usrc⟩, ⟨b, (if ty.is64 then 2 else 1), .usrc⟩]
  | .sMin _ ty d a b => [⟨d, (if ty.is64 then 2 else 1), .udst⟩, ⟨a, (if ty.is64 then 2 else 1), .usrc⟩, ⟨b, (if ty.is64 then 2 else 1), .usrc⟩]
  | .sMax _ ty d a b => [⟨d, (if ty.is64 then 2 else 1), .udst⟩, ⟨a, (if ty.is64 then 2 else 1), .usrc⟩, ⟨b, (if ty.is64 then 2 else 1), .usrc⟩]
  | .sLea _ _ d a b _ => [⟨d, 2, .udst⟩, ⟨a, 2, .usrc⟩, ⟨b, 1, .usrc⟩]
  | .sAddi _ ty d a _ => [⟨d, (if ty.is64 then 2 else 1), .udst⟩, ⟨a, (if ty.is64 then 2 else 1), .usrc⟩]
  | .sAndi _ ty d a _ => [⟨d, (if ty.is64 then 2 else 1), .udst⟩, ⟨a, (if ty.is64 then 2 else 1), .usrc⟩]
  | .sOri _ ty d a _ => [⟨d, (if ty.is64 then 2 else 1), .udst⟩, ⟨a, (if ty.is64 then 2 else 1), .usrc⟩]
  | .sXori _ ty d a _ => [⟨d, (if ty.is64 then 2 else 1), .udst⟩, ⟨a, (if ty.is64 then 2 else 1), .usrc⟩]
  | .sShli _ ty d a _ => [⟨d, (if ty.is64 then 2 else 1), .udst⟩, ⟨a, (if ty.is64 then 2 else 1), .usrc⟩]
  | .sShri _ ty d a _ => [⟨d, (if ty.is64 then 2 else 1), .udst⟩, ⟨a, (if ty.is64 then 2 else 1), .usrc⟩]
  | .sSrai _ ty d a _ => [⟨d, (if ty.is64 then 2 else 1), .udst⟩, ⟨a, (if ty.is64 then 2 else 1), .usrc⟩]
  | .sMovi _ ty d _ => [⟨d, (if ty.is64 then 2 else 1), .udst⟩]
  | .sMovhi _ d _ => [⟨d, 1, .udst⟩]
  | .sCmp _ _ ty _ a b => [⟨a, (if ty.is64 then 2 else 1), .usrc⟩, ⟨b, (if ty.is64 then 2 else 1), .usrc⟩]
  | .sCmpi _ _ ty _ a _ => [⟨a, (if ty.is64 then 2 else 1), .usrc⟩]
  | .sSel _ ty d a b _ _ => [⟨d, (if ty.is64 then 2 else 1), .udst⟩, ⟨a, (if ty.is64 then 2 else 1), .usrc⟩, ⟨b, (if ty.is64 then 2 else 1), .usrc⟩]
  | .sMov _ ty d a _ => [⟨d, (if ty.is64 then 2 else 1), .udst⟩, ⟨a, (if ty.is64 then 2 else 1), .usrc⟩]
  | .sVrd _ ty d a _ _ => [⟨d, (if ty.is64 then 2 else 1), .udst⟩, ⟨a, (if ty.is64 then 2 else 1), .uvsrc⟩]
  | .sVrdf _ ty d a _ => [⟨d, (if ty.is64 then 2 else 1), .udst⟩, ⟨a, (if ty.is64 then 2 else 1), .uvsrc⟩]
  | .sQand _ _ _ _ => []
  | .sQor _ _ _ _ => []
  | .sQxor _ _ _ _ => []
  | .sQany _ _ _ => []
  | .sQall _ _ _ => []
  | .sJmp _ _ _ => []
  | .sBr _ sel _ _ => Sel.uses sel
  | .sBrAll _ sel _ _ => Sel.uses sel
  | .sBrAny _ sel _ _ => Sel.uses sel
  | .sLoop _ n _ _ => [⟨192#8 + n.zeroExtend 8, 1, .usrc⟩, ⟨192#8 + n.zeroExtend 8, 1, .udst⟩]
  | .sCall _ _ _ => []
  | .sJr _ n _ => [⟨192#8 + n.zeroExtend 8, 1, .usrc⟩]
  | .sCallr _ n _ => [⟨192#8 + n.zeroExtend 8, 1, .usrc⟩]
  | .sBtab _ idx _ _ => [⟨idx, 1, .uvsrc⟩]
  | .sBtabc _ idx _ _ => [⟨idx, 1, .uvsrc⟩]
  | .sExit _ => []
  | .sNop _ => []
  | .sBarSync _ d _ => [⟨d, 1, .usrc⟩]
  | .sBarArr _ d _ c => [⟨d, 1, .udst⟩, ⟨c, 1, .usrc⟩]
  | .sBarWait _ d _ => [⟨d, 1, .usrc⟩]
  | .sSleepu _ a => [⟨a, 2, .usrc⟩]
  | .sWait _ d a => [⟨d, 1, .udst⟩, ⟨a, 1, .usrc⟩]
  | .sPoll _ d a => [⟨d, 1, .udst⟩, ⟨a, 1, .usrc⟩]
  | .sWaitall _ => []
  | .sFenceAcq _ => []
  | .sFenceRel _ => []
  | .sFenceAcqrel _ => []
  | .sFenceSc _ => []
  | .sFmt _ _ => []
  | .sCsrr _ d csr => [⟨d, (csrWidth csr), .udst⟩]
  | .sCsrw _ d csr => [⟨d, (csrWidth csr), .usrc⟩]
  | .sCsrs _ d csr => [⟨d, (csrWidth csr), .usrc⟩]
  | .sCsrc _ d csr => [⟨d, (csrWidth csr), .usrc⟩]
  | .sSeed _ _ a => [⟨a, 2, .usrc⟩]
  | .sSeedmix _ _ a => [⟨a, 2, .usrc⟩]
  | .sCfetch _ d a _ => [⟨d, 1, .udst⟩, ⟨a, 2, .usrc⟩]
  | .sCfetchReload _ d a _ => [⟨d, 1, .udst⟩, ⟨a, 2, .usrc⟩]
  | .sCstat _ d _ => [⟨d, 1, .udst⟩]
  | .sJmpf _ _ => []
  | .sCfence _ => []
  | .sTrap _ _ => []
  | .sBrk _ _ => []
  | .sRth _ => []
  | .vAdd _ ty d a b => [⟨d, (if ty.is64 then 2 else 1), .ldst⟩, ⟨a, (if ty.is64 then 2 else 1), .lsrc⟩, ⟨b, (if ty.is64 then 2 else 1), .lsrc⟩]
  | .vAdds _ ty d a b => [⟨d, (if ty.is64 then 2 else 1), .ldst⟩, ⟨a, (if ty.is64 then 2 else 1), .lsrc⟩, ⟨b, (if ty.is64 then 2 else 1), .lsrc⟩]
  | .vSub _ ty d a b => [⟨d, (if ty.is64 then 2 else 1), .ldst⟩, ⟨a, (if ty.is64 then 2 else 1), .lsrc⟩, ⟨b, (if ty.is64 then 2 else 1), .lsrc⟩]
  | .vSubs _ ty d a b => [⟨d, (if ty.is64 then 2 else 1), .ldst⟩, ⟨a, (if ty.is64 then 2 else 1), .lsrc⟩, ⟨b, (if ty.is64 then 2 else 1), .lsrc⟩]
  | .vMul _ ty d a b => [⟨d, (if ty.is64 then 2 else 1), .ldst⟩, ⟨a, (if ty.is64 then 2 else 1), .lsrc⟩, ⟨b, (if ty.is64 then 2 else 1), .lsrc⟩]
  | .vMulh _ ty d a b => [⟨d, (if ty.is64 then 2 else 1), .ldst⟩, ⟨a, (if ty.is64 then 2 else 1), .lsrc⟩, ⟨b, (if ty.is64 then 2 else 1), .lsrc⟩]
  | .vMulw _ _ d a b => [⟨d, 2, .ldst⟩, ⟨a, 1, .lsrc⟩, ⟨b, 1, .lsrc⟩]
  | .vMad _ ty d a b c => [⟨d, (if ty.is64 then 2 else 1), .ldst⟩, ⟨a, (if ty.is64 then 2 else 1), .lsrc⟩, ⟨b, (if ty.is64 then 2 else 1), .lsrc⟩, ⟨c, (if ty.is64 then 2 else 1), .lsrc⟩]
  | .vMadh _ ty d a b c => [⟨d, (if ty.is64 then 2 else 1), .ldst⟩, ⟨a, (if ty.is64 then 2 else 1), .lsrc⟩, ⟨b, (if ty.is64 then 2 else 1), .lsrc⟩, ⟨c, (if ty.is64 then 2 else 1), .lsrc⟩]
  | .vMadw _ _ d a b c => [⟨d, 2, .ldst⟩, ⟨a, 1, .lsrc⟩, ⟨b, 1, .lsrc⟩, ⟨c, 2, .lsrc⟩]
  | .vDot4 _ ty _ d a b c => [⟨d, (if ty.is64 then 2 else 1), .ldst⟩, ⟨a, (if ty.is64 then 2 else 1), .lsrc⟩, ⟨b, (if ty.is64 then 2 else 1), .lsrc⟩, ⟨c, (if ty.is64 then 2 else 1), .lsrc⟩]
  | .vDot4s _ ty _ d a b c => [⟨d, (if ty.is64 then 2 else 1), .ldst⟩, ⟨a, (if ty.is64 then 2 else 1), .lsrc⟩, ⟨b, (if ty.is64 then 2 else 1), .lsrc⟩, ⟨c, (if ty.is64 then 2 else 1), .lsrc⟩]
  | .vAnd _ ty d a b => [⟨d, (if ty.is64 then 2 else 1), .ldst⟩, ⟨a, (if ty.is64 then 2 else 1), .lsrc⟩, ⟨b, (if ty.is64 then 2 else 1), .lsrc⟩]
  | .vOr _ ty d a b => [⟨d, (if ty.is64 then 2 else 1), .ldst⟩, ⟨a, (if ty.is64 then 2 else 1), .lsrc⟩, ⟨b, (if ty.is64 then 2 else 1), .lsrc⟩]
  | .vXor _ ty d a b => [⟨d, (if ty.is64 then 2 else 1), .ldst⟩, ⟨a, (if ty.is64 then 2 else 1), .lsrc⟩, ⟨b, (if ty.is64 then 2 else 1), .lsrc⟩]
  | .vAndn _ ty d a b => [⟨d, (if ty.is64 then 2 else 1), .ldst⟩, ⟨a, (if ty.is64 then 2 else 1), .lsrc⟩, ⟨b, (if ty.is64 then 2 else 1), .lsrc⟩]
  | .vShl _ ty d a b => [⟨d, (if ty.is64 then 2 else 1), .ldst⟩, ⟨a, (if ty.is64 then 2 else 1), .lsrc⟩, ⟨b, (if ty.is64 then 2 else 1), .lsrc⟩]
  | .vShr _ ty d a b => [⟨d, (if ty.is64 then 2 else 1), .ldst⟩, ⟨a, (if ty.is64 then 2 else 1), .lsrc⟩, ⟨b, (if ty.is64 then 2 else 1), .lsrc⟩]
  | .vSra _ ty d a b => [⟨d, (if ty.is64 then 2 else 1), .ldst⟩, ⟨a, (if ty.is64 then 2 else 1), .lsrc⟩, ⟨b, (if ty.is64 then 2 else 1), .lsrc⟩]
  | .vRotl _ ty d a b => [⟨d, (if ty.is64 then 2 else 1), .ldst⟩, ⟨a, (if ty.is64 then 2 else 1), .lsrc⟩, ⟨b, (if ty.is64 then 2 else 1), .lsrc⟩]
  | .vRotr _ ty d a b => [⟨d, (if ty.is64 then 2 else 1), .ldst⟩, ⟨a, (if ty.is64 then 2 else 1), .lsrc⟩, ⟨b, (if ty.is64 then 2 else 1), .lsrc⟩]
  | .vAddi _ ty d a _ => [⟨d, (if ty.is64 then 2 else 1), .ldst⟩, ⟨a, (if ty.is64 then 2 else 1), .lsrc⟩]
  | .vAddis _ ty d a _ => [⟨d, (if ty.is64 then 2 else 1), .ldst⟩, ⟨a, (if ty.is64 then 2 else 1), .lsrc⟩]
  | .vAndi _ ty d a _ => [⟨d, (if ty.is64 then 2 else 1), .ldst⟩, ⟨a, (if ty.is64 then 2 else 1), .lsrc⟩]
  | .vOri _ ty d a _ => [⟨d, (if ty.is64 then 2 else 1), .ldst⟩, ⟨a, (if ty.is64 then 2 else 1), .lsrc⟩]
  | .vXori _ ty d a _ => [⟨d, (if ty.is64 then 2 else 1), .ldst⟩, ⟨a, (if ty.is64 then 2 else 1), .lsrc⟩]
  | .vShli _ ty d a _ => [⟨d, (if ty.is64 then 2 else 1), .ldst⟩, ⟨a, (if ty.is64 then 2 else 1), .lsrc⟩]
  | .vShri _ ty d a _ => [⟨d, (if ty.is64 then 2 else 1), .ldst⟩, ⟨a, (if ty.is64 then 2 else 1), .lsrc⟩]
  | .vSrai _ ty d a _ => [⟨d, (if ty.is64 then 2 else 1), .ldst⟩, ⟨a, (if ty.is64 then 2 else 1), .lsrc⟩]
  | .vRotli _ ty d a _ => [⟨d, (if ty.is64 then 2 else 1), .ldst⟩, ⟨a, (if ty.is64 then 2 else 1), .lsrc⟩]
  | .vMin _ ty d a b => [⟨d, (if ty.is64 then 2 else 1), .ldst⟩, ⟨a, (if ty.is64 then 2 else 1), .lsrc⟩, ⟨b, (if ty.is64 then 2 else 1), .lsrc⟩]
  | .vMax _ ty d a b => [⟨d, (if ty.is64 then 2 else 1), .ldst⟩, ⟨a, (if ty.is64 then 2 else 1), .lsrc⟩, ⟨b, (if ty.is64 then 2 else 1), .lsrc⟩]
  | .vFshl _ d a b c => [⟨d, 1, .ldst⟩, ⟨a, 1, .lsrc⟩, ⟨b, 1, .lsrc⟩, ⟨c, 1, .lsrc⟩]
  | .vFshr _ d a b c => [⟨d, 1, .ldst⟩, ⟨a, 1, .lsrc⟩, ⟨b, 1, .lsrc⟩, ⟨c, 1, .lsrc⟩]
  | .vBfx _ ty d a b => [⟨d, (if ty.is64 then 2 else 1), .ldst⟩, ⟨a, (if ty.is64 then 2 else 1), .lsrc⟩, ⟨b, (if ty.is64 then 2 else 1), .lsrc⟩]
  | .vBfi _ d a b c => [⟨d, 1, .ldst⟩, ⟨a, 1, .lsrc⟩, ⟨b, 1, .lsrc⟩, ⟨c, 1, .lsrc⟩]
  | .vPopc _ ty d a => [⟨d, 1, .ldst⟩, ⟨a, (if ty.is64 then 2 else 1), .lsrc⟩]
  | .vClz _ ty d a => [⟨d, 1, .ldst⟩, ⟨a, (if ty.is64 then 2 else 1), .lsrc⟩]
  | .vCtz _ ty d a => [⟨d, 1, .ldst⟩, ⟨a, (if ty.is64 then 2 else 1), .lsrc⟩]
  | .vBrev _ ty d a => [⟨d, (if ty.is64 then 2 else 1), .ldst⟩, ⟨a, (if ty.is64 then 2 else 1), .lsrc⟩]
  | .vPerm _ d a b c => [⟨d, 1, .ldst⟩, ⟨a, 1, .lsrc⟩, ⟨b, 1, .lsrc⟩, ⟨c, 1, .lsrc⟩]
  | .vPerms _ d a b c => [⟨d, 1, .ldst⟩, ⟨a, 1, .lsrc⟩, ⟨b, 1, .lsrc⟩, ⟨c, 1, .lsrc⟩]
  | .vCmp _ _ ty _ a b => [⟨a, (if ty.is64 then 2 else 1), .lsrc⟩, ⟨b, (if ty.is64 then 2 else 1), .lsrc⟩]
  | .vCmpi _ _ ty _ a _ => [⟨a, (if ty.is64 then 2 else 1), .lsrc⟩]
  | .vSel _ ty d a b _ _ => [⟨d, (if ty.is64 then 2 else 1), .ldst⟩, ⟨a, (if ty.is64 then 2 else 1), .lsrc⟩, ⟨b, (if ty.is64 then 2 else 1), .lsrc⟩]
  | .vMov _ ty d a => [⟨d, (if ty.is64 then 2 else 1), .ldst⟩, ⟨a, (if ty.is64 then 2 else 1), .lsrc⟩]
  | .vLid _ d => [⟨d, 1, .ldst⟩]
  | .vGlid _ d => [⟨d, 1, .ldst⟩]
  | .vMovi _ ty d _ => [⟨d, (if ty.is64 then 2 else 1), .ldst⟩]
  | .vMovhi _ d _ => [⟨d, 1, .ldst⟩]
  | .vCvt _ ty ty2 d a _ _ => [⟨d, (if ty.is64 then 2 else 1), .ldst⟩, ⟨a, (if ty2.is64 then 2 else 1), .lsrc⟩]
  | .vLea _ _ d a b _ => [⟨d, 2, .ldst⟩, ⟨a, 2, .lsrc⟩, ⟨b, 1, .lsrc⟩]
  | .vPand _ _ _ _ => []
  | .vPor _ _ _ _ => []
  | .vPxor _ _ _ _ => []
  | .vPandn _ _ _ _ => []
  | .vPq _ _ _ => []
  | .vFadd _ ty d a b => [⟨d, (if ty.is64 then 2 else 1), .ldst⟩, ⟨a, (if ty.is64 then 2 else 1), .lsrc⟩, ⟨b, (if ty.is64 then 2 else 1), .lsrc⟩]
  | .vFsub _ ty d a b => [⟨d, (if ty.is64 then 2 else 1), .ldst⟩, ⟨a, (if ty.is64 then 2 else 1), .lsrc⟩, ⟨b, (if ty.is64 then 2 else 1), .lsrc⟩]
  | .vFmul _ ty d a b => [⟨d, (if ty.is64 then 2 else 1), .ldst⟩, ⟨a, (if ty.is64 then 2 else 1), .lsrc⟩, ⟨b, (if ty.is64 then 2 else 1), .lsrc⟩]
  | .vFma _ ty d a b c => [⟨d, (if ty.is64 then 2 else 1), .ldst⟩, ⟨a, (if ty.is64 then 2 else 1), .lsrc⟩, ⟨b, (if ty.is64 then 2 else 1), .lsrc⟩, ⟨c, (if ty.is64 then 2 else 1), .lsrc⟩]
  | .vFms _ ty d a b c => [⟨d, (if ty.is64 then 2 else 1), .ldst⟩, ⟨a, (if ty.is64 then 2 else 1), .lsrc⟩, ⟨b, (if ty.is64 then 2 else 1), .lsrc⟩, ⟨c, (if ty.is64 then 2 else 1), .lsrc⟩]
  | .vFnma _ ty d a b c => [⟨d, (if ty.is64 then 2 else 1), .ldst⟩, ⟨a, (if ty.is64 then 2 else 1), .lsrc⟩, ⟨b, (if ty.is64 then 2 else 1), .lsrc⟩, ⟨c, (if ty.is64 then 2 else 1), .lsrc⟩]
  | .vFnms _ ty d a b c => [⟨d, (if ty.is64 then 2 else 1), .ldst⟩, ⟨a, (if ty.is64 then 2 else 1), .lsrc⟩, ⟨b, (if ty.is64 then 2 else 1), .lsrc⟩, ⟨c, (if ty.is64 then 2 else 1), .lsrc⟩]
  | .vFmin _ ty d a b => [⟨d, (if ty.is64 then 2 else 1), .ldst⟩, ⟨a, (if ty.is64 then 2 else 1), .lsrc⟩, ⟨b, (if ty.is64 then 2 else 1), .lsrc⟩]
  | .vFmax _ ty d a b => [⟨d, (if ty.is64 then 2 else 1), .ldst⟩, ⟨a, (if ty.is64 then 2 else 1), .lsrc⟩, ⟨b, (if ty.is64 then 2 else 1), .lsrc⟩]
  | .vFneg _ ty d a => [⟨d, (if ty.is64 then 2 else 1), .ldst⟩, ⟨a, (if ty.is64 then 2 else 1), .lsrc⟩]
  | .vFabs _ ty d a => [⟨d, (if ty.is64 then 2 else 1), .ldst⟩, ⟨a, (if ty.is64 then 2 else 1), .lsrc⟩]
  | .vFcsgn _ ty d a b => [⟨d, (if ty.is64 then 2 else 1), .ldst⟩, ⟨a, (if ty.is64 then 2 else 1), .lsrc⟩, ⟨b, (if ty.is64 then 2 else 1), .lsrc⟩]
  | .vFcmp _ _ _ a b => [⟨a, 1, .lsrc⟩, ⟨b, 1, .lsrc⟩]
  | .vFclass _ d a => [⟨d, 1, .ldst⟩, ⟨a, 1, .lsrc⟩]
  | .vFcvt _ ty _ d a _ => [⟨d, (if ty.is64 then 2 else 1), .ldst⟩, ⟨a, (if ty.is64 then 2 else 1), .lsrc⟩]
  | .vFcvtPk _ ty d a b => [⟨d, (if ty.is64 then 2 else 1), .ldst⟩, ⟨a, (if ty.is64 then 2 else 1), .lsrc⟩, ⟨b, (if ty.is64 then 2 else 1), .lsrc⟩]
  | .vFtoi _ ty _ d a _ => [⟨d, (if ty.is64 then 2 else 1), .ldst⟩, ⟨a, 1, .lsrc⟩]
  | .vItof _ ty ty2 d a => [⟨d, (if ty.is64 then 2 else 1), .ldst⟩, ⟨a, (if ty2.is64 then 2 else 1), .lsrc⟩]
  | .vFscl _ ty d a b => [⟨d, (if ty.is64 then 2 else 1), .ldst⟩, ⟨a, (if ty.is64 then 2 else 1), .lsrc⟩, ⟨b, (if ty.is64 then 2 else 1), .lsrc⟩]
  | .vFqnt _ ty d a b => [⟨d, (if ty.is64 then 2 else 1), .ldst⟩, ⟨a, (if ty == .e2m1 then 8 else 4), .lvsrc⟩, ⟨b, (if ty.is64 then 2 else 1), .lsrc⟩]
  | .vFrcp _ d a => [⟨d, 1, .ldst⟩, ⟨a, 1, .lsrc⟩]
  | .vFsqrt _ d a => [⟨d, 1, .ldst⟩, ⟨a, 1, .lsrc⟩]
  | .vFrsq _ d a => [⟨d, 1, .ldst⟩, ⟨a, 1, .lsrc⟩]
  | .vFexp2 _ d a => [⟨d, 1, .ldst⟩, ⟨a, 1, .lsrc⟩]
  | .vFlog2 _ d a => [⟨d, 1, .ldst⟩, ⟨a, 1, .lsrc⟩]
  | .vFrr _ d a => [⟨d, 1, .ldst⟩, ⟨a, 1, .lsrc⟩]
  | .vFrrTurn _ d a => [⟨d, 1, .ldst⟩, ⟨a, 1, .lsrc⟩]
  | .vFsin _ d a => [⟨d, 1, .ldst⟩, ⟨a, 1, .lsrc⟩]
  | .vFcos _ d a => [⟨d, 1, .ldst⟩, ⟨a, 1, .lsrc⟩]
  | .vFsincos _ d a => [⟨d, 2, .ldst⟩, ⟨a, 1, .lsrc⟩]
  | .vFdot2 _ _ d a b c => [⟨d, 1, .ldst⟩, ⟨a, 1, .lsrc⟩, ⟨b, 1, .lsrc⟩, ⟨c, 1, .lsrc⟩]
  | .vShfl _ ty d a b => [⟨d, (if ty.is64 then 2 else 1), .ldst⟩, ⟨a, (if ty.is64 then 2 else 1), .lsrc⟩, ⟨b, 1, .lsrc⟩]
  | .vShup _ ty d a _ => [⟨d, (if ty.is64 then 2 else 1), .ldst⟩, ⟨a, (if ty.is64 then 2 else 1), .lsrc⟩]
  | .vShdn _ ty d a _ => [⟨d, (if ty.is64 then 2 else 1), .ldst⟩, ⟨a, (if ty.is64 then 2 else 1), .lsrc⟩]
  | .vXswz _ ty d a _ => [⟨d, (if ty.is64 then 2 else 1), .ldst⟩, ⟨a, (if ty.is64 then 2 else 1), .lsrc⟩]
  | .vBcast _ ty d a _ => [⟨d, (if ty.is64 then 2 else 1), .ldst⟩, ⟨a, (if ty.is64 then 2 else 1), .lsrc⟩]
  | .vBcastf _ ty d a => [⟨d, (if ty.is64 then 2 else 1), .ldst⟩, ⟨a, (if ty.is64 then 2 else 1), .lsrc⟩]
  | .vMatch _ ty d a => [⟨d, 2, .ldst⟩, ⟨a, (if ty.is64 then 2 else 1), .lsrc⟩]
  | .vVoteAny _ _ _ => []
  | .vVoteAll _ _ _ => []
  | .vBallot _ d _ => [⟨d, 2, .ldst⟩]
  | .vRedAdd _ ty d a => [⟨d, (if ty.is64 then 2 else 1), .ldst⟩, ⟨a, (if ty.is64 then 2 else 1), .lsrc⟩]
  | .vRedMin _ ty d a => [⟨d, (if ty.is64 then 2 else 1), .ldst⟩, ⟨a, (if ty.is64 then 2 else 1), .lsrc⟩]
  | .vRedMax _ ty d a => [⟨d, (if ty.is64 then 2 else 1), .ldst⟩, ⟨a, (if ty.is64 then 2 else 1), .lsrc⟩]
  | .vRedAnd _ d a => [⟨d, 1, .ldst⟩, ⟨a, 1, .lsrc⟩]
  | .vRedOr _ d a => [⟨d, 1, .ldst⟩, ⟨a, 1, .lsrc⟩]
  | .vRedXor _ d a => [⟨d, 1, .ldst⟩, ⟨a, 1, .lsrc⟩]
  | .vScanAdd _ ty d a => [⟨d, (if ty.is64 then 2 else 1), .ldst⟩, ⟨a, (if ty.is64 then 2 else 1), .lsrc⟩]
  | .vScanMin _ ty d a => [⟨d, (if ty.is64 then 2 else 1), .ldst⟩, ⟨a, (if ty.is64 then 2 else 1), .lsrc⟩]
  | .vScanMax _ ty d a => [⟨d, (if ty.is64 then 2 else 1), .ldst⟩, ⟨a, (if ty.is64 then 2 else 1), .lsrc⟩]
  | .vScanAddx _ ty d a => [⟨d, (if ty.is64 then 2 else 1), .ldst⟩, ⟨a, (if ty.is64 then 2 else 1), .lsrc⟩]
  | .vKgen _ d a b c => [⟨d, 1, .ldst⟩, ⟨a, 2, .lsrc⟩, ⟨b, 2, .lvsrc⟩, ⟨c, 1, .lsrc⟩]
  | .vLd _ ty d a b _ m => [⟨d, (if m.q then 4 else if ty.is64 then 2 else 1), .ldst⟩, ⟨a, (if m.sp then 1 else 2), .lsrc⟩, ⟨b, (if m.ix then 1 else 0), .lsrc⟩]
  | .vSt _ ty d a b _ m => [⟨d, (if m.q then 4 else if ty.is64 then 2 else 1), .lsrc⟩, ⟨a, (if m.sp then 1 else 2), .lsrc⟩, ⟨b, (if m.ix then 1 else 0), .lsrc⟩]
  | .vLdr _ ty d a b _ m _ => [⟨d, (if m.q then 4 else if ty.is64 then 2 else 1), .ldst⟩, ⟨a, (if m.sp then 1 else 2), .lsrc⟩, ⟨b, (if m.ix then 1 else 0), .lsrc⟩]
  | .vPf _ a b _ m => [⟨a, 2, .lsrc⟩, ⟨b, (if m.ix then 1 else 0), .lsrc⟩]
  | .vAtom _ aop ty d a b _ sp => [⟨d, (if ty.is64 then 2 else 1), .ldst⟩, ⟨a, (if sp then 1 else 2), .lsrc⟩, ⟨b, (if aop == .rr then 0 else if ty.is64 then 2 else 1), .lsrc⟩]
  | .vAtomn _ aop ty a b _ sp => [⟨a, (if sp then 1 else 2), .lsrc⟩, ⟨b, (if aop == .rr then 0 else if ty.is64 then 2 else 1), .lsrc⟩]
  | .vCas _ ty d a b _ sp => [⟨d, (if ty.is64 then 2 else 1), .ldst⟩, ⟨a, (if sp then 1 else 2), .lsrc⟩, ⟨b, (if ty.is64 then 4 else 2), .lsrc⟩]
  | .ckRes _ d a => [⟨d, 1, .ldst⟩, ⟨a, 1, .lsrc⟩]
  | .ckVfy _ ty _ a => [⟨a, (if ty.is64 then 2 else 1), .lsrc⟩]
  | .ckInjr _ d a b => [⟨d, 1, .ldst⟩, ⟨a, 1, .lsrc⟩, ⟨b, 1, .lsrc⟩]
  | .ckMcrd _ d a => [⟨d, 2, .ldst⟩, ⟨a, 1, .lsrc⟩]
  | .ckEcnt _ d a => [⟨d, 1, .ldst⟩, ⟨a, 1, .lsrc⟩]
  | .ckInjmGCe _ a => [⟨a, 2, .lvsrc⟩]
  | .ckInjmGUe _ a => [⟨a, 2, .lvsrc⟩]
  | .ckInjmVtCe _ a => [⟨a, 1, .lvsrc⟩]
  | .ckInjmVtUe _ a => [⟨a, 1, .lvsrc⟩]
  | .mxGang _ d a b => [⟨d, 1, .udst⟩, ⟨a, 1, .usrc⟩, ⟨b, 1, .usrc⟩]
  | .mxFree _ => []
  | .mxMma _ d a b c _ _ _ => [⟨d, 1, .udst⟩, ⟨a, 2, .usrc⟩, ⟨b, 2, .usrc⟩, ⟨c, 1, .usrc⟩]
  | .mxZero _ d a c => [⟨d, 1, .udst⟩, ⟨a, 1, .usrc⟩, ⟨c, 1, .usrc⟩]
  | .mxLd _ _ d a c _ _ => [⟨d, 1, .udst⟩, ⟨a, 1, .usrc⟩, ⟨c, 1, .usrc⟩]
  | .mxSt _ d a c _ _ _ _ => [⟨d, 1, .udst⟩, ⟨a, 1, .usrc⟩, ⟨c, 1, .usrc⟩]
  | .saOpen _ d a b c => [⟨d, 1, .udst⟩, ⟨a, 2, .usrc⟩, ⟨b, 2, .usrc⟩, ⟨c, 2, .usrc⟩]
  | .saClose _ d a => [⟨d, 1, .udst⟩, ⟨a, 1, .usrc⟩]
  | .saNorm _ d a b _ => [⟨d, 1, .udst⟩, ⟨a, 1, .usrc⟩, ⟨b, 1, .usrc⟩]
  | .saBuild _ d a b c => [⟨d, 1, .udst⟩, ⟨a, 1, .usrc⟩, ⟨b, 2, .usrc⟩, ⟨c, 4, .usrc⟩]
  | .saDraw _ d a _ => [⟨d, 1, .udst⟩, ⟨a, 1, .usrc⟩]
  | .saFin _ d a => [⟨d, 1, .udst⟩, ⟨a, 1, .usrc⟩]
  | .saStat _ d a => [⟨d, 1, .udst⟩, ⟨a, 1, .usrc⟩]
  | .cpCopy _ d a b _ _ => [⟨d, 1, .udst⟩, ⟨a, 1, .usrc⟩, ⟨b, 1, .usrc⟩]
  | .cpMcast _ d a b c _ _ => [⟨d, 1, .udst⟩, ⟨a, 1, .usrc⟩, ⟨b, 1, .usrc⟩, ⟨c, 4, .usrc⟩]
  | .cpOff _ d a b c _ _ => [⟨d, 1, .udst⟩, ⟨a, 1, .usrc⟩, ⟨b, 1, .usrc⟩, ⟨c, 1, .usrc⟩]
  | .cpRet _ d a b c _ _ => [⟨d, 1, .udst⟩, ⟨a, 1, .usrc⟩, ⟨b, 1, .usrc⟩, ⟨c, 1, .usrc⟩]
  | .cpProm _ d a => [⟨d, 2, .udst⟩, ⟨a, 1, .usrc⟩]
  | .cpRenew _ d a => [⟨d, 2, .udst⟩, ⟨a, 1, .usrc⟩]
  | .cpCncl _ d a => [⟨d, 1, .udst⟩, ⟨a, 1, .usrc⟩]
  | .pgReq _ d a => [⟨d, 1, .udst⟩, ⟨a, 2, .usrc⟩]
  | .pgProbe _ d a => [⟨d, 1, .udst⟩, ⟨a, 2, .usrc⟩]
  | .pgShoot _ d a b => [⟨d, 1, .udst⟩, ⟨a, 2, .usrc⟩, ⟨b, 1, .usrc⟩]
  | .pgMig _ d a b => [⟨d, 1, .udst⟩, ⟨a, 2, .usrc⟩, ⟨b, 1, .usrc⟩]
  | .pgCnt _ d a => [⟨d, 1, .udst⟩, ⟨a, 2, .usrc⟩]
  | .clRun _ d a b _ _ => [⟨d, 1, .udst⟩, ⟨a, 2, .usrc⟩, ⟨b, 1, .usrc⟩]
  | .clCncl _ d a => [⟨d, 1, .udst⟩, ⟨a, 1, .usrc⟩]
  | .clInfo _ d a => [⟨d, 1, .udst⟩, ⟨a, 1, .usrc⟩]
  | .clProg _ d a => [⟨d, 1, .udst⟩, ⟨a, 1, .usrc⟩]
  | .clAbort _ d a => [⟨d, 1, .udst⟩, ⟨a, 1, .usrc⟩]
  | .dpLaunch _ d a b => [⟨d, 1, .udst⟩, ⟨a, 2, .usrc⟩, ⟨b, 1, .usrc⟩]
  | .dpQstat _ d b => [⟨d, 1, .udst⟩, ⟨b, 1, .usrc⟩]
  | .dpTadd _ d a => [⟨d, 1, .udst⟩, ⟨a, 2, .usrc⟩]
  | .dpTdrop _ d a => [⟨d, 1, .udst⟩, ⟨a, 1, .usrc⟩]
  | .dpTdepth _ d => [⟨d, 1, .udst⟩]
  | .dpLsovf _ => []
  | .dpLsstep _ => []
  | .tkPrice _ d a => [⟨d, 1, .udst⟩, ⟨a, 1, .usrc⟩]
  | .tkWait _ a => [⟨a, 1, .usrc⟩]
  | .tkDbal _ d a => [⟨d, 1, .udst⟩, ⟨a, 1, .usrc⟩]
  | .tkIntent _ d a b => [⟨d, 1, .udst⟩, ⟨a, 1, .usrc⟩, ⟨b, 1, .usrc⟩]
  | .tkIcncl _ d a => [⟨d, 1, .udst⟩, ⟨a, 1, .usrc⟩]
  | .coldBoot _ _ _ => []
  | .hostLinkDown => []
  | .ownerVacancy => []
  | .mclaimWrite _ => []
  | .macceptWrite _ _ => []
  | .mownPendWrite _ _ => []
  | .pendTimeout => []
  | .registerWrite _ _ _ => []
  | .hostWindowAccess _ _ _ _ => []
  | .ctxSaveCmd _ _ _ => []
  | .ctxRestoreCmd _ _ _ => []
  | .ctxDestroyCmd _ _ _ => []
  | .contextSave _ => []
  | .contextSaveComplete _ => []
  | .contextDestroyComplete _ => []
  | .partcfgWrite _ _ => []
  | .partWrite _ _ _ => []
  | .linkKeyZeroise _ => []
  | .memoryKeyInstall _ => []
  | .linkKeyInstall _ => []
  | .clearKeySlot _ => []
  | .attestationRequest _ => []
  | .priceTableWrite _ _ _ _ => []
  | .tkcoreWrite _ _ _ => []
  | .lscfgWrite _ _ _ => []
  | .wearCounterSave => []
  | .thermalCycleCount _ => []
  | .queueTableEntryWrite _ _ => []
  | .queueTailStore _ _ => []
  | .launchPacketConsume _ _ => []
  | .packetStart _ _ => []
  | .packPlace _ => []
  | .wholeGridPlace _ => []
  | .partialEviction _ => []
  | .evictionDrainDone _ => []
  | .teamRestore _ => []
  | .gridEnd _ => []
  | .tapeRunStart _ _ => []
  | .tapePop _ => []
  | .stepEndClose _ _ => []
  | .issueCycle _ => []
  | .mcrecReadable _ _ => []
  | .preciseStop _ => []
  | .asyncFault _ _ _ => []
  | .barrierArrival _ => []
  | .barrierRelease _ => []
  | .barrierTokenReturn _ => []
  | .handleCompleteWake _ => []
  | .sleepWake _ => []
  | .copyLateCheck _ => []
  | .cfetchLand _ _ => []
  | .coreRefill _ => []
  | .dieRefill => []
  | .reservationTake _ _ => []
  | .rampStep => []
  | .governorCycle => []
  | .intentReceive _ _ _ _ _ _ _ => []
  | .intentCancelReceive _ _ _ _ _ => []
  | .intentExpire _ => []
  | .islandIdle _ => []
  | .islandRetention _ => []
  | .islandWake _ => []
  | .islandWakeDone _ => []
  | .subarrayGate _ _ => []
  | .gangForm _ _ => []
  | .windowAllocate _ => []
  | .mmaLatchComplete _ _ => []
  | .mxPassGrant _ => []
  | .mxPassEnd _ _ => []
  | .mxWindowOpComplete _ _ => []
  | .saCommandStart _ _ => []
  | .saBatchPass _ _ => []
  | .saCommandComplete _ _ => []
  | .copyCommandStart _ _ => []
  | .copyComplete _ _ => []
  | .clProgramStart _ => []
  | .clStepStart _ => []
  | .clMessageArrive _ => []
  | .clStepComplete _ _ => []
  | .clStepTimeout _ _ => []
  | .clAbortArrive _ => []
  | .fabricPeerLost _ => []
  | .fabricPortDown _ => []
  | .llcMissTranslate _ _ _ => []
  | .pageWalkComplete _ _ => []
  | .remoteRequestArrive _ => []
  | .pendingRequestRewalk _ => []
  | .atsInvalidate _ _ _ => []
  | .priResponse _ _ _ => []
  | .mreqArrive _ _ _ => []
  | .migrationHold _ _ => []
  | .migrationSwitch _ _ _ _ => []
  | .homeStoreRegister _ => []
  | .revokeAck _ => []
  | .atomicApply _ => []
  | .loadDataReturn _ => []
  | .scrubRead => []
  | .hostLinkUp => []
  | .fabricPortUp _ => []
  | .powerLoss => []
  | .hoursAtTemperature _ => []
  | .atsTranslationCompletion _ _ _ _ => []
  | .zeroLengthReadComplete _ => []
  | .contextRestoreComplete _ => []
  | .migrationRefusal _ _ _ => []
  | .codeSlotPinExpiry _ _ => []

/-- The rules of R79 items 2, 7 and 8 that a chapter states for one instruction and that hang on the team, the PC or an operand value. -/
def Instr.legalExtra (t : Team) (pc : BitVec 16) : Instr → Bool
  | .sVrd _ _ _ _ _ c => decide (c.toNat < t.group)
  | .sJmp _ off rcv => pcReach pc off.toInt && pcReach pc rcv.toInt
  | .sBr _ _ off rcv => pcReach pc off.toInt && pcReach pc rcv.toInt
  | .sBrAll _ _ off rcv => pcReach pc off.toInt && pcReach pc rcv.toInt
  | .sBrAny _ _ off rcv => pcReach pc off.toInt && pcReach pc rcv.toInt
  | .sLoop _ _ off rcv => pcReach pc off.toInt && pcReach pc rcv.toInt
  | .sCall _ off rcv => pcReach pc off.toInt && pcReach pc rcv.toInt
  | .sJr _ _ rcv => pcReach pc rcv.toInt
  | .sCallr _ _ rcv => pcReach pc rcv.toInt
  | .sBtab _ _ rcv _ => pcReach pc rcv.toInt
  | .sBtabc _ _ rcv _ => pcReach pc rcv.toInt
  | .sFmt _ imm => fmtOk imm.toNat
  | .sCsrr _ _ csr => csrExists csr.toNat
  | .sCsrw _ _ csr => csrExists csr.toNat
  | .sCsrs _ _ csr => csrExists csr.toNat
  | .sCsrc _ _ csr => csrExists csr.toNat
  | .vCvt _ _ ty2 _ _ _ idx => (idx == 0#2 || ty2.width == 8 || (ty2.width == 16 && decide (idx.toNat < 2)))
  | .vFcvt _ _ ty2 _ _ idx => decide (idx.toNat < 32 / ty2.width)
  | .vFtoi _ _ ty2 _ _ idx => decide (idx.toNat < 32 / ty2.width)
  | .vShup _ _ _ _ c => c != 0#8 && decide (c.toNat ≤ 63)
  | .vShdn _ _ _ _ c => c != 0#8 && decide (c.toNat ≤ 63)
  | .vXswz _ _ _ _ c => c != 0#8 && decide (c.toNat < t.group)
  | .vBcast _ _ _ _ c => decide (c.toNat < t.group)
  | _ => true

/-- A register use keeps R22 in a team with `nv` lane registers. -/
def Use.ok (nv : Nat) (u : Use) : Bool :=
  u.n == 0 ||
    (let r := u.r.toNat
     let aligned := u.n == 1 || r % u.n == 0
     let isV := decide (r < 192)
     let fits := decide (r + u.n ≤ nv)
     match u.kind with
     | .lsrc => aligned && (if isV then fits else decide (r + u.n ≤ 256))
     | .lvsrc | .ldst | .uvsrc => aligned && isV && fits
     | .usrc | .udst => aligned && !isV && decide (r + u.n ≤ 256))

/-- The word passes the checks of R79 that decode makes for this team at this PC. `v.kgen`'s key, an address base and every other pair obey the
even-register rule through `Use.ok`. -/
def Instr.legal (t : Team) (pc : BitVec 16) (i : Instr) : Bool :=
  (Instr.uses i).all (Use.ok t.nv) && Instr.legalExtra t pc i && decide (pc.toNat % 4096 + i.length ≤ 4096)

/-- The CSR that an instruction names. -/
def Instr.csr? : Instr → Option Nat
  | .sCsrr _ _ csr | .sCsrw _ _ csr | .sCsrs _ _ csr | .sCsrc _ _ csr => some csr.toNat
  | _ => none

/-- The word is privileged: by its opcode, or by the CSR it names (R80, R122). -/
def Instr.isPriv (i : Instr) : Bool :=
  (match Instr.info i with | some n => n.priv | none => false) || (match Instr.csr? i with | some n => csrPriv n | none => false)

/-- The registers that an instruction reads or writes, for the dependences of R29. -/
def Instr.touches (i : Instr) : List Nat := (Instr.uses i).flatMap fun u => (List.range u.n).map fun k => u.r.toNat + k

end Sys2Proof.Machine
end

