-- ==== Sys2Proof/Machine/Ops.lean ====
section
/-! DEFINITION. The named operations over the state: teams, cores and clusters, registers and predicates, free values, counters and records,
handles, code segments, the reconvergence stack, taking a trap and returning from one, and the end of a team. -/

namespace Sys2Proof.Machine

open Sys2Proof

/-! ### Access to the parts of the state -/

/-- The team of a uid. -/
def State.team? (s : State) (uid : Nat) : Option Team := s.teams.find? fun t => t.uid == uid

/-- Changes a team. -/
def State.modTeam (s : State) (uid : Nat) (f : Team → Team) : State :=
  { s with teams := replaceWhere (fun t => t.uid == uid) f s.teams }

/-- Writes a team back. -/
def State.putTeam (s : State) (t : Team) : State := s.modTeam t.uid fun _ => t

/-- A core by its global number (R11). -/
def State.core (s : State) (k : Nat) : Core := SMap.get Core.reset s.cores k

/-- Writes a core. -/
def State.putCore (s : State) (k : Nat) (c : Core) : State := { s with cores := SMap.put s.cores k c }

/-- A cluster by its global number (R11). -/
def State.cluster (s : State) (k : Nat) : Cluster := SMap.get Cluster.reset s.clusters k

/-- Writes a cluster. -/
def State.putCluster (s : State) (k : Nat) (c : Cluster) : State := { s with clusters := SMap.put s.clusters k c }

/-- The cluster of a core (R11). -/
def clusterOf (core : Nat) : Nat := core / 4

/-- The die of a core (R11). -/
def dieOf (core : Nat) : Nat := core / 192

/-- The grid of a number. -/
def State.grid? (s : State) (gid : Nat) : Option Grid := s.grids.find? fun g => g.gid == gid

/-- Changes a grid. -/
def State.modGrid (s : State) (gid : Nat) (f : Grid → Grid) : State :=
  { s with grids := replaceWhere (fun g => g.gid == gid) f s.grids }

/-- Changes a context. -/
def State.modCtx (s : State) (slot : Nat) (f : Ctx → Ctx) : State := s.setCtx slot (f (s.ctx slot))

/-- The slot of the context that has an ASID. -/
def State.ctxOfAsid (s : State) (asid : Nat) : Option Nat :=
  (s.ctxs.find? fun e => e.2.valid && e.2.asid == asid).map Prod.fst

/-- The cores that a team runs on: its home core and, on a pair, the odd one (R16). -/
def Team.cores (t : Team) : List Nat := if t.pair then [t.home, t.home + 1] else [t.home]

/-- A fresh number for a team, grid, command or entry. -/
def State.newId (s : State) : Nat × State := (s.nextId, { s with nextId := s.nextId + 1 })

/-- The next free value (log entry 5). -/
def State.fresh (s : State) : DWord × State := (Config.freeValue s.freeCtr, { s with freeCtr := s.freeCtr + 1 })

/-- A sensor reading's order is integer order; the time of `CYC` as a number (R35). -/
def State.time (s : State) : Nat := s.cyc.toNat

/-! ### Registers and predicates (R15, R21, R24) -/

/-- A lane's `v` register. -/
def Team.vGet (t : Team) (n lane : Nat) : RWord := SMap.get RWord.zero t.v (n * 1024 + lane)

/-- Writes a lane's `v` register. -/
def Team.vPut (t : Team) (n lane : Nat) (w : RWord) : Team := { t with v := SMap.set RWord.zero t.v (n * 1024 + lane) w }

/-- A group's `s` register; `s62` is the group's number. -/
def Team.sGet (t : Team) (n g : Nat) : RWord := if n = 62 then RWord.ofNat g else SMap.get RWord.zero t.s (n * 1024 + g)

/-- Writes a group's `s` register; a write to `s62` is ignored (R22). -/
def Team.sPut (t : Team) (n g : Nat) (w : RWord) : Team :=
  if n = 62 then t else { t with s := SMap.set RWord.zero t.s (n * 1024 + g) w }

/-- A lane's predicate; `p0` is true. -/
def Team.pGet (t : Team) (n lane : Nat) : Bool := n == 0 || SMap.get false t.p (n * 1024 + lane)

/-- Writes a lane's predicate; a write to `p0` is ignored. -/
def Team.pPut (t : Team) (n lane : Nat) (b : Bool) : Team :=
  if n = 0 then t else { t with p := SMap.set false t.p (n * 1024 + lane) b }

/-- A group's predicate; `q0` is true. -/
def Team.qGet (t : Team) (n g : Nat) : Bool := n == 0 || SMap.get false t.q (n * 1024 + g)

/-- Writes a group's predicate; a write to `q0` is ignored. -/
def Team.qPut (t : Team) (n g : Nat) (b : Bool) : Team :=
  if n = 0 then t else { t with q := SMap.set false t.q (n * 1024 + g) b }

/-- A register as a lane reads it: its `v`, or its group's `s` (R22). -/
def Team.rGet (t : Team) (r lane : Nat) : RWord := if r < 192 then t.vGet r lane else t.sGet (r - 192) (lane / t.group)

/-- `n` registers from `r` on as a lane reads them. -/
def Team.rRun (t : Team) (r n lane : Nat) : List RWord := (List.range n).map fun k => t.rGet (r + k) lane

/-- `n` registers from `r` on as a group reads them. -/
def Team.sRun (t : Team) (r n g : Nat) : List RWord := (List.range n).map fun k => t.sGet (r + k - 192) g

/-- The number that register words hold, the first lowest (R22). -/
def wordsNat : List RWord → Nat
  | [] => 0
  | w :: ws => w.val.toNat + 2 ^ 32 * wordsNat ws

/-- A number as `n` register words with right codes. -/
def natWords : Nat → Nat → List RWord
  | 0, _ => []
  | n + 1, x => RWord.ofNat x :: natWords n (x / 2 ^ 32)

/-- Writes register words to a lane's registers from `r` on. -/
def Team.vRun (t : Team) (r lane : Nat) : List RWord → Team
  | [] => t
  | w :: ws => (t.vPut r lane w).vRun (r + 1) lane ws

/-- Writes words to a group's `s` registers from `s n` on. -/
def Team.sFrom (t : Team) (n g : Nat) : List RWord → Team
  | [] => t
  | w :: ws => (t.sPut n g w).sFrom (n + 1) g ws

/-- Writes register words to a group's registers from `r` on. -/
def Team.sWrite (t : Team) (r g : Nat) (ws : List RWord) : Team := t.sFrom (r - 192) g ws

/-- Writes the same words to each of several groups. -/
def Team.sAll (t : Team) (r : Nat) (groups : List Nat) (ws : List RWord) : Team :=
  groups.foldl (fun (t : Team) g => t.sWrite r g ws) t

/-! ### The path, its lanes and guards (R17 to R20, R74, R108) -/

/-- The executing path; a team always has one. -/
def Team.top (t : Team) : PathEntry := t.stack.headD { pc := 0, mask := 0, rpc := none, fmt := 0 }

/-- The team's PC. -/
def Team.pc (t : Team) : BitVec 16 := t.top.pc

/-- Replaces the executing path. -/
def Team.setTop (t : Team) (e : PathEntry) : Team := { t with stack := e :: t.stack.tail }

/-- Writes the team's PC. -/
def Team.setPc (t : Team) (pc : BitVec 16) : Team := t.setTop { t.top with pc := pc }

/-- A lane is active. -/
def Team.active (t : Team) (lane : Nat) : Bool := t.top.mask.getLsbD lane

/-- The active lanes, lowest first. -/
def Team.activeLanes (t : Team) : List Nat := (List.range t.lanes).filter t.active

/-- The lanes of a group. -/
def Team.groupLanes (t : Team) (g : Nat) : List Nat := (List.range t.group).map fun i => g * t.group + i

/-- The active lanes of a group. -/
def Team.groupActive (t : Team) (g : Nat) : List Nat := (t.groupLanes g).filter t.active

/-- A lane's guard (R74). -/
def Team.laneGuard (t : Team) (h : Hdr) (lane : Nat) : Bool := t.pGet h.g.toNat lane != h.gn

/-- A group's guard (R74). -/
def Team.groupGuard (t : Team) (h : Hdr) (g : Nat) : Bool := t.qGet h.g.toNat g != h.gn

/-- The lanes a lane instruction executes for: active and guard-true. -/
def Team.lanesFor (t : Team) (h : Hdr) : List Nat := t.activeLanes.filter (t.laneGuard h)

/-- The number of the team's groups (R13). -/
def Team.groups (t : Team) : Nat := t.lanes / t.group

/-- The groups a uniform instruction executes for (R19). -/
def Team.groupsFor (t : Team) (h : Hdr) : List Nat :=
  (List.range t.groups).filter fun g => t.groupGuard h g && !(t.groupActive g).isEmpty

/-- A list of lanes as a mask. -/
def maskOf (lanes : List Nat) : Mask := lanes.foldl (fun (m : Mask) l => m ||| (1 : Mask) <<< l) 0

/-- The lanes of a mask, lowest first. -/
def maskLanes (m : Mask) : List Nat := (List.range 1024).filter fun l => m.getLsbD l

/-- The active lanes of several groups as a mask. -/
def Team.groupsMask (t : Team) (gs : List Nat) : Mask := maskOf (gs.flatMap t.groupActive)

/-- The empty 32-lane words of an instruction take no pass: the number of passes on the home core and on the odd one (R18). -/
def Team.passes (t : Team) : Nat × Nat :=
  let ws := (List.range (t.lanes / 32)).filter fun w => (t.top.mask.extractLsb' (32 * w) 32) != 0#32
  if t.pair then ((ws.filter fun w => decide (w < t.lanes / 64)).length, (ws.filter fun w => decide (w ≥ t.lanes / 64)).length)
  else (ws.length, 0)

/-- The batches of a uniform instruction on the home core and on the odd one (R19, R390). -/
def Team.batches (t : Team) (gs : List Nat) : Nat × Nat :=
  let b := fun (n : Nat) => max 1 (ceilDiv n 4)
  if t.pair then
    (b (gs.filter fun g => decide (g < t.groups / 2)).length, b (gs.filter fun g => decide (g ≥ t.groups / 2)).length)
  else (b gs.length, 0)

/-- The team runs with the privileged flag (R80, R124). -/
def Team.privileged (t : Team) : Bool := t.tcw.getLsbD 31

/-- Handler mode (R124, R146). -/
def Team.handler (t : Team) : Bool := t.tcw.getLsbD 30

/-- Sets or clears `TCW`.HM. -/
def Team.setHandler (t : Team) (b : Bool) : Team :=
  { t with tcw := if b then t.tcw ||| 0x4000_0000 else t.tcw &&& 0xBFFF_FFFF }

/-- `TCW`.CHK = STOP, outside handler mode (R191). -/
def Team.chkStop (t : Team) : Bool := t.tcw.getLsbD 13 && !t.handler

/-- `TCW`.RM (R53). -/
def Team.rm (t : Team) : Nat := bits t.tcw.toNat 2 0

/-- The seed that `TCW`.SRSEED selects (R56). -/
def Team.srSeed (t : Team) : DWord :=
  match bits t.tcw.toNat 15 14 with
  | 0 => t.seed0 | 1 => t.seed1 | 2 => t.seed2 | _ => t.seed3

/-! ### Prices (R388, R389) -/

/-- The entry that a price class holds at reset (R389). -/
def resetPrice (cls f : Nat) : Nat :=
  match cls with
  | 0 | 3 => 2
  | 1 | 8 => 3
  | 2 | 5 => 4
  | 4 => 1
  | 6 | 9 => 5
  | 7 | 10 | 11 => 6
  | 12 | 14 => 2
  | 13 => 8
  | 16 | 19 | 20 | 21 | 23 | 33 => 1
  | 17 | 18 | 31 => 2
  | 22 | 24 | 25 => 4
  | 26 | 28 => 8
  | 27 => if f = 8 ∨ f = 9 then 32 else if f = 0 ∨ f = 11 ∨ f = 15 then 24 else if f = 12 then 16 else 0
  | 29 | 30 | 32 => 12
  | 40 => if f = 8 ∨ f = 9 then 6144 else if f = 11 ∨ f = 15 then 3072 else if f = 0 then 2560 else if f = 12 then 1536 else 0
  | 41 => 256
  | 42 => 512
  | 43 => if f = 0 then 64 else if f = 1 then 256 else if f = 2 then 512 else 0
  | 44 => if f = 0 then 3072 else if f = 1 then 1024 else if f = 2 then 128 else if f = 3 then 64 else 0
  | 45 => if f = 0 then 64 else if f = 1 then 96 else if f = 2 ∨ f = 3 then 160 else 0
  | 46 => if f = 0 then 96 else if f = 1 then 160 else 0
  | _ => 0

/-- The reserved price classes (R388). -/
def reservedClass (cls : Nat) : Bool :=
  cls == 15 || (decide (34 ≤ cls) && decide (cls ≤ 39)) || decide (47 ≤ cls)

/-- An entry of the price table. -/
def State.price (s : State) (cls f : Nat) : Nat :=
  if reservedClass cls then 0
  else match SMap.find s.prices (cls * 16 + f) with
    | some p => p
    | none => resetPrice cls f

/-! ### Counters, records and the fault log (R194, R195, R202, R231) -/

/-- A check-engine counter. -/
def State.counter (s : State) (n : Nat) : Nat := SMap.get 0 s.counters n

/-- Advances a check-engine counter, which saturates (R202). -/
def State.count (s : State) (n k : Nat) : State :=
  { s with counters := SMap.set 0 s.counters n (min (2 ^ 32 - 1) (s.counter n + k)) }

/-- An event that a machine-check record holds (R195). -/
structure McEvent where
  kind : Nat
  unit : Nat
  asid : Nat
  pair : Bool
  core : Nat
  pc : Nat
  base : Nat
  ext : Nat
  tlin : Nat
  lanes : List Nat
  pred : Nat
  found : Nat
  addr : Nat
  synd : Nat
  level : Nat
  deriving DecidableEq, Repr

/-- The eight words of a record (R195). -/
def McEvent.words (e : McEvent) (cyc : DWord) : List DWord :=
  let firstW := (e.lanes.headD 0) / 32
  let lwords := e.lanes.foldl (fun (m : Nat) l => m ||| 2 ^ (l / 32)) 0
  let fw := (e.lanes.filter fun l => l / 32 == firstW).foldl (fun (m : Nat) l => m ||| 2 ^ (l % 32)) 0
  [BitVec.ofNat 64 (2 ^ 63 + e.kind * 2 ^ 56 + e.unit * 2 ^ 52 + e.asid * 2 ^ 32 + (if e.pair then 2 ^ 25 else 0) +
      e.core * 2 ^ 16 + e.pc),
   cyc,
   BitVec.ofNat 64 (e.base * 2 ^ 32 + e.tlin),
   BitVec.ofNat 64 (e.ext * 2 ^ 32 + e.lanes.length * 2 ^ 21 + firstW * 2 ^ 16 + e.pred * 2 ^ 8 + e.found),
   BitVec.ofNat 64 (lwords * 2 ^ 32 + fw),
   BitVec.ofNat 64 e.addr,
   BitVec.ofNat 64 (e.synd * 2 ^ 16 + e.level * 2 ^ 12),
   0]

/-- A record of a core. -/
def Core.mcRec (c : Core) (n : Nat) : McRec := SMap.get McRec.reset c.mcrec n

/-- A record is free: it holds no event and is not being filled (R194). -/
def McRec.isFree (r : McRec) : Bool := r.readable && !(r.words.headD 0).getLsbD 63

/-- Files an event at a core: the free record of the lowest number takes it and can be read 40 core cycles later; with none free it is
counted, and OVF is set in the record filed last (R194, R207). -/
def State.fileMc (s : State) (e : McEvent) : State :=
  let c := s.core e.core
  match (List.range 16).find? fun n => (c.mcRec n).isFree with
  | some n =>
    let r : McRec := { words := e.words s.cyc, readyAt := s.ccOf (clusterOf e.core) + 40, readable := false, seq := s.nextId }
    { (s.putCore e.core { c with mcrec := SMap.put c.mcrec n r }) with nextId := s.nextId + 1 }
  | none =>
    let last := c.mcrec.foldl (fun (m : Nat) x => max m x.2.seq) 0
    let mark := c.mcrec.map fun x =>
      if x.2.seq = last then
        (x.1, { x.2 with words := x.2.words.mapIdx fun i w => if i = 0 then w ||| 0x4000_0000_0000_0000 else w })
      else x
    (s.putCore e.core { c with mcrec := mark }).count 31 1

/-- Signals an MSI-X vector (R439). -/
def State.signal (s : State) (v : Nat) : State := { s with pkg := { s.pkg with msix := s.pkg.msix ++ [v] } }

/-- What an access by an engine still waits for: a translation by the host (R252), or the answer of the home of a page of another device, of a
context, to a question about an address and its home key (R242). -/
inductive Need where
  | ats (pasid va : Nat)
  | island (i : Nat)
  | remote (asid key va : Nat) (op : RemoteOp)
  deriving DecidableEq, Repr

/-- What an access by an engine to a context's memory comes to: the home ranges of its parts, a fault, or what it waits for. -/
inductive VaRes where
  | ok (parts : List (Nat × Nat))
  | fault (c : Cause)
  | wait (needs : List Need)
  deriving DecidableEq, Repr

/-- The answer to an engine's question about an address: none while there is none. -/
def State.engineAnswer (s : State) (asid va : Nat) (op : RemoteOp) : Option RemAns :=
  (s.remAsks.find? fun a => a.asker == .engine && a.asid == asid && a.va == va && a.op == op && a.ans.isSome).bind fun a => a.ans

/-- How an engine reports that a home refuses an access (R238): PERM for a right or a key, PAGE for any other reason. A poisoned block is no
fault: it gives no data (R199). -/
def RemAns.engineCause : RemAns → Option Cause
  | .bytes _ | .refused .lost => none
  | .refused .perm => some .perm
  | .refused _ => some .page

/-- What an engine asks the home of a page of another device for `n` bytes: the blocks that no copy here serves, or whether it may write there
(R242). -/
def State.remoteNeeds (s : State) (c : Ctx) (acc : Acc) (va key n : Nat) (l : Leaf) : List Need :=
  if acc = .read ∨ acc = .fetch then
    ((List.range ((va % 64 + n + 63) / 64)).filter fun i =>
        !((List.range 8).all fun j => s.llcHolds c ((va / 64 + i) * 64 + 8 * j) l)).map fun i =>
      Need.remote c.asid (key - va % 64 + 64 * i) ((va / 64 + i) * 64) (if acc = .fetch then .code 64 else .load 64)
  else [Need.remote c.asid key va (.check acc n)]

/-- The home ranges of a range of virtual addresses, in parts that cross no 4 KiB boundary. Questions to other devices are put together; what a home
refuses is a fault (R238, R243). -/
def State.vaParts (s : State) (c : Ctx) (acc : Acc) : Nat → Nat → Nat → VaRes
  | 0, _, _ => .ok []
  | fuel + 1, va, n =>
    if n = 0 then .ok []
    else
      let k := min n (4096 - va % 4096)
      match s.translate c va acc with
      | .fault f => .fault f
      | .absent => .fault .page
      | .ats p v => .wait [.ats p v]
      | .held => .wait ((s.darkAt c va).map Need.island)
      | .ok key l =>
        let needs := if peerHome key then s.remoteNeeds c acc va key k l else []
        let answer := fun (x : Need) => match x with
          | .remote a _ v op => s.engineAnswer a v op
          | .ats .. | .island _ => none
        match needs.findSome? fun x => (answer x).bind RemAns.engineCause with
        | some f => .fault f
        | none =>
          match s.vaParts c acc fuel (va + k) (n - k), needs.filter fun x => (answer x).isNone with
          | .ok ps, [] => .ok ((key, k) :: ps)
          | .ok _, ns => .wait ns
          | .wait ms, ns => .wait (ns ++ ms)
          | r, _ => r

/-- The home ranges of `n` bytes at a virtual address. -/
def State.vaRange (s : State) (c : Ctx) (acc : Acc) (va n : Nat) : VaRes := s.vaParts c acc (n / 4096 + 2) va n

/-- A byte as an engine reads it: of a page of another device the local remote copy where one is held, else what its home has sent to the
engines (R242, R290). -/
def State.engineByte (s : State) (key : Nat) : Byte :=
  let at_ := (key - 2 ^ 80) % 2 ^ 68
  if peerHome key && held8 s.remote (at_ / 2 ^ 56 * 2 ^ 56) (at_ % 2 ^ 56) then SMap.get 0 s.remote at_ else s.byte key

/-- The bytes of home ranges. -/
def State.partsBytes (s : State) (ps : List (Nat × Nat)) : List Byte :=
  ps.flatMap fun p => (List.range p.2).map fun i => s.engineByte (p.1 + i)

/-- Writes bytes over home ranges. -/
def State.partsWrite (s : State) (asid : Option Nat) : List (Nat × Nat) → List Byte → State
  | [], _ => s
  | p :: ps, bs => (State.writeRange (p.2 / 64 + 2) s asid p.1 (bs.take p.2)).partsWrite asid ps (bs.drop p.2)

/-- A load or a question that this device has sent to a home of another device. -/
def RemAsk.asks (a : RemAsk) : Bool :=
  match a.op with
  | .load _ | .code _ | .check .. => !hostHome a.key
  | _ => false

/-- A block gives an engine no data (R199): it is poisoned here, or its home on another device has answered so. -/
def State.blockLost (s : State) (blk : Nat) : Bool :=
  SMap.get false s.poison blk ||
    s.remAsks.any fun a => a.asker == .engine && a.key / 64 == blk && a.asks && a.ans == some (.refused .lost)

/-- A block of home ranges gives no data: its reads return the error (R199). -/
def State.partsLost (s : State) (ps : List (Nat × Nat)) : Bool :=
  ps.any fun p => (List.range ((p.1 % 64 + p.2 + 63) / 64)).any fun i => s.blockLost (p.1 / 64 + i)

/-- Reads a context's memory on behalf of an engine; none where it fails translation or rights, or meets a poisoned block. -/
def State.vaRead (s : State) (c : Ctx) (va n : Nat) : Option (List Byte) :=
  match s.vaRange c .read va n with
  | .ok ps => if s.partsLost ps then none else some (s.partsBytes ps)
  | _ => none

/-- Sends an ATS request that is not out yet (R252). -/
def State.emitAts (s : State) (p v : Nat) : State :=
  if s.outbox.contains (OutMsg.ats p v) then s else { s with outbox := s.outbox ++ [OutMsg.ats p v] }

/-- The partition whose registers bind a context slot (R242, R444); 64, which names none, where nothing binds it. -/
def State.partOf (s : State) (slot : Nat) : Nat :=
  ((s.pkg.part.find? fun e => e.2.getLsbD 63 && bits e.2.toNat 37 32 == slot).map Prod.fst).getD 64

/-- Sends a request to the home of a page of another device, and notes it (R242): the first access of an instruction to a block, `more` the others,
in lane order, `writes` what they are where they write, and `ret` the lanes that want an old value. Its own way to the home is the request's
first hop (R243, R257). A question of a context that no partition binds, or while the ports carry only management traffic (R442), has no
home to answer it, and is refused as it is asked (log entry 64). -/
def State.sendAccess (s : State) (who : Asker) (core asid key va : Nat) (op : RemoteOp) (more : List (Nat × RemoteOp)) (writes : List PWrite)
    (ret : List Nat) : State :=
  let tag := s.nextId
  let part := s.partOf ((s.ctxOfAsid asid).getD 0)
  let refused := match op with
    | .load _ | .code _ | .check .. => !s.pkg.partSet || part == 64
    | _ => false
  let req : RemoteReq := {
    part := part, peer := s.peerId, core := core, va := va, op := op, hops := 1, tag := tag, more := more }
  { s with
    outbox := if refused || !s.pkg.partSet then s.outbox else s.outbox ++ [OutMsg.request (peerOf key) req]
    remAsks := s.remAsks ++
      [({ tag := tag, asker := who, core := core, asid := asid, key := key, va := va, op := op, writes := writes, ret := ret,
          ans := if refused then some (.refused .page) else none, at_ := s.cc, keep := true } : RemAsk)]
    nextId := tag + 1 }

/-- Sends one access to the home of a page of another device. -/
def State.sendAsk (s : State) (who : Asker) (core asid key va : Nat) (op : RemoteOp) : State :=
  s.sendAccess who core asid key va op [] [] []

/-- A write that another device has still to register. -/
def RemAsk.registers (a : RemAsk) : Bool :=
  a.ans.isNone &&
    match a.op with
    | .store _ | .atomic .. | .cas .. | .nibble .. => true
    | _ => hostHome a.key

/-- A write of this device to a block is on its way to its home: loads of the block wait, so that none is older than what the device has
written (R270). -/
def State.writesOut (s : State) (asid va : Nat) : Bool :=
  s.remAsks.any fun a => a.registers && !hostHome a.key && a.asid == asid && a.va / 64 == va / 64

/-- A write of this device goes to a range: the blocks on their way are not kept, and engines ask for theirs again (R270). -/
def State.voidLoads (s : State) (asid va n : Nat) : State :=
  let hit := fun (a : RemAsk) => a.op == .load 64 && a.asid == asid && !hostHome a.key && meets a.va 64 va n
  let s := s.keepNone hit
  { s with remAsks := s.remAsks.filter fun a => !(a.asker == .engine && hit a) }

/-- A miss of the last level on a page of another device counts (R248). -/
def State.countMissAt (s : State) (asid va : Nat) : State :=
  match s.ctxOfAsid asid with
  | none => s
  | some slot =>
    match s.leaf (s.ctx slot) va with
    | .ok l => s.countMiss slot (s.ctx slot) va l
    | .error _ => s

/-- Asks for what an engine waits for, where it has not been asked yet; a block that this device is writing is asked for afterwards (R270). -/
def State.emitNeed (s : State) : Need → State
  | .ats p v => s.emitAts p v
  | .island i => s.wantIslands [i]
  | .remote asid key va op =>
    if (s.remAsks.any fun a => a.asker == .engine && a.asid == asid && a.va == va && a.op == op) || (op == .load 64 && s.writesOut asid va) then s
    else (s.countMissAt asid va).sendAsk .engine 0 asid key va op

/-- Asks for all that an engine waits for. -/
def State.emitNeeds (s : State) (ns : List Need) : State := ns.foldl State.emitNeed s

/-- Asks for what a command waits for before it begins, and holds its team. -/
def State.holdNeeds (s : State) (uid : Nat) (ns : List Need) : State :=
  (s.emitNeeds ns).modTeam uid fun t => { t with hold := match ns with | .ats p v :: _ => .ats p v | _ => .remote }

/-- Asks the host for a translation; the team waits for the first of them (R252). -/
def State.askAts (s : State) (uid : Nat) (needs : List (Nat × Nat)) : State :=
  match needs with
  | [] => s
  | (p, v) :: _ => (s.emitAts p v).modTeam uid fun t => { t with hold := .ats p v }

/-- A queue that the engine has not read yet. -/
def Queue.reset : Queue := { entry := [], head := 0, tail := 0, stopped := false, rewritten := false, told := false, acqTag := 0, parents := [] }

/-- A queue of a context. -/
def Ctx.queue (c : Ctx) (q : Nat) : Queue := SMap.get Queue.reset c.queues q

/-- A write to a context's memory may rewrite entries of its queue table, which the engine then reads, or a queue's tail word (R209, R210). -/
def State.noteTables (s : State) (asid va n : Nat) : State :=
  match s.ctxOfAsid asid with
  | none => s
  | some slot =>
    let base := bits (s.ctx slot).qtbase.toNat 55 11 * 2 ^ 11
    let tail := fun (x : Queue) => meets ((x.entry[2]?).getD 0).toNat 8 va n
    let s := if (s.ctx slot).queues.any fun e => tail e.2 then
        s.modCtx slot fun c => { c with queues := c.queues.map fun e => (e.1, if tail e.2 then { e.2 with told := true } else e.2) }
      else s
    if meets base 2048 va n then
      s.modCtx slot fun c => { c with queues := ((List.range 64).filter fun q => meets (base + 32 * q) 32 va n).foldl (fun (m : SMap Queue) q =>
        SMap.put m q { c.queue q with rewritten := true }) c.queues }
    else s

/-- An engine's write of bytes to a context's memory: home by home; the words pass to the atomic units' owner, so that no L1 copy is owned,
and held remote copies take them (R267, R284). A part on another device is sent to its home, as of no core. -/
def State.engineStore (s : State) (c : Ctx) (va : Nat) (parts : List (Nat × Nat)) (bs : List Byte) : State :=
  let s := (s.useRange c va bs.length).partsWrite (some c.asid) parts bs
  let s := s.ownWords atomicOwner c.asid va bs.length
  let s := (bs.zipIdx).foldl (fun (s : State) b => s.updateByte [] c.asid (va + b.2) b.1) s
  let s := s.noteTables c.asid va bs.length
  let s := if parts.any fun p => hostHome p.1 then
      match s.ctxOfAsid c.asid with
      | some slot => s.modCtx slot fun c => { c with hostStores := true }
      | none => s
    else s
  (parts.foldl (fun (r : State × Nat) p =>
    (if peerHome p.1 then
        (r.1.voidLoads c.asid (va + r.2) p.2).sendAsk .engine atomicOwner c.asid p.1 (va + r.2) (.store ((bs.drop r.2).take p.2))
      else r.1, r.2 + p.2)) (s, 0)).1

/-- The writes of a command that have gone to other devices since a number name the command (R321). -/
def State.stampWrites (s : State) (since : Nat) (who : HRef) : State :=
  { s with remAsks := s.remAsks.map fun a => if since ≤ a.tag ∧ a.asker = .engine ∧ !a.asks then { a with cmd := some who } else a }

/-- A write of a command is on its way to another device. -/
def State.writesAway (s : State) (who : HRef) : Bool := s.remAsks.any fun a => a.cmd == some who && a.ans.isNone

/-- What a home has refused of a command's writes, as its engine reports it. A write of a part of a poisoned block is only not performed (R199). -/
def State.writeRefused (s : State) (who : HRef) : Option Cause :=
  s.remAsks.findSome? fun a => if a.cmd = some who then a.ans.bind RemAns.engineCause else none

/-- A command ends: what its homes have answered goes with it. -/
def State.dropSent (s : State) (who : HRef) : State :=
  { s with remAsks := (s.remAsks.filter fun a => !(a.cmd == some who && a.ans.isSome)).map fun a =>
      if a.cmd = some who then { a with cmd := none } else a }

/-- Writes a record at an address of a context: at once, or when the host has answered the translation that it asks for; a record that fails
translation or rights is lost (R231, R252). -/
def State.writeRecord (s : State) (slot va : Nat) (bs : List Byte) : State :=
  let c := s.ctx slot
  match s.vaRange c .write va bs.length with
  | .ok ps => s.engineStore c va ps bs
  | .fault _ => s
  | .wait n => { s.emitNeeds n with recWaits := s.recWaits ++ [({ slot := slot, at_ := va, what := .bytes bs } : RecWait)] }

/-- Files a fault-log record of a context (R231): its second to fourth words are given. -/
def State.fileLog (s : State) (slot : Nat) (w1 w2 w3 : Nat) : State :=
  let c := s.ctx slot
  let base := bits c.flogbase.toNat 55 5 * 32
  let ring := 2 ^ min 16 (bits c.flogbase.toNat 4 0)
  let va := base + 32 * (c.flogpos.toNat % ring)
  let bs := natLe 8 s.time ++ natLe 8 w1 ++ natLe 8 w2 ++ natLe 8 w3
  let s := if base = 0 then s else s.writeRecord slot va bs
  (s.modCtx slot fun c => { c with flogpos := c.flogpos + 1 }).signal slot

/-- Word 1 of a fault-log record. -/
def flogWord (kind detail q asid : Nat) (pair : Bool) (core : Nat) : Nat :=
  kind * 2 ^ 56 + detail * 2 ^ 48 + q * 2 ^ 42 + asid * 2 ^ 28 + (if pair then 2 ^ 27 else 0) + core * 2 ^ 18

/-! ### Handles (R31 to R33) -/

/-- A slot of the handle table. -/
def Team.slotOf (t : Team) (n : Nat) : HSlot := SMap.get HSlot.reset t.handles n

/-- Writes a slot of the handle table. -/
def Team.putSlot (t : Team) (n : Nat) (h : HSlot) : Team := { t with handles := SMap.put t.handles n h }

/-- Allocates the slot at the head of the free list for an engine; the generation advances. -/
def Team.alloc (t : Team) (eng : Nat) : Option (Nat × BitVec 16 × Team) :=
  match t.freeSlots with
  | [] => none
  | n :: rest =>
    let gen := ((t.slotOf n).gen + 1) % 128
    some (n, BitVec.ofNat 16 (eng * 2 ^ 13 + gen * 2 ^ 6 + n),
      { (t.putSlot n { gen := gen, status := .pending, eng := eng, promise := none }) with freeSlots := rest })

/-- The status that a handle reads (R31 to R33). -/
def Team.hStatus (t : Team) (h : BitVec 16) : HStatus :=
  let e := bits h.toNat 15 13
  let sl := t.slotOf (bits h.toNat 5 0)
  if e = 0 ∨ e = 7 ∨ sl.gen ≠ bits h.toNat 12 6 then .done else sl.status

/-- A slot's operation completes: it takes its status and joins the end of the free list (R32). -/
def Team.finishSlot (t : Team) (n : Nat) (st : HStatus) : Team :=
  if (t.slotOf n).status = .pending then
    { (t.putSlot n { t.slotOf n with status := st }) with freeSlots := t.freeSlots ++ [n] }
  else t

/-- An asynchronous cause is pending from now on (R33, R139). -/
def Team.pendCause (t : Team) (c : Cause) : Team := { t with pendCauses := t.pendCauses ||| (1 : DWord) <<< c.bit }

/-- An engine operation completes: the outcome is recorded in the owning handle table while that table exists (R34), and a fault is a
cause pending at the team. -/
def State.finish (s : State) (h : HRef) (st : HStatus) (fault : Option Cause) : State :=
  s.modTeam h.uid fun t =>
    let t := t.finishSlot h.slot st
    match fault with
    | some c => t.pendCause c
    | none => t

/-! ### Code segments (R128 to R136) -/

/-- The ADDR of a segment-table entry. -/
def Team.segAddr (t : Team) (n : Nat) : Nat := ((t.segs[n]?).getD 0).toNat

/-- The slot of a core that holds an image. -/
def Core.slotFor (c : Core) (asid addr : Nat) : Option (Nat × CodeSlot) :=
  c.code.find? fun e => e.2.asid == asid && e.2.addr == addr && (e.2.st == .loading || e.2.st == .landed)

/-- The status of a segment on one core, when the entry is bound. -/
def State.segOn (s : State) (t : Team) (core n : Nat) : Nat :=
  if t.segAddr n = 0 then 0
  else match (s.core core).slotFor t.asid (t.segAddr n) with
    | some (_, sl) => if sl.st = .landed then 2 else 1
    | none => 0

/-- The status of a segment (R130): 0 ABSENT, 1 LOADING, 2 LANDED, 3 FAULTED; on a pair the lesser of the two cores'. -/
def State.segStatus (s : State) (t : Team) (n : Nat) : Nat :=
  if (t.segFaulted[n]?).getD false then 3
  else (t.cores.map fun k => s.segOn t k n).foldl min 2

/-- The check of a fenced change of the PC (R135). -/
def State.fenceCheck (s : State) (t : Team) (p : BitVec 16) : Option Cause :=
  match s.segStatus t (p.toNat / 4096) with
  | 2 => none
  | 3 => some .fetch
  | _ => some .ovlMiss

/-- The check of a change of a team's PC: only a change to a different segment is fenced (R135). -/
def State.fenceTo (s : State) (t : Team) (p : BitVec 16) : Option Cause :=
  if p.extractLsb' 12 4 = t.pc.extractLsb' 12 4 then none else s.fenceCheck t p

/-- A change of the PC to another segment ends the use of loop buffers, as `s.cfence` (R135). -/
def Team.fenced (t : Team) (p : BitVec 16) : Team :=
  if p.extractLsb' 12 4 = t.pc.extractLsb' 12 4 then t else { t with loopBuf := none }

/-- The next sequential PC after an instruction of some words: the offset goes on within the segment (R69, log entry 60). -/
def nextPc (pc : BitVec 16) (len : Nat) : BitVec 16 := pc.extractLsb' 12 4 ++ (pc.extractLsb' 0 12 + BitVec.ofNat 12 len)

/-- An instruction of `len` words at a PC ends at word 4,095 or would pass it (R69). -/
def endsSegment (pc : BitVec 16) (len : Nat) : Bool := decide (pc.toNat % 4096 + len ≥ 4096)

/-- The word of a core's code at a PC, from its slot. -/
def State.slotWord (s : State) (t : Team) (pc : Nat) : Option Word :=
  match (s.core t.home).slotFor t.asid (t.segAddr (pc / 4096)) with
  | some (_, sl) => if sl.st = .landed then sl.words[pc % 4096]? else none
  | none => none

/-- The words of a team's code slot from a PC on to the end of its segment, where the segment has landed: as many as the longest instruction
has. -/
def State.slotRun (s : State) (t : Team) (pc : Nat) : List Word :=
  match (s.core t.home).slotFor t.asid (t.segAddr (pc / 4096)) with
  | some (_, sl) => if sl.st = .landed then (sl.words.drop (pc % 4096)).take maxWords else []
  | none => []

/-- A loop buffer holds a PC. -/
def LoopBuf.covers (b : LoopBuf) (pc : BitVec 16) : Bool :=
  b.seg == pc.extractLsb' 12 4 && decide (b.start ≤ pc.toNat % 4096) && decide (pc.toNat % 4096 < b.start + b.words.length)

/-- The loop buffer that a team still has the use of. -/
def State.liveBuf (s : State) (t : Team) : Option LoopBuf :=
  match t.loopBuf with
  | some b => if (s.core t.home).bufs.contains b.id then some b else none
  | none => none

/-- The words at a PC as a team fetches them: from the loop buffer that it uses, or from its slot. -/
def State.codeAt (s : State) (t : Team) (pc : BitVec 16) : List Word :=
  match (s.liveBuf t).filter fun b => b.covers pc with
  | some b => b.words.drop (pc.toNat % 4096 - b.start)
  | none => s.slotRun t pc.toNat

/-! ### The reconvergence stack (R108 to R111) -/

/-- A team's context. -/
def State.ctxOf (s : State) (t : Team) : Ctx := s.ctx t.ctx

/-- The bytes of a spilled entry (R111). -/
def PathEntry.bytes (e : PathEntry) : List Byte :=
  natLe 128 e.mask.toNat ++
    natLe 4 ((List.range 32).foldl (fun (m : Nat) w => if e.mask.extractLsb' (32 * w) 32 = 0#32 then m else m + 2 ^ w) 0) ++
    natLe 2 e.pc.toNat ++ natLe 2 (e.rpc.getD 0).toNat ++ natLe 1 (if e.rpc.isSome then 1 else 0) ++ natLe 3 0 ++
    natLe 4 e.fmt.toNat

/-- The entry that 144 bytes hold (R111). -/
def PathEntry.ofBytes (b : List Byte) : PathEntry :=
  { mask := BitVec.ofNat 1024 (leNat (b.take 128))
    pc := BitVec.ofNat 16 (leNat ((b.drop 132).take 2))
    rpc := if (leNat ((b.drop 136).take 1)) % 2 = 1 then some (BitVec.ofNat 16 (leNat ((b.drop 134).take 2))) else none
    fmt := BitVec.ofNat 32 (leNat ((b.drop 140).take 4)) }

/-- The address of spilled entry `j` (R111). -/
def Team.spillVa (t : Team) (j : Nat) : Nat := bits t.tstka.toNat 55 0 + 144 * j

/-- What a use of the spill area comes to: the team after it, a failed translation or right, or what it waits for (R111, R252). -/
inductive Spill where
  | ok (t : Team)
  | fails
  | wait (needs : List Need)
  deriving DecidableEq, Repr

/-- Goes on after a use of the spill area. -/
def Spill.andThen (r : Spill) (k : Team → Spill) : Spill :=
  match r with
  | .ok t => k t
  | .fails => .fails
  | .wait n => .wait n

/-- An access to spilled entry `j` that leaves the team as `t'` (R111). -/
def State.spillAt (s : State) (t : Team) (acc : Acc) (j : Nat) (t' : Team) : Spill :=
  match s.vaRange (s.ctxOf t) acc (t.spillVa j) 144 with
  | .ok _ => .ok t'
  | .fault _ => .fails
  | .wait n => .wait n

/-- The bytes of spilled entry `j`. They are private to the team: no access reads them (R111, R279). -/
def Team.spillBytes (t : Team) (j : Nat) : List Byte := (List.range 144).map fun i => SMap.get 0 t.area (t.spillVa j + i)

/-- Writes the bytes of spilled entry `j`. -/
def Team.putSpill (t : Team) (j : Nat) (e : PathEntry) : Team := { t with area := memWrite t.area (t.spillVa j) e.bytes }

/-- Spills the deepest held entries until at most 16 are held. -/
def spillDown : Nat → State → Team → Spill
  | 0, _, t => .ok t
  | fuel + 1, s, t =>
    if t.stack.length ≤ 16 then .ok t
    else
      let e := t.stack.getLast?.getD t.top
      (s.spillAt t .write t.spilled { t.putSpill t.spilled e with stack := t.stack.dropLast, spilled := t.spilled + 1 }).andThen
        (spillDown fuel s)

/-- Pushes entries, the last one first pushed, and spills what is deeper than 16. -/
def State.push (s : State) (t : Team) (es : List PathEntry) : Spill :=
  spillDown (es.length + 1) s { t with stack := es ++ t.stack }

/-- Fills one entry from the spill area after a pop. -/
def State.fillEntry (s : State) (t : Team) : Spill :=
  if t.spilled = 0 ∨ t.stack.length ≥ 16 then .ok t
  else s.spillAt t .read (t.spilled - 1)
    { t with stack := t.stack ++ [PathEntry.ofBytes (t.spillBytes (t.spilled - 1))], spilled := t.spilled - 1 }

/-- Removes lanes from every spilled entry (R107). -/
def clearSpilled (m : Mask) : Nat → State → Team → Spill
  | 0, _, t => .ok t
  | n + 1, s, t => (clearSpilled m n s t).andThen fun t =>
      (s.spillAt t .read n t).andThen fun t =>
        let e := PathEntry.ofBytes (t.spillBytes n)
        s.spillAt t .write n (t.putSpill n { e with mask := e.mask &&& ~~~m })

/-- The depth of the stack, the base entry counted (R108). -/
def Team.depth (t : Team) : Nat := t.stack.length + t.spilled

/-! ### The end of a team (R34, R107, R149, R304) -/

/-- A stop asked of a team that an engine holds; it is taken at the team's PC as soon as the event is served. -/
def Team.askStop (t : Team) (c : Cause) : Team := { t with stopReq := some { cause := c, lanes := 0, code := 0, after := false } }

/-- `MXGANG` names a slot: the team is a member or waits to be one (R299). -/
def Team.inGang (t : Team) : Bool := t.mxgang.getLsbD 31 || t.mxgang.getLsbD 30

/-- The gang slot that `MXGANG` names. -/
def Team.gangSlot (t : Team) : Nat := bits t.mxgang.toNat 3 0

/-- An accepted operation of a window of the gang's rows remains. -/
def Cluster.windowBusy (c : Cluster) (lo n : Nat) : Bool :=
  (c.entries.any fun e => decide (lo ≤ e.winBase) && decide (e.winBase < lo + n)) ||
    c.saQ.any fun q => decide (lo ≤ q.winBase) && decide (q.winBase < lo + n)

/-- Frees a gang's slot, its windows and the sampling slots in them when every member has left and no accepted operation remains (R304,
R360). A gang that has formed waits for its windows first, so that every member's handle is answered (R300). -/
def Cluster.freeGang (c : Cluster) (slot : Nat) : Cluster :=
  match SMap.find c.gangs slot with
  | none => c
  | some g =>
    if g.members.all (fun m => m.left) &&
        (match g.base with | some b => !c.windowBusy b (g.n * g.rows) | none => !g.formed) then
      { c with
        gangs := SMap.del c.gangs slot
        winWait := c.winWait.filter fun w => w.slot != slot
        sa := match g.base with
          | some b => c.sa.map fun x =>
              if x.st != .free && decide (b ≤ x.winBase) && decide (x.winBase < b + g.n * g.rows) then SaSlot.reset else x
          | none => c.sa }
    else c

/-- The held members of a gang's pending rendezvous. -/
def Gang.heldUids (g : Gang) : List Nat :=
  if g.formed then g.latch.map fun a => a.uid else g.members.map fun m => m.uid

/-- A pending rendezvous is cancelled: every held member stops with GANG, with no membership where the gang had not formed (R302). -/
def State.cancelRendezvous (s : State) (k slot : Nat) : State :=
  match SMap.find (s.cluster k).gangs slot with
  | none => s
  | some g =>
    let uids := g.heldUids
    let c := s.cluster k
    let c := if g.formed then { c with gangs := SMap.put c.gangs slot { g with latch := [] } }
      else { c with gangs := SMap.del c.gangs slot }
    uids.foldl (fun (s : State) u => s.modTeam u fun t =>
      let t := if g.formed then t else { t with mxgang := 0 }
      if t.hold = .latch then { (t.askStop .gang) with hold := .free } else t) (s.putCluster k c)

/-- The team leaves its gang (R304): its part in a pending rendezvous cancels it, and the slot is freed once all have left. -/
def State.leaveGang (s : State) (uid : Nat) : State :=
  match s.team? uid with
  | none => s
  | some t =>
    if !t.inGang then s
    else
      let k := clusterOf t.home
      let slot := t.gangSlot
      let s := s.cancelRendezvous k slot
      let c := s.cluster k
      let c := match SMap.find c.gangs slot with
        | some g =>
          let ms := replaceWhere (fun (m : GangMember) => m.uid == uid) (fun m => { m with left := true }) g.members
          { c with gangs := SMap.put c.gangs slot { g with members := ms } }
        | none => c
      (s.putCluster k (c.freeGang slot)).modTeam uid fun t => { t with mxgang := 0, mxwin := 0, stopReq := none }

/-- A core forgets a team: its place in the reservation and its queue (R397). -/
def Core.forget (c : Core) (uid : Nat) : Core :=
  let c := { c with resvQ := c.resvQ.filter fun u => u != uid }
  if c.resv = some uid then { c with resv := c.resvQ.head?, resvQ := c.resvQ.tail } else c

/-- The reservation passes on (R397). -/
def State.passReservation (s : State) (t : Team) : State :=
  t.cores.foldl (fun (s : State) k => s.putCore k ((s.core k).forget t.uid)) s

/-- How engine operations name a team. -/
def Team.ident (t : Team) : TeamId := { uid := t.uid, gid := t.gid, home := t.home, pair := t.pair, lin := t.lin }

/-- The team of a uid as its engine operations name it, gone or not (R192, R194). -/
def State.ident (s : State) (uid : Nat) : TeamId :=
  match s.team? uid with
  | some t => t.ident
  | none => (s.gone.find? fun g => g.uid == uid).getD { uid := uid, gid := 0, home := 0, pair := false, lin := 0 }

/-- A team exits or ends: it leaves its gang, its lanes leave, and its handle table and debt go with it (R34, R399). Its accepted operations
go on; its stores on their way stand. -/
def State.dropTeam (s : State) (uid : Nat) : State :=
  match s.team? uid with
  | none => s
  | some t =>
    let s := (s.leaveGang uid).passReservation t
    let s := if t.hostStores then s.modCtx t.ctx fun c => { c with hostStores := true } else s
    { s with teams := s.teams.filter (fun u => u.uid != uid), pick := s.pick.filter (fun u => u != uid), gone := s.gone ++ [t.ident] }

/-- The queue of a team's grid, for the fault log. -/
def State.queueOf (s : State) (gid : Nat) : Nat := match s.grid? gid with | some g => g.q | none => 0

/-- A team ends with no handler (KIND 1) or with DOUBLE (KIND 2 and the cause that could not be delivered): a record is filed (R149,
R231). -/
def State.endTeam (s : State) (uid : Nat) (double : Option Cause) : State :=
  match s.team? uid with
  | none => s
  | some t =>
    let kind := if double.isSome then 2 else 1
    let detail := match double with | some c => c.bit | none => 0
    let tc := t.tcause.toNat + (if double.isSome then 2 ^ 29 else 0)
    let s := s.fileLog t.ctx (flogWord kind detail (s.queueOf t.gid) t.asid t.pair t.home) tc
      (t.lin * 2 ^ 32 + bits t.tpc.toNat 15 0 * 2 ^ 16)
    s.dropTeam uid

/-! ### Taking a trap (R141 to R149) -/

/-- A write that a load's return makes. -/
def Team.applyWrite (t : Team) : PendWrite → Team
  | .reg key w => { t with v := SMap.set RWord.zero t.v key w }
  | .pred key b => { t with p := SMap.set false t.p key b }
  | .sreg key w => { t with s := SMap.set RWord.zero t.s key w }

/-- An instruction in flight waits for an engine's answer: a precise stop waits for it too (R143, R352). -/
def Team.unanswered (t : Team) : Bool := t.flight.any fun f => f.stat.isSome

/-- A flight completes: it makes its writes. -/
def Team.land (t : Team) (f : Flight) : Team := f.writes.foldl Team.applyWrite t

/-- The flights that do not fault all complete, in program order (R143). -/
def Team.landAll (t : Team) : Team :=
  let t' := (t.flight.filter fun f => f.stop.isNone).foldl Team.land t
  { t' with flight := [] }

/-- The bits of `TSKIP`.SKIP for the instructions after the one at place `q`: those up to the last issued that did not fault (R143). -/
def skipBits (q last : Nat) (faulting : List Nat) : Nat :=
  (List.range 15).foldl (fun (m : Nat) i =>
    if q + i + 1 < last ∧ !faulting.contains (q + i + 1) then m + 2 ^ i else m) 0

/-- Delivery to the handler (R146): the path goes to the frame, the handler's PC replaces it and HM is set; a change of the segment is fenced
(R135), and a failure ends the team with DOUBLE. -/
def State.deliver (s : State) (uid : Nat) (c : Cause) : State :=
  match s.team? uid with
  | none => s
  | some t =>
    if !t.tvb.getLsbD 31 then s.endTeam uid none
    else
      let vec : BitVec 16 := t.tvb.extractLsb' 0 16
      match s.fenceTo t vec with
      | some _ => s.endTeam uid (some c)
      | none =>
        let frame := { t.top with pc := t.tpc.extractLsb' 0 16 }
        let t := { t.fenced vec with frame := some frame, frameDepth := t.depth, hold := .free, relIssue := none, stopReq := none,
                                      heldHome := 0, heldOdd := 0 }
        (s.putTeam ((t.setTop { t.top with pc := vec, rpc := none }).setHandler true)).passReservation t

/-- A cause that handler mode holds: its `TCAUSE` bit is set and the handler goes on (R147). -/
def Team.holdCause (t : Team) (c : Cause) : Team := { t with tcause := t.tcause ||| (1 : DWord) <<< c.bit }

/-- The cause of a bit of `TCAUSE` (R139). -/
def Cause.ofBit (n : Nat) : Cause :=
  (([.illegal, .priv, .btabRange, .ovlMiss, .fetch, .page, .perm, .align, .bounds, .rights, .copyLate, .window, .gang, .vault, .barrier,
    .stack, .mcheck, .memUe, .collMismatch, .collPeer, .fabricKey, .tokenDebtOvf, .swtrap, .brk, .launchFull, .tape, .sample, .aliased,
    .lscale] : List Cause)[n]?).getD .double

/-- The causes that write `FLM` (R139). -/
def Cause.hasLanes : Cause → Bool
  | .btabRange | .page | .perm | .align | .bounds | .rights | .vault | .mcheck => true
  | _ => false

/-- Whether the instruction at place `i` from the one at the PC has completed already, as `TSKIP` tells it: bit `i` of the result (R145). -/
def Team.doneBits (t : Team) : Nat := if t.handler then 0 else 2 * bits t.tskip.toNat 14 0 / 2 ^ t.skipPos

/-- The length of the instruction at a PC. -/
def State.lengthAt (s : State) (t : Team) (pc : Nat) : Nat :=
  match s.codeAt t (BitVec.ofNat 16 pc) with
  | w :: _ => instrWords w
  | [] => 1

/-- The first instruction from `pc` on that has not completed, and the positions after it that have (R143): bit `i` of `done` tells of the
instruction `i` places on. A completed instruction at the segment's end is named itself (R69, log entry 60). -/
def State.firstUndone (s : State) (t : Team) : Nat → Nat → Nat → Nat × Nat
  | 0, pc, done => (pc, done / 2)
  | fuel + 1, pc, done =>
    if done % 2 = 1 ∧ pc % 4096 + s.lengthAt t pc < 4096 then s.firstUndone t fuel (pc + s.lengthAt t pc) (done / 2) else (pc, done / 2)

/-- A stop without lanes or code that names its own instruction. -/
def Stop.of (c : Cause) : Stop := { cause := c, lanes := 0, code := 0, after := false }

/-- A stop with lanes. -/
def Stop.lanesOf (c : Cause) (m : Mask) : Stop := { cause := c, lanes := m, code := 0, after := false }

/-- Takes a synchronous stop of the instruction at the team's PC, `len` words long (R143, R146, R147, R149). The flights complete, which the
stop waits for; the earliest faulting instruction is the one reported; `TPC`, `TSKIP`, `FLM` and `TCAUSE` are written; the stop is delivered
or the team ends. In handler mode the team ends with DOUBLE and the cause of that instruction: FETCH where it is the handler's first fetch that
fails (DESIGN CHOICE, log entry 71). An instruction after which the team resumes and that ends
its segment stops the team with ILLEGAL instead (R69, log entry 60). -/
def State.takeStop (s : State) (uid len : Nat) (st : Stop) : State :=
  match s.team? uid with
  | none => s
  | some t =>
    let t1 := { t.landAll with hold := .free, stopReq := none }
    let faults := t.flight.filter fun f => f.stop.isSome
    if t.unanswered then s.putTeam { t with stopReq := some st, heldLen := len }
    else if t.handler then
      (s.putTeam t1).endTeam uid (some (match faults with | f :: _ => (f.stop.getD st).cause | [] => st.cause))
    else
      let done := t.doneBits / 2
      let R : Stop × Nat × Nat := match faults with
        | f :: _ =>
          (f.stop.getD st, f.pc.toNat,
            (skipBits f.seq t.issued (faults.map fun f => f.seq) + done * 2 ^ (t.issued - f.seq)) % 2 ^ 15)
        | [] =>
          if st.after && endsSegment t.pc len then (Stop.of .illegal, t.pc.toNat, done)
          else if st.after then
            let r := s.firstUndone t 16 (t.pc.toNat + len) done
            (st, r.1, r.2)
          else (st, t.pc.toNat, done)
      let code : BitVec 16 := if R.1.cause = .swtrap ∨ R.1.cause = .brk then R.1.code else 0
      let t2 := { t1 with
        tpc := code ++ BitVec.ofNat 16 R.2.1
        tskip := BitVec.ofNat 32 R.2.2
        skipPos := 0
        flm := if R.1.cause.hasLanes then R.1.lanes else t1.flm
        tcause := (1 : DWord) <<< R.1.cause.bit ||| t1.pendCauses
        pendCauses := 0 }
      (s.putTeam t2).deliver uid R.1.cause

/-- Takes the asynchronous causes pending at an instruction boundary: `TPC` names the next instruction to issue (R33, R139). In handler
mode they are held (R147). A long-latency instruction in flight that faults is reported with them (R143). -/
def State.takePending (s : State) (uid : Nat) : State :=
  match s.team? uid with
  | none => s
  | some t =>
    if t.pendCauses = 0 ∨ t.unanswered then s
    else if t.handler then s.putTeam { t with tcause := t.tcause ||| t.pendCauses, pendCauses := 0 }
    else
      match t.flight.find? fun f => f.stop.isSome with
      | some f => s.takeStop uid 0 (f.stop.getD { cause := .page, lanes := 0, code := 0, after := false })
      | none =>
        let r := s.firstUndone t 16 t.pc.toNat t.doneBits
        let low := ((List.range 29).find? fun i => t.pendCauses.getLsbD i).getD 0
        let t2 := { t.landAll with
          hold := .free
          tpc := BitVec.ofNat 32 r.1
          tskip := BitVec.ofNat 32 r.2
          skipPos := 0
          tcause := t.pendCauses
          pendCauses := 0 }
        (s.putTeam t2).deliver uid (Cause.ofBit low)

/-- Fills held entries from the spill area until `n` are held. -/
def State.fillTo (s : State) : Nat → Team → Spill
  | 0, t => .ok t
  | n + 1, t => (s.fillEntry t).andThen (s.fillTo n)

/-- Return from handler mode (R148), after the check of HM: the entries above the replaced one go; with a bit of `TCAUSE` left the handler
is entered again; otherwise the frame is restored and HM cleared. A change of the segment is fenced. While the host has not answered for the
spill area the team waits. -/
def State.returnFromHandler (s : State) (uid : Nat) : Except Cause State :=
  match s.team? uid with
  | none => .ok s
  | some t =>
    match t.frame with
    | none => .ok s
    | some fr =>
      let extra := t.depth - t.frameDepth
      let p : BitVec 16 := if t.tcause &&& 0x1FFF_FFFF ≠ 0 then t.tvb.extractLsb' 0 16 else t.tpc.extractLsb' 0 16
      match s.fillTo 16 { t.fenced p with stack := t.stack.drop extra, spilled := t.spilled - (extra - t.stack.length) } with
      | .fails => .error .stack
      | .wait n => .ok (s.holdNeeds uid n)
      | .ok t0 =>
        match s.fenceTo t p with
        | some c => .error c
        | none =>
          let t1 := { t0 with issued := t0.issued + 1 }
          if t.tcause &&& 0x1FFF_FFFF ≠ 0 then .ok (s.putTeam (t1.setPc p))
          else .ok (s.putTeam { (t1.setTop { fr with pc := p }).setHandler false with frame := none, skipPos := 0 })

end Sys2Proof.Machine
end

