-- ==== Sys2Proof/Machine/Residue.lean ====
section
/-! DEFINITION. The residue predictions of the lane engine and the uniform pipe (R161, R182, R184 to R187): the class of an instruction, the
operand words that a result word's prediction uses, and the residue predicted from the codes that they carry. -/

namespace Sys2Proof.Machine

open Sys2Proof

/-- The classes of R161 whose congruence gives the prediction of a result word from its operands' codes. `sum` and `diff` are ADD (`neg` for a
subtraction; `diff` is a compare, with its immediate's value), `clamp` ADD with saturation SEL, `lea` ADD with the second term scaled, `prod` MUL by
the part of the product kept (0 low, 1 high, 2 both) and whether its type is signed, `mul64` MUL on pairs, `dot` DOT, `logic` LOGIC by the weight of
the operands' residues in the result's, `shift` and `rot` SHIFT by width with an immediate count or none, `funnel` the funnel shifts, `pick` SEL by
element width. `own` is DUP, GEN, MOVE and FSIG, whose checks are made on a second copy or on pieces of the operands, so that the rules give no
one predicted residue of the result word where an operand's code is wrong (log entry 9). -/
inductive ResCls where
  | sum (neg : Bool)
  | clamp (ty : Ty) (neg : Bool) (imm : Option Int)
  | lea (sh : Nat)
  | diff (imm : Option Nat)
  | prod (part : Nat) (signed : Bool)
  | mul64
  | dot (ty ty2 : Ty) (sat : Bool)
  | logic (weight : Nat) (neg : Bool)
  | shift (w : Nat) (left : Bool) (imm : Option Nat)
  | rot (left : Bool) (imm : Option Nat)
  | funnel (left : Bool)
  | pick (w : Nat)
  | own
  deriving DecidableEq, Repr

/-- The immediate of a compare: by sign for s types, by zero for n types (R102). -/
def immCmp (ty : Ty) (imm : BitVec 8) : Int := if ty.isSigned then imm.toInt else imm.toNat

/-- The class of an instruction (R154, R187). The prediction for `v.or` carries an error of an operand as that of the word of ANDs (DESIGN CHOICE, log
entry 72). -/
def Instr.resCls : Instr → ResCls
  | .vAdd .. | .vAddi .. | .sAdd .. | .sAddi .. => .sum false
  | .vSub .. | .sSub .. => .sum true
  | .vAdds _ ty _ _ _ => .clamp ty false none
  | .vAddis _ ty _ _ imm => .clamp ty false (some imm.toInt)
  | .vSubs _ ty _ _ _ => .clamp ty true none
  | .vLea _ _ _ _ _ sh | .sLea _ _ _ _ _ sh => .lea sh.toNat
  | .vCmp .. | .sCmp .. => .diff none
  | .vCmpi _ _ ty _ _ imm | .sCmpi _ _ ty _ _ imm => .diff (some (wrap ty.width (immCmp ty imm)))
  | .vMul _ ty _ _ _ | .vMad _ ty _ _ _ _ | .sMul _ ty _ _ _ => if ty.is64 then .mul64 else .prod 0 (ty == .s32)
  | .vMulh _ ty _ _ _ | .vMadh _ ty _ _ _ _ | .sMulh _ ty _ _ _ => .prod 1 (ty == .s32)
  | .vMulw _ ty _ _ _ | .vMadw _ ty _ _ _ _ => .prod 2 (ty == .s32)
  | .vDot4 _ ty ty2 _ _ _ _ => .dot ty ty2 false
  | .vDot4s _ ty ty2 _ _ _ _ => .dot ty ty2 true
  | .vAnd .. | .vOr .. | .vAndi .. | .vOri .. | .sAnd .. | .sOr .. | .sAndi .. | .sOri .. => .logic 4 false
  | .vXor .. | .vXori .. | .sXor .. | .sXori .. => .logic 1 false
  | .vAndn .. | .sAndn .. => .logic 4 true
  | .vShl _ ty _ _ _ | .sShl _ ty _ _ _ => .shift ty.width true none
  | .vShr _ ty _ _ _ | .vSra _ ty _ _ _ | .sShr _ ty _ _ _ | .sSra _ ty _ _ _ => .shift ty.width false none
  | .vShli _ ty _ _ imm | .sShli _ ty _ _ imm => .shift ty.width true (some imm.toNat)
  | .vShri _ ty _ _ imm | .vSrai _ ty _ _ imm | .sShri _ ty _ _ imm | .sSrai _ ty _ _ imm => .shift ty.width false (some imm.toNat)
  | .vRotl .. => .rot true none
  | .vRotr .. => .rot false none
  | .vRotli _ _ _ _ imm => .rot true (some imm.toNat)
  | .vFshl .. => .funnel true
  | .vFshr .. => .funnel false
  | .vMin _ ty _ _ _ | .vMax _ ty _ _ _ | .sMin _ ty _ _ _ | .sMax _ ty _ _ _ | .vFmin _ ty _ _ _ | .vFmax _ ty _ _ _ => .pick ty.width
  | _ => .own

/-- The amount by which a word's code is off its residue, modulo 7 (R184). -/
def RWord.err (w : RWord) : Nat := (w.code.toNat + 7 - w.val.toNat % 7) % 7

/-- The check of a result word (R186): whether an operand word that its prediction uses carries a wrong code, the computed word, and the residue
predicted. Without a computed word both residues are free; without a prediction PRED is. -/
structure WordCheck where
  bad : Bool
  word : Option Word
  pred : Option Nat
  deriving DecidableEq, Repr

/-- Element `i` of width `w` in a run of words. -/
def elemAt (w i : Nat) (ws : List RWord) : Nat :=
  (ws.foldr (fun (x : RWord) n => x.val.toNat + 2 ^ 32 * n) 0) / 2 ^ (w * i) % 2 ^ w

/-- Element `i` of a SEL result is taken from the first source, or (`false`) from the second; `none` for a constant (R161). Of equal elements the
first source's is the one chosen (DESIGN CHOICE, log entry 72). -/
def pickOf (w i : Nat) (a b d : List RWord) : Option Bool :=
  if elemAt w i d = elemAt w i a then some true else if elemAt w i d = elemAt w i b then some false else none

/-- The elements of width `w` that lie in word `k`. -/
def elemsIn (w k : Nat) : List Nat := if w = 64 then [0] else (List.range (32 / w)).map fun i => 32 / w * k + i

/-- The source that an element of word `k` is taken from is `first`. -/
def picks (w k : Nat) (a b d : List RWord) (first : Bool) : Bool := (elemsIn w k).any fun i => pickOf w i a b d == some first

/-- Element `i` of a sum or difference falls outside its type: the result is a bound (R155). -/
def satAt (ty : Ty) (neg : Bool) (imm : Option Int) (srcs : List (List RWord)) (i : Nat) : Bool :=
  let v := fun (n : Nat) => tyVal ty (elemAt ty.width i ((srcs[n]?).getD []))
  let y := match imm with | some z => z | none => v 1
  let z := if neg then v 0 - y else v 0 + y
  saturate ty z != z

/-- The exact sum of a four-byte dot product (R155). -/
def dotSum (ty ty2 : Ty) (a b c : Nat) : Int :=
  (List.range 4).foldl (fun (z : Int) i => z + tyVal ty (elem a i 8) * tyVal ty2 (elem b i 8)) (signedVal 32 c)

/-- A saturating dot product is a bound (R155). -/
def dotSat (ty ty2 : Ty) (srcs : List (List RWord)) : Bool :=
  let z := dotSum ty ty2 (wordsNat (srcs.headD [])) (wordsNat ((srcs[1]?).getD [])) (wordsNat ((srcs[2]?).getD []))
  saturate .s32 z != z

/-- The result word that the upper part of source word `j` of `m` goes to in a shift by `q` words and less than one more; what leaves the result is
counted at its end. -/
def shiftPlace (m q : Nat) (left : Bool) (j : Nat) : Nat := if left then min (j + q) (m - 1) else j - q

/-- The same of a rotation. -/
def rotPlace (m q : Nat) (left : Bool) (j : Nat) : Nat := if left then (j + q) % m else (j + m - q % m) % m

/-- The prediction of result word `k` uses word `j` of source `n` (R161, R186). The count of a shift is the low word of its source (R156). -/
def ResCls.uses (c : ResCls) (srcs : List (List RWord)) (d : List RWord) (k n j : Nat) : Bool :=
  let a := srcs.headD []
  let b := (srcs.drop 1).headD []
  let count := fun (imm : Option Nat) => imm.getD (((b[0]?).getD RWord.zero).val.toNat)
  match c with
  | .sum _ | .diff _ | .logic .. => j == k
  | .clamp ty neg imm => j == k && !(elemsIn ty.width k).all (satAt ty neg imm srcs)
  | .lea _ => if n = 0 then j == k else k == 0 && j == 0
  | .prod part _ => n != 2 || part != 2 || j == k
  | .mul64 => if n = 2 then j == k else decide (j ≤ k)
  | .dot ty ty2 sat => n != 2 || !(sat && dotSat ty ty2 srcs)
  | .shift w left imm => if n = 0 then shiftPlace (w / 32) (count imm / 32) left j == k else j == 0
  | .rot left imm => if n = 0 then rotPlace a.length (count imm / 32) left j == k else j == 0
  | .pick w => j == k && ((n == 0 && picks w k a b d true) || (n == 1 && picks w k a b d false))
  | .funnel _ | .own => true

/-- The operand words that the prediction of result word `k` uses (R161, R186). -/
def ResCls.feeds (c : ResCls) (srcs : List (List RWord)) (d : List RWord) (k : Nat) : List RWord :=
  (srcs.mapIdx fun n r => (r.mapIdx fun j w => if c.uses srcs d k n j then [w] else []).flatten).flatten

/-- What the operands' codes add to the residue predicted for word `k`, modulo 7 (R161); none where the class gives no one prediction. A power of 2
has a residue by its exponent modulo 3, where -1 counts as 2. -/
def ResCls.shiftOf (c : ResCls) (srcs : List (List RWord)) (d : List RWord) (k : Nat) : Option Nat :=
  let at_ := fun (n j : Nat) => (((srcs[n]?).getD [])[j]?).getD RWord.zero
  let e := fun (n j : Nat) => (at_ n j).err
  let prod := fun (a b : RWord) => a.code.toNat * b.code.toNat + 49 - a.val.toNat % 7 * (b.val.toNat % 7)
  let moved := fun (place : Nat → Nat) (x : Nat → Nat) =>
    let z := ((List.range (srcs.headD []).length).map fun j => if place j = k then e 0 j * 2 ^ (x j % 3) else 0).foldl (fun (x y : Nat) => x + y) 0
    if z = 0 then none else some z
  let count := fun (imm : Option Nat) => imm.getD (at_ 1 0).val.toNat
  match c with
  | .sum neg => some (e 0 k + (if neg then 7 - e 1 k else e 1 k))
  | .clamp ty neg imm =>
    some (if (elemsIn ty.width k).all (satAt ty neg imm srcs) then 0 else e 0 k + (if neg then 7 - e 1 k else e 1 k))
  | .lea sh => some (e 0 k + (if k = 0 then 2 ^ (sh % 3) * e 1 0 else 0))
  | .diff imm => some (e 0 k + (if imm.isSome then 0 else 7 - e 1 k))
  | .logic w neg => some (w * (e 0 k + (if neg then 7 - e 1 k else e 1 k)))
  | .prod part signed =>
    let a := at_ 0 0
    let b := at_ 1 0
    let sign := if signed then (if a.val.msb then 7 - b.err else 0) + (if b.val.msb then 7 - a.err else 0) else 0
    if part = 0 ∨ (part = 2 ∧ k = 0) then some (prod a b + e 2 0) else some (2 * prod a b + sign + if part = 1 then 2 * e 2 0 else e 2 k)
  | .mul64 =>
    let lo := prod (at_ 0 0) (at_ 1 0)
    some (if k = 0 then lo + e 2 0 else 2 * lo + prod (at_ 0 0) (at_ 1 1) + prod (at_ 0 1) (at_ 1 0) + e 2 1)
  | .dot ty ty2 sat => some (if sat && dotSat ty ty2 srcs then 0 else e 2 0)
  | .shift w left imm =>
    let n := count imm
    moved (shiftPlace (w / 32) (n / 32) left) fun j => 2 * j + k + if left then n else 2 * n
  | .rot left imm =>
    let n := count imm
    moved (rotPlace (srcs.headD []).length (n / 32) left) fun _ => if left then n % 32 else 2 * (n % 32)
  | .funnel left =>
    let n := (at_ 2 0).val.toNat % 32
    let z := e 0 0 * 2 ^ ((if left then n else 2 + 2 * n) % 3) + e 1 0 * 2 ^ ((if left then n + 1 else 2 * n) % 3)
    if z = 0 then none else some z
  | .pick _ => some (((c.feeds srcs d k).map RWord.err).foldl (fun (x y : Nat) => x + y) 0)
  | .own => none

/-- The checks of an instruction's result words (R161, R186): the residue predicted is the computed word's, moved by the operands' codes. A
compare computes the difference of its operands. -/
def resChecks (c : ResCls) (srcs : List (List RWord)) (words : List RWord) : List WordCheck :=
  let d := match c with
    | .diff imm =>
      let a := srcs.headD []
      let n := a.length
      natWords n (wordsNat a + 2 ^ (32 * n) - (match imm with | some x => x | none => wordsNat ((srcs.drop 1).headD [])) % 2 ^ (32 * n))
    | _ => words
  match d with
  | [] => [{ bad := !(srcs.flatten.all RWord.good), word := none, pred := none }]
  | _ => d.mapIdx fun k w =>
      { bad := !(c.feeds srcs d k).all RWord.good, word := some w.val, pred := (c.shiftOf srcs d k).map fun x => (w.val.toNat % 7 + x) % 7 }

/-- The checks of operands that no result word is computed from (R185, R187, R188): an operand's carried code is the prediction of its own
word. -/
def operandChecks (ws : List RWord) : List WordCheck :=
  ws.map fun w => { bad := !w.good, word := some w.val, pred := some w.code.toNat }

/-- The checks of a result that is the words chosen (R161, SEL): the residue predicted is the chosen word's code. -/
def pickChecks (ws : List RWord) : List WordCheck := operandChecks ws

/-- The checks of result words that no class of `ResCls` predicts, of which a source carries a wrong code. -/
def plainChecks (bad : Bool) (ws : List RWord) : List WordCheck :=
  match ws with
  | [] => [{ bad := bad, word := none, pred := none }]
  | ws => ws.map fun w => { bad := bad, word := some w.val, pred := none }

/-- The class of a node of a reduction or scan (R182, R189): ADD, LOGIC by the weight of its operands' residues, SEL, or FSIG. -/
inductive NodeCls where
  | sum | logic (weight : Nat) | sel | fsig
  deriving DecidableEq, Repr

/-- The check of a node that joins two words to a third. -/
def NodeCls.check (c : NodeCls) (x y w : RWord) : WordCheck :=
  let r := w.val.toNat % 7
  match c with
  | .sum => { bad := !(x.good && y.good), word := some w.val, pred := some ((r + x.err + y.err) % 7) }
  | .logic n => { bad := !(x.good && y.good), word := some w.val, pred := some ((r + n * (x.err + y.err)) % 7) }
  | .sel =>
    let z := if w.val = x.val then x else y
    { bad := !z.good, word := some w.val, pred := some ((r + z.err) % 7) }
  | .fsig => { bad := !(x.good && y.good), word := some w.val, pred := none }

end Sys2Proof.Machine
end

