-- ==== Sys2Proof/Machine/Shell.lean ====
section
/-! DEFINITION. How an instruction word runs: the checks of decode, its outcome, the advance of the PC, and the three shells in which lane
instructions, uniform instructions and team-scoped instructions read their operands, are checked by residue and write their results
(R19, R20, R27, R185 to R193, R203). -/

namespace Sys2Proof.Machine

open Sys2Proof

/-- What an instruction comes to. -/
inductive Res where
  /-- It completes, and the next word follows. -/
  | done (s : State)
  /-- It completes and has set the PC itself. -/
  | jump (s : State)
  /-- It does not complete yet: the PC stays. -/
  | hold (s : State)
  /-- It raises a synchronous cause. -/
  | stop (st : Stop) (s : State)
  deriving DecidableEq, Repr


/-- The place counted for `TSKIP` moves on by one; past the fifteenth the register is zero (R145). -/
def Team.passSkip (t : Team) : Team :=
  if t.handler || t.tskip == 0 then t
  else if t.skipPos ≥ 15 then { t with tskip := 0, skipPos := 0 }
  else { t with skipPos := t.skipPos + 1 }

/-- The team passes the instruction at its PC. -/
def Team.pass (t : Team) (len : Nat) : Team :=
  { (t.setPc (t.pc + BitVec.ofNat 16 len)).passSkip with issued := t.issued + 1 }

/-- An instruction completes: the next word follows. The instruction that ends at word 4,095 stops the team with ILLEGAL (R69). -/
def State.advance (s : State) (uid len : Nat) : State :=
  match s.team? uid with
  | none => s
  | some t => if endsSegment t.pc len then s.takeStop uid len (Stop.of .illegal) else s.putTeam (t.pass len)

/-- A transfer completes: `TSKIP` is zero from here (R145). -/
def State.passed (s : State) (uid : Nat) : State :=
  s.modTeam uid fun t => { t with issued := t.issued + 1, tskip := if t.handler then t.tskip else 0, skipPos := 0 }

/-- A synchronous cause of the instruction at the PC. In handler mode SWTRAP and BREAK are held and the instruction completes (R147). -/
def State.stopAt (s : State) (uid len : Nat) (st : Stop) : State :=
  match s.team? uid with
  | none => s
  | some t =>
    if t.handler && (st.cause == .swtrap || st.cause == .brk) then (s.putTeam (t.holdCause st.cause)).advance uid len
    else s.takeStop uid len st

/-- Finishes an instruction by what it came to. -/
def conclude (uid len : Nat) : Res → State
  | .done s' => s'.advance uid len
  | .jump s' => s'.passed uid
  | .hold s' => s'
  | .stop st s' => s'.stopAt uid len st

/-- Decode refuses a word for a team: it is illegal, or privileged in a team that is not (R27, R79, R80). -/
def Team.refuses (t : Team) (i : Instr) : Bool := !Instr.legal t t.pc i || (Instr.isPriv i && !t.privileged)

/-- Runs a word for a team: ILLEGAL, then PRIV, then its effect (R79, R80). -/
def State.runWord (s : State) (i : Instr) (t : Team) (k : State → Team → Res) : State :=
  if !Instr.legal t t.pc i then s.takeStop t.uid i.length (Stop.of .illegal)
  else if Instr.isPriv i && !t.privileged then s.takeStop t.uid i.length (Stop.of .priv)
  else conclude t.uid i.length (k s t)

/-- Runs a word for the issuing team. -/
def withTeam (i : Instr) (s : State) (k : State → Team → Res) : Out State :=
  match s.cur with
  | none => .fault .noTeam
  | some uid =>
    match s.team? uid with
    | none => .fault .noTeam
    | some t => .next (s.runWord i t k)

/-! ### Residue checks (R184 to R193, R203) -/

/-- The lane that an armed `CKINJ` names for a unit (R203). -/
def Team.injects (t : Team) (unit : Nat) : Option Nat :=
  if t.ckinj.getLsbD 31 && bits t.ckinj.toNat 29 26 == unit then some (bits t.ckinj.toNat 9 0) else none

/-- `CKINJ`.STICKY (R203). -/
def Team.sticky (t : Team) : Bool := t.ckinj.getLsbD 30

/-- The bit that `CKINJ` inverts (R203). -/
def Team.injBit (t : Team) : Word := (1 : Word) <<< bits t.ckinj.toNat 25 21

/-- An injection as a request carries it: once or sticky, with the bit that it inverts. -/
def Team.injCode (t : Team) : Nat := (if t.sticky then 2 else 1) + 4 * bits t.ckinj.toNat 25 21

/-- The injection has been made: ARM clears (R203). -/
def Team.disarm (t : Team) : Team := { t with ckinj := t.ckinj &&& 0x7FFF_FFFF }

/-- What the check of an instruction's results finds: the team and state after counting, replaying and recording, the lanes or groups that
failed, the stop under STOP, and the one whose copied word an injection alters. -/
structure Verdict where
  s : State
  t : Team
  failed : List Nat
  stop : Option Stop
  flip : Option Nat

/-- The base and extension words of an instruction (R195). -/
def recWords (i : Instr) : Nat × Nat :=
  match encode i with
  | [] => (0, 0)
  | b :: rest => (b.toNat, if b.getLsbD 30 then (rest.headD 0).toNat else 0)

/-- `FMT`'s AFMT (R112). -/
def fmtA (f : Word) : Ty := Ty.ofCode (f.extractLsb' 4 4)

/-- The format column of an instruction's price: `mx.mma` takes AFMT of the issuing member (R388). -/
def Team.priceCol (t : Team) (n : Info) : Nat := if n.cls = 27 then (fmtA t.top.fmt).code.toNat else n.col

/-- Adds tokens of replayed passes to a team's debt on a core (R399): the debt saturates, and one that begins takes its place after those that
are there (R393). -/
def Team.addDebt (t : Team) (odd : Bool) (p seq : Nat) : Team :=
  if p = 0 then t
  else if odd then { t with debtOdd := min 65535 (t.debtOdd + p), debtSeqOdd := if t.debtOdd = 0 then seq else t.debtSeqOdd }
  else { t with debtHome := min 65535 (t.debtHome + p), debtSeq := if t.debtHome = 0 then seq else t.debtSeq }

/-- A core's pipe is busy for the cycles of replayed passes or batches: three each (R127, R162, R207). -/
def Core.replays (c : Core) (lane : Bool) (cc passes : Nat) : Core :=
  if passes = 0 then c
  else if lane then { c with laneFree := max c.laneFree cc + 3 * passes }
  else { c with uniFree := max c.uniFree cc + 3 * passes }

/-- The replay of passes on the home and the odd core (R127, R162, R399): the pipe's cycles, and the class entry for each of them as debt. -/
def payReplay (s : State) (t : Team) (i : Instr) (home odd : Nat) : State × Team :=
  match Instr.info i with
  | none => (s, t)
  | some n =>
    let p := 3 * s.price n.cls (t.priceCol n)
    let s' := s.putCore t.home ((s.core t.home).replays n.lane (s.ccOf (clusterOf t.home)) home)
    let s' := if t.pair then s'.putCore (t.home + 1) ((s'.core (t.home + 1)).replays n.lane (s.ccOf (clusterOf t.home)) odd) else s'
    ({ s' with nextId := s.nextId + 1 }, (t.addDebt false (p * home) s.nextId).addDebt true (p * odd) s.nextId)

/-- PRED and FOUND of a check that failed (R195), and whether they took a free value: by a code, the prediction of its class; by an
injection, the computed word's residue and that of the word with the bit inverted (log entry 9). -/
def WordCheck.residues (c : WordCheck) (t : Team) (byCode : Bool) (free : DWord) : Nat × Nat × Bool :=
  let w := c.word.getD (free.extractLsb' 0 32)
  if byCode then
    (match c.pred with | some p => p | none => bits free.toNat 34 32, w.toNat % 7, c.pred.isNone || c.word.isNone)
  else (if c.word.isSome then w.toNat % 7 else bits free.toNat 34 32, (w ^^^ t.injBit).toNat % 7, c.word.isNone)

/-- Checks the results of an instruction, word by word (R186). `ids` are the lanes or groups it executes for, `checks` the checks of each,
`lanesOf` the lanes of each, `passOf` the pass of each on its core (and whether that is the odd core). An instruction
that copies its source's code (R161: moves) has nothing to check, so that an injection alters what it writes (DEDUCED, log entry 9). An
instruction without a result word takes an injection as a mismatch (DESIGN CHOICE, log entry 9); in handler mode MCHECK is held in `TCAUSE`
where CHK is STOP, and not where it is DROP (DESIGN CHOICE, log entry 61). -/
def judge (s : State) (t : Team) (i : Instr) (unit : Nat) (ids : List Nat) (checks : Nat → List WordCheck) (lanesOf : Nat → List Nat)
    (passOf : Nat → Nat × Bool) (copies : Bool) : Verdict :=
  let hit := match t.injects unit with
    | none => none
    | some l => ids.find? fun d => (lanesOf d).contains l
  let bads := ids.filter fun d => (checks d).any WordCheck.bad
  if hit.isNone && bads.isEmpty then { s := s, t := t, failed := [], stop := none, flip := none }
  else
    let s := if hit.isSome then s.count 32 1 else s
    let t' := if hit.isSome then t.disarm else t
    if copies && bads.isEmpty then { s := s, t := t', failed := [], stop := none, flip := hit }
    else
      let failed := ids.filter fun d => bads.contains d || (hit == some d && t.sticky)
      let fixed := ids.filter fun d => !failed.contains d && hit == some d
      let ps := distinct ((failed ++ fixed).map passOf)
      let paid := payReplay s t' i (ps.filter fun p => !p.2).length (ps.filter fun p => p.2).length
      let t' := paid.2
      let s := (paid.1.count unit fixed.length).count 8 failed.length
      match failed with
      | [] => { s := s, t := t', failed := [], stop := none, flip := none }
      | f :: _ =>
        let lanes := failed.flatMap lanesOf
        let byCode := bads.contains f
        let check := ((checks f).find? fun c => !byCode || c.bad).getD { bad := false, word := none, pred := none }
        let rs := check.residues t byCode s.fresh.1
        let s := if rs.2.2 then s.fresh.2 else s
        let kind := if t.handler then 3 else if t.chkStop then 2 else 1
        let rw := recWords i
        let s := s.fileMc
          { kind := kind, unit := unit, asid := t.asid, pair := t.pair, core := t.home, pc := t.pc.toNat, base := rw.1, ext := rw.2,
            tlin := t.lin, lanes := lanes, pred := rs.1, found := rs.2.1, addr := 0, synd := 0, level := 0 }
        if t.chkStop then
          { s := s, t := t', failed := failed, stop := some (Stop.lanesOf .mcheck (maskOf lanes)), flip := none }
        else
          let t' := { t' with dropl := t'.dropl ||| maskOf lanes }
          let t' := if t.handler && t.tcw.getLsbD 13 then t'.holdCause .mcheck else t'
          { s := s, t := t', failed := failed, stop := none, flip := none }

/-- Alters the first word of a copied result (R203): of a result of two words the injection meets the first, as in `judge` (DESIGN CHOICE,
log entry 9). -/
def flipFirst (t : Team) : List RWord → List RWord
  | [] => []
  | w :: ws => { w with val := w.val ^^^ t.injBit } :: ws

/-- A register word carries its own residue in each of a run. -/
def goodRun (ws : List RWord) : Bool := ws.all RWord.good

/-! ### Lane instructions -/

/-- What a lane instruction gives in a lane: the words of its destination, a predicate, and the rounding draws it took (R56). -/
structure LRes where
  words : List RWord
  pred : Option (Nat × Bool)
  draws : Nat
  deriving DecidableEq, Repr

/-- Words only. -/
def LRes.val (ws : List RWord) : LRes := { words := ws, pred := none, draws := 0 }

/-- A number as `n` words. -/
def LRes.num (n x : Nat) : LRes := LRes.val (natWords n x)

/-- A predicate only. -/
def LRes.flag (p : Nat) (b : Bool) : LRes := { words := [], pred := some (p, b), draws := 0 }

/-- Writes a lane's result (R57: draws count at write-back). -/
def Team.writeLane (t : Team) (d lane : Nat) (r : LRes) : Team :=
  let t := t.vRun d lane r.words
  let t := match r.pred with
    | some (p, b) => t.pPut p lane b
    | none => t
  if r.draws = 0 then t
  else { t with rounds := SMap.set 0 t.rounds lane (SMap.get 0 t.rounds lane + BitVec.ofNat 32 r.draws) }

/-- A dropped lane's result: zero, residue zero, predicate false (R191). -/
def LRes.zeroed (r : LRes) : LRes :=
  { words := r.words.map fun _ => RWord.zero, pred := r.pred.map fun x => (x.1, false), draws := r.draws }

/-- The pass of a lane (R18). -/
def Team.lanePass (t : Team) (l : Nat) : Nat × Bool := (l / 32, t.pair && decide (l ≥ t.lanes / 2))

/-- Writes the results of a lane instruction. -/
def Team.writeLanes (t : Team) (d : Nat) (lanes : List Nat) (res : Nat → LRes) : Team :=
  lanes.foldl (fun (t : Team) l => t.writeLane d l (res l)) t

/-- A lane instruction (R18, R74, R75): every lane that it executes for reads its sources before any is written; `chk` gives the checks of a
lane's result words. -/
def laneWith (i : Instr) (h : Hdr) (unit : Nat) (copies : Bool) (d : RegNo) (chk : Team → Nat → List RWord → List WordCheck)
    (f : Team → Nat → LRes) (s : State) (t : Team) : Res :=
  let lanes := t.lanesFor h
  let v := judge s t i unit lanes (fun l => chk t l (f t l).words) (fun l => [l]) t.lanePass copies
  match v.stop with
  | some st => .stop st (v.s.putTeam v.t)
  | none =>
    let res := fun (l : Nat) =>
      if v.failed.contains l then (f t l).zeroed
      else if v.flip = some l then { f t l with words := flipFirst t (f t l).words }
      else f t l
    .done (v.s.putTeam (v.t.writeLanes d.toNat lanes res))

/-- The runs of registers that a lane reads, each with its length. -/
def Team.laneSrcs (t : Team) (srcs : List (RegNo × Nat)) (l : Nat) : List (List RWord) :=
  srcs.map fun p => t.rRun p.1.toNat p.2 l

/-- A lane instruction over the values of its sources, which it checks. -/
def laneOp (i : Instr) (h : Hdr) (unit : Nat) (d : RegNo) (srcs : List (RegNo × Nat)) (f : Team → Nat → List Nat → LRes)
    (s : State) (t : Team) : Res :=
  laneWith i h unit false d (fun t l => resChecks (Instr.resCls i) (t.laneSrcs srcs l))
    (fun t l => f t l ((t.laneSrcs srcs l).map wordsNat)) s t

/-! ### Uniform instructions -/

/-- What a uniform instruction gives in a group: the words of its destination and a predicate. -/
structure URes where
  words : List RWord
  pred : Option (Nat × Bool)
  deriving DecidableEq, Repr

/-- A number as `n` words. -/
def URes.num (n x : Nat) : URes := { words := natWords n x, pred := none }

/-- A predicate only. -/
def URes.flag (p : Nat) (b : Bool) : URes := { words := [], pred := some (p, b) }

/-- A failed group's result (R191). -/
def URes.zeroed (r : URes) : URes := { words := r.words.map fun _ => RWord.zero, pred := r.pred.map fun x => (x.1, false) }

/-- Writes a group's result. -/
def Team.writeGroup (t : Team) (d g : Nat) (r : URes) : Team :=
  let t := t.sWrite d g r.words
  match r.pred with
  | some (p, b) => t.qPut p g b
  | none => t

/-- Writes the results of a uniform instruction. -/
def Team.writeGroups (t : Team) (d : Nat) (gs : List Nat) (res : Nat → URes) : Team :=
  gs.foldl (fun (t : Team) g => t.writeGroup d g (res g)) t

/-- The batch of a group among those a uniform instruction executes for (R19). -/
def Team.groupPass (t : Team) (gs : List Nat) (g : Nat) : Nat × Bool :=
  let odd := t.pair && decide (g ≥ t.groups / 2)
  ((gs.filter fun x => decide (x < g) && (t.pair && decide (x ≥ t.groups / 2)) == odd).length / 4, odd)

/-- Checks the results of a uniform instruction, by group. -/
def judgeGroups (s : State) (t : Team) (i : Instr) (gs : List Nat) (checks : Nat → List WordCheck) (copies : Bool) : Verdict :=
  judge s t i 2 gs checks t.groupActive (t.groupPass gs) copies

/-- A uniform instruction (R19): it executes once for each qualifying group. -/
def groupWith (i : Instr) (h : Hdr) (copies : Bool) (d : RegNo) (chk : Team → Nat → List RWord → List WordCheck) (f : Team → Nat → URes)
    (s : State) (t : Team) : Res :=
  let gs := t.groupsFor h
  let v := judgeGroups s t i gs (fun g => chk t g (f t g).words) copies
  match v.stop with
  | some st => .stop st (v.s.putTeam v.t)
  | none =>
    let res := fun (g : Nat) =>
      if v.failed.contains g then (f t g).zeroed
      else if v.flip = some g then { f t g with words := flipFirst t (f t g).words }
      else f t g
    .done (v.s.putTeam (v.t.writeGroups d.toNat gs res))

/-- The runs of `s` registers that a group reads. -/
def Team.groupSrcs (t : Team) (srcs : List (RegNo × Nat)) (g : Nat) : List (List RWord) :=
  srcs.map fun p => t.sRun p.1.toNat p.2 g

/-- A uniform instruction over the values of its sources, which it checks. -/
def groupOp (i : Instr) (h : Hdr) (d : RegNo) (srcs : List (RegNo × Nat)) (f : Team → Nat → List Nat → URes) (s : State) (t : Team) : Res :=
  groupWith i h false d (fun t g => resChecks (Instr.resCls i) (t.groupSrcs srcs g))
    (fun t g => f t g ((t.groupSrcs srcs g).map wordsNat)) s t

/-! ### Team-scoped instructions (R20) -/

/-- A team-scoped instruction: it executes once if a group qualifies, with the operands of the lead group, and writes any result in every
qualifying group. A failed check makes it write zero to its `n` destination words (R191). `k` gets the state, the team, the qualifying
groups, the lead group and the values. -/
def teamOp (i : Instr) (h : Hdr) (d : RegNo) (n : Nat) (srcs : List (RegNo × Nat))
    (k : State → Team → List Nat → Nat → List Nat → Res) (s : State) (t : Team) : Res :=
  match t.groupsFor h with
  | [] => .done s
  | lead :: rest =>
    let gs := lead :: rest
    let v := judge s t i 2 [lead] (fun g => operandChecks (t.groupSrcs srcs g).flatten) t.groupActive (fun _ => (0, false)) false
    match v.stop with
    | some st => .stop st (v.s.putTeam v.t)
    | none =>
      if v.failed.isEmpty then k (v.s.putTeam v.t) v.t gs lead ((t.groupSrcs srcs lead).map wordsNat)
      else .done (v.s.putTeam (v.t.sAll d.toNat gs (List.replicate n RWord.zero)))

/-- A stop of a team-scoped instruction whose cause has lanes names the active lanes of the lead group (R143). -/
def Team.leadStop (t : Team) (lead : Nat) (c : Cause) : Stop := Stop.lanesOf c (t.groupsMask [lead])

/-- Writes a number to `n` destination words in every qualifying group. -/
def State.answer (s : State) (uid : Nat) (d : RegNo) (n : Nat) (gs : List Nat) (x : Nat) : State :=
  s.modTeam uid fun t => t.sAll d.toNat gs (natWords n x)

/-- An engine command that needs a handle: without a free slot it waits (R28, R32). `k` gets the state in which the handle has been written
to `d`, the slot, and the handle. -/
def withHandle (s : State) (t : Team) (d : RegNo) (gs : List Nat) (eng : Nat) (k : State → HRef → BitVec 16 → Res) : Res :=
  match ((s.team? t.uid).getD t).alloc eng with
  | none => .hold s
  | some (slot, hnd, t) => k (s.putTeam (t.sAll d.toNat gs [RWord.ofNat hnd.toNat])) { uid := t.uid, slot := slot, gid := t.gid } hnd

end Sys2Proof.Machine
end

