-- ==== Sys2Proof/Machine/Float.lean ====
section
/-! DEFINITION. Floating-point values and their formats: exact values, rounding under the six modes with the stochastic draw, conversion, and
exact sums and products (R42 to R47, R53 to R58). -/

namespace Sys2Proof.Machine

open Sys2Proof

/-- The floating-point formats (R42). -/
inductive Fmt where
  | f32 | bf16 | f16 | e5m2 | e4m3 | e2m1 | e3m5
  deriving DecidableEq, Repr

/-- Fraction bits (R42). -/
def Fmt.frac : Fmt → Nat
  | .f32 => 23 | .bf16 => 7 | .f16 => 10 | .e5m2 => 2 | .e4m3 => 3 | .e2m1 => 1 | .e3m5 => 5

/-- Exponent bits (R42). -/
def Fmt.expBits : Fmt → Nat
  | .f32 => 8 | .bf16 => 8 | .f16 => 5 | .e5m2 => 5 | .e4m3 => 4 | .e2m1 => 2 | .e3m5 => 3

/-- Exponent bias (R42). -/
def Fmt.bias : Fmt → Nat
  | .f32 => 127 | .bf16 => 127 | .f16 => 15 | .e5m2 => 15 | .e4m3 => 7 | .e2m1 => 1 | .e3m5 => 7

/-- The place of the sign bit; E3M5 has none and reads 0 there (R42). -/
def Fmt.signBit (f : Fmt) : Nat := f.frac + f.expBits

/-- The encoding of the largest finite magnitude (R42). -/
def Fmt.maxBits : Fmt → Nat
  | .f32 => 0x7F7FFFFF | .bf16 => 0x7F7F | .f16 => 0x7BFF | .e5m2 => 0x7B | .e4m3 => 0x7E | .e2m1 => 7 | .e3m5 => 0xFF

/-- The canonical NaN, or what stands for it (R46). -/
def Fmt.nan : Fmt → Nat
  | .f32 => 0x7FC00000 | .bf16 => 0x7FC0 | .f16 => 0x7E00 | .e5m2 => 0x7E | .e4m3 => 0x7F | .e2m1 => 0 | .e3m5 => 0

/-- FP32, BF16 and FP16, whose overflow is decided by R54. -/
def Fmt.wide : Fmt → Bool
  | .f32 | .bf16 | .f16 => true
  | _ => false

/-- The format holds infinities (R42). -/
def Fmt.hasInf : Fmt → Bool
  | .f32 | .bf16 | .f16 | .e5m2 => true
  | _ => false

/-- The format of a type (R42). -/
def tyFmt : Ty → Option Fmt
  | .f16 => some .f16 | .bf16 => some .bf16 | .f32 => some .f32 | .e4m3 => some .e4m3 | .e2m1 => some .e2m1 | .e5m2 => some .e5m2
  | _ => none

/-- A value: NaN, an infinity, or (-1)^neg · m · 2^e. -/
inductive FVal where
  | nan
  | inf (neg : Bool)
  | fin (neg : Bool) (m : Nat) (e : Int)
  deriving DecidableEq, Repr

/-- The value of an encoding (R43). -/
def Fmt.val (f : Fmt) (x : Nat) : FVal :=
  let p := f.frac
  let frac := x % 2 ^ p
  let ex := x / 2 ^ p % 2 ^ f.expBits
  let neg := if f = .e3m5 then false else x.testBit f.signBit
  let top := 2 ^ f.expBits - 1
  if f.hasInf && ex == top then (if frac = 0 then .inf neg else .nan)
  else if f = .e4m3 ∧ ex = top ∧ frac = 7 then .nan
  else if ex = 0 then .fin neg frac (1 - (f.bias : Int) - p)
  else .fin neg (2 ^ p + frac) ((ex : Int) - f.bias - p)

/-- The floor of the binary logarithm of a positive number. -/
def log2 (m : Nat) : Nat := Nat.log2 m

/-- A rounded magnitude: the integer multiple of the quantum, rounded up or not (R53, R55). `sticky` says that the exact magnitude is a little
more than `m`; `k` is the number of bits that go. -/
def roundInt (rm draw : Nat) (neg : Bool) (m : Nat) (sticky : Bool) (k : Nat) : Nat :=
  let n := m / 2 ^ k
  let rem := m % 2 ^ k
  let exact := rem == 0 && !sticky
  let half := if k = 0 then 0 else 2 ^ (k - 1)
  let above := if k = 0 then false else decide (rem > half) || (rem == half && sticky)
  let tie := decide (k > 0) && rem == half && !sticky
  let up := match rm with
    | 0 => above || (tie && n % 2 == 1)
    | 1 => false
    | 2 => !neg
    | 3 => neg
    | 4 => above || tie
    | _ => decide (draw < rem * 65536 / 2 ^ k)
  if exact || !up then n else n + 1

/-- Rounds a magnitude to an integer: m · 2^e. -/
def roundToInt (rm draw : Nat) (neg : Bool) (m : Nat) (sticky : Bool) (e : Int) : Nat :=
  if e ≥ 0 then m * 2 ^ e.toNat else roundInt rm draw neg m sticky (-e).toNat

/-- The encoding of an infinity (R42). -/
def Fmt.infBits (f : Fmt) : Nat := (2 ^ f.expBits - 1) * 2 ^ f.frac

/-- A magnitude's encoding with its sign. -/
def Fmt.signed (f : Fmt) (neg : Bool) (mag : Nat) : Nat := if neg then mag + 2 ^ f.signBit else mag

/-- Where a rounded magnitude passes the largest finite one (R47, R54). -/
def Fmt.overflow (f : Fmt) (rm : Nat) (neg : Bool) : Nat :=
  if f.wide then
    let toInf := match rm with
      | 1 => false
      | 2 => !neg
      | 3 => neg
      | _ => true
    f.signed neg (if toInf then f.infBits else f.maxBits)
  else f.signed neg f.maxBits

/-- Rounds a finite magnitude into a format (R45, R47, R53 to R55): (-1)^neg · m · 2^e, a little more where `sticky`. A sticky magnitude
comes with at least 40 bits more than the format keeps. -/
def Fmt.roundFin (f : Fmt) (rm draw : Nat) (neg : Bool) (m : Nat) (sticky : Bool) (e : Int) : Nat :=
  if f = .e3m5 ∧ neg then 0
  else if m = 0 then
    (if sticky && (rm == 2 && !neg || rm == 3 && neg) then f.signed neg 1 else f.signed neg 0)
  else
    let p := f.frac
    let qmin : Int := 1 - (f.bias : Int) - p
    let q : Int := max ((log2 m : Int) + e - p) qmin
    let n := if q ≤ e then m * 2 ^ (e - q).toNat else roundInt rm draw neg m sticky (q - e).toNat
    let mag := n + (q - qmin).toNat * 2 ^ p
    if mag > f.maxBits then f.overflow rm neg else f.signed neg mag

/-- Rounds a value into a format (R46, R47). -/
def Fmt.round (f : Fmt) (rm draw : Nat) (v : FVal) : Nat :=
  match v with
  | .nan => f.nan
  | .inf neg =>
    if f = .e3m5 then (if neg then 0 else 0xFF)
    else f.signed neg (if f.hasInf then f.infBits else f.maxBits)
  | .fin neg m e => f.roundFin rm draw neg m false e

/-- A conversion into an integer type (R47). -/
def toIntTy (ty : Ty) (rm draw : Nat) (v : FVal) : Nat :=
  let lo : Int := if ty.isSigned then -(2 ^ (ty.width - 1) : Nat) else 0
  let hi : Int := if ty.isSigned then (2 ^ (ty.width - 1) : Nat) - 1 else (2 ^ ty.width : Nat) - 1
  match v with
  | .nan => 0
  | .inf neg => wrap ty.width (if neg then lo else hi)
  | .fin neg m e =>
    let n : Int := roundToInt rm draw neg m false e
    let z := if neg then -n else n
    wrap ty.width (if z < lo then lo else if z > hi then hi else z)

/-- An integer as a value; zero is positive. -/
def FVal.ofInt (z : Int) : FVal := .fin (decide (z < 0)) z.natAbs 0

/-- Whether a conversion has a rounding step (R47): none where the destination represents every source value. -/
def convRounds (src dst : Fmt) : Bool :=
  !(src == dst || match src, dst with
    | .f16, .f32 | .bf16, .f32 => true
    | .e5m2, .f16 | .e5m2, .bf16 | .e5m2, .f32 => true
    | .e4m3, .f16 | .e4m3, .bf16 | .e4m3, .f32 => true
    | .e2m1, .f16 | .e2m1, .bf16 | .e2m1, .f32 | .e2m1, .e4m3 | .e2m1, .e5m2 => true
    | _, _ => false)

/-! ### Exact arithmetic -/

/-- The signed integer that a finite value has on a grid of 2^g, for g not above its exponent. -/
def onGrid (neg : Bool) (m : Nat) (e g : Int) : Int :=
  let x : Int := m * 2 ^ (e - g).toNat
  if neg then -x else x

/-- A value's complement in sign. -/
def FVal.neg : FVal → FVal
  | .nan => .nan
  | .inf s => .inf (!s)
  | .fin s m e => .fin (!s) m e

/-- The exact sum (R46): a sum of zeros of one sign keeps it; every other zero sum is +0, or −0 under RDN. -/
def FVal.add (rm : Nat) (x y : FVal) : FVal :=
  match x, y with
  | .nan, _ => .nan
  | _, .nan => .nan
  | .inf a, .inf b => if a = b then .inf a else .nan
  | .inf a, _ => .inf a
  | _, .inf b => .inf b
  | .fin a m e, .fin b n f =>
    let g := min e f
    let z := onGrid a m e g + onGrid b n f g
    if z = 0 then (if m = 0 ∧ n = 0 ∧ a = b then .fin a 0 0 else .fin (rm == 3) 0 0)
    else .fin (decide (z < 0)) z.natAbs g

/-- The exact product (R46). -/
def FVal.mul (x y : FVal) : FVal :=
  match x, y with
  | .nan, _ => .nan
  | _, .nan => .nan
  | .inf a, .inf b => .inf (a != b)
  | .inf a, .fin b n _ => if n = 0 then .nan else .inf (a != b)
  | .fin a m _, .inf b => if m = 0 then .nan else .inf (a != b)
  | .fin a m e, .fin b n f => .fin (a != b) (m * n) (e + f)

/-- The order of two values that are not NaN; zeros of both signs are equal. -/
def FVal.lt (x y : FVal) : Bool :=
  match x, y with
  | .nan, _ => false
  | _, .nan => false
  | .inf a, .inf b => a && !b
  | .inf a, _ => a
  | _, .inf b => !b
  | .fin a m e, .fin b n f =>
    let g := min e f
    decide (onGrid a m e g < onGrid b n f g)

/-- Equality of two values that are not NaN. -/
def FVal.eqv (x y : FVal) : Bool := x != .nan && y != .nan && !x.lt y && !y.lt x

/-- A value's sign. -/
def FVal.isNeg : FVal → Bool
  | .nan => false
  | .inf s => s
  | .fin s _ _ => s

/-- A value is finite. -/
def FVal.isFin : FVal → Bool
  | .fin _ _ _ => true
  | _ => false

/-- A value is a zero. -/
def FVal.isZero : FVal → Bool
  | .fin _ m _ => m == 0
  | _ => false

/-- The larger of two encodings as `v.fmax` chooses it (R165): a NaN loses to a number, two NaNs give the canonical NaN, and +0 is above
−0. -/
def Fmt.maxOf (f : Fmt) (a b : Nat) : Nat :=
  let x := f.val a
  let y := f.val b
  if x = .nan ∧ y = .nan then f.nan
  else if x = .nan then b
  else if y = .nan then a
  else if x.lt y then b
  else if y.lt x then a
  else if x.isNeg then b else a

/-- The smaller of two encodings as `v.fmin` chooses it (R165). -/
def Fmt.minOf (f : Fmt) (a b : Nat) : Nat :=
  let x := f.val a
  let y := f.val b
  if x = .nan ∧ y = .nan then f.nan
  else if x = .nan then b
  else if y = .nan then a
  else if x.lt y then a
  else if y.lt x then b
  else if x.isNeg then a else b

/-! ### Draws of a lane (R56) -/

/-- The `k`-th draw from now of a lane: 16 bits. -/
def Team.draw (t : Team) (lane k : Nat) : Nat :=
  let n := (t.lin * t.lanes + lane) % 2 ^ 32
  let c := ((SMap.get 0 t.rounds lane).toNat + k) % 2 ^ 32
  kg16 t.srSeed 0x80000000 (n * 2 ^ 32 + c)

/-- The draws that one rounding step takes in the current mode (R55). -/
def Team.step (t : Team) : Nat := if t.rm = 5 then 1 else 0

end Sys2Proof.Machine
end

