-- ==== Sys2Proof/Machine/Uniform.lean ====
section
/-! DEFINITION. The uniform arithmetic, moves and predicates, opcodes 0x00 to 0x0F of the uniform pipe (R99 to R103), and the ALU functions
that the lane engine shares with them. -/

namespace Sys2Proof.Machine

open Sys2Proof

/-- The registers that a value of a type takes (R22). -/
def regsOf (ty : Ty) : Nat := if ty.is64 then 2 else 1

/-! ### Functions of values (R101) -/

/-- The sum. -/
def aluAdd (ty : Ty) (a b : Nat) : Nat := (a + b) % 2 ^ ty.width
/-- The difference. -/
def aluSub (ty : Ty) (a b : Nat) : Nat := wrap ty.width ((a : Int) - b)
/-- The low word of the product. -/
def aluMul (ty : Ty) (a b : Nat) : Nat := a * b % 2 ^ ty.width
/-- The high word of the product. -/
def aluMulh (ty : Ty) (a b : Nat) : Nat := wrap (2 * ty.width) (tyVal ty a * tyVal ty b) / 2 ^ ty.width
/-- The bitwise operations. -/
def aluAnd (ty : Ty) (a b : Nat) : Nat := (a &&& b) % 2 ^ ty.width
/-- OR. -/
def aluOr (ty : Ty) (a b : Nat) : Nat := (a ||| b) % 2 ^ ty.width
/-- XOR. -/
def aluXor (ty : Ty) (a b : Nat) : Nat := (a ^^^ b) % 2 ^ ty.width
/-- AND NOT. -/
def aluAndn (ty : Ty) (a b : Nat) : Nat := a % 2 ^ ty.width &&& notBits ty.width b
/-- The lesser value under the type. -/
def aluMin (ty : Ty) (a b : Nat) : Nat := if tyVal ty b < tyVal ty a then b % 2 ^ ty.width else a % 2 ^ ty.width
/-- The greater value under the type. -/
def aluMax (ty : Ty) (a b : Nat) : Nat := if tyVal ty b > tyVal ty a then b % 2 ^ ty.width else a % 2 ^ ty.width
/-- A 64-bit address plus an extended, shifted 32-bit offset. -/
def aluLea (ty : Ty) (a b sh : Nat) : Nat := wrap 64 ((a : Int) + tyVal ty b * (2 ^ sh : Nat))
/-- The count of a register shift: the low register of B, unsigned. -/
def shiftCount (b : Nat) : Nat := b % 2 ^ 32
/-- The count of an immediate shift: IMM8[5:0] for b64, IMM8 for b32. -/
def immCount (ty : Ty) (imm : BitVec 8) : Nat := if ty.is64 then imm.toNat % 64 else imm.toNat
/-- An immediate extended by sign to the type's width. -/
def immSext (ty : Ty) {w : Nat} (imm : BitVec w) : Nat := wrap ty.width imm.toInt
/-- The value that `s.movi` and `v.movi` give: by sign for s types, by zero for n32 (R101). -/
def immMov (ty : Ty) (imm : BitVec 16) : Nat := if ty.isSigned then immSext ty imm else imm.toNat

/-- A binary uniform instruction on two registers of its type. -/
def groupBin (i : Instr) (h : Hdr) (ty : Ty) (d a b : RegNo) (f : Nat → Nat → Nat) (s : State) (t : Team) : Res :=
  groupOp i h d [(a, regsOf ty), (b, regsOf ty)] (fun _ _ vs => URes.num (regsOf ty) (f (vs.headD 0) ((vs.drop 1).headD 0))) s t

/-- A uniform instruction on one register of its type. -/
def groupUn (i : Instr) (h : Hdr) (ty : Ty) (d a : RegNo) (f : Nat → Nat) (s : State) (t : Team) : Res :=
  groupOp i h d [(a, regsOf ty)] (fun _ _ vs => URes.num (regsOf ty) (f (vs.headD 0))) s t

/-! ### Meanings -/

/-- `s.add` (R101). -/
def execSAdd (h : Hdr) (ty : Ty) (d a b : RegNo) (s : State) : Out State :=
  withTeam (.sAdd h ty d a b) s (groupBin (.sAdd h ty d a b) h ty d a b (aluAdd ty))

/-- `s.sub` (R101). -/
def execSSub (h : Hdr) (ty : Ty) (d a b : RegNo) (s : State) : Out State :=
  withTeam (.sSub h ty d a b) s (groupBin (.sSub h ty d a b) h ty d a b (aluSub ty))

/-- `s.mul` (R101). -/
def execSMul (h : Hdr) (ty : Ty) (d a b : RegNo) (s : State) : Out State :=
  withTeam (.sMul h ty d a b) s (groupBin (.sMul h ty d a b) h ty d a b (aluMul ty))

/-- `s.mulh` (R101). -/
def execSMulh (h : Hdr) (ty : Ty) (d a b : RegNo) (s : State) : Out State :=
  withTeam (.sMulh h ty d a b) s (groupBin (.sMulh h ty d a b) h ty d a b (aluMulh ty))

/-- `s.and` (R101). -/
def execSAnd (h : Hdr) (ty : Ty) (d a b : RegNo) (s : State) : Out State :=
  withTeam (.sAnd h ty d a b) s (groupBin (.sAnd h ty d a b) h ty d a b (aluAnd ty))

/-- `s.or` (R101). -/
def execSOr (h : Hdr) (ty : Ty) (d a b : RegNo) (s : State) : Out State :=
  withTeam (.sOr h ty d a b) s (groupBin (.sOr h ty d a b) h ty d a b (aluOr ty))

/-- `s.xor` (R101). -/
def execSXor (h : Hdr) (ty : Ty) (d a b : RegNo) (s : State) : Out State :=
  withTeam (.sXor h ty d a b) s (groupBin (.sXor h ty d a b) h ty d a b (aluXor ty))

/-- `s.andn` (R101). -/
def execSAndn (h : Hdr) (ty : Ty) (d a b : RegNo) (s : State) : Out State :=
  withTeam (.sAndn h ty d a b) s (groupBin (.sAndn h ty d a b) h ty d a b (aluAndn ty))

/-- `s.shl` (R101). -/
def execSShl (h : Hdr) (ty : Ty) (d a b : RegNo) (s : State) : Out State :=
  withTeam (.sShl h ty d a b) s (groupBin (.sShl h ty d a b) h ty d a b fun x n => shl ty.width x (shiftCount n))

/-- `s.shr` (R101). -/
def execSShr (h : Hdr) (ty : Ty) (d a b : RegNo) (s : State) : Out State :=
  withTeam (.sShr h ty d a b) s (groupBin (.sShr h ty d a b) h ty d a b fun x n => shr ty.width x (shiftCount n))

/-- `s.sra` (R101). -/
def execSSra (h : Hdr) (ty : Ty) (d a b : RegNo) (s : State) : Out State :=
  withTeam (.sSra h ty d a b) s (groupBin (.sSra h ty d a b) h ty d a b fun x n => sra ty.width x (shiftCount n))

/-- `s.min` (R101). -/
def execSMin (h : Hdr) (ty : Ty) (d a b : RegNo) (s : State) : Out State :=
  withTeam (.sMin h ty d a b) s (groupBin (.sMin h ty d a b) h ty d a b (aluMin ty))

/-- `s.max` (R101). -/
def execSMax (h : Hdr) (ty : Ty) (d a b : RegNo) (s : State) : Out State :=
  withTeam (.sMax h ty d a b) s (groupBin (.sMax h ty d a b) h ty d a b (aluMax ty))

/-- `s.lea` (R101): pairs in D and A, one register in B. -/
def execSLea (h : Hdr) (ty : Ty) (d a b : RegNo) (sh : BitVec 4) (s : State) : Out State :=
  withTeam (.sLea h ty d a b sh) s (groupOp (.sLea h ty d a b sh) h d [(a, 2), (b, 1)]
    fun _ _ vs => URes.num 2 (aluLea ty (vs.headD 0) ((vs.drop 1).headD 0) sh.toNat))

/-- `s.addi` (R101). -/
def execSAddi (h : Hdr) (ty : Ty) (d a : RegNo) (imm : BitVec 8) (s : State) : Out State :=
  withTeam (.sAddi h ty d a imm) s (groupUn (.sAddi h ty d a imm) h ty d a fun x => aluAdd ty x (immSext ty imm))

/-- `s.andi` (R101). -/
def execSAndi (h : Hdr) (ty : Ty) (d a : RegNo) (imm : BitVec 8) (s : State) : Out State :=
  withTeam (.sAndi h ty d a imm) s (groupUn (.sAndi h ty d a imm) h ty d a fun x => aluAnd ty x imm.toNat)

/-- `s.ori` (R101). -/
def execSOri (h : Hdr) (ty : Ty) (d a : RegNo) (imm : BitVec 8) (s : State) : Out State :=
  withTeam (.sOri h ty d a imm) s (groupUn (.sOri h ty d a imm) h ty d a fun x => aluOr ty x imm.toNat)

/-- `s.xori` (R101). -/
def execSXori (h : Hdr) (ty : Ty) (d a : RegNo) (imm : BitVec 8) (s : State) : Out State :=
  withTeam (.sXori h ty d a imm) s (groupUn (.sXori h ty d a imm) h ty d a fun x => aluXor ty x imm.toNat)

/-- `s.shli` (R101). -/
def execSShli (h : Hdr) (ty : Ty) (d a : RegNo) (imm : BitVec 8) (s : State) : Out State :=
  withTeam (.sShli h ty d a imm) s (groupUn (.sShli h ty d a imm) h ty d a fun x => shl ty.width x (immCount ty imm))

/-- `s.shri` (R101). -/
def execSShri (h : Hdr) (ty : Ty) (d a : RegNo) (imm : BitVec 8) (s : State) : Out State :=
  withTeam (.sShri h ty d a imm) s (groupUn (.sShri h ty d a imm) h ty d a fun x => shr ty.width x (immCount ty imm))

/-- `s.srai` (R101). -/
def execSSrai (h : Hdr) (ty : Ty) (d a : RegNo) (imm : BitVec 8) (s : State) : Out State :=
  withTeam (.sSrai h ty d a imm) s (groupUn (.sSrai h ty d a imm) h ty d a fun x => sra ty.width x (immCount ty imm))

/-- `s.movi` (R101). -/
def execSMovi (h : Hdr) (ty : Ty) (d : RegNo) (imm : BitVec 16) (s : State) : Out State :=
  withTeam (.sMovi h ty d imm) s (groupOp (.sMovi h ty d imm) h d [] fun _ _ _ => URes.num (regsOf ty) (immMov ty imm))

/-- `s.movhi` (R101): the low half of D is unchanged. -/
def execSMovhi (h : Hdr) (d : RegNo) (imm : BitVec 16) (s : State) : Out State :=
  withTeam (.sMovhi h d imm) s (groupOp (.sMovhi h d imm) h d []
    fun t g _ => URes.num 1 (imm.toNat * 2 ^ 16 + wordsNat (t.sRun d.toNat 1 g) % 2 ^ 16))

/-- `s.cmp` (R102). -/
def execSCmp (h : Hdr) (cc : Cc) (ty : Ty) (q : BitVec 3) (a b : RegNo) (s : State) : Out State :=
  withTeam (.sCmp h cc ty q a b) s (groupOp (.sCmp h cc ty q a b) h 192 [(a, regsOf ty), (b, regsOf ty)]
    fun _ _ vs => URes.flag q.toNat (Cc.holds cc (tyVal ty (vs.headD 0)) (tyVal ty ((vs.drop 1).headD 0))))

/-- `s.cmpi` (R102). -/
def execSCmpi (h : Hdr) (cc : Cc) (ty : Ty) (q : BitVec 3) (a : RegNo) (imm : BitVec 8) (s : State) : Out State :=
  withTeam (.sCmpi h cc ty q a imm) s (groupOp (.sCmpi h cc ty q a imm) h 192 [(a, regsOf ty)]
    fun _ _ vs => URes.flag q.toNat (Cc.holds cc (tyVal ty (vs.headD 0)) (immCmp ty imm)))

/-- `s.sel` (R102): the code of the source chosen is checked (R161, R187). -/
def execSSel (h : Hdr) (ty : Ty) (d a b : RegNo) (q : BitVec 3) (neg : Bool) (s : State) : Out State :=
  withTeam (.sSel h ty d a b q neg) s (groupWith (.sSel h ty d a b q neg) h false d
    (fun t g _ => pickChecks (t.sRun (if t.qGet q.toNat g != neg then a else b).toNat (regsOf ty) g))
    fun t g => { words := t.sRun (if t.qGet q.toNat g != neg then a else b).toNat (regsOf ty) g, pred := none })

/-- `s.mov` (R103): the word moves with its code. -/
def execSMov (h : Hdr) (ty : Ty) (d a b : RegNo) (s : State) : Out State :=
  withTeam (.sMov h ty d a b) s (groupWith (.sMov h ty d a b) h true d (fun _ _ _ => [])
    fun t g => { words := t.sRun a.toNat (regsOf ty) g, pred := none })

/-- `s.vrd` (R103): reads lane g·G + c, active or not. -/
def execSVrd (h : Hdr) (ty : Ty) (d a b c : RegNo) (s : State) : Out State :=
  withTeam (.sVrd h ty d a b c) s (groupWith (.sVrd h ty d a b c) h true d (fun _ _ _ => [])
    fun t g => { words := t.rRun a.toNat (regsOf ty) (g * t.group + c.toNat), pred := none })

/-- `s.vrdf` (R103): reads the lowest-numbered active lane. -/
def execSVrdf (h : Hdr) (ty : Ty) (d a b : RegNo) (s : State) : Out State :=
  withTeam (.sVrdf h ty d a b) s (groupWith (.sVrdf h ty d a b) h true d (fun _ _ _ => [])
    fun t g => { words := t.rRun a.toNat (regsOf ty) ((t.groupActive g).headD 0), pred := none })

/-- A uniform predicate instruction. -/
def groupPred (i : Instr) (h : Hdr) (q : BitVec 3) (f : Team → Nat → Bool) (s : State) (t : Team) : Res :=
  groupOp i h 192 [] (fun t g _ => URes.flag q.toNat (f t g)) s t

/-- `s.qand` (R102). -/
def execSQand (h : Hdr) (q qa qb : BitVec 3) (s : State) : Out State :=
  withTeam (.sQand h q qa qb) s (groupPred (.sQand h q qa qb) h q fun t g => t.qGet qa.toNat g && t.qGet qb.toNat g)

/-- `s.qor` (R102). -/
def execSQor (h : Hdr) (q qa qb : BitVec 3) (s : State) : Out State :=
  withTeam (.sQor h q qa qb) s (groupPred (.sQor h q qa qb) h q fun t g => t.qGet qa.toNat g || t.qGet qb.toNat g)

/-- `s.qxor` (R102). -/
def execSQxor (h : Hdr) (q qa qb : BitVec 3) (s : State) : Out State :=
  withTeam (.sQxor h q qa qb) s (groupPred (.sQxor h q qa qb) h q fun t g => t.qGet qa.toNat g != t.qGet qb.toNat g)

/-- `s.qany` (R102). -/
def execSQany (h : Hdr) (q : BitVec 3) (pa : BitVec 4) (s : State) : Out State :=
  withTeam (.sQany h q pa) s (groupPred (.sQany h q pa) h q fun t g => (t.groupActive g).any (t.pGet pa.toNat))

/-- `s.qall` (R102). -/
def execSQall (h : Hdr) (q : BitVec 3) (pa : BitVec 4) (s : State) : Out State :=
  withTeam (.sQall h q pa) s (groupPred (.sQall h q pa) h q fun t g => (t.groupActive g).all (t.pGet pa.toNat))

end Sys2Proof.Machine
end

