-- ==== Sys2Proof/Machine/Access.lean ====
section
/-! DEFINITION. The access pipeline: what a write does at its home, registration and ownership, releases and acquires, storage errors and the
end of a context (R198, R199, R266, R270 to R274, R284 to R291). -/

namespace Sys2Proof.Machine

open Sys2Proof

/-! ### Atomics at their unit (R272, R273) -/

/-- The lowest value of a type's order that `rr` leaves (R272). -/
def rrIdentity : Ty → Nat
  | .s32 => 0x80000000
  | .s64 => 0x8000000000000000
  | .f32 => 0xFF800000
  | _ => 0

/-- The new word of an atomic operation (R272): the rounding mode and draw are those that the request carries (R58). -/
def atomNew (op : AtomOp) (ty : Ty) (old x rm draw : Nat) : Nat :=
  let w := ty.width
  match op with
  | .add => (old + x) % 2 ^ w
  | .adds => wrap w (saturate ty (tyVal ty old + tyVal ty x))
  | .min => aluMin ty old x
  | .max => aluMax ty old x
  | .and => aluAnd ty old x
  | .or => aluOr ty old x
  | .xor => aluXor ty old x
  | .xchg => x % 2 ^ w
  | .rr => rrIdentity ty
  | .fadd =>
    match tyFmt ty with
    | some f => f.round rm draw ((f.val old).add rm (f.val (x % 2 ^ w)))
    | none => old
  | .fmax => Fmt.maxOf .f32 old (x % 2 ^ w)

/-- The new word of a compare-and-swap (R273). -/
def casNew (w old cmp swap : Nat) : Nat := if old = cmp % 2 ^ w then swap % 2 ^ w else old

/-- The bytes of the word that an atomic of a type acts on. -/
def tyBytes (ty : Ty) : Nat := ty.width / 8

/-! ### Storage errors (R196, R198, R199) -/

/-- Who meets a storage error: the core at which a record is filed, the team's identity and the instruction. -/
structure Finder where
  core : Nat
  asid : Nat
  pair : Bool
  pc : Nat
  base : Nat
  ext : Nat
  tlin : Nat
  deriving DecidableEq, Repr

/-- The team's instruction as a finder. -/
def Team.finder (t : Team) (i : Instr) : Finder :=
  let w := recWords i
  { core := t.home, asid := t.asid, pair := t.pair, pc := t.pc.toNat, base := w.1, ext := w.2, tlin := t.lin }

/-- An engine's own read, or a load of code, as a finder: its records are filed at core 0 of the die (R194). -/
def Finder.engine (core asid pc : Nat) : Finder :=
  { core := core / 192 * 192, asid := asid, pair := false, pc := pc, base := 0, ext := 0, tlin := 0 }

/-- A read that an engine makes for a command as a finder: its records name the command's PC and words (R195). -/
def Finder.command (core asid : Nat) (pc : BitVec 16) (ins : Nat × Nat) : Finder :=
  { Finder.engine core asid pc.toNat with base := ins.1, ext := ins.2 }

/-- Ends a context (R199, R430, R443): its teams, engine work, grids and intents go, nothing of it starts again, and ST reads 5. The sub-arrays of
passes that have been granted stay taken to their ends (R421). -/
def State.endContext (s : State) (asid : Nat) : State :=
  let gids := (s.grids.filter fun g => (s.ctx g.ctx).asid == asid).map fun g => g.gid
  let gone := fun (g : Nat) => gids.contains g
  let uids := (s.teams.filter fun t => t.asid == asid).map fun t => t.uid
  let s := uids.foldl State.dropTeam s
  let clusters := s.clusters.map fun kc =>
    (kc.1, { kc.2 with
      entries := kc.2.entries.filter fun e => e.asid != asid
      subs := kc.2.subs.mapIdx fun i x =>
        match kc.2.entries.find? fun e => e.asid == asid && e.sub == some i with
        | some e => { x with busyTill := e.endsAt, lastPass := e.endsAt }
        | none => x
      saQ := kc.2.saQ.filter fun q => !gone q.gid
      sa := kc.2.sa.map fun sl => if gone sl.gid && sl.st != .free then SaSlot.reset else sl
      gangs := kc.2.gangs.filter fun g => !gone g.2.gid
      winWait := kc.2.winWait.filter fun w => match SMap.find kc.2.gangs w.slot with | some g => !gone g.gid | none => false
      copy := { loc := kc.2.copy.loc.filter fun c => c.asid != asid, rem := kc.2.copy.rem.filter fun c => c.asid != asid } })
  let cores := s.cores.map fun kc => (kc.1, { kc.2 with bars := kc.2.bars.filter fun b => !gone b.2.gid })
  let chans := s.chans.map fun kc => (kc.1, { kc.2 with progs := kc.2.progs.filter fun p => p.asid != asid })
  let s := { s with
    clusters := clusters
    cores := cores
    chans := chans
    loads := s.loads.filter fun l => l.asid != asid
    arrivals := s.arrivals.filter fun a => !uids.contains a.uid
    recWaits := s.recWaits.filter fun w => (s.ctx w.slot).asid != asid
    remAsks := s.remAsks.filter fun a => a.asid != asid
    gone := s.gone.filter fun g => !gone g.gid
    grids := s.grids.filter fun g => !gone g.gid }
  let s := match s.ctxOfAsid asid with
    | some slot =>
      let word := BitVec.ofNat 64 (withBits (SMap.get 0 s.pkg.ctxctl slot).toNat 59 57 5)
      let s := { s with pkg := { s.pkg with ctxctl := SMap.put s.pkg.ctxctl slot word }
                        gov := { s.gov with intents := s.gov.intents.filter fun e => e.2.ctx != slot } }
      s.modCtx slot fun c =>
        let qs := c.queues.map fun (q : Nat × Queue) => (q.1, { q.2 with stopped := true })
        { c with valid := false, packets := [], tape := none, pageReqs := [], queues := qs }
    | none => s
  s.count 30 1

/-- The level of a home in a record (R195). -/
def homeLevel (key : Nat) : Nat := if key < 2 ^ 44 then 4 else 3

/-- An uncorrectable error of a block is found at a level (R199): the owner's context ends, or the block has none; it is recorded, and the
block is poisoned. -/
def State.loseBlock (s : State) (f : Finder) (key va level : Nat) : State :=
  let free := s.fresh
  let s := { free.2 with poison := SMap.put s.poison (key / 64) true }
  let owner := SMap.find s.tags (key / 64)
  let s := s.fileMc {
    kind := if owner.isSome then 4 else 6, unit := 8, asid := owner.getD f.asid, pair := f.pair, core := f.core, pc := f.pc,
    base := f.base, ext := f.ext, tlin := f.tlin, lanes := [], pred := 0, found := 0, addr := va / 64 * 64,
    synd := bits free.1.toNat 15 0, level := level }
  match owner with
  | some a => ({ s with tags := SMap.del s.tags (key / 64) }).endContext a
  | none => s

/-- A read meets the stored code of a block (R196, R199): a correctable error is corrected and counted; an uncorrectable one is counted and
settled. -/
def State.readBlock (s : State) (f : Finder) (key va : Nat) : State :=
  match SMap.find s.codeErrs (key / 64) with
  | none => s
  | some .ce => ({ s with codeErrs := SMap.del s.codeErrs (key / 64) }).count (if homeLevel key = 4 then 22 else 20) 1
  | some .ue =>
    (({ s with codeErrs := SMap.del s.codeErrs (key / 64) }).count (if homeLevel key = 4 then 23 else 21) 1).loseBlock f key va
      (homeLevel key)

/-- A read through a core's L1 and the last level meets their codes (R196): a correctable error is corrected and counted; an uncorrectable one
in the L1 drops the line, which is read again; one in the last level is settled as the block's own. -/
def State.readCaches (s : State) (f : Finder) (core : Option Nat) (asid key va : Nat) : State :=
  let lose := fun (s : State) (k : Nat) => ({ s with codeErrs := SMap.del s.codeErrs k } : State)
  let s : State := match core with
    | none => s
    | some k =>
      match SMap.find s.codeErrs (l1ErrKey k asid va) with
      | none => s
      | some .ce => (lose s (l1ErrKey k asid va)).count 16 1
      | some .ue => ((lose s (l1ErrKey k asid va)).dropL1 k asid (va / 64 * 64) 64).count 17 1
  match SMap.find s.codeErrs (llcErrKey asid va) with
  | none => s
  | some .ce => (lose s (llcErrKey asid va)).count 18 1
  | some .ue => ((lose s (llcErrKey asid va)).count 19 1).loseBlock f key va 2

/-- A read of a row of an accumulator store meets its code (R196, R198): the owner is the context of the gang whose window holds the row. A
row that is lost stays so, and its reads end nothing further, until it is written whole (R199). -/
def State.meetAcc (s : State) (f : Finder) (cluster row : Nat) : State :=
  let k := accErrKey cluster row
  match SMap.find s.codeErrs k with
  | none => s
  | some .ce => ({ s with codeErrs := SMap.del s.codeErrs k }).count 24 1
  | some .ue =>
    let s := ({ s with codeErrs := SMap.del s.codeErrs k, poison := SMap.put s.poison k true }).count 25 1
    let free := s.fresh
    let owner := ((s.cluster cluster).gangs.find? fun e => match e.2.base with
      | some b => decide (b ≤ row) && decide (row < b + e.2.n * e.2.rows)
      | none => false).bind fun e => (s.grid? e.2.gid).map fun g => (s.ctx g.ctx).asid
    let s := free.2.fileMc {
      kind := if owner.isSome then 4 else 6, unit := 8, asid := owner.getD f.asid, pair := f.pair, core := f.core, pc := f.pc,
      base := f.base, ext := f.ext, tlin := f.tlin, lanes := [], pred := 0, found := 0, addr := 0,
      synd := bits free.1.toNat 15 0, level := 5 }
    match owner with
    | some a => s.endContext a
    | none => s

/-- A block is poisoned: every read of it returns the error (R199). -/
def State.poisoned (s : State) (key : Nat) : Bool := SMap.get false s.poison (key / 64)

/-- A read of `n` bytes by an engine (R199): the blocks' codes are met, and the answer says whether any is poisoned. -/
def State.engineRead (s : State) (f : Finder) (key va n : Nat) : State × Bool :=
  (List.range ((key + n + 63) / 64 - key / 64)).foldl (fun (r : State × Bool) i =>
    let k := (key / 64 + i) * 64
    let s := r.1.readBlock f k (va / 64 * 64 + 64 * i)
    (s, r.2 || s.blockLost (k / 64))) (s, false)

/-- Reads home ranges for an engine, meeting the codes of their blocks. -/
def State.engineParts (s : State) (f : Finder) (va : Nat) : List (Nat × Nat) → State × Bool
  | [] => (s, false)
  | p :: ps =>
    let r := s.engineRead f p.1 va p.2
    let r' := r.1.engineParts f (va + p.2) ps
    (r'.1, r.2 || r'.2)

/-- The reads of a walk meet the codes of the blocks that hold its entries (R199, R238). -/
def State.meetWalk (s : State) (f : Finder) (c : Ctx) (va : Nat) : State :=
  (s.walkPlaces c va).foldl (fun (s : State) k => s.readBlock f k 0) s

/-- The reads of an engine of a range of a context's memory meet the codes of its blocks (R199). -/
def State.meetRange (s : State) (f : Finder) (c : Ctx) (va n : Nat) : State :=
  match s.vaRange c .read va n with
  | .ok ps => ((s.useRange c va n).engineParts f va ps).1
  | _ => s

/-! ### Registration (R266, R271, R284) -/

/-- Removes an atomic's block from the copies of the issuing team's cores and device (R271). -/
def State.dropForAtomic (s : State) (w : PWrite) : State :=
  let b := w.va / 64 * 64
  let s := w.cores.foldl (fun (s : State) k => s.dropL1 k w.asid b 64) s
  { s with remote := s.remote.filter fun e => !(decide (spaceKey w.asid b ≤ e.1) && decide (e.1 < spaceKey w.asid b + 64)) }

/-- The writer as a finder of storage errors (R194). -/
def State.writerOf (s : State) (w : PWrite) : Finder :=
  let t := s.ident w.uid
  { core := t.home, asid := w.asid, pair := t.pair, pc := w.pc.toNat, base := w.base, ext := w.ext, tlin := t.lin }

/-- A write that meets a poisoned block as it registers is not performed; its lane is settled as a failed reader (R199). The instruction has
completed, so that under STOP the cause is pending (log entry 65). -/
def State.recordPoison (s : State) (w : PWrite) : State :=
  let f := s.writerOf w
  let s := s.fileMc {
    kind := 5, unit := 8, asid := w.asid, pair := f.pair, core := f.core, pc := f.pc, base := f.base, ext := f.ext, tlin := f.tlin,
    lanes := [w.lane], pred := 0, found := 0, addr := w.va / 64 * 64, synd := 0, level := homeLevel w.key }
  s.modTeam w.uid fun t =>
    if t.chkStop then t.pendCause .mcheck else { t with dropl := t.dropl ||| maskOf [w.lane] }

/-- Writes an atomic's new word at its home (R271). -/
def State.atomicWrite (s : State) (w : PWrite) (bs : List Byte) : State :=
  let r := s.homeWrite (some w.asid) w.key bs
  let s := if r.2 then r.1 else r.1.recordPoison w
  if w.vault then s
  else if hostHome w.key then s.dropForAtomic w
  else ((s.noteTables w.asid w.va bs.length).ownWords atomicOwner w.asid w.va bs.length).dropForAtomic w

/-- A no-return atomic whose unit meets an injection: corrected, or failed with the word unchanged and a record of KIND 7 (R192). -/
def State.atomicInjected (s : State) (w : PWrite) (inj : Nat) (bs : List Byte) : State :=
  let s := s.count 32 1
  if inj % 4 = 1 then (s.count 6 1).atomicWrite w bs
  else
    let f := s.writerOf w
    let x := leNat (bs.take 4)
    (s.count 8 1).fileMc {
      kind := 7, unit := 6, asid := w.asid, pair := f.pair, core := f.core, pc := f.pc, base := f.base, ext := f.ext, tlin := f.tlin,
      lanes := [w.lane], pred := x % 7, found := (x ^^^ 2 ^ (inj / 4)) % 7, addr := 0, synd := 0, level := 0 }

/-- The word that a write meets at its home. -/
def State.homeWord (s : State) (w : PWrite) (n : Nat) : Nat := leNat (s.bytes w.key n)

/-- The number of bytes that a write touches. -/
def PWrite.size (w : PWrite) : Nat :=
  match w.kind with
  | .store => w.bytes.length
  | .atomic _ ty _ _ _ _ => (tyBytes ty)
  | .cas ty _ _ _ => (tyBytes ty)

/-- A pending write is a plain store. -/
def PWrite.isStore (w : PWrite) : Bool :=
  match w.kind with
  | .store => true
  | _ => false

/-- What an atomic write asks of a unit on another device. -/
def PWrite.remote (w : PWrite) : RemoteOp :=
  match w.kind with
  | .atomic op ty data rm draw _ => .atomic op ty data rm draw
  | .cas ty cmp swap _ => .cas ty cmp swap
  | .store => .store w.bytes

/-- What a write that goes to another device does to the copies here (R267, R271): a store's bytes are kept in the copies that hold them, an atomic's
block goes. The device's cores own what they store; of a word that they store in part they do not know the rest, so that the copy counts as
unowned here, as does a word that an atomic writes (log entry 11). -/
def State.sentCopies (s : State) (w : PWrite) : State :=
  let n := w.size
  let s := if w.isStore then
      (w.bytes.zipIdx).foldl (fun (s : State) b => s.updateByte w.cores w.asid (w.va + b.2) b.1) (s.poke w.key w.bytes)
    else s.dropForAtomic w
  let s := s.noteTables w.asid w.va n
  { s with owners := (List.range ((w.va + n + 3) / 4 - w.va / 4)).foldl (fun (m : SMap Nat) i =>
      SMap.put m (spaceKey w.asid ((w.va / 4 + i) * 4)) (if w.isStore && n % 4 == 0 then w.core else atomicOwner)) s.owners }

/-- A no-return atomic to another device's word that an injection fails for good is not sent: the word stays as it is, and the failure is recorded
with KIND 7 (R192, R203). -/
def State.injectedAway (s : State) (w : PWrite) (inj : Nat) : State :=
  let f := s.writerOf w
  let x := s.fresh
  (x.2.count 8 1).fileMc {
    kind := 7, unit := 6, asid := w.asid, pair := f.pair, core := f.core, pc := f.pc, base := f.base, ext := f.ext, tlin := f.tlin,
    lanes := [w.lane], pred := bits x.1.toNat 31 0 % 7, found := (bits x.1.toNat 31 0 ^^^ 2 ^ (inj / 4)) % 7, addr := 0, synd := 0, level := 0 }

/-- The injection that a write carries to its atomic unit (R203). -/
def PWrite.inj (w : PWrite) : Nat :=
  match w.kind with
  | .atomic _ _ _ _ _ inj => inj
  | .cas _ _ _ inj => inj
  | .store => 0

/-- The writes of one instruction to one block of another device's page go to its home together, in lane order (R243, R261, R267, R274). -/
def State.sendWrites (s : State) (ws : List PWrite) : State :=
  let s := (ws.filter fun w => w.inj != 0).foldl (fun (s : State) w =>
    if w.inj % 4 = 2 then (s.count 32 1).injectedAway w w.inj else s.count 32 1) s
  match ws.filter fun w => w.inj % 4 != 2 with
  | [] => s
  | w :: rest =>
    let s := (w :: rest).foldl State.sentCopies (s.voidLoads w.asid (w.va / 64 * 64) 64)
    s.sendAccess (.team w.uid) w.core w.asid w.key w.va w.remote (rest.map fun x => (x.va, x.remote)) (w :: rest) []

/-- Two writes of one instruction to one block, which travel together. -/
def PWrite.together (w x : PWrite) : Bool :=
  x.uid == w.uid && x.seq == w.seq && x.key / 64 == w.key / 64 && (x.core == w.core || !w.isStore)

/-- A write registers at its home here (R284): a store's bytes are merged into the home copy, held copies take them, and its core becomes the
owner of the words; an atomic executes at the home's unit. -/
def State.register (s : State) (w : PWrite) : State :=
  match w.kind with
  | .store =>
    let r := s.homeWrite (some w.asid) w.key w.bytes
    let s := if r.2 then r.1 else r.1.recordPoison w
    if w.vault then s
    else
      let s := (s.noteTables w.asid w.va w.bytes.length).refreshCopies w.cores w.asid w.va w.key w.bytes.length
      if hostHome w.key then s else s.ownWords w.core w.asid w.va w.bytes.length
  | .atomic op ty data rm draw inj =>
    let s := s.readBlock (s.writerOf w) w.key w.va
    let bs := natLe (tyBytes ty) (atomNew op ty (s.homeWord w (tyBytes ty)) data.toNat rm draw)
    if inj = 0 then s.atomicWrite w bs else s.atomicInjected w inj bs
  | .cas ty cmp swap inj =>
    let s := s.readBlock (s.writerOf w) w.key w.va
    let bs := natLe (tyBytes ty) (casNew ty.width (s.homeWord w (tyBytes ty)) cmp.toNat swap.toNat)
    if inj = 0 then s.atomicWrite w bs else s.atomicInjected w inj bs

/-- Writes go on their way from here, in their order: each registers at its home, or is sent there with those that travel with it. `fuel` is the
number of writes. -/
def State.registerAll : Nat → List PWrite → State → State
  | 0, _, s => s
  | _ + 1, [], s => s
  | fuel + 1, w :: ws, s =>
    if peerHome w.key then
      State.registerAll fuel (ws.filter fun x => !w.together x) (s.sendWrites (w :: ws.filter w.together))
    else State.registerAll fuel ws (s.register w)

/-- Registers the pending writes that satisfy a test, in their order. -/
def State.drain (s : State) (p : PWrite → Bool) : State :=
  State.registerAll s.pend.length (s.pend.filter p) { s with pend := s.pend.filter fun w => !p w }

/-- A team whose pending writes meet a range that it reads registers them all first, in their order (R270). -/
def State.drainOver (s : State) (uid key n : Nat) : State :=
  if s.pend.any fun w => w.uid == uid && meets w.key w.size key n then s.drain fun w => w.uid == uid else s

/-! ### Releases and acquires (R285, R286, R295) -/

/-- Everything that has been accepted registers, as far as this device can do it: the pending writes, and the revokes of its own cores. -/
def State.settleWrites (s : State) : State := (s.drain fun _ => true).ackAll

/-- A release begins: everything accepted registers, and after stores to HOST pages the zero-length read of R295 goes out. The release is
complete when all that is out before the number `nextId` has been answered. -/
def State.startRelease (s : State) (who : Asker) (asid : Nat) (host : Bool) : State :=
  let s := s.settleWrites
  if !host then s
  else
    let a : RemAsk := { tag := s.nextId, asker := who, core := 0, asid := asid, key := 2 ^ 120, va := 0, op := .load 0, writes := [], ret := [],
                        ans := none, at_ := s.cc, keep := false }
    { s with outbox := s.outbox ++ [OutMsg.zeroRead s.nextId], remAsks := s.remAsks ++ [a], nextId := s.nextId + 1 }

/-- The release of R285 begins for a team at its instruction, once: every write that the team can have observed is among those pending. -/
def State.release (s : State) (t : Team) : State :=
  if t.relIssue = some t.issued then s
  else
    let s := s.startRelease (.team t.uid) t.asid t.hostStores
    s.modTeam t.uid fun u => { u with hostStores := false, relTag := s.nextId, relIssue := some t.issued }

/-- The release that an engine or a grid's end makes for a context (R215, R290), with the number that it waits for. -/
def State.releaseFor (s : State) (slot : Nat) : Nat × State :=
  let c := s.ctx slot
  let s := (s.startRelease .engine c.asid c.hostStores).modCtx slot fun c => { c with hostStores := false }
  (s.nextId, s)

/-- Every registration that was noted before a number is complete: other devices have answered, for stores and for revokes. -/
def State.registered (s : State) (tag : Nat) : Bool :=
  !(s.remAsks.any fun a => a.registers && decide (a.tag < tag)) && !(s.revokes.any fun r => decide (r.no < tag))

/-- The release that a team began last is complete. -/
def State.released (s : State) (uid : Nat) : Bool :=
  match s.team? uid with
  | some t => s.registered t.relTag
  | none => true

/-- A team begins a release and goes on when it is complete; until then it is held. -/
def State.releaseThen (s : State) (t : Team) (hold : State → Res) (k : State → Res) : Res :=
  let s := s.release t
  if s.released t.uid then k s else hold (s.modTeam t.uid fun u => { u with hold := .link })

/-- The acquire of R286 by a team, on every core it runs on. -/
def State.acquireFor (s : State) (t : Team) : State := t.cores.foldl State.acquire s

/-- A fence with a release waits for it, if it has to (R288): until then it holds what its order names. -/
def State.fenceWith (s : State) (t : Team) (f : FenceWait) (done : State → State) : State :=
  let s := s.release t
  if s.released t.uid then done s else s.modTeam t.uid fun u => { u with fence := if u.fence = .sc then .sc else f }

/-- The fences and holds of a team whose release is complete end (R288). -/
def State.endFence (s : State) (uid : Nat) : State :=
  match s.team? uid with
  | none => s
  | some t =>
    if !s.released uid then s
    else
      let s := if t.fence = .sc then s.acquireFor t else s
      s.modTeam uid fun u => { u with fence := .none, hold := if u.hold = .link then .free else u.hold }

/-! ### Writes made by an engine -/

/-- A byte with one of its nibbles replaced (R321). -/
def withNibble (b : Byte) (nib v : Nat) : Byte := BitVec.ofNat 8 (withBits b.toNat (4 * nib + 3) (4 * nib) v)

/-- An engine changes one nibble of a byte, which is merged at the byte's home (R321). -/
def State.engineNibble (s : State) (c : Ctx) (va key nib v : Nat) : State :=
  if peerHome key then
    let s := { s with remote := s.remote.filter fun e => e.1 != spaceKey c.asid va }
    (((s.useTlb c va).voidLoads c.asid va 1).ownWords atomicOwner c.asid va 1).sendAsk .engine atomicOwner c.asid key va (.nibble nib v)
  else s.engineStore c va [(key, 1)] [withNibble (s.byte key) nib v]

/-- The owner that a store of another device records: the core that stored, none where an engine did, and a core of this device whose store went to
a home that the page has left (R250, R284). -/
def State.peerOwner (s : State) (peer core : Nat) : Nat :=
  if core ≥ atomicOwner then atomicOwner else if peer = s.peerId then core else deviceOwner peer core

/-- A store of another device registers here (R243, R284): its core becomes the owner of the words. -/
def State.peerStore (s : State) (c : Ctx) (peer core va key : Nat) (bs : List Byte) : State :=
  let s := s.partsWrite (some c.asid) [(key, bs.length)] bs
  (s.noteTables c.asid va bs.length).ownWords (s.peerOwner peer core) c.asid va bs.length

end Sys2Proof.Machine
end

