-- ==== Sys2Proof/Machine/Control.lean ====
section
/-! DEFINITION. The control transfers (R104 to R107), divergence and reconvergence (R109, R110), the loop buffers (R137, R138), the fenced
jump, `s.cfence`, `s.cstat` (R132 to R136) and the traps of R150. -/

namespace Sys2Proof.Machine

open Sys2Proof

/-! ### Loop buffers (R137, R138) -/

/-- The buffers of a core that some team fetches from. -/
def State.usedBufs (s : State) (k : Nat) : List Nat :=
  (s.core k).bufs.filter fun id => s.teams.any fun t => t.loopBuf.any fun b => b.id == id

/-- Copies the words of a PC's segment from an offset on into a loop buffer, a free one or the one least recently used (R137). -/
def State.copyLoop (s : State) (t : Team) (p : BitVec 16) (n : Nat) : State :=
  let s := s.putTeam { t with loopBuf := none }
  match (s.core t.home).slotFor t.asid (t.segAddr (p.toNat / 4096)) with
  | none => s
  | some (k, sl) =>
    let ws := (List.range n).filterMap fun i => s.slotWord t (p.toNat + i)
    if ws.length = n then
      let id := s.newId
      let b : LoopBuf := { id := id.1, slot := k, landedAt := sl.landedAt, seg := p.extractLsb' 12 4, start := p.toNat % 4096, words := ws }
      let s := id.2.putTeam { t with loopBuf := some b }
      s.putCore t.home { s.core t.home with bufs := (id.1 :: s.usedBufs t.home).take 4 }
    else s

/-- A taken transfer to `p` (R137, R138): inside the buffer in use the team stays in it; otherwise its use ends, and a backward target 0 to 63
words before the last word of the transfer is copied into a buffer. -/
def State.afterTaken (s : State) (t : Team) (src : BitVec 16) (len : Nat) (p : BitVec 16) : State :=
  match (s.liveBuf t).filter fun b => b.covers p with
  | some b =>
    let c := s.core t.home
    (s.putTeam t).putCore t.home { c with bufs := b.id :: c.bufs.erase b.id }
  | none =>
    let last := src.toNat % 4096 + len - 1
    let off := p.toNat % 4096
    if p.extractLsb' 12 4 = src.extractLsb' 12 4 ∧ off ≤ last ∧ last - off ≤ 63 then s.copyLoop t p (last - off + 1)
    else s.putTeam { t with loopBuf := none }

/-! ### Divergence (R105, R109) -/

/-- Where a lane goes: to a target of an index, or to the fall-through PC. -/
abbrev Dest := Option (Nat × BitVec 16)

/-- The distinct destinations in run order: targets by ascending index, the fall-through PC last (R109). A PC that is both a target and the
fall-through runs last, as the fall-through path, and a target that several indices name runs at the lowest that its lanes chose
(DESIGN CHOICE, log entry 62). -/
def destOrder (ft : BitVec 16) (ds : List Dest) : List (BitVec 16) :=
  let keyed := ds.map fun d => match d with
    | some (i, p) => if p = ft then (1000, ft) else (i, p)
    | none => (1000, ft)
  ((sortBy (fun (a b : Nat × BitVec 16) => decide (a.1 < b.1)) keyed).map Prod.snd).foldl
    (fun (acc : List (BitVec 16)) p => if acc.contains p then acc else acc ++ [p]) []

/-- The PC of a lane's destination. -/
def destPc (ft : BitVec 16) : Dest → BitVec 16
  | some (_, p) => p
  | none => ft

/-- The lanes of a path. -/
def pathMask (t : Team) (ft : BitVec 16) (dest : Nat → Dest) (p : BitVec 16) : Mask :=
  maskOf (t.activeLanes.filter fun l => destPc ft (dest l) == p)

/-- The diverging transfer of R109; it fails where the stack would pass 256 entries or a spill fails. -/
def diverge (s : State) (t : Team) (rcv : BitVec 16) (paths : List (BitVec 16 × Mask)) : Spill :=
  let es : List PathEntry :=
    (paths.filter fun p => p.1 != rcv).map fun p => { pc := p.1, mask := p.2, rpc := some rcv, fmt := t.top.fmt }
  let same := t.top.rpc == some rcv
  let need := if same then es.length - 1 else es.length
  if t.depth + need > 256 then .fails
  else if same then s.push { t with stack := t.stack.tail } es
  else s.push (t.setPc rcv) es

/-- The fall-through PC of an instruction: the PC after it in the same segment (R69). After the instruction that ends at word 4,095 it is the
segment's word 0, which a link register or a reconvergence point then names; no lane falls through to it (log entry 60). -/
def Team.fall (t : Team) (len : Nat) : BitVec 16 := nextPc t.pc len

/-- The reconvergence point that RCV names (R68). -/
def Team.rcvPc (t : Team) (len : Nat) (rcv : BitVec 13) : BitVec 16 :=
  if rcv = 0 then t.fall len else t.pc + rcv.signExtend 16

/-- A control transfer: each active lane has a destination; `write` makes the register writes, which happen only when the transfer does. Where
some lanes would fall through the end of the segment while others go to a target, the team stops with ILLEGAL and nothing changes (log
entry 60). A target that is the next sequential PC counts as no transfer, but where the instruction ends the segment: there word 0 is no
sequential PC, and all lanes go to it as to any target (R69). -/
def transfer (len : Nat) (rcv : BitVec 13) (dest : Nat → Dest) (write : Team → Team) (s : State) (t : Team) : Res :=
  let ft := t.fall len
  let falls := t.activeLanes.any fun l => (dest l).isNone
  match destOrder ft (t.activeLanes.map dest) with
  | [] => .done (s.putTeam (write t))
  | [p] =>
    if p = ft ∧ (falls ∨ !endsSegment t.pc len) then .done (s.putTeam (write t))
    else .jump (s.afterTaken ((write t).setPc p) t.pc len p)
  | p :: ps =>
    if endsSegment t.pc len && falls then .stop (Stop.of .illegal) s
    else match diverge s (write t) (t.rcvPc len rcv) ((p :: ps).map fun x => (x, pathMask t ft dest x)) with
    | .fails => .stop (Stop.of .stack) s
    | .wait n => .hold (s.holdNeeds t.uid n)
    | .ok t' => .jump (if t'.pc = ft then s.putTeam t' else s.afterTaken t' t.pc len t'.pc)

/-- The PC at an offset in the segment (R72). -/
def Team.offPc (t : Team) (off : BitVec 13) : BitVec 16 := t.pc + off.signExtend 16

/-- A condition that a selector names, for a lane (R105). -/
def Sel.holds (t : Team) (lane : Nat) : Sel → Bool
  | .p neg n => t.pGet n.toNat lane != neg
  | .q neg n => t.qGet n.toNat (lane / t.group) != neg
  | .reg n => (t.sGet n.toNat (lane / t.group)).val != 0#32

/-- The register that a selector reads is checked (R185). -/
def Sel.checks (t : Team) (g : Nat) : Sel → List WordCheck
  | .reg n => operandChecks [t.sGet n.toNat g]
  | _ => []

/-- A transfer by groups: the operands are checked, a failed group counts as guard-false (R191), and `k` gets the state and team, the
qualifying groups and the active lanes of those groups. Failed groups' `zero` registers are written with zero. -/
def withGroups (i : Instr) (h : Hdr) (chk : Team → Nat → List WordCheck) (zero : List RegNo)
    (k : State → Team → List Nat → List Nat → Res) (s : State) (t : Team) : Res :=
  let gs := t.groupsFor h
  let v := judgeGroups s t i gs (chk t) false
  match v.stop with
  | some st => .stop st (v.s.putTeam v.t)
  | none =>
    let good := gs.filter fun g => !v.failed.contains g
    let t := zero.foldl (fun (t : Team) r => t.sAll r.toNat v.failed [RWord.zero]) v.t
    k (v.s.putTeam t) t good (good.flatMap t.groupActive)

/-- Lanes of a list go to a target; the others fall through. -/
def goTo (lanes : List Nat) (p : BitVec 16) (l : Nat) : Dest := if lanes.contains l then some (0, p) else none

/-- The link register `s63`, as an operand (R22, R106). -/
def linkReg : RegNo := 255

/-- Writes the link register in groups that hold an active lane of a qualifying group (R106). -/
def Team.link (t : Team) (gs : List Nat) (pc : BitVec 16) : Team := t.sAll linkReg.toNat gs [RWord.ofNat pc.toNat]

/-! ### Transfers within a segment -/

/-- `s.jmp` (R105). -/
def execSJmp (h : Hdr) (off rcv : BitVec 13) (s : State) : Out State :=
  let i : Instr := .sJmp h off rcv
  withTeam i s (withGroups i h (fun _ _ => []) [] fun s t _ lanes =>
    transfer i.length rcv (goTo lanes (t.offPc off)) id s t)

/-- `s.br` (R105): each lane by its own condition. -/
def execSBr (h : Hdr) (sel : Sel) (off rcv : BitVec 13) (s : State) : Out State :=
  let i : Instr := .sBr h sel off rcv
  withTeam i s (withGroups i h (fun t g => Sel.checks t g sel) [] fun s t _ lanes =>
    transfer i.length rcv (goTo (lanes.filter fun l => Sel.holds t l sel) (t.offPc off)) id s t)

/-- `s.br.all` (R105). -/
def execSBrAll (h : Hdr) (sel : Sel) (off rcv : BitVec 13) (s : State) : Out State :=
  let i : Instr := .sBrAll h sel off rcv
  withTeam i s (withGroups i h (fun t g => Sel.checks t g sel) [] fun s t _ lanes =>
    transfer i.length rcv (goTo (if lanes.all fun l => Sel.holds t l sel then lanes else []) (t.offPc off)) id s t)

/-- `s.br.any` (R105). -/
def execSBrAny (h : Hdr) (sel : Sel) (off rcv : BitVec 13) (s : State) : Out State :=
  let i : Instr := .sBrAny h sel off rcv
  withTeam i s (withGroups i h (fun t g => Sel.checks t g sel) [] fun s t _ lanes =>
    transfer i.length rcv (goTo (if lanes.any fun l => Sel.holds t l sel then lanes else []) (t.offPc off)) id s t)

/-- The value that `s.loop` leaves in a group's counter (R105). -/
def loopCount (t : Team) (n : BitVec 6) (g : Nat) : Word := (t.sGet n.toNat g).val - 1

/-- The check of `s.loop`'s subtraction (R187, ADD). -/
def loopChecks (n : BitVec 6) (t : Team) (g : Nat) : List WordCheck :=
  resChecks (.sum false) [[t.sGet n.toNat g]] [RWord.of (loopCount t n g)]

/-- `s.loop` (R105): each qualifying group's counter goes down by one, and its lanes go to the target while it is not zero. -/
def execSLoop (h : Hdr) (n : BitVec 6) (off rcv : BitVec 13) (s : State) : Out State :=
  let i : Instr := .sLoop h n off rcv
  withTeam i s (withGroups i h (loopChecks n) [192#8 + n.zeroExtend 8] fun s t gs lanes =>
    transfer i.length rcv (goTo (lanes.filter fun l => loopCount t n (l / t.group) != 0#32) (t.offPc off))
      (fun u => gs.foldl (fun (u : Team) g => u.sPut n.toNat g (RWord.of (loopCount t n g))) u) s t)

/-- `s.call` (R105, R106). -/
def execSCall (h : Hdr) (off rcv : BitVec 13) (s : State) : Out State :=
  let i : Instr := .sCall h off rcv
  withTeam i s (withGroups i h (fun _ _ => []) [linkReg] fun s t gs lanes =>
    transfer i.length rcv (goTo lanes (t.offPc off)) (fun u => u.link gs (t.fall i.length)) s t)

/-! ### Transfers by register, which may be fenced -/

/-- A fenced change of the PC for every active lane (R135): the checks, then the PC and the end of loop-buffer use. -/
def fencedJump (p : BitVec 16) (write : Team → Team) (s : State) (t : Team) : Res :=
  match s.fenceCheck t p with
  | some c => .stop (Stop.of c) s
  | none => .jump (s.putTeam { (write t).setPc p with loopBuf := none })

/-- The transfer of `s.jr` and `s.callr` (R105): the lead group's register, with which every qualifying group has to agree. -/
def regTransfer (i : Instr) (n : BitVec 6) (rcv : BitVec 13) (write : Team → List Nat → Team → Team) (s : State) (t : Team)
    (gs lanes : List Nat) : Res :=
  match gs with
  | [] => transfer i.length rcv (fun _ => none) id s t
  | lead :: _ =>
    let pcOf := fun (g : Nat) => (t.sGet n.toNat g).val.extractLsb' 0 16
    let p := pcOf lead
    let other := gs.filter fun g => pcOf g != p
    if !other.isEmpty then .stop (Stop.lanesOf .btabRange (t.groupsMask other)) s
    else if p.extractLsb' 12 4 = t.pc.extractLsb' 12 4 then transfer i.length rcv (goTo lanes p) (write t gs) s t
    else
      let stay := t.activeLanes.filter fun l => !lanes.contains l
      if !stay.isEmpty then .stop (Stop.lanesOf .btabRange (maskOf stay)) s
      else fencedJump p (write t gs) s t

/-- `s.jr`, which `s.ret` names with `s63` (R105). -/
def execSJr (h : Hdr) (n : BitVec 6) (rcv : BitVec 13) (s : State) : Out State :=
  let i : Instr := .sJr h n rcv
  withTeam i s (withGroups i h (fun t g => Sel.checks t g (.reg n)) [] (regTransfer i n rcv fun _ _ u => u))

/-- `s.callr` (R105, R106). -/
def execSCallr (h : Hdr) (n : BitVec 6) (rcv : BitVec 13) (s : State) : Out State :=
  let i : Instr := .sCallr h n rcv
  withTeam i s (withGroups i h (fun t g => Sel.checks t g (.reg n)) [linkReg]
    (regTransfer i n rcv fun t gs u => u.link gs (t.fall i.length)))

/-- The transfer of `s.btab` and `s.btabc` (R73, R105): each lane by its index; an index beyond the list, or a target in another segment,
stops the team. -/
def tableTransfer (i : Instr) (idx : RegNo) (rcv : BitVec 13) (targets : List (BitVec 16)) (write : Team → List Nat → Team → Team)
    (s : State) (t : Team) (gs lanes : List Nat) : Res :=
  let idxOf := fun (l : Nat) => (t.rGet idx.toNat l).val.toNat
  let out := lanes.filter fun l => decide (idxOf l ≥ targets.length)
  if !out.isEmpty then .stop (Stop.lanesOf .btabRange (maskOf out)) s
  else
    let pcOf := fun (l : Nat) => (targets[idxOf l]?).getD 0
    if lanes.any fun l => (pcOf l).extractLsb' 12 4 != t.pc.extractLsb' 12 4 then .stop (Stop.of .illegal) s
    else transfer i.length rcv (fun l => if lanes.contains l then some (idxOf l, pcOf l) else none) (write t gs) s t

/-- The indices that a group's active lanes read are checked (R185). -/
def indexChecks (idx : RegNo) (t : Team) (g : Nat) : List WordCheck := operandChecks ((t.groupActive g).map fun l => t.rGet idx.toNat l)

/-- `s.btab` (R105). -/
def execSBtab (h : Hdr) (idx : RegNo) (rcv : BitVec 13) (targets : List (BitVec 16)) (s : State) : Out State :=
  let i : Instr := .sBtab h idx rcv targets
  withTeam i s (withGroups i h (indexChecks idx) [] (tableTransfer i idx rcv targets fun _ _ u => u))

/-- `s.btabc` (R105, R106). -/
def execSBtabc (h : Hdr) (idx : RegNo) (rcv : BitVec 13) (targets : List (BitVec 16)) (s : State) : Out State :=
  let i : Instr := .sBtabc h idx rcv targets
  withTeam i s (withGroups i h (indexChecks idx) [linkReg] (tableTransfer i idx rcv targets fun t gs u => u.link gs (t.fall i.length)))

/-! ### Exit and the empty instruction -/

/-- Removes lanes from every held entry and from the handler frame (R107, R146). -/
def Team.clearLanes (t : Team) (m : Mask) : Team :=
  { t with stack := t.stack.map (fun e => { e with mask := e.mask &&& ~~~m })
           frame := t.frame.map fun e => { e with mask := e.mask &&& ~~~m } }

/-- The mask of the base entry: the lanes that have not exited. -/
def Team.baseMask (t : Team) : Mask :=
  if t.spilled = 0 then (t.stack.getLast?.getD t.top).mask else (PathEntry.ofBytes (t.spillBytes 0)).mask

/-- The effect of `s.exit` on the active lanes of the qualifying groups (R107). -/
def exitLanes (len : Nat) (s : State) (t : Team) (lanes : List Nat) : Res :=
  let m := maskOf lanes
  match clearSpilled m t.spilled s t with
  | .fails => .stop (Stop.of .stack) s
  | .wait n => .hold (s.holdNeeds t.uid n)
  | .ok t =>
    let t' := t.clearLanes m
    if t'.baseMask = 0 then .jump ((s.putTeam t').dropTeam t.uid)
    else if t'.top.mask = 0 then .jump (s.putTeam (t'.setPc (t.fall len)))
    else .done (s.putTeam t')

/-- `s.exit` (R107). -/
def execSExit (h : Hdr) (s : State) : Out State :=
  let i : Instr := .sExit h
  withTeam i s (withGroups i h (fun _ _ => []) [] fun s t _ lanes => exitLanes i.length s t lanes)

/-- `s.nop` (R104). -/
def execSNop (h : Hdr) (s : State) : Out State :=
  withTeam (.sNop h) s (groupOp (.sNop h) h 192 [] fun _ _ _ => { words := [], pred := none })

/-! ### Pops at reconvergence (R110, R135) -/

/-- What the pops before an issue come to; `asks` waits for the translation of the spill area. -/
inductive Popped where
  | go (t : Team)
  | exits
  | stop (c : Cause) (t : Team)
  | asks (t : Team) (needs : List Need)
  deriving DecidableEq, Repr

/-- Pops while the top mask is empty or the PC equals a valid RPC; `fuel` is the depth. A pop into another segment is fenced, and a stop names
the destination (R135). A fill that fails, with no instruction issuing, stops the team with STACK at the PC of the path that the pop has
uncovered (R111; DESIGN CHOICE, log entry 63). -/
def State.popPaths (s : State) : Nat → Team → Popped
  | 0, t => .go t
  | fuel + 1, t =>
    let e := t.top
    if e.mask = 0 ∨ e.rpc = some e.pc then
      if t.depth ≤ 1 then (if e.mask = 0 then .exits else .go t)
      else
        let u := { t with stack := t.stack.tail }
        match s.fillEntry u with
        | .fails => .stop .stack u
        | .wait n => .asks t n
        | .ok u =>
          match s.fenceTo t u.pc with
          | some c => .stop c { u with loopBuf := none }
          | none => s.popPaths fuel (if u.pc.extractLsb' 12 4 = t.pc.extractLsb' 12 4 then u else { u with loopBuf := none })
    else .go t

/-! ### Overlay transfers and traps -/

/-- `s.jmpf` (R135): every active lane goes to the target, or the lanes that would have fallen through are named by BTAB_RANGE; in the
current segment it is a jump that also ends the use of loop buffers. -/
def jumpFenced (h : Hdr) (p : BitVec 16) (s : State) (t : Team) : Res :=
  match t.groupsFor h with
  | [] => .done s
  | gs =>
    let stay := t.activeLanes.filter fun l => !gs.contains (l / t.group)
    if !stay.isEmpty then .stop (Stop.lanesOf .btabRange (maskOf stay)) s
    else if p.extractLsb' 12 4 = t.pc.extractLsb' 12 4 then .jump (s.putTeam { t.setPc p with loopBuf := none })
    else fencedJump p id s t

/-- `s.jmpf`. -/
def execSJmpf (h : Hdr) (target : BitVec 16) (s : State) : Out State :=
  let i : Instr := .sJmpf h target
  withTeam i s (teamOp i h 192 0 [] fun s t _ _ _ => jumpFenced h target s t)

/-- `s.cfence` (R136). -/
def execSCfence (h : Hdr) (s : State) : Out State :=
  let i : Instr := .sCfence h
  withTeam i s (teamOp i h 192 0 [] fun s t _ _ _ => .done (s.putTeam { t with loopBuf := none }))

/-- `s.cstat` (R134). -/
def execSCstat (h : Hdr) (d : RegNo) (n : BitVec 4) (s : State) : Out State :=
  let i : Instr := .sCstat h d n
  withTeam i s (groupOp i h d [] fun t _ _ =>
    URes.num 1 (s.segStatus t n.toNat + (if t.segAddr n.toNat = 0 then 0 else 4)))

/-- `s.trap` (R150): raises SWTRAP, and the team resumes after it. -/
def execSTrap (h : Hdr) (code : BitVec 16) (s : State) : Out State :=
  let i : Instr := .sTrap h code
  withTeam i s (teamOp i h 192 0 [] fun s _ _ _ _ => .stop { cause := .swtrap, lanes := 0, code := code, after := true } s)

/-- `s.brk` (R150): raises BREAK at its own PC. -/
def execSBrk (h : Hdr) (code : BitVec 16) (s : State) : Out State :=
  let i : Instr := .sBrk h code
  withTeam i s (teamOp i h 192 0 [] fun s _ _ _ _ => .stop { cause := .brk, lanes := 0, code := code, after := false } s)

/-- `s.rth` (R148, R150): outside handler mode, and in its X = 1 form, ILLEGAL. -/
def execSRth (h : Hdr) (s : State) : Out State :=
  withTeam (.sRth h) s fun s t =>
    if !t.handler then .stop (Stop.of .illegal) s
    else match s.returnFromHandler t.uid with
      | .ok s => .hold s
      | .error c => .stop (Stop.of c) s

end Sys2Proof.Machine
end

