-- ==== Sys2Proof/Machine/Csr.lean ====
section
/-! DEFINITION. CSR access (R122 to R126 and the engine chapters' registers), the format word and the seeds (R113, R125), and the event that
makes a machine-check record readable (R194). -/

namespace Sys2Proof.Machine

open Sys2Proof

/-- A word of a machine-check record as a team reads it (R194, R195). -/
def mcWord (s : State) (t : Team) (n w : Nat) : DWord :=
  let r := (s.core t.home).mcRec n
  if !r.readable then 0
  else if t.privileged || bits (r.words.headD 0).toNat 43 32 == t.asid then (r.words[w]?).getD 0 else 0

/-- `TOKBAL` (R400). -/
def tokbal (s : State) (t : Team) : Nat :=
  let c := s.core t.home
  min 65535 t.debtHome * 2 ^ 16 + (if c.resv = some t.uid then 2 ^ 15 else 0) + c.bal % 4096

/-- `ISLST`n (R425). -/
def islst (s : State) (n : Nat) : Nat :=
  (List.range 32).foldl (fun (m : Nat) i => m + (s.island (32 * n + i)).st.code * 4 ^ i) 0

/-- `RAMPTAB`b (R414). -/
def State.rampTab (s : State) (b : Nat) : Word := SMap.get 0xFFFFFFFF s.pkg.ramptab b

/-- The value of a CSR for a team (R123 and the engine chapters). -/
def csrValue (s : State) (t : Team) (n : Nat) : Nat :=
  let c := s.ctxOf t
  let p := s.pkg
  match n with
  | 0x000 => t.tcw.toNat
  | 0x001 => t.top.fmt.toNat
  | 0x004 => t.seed0.toNat
  | 0x005 => t.seed1.toNat
  | 0x006 => t.seed2.toNat
  | 0x007 => t.seed3.toNat
  | 0x008 => t.lin
  | 0x009 => t.lanes * 2 ^ 16 + t.group
  | 0x00A => (if t.pair then 512 else 0) + t.home
  | 0x00B => t.tstka.toNat
  | 0x010 => s.cyc.toNat
  | 0x011 => tokbal s t
  | 0x012 => p.capchg.toNat
  | 0x013 => c.lscale.toNat
  | 0x014 => c.lskip.toNat
  | 0x015 => 0x60408480
  | 0x018 => c.otbase.toNat
  | 0x019 => c.otlen.toNat
  | 0x020 => t.tcause.toNat
  | 0x021 => t.tpc.toNat
  | 0x022 => t.tvb.toNat
  | 0x023 => t.tskip.toNat
  | 0x200 => t.ckinj.toNat
  | 0x210 => t.mxgang.toNat
  | 0x211 => t.mxwin.toNat
  | 0x212 => (s.cluster (clusterOf t.home)).mxcfg.toNat
  | 0x220 => c.qtbase.toNat
  | 0x221 => c.tapebase.toNat
  | 0x222 => c.flogbase.toNat
  | 0x223 => c.flogpos.toNat
  | 0x224 => c.lscfg.toNat
  | 0x225 => c.tdepth.toNat
  | 0x230 => c.ptbase.toNat
  | 0x231 => c.pgcfg.toNat
  | 0x232 => c.prqbase.toNat
  | 0x233 => c.prqpos.toNat
  | 0x234 => p.frtab.toNat
  | 0x235 => p.mpool.toNat
  | 0x236 => p.mphead.toNat
  | 0x237 => p.mptail.toNat
  | 0x238 => p.mlog.toNat
  | 0x239 => p.mlogpos.toNat
  | 0x23A => p.peerid.toNat
  | 0x240 => c.clgbase.toNat
  | 0x241 => p.clcfg.toNat
  | 0x250 => (s.core t.home).tkcore.toNat
  | 0x251 => if dieOf t.home = 0 then p.dcap0 * 2 ^ 32 + p.dbal0 else p.dcap1 * 2 ^ 32 + p.dbal1
  | 0x252 => p.pcap * 2 ^ 32 + p.pbal
  | 0x260 => p.rampcfg.toNat
  | 0x261 => s.gov.level * 2 ^ 44 + s.gov.balr * 2 ^ 24 + s.gov.vset * 2 ^ 12 + s.gov.dstep
  | 0x262 => p.ramplim.toNat
  | 0x264 => islst s 0
  | 0x265 => islst s 1
  | 0x266 => islst s 2
  | 0x267 => islst s 3
  | 0x280 => s.nvm.wtc0.toNat
  | 0x281 => s.nvm.wtc1.toNat
  | 0x282 => s.nvm.wpwr.toNat
  | 0x283 => s.nvm.whrs0.toNat
  | 0x284 => s.nvm.whrs1.toNat
  | n =>
    if 0x040 ≤ n ∧ n < 0x060 then (t.flm.extractLsb' (32 * (n - 0x040)) 32).toNat
    else if 0x060 ≤ n ∧ n < 0x080 then (t.dropl.extractLsb' (32 * (n - 0x060)) 32).toNat
    else if 0x100 ≤ n ∧ n < 0x180 then (mcWord s t ((n - 0x100) / 8) (n % 8)).toNat
    else if 0x270 ≤ n ∧ n < 0x280 then (s.rampTab (n - 0x270)).toNat
    else 0

/-- `s.csrr` (R122). -/
def execSCsrr (h : Hdr) (d : RegNo) (csr : BitVec 12) (s : State) : Out State :=
  let i : Instr := .sCsrr h d csr
  withTeam i s fun s t => groupOp i h d [] (fun t _ _ => URes.num (csrWidth csr) (csrValue s t csr.toNat)) s t

/-- How a CSR write changes a field (R122): write, set or clear. -/
inductive CsrOp where
  | write | set | clear
  deriving DecidableEq, Repr

/-- The new value of RW bits. -/
def CsrOp.apply (op : CsrOp) (old x : Nat) : Nat :=
  match op with
  | .write => x
  | .set => old ||| x
  | .clear => old &&& (x ^^^ (old ||| x))

/-- The bits that a write clears in a W1C field. -/
def CsrOp.clears (op : CsrOp) (x : Nat) : Nat :=
  match op with
  | .set => 0
  | _ => x

/-- `x` takes the bits of `y` where `mask` has ones. -/
def mergeBits (mask x y : Nat) : Nat := (x &&& (mask ^^^ (mask ||| x))) ||| (y &&& mask)

/-- Writes VALID of a record (R195). -/
def clearValid (s : State) (t : Team) (n : Nat) : State :=
  let c := s.core t.home
  let r := c.mcRec n
  if r.readable && (t.privileged || bits (r.words.headD 0).toNat 43 32 == t.asid) then
    let ws := r.words.mapIdx fun i w => if i = 0 then w &&& 0x7FFF_FFFF_FFFF_FFFF else w
    s.putCore t.home { c with mcrec := SMap.put c.mcrec n { r with words := ws } }
  else s

/-- A CSR write (R122): RO registers and fields are unchanged; the outcome is a stop where the value is not allowed (R113, R124). -/
def csrUpdate (op : CsrOp) (n x : Nat) (s : State) (t : Team) : Res :=
  let y := op.apply (csrValue s t n) x
  let put := fun (t : Team) => Res.done (s.putTeam t)
  match n with
  | 0x000 =>
    if bits y 2 0 ≥ 6 then .stop (Stop.of .illegal) s
    else put { t with tcw := BitVec.ofNat 32 (mergeBits 0x0000E007 t.tcw.toNat y) }
  | 0x001 =>
    if !fmtOk (y % 2 ^ 16) then .stop (Stop.of .illegal) s
    else put (t.setTop { t.top with fmt := BitVec.ofNat 32 (y % 2 ^ 16) })
  | 0x004 => put { t with seed0 := BitVec.ofNat 64 y }
  | 0x005 => put { t with seed1 := BitVec.ofNat 64 y }
  | 0x006 => put { t with seed2 := BitVec.ofNat 64 y }
  | 0x007 => put { t with seed3 := BitVec.ofNat 64 y }
  | 0x020 => put { t with tcause := t.tcause &&& ~~~(BitVec.ofNat 64 (op.clears x % 2 ^ 29)) }
  | 0x021 => if t.handler then put { t with tpc := BitVec.ofNat 32 (mergeBits 0x0000FFFF t.tpc.toNat y) } else put t
  | 0x022 => put { t with tvb := BitVec.ofNat 32 (mergeBits 0x8000FFFF t.tvb.toNat y) }
  | 0x023 => if t.handler then put { t with tskip := BitVec.ofNat 32 (y % 2 ^ 15) } else put t
  | 0x200 => put { t with ckinj := BitVec.ofNat 32 (mergeBits 0xFFE003FF t.ckinj.toNat y) }
  | n =>
    if 0x060 ≤ n ∧ n < 0x080 then
      put { t with dropl := t.dropl &&& ~~~(BitVec.ofNat 1024 (op.clears x % 2 ^ 32) <<< (32 * (n - 0x060))) }
    else if 0x100 ≤ n ∧ n < 0x180 ∧ n % 8 = 0 ∧ bit (op.clears x) 63 then .done (clearValid s t ((n - 0x100) / 8))
    else put t

/-- `s.csrw` (R122). -/
def execSCsrw (h : Hdr) (d : RegNo) (csr : BitVec 12) (s : State) : Out State :=
  let i : Instr := .sCsrw h d csr
  withTeam i s (teamOp i h 192 0 [(d, csrWidth csr)] fun s t _ _ vs => csrUpdate .write csr.toNat (vs.headD 0) s t)

/-- `s.csrs` (R122). -/
def execSCsrs (h : Hdr) (d : RegNo) (csr : BitVec 12) (s : State) : Out State :=
  let i : Instr := .sCsrs h d csr
  withTeam i s (teamOp i h 192 0 [(d, csrWidth csr)] fun s t _ _ vs => csrUpdate .set csr.toNat (vs.headD 0) s t)

/-- `s.csrc` (R122). -/
def execSCsrc (h : Hdr) (d : RegNo) (csr : BitVec 12) (s : State) : Out State :=
  let i : Instr := .sCsrc h d csr
  withTeam i s (teamOp i h 192 0 [(d, csrWidth csr)] fun s t _ _ vs => csrUpdate .clear csr.toNat (vs.headD 0) s t)

/-- `s.fmt` (R113). -/
def execSFmt (h : Hdr) (imm : BitVec 16) (s : State) : Out State :=
  let i : Instr := .sFmt h imm
  withTeam i s (teamOp i h 192 0 [] fun s t _ _ _ => .done (s.putTeam (t.setTop { t.top with fmt := imm.zeroExtend 32 })))

/-- A seed register (R125). -/
def Team.seed (t : Team) (n : BitVec 2) : DWord :=
  match n.toNat with
  | 0 => t.seed0 | 1 => t.seed1 | 2 => t.seed2 | _ => t.seed3

/-- Writes a seed register. -/
def Team.setSeed (t : Team) (n : BitVec 2) (x : DWord) : Team :=
  match n.toNat with
  | 0 => { t with seed0 := x } | 1 => { t with seed1 := x } | 2 => { t with seed2 := x } | _ => { t with seed3 := x }

/-- `s.seed` (R125). -/
def execSSeed (h : Hdr) (n : BitVec 2) (a : RegNo) (s : State) : Out State :=
  let i : Instr := .sSeed h n a
  withTeam i s (teamOp i h 192 0 [(a, 2)] fun s t _ _ vs => .done (s.putTeam (t.setSeed n (BitVec.ofNat 64 (vs.headD 0)))))

/-- The mixed seed (R125). -/
def mixSeed (x v : DWord) : DWord := kg x 0x80000001 v ++ kg x 0x80000002 v

/-- `s.seedmix` (R125). -/
def execSSeedmix (h : Hdr) (n : BitVec 2) (a : RegNo) (s : State) : Out State :=
  let i : Instr := .sSeedmix h n a
  withTeam i s (teamOp i h 192 0 [(a, 2)] fun s t _ _ vs =>
    .done (s.putTeam (t.setSeed n (mixSeed (t.seed n) (BitVec.ofNat 64 (vs.headD 0))))))

/-- MCREC_READABLE: a taken record reads as filed, 40 core cycles after detection (R194). -/
def execMcrecReadable (core n : Nat) (s : State) : Out State :=
  let c := s.core core
  let r := c.mcRec n
  .next (if !r.readable ∧ s.ccOf (clusterOf core) ≥ r.readyAt then s.putCore core { c with mcrec := SMap.put c.mcrec n { r with readable := true } } else s)

end Sys2Proof.Machine
end

