-- ==== Sys2Proof/Machine/LaneMem.lean ====
section
/-! DEFINITION. The memory instructions of the lane pipe, opcodes 0x2C to 0x32 (R258 to R278), and the events of the access engine. -/

namespace Sys2Proof.Machine

open Sys2Proof

/-! ### Addresses and accesses -/

/-- The access size of a type (R262). -/
def accessSize (ty : Ty) (q : Bool) : Nat := if q then 16 else ty.width / 8

/-- What an instruction says of its addresses: space, registers, index, scale, offset and size. -/
structure MemForm where
  vt : Bool
  a : RegNo
  b : RegNo
  ix : Bool
  sc : Nat
  c : BitVec 8
  size : Nat
  deriving DecidableEq, Repr

/-- The form of a load, store or prefetch (R262). -/
def MemForm.of (a b c : RegNo) (m : MemF) (size : Nat) : MemForm :=
  { vt := m.sp, a := a, b := b, ix := m.ix, sc := m.sc.toNat, c := c, size := size }

/-- The form of an atomic, which takes no index. -/
def MemForm.atom (a c : RegNo) (sp : Bool) (size : Nat) : MemForm :=
  { vt := sp, a := a, b := 0, ix := false, sc := 0, c := c, size := size }

/-- The registers that form a lane's address. -/
def MemForm.words (m : MemForm) (t : Team) (l : Nat) : List RWord :=
  t.rRun m.a.toNat (if m.vt then 1 else 2) l ++ (if m.ix then t.rRun m.b.toNat 1 l else [])

/-- A lane's address, exact (R263). -/
def MemForm.addr (m : MemForm) (t : Team) (l : Nat) : Int :=
  let base : Nat := wordsNat (t.rRun m.a.toNat (if m.vt then 1 else 2) l)
  let idx : Int := if m.ix then signedVal 32 (wordsNat (t.rRun m.b.toNat 1 l)) * (2 ^ m.sc : Nat) else 0
  (base : Int) + idx + m.c.toInt * (m.size : Int)

/-- What a lane's access comes to before any data moves; `lost` is a block whose home has lost it (R199). -/
inductive LaneAcc where
  | fault (c : Cause)
  | absent
  | ats (pasid va : Nat)
  | held
  | lost (key va : Nat)
  | ok (key va : Nat) (leaf : Option Leaf)
  deriving DecidableEq, Repr

/-- The core on which a lane runs (R16). -/
def Team.coreOf (t : Team) (l : Nat) : Nat := if t.pair && decide (l ≥ t.lanes / 2) then t.home + 1 else t.home

/-- A vault address is valid for a team's grid (R259). -/
def State.vaultOk (s : State) (t : Team) (a : Nat) : Bool :=
  match s.grid? t.gid with
  | some g => g.holdsVaultAt a
  | none => false

/-- A lane's access of a right at an address, through the L1 of its core (R233, R263, R265). -/
def State.laneAccess (s : State) (t : Team) (l : Nat) (acc : Acc) (vt : Bool) (size : Nat) (a : Int) : LaneAcc :=
  if a % (size : Int) ≠ 0 then .fault .align
  else if vt then
    if a < 0 ∨ a ≥ 2 ^ 30 then .fault .vault
    else if s.vaultOk t a.toNat then .ok (vaultKey a.toNat) a.toNat none else .fault .vault
  else if a < 0 ∨ a ≥ 2 ^ 56 then .fault .page
  else
    let c := s.ctxOf t
    match s.translateOn (t.coreOf l) c a.toNat acc with
    | .fault f => .fault f
    | .absent => .absent
    | .ats p v => .ats p v
    | .held => .held
    | .ok key l => .ok key a.toNat (some l)

/-- A lane has a cause: for a page that is not resident PAGE, unless the instruction is a residency load (R245). -/
def LaneAcc.has (ldr : Bool) (c : Cause) : LaneAcc → Bool
  | .fault f => f == c
  | .absent => !ldr && c == .page
  | _ => false

/-- The stop of a memory instruction: the first cause of R265 that any lane has, with the lanes that have it; ALIAS names none. -/
def firstFault (ldr : Bool) (outs : List (Nat × LaneAcc)) : Option Stop :=
  let lanesOf := fun (c : Cause) => (outs.filter fun o => o.2.has ldr c).map Prod.fst
  ([.align, .vault, .page, .aliased, .perm] : List Cause).findSome? fun c =>
    match lanesOf c with
    | [] => none
    | ls => some (Stop.lanesOf c (if c = .aliased then 0 else maskOf ls))

/-- The ATS translations that an instruction waits for (R252). -/
def atsNeeds (outs : List (Nat × LaneAcc)) : List (Nat × Nat) :=
  distinct (outs.filterMap fun o => match o.2 with | .ats p v => some (p, v) | _ => none)

/-- Fails lanes for a lost or poisoned block (R199): STOP raises MCHECK, DROP marks them. -/
def failStorage (s : State) (t : Team) (i : Instr) (lanes : List Nat) (addr key : Nat) : State × Team × Option Stop :=
  match lanes with
  | [] => (s, t, none)
  | _ =>
    let f := t.finder i
    let s := s.fileMc {
      kind := 5, unit := 8, asid := t.asid, pair := t.pair, core := t.home, pc := f.pc, base := f.base, ext := f.ext,
      tlin := f.tlin, lanes := lanes, pred := 0, found := 0, addr := addr / 64 * 64, synd := 0, level := homeLevel key }
    if t.chkStop then (s, t, some (Stop.lanesOf .mcheck (maskOf lanes)))
    else
      let t := { t with dropl := t.dropl ||| maskOf lanes }
      (s, if t.handler && t.tcw.getLsbD 13 then t.holdCause .mcheck else t, none)

/-- Reads the stored codes of the blocks that lanes touch at their homes (R199) and finds the lanes whose block is poisoned. -/
def State.meetCodes (s : State) (f : Finder) (acc : List (Nat × Nat × Nat)) : State × List Nat :=
  let s := acc.foldl (fun (s : State) a => s.readBlock f a.2.1 a.2.2) s
  (s, (acc.filter fun a => s.poisoned a.2.1).map Prod.fst)

/-- The same for loads through a lane's L1 and the last level: a block that the L1 holds is not read at its home (R196, R260). -/
def State.meetLoads (s : State) (t : Team) (f : Finder) (vt : Bool) (acc : List (Nat × Nat × Nat)) : State × List Nat :=
  if vt then s.meetCodes f acc
  else
    let c := s.ctxOf t
    let s := acc.foldl (fun (s : State) a =>
      let k := t.coreOf a.1
      let s := if s.l1Holds k c a.2.2 || (SMap.find s.lines (t.asid * 2 ^ 56 + a.2.2 / 64)).isSome then s.readCaches f (some k) t.asid a.2.1 a.2.2
        else s
      if s.l1Holds k c a.2.2 then s else s.readBlock f a.2.1 a.2.2) s
    (s, (acc.filter fun a => s.poisoned a.2.1).map Prod.fst)

/-- The lanes whose block its home on another device has lost (R199). -/
def lostLanes (outs : List (Nat × LaneAcc)) : List Nat :=
  outs.filterMap fun o => match o.2 with | .lost _ _ => some o.1 | _ => none

/-- Where the first of several lanes goes: address and key. -/
def placeOf (outs : List (Nat × LaneAcc)) (lanes : List Nat) : Nat × Nat :=
  (outs.findSome? fun o => if lanes.contains o.1 then (match o.2 with | .ok k va _ => some (va, k) | .lost k va => some (va, k) | _ => none) else none).getD
    (0, 0)

/-- The lanes' accesses that go to memory: lane, key and address. -/
def okAccesses (outs : List (Nat × LaneAcc)) : List (Nat × Nat × Nat) :=
  outs.filterMap fun o => match o.2 with | .ok k va _ => some (o.1, k, va) | _ => none

/-! ### What other devices are asked (R242, R243, R265) -/

/-- What a lane's access asks the home of a page of another device: a block that no copy here serves, or whether the access would pass there. -/
def State.laneNeed (s : State) (t : Team) (acc : Acc) (size : Nat) (o : Nat × LaneAcc) : Option (Nat × Nat × Nat × RemoteOp) :=
  match o.2 with
  | .ok key va (some l) =>
    if !peerHome key then none
    else if acc = .read then
      let c := s.ctxOf t
      let held := fun (a : Nat) => s.l1Holds (t.coreOf o.1) c a || s.llcHolds c a l
      if held va && held (va + size - 1) then none else some (t.coreOf o.1, key - va % 64, va / 64 * 64, .load 64)
    else some (t.coreOf o.1, key - va % 64, va / 64 * 64, .check acc 64)
  | _ => none

/-- A question that a team has put, with its answer. -/
def State.asked (s : State) (uid va : Nat) (op : RemoteOp) : Option RemAsk :=
  s.remAsks.find? fun a => a.asker == .team uid && a.va == va && a.op == op && a.ret.isEmpty

/-- The needs of the lanes, one for each block and core. -/
def State.laneNeeds (s : State) (t : Team) (acc : Acc) (size : Nat) (outs : List (Nat × LaneAcc)) : List (Nat × Nat × Nat × RemoteOp) :=
  (distinct (outs.filterMap (s.laneNeed t acc size))).foldl (fun (r : List (Nat × Nat × Nat × RemoteOp)) n =>
    if r.any fun m => m.2.2.1 == n.2.2.1 then r else r ++ [n]) []

/-- Puts one question: the writes to the block that are on their way go first and are awaited (R270); a block that misses is counted (R248). -/
def State.askOne (s : State) (t : Team) (n : Nat × Nat × Nat × RemoteOp) : State :=
  let s := s.drainOver t.uid n.2.1 64
  if s.writesOut t.asid n.2.2.1 || (s.asked t.uid n.2.2.1 n.2.2.2).isSome then s
  else
    let c := s.ctxOf t
    let s := match s.leaf c n.2.2.1, n.2.2.2 with
      | .ok l, .load _ => s.countMiss t.ctx c n.2.2.1 l
      | _, _ => s
    s.sendAsk (.team t.uid) n.1 t.asid n.2.1 n.2.2.1 n.2.2.2

/-- Puts the questions that are open; the team waits for the answers. -/
def State.askRemote (s : State) (t : Team) (ns : List (Nat × Nat × Nat × RemoteOp)) : State :=
  (ns.foldl (fun (s : State) n => s.askOne t n) s).modTeam t.uid fun t => { t with hold := .remote }

/-- A need is answered. -/
def State.needMet (s : State) (uid : Nat) (n : Nat × Nat × Nat × RemoteOp) : Bool :=
  match s.asked uid n.2.2.1 n.2.2.2 with
  | some a => a.ans.isSome
  | none => false

/-- What a lane's access comes to whose home refuses it, its entry governing there (R242, R243, R245, R265). -/
def LaneAcc.ofRefusal (key va : Nat) : Refused → LaneAcc
  | .page => .fault .page
  | .absent => .absent
  | .aliased => .fault .aliased
  | .perm => .fault .perm
  | .lost => .lost key va

/-- A lane whose home has refused it. -/
def State.refusedLane (s : State) (t : Team) (acc : Acc) (size : Nat) (o : Nat × LaneAcc) : Nat × LaneAcc :=
  match s.laneNeed t acc size o, o.2 with
  | some n, .ok key va _ =>
    match (s.asked t.uid n.2.2.1 n.2.2.2).bind fun a => a.ans with
    | some (.refused why) => (o.1, LaneAcc.ofRefusal key va why)
    | _ => o
  | _, _ => o

/-- The questions of a team that are answered are done with. -/
def State.clearAsks (s : State) (uid : Nat) : State :=
  { s with remAsks := s.remAsks.filter fun a => !(a.asker == .team uid && a.ans.isSome) }

/-! ### The prologue of a memory instruction -/

/-- The translations of lanes that their L1 does not hold enter the TLBs of their controllers, those of absent pages too (R235). -/
def State.touchLanes (s : State) (t : Team) (c : Ctx) (outs : List (Nat × Int × LaneAcc)) : State :=
  (distinct (outs.filterMap fun o => match o.2.2 with
    | .ok _ va (some _) => if (s.l1Leaf (t.coreOf o.1) c va).isSome then none else some (va / 64)
    | .absent => some (o.2.1.toNat / 64)
    | _ => none)).foldl (fun (s : State) b => s.useTlb c (b * 64)) s

/-- The walks that lanes' accesses make meet the codes of the blocks that they read (R199). -/
def State.meetWalks (s : State) (f : Finder) (c : Ctx) (vas : List Int) : State :=
  (distinct (vas.filterMap fun a => if 0 ≤ a ∧ a < 2 ^ 56 then some (a.toNat / 2 ^ 19 * 2 ^ 19) else none)).foldl (fun (s : State) va =>
    if s.tlb.any fun e => e.asid == c.asid && e.page == va / pageSize e.leaf.level then s else s.meetWalk f c va) s

/-- The checks of a memory instruction in the address generator (R188): the address by the ADD rule, each data word against its code. -/
def MemForm.checks (m : MemForm) (data : Team → Nat → List RWord) (t : Team) (l : Nat) : List WordCheck :=
  let n := if m.vt then 1 else 2
  resChecks (.lea m.sc) [t.rRun m.a.toNat n l, if m.ix then t.rRun m.b.toNat 1 l else []] (natWords n (wrap (32 * n) (m.addr t l))) ++
    operandChecks (data t l)

/-- The islands that lanes' accesses wait for (R426). -/
def State.laneIslands (s : State) (t : Team) (m : MemForm) (outs : List (Nat × LaneAcc)) : List Need :=
  (distinct (outs.flatMap fun o => if o.2 == .held then s.darkAt (s.ctxOf t) (m.addr t o.1).toNat else [])).map Need.island

/-- A lane faults ALIGN or VAULT, which precede what another device may answer (R265). -/
def LaneAcc.early (r : LaneAcc) : Bool := r == .fault .align || r == .fault .vault

/-- What a faulting instruction in flight keeps from later ones: its registers, and where it has a rounding draw still to take, the draws (number
512), so that those of the team do not depend on the stop (R57). -/
def Team.faultRegs (t : Team) (i : Instr) : List Nat :=
  Instr.touches i ++
    match i with
    | .vAtom _ .fadd _ _ _ _ _ _ | .vAtomn _ .fadd _ _ _ _ _ => if t.rm = 5 then [512] else []
    | _ => []

/-- The prologue of a memory instruction: the residue check of its addresses and data (R188), the lanes' accesses and the faults of R265, with
the questions to the host and to other devices that they need (R242, R252). `k` gets what a further wait comes to, the state, the team, the
lanes that failed their check, and the accesses of the others. A long-latency instruction with a lookahead count that faults does so later
(R143). An instruction that waits has done nothing yet. -/
def memWith (i : Instr) (h : Hdr) (m : MemForm) (acc : Acc) (ldr : Bool) (data : Team → Nat → List RWord)
    (extra : LaneAcc → LaneAcc) (k : ((State → State) → Res) → State → Team → List Nat → List (Nat × LaneAcc) → Res) (s0 : State) (t0 : Team) :
    Res :=
  let lanes := t0.lanesFor h
  let v := judge s0 t0 i 3 lanes (m.checks data t0) (fun l => [l]) t0.lanePass false
  match v.stop with
  | some st => .stop st (v.s.putTeam v.t)
  | none =>
    let live := lanes.filter fun l => !v.failed.contains l
    let s := v.s.putTeam v.t
    let s := if m.vt then s else s.meetWalks (v.t.finder i) (s.ctxOf v.t) (live.map (m.addr v.t))
    match s.team? v.t.uid with
    | none => .jump s
    | some t =>
      let outs := live.map fun l => (l, extra (s.laneAccess t l acc m.vt m.size (m.addr t l)))
      let fault := fun (st : Stop) (s : State) =>
        if h.la = 0 then Res.stop st s
        else .done (s.putTeam { t with flight := t.flight ++
          [({ seq := t.issued, pc := t.pc, la := h.la.toNat, regs := t.faultRegs i, stop := some st, writes := [], stat := none } : Flight)] })
      match firstFault ldr (outs.filter fun o => o.2.early) with
      | some st => fault st s
      | none =>
        match atsNeeds outs with
        | n :: ns => .hold (s0.askAts t.uid (n :: ns))
        | [] =>
          let needs := s.laneNeeds t acc m.size outs
          if outs.any fun o => o.2 == .held then .hold (s0.holdNeeds t.uid (s.laneIslands t m outs))
          else if needs.all (s.needMet t.uid) then
            let outs := outs.map (s.refusedLane t acc m.size)
            match firstFault ldr outs with
            | some st => fault st (s.clearAsks t.uid)
            | none =>
              let s := if m.vt then s else s.touchLanes t (s.ctxOf t) (outs.map fun o => (o.1, m.addr t o.1, o.2))
              k (fun f => .hold (f s0)) s t v.failed outs
          else .hold (s0.askRemote t0 needs)

/-! ### Loads -/

/-- The registers that a load writes from the bytes it reads (R267). -/
def loadWords (ty : Ty) (q : Bool) (x : Nat) : List RWord :=
  if q then natWords 4 x
  else if ty.is64 then natWords 2 x
  else if ty.width < 32 then natWords 1 (extend ty.isSigned ty.width 32 x)
  else natWords 1 x

/-- The block that a team has asked its home for and that has come, where an address lies in one. -/
def State.blockFor (s : State) (t : Team) (va : Nat) : Option (RemAsk × List Byte) :=
  (s.asked t.uid (va / 64 * 64) (.load 64)).bind fun a => match a.ans with
    | some (.bytes bs) => some (a, bs)
    | _ => none

/-- A byte as a lane's load sees it: of a page of another device from the block that the team has asked for, where it has; else as its core sees it
(R242, R260). -/
def State.laneByte (s : State) (t : Team) (core : Nat) (c : Ctx) (va key : Nat) (l : Leaf) : Byte :=
  match (if peerHome key then s.blockFor t va else none) with
  | some b => (b.2[va % 64]?).getD 0
  | none => s.coreByte core c va key l

/-- A place that a range of bytes holds differently. -/
def differs {α : Type} (m : SMap α) (val : α → Byte) (key : Nat) (bs : List Byte) : Bool :=
  (bs.mapIdx fun i b => (SMap.find m (key + i)).any fun o => val o != b).any id

/-- The copies that serve a team's cores hold nothing but the bytes that the team has just read, so that it never reads older ones later (R270,
R283). -/
def State.teamFresh (s : State) (t : Team) (asid va : Nat) (bs : List Byte) : State :=
  let s := t.cores.foldl (fun (s : State) j =>
    if differs s.l1 (fun o => o.val) (l1Key j asid va) bs then s.dropL1 j asid va bs.length else s) s
  if differs s.remote id (spaceKey asid va) bs then
    { s with remote := s.remote.filter fun e => !(decide (spaceKey asid va ≤ e.1) && decide (e.1 < spaceKey asid va + bs.length)) }
  else s

/-- What a load of a lane leaves in the caches: the whole block that came from another device, where it may still be kept, else the parts that it
has read (R242, R260, R267). -/
def State.keepLoad (s : State) (t : Team) (core : Nat) (c : Ctx) (va key : Nat) (l : Leaf) (nc : Bool) (n : Nat) : State :=
  match (if peerHome key then s.blockFor t va else none) with
  | some b => if b.1.keep then s.keepBlock (if nc then none else some core) c (va / 64 * 64) l b.2 else s
  | none => s.keepBytes core c va key l nc n

/-- What one lane's load reads: the bytes as the lane sees them (R260, R262, R267); where the team's other core or another device could serve it
older ones, the copies that hold others are dropped (R270, R283). -/
def State.laneSee (s : State) (t : Team) (l size : Nat) : LaneAcc → State × Nat
  | .ok key va (some lf) =>
    let c := s.ctxOf t
    let bs := (List.range size).map fun i => s.laneByte t (t.coreOf l) c (va + i) (key + i) lf
    (if t.pair || peerHome key then s.teamFresh t c.asid va bs else s, leNat bs)
  | .ok key _ none => (s, leNat (s.bytes key size))
  | _ => (s, 0)

/-- What the loads of several lanes read, in ascending lane order (R270). -/
def State.lanesSee (t : Team) (size : Nat) : State → List (Nat × LaneAcc) → State × List (Nat × Nat)
  | s, [] => (s, [])
  | s, o :: os =>
    let r := s.laneSee t o.1 size o.2
    let r' := State.lanesSee t size r.1 os
    (r'.1, (o.1, r.2) :: r'.2)

/-- The copies that one lane's load leaves in the caches; a hit in the L1 goes no further (R260). -/
def State.laneKeep (s : State) (t : Team) (hint : BitVec 2) (size : Nat) (o : Nat × LaneAcc) : State :=
  match o.2 with
  | .ok key va (some lf) =>
    let c := s.ctxOf t
    let k := t.coreOf o.1
    let s' := s.keepLoad t k c va key lf (hint == 1#2) size
    if (s.l1Leaf k c va).isSome then s' else s'.fill c va lf (hint == 2#2)
  | _ => s

/-- The loads of several lanes: the team's own earlier writes to their bytes first, then what the lanes read, then what their caches keep
(R260, R270). -/
def State.lanesLoad (t : Team) (hint : BitVec 2) (size : Nat) (s : State) (os : List (Nat × LaneAcc)) : State × List (Nat × Nat) :=
  let s := os.foldl (fun (s : State) o => match o.2 with | .ok key _ _ => s.drainOver t.uid key size | _ => s) s
  let r := State.lanesSee t size s os
  (os.foldl (fun (s : State) o => s.laneKeep t hint size o) r.1, r.2)

/-- The writes of a load's results as a flight makes them. -/
def laneWrites (d : Nat) (l : Nat) (r : LRes) : List PendWrite :=
  (r.words.mapIdx fun k w => PendWrite.reg ((d + k) * 1024 + l) w) ++
    (match r.pred with
    | some (p, b) => if p = 0 then [] else [PendWrite.pred (p * 1024 + l) b]
    | none => [])

/-- Finishes a load or returning atomic: with no lookahead its results are written at once, otherwise they are in flight (R29, R76). -/
def returnLanes (i : Instr) (h : Hdr) (d : RegNo) (preds : List Nat) (res : List (Nat × LRes)) (s : State) (t : Team) : Res :=
  if h.la = 0 then
    .done (s.putTeam (res.foldl (fun (t : Team) r => t.writeLane d.toNat r.1 r.2) t))
  else
    let ws := res.flatMap fun r => laneWrites d.toNat r.1 r.2
    let f : Flight := {
      seq := t.issued, pc := t.pc, la := h.la.toNat, regs := Instr.touches i ++ preds, stop := none, writes := ws, stat := none }
    .done (s.putTeam { t with flight := t.flight ++ [f] })

/-- A load (R267, R268). `flag` is the predicate of a residency load. -/
def execLoad (i : Instr) (h : Hdr) (ty : Ty) (d a b c : RegNo) (m : MemF) (flag : Option Nat) : State → Team → Res :=
  let size := accessSize ty m.q
  memWith i h (MemForm.of a b c m size) .read flag.isSome (fun _ _ => []) id fun _ s t failed outs =>
    let n := if m.q then 4 else if ty.is64 then 2 else 1
    let met := s.meetLoads t (t.finder i) m.sp (okAccesses outs)
    match met.1.team? t.uid with
    | none => .jump met.1
    | some t =>
      let bad := met.2 ++ lostLanes outs
      let f := failStorage met.1 t i bad (placeOf outs bad).1 (placeOf outs bad).2
      match f.2.2 with
      | some st => .stop st ((f.1.clearAsks t.uid).putTeam f.2.1)
      | none =>
        let t := f.2.1
        let live := outs.filter fun o => !bad.contains o.1
        let ld := State.lanesLoad t m.hint size (f.1.putTeam t) live
        let zero := fun (b : Bool) => ({ words := List.replicate n RWord.zero, pred := flag.map fun p => (p, b), draws := 0 } : LRes)
        let res := (t.lanesFor h).map fun l =>
          if failed.contains l || bad.contains l then (l, zero false)
          else match live.find? fun o => o.1 == l with
            | some (_, .ok _ _ _) =>
              let x := ((ld.2.find? fun r => r.1 == l).map Prod.snd).getD 0
              (l, { words := loadWords ty m.q x, pred := flag.map fun p => (p, true), draws := 0 })
            | _ => (l, zero false)
        match ld.1.team? t.uid with
        | none => .jump ld.1
        | some t => returnLanes i h d (flag.toList.map fun p => 256 + p) res (ld.1.clearAsks t.uid) t

/-- `v.ld` (R267). -/
def execVLd (h : Hdr) (ty : Ty) (d a b c : RegNo) (m : MemF) (s : State) : Out State :=
  withTeam (.vLd h ty d a b c m) s (execLoad (.vLd h ty d a b c m) h ty d a b c m none)

/-- `v.ldr` (R268): a page that is not resident gives zero and clears the flag. -/
def execVLdr (h : Hdr) (ty : Ty) (d a b c : RegNo) (m : MemF) (p : BitVec 4) (s : State) : Out State :=
  withTeam (.vLdr h ty d a b c m p) s (execLoad (.vLdr h ty d a b c m p) h ty d a b c m (some p.toNat))

/-! ### Stores -/

/-- A lane's pending write. -/
def laneWrite (i : Instr) (t : Team) (l : Nat) (key va : Nat) (vt : Bool) (kind : WriteKind) (bs : List Byte) : PWrite :=
  { uid := t.uid, seq := t.issued, core := t.coreOf l, cores := t.cores, gid := t.gid, asid := t.asid, va := va, vault := vt, key := key,
    lane := l, pc := t.pc, base := (recWords i).1, ext := (recWords i).2, bytes := bs, kind := kind }

/-- The bytes that lanes write in a block, the highest lane last (R267). -/
def blockBytes (blk : Nat) (ws : List PWrite) : List (Option Byte) :=
  (List.range 64).map fun i =>
    let k := blk * 64 + i
    (ws.filter fun w => decide (w.key ≤ k) && decide (k < w.key + w.bytes.length)).getLast?.bind fun w => w.bytes[k - w.key]?

/-- The writes of one store to poisoned blocks (R199): those of a block that the store writes whole become one write of it; the lanes of the
others fail. -/
def splitPoison (s : State) (ws : List PWrite) : List PWrite × List PWrite :=
  let clean := ws.filter fun w => !s.poisoned w.key
  let bad := ws.filter fun w => s.poisoned w.key
  let blks := distinct (bad.map fun w => w.key / 64)
  blks.foldl (fun (r : List PWrite × List PWrite) blk =>
    let mine := bad.filter fun w => w.key / 64 == blk
    let bs := blockBytes blk mine
    match mine with
    | [] => r
    | w :: _ =>
      if bs.all Option.isSome then
        (r.1 ++ [{ w with key := blk * 64, va := w.va / 64 * 64, bytes := bs.map fun b => b.getD 0 }], r.2)
      else (r.1, r.2 ++ mine)) (clean, [])

/-- A write is accepted (R266): it goes to the writes on their way. -/
def State.accept (s : State) (w : PWrite) : State := { s with pend := s.pend ++ [w] }

/-- A team that stores to a HOST page makes its next release read the link (R295). -/
def Team.noteHost (t : Team) (ws : List PWrite) : Team := if ws.any fun w => hostHome w.key then { t with hostStores := true } else t

/-- The writes that lanes send, those to poisoned blocks settled (R199): `k` gets the state, the team and the writes that go on. -/
def sendWrites (i : Instr) (s : State) (t : Team) (ws : List PWrite) (k : State → Team → List PWrite → Res) : Res :=
  let sp := splitPoison s ws
  let f := failStorage s t i (sp.2.map fun w => w.lane) ((sp.2.head?.map fun w => w.va).getD 0) ((sp.2.head?.map fun w => w.key).getD 0)
  match f.2.2 with
  | some st => .stop st (f.1.putTeam f.2.1)
  | none => k f.1 f.2.1 sp.1

/-- `v.st` (R267). -/
def storeLanes (i : Instr) (h : Hdr) (ty : Ty) (d a b c : RegNo) (m : MemF) : State → Team → Res :=
  let size := accessSize ty m.q
  let n := if m.q then 4 else if ty.is64 then 2 else 1
  memWith i h (MemForm.of a b c m size) .write false (fun t l => t.rRun d.toNat n l) id fun _ s t _ outs =>
    let ws := outs.filterMap fun o => match o.2 with
      | .ok key va _ => some (laneWrite i t o.1 key va m.sp .store (natLe size (wordsNat (t.rRun d.toNat n o.1))))
      | _ => none
    sendWrites i (s.clearAsks t.uid) t ws fun s t ws => .done (ws.foldl State.accept (s.putTeam (t.noteHost ws)))

/-- `v.st`. -/
def execVSt (h : Hdr) (ty : Ty) (d a b c : RegNo) (m : MemF) (s : State) : Out State :=
  withTeam (.vSt h ty d a b c m) s (storeLanes (.vSt h ty d a b c m) h ty d a b c m)

/-! ### Prefetch -/

/-- Queues a prefetch on the die of the block's home; a full queue of 256 discards it (R417). -/
def Governor.queuePf (g : Governor) (p : Prefetch) : Governor :=
  let d := homeDie p.va
  { g with pfq := g.pfq.mapIdx fun i q => if i = d ∧ q.length < 256 then q ++ [p] else q }

/-- A prefetched block of this device or of the host, or one that a remote copy holds, is kept by the last level, and by a core's L1 where the level
is 0 (R269). Its read meets the stored code of the block, and one that is lost is not kept (R196, R199). -/
def State.keepPrefetch (s : State) (core level slot va key : Nat) (l : Leaf) : State :=
  let c := s.ctx slot
  let s := if peerHome key then s else (s.readCaches (Finder.engine core c.asid 0) none c.asid key va).readBlock (Finder.engine core c.asid 0) key va
  if !(s.ctx slot).valid || s.poisoned key then s
  else (s.keepBytes core c va key l (level != 0) 64).fill c va l false

/-- The last level holds a remote copy of a whole block. -/
def State.llcBlock (s : State) (c : Ctx) (va : Nat) (l : Leaf) : Bool := (List.range 8).all fun j => s.llcHolds c (va / 64 * 64 + 8 * j) l

/-- A prefetch of a block for a core (R269): the block is fetched, or asked of the host or of its home, where it counts as a miss (R248); a block
whose address would fault or whose page is absent is dropped, as is one that this device is writing. -/
def State.fetchBlock (s : State) (core level slot va : Nat) : State :=
  let c := s.ctx slot
  match s.translate c va .read with
  | .ok key l =>
    let s := s.useTlb c va
    if !peerHome key || s.llcBlock c va l then s.keepPrefetch core level slot va key l
    else if s.writesOut c.asid va then s
    else (s.countMiss slot c va l).sendAsk (.prefetch level) core c.asid key va (.load 64)
  | .ats p v => { s.emitAts p v with recWaits := s.recWaits ++ [({ slot := slot, at_ := va, what := .prefetch core level } : RecWait)] }
  | .held =>
    match s.darkAt c va with
    | [] => s
    | is => { s.wantIslands is with recWaits := s.recWaits ++ [({ slot := slot, at_ := va, what := .prefetch core level } : RecWait)] }
  | _ => s

/-- One lane's prefetch (R269): the team's own writes to the block register first, so that no copy is older than what the team has written
(R270, R279). -/
def State.prefetch (s : State) (t : Team) (l level : Nat) (a : Int) : State :=
  if a < 0 ∨ a ≥ 2 ^ 56 then s
  else
    let va := a.toNat / 64 * 64
    let c := s.ctxOf t
    match s.translate c va .read with
    | .ok key _ =>
      if level = 2 then { s with gov := s.gov.queuePf { asid := t.asid, va := va, gid := t.gid } }
      else (s.drainOver t.uid key 64).fetchBlock (t.coreOf l) level t.ctx va
    | .ats .. =>
      if level = 2 then { s with gov := s.gov.queuePf { asid := t.asid, va := va, gid := t.gid } } else s.fetchBlock (t.coreOf l) level t.ctx va
    | _ => s

/-- `v.pf` (R269): it returns nothing and never faults. -/
def execVPf (h : Hdr) (a b c : RegNo) (m : MemF) (s : State) : Out State :=
  let i : Instr := .vPf h a b c m
  let f := MemForm.of a b c { m with sp := false } 64
  withTeam i s fun s t =>
    let lanes := t.lanesFor h
    let v := judge s t i 3 lanes (f.checks (fun _ _ => []) t) (fun l => [l]) t.lanePass false
    match v.stop with
    | some st => .stop st (v.s.putTeam v.t)
    | none => .done ((lanes.filter fun l => !v.failed.contains l).foldl
        (fun (s : State) l => s.prefetch v.t l m.hint.toNat (f.addr v.t l)) (v.s.putTeam v.t))

/-! ### Atomics -/

/-- An atomic on a HOST page that the link has no operation for faults PERM (R252). -/
def hostAtomic (ok : Bool) : LaneAcc → LaneAcc
  | .ok key va (some l) => if l.mode = 3 ∧ ¬ok then .fault .perm else .ok key va (some l)
  | r => r

/-- The operations that PCI Express offers: wrapping add and exchange (R252). -/
def hostOp : AtomOp → Bool
  | .add | .xchg => true
  | _ => false

/-- The kind of an atomic write of a lane: the data, and for a floating add the mode and the draw taken at issue (R58). -/
def atomKind (t : Team) (op : AtomOp) (ty : Ty) (b : RegNo) (l inj : Nat) : WriteKind :=
  let x := if op = .rr then 0 else wordsNat (t.rRun b.toNat (regsOf ty) l)
  .atomic op ty (BitVec.ofNat 64 x) t.rm (if op = .fadd ∧ t.rm = 5 then t.draw l 0 else 0) inj

/-- The kind of a compare-and-swap of a lane (R273). -/
def casKind (t : Team) (ty : Ty) (b : RegNo) (l inj : Nat) : WriteKind :=
  .cas ty (BitVec.ofNat 64 (wordsNat (t.rRun b.toNat (regsOf ty) l)))
    (BitVec.ofNat 64 (wordsNat (t.rRun (b.toNat + regsOf ty) (regsOf ty) l))) inj

/-- The data registers of an atomic that are checked as they leave the core (R197). -/
def atomData (op : AtomOp) (ty : Ty) (b : RegNo) (t : Team) (l : Nat) : List RWord :=
  if op = .rr then [] else t.rRun b.toNat (regsOf ty) l

/-- The draws that lanes of a floating add have taken (R56, R58). -/
def Team.drawAtoms (t : Team) (op : AtomOp) (lanes : List Nat) : Team :=
  if op = .fadd ∧ t.rm = 5 then
    lanes.foldl (fun (t : Team) l => { t with rounds := SMap.set 0 t.rounds l (SMap.get 0 t.rounds l + 1) }) t
  else t

/-- The request that carries a lane's returning atomic to another device. -/
def State.atomAsk (s : State) (uid l : Nat) : Option RemAsk := s.remAsks.find? fun a => a.asker == .team uid && a.ret.contains l

/-- The old word of `n` bytes that a lane's returning atomic on another device has met, in the answer to its request; none while there is none. -/
def State.atomOld (s : State) (uid l n : Nat) : Option Nat :=
  (s.atomAsk uid l).bind fun a => match a.ans with
    | some (.bytes bs) => some (leNat ((bs.drop (n * a.ret.idxOf l)).take n))
    | _ => none

/-- Why a home has refused a lane's returning atomic. -/
def State.atomRefused (s : State) (uid l : Nat) : Option Refused :=
  (s.atomAsk uid l).bind fun a => match a.ans with
    | some (.refused why) => some why
    | _ => none

/-- Sends the returning atomics of lanes to the units of other devices, the lanes of a block together and in order, once the team's own writes to the
block have been answered; the team waits (R261, R271, R272, R274). A request that its home has refused is made again. -/
def State.askAtoms (i : Instr) (kind : Nat → WriteKind) (t : Team) (acc : List (Nat × Nat × Nat)) (s : State) : State :=
  let s := { s with remAsks := s.remAsks.filter fun a => !(a.asker == .team t.uid && !a.ret.isEmpty && (match a.ans with | some (.refused why) => why != .lost | _ => false)) }
  let open_ := acc.filter fun x => (s.atomAsk t.uid x.1).isNone
  let s := (distinct (open_.map fun x => x.2.1 / 64)).foldl (fun (s : State) blk =>
    let s := s.drainOver t.uid (blk * 64) 64
    let ws := (open_.filter fun x => x.2.1 / 64 == blk).map fun x => laneWrite i t x.1 x.2.1 x.2.2 false (kind x.1) []
    match ws with
    | [] => s
    | w :: rest =>
      if s.remAsks.any fun a => a.asker == .team t.uid && a.registers && a.ret.isEmpty && a.va / 64 == w.va / 64 then s
      else
        (s.voidLoads w.asid (w.va / 64 * 64) 64).sendAccess (.team t.uid) w.core w.asid w.key w.va w.remote
          (rest.map fun x => (x.va, x.remote)) (w :: rest) (ws.map fun x => x.lane)) s
  s.modTeam t.uid fun t => { t with hold := .remote }

/-- Performs returning atomics at their units in ascending lane order (R272, R274), with the words they met. -/
def performAtoms (i : Instr) (kind : Nat → WriteKind) (t : Team) (vt : Bool) (ty : Ty) : State → List (Nat × Nat × Nat) → State × List (Nat × Nat)
  | s, [] => (s, [])
  | s, (l, key, va) :: rest =>
    let n := tyBytes ty
    let w := laneWrite i t l key va vt (kind l) []
    let x : State × Nat :=
      if peerHome key then (s.dropForAtomic w, (s.atomOld t.uid l n).getD 0)
      else
        let s := s.drainOver t.uid key n
        (s.register w, leNat (s.bytes key n))
    let r := performAtoms i kind t vt ty x.1 rest
    (r.1, (l, x.2) :: r.2)

/-- The check of a lane's returning atomic at its unit, which an injection meets (R189, R203): the low word of what the lane's operation writes, in
its turn; on another device no word is known here. -/
def unitChecks (i : Instr) (kind : Team → Nat → WriteKind) (t : Team) (vt : Bool) (ty : Ty) (s : State) (acc : List (Nat × Nat × Nat)) (l : Nat) :
    List WordCheck :=
  if (t.injects 6).isNone then []
  else
    let new := (acc.find? fun x => x.1 == l).bind fun x =>
      if peerHome x.2.1 then none
      else ((performAtoms i (kind t) t vt ty s acc).2.find? fun r => r.1 == l).map fun r =>
        match kind t l with
        | .atomic op ty data rm draw _ => atomNew op ty r.2 data.toNat rm draw
        | .cas ty cmp swap _ => casNew ty.width r.2 cmp.toNat swap.toNat
        | .store => 0
    [{ bad := false, word := new.map fun x => BitVec.ofNat 32 x, pred := none }]

/-- A returning atomic or compare-and-swap (R271 to R273): checked at the unit as UNIT 6, performed at the home, the old value written back.
Words on other devices are asked for first; when every home has refused the team stops, and when only some have, those lanes ask again, since the others
have acted (log entry 64). -/
def atomReturn (i : Instr) (h : Hdr) (ty : Ty) (d : RegNo) (m : MemForm) (data : Team → Nat → List RWord) (okHost : Bool)
    (kind : Team → Nat → WriteKind) (op : AtomOp) : State → Team → Res :=
  memWith i h m .atomic false data (hostAtomic okHost) fun wait s t failed outs =>
    let acc := okAccesses outs
    let v := judge s t i 6 (acc.map Prod.fst) (unitChecks i kind t m.vt ty s acc) (fun l => [l]) t.lanePass false
    match v.stop with
    | some st => .stop st (v.s.putTeam v.t)
    | none =>
      let met := (v.s.putTeam v.t).meetCodes (t.finder i) acc
      match met.1.team? t.uid with
      | none => .jump met.1
      | some t1 =>
        let far0 := acc.filter fun x => peerHome x.2.1
        let bad := met.2 ++ lostLanes outs ++ (far0.filter fun x => s.atomRefused t.uid x.1 == some .lost).map Prod.fst
        let f := failStorage met.1 t1 i bad (placeOf outs bad).1 (placeOf outs bad).2
        match f.2.2 with
        | some st => .stop st ((f.1.clearAsks t.uid).putTeam f.2.1)
        | none =>
          let t' := f.2.1
          let go := acc.filter fun x => !v.failed.contains x.1 && !bad.contains x.1
          let far := go.filter fun x => peerHome x.2.1
          let no := far.filterMap fun x => (s.atomRefused t.uid x.1).map fun why => (x.1, LaneAcc.ofRefusal x.2.1 x.2.2 why)
          if far.all (fun x => (s.atomOld t.uid x.1 (tyBytes ty)).isNone && (s.atomAsk t.uid x.1).all fun a => a.ans.isSome) && !no.isEmpty then
            .stop ((firstFault false no).getD (Stop.lanesOf .page (maskOf (no.map Prod.fst)))) (s.clearAsks t.uid)
          else if far.any fun x => (s.atomOld t.uid x.1 (tyBytes ty)).isNone then wait (State.askAtoms i (kind t) t far)
          else
              let r := performAtoms i (kind t') t' m.vt ty (f.1.putTeam t') go
              let r := (r.1.clearAsks t.uid, r.2)
              match r.1.team? t.uid with
              | none => .jump r.1
              | some t2 =>
                let t2 := t2.drawAtoms op (t.lanesFor h)
                let n := regsOf ty
                let res := (t.lanesFor h).map fun l =>
                  match r.2.find? fun x => x.1 == l with
                  | some x => if failed.contains l then (l, LRes.num n 0) else (l, LRes.num n x.2)
                  | none => (l, LRes.num n 0)
                returnLanes i h d [] res (r.1.putTeam t2) t2

/-- `v.atom` (R272). -/
def execVAtom (h : Hdr) (aop : AtomOp) (ty : Ty) (d a b c : RegNo) (sp : Bool) (s : State) : Out State :=
  let i : Instr := .vAtom h aop ty d a b c sp
  withTeam i s (atomReturn i h ty d (MemForm.atom a c sp (tyBytes ty)) (atomData aop ty b) (hostOp aop)
    (fun t l => atomKind t aop ty b l 0) aop)

/-- `v.cas` (R273). -/
def execVCas (h : Hdr) (ty : Ty) (d a b c : RegNo) (sp : Bool) (s : State) : Out State :=
  let i : Instr := .vCas h ty d a b c sp
  withTeam i s (atomReturn i h ty d (MemForm.atom a c sp (tyBytes ty)) (fun t l => t.rRun b.toNat (2 * regsOf ty) l) true
    (fun t l => casKind t ty b l 0) .xchg)

/-- A no-return atomic is accepted: the copies of its block go (R271). -/
def State.acceptAtomic (s : State) (w : PWrite) : State := (if w.vault then s else s.dropForAtomic w).accept w

/-- The lane whose no-return atomic an armed injection for UNIT 6 meets (R203). -/
def atomHit (t : Team) (acc : List (Nat × Nat × Nat)) : Option Nat :=
  match t.injects 6 with
  | some l => if acc.any fun x => x.1 == l then some l else none
  | none => none


/-- The no-return atomics of the lanes that pass their checks. -/
def sendAtoms (i : Instr) (h : Hdr) (aop : AtomOp) (ty : Ty) (b : RegNo) (sp : Bool) (s : State) (t : Team) (acc : List (Nat × Nat × Nat)) :
    Res :=
  let hit := atomHit t acc
  let ws := acc.map fun x => laneWrite i t x.1 x.2.1 x.2.2 sp (atomKind t aop ty b x.1 (if hit == some x.1 then t.injCode else 0)) []
  sendWrites i s t ws fun s t ws =>
    let t := if hit.isSome then t.disarm else t
    .done ((ws.foldl State.acceptAtomic s).putTeam (t.drawAtoms aop (t.lanesFor h)))

/-- `v.atomn` (R272): it completes at acceptance; the operation is applied at its unit later (R266). -/
def execVAtomn (h : Hdr) (aop : AtomOp) (ty : Ty) (a b c : RegNo) (sp : Bool) (s : State) : Out State :=
  let i : Instr := .vAtomn h aop ty a b c sp
  withTeam i s (memWith i h (MemForm.atom a c sp (tyBytes ty)) .atomic false (atomData aop ty b) (hostAtomic (hostOp aop))
    fun _ s t _ outs => sendAtoms i h aop ty b sp (s.clearAsks t.uid) t (okAccesses outs))

/-! ### Events of the access engine -/

/-- An earlier pending write of the same team meets the one at a place: it registers first (R270). -/
def blockedWrite (s : State) (i : Nat) (w : PWrite) : Bool :=
  (s.pend.take i).any fun e => e.uid == w.uid && meets e.key e.size w.key w.size

/-- A write of the same team to the same block, of the same instruction or an earlier one. -/
def PWrite.upTo (w x : PWrite) : Bool := x.uid == w.uid && x.key / 64 == w.key / 64 && decide (x.seq ≤ w.seq)

/-- HOME_STORE_REGISTER: a store registers at its home (R284), if its turn has come; to another device it goes with those that travel with it, after the
team's earlier writes to the block. -/
def execHomeStoreRegister (i : Nat) (s : State) : Out State :=
  .next (match s.pend[i]? with
    | none => s
    | some w =>
      if !w.isStore || blockedWrite s i w then s
      else if peerHome w.key then s.drain w.upTo
      else ({ s with pend := s.pend.eraseIdx i }).register w)

/-- The request belongs to the instruction of another and touches the same word. -/
def PWrite.fellow (w x : PWrite) : Bool := !x.isStore && x.uid == w.uid && x.seq == w.seq && x.key == w.key

/-- ATOMIC_APPLY: a no-return atomic is applied at its unit, if its turn has come, and with it, in ascending lane index, every other request of
its instruction for its word (R271 to R274). -/
def execAtomicApply (i : Nat) (s : State) : Out State :=
  .next (match s.pend[i]? with
    | none => s
    | some w => if !w.isStore && !blockedWrite s i w then s.drain (if peerHome w.key then w.upTo else w.fellow) else s)

/-- REVOKE_ACK: the previous owner's copy of the word goes (R284). -/
def execRevokeAck (i : Nat) (s : State) : Out State :=
  .next (match s.revokes[i]? with
    | none => s
    | some r => ({ s with revokes := s.revokes.eraseIdx i }).ackRevoke r)

/-- The oldest long-latency instruction in flight that is answered, and the others. -/
def nextFlight : List Flight → Option (Flight × List Flight)
  | [] => none
  | f :: fs => if f.stat.isNone then some (f, fs) else (nextFlight fs).map fun r => (r.1, f :: r.2)

/-- LOAD_DATA_RETURN: the team's oldest long-latency instruction in flight that is answered completes, or raises its cause, which stops the
team precisely (R29, R143, R266). -/
def execLoadDataReturn (uid : Nat) (s : State) : Out State :=
  .next (match s.team? uid with
    | none => s
    | some t =>
      match nextFlight t.flight with
      | none => s
      | some (f, fs) =>
        match f.stop with
        | some st => if t.res = .resident then s.takeStop uid 0 st else s
        | none => s.putTeam { (t.land f) with flight := fs })

/-- LLC_MISS_TRANSLATE: an access's translation enters its controller's TLB and its last-level line (R233, R235, R238). -/
def execLlcMissTranslate (slot va : Nat) (acc : Acc) (s : State) : Out State :=
  let c := s.ctx slot
  .next (if !c.valid then s
    else match s.translate c va acc with
      | .ok _ l => s.fill c va l false
      | .ats p v => s.emitAts p v
      | _ => s)

/-- PAGE_WALK_COMPLETE: the walk's leaf enters the TLB (R235, R238). -/
def execPageWalkComplete (slot va : Nat) (s : State) : Out State :=
  let c := s.ctx slot
  .next (if !c.valid then s
    else match s.walk c va with
      | none => s
      | some l => if l.isLocal s && (s.checkLocal c va l).isSome then s else s.fillTlb c va l)

/-- ZERO_LENGTH_READ_COMPLETE: the stores to HOST pages before the read of a number are ordered before any later write of the device, and the
release that made it goes on (R295). -/
def execZeroLengthReadComplete (tag : Nat) (s : State) : Out State :=
  let mine := fun (a : RemAsk) => a.tag == tag && hostHome a.key
  let s' := { s with remAsks := s.remAsks.filter fun a => !mine a }
  .next (match s.remAsks.find? mine with
    | some a => match a.asker with
      | .team uid => s'.endFence uid
      | _ => s'
    | none => s')

end Sys2Proof.Machine
end

