-- ==== Sys2Proof/Machine/Check.lean ====
section
/-! DEFINITION. The check engine's instructions, opcodes 0x36 and 0x37 of the lane pipe (R204 to R206), and the scrubber (R200, R201). -/

namespace Sys2Proof.Machine

open Sys2Proof

/-- `ck.res` (R205): the code that A carries; A is not checked. -/
def execCkRes (h : Hdr) (d a : RegNo) (s : State) : Out State :=
  let i : Instr := .ckRes h d a
  withTeam i s (laneWith i h 0 true d (fun _ _ _ => []) fun t l => LRes.num 1 (t.rGet a.toNat l).code.toNat)

/-- `ck.vfy` (R205): whether the code of A, or of either word, is wrong. -/
def execCkVfy (h : Hdr) (ty : Ty) (p : BitVec 4) (a : RegNo) (s : State) : Out State :=
  let i : Instr := .ckVfy h ty p a
  withTeam i s (laneWith i h 0 true 0 (fun _ _ _ => []) fun t l => LRes.flag p.toNat (!goodRun (t.rRun a.toNat (regsOf ty) l)))

/-- The code that `ck.injr` gives: 7, or the residue moved on by `d` (R205). -/
def injCode (w : Word) (d : Nat) : BitVec 3 := if d = 7 then 7 else BitVec.ofNat 3 (((residue7 w).toNat + d) % 7)

/-- `ck.injr` (R205): the value of A with a chosen code; A's own code is not looked at, B's is (log entry 9). -/
def execCkInjr (h : Hdr) (d a b : RegNo) (s : State) : Out State :=
  let i : Instr := .ckInjr h d a b
  withTeam i s (laneWith i h 0 true d (fun t l ws => plainChecks (!(t.rGet b.toNat l).good) ws) fun t l =>
    let x := t.rGet a.toNat l
    LRes.val [{ x with code := injCode x.val ((t.rGet b.toNat l).val.toNat % 8) }])

/-- `ck.mcrd` (R205): word w of record n under R195. -/
def execCkMcrd (h : Hdr) (d a : RegNo) (s : State) : Out State :=
  let i : Instr := .ckMcrd h d a
  withTeam i s fun s t => laneOp i h 0 d [(a, 1)] (fun t _ vs =>
    let x := vs.headD 0
    LRes.num 2 (mcWord s t (bits x 6 3) (x % 8)).toNat) s t

/-- `ck.ecnt` (R205): a counter of R202. -/
def execCkEcnt (h : Hdr) (d a : RegNo) (s : State) : Out State :=
  let i : Instr := .ckEcnt h d a
  withTeam i s fun s t => laneOp i h 0 d [(a, 1)] (fun _ _ vs => LRes.num 1 (s.counter (vs.headD 0 % 64))) s t

/-- A last-level line holds a block of a key. -/
def State.lineOf (s : State) (key line : Nat) : Bool := (SMap.find s.lines line).any fun l => l.pa / 64 == key / 64

/-- One block's injection at its home (R206): the team's own earlier writes to it register, modified copies are written back, its cached copies go,
and its stored code is altered; a block that is uncorrectable stays so. -/
def State.injectBlock (e : CodeErr) (t : Team) (vt : Bool) (s : State) (x : Nat × Nat × Nat) : State :=
  let s := s.drainOver t.uid x.2.1 64
  let s := if vt then s else
    let s := (s.dropL1All t.asid x.2.2 64).dropLines (s.lineOf x.2.1)
    { s with remote := s.remote.filter fun r => !(decide (spaceKey t.asid x.2.2 ≤ r.1) && decide (r.1 < spaceKey t.asid x.2.2 + 64)) }
  let k := x.2.1 / 64
  { s with codeErrs := if SMap.find s.codeErrs k = some .ue then s.codeErrs else SMap.put s.codeErrs k e }

/-- `ck.injm` (R206): translated as a store of a 64-byte aligned block; lanes that name one block inject once each. A page of the host or of
another device has no HBM block here whose code could be altered (log entry 65). -/
def injm (i : Instr) (h : Hdr) (vt : Bool) (e : CodeErr) (a : RegNo) : State → Team → Res :=
  memWith i h { vt := vt, a := a, b := 0, ix := false, sc := 0, c := 0, size := 64 } .write false (fun _ _ => []) id
    fun _ s t _ outs => .done (((okAccesses outs).filter fun x => ownKey x.2.1).foldl (State.injectBlock e t vt) (s.clearAsks t.uid))

/-- `ck.injm.g.ce`. -/
def execCkInjmGCe (h : Hdr) (a : RegNo) (s : State) : Out State :=
  withTeam (.ckInjmGCe h a) s (injm (.ckInjmGCe h a) h false .ce a)

/-- `ck.injm.g.ue`. -/
def execCkInjmGUe (h : Hdr) (a : RegNo) (s : State) : Out State :=
  withTeam (.ckInjmGUe h a) s (injm (.ckInjmGUe h a) h false .ue a)

/-- `ck.injm.vt.ce`. -/
def execCkInjmVtCe (h : Hdr) (a : RegNo) (s : State) : Out State :=
  withTeam (.ckInjmVtCe h a) s (injm (.ckInjmVtCe h a) h true .ce a)

/-- `ck.injm.vt.ue`. -/
def execCkInjmVtUe (h : Hdr) (a : RegNo) (s : State) : Out State :=
  withTeam (.ckInjmVtUe h a) s (injm (.ckInjmVtUe h a) h true .ue a)

/-! ### The scrubber (R200, R201) -/

/-- The places of the scrubber are 16 blocks each: of HBM first. -/
def scrubHbm : Nat := hbmSize / 1024

/-- The places of the vaults: 5 MiB of 96 vaults. -/
def scrubVault : Nat := 96 * 5120

/-- The places of the two last-level caches of 128 MiB; the model places a line by its rank among those held (log entry 65). -/
def scrubLlc : Nat := 2 * 131072

/-- The places of the accumulator stores: four rows each of 96 stores of 8,192 rows of 256 bytes. -/
def scrubAcc : Nat := 96 * 2048

/-- The places of a pass of the scrubber. -/
def scrubAll : Nat := scrubHbm + scrubVault + scrubLlc + scrubAcc

/-- The key of a place's first block, and its address as a record gives it: the virtual address that the frame table gives an HBM frame, a
vault address otherwise. -/
def State.scrubAt (s : State) (p : Nat) : Nat × Nat :=
  if p < scrubHbm then
    let pa := p * 1024
    let e := s.frameEntry (pa / 2 ^ 19)
    (pa, if bit e 63 then bits e 49 13 * 2 ^ 19 + pa % 2 ^ 19 else 0)
  else
    let q := p - scrubHbm
    let a := q / 5120 * 2 ^ 23 + q % 5120 * 1024
    (vaultKey a, a)

/-- A cache holds a modified copy of a block of HBM: its write-back will replace the block and its code (R201). -/
def State.modified (s : State) (key : Nat) : Bool := s.lines.any fun e => e.2.dirty && e.2.pa / 64 == key / 64

/-- The scrubber's read of a block (R200, R201): what it corrects is not written back where a cache holds a modified copy. -/
def State.scrubBlock (s : State) (f : Finder) (key va : Nat) : State :=
  if SMap.find s.codeErrs (key / 64) = some .ce ∧ s.modified key then s.count 22 1 else s.readBlock f key va

/-- The read of the scrubber's place: blocks of HBM or a vault, lines of the last level, or rows of an accumulator store (R200). -/
def State.scrubPlace (s : State) (f : Finder) (p : Nat) : State :=
  if p < scrubHbm + scrubVault then
    let at_ := s.scrubAt p
    (List.range 16).foldl (fun (s : State) k => s.scrubBlock f (at_.1 + 64 * k) (at_.2 + 64 * k)) s
  else if p < scrubHbm + scrubVault + scrubLlc then
    let q := p - scrubHbm - scrubVault
    ((s.lines.drop (16 * q)).take 16).foldl (fun (s : State) e =>
      s.readCaches f none (e.1 / 2 ^ 56) e.2.pa (e.1 % 2 ^ 56 * 64)) s
  else
    let q := p - scrubHbm - scrubVault - scrubLlc
    (List.range 4).foldl (fun (s : State) k => s.meetAcc f (q / 2048) (q % 2048 * 4 + k)) s

/-- The die that finds what a place's read shows: free for HBM and the lines (log entry 5), a vault's or a store's own. -/
def scrubDie (p free : Nat) : Nat :=
  if p < scrubHbm then free % 2
  else if p < scrubHbm + scrubVault then (p - scrubHbm) / 5120 / 48
  else if p < scrubHbm + scrubVault + scrubLlc then free % 2
  else (p - scrubHbm - scrubVault - scrubLlc) / 2048 / 48

/-- A read of 16 blocks at the scrubber's place, which moves on; at the end of HBM a pass of it is counted (R200, R202). -/
def State.scrubOnce (s : State) : State :=
  let free := s.fresh
  let s1 := free.2.scrubPlace (Finder.engine (scrubDie s.scrubPos free.1.toNat * 192) 0 0) s.scrubPos
  let next := s.scrubPos + 1
  let s2 := if next = scrubHbm then s1.count 29 1 else s1
  if next = scrubAll then { s2 with scrubPos := 0, scrubPasses := s2.scrubPasses + 1 } else { s2 with scrubPos := next }

/-- A scrub tadpole has run to its end. -/
def RunUnit.scrubbed (u : RunUnit) (now : Nat) : Bool := u.kind == .scrub && decide (u.endsAt ≤ now)

/-- SCRUB_READ: every scrub tadpole that has ended checks 16 blocks and is counted; where none has, a read of the scrubber's own (R200 to R202,
R417). -/
def execScrubRead (s : State) : Out State :=
  let n := (s.gov.units.filter fun u => u.scrubbed s.time).length
  .next (if n = 0 then s.scrubOnce
    else
      let s := { s with gov := { s.gov with units := s.gov.units.filter fun u => !u.scrubbed s.time } }
      (List.range n).foldl (fun (s : State) _ => s.scrubOnce.count 28 1) s)

end Sys2Proof.Machine
end

