-- ==== Sys2Proof/Machine/Overlay.lean ====
section
/-! DEFINITION. Code overlay: the choice of a code slot, loads and their landing, `s.cfetch` (R128 to R133) and the events of the code memory. -/

namespace Sys2Proof.Machine

open Sys2Proof

/-- Words from little-endian bytes (R7). -/
def bytesWords : List Byte → List Word
  | a :: b :: c :: d :: rest => BitVec.ofNat 32 (leNat [a, b, c, d]) :: bytesWords rest
  | _ => []

/-- A slot of a core's code memory. -/
def Core.codeSlot (c : Core) (n : Nat) : CodeSlot := SMap.get CodeSlot.reset c.code n

/-- Writes a slot of a core's code memory. -/
def Core.putCode (c : Core) (n : Nat) (sl : CodeSlot) : Core := { c with code := SMap.put c.code n sl }

/-- The images that a resident team's current and handler segments name (R131). -/
def Team.codeNeeds (t : Team) : List Nat :=
  t.segAddr (t.pc.toNat / 4096) :: (if t.tvb.getLsbD 31 then [t.segAddr (bits t.tvb.toNat 15 12)] else [])

/-- The teams that are resident on a core. -/
def State.teamsOn (s : State) (k : Nat) : List Team := s.teams.filter fun t => t.cores.contains k && t.res != .evicted

/-- A slot is pinned (R131). -/
def State.codePinned (s : State) (k : Nat) (sl : CodeSlot) : Bool :=
  sl.st == .loading || sl.pinned || (s.teamsOn k).any fun t => t.asid == sl.asid && t.codeNeeds.contains sl.addr

/-- The slot that a load takes (R131): a FREE or BAD one, else the unpinned one that landed longest ago. -/
def State.chooseCode (s : State) (k : Nat) : Option Nat :=
  let c := s.core k
  match (List.range 16).find? fun n => (c.codeSlot n).st == .free || (c.codeSlot n).st == .bad with
  | some n => some n
  | none =>
    ((List.range 16).filter fun n => !s.codePinned k (c.codeSlot n)).foldl (fun (m : Option Nat) n =>
      match m with
      | none => some n
      | some b => if (c.codeSlot n).landedAt < (c.codeSlot b).landedAt then some n else m) none

/-- Starts a load into a slot. -/
def State.startLoad (s : State) (k n asid addr : Nat) (ws : List CodeWaiter) : State :=
  s.putCore k ((s.core k).putCode n
    { asid := asid, addr := addr, st := .loading, landedAt := s.ccOf (clusterOf k), pinned := false, words := [], waiters := ws })

/-- Changes the waiters of every load, or takes them away. -/
def State.mapWaiters (s : State) (f : CodeWaiter → Option CodeWaiter) : State :=
  { s with
    cores := s.cores.map fun kc => (kc.1, { kc.2 with code := kc.2.code.map fun e => (e.1, { e.2 with waiters := e.2.waiters.filterMap f }) })
    loads := s.loads.filterMap fun l => (f l.waiter).map fun w => { l with waiter := w } }

/-- A load still has to serve a waiter. -/
def State.codeWaits (s : State) (w : CodeWaiter) : Bool :=
  (s.cores.any fun kc => kc.2.code.any fun e => e.2.st == .loading && e.2.waiters.contains w) || s.loads.any fun l => l.waiter == w

/-- A load of a waiter has landed: when no other load serves it any more, its handle reads DONE, its segment is not FAULTED, and no earlier
`s.cfetch` can make it so (R130, R133). -/
def State.landed (s : State) (w : CodeWaiter) : State :=
  if s.codeWaits w ∨ w.who.slot ≥ 64 then s
  else
    let s := s.modTeam w.who.uid fun t => { t with segFaulted := t.segFaulted.set w.seg false }
    let s := s.mapWaiters fun x =>
      some (if x.who.uid = w.who.uid ∧ x.seg = w.seg ∧ x.who.slot < 64 ∧ x.no < w.no then { x with seg := 16 } else x)
    s.finish w.who .done none

/-- A waiter's load has failed (R133): its other loads answer to it no more, its segment is FAULTED, and no earlier `s.cfetch` that lands
still clears it (R130). The dispatch engine's own
loads have no handle: the team then stops as it starts or fetches. -/
def State.loadFailed (s : State) (w : CodeWaiter) : State :=
  if w.who.slot ≥ 64 then s
  else
    let s := s.mapWaiters fun x =>
      if x = w then none
      else some (if x.who.uid = w.who.uid ∧ x.seg = w.seg ∧ x.who.slot < 64 ∧ x.no < w.no then { x with seg := 16 } else x)
    (s.modTeam w.who.uid fun t => { t with segFaulted := t.segFaulted.set w.seg true }).finish w.who .faulted (some .fetch)

/-- Asks for an image on a core: it is there, it is loading and the waiter joins, or a load starts or waits for a slot (R131, R133). -/
def State.requestCode (s : State) (k asid addr : Nat) (reload : Bool) (w : CodeWaiter) : State :=
  let c := s.core k
  match c.slotFor asid addr with
  | some (n, sl) =>
    if reload then s.startLoad k n asid addr (sl.waiters ++ [w])
    else if sl.st = .landed then s
    else s.putCore k (c.putCode n { sl with waiters := sl.waiters ++ [w] })
  | none =>
    match s.chooseCode k with
    | some n => s.startLoad k n asid addr [w]
    | none => { s with loads := s.loads ++ [({ core := k, asid := asid, addr := addr, waiter := w } : CodeLoad)] }

/-- The loads of a core that wait for a slot are tried again, in their order. -/
def State.serveLoads (s : State) (k : Nat) : State :=
  let mine := s.loads.filter fun l => l.core == k
  let s0 := { s with loads := s.loads.filter fun l => l.core != k }
  mine.foldl (fun (s : State) l => (s.requestCode k l.asid l.addr false l.waiter).landed l.waiter) s0

/-- The handle that the dispatch engine's loads answer to: none of the team's. -/
def dispatchLoad (uid seg : Nat) : CodeWaiter := { who := { uid := uid, slot := 64, gid := 0 }, seg := seg, no := 0 }

/-- `s.cfetch` and `s.cfetch.reload` (R133). -/
def cfetch (reload : Bool) (d : RegNo) (n : Nat) (s : State) (t : Team) (gs : List Nat) (lead a : Nat) : Res :=
  if a % 2 ^ 14 ≠ 0 then .stop (t.leadStop lead .align) s
  else withHandle s t d gs 6 fun s who _ =>
    let w : CodeWaiter := { who := who, seg := n, no := s.nextId }
    let s := s.newId.2
    let addr := if a = 0 then ((t.segBind[n]?).getD 0).toNat else a
    if addr = 0 then .done (s.loadFailed w)
    else
      let s := s.modTeam t.uid fun t => { t with segs := t.segs.set n (BitVec.ofNat 64 addr) }
      let s := t.cores.foldl (fun (s : State) k => s.requestCode k t.asid addr reload w) s
      .done (s.landed w)

/-- `s.cfetch`. -/
def execSCfetch (h : Hdr) (d a : RegNo) (n : BitVec 4) (s : State) : Out State :=
  let i : Instr := .sCfetch h d a n
  withTeam i s (teamOp i h d 1 [(a, 2)] fun s t gs lead vs => cfetch false d n.toNat s t gs lead (vs.headD 0))

/-- `s.cfetch.reload`. -/
def execSCfetchReload (h : Hdr) (d a : RegNo) (n : BitVec 4) (s : State) : Out State :=
  let i : Instr := .sCfetchReload h d a n
  withTeam i s (teamOp i h d 1 [(a, 2)] fun s t gs lead vs => cfetch true d n.toNat s t gs lead (vs.headD 0))


/-- New code is stored in a slot: its words carry new codes (R196). -/
def State.clearCodeErrs (s : State) (k n : Nat) : State :=
  { s with codeErrs := s.codeErrs.filter fun e => !(decide (codeErrKey k n 0 ≤ e.1) && decide (e.1 < codeErrKey k n 4096)) }

/-- A fetch of a word from a code slot meets its stored code (R196, R202): an error that is corrected is counted; an uncorrectable one is
counted and turns the slot BAD (R136). -/
def State.meetCodeWord (s : State) (k n word : Nat) : State :=
  match SMap.find s.codeErrs (codeErrKey k n word) with
  | none => s
  | some .ce => ({ s with codeErrs := SMap.del s.codeErrs (codeErrKey k n word) }).count 26 1
  | some .ue =>
    ((s.clearCodeErrs k n).putCore k ((s.core k).putCode n { (s.core k).codeSlot n with st := .bad, waiters := [] })).count 27 1

/-- A read of code comes back: the slot is LANDED and pinned, or BAD. -/
def State.landCode (s : State) (k n : Nat) (sl : CodeSlot) : State :=
  let bad := fun (s : State) =>
    sl.waiters.foldl State.loadFailed (s.putCore k ((s.core k).putCode n { sl with st := .bad, waiters := [] }))
  match s.ctxOfAsid sl.asid with
  | none => bad s
  | some slot =>
    match s.vaRange (s.ctx slot) .fetch sl.addr 16384 with
    | .fault _ => bad s
    | .wait n => s.emitNeeds n
    | .ok parts =>
      let r := (s.useRange (s.ctx slot) sl.addr 16384).engineParts (Finder.engine k sl.asid 0) sl.addr parts
      if r.2 then bad r.1
      else
        let ws := bytesWords (r.1.partsBytes parts)
        let s := (r.1.clearCodeErrs k n).putCore k ((r.1.core k).putCode n
          { sl with st := .landed, landedAt := r.1.ccOf (clusterOf k), pinned := true, words := ws, waiters := [] })
        sl.waiters.foldl State.landed s

/-- CFETCH_LAND: a read of 16 KiB of code into a slot ends (R133); loads that wait for a slot are tried again (R131). -/
def execCfetchLand (core slot : Nat) (s : State) : Out State :=
  let sl := (s.core core).codeSlot slot
  .next ((if sl.st = .loading then s.landCode core slot sl else s).serveLoads core)

/-- CODE_SLOT_PIN_EXPIRY: 1,024 core cycles after landing, the landing no longer pins the slot (R131). -/
def execCodeSlotPinExpiry (core slot : Nat) (s : State) : Out State :=
  let c := s.core core
  let sl := c.codeSlot slot
  .next (if sl.pinned ∧ s.ccOf (clusterOf core) ≥ sl.landedAt + 1024 then (s.putCore core (c.putCode slot { sl with pinned := false })).serveLoads core else s)

end Sys2Proof.Machine
end

