-- ==== Sys2Proof/Machine/Sync.lean ====
section
/-! DEFINITION. Named barriers (R114 to R118), sleep and wait (R119 to R121), fences (R287 to R291), and the events that complete what holds a
team. -/

namespace Sys2Proof.Machine

open Sys2Proof

/-- The instruction that holds a team completes: the hold ends and the next word follows. -/
def State.completeHeld (s : State) (uid : Nat) : State :=
  match s.team? uid with
  | none => s
  | some t => (s.putTeam { t with hold := .free, copyLateHeld := false }).advance uid t.heldLen

/-- Holds a team at its instruction. -/
def State.holdTeam (s : State) (uid len : Nat) (h : Hold) : State := s.modTeam uid fun t => { t with hold := h, heldLen := len }

/-! ### Barriers -/

/-- The slot of a grid's barrier: the core that holds it and its index there (R114). -/
def Grid.barSlot (g : Grid) (b : Nat) : Option (Nat × Nat) := g.barCore.map fun c => (c, g.barBase + b)

/-- A count of arrivals is in range (R115). -/
def countOk (n : Nat) : Bool := decide (1 ≤ n) && decide (n ≤ 6144)

/-- The core cycles between a team's core and a barrier's core (R118). -/
def barDelay (team bar : Nat) : Nat :=
  if team = bar then 2 else if clusterOf team = clusterOf bar then 6 else if dieOf team = dieOf bar then 20 else 48

/-- An arrival leaves for its slot, after the release of the team's earlier stores (R116). -/
def barArrive (len : Nat) (b n : Nat) (sync : Bool) (d : RegNo) (s : State) (t : Team) (gs : List Nat) : Res :=
  match s.grid? t.gid with
  | none => .stop (Stop.of .barrier) s
  | some g =>
    match g.barSlot b with
    | none => .stop (Stop.of .barrier) s
    | some (core, idx) =>
      if b ≥ g.nbar ∨ !countOk n then .stop (Stop.of .barrier) s
      else
        s.releaseThen t .hold fun s =>
          let a : Arrival := {
            uid := t.uid, src := t.home, at_ := s.cc + s.ticks (clusterOf t.home) (barDelay t.home core), core := core, idx := idx, count := n,
            sync := sync, d := d, groups := gs }
          .hold (({ s with arrivals := s.arrivals ++ [a] } : State).holdTeam t.uid len .barIn)

/-- `s.bar.sync` (R116). -/
def execSBarSync (h : Hdr) (d : RegNo) (bar : BitVec 11) (s : State) : Out State :=
  let i : Instr := .sBarSync h d bar
  withTeam i s (teamOp i h 192 0 [(d, 1)] fun s t gs _ vs => barArrive i.length bar.toNat (vs.headD 0) true 192 s t gs)

/-- `s.bar.arr` (R116): the token is written when it returns. -/
def execSBarArr (h : Hdr) (d : RegNo) (bar : BitVec 11) (c : RegNo) (s : State) : Out State :=
  let i : Instr := .sBarArr h d bar c
  withTeam i s (teamOp i h d 1 [(c, 1)] fun s t gs _ vs => barArrive i.length bar.toNat (vs.headD 0) false d s t gs)

/-- A core's barrier slot. -/
def Core.bar (c : Core) (idx gid : Nat) : BarSlot := SMap.get { gid := gid, exp := 0, cnt := 0, gen := 0 } c.bars idx

/-- The generation of a barrier slot. -/
def State.barGen (s : State) (core idx gid : Nat) : BitVec 16 := ((s.core core).bar idx gid).gen

/-- `s.bar.wait` (R116): it compares the generation of the slot as it issues, without a delay to the slot's core (DESIGN CHOICE, log entry 71). -/
def barWait (len : Nat) (b : Nat) (token : BitVec 16) (s : State) (t : Team) : Res :=
  match s.grid? t.gid with
  | none => .stop (Stop.of .barrier) s
  | some g =>
    match g.barSlot b with
    | none => .stop (Stop.of .barrier) s
    | some (core, idx) =>
      if b ≥ g.nbar then .stop (Stop.of .barrier) s
      else if s.barGen core idx t.gid = token then .hold (s.holdTeam t.uid len (.barWait idx token))
      else .done (s.acquireFor t)

/-- `s.bar.wait`. -/
def execSBarWait (h : Hdr) (d : RegNo) (bar : BitVec 11) (s : State) : Out State :=
  let i : Instr := .sBarWait h d bar
  withTeam i s (teamOp i h 192 0 [(d, 1)] fun s t _ _ vs => barWait i.length bar.toNat (BitVec.ofNat 16 (vs.headD 0)) s t)

/-- An arrival is counted at a slot (R116): the slot after it, or none where the count differs from EXP. -/
def BarSlot.arrive (b : BarSlot) (count : Nat) : Option BarSlot :=
  if b.cnt ≠ 0 ∧ b.exp ≠ count then none
  else if b.cnt + 1 = count then some { b with exp := count, cnt := 0, gen := b.gen + 1 }
  else some { b with exp := count, cnt := b.cnt + 1 }

/-- A phase of a slot has completed: its release is on its way to every team that waits for it (R118). -/
def State.releasePhase (s : State) (core idx gid : Nat) (token : BitVec 16) : State :=
  { s with teams := s.teams.map fun (t : Team) =>
      if t.gid = gid ∧ t.hold = .barWait idx token then { t with dueAt := s.cc + s.ticks (clusterOf t.home) (barDelay t.home core) } else t }

/-- BARRIER_ARRIVAL: an arrival reaches its slot and takes its token, or stops its team with BARRIER (R116). The token is back at the team
after the delay of R118 again. -/
def execBarrierArrival (n : Nat) (s : State) : Out State :=
  .next (match s.arrivals[n]? with
    | none => s
    | some a =>
      let s := { s with arrivals := s.arrivals.eraseIdx n }
      let gid := match s.team? a.uid with | some t => t.gid | none => 0
      let c := s.core a.core
      let b := c.bar a.idx gid
      match b.arrive a.count with
      | none => s.modTeam a.uid fun t => { (t.askStop .barrier) with hold := .free }
      | some b' =>
        let s := (s.putCore a.core { c with bars := SMap.put c.bars a.idx b' }).modTeam a.uid fun t =>
          { t with hold := if a.sync then .barWait a.idx b.gen else .barTok b.gen a.d a.groups, dueAt := s.cc + s.ticks (clusterOf a.src) (barDelay a.src a.core) }
        if b'.gen = b.gen then s else s.releasePhase a.core a.idx gid b.gen)

/-- BARRIER_TOKEN_RETURN: `s.bar.arr` writes its token and completes (R116). -/
def execBarrierTokenReturn (uid : Nat) (s : State) : Out State :=
  .next (match s.team? uid with
    | none => s
    | some t =>
      match t.hold with
      | .barTok token d gs => (s.putTeam (t.sAll d.toNat gs [RWord.ofNat token.toNat])).completeHeld uid
      | _ => s)

/-- BARRIER_RELEASE: the phase that a resident team waits for has completed; the team acquires and goes on (R116, R117). -/
def execBarrierRelease (uid : Nat) (s : State) : Out State :=
  .next (match s.team? uid with
    | none => s
    | some t =>
      match t.hold with
      | .barWait idx token =>
        match (s.grid? t.gid).bind fun g => g.barCore with
        | none => s
        | some core =>
          if t.res = .resident ∧ s.barGen core idx t.gid ≠ token then (s.acquireFor t).completeHeld uid else s
      | _ => s)

/-! ### Sleep -/

/-- `s.sleepu` (R119). -/
def execSSleepu (h : Hdr) (a : RegNo) (s : State) : Out State :=
  let i : Instr := .sSleepu h a
  withTeam i s (teamOp i h 192 0 [(a, 2)] fun s t _ _ vs =>
    if s.time ≥ vs.headD 0 then .done s else .hold (s.holdTeam t.uid i.length (.sleep (vs.headD 0))))

/-- SLEEP_WAKE: `CYC` has reached a resident team's wake value (R119, R121). -/
def execSleepWake (uid : Nat) (s : State) : Out State :=
  .next (match s.team? uid with
    | none => s
    | some t =>
      match t.hold with
      | .sleep u => if t.res = .resident ∧ s.time ≥ u then s.completeHeld uid else s
      | _ => s)

/-! ### Handles -/

/-- A pending slot is that of a copy whose promised time is past (R120). -/
def HSlot.late (sl : HSlot) (now : Nat) : Bool :=
  sl.status == .pending && match sl.promise with
    | some p => decide (now > p)
    | none => false

/-- The slots that a held team waits for. -/
def Team.waitSlots (t : Team) : List HSlot :=
  match t.hold with
  | .wait h _ _ => if t.hStatus h = .pending then [t.slotOf (bits h.toNat 5 0)] else []
  | .waitAll => t.handles.map Prod.snd
  | _ => []

/-- A handle answers a wait: DONE acquires (R291), and the status is written in the groups. -/
def State.answerWait (s : State) (t : Team) (st : HStatus) (d : RegNo) (gs : List Nat) : State :=
  let s := if st = .done then s.acquireFor t else s
  s.answer t.uid d 1 gs st.code

/-- A late copy found while an instruction issues or waits (R120, R147): COPY_LATE, or in handler mode its bit once. -/
def State.lateHeld (s : State) (uid : Nat) : State :=
  s.modTeam uid fun t => if t.copyLateHeld then t else { (t.holdCause .copyLate) with copyLateHeld := true }

/-- Holds a team on handles, after the check for a late copy. -/
def waitOn (len : Nat) (h : Hold) (slots : List HSlot) (s : State) (t : Team) : Res :=
  if slots.any fun sl => sl.late s.time then
    if t.handler then .hold ((s.lateHeld t.uid).holdTeam t.uid len h) else .stop (Stop.of .copyLate) s
  else .hold (s.holdTeam t.uid len h)

/-- `s.wait` (R119, R120). -/
def execSWait (h : Hdr) (d a : RegNo) (s : State) : Out State :=
  let i : Instr := .sWait h d a
  withTeam i s (teamOp i h d 1 [(a, 1)] fun s t gs _ vs =>
    let hd : BitVec 16 := BitVec.ofNat 16 (vs.headD 0)
    let st := t.hStatus hd
    if st = .pending then waitOn i.length (.wait hd d gs) [t.slotOf (bits hd.toNat 5 0)] s t
    else .done (s.answerWait t st d gs))

/-- `s.poll` (R119). -/
def execSPoll (h : Hdr) (d a : RegNo) (s : State) : Out State :=
  let i : Instr := .sPoll h d a
  withTeam i s (teamOp i h d 1 [(a, 1)] fun s t gs _ vs => .done (s.answerWait t (t.hStatus (BitVec.ofNat 16 (vs.headD 0))) d gs))

/-- A slot of the handle table is PENDING. -/
def Team.anyPending (t : Team) : Bool := t.handles.any fun e => e.2.status == .pending

/-- `s.waitall` (R119). -/
def execSWaitall (h : Hdr) (s : State) : Out State :=
  let i : Instr := .sWaitall h
  withTeam i s (teamOp i h 192 0 [] fun s t _ _ _ =>
    if t.anyPending then waitOn i.length .waitAll (t.handles.map Prod.snd) s t else .done (s.acquireFor t))

/-- HANDLE_COMPLETE_WAKE: what a resident team waits for has completed (R119, R121). -/
def execHandleCompleteWake (uid : Nat) (s : State) : Out State :=
  .next (match s.team? uid with
    | none => s
    | some t =>
      if t.res ≠ .resident then s
      else
        match t.hold with
        | .wait h d gs => if t.hStatus h = .pending then s else (s.answerWait t (t.hStatus h) d gs).completeHeld uid
        | .waitAll => if t.anyPending then s else (s.acquireFor t).completeHeld uid
        | _ => s)

/-- COPY_LATE_CHECK: at a reference cycle, a waiting team's copy is past its promise (R120, R147). -/
def execCopyLateCheck (uid : Nat) (s : State) : Out State :=
  .next (match s.team? uid with
    | none => s
    | some t =>
      if t.res = .resident ∧ t.waitSlots.any fun sl => sl.late s.time then
        (if t.handler then s.lateHeld uid else s.takeStop uid t.heldLen (Stop.of .copyLate))
      else s)

/-- PRECISE_STOP: a stop that an engine or a slot asked of a held team is taken at its instruction (R116, R143, R302). -/
def execPreciseStop (uid : Nat) (s : State) : Out State :=
  .next (match s.team? uid with
    | none => s
    | some t =>
      match t.stopReq with
      | some st => if t.res = .resident then s.takeStop uid t.heldLen st else s
      | none => s)

/-! ### Fences (R287, R288) -/

/-- `s.fence acq`. -/
def execSFenceAcq (h : Hdr) (s : State) : Out State :=
  withTeam (.sFenceAcq h) s (teamOp (.sFenceAcq h) h 192 0 [] fun s t _ _ _ => .done (s.acquireFor t))

/-- `s.fence rel`: it completes, and what its order names waits for the release. -/
def execSFenceRel (h : Hdr) (s : State) : Out State :=
  withTeam (.sFenceRel h) s (teamOp (.sFenceRel h) h 192 0 [] fun s t _ _ _ => .done (s.fenceWith t .rel id))

/-- `s.fence acqrel`. -/
def execSFenceAcqrel (h : Hdr) (s : State) : Out State :=
  withTeam (.sFenceAcqrel h) s (teamOp (.sFenceAcqrel h) h 192 0 [] fun s t _ _ _ => .done ((s.acquireFor t).fenceWith t .rel id))

/-- `s.fence sc`: the release, then the acquire, which waits for it. -/
def execSFenceSc (h : Hdr) (s : State) : Out State :=
  withTeam (.sFenceSc h) s (teamOp (.sFenceSc h) h 192 0 [] fun s t _ _ _ => .done (s.fenceWith t .sc fun s => s.acquireFor t))

end Sys2Proof.Machine
end

