-- ==== Sys2Proof/Machine/Launch.lean ====
section
/-! DEFINITION. The dispatch engine's queues and packets, the start of grids and teams, traversal and placement (R208 to R219), the tape and
the loss scale (R220 to R226). -/

namespace Sys2Proof.Machine

open Sys2Proof

/-! ### Packets (R212, R213) -/

/-- The number that 64-bit words hold, the first lowest. -/
def dwordsNat : List DWord → Nat
  | [] => 0
  | w :: ws => w.toNat + 2 ^ 64 * dwordsNat ws

/-- A number as `n` 64-bit words. -/
def natDwords : Nat → Nat → List DWord
  | 0, _ => []
  | n + 1, x => BitVec.ofNat 64 x :: natDwords n (x / 2 ^ 64)

/-- A field of `size` bytes at an offset of a packet or header. -/
def field (p off size : Nat) : Nat := p / 2 ^ (8 * off) % 2 ^ (8 * size)

/-- The packet's KIND. -/
def packetKind (p : Nat) : Nat := field p 0 1
/-- The FLAGS. -/
def packetFlags (p : Nat) : Nat := field p 2 2

/-- NV as it is allocated (R23). -/
def nvRound (n : Nat) : Nat := (n + 3) / 4 * 4

/-- The lanes that a team of T lanes has on each core (R16). -/
def lanesPerCore (t : Nat) : Nat := if t > 512 then t / 2 else t

/-- The words of the register file that a team takes on each core (R23). -/
def wordsPerCore (t g nv : Nat) : Nat := lanesPerCore t * nvRound nv + lanesPerCore t / g * 64

/-- The teams of a shape that an idle core or pair holds (R23). -/
def idleTeams (t g nv : Nat) : Nat := min 16 (min (4096 / lanesPerCore t) (131072 / wordsPerCore t g nv))

/-- The teams of a shape that an idle cluster holds. -/
def idleCluster (t g nv : Nat) : Nat := idleTeams t g nv * (if t > 512 then 2 else 4)

/-- R13 and R14 hold of a shape. -/
def shapeOk (t g : Nat) : Bool :=
  (g == 16 || g == 32 || g == 64) && decide (32 ≤ t) && decide (t ≤ 1024) && t % 32 == 0 && t % g == 0 &&
    (decide (t ≤ 512) || (t % 64 == 0 && t % (2 * g) == 0))

/-- What the engine reads of an image: the header's and the template's numbers, the template zero where the header says that there is
none. -/
structure ImageRead where
  hdr : Nat
  tpl : Nat
  ok : Bool := true
  deriving DecidableEq, Repr

/-- The image header's MAGIC and VERSION (R92). -/
def headerOk (h : Nat) : Bool := field h 0 4 == 0x09604B5A && field h 4 2 == 1

/-- A field of a packet after R213's completion from the template. -/
def fill (p : Nat) (im : Option ImageRead) (off size : Nat) : Nat :=
  let v := field p off size
  if v ≠ 0 ∨ (packetFlags p).testBit 0 = false then v
  else match im with
    | some r => field r.tpl off size
    | none => 0

/-- T, G, NV and NBAR, which the header completes last. -/
def fillHdr (p : Nat) (im : Option ImageRead) (off size hoff hsize : Nat) : Nat :=
  let v := fill p im off size
  if v ≠ 0 then v
  else match im with
    | some r => field r.hdr hoff hsize
    | none => 0

/-- The ones of a number's low `n` bits. -/
def onesOf (n x : Nat) : Nat := ((List.range n).filter fun i => x.testBit i).length

/-- `n` teams in packs of `pack`, the last one perhaps shorter, fit `cls` idle clusters of `room` teams each. -/
def idleFits (n pack room cls : Nat) : Bool :=
  decide (ceilDiv n pack ≤ room / pack * cls) || (decide (n / pack = room / pack * cls) && decide (n % pack ≤ room % pack))

/-- The reason for which a packet is rejected, the first in the order of R213's table; 0 where it passes. -/
def packetReason (p : Nat) (im : Option ImageRead) (privOk : Bool) : Nat :=
  let kind := packetKind p
  let doneval := field p 56 8
  if kind > 2 then 1
  else if kind ≠ 0 then
    if field p 1 1 ≠ 0 ∨ field p 2 2 ≠ 0 ∨ field p 6 42 ≠ 0 ∨ field p 64 64 ≠ 0 then 1
    else if doneval.testBit 63 then 12
    else if field p 4 2 > 4095 then 13
    else 0
  else
    let t := fillHdr p im 4 2 8 2
    let g := fillHdr p im 6 1 10 1
    let nv := fillHdr p im 7 1 11 1
    let nbar := fillHdr p im 34 2 12 2
    let gx := field p 16 4
    let gy := field p 20 4
    let gz := field p 24 2
    let trav := fill p im 26 1
    let tcwi := fill p im 28 4
    let fmti := fill p im 32 2
    let cmask := fill p im 64 12
    let pack := max 1 (fill p im 1 1)
    let flags := packetFlags p
    if flags ≥ 32 ∨ field p 84 4 ≠ 0 ∨ trav ≥ 4 ∨ mergeBits 0xE007 tcwi 0 ≠ 0 then 1
    else if !shapeOk t g then 2
    else if !(im.any fun r => r.ok) then 3
    else if nv = 0 ∨ nv > 192 ∨ nbar > 2048 ∨ (im.elim 0 fun r => field r.hdr 20 4) > 5242880 then 4
    else if gx = 0 ∨ gy = 0 ∨ gz = 0 ∨ gx * gy * gz > 2 ^ 32 then 5
    else if fill p im 27 1 > 64 then 6
    else if tcwi % 8 ≥ 6 then 7
    else if fmti ≠ 0 ∧ !fmtOk fmti then 8
    else if flags.testBit 2 ∧ !idleFits (gx * gy * gz) pack (idleCluster t g nv) (if cmask = 0 then 96 else onesOf 96 cmask) then 9
    else if pack > 16 ∨ idleCluster t g nv < pack then 10
    else if flags.testBit 1 ∧ !privOk then 11
    else if doneval.testBit 63 then 12
    else 0

/-- Reads an image's header and template (R92, R213): none where it is not aligned or not readable; one that is no header completes a packet's fields
all the same, and is told apart by `ok`. -/
def State.readImage (s : State) (c : Ctx) (p : Nat) : Option ImageRead :=
  let va := field p 8 8
  if va % 16384 ≠ 0 then none
  else
    match s.vaRead c va 64 with
    | none => none
    | some b =>
      let h := leNat b
      if (packetFlags p).testBit 0 ∧ (field h 6 2).testBit 0 then
        match s.vaRead c (va + 64) 128 with
        | none => none
        | some t => some { hdr := h, tpl := leNat t, ok := headerOk h }
      else some { hdr := h, tpl := 0, ok := headerOk h }

/-! ### Traversal (R216) -/

/-- A rectangle swept row-major in bands of W rows. -/
def bandOrder (gx gy w : Nat) : List (Nat × Nat) :=
  (List.range (ceilDiv gy w)).flatMap fun b =>
    (List.range gx).flatMap fun x => (List.range (min w (gy - b * w))).map fun i => (x, b * w + i)

/-- The bits of a number at every second place. -/
def evenBits (k d : Nat) : Nat := ((List.range k).map fun i => d / 4 ^ i % 2 * 2 ^ i).sum

/-- The point `d` of the Hilbert curve of order `k` (R216). -/
def hilbert (k d : Nat) : Nat × Nat :=
  let r := (List.range k).foldl (fun (p : Nat × Nat × Nat) i =>
    let s := 2 ^ i
    let t := p.2.2
    let rx := t / 2 % 2
    let ry := (t ^^^ rx) % 2
    let q := if ry = 0 then
        (let b := if rx = 1 then (s - 1 - p.1, s - 1 - p.2.1) else (p.1, p.2.1)
         (b.2, b.1))
      else (p.1, p.2.1)
    (q.1 + s * rx, q.2 + s * ry, t / 4)) (0, 0, d)
  (r.1, r.2.1)

/-- A layer's points along a curve, block by block. -/
def curveOrder (hil : Bool) (gx gy w : Nat) : List (Nat × Nat) :=
  let bx := ceilDiv gx w
  let by_ := ceilDiv gy w
  let k := ((List.range 34).find? fun k => decide (2 ^ k ≥ max bx by_)).getD 34
  (List.range (4 ^ k)).flatMap fun d =>
    let p := if hil then hilbert k d else (evenBits k d, evenBits k (d / 2))
    if p.1 ≥ bx ∨ p.2 ≥ by_ then []
    else (List.range w).flatMap fun j => (List.range w).filterMap fun i =>
      if p.1 * w + i < gx ∧ p.2 * w + j < gy then some (p.1 * w + i, p.2 * w + j) else none

/-- A layer's points in start order. -/
def layerOrder (trav gx gy w : Nat) : List (Nat × Nat) :=
  match trav with
  | 0 => bandOrder gx gy w
  | 1 => (bandOrder gy gx w).map fun p => (p.2, p.1)
  | 2 => curveOrder false gx gy w
  | _ => curveOrder true gx gy w

/-- The linear indexes of a grid's teams in start order. -/
def gridOrder (gx gy gz trav swz : Nat) : List Nat :=
  let layer := layerOrder trav gx gy (max 1 swz)
  (List.range gz).flatMap fun z => layer.map fun p => p.1 + gx * (p.2 + gy * z)

/-- The grid that an accepted GRID packet describes (R212 to R214); its number and sequence are given when it starts. -/
def packetGrid (slot q pos pri p : Nat) (r : ImageRead) : Grid :=
  let im := some r
  let image := field p 8 8
  let sec := fun (off : Nat) => if field r.hdr off 4 = 0 then 0 else image + field r.hdr off 4
  let gx := field p 16 4
  let gy := field p 20 4
  let gz := field p 24 2
  let fmti := fill p im 32 2
  let trav := fill p im 26 1
  let swz := fill p im 27 1
  { gid := 0, ctx := slot, q := q, pos := pos, pri := pri, seq := 0, fromTape := false, pack := max 1 (fill p im 1 1),
    flags := BitVec.ofNat 16 (packetFlags p), lanes := fillHdr p im 4 2 8 2, group := fillHdr p im 6 1 10 1,
    nv := nvRound (fillHdr p im 7 1 11 1), image := image, gx := gx, gy := gy, gz := gz, trav := trav, swz := swz,
    tcwi := BitVec.ofNat 32 (fill p im 28 4), fmti := if fmti = 0 then 0xA990 else BitVec.ofNat 16 fmti,
    nbar := fillHdr p im 34 2 12 2, tvbi := BitVec.ofNat 32 (fill p im 36 4), seed0 := BitVec.ofNat 64 (fill p im 40 8),
    doneAddr := BitVec.ofNat 64 (field p 48 8), doneVal := BitVec.ofNat 64 (field p 56 8),
    cmask := BitVec.ofNat 96 (fill p im 64 12), args := (List.range 10).map fun k => BitVec.ofNat 32 (field p (88 + 4 * k) 4),
    segMask := BitVec.ofNat 16 (field r.hdr 14 2), entryPc := BitVec.ofNat 16 (field r.hdr 16 2), vbytes := field r.hdr 20 4,
    constVa := BitVec.ofNat 64 (sec 24), dataVa := BitVec.ofNat 64 (sec 32), stepsVa := BitVec.ofNat 64 (sec 40),
    order := gridOrder gx gy gz trav swz, next := 0, cursor := 0, regions := [], barCore := none, barBase := 0, relTag := none }

/-! ### Records and completion words (R213, R215, R231) -/

/-- Files the record of a packet (R231): its kind, detail, queue and position. -/
def State.logPacket (s : State) (slot kind detail q pos : Nat) : State :=
  s.fileLog slot (flogWord kind detail q (s.ctx slot).asid false 0) 0 (pos * 2 ^ 32)

/-- Stores a completion word (R215). -/
def State.doneWord (s : State) (slot q pos addr val : Nat) : State :=
  if addr = 0 then s
  else
    match s.vaRange (s.ctx slot) .write addr 8 with
    | .ok ps => s.engineStore (s.ctx slot) addr ps (natLe 8 val)
    | .fault _ => s.logPacket slot 5 0 q pos
    | .wait ns =>
      { s.emitNeeds ns with recWaits := s.recWaits ++ [({ slot := slot, at_ := addr, what := .done q pos (BitVec.ofNat 64 val) } : RecWait)] }

/-- A packet or record is rejected (R213). -/
def State.reject (s : State) (slot q pos reason p : Nat) : State :=
  (s.logPacket slot 3 reason q pos).doneWord slot q pos (field p 48 8) (2 ^ 63 + reason)

/-- Goes on unless the host or another device has to answer first (R242, R252); then the request is sent. -/
def State.unlessAts (s : State) (c : Ctx) (acc : Acc) (va n : Nat) (k : State → State) : State :=
  match s.vaRange c acc va n with
  | .wait n => s.emitNeeds n
  | _ => k s

/-- The engine reads a context's memory, whose codes it meets (R199): `k` gets the bytes, or none where the read fails. Nothing goes on in a
context that the read has ended. -/
def State.dispatchRead (s : State) (slot va n : Nat) (k : State → Option (List Byte) → State) : State :=
  s.unlessAts (s.ctx slot) .read va n fun s =>
    let s := s.meetRange (Finder.engine 0 (s.ctx slot).asid 0) (s.ctx slot) va n
    if (s.ctx slot).valid then k s (s.vaRead (s.ctx slot) va n) else s

/-- The header and the template of a packet's image are read, before the packet is completed (R213). -/
def State.withImage (s : State) (slot p : Nat) (k : State → State) : State :=
  if packetKind p ≠ 0 ∨ field p 8 8 % 16384 ≠ 0 then k s else s.dispatchRead slot (field p 8 8) 192 fun s _ => k s

/-- Goes on once the completion word of a packet can be written, or cannot at all (R215, R252). -/
def State.withDone (s : State) (slot addr : Nat) (k : State → State) : State :=
  s.unlessAts (s.ctx slot) .write addr (if addr = 0 then 0 else 8) k

/-! ### Queues (R209, R210) -/

/-- A word of a queue's table entry. -/
def Queue.word (q : Queue) (k : Nat) : Nat := ((q.entry[k]?).getD 0).toNat

/-- The entry keeps R209's rules and has V = 1. -/
def Queue.valid (q : Queue) : Bool :=
  let w := q.word 0
  let lsz := bits w 55 52
  w.testBit 63 && bits w 58 56 == 0 && bits w 51 0 == 0 && decide (1 ≤ lsz) && decide (lsz ≤ 12) &&
    bits (q.word 1) 63 56 == 0 && bits (q.word 1) 6 0 == 0 && bits (q.word 2) 63 56 == 0 && bits (q.word 2) 2 0 == 0 &&
    bits (q.word 3) 63 56 == 0 && bits (q.word 3) 2 0 == 0

/-- The queue is fed by `dp.launch`. -/
def Queue.dl (q : Queue) : Bool := (q.word 0).testBit 62
/-- The queue may carry the privileged flag. -/
def Queue.privOk (q : Queue) : Bool := (q.word 0).testBit 61
/-- The queue's priority. -/
def Queue.pri (q : Queue) : Nat := bits (q.word 0) 60 59
/-- The number of slots. -/
def Queue.slots (q : Queue) : Nat := 2 ^ bits (q.word 0) 55 52
/-- The address of a packet's slot. -/
def Queue.slotVa (q : Queue) (pos : Nat) : Nat := q.word 1 + 128 * (pos % q.slots)
/-- Writes a queue of a context. -/
def Ctx.putQueue (c : Ctx) (q : Nat) (x : Queue) : Ctx := { c with queues := SMap.put c.queues q x }
/-- Writes a queue. -/
def State.putQueue (s : State) (slot q : Nat) (x : Queue) : State := s.modCtx slot fun c => c.putQueue q x


/-- A queue stops with a reason (R210). -/
def State.stopQueue (s : State) (slot q reason : Nat) : State :=
  let x := (s.ctx slot).queue q
  (s.putQueue slot q { x with stopped := true }).logPacket slot 3 reason q x.head

/-- Reads the tail word of a queue that producers write, and checks it (R210). -/
def State.readTail (s : State) (slot q : Nat) : State :=
  let c := s.ctx slot
  let x := c.queue q
  if !x.valid || x.dl || x.stopped then s
  else
    s.dispatchRead slot (x.word 2) 8 fun s b =>
      let s := s.putQueue slot q { (s.ctx slot).queue q with told := false }
      match b with
      | none => s.stopQueue slot q 15
      | some b =>
        if leNat b < x.head ∨ leNat b > x.head + x.slots then s.stopQueue slot q 14
        else s.putQueue slot q { (s.ctx slot).queue q with tail := leNat b, acqTag := s.nextId }

/-- The address of a queue's table entry (R209). -/
def Ctx.entryVa (c : Ctx) (q : Nat) : Nat := bits c.qtbase.toNat 55 11 * 2 ^ 11 + 32 * q

/-- The words of a queue's table entry in memory. -/
def State.entryWords (s : State) (slot q : Nat) : Option (List DWord) :=
  (s.vaRead (s.ctx slot) ((s.ctx slot).entryVa q) 32).map fun b => natDwords 4 (leNat b)

/-- An address lies in a page that is not a DIRECT page homed on this device. -/
def State.elsewhere (s : State) (c : Ctx) (va : Nat) : Bool :=
  match s.leaf c va with
  | .ok l => l.mode != 0 || !l.isLocal s
  | .error _ => false

/-- An entry's first word with V = 0. -/
def noV (e : List DWord) : List DWord := e.mapIdx fun i w => if i = 0 then w &&& 0x7FFF_FFFF_FFFF_FFFF else w

/-- Reads a queue's table entry (R209): one whose tail or head word lies in another kind of page has V = 0. -/
def State.readEntry (s : State) (slot q : Nat) : Option (List DWord) :=
  (s.entryWords slot q).map fun e =>
    if [2, 3].any fun k => s.elsewhere (s.ctx slot) ((e[k]?).getD 0).toNat then noV e else e

/-- QUEUE_TABLE_ENTRY_WRITE: system software has written an entry; the engine reads it, and reads a stopped queue again (R209, R210). A queue
that the engine meets first takes its head from the head word. An entry that another device or the host has still to give is read once it is there. -/
def execQueueTableEntryWrite (slot q : Nat) (s : State) : Out State :=
  .next (if !(s.ctx slot).valid ∨ q ≥ 64 then s
    else match s.vaRange (s.ctx slot) .read ((s.ctx slot).entryVa q) 32, s.readEntry slot q with
      | .wait n, _ => (s.putQueue slot q { (s.ctx slot).queue q with rewritten := true }).emitNeeds n
      | _, none => s
      | _, some e =>
        let c := s.ctx slot
        let old := c.queue q
        let x : Queue := { old with entry := e, stopped := false, rewritten := false }
        if old.valid || !x.valid then (s.putQueue slot q x).readTail slot q
        else
          (s.putQueue slot q x).dispatchRead slot (x.word 3) 8 fun s b =>
            match b with
            | none => s.stopQueue slot q 15
            | some b => (s.putQueue slot q { x with head := leNat b, tail := leNat b }).readTail slot q)

/-- QUEUE_TAIL_STORE: the tail word's home tells the engine of a store to it; the entry and the word are read (R209, R210). -/
def execQueueTailStore (slot q : Nat) (s : State) : Out State :=
  let x := (s.ctx slot).queue q
  .next (if !(s.ctx slot).valid ∨ x.stopped ∨ !x.valid ∨ x.dl then s
    else match s.readEntry slot q with
      | none => s
      | some e => (s.putQueue slot q { x with entry := e }).readTail slot q)

/-- A packet that has been read and whose head word has been written: it is rejected, or waits to start (R210, R213). -/
def State.takePacket (s : State) (slot q pos p : Nat) : State :=
  let c := s.ctx slot
  let x := c.queue q
  let im := if packetKind p = 0 then s.readImage c p else none
  let why := packetReason p im x.privOk
  let s := s.putQueue slot q { x with head := pos + 1, parents := SMap.del x.parents pos }
  if why ≠ 0 then s.reject slot q pos why p
  else
    let id := s.newId
    let pk : Packet := { q := q, pos := pos, words := natDwords 16 p, parent := SMap.find x.parents pos, st := .waiting, seq := id.1,
                         ready := im.map (packetGrid slot q pos x.pri p) }
    id.2.modCtx slot fun c => { c with packets := c.packets ++ [pk] }

/-- LAUNCH_PACKET_CONSUME: the engine reads the next slot with acquire ordering, writes HEAD + 1, and completes and checks the packet
(R210, R213). -/
def execLaunchPacketConsume (slot q : Nat) (s : State) : Out State :=
  let c := s.ctx slot
  let x := c.queue q
  .next (if !c.valid ∨ s.ctxStopped slot ∨ x.stopped ∨ !x.valid ∨ x.head ≥ x.tail then s
    else
      (s.engineAcquire x.acqTag).dispatchRead slot (x.slotVa x.head) 128 fun s b =>
        match b with
        | none => s.stopQueue slot q 15
        | some b =>
          let p := leNat b
          s.withImage slot p fun s => s.withDone slot (field p 48 8) fun s =>
            match s.vaRange c .write (x.word 3) 8 with
            | .ok ps => (s.engineStore c (x.word 3) ps (natLe 8 (x.head + 1))).takePacket slot q x.head p
            | _ => s.stopQueue slot q 15)

/-! ### Starting packets (R211, R219, R220) -/

/-- A tag is complete (R219, R331): none has borne it, or its most recent transfer is a return that has completed. -/
def State.tagDone (s : State) (slot tag : Nat) : Bool :=
  tag == 0 ||
    match s.tagUses.find? fun u => u.ctx == slot && u.tag == tag with
    | some u => u.isRet && !u.pending
    | none => true

/-- Every RETWAIT tag of a packet is complete. -/
def State.retDone (s : State) (slot p : Nat) : Bool := (List.range 4).all fun k => s.tagDone slot (field p (76 + 2 * k) 2)

/-- The packets of a queue that have not ended, in order. -/
def Ctx.queuePackets (c : Ctx) (q : Nat) : List Packet := c.packets.filter fun p => p.q == q

/-- A grid has placed every team. -/
def Grid.placed (g : Grid) : Bool := decide (g.next ≥ g.order.length)

/-- The launching grid of a packet has ended, where it has one (R220). -/
def State.parentEnded (s : State) (pk : Packet) : Bool :=
  match pk.parent with
  | some gid => (s.grid? gid).isNone
  | none => true

/-- The first waiting packet of a queue, if R211 and R220 let it start: nothing before it, or with OVL a wholly placed grid just before it, and
its parent has ended. -/
def State.startable (s : State) (slot q : Nat) : Option Packet :=
  let ps := if s.ctxStopped slot then [] else (s.ctx slot).queuePackets q
  Option.filter s.parentEnded <| match findPlace (fun (p : Packet) => p.st == .waiting) ps with
  | none => none
  | some (0, p) => some p
  | some (n + 1, p) =>
    let flags := packetFlags (dwordsNat p.words)
    match ps[n]? with
    | some prev =>
      match prev.st with
      | .grid gid =>
        if p.ready.isSome && flags.testBit 4 && (match s.grid? gid with | some g => g.placed && !g.fromTape | none => false) then some p else none
      | _ => none
    | none => none

/-- Changes a packet of a context, found by its sequence number. -/
def State.modPacket (s : State) (slot seq : Nat) (f : Packet → Packet) : State :=
  s.modCtx slot fun c => { c with packets := replaceWhere (fun p => p.seq == seq) f c.packets }

/-- A packet ends: its completion word is written and it leaves the queue. -/
def State.endPacket (s : State) (slot seq : Nat) : State :=
  match (s.ctx slot).packets.find? fun p => p.seq == seq with
  | none => s
  | some pk =>
    let p := dwordsNat pk.words
    (s.doneWord slot pk.q pk.pos (field p 48 8) (field p 56 8)).modCtx slot fun c =>
      { c with packets := c.packets.filter fun x => x.seq != seq }

/-- Starts a grid. -/
def State.startGrid (s : State) (g : Grid) (seq : Nat) (tape : Bool) : Nat × State :=
  let id := s.newId
  (id.1, { id.2 with grids := id.2.grids ++ [{ g with gid := id.1, seq := seq, fromTape := tape }] })

/-- PACKET_START: a GRID packet starts (R211, R219, R220). -/
def execPacketStart (slot q : Nat) (s : State) : Out State :=
  .next (match s.startable slot q with
    | none => s
    | some pk =>
      match pk.ready with
      | none => s
      | some g =>
        if !s.retDone slot (dwordsNat pk.words) then s
        else
          let r := s.startGrid g pk.seq false
          r.2.modPacket slot pk.seq fun p => { p with st := .grid r.1 })

/-! ### Teams and cores (R214, R217) -/

/-- A team with nothing in it. -/
def Team.blank : Team :=
  { uid := 0, gid := 0, ctx := 0, asid := 0, pri := 0, home := 0, pair := false, slot := 0, lanes := 32, group := 32, nv := 4, lin := 0,
    res := .resident, placedAt := 0, evictedAt := 0, stack := [], spilled := 0, area := [], frame := none, frameDepth := 0, v := [], s := [], p := [],
    q := [], tcw := 0, seed0 := 0, seed1 := 0, seed2 := 0, seed3 := 0, tstka := 0, tcause := 0, tpc := 0, tvb := 0, tskip := 0,
    skipPos := 0, flm := 0, dropl := 0, ckinj := 0, mxgang := 0, mxwin := 0, segs := List.replicate 16 0, segBind := List.replicate 16 0,
    segFaulted := List.replicate 16 false, handles := [], freeSlots := List.range 64, rounds := [], pendCauses := 0, hold := .free,
    heldLen := 0, fence := .none, hostStores := false, relTag := 0, relIssue := none, dueAt := 0, copyLateHeld := false, debtHome := 0,
    debtOdd := 0, heldHome := 0, heldOdd := 0, readyAt := none, debtSeq := 0, debtSeqOdd := 0, loopBuf := none, flight := [], issued := 0,
    stopReq := none }

/-- The launch bindings of a grid's segments (R93, R129). -/
def Grid.bindings (g : Grid) : List (BitVec 64) :=
  (List.range 16).map fun n =>
    if g.segMask.getLsbD n then
      BitVec.ofNat 64 (g.image + 16384 * (((List.range n).filter fun i => g.segMask.getLsbD i).length + 1))
    else 0

/-- All the lanes of a team. -/
def fullMask (n : Nat) : Mask := BitVec.ofNat 1024 (2 ^ n - 1)

/-- The start state of a team (R214) but for its place, its region and its spill area. -/
def Grid.newTeam (g : Grid) (asid uid lin : Nat) : Team :=
  let pc := g.entryPc
  let t0 := { Team.blank with
    uid := uid, gid := g.gid, ctx := g.ctx, asid := asid, pri := g.pri, pair := decide (g.lanes > 512), lanes := g.lanes,
    group := g.group, nv := g.nv, lin := lin, res := .starting, placedAt := uid,
    stack := [({ pc := pc, mask := fullMask g.lanes, rpc := none, fmt := g.fmti.zeroExtend 32 } : PathEntry)],
    tcw := (if g.flags.getLsbD 1 then 0x8000_0000 else 0) ||| (g.tcwi &&& 0x0000_E007), seed0 := g.seed0,
    tvb := g.tvbi &&& 0x8000_FFFF, segs := g.bindings, segBind := g.bindings }
  let pairs := fun (x : DWord) => [RWord.of (x.extractLsb' 0 32), RWord.of (x.extractLsb' 32 32)]
  let ws := g.args.map RWord.of ++ pairs g.constVa ++ pairs g.dataVa ++ pairs g.stepsVa ++ [RWord.zero] ++
    [RWord.ofNat (lin % g.gx), RWord.ofNat (lin / g.gx % g.gy), RWord.ofNat (lin / g.gx / g.gy)]
  t0.sAll 192 (List.range t0.groups) ws

/-- A team fits a core under R23 and R131. -/
def State.fitsCore (s : State) (k : Nat) (t : Team) : Bool :=
  let ts := s.teamsOn k
  let all := ts ++ [t]
  let images := distinct (all.flatMap fun u => (u.codeNeeds.filter fun a => a != 0).map fun a => (u.asid, a))
  decide ((all.map fun u => lanesPerCore u.lanes).sum ≤ 4096) &&
    decide ((all.map fun u => wordsPerCore u.lanes u.group u.nv).sum ≤ 131072) && decide (ts.length < 16) &&
    decide (images.length ≤ 14)

/-- The resident lanes of a core. -/
def State.lanesOn (s : State) (k : Nat) : Nat := ((s.teamsOn k).map fun u => lanesPerCore u.lanes).sum

/-- The cores or pairs of a cluster that a team may run on, by their home core. -/
def Team.homes (t : Team) (cl : Nat) : List Nat := if t.pair then [4 * cl, 4 * cl + 2] else (List.range 4).map fun k => 4 * cl + k

/-- The cores that a team has on a home. -/
def Team.coresAt (t : Team) (home : Nat) : List Nat := if t.pair then [home, home + 1] else [home]

/-- The element with the least key, the first of equals. -/
def leastBy {α : Type} (key : α → Nat) : List α → Option α
  | [] => none
  | x :: xs =>
    match leastBy key xs with
    | none => some x
    | some y => if key y < key x then some y else some x

/-- The home that R217 chooses in a cluster: the fewest resident lanes among those on which the team fits and `ok` holds. -/
def State.findHome (s : State) (t : Team) (cl : Nat) (ok : Nat → Bool) : Option Nat :=
  leastBy (fun k => ((t.coresAt k).map s.lanesOn).sum)
    ((t.homes cl).filter fun k => ok k && (t.coresAt k).all fun c => s.fitsCore c t)

/-- The lowest base of a free run of `n` barrier slots on a core (R114, R217). -/
def State.barRun (s : State) (k n : Nat) : Option Nat :=
  let used := (s.grids.filter fun g => g.barCore == some k).map fun g => (g.barBase, g.nbar)
  let starts := sortBy (fun (a b : Nat) => decide (a < b)) (0 :: used.map fun u => u.1 + u.2)
  starts.find? fun b => decide (b + n ≤ 2048) && used.all fun u => decide (b + n ≤ u.1) || decide (u.1 + u.2 ≤ b) || u.2 == 0

/-- A free region of `n` bytes of a vault: the lowest 64-byte aligned offset that fits (log entry 15). -/
def State.vaultRun (s : State) (v n : Nat) : Option Nat :=
  let used := s.grids.filterMap fun g => (SMap.find g.regions v).map fun b => (b, g.vbytes)
  let starts := sortBy (fun (a b : Nat) => decide (a < b)) (0 :: used.map fun u => (u.1 + u.2 + 63) / 64 * 64)
  starts.find? fun b => decide (b + n ≤ 5242880) && used.all fun u => decide (b + n ≤ u.1) || decide (u.1 + u.2 ≤ b)

/-- The lowest team slot that no team of a home core has. -/
def State.freeSlot (s : State) (k : Nat) : Nat :=
  ((List.range 16).find? fun n => !(s.teams.any fun t => t.home == k && t.res != .evicted && t.slot == n)).getD 0

/-- The engine asks for the code that a team's first issue needs (R129, R151). -/
def State.loadTeamCode (s : State) (t : Team) : State :=
  let segs := bits t.pc.toNat 15 12 :: (if t.tvb.getLsbD 31 then [bits t.tvb.toNat 15 12] else [])
  segs.foldl (fun (s : State) n =>
    if t.segAddr n = 0 then s
    else t.cores.foldl (fun (s : State) k => s.requestCode k t.asid (t.segAddr n) false (dispatchLoad t.uid n)) s) s

/-- The address of a new team's spill area in its context (R111; log entry 5). -/
def State.spillPlace (s : State) (t : Team) : DWord := ((s.ctxOf t).spillBase + BitVec.ofNat 64 (36864 * t.uid)) &&& 0x00FF_FFFF_FFFF_FFC0

/-- Puts a new team on a home: its barrier slots if it is its grid's first, its region's address, its spill area of 36,864 bytes, its code.
Its start acquires (R215). -/
def State.seat (s : State) (g : Grid) (t : Team) (home : Nat) : State :=
  let base := (s.barRun home g.nbar).getD 0
  let s := if g.barCore.isNone then s.modGrid g.gid fun g => { g with barCore := some home, barBase := base } else s
  let v := clusterOf home
  let region := match SMap.find g.regions v with
    | some b => v * 2 ^ 23 + b
    | none => 0
  let t := { t with home := home, slot := s.freeSlot home, tstka := s.spillPlace t }
  let t := t.sAll 208 (List.range t.groups) [RWord.ofNat region]
  (({ s with teams := s.teams ++ [t] } : State).loadTeamCode t).acquireFor t

/-- The grid's first team asks for barrier slots on its home. -/
def State.barOk (s : State) (g : Grid) (k : Nat) : Bool := g.barCore.isSome || (s.barRun k g.nbar).isSome

/-- Places one team of a grid in a cluster. -/
def State.placeTeam (s : State) (gid lin cl : Nat) : Option State :=
  match s.grid? gid with
  | none => none
  | some g =>
    let id := s.newId
    let t := g.newTeam (s.ctx g.ctx).asid id.1 lin
    (id.2.findHome t cl (s.barOk g)).map fun home => id.2.seat g t home

/-- The region of a grid in a cluster's vault, allocated when the grid has none there. -/
def State.ensureRegion (s : State) (g : Grid) (cl : Nat) : Option State :=
  if g.vbytes = 0 ∨ (SMap.find g.regions cl).isSome then some s
  else (s.vaultRun cl g.vbytes).map fun b => s.modGrid g.gid fun g => { g with regions := SMap.put g.regions cl b }

/-- The next pack of a grid. -/
def Grid.nextPack (g : Grid) : List Nat := (g.order.drop g.next).take g.pack

/-- Places teams one after another. -/
def State.placeTeams (gid cl : Nat) : List Nat → State → Option State
  | [], s => some s
  | l :: ls, s => (s.placeTeam gid l cl).bind (State.placeTeams gid cl ls)

/-- Places a grid's next pack whole in a cluster, or not at all. -/
def State.placePack (s : State) (g : Grid) (cl : Nat) : Option State :=
  ((s.ensureRegion g cl).bind (State.placeTeams g.gid cl g.nextPack)).map fun s =>
    s.modGrid g.gid fun x => { x with next := x.next + g.nextPack.length, cursor := (cl + 1) % 96 }

/-- The clusters of a grid from its cursor on. -/
def Grid.clusters (g : Grid) : List Nat :=
  ((List.range 96).map fun i => (g.cursor + i) % 96).filter fun v => g.cmask == 0 || g.cmask.getLsbD v

/-- Places a grid's next pack on the first cluster that takes it. -/
def State.placeNext (s : State) (gid : Nat) : Option State :=
  match s.grid? gid with
  | none => none
  | some g => g.clusters.findSome? (s.placePack g)

/-- The grid asks for whole-grid residency (R218). -/
def Grid.whole (g : Grid) : Bool := g.flags.getLsbD 2

/-- PACK_PLACE: the next pack of a grid is placed on the first cluster that fits, from the grid's cursor on (R217). -/
def execPackPlace (gid : Nat) (s : State) : Out State :=
  .next (match s.grid? gid with
    | none => s
    | some g => if g.whole || g.placed || s.ctxStopped g.ctx then s else (s.placeNext gid).getD s)

/-- Places every pack of a grid that is left; none where one does not fit. -/
def State.placeAll (gid : Nat) : Nat → State → Option State
  | 0, s => some s
  | n + 1, s => (s.placeNext gid).bind (State.placeAll gid n)

/-- The packs of a grid that are left. -/
def Grid.packsLeft (g : Grid) : Nat := ceilDiv (g.order.length - g.next) g.pack

/-- WHOLE_GRID_PLACE: a whole placement is computed before any team starts (R218). -/
def execWholeGridPlace (gid : Nat) (s : State) : Out State :=
  .next (match s.grid? gid with
    | none => s
    | some g => if !g.whole || g.placed || s.ctxStopped g.ctx then s else (State.placeAll gid g.packsLeft s).getD s)

/-! ### The end of a grid (R215) -/

/-- An engine operation of a grid's teams has not completed (R34, R215). -/
def State.gridBusy (s : State) (gid : Nat) : Bool :=
  let mine := fun (h : HRef) => h.gid == gid
  (s.clusters.any fun kc =>
    kc.2.entries.any (fun e => e.gid == gid) || kc.2.saQ.any (fun q => q.gid == gid) ||
      (kc.2.copy.loc ++ kc.2.copy.rem).any fun c => c.gid == gid) ||
    (s.chans.any fun kc => kc.2.progs.any fun p => p.gid == gid) ||
    (s.ctxs.any fun kc => kc.2.pageReqs.any fun r => r.waiters.any mine) ||
    (s.moves.any fun m => m.waiters.any mine) || (s.loads.any fun l => mine l.waiter.who) ||
    s.cores.any fun kc => kc.2.code.any fun e => e.2.waiters.any fun w => mine w.who

/-- A grid's packet is the first of its queue that has not ended; a grid from the tape ends in its run. -/
def State.endsInOrder (s : State) (g : Grid) : Bool :=
  g.fromTape || match (s.ctx g.ctx).queuePackets g.q with
    | pk :: _ => pk.st == .grid g.gid
    | [] => true

/-- Frees what a grid holds, and discards the prefetches that the governor has not run (R269). -/
def State.closeGrid (s : State) (g : Grid) : State :=
  let s := match g.barCore with
    | some k =>
      let c := s.core k
      s.putCore k { c with bars := c.bars.filter fun b => decide (b.1 < g.barBase) || decide (b.1 ≥ g.barBase + g.nbar) }
    | none => s
  { s with grids := s.grids.filter fun x => x.gid != g.gid
           gone := s.gone.filter fun x => x.gid != g.gid
           gov := { s.gov with pfq := s.gov.pfq.map fun q => q.filter fun p => p.gid != g.gid } }

/-- A grid's end makes a release that covers every store of its teams and engines, once, and waits for it (R215). -/
def State.gridReleased (s : State) (g : Grid) (k : State → State) : State :=
  let r : Nat × State := match g.relTag with
    | some n => (n, s)
    | none =>
      let r := s.releaseFor g.ctx
      (r.1, r.2.modGrid g.gid fun g => { g with relTag := some r.1 })
  if r.2.registered r.1 then k r.2 else r.2

/-- GRID_END: every team has ended and every engine operation has completed; slots and regions are freed, a release is made and the
completion word stored (R215). -/
def execGridEnd (gid : Nat) (s : State) : Out State :=
  .next (match s.grid? gid with
    | none => s
    | some g =>
      if !g.placed || (s.teams.any fun t => t.gid == gid) || s.gridBusy gid || !s.endsInOrder g then s
      else
        s.withDone g.ctx g.doneAddr.toNat fun s => s.gridReleased g fun s =>
          let s := s.closeGrid g
          if g.fromTape then
            (s.doneWord g.ctx g.q g.pos g.doneAddr.toNat g.doneVal.toNat).modCtx g.ctx fun c =>
              { c with tape := c.tape.map fun r => { r with running := none } }
          else s.endPacket g.ctx g.seq)

/-! ### The tape (R221, R222) -/

/-- The records on the tape. -/
def Ctx.depth (c : Ctx) : Nat := c.tdepth.toNat
/-- The address of a record. -/
def Ctx.recordVa (c : Ctx) (n : Nat) : Nat := bits c.tapebase.toNat 55 19 * 2 ^ 19 + 128 * n

/-- TAPE_RUN_START: a TAPE_RUN packet starts while no run is active; with the depth at TMARK or less it ends at once (R222). -/
def execTapeRunStart (slot q : Nat) (s : State) : Out State :=
  .next (match s.startable slot q with
    | none => s
    | some pk =>
      let p := dwordsNat pk.words
      let c := s.ctx slot
      if packetKind p ≠ 1 ∨ c.tape.isSome then s
      else s.withDone slot (field p 48 8) fun s =>
        if c.depth ≤ field p 4 2 then s.endPacket slot pk.seq
        else (s.modPacket slot pk.seq fun x => { x with st := .tapeRun }).modCtx slot fun c =>
          { c with tape := some { q := q, pos := pk.pos, mark := field p 4 2, popped := none, running := none } })

/-- The packet of a context's tape run. -/
def Ctx.runPacket (c : Ctx) : Option Packet := c.packets.find? fun p => p.st == .tapeRun

/-- A record that has been popped launches its grid once its RETWAIT tags are complete, as a packet would; until then it waits (R219, R222). -/
def State.startRecord (s : State) (slot : Nat) (run : TapeRun) (p : Nat) (g : Grid) : State :=
  if s.retDone slot p then
    let id := s.newId
    let st := id.2.startGrid g id.1 true
    st.2.modCtx slot fun c => { c with tape := some { run with popped := none, running := some st.1 } }
  else s.modCtx slot fun c => { c with tape := some { run with popped := some (p, g) } }

/-- A record popped: retired, rejected, or launched (R222). A record that cannot be read is rejected with reason 15 (log entry 16). -/
def State.launchRecord (s : State) (slot : Nat) (run : TapeRun) (p : Nat) : State :=
  let c := s.ctx slot
  let x := c.queue run.q
  let im := if packetKind p = 0 then s.readImage c p else none
  let why := if packetKind p ≠ 0 then 1 else packetReason p im x.privOk
  if packetKind p = 0 ∧ (packetFlags p).testBit 3 ∧ c.lskip.getLsbD 30 then s.doneWord slot run.q run.pos (field p 48 8) (field p 56 8)
  else if why ≠ 0 then s.reject slot run.q run.pos why p
  else
    match im with
    | none => s
    | some r => s.startRecord slot run p (packetGrid slot run.q run.pos x.pri p r)

/-- TAPE_POP: the active run pops the top record once its last grid has ended, or ends at its mark (R222). A record popped whose RETWAIT tags
hold it back is looked at again. -/
def execTapePop (slot : Nat) (s : State) : Out State :=
  let c := s.ctx slot
  .next (match c.tape with
    | none => s
    | some run =>
      if run.running.isSome ∨ s.ctxStopped slot then s
      else match run.popped with
      | some r => s.startRecord slot run r.1 r.2
      | none =>
        if c.depth ≤ run.mark then
          match c.runPacket with
          | none => s.modCtx slot fun c => { c with tape := none }
          | some pk =>
            s.withDone slot (field (dwordsNat pk.words) 48 8) fun s =>
              (s.endPacket slot pk.seq).modCtx slot fun c => { c with tape := none }
        else
          let pop := fun (s : State) => s.modCtx slot fun c => { c with tdepth := c.tdepth - 1 }
          s.dispatchRead slot (c.recordVa (c.depth - 1)) 128 fun s b =>
            match b with
            | none => (pop s).reject slot run.q run.pos 15 0
            | some b =>
              s.withImage slot (leNat b) fun s => s.withDone slot (field (leNat b) 48 8) fun s =>
                (pop s).launchRecord slot run (leNat b))

/-! ### Loss scale (R223, R224) -/

/-- The exponent of `LSCALE`. -/
def scaleExp (w : Word) : Int := (bits w.toNat 30 23 : Int) - 127
/-- `LSCALE` of an exponent. -/
def scaleWord (e : Int) : Word := BitVec.ofNat 32 ((e + 127).toNat * 2 ^ 23)

/-- `LSKIP` from its fields. -/
def lskipWord (last pend floor : Bool) (skips clean : Nat) : Word :=
  BitVec.ofNat 32 ((if last then 2 ^ 31 else 0) + (if pend then 2 ^ 30 else 0) + (if floor then 2 ^ 29 else 0) + skips * 2 ^ 16 + clean)

/-- A step closes (R224). -/
def Ctx.closeStep (c : Ctx) : Ctx :=
  let k := c.lskip.toNat
  let e := scaleExp c.lscale
  let skips := bits k 28 16
  let clean := bits k 15 0
  if k.testBit 30 then
    let low := decide (e ≤ signedVal 8 (bits c.lscfg.toNat 15 8))
    { c with lskip := lskipWord true false low (min (skips + 1) 8191) 0, lscale := scaleWord (if low then e else e - 1) }
  else
    let n := max 1 (bits c.lscfg.toNat 47 32)
    if clean + 1 ≥ n then
      { c with lskip := lskipWord false false false skips 0,
               lscale := scaleWord (if e < signedVal 8 (bits c.lscfg.toNat 23 16) then e + 1 else e) }
    else { c with lskip := lskipWord false false false skips (clean + 1) }

/-- STEP_END_CLOSE: a STEP_END packet reaches the head of its queue and closes the step (R224). -/
def execStepEndClose (slot q : Nat) (s : State) : Out State :=
  .next (match s.startable slot q with
    | none => s
    | some pk =>
      let p := dwordsNat pk.words
      if packetKind p ≠ 2 then s
      else s.withDone slot (field p 48 8) fun s =>
        (s.modCtx slot Ctx.closeStep).endPacket slot pk.seq)

/-! ### Dispatch instructions (R225, R226) -/

/-- A cause of a team-scoped access: ALIAS names no lanes (R139). -/
def Team.accessStop (t : Team) (lead : Nat) (c : Cause) : Stop := if c = .aliased then Stop.of c else t.leadStop lead c

/-- A team's read of `n` bytes as a global load (R226): of what its own core sees, after its own writes. A lost block fails the lead group's
lanes (R199): under DROP the instruction writes zero to its destination and has no other effect (R191). -/
def withLoad (i : Instr) (d : RegNo) (gs : List Nat) (lead a n : Nat) (s : State) (t : Team) (k : State → Nat → Res) : Res :=
  let c := s.ctxOf t
  match s.vaRange c .read a n, s.translate c a .read with
  | .fault f, _ => .stop (t.accessStop lead f) s
  | .wait ns, _ => .hold (s.holdNeeds t.uid ns)
  | .ok _, .ok key l =>
    let s := s.drainOver t.uid key n
    let blocks := (List.range ((a % 64 + n + 63) / 64)).map fun j => (0, key - a % 64 + 64 * j, a / 64 * 64 + 64 * j)
    let met := (s.meetWalk (t.finder i) c a).meetLoads t (t.finder i) false blocks
    match met.1.team? t.uid with
    | none => .jump met.1
    | some t =>
      let met := (met.1.useRange c a n, met.2)
      match blocks.find? fun b => met.1.blockLost (b.2.1 / 64) with
      | none => k met.1 (leNat ((List.range n).map fun j => met.1.coreByte t.home c (a + j) (key + j) l))
      | some b =>
        let f := failStorage met.1 t i (t.groupActive lead) b.2.2 b.2.1
        match f.2.2 with
        | some st => .stop st (f.1.putTeam f.2.1)
        | none => .done ((f.1.putTeam f.2.1).answer t.uid d 1 gs 0)
  | .ok _, _ => .hold s

/-- The shared head of `dp.launch` and `dp.tadd`: the address, the release, the read. -/
def withPacket (i : Instr) (d : RegNo) (gs : List Nat) (lead a : Nat) (s : State) (t : Team) (k : State → Nat → Res) : Res :=
  if a % 128 ≠ 0 then .stop (t.leadStop lead .align) s
  else s.releaseThen t .hold fun s => withLoad i d gs lead a 128 s t k

/-- `dp.launch` (R226). A slot that cannot be written stops the queue with reason 15 (log entry 16). -/
def execDpLaunch (h : Hdr) (d a b : RegNo) (s : State) : Out State :=
  let i : Instr := .dpLaunch h d a b
  withTeam i s (teamOp i h d 1 [(a, 2), (b, 1)] fun s t gs lead vs =>
    let q := (vs[1]?).getD 0
    let x := (s.ctxOf t).queue q
    if q ≥ 64 ∨ !x.valid ∨ !x.dl then .stop (t.leadStop lead .rights) s
    else withPacket i d gs lead (vs.headD 0) s t fun s p =>
      if x.tail - x.head ≥ x.slots then .stop (Stop.of .launchFull) s
      else
        let c := s.ctxOf t
        let put := fun (s : State) =>
          let s := match s.vaRange c .write (x.word 2) 8 with
            | .ok ps => s.engineStore c (x.word 2) ps (natLe 8 (x.tail + 1))
            | _ => s
          let y := (s.ctx t.ctx).queue q
          let s := s.putQueue t.ctx q { y with tail := x.tail + 1, parents := SMap.put y.parents x.tail t.gid }
          Res.done (s.answer t.uid d 1 gs (x.tail % 2 ^ 32))
        match s.vaRange c .write (x.slotVa x.tail) 128 with
        | .ok ps => put (s.engineStore c (x.slotVa x.tail) ps (natLe 128 p))
        | .wait ns => .hold (s.holdNeeds t.uid ns)
        | .fault _ => put (s.stopQueue t.ctx q 15))

/-- `dp.qstat` (R226). -/
def execDpQstat (h : Hdr) (d b : RegNo) (s : State) : Out State :=
  let i : Instr := .dpQstat h d b
  withTeam i s (teamOp i h d 1 [(b, 1)] fun s t gs _ vs =>
    let x := (s.ctxOf t).queue (vs.headD 0)
    .done (s.answer t.uid d 1 gs (if vs.headD 0 ≥ 64 ∨ !x.valid then 0 else 2 ^ 31 + (x.slots - (x.tail - x.head)))))

/-- `dp.tadd` (R226). -/
def execDpTadd (h : Hdr) (d a : RegNo) (s : State) : Out State :=
  let i : Instr := .dpTadd h d a
  withTeam i s (teamOp i h d 1 [(a, 2)] fun s t gs lead vs =>
    withPacket i d gs lead (vs.headD 0) s t fun s p =>
      let c := s.ctxOf t
      if c.tape.isSome ∨ c.depth ≥ 4096 then .stop (Stop.of .tape) s
      else
        match s.vaRange c .write (c.recordVa c.depth) 128 with
        | .fault f => .stop (t.accessStop lead f) s
        | .wait n => .hold (s.holdNeeds t.uid n)
        | .ok ps =>
          let s := s.engineStore c (c.recordVa c.depth) ps (natLe 128 p)
          let s := s.modCtx t.ctx fun c => { c with tdepth := c.tdepth + 1 }
          .done (s.answer t.uid d 1 gs (c.depth + 1)))

/-- `dp.tdrop` (R226). -/
def execDpTdrop (h : Hdr) (d a : RegNo) (s : State) : Out State :=
  let i : Instr := .dpTdrop h d a
  withTeam i s (teamOp i h d 1 [(a, 1)] fun s t gs _ vs =>
    let c := s.ctxOf t
    if c.tape.isSome then .stop (Stop.of .tape) s
    else
      let n := min (vs.headD 0) c.depth
      .done ((s.modCtx t.ctx fun c => { c with tdepth := c.tdepth - BitVec.ofNat 64 n }).answer t.uid d 1 gs n))

/-- `dp.tdepth` (R226). -/
def execDpTdepth (h : Hdr) (d : RegNo) (s : State) : Out State :=
  let i : Instr := .dpTdepth h d
  withTeam i s (teamOp i h d 1 [] fun s t gs _ _ => .done (s.answer t.uid d 1 gs (s.ctxOf t).depth))

/-- `dp.lsovf` (R224, R226). -/
def execDpLsovf (h : Hdr) (s : State) : Out State :=
  let i : Instr := .dpLsovf h
  withTeam i s (teamOp i h 192 0 [] fun s t _ _ _ => .done (s.modCtx t.ctx fun c => { c with lskip := c.lskip ||| 0x4000_0000 }))

/-- `dp.lsstep` (R224, R226): a skipped step at EMIN raises LSCALE after the close. Where an earlier instruction in flight faults, the one that
stops is cancelled and closes nothing (R143). -/
def execDpLsstep (h : Hdr) (s : State) : Out State :=
  let i : Instr := .dpLsstep h
  withTeam i s (teamOp i h 192 0 [] fun s t _ _ _ =>
    let s' := s.modCtx t.ctx Ctx.closeStep
    if (s'.ctx t.ctx).lskip.getLsbD 29 then
      .stop { cause := .lscale, lanes := 0, code := 0, after := true } (if t.flight.any fun f => f.stop.isSome then s else s')
    else .done s')

/-- LSCFG_WRITE: an order-keeping value is written, `LSCALE` becomes 2^EINIT and `LSKIP` clears; any other value changes nothing (R208). -/
def Ctx.writeLscfg (c : Ctx) (x : Nat) : Ctx :=
  let f := fun (hi lo : Nat) => signedVal 8 (bits x hi lo)
  let ok := decide (-126 ≤ f 15 8) && decide (f 15 8 ≤ f 31 24) && decide (f 31 24 ≤ f 23 16)
  if ok then { c with lscfg := BitVec.ofNat 64 (mergeBits 0x0000_FFFF_FFFF_FF00 0 x), lscale := scaleWord (f 31 24), lskip := 0 } else c

end Sys2Proof.Machine
end

