-- ==== Sys2Proof/Machine/Evict.lean ====
section
/-! DEFINITION. Partial eviction and restore (R151, R228, R229): which teams leave for waiting work, the end of a drain, and the return of an
evicted team. -/

namespace Sys2Proof.Machine

open Sys2Proof

/-- The state as it will be when every draining team is out; plans are made over it. -/
def State.settled (s : State) : State :=
  { s with teams := s.teams.map fun t => if t.res = .draining then { t with res := .evicted } else t }

/-- A team whose home has room for it. -/
def State.fitsHome (s : State) (t : Team) (home : Nat) : Bool := (t.coresAt home).all fun k => s.fitsCore k t

/-- The teams of lower priority on some cores, lowest priority first and latest placed first within one (R228). -/
def State.victims (s : State) (pri : Nat) (ks : List Nat) : List Team :=
  sortBy (fun (a b : Team) => decide (a.pri < b.pri) || (a.pri == b.pri && decide (a.placedAt > b.placedAt)))
    (s.teams.filter fun v => (v.res == .resident || v.res == .starting) && decide (v.pri < pri) && v.cores.any fun k => ks.contains k)

/-- Takes victims one by one until the team fits the home. -/
def State.makeRoom (t : Team) (home : Nat) : List Team → State → Option State
  | [], s => if s.fitsHome t home then some s else none
  | v :: vs, s =>
    if s.fitsHome t home then some s
    else State.makeRoom t home vs (s.modTeam v.uid fun v => { v with res := .evicted })

/-- The number of teams that are out. -/
def State.outCount (s : State) : Nat := (s.teams.filter fun t => t.res == .evicted).length

/-- The plan of fewest evictions that makes a team fit a cluster, on a home that `ok` allows. -/
def State.roomFor (s : State) (t : Team) (cl : Nat) (ok : Nat → Bool) : Option State :=
  leastBy State.outCount (((t.homes cl).filter ok).filterMap fun home => State.makeRoom t home (s.victims t.pri (t.coresAt home)) s)

/-- Places a team of a grid in a cluster of a plan, evicting where it must. -/
def State.planTeam (s : State) (gid lin cl : Nat) : Option State :=
  match s.placeTeam gid lin cl with
  | some s => some s
  | none =>
    match s.grid? gid with
    | none => none
    | some g => (s.roomFor (g.newTeam (s.ctx g.ctx).asid s.nextId lin) cl (s.barOk g)).bind fun s => s.placeTeam gid lin cl

/-- Places teams of a plan one after another. -/
def State.planTeams (gid cl : Nat) : List Nat → State → Option State
  | [], s => some s
  | l :: ls, s => (s.planTeam gid l cl).bind (State.planTeams gid cl ls)

/-- Plans a grid's next pack in a cluster: eviction frees no vault space and no barrier slot (R228). -/
def State.planPack (s : State) (g : Grid) (cl : Nat) : Option State :=
  ((s.ensureRegion g cl).bind (State.planTeams g.gid cl g.nextPack)).map fun s =>
    s.modGrid g.gid fun x => { x with next := x.next + g.nextPack.length, cursor := (cl + 1) % 96 }

/-- The clusters that a grid allows, lowest first. -/
def Grid.allowed (g : Grid) : List Nat := (List.range 96).filter fun v => g.cmask == 0 || g.cmask.getLsbD v

/-- Plans a grid's next pack: on the first cluster that takes it, else in the one of fewest evictions (R228). -/
def State.planNext (s : State) (gid : Nat) : Option State :=
  match s.grid? gid with
  | none => none
  | some g =>
    match s.placeNext gid with
    | some s => some s
    | none => leastBy State.outCount (g.allowed.filterMap (s.planPack g))

/-- Plans every pack that is left (R218). -/
def State.planAll (gid : Nat) : Nat → State → Option State
  | 0, s => some s
  | n + 1, s => (s.planNext gid).bind (State.planAll gid n)

/-- A team may be restored to a home of its cluster (R229). -/
def State.restoreHome (s : State) (t : Team) : Option Nat := s.findHome t (clusterOf t.home) fun _ => true

/-- The evicted teams, in eviction order. -/
def State.evictedTeams (s : State) : List Team :=
  sortBy (fun (a b : Team) => decide (a.evictedAt < b.evictedAt)) (s.teams.filter fun t => t.res == .evicted)

/-- The plan of an eviction for a grid: for the first of its evicted teams that has no room and that an eviction helps, else for its next pack
or, where the grid is WHOLE, for all of them. -/
def State.evictionPlan (s : State) (g : Grid) : Option State :=
  let h := s.settled
  let back := fun (t : Team) => if (h.restoreHome t).isNone then h.roomFor t (clusterOf t.home) fun _ => true else none
  if s.ctxStopped g.ctx then none
  else match (s.evictedTeams.filter fun t => t.gid == g.gid).findSome? back with
  | some p => some p
  | none => if g.placed then none else if g.whole then State.planAll g.gid g.packsLeft h else h.planNext g.gid

/-- PARTIAL_EVICTION: work of a grid that fits no allowed cluster evicts teams of lower priority, which begin to drain (R228). -/
def execPartialEviction (gid : Nat) (s : State) : Out State :=
  .next (match s.grid? gid with
    | none => s
    | some g =>
      match s.evictionPlan g with
      | none => s
      | some h => { s with teams := s.teams.map fun t =>
          if (t.res = .resident ∨ t.res = .starting) ∧ (h.team? t.uid).any (fun u => u.res == .evicted) then { t with res := .draining }
          else t })

/-- The long-latency instructions in flight complete but for those that raised a cause, which wait for the restore (R151). -/
def Team.drainFlights (t : Team) : Team :=
  { (t.flight.filter fun f => f.stop.isNone).foldl Team.land t with flight := t.flight.filter fun f => f.stop.isSome }

/-- The instruction that holds the team is under way: its arrival is on its way to or from its barrier slot (R116), or another device has still
to answer it (R242). -/
def Hold.arriving : Hold → Bool
  | .barIn | .barTok .. | .remote => true
  | _ => false

/-- A drained team is saved: a pending rendezvous of its gang is cancelled (R302), its wait count goes and its reservation
passes on (R399), and its home is free. -/
def State.evict (s : State) (t : Team) : State :=
  let s := if t.inGang then s.cancelRendezvous (clusterOf t.home) t.gangSlot else s
  let s := s.passReservation t
  let id := s.newId
  ({ id.2 with pick := id.2.pick.filter fun u => u != t.uid } : State).modTeam t.uid fun t =>
    { t.drainFlights with res := .evicted, evictedAt := id.1, loopBuf := none, readyAt := none, heldHome := 0, heldOdd := 0 }

/-- EVICTION_DRAIN_DONE: every issued instruction of a draining team has completed or raised its cause; the team is saved (R151, R228). -/
def execEvictionDrainDone (uid : Nat) (s : State) : Out State :=
  .next (match s.team? uid with
    | none => s
    | some t => if t.res = .draining ∧ !t.hold.arriving ∧ !t.unanswered then s.evict t else s)

/-- The next pack of a grid waits for cores of a cluster: neither vault space nor barrier slots are wanting there (R228, R229). -/
def State.waitsFor (s : State) (g : Grid) (cl : Nat) : Bool :=
  !g.placed && !s.ctxStopped g.ctx && g.allowed.contains cl && (s.ensureRegion g cl).isSome &&
    (List.range 4).any fun k => s.barOk g (4 * cl + k)

/-- Work of strictly higher priority waits for room in a cluster: packs of a grid that allows it, or an evicted team of it (R229). -/
def State.higherWaits (s : State) (t : Team) : Bool :=
  let cl := clusterOf t.home
  (s.grids.any fun g => decide (g.pri > t.pri) && s.waitsFor g cl) ||
    s.evictedTeams.any fun u => decide (u.pri > t.pri) && !s.ctxStopped u.ctx && clusterOf u.home == cl

/-- An evicted team of the cluster and priority left earlier, and has room. -/
def State.earlierOut (s : State) (t : Team) : Bool :=
  (s.evictedTeams.takeWhile fun u => u.uid != t.uid).any fun u =>
    clusterOf u.home == clusterOf t.home && decide (u.pri ≥ t.pri) && (s.restoreHome u).isSome

/-- A team returns to a home: its debts there come after those of the teams that are there (R393), and its position in happens-before goes with
it, so that its cores acquire (R292). -/
def State.reseat (s : State) (t : Team) (home : Nat) : State :=
  let id := s.newId
  let t := { t with home := home, slot := s.freeSlot home, res := .starting, debtSeq := id.1, debtSeqOdd := id.1 }
  ((id.2.putTeam t).loadTeamCode t).acquireFor t

/-- TEAM_RESTORE: an evicted team returns to a core of its cluster, and its segments land before it issues (R151, R229). -/
def execTeamRestore (uid : Nat) (s : State) : Out State :=
  .next (match s.team? uid with
    | none => s
    | some t =>
      if t.res ≠ .evicted ∨ s.ctxStopped t.ctx ∨ s.higherWaits t ∨ s.earlierOut t then s
      else
        match s.restoreHome t with
        | none => s
        | some home => s.reseat t home)

end Sys2Proof.Machine
end

