-- ==== Sys2Proof/Machine/Grant.lean ====
section
/-! DEFINITION. What the engines' commands share: the release before a command with ACQ (R290), the injection that an operation takes along
and the settling of a failed element (R192, R203), and the grant of a unit of work (R394, R406, R408). -/

namespace Sys2Proof.Machine

open Sys2Proof

/-- A command with ACQ: the sequencer releases for the team before it sends it, and the engine acquires (R290): what engines asked other devices
for before the release began is asked for again. -/
def withAcq (acq : Bool) (s : State) (t : Team) (k : State → Res) : Res :=
  if acq then s.releaseThen t .hold fun s => k (s.engineAcquire ((s.team? t.uid).getD t).relTag) else k s

/-! ### Injections and failed elements -/

/-- The injection that the team's next operation of an engine takes along (R203), 0 for none. LANE plays no part. -/
def Team.engineInj (t : Team) (unit : Nat) : Nat := if (t.injects unit).isSome then t.injCode else 0

/-- The injection that an operation took along fails the element that it meets: it is sticky (R203). -/
def injFails (inj : Nat) : Bool := inj % 4 == 2

/-- The injection is made: ARM clears and counter 32 advances (R203). -/
def State.takeInj (s : State) (uid unit : Nat) : State :=
  match s.team? uid with
  | none => s
  | some t => if (t.injects unit).isSome then (s.putTeam t.disarm).count 32 1 else s

/-- Settles an injected element whose computed word is `w` (R190, R192): a replay corrects it, or it fails, is counted and recorded with KIND 7
at the home core of the team `uid`, gone or not (R194). PRED is the residue of the computed word, FOUND that of the word with the bit
inverted. -/
def State.settleElement (s : State) (inj unit uid asid : Nat) (pc : BitVec 16) (ins : Nat × Nat) (w : Nat) : State :=
  if inj = 0 then s
  else if !injFails inj then s.count unit 1
  else
    let t := s.ident uid
    (s.count 8 1).fileMc {
      kind := 7, unit := unit, asid := asid, pair := t.pair, core := t.home, pc := pc.toNat, base := ins.1, ext := ins.2, tlin := t.lin,
      lanes := [], pred := w % 7, found := (w ^^^ 2 ^ (inj / 4)) % 7, addr := 0, synd := 0, level := 0 }

/-! ### Units of engine work -/

/-- A die's load so far in this reference cycle. -/
def Governor.dieLoad (g : Governor) (d : Nat) : Nat := (g.dieNow[d]?).getD 0

/-- A die's cap Cd(k) (R407). -/
def Governor.dieCapOf (g : Governor) (d : Nat) : Nat := (g.dieCap[d]?).getD 0

/-- The balance of a die's bucket (R392). -/
def State.dieBal (s : State) (d : Nat) : Nat := if d = 0 then s.pkg.dbal0 else s.pkg.dbal1

/-- Sets the balance of a die's bucket. -/
def State.setDieBal (s : State) (d x : Nat) : State :=
  { s with pkg := if d = 0 then { s.pkg with dbal0 := x } else { s.pkg with dbal1 := x } }

/-- `TKCORE`.CAP and RATE of a core (R391). -/
def Core.cap (c : Core) : Nat := bits c.tkcore.toNat 27 16
def Core.rate (c : Core) : Nat := bits c.tkcore.toNat 39 30

/-- The team's debt on one of its cores. -/
def Team.debtOn (t : Team) (core : Nat) : Nat := if core = t.home then t.debtHome else t.debtOdd

/-- The place of the team's debt on a core in the order of their creation (R393). -/
def Team.seqOn (t : Team) (core : Nat) : Nat := if core = t.home then t.debtSeq else t.debtSeqOdd

/-- The resident teams that owe on a core, in the order in which their debts were created (R393). -/
def State.debtors (s : State) (core : Nat) : List Team :=
  sortBy (fun (a b : Team) => decide (a.seqOn core < b.seqOn core))
    (s.teams.filter fun t => t.res != .evicted && t.cores.contains core && decide (0 < t.debtOn core))

/-- A core's refill demand (R407): none at CAP without a debt. -/
def State.coreDemand (s : State) (k : Nat) : Nat :=
  let c := s.core k
  if c.bal < c.cap ∨ !(s.debtors k).isEmpty then ceilDiv (c.rate * s.clusterMhz (clusterOf k)) 16000 else 0

/-- The refill demand of a die. Cores that the state does not list stand at CAP. -/
def State.dieDemand (s : State) (d : Nat) : Nat := ((s.cores.filter fun e => dieOf e.1 == d).map fun e => s.coreDemand e.1).sum

/-- Adds a running unit's rate to the loads of this reference cycle. -/
def Governor.addUnit (g : Governor) (u : RunUnit) : Governor :=
  { g with
    units := g.units ++ [u]
    loadNow := g.loadNow + u.rate
    dieNow := match u.die with
      | some d => g.dieNow.mapIdx fun i x => if i = d then x + u.rate else x
      | none => g.dieNow }

/-- What a core's refills of a reference cycle can place: the integer parts of its two cycles' RATE, on debts and up to CAP (R393). -/
def State.refillRoom (s : State) (k : Nat) : Nat :=
  let c := s.core k
  let owed := ((s.debtors k).map fun t => t.debtOn k).sum
  if (s.island (clusterOf k)).st = .run then min ((c.frac + ceilDiv (s.clusterMhz (clusterOf k)) 1000 * c.rate) / 16) (owed + (c.cap - c.bal)) else 0

/-- What a die bucket keeps from a unit of a rate (R394): in an even reference cycle it serves its cores' refills first, as far as the level will let
them be placed beside the unit (R408). -/
def State.keptForRefills (s : State) (d rate : Nat) : Nat :=
  if s.time % 2 = 0 then
    min (((s.cores.filter fun e => dieOf e.1 == d).map fun e => s.refillRoom e.1).sum) (s.gov.level - (s.gov.loadNow + rate))
  else 0

/-- Grants a unit (R394, R408): it fits under the level and its die's cap, and its bucket holds the whole cost, which is deducted. -/
def State.grantRun (s : State) (cost : Nat) (u : RunUnit) : Option State :=
  let g := s.gov
  if g.loadNow + u.rate > g.level then none
  else
    match u.die with
    | some d =>
      if g.dieLoad d + u.rate > g.dieCapOf d ∨ s.dieBal d < cost + s.keptForRefills d u.rate then none
      else some { s.setDieBal d (s.dieBal d - cost) with gov := g.addUnit u }
    | none => if s.pkg.pbal < cost then none else some { s with pkg := { s.pkg with pbal := s.pkg.pbal - cost }, gov := g.addUnit u }

/-- Grants a unit whose rate stays as it is. -/
def State.grantUnit (s : State) (cost rate : Nat) (die : Option Nat) (endsAt : Nat) : Option State :=
  s.grantRun cost { kind := .engine, rate := rate, die := die, endsAt := endsAt, work := none }

/-- The rate of a unit of a cluster that lasts `d` core cycles (R406). -/
def State.unitRate (s : State) (v cost d : Nat) : Nat := ceilDiv (cost * s.clusterMhz v) (1000 * max 1 d)

/-- Grants a unit of a cluster's engine that lasts `d` core cycles. -/
def State.grantWork (s : State) (v cost d : Nat) : Option State :=
  s.grantRun cost {
    kind := .engine, rate := s.unitRate v cost d, die := some (v / 48), endsAt := s.time + ceilDiv (d * 1000) (s.clusterMhz v),
    work := some (v, cost, d) }

/-- A cluster's die (R11). -/
def clusterDie (v : Nat) : Nat := v / 48

end Sys2Proof.Machine
end

