-- ==== Sys2Proof/Machine/Matrix.lean ====
section
/-! DEFINITION. The matrix engine (R298 to R317): tiles, gangs and the rendezvous latch, windows, the matrix instructions, the reservation table,
and the passes. -/

namespace Sys2Proof.Machine

open Sys2Proof

/-! ### Tiles (R49 to R52, R306, R307) -/

/-- The Z-order index of element (r, c) (R50). -/
def zIndex (r c : Nat) : Nat := ((List.range 6).map fun i => bits c i i * 4 ^ i + bits r i i * (2 * 4 ^ i)).sum

/-- The value of an element of a type: a number of a format, or an integer. -/
def elemVal (ty : Ty) (x : Nat) : FVal :=
  match tyFmt ty with
  | some f => f.val x
  | none => .ofInt (tyVal ty x)

/-- The bytes of a tile's elements (R50, R51). -/
def tileElems (ty : Ty) : Nat := 512 * ty.width

/-- The bytes of a tile: elements and, where it is scaled, its scale line (R50, R305). -/
def tileSize (ty : Ty) (scaled : Bool) : Nat := tileElems ty + (if scaled then 64 else 0)

/-- The encoding of the element at Z-order index `z` of a tile at a home key. -/
def State.tileBits (s : State) (ty : Ty) (key z : Nat) : Nat :=
  if ty.width = 4 then bits (s.byte (key + z / 2)).toNat (4 * (z % 2) + 3) (4 * (z % 2))
  else leNat (s.bytes (key + z * (ty.width / 8)) (ty.width / 8))

/-- The scales of a scaled tile at Z-order index `z`: the tile scale times the super-scale (R49, R50). -/
def State.tileScale (s : State) (ty : Ty) (key z : Nat) : FVal :=
  let line := key + tileElems ty
  let idx := if ty.width = 4 then z / 256 else z / 1024
  (Fmt.val .e3m5 (s.byte (line + idx)).toNat).mul (Fmt.val .bf16 (leNat (s.bytes (line + 16) 2)))

/-- Element (r, c) of a stored tile, transposed where `tr` says so (R306, R307). A poisoned block of elements or of scales gives no number: the
element fails (R192, R199). -/
def State.tileVal (s : State) (ty : Ty) (scaled tr : Bool) (key r c : Nat) : FVal :=
  let z := if tr then zIndex c r else zIndex r c
  if s.poisoned (key + z * ty.width / 8) || (scaled && s.poisoned (key + tileElems ty)) then .nan
  else
    let x := elemVal ty (s.tileBits ty key z)
    if !scaled then x
    else if x.isFin then (match s.tileScale ty key z with
      | .nan => .nan
      | k => x.mul k)
    else x.mul (s.tileScale ty key z)

/-- The bytes of a plain tile whose element (r, c) has encoding `f r c`, transposed where `tr` says so (R51, R313). `w` is the width in
bits; `inv` gives the position of each index. -/
def tileBytes (w : Nat) (f : Nat → Nat) : List Byte :=
  if w = 4 then (List.range 2048).map fun i => BitVec.ofNat 8 (f (2 * i) % 16 + 16 * (f (2 * i + 1) % 16))
  else (List.range 4096).flatMap fun z => natLe (w / 8) (f z)

/-- The row and column of a Z-order index (R50). -/
def zRowCol (z : Nat) : Nat × Nat :=
  (((List.range 6).map fun i => bits z (2 * i + 1) (2 * i + 1) * 2 ^ i).sum, ((List.range 6).map fun i => bits z (2 * i) (2 * i) * 2 ^ i).sum)

/-! ### Formats (R112, R298) -/

/-- The fields of `FMT`. -/
def fmtB (f : Word) : Ty := Ty.ofCode (f.extractLsb' 8 4)
def fmtO (f : Word) : Ty := Ty.ofCode (f.extractLsb' 12 4)
def fmtAsc (f : Word) : Bool := f.getLsbD 2
def fmtBsc (f : Word) : Bool := f.getLsbD 3

/-- A narrow floating-point operand type. -/
def isFp8 (ty : Ty) : Bool := ty == .e4m3 || ty == .e5m2

/-- The format pairs that a product accepts (R298). -/
def pairOk (a b : Ty) : Bool :=
  (a == .bf16 && b == .bf16) || (a == .f16 && b == .f16) || (a == .s8 && b == .s8) ||
    ((isFp8 a || a == .e2m1) && (isFp8 b || b == .e2m1))

/-- The wider of the two operand types. -/
def widerTy (a b : Ty) : Ty := if b.width > a.width then b else a

/-- The chunk length L (R60, R298). -/
def chunkLen (a b : Ty) : Nat := 64 / (widerTy a b).width

/-- The core cycles of a pass (R298). -/
def passCycles (a b : Ty) : Nat := 4 * (widerTy a b).width

/-! ### Accumulator rows -/

/-- The accumulator word at an absolute row and a column. -/
def Cluster.accGet (c : Cluster) (row col : Nat) : Word := SMap.get 0 c.acc (row * 64 + col)

/-- Writes an accumulator word. -/
def Cluster.accPut (c : Cluster) (row col : Nat) (w : Word) : Cluster := { c with acc := SMap.set 0 c.acc (row * 64 + col) w }

/-- Rows read +0. -/
def Cluster.clearRows (c : Cluster) (row n : Nat) : Cluster :=
  { c with acc := c.acc.filter fun e => !(decide (row * 64 ≤ e.1) && decide (e.1 < (row + n) * 64)) }

/-- Writes 64 rows, element by element. -/
def Cluster.fillTile (c : Cluster) (row : Nat) (f : Nat → Nat → Word) : Cluster :=
  (List.range 64).foldl (fun (c : Cluster) i => (List.range 64).foldl (fun (c : Cluster) n => c.accPut (row + i) n (f i n)) c) c

/-- Reads of accumulator rows meet their codes (R196). -/
def State.meetRows (s : State) (f : Finder) (v row n : Nat) : State :=
  (List.range n).foldl (fun (s : State) i => s.meetAcc f v (row + i)) s

/-- Rows written whole get new codes, and are no longer lost (R197, R199). -/
def State.newRows (s : State) (v row n : Nat) : State :=
  let new := fun (k : Nat) => decide (accErrKey v row ≤ k) && decide (k < accErrKey v (row + n))
  { s with codeErrs := s.codeErrs.filter fun e => !new e.1, poison := s.poison.filter fun e => !new e.1 }

/-- The draw of R59 for an accumulator element and step. -/
def Round.draw (r : Round) (q row col step : Nat) : Nat :=
  if r.rm = 5 then kg16 r.seed (0xC0000000 + q % 2 ^ 30) (row * 2 ^ 51 + col * 2 ^ 45 + step) else 0

/-- The step number of an output or down-conversion (R59). -/
def convStep : Nat := 0x1FFFFFFFFFFF

/-! ### Windows and membership (R299, R303) -/

/-- `MXGANG` from its fields (R299). -/
def mxgangWord (v pend : Bool) (rank n id : Nat) : Word :=
  BitVec.ofNat 32 ((if v then 2 ^ 31 else 0) + (if pend then 2 ^ 30 else 0) + rank * 2 ^ 8 + n * 2 ^ 4 + id)

/-- `MXWIN` of a window (R303). -/
def mxwinWord (base rows : Nat) : Word := BitVec.ofNat 32 (2 ^ 31 + (base + rows - 1) * 2 ^ 16 + base)

/-- The team's rank. -/
def Team.rank (t : Team) : Nat := bits t.mxgang.toNat 10 8
/-- `MXWIN`.V. -/
def Team.winV (t : Team) : Bool := t.mxwin.getLsbD 31
/-- `MXWIN`.BASE. -/
def Team.winBase (t : Team) : Nat := bits t.mxwin.toNat 12 0
/-- `MXWIN`.LIMIT. -/
def Team.winLimit (t : Team) : Nat := bits t.mxwin.toNat 28 16
/-- The relative rows from `r` on are valid (R303). -/
def Team.rowsOk (t : Team) (r n : Nat) : Bool := decide (n = 0) || decide (t.winBase + r + n - 1 ≤ t.winLimit)

/-- The cluster of the team's engines (R26). -/
def Team.clusterNo (t : Team) : Nat := clusterOf t.home

/-- A gang slot of a cluster. -/
def Cluster.gang? (c : Cluster) (id : Nat) : Option Gang := SMap.find c.gangs id

/-- The capture of rounding mode and seed at acceptance (R58). -/
def Team.round (t : Team) : Round := { rm := t.rm, seed := t.srSeed }

/-- A held member's arrival is withdrawn (R302). -/
def State.withdraw (s : State) (t : Team) : State :=
  let k := t.clusterNo
  let c := s.cluster k
  match c.gang? t.gangSlot with
  | none => s
  | some g =>
    if !t.inGang then s
    else if g.formed then
      s.putCluster k { c with gangs := SMap.put c.gangs t.gangSlot { g with latch := g.latch.filter fun a => a.uid != t.uid } }
    else
      let ms := g.members.filter fun m => m.uid != t.uid
      let gs := if ms.isEmpty then SMap.del c.gangs t.gangSlot else SMap.put c.gangs t.gangSlot { g with members := ms }
      (s.putCluster k { c with gangs := gs }).modTeam t.uid fun t => { t with mxgang := 0 }

/-- A gang instruction, `mx.gang` or `mx.mma`: one that fails its residue check under DROP cancels its gang's rendezvous (R191, R302). -/
def gangOp (i : Instr) (h : Hdr) (d : RegNo) (n : Nat) (srcs : List (RegNo × Nat))
    (k : State → Team → List Nat → Nat → List Nat → Res) (s : State) (t : Team) : Res :=
  let drops := match t.groupsFor h with
    | [] => false
    | lead :: _ =>
      let v := judge s t i 2 [lead] (fun g => operandChecks (t.groupSrcs srcs g).flatten) t.groupActive (fun _ => (0, false)) false
      v.stop.isNone && !v.failed.isEmpty
  match teamOp i h d n srcs k s t with
  | .done s' => .done (if drops && t.inGang then s'.cancelRendezvous t.clusterNo t.gangSlot else s')
  | r => r

/-- The state after an arrival at a gang slot (R300). -/
def Cluster.arriveGang (c : Cluster) (id n gid : Nat) (m : GangMember) : Cluster :=
  let g : Gang := (c.gang? id).getD
    { gid := gid, n := n, formed := false, formedAt := 0, rows := 0, base := none, members := [], latch := [] }
  { c with gangs := SMap.put c.gangs id { g with members := g.members ++ [m], rows := if m.rank = 0 then m.rows else g.rows } }

/-- `mx.gang` (R300). -/
def execMxGang (h : Hdr) (d a b : RegNo) (s : State) : Out State :=
  let i : Instr := .mxGang h d a b
  withTeam i s (gangOp i h d 1 [(a, 1), (b, 1)] fun s t gs _ vs =>
    let x := vs.headD 0
    let y := (vs[1]?).getD 0
    let id := bits x 3 0
    let n := bits x 6 4
    let rk := bits x 10 8
    let c := s.cluster t.clusterNo
    let clash := match c.gang? id with
      | none => false
      | some g => g.gid != t.gid || g.formed || g.n != n || g.members.any fun m => m.rank == rk
    if bits x 31 11 ≠ 0 ∨ bit x 7 ∨ n < 2 ∨ n > 6 ∨ rk ≥ n then .stop (Stop.of .gang) s
    else if t.inGang then .stop (Stop.of .gang) s
    else if clash then .stop (Stop.of .gang) s
    else if rk = 0 ∧ (y = 0 ∨ y % 64 ≠ 0 ∨ n * y > 8192) then .stop (Stop.of .window) s
    else if t.freeSlots.isEmpty then .hold s
    else
      let m : GangMember := { rank := rk, uid := t.uid, rows := y, d := d, groups := gs, handle := none, left := false, q := 0 }
      let s := s.putCluster t.clusterNo (c.arriveGang id n t.gid m)
      .hold ((s.modTeam t.uid fun t => { t with mxgang := mxgangWord false true rk n id }).holdTeam t.uid i.length .latch))

/-- A member of a gang that has formed gets its handle, and its `mx.gang` completes (R300). -/
def State.joinGang (s : State) (k id n : Nat) (m : GangMember) : State :=
  match s.team? m.uid with
  | none => s
  | some t =>
    match t.alloc 1 with
    | none => s
    | some (slot, hnd, t) =>
      let t := { t.sAll m.d.toNat m.groups [RWord.ofNat hnd.toNat] with mxgang := mxgangWord true false m.rank n id }
      let s := s.putTeam t
      let c := s.cluster k
      let s := match c.gang? id with
        | none => s
        | some g =>
          let who : HRef := { uid := t.uid, slot := slot, gid := t.gid }
          let ms := replaceWhere (fun (x : GangMember) => x.uid == t.uid) (fun x => { x with handle := some who }) g.members
          s.putCluster k { c with gangs := SMap.put c.gangs id { g with members := ms } }
      s.completeHeld t.uid

/-- GANG_FORM: all ranks have arrived; the gang forms and asks for its windows (R300). -/
def execGangForm (v id : Nat) (s : State) : Out State :=
  let c := s.cluster v
  .next (match c.gang? id with
    | none => s
    | some g =>
      if g.formed ∨ g.members.length < g.n then s
      else
        let s := s.putCluster v
          { c with
            gangs := SMap.put c.gangs id { g with formed := true, formedAt := s.ccOf v }
            winWait := c.winWait ++ [({ slot := id, since := s.ccOf v } : WinWait)] }
        g.members.foldl (fun (s : State) m => s.joinGang v id g.n m) s)

/-- The lowest free run of `n` accumulator rows (R300). -/
def Cluster.freeRows (c : Cluster) (n : Nat) : Option Nat :=
  let used := c.gangs.filterMap fun e => e.2.base.map fun b => (b, e.2.n * e.2.rows)
  let starts := sortBy (fun (a b : Nat) => decide (a < b)) (0 :: used.map fun u => u.1 + u.2)
  starts.find? fun b => decide (b + n ≤ 8192) && used.all fun u => decide (b + n ≤ u.1) || decide (u.1 + u.2 ≤ b)

/-- `MXCFG`.AGE (R317). -/
def Cluster.age (c : Cluster) : Nat := bits c.mxcfg.toNat 31 16
/-- `MXCFG`.GATE (R317). -/
def Cluster.gate (c : Cluster) : Nat := bits c.mxcfg.toNat 15 0

/-- The first waiting allocation that fits; one that has waited longer than AGE holds back those after it (R300). -/
def Cluster.nextWindow (c : Cluster) (now : Nat) : List WinWait → Option (Nat × Nat)
  | [] => none
  | w :: ws =>
    let fits := (c.gang? w.slot).bind fun g => c.freeRows (g.n * g.rows)
    match fits with
    | some b => some (w.slot, b)
    | none => if now - w.since > c.age then none else c.nextWindow now ws

/-- WINDOW_ALLOCATE: a waiting gang gets its windows, and every member's handle reads DONE (R300); where all have left meanwhile, the gang goes
(R304). -/
def execWindowAllocate (v : Nat) (s : State) : Out State :=
  let c := s.cluster v
  .next (match c.nextWindow (s.ccOf v) c.winWait with
    | none => s
    | some (id, base) =>
      match c.gang? id with
      | none => s
      | some g =>
        let c := (c.clearRows base (g.n * g.rows))
        let c := { c with
          gangs := SMap.put c.gangs id { g with base := some base }
          winWait := c.winWait.filter fun w => w.slot != id }
        let s := g.members.foldl (fun (s : State) m =>
          let s := if m.left then s else s.modTeam m.uid fun t => { t with mxwin := mxwinWord (base + m.rank * g.rows) g.rows }
          match m.handle with
          | some who => s.finish who .done none
          | none => s) ((s.putCluster v c).newRows v base (g.n * g.rows))
        s.putCluster v ((s.cluster v).freeGang id))

/-- `mx.free` (R304). -/
def execMxFree (h : Hdr) (s : State) : Out State :=
  let i : Instr := .mxFree h
  withTeam i s (teamOp i h 192 0 [] fun s t _ _ _ => .done (s.leaveGang t.uid))

/-! ### Checks of the window instructions and the product (R308, R310, R311) -/

/-- A control word's relative row. -/
def ctrlRow (x : Nat) : Nat := bits x 12 0
/-- A control word's DEP handle. -/
def ctrlDep (x : Nat) : BitVec 16 := BitVec.ofNat 16 (bits x 31 16)

/-- A tile at a vault address lies in a region of the grid (R259, R305). -/
def State.tileOk (s : State) (t : Team) (a n : Nat) : Bool :=
  match s.grid? t.gid with
  | some g => g.holdsVault a n
  | none => false

/-- The tiles of an operand lie in the grid's region of the vault that the address names (R305, R311). -/
def State.tilesOk (s : State) (t : Team) (a lay nk size : Nat) : Bool :=
  (List.range nk).all fun j =>
    let x := a + 64 * bits lay 11 0 * j
    x / 2 ^ 23 == a / 2 ^ 23 && s.tileOk t x size

/-- The check of a product's own operands, in the order of R311; none where it passes. `b` is the leader's B operand. -/
def State.mmaCheck (s : State) (t : Team) (acc : Bool) (a alay : Nat) (b : Option (Nat × Nat)) (ctrl : Nat) : Option Cause :=
  let f := t.top.fmt
  let ta := fmtA f
  let nk := bits alay 30 25 + 1
  let row := ctrlRow ctrl
  let broken := match (s.cluster t.clusterNo).gang? t.gangSlot with
    | some g => g.members.any fun m => m.left
    | none => true
  if !pairOk ta (fmtB f) then some .illegal
  else if acc && (ta == .s8 || fmtAsc f || bit alay 31 || bits alay 11 0 != 0) then some .illegal
  else if !t.mxgang.getLsbD 31 || broken then some .gang
  else if !t.winV || bits ctrl 15 13 != 0 || !t.rowsOk row 64 then some .window
  else if acc && (!t.rowsOk (bits a 12 0) (64 * nk) || (decide (row < bits a 12 0 + 64 * nk) && decide (bits a 12 0 < row + 64))) then
    some .window
  else if (!acc && a % 64 != 0) || b.any (fun x => x.1 % 64 != 0) then some .align
  else if bits alay 24 12 != 0 || b.any (fun x => bits x.2 30 12 != 0) then some .bounds
  else if acc && bits a 31 13 != 0 then some .bounds
  else if !acc && !s.tilesOk t a alay nk (tileSize ta (fmtAsc f)) then some .bounds
  else if b.any (fun x => !s.tilesOk t x.1 x.2 nk (tileSize (fmtB f) (fmtBsc f))) then some .bounds
  else none

/-- A stop for a failed check: ALIGN and BOUNDS name the lead group's lanes (R311). -/
def Team.mxStop (t : Team) (lead : Nat) (c : Cause) : Stop :=
  if c = .align ∨ c = .bounds then t.leadStop lead c else Stop.of c

/-- The F field of a product as the latch compares it. -/
def mmaF (acc z acq : Bool) : BitVec 7 := BitVec.ofNat 7 ((if acc then 1 else 0) + (if z then 2 else 0) + (if acq then 4 else 0))

/-- `mx.mma` (R301, R309 to R311): the member arrives at its latch. -/
def execMxMma (h : Hdr) (d a b c : RegNo) (acc z acq : Bool) (s : State) : Out State :=
  let i : Instr := .mxMma h d a b c acc z acq
  withTeam i s fun s t =>
    let lead0 := t.rank == 0
    gangOp i h d 1 ([(a, 2), (c, 1)] ++ if lead0 then [(b, 2)] else []) (fun s t gs lead vs =>
      let av := vs.headD 0
      let aa := av % 2 ^ 32
      let al := av / 2 ^ 32
      let ctrl := (vs[1]?).getD 0
      let bv := (vs[2]?).getD 0
      let bo := if lead0 then some (bv % 2 ^ 32, bv / 2 ^ 32) else none
      match s.mmaCheck t acc aa al bo ctrl with
      | some f => .stop (t.mxStop lead f) s
      | none =>
        if t.freeSlots.isEmpty then .hold s
        else withAcq acq s t fun s =>
          let k := t.clusterNo
          let cl := s.cluster k
          match cl.gang? t.gangSlot with
          | none => .stop (Stop.of .gang) s
          | some g =>
            let m : MmaArrival := {
              rank := t.rank, uid := t.uid, f := mmaF acc z acq, aAddr := BitVec.ofNat 32 aa, aLay := BitVec.ofNat 32 al,
              bAddr := BitVec.ofNat 32 bv, bLay := BitVec.ofNat 32 (bv / 2 ^ 32), ctrl := BitVec.ofNat 32 ctrl, fmt := t.top.fmt,
              d := d, groups := gs, pc := t.pc, ins := recWords i }
            let s := s.putCluster k { cl with gangs := SMap.put cl.gangs t.gangSlot { g with latch := g.latch ++ [m] } }
            .hold (s.holdTeam t.uid i.length .latch)) s t

/-- The members agree with the leader on F, NK and `FMT` (R301). -/
def latchAgrees (ms : List MmaArrival) (l : MmaArrival) : Bool :=
  ms.all fun m => m.f == l.f && m.fmt == l.fmt && m.aLay.extractLsb' 25 6 == l.aLay.extractLsb' 25 6

/-- A window's next sequence number (R59): the member's, which advances. -/
def Gang.takeQ (g : Gang) (uid : Nat) : Nat × Gang :=
  let q := ((g.members.find? fun m => m.uid == uid).map fun m => m.q).getD 0
  (q, { g with members := replaceWhere (fun (m : GangMember) => m.uid == uid) (fun m => { m with q := (m.q + 1) % 2 ^ 30 }) g.members })

/-- Takes a window's next sequence number at an engine. -/
def State.takeQ (s : State) (k id uid : Nat) : Nat × State :=
  let c := s.cluster k
  match c.gang? id with
  | none => (0, s)
  | some g =>
    let r := g.takeQ uid
    (r.1, s.putCluster k { c with gangs := SMap.put c.gangs id r.2 })

/-- Adds an entry to an engine's reservation table. -/
def State.addEntry (s : State) (k : Nat) (e : MxEntry) : State :=
  let c := s.cluster k
  s.putCluster k { c with entries := c.entries ++ [e] }

/-- The priority of a team's grid queue. -/
def State.gridPri (s : State) (gid : Nat) : Nat := match s.grid? gid with | some g => g.pri | none => 0

/-- An entry for a team's instruction with nothing of its own yet. -/
def State.entryFor (s : State) (t : Team) (ins : Nat × Nat) (who : HRef) (row : Nat) (deps : List (Nat × BitVec 16)) (fmt : Word) (rnd : Round)
    (q : Nat) (kind : MxKind) : MxEntry :=
  { id := s.nextId, joint := s.nextId, uid := t.uid, gid := t.gid, asid := t.asid, who := who, deps := deps, pri := s.gridPri t.gid,
    at_ := s.ccOf (clusterOf t.home), rank := t.rank, winBase := t.winBase, row := t.winBase + row, fmt := fmt, rnd := rnd, q := q, by_ := t.uid, pc := t.pc,
    ins := ins, inj := t.engineInj 4, kind := kind, tile := 0, sub := none, endsAt := 0, started := false }

/-- A part of a joint product is accepted: its member gets a handle and its instruction completes (R301, R312). -/
def State.acceptPart (s : State) (k id joint : Nat) (l : MmaArrival) (rnd : Round) (m : MmaArrival) : State :=
  match s.team? m.uid with
  | none => s
  | some t =>
    match t.alloc 1 with
    | none => s
    | some (slot, hnd, t) =>
      let s := s.putTeam (t.sAll m.d.toNat m.groups [RWord.ofNat hnd.toNat])
      let q := s.takeQ k id t.uid
      let s := q.2
      let kind := MxKind.mma (l.f.getLsbD 1) (l.f.getLsbD 0) m.aAddr m.aLay l.bAddr l.bLay (bits m.aLay.toNat 30 25 + 1)
      let deps := [(m.uid, ctrlDep m.ctrl.toNat), (l.uid, ctrlDep l.ctrl.toNat)]
      let e := s.entryFor t l.ins { uid := t.uid, slot := slot, gid := t.gid } (ctrlRow m.ctrl.toNat) deps l.fmt rnd q.1 kind
      let s := ({ s with nextId := s.nextId + 1 } : State).addEntry k { e with joint := joint, by_ := l.uid, pc := l.pc }
      (s.takeInj t.uid 4).completeHeld t.uid

/-- MMA_LATCH_COMPLETE: all members have arrived and enough entries are free: the product is accepted, or every member stops with GANG
(R301). -/
def execMmaLatchComplete (v id : Nat) (s : State) : Out State :=
  let c := s.cluster v
  .next (match c.gang? id with
    | none => s
    | some g =>
      if !g.formed ∨ g.latch.length < g.n ∨ c.entries.length + g.n > 64 then s
      else
        match g.latch.find? fun m => m.rank == 0 with
        | none => s
        | some l =>
          if !latchAgrees g.latch l then s.cancelRendezvous v id
          else
            let rnd := match s.team? l.uid with
              | some t => t.round
              | none => { rm := 0, seed := 0 }
            let ms := sortBy (fun (a b : MmaArrival) => decide (a.rank < b.rank)) g.latch
            let s := s.putCluster v { c with gangs := SMap.put c.gangs id { g with latch := [] } }
            ms.foldl (fun (s : State) m => s.acceptPart v id s.nextId l rnd m) s)

/-! ### Window instructions (R309 to R311, R313) -/

/-- Accepts a window instruction: a free entry, the handle, the window's next sequence number (R28, R313). -/
def acceptWindow (i : Instr) (d : RegNo) (ctrl : Nat) (acq : Bool) (kind : MxKind) (s : State) (t : Team) (gs : List Nat) : Res :=
  if (s.cluster t.clusterNo).entries.length ≥ 64 then .hold s
  else withAcq acq s t fun s => withHandle s t d gs 1 fun s who _ =>
    let q := s.takeQ t.clusterNo t.gangSlot t.uid
    let e := q.2.entryFor t (recWords i) who (ctrlRow ctrl) [(t.uid, ctrlDep ctrl)] t.top.fmt t.round q.1 kind
    let s := ({ q.2 with nextId := q.2.nextId + 1 } : State).addEntry t.clusterNo e
    .done (s.takeInj t.uid 4)

/-- `mx.zero` (R313). -/
def execMxZero (h : Hdr) (d a c : RegNo) (s : State) : Out State :=
  let i : Instr := .mxZero h d a c
  withTeam i s (teamOp i h d 1 [(a, 1), (c, 1)] fun s t gs _ vs =>
    let n := vs.headD 0
    let ctrl := (vs[1]?).getD 0
    if !t.winV ∨ bits ctrl 15 13 ≠ 0 ∨ n = 0 ∨ n > 128 ∨ !t.rowsOk (ctrlRow ctrl) (64 * n) then .stop (Stop.of .window) s
    else acceptWindow i d ctrl false (.zero n) s t gs)

/-- The checks of a vault tile (R311). -/
def State.windowCheck (s : State) (t : Team) (a ctrl size : Nat) : Option Cause :=
  if !t.winV || bits ctrl 15 13 != 0 || !t.rowsOk (ctrlRow ctrl) 64 then some .window
  else if a % 64 != 0 then some .align
  else if !s.tileOk t a size then some .bounds
  else none

/-- `mx.ld` (R313). -/
def execMxLd (h : Hdr) (ty : Ty) (d a c : RegNo) (tr acq : Bool) (s : State) : Out State :=
  let i : Instr := .mxLd h ty d a c tr acq
  withTeam i s (teamOp i h d 1 [(a, 1), (c, 1)] fun s t gs lead vs =>
    let x := vs.headD 0
    let ctrl := (vs[1]?).getD 0
    match s.windowCheck t x ctrl (tileSize ty false) with
    | some f => .stop (t.mxStop lead f) s
    | none => acceptWindow i d ctrl acq (.ld tr ty (BitVec.ofNat 32 x)) s t gs)

/-- `mx.st` (R313). -/
def execMxSt (h : Hdr) (d a c : RegNo) (tr clr acq rel : Bool) (s : State) : Out State :=
  let i : Instr := .mxSt h d a c tr clr acq rel
  withTeam i s (teamOp i h d 1 [(a, 1), (c, 1)] fun s t gs lead vs =>
    let x := vs.headD 0
    let ctrl := (vs[1]?).getD 0
    match s.windowCheck t x ctrl (tileSize (fmtO t.top.fmt) false) with
    | some f => .stop (t.mxStop lead f) s
    | none => acceptWindow i d ctrl acq (.st tr clr rel (BitVec.ofNat 32 x)) s t gs)

/-! ### The reservation table (R315, R316) -/

/-- What the DEP handles of an entry come to: still pending, complete, or ended FAULTED or CANCELLED (R315). -/
inductive Deps where
  | pending | ready | broken
  deriving DecidableEq, Repr

/-- The state of an entry's DEP handles. A table that is gone counts as complete. -/
def State.deps (s : State) (e : MxEntry) : Deps :=
  let sts := e.deps.map fun d => match s.team? d.1 with
    | some t => if bits d.2.toNat 15 13 = 0 then HStatus.done else t.hStatus d.2
    | none => HStatus.done
  if sts.any fun x => x == .faulted || x == .cancelled then .broken
  else if sts.any fun x => x == .pending then .pending
  else .ready

/-- The absolute rows that an entry still writes. -/
def MxEntry.writes (e : MxEntry) : Nat × Nat :=
  match e.kind with
  | .zero n => (e.row, 64 * n)
  | .st _ clr _ _ => (e.row, if clr then 64 else 0)
  | _ => (e.row, 64)

/-- The absolute rows that an entry still reads. -/
def MxEntry.reads (e : MxEntry) : Nat × Nat :=
  match e.kind with
  | .mma _ acc a _ _ _ nk => if acc then (e.winBase + bits a.toNat 12 0 + 64 * e.tile, 64 * (nk - e.tile)) else (e.row, 64)
  | .st .. => (e.row, 64)
  | _ => (e.row, 0)

/-- Two ranges of rows meet. -/
def rowsMeet (a b : Nat × Nat) : Bool := decide (0 < a.2) && decide (0 < b.2) && meets a.1 a.2 b.1 b.2

/-- An earlier entry of the same window stands before one (R315). -/
def MxEntry.blocks (e f : MxEntry) : Bool :=
  e.winBase == f.winBase && (rowsMeet e.writes f.writes || rowsMeet e.writes f.reads || rowsMeet e.reads f.writes)

/-- Entries, with those accepted before each, whose order lets them run. -/
def unblocked : List MxEntry → List MxEntry → List MxEntry
  | _, [] => []
  | before, e :: es => if before.any fun f => f.blocks e then unblocked (before ++ [e]) es else e :: unblocked (before ++ [e]) es

/-- The entries of an engine whose next step may start (R315). -/
def State.readyEntries (s : State) (k : Nat) : List MxEntry :=
  (unblocked [] (s.cluster k).entries).filter fun e => e.sub.isNone && !e.started && s.deps e == .ready

/-- An entry's priority for the arbiter (R316). -/
def MxEntry.prio (e : MxEntry) (now age : Nat) : Nat := if now - e.at_ > age then 3 else e.pri

/-- An entry is a matrix product. -/
def MxEntry.isMma (e : MxEntry) : Bool :=
  match e.kind with
  | .mma .. => true
  | _ => false

/-- The arbiter's order: the highest priority, then the earliest acceptance, then the lowest rank (R316). -/
def MxEntry.before (now age : Nat) (e f : MxEntry) : Bool :=
  if e.prio now age ≠ f.prio now age then decide (e.prio now age > f.prio now age)
  else if e.joint ≠ f.joint then decide (e.joint < f.joint)
  else decide (e.rank < f.rank)

/-- A sub-array is free: no pass runs on it (R316, R416). -/
def Cluster.subFree (c : Cluster) (now n : Nat) : Bool :=
  (c.entries.all fun e => e.sub != some n) && (c.subs[n]?).all fun x => decide (x.busyTill ≤ now)

/-- A sub-array has had no pass for `MXCFG`.GATE core cycles (R317). -/
def Cluster.gates (c : Cluster) (now : Nat) (x : SubArray) : Bool := c.gate != 0 && decide (now ≥ x.lastPass + c.gate)

/-- A free sub-array is gated, or is about to be (R317): one whose time has come gates in this cycle, looked at or not. -/
def Cluster.isGated (c : Cluster) (now n : Nat) : Bool := (c.subs[n]?).any fun x => x.gated || c.gates now x

/-- The sub-array that a grant takes: an awake one before a gated one, the lowest (R316, R317). -/
def Cluster.pickSub (c : Cluster) (now : Nat) : Option (Nat × Bool) :=
  let gated := fun (n : Nat) => c.isGated now n
  match (List.range 4).find? fun n => c.subFree now n && !gated n with
  | some n => some (n, false)
  | none => ((List.range 4).find? (c.subFree now)).map fun n => (n, true)

/-- `MXCAP`.WAKE (R317). -/
def wakeCycles : Nat := 96

/-- The cost of a pass, without its wake (R389). -/
def State.passCost (s : State) (e : MxEntry) : Nat :=
  match e.kind with
  | .mma _ acc .. => s.price 40 (widerTy (fmtA e.fmt) (fmtB e.fmt)).code.toNat + (if acc then s.price 41 0 else 0)
  | .draw .. => s.price 44 0
  | .fin _ => s.price 44 1
  | _ => 0

/-- The core cycles of a pass, without its wake (R298, R318, R358). -/
def MxEntry.cycles (e : MxEntry) : Nat :=
  match e.kind with
  | .mma _ acc .. => passCycles (fmtA e.fmt) (fmtB e.fmt) + (if acc then 8 else 0)
  | _ => 32

/-- Changes an entry of an engine. -/
def State.modEntry (s : State) (k id : Nat) (f : MxEntry → MxEntry) : State :=
  let c := s.cluster k
  s.putCluster k { c with entries := replaceWhere (fun (e : MxEntry) => e.id == id) f c.entries }

/-- Grants a pass of an entry to a sub-array: the unit pays, and a gated sub-array wakes with it (R317, R394). -/
def State.grantPass (s : State) (v : Nat) (e : MxEntry) : Option State :=
  match (s.cluster v).pickSub (s.ccOf v) with
  | none => none
  | some (n, wake) =>
    let cost := s.passCost e + (if wake then s.price 42 0 else 0)
    let d := e.cycles + (if wake then wakeCycles else 0)
    (s.grantWork v cost d).map fun s =>
      let c := s.cluster v
      let s := s.putCluster v { c with subs := c.subs.mapIdx fun i x => if i = n then { x with gated := false } else x }
      s.modEntry v e.id fun e => { e with sub := some n, endsAt := s.ccOf v + d }


/-- An entry ends: it leaves the table, its handle takes the status, and a gang that all have left may go (R304). -/
def State.endEntry (s : State) (v : Nat) (e : MxEntry) (st : HStatus) : State :=
  let c := s.cluster v
  let c := { c with entries := c.entries.filter fun x => x.id != e.id }
  let c := c.gangs.foldl (fun (c : Cluster) g => c.freeGang g.1) c
  (s.putCluster v c).finish e.who st none

/-- Cancels the entries whose DEP handles ended FAULTED or CANCELLED (R315). -/
def State.cancelBroken (s : State) (v : Nat) : State :=
  ((s.cluster v).entries.filter fun e => e.sub.isNone && !e.started && s.deps e == .broken).foldl
    (fun (s : State) e => s.endEntry v e .cancelled) s

/-! ### What a pass computes (R60, R308, R312) -/

/-- The exact sum of products, from the first (R60). -/
def exactSum (rm : Nat) : List FVal → FVal
  | [] => .fin false 0 0
  | x :: xs => xs.foldl (FVal.add rm) x

/-- The A element (i, k) of a k-tile: from the vault, or down-converted from the accumulator (R308). -/
def State.aElem (s : State) (c : Cluster) (e : MxEntry) (acc : Bool) (aAddr aLay : Word) (j i k : Nat) : FVal :=
  let ty := fmtA e.fmt
  if acc then
    let row := e.winBase + bits aAddr.toNat 12 0 + 64 * j + i
    match tyFmt ty with
    | some f => f.val (f.round e.rnd.rm (e.rnd.draw e.q row k convStep) (Fmt.val .f32 (c.accGet row k).toNat))
    | none => .nan
  else
    let key := vaultKey (aAddr.toNat + 64 * bits aLay.toNat 11 0 * j)
    s.tileVal ty (fmtAsc e.fmt) (aLay.getLsbD 31) key i k

/-- The B element (k, n) of a k-tile. -/
def State.bElem (s : State) (e : MxEntry) (bAddr bLay : Word) (j k n : Nat) : FVal :=
  s.tileVal (fmtB e.fmt) (fmtBsc e.fmt) (bLay.getLsbD 31) (vaultKey (bAddr.toNat + 64 * bits bLay.toNat 11 0 * j)) k n

/-- An accumulator element after the first `m` chunks of a k-tile (R60, R312). A zero product of INT8 elements carries the sign of its factors
(DESIGN CHOICE, log entry 72). -/
def mmaElem (e : MxEntry) (L m j row n : Nat) (a b : Nat → FVal) (old : Word) : Word :=
  BitVec.ofNat 32 ((List.range m).foldl (fun (acc : Nat) ch =>
    let sum := exactSum e.rnd.rm ((List.range L).map fun i => (a (ch * L + i)).mul (b (ch * L + i)))
    Fmt.round .f32 e.rnd.rm (e.rnd.draw e.q row n (j * (64 / L) + ch)) ((Fmt.val .f32 acc).add e.rnd.rm sum)) old.toNat)

/-- The pass of an entry's current k-tile (R312). -/
def State.runTile (s : State) (v : Nat) (e : MxEntry) (z acc : Bool) (aAddr aLay bAddr bLay : Word) : State :=
  let c := s.cluster v
  let j := e.tile
  let L := chunkLen (fmtA e.fmt) (fmtB e.fmt)
  let elem := fun (m i n : Nat) =>
    mmaElem e L m j (e.row + i) n (s.aElem c e acc aAddr aLay j i) (fun k => s.bElem e bAddr bLay j k n)
      (if z && j == 0 then 0 else c.accGet (e.row + i) n)
  let c' := c.fillTile e.row fun i n => if injFails e.inj && j == 0 && i == 0 && n == 0 then 0x7FC00000 else elem (64 / L) i n
  let s := (s.putCluster v c').newRows v e.row 64
  if j = 0 then s.settleElement e.inj 4 e.by_ e.asid e.pc e.ins (elem 1 0 0).toNat else s

/-- The command of an entry as a finder of storage errors. -/
def MxEntry.finder (e : MxEntry) (v : Nat) : Finder := Finder.command (4 * v) e.asid e.pc e.ins

/-- The operand tiles and rows of the current pass are read, meeting their codes (R196, R199). -/
def State.readOperands (s : State) (v : Nat) (e : MxEntry) (z acc : Bool) (aAddr aLay bAddr bLay : Word) : State :=
  let f := e.finder v
  let rd := fun (s : State) (a lay : Word) (ty : Ty) (sc : Bool) =>
    let x := a.toNat + 64 * bits lay.toNat 11 0 * e.tile
    (s.engineRead f (vaultKey x) x (tileSize ty sc)).1
  let s := if acc then s.meetRows f v (e.winBase + bits aAddr.toNat 12 0 + 64 * e.tile) 64 else rd s aAddr aLay (fmtA e.fmt) (fmtAsc e.fmt)
  let s := rd s bAddr bLay (fmtB e.fmt) (fmtBsc e.fmt)
  if z && e.tile == 0 then s else s.meetRows f v e.row 64

/-- MX_PASS_END: a pass of a product ends on a sub-array; the last one completes the part (R312). -/
def execMxPassEnd (v sub : Nat) (s : State) : Out State :=
  .next (match (s.cluster v).entries.find? fun e => e.sub == some sub && e.isMma with
    | none => s
    | some e =>
      if s.ccOf v < e.endsAt then s
      else
        match e.kind with
        | .mma z acc aA aL bA bL nk =>
          let s := s.readOperands v e z acc aA aL bA bL
          if !(s.cluster v).entries.contains e then s
          else
            let s := s.runTile v e z acc aA aL bA bL
            let c := s.cluster v
            let s := s.putCluster v { c with subs := c.subs.mapIdx fun i x => if i = sub then { x with lastPass := s.ccOf v } else x }
            if e.tile + 1 ≥ nk then s.endEntry v e .done
            else s.modEntry v e.id fun x => { x with sub := none, tile := e.tile + 1 }
        | _ => s)

/-! ### Window operations (R313) -/

/-- The cost and core cycles of a window operation's work (R318, R389). -/
def State.windowWork (s : State) (e : MxEntry) : Nat × Nat :=
  match e.kind with
  | .zero n => (n * s.price 43 0, 16 * n)
  | .ld .. => (s.price 43 1, 64)
  | .st .. => (s.price 43 2, 64)
  | _ => (0, 1)

/-- The exact FP32 value of an element (R313). -/
def toF32 (x : FVal) : Word := BitVec.ofNat 32 (Fmt.round .f32 0 0 x)

/-- The encoding of an accumulator element in an output format (R313). -/
def stElem (c : Cluster) (e : MxEntry) (r k : Nat) : Nat :=
  match tyFmt (fmtO e.fmt) with
  | none => 0
  | some f =>
    let w := (c.accGet (e.row + r) k).toNat
    if f = .f32 then w else f.round e.rnd.rm (e.rnd.draw e.q (e.row + r) k convStep) (Fmt.val .f32 w)

/-- What a failed output element is written with (R192). -/
def failedOut (ty : Ty) : Nat := match tyFmt ty with | none => 0 | some f => f.nan

/-- A window operation reads what it moves, meeting the codes of its tile's blocks or of its rows (R196, R199). -/
def State.readWindow (s : State) (v : Nat) (e : MxEntry) : State :=
  match e.kind with
  | .ld _ ty a => (s.engineRead (e.finder v) (vaultKey a.toNat) a.toNat (tileSize ty false)).1
  | .st .. => s.meetRows (e.finder v) v e.row 64
  | _ => s

/-- Performs a window operation. An `mx.st` has written its tile, with REL or without, before its handle reads DONE (R314). Its first element
may fail (R192, R203). -/
def State.runWindow (s : State) (v : Nat) (e : MxEntry) : State :=
  let c := s.cluster v
  let first := fun (i n : Nat) => injFails e.inj && i == 0 && n == 0
  let settle := fun (s : State) (w : Nat) => s.settleElement e.inj 4 e.by_ e.asid e.pc e.ins w
  match e.kind with
  | .zero n =>
    let c := c.clearRows e.row (64 * n)
    settle ((s.putCluster v (if injFails e.inj then c.accPut e.row 0 0x7FC00000 else c)).newRows v e.row (64 * n)) 0
  | .ld tr ty a =>
    let val := fun (i n : Nat) => toF32 (s.tileVal ty false tr (vaultKey a.toNat) i n)
    settle ((s.putCluster v (c.fillTile e.row fun i n => if first i n then 0x7FC00000 else val i n)).newRows v e.row 64) (val 0 0).toNat
  | .st tr clr _ a =>
    let bs := tileBytes (fmtO e.fmt).width fun z =>
      let p := zRowCol z
      if first p.1 p.2 then failedOut (fmtO e.fmt) else if tr then stElem c e p.2 p.1 else stElem c e p.1 p.2
    let s := State.writeRange (bs.length / 64 + 2) s (some e.asid) (vaultKey a.toNat) bs
    settle (if clr then (s.putCluster v (c.clearRows e.row 64)).newRows v e.row 64 else s) (stElem c e 0 0)
  | _ => s

/-- An entry is a window operation. -/
def MxEntry.isWindow (e : MxEntry) : Bool :=
  match e.kind with
  | .zero _ | .ld .. | .st .. => true
  | _ => false

/-- MX_WINDOW_OP_COMPLETE: a ready window operation is granted, and when its cycles have passed it writes its rows or its tile and completes
(R313, R315). Entries whose DEP ended FAULTED or CANCELLED go (R315). -/
def execMxWindowOpComplete (v op : Nat) (s : State) : Out State :=
  let s := s.cancelBroken v
  .next (match (s.cluster v).entries.find? fun e => e.id == op && e.isWindow with
    | none => s
    | some e =>
      if !e.started then
        if !(s.readyEntries v).contains e then s
        else
          let w := s.windowWork e
          match s.grantWork v w.1 w.2 with
          | none => s
          | some s => s.modEntry v op fun x => { x with started := true, endsAt := s.ccOf v + w.2 }
      else if s.ccOf v < e.endsAt then s
      else
        let s := s.readWindow v e
        if (s.cluster v).entries.contains e then (s.runWindow v e).endEntry v e .done else s)

/-- SUBARRAY_GATE: a sub-array without a pass for `MXCFG`.GATE core cycles power-gates (R317). -/
def execSubarrayGate (v sub : Nat) (s : State) : Out State :=
  let c := s.cluster v
  .next (match c.subs[sub]? with
    | none => s
    | some x =>
      if !x.gated ∧ c.subFree (s.ccOf v) sub ∧ c.gates (s.ccOf v) x then
        s.putCluster v { c with subs := c.subs.mapIdx fun i y => if i = sub then { y with gated := true } else y }
      else s)

end Sys2Proof.Machine
end

