-- ==== Sys2Proof/Machine/Page.lean ====
section
/-! DEFINITION. The page engine's instructions and events (R243 to R256): page requests, the probe, shootdown, migration, HOST pages and requests from
other devices. -/

namespace Sys2Proof.Machine

open Sys2Proof

/-! ### Residency (R245, R246) -/

/-- What the walk of a page request comes to (R246). -/
inductive PageOutcome where
  | resident
  | absent
  | unmapped
  | fault (c : Cause)
  | ats (pasid va : Nat)
  deriving DecidableEq, Repr

/-- A fresh walk of R238 up to the rights check, and the residency that R246 asks for. -/
def State.pageOutcome (s : State) (c : Ctx) (va : Nat) : PageOutcome :=
  match s.walk c va with
  | none => .unmapped
  | some l =>
    match (if l.isLocal s then s.checkLocal c va l else none) with
    | some .perm => .fault .perm
    | some _ => .fault .page
    | none =>
      if !l.res then .absent
      else if l.mode != 3 then .resident
      else
        match SMap.find s.ats (c.pasid * 2 ^ 52 + va / 4096) with
        | none => .ats c.pasid (va / 4096 * 4096)
        | some g => if g.r || g.w then .resident else .absent

/-- The page that a request names and whether it is a HOST page: the leaf's page, the 4 KiB page of the host, or the 512 KiB unit where no
leaf is found. -/
def State.requestPage (s : State) (c : Ctx) (va : Nat) : Nat × Bool :=
  match s.walk c va with
  | none => (va / 2 ^ 19 * 2 ^ 19, false)
  | some l => if l.mode = 3 then (va / 4096 * 4096, true) else (va / pageSize l.level * pageSize l.level, false)

/-- The 16 bytes of a page-request record (R246). -/
def requestRecord (va lin core : Nat) : List Byte := natLe 8 (va / 2 ^ 19 * 2 ^ 19) ++ natLe 4 lin ++ natLe 2 core ++ natLe 2 0

/-- Writes a page-request record, if it can be written (R246), once the host and other devices have answered for its place. -/
def State.fileRequest (s : State) (slot va lin core : Nat) : State :=
  let c := s.ctx slot
  let base := bits c.prqbase.toNat 55 12 * 2 ^ 12
  let at_ := base + 16 * (c.prqpos.toNat % 2 ^ min 16 (bits c.prqbase.toNat 4 0))
  if base = 0 then s
  else
    match s.vaRange c .write at_ 16 with
    | .ok ps => ((s.engineStore c at_ ps (requestRecord va lin core)).modCtx slot fun c => { c with prqpos := c.prqpos + 1 }).signal slot
    | .fault _ => s
    | .wait ns => { s.emitNeeds ns with recWaits := s.recWaits ++ [({ slot := slot, at_ := at_, what := .request va lin core } : RecWait)] }

/-- Joins or creates a pending request (R246): none where 64 others are pending. -/
def State.joinRequest (s : State) (t : Team) (va : Nat) (who : HRef) : Option State :=
  let c := s.ctxOf t
  let p := s.requestPage c va
  let same := fun (r : PageReq) => r.va == p.1 && r.host == p.2
  if c.pageReqs.any same then
    some (s.modCtx t.ctx fun c => { c with pageReqs := replaceWhere same (fun r => { r with waiters := r.waiters ++ [who] }) c.pageReqs })
  else if c.pageReqs.length ≥ 64 then none
  else
    let r : PageReq := { va := p.1, host := p.2, waiters := [who] }
    let s := s.modCtx t.ctx fun c => { c with pageReqs := c.pageReqs ++ [r] }
    let s := s.fileRequest t.ctx va t.lin t.home
    some (if p.2 then { s with outbox := s.outbox ++ [OutMsg.pri c.pasid p.1] } else s)

/-- Ends a pending request: every handle joined to it takes the status. -/
def State.endRequest (s : State) (slot : Nat) (r : PageReq) (st : HStatus) (f : Option Cause) : State :=
  let s := s.modCtx slot fun c => { c with pageReqs := c.pageReqs.filter fun x => x != r }
  r.waiters.foldl (fun (s : State) h => s.finish h st f) s

/-- Walks a pending page again (R246). -/
def State.rewalk (s : State) (slot : Nat) (r : PageReq) : State :=
  match s.pageOutcome (s.ctx slot) r.va with
  | .resident => s.endRequest slot r .done none
  | .absent => s
  | .unmapped => s.endRequest slot r .faulted (some .page)
  | .fault c => s.endRequest slot r .faulted (some c)
  | .ats p v => s.emitAts p v

/-- Walks the pending pages of a context that satisfy a test. -/
def State.rewalkWhere (s : State) (slot : Nat) (p : PageReq → Bool) : State :=
  ((s.ctx slot).pageReqs.filter p).foldl (fun (s : State) r => s.rewalk slot r) s

/-- `pg.req` (R246, R255). -/
def execPgReq (h : Hdr) (d a : RegNo) (s : State) : Out State :=
  let i : Instr := .pgReq h d a
  withTeam i s (teamOp i h d 1 [(a, 2)] fun s t gs lead vs =>
    let va := vs.headD 0
    if va ≥ 2 ^ 56 then .stop (t.leadStop lead .page) s
    else
      match s.pageOutcome (s.ctxOf t) va with
      | .ats p v => .hold (s.askAts t.uid [(p, v)])
      | o => withHandle s t d gs 4 fun s who _ =>
        if o = .resident then .done (s.finish who .done none)
        else .done ((s.joinRequest t va who).getD (s.finish who .faulted (some .page))))

/-! ### The probe (R256) -/

/-- The leaf that a TLB entry of the home controller or a walk gives for an address, with its checks of R238 (R234, R255). -/
def State.probeLeaf (s : State) (c : Ctx) (va : Nat) : Option (Leaf × Bool) :=
  match s.tlb.find? fun e => e.ctrl == homeCtrl va && e.asid == c.asid && e.page == va / pageSize e.leaf.level with
  | some e => some (e.leaf, !e.leaf.isLocal s || s.pkg.memKeys.contains e.leaf.key)
  | none =>
    match s.walk c va with
    | none => none
    | some l =>
      if l.isLocal s then
        match s.checkLocal c va l with
        | some .page => none
        | some _ => some (l, false)
        | none => some (l, true)
      else some (l, true)

/-- The ATS grant of an address's page. -/
def State.grant (s : State) (c : Ctx) (va : Nat) : Option AtsGrant := SMap.find s.ats (c.pasid * 2 ^ 52 + va / 4096)

/-- The page is moving at this home (R256). -/
def State.moving (s : State) (asid va : Nat) : Bool :=
  s.moves.any fun m => m.agreed && m.asid == asid && m.va == va / 2 ^ 19 * 2 ^ 19 && m.home == s.peerId

/-- The result of `pg.probe` (R256). -/
def State.probeWord (s : State) (c : Ctx) (va : Nat) : Nat :=
  match s.probeLeaf c va with
  | none => 0
  | some (l, ok) =>
    let g : AtsGrant := if l.mode = 3 then (s.grant c va).getD { r := false, w := false } else { r := true, w := true }
    let r := l.r && g.r
    let w := l.w && g.w
    let a := l.a && g.r && g.w
    let x := l.x && g.r
    let res := ok && l.res && r
    let b := fun (p : Bool) (n : Nat) => if p then 2 ^ n else 0
    2 ^ 31 + b res 30 + l.mode * 2 ^ 28 + b r 27 + b w 26 + b a 25 + b x 24 + (4 - l.level) * 2 ^ 22 + b (s.moving c.asid va) 21 +
      l.thr * 2 ^ 18 + l.peer * 2 ^ 9 + l.key

/-- `pg.probe` (R255, R256): for a HOST page the grant is asked for first. -/
def execPgProbe (h : Hdr) (d a : RegNo) (s : State) : Out State :=
  let i : Instr := .pgProbe h d a
  withTeam i s (teamOp i h d 1 [(a, 2)] fun s t gs _ vs =>
    let va := vs.headD 0
    let c := s.ctxOf t
    if va ≥ 2 ^ 56 then .done (s.answer t.uid d 1 gs 0)
    else
      match s.probeLeaf c va with
      | some (l, _) =>
        if l.mode = 3 ∧ l.res ∧ (s.grant c va).isNone then .hold (s.askAts t.uid [(c.pasid, va / 4096 * 4096)])
        else .done (s.answer t.uid d 1 gs (s.probeWord c va))
      | none => .done (s.answer t.uid d 1 gs 0))

/-! ### Shootdown (R247) -/

/-- Removes the translations of a range of an address space from the TLBs and the walkers' caches, the rights that last-level lines of the range
keep, and its L1 copies (R247). The loads and questions that were asked of other devices under them are asked again; the writes that used them
go on their way. -/
def State.shoot (s : State) (c : Ctx) (va n : Nat) : State :=
  let s := s.drain fun w => w.asid == c.asid && !w.vault && decide (va ≤ w.va) && decide (w.va < va + n)
  let s := { s.dropLines (fun k => k / 2 ^ 56 == c.asid && meets (k % 2 ^ 56 * 64) 64 va n) with
    tlb := s.tlb.filter fun e =>
      !(e.asid == c.asid && meets (e.page * pageSize e.leaf.level) (pageSize e.leaf.level) va n)
    walks := s.walks.filter fun e => !(e.asid == c.asid && meets (e.at_ * entrySpan e.level) (entrySpan e.level) va n)
    frames := s.frames.filter fun e => !(bits e.value 61 50 == c.asid && meets (bits e.value 49 13 * 2 ^ 19) (2 ^ 19) va n)
    ats := s.ats.filter fun e => !(e.1 / 2 ^ 52 == c.pasid && meets (e.1 % 2 ^ 52 * 4096) 4096 va n)
    remAsks := s.remAsks.filter fun a => !a.asks || !(a.asid == c.asid && meets a.va 64 va n) }
  s.dropL1All c.asid va n

/-- `pg.shoot` (R247, R255): after the release of the team's stores the translations go, and the handle is DONE once what has used them is
complete; until then the team waits. -/
def execPgShoot (h : Hdr) (d a b : RegNo) (s : State) : Out State :=
  let i : Instr := .pgShoot h d a b
  withTeam i s (teamOp i h d 1 [(a, 2), (b, 1)] fun s t gs lead vs =>
    let va := vs.headD 0
    let n := (vs[1]?).getD 0
    if va % 2 ^ 19 ≠ 0 then .stop (t.leadStop lead .align) s
    else if n = 0 ∨ n > 1048576 then .stop (t.leadStop lead .bounds) s
    else
      let s := if t.relIssue = some t.issued then s else (s.release t).shoot (s.ctxOf t) va (n * 2 ^ 19)
      if !s.released t.uid then .hold (s.modTeam t.uid fun u => { u with hold := .link })
      else withHandle s t d gs 4 fun s who _ =>
        .done ((s.finish who .done none).rewalkWhere t.ctx fun r => meets r.va 4096 va (n * 2 ^ 19)))

/-! ### Migration (R248 to R251) -/

/-- The address of the entry that a walk ends at. -/
def entryFrom (s : State) (va : Nat) : Nat → Nat → Nat → Nat
  | 0, _, t => t
  | fuel + 1, level, t =>
    let a := t + 8 * ptIndex level va
    let e := s.hbm64 a
    if bit e 63 && !bit e 62 then entryFrom s va fuel (level + 1) (bits e 38 9 * 2 ^ 9) else a

/-- Rewrites the level-4 leaf of a page: its new home, its frame here where it has one, and RES 1 (R249). -/
def State.rewriteLeaf (s : State) (c : Ctx) (va peer : Nat) (frame : Option Nat) : State :=
  let a := entryFrom s va 4 1 (bits c.ptbase.toNat 38 16 * 2 ^ 16)
  let e := withBits (withBits (s.hbm64 a) 55 47 peer) 34 34 1
  s.pokeHbm64 a (match frame with | some f => withBits e 33 14 f | none => e)

/-- Writes a frame-table entry (R239), which the walkers then read again. -/
def State.writeFrame (s : State) (f e : Nat) : State :=
  { s.pokeHbm64 (bits s.pkg.frtab.toNat 38 12 * 2 ^ 12 + 8 * f) e with frames := s.frames.filter fun x => x.frame != f }

/-- A record of the migration log (R251), which the context's vector signals (R439). -/
def State.logMove (s : State) (slot role asid va frame former new : Nat) : State :=
  let base := bits s.pkg.mlog.toNat 38 5 * 2 ^ 5
  let at_ := base + 32 * (s.pkg.mlogpos.toNat % 2 ^ min 16 (bits s.pkg.mlog.toNat 4 0))
  let ws := [s.time, va / 2 ^ 19 * 2 ^ 19 + role * 2 ^ 16 + asid, frame * 2 ^ 44 + former * 2 ^ 35 + new * 2 ^ 26, 0]
  let s := (ws.zip (List.range 4)).foldl (fun (s : State) (w : Nat × Nat) => s.pokeHbm64 (at_ + 8 * w.2) w.1) s
  ({ s with pkg := { s.pkg with mlogpos := s.pkg.mlogpos + 1 } } : State).signal slot

/-- Takes the frame at the head of the migration pool (R241, R249). -/
def State.takeFrame (s : State) : Option (Nat × State) :=
  if !s.poolHas then none
  else
    let base := bits s.pkg.mpool.toNat 38 12 * 2 ^ 12
    let at_ := base + 4 * (s.pkg.mphead.toNat % 2 ^ min 16 (bits s.pkg.mpool.toNat 4 0))
    some (leNat (s.bytes at_ 4), { s with pkg := { s.pkg with mphead := s.pkg.mphead + 1 } })

/-- The home's conditions for giving a page up (R249). -/
def State.canMove (s : State) (c : Ctx) (va : Nat) : Bool :=
  match s.walk c va with
  | none => false
  | some l =>
    l.res && l.movable && l.isLocal s && c.migen && !s.moves.any fun m => m.agreed && m.asid == c.asid && m.va == va && m.home == s.peerId

/-- The page's move at this device, with its place. -/
def State.move? (s : State) (slot va : Nat) (incoming : Bool) : Option Move :=
  s.moves.find? fun m => m.ctx == slot && m.va == va && (m.target == s.peerId) == incoming

/-- A move ends for its handles. -/
def State.endMove (s : State) (m : Move) (st : HStatus) (f : Option Cause) : State :=
  m.waiters.foldl (fun (s : State) h => s.finish h st f) { s with moves := s.moves.filter fun x => x != m }

/-- A migration of a page from a home to another device than this one, asked for by that device where `agreed` holds (R249). -/
def State.newMove (s : State) (slot va home target : Nat) (agreed : Bool) (ws : List HRef) : State :=
  let m : Move := {
    ctx := slot, asid := (s.ctx slot).asid, va := va, home := home, target := target, agreed := agreed, frame := none, held := false,
    queue := [], waiters := ws }
  { s with moves := s.moves ++ [m] }

/-- `pg.mig` (R249, R255). Where another device is to become the home, it is asked; it asks the home, or refuses (log entry 66). -/
def execPgMig (h : Hdr) (d a b : RegNo) (s : State) : Out State :=
  let i : Instr := .pgMig h d a b
  withTeam i s (teamOp i h d 1 [(a, 2), (b, 1)] fun s t gs lead vs =>
    let va := vs.headD 0
    let p := (vs[1]?).getD 0
    if va % 2 ^ 19 ≠ 0 then .stop (t.leadStop lead .align) s
    else if p ≥ 512 then .stop (t.leadStop lead .bounds) s
    else withHandle s t d gs 4 fun s who _ =>
      let c := s.ctxOf t
      let refuse := fun (s : State) => Res.done (s.finish who .faulted (some .page))
      match s.walk c va with
      | none => refuse s
      | some l =>
        if l.mode != 3 ∧ l.peer = p then .done (s.finish who .done none)
        else if l.mode = 3 then refuse s
        else if p = s.peerId then
          match s.requestMove c t.ctx va l.peer [who] with
          | some s => .done s
          | none => refuse s
        else if l.isLocal s && !s.canMove c va then refuse s
        else if !s.pkg.partSet then refuse s
        else .done ((s.newMove t.ctx va l.peer p false [who]).sendPort (OutMsg.mreq l.peer p c.asid va)))

/-- `pg.cnt` (R248, R255). -/
def execPgCnt (h : Hdr) (d a : RegNo) (s : State) : Out State :=
  let i : Instr := .pgCnt h d a
  withTeam i s (teamOp i h d 1 [(a, 2)] fun s t gs _ vs =>
    let va := vs.headD 0
    let asid := (s.ctxOf t).asid
    let page := va / 2 ^ 19 * 2 ^ 19
    if va ≥ 2 ^ 56 then .done (s.answer t.uid d 1 gs 0)
    else
      match s.migCount asid page with
      | none => .done (s.answer t.uid d 1 gs 0)
      | some m => .done ((s.setMigCount asid page 0).answer t.uid d 1 gs m.count))

/-- The context slot that a partition's `PART` register binds (R242, R444). -/
def State.partCtx (s : State) (part : Nat) : Option Nat :=
  let w := (SMap.get 0 s.pkg.part part).toNat
  if w.testBit 63 ∧ (s.ctx (bits w 37 32)).valid then some (bits w 37 32) else none

/-- The home agrees to give a page up to the device that asks for it, of its own or because this home has asked it to (R249). -/
def State.agreeMove (s : State) (slot page peer : Nat) : State :=
  match s.moves.find? fun m => m.ctx == slot && m.va == page && m.home == s.peerId && m.target == peer with
  | some m => { s with moves := replaceWhere (fun x => x == m) (fun x => { x with agreed := true }) s.moves }
  | none => s.newMove slot page s.peerId peer true []

/-- A migration that is refused ends for the handles that wait for it here (R255). -/
def State.refuseMoves (s : State) (p : Move → Bool) : State :=
  (s.moves.filter p).foldl (fun (s : State) m => s.endMove m .faulted (some .page)) s

/-- MREQ_ARRIVE: the home accepts the migration request of a device and starts copying, or refuses it. A device that is asked to become the home
asks for the page itself, unless `MIGEN` is 0 there or its pool is empty (R249; log entry 66). -/
def execMreqArrive (peer part va : Nat) (s : State) : Out State :=
  .next (match s.partCtx part with
    | none => s.sendPort (OutMsg.migRefuse peer 0 va)
    | some slot =>
      let page := va / 2 ^ 19 * 2 ^ 19
      let c := s.ctx slot
      let refuse := fun (s : State) (p : Nat) => s.sendPort (OutMsg.migRefuse p c.asid page)
      if peer = s.peerId then
        match s.walk c page with
        | none => s
        | some l => (s.requestMove c slot page l.peer []).getD (refuse s l.peer)
      else if s.canMove c page then s.agreeMove slot page peer
      else refuse (s.refuseMoves fun m => !m.agreed && m.ctx == slot && m.va == page && m.home == s.peerId && m.target == peer) peer)

/-- The asking device takes its frame when the home has accepted; with no frame left the move ends refused. -/
def State.acceptMove (s : State) (m : Move) : Option (Nat × State) :=
  match m.frame with
  | some f => some (f, s)
  | none => s.takeFrame

/-- The move by which a page comes here: the one asked for, or where none is known the one that its home's message begins, which `MIGEN` and
the pool let this device take (R249). -/
def State.incoming (s : State) (slot va : Nat) : Option Move :=
  match s.move? slot va true with
  | some m => some m
  | none =>
    match s.walk (s.ctx slot) va with
    | none => none
    | some l =>
      if !l.movable || l.isLocal s || !(s.ctx slot).migen || !s.poolHas then none
      else some {
        ctx := slot, asid := (s.ctx slot).asid, va := va, home := l.peer, target := s.peerId, agreed := true, frame := none, held := false,
        queue := [], waiters := [] }

/-- A page that its home offers and that this device does not take is refused to its home (R249). -/
def State.refuseIncoming (s : State) (slot va : Nat) : State :=
  match s.walk (s.ctx slot) va with
  | some l => if l.isLocal s then s else s.sendPort (OutMsg.migRefuse l.peer (s.ctx slot).asid va)
  | none => s

/-- The move of a page for which this device is the home, once the device that is to become it has asked (R249). -/
def State.outgoing (s : State) (slot va : Nat) : Option Move :=
  s.moves.find? fun m => m.agreed && m.ctx == slot && m.va == va && m.home == s.peerId

/-- MIGRATION_HOLD: at the home, requests for the page queue from now on; at the asking device, the accepted page has a frame (R249). -/
def execMigrationHold (slot va : Nat) (s : State) : Out State :=
  .next (match s.outgoing slot va with
    | some m =>
      let s := (s.drain fun w => w.asid == m.asid && !w.vault && w.va / 2 ^ 19 * 2 ^ 19 == va).ackAll
      { s with moves := replaceWhere (fun x => x == m) (fun x => { x with held := true }) s.moves }
    | none =>
      if (s.move? slot va false).isSome then s
      else
        match s.incoming slot va with
        | none => s.refuseIncoming slot va
        | some m =>
          match s.acceptMove m with
          | none => (s.refuseIncoming slot va).endMove m .faulted (some .page)
          | some (f, s) => { s with moves := (s.moves.filter fun x => x != m) ++ [{ m with frame := some f }] })

/-- Drops the TLB entries, kept lines and remote copies of a page (R249). -/
def State.forgetPage (s : State) (asid va : Nat) : State :=
  { s.dropLines (fun k => k / 2 ^ 56 == asid && meets (k % 2 ^ 56 * 64) 64 va (2 ^ 19)) with
    tlb := s.tlb.filter fun e => !(e.asid == asid && meets (e.page * pageSize e.leaf.level) (pageSize e.leaf.level) va (2 ^ 19))
    remote := s.remote.filter fun e => !(decide (spaceKey asid va ≤ e.1) && decide (e.1 < spaceKey asid va + 2 ^ 19)) }

/-- An owner as an ownership record names it between devices (R249; log entry 66): the device and core, or an atomic unit. -/
def State.ownerOut (s : State) (o : Nat) : Nat :=
  if o < atomicOwner then s.peerId * 512 + o else if o = atomicOwner then 2 ^ 18 else o - 1024

/-- The owner that a record between devices names, as this device records it. -/
def State.ownerIn (s : State) (x : Nat) : Nat :=
  if x ≥ 2 ^ 18 then atomicOwner else if x / 512 = s.peerId then x % 512 else 1024 + x

/-- The ownership records of a page's words (R249): 8 bytes each, the word's place in the page and its owner. -/
def State.ownerBytes (s : State) (asid va : Nat) : List Byte :=
  (s.owners.filter fun e => decide (spaceKey asid va ≤ e.1) && decide (e.1 < spaceKey asid va + 2 ^ 19)).flatMap fun e =>
    natLe 4 (e.1 % 2 ^ 19 / 4) ++ natLe 4 (s.ownerOut e.2)

/-- Takes the ownership records of a page's words; a word that none names has no owner. -/
def State.takeOwners (s : State) (asid va : Nat) (bs : List Byte) : State :=
  let m := s.owners.filter fun e => !(decide (spaceKey asid va ≤ e.1) && decide (e.1 < spaceKey asid va + 2 ^ 19))
  { s with owners := (List.range (bs.length / 8)).foldl (fun (m : SMap Nat) i =>
      let x := leNat ((bs.drop (8 * i)).take 8)
      SMap.put m (spaceKey asid (va + x % 2 ^ 17 * 4)) (s.ownerIn (x / 2 ^ 32))) m }

/-- The home gives up a page's ownership records; what the device's own cores own stays theirs. -/
def State.dropOwners (s : State) (asid va : Nat) : State :=
  { s with owners := s.owners.filter fun e =>
      !(decide (spaceKey asid va ≤ e.1) && decide (e.1 < spaceKey asid va + 2 ^ 19)) || decide (e.2 < atomicOwner) }

/-- This device becomes a page's home at the switch point: it takes the page's bytes and ownership records (R249). What its L1s hold of the page,
and the blocks of it that are on their way, may be older than what it has taken and are not kept (R284, R286). -/
def State.becomeHome (s : State) (m : Move) (f : Nat) (bytes : List Byte) : State :=
  let c := s.ctx m.ctx
  let s := (s.dropL1All m.asid m.va (2 ^ 19)).voidLoads m.asid m.va (2 ^ 19)
  let s := (State.writeRange 8193 s (some m.asid) (f * 2 ^ 19) (bytes.take (2 ^ 19))).takeOwners m.asid m.va (bytes.drop (2 ^ 19))
  let s := s.rewriteLeaf c m.va s.peerId (some f)
  let s := (s.writeFrame f (2 ^ 63 + m.asid * 2 ^ 50 + m.va / 2 ^ 19 * 2 ^ 13)).forgetPage m.asid m.va
  (s.logMove m.ctx 1 m.asid m.va f m.home s.peerId).endMove m .done none

/-- The access of a request for data goes to a device, or the one that would make a fourth hop fails (R243). -/
def forwardTo (peer : Nat) (r : RemoteReq) : OutMsg :=
  if r.hops ≥ 3 then OutMsg.replyFail r.peer r.va r.tag .page else OutMsg.forward peer { r with hops := r.hops + 1 }

/-- This device gives a page up at the switch point: the page with its ownership records and the queued requests go to the new home (R249,
R250). -/
def State.leaveHome (s : State) (m : Move) : State :=
  let s := s.drain fun w => w.asid == m.asid && !w.vault && w.va / 2 ^ 19 * 2 ^ 19 == m.va
  let c := s.ctx m.ctx
  match s.walk c m.va with
  | none => s.endMove m .faulted (some .page)
  | some l =>
    let bytes := s.bytes (l.frame * 2 ^ 19) (2 ^ 19) ++ s.ownerBytes m.asid m.va
    let s := s.rewriteLeaf c m.va m.target none
    let s := s.writeFrame l.frame (withBits (s.frameEntry l.frame) 63 63 0)
    let s := ((s.forgetPage m.asid m.va).dropL1All m.asid m.va (2 ^ 19)).dropOwners m.asid m.va
    let s := (OutMsg.migPage m.target m.asid m.va bytes :: m.queue.map (forwardTo m.target)).foldl State.sendPort s
    (s.logMove m.ctx 2 m.asid m.va l.frame s.peerId m.target).endMove m .done none

/-- MIGRATION_SWITCH: the switch point of a migration at this device, with the page's bytes and ownership records where it becomes the home; a
request made for another device is done (R249). -/
def execMigrationSwitch (slot va : Nat) (incoming : Bool) (bytes : List Byte) (s : State) : Out State :=
  .next (if incoming then
    match s.incoming slot va with
    | none => s.refuseIncoming slot va
    | some m =>
      match s.acceptMove m with
      | none => (s.refuseIncoming slot va).endMove m .faulted (some .page)
      | some (f, s') => s'.becomeHome m f bytes
  else
    match s.outgoing slot va with
    | some m => if m.held then s.leaveHome m else s
    | none =>
      match s.move? slot va false with
      | some m => if m.home = s.peerId then s else s.endMove m .done none
      | none => s)

/-! ### Requests from other devices (R242, R243) -/

/-- The access that a remote request makes. -/
def remoteAcc : RemoteOp → Acc
  | .store _ | .nibble .. => .write
  | .atomic .. | .cas .. => .atomic
  | .code _ => .fetch
  | .check acc _ => acc
  | _ => .read

/-- The bytes that a remote request touches. -/
def remoteSize : RemoteOp → Nat
  | .load n => n
  | .code n => n
  | .store bs => bs.length
  | .atomic _ ty _ _ _ => tyBytes ty
  | .cas ty _ _ => tyBytes ty
  | .check _ n => n
  | .nibble .. => 1
  | _ => 0

/-- The accesses of a request, each with its address, in lane order. -/
def reqOps (r : RemoteReq) : List (Nat × RemoteOp) := (r.va, r.op) :: r.more

/-- The answers whose revokes have been acknowledged go out (R284, R294). -/
def State.sendReplies (s : State) : State :=
  let waits := fun (x : Nat × OutMsg) => s.revokes.any fun r => decide (r.no < x.1)
  ((s.replies.filter fun x => !waits x).map Prod.snd).foldl State.sendPort { s with replies := s.replies.filter waits }

/-- Answers an access of another device once the previous owners of all that it can have written or seen have acknowledged their revokes: a write is
then registered, and what a read has observed too (R284, R285, R289, R294). -/
def State.answerPeer (s : State) (m : OutMsg) : State :=
  let s := s.ackAll
  ({ s with replies := s.replies ++ [(s.nextId, m)] } : State).sendReplies

/-- A write of `n` bytes leaves a part of a poisoned block unwritten, and so is not performed there (R199). -/
def State.storeLost (s : State) (key n : Nat) : Bool :=
  (List.range ((key % 64 + n + 63) / 64)).any fun i =>
    let b := (key / 64 + i) * 64
    s.poisoned b && !(decide (key ≤ b) && decide (b + 64 ≤ key + n))

/-- The bytes of a block that the stores of a request leave, the highest lane last, where they write all of it (R199, R267). -/
def wholeBlock (ops : List (Nat × RemoteOp)) : Option (List Byte) :=
  let bs := (List.range 64).map fun i =>
    (ops.filterMap fun o => match o.2 with
      | .store cs => if o.1 % 64 ≤ i then cs[i - o.1 % 64]? else none
      | _ => none).getLast?
  if bs.all Option.isSome then some (bs.map fun b => b.getD 0) else none

/-- Performs one access of a request at its home: the state and the bytes that the answer carries for it (R242, R271, R272). -/
def State.serveOp (s : State) (c : Ctx) (req : RemoteReq) (key : Nat) (o : Nat × RemoteOp) : State × List Byte :=
  let n := remoteSize o.2
  let old := s.bytes key n
  let unit := fun (x : Nat) => (s.engineStore c o.1 [(key, n)] (natLe n x), old)
  match o.2 with
  | .load _ | .code _ => (s, old)
  | .store bs => (s.peerStore c req.peer req.core o.1 key bs, [])
  | .atomic op ty x rm draw => unit (atomNew op ty (leNat old) x.toNat rm draw)
  | .cas ty cmp swap => unit (casNew ty.width (leNat old) cmp.toNat swap.toNat)
  | .nibble nib v => (s.peerStore c req.peer req.core o.1 key [withNibble (s.byte key) nib v], [])
  | _ => (s, [])

/-- Serves a remote request at the page's home, and replies (R242, R271): its accesses are performed together, in lane order, with nothing between
them (R261, R274). An access that meets a poisoned block is refused, but for a write of the whole block (R199). -/
def State.serveRemote (s : State) (c : Ctx) (req : RemoteReq) (key : Nat) : State :=
  let n := remoteSize req.op
  let s := s.drain fun w => meets w.key w.size (key / 64 * 64) (key % 64 + n + 64)
  let whole := if req.more.isEmpty then none else wholeBlock (reqOps req)
  let ops := match whole with | some bs => [(req.va / 64 * 64, RemoteOp.store bs)] | none => reqOps req
  let at_ := fun (o : Nat × RemoteOp) => key + o.1 - req.va
  let r := match req.op with
    | .store _ | .check .. => (s, false)
    | _ => s.engineRead (Finder.engine 0 c.asid 0) key req.va n
  let lost := r.2 || ops.any fun o => match o.2 with
    | .store bs => r.1.storeLost (at_ o) bs.length
    | _ => false
  let isStore := match req.op with | .store _ => true | _ => false
  if lost && !isStore then r.1.answerPeer (OutMsg.replyFail req.peer req.va req.tag .lost)
  else
    let done := ops.foldl (fun (x : State × List Byte) o =>
      let y := x.1.serveOp c req (at_ o) o
      (y.1, x.2 ++ y.2)) (r.1, [])
    done.1.answerPeer (if lost then OutMsg.replyFail req.peer req.va req.tag .lost else OutMsg.reply req.peer req.va req.tag done.2)

/-- The atomics that the link offers for a HOST page (R252). -/
def linkHas : RemoteOp → Bool
  | .atomic op .. => hostOp op
  | _ => true

/-- An access of another device is translated again, queued while its page is held, served at its home or forwarded; a fourth hop fails, and where
this device's entry governs and refuses it the answer says why (R242, R243, R245, R249, R252). -/
def State.arriveAccess (s : State) (req : RemoteReq) : State :=
  let fail := fun (s : State) (why : Refused) => s.sendPort (OutMsg.replyFail req.peer req.va req.tag why)
  match s.partCtx req.part with
  | none => fail s .page
  | some slot =>
    let c := s.ctx slot
    let used := s.useTlb c req.va
    match s.translate c req.va (remoteAcc req.op) with
    | .ok key l =>
      if l.mode = 3 ∧ !linkHas req.op then fail used .perm
      else if l.mode = 3 ∨ l.isLocal s then used.serveRemote c req key
      else used.sendPort (forwardTo l.peer req)
    | .ats p v => { used.emitAts p v with remoteWait := s.remoteWait ++ [req] }
    | .held =>
      match s.outgoing slot (req.va / 2 ^ 19 * 2 ^ 19) with
      | some m => { s with moves := replaceWhere (fun x => x == m) (fun x => { x with queue := x.queue ++ [req] }) s.moves }
      | none =>
        match s.darkAt c req.va with
        | [] => fail s .page
        | is => { used.wantIslands is with remoteWait := s.remoteWait ++ [req] }
    | .absent => fail used .absent
    | .fault .perm => fail used .perm
    | .fault .aliased => fail s .aliased
    | .fault _ => fail s .page

/-- The home of a page revokes what a core of this device holds of a word: its copies go, and with them the record that the device's cores own
the word (R284, R294). -/
def State.takeRevoke (s : State) (asid va core : Nat) : State :=
  let s := s.dropL1 core asid (va / 4 * 4) 4
  { s with
    remote := s.remote.filter fun e => !(decide (spaceKey asid (va / 4 * 4) ≤ e.1) && decide (e.1 < spaceKey asid (va / 4 * 4) + 4))
    owners := if SMap.find s.owners (spaceKey asid (va / 4 * 4)) = some core then SMap.del s.owners (spaceKey asid (va / 4 * 4)) else s.owners }

/-- A block that a prefetch has asked for arrives (R269): it is kept while its address still translates to where it came from. -/
def State.takePrefetch (s : State) (a : RemAsk) (level : Nat) (bs : List Byte) : State :=
  match s.ctxOfAsid a.asid with
  | none => s
  | some slot =>
    let c := s.ctx slot
    match s.translate c a.va .read with
    | .ok key l => if key = a.key then (s.keepBlock (if level = 0 then some a.core else none) c a.va l bs).fill c a.va l false else s
    | _ => s

/-- A block that an engine has asked for arrives: engines read it at the peer's key, and the last level keeps it where the page's mode lets it and
it may still be kept (R242, R290). -/
def State.takeEngineBlock (s : State) (a : RemAsk) (bs : List Byte) : State :=
  let s := s.poke a.key bs
  match s.ctxOfAsid a.asid with
  | none => s
  | some slot =>
    match s.leaf (s.ctx slot) a.va with
    | .ok l => if a.keep then s.keepBlock none (s.ctx slot) a.va l bs else s
    | .error _ => s

/-- Another block of the same bytes that is still out is no longer kept when it comes: its home may have served it earlier (R283). -/
def State.otherBlocks (s : State) (a : RemAsk) : State :=
  s.keepNone fun x => x.tag != a.tag && x.ans.isNone && x.asid == a.asid && x.va / 64 == a.va / 64

/-- A home refuses a write that the device has sent (R199, R265; log entries 64 and 65): its lanes are settled as those of a poisoned block, or the team
that made it has the cause. -/
def State.refuseWrite (s : State) (a : RemAsk) (uid : Nat) (why : Refused) : State :=
  match why with
  | .lost => a.writes.foldl State.recordPoison s
  | .perm => s.modTeam uid fun t => t.pendCause .perm
  | .aliased => s.modTeam uid fun t => t.pendCause .aliased
  | _ => s.modTeam uid fun t => t.pendCause .page

/-- A home answers an access of this device (R243): a question keeps its answer for the one who asked; a store or an atomic without a result is
registered, or refused (log entry 64). A write of a command that its home refuses keeps the answer, which the command then takes (R321). -/
def State.takeAnswer (s : State) (tag : Nat) (ans : RemAns) : State :=
  match s.remAsks.find? fun a => a.tag == tag && a.ans.isNone with
  | none => s
  | some a =>
    let done := { s with remAsks := s.remAsks.filter fun x => x.tag != tag }
    let keep := { s with remAsks := replaceWhere (fun x => x.tag == tag) (fun x => { x with ans := some ans, at_ := s.cc }) s.remAsks }
    match a.op, a.asker, ans with
    | .load _, .prefetch level, .bytes bs => if a.keep then (done.otherBlocks a).takePrefetch a level bs else done
    | .load _, .prefetch _, .refused _ => done
    | .load _, .engine, .bytes bs => (keep.otherBlocks a).takeEngineBlock a bs
    | .load _, .team _, .bytes _ => keep.otherBlocks a
    | .code _, _, .bytes bs => keep.poke a.key bs
    | .load _, _, .refused _ | .code _, _, .refused _ | .check .., _, _ => keep
    | _, .team uid, .bytes _ => if a.ret.isEmpty then done.endFence uid else keep
    | _, .team uid, .refused why => if a.ret.isEmpty then (done.refuseWrite a uid why).endFence uid else keep
    | _, _, .refused _ => if a.cmd.isSome then keep else done
    | _, _, .bytes _ => done

/-- What another device sends about an address: an access of it, or an answer, a revoke or its acknowledgement (R242, R243, R284, R294). -/
def State.arriveRemote (s : State) (req : RemoteReq) : State :=
  let asid := match s.partCtx req.part with | some slot => (s.ctx slot).asid | none => 0
  match req.op with
  | .data bs => s.takeAnswer req.tag (.bytes bs)
  | .refused why => s.takeAnswer req.tag (.refused why)
  | .revoke core => (s.takeRevoke asid req.va core).sendPort (OutMsg.revoked req.peer req.va core)
  | .revoked core =>
    let mine := fun (r : Revoke) => r.core == deviceOwner req.peer core && r.asid == asid && r.va == req.va
    ({ s with revokes := s.revokes.filter fun r => !mine r } : State).sendReplies
  | _ => s.arriveAccess req

/-- REMOTE_REQUEST_ARRIVE: a message of another device about an address arrives (R242, R243). -/
def execRemoteRequestArrive (req : RemoteReq) (s : State) : Out State := .next (s.arriveRemote req)

/-- MIGRATION_REFUSAL: the home, or the device that was to become it, has refused (R249, R255): the asking device logs ROLE 3, the handles of
`pg.mig` fault with PAGE, and a home that had begun applies the requests that it queued. -/
def execMigrationRefusal (slot va peer : Nat) (s : State) : Out State :=
  .next (match s.moves.find? fun m => m.ctx == slot && m.va == va && ((m.home == peer && m.home != s.peerId) || (m.target == peer && m.target != s.peerId)) with
    | none => s
    | some m =>
      let s := (if m.target = s.peerId then s.logMove m.ctx 3 m.asid m.va 0 m.home m.target else s).endMove m .faulted (some .page)
      m.queue.foldl State.arriveRemote s)

/-! ### HOST pages (R252, R253) -/

/-- PENDING_REQUEST_REWALK: the pending pages of a context are walked again (R246). -/
def execPendingRequestRewalk (slot : Nat) (s : State) : Out State := .next (s.rewalkWhere slot fun _ => true)

/-- The contexts of a PASID. -/
def State.pasidCtxs (s : State) (pasid : Nat) : List Nat := (s.ctxs.filter fun e => e.2.valid && e.2.pasid == pasid).map Prod.fst

/-- What an engine still has to write is tried again, now that the host or another device has answered (R252). -/
def State.retryRec (s : State) (w : RecWait) : State :=
  match w.what with
  | .bytes bs => s.writeRecord w.slot w.at_ bs
  | .request va lin core => s.fileRequest w.slot va lin core
  | .done q pos val => s.doneWord w.slot q pos w.at_ val.toNat
  | .prefetch core level => s.fetchBlock core level w.slot w.at_

/-- Tries everything again that engines still have to write. -/
def State.retryRecs (s : State) : State := s.recWaits.foldl State.retryRec { s with recWaits := [] }

/-- The host's translations are held by the 64 TLBs of 2,048 entries (R235, R252): beyond those one goes, which the spec does not name (log entry
11). -/
def State.boundAts (s : State) : State :=
  if s.ats.length < 131072 then s
  else
    let r := s.freeCtr
    { s with ats := s.ats.eraseIdx ((Config.freeValue r).toNat % s.ats.length), freeCtr := r + 1 }

/-- ATS_TRANSLATION_COMPLETION: the host answers a translation request; the accesses that waited for it go on (R252). -/
def execAtsTranslationCompletion (pasid va : Nat) (r w : Bool) (s : State) : Out State :=
  let page := va / 4096 * 4096
  let old := s.remoteWait
  let s := { s.boundAts with
    ats := SMap.put s.boundAts.ats (pasid * 2 ^ 52 + va / 4096) { r := r, w := w }
    outbox := s.outbox.filter fun m => m != OutMsg.ats pasid page
    teams := s.teams.map fun (t : Team) => if t.hold = Hold.ats pasid page then { t with hold := Hold.free } else t
    remoteWait := [] }
  let s := (old.foldl State.arriveRemote s).retryRecs
  .next ((s.pasidCtxs pasid).foldl (fun (s : State) k => s.rewalkWhere k fun q => q.host && q.va == page) s)

/-- ATS_INVALIDATE: the named translations and the L1 copies of the range go, after the accesses that used them (R253). -/
def execAtsInvalidate (pasid va n : Nat) (s : State) : Out State :=
  let ks := s.pasidCtxs pasid
  let s := s.drain fun w => meets w.key w.size (hostKey pasid va) n
  let s := { s with
    ats := s.ats.filter fun e => !(e.1 / 2 ^ 52 == pasid && meets (e.1 % 2 ^ 52 * 4096) 4096 va n)
    outbox := s.outbox ++ [OutMsg.invalidateDone pasid va] }
  let s := ks.foldl (fun (s : State) k => s.dropL1All (s.ctx k).asid va n) s
  .next (ks.foldl (fun (s : State) k => s.rewalkWhere k fun q => q.host && meets q.va 4096 va n) s)

/-- PRI_RESPONSE: on Success the page is walked again with a new translation; any other response faults its handles with PAGE (R252). -/
def execPriResponse (pasid va : Nat) (success : Bool) (s : State) : Out State :=
  let page := va / 4096 * 4096
  let s := { s with outbox := s.outbox.filter fun m => m != OutMsg.pri pasid page }
  let mine := fun (q : PageReq) => q.host && q.va == page
  .next ((s.pasidCtxs pasid).foldl (fun (s : State) k =>
    if success then
      ({ s with ats := if (SMap.find s.ats (pasid * 2 ^ 52 + va / 4096)).any (fun g => g.r || g.w) then s.ats
                       else SMap.del s.ats (pasid * 2 ^ 52 + va / 4096) } : State).rewalkWhere k mine
    else ((s.ctx k).pageReqs.filter mine).foldl (fun (s : State) r => s.endRequest k r .faulted (some .page)) s) s)

end Sys2Proof.Machine
end

