-- ==== Sys2Proof/Machine/Copy.lean ====
section
/-! DEFINITION. Shape records and the copy engine (R95 to R98, R319 to R333): reading a record, where its elements lie, the copy instructions,
promises, tags, and the transfers. -/

namespace Sys2Proof.Machine

open Sys2Proof

/-! ### Shape records (R95 to R97) -/

/-- A record as its 256 bytes, read as one number, give it. A non-zero stride of a dimension at or above NDIM makes it malformed (DEDUCED, log entry
17). -/
def Shape.ofNat (x : Nat) : Shape :=
  let h := field x 0 8
  let nd := bits h 55 52
  { v := bit h 63, rd := bit h 62, wr := bit h 61, mc := bit h 60, off := bit h 59, ndim := nd, ty := Ty.ofCode (BitVec.ofNat 4 (bits h 51 48)),
    lay := bits h 47 46, space := bits h 45 44, addr := field x 8 8, ext := (List.range nd).map fun d => field x (16 + 4 * d) 4,
    str := (List.range nd).map fun d => signedVal 64 (field x (56 + 8 * d) 8), limit := field x 136 8,
    ok := bits h 58 56 == 0 && bits h 43 0 == 0 && field x 144 112 == 0 && decide (1 ≤ nd) && decide (nd ≤ 10) &&
      ((List.range 10).all fun d => (field x (16 + 4 * d) 4 == 0) == decide (d ≥ nd)) &&
      ((List.range 10).all fun d => decide (d < nd) || field x (56 + 8 * d) 8 == 0) }

/-- The element types that a layout takes (R319). -/
def layTakes (lay : Nat) (ty : Ty) : Bool :=
  match lay with
  | 0 => true
  | 1 => !ty.is64
  | 2 => ty == .s8 || ty == .e4m3 || ty == .e2m1 || ty == .e5m2
  | _ => false

/-- The record keeps R96 and R97. Bits of ADDR above the address are reserved (log entry 17). -/
def Shape.wellFormed (sh : Shape) : Bool :=
  sh.ok && decide (sh.lay < 3) && decide (sh.space < 2) && layTakes sh.lay sh.ty && decide (1 ≤ sh.limit) && decide (sh.limit ≤ 2 ^ 56) &&
    decide (sh.addr < if sh.space = 0 then 2 ^ 56 else 2 ^ 30)

/-- What reading a record comes to. -/
inductive RecRes where
  | ok (sh : Shape)
  | fault (c : Cause)
  | wait (needs : List Need)
  deriving DecidableEq, Repr

/-- The address of a record (R96). -/
def Ctx.recordAt (c : Ctx) (idx : Nat) : Nat := bits c.otbase.toNat 55 8 * 2 ^ 8 + 256 * idx

/-- An index register names an entry of the table (R97). -/
def Ctx.hasRecord (c : Ctx) (idx : Nat) : Bool := decide (idx < 2 ^ 16) && decide (idx < bits c.otlen.toNat 16 0)

/-- Reads a record by its index register and checks it with the command's role (R97). One that lies in a poisoned block cannot be read: PAGE
(log entry 65). -/
def State.record (s : State) (c : Ctx) (idx : Nat) (role : Shape → Bool) : RecRes :=
  if !c.hasRecord idx then .fault .bounds
  else
    match s.vaRange c .read (c.recordAt idx) 256 with
    | .fault .aliased => .fault .page
    | .fault f => .fault f
    | .wait n => .wait n
    | .ok ps =>
      let sh := Shape.ofNat (leNat (s.partsBytes ps))
      if s.partsLost ps then .fault .page
      else if !sh.v then .fault .rights
      else if !sh.wellFormed then .fault .bounds
      else if !role sh then .fault .rights
      else .ok sh

/-! ### Where elements lie (R319) -/

/-- The index vector of a linear index, dimension 0 innermost. -/
def unflat : List Nat → Nat → List Nat
  | [], _ => []
  | e :: es, k => k % e :: unflat es (k / e)

/-- Σ i·STR over dimensions. -/
def dotStr : List Nat → List Int → Int
  | i :: is, t :: ts => (i : Int) * t + dotStr is ts
  | _, _ => 0

/-- The number of elements. -/
def Shape.count (sh : Shape) : Nat := sh.ext.foldl (fun (a : Nat) e => a * e) 1

/-- The element at a linear index: its byte offset from ADDR, and for 4-bit types its nibble. -/
def Shape.place (sh : Shape) (k : Nat) : Int × Nat :=
  let w := sh.ty.width / 8
  match unflat sh.ext k, sh.str with
  | i0 :: is, s0 :: ss =>
    if sh.lay = 0 then
      if sh.ty.width = 4 then (dotStr is ss + (i0 / 2 : Nat), i0 % 2) else (dotStr is ss + (i0 * w : Nat), 0)
    else
      match is, ss with
      | i1 :: js, s1 :: ts =>
        let base := ((i0 / 64 : Nat) : Int) * s0 + ((i1 / 64 : Nat) : Int) * s1 + dotStr js ts
        let z := zIndex (i1 % 64) (i0 % 64)
        if sh.ty.width = 4 then (base + (z / 2 : Nat), z % 2) else (base + (z * w : Nat), 0)
      | _, _ => (0, 0)
  | _, _ => (0, 0)

/-- The blocks of a record of scaled super-tiles, as extents in blocks. -/
def Shape.blockExt (sh : Shape) : List Nat :=
  match sh.ext with
  | e0 :: e1 :: es => e0 / 64 :: e1 / 64 :: es
  | es => es

/-- The offsets of the scale lines of a record, block by block. -/
def Shape.lines (sh : Shape) : List Int :=
  if sh.lay ≠ 2 then []
  else (List.range (sh.blockExt.foldl (fun (a : Nat) e => a * e) 1)).map fun k =>
    dotStr (unflat sh.blockExt k) sh.str + (tileElems sh.ty : Nat)

/-- The offset of the scale line that an element's block has (R319). -/
def Shape.lineOf (sh : Shape) (k : Nat) : Int :=
  match unflat sh.ext k with
  | i0 :: i1 :: js => dotStr (i0 / 64 :: i1 / 64 :: js) sh.str + (tileElems sh.ty : Nat)
  | _ => 0

/-- The offsets of the scale lines that go with `n` elements from a linear index on, in the order in which the elements reach their blocks (R319). -/
def Shape.linesFor (sh : Shape) (lo n : Nat) : List Int :=
  if sh.lay ≠ 2 then [] else ((List.range n).map fun m => sh.lineOf (lo + m)).foldl (fun (l : List Int) z => if l.contains z then l else l ++ [z]) []

/-- The bytes of the innermost run: a line of elements, or a tile. -/
def Shape.lastBytes (sh : Shape) : Nat :=
  if sh.lay = 0 then (sh.ext.headD 0 * sh.ty.width + 7) / 8 else tileSize sh.ty (sh.lay == 2)

/-- The steps of the extremes: (extent − 1) times stride, for the dimensions that move a run or tile. -/
def Shape.steps (sh : Shape) : List Int :=
  let f := fun (p : Nat × Int) => ((p.1 : Int) - 1) * p.2
  if sh.lay = 0 then ((sh.ext.zip sh.str).drop 1).map f else (sh.blockExt.zip sh.str).map f

/-- The lowest byte offset from ADDR and one past the highest (R320). -/
def Shape.extremes (sh : Shape) : Int × Int :=
  ((sh.steps.map fun z => min 0 z).sum, (sh.steps.map fun z => max 0 z).sum + (sh.lastBytes : Nat))

/-- A condition of R319 on ADDR, STR0 or STR1 fails. -/
def Shape.misaligned (sh : Shape) : Bool :=
  let w : Int := (sh.ty.width / 8 : Nat)
  let s0 := sh.str.headD 0
  let s1 := (sh.str[1]?).getD 0
  if sh.lay ≠ 0 then sh.addr % 64 != 0 || s0 % 64 != 0 || s1 % 64 != 0
  else if sh.ty.width = 4 then s0 != 0
  else s0 != w || (sh.addr : Int) % w != 0 || s1 % w != 0

/-- Another condition of R319 fails. -/
def Shape.badLayout (sh : Shape) : Bool :=
  let e0 := sh.ext.headD 0
  let w : Int := (sh.ty.width / 8 : Nat)
  if sh.lay ≠ 0 then decide (sh.ndim < 2) || e0 % 64 != 0 || (sh.ext[1]?).getD 0 % 64 != 0
  else if sh.ty.width = 4 then e0 % 2 != 0
  else (sh.str.drop 2).any fun z => z % w != 0

/-- Some byte lies outside LIMIT, or outside the grid's region of the vault (R320). -/
def State.outside (s : State) (t : Team) (sh : Shape) : Bool :=
  let x := sh.extremes
  decide (x.1 < 0) || decide (x.2 > (sh.limit : Int)) || (sh.space == 1 && !s.tileOk t (sh.addr + x.1.toNat) (x.2 - x.1).toNat)

/-- The byte ranges between the extremes of two records meet. -/
def Shape.overlaps (d src : Shape) (shift : Int) : Bool :=
  let x := d.extremes
  let y := src.extremes
  d.space == src.space && decide ((src.addr : Int) + y.1 < (d.addr : Int) + shift + x.2) && decide ((d.addr : Int) + shift + x.1 < (src.addr : Int) + y.2)

/-- Source and destination agree (R320). -/
def Shape.matches_ (d src : Shape) : Bool := d.ty == src.ty && d.ndim == src.ndim && d.ext == src.ext && (d.lay == 2) == (src.lay == 2)

/-- The checks of R320 after R97, but for the overlap. -/
def State.pairCheck (s : State) (t : Team) (d src : Shape) : Option Cause :=
  if d.misaligned || src.misaligned then some .align
  else if d.badLayout || src.badLayout then some .bounds
  else if s.outside t d || s.outside t src then some .bounds
  else if !d.matches_ src then some .bounds
  else none

/-! ### Reading and writing a space -/

/-- What an engine's access comes to: bytes (and whether a block is poisoned), a fault, or what it waits for. -/
inductive SpRes where
  | ok (s : State) (bs : List Byte) (bad : Bool)
  | fault (c : Cause)
  | wait (needs : List Need)

/-- ALIAS reaches an engine as PAGE (R238). -/
def engineCause (c : Cause) : Cause := if c = .aliased then .page else c

/-- An engine reads bytes of a space: global memory of a context, or a vault. -/
def State.spaceRead (s : State) (f : Finder) (c : Ctx) (space a n : Nat) : SpRes :=
  if space = 1 then
    let r := s.engineRead f (vaultKey a) a n
    .ok r.1 (r.1.bytes (vaultKey a) n) r.2
  else
    match s.vaRange c .read a n with
    | .fault e => .fault (engineCause e)
    | .wait n => .wait n
    | .ok ps =>
      let r := (s.useRange c a n).engineParts f a ps
      .ok r.1 (r.1.partsBytes ps) r.2

/-- An engine writes bytes of a space. -/
def State.spaceWrite (s : State) (c : Ctx) (space a : Nat) (bs : List Byte) : SpRes :=
  if space = 1 then .ok (State.writeRange (bs.length / 64 + 2) s (some c.asid) (vaultKey a) bs) [] false
  else
    match s.vaRange c .write a bs.length with
    | .fault e => .fault (engineCause e)
    | .wait n => .wait n
    | .ok ps => .ok (s.engineStore c a ps bs) [] false

/-- An engine writes one nibble of a byte, which is merged at its home (R321). -/
def State.nibbleWrite (s : State) (f : Finder) (c : Ctx) (space a nib v : Nat) : SpRes :=
  if space = 1 then
    let s := s.readBlock f (vaultKey a) a
    s.spaceWrite c 1 a [withNibble (s.byte (vaultKey a)) nib v]
  else
    match s.vaRange c .write a 1 with
    | .fault e => .fault (engineCause e)
    | .wait n => .wait n
    | .ok ps => .ok (ps.foldl (fun (s : State) p => (s.readBlock f p.1 a).engineNibble c a p.1 nib v) s) [] false

/-- The bytes of a space where they can be read without an error; nothing is met, counted or recorded. -/
def State.spacePeek (s : State) (c : Ctx) (space a n : Nat) : Option (List Byte) :=
  let sound := fun (p : Nat × Nat) => (List.range ((p.1 + p.2 + 63) / 64 - p.1 / 64)).all fun i =>
    !s.blockLost (p.1 / 64 + i) && SMap.find s.codeErrs (p.1 / 64 + i) != some .ue
  if space = 1 then if sound (vaultKey a, n) then some (s.bytes (vaultKey a) n) else none
  else
    match s.vaRange c .read a n with
    | .ok ps => if ps.all sound then some (s.partsBytes ps) else none
    | _ => none

/-! ### Moving elements (R319, R320, R321, R323, R324) -/

/-- An address from a base and an offset. -/
def addAddr (a : Nat) (z : Int) : Nat := ((a : Int) + z).toNat

/-- A free choice (log entry 5). -/
def State.freeBit (s : State) : Bool × State := (s.fresh.1.getLsbD 0, s.fresh.2)

/-- The bytes of an element, or the byte that holds it. -/
def Shape.elemBytes (sh : Shape) : Nat := max 1 (sh.ty.width / 8)

/-- The strides keep the runs, or the tiles, of a record apart: no two elements map to one byte. -/
def Shape.apart (sh : Shape) : Bool :=
  let dims := ((if sh.lay = 0 then (sh.ext.zip sh.str).drop 1 else sh.blockExt.zip sh.str).filter fun p => decide (p.1 > 1)).zipIdx
  dims.all fun x =>
    let under := (dims.filter fun y => y.2 != x.2 && decide (y.1.2.natAbs ≤ x.1.2.natAbs)).map fun y => (y.1.1 - 1) * y.1.2.natAbs
    decide (sh.lastBytes + under.sum ≤ x.1.2.natAbs)

/-- Byte `i` of element `k` is also a byte of one of other elements, or of one of some scale lines (R320). -/
def Shape.meetsAny (sh : Shape) (others : List Nat) (lines : List Int) (k i : Nat) : Bool :=
  let p := sh.place k
  let o := p.1 + i
  (others.any fun j =>
    let q := sh.place j
    decide (q.1 ≤ o) && decide (o < q.1 + sh.elemBytes) && q.2 == p.2) ||
  lines.any fun z => decide (z ≤ o) && decide (o < z + 64)

/-- Writes bytes one by one, or one nibble of a byte; where another value of the command lies already, which one stays is free (R320). -/
def putOpen (c : Ctx) (f : Finder) (space : Nat) (nib : Option (Nat × Nat)) : List (Byte × Bool) → Nat → State → SpRes
  | [], _, s => .ok s [] false
  | (b, contested) :: r, a, s =>
    let choice : Bool × State := if contested then s.freeBit else (false, s)
    if choice.1 then putOpen c f space nib r (a + 1) choice.2
    else
      match (match nib with
        | some x => choice.2.nibbleWrite f c space a x.1 x.2
        | none => choice.2.spaceWrite c space a [b]) with
      | .ok s _ _ => putOpen c f space nib r (a + 1) s
      | e => e

/-- A scale line as an engine writes it: reserved bytes are zero (R50). -/
def cleanLine (ty : Ty) (bs : List Byte) : List Byte :=
  let n := if ty.width = 4 then 16 else 4
  bs.take n ++ List.replicate (16 - n) 0 ++ (bs.drop 16).take 2 ++ List.replicate 46 0

/-- What a piece writes of a byte: its low and its high nibble, each only where an element of the piece lies there. -/
structure Halves where
  lo : Option Nat
  hi : Option Nat
  deriving DecidableEq, Repr

/-- A copy's piece in progress: the state after its reads, what it will write at each destination address, and its items skipped for an error. -/
structure Piece where
  s : State
  puts : SMap Halves
  skips : List Nat

/-- What moving items comes to. -/
inductive PieceRes where
  | ok (p : Piece)
  | fault (c : Cause)
  | wait (needs : List Need)

/-- Puts a byte, or one nibble of it, among a piece's writes. -/
def Piece.put (p : Piece) (a : Nat) (nib : Option Nat) (v : Nat) : Piece :=
  let old := (SMap.find p.puts a).getD { lo := none, hi := none }
  let new : Halves := match nib with
    | none => { lo := some (v % 16), hi := some (v / 16) }
    | some 0 => { old with lo := some v }
    | some _ => { old with hi := some v }
  { p with puts := SMap.put p.puts a new }

/-- Puts bytes one by one; where another value of the command lies already, which one stays is free (R320). -/
def Piece.putAll (nib : Option Nat) : List (Nat × Bool) → Nat → Piece → Piece
  | [], _, p => p
  | (v, contested) :: r, a, p =>
    let choice : Bool × State := if contested then p.s.freeBit else (false, p.s)
    let p := { p with s := choice.2 }
    Piece.putAll nib r (a + 1) (if choice.1 then p else p.put a nib v)

/-- Moves one item of a command: the scale line of that number, or the element after all the lines. A poisoned source block gives no data: the
item is not written (R199, R321). -/
def Piece.item (c : Ctx) (f : Finder) (d src : Shape) (shifts : List Int) (p : Piece) (i : Nat) : PieceRes :=
  let n := src.lines.length
  let at_ := if i < n then ((src.lines[i]?).getD 0, 0) else src.place (i - n)
  match p.s.spaceRead f c src.space (addAddr src.addr at_.1) (if i < n then 64 else src.elemBytes) with
  | .fault e => .fault e
  | .wait n => .wait n
  | .ok s bs bad =>
    let p := { p with s := s }
    if bad then .ok { p with skips := p.skips ++ [i] }
    else
      let lines := ((List.range (min i n)).filter fun j => !p.skips.contains j).map fun j => (d.lines[j]?).getD 0
      if i < n then
        let z := (d.lines[i]?).getD 0
        let open_ := fun (b : Nat) => lines.any fun y => decide (y ≤ z + b) && decide (z + b < y + 64)
        let vs := (cleanLine d.ty bs).mapIdx fun b v => (v.toNat, open_ b)
        .ok (shifts.foldl (fun (p : Piece) h => Piece.putAll none vs (addAddr d.addr (z + h)) p) p)
      else
        let k := i - n
        let q := d.place k
        let others := if d.apart then [] else (List.range k).filter fun j => !p.skips.contains (n + j)
        let open_ := fun (b : Nat) => if d.apart then false else d.meetsAny others lines k b
        let nib := if d.ty.width = 4 then some q.2 else none
        let vs := if d.ty.width = 4 then [(bits (leNat bs) (4 * at_.2 + 3) (4 * at_.2), open_ 0)] else bs.mapIdx fun b v => (v.toNat, open_ b)
        .ok (shifts.foldl (fun (p : Piece) h => Piece.putAll nib vs (addAddr d.addr (q.1 + h)) p) p)

/-- Moves items one after another. -/
def Piece.items (c : Ctx) (f : Finder) (d src : Shape) (shifts : List Int) : List Nat → Piece → PieceRes
  | [], p => .ok p
  | i :: is, p =>
    match p.item c f d src shifts i with
    | .ok p => Piece.items c f d src shifts is p
    | r => r

/-- Bytes at rising addresses as runs that cross no block. -/
def runsOf : List (Nat × Byte) → List (Nat × List Byte)
  | [] => []
  | (a, b) :: xs =>
    match runsOf xs with
    | (a', bs) :: r => if a' = a + 1 ∧ a' % 64 ≠ 0 then (a, b :: bs) :: r else (a, [b]) :: (a', bs) :: r
    | [] => [(a, [b])]

/-- Writes runs of bytes: a block that lies wholly in a piece is written whole (R199). -/
def writeRuns (c : Ctx) (space : Nat) : List (Nat × List Byte) → State → SpRes
  | [], s => .ok s [] false
  | x :: xs, s =>
    match s.spaceWrite c space x.1 x.2 with
    | .ok s _ _ => writeRuns c space xs s
    | r => r

/-- Writes single nibbles. -/
def writeNibbles (c : Ctx) (f : Finder) (space : Nat) : List (Nat × Nat × Nat) → State → SpRes
  | [], s => .ok s [] false
  | x :: xs, s =>
    match s.nibbleWrite f c space x.1 x.2.1 x.2.2 with
    | .ok s _ _ => writeNibbles c f space xs s
    | r => r

/-- Writes what a piece has gathered: whole bytes in runs, and single nibbles. -/
def Piece.write (p : Piece) (c : Ctx) (f : Finder) (space : Nat) : SpRes :=
  let whole := p.puts.filterMap fun x => match x.2.lo, x.2.hi with
    | some l, some h => some (x.1, BitVec.ofNat 8 (16 * h + l))
    | _, _ => none
  let halves := p.puts.filterMap fun x => match x.2.lo, x.2.hi with
    | some l, none => some (x.1, 0, l)
    | none, some h => some (x.1, 1, h)
    | _, _ => none
  match writeRuns c space (runsOf whole) p.s with
  | .ok s _ _ => writeNibbles c f space halves s
  | r => r

/-! ### What a command that faults leaves (R321, R381) -/

/-- Writes bytes one by one, or one nibble of a byte, each one or not by a free choice; what cannot be written is left. -/
def landBytes (c : Ctx) (space : Nat) (nib : Option (Nat × Nat)) : List Byte → Nat → State → State
  | [], _, s => s
  | b :: r, a, s =>
    let choice := s.freeBit
    let s := choice.2
    let new : SpRes := match nib with
      | none => s.spaceWrite c space a [b]
      | some x => s.nibbleWrite (Finder.engine 0 c.asid 0) c space a x.1 x.2
    landBytes c space nib r (a + 1) (match choice.1, new with
      | true, .ok s _ _ => s
      | _, _ => s)

/-- The elements of a copy that had not moved when it faulted: each of their bytes is written or not. -/
def landElems (c : Ctx) (d src : Shape) (shifts : List Int) : List Nat → State → State
  | [], s => s
  | k :: ks, s =>
    let p := src.place k
    let q := d.place k
    landElems c d src shifts ks (match s.spacePeek c src.space (addAddr src.addr p.1) src.elemBytes with
      | none => s
      | some bs =>
        let nib := if d.ty.width = 4 then some (q.2, bits (leNat bs) (4 * p.2 + 3) (4 * p.2)) else none
        shifts.foldl (fun (s : State) z => landBytes c d.space nib bs (addAddr d.addr (q.1 + z)) s) s)

/-- The scale lines of a copy that had not moved when it faulted. -/
def landLines (c : Ctx) (d src : Shape) (shifts : List Int) : List (Int × Int) → State → State
  | [], s => s
  | p :: ps, s =>
    landLines c d src shifts ps (match s.spacePeek c src.space (addAddr src.addr p.1) 64 with
      | none => s
      | some bs => shifts.foldl (fun (s : State) z => landBytes c d.space none (cleanLine d.ty bs) (addAddr d.addr (p.2 + z)) s) s)

/-! ### Paths and promises (R325 to R328) -/

/-- The farthest page that a global range touches: 0 this device, 2 a peer, 3 the host. -/
def State.rangePath (s : State) (c : Ctx) (a n : Nat) : Nat :=
  ((List.range ((a + n + 2 ^ 19 - 1) / 2 ^ 19 - a / 2 ^ 19)).map fun i =>
    match s.walk c ((a / 2 ^ 19 + i) * 2 ^ 19) with
    | none => 0
    | some l => if l.mode = 3 then 3 else if l.isLocal s then 0 else 2).foldl max 0

/-- Some page of one end of a transfer is another device's (R242). -/
def State.peerEnd (s : State) (c : Ctx) (sh : Shape) : Bool :=
  let x := sh.extremes
  let a := addAddr sh.addr x.1
  sh.space == 0 && (List.range ((a + (x.2 - x.1).toNat + 2 ^ 19 - 1) / 2 ^ 19 - a / 2 ^ 19)).any fun i =>
    match s.walk c ((a / 2 ^ 19 + i) * 2 ^ 19) with
    | none => false
    | some l => l.mode != 3 && !l.isLocal s

/-- The path of one end (R326): by its vault's die, or by its pages. -/
def State.endPath (s : State) (c : Ctx) (v : Nat) (sh : Shape) (shifts : List Int) : Nat :=
  if sh.space = 1 then
    (shifts.map fun z => if clusterDie (addAddr sh.addr z / 2 ^ 23) = clusterDie v then 0 else 1).foldl max 0
  else
    let x := sh.extremes
    s.rangePath c (addAddr sh.addr x.1) (x.2 - x.1).toNat

/-- The bytes per core cycle of a path (R326). -/
def pathRate : Nat → Nat
  | 0 => 128
  | 1 => 64
  | 2 => 24
  | _ => 16

/-- The setup of a path in core cycles (R326). -/
def pathSetup : Nat → Nat
  | 0 | 1 => 300
  | 2 => 3000
  | _ => 6000

/-- The price column of a path (R389). -/
def ratePath (r : Nat) : Nat := if r = 128 then 0 else if r = 64 then 1 else if r = 24 then 2 else 3

/-- The bytes that a command reads (R326). -/
def Shape.bytes (sh : Shape) : Nat := ceilDiv (sh.count * sh.ty.width) 8 + 64 * sh.lines.length

/-- The transfer term of an estimate. -/
def transferCycles (b r : Nat) : Nat := ceilDiv (5 * b) (4 * r)

/-- The remaining estimate of a command in core cycles (R326, R328). -/
def CopyCmd.remaining (q : CopyCmd) (now : Nat) : Nat :=
  transferCycles (q.bytes - q.moved) q.rate + (if q.started then 0 else q.nextAt - now)

/-- A stream of an engine. -/
def CopyEngine.stream (e : CopyEngine) (remote : Bool) : List CopyCmd := if remote then e.rem else e.loc

/-- Writes a stream of an engine. -/
def CopyEngine.setStream (e : CopyEngine) (remote : Bool) (l : List CopyCmd) : CopyEngine :=
  if remote then { e with rem := l } else { e with loc := l }

/-- The commands of an engine. -/
def CopyEngine.all (e : CopyEngine) : List CopyCmd := e.loc ++ e.rem

/-- Changes an engine's command. -/
def State.modCopy (s : State) (v id : Nat) (f : CopyCmd → CopyCmd) : State :=
  let c := s.cluster v
  let g := replaceWhere (fun (q : CopyCmd) => q.id == id) f
  s.putCluster v { c with copy := { loc := g c.copy.loc, rem := g c.copy.rem } }

/-- Removes an engine's command. -/
def State.dropCopy (s : State) (v id : Nat) : State :=
  let c := s.cluster v
  let g := List.filter fun (q : CopyCmd) => q.id != id
  s.putCluster v { c with copy := { loc := g c.copy.loc, rem := g c.copy.rem } }

/-- Sets the promise of a handle slot (R325). -/
def State.setPromise (s : State) (h : HRef) (p : Nat) : State :=
  s.modTeam h.uid fun t => t.putSlot h.slot { t.slotOf h.slot with promise := some p }

/-- The promised time for an estimate (R326). -/
def State.promiseAt (s : State) (v e : Nat) : Nat := s.time + ceilDiv (e * 1000) (s.clusterMhz v)

/-- The most recent transfer of a tag that is in use (R329). -/
def State.tagUse (s : State) (ctx tag : Nat) : Option TagUse := s.tagUses.find? fun u => u.ctx == ctx && u.tag == tag

/-- A transfer of a tag is its most recent from now on; a return brings no tag into use (R329). -/
def State.noteTag (s : State) (u : TagUse) : State :=
  if u.tag = 0 ∨ (u.isRet ∧ (s.tagUse u.ctx u.tag).isNone) then s
  else { s with tagUses := s.tagUses.filter (fun x => !(x.ctx == u.ctx && x.tag == u.tag)) ++ [u] }

/-- Accepts a transfer of an instruction: its estimate, its promise, its place in its stream (R326, R333). -/
def State.acceptCopy (s : State) (t : Team) (i : Instr) (who : HRef) (kind : CopyKind) (d src : Shape) (vaults : List Nat) (shifts : List Int)
    (tag : Nat) (after rel : Bool) : State :=
  let v := t.clusterNo
  let c := s.ctxOf t
  let path := max (s.endPath c v d shifts) (s.endPath c v src [0])
  let remote := decide (path ≥ 2)
  let e := (s.cluster v).copy
  let ahead := ((e.stream remote).map fun q => q.remaining (s.ccOf v)).sum
  let est := ahead + pathSetup path + transferCycles src.bytes (pathRate path)
  let id := s.newId
  let q : CopyCmd := {
    id := id.1, uid := t.uid, gid := t.gid, ctx := t.ctx, asid := t.asid, who := who, pc := t.pc, ins := recWords i, kind := kind, dst := d,
    src := src, vaults := vaults, tag := tag, after := after, rel := rel, relTag := none, bytes := src.bytes, rate := pathRate path,
    setup := pathSetup path, moved := 0, elems := 0, skipped := [], started := false, nextAt := s.ccOf v + pathSetup path, heldCycles := 0,
    promise := s.promiseAt v est, finished := false }
  let k := id.2.cluster v
  let s := id.2.putCluster v { k with copy := k.copy.setStream remote (k.copy.stream remote ++ [q]) }
  (s.setPromise who (s.promiseAt v est)).noteTag {
    ctx := t.ctx, tag := tag, cmd := id.1, cluster := v, isRet := kind == .ret, pending := true, dead := false
    src := if kind = .off then some src else none }

/-! ### The instructions (R322 to R324, R329, R330) -/

/-- A command's handle ends FAULTED at acceptance (R97, R320). -/
def failCopy (who : HRef) (c : Cause) (s : State) : Res := .done (s.finish who .faulted (some c))

/-- The engine's read of a record meets the codes of its blocks (R98, R199); an index that names none reads nothing (R97). -/
def State.meetRecord (s : State) (c : Ctx) (f : Finder) (idx : Nat) : State :=
  if c.hasRecord idx then s.meetRange f c (c.recordAt idx) 256 else s

/-- A command takes one of its records: its blocks' codes are met, and its checks follow (R97). The handle of a command whose record fails ends
FAULTED; a team whose context a read has ended goes no further. -/
def withRecord (i : Instr) (d : RegNo) (idx : Nat) (role : Shape → Bool) (s : State) (t : Team) (gs : List Nat) (k : State → Shape → Res) : Res :=
  let s := s.meetRecord (s.ctxOf t) (Finder.command (4 * t.clusterNo) t.asid t.pc (recWords i)) idx
  if (s.team? t.uid).isNone then .jump s
  else
    match s.record (s.ctxOf t) idx role with
    | .wait n => .hold (s.holdNeeds t.uid n)
    | .fault f => withHandle s t d gs 3 fun s who _ => failCopy who f s
    | .ok x => k s x

/-- The head of a data command: the queue's room, the flags, the destination's record and then the source's, the handle (R320, R323, R333). -/
def copyHead (i : Instr) (acq : Bool) (d : RegNo) (di si : Nat) (roleD roleS : Shape → Bool) (s : State) (t : Team) (gs : List Nat)
    (k : State → HRef → Shape → Shape → Res) : Res :=
  if (s.cluster t.clusterNo).copy.all.length ≥ 64 then .hold s
  else withAcq acq s t fun s =>
    withRecord i d di roleD s t gs fun s x =>
      withRecord i d si roleS s t gs fun s y => withHandle s t d gs 3 fun s who _ => k s who x y

/-- The checks of R320 after R97, whole. -/
def State.copyCheck (s : State) (t : Team) (x y : Shape) : Option Cause :=
  match s.pairCheck t x y with
  | some f => some f
  | none => if x.overlaps y 0 then some .bounds else none

/-- `cp.copy` (R323). -/
def execCpCopy (h : Hdr) (d a b : RegNo) (acq rel : Bool) (s : State) : Out State :=
  let i : Instr := .cpCopy h d a b acq rel
  withTeam i s (teamOp i h d 1 [(a, 1), (b, 1)] fun s t gs _ vs =>
    copyHead i acq d (vs.headD 0) ((vs[1]?).getD 0) (fun x => x.wr) (fun x => x.rd) s t gs fun s who x y =>
      match s.copyCheck t x y with
      | some f => failCopy who f s
      | none => .done (s.acceptCopy t i who .copy x y [] [0] 0 false rel))

/-- The shifts of a multicast fill to the named vaults (R324); none where a vault holds no region or a range leaves it. -/
def mcastShifts (g : Grid) (d : Shape) (vs : List Nat) : Option (List Int) :=
  let v0 := d.addr / 2 ^ 23
  match SMap.find g.regions v0 with
  | none => none
  | some b0 =>
    let x := d.extremes
    let z := vs.map fun v => (SMap.find g.regions v).map fun b => ((v * 2 ^ 23 + b : Nat) : Int) - ((v0 * 2 ^ 23 + b0 : Nat) : Int)
    if vs.isEmpty || z.any Option.isNone then none
    else
      let z := z.filterMap id
      if z.all fun h => g.holdsVault (addAddr d.addr (h + x.1)) (x.2 - x.1).toNat then some z else none

/-- `cp.mcast` (R324). -/
def execCpMcast (h : Hdr) (d a b c : RegNo) (acq rel : Bool) (s : State) : Out State :=
  let i : Instr := .cpMcast h d a b c acq rel
  withTeam i s (teamOp i h d 1 [(a, 1), (b, 1), (c, 3)] fun s t gs _ vs =>
    copyHead i acq d (vs.headD 0) ((vs[1]?).getD 0) (fun x => x.mc) (fun x => x.rd) s t gs fun s who x y =>
      let m := (vs[2]?).getD 0
      let ks := (List.range 96).filter fun v => bit m v
      if x.space ≠ 1 then failCopy who .bounds s
      else
        match s.copyCheck t x y, (s.grid? t.gid).bind fun g => mcastShifts g x ks with
        | some f, _ => failCopy who f s
        | none, none => failCopy who .bounds s
        | none, some zs =>
          if zs.any fun z => x.overlaps y z then failCopy who .bounds s
          else .done (s.acceptCopy t i who .mcast x y ks zs 0 false rel))

/-- The role of an offload's or return's record (R323). -/
def offRole (dst : Bool) (x : Shape) : Bool := x.off && if dst then x.wr else x.rd

/-- `cp.off` (R323, R329). -/
def execCpOff (h : Hdr) (d a b c : RegNo) (acq rel : Bool) (s : State) : Out State :=
  let i : Instr := .cpOff h d a b c acq rel
  withTeam i s (teamOp i h d 1 [(a, 1), (b, 1), (c, 1)] fun s t gs _ vs =>
    let tag := (vs[2]?).getD 0
    copyHead i acq d (vs.headD 0) ((vs[1]?).getD 0) (offRole true) (offRole false) s t gs fun s who x y =>
      let full := decide ((s.tagUses.filter fun u => u.ctx == t.ctx).length ≥ 1024) && (s.tagUse t.ctx tag).isNone && tag != 0
      if tag ≥ 2 ^ 16 ∨ x.space ≠ 0 then failCopy who .bounds s
      else
        match s.copyCheck t x y with
        | some f => failCopy who f s
        | none => if full then failCopy who .bounds s else .done (s.acceptCopy t i who .off x y [] [0] tag false rel))

/-- The fields that R330 compares. -/
def Shape.sameAs (x y : Shape) : Bool :=
  x.space == y.space && x.addr == y.addr && x.lay == y.lay && x.ty == y.ty && x.ndim == y.ndim && x.ext == y.ext && x.str == y.str

/-- A command of any cluster. -/
def State.copyCmd (s : State) (v id : Nat) : Option CopyCmd := (s.cluster v).copy.all.find? fun q => q.id == id

/-- Cancels an accepted transfer: it stops at once, and its handle reads CANCELLED (R328, R330). -/
def State.cancelCopy (s : State) (v id : Nat) : State :=
  match s.copyCmd v id with
  | none => s
  | some q => ((s.dropCopy v id).dropSent q.who).finish q.who .cancelled none

/-- A return that is an ordinary transfer, or reads another source (R330). -/
def retTransfer (t : Team) (i : Instr) (who : HRef) (x y : Shape) (tag : Nat) (after rel : Bool) (s : State) (k : State → State) : Res :=
  match s.copyCheck t x y with
  | some f => failCopy who f s
  | none => .done ((k s).acceptCopy t i who .ret x y [] [0] tag after rel)

/-- `cp.ret` (R323, R330). A return that completes at once is checked under R320 with its own records first (DEDUCED, log entry 17). -/
def execCpRet (h : Hdr) (d a b c : RegNo) (acq rel : Bool) (s : State) : Out State :=
  let i : Instr := .cpRet h d a b c acq rel
  withTeam i s (teamOp i h d 1 [(a, 1), (b, 1), (c, 1)] fun s t gs _ vs =>
    let tag := (vs[2]?).getD 0
    copyHead i acq d (vs.headD 0) ((vs[1]?).getD 0) (offRole true) (offRole false) s t gs fun s who x y =>
      if tag ≥ 2 ^ 16 then failCopy who .bounds s
      else
        match (if tag = 0 then none else s.tagUse t.ctx tag) with
        | none => retTransfer t i who x y tag true rel s id
        | some u =>
          match u.src with
          | none => retTransfer t i who x y tag true rel s id
          | some o =>
            if !u.pending then retTransfer t i who x y tag true rel s id
            else if x.sameAs o then
              match s.copyCheck t x y with
              | some f => failCopy who f s
              | none =>
                let s := s.cancelCopy u.cluster u.cmd
                let s := { s with tagUses := s.tagUses.filter fun z => z != u }
                .done (s.finish who .done none)
            else retTransfer t i who x o tag false rel s fun s => s.cancelCopy u.cluster u.cmd)

/-- A handle is a copy handle of the team that is not stale. -/
def Team.copyHandle (t : Team) (x : Nat) : Bool := bits x 15 13 == 3 && (t.slotOf (bits x 5 0)).gen == bits x 12 6

/-- `cp.prom` (R325). -/
def execCpProm (h : Hdr) (d a : RegNo) (s : State) : Out State :=
  let i : Instr := .cpProm h d a
  withTeam i s (teamOp i h d 2 [(a, 1)] fun s t gs _ vs =>
    let x := vs.headD 0
    .done (s.answer t.uid d 2 gs (if t.copyHandle x then ((t.slotOf (bits x 5 0)).promise).getD 0 else 0)))

/-- The command of a pending copy handle of a team, with its cluster. -/
def State.copyOf (s : State) (t : Team) (x : Nat) : Option (Nat × CopyCmd) :=
  if t.copyHandle x ∧ (t.slotOf (bits x 5 0)).status = .pending then
    s.clusters.findSome? fun kc => (kc.2.copy.all.find? fun q => q.who.uid == t.uid && q.who.slot == bits x 5 0).map fun q => (kc.1, q)
  else none

/-- `cp.renew` (R328). -/
def execCpRenew (h : Hdr) (d a : RegNo) (s : State) : Out State :=
  let i : Instr := .cpRenew h d a
  withTeam i s (teamOp i h d 2 [(a, 1)] fun s t gs _ vs =>
    match s.copyOf t (vs.headD 0) with
    | none => .done (s.answer t.uid d 2 gs 0)
    | some (v, q) =>
      let p := s.promiseAt v (q.remaining (s.ccOf v)) + q.heldCycles
      .done (((s.setPromise q.who p).modCopy v q.id fun q => { q with promise := p }).answer t.uid d 2 gs p))

/-- A transfer of a tag is cancelled or faults: a return stays the tag's most recent transfer and never completes; an offload is no longer
pending (R331). -/
def State.cancelTag (s : State) (id : Nat) : State :=
  { s with tagUses := replaceWhere (fun (u : TagUse) => u.cmd == id && !u.isRet) (fun u => { u with pending := false, dead := true }) s.tagUses }

/-- `cp.cncl` (R328). -/
def execCpCncl (h : Hdr) (d a : RegNo) (s : State) : Out State :=
  let i : Instr := .cpCncl h d a
  withTeam i s (teamOp i h d 1 [(a, 1)] fun s t gs _ vs =>
    match s.copyOf t (vs.headD 0) with
    | none => .done (s.answer t.uid d 1 gs 0)
    | some (v, q) => .done (((s.cancelCopy v q.id).cancelTag q.id).answer t.uid d 1 gs 1))

/-! ### Transfers (R321, R326, R394) -/

/-- A command waits for an earlier transfer of its tag: for its start, since transfers of one tag start in acceptance order, or for its end
(R329, R330). -/
def State.tagWaits (s : State) (q : CopyCmd) : Bool :=
  q.tag != 0 && s.clusters.any fun kc => kc.2.copy.all.any fun x =>
    x.ctx == q.ctx && x.tag == q.tag && decide (x.id < q.id) && (q.after || !x.started)

/-- The items of a command: its scale lines, then its elements. -/
def CopyCmd.total (q : CopyCmd) : Nat := q.src.lines.length + q.src.count

/-- The items and bytes of a command's next piece of at most 4 KiB, the last of which may be short (R389). -/
def CopyCmd.piece (q : CopyCmd) : List Nat × Nat :=
  let l := min 64 (q.src.lines.length - q.elems)
  let e := min ((4096 - 64 * l) * 8 / q.src.ty.width) (q.total - (q.elems + l))
  let e := if q.elems + l < q.src.lines.length then 0 else e
  ((List.range (l + e)).map fun k => q.elems + k, 64 * l + ceilDiv (e * q.src.ty.width) 8)

/-- The shifts of a command's destinations. -/
def State.copyShifts (s : State) (q : CopyCmd) : List Int :=
  if q.kind = .mcast then ((s.grid? q.gid).bind fun g => mcastShifts g q.dst q.vaults).getD [] else [0]

/-- A context's partition whose link key is installed lets it reach a peer (R321, R444). -/
def State.linkKeyed (s : State) (slot : Nat) : Bool :=
  s.pkg.part.any fun e =>
    let w := e.2.toNat
    w.testBit 63 && bits w 37 32 == slot && s.pkg.linkKeys.contains e.1

/-- The records of a command reach a page of another device. -/
def State.copyReaches (s : State) (q : CopyCmd) : Bool := s.peerEnd (s.ctx q.ctx) q.dst || s.peerEnd (s.ctx q.ctx) q.src

/-- Moves the next piece of a command, all of it or none; the answer holds the command's items skipped so far. The blocks that it writes in part
keep any poison (R199). -/
def State.movePiece (s : State) (v : Nat) (q : CopyCmd) : PieceRes :=
  let c := s.ctx q.ctx
  let f := Finder.command (4 * v) q.asid q.pc q.ins
  if s.copyReaches q ∧ !s.linkKeyed q.ctx then .fault .fabricKey
  else
    match Piece.items c f q.dst q.src (s.copyShifts q) q.piece.1 { s := s, puts := [], skips := q.skipped } with
    | .ok p =>
      let before := p.s.nextId
      (match p.write c f q.dst.space with
      | .ok s _ _ => .ok { p with s := s.stampWrites before q.who, puts := [] }
      | .fault e => .fault e
      | .wait n => .wait n)
    | r => r

/-- What a transfer that faults has written of the rest of its destination: a free choice for every byte (R321). A transfer that the fabric
refuses writes nothing more. -/
def State.landRest (s : State) (q : CopyCmd) (cause : Cause) : State :=
  if cause = .fabricKey then s
  else
    let c := s.ctx q.ctx
    let zs := s.copyShifts q
    let n := q.src.lines.length
    let s := landLines c q.dst q.src zs ((q.src.lines.zip q.dst.lines).drop q.elems) s
    landElems c q.dst q.src zs ((List.range (q.total - max n q.elems)).map fun k => max n q.elems - n + k) s

/-- A transfer faults (R33, R321). -/
def State.faultCopy (s : State) (v : Nat) (q : CopyCmd) (c : Cause) : State :=
  ((((s.landRest q c).dropCopy v q.id).cancelTag q.id).dropSent q.who).finish q.who .faulted (some c)

/-- The cost and rate of a piece of `n` bytes (R389, R406). -/
def State.pieceCost (s : State) (v : Nat) (q : CopyCmd) (n : Nat) : Nat × Nat :=
  let p := s.price 45 (ratePath q.rate)
  (ceilDiv (p * n) 4096, ceilDiv (p * q.rate * s.clusterMhz v) (4096 * 1000))

/-- COPY_COMMAND_START: the command at the head of a stream starts when its setup has passed, and its pieces of 4 KiB move one after another as
they are granted (R326, R394); one that faults has been paid for. A piece that the metering engine holds counts toward the command's held time (R328). -/
def execCopyCommandStart (v : Nat) (remote : Bool) (s : State) : Out State :=
  .next (match ((s.cluster v).copy.stream remote).head? with
    | none => s
    | some q =>
      if q.finished ∨ s.ccOf v < q.nextAt ∨ (!q.started ∧ s.tagWaits q) then s
      else
        let n := q.piece.2
        let w := s.pieceCost v q n
        let dur := ceilDiv n q.rate
        match s.grantUnit w.1 w.2 (some (clusterDie v)) (s.time + ceilDiv (dur * 1000) (s.clusterMhz v)) with
        | none => s.modCopy v q.id fun q => { q with started := true, heldCycles := q.heldCycles + 1 }
        | some g =>
          match g.movePiece v q with
          | .fault c => g.faultCopy v q c
          | .wait n => (s.emitNeeds n).modCopy v q.id fun q => { q with started := true }
          | .ok p => p.s.modCopy v q.id fun q =>
              { q with started := true, moved := q.moved + n, elems := q.elems + q.piece.1.length, skipped := p.skips, nextAt := p.s.ccOf v + dur,
                       finished := decide (q.elems + q.piece.1.length ≥ q.total) })

/-- A completed return ends the use of its tag unless an offload accepted after it is pending or complete (R329, R331, log entry 69); a
completed offload is no longer pending. -/
def State.doneTag (s : State) (q : CopyCmd) : State :=
  if q.kind = .ret then
    { s with tagUses := s.tagUses.filter fun u => !(u.ctx == q.ctx && u.tag == q.tag && (u.isRet || u.dead)) }
  else { s with tagUses := replaceWhere (fun (u : TagUse) => u.cmd == q.id) (fun u => { u with pending := false }) s.tagUses }

/-- A command that carries REL waits, after its last write, until its writes have registered and its stores to HOST pages are ordered
(R284, R290, R295, R323). `k` ends it. -/
def relThen (rel : Bool) (tag : Option Nat) (ctx : Nat) (note : Nat → State → State) (k : State → State) (s : State) : State :=
  if !rel then k s
  else
    match tag with
    | some n => if s.registered n then k s else s
    | none =>
      let r := s.releaseFor ctx
      if r.2.registered r.1 then k r.2 else note r.1 r.2

/-- COPY_COMPLETE: every byte has been written, and with REL every write has registered; the handle reads DONE (R323). A write whose home refuses it
makes the handle FAULTED (R321), so that those of other devices' pages are answered first. -/
def execCopyComplete (v : Nat) (remote : Bool) (s : State) : Out State :=
  .next (match ((s.cluster v).copy.stream remote).head? with
    | none => s
    | some q =>
      if q.finished ∧ s.ccOf v ≥ q.nextAt ∧ !s.writesAway q.who then
        match s.writeRefused q.who with
        | some c => s.faultCopy v q c
        | none => relThen q.rel q.relTag q.ctx (fun n s => s.modCopy v q.id fun q => { q with relTag := some n })
          (fun s => (((s.dropCopy v q.id).doneTag q).dropSent q.who).finish q.who .done none) s
      else s)

end Sys2Proof.Machine
end

