-- ==== Sys2Proof/Machine/Collective.lean ====
section
/-! DEFINITION. The collective engine (R362 to R384): acceptance, step words, the running of a program, reductions, messages and their checks,
and the collective instructions. -/

namespace Sys2Proof.Machine

open Sys2Proof

/-! ### Channels, groups and peers (R362, R363) -/

/-- A channel. -/
def State.chan (s : State) (ch : Nat) : Channel := SMap.get Channel.reset s.chans ch

/-- Writes a channel. -/
def State.putChan (s : State) (ch : Nat) (c : Channel) : State := { s with chans := SMap.put s.chans ch c }

/-- Changes a program of a channel. -/
def State.modProg (s : State) (ch id : Nat) (f : ClProg → ClProg) : State :=
  let c := s.chan ch
  s.putChan ch { c with progs := replaceWhere (fun (p : ClProg) => p.id == id) f c.progs }

/-- Removes a program from its channel. -/
def State.dropProg (s : State) (ch id : Nat) : State :=
  let c := s.chan ch
  s.putChan ch { c with progs := c.progs.filter fun p => p.id != id }

/-- Every program of the package. -/
def State.progs (s : State) : List ClProg := s.chans.flatMap fun kc => kc.2.progs

/-- All four ports of a channel are down (R362). -/
def State.chanDown (s : State) (ch : Nat) : Bool := (List.range 4).all fun i => !((s.pkg.portsUp[4 * ch + i]?).getD true)

/-- The peer number of a rank, where its map entry names an attached peer (R363, R379). -/
def ClProg.peer (p : ClProg) (s : State) (r : Nat) : Option Nat :=
  match p.map[r]? with
  | none => none
  | some e => if e ≥ 512 ∨ e = s.peerId ∨ s.pkg.lost.contains e ∨ s.chanDown p.ch then none else some e

/-- The partition of a context whose link key is installed (R374, R444). -/
def State.keyedPart (s : State) (slot : Nat) : Option Nat :=
  (s.pkg.part.find? fun e =>
    let w := e.2.toNat
    w.testBit 63 && bits w 37 32 == slot && s.pkg.linkKeys.contains e.1).map Prod.fst

/-- The keyed partition of a context, where the ports carry more than management traffic (R442). -/
def State.openPart (s : State) (slot : Nat) : Option Nat := if s.pkg.partSet then s.keyedPart slot else none

/-- The context that a partition with an installed link key is bound to. -/
def State.keyedCtx (s : State) (m : Nat) : Option Nat :=
  let w := (SMap.get 0 s.pkg.part m).toNat
  if w.testBit 63 ∧ s.pkg.linkKeys.contains m then some (bits w 37 32) else none

/-- A message of a program to a rank. Without an attached peer, a key, or a peer number of this device's own nothing leaves (R374, R442). -/
def State.clSend (s : State) (p : ClProg) (r : Nat) (kind : ClMsgKind) (chunk k : Nat) (data : List Byte) : State :=
  match p.peer s r, s.openPart p.ctx with
  | some e, some m =>
    let msg : ClMsg := { peer := s.peerId, ch := p.ch, part := m, auth := true, gtag := p.gtag, h := p.h, hash := p.hash, rank := p.rank,
                         kind := kind, chunk := chunk, k := k, data := data }
    s.sendPort (OutMsg.coll e msg)
  | _, _ => s

/-- A refusal goes back to the device that a message came from (R378), with this device's rank and its program's hash. -/
def State.clRefuse (s : State) (msg : ClMsg) (kind : ClMsgKind) (rank : Nat) (hash : Word) : State :=
  let m : ClMsg := { msg with peer := s.peerId, rank := rank, hash := hash, kind := kind, chunk := 0, k := 0, data := [] }
  s.sendPort (OutMsg.coll msg.peer m)

/-- A program that faults or is cancelled stops at once and sends its abort to every other rank of its group (R379). -/
def State.clStop (s : State) (p : ClProg) (st : HStatus) (c : Option Cause) : State :=
  let s := ((List.range p.n).filter fun r => r != p.rank).foldl (fun (s : State) r => s.clSend p r .abort 0 0 []) s
  ((s.dropProg p.ch p.id).dropSent p.who).finish p.who st c

/-! ### Group entries (R363) -/

/-- The group table of a context. -/
def Ctx.groupVa (c : Ctx) (g : Nat) : Nat := bits c.clgbase.toNat 55 13 * 2 ^ 13 + 32 * g

/-- The fields of a group entry, over its 256 bits. -/
def grpV (e : Nat) : Bool := bit e 63
def grpN (e : Nat) : Nat := bits e 62 53
def grpRank (e : Nat) : Nat := bits e 52 44
def grpTag (e : Nat) : Word := BitVec.ofNat 32 (bits e 31 0)
def grpMap (e : Nat) : Nat := 2 * bits e 119 65
def grpSeq (e : Nat) : Nat := bits e 159 128
/-- A reserved bit of a group entry is set. -/
def grpReserved (e : Nat) : Bool := bits e 43 32 != 0 || bits e 127 120 != 0 || bit e 64 || bits e 191 160 != 0 || bits e 255 192 != 0

/-- The valid entry of a context's table that has a tag, with its index, the lowest first (R374). -/
def State.groupOf (s : State) (c : Ctx) (gtag : Word) : Option (Nat × Nat) :=
  (List.range 256).findSome? fun g =>
    match s.vaRead c (c.groupVa g) 32 with
    | none => none
    | some bs =>
      let e := leNat bs
      if grpV e ∧ grpTag e = gtag then some (g, e) else none

/-- What reading a context's group table waits for, where it waits. -/
def State.groupNeeds (s : State) (c : Ctx) : Option (List Need) :=
  match s.vaRange c .read (c.groupVa 0) 8192 with
  | .wait n => some n
  | _ => none

/-! ### Acceptance (R365 to R368) -/

/-- What looking at memory comes to. -/
inductive Look (α : Type) where
  | ok (a : α)
  | fault (c : Cause)
  | wait (needs : List Need)

/-- Goes on where a look succeeds. -/
def Look.bind {α β : Type} (x : Look α) (f : α → Look β) : Look β :=
  match x with
  | .ok a => f a
  | .fault c => .fault c
  | .wait n => .wait n

/-- Fails with a cause where a check does. -/
def Look.check {β : Type} (bad : Bool) (c : Cause) (f : Look β) : Look β := if bad then .fault c else f

/-- An engine's look at its own structures. A poisoned block cannot be read (log entry 65). -/
def State.look (s : State) (c : Ctx) (va n : Nat) : Look Nat :=
  match s.vaRange c .read va n with
  | .ok ps => if s.partsLost ps then .fault .page else .ok (leNat (s.partsBytes ps))
  | .fault f => .fault (engineCause f)
  | .wait n => .wait n

/-- The types of a reduction (R375). -/
def clOpTakes (op ty : Nat) : Bool :=
  match op with
  | 0 => ty == 2 || ty == 3 || ty == 6 || ty == 7
  | 1 | 2 | 3 => ty == 2 || ty == 6
  | 4 => ty == 9 || ty == 10
  | 5 => ty == 10
  | 255 => true
  | _ => false

/-- The reserved and range checks of a descriptor and a group entry (R367). `stepsVa` is the grid's steps section. -/
def clBadFields (d e chReg stepsVa : Nat) : Bool :=
  let ty := field d 1 1
  let chunk := field d 4 4
  let nc := field d 8 2
  let ns := field d 10 2
  let st := field d 16 8
  decide (ty ≥ 16) || field d 40 24 != 0 || bits st 2 1 != 0 || bits st 63 56 != 0 || chunk == 0 || decide (chunk > 2 ^ 24) || nc == 0 ||
    decide (nc > 4096) || ns == 0 || decide (ns > 4096) || !clOpTakes (field d 2 1) ty || (ty == 12 && chunk % 2 == 1) ||
    decide (chReg ≥ 16) || (bit st 0 && stepsVa == 0) || grpReserved e

/-- A record lies within the first `n` bytes from a base at which its bits 22:0 count. -/
def Shape.within (sh : Shape) (n : Nat) : Bool :=
  let x := sh.extremes
  let o := ((sh.addr % 2 ^ 23 : Nat) : Int)
  decide (0 ≤ o + x.1) && decide (o + x.2 ≤ (n : Int))

/-- A slot's record as a program uses it (R366): with VREL the issuing team's vault and region take the place of the record's, and every byte
of the slot lies in that region. -/
def State.clSlot (s : State) (t : Team) (vrel : Bool) (sh : Shape) : Look Shape :=
  let checked := fun (out : Bool) (sh : Shape) =>
    Look.check sh.misaligned .align <| Look.check sh.badLayout .bounds <| Look.check (out || s.outside t sh) .bounds <| .ok sh
  if !vrel then checked false sh
  else
    match (s.grid? t.gid).bind fun g => (SMap.find g.regions t.clusterNo).map fun b => (b, g.vbytes) with
    | some (b, n) =>
      if sh.space = 1 then checked (!sh.within n) { sh with addr := t.clusterNo * 2 ^ 23 + b + sh.addr % 2 ^ 23 } else .fault .bounds
    | none => .fault .bounds

/-- The used slots of a descriptor, checked in order. -/
def State.clSlots (s : State) (t : Team) (d : Nat) : List Nat → Look (List (Option Shape))
  | [] => .ok []
  | i :: is =>
    let here : Look (Option Shape) :=
      if !bit (field d 3 1) i then .ok none
      else
        let r : Look Shape := match s.record (s.ctxOf t) (field d (32 + 2 * i) 2) fun _ => true with
          | .ok sh => .ok sh
          | .fault c => .fault c
          | .wait n => .wait n
        r.bind fun sh => (s.clSlot t (bit (field d 3 1) (4 + i)) sh).bind fun sh =>
          Look.check (sh.ty.code.toNat != field d 1 1) .bounds <| Look.check (decide (sh.count < field d 4 4)) .bounds <| .ok (some sh)
    here.bind fun x => (s.clSlots t d is).bind fun xs => .ok (x :: xs)

/-- The hash of a program (R368). -/
def clHash (gtag : Word) (ch ty op chunk nc : Nat) : Word :=
  kg (BitVec.ofNat 64 (gtag.toNat * 2 ^ 32 + ch * 2 ^ 24 + ty * 2 ^ 16 + op * 2 ^ 8)) 0x80000003 (BitVec.ofNat 64 (chunk * 2 ^ 16 + nc))

/-- The engine's reads at an acceptance meet the codes of their blocks (R199): the descriptor, the group entry, its map, the used records. -/
def State.clMeets (s : State) (t : Team) (i : Instr) (da : Nat) : State :=
  let f := Finder.command t.home t.asid t.pc (recWords i)
  let c := s.ctxOf t
  let s := s.meetRange f c da 64
  match s.look c da 64 with
  | .ok d =>
    let g := c.groupVa (field d 0 1)
    let s := s.meetRange f c g 32
    let s := match s.look c g 32 with
      | .ok e => s.meetRange f c (grpMap e) (2 * grpN e)
      | _ => s
    ((List.range 4).filter fun k => bit (field d 3 1) k).foldl
      (fun (s : State) k => s.meetRecord c f (field d (32 + 2 * k) 2)) s
  | _ => s

/-- The checks of R367, in order; the answer holds the advanced SEQ and the program. -/
def State.clCheck (s : State) (t : Team) (i : Instr) (da chReg : Nat) (rel : Bool) : Look (State × ClProg) :=
  let c := s.ctxOf t
  let sv := ((s.grid? t.gid).map fun g => g.stepsVa.toNat).getD 0
  Look.check (da % 64 != 0) .align <| (s.look c da 64).bind fun d => (s.look c (c.groupVa (field d 0 1)) 32).bind fun e =>
    Look.check (clBadFields d e chReg sv) .bounds <| Look.check (field d 24 8 % 4 != 0) .align <| Look.check (!grpV e) .rights <|
    Look.check (decide (grpN e < 2) || decide (grpN e > 512) || decide (grpRank e ≥ grpN e)) .bounds <|
    (s.look c (grpMap e) (2 * grpN e)).bind fun m => (s.clSlots t d [0, 1, 2, 3]).bind fun slots =>
      let seqVa := c.groupVa (field d 0 1) + 16
      match s.vaRange c .write seqVa 4 with
      | .fault f => .fault (engineCause f)
      | .wait n => .wait n
      | .ok ps =>
        let s := s.engineStore c seqVa ps (natLe 4 (grpSeq e + 1))
        let id := s.newId
        let st := field d 16 8
        .ok (id.2, {
          id := id.1, uid := t.uid, gid := t.gid, ctx := t.ctx, asid := t.asid, home := t.home, who := { uid := t.uid, slot := 0, gid := t.gid },
          pc := t.pc, ins := recWords i, rel := rel, relTag := none, ch := chReg, grp := field d 0 1, ty := Ty.ofCode (BitVec.ofNat 4 (field d 1 1)), op := field d 2 1,
          chunk := field d 4 4, nc := field d 8 2, nsteps := field d 10 2, flagv := BitVec.ofNat 32 (field d 12 4), flagaddr := field d 24 8,
          steps := (if bit st 0 then sv else 0) + bits st 55 3 * 8, slots := slots, n := grpN e, rank := grpRank e, gtag := grpTag e,
          map := (List.range (grpN e)).map fun i => field m (2 * i) 2, h := BitVec.ofNat 32 (grpSeq e),
          hash := clHash (grpTag e) chReg (field d 1 1) (field d 2 1) (field d 4 4) (field d 8 2), rnd := t.round, inj := t.engineInj 7,
          started := false, words := [], next := 0, loops := [0, 0, 0, 0], counts := [0, 0, 0, 0], sigs := List.replicate 8 0, active := [],
          waiting := none, waitSince := 0, sendSeq := [], recvSeq := [], grants := [] })

/-! ### Step words (R369 to R372) -/

/-- How a step kind uses its fields: whether SA and SB name slots, what X1, X2 and X3 are, and the AUX bits that it names. -/
inductive ClUse where
  | zero | peer | chunk | count | target
  deriving DecidableEq, Repr

/-- The uses of a kind (R372); none for a reserved one. -/
def clUses (kind : Nat) : Option (Bool × Bool × ClUse × ClUse × ClUse × Nat) :=
  match kind with
  | 0 => some (false, false, .zero, .zero, .zero, 0)
  | 1 => some (true, false, .peer, .chunk, .zero, 0)
  | 2 => some (false, true, .peer, .chunk, .zero, 0)
  | 3 => some (false, true, .peer, .chunk, .peer, 0)
  | 4 => some (true, false, .peer, .chunk, .peer, 0)
  | 5 => some (true, true, .peer, .chunk, .zero, 0)
  | 6 => some (true, true, .zero, .chunk, .chunk, 0)
  | 7 => some (false, false, .peer, .zero, .zero, 7)
  | 8 => some (false, false, .zero, .zero, .count, 7)
  | 9 => some (false, false, .zero, .chunk, .zero, 0)
  | 10 => some (false, false, .zero, .zero, .count, 3)
  | 11 => some (false, false, .zero, .zero, .target, 3)
  | _ => none

/-- A peer or chunk expression modulo `m` (R370); none where it faults BOUNDS. -/
def ClProg.expr (p : ClProg) (x m : Nat) : Option Nat :=
  let l := (p.loops[bits x 13 12]?).getD 0
  let step := signedVal 2 (bits x 11 10)
  let off := signedVal 10 (bits x 9 0)
  match bits x 15 14 with
  | 0 => some (((p.rank : Int) + off + step * l) % m).toNat
  | 1 => some ((off + step * l) % m).toNat
  | 2 => if step ≠ 0 ∨ off < 0 then none else let v := p.rank ^^^ (off.toNat * 2 ^ l); if v < m then some v else none
  | _ => none

/-- A field of a step word under its use. -/
def ClProg.operand (p : ClProg) (u : ClUse) (x : Nat) : Option Nat :=
  match u with
  | .zero => if x = 0 then some 0 else none
  | .peer => (p.expr x p.n).bind fun v => if v = p.rank then none else some v
  | .chunk => p.expr x p.nc
  | .count => if bit x 15 then (let v := (p.n : Int) + signedVal 15 (bits x 14 0); if v < 0 then none else some v.toNat) else some x
  | .target => some x

/-- A step as it is reached. -/
structure ClOp where
  kind : Nat
  sa : Nat
  sb : Nat
  x1 : Nat
  x2 : Nat
  x3 : Nat
  aux : Nat
  reads : Option (Nat × Nat)
  writes : Option (Nat × Nat)
  deriving DecidableEq, Repr

/-- A program's slot. -/
def ClProg.slot (p : ClProg) (i : Nat) : Option Shape := ((p.slots[i]?).getD none)

/-- Reads a step word (R372); none where it faults BOUNDS. -/
def ClProg.decode (p : ClProg) (w : Nat) : Option ClOp :=
  match clUses (bits w 63 60) with
  | none => none
  | some (ua, ub, u1, u2, u3, am) =>
    let sa := bits w 59 58
    let sb := bits w 57 56
    if (!ua && sa != 0) || (!ub && sb != 0) || bits w 7 0 &&& am != bits w 7 0 || (ua && (p.slot sa).isNone) || (ub && (p.slot sb).isNone) then none
    else
      match p.operand u1 (bits w 55 40), p.operand u2 (bits w 39 24), p.operand u3 (bits w 23 8) with
      | some x1, some x2, some x3 =>
        some { kind := bits w 63 60, sa := sa, sb := sb, x1 := x1, x2 := x2, x3 := x3, aux := bits w 7 0, reads := if ua then some (sa, x2) else none,
               writes := if ub then some (sb, if bits w 63 60 = 6 then x3 else x2) else none }
      | _, _, _ => none

/-! ### Chunks (R366, R375, R376) -/

/-- The place of a chunk's element. -/
def ClProg.place (p : ClProg) (c m : Nat) (sh : Shape) : Nat × Nat :=
  let x := sh.place (c * p.chunk + m)
  (addAddr sh.addr x.1, x.2)

/-- A number of one element for one that could not be read or formed (R192). -/
def failedElem (ty : Ty) : Nat := match tyFmt ty with | some f => f.nan | none => 0

/-- What reading a chunk comes to: its elements, and the scale lines that go with them (R319, R366). -/
inductive ChunkRes where
  | ok (s : State) (vals : List Nat) (lines : List (List Byte))
  | fault (c : Cause)
  | wait (needs : List Need)

/-- The bytes of a line that the spec leaves open (log entry 5). -/
def State.freeLine (s : State) : List Byte × State :=
  ((List.range 64).map fun i => (Config.freeValue (s.freeCtr + i / 8)).extractLsb' (8 * (i % 8)) 8, { s with freeCtr := s.freeCtr + 8 })

/-- Reads the scale lines of a chunk; what comes of one in a poisoned block is free (log entry 70). -/
def readLines (ctx : Ctx) (f : Finder) (sh : Shape) : List Int → State → ChunkRes
  | [], s => .ok s [] []
  | z :: zs, s =>
    match s.spaceRead f ctx sh.space (addAddr sh.addr z) 64 with
    | .fault e => .fault e
    | .wait n => .wait n
    | .ok s bs bad =>
      let line := if bad then s.freeLine else (bs, s)
      match readLines ctx f sh zs line.2 with
      | .ok s _ ls => .ok s [] (line.1 :: ls)
      | r => r

/-- Reads the elements of a chunk one by one. -/
def ClProg.readElems (p : ClProg) (ctx : Ctx) (f : Finder) (sh : Shape) (c : Nat) : List Nat → State → ChunkRes
  | [], s => .ok s [] []
  | m :: ms, s =>
    let a := p.place c m sh
    match s.spaceRead f ctx sh.space a.1 (max 1 (p.ty.width / 8)) with
    | .fault e => .fault e
    | .wait n => .wait n
    | .ok s bs bad =>
      let v := if bad then failedElem p.ty else if p.ty.width = 4 then bits (leNat bs) (4 * a.2 + 3) (4 * a.2) else leNat bs
      match p.readElems ctx f sh c ms s with
      | .ok s vs _ => .ok s (v :: vs) []
      | r => r

/-- Reads a chunk (R366). -/
def ClProg.readChunk (p : ClProg) (ctx : Ctx) (f : Finder) (sh : Shape) (c : Nat) (s : State) : ChunkRes :=
  match p.readElems ctx f sh c (List.range p.chunk) s with
  | .ok s vs _ =>
    (match readLines ctx f sh (sh.linesFor (c * p.chunk) p.chunk) s with
    | .ok s _ ls => .ok s vs ls
    | r => r)
  | r => r

/-- Puts the elements of a chunk among what will be written; a byte of two of them, or of a line that is written with them, ends with either one's
value (R320). -/
def ClProg.putChunk (p : ClProg) (sh : Shape) (c : Nat) (lines : List Int) : List (Nat × Nat) → Piece → Piece
  | [], q => q
  | (m, v) :: ms, q =>
    let a := p.place c m sh
    let vs := if p.ty.width = 4 then [v] else (natLe (p.ty.width / 8) v).map BitVec.toNat
    let others := (List.range m).map fun j => c * p.chunk + j
    let open_ := fun (i : Nat) => !sh.apart && sh.meetsAny others lines (c * p.chunk + m) i
    p.putChunk sh c lines ms (Piece.putAll (if p.ty.width = 4 then some a.2 else none) (vs.mapIdx fun i b => (b, open_ i)) a.1 q)

/-- Puts scale lines among what will be written, each over the lines before it. -/
def putLines (sh : Shape) : List (Int × List Byte) → List Int → Piece → Piece
  | [], _, q => q
  | (z, bs) :: r, before, q =>
    let open_ := fun (b : Nat) => before.any fun y => decide (y ≤ z + b) && decide (z + b < y + 64)
    putLines sh r (z :: before) (Piece.putAll none ((cleanLine sh.ty bs).mapIdx fun b v => (v.toNat, open_ b)) (addAddr sh.addr z) q)

/-- Writes a chunk whole, with the scale lines that have come with it (R319, R366); a block that lies wholly in it is written whole (R199). -/
def ClProg.writeChunk (p : ClProg) (ctx : Ctx) (f : Finder) (sh : Shape) (c : Nat) (vs : List (Nat × Nat)) (ls : List (List Byte)) (s : State) :
    SpRes :=
  let zs := (sh.linesFor (c * p.chunk) p.chunk).zip ls
  match (p.putChunk sh c (zs.map Prod.fst) vs (putLines sh zs [] { s := s, puts := [], skips := [] })).write ctx f sh.space with
  | .ok s' bs bad => .ok (s'.stampWrites s.nextId p.who) bs bad
  | r => r

/-- Elements as a message carries them: in linear order, 4-bit elements two to a byte with the lower index in bits 3:0. -/
def packChunk (w : Nat) : List Nat → List Byte
  | [] => []
  | a :: l =>
    if w = 4 then
      match l with
      | [] => [BitVec.ofNat 8 (a % 16)]
      | b :: l => BitVec.ofNat 8 (a % 16 + 16 * (b % 16)) :: packChunk w l
    else natLe (w / 8) a ++ packChunk w l

/-- The elements of a message's data. -/
def unpackChunk (w n : Nat) (bs : List Byte) : List Nat :=
  (List.range n).map fun i =>
    if w = 4 then bits (leNat ((bs.drop (i / 2)).take 1)) (4 * (i % 2) + 3) (4 * (i % 2))
    else leNat ((bs.drop (i * (w / 8))).take (w / 8))

/-- The data of a message: the elements, and after them the scale lines that go with them (R319; DESIGN CHOICE, log entry 70). -/
def ClProg.pack (p : ClProg) (vs : List Nat) (ls : List (List Byte)) : List Byte := packChunk p.ty.width vs ++ ls.flatten

/-- Bytes in blocks of 64. -/
def cut64 : Nat → List Byte → List (List Byte)
  | 0, _ => []
  | n + 1, bs => bs.take 64 :: cut64 n (bs.drop 64)

/-- The bytes of a chunk's elements. -/
def ClProg.bytes (p : ClProg) : Nat := ceilDiv (p.chunk * p.ty.width) 8

/-- The scale lines of a message's data. -/
def ClProg.linesIn (p : ClProg) (bs : List Byte) : List (List Byte) := cut64 ((bs.length - p.bytes) / 64) (bs.drop p.bytes)

/-- The operation of a code (R375). -/
def clAtomOp (op : Nat) : AtomOp :=
  match op with
  | 0 => .add | 1 => .adds | 2 => .min | 3 => .max | 4 => .fadd | _ => .fmax

/-- The hop index of a reduction (R376). -/
def ClProg.hop (p : ClProg) (c : Nat) : Nat := (((p.rank : Int) - (c % p.n : Nat)) % p.n).toNat + 1

/-- The draw of a floating addition (R59, R376). -/
def ClProg.draw (p : ClProg) (c m : Nat) : Nat :=
  if p.rnd.rm = 5 then kg16 p.rnd.seed (0xA0000000 + p.h.toNat % 2 ^ 29) ((c * p.chunk + m) * 512 + p.hop c) else 0

/-- A reduced chunk: P incoming, x local. A sticky injection fails the first element (R192, R375). -/
def ClProg.reduce (p : ClProg) (c : Nat) (ps xs : List Nat) : List Nat :=
  (ps.zip xs).mapIdx fun m v =>
    if injFails p.inj ∧ m = 0 then failedElem p.ty else atomNew (clAtomOp p.op) p.ty v.1 v.2 p.rnd.rm (p.draw c m)

/-! ### Starting (R369, R373, R374) -/

/-- The engine as a finder of storage errors. -/
def ClProg.finder (p : ClProg) : Finder := Finder.command p.home p.asid p.pc p.ins

/-! ### Faults (R381) -/

/-- A step reduces what it receives (R372). -/
def ClStep.reduces (a : ClStep) : Bool := a.kind == 4 || a.kind == 5

/-- The elements of a chunk, and its scale lines, where all can be read without an error. -/
def ClProg.peekChunk (p : ClProg) (s : State) (sh : Shape) (c : Nat) : Option (List Nat × List (List Byte)) :=
  let vs := (List.range p.chunk).mapM fun m =>
    let a := p.place c m sh
    (s.spacePeek (s.ctx p.ctx) sh.space a.1 (max 1 (p.ty.width / 8))).map fun bs =>
      if p.ty.width = 4 then bits (leNat bs) (4 * a.2 + 3) (4 * a.2) else leNat bs
  let ls := (sh.linesFor (c * p.chunk) p.chunk).mapM fun z => s.spacePeek (s.ctx p.ctx) sh.space (addAddr sh.addr z) 64
  vs.bind fun vs => ls.map fun ls => (vs, ls)

/-- The values and scale lines that a step in flight would write now: a `copy` step's, or a receive-type step's whose data has come. -/
def ClProg.pendingVals (p : ClProg) (s : State) (a : ClStep) : Option (List Nat × List (List Byte)) :=
  if a.wrote then none
  else if a.kind = 6 then a.reads.bind fun x => (p.slot x.1).bind fun sh => p.peekChunk s sh x.2
  else
    a.arrived.bind fun bs =>
      let ins := unpackChunk p.ty.width p.chunk bs
      if a.reduces then
        if p.inj = 0 then a.inn.bind fun i => (p.slot a.sa).bind fun sh => (p.peekChunk s sh i.2).map fun xs => (p.reduce i.2 ins xs.1, []) else none
      else some (ins, p.linesIn bs)

/-- What a step in flight has written when its program faults: a free choice for every byte (R381, log entry 5). -/
def ClProg.landStep (p : ClProg) (s : State) (a : ClStep) : State :=
  match p.pendingVals s a, a.writes with
  | some vs, some y =>
    (match p.slot y.1 with
    | none => s
    | some sh =>
      let s := ((sh.linesFor (y.2 * p.chunk) p.chunk).zip vs.2).foldl (fun (s : State) zl =>
        landBytes (s.ctx p.ctx) sh.space none (cleanLine sh.ty zl.2) (addAddr sh.addr zl.1) s) s
      ((List.range p.chunk).zip vs.1).foldl (fun (s : State) mv =>
        let at_ := p.place y.2 mv.1 sh
        if p.ty.width = 4 then landBytes (s.ctx p.ctx) sh.space (some (at_.2, mv.2)) [0] at_.1 s
        else landBytes (s.ctx p.ctx) sh.space none (natLe (p.ty.width / 8) mv.2) at_.1 s) s)
  | _, _ => s

/-- A program faults: of the writes of its steps in flight an unspecified part has been performed (R381). -/
def State.clFault (s : State) (p : ClProg) (c : Cause) : State := (p.active.foldl p.landStep s).clStop p .faulted (some c)

/-- The steps conflict (R373). -/
def ClStep.conflicts (o : ClStep) (r w : Option (Nat × Nat)) : Bool :=
  (o.writes.isSome && (o.writes == r || o.writes == w)) || (o.reads.isSome && o.reads == w)

/-- A step's access to a slot: the chunk lies in the record, and the record has the right (R367, R381). -/
def ClProg.access (p : ClProg) (x : Option (Nat × Nat)) (right : Shape → Bool) : Option Cause :=
  match x with
  | none => none
  | some (i, c) =>
    match p.slot i with
    | none => some .bounds
    | some sh => if (c + 1) * p.chunk > sh.count then some .bounds else if right sh then none else some .rights

/-- The first later `next` of a loop counter. -/
def ClProg.nextOf (p : ClProg) (i j : Nat) : Option Nat :=
  ((List.range p.words.length).filter fun k => decide (k > i)).find? fun k =>
    let w := ((p.words[k]?).getD 0).toNat
    bits w 63 60 == 11 && bits w 1 0 == j

/-- Sets an entry of a list of counters. -/
def setAt (l : List Nat) (i v : Nat) : List Nat := l.mapIdx fun k x => if k = i then v else x

/-- A step starts in a program: it is in flight, and sends its offer and its grant (R374). -/
def State.clLaunch (s : State) (p : ClProg) (o : ClOp) (inn out : Option (Nat × Nat)) : State :=
  if (inn.isSome || out.isSome) && (s.keyedPart p.ctx).isNone then s.clFault p .fabricKey
  else
    let kin := inn.map fun x => SMap.get 0 p.recvSeq x.1
    let kout := out.map fun x => SMap.get 0 p.sendSeq x.1
    let st : ClStep := {
      kind := o.kind, sa := o.sa, sb := o.sb, chunk := o.x2, reads := o.reads, writes := o.writes, inn := inn, out := out, seqIn := kin.getD 0,
      seqOut := kout.getD 0, tag := none, arrived := none, payload := none, inMoved := 0, outMoved := 0, nextAt := 0, wrote := o.writes.isNone,
      since := if inn.isSome || out.isSome then some s.time else none }
    let s := s.modProg p.ch p.id fun p =>
      { p with next := p.next + 1, active := p.active ++ [st],
               recvSeq := (match inn with | some x => SMap.put p.recvSeq x.1 (st.seqIn + 1) | none => p.recvSeq),
               sendSeq := (match out with | some x => SMap.put p.sendSeq x.1 (st.seqOut + 1) | none => p.sendSeq) }
    let s := match inn with
      | some x => s.clSend p x.1 .grant x.2 st.seqIn []
      | none => s
    match out with
    | some x => s.clSend p x.1 .offer x.2 st.seqOut []
    | none => s

/-- A program ends: the handle reads DONE, with REL when every write of the program has registered or been applied (R377). A write that its home
refuses makes it fault (R381). -/
def State.clEnd (s : State) (p : ClProg) : State :=
  if s.writesAway p.who then s
  else
    match s.writeRefused p.who with
    | some c => s.clFault p c
    | none => relThen p.rel p.relTag p.ctx (fun n s => s.modProg p.ch p.id fun p => { p with relTag := some n })
        (fun s => ((s.dropProg p.ch p.id).dropSent p.who).finish p.who .done none) s

/-- A step of a program is reached (R372, R373): it starts, waits, or faults. -/
def State.clReach (s : State) (p : ClProg) (o : ClOp) : State :=
  let go := fun (f : ClProg → ClProg) => s.modProg p.ch p.id f
  let j := bits o.aux 1 0
  match o.kind with
  | 0 => if p.active.isEmpty then s.clEnd p else s
  | 10 =>
    let set := fun (p : ClProg) => { p with loops := setAt p.loops j 0, counts := setAt p.counts j o.x3 }
    if o.x3 ≠ 0 then go fun p => { set p with next := p.next + 1 }
    else
      match p.nextOf p.next j with
      | some k => go fun p => { set p with next := k + 1 }
      | none => s.clFault p .bounds
  | 11 =>
    if o.x3 ≥ p.next then s.clFault p .bounds
    else
      let l := (p.loops[j]?).getD 0 + 1
      go fun p => { p with loops := setAt p.loops j l, next := if l < (p.counts[j]?).getD 0 then o.x3 else p.next + 1 }
  | k =>
    if p.active.length ≥ 8 ∨ (p.active.any fun a => a.conflicts o.reads o.writes) then s
    else if k = 8 then go fun p => { p with next := p.next + 1, waiting := some (bits o.aux 2 0, o.x3), waitSince := s.time }
    else if k = 9 ∧ p.flagaddr = 0 ∨ (k = 4 ∨ k = 5) ∧ p.op = 255 then s.clFault p .bounds
    else
      match p.access o.reads fun x => x.rd, p.access o.writes fun x => x.wr with
      | some c, _ => s.clFault p c
      | none, some c => s.clFault p c
      | none, none =>
        let ranks := (if k = 1 ∨ k = 2 ∨ k = 3 ∨ k = 4 ∨ k = 5 ∨ k = 7 then [o.x1] else []) ++ (if k = 3 ∨ k = 4 then [o.x3] else [])
        if ranks.any fun r => (p.peer s r).isNone then s.clFault p .collPeer
        else if k = 7 then
          if (s.keyedPart p.ctx).isNone then s.clFault p .fabricKey
          else (s.clSend p o.x1 .signal 0 (bits o.aux 2 0) []).modProg p.ch p.id fun p => { p with next := p.next + 1 }
        else if k = 1 then s.clLaunch p o none (some (o.x1, o.x2))
        else if k = 2 ∨ k = 5 then s.clLaunch p o (some (o.x1, o.x2)) none
        else if k = 3 ∨ k = 4 then s.clLaunch p o (some (o.x1, o.x2)) (some (o.x3, o.x2))
        else s.clLaunch p o none none

/-- The running program of a channel. -/
def State.clHead (s : State) (ch : Nat) : Option ClProg := (s.chan ch).progs.head?

/-- CL_STEP_START: the next step of a channel's running program starts when its conditions hold (R373). -/
def execClStepStart (ch : Nat) (s : State) : Out State :=
  .next (match s.clHead ch with
    | none => s
    | some p =>
      if !p.started then s
      else
        match p.waiting with
        | some (k, n) =>
          let have_ := (p.sigs[k]?).getD 0
          if have_ ≥ n then s.modProg ch p.id fun p => { p with sigs := setAt p.sigs k (have_ - n), waiting := none } else s
        | none =>
          match p.words[p.next]? with
          | none => s.clFault p .bounds
          | some w =>
            match p.decode w.toNat with
            | none => s.clFault p .bounds
            | some o => s.clReach p o)

/-! ### Messages (R374, R378 to R380) -/

/-- A disagreement stops the receiving program, and a refusal stops the sending one (R378): it leaves before the program's abort. -/
def State.clMismatch (s : State) (p : ClProg) (msg : ClMsg) : State :=
  (s.clRefuse msg .refuseMismatch p.rank p.hash).clFault p .collMismatch

/-- A message reaches a program that runs (R374, R378). -/
def State.clDeliver (s : State) (p : ClProg) (msg : ClMsg) : State :=
  match msg.kind with
  | .signal => s.modProg p.ch p.id fun p => { p with sigs := setAt p.sigs (msg.k % 8) ((p.sigs[msg.k % 8]?).getD 0 + 1) }
  | .grant =>
    if p.active.any fun a => a.out.isSome && a.out.map Prod.fst == some msg.rank && a.seqOut == msg.k && a.out.map Prod.snd != some msg.chunk then
      s.clMismatch p msg
    else s.modProg p.ch p.id fun p => { p with grants := p.grants ++ [{ rank := msg.rank, k := msg.k, chunk := msg.chunk }] }
  | .data =>
    let meant := fun (a : ClStep) => a.inn.isSome && a.inn.map Prod.fst == some msg.rank && a.seqIn == msg.k && a.arrived.isNone
    match p.active.find? meant with
    | none => s
    | some a =>
      if a.inn.map Prod.snd ≠ some msg.chunk then s.clMismatch p msg
      else s.modProg p.ch p.id fun p => { p with active := replaceWhere meant (fun a => { a with arrived := some msg.data }) p.active }
  | _ => s

/-- A program of a group of a context by its tag and number (R374). -/
def State.clProgOf (s : State) (ctx grp : Nat) (gtag h : Word) : Option ClProg :=
  s.progs.find? fun p => p.ctx == ctx && p.grp == grp && p.gtag == gtag && p.h == h

/-- A number has not been reached by SEQ: at most half the range ahead of it. -/
def clAhead (seq : Nat) (h : Word) : Bool := decide ((h - BitVec.ofNat 32 seq).toNat < 2 ^ 31)

/-- A message is held on its channel (R374). With 64 held the table is full: the message goes back to its sender, which sends it again. -/
def State.clHold (s : State) (msg : ClMsg) : State :=
  let c := s.chan msg.ch
  if c.held.length ≥ 64 then s.sendPort (OutMsg.coll msg.peer { msg with peer := s.peerId, full := true })
  else s.putChan msg.ch { c with held := c.held ++ [msg] }

/-- A message that a full table sent back is sent again (R374). -/
def State.clResend (s : State) (msg : ClMsg) : State :=
  s.sendPort (OutMsg.coll msg.peer { msg with peer := s.peerId, full := false })

/-- A message meets the program that it is for (R378, R379). -/
def State.clMeet (s : State) (p : ClProg) (msg : ClMsg) : State :=
  match msg.kind with
  | .abort => s.clFault p .collPeer
  | .refusePeer => s.clFault p .collPeer
  | .refuseMismatch => s.clFault p .collMismatch
  | _ =>
    if p.ch ≠ msg.ch ∨ p.hash ≠ msg.hash then s.clMismatch p msg
    else if p.started then s.clDeliver p msg
    else s.clHold msg

/-- A message that passed its authentication, against the state of this device (R378, R379). While the group table cannot be read yet, it waits
where it came in. -/
def State.clJudge (s : State) (slot : Nat) (msg : ClMsg) : State :=
  let back := msg.kind = .abort ∨ msg.kind = .refuseMismatch ∨ msg.kind = .refusePeer
  let c := s.ctx slot
  match s.groupNeeds c with
  | some needs => s.emitNeeds needs
  | none =>
    let s := s.meetRange (Finder.engine 0 c.asid 0) c (c.groupVa 0) 8192
    match s.groupOf c msg.gtag with
    | none => if back then s else s.clRefuse msg .refusePeer msg.rank msg.hash
    | some (g, e) =>
      match s.clProgOf slot g msg.gtag msg.h with
      | some p => s.clMeet p msg
      | none =>
        if clAhead (grpSeq e) msg.h then s.clHold msg
        else if back then s else s.clRefuse msg .refusePeer (grpRank e) msg.hash

/-- Messages that no key of a partition authenticates are discarded and counted, and the partition's running programs on the channel fault
(R380). -/
def State.clReject (s : State) (msg : ClMsg) : State :=
  let s := { s with pkg := { s.pkg with discarded := s.pkg.discarded + 1 } }
  match s.keyedCtx msg.part with
  | none => s
  | some slot =>
    match s.clHead msg.ch with
    | some p => if p.started ∧ p.ctx = slot then s.clFault p .fabricKey else s
    | none => s

/-- A message arrives on a channel. -/
def State.clArrive (s : State) (msg : ClMsg) : State :=
  if !msg.auth then s.clReject msg
  else
    match s.keyedCtx msg.part with
    | none => { s with pkg := { s.pkg with discarded := s.pkg.discarded + 1 } }
    | some slot => if msg.full then s.clResend msg else s.clJudge slot msg

/-- CL_MESSAGE_ARRIVE. -/
def execClMessageArrive (msg : ClMsg) (s : State) : Out State := .next (s.clArrive msg)

/-- CL_ABORT_ARRIVE: an abort for (GTAG, h) from another rank (R379). -/
def execClAbortArrive (msg : ClMsg) (s : State) : Out State := .next (s.clArrive { msg with kind := .abort })

/-- The held messages for a program come up again: at its acceptance, and at its start. -/
def State.clRelease (s : State) (p : ClProg) : State :=
  let first := ((s.groupOf (s.ctx p.ctx) p.gtag).map Prod.fst).getD p.grp
  let mine := fun (m : ClMsg) => first == p.grp && m.gtag == p.gtag && m.h == p.h && s.keyedCtx m.part == some p.ctx
  let ms := s.chans.flatMap fun kc => kc.2.held.filter mine
  let s := { s with chans := s.chans.map fun kc => (kc.1, { kc.2 with held := kc.2.held.filter fun m => !mine m }) }
  ms.foldl (fun (s : State) m =>
    match s.progs.find? fun q => q.id == p.id with
    | some p => s.clMeet p m
    | none => if m.kind = .abort ∨ m.kind = .refuseMismatch ∨ m.kind = .refusePeer then s else s.clRefuse m .refusePeer p.rank p.hash) s

/-- CL_PROGRAM_START: the program at the head of a channel's queue starts; its words are read into step memory (R369). On a channel whose ports
are all down it faults (R379); it waits for a port group that does not run (R426). -/
def execClProgramStart (ch : Nat) (s : State) : Out State :=
  .next (match s.clHead ch with
    | none => s
    | some p =>
      if p.started then s
      else if (s.island (120 + ch / 2)).st ≠ .run then s.wantIslands [120 + ch / 2]
      else if s.chanDown ch then s.clFault p .collPeer
      else
        let s := s.meetRange p.finder (s.ctx p.ctx) p.steps (8 * p.nsteps)
        if !((s.clHead ch).map fun q => q.id) == some p.id then s
        else
          match s.look (s.ctx p.ctx) p.steps (8 * p.nsteps) with
          | .fault c => s.clFault p c
          | .wait n => s.emitNeeds n
          | .ok x => (s.modProg ch p.id fun p => { p with started := true, words := natDwords p.nsteps x }).clRelease p)

/-! ### Progress and completion (R373, R374, R389) -/

/-- Changes a step in flight, by its place. -/
def State.modStep (s : State) (p : ClProg) (i : Nat) (f : ClStep → ClStep) : State :=
  s.modProg p.ch p.id fun p => { p with active := p.active.mapIdx fun k a => if k = i then f a else a }

/-- A step has completed. -/
def State.dropStep (s : State) (p : ClProg) (i : Nat) : State := s.modProg p.ch p.id fun p => { p with active := p.active.eraseIdx i }

/-- The grant of a collective piece of `n` bytes, one unit: column 0 sends or receives it, column 1 reduces it (R389, R406). -/
def State.clGrant (s : State) (f n dur : Nat) : Option State :=
  let pr := s.price 46 f
  s.grantUnit (ceilDiv (pr * n) 4096) (ceilDiv (pr * 200) 4096) none (s.time + dur)

/-- The next piece of a transfer of `b` bytes of which `m` have moved, and how long it takes. -/
def clPiece (b m : Nat) : Nat × Nat :=
  let n := min 4096 (b - m)
  (n, max 1 (ceilDiv (m + n) 200 - ceilDiv m 200))

/-- The sending part of a step: it waits for the grant, moves its pieces, and the data leaves (R374). A piece that the metering engine or the
governor holds is waited for too (R384). -/
def State.clSendPart (s : State) (p : ClProg) (i : Nat) (a : ClStep) (dest chunk : Nat) : State :=
  match p.grants.find? fun g => g.rank == dest && g.k == a.seqOut with
  | none => s
  | some g =>
    if g.chunk ≠ chunk then
      let s := s.clSend p dest .refuseMismatch 0 0 []
      s.clFault p .collMismatch
    else if a.outMoved < p.bytes then
      let q := clPiece p.bytes a.outMoved
      if s.time < a.nextAt then s
      else
        match s.clGrant 0 q.1 q.2 with
        | none => s
        | some t => t.modStep p i fun a => { a with outMoved := a.outMoved + q.1, nextAt := s.time + q.2, since := some (s.time + q.2) }
    else if s.time < a.nextAt then s
    else (s.clSend p dest .data chunk a.seqOut (a.payload.getD [])).dropStep p i

/-- The data of a receive-type step has arrived and been charged: the step acts on it (R372, R373). -/
def State.clApply (s : State) (p : ClProg) (i : Nat) (a : ClStep) (chunk : Nat) : State :=
  let c := s.ctx p.ctx
  let come := a.arrived.getD []
  let ins := unpackChunk p.ty.width p.chunk come
  let red : ChunkRes :=
    if a.reduces then
      match p.slot a.sa with
      | some sh =>
        (match p.readChunk c p.finder sh chunk s with
          | .ok s xs _ =>
            .ok (s.settleElement p.inj 7 p.uid p.asid p.pc p.ins ((({ p with inj := 0 } : ClProg).reduce chunk ins xs).headD 0))
              (p.reduce chunk ins xs) []
          | r => r)
      | none => .fault .bounds
    else .ok s ins (p.linesIn come)
  match red with
  | .fault f => s.clFault p f
  | .wait n => s.emitNeeds n
  | .ok s outs ls =>
    let w : SpRes := match a.writes.bind fun x => p.slot x.1 with
      | some sh => p.writeChunk c p.finder sh chunk ((List.range p.chunk).zip outs) ls s
      | none => .ok s [] false
    match w with
    | .fault f => s.clFault p f
    | .wait n => s.emitNeeds n
    | .ok s _ _ =>
      let s := if a.reduces then s.modProg p.ch p.id fun p => { p with inj := 0 } else s
      if a.out.isSome then s.modStep p i fun a => { a with payload := some (p.pack outs ls), wrote := true, since := some s.time }
      else s.dropStep p i

/-- The next piece of a step that has come is granted for receiving. -/
def State.clReceive (s : State) (p : ClProg) (i : Nat) (a : ClStep) : State × Nat :=
  let q := clPiece p.bytes a.inMoved
  if a.inMoved ≥ p.bytes ∨ s.time < a.nextAt then (s, a.inMoved)
  else
    match s.clGrant 0 q.1 q.2 with
    | none => (s, a.inMoved)
    | some t =>
      (t.modStep p i fun a => { a with inMoved := a.inMoved + q.1, nextAt := s.time + q.2, since := some (s.time + q.2) }, a.inMoved + q.1)

/-- A piece that has been granted for receiving is granted for its reduction, a unit of its own (R389). -/
def State.clReduce (s : State) (p : ClProg) (i : Nat) (a : ClStep) (come : Nat) : State :=
  let q := clPiece p.bytes a.redMoved
  if !a.reduces ∨ a.redMoved ≥ come ∨ s.time < a.redAt then s
  else
    match s.clGrant 1 q.1 q.2 with
    | none => s
    | some t => t.modStep p i fun a => { a with redMoved := a.redMoved + q.1, redAt := s.time + q.2, since := some (s.time + q.2) }

/-- The receiving part of a step: its pieces are granted as they can be, and the step acts when the last have run. -/
def State.clRecvPart (s : State) (p : ClProg) (i : Nat) (a : ClStep) (chunk : Nat) : State :=
  if a.arrived.isNone then s
  else if a.inMoved < p.bytes ∨ (a.reduces ∧ a.redMoved < p.bytes) then
    let r := s.clReceive p i a
    r.1.clReduce p i a r.2
  else if s.time < a.nextAt ∨ s.time < a.redAt then s
  else s.clApply p i a chunk

/-- A `copy` step moves its chunk (R372). -/
def State.clCopy (s : State) (p : ClProg) (i : Nat) (a : ClStep) : State :=
  match a.reads, a.writes with
  | some (x, cx), some (y, cy) =>
    (match p.slot x, p.slot y with
    | some src, some dst =>
      let c := s.ctx p.ctx
      (match p.readChunk c p.finder src cx s with
      | .fault f => s.clFault p f
      | .wait n => s.emitNeeds n
      | .ok s vs ls =>
        match p.writeChunk c p.finder dst cy ((List.range p.chunk).zip vs) ls s with
        | .fault f => s.clFault p f
        | .wait n => s.emitNeeds n
        | .ok s _ _ => s.dropStep p i)
    | _, _ => s.clFault p .bounds)
  | _, _ => s

/-- The exchange of a flag step, at the word's home atomic unit (R271, R377): the answer holds the number before which it is applied. -/
def State.flagExchange (s : State) (p : ClProg) (va : Nat) (ps : List (Nat × Nat)) : Nat × State :=
  let c := s.ctx p.ctx
  let key := (ps.headD (0, 0)).1
  let s :=
    if peerHome key then
      let s := ((s.voidLoads c.asid va 4).ownWords atomicOwner c.asid va 4).dropCopies [] c.asid va 4
      s.sendAsk .engine atomicOwner c.asid key va (.atomic .xchg .b32 (p.flagv.zeroExtend 64) 0 0)
    else (s.engineRead p.finder key va 4).1.engineStore c va ps (natLe 4 p.flagv.toNat)
  (s.nextId, s)

/-- A `flag` step: after the local writes of every earlier step and a release, the exchange at the flag word's home unit; the step completes when
the exchange has been applied (R372, R373, R377). -/
def State.clFlag (s : State) (p : ClProg) (i idx : Nat) (a : ClStep) : State :=
  let va := p.flagaddr + 4 * idx
  let note := fun (n : Nat) (s : State) => s.modStep p i fun a => { a with tag := some n }
  if a.payload.isSome then if s.registered (a.tag.getD 0) then s.dropStep p i else s
  else if !((p.active.take i).all fun a => a.wrote) then s
  else
    relThen true a.tag p.ctx note (fun s =>
      match s.vaRange (s.ctx p.ctx) .atomic va 4 with
      | .fault f => s.clFault p (engineCause f)
      | .wait n => s.emitNeeds n
      | .ok ps =>
        let before := s.nextId
        let r := s.flagExchange p va ps
        let r := (r.1, r.2.stampWrites before p.who)
        if r.2.registered r.1 then r.2.dropStep p i
        else r.2.modStep p i fun a => { a with payload := some [], tag := some r.1 }) s

/-- A `send` step reads its chunk when its grant lets it move (R373, R374). -/
def State.clSendStep (s : State) (p : ClProg) (i : Nat) (a : ClStep) (dest chunk : Nat) : State :=
  if a.payload.isSome then s.clSendPart p i a dest chunk
  else if !(p.grants.any fun g => g.rank == dest && g.k == a.seqOut) then s
  else
    match p.slot a.sa with
    | none => s.clFault p .bounds
    | some sh =>
      match p.readChunk (s.ctx p.ctx) p.finder sh chunk s with
      | .fault f => s.clFault p f
      | .wait n => s.emitNeeds n
      | .ok s vs ls =>
        let a := { a with payload := some (p.pack vs ls) }
        (s.modStep p i fun _ => a).clSendPart p i a dest chunk

/-- CL_STEP_COMPLETE: a step in flight, named by its place, goes on: its pieces are granted, its data moves, is reduced or written, leaves, and
its flag is exchanged; with its last effect it completes (R373). -/
def execClStepComplete (ch idx : Nat) (s : State) : Out State :=
  .next (match s.clHead ch with
    | none => s
    | some p =>
      match p.active[idx]? with
      | none => s
      | some a =>
        match a.kind, a.inn, a.out with
        | 6, _, _ => s.clCopy p idx a
        | 9, _, _ => s.clFlag p idx a.chunk a
        | _, none, some (dest, c) => s.clSendStep p idx a dest c
        | _, some (_, c), none => s.clRecvPart p idx a c
        | _, some (_, c), some (dest, c') => if a.payload.isSome then s.clSendPart p idx a dest c' else s.clRecvPart p idx a c
        | _, none, none => s)

/-- The cycles that a step may wait (R364). -/
def State.clTmo (s : State) : Nat :=
  let t := bits s.pkg.clcfg.toNat 5 0
  2 ^ (if 20 ≤ t ∧ t ≤ 40 then t else 30)

/-- CL_STEP_TIMEOUT: a step, or a `wait` after the steps in flight, has waited too long (R379). -/
def execClStepTimeout (ch idx : Nat) (s : State) : Out State :=
  .next (match s.clHead ch with
    | none => s
    | some p =>
      let late := fun (x : Nat) => decide (s.time - x ≥ s.clTmo)
      let out : Bool := match p.active[idx]? with
        | some a => (a.since.map late).getD false
        | none => p.waiting.isSome && late p.waitSince
      if p.started && out then s.clFault p .collPeer else s)

/-! ### Lost peers and ports (R362, R379) -/

/-- A program's steps in flight name a rank of a peer. -/
def ClProg.names (p : ClProg) (peer : Nat) : Bool :=
  p.active.any fun a => (a.inn.toList ++ a.out.toList).any fun x => p.map[x.1]? == some peer

/-- FABRIC_PEER_LOST: the fabric manager reports a peer lost; the programs whose steps name it fault, as does each later step that does. -/
def execFabricPeerLost (peer : Nat) (s : State) : Out State :=
  .next (
    let s := { s with pkg := { s.pkg with lost := if s.pkg.lost.contains peer then s.pkg.lost else s.pkg.lost ++ [peer] } }
    (s.progs.filter fun p => p.names peer).foldl (fun (s : State) p => s.clFault p .collPeer) s)

/-- The programs of a channel whose ports are all down fault (R379). -/
def State.clPortsDown (s : State) (ch : Nat) : State :=
  if s.chanDown ch then (s.chan ch).progs.foldl (fun (s : State) p => s.clFault p .collPeer) s else s

/-- The programs of a partition fault when its key is zeroised (R380). -/
def State.clKeyGone (s : State) (slot : Nat) : State :=
  (s.progs.filter fun p => p.ctx == slot).foldl (fun (s : State) p => s.clFault p .fabricKey) s

/-! ### Instructions (R382, R383) -/

/-- `cl.run`. -/
def execClRun (h : Hdr) (d a b : RegNo) (acq rel : Bool) (s : State) : Out State :=
  let i : Instr := .clRun h d a b acq rel
  withTeam i s (teamOp i h d 1 [(a, 2), (b, 1)] fun s t gs _ vs =>
    let da := vs.headD 0
    let ch := (vs[1]?).getD 0
    if ch < 16 ∧ ((s.chan ch).progs.filter fun p => !p.started).length ≥ 8 then .hold s
    else withAcq acq s t fun s =>
      let s := s.clMeets t i da
      if (s.team? t.uid).isNone then .jump s
      else
        match s.clCheck t i da ch rel with
        | .wait n => .hold (s.holdNeeds t.uid n)
        | .fault c => withHandle s t d gs 5 fun s who _ => .done (s.finish who .faulted (some c))
        | .ok _ => withHandle s t d gs 5 fun s who _ =>
          match s.clCheck t i da ch rel with
          | .ok (s, p) =>
            let p := { p with who := who }
            let c := s.chan ch
            let s := ((s.putChan ch { c with progs := c.progs ++ [p] }).takeInj t.uid 7).clRelease p
            .done (s.clPortsDown ch)
          | _ => .done s)

/-- A handle of the team's collective engine that is not stale. -/
def Team.clHandle (t : Team) (x : Nat) : Bool := bits x 15 13 == 5 && (t.slotOf (bits x 5 0)).gen == bits x 12 6

/-- The program of a pending collective handle. -/
def State.clOf (s : State) (t : Team) (x : Nat) : Option ClProg :=
  if t.clHandle x then s.progs.find? fun p => p.who.uid == t.uid && p.who.slot == bits x 5 0 else none

/-- `cl.cncl`. -/
def execClCncl (h : Hdr) (d a : RegNo) (s : State) : Out State :=
  let i : Instr := .clCncl h d a
  withTeam i s (teamOp i h d 1 [(a, 1)] fun s t gs _ vs =>
    match s.clOf t (vs.headD 0) with
    | none => .done (s.answer t.uid d 1 gs 0)
    | some p => .done ((s.clStop p .cancelled none).answer t.uid d 1 gs 1))

/-- A field of a group entry that `cl.info` selects; none for the peer number of a rank, which lies in the map. -/
def clField (a e : Nat) : Option Nat :=
  if a ≥ 2 ^ 20 ∨ !grpV e then some (2 ^ 32 - 1)
  else
    match bits a 2 0 with
    | 0 => some (grpRank e)
    | 1 => some (grpN e)
    | 2 => some (grpSeq e)
    | 3 => if bits a 19 11 ≥ grpN e then some (2 ^ 32 - 1) else none
    | 4 => some (grpTag e).toNat
    | _ => some 0

/-- An ordinary load of the team for `cl.info` (R383): what cannot be read reads as all ones. -/
def infoLoad (i : Instr) (d : RegNo) (gs : List Nat) (lead a n : Nat) (s : State) (t : Team) (k : State → Nat → Res) : Res :=
  match s.vaRange (s.ctxOf t) .read a n with
  | .fault _ => .done (s.answer t.uid d 1 gs (2 ^ 32 - 1))
  | _ => withLoad i d gs lead a n s t k

/-- `cl.info`. -/
def execClInfo (h : Hdr) (d a : RegNo) (s : State) : Out State :=
  let i : Instr := .clInfo h d a
  withTeam i s (teamOp i h d 1 [(a, 1)] fun s t gs lead vs =>
    let x := vs.headD 0
    let put := fun (s : State) (v : Nat) => Res.done (s.answer t.uid d 1 gs v)
    if x ≥ 2 ^ 20 then put s (2 ^ 32 - 1)
    else infoLoad i d gs lead ((s.ctxOf t).groupVa (bits x 10 3)) 32 s t fun s e =>
      match clField x e with
      | some v => put s v
      | none => infoLoad i d gs lead (grpMap e + 2 * bits x 19 11) 2 s t fun s m => put s (m % 512))

/-- `cl.prog`. -/
def execClProg (h : Hdr) (d a : RegNo) (s : State) : Out State :=
  let i : Instr := .clProg h d a
  withTeam i s (teamOp i h d 1 [(a, 1)] fun s t gs _ vs =>
    let x := vs.headD 0
    let v :=
      if !t.clHandle x ∨ (t.slotOf (bits x 5 0)).eng ≠ 5 then 3 * 2 ^ 30
      else
        match s.clOf t x with
        | some p => if p.started then 2 ^ 30 + p.next else 0
        | none => 2 * 2 ^ 30
    .done (s.answer t.uid d 1 gs v))

/-- `cl.abort`. -/
def execClAbort (h : Hdr) (d a : RegNo) (s : State) : Out State :=
  let i : Instr := .clAbort h d a
  withTeam i s (teamOp i h d 1 [(a, 1)] fun s t gs _ vs =>
    let x := vs.headD 0
    let ps := if x ≥ 256 then [] else s.progs.filter fun p => p.ctx == t.ctx && p.grp == x
    let s := ps.foldl (fun (s : State) p => s.clStop p .cancelled none) s
    .done (s.answer t.uid d 1 gs ps.length))

end Sys2Proof.Machine
end

