-- ==== Sys2Proof/Machine/Metering.lean ====
section
/-! DEFINITION. The metering engine's buckets (R387 to R403): what an instruction pays, refills, the reservation, the metering instructions, and
writes of the price table and of `TKCORE`. -/

namespace Sys2Proof.Machine

open Sys2Proof

/-! ### `TKCORE` (R391) -/

/-- RTO and DMAX of a core's `TKCORE`. -/
def Core.rto (c : Core) : Nat := max 1 (bits c.tkcore.toNat 51 40)
def Core.dmax (c : Core) : Nat := bits c.tkcore.toNat 15 0

/-- A write of `TKCORE`: the reserved fields stay zero, and a lowered CAP cuts the balance (R391). -/
def Core.setTk (c : Core) (v : DWord) : Core :=
  let c := { c with tkcore := v &&& 0x000F_FFFF_CFFF_FFFF }
  { c with bal := min c.bal c.cap }

/-! ### Owners and their writes (R440) -/

/-- `MOWN`.OWNER. -/
def Pkg.owner (p : Pkg) : Nat := bits p.mown.toNat 63 62

/-- Writes `MOWN`; every change signals vector 64 (R439). -/
def State.setMown (s : State) (m : Nat) : State :=
  let w := BitVec.ofNat 64 m
  if w = s.pkg.mown then s else ({ s with pkg := { s.pkg with mown := w } } : State).signal 64

/-- A write that is discarded advances DROPS, which saturates (R440). -/
def State.dropWrite (s : State) : State :=
  let m := s.pkg.mown.toNat
  s.setMown (withBits m 15 0 (min 65535 (bits m 15 0 + 1)))

/-- The board controller is heard on its bus, which is silent between its accesses (R440, log entry 45). -/
def State.heard (s : State) (master : Nat) : State :=
  if master = 3 ∧ s.pkg.owner = 3 then { s with pkg := { s.pkg with ownerDownSince := some s.time } } else s

/-- A write of a master is performed for the owner and discarded otherwise (R437, R440). -/
def State.ownerWrite (s : State) (master : Nat) (k : State → State) : State :=
  if master ≠ 0 ∧ s.pkg.owner = master then k (s.heard master) else s.dropWrite

/-- Sets an entry of the price table; reserved classes ignore it (R388). -/
def State.setPrice (s : State) (c f v : Nat) : State :=
  if c ≥ 64 ∨ f ≥ 16 ∨ reservedClass c then s else { s with prices := SMap.put s.prices (c * 16 + f) (v % 65536) }

/-- PRICE_TABLE_WRITE: an owner's write of an entry (R388, R437). -/
def execPriceTableWrite (master c f : Nat) (value : DWord) (s : State) : Out State :=
  .next (s.ownerWrite master fun s => s.setPrice c f value.toNat)

/-- TKCORE_WRITE (R391). -/
def execTkcoreWrite (master core : Nat) (value : DWord) (s : State) : Out State :=
  .next (s.ownerWrite master fun s => if core < 384 then s.putCore core ((s.core core).setTk value) else s)

/-! ### Paying at issue (R395) -/

/-- Sets the team's debt on one of its cores, which saturates at 65,535 (R399). -/
def Team.setDebt (t : Team) (core x : Nat) : Team :=
  if core = t.home then { t with debtHome := min 65535 x } else { t with debtOdd := min 65535 x }

/-- What a core says to a price (R395). -/
inductive Pay where
  | free | pays (bal debt : Nat) | overflow | held
  deriving DecidableEq, Repr

/-- The rule of R395 for a price and a debt. -/
def Core.pay (c : Core) (debt p : Nat) : Pay :=
  if debt > 0 then .held
  else if p = 0 then .free
  else if p > c.cap + c.dmax then .overflow
  else if p ≤ c.cap ∧ p ≤ c.bal then .pays (c.bal - p) 0
  else if p > c.cap ∧ c.bal = c.cap then .pays 0 (p - c.cap)
  else .held

/-- Debits a price on one of the team's cores. -/
def State.debit (s : State) (uid core p : Nat) : State :=
  match s.team? uid with
  | none => s
  | some t =>
    match (s.core core).pay (t.debtOn core) p with
    | .pays b d =>
      let s := s.putCore core { s.core core with bal := b }
      if d = 0 then s
      else { (s.putTeam (t.addDebt (core != t.home) d s.nextId)) with nextId := s.nextId + 1 }
    | _ => s

/-! ### Refills (R393, R394) -/

/-- Repays debts in order with a refill; the answer is what is left of it. -/
def repay (core : Nat) : List Team → Nat → State → State × Nat
  | [], r, s => (s, r)
  | t :: ts, r, s =>
    let k := min r (t.debtOn core)
    repay core ts (r - k) (s.modTeam t.uid fun t => t.setDebt core (t.debtOn core - k))

/-- A token placed in a core adds to the load of this reference cycle and of its die (R405, R408). -/
def Governor.placeRefill (g : Governor) (die k : Nat) : Governor :=
  { g with loadNow := g.loadNow + k, dieNow := g.dieNow.mapIdx fun i x => if i = die then x + k else x }

/-- CORE_REFILL: a core adds RATE to its fraction, and draws from its die bucket what it can place: on debts first, then up to CAP; the level
bounds what is placed (R393, R408). -/
def execCoreRefill (core : Nat) (s : State) : Out State :=
  let c := s.core core
  let sum := c.frac + c.rate
  let die := dieOf core
  let owed := ((s.debtors core).map fun t => t.debtOn core).sum
  let room := owed + (c.cap - c.bal)
  let k := min (min (sum / 16) room) (min (s.dieBal die) (s.gov.level - s.gov.loadNow))
  let s := s.putCore core { c with frac := sum % 16 }
  let s := { s.setDieBal die (s.dieBal die - k) with gov := s.gov.placeRefill die k }
  let r := repay core (s.debtors core) k s
  let c := r.1.core core
  .next (r.1.putCore core { c with bal := min c.cap (c.bal + r.2) })

/-- What a die bucket takes from the package bucket (R393). -/
def State.fillDie (s : State) (d : Nat) : State :=
  let cap := if d = 0 then s.pkg.dcap0 else s.pkg.dcap1
  let k := min s.pkg.pbal (cap - s.dieBal d)
  let s := { s with pkg := { s.pkg with pbal := s.pkg.pbal - k } }
  s.setDieBal d (s.dieBal d + k)

/-- A die's pointer moves on to its next core (R394). -/
def nextDiePtr (p : Nat) : Nat := (p + 1) % 192

/-- The cores of a list in the order in which their die buckets serve them: a die's in ascending order from its pointer on (R394). -/
def State.refillOrder (s : State) (ks : List Nat) : List Nat :=
  let turn := fun (k : Nat) => (k % 192 + 192 - (if dieOf k = 0 then s.pkg.diePtr0 else s.pkg.diePtr1)) % 192
  sortBy (fun a b => decide (dieOf a * 192 + turn a < dieOf b * 192 + turn b)) ks

/-- DIE_REFILL: the package bucket receives the governor's income, the level's tokens of this reference cycle, each die bucket fills from
it, die 0 first in even reference cycles, and the dies' pointers move on (R393, R394, log entry 18). -/
def execDieRefill (s : State) : Out State :=
  let s := { s with pkg := { s.pkg with
    pbal := min s.pkg.pcap (s.pkg.pbal + s.gov.level), diePtr0 := nextDiePtr s.pkg.diePtr0, diePtr1 := nextDiePtr s.pkg.diePtr1 } }
  .next (if s.time % 2 = 0 then (s.fillDie 0).fillDie 1 else (s.fillDie 1).fillDie 0)

/-! ### The reservation (R397) -/

/-- The cycles for which a team has been held for payment alone on one of its cores. -/
def Team.heldOn (t : Team) (core : Nat) : Nat := if core = t.home then t.heldHome else t.heldOdd

/-- RESERVATION_TAKE: a team held for RTO cycles takes the core's reservation, or joins its queue (R397). -/
def execReservationTake (core uid : Nat) (s : State) : Out State :=
  .next (match s.team? uid with
    | none => s
    | some t =>
      let c := s.core core
      if !t.cores.contains core ∨ t.res = .evicted ∨ t.heldOn core < c.rto ∨ c.resv = some uid ∨ c.resvQ.contains uid then s
      else
        match c.resv with
        | none => s.putCore core { c with resv := some uid }
        | some _ => s.putCore core { c with resvQ := c.resvQ ++ [uid] })

/-! ### Instructions (R402) -/

/-- `tk.price`. -/
def execTkPrice (h : Hdr) (d a : RegNo) (s : State) : Out State :=
  let i : Instr := .tkPrice h d a
  withTeam i s fun s t => groupOp i h d [(a, 1)] (fun _ _ vs =>
    let x := vs.headD 0
    URes.num 1 (s.price (bits x 9 4) (bits x 3 0))) s t

/-- `tk.dbal`. -/
def execTkDbal (h : Hdr) (d a : RegNo) (s : State) : Out State :=
  let i : Instr := .tkDbal h d a
  withTeam i s fun s t => groupOp i h d [(a, 1)] (fun t _ vs =>
    let own := dieOf t.home
    URes.num 1 (match bits (vs.headD 0) 1 0 with
      | 0 => s.dieBal own
      | 1 => s.dieBal (1 - own)
      | 2 => s.pkg.pbal
      | _ => (s.core t.home).bal)) s t

/-- A team held in `tk.wait` finds no debt and the balance that it waits for (R402). -/
def State.tokensMet (s : State) (t : Team) (m : Nat) : Bool := t.debtHome == 0 && decide ((s.core t.home).bal ≥ m)

/-- `tk.wait`. -/
def execTkWait (h : Hdr) (a : RegNo) (s : State) : Out State :=
  let i : Instr := .tkWait h a
  withTeam i s (teamOp i h 192 0 [(a, 1)] fun s t _ _ vs =>
    let m := min (vs.headD 0) (s.core t.home).cap
    if s.tokensMet t m then .done s else .hold (s.modTeam t.uid fun t => { t with hold := .tokens m, heldLen := i.length }))

end Sys2Proof.Machine
end

