-- ==== Sys2Proof/Machine/Sfu.lean ====
section
/-! DEFINITION. Roots, base-2 exponentials and logarithms, sines and cosines, and the turn reduction: the correctly rounded ones from exact
integer arithmetic, the approximations from fixed point with the free error that R172 leaves (R171 to R174; log entry 10). -/

namespace Sys2Proof.Machine

open Sys2Proof

/-! ### Quotients and roots, correctly rounded -/

/-- An exact quotient of finite magnitudes, cut to at least 100 bits: the cut value, its exponent, and whether something was cut. -/
def quot (m : Nat) (e : Int) (n : Nat) (f : Int) : Nat × Int × Bool :=
  let k := 101 + log2 n
  (m * 2 ^ k / n, e - f - k, m * 2 ^ k % n != 0)

/-- The square root of a number below 2^(2n), rounded down, bit by bit. -/
def isqrt : Nat → Nat → Nat → Nat
  | 0, _, r => r
  | n + 1, x, r => isqrt n x (if (r + 2 ^ n) * (r + 2 ^ n) ≤ x then r + 2 ^ n else r)

/-- `v.frcp` (R171). -/
def recip (rm draw : Nat) (x : FVal) : Nat :=
  match x with
  | .nan => Fmt.nan .f32
  | .inf n => Fmt.signed .f32 n 0
  | .fin n m e =>
    if m = 0 then Fmt.signed .f32 n (Fmt.infBits .f32)
    else
      let r := quot 1 0 m e
      Fmt.roundFin .f32 rm draw n r.1 r.2.2 r.2.1

/-- A positive magnitude with an even exponent: a number below 2^26, and half the exponent. -/
def evenExp (m : Nat) (e : Int) : Nat × Int := if e % 2 = 0 then (m, e / 2) else (2 * m, (e - 1) / 2)

/-- `v.fsqrt` (R171). -/
def fsqrt (rm draw : Nat) (x : FVal) : Nat :=
  match x with
  | .nan => Fmt.nan .f32
  | .inf n => if n then Fmt.nan .f32 else Fmt.infBits .f32
  | .fin n m e =>
    if m = 0 then Fmt.signed .f32 n 0
    else if n then Fmt.nan .f32
    else
      let p := evenExp m e
      let y := p.1 * 2 ^ 160
      let r := isqrt 96 y 0
      Fmt.roundFin .f32 rm draw false r (r * r != y) (p.2 - 80)

/-- `v.frsq` (R171). -/
def frsqrt (rm draw : Nat) (x : FVal) : Nat :=
  match x with
  | .nan => Fmt.nan .f32
  | .inf n => if n then Fmt.nan .f32 else 0
  | .fin n m e =>
    if m = 0 then Fmt.signed .f32 n (Fmt.infBits .f32)
    else if n then Fmt.nan .f32
    else
      let p := evenExp m e
      let r := isqrt 120 (2 ^ 220 / p.1) 0
      Fmt.roundFin .f32 rm draw false r (r * r * p.1 != 2 ^ 220) (-p.2 - 110)

/-! ### Fixed point with 256 fraction bits -/

/-- 2π with 256 fraction bits. -/
def fxTwoPi : Nat :=
  0x6487ED5110B4611A62633145C06E0E68948127044533E63A0105DF531D89CD912

/-- The natural logarithm of 2 with 256 fraction bits. -/
def fxLn2 : Nat :=
  0xB17217F7D1CF79ABC9E3B39803F2F6AF40F343267298B62D8A0D175B8BAAFA2B

/-- 1/(2π) with 700 fraction bits. -/
def invTwoPi : Nat :=
  0x28BE60DB9391054A7F09D5F47D4D377036D8A5664F10E4107F9458EAF7AEF1586DC91B8E909 * 2 ^ 400 +
    0x374B801924BBA827464873F877AC72C4A69CFBA208D7D4BAED1213A671C09AD17DF904E64758E60D4CE7D272117E2EF7E4A0

/-- The product of two fixed-point numbers. -/
def fxMul (a b : Int) : Int := a * b / 2 ^ 256

/-- The sum of `term`, `term · x / k`, `term · x² / (k (k + 1))` …: the tail of an exponential series. -/
def expSeries (x : Int) : Nat → Nat → Int → Int
  | 0, _, _ => 0
  | n + 1, k, term => term + expSeries x n (k + 1) (fxMul term x / k)

/-- The alternating series of sine and cosine: `term`, then `−term · x² / (k (k + 1))` and so on. -/
def trigSeries (x2 : Int) : Nat → Nat → Int → Int
  | 0, _, _ => 0
  | n + 1, k, term => term + trigSeries x2 n (k + 2) (-(fxMul term x2 / (k * (k + 1))))

/-- The series of the inverse hyperbolic tangent: `pow / k`, `pow · x² / (k + 2)` and so on. -/
def atanhSeries (x2 : Int) : Nat → Nat → Int → Int
  | 0, _, _ => 0
  | n + 1, k, pow => pow / k + atanhSeries x2 n (k + 2) (fxMul pow x2)

/-- The value of m · 2^e in fixed point, rounded down. -/
def toFx (neg : Bool) (m : Nat) (e : Int) : Int :=
  let x : Int := if e + 256 ≥ 0 then m * 2 ^ (e + 256).toNat else m / 2 ^ (-(e + 256)).toNat
  if neg then -x else x

/-! ### The approximation that is rounded (R172) -/

/-- A free error in units of 2^(−123): anywhere within 2^(−28), by the free word. -/
def freeError (free : DWord) : Int :=
  let u : Int := free.toInt * (2 ^ 32 + 1)
  if u ≥ 2 ^ 95 then 2 ^ 95 - 1 else if u ≤ -(2 ^ 95) then 1 - 2 ^ 95 else u

/-- An approximation within R172's bound of the fixed-point number y · 2^e, rounded: the free word places it in the bound. -/
def approx (rm draw : Nat) (y : Int) (e : Int) (free : DWord) : Nat :=
  let tiny := decide ((log2 y.natAbs : Int) + e < -126)
  if tiny then
    let g := min e (-248)
    let z := y * 2 ^ (e - g).toNat + freeError free * 2 ^ (-248 - g).toNat
    Fmt.roundFin .f32 rm draw (decide (z < 0)) z.natAbs false g
  else
    let z := y * (2 ^ 123 + freeError free)
    Fmt.roundFin .f32 rm draw (decide (z < 0)) z.natAbs false (e - 123)

/-- `v.fexp2` (R173). -/
def fexp2 (rm draw : Nat) (a : Word) : Nat :=
  match Fmt.val .f32 a.toNat with
  | .nan => Fmt.nan .f32
  | .inf n => if n then 0 else Fmt.infBits .f32
  | .fin n m e =>
    let z : Int := if n then -(m : Int) else m
    if e ≥ 8 ∨ (log2 m : Int) + e ≥ 8 then
      -- 2^a passes every finite value, or lies under every subnormal
      if n then approx rm draw 1 (-256) (Config.sfuError 0 a) else Fmt.roundFin .f32 rm draw false 1 false 256
    else
      let k := (-e).toNat
      let whole : Int := if e ≥ 0 then z * 2 ^ e.toNat else z / 2 ^ k
      let frac : Int := if e ≥ 0 then 0 else z % 2 ^ k
      if frac = 0 then
        if whole < -149 ∨ whole ≥ 128 then approx rm draw 1 whole (Config.sfuError 0 a)
        else Fmt.roundFin .f32 rm draw false 1 false whole
      else
        let x := fxMul (toFx false frac.toNat e) fxLn2
        approx rm draw (expSeries x 60 1 (2 ^ 256)) (whole - 256) (Config.sfuError 0 a)

/-- `v.flog2` (R173). -/
def flog2 (rm draw : Nat) (a : Word) : Nat :=
  match Fmt.val .f32 a.toNat with
  | .nan => Fmt.nan .f32
  | .inf n => if n then Fmt.nan .f32 else Fmt.infBits .f32
  | .fin n m e =>
    if m = 0 then Fmt.signed .f32 true (Fmt.infBits .f32)
    else if n then Fmt.nan .f32
    else
      let k := log2 m
      let whole : Int := (k : Int) + e
      if m = 2 ^ k then Fmt.round .f32 rm draw (FVal.ofInt whole)
      else
        -- m · 2^(−k) lies in (1, 2); above 3/2 it is halved
        let up := decide (2 * m ≥ 3 * 2 ^ k)
        let den : Nat := if up then 2 ^ (k + 1) else 2 ^ k
        let w := ((m : Int) - den) * 2 ^ 256 / ((m + den : Nat) : Int)
        let ln := 2 * atanhSeries (fxMul w w) 70 1 w
        let frac := ln * 2 ^ 256 / fxLn2
        approx rm draw ((if up then whole + 1 else whole) * 2 ^ 256 + frac) (-256) (Config.sfuError 1 a)

/-- Four times an argument, as a whole number modulo 4, where it is one. -/
def quarter (n : Bool) (m : Nat) (e : Int) : Option Nat :=
  let f := e + 2
  let z : Int := if n then -(m : Int) else m
  if f ≥ 0 then some ((z * 2 ^ f.toNat % 4).toNat)
  else if m % 2 ^ (-f).toNat = 0 then some ((z / 2 ^ (-f).toNat % 4).toNat)
  else none

/-- The sine of a fixed-point number of turns within [−1/2, 1/2], by eighths of a turn. -/
def fxSin (r : Int) : Int :=
  let neg := decide (r < 0)
  let a : Int := r.natAbs
  let b : Int := if a > 2 ^ 254 then 2 ^ 255 - a else a
  let y :=
    if b ≤ 2 ^ 253 then
      let x := fxMul b fxTwoPi
      trigSeries (fxMul x x) 40 2 x
    else
      let x := fxMul (2 ^ 254 - b) fxTwoPi
      trigSeries (fxMul x x) 40 1 (2 ^ 256)
  if neg then -y else y

/-- An argument of turns that is no multiple of a quarter, less its nearest whole number, in fixed point. -/
def turnFx (n : Bool) (m : Nat) (e : Int) : Int :=
  let x := toFx n m e
  x - (x + 2 ^ 255) / 2 ^ 256 * 2 ^ 256

/-- The shared form of sine and cosine (R173): `quarters` are the exact values at the multiples of a quarter turn. -/
def fsinOf (cos : Bool) (unit : Nat) (rm draw : Nat) (a : Word) : Nat :=
  match Fmt.val .f32 a.toNat with
  | .nan => Fmt.nan .f32
  | .inf _ => Fmt.nan .f32
  | .fin n m e =>
    match quarter n m e with
    | some q =>
      let q := if cos then (q + 1) % 4 else q
      if q = 1 then 0x3F800000
      else if q = 3 then 0xBF800000
      else if cos then 0
      else if m = 0 || q == 2 then Fmt.signed .f32 n 0
      else 0
    | none =>
      let r := turnFx n m e
      let r := if cos then (let x := r + 2 ^ 254; if x > 2 ^ 255 then x - 2 ^ 256 else x) else r
      approx rm draw (fxSin r) (-256) (Config.sfuError unit a)

/-- `v.frr` (R174): the quotient by 2π less the nearest whole number; it is irrational but for a zero. A quotient of the least magnitudes rounds as
R45 says, to a zero too (DESIGN CHOICE, log entry 72). -/
def frr (rm draw : Nat) (a : Word) : Nat :=
  match Fmt.val .f32 a.toNat with
  | .nan => Fmt.nan .f32
  | .inf _ => Fmt.nan .f32
  | .fin n m e =>
    if m = 0 then Fmt.signed .f32 n 0
    else
      -- t = m · 2^e / (2π), with 700 fraction bits and, for a small argument, its own exponent
      let g : Int := min 0 e
      let t : Int := (m * invTwoPi : Nat) * 2 ^ (e - g).toNat
      let t := if n then -t else t
      let one : Int := 2 ^ (700 + (-g).toNat)
      let r := t - (t + one / 2) / one * one
      Fmt.roundFin .f32 rm draw (decide (r < 0)) r.natAbs true (g - 700)

/-- `v.frr.turn` (R174): exact. -/
def frrTurn (a : Word) : Nat :=
  match Fmt.val .f32 a.toNat with
  | .nan => Fmt.nan .f32
  | .inf _ => Fmt.nan .f32
  | .fin n m e =>
    if e ≥ 0 then Fmt.signed .f32 (n && m == 0) 0
    else
      let one : Int := 2 ^ (-e).toNat
      let t : Int := if n then -(m : Int) else m
      let r := t - (2 * t + one) / (2 * one) * one
      if r = 0 then Fmt.signed .f32 (n && m == 0) 0
      else Fmt.roundFin .f32 0 0 (decide (r < 0)) r.natAbs false e

end Sys2Proof.Machine
end

