-- ==== Sys2Proof/Machine/Sampling.lean ====
section
/-! DEFINITION. The sampling engine (R335 to R360): slots, norms, the realised counts and the sampling table, draws, the probe statistic and the stop,
finalizing, and its commands. -/

namespace Sys2Proof.Machine

open Sys2Proof

/-! ### Slots -/

/-- A slot of a cluster's engine. -/
def Cluster.saSlot (c : Cluster) (n : Nat) : SaSlot := (c.sa[n]?).getD SaSlot.reset

/-- Changes a slot. -/
def State.modSlot (s : State) (v n : Nat) (f : SaSlot → SaSlot) : State :=
  let c := s.cluster v
  s.putCluster v { c with sa := c.sa.mapIdx fun i x => if i = n then f x else x }

/-- The 3-bit value of a slot's state (R336). -/
def SaState.code : SaState → Nat
  | .free => 0 | .opened => 1 | .built => 2 | .stopped => 3 | .final => 4

/-- The slot word's fields (R338). -/
def wordSlot (x : Nat) : Nat := bits x 15 14
def wordCount (x : Nat) : Nat := bits x 13 0

/-- Every k-tile has been normed (R337). -/
def SaSlot.allNormed (x : SaSlot) : Bool := (List.range x.nk).all fun j => x.normed.contains j

/-- `SAST` (R337). -/
def SaSlot.status (x : SaSlot) : Nat :=
  let b := fun (p : Bool) (n : Nat) => if p then 2 ^ n else 0
  2 ^ 31 + x.st.code * 2 ^ 28 + b x.nonfin 27 + b x.limit 26 + b (x.allNormed && decide (x.nk > 0)) 24 + x.log2n * 2 ^ 16 + x.err * 2 ^ 12

/-- What `sa.stat` returns for an owned slot (R337). -/
def SaSlot.stat (x : SaSlot) (sel : Nat) : Nat :=
  match sel with
  | 0 => x.status
  | 1 => x.t
  | 2 => x.mean.toNat
  | 3 => x.m2.toNat
  | 4 => x.nlost
  | 5 => x.nbld
  | _ => 0

/-! ### Rational rounding -/

/-- Rounds a value divided by a positive number to FP32, once. -/
def roundOver (rm draw : Nat) (x : FVal) (d : Nat) : Word :=
  BitVec.ofNat 32 (match x with
    | .fin n m e =>
      if m = 0 then Fmt.signed .f32 n 0
      else
        let r := quot m e d 0
        Fmt.roundFin .f32 rm draw n r.1 r.2.2 r.2.1
    | v => Fmt.round .f32 rm draw v)

/-- The draw that the engine takes under SR for a stream and coordinate (R341, R348). -/
def Round.saDraw (r : Round) (sid coord : Nat) : Nat := if r.rm = 5 then kg16 r.seed (0x81004000 + sid) coord else 0

/-! ### Operands (R339) -/

/-- The home key of an operand's k-tile. -/
def tileKey (addr lay : Word) (j : Nat) : Nat := vaultKey (addr.toNat + 64 * bits lay.toNat 11 0 * j)

/-- A's element (i, k). -/
def State.saA (s : State) (x : SaSlot) (i k : Nat) : FVal :=
  s.tileVal (fmtA x.fmt) (fmtAsc x.fmt) (x.aLay.getLsbD 31) (tileKey x.aAddr x.aLay (k / 64)) i (k % 64)

/-- B's element (k, n). -/
def State.saB (s : State) (x : SaSlot) (k n : Nat) : FVal :=
  s.tileVal (fmtB x.fmt) (fmtBsc x.fmt) (x.bLay.getLsbD 31) (tileKey x.bAddr x.bLay (k / 64)) (k % 64) n

/-- The reads of a tile's elements, at their Z-order positions, and of its scale line meet the blocks' codes (R199). -/
def State.readElems (s : State) (f : Finder) (ty : Ty) (scaled : Bool) (addr lay : Word) (j : Nat) (zs : List Nat) : State :=
  let a := addr.toNat + 64 * bits lay.toNat 11 0 * j
  let s := zs.foldl (fun (s : State) z => s.readBlock f (vaultKey a + z * ty.width / 8) (a + z * ty.width / 8)) s
  if scaled then s.readBlock f (vaultKey a + tileElems ty) (a + tileElems ty) else s

/-- The reads of column k of A and row k of B. -/
def State.readTerm (s : State) (f : Finder) (x : SaSlot) (k : Nat) : State :=
  let za := (List.range 64).map fun i => if x.aLay.getLsbD 31 then zIndex (k % 64) i else zIndex i (k % 64)
  let zb := (List.range 64).map fun n => if x.bLay.getLsbD 31 then zIndex n (k % 64) else zIndex (k % 64) n
  let s := s.readElems f (fmtA x.fmt) (fmtAsc x.fmt) x.aAddr x.aLay (k / 64) za
  s.readElems f (fmtB x.fmt) (fmtBsc x.fmt) x.bAddr x.bLay (k / 64) zb

/-! ### Norms (R341) -/

/-- The exact sum of squares. -/
def sumSquares (rm : Nat) (l : List FVal) : FVal := exactSum rm (l.map fun v => v.mul v)

/-- The norm of column k of A (R341). -/
def SaSlot.normA (x : SaSlot) (s : State) (r : Round) (k : Nat) : Nat :=
  Fmt.round .f32 r.rm (r.saDraw x.sid (2 ^ 63 + 2 * k)) (sumSquares r.rm ((List.range 64).map fun i => s.saA x i k))

/-- The norm of row k of B (R341). -/
def SaSlot.normB (x : SaSlot) (s : State) (r : Round) (k : Nat) : Nat :=
  Fmt.round .f32 r.rm (r.saDraw x.sid (2 ^ 63 + 2 * k + 1)) (sumSquares r.rm ((List.range 64).map fun n => s.saB x k n))

/-- Norms a k-tile of a slot. `bad` says that the first norm fails (R356). -/
def SaSlot.norm (x : SaSlot) (s : State) (r : Round) (j : Nat) (bad : Bool) : SaSlot :=
  let y := (List.range 64).foldl (fun (y : SaSlot) i =>
    let k := 64 * j + i
    let na := if bad && i == 0 then 0x7FC00000 else x.normA s r k
    { y with na := SMap.set 0 y.na k (BitVec.ofNat 32 na), nb := SMap.set 0 y.nb k (BitVec.ofNat 32 (x.normB s r k)) }) x
  { y with normed := if y.normed.contains j then y.normed else y.normed ++ [j] }

/-! ### Counts and the sampling table (R342 to R344) -/

/-- L, the binary logarithm of the table's size (R342). -/
def SaSlot.logN (x : SaSlot) : Nat := ((List.range 17).find? fun l => decide (l ≥ 6) && decide (2 ^ l ≥ 64 * x.nk)).getD 16

/-- The exact product of the two norms of an index (R342). -/
def SaSlot.weight (x : SaSlot) (k : Nat) : FVal :=
  if k < 64 * x.nk then (Fmt.val .f32 (SMap.get 0 x.na k).toNat).mul (Fmt.val .f32 (SMap.get 0 x.nb k).toNat) else .fin false 0 0

/-- The larger of two weights. -/
def maxWeight (a b : FVal) : FVal := if a.lt b then b else a

/-- floor(sqrt(2^48 · g / gmax)) (R342). -/
def weightRoot (g gmax : FVal) : Nat :=
  match g, gmax with
  | .fin _ m e, .fin _ n f =>
    if n = 0 then 0
    else if e ≥ f then isqrt 25 (m * 2 ^ (48 + (e - f).toNat) / n) 0 else isqrt 25 (m * 2 ^ 48 / (n * 2 ^ (f - e).toNat)) 0
  | _, _ => 0

/-- The realised counts of integer weights (R343). -/
def realCounts (qs : List Nat) : List Nat :=
  let N := qs.length
  let Q := qs.sum
  let c := qs.map fun q => 65536 * N * q / Q
  let R := 65536 * N - c.sum
  (qs.zip c).mapIdx fun i p =>
    if p.1 > 0 ∧ ((qs.take i).filter fun q => decide (q > 0)).length < R then p.2 + 1 else p.2

/-- The state of the table construction: what is left of each count, the two lists, and the table (R344). -/
structure AliasBuild where
  r : SMap Nat
  small : List Nat
  large : List Nat
  thr : SMap Nat
  al : SMap Nat
  deriving DecidableEq, Repr

/-- The steps of the table construction. -/
def aliasSteps : Nat → AliasBuild → AliasBuild
  | 0, b => b
  | n + 1, b =>
    match b.small, b.large with
    | sm :: ss, l :: ls =>
      let rs := SMap.get 0 b.r sm
      let rl := SMap.get 0 b.r l - (65536 - rs)
      let b := { b with thr := SMap.put b.thr sm rs, al := SMap.put b.al sm l, r := SMap.put b.r l rl, small := ss }
      if rl < 65536 then aliasSteps n { b with large := ls, small := ss ++ [l] }
      else if rl = 65536 then aliasSteps n { b with large := ls, thr := SMap.put b.thr l 65536, al := SMap.put b.al l l }
      else aliasSteps n b
    | _, _ => b

/-- The sampling table of counts: the thresholds and the aliases. -/
def aliasTable (cs : List Nat) : List Nat × List Nat :=
  let ix := List.range cs.length
  let at_ := fun (k : Nat) => (cs[k]?).getD 0
  let full := ix.filter fun k => at_ k == 65536
  let b := aliasSteps (2 * cs.length)
    { r := ix.map fun k => (k, at_ k), small := ix.filter fun k => decide (at_ k < 65536), large := ix.filter fun k => decide (at_ k > 65536),
      thr := full.map fun k => (k, 65536), al := full.map fun k => (k, k) }
  (ix.map fun k => SMap.get 0 b.thr k, ix.map fun k => SMap.get 0 b.al k)

/-- A build (R342, R343, R344, R346). -/
def SaSlot.build (x : SaSlot) (count : Nat) (eps2 abs2 u0 u1 v0 v1 : Word) : SaSlot :=
  let L := x.logN
  let g := (List.range (2 ^ L)).map x.weight
  let gmax := g.foldl maxWeight (.fin false 0 0)
  let c := realCounts (g.map fun w => weightRoot w gmax)
  let tb := aliasTable c
  let lost := ((g.zip c).filter fun p => !p.1.isZero && p.2 == 0).length
  { x with st := .built, counts := c, thr := tb.1, alias_ := tb.2, log2n := L, nbld := (x.nbld + 1) % 65536, nlost := lost, t := 0, mean := 0,
           m2 := 0, eps2 := eps2, abs2 := abs2, tmin := 32 * count, signU := u1 ++ u0, signV := v1 ++ v0, nonfin := false, limit := false }

/-! ### Draws (R345, R347, R348) -/

/-- The index that a draw picks (R347). -/
def SaSlot.pick (x : SaSlot) (seed : DWord) : Nat :=
  let d := (kg seed (0x81000000 + x.sid) (BitVec.ofNat 64 (x.nbld * 2 ^ 40 + x.t))).toNat
  let j := d / 2 ^ (32 - x.log2n)
  if d % 65536 < (x.thr[j]?).getD 0 then j else (x.alias_[j]?).getD 0

/-- A signed sum over a probe vector: an element is negated where its sign bit is set (R346). -/
def signedSum (rm : Nat) (signs : DWord) (l : List FVal) : FVal := exactSum rm (l.mapIdx fun i v => if signs.getLsbD i then v.neg else v)

/-- A statistic is not finite. -/
def notFinite (w : Word) : Bool := !(Fmt.val .f32 w.toNat).isFin

/-- The statistics after a draw of index `k` (R348). `wn` over `c` is the weight; what fails its check becomes the canonical NaN (R356). -/
def SaSlot.probe (x : SaSlot) (s : State) (r : Round) (k c : Nat) (wn : Int) (fail : Option Nat) : SaSlot :=
  let d := fun (e : Nat) => r.saDraw x.sid (x.nbld * 2 ^ 40 + 4 * x.t + e)
  let kept := fun (e : Nat) (w : Word) => if fail = some e then 0x7FC00000 else w
  let ua := signedSum r.rm x.signU ((List.range 64).map fun i => s.saA x i k)
  let vb := signedSum r.rm x.signV ((List.range 64).map fun n => s.saB x k n)
  let X := Fmt.val .f32 (kept 0 (roundOver r.rm (d 0) ((ua.mul vb).mul (.ofInt wn)) c)).toNat
  let tau := x.t + 1
  let mean := Fmt.val .f32 x.mean.toNat
  let delta := X.add r.rm mean.neg
  let mean' := kept 1 (roundOver r.rm (d 1) ((mean.mul (.ofInt tau)).add r.rm delta) tau)
  let dev := X.add r.rm (Fmt.val .f32 mean'.toNat).neg
  let m2 := kept 2 (BitVec.ofNat 32 (Fmt.round .f32 r.rm (d 2) ((Fmt.val .f32 x.m2.toNat).add r.rm (delta.mul dev))))
  { x with t := x.t + 1, mean := mean', m2 := m2, nonfin := x.nonfin || !X.isFin || notFinite mean' || notFinite m2 }

/-- A command is still there: an error that a read of its own finds may have ended its context (R199). -/
def State.saGoes (s : State) (v : Nat) (q : SaCmd) : Bool := (s.cluster v).saQ.any fun x => x.id == q.id

/-- A command as a finder of storage errors. -/
def SaCmd.finder (q : SaCmd) (v : Nat) : Finder := Finder.command (4 * v) q.asid q.pc q.ins

/-- Settles the first element of a command, whose computed word is `w`, for an injection (R192, R203, R356). -/
def State.settleSa (s : State) (q : SaCmd) (w : Nat) : State := s.settleElement q.inj 5 q.uid q.asid q.pc q.ins w

/-- A probe value or statistic of a command fails its check twice (R192, R356): it is counted and recorded, its residues free values. -/
def State.failStat (s : State) (q : SaCmd) : State :=
  let t := s.ident q.uid
  let free := s.fresh
  (free.2.count 8 1).fileMc {
    kind := 7, unit := 5, asid := q.asid, pair := t.pair, core := t.home, pc := q.pc.toNat, base := q.ins.1, ext := q.ins.2, tlin := t.lin, lanes := [],
    pred := free.1.toNat % 7, found := free.1.toNat / 7 % 7, addr := 0, synd := 0, level := 0 }

/-- One draw: its terms enter the window, and the statistics move on (R347, R348). The first draw of a command has its first element. -/
def State.drawOne (s : State) (v : Nat) (q : SaCmd) (first : Bool) : State :=
  let x := (s.cluster v).saSlot q.slot
  let k := x.pick q.rnd.seed
  let c := max 1 ((x.counts[k]?).getD 0)
  let wn : Int := ((65536 * 2 ^ x.log2n : Nat) : Int)
  let s := (s.readTerm (q.finder v) x k).meetRows (q.finder v) v (x.winBase + x.row) 64
  if !s.saGoes v q then s
  else
    let cl := s.cluster v
    let elem := fun (i n : Nat) =>
      let old := cl.accGet (x.winBase + x.row + i) n
      let term := ((s.saA x i k).mul (s.saB x k n)).mul (.ofInt wn)
      roundOver q.rnd.rm (q.rnd.draw q.q (x.winBase + x.row + i) n x.t) (((Fmt.val .f32 old.toNat).mul (.ofInt c)).add q.rnd.rm term) c
    let bad := first && injFails q.inj
    let cl' := cl.fillTile (x.winBase + x.row) fun i n => if bad && i == 0 && n == 0 then 0x7FC00000 else elem i n
    let fail := cl.upsets.headD none
    let u := ((s.putCluster v { cl' with upsets := cl.upsets.tail }).newRows v (x.winBase + x.row) 64).modSlot v q.slot fun y =>
      y.probe s q.rnd k c wn fail
    let u := if fail.isSome then u.failStat q else u
    if first then u.settleSa q (elem 0 0).toNat else u

/-- The stop test (R350). -/
def SaSlot.stops (x : SaSlot) : Bool :=
  let m := Fmt.val .f32 x.mean.toNat
  let lhs := Fmt.val .f32 x.m2.toNat
  let rhs := (((Fmt.val .f32 x.eps2.toNat).mul (m.mul m)).add 0 (Fmt.val .f32 x.abs2.toNat)).mul (.ofInt ((x.t * (x.t - 1) : Nat) : Int))
  decide (x.t ≥ x.tmin) && lhs != .nan && rhs != .nan && !rhs.lt lhs

/-- A batch of 32 draws and its stop test, or the draw limit (R347, R350). -/
def State.drawBatch (s : State) (v : Nat) (q : SaCmd) : State :=
  let x := (s.cluster v).saSlot q.slot
  if x.t + 32 > 2 ^ 31 then s.modSlot v q.slot fun x => { x with st := .stopped, limit := true }
  else
    let s := (List.range 32).foldl (fun (s : State) m => if s.saGoes v q then s.drawOne v q (q.batch == 0 && m == 0) else s) s
    if s.saGoes v q then s.modSlot v q.slot fun x => if x.stops then { x with st := .stopped } else x else s

/-- Finalizing: the rows are divided by the count of draws (R351). -/
def State.finish64 (s : State) (v : Nat) (q : SaCmd) : State :=
  let x := (s.cluster v).saSlot q.slot
  let s := s.meetRows (q.finder v) v (x.winBase + x.row) 64
  if !s.saGoes v q then s
  else
    let cl := s.cluster v
    let elem := fun (i n : Nat) => roundOver q.rnd.rm (q.rnd.draw q.q (x.winBase + x.row + i) n convStep)
      (Fmt.val .f32 (cl.accGet (x.winBase + x.row + i) n).toNat) x.t
    let cl' := cl.fillTile (x.winBase + x.row) fun i n => if injFails q.inj && i == 0 && n == 0 then 0x7FC00000 else elem i n
    (((s.putCluster v cl').newRows v (x.winBase + x.row) 64).modSlot v q.slot fun x => { x with st := .final }).settleSa q (elem 0 0).toNat

/-! ### Instructions (R352 to R354) -/

/-- What the queue will have made of a slot when the commands accepted before a number have completed: its owner, if it has one, and the base of
its window and its row (R353, R358). -/
def Cluster.saPlace (c : Cluster) (slot before : Nat) : Option (Nat × Nat × Nat) :=
  let x := c.saSlot slot
  (c.saQ.filter fun q => q.slot == slot && decide (q.id < before)).foldl (fun (o : Option (Nat × Nat × Nat)) q =>
    match q.op, o with
    | .opened .., none => some (q.uid, q.winBase, q.row)
    | .close, some p => if p.1 = q.uid ∧ wordCount q.word.toNat = 0 then none else o
    | _, _ => o) (if x.st = .free then none else some (x.uid, x.winBase, x.row))

/-- The window's base and the row that a command of a slot would use, for a team whose own window has a base. -/
def Cluster.saRows (c : Cluster) (slot before uid base : Nat) : Nat × Nat :=
  match c.saPlace slot before with
  | some p => if p.1 = uid then p.2 else (base, 0)
  | none => (base, 0)

/-- A command has elements that an injection meets: norms, draws and the final division (log entry 9). -/
def SaOp.computes : SaOp → Bool
  | .norm _ | .draw | .fin => true
  | _ => false

/-- Accepts a sampling command (R357). -/
def State.acceptSa (s : State) (t : Team) (ins : Nat × Nat) (who : HRef) (slot : Nat) (word : Word) (op : SaOp) (rows : Nat × Nat) (q : Nat)
    (entry : Option Nat) : State :=
  let id := s.newId
  let v := t.clusterNo
  let c := id.2.cluster v
  let cmd : SaCmd := {
    id := id.1, uid := t.uid, gid := t.gid, asid := t.asid, winBase := rows.1, row := rows.2, who := who, slot := slot, word := word, op := op,
    fmt := t.top.fmt, rnd := t.round, q := q, entry := entry, batch := 0, running := false, pc := t.pc, ins := ins,
    inj := if op.computes then t.engineInj 5 else 0 }
  let s := id.2.putCluster v { c with saQ := c.saQ ++ [cmd] }
  if op.computes then s.takeInj t.uid 5 else s

/-- The operands of `sa.open` fail BOUNDS (R354). -/
def State.openBounds (s : State) (t : Team) (a al b bl desc : Nat) : Bool :=
  let f := t.top.fmt
  let nk := bits desc 31 22 + 1
  bits desc 21 16 != 0 || bits al 30 12 != 0 || bits bl 30 12 != 0 || !s.tilesOk t a al nk (tileSize (fmtA f) (fmtAsc f)) ||
    !s.tilesOk t b bl nk (tileSize (fmtB f) (fmtBsc f))

/-- `sa.open` (R339, R353, R354). -/
def execSaOpen (h : Hdr) (d a b c : RegNo) (s : State) : Out State :=
  let i : Instr := .saOpen h d a b c
  withTeam i s (teamOp i h d 1 [(a, 2), (b, 2), (c, 2)] fun s t gs _ vs =>
    let x := vs.headD 0
    let y := (vs[1]?).getD 0
    let z := (vs[2]?).getD 0
    let ctrl := z / 2 ^ 32
    let f := t.top.fmt
    if !pairOk (fmtA f) (fmtB f) then .stop (Stop.of .illegal) s
    else if !t.winV ∨ bits ctrl 15 13 ≠ 0 ∨ !t.rowsOk (ctrlRow ctrl) 64 then .stop (Stop.of .window) s
    else withHandle s t d gs 2 fun s who _ =>
      if x % 2 ^ 32 % 64 ≠ 0 ∨ y % 2 ^ 32 % 64 ≠ 0 then .done (s.finish who .faulted (some .align))
      else if s.openBounds t (x % 2 ^ 32) (x / 2 ^ 32) (y % 2 ^ 32) (y / 2 ^ 32) (z % 2 ^ 32) then .done (s.finish who .faulted (some .bounds))
      else
        let w := fun (n : Nat) => BitVec.ofNat 32 n
        .done (s.acceptSa t (recWords i) who (wordSlot z) (w ctrl) (.opened (w x) (w (x / 2 ^ 32)) (w y) (w (y / 2 ^ 32)) (w z) (w ctrl))
          (t.winBase, ctrlRow ctrl) 0 none))

/-- A command that holds no reservation-table entry. -/
def saPlain (i : Instr) (d : RegNo) (acq : Bool) (word : Nat) (op : SaOp) (s : State) (t : Team) (gs : List Nat) : Res :=
  withAcq acq s t fun s => withHandle s t d gs 2 fun s who _ =>
    .done (s.acceptSa t (recWords i) who (wordSlot word) (BitVec.ofNat 32 word) op
      ((s.cluster t.clusterNo).saRows (wordSlot word) s.nextId t.uid t.winBase) 0 none)

/-- `sa.close` (R357). -/
def execSaClose (h : Hdr) (d a : RegNo) (s : State) : Out State :=
  let i : Instr := .saClose h d a
  withTeam i s (teamOp i h d 1 [(a, 1)] fun s t gs _ vs => saPlain i d false (vs.headD 0) .close s t gs)

/-- `sa.norm` (R341). -/
def execSaNorm (h : Hdr) (d a b : RegNo) (acq : Bool) (s : State) : Out State :=
  let i : Instr := .saNorm h d a b acq
  withTeam i s (teamOp i h d 1 [(a, 1), (b, 1)] fun s t gs _ vs =>
    saPlain i d acq (vs.headD 0) (.norm (BitVec.ofNat 32 ((vs[1]?).getD 0))) s t gs)

/-- `sa.build` (R342, R346). -/
def execSaBuild (h : Hdr) (d a b c : RegNo) (s : State) : Out State :=
  let i : Instr := .saBuild h d a b c
  withTeam i s (teamOp i h d 1 [(a, 1), (b, 2), (c, 4)] fun s t gs _ vs =>
    let e := (vs[1]?).getD 0
    let q := (vs[2]?).getD 0
    let w := fun (n : Nat) => BitVec.ofNat 32 n
    saPlain i d false (vs.headD 0)
      (.build (w e) (w (e / 2 ^ 32)) (w q) (w (q / 2 ^ 32)) (w (q / 2 ^ 64)) (w (q / 2 ^ 96))) s t gs)

/-- A command that writes the window: its reservation-table entry and sequence number (R353, R358). -/
def saWindow (i : Instr) (d : RegNo) (acq : Bool) (word : Nat) (op : SaOp) (kind : MxKind) (s : State) (t : Team) (gs : List Nat) : Res :=
  if !t.winV then .stop (Stop.of .window) s
  else if (s.cluster t.clusterNo).entries.length ≥ 64 then .hold s
  else withAcq acq s t fun s => withHandle s t d gs 2 fun s who _ =>
    let q := s.takeQ t.clusterNo t.gangSlot t.uid
    let rows := (q.2.cluster t.clusterNo).saRows (wordSlot word) q.2.nextId t.uid t.winBase
    let e := q.2.entryFor t (recWords i) who 0 [] t.top.fmt t.round q.1 kind
    let s := ({ q.2 with nextId := q.2.nextId + 1 } : State).addEntry t.clusterNo { e with inj := 0, winBase := rows.1, row := rows.1 + rows.2 }
    .done (s.acceptSa t (recWords i) who (wordSlot word) (BitVec.ofNat 32 word) op rows q.1 (some e.id))

/-- `sa.draw` (R347). -/
def execSaDraw (h : Hdr) (d a : RegNo) (acq : Bool) (s : State) : Out State :=
  let i : Instr := .saDraw h d a acq
  withTeam i s (teamOp i h d 1 [(a, 1)] fun s t gs _ vs =>
    saWindow i d acq (vs.headD 0) .draw (.draw (wordSlot (vs.headD 0)) (wordCount (vs.headD 0))) s t gs)

/-- `sa.fin` (R351). -/
def execSaFin (h : Hdr) (d a : RegNo) (s : State) : Out State :=
  let i : Instr := .saFin h d a
  withTeam i s (teamOp i h d 1 [(a, 1)] fun s t gs _ vs => saWindow i d false (vs.headD 0) .fin (.fin (wordSlot (vs.headD 0))) s t gs)

/-- The value that `sa.stat` reads of a slot for a team: zero of a slot that is not its own (R337). -/
def Cluster.statOf (c : Cluster) (uid slot sel : Nat) : Nat :=
  let x := c.saSlot slot
  if x.st != .free && x.uid == uid then x.stat sel else 0

/-- A command of a slot accepted before a number has not completed. -/
def Cluster.saPending (c : Cluster) (slot before : Nat) : Bool := c.saQ.any fun q => q.slot == slot && decide (q.id < before)

/-- The writes of a value to a register of groups, as a flight makes them. -/
def groupWrites (d : RegNo) (gs : List Nat) (x : Nat) : List PendWrite :=
  if d.toNat = 192 + 62 then [] else gs.map fun g => .sreg ((d.toNat - 192) * 1024 + g) (RWord.ofNat x)

/-- `sa.stat` (R337, R352, R357): it reads the slot after every earlier-accepted command of it. With a lookahead count the answer comes later;
without one the team waits for it. -/
def execSaStat (h : Hdr) (d a : RegNo) (s : State) : Out State :=
  let i : Instr := .saStat h d a
  withTeam i s (teamOp i h d 1 [(a, 1)] fun s t gs _ vs =>
    let c := s.cluster t.clusterNo
    let n := wordSlot (vs.headD 0)
    let sel := wordCount (vs.headD 0)
    let waits := c.saPending n s.nextId
    if h.la = 0 then if waits then .hold s else .done (s.answer t.uid d 1 gs (c.statOf t.uid n sel))
    else
      let f : Flight := {
        seq := t.issued, pc := t.pc, la := h.la.toNat, regs := Instr.touches i, stop := none,
        writes := if waits then [] else groupWrites d gs (c.statOf t.uid n sel)
        stat := if waits then some { slot := n, sel := sel, before := s.nextId, d := d, groups := gs } else none }
      .done (s.modTeam t.uid fun t => { t with flight := t.flight ++ [f] }))

/-- The engine answers an `sa.stat` in flight once the commands before it have completed (R357). -/
def Flight.answerStat (f : Flight) (c : Cluster) (uid : Nat) : Flight :=
  match f.stat with
  | none => f
  | some r =>
    if c.saPending r.slot r.before then f else { f with stat := none, writes := groupWrites r.d r.groups (c.statOf uid r.slot r.sel) }

/-- The sampling engine of a cluster answers what it can (R357). -/
def State.answerStats (s : State) (v : Nat) : State :=
  { s with teams := s.teams.map fun t =>
      if t.clusterNo = v then { t with flight := t.flight.map fun f => f.answerStat (s.cluster v) t.uid } else t }

/-! ### How commands run (R355, R357, R358) -/

/-- The command of a slot that is first in acceptance order. -/
def Cluster.saHead (c : Cluster) (slot : Nat) : Option SaCmd := c.saQ.find? fun q => q.slot == slot

/-- Changes a queued command. -/
def State.modSa (s : State) (v id : Nat) (f : SaCmd → SaCmd) : State :=
  let c := s.cluster v
  s.putCluster v { c with saQ := replaceWhere (fun (q : SaCmd) => q.id == id) f c.saQ }

/-- The queued commands of a slot, and their entries, take the rows that the slot will have (R358). -/
def Cluster.placeSa (c : Cluster) (slot : Nat) : Cluster :=
  let rows := fun (q : SaCmd) => c.saRows slot q.id q.uid q.winBase
  let mine := c.saQ.filter fun q => q.slot == slot && q.op.computes
  { c with
    saQ := replaceWhere (fun (q : SaCmd) => q.slot == slot && q.op.computes) (fun q => { q with winBase := (rows q).1, row := (rows q).2 }) c.saQ
    entries := c.entries.map fun e =>
      match mine.find? fun q => q.entry == some e.id with
      | some q => { e with winBase := (rows q).1, row := (rows q).1 + (rows q).2 }
      | none => e }

/-- A command ends: it leaves the queue and the reservation table, and its handle takes the status. -/
def State.endSa (s : State) (v : Nat) (q : SaCmd) (st : HStatus) (f : Option Cause) : State :=
  let c := s.cluster v
  let c := { c with saQ := c.saQ.filter fun x => x.id != q.id, entries := c.entries.filter fun e => q.entry != some e.id }
  let c := c.placeSa q.slot
  let c := c.gangs.foldl (fun (c : Cluster) g => c.freeGang g.1) c
  (s.putCluster v c).finish q.who st f

/-- A norm is NaN or infinite. -/
def SaSlot.badNorm (x : SaSlot) : Bool :=
  (List.range (64 * x.nk)).any fun k => notFinite (SMap.get 0 x.na k) || notFinite (SMap.get 0 x.nb k)

/-- Every weight is zero. -/
def SaSlot.noWeight (x : SaSlot) : Bool := (List.range (64 * x.nk)).all fun k => (x.weight k).isZero

/-- The code of the first condition of R355 that a command meets, in its order; 0 where there is none. -/
def SaSlot.refusal (x : SaSlot) (q : SaCmd) : Nat :=
  let n := wordCount q.word.toNat
  let mine := x.st != .free && x.uid == q.uid
  match q.op with
  | .opened .. => if x.st != .free then 2 else 0
  | .close => if !mine then 1 else if n ≠ 0 then 9 else 0
  | .norm first => if !mine then 1 else if n = 0 ∨ first.toNat + n > x.nk then 9 else 0
  | .build .. =>
    if !mine then 1
    else if n = 0 then 9
    else if !x.allNormed then 4
    else if x.badNorm then 6
    else if x.noWeight then 5
    else 0
  | .draw => if !mine then 1 else if n = 0 then 9 else if x.st = .opened then 3 else if x.st = .final then 8 else 0
  | .fin =>
    if !mine then 1
    else if n ≠ 0 then 9
    else if x.st = .opened then 3
    else if x.st = .final then 8
    else if x.t = 0 then 7
    else 0

/-- The DEP handle of a command; that of a team which has exited, whose handle table is free again (R34), counts as complete (DESIGN CHOICE, log
entry 71). -/
def State.saDep (s : State) (q : SaCmd) : HStatus :=
  let h : BitVec 16 := q.word.extractLsb' 16 16
  if bits h.toNat 15 13 = 0 then .done else match s.team? q.uid with | some t => t.hStatus h | none => .done

/-- SA_COMMAND_START: the first command of a slot starts once its DEP handle is complete, and is refused, cancelled, or runs (R338, R355,
R357). -/
def execSaCommandStart (v slot : Nat) (s : State) : Out State :=
  let c := s.cluster v
  .next (match c.saHead slot with
    | none => s
    | some q =>
      if q.running then s
      else
        match s.saDep q with
        | .pending => s
        | .faulted | .cancelled => s.endSa v q .cancelled none
        | .done =>
          let code := (c.saSlot slot).refusal q
          if code ≠ 0 then (s.modSlot v slot fun x => { x with err := code }).endSa v q .faulted (some .sample)
          else s.modSa v q.id fun q => { q with running := true })

/-- The units of work that a command has, each of which is granted on its own (R389, R394). -/
def SaCmd.units (q : SaCmd) (x : SaSlot) : Nat :=
  match q.op with
  | .opened .. | .close => 0
  | .norm _ => wordCount q.word.toNat
  | .build .. => 2 ^ x.logN / 64
  | .draw => if x.st = .stopped then 0 else wordCount q.word.toNat
  | .fin => 1

/-- A command's next unit is a pass on a sub-array. -/
def SaOp.isPass : SaOp → Bool
  | .draw | .fin => true
  | _ => false

/-- The core cycles in which a cluster reads a tile of a vault: 512 bytes a cycle from its own, 128 from another (R278). -/
def tileCycles (v : Nat) (addr : Word) (ty : Ty) (scaled : Bool) : Nat :=
  ceilDiv (tileSize ty scaled) (if addr.toNat / 2 ^ 23 = v then 512 else 128)

/-- The cost and core cycles of a unit of norm or build work (R361, R389). -/
def State.saWork (s : State) (v : Nat) (q : SaCmd) : Nat × Nat :=
  let x := (s.cluster v).saSlot q.slot
  match q.op with
  | .norm _ => (s.price 44 2, tileCycles v x.aAddr (fmtA x.fmt) (fmtAsc x.fmt) + tileCycles v x.bAddr (fmtB x.fmt) (fmtBsc x.fmt) + 8)
  | _ => (s.price 44 3, 128)

/-- The core cycles in which a cluster reads `n` blocks at a vault address. -/
def blockCycles (v : Nat) (addr : Word) (n : Nat) : Nat := ceilDiv (64 * n) (if addr.toNat / 2 ^ 23 = v then 512 else 128)

/-- The core cycles from the end of a batch's pass until the next batch is ready: the larger of the pass and of its blocks' arrival, plus 24, less
the pass (R361). A column or row along the Z-order's finer axis lies in half the blocks. -/
def SaSlot.gap (x : SaSlot) (v : Nat) : Nat :=
  let blocks := fun (ty : Ty) (fine : Bool) => if ty.width = 16 then (if fine then 8 else 16) else if ty.width = 8 then 8 else if fine then 4 else 8
  let line := fun (scaled : Bool) => if scaled then 1 else 0
  let n := blockCycles v x.aAddr (32 * (blocks (fmtA x.fmt) (x.aLay.getLsbD 31) + line (fmtAsc x.fmt))) +
    blockCycles v x.bAddr (32 * (blocks (fmtB x.fmt) (!x.bLay.getLsbD 31) + line (fmtBsc x.fmt)))
  max 32 n + 24 - 32

/-- Performs the pass of a command that has ended on its sub-array. -/
def State.saPass (s : State) (v : Nat) (q : SaCmd) (e : MxEntry) (sub : Nat) : State :=
  let s := match q.op with
    | .draw => s.drawBatch v q
    | _ => s.finish64 v q
  let c := s.cluster v
  let s := s.putCluster v { c with subs := c.subs.mapIdx fun i x => if i = sub then { x with lastPass := s.ccOf v } else x }
  let gap := match q.op with | .draw => ((s.cluster v).saSlot q.slot).gap v | _ => 0
  (s.modEntry v e.id fun x => { x with sub := none }).modSa v q.id fun q => { q with batch := q.batch + 1, nextAt := s.ccOf v + gap }

/-- Reads the tiles of a k-tile whole (R199). -/
def State.readTiles (s : State) (f : Finder) (x : SaSlot) (j : Nat) : State :=
  let a := tileKey x.aAddr x.aLay j
  let b := tileKey x.bAddr x.bLay j
  let s := (s.engineRead f a (a - vaultKey 0) (tileSize (fmtA x.fmt) (fmtAsc x.fmt))).1
  (s.engineRead f b (b - vaultKey 0) (tileSize (fmtB x.fmt) (fmtBsc x.fmt))).1

/-- Performs a unit of norm or build work, which is granted on its own. -/
def State.saUnit (s : State) (v : Nat) (q : SaCmd) : State :=
  let x := (s.cluster v).saSlot q.slot
  let w := s.saWork v q
  match q.op with
  | .norm first =>
    match s.grantWork v w.1 w.2 with
    | none => s
    | some s =>
      let s := s.readTiles (q.finder v) x (first.toNat + q.batch)
      if !s.saGoes v q then s
      else
        let u := (s.modSlot v q.slot fun y => y.norm s q.rnd (first.toNat + q.batch) (injFails q.inj && q.batch == 0)).modSa v q.id
          fun q => { q with batch := q.batch + 1, nextAt := s.ccOf v + w.2 }
        if q.batch = 0 then u.settleSa q (x.normA s q.rnd (64 * first.toNat)) else u
  | _ =>
    match s.grantWork v w.1 w.2 with
    | none => s
    | some s => s.modSa v q.id fun q => { q with batch := q.batch + 1, nextAt := s.ccOf v + w.2 }

/-- Grants a pass that is still ready, if its unit fits and can be paid (R316). -/
def State.grantReady (s : State) (v : Nat) (e : MxEntry) : State :=
  if (s.readyEntries v).contains e then (s.grantPass v e).getD s else s

/-- SA_BATCH_PASS: the next unit of a slot's running command is granted; a batch or `sa.fin` pass takes a sub-array and takes effect when its
cycles have passed (R347, R351, R358). -/
def execSaBatchPass (v slot : Nat) (s : State) : Out State :=
  let c := s.cluster v
  .next (match c.saHead slot with
    | none => s
    | some q =>
      if !q.running ∨ q.batch ≥ q.units (c.saSlot slot) ∨ s.ccOf v < q.nextAt then s
      else if !q.op.isPass then s.saUnit v q
      else
        match c.entries.find? fun e => q.entry == some e.id with
        | none => s
        | some e =>
          match e.sub with
          | some n => if s.ccOf v < e.endsAt then s else s.saPass v q e n
          | none => s.grantReady v e)

/-- The ready passes of a cluster, of products and of sampling commands, in the arbiter's order (R316, R358). -/
def State.readyPasses (s : State) (v : Nat) : List MxEntry :=
  let c := s.cluster v
  let started := fun (e : MxEntry) => e.isMma || c.saQ.any fun q => q.running && q.entry == some e.id && decide (q.batch < q.units (c.saSlot q.slot)) &&
    decide (q.nextAt ≤ s.ccOf v)
  sortBy (MxEntry.before (s.ccOf v) c.age) ((s.readyEntries v).filter fun e => !e.isWindow && started e)

/-- MX_PASS_GRANT: the first ready pass, by priority, acceptance and rank, is granted a sub-array (R315, R316). -/
def execMxPassGrant (v : Nat) (s : State) : Out State :=
  .next (match s.readyPasses v with
    | [] => s
    | e :: _ => s.grantReady v e)

/-- The effect of a command that completes (R340, R342, R346, R357). -/
def SaSlot.complete (x : SaSlot) (q : SaCmd) : SaSlot :=
  match q.op with
  | .opened a al b bl desc ctrl =>
    { SaSlot.reset with st := .opened, uid := q.uid, gid := q.gid, winBase := q.winBase, row := ctrlRow ctrl.toNat, aAddr := a, aLay := al, bAddr := b,
                        bLay := bl, fmt := q.fmt, sid := bits desc.toNat 13 0, nk := bits desc.toNat 31 22 + 1 }
  | .close => SaSlot.reset
  | .build e2 a2 u0 u1 v0 v1 => x.build (wordCount q.word.toNat) e2 a2 u0 u1 v0 v1
  | _ => x

/-- SA_COMMAND_COMPLETE: the running command of a slot has done its units; it takes effect, and its handle reads DONE (R340, R357). -/
def execSaCommandComplete (v slot : Nat) (s : State) : Out State :=
  let c := s.cluster v
  .next (match c.saHead slot with
    | none => s
    | some q =>
      if q.running ∧ q.batch ≥ q.units (c.saSlot slot) ∧ (q.op = .draw ∨ q.nextAt ≤ s.ccOf v) then
        (s.modSlot v slot fun x => x.complete q).endSa v q .done none
      else s)

end Sys2Proof.Machine
end

