-- ==== Sys2Proof/Machine/Governor.lean ====
section
/-! DEFINITION. The ramp governor (R404 to R433): the load of a reference cycle, ballast, the step rule, the admission of units, the islands and
the power intents. -/

namespace Sys2Proof.Machine

open Sys2Proof

/-! ### Units (R405, R406, R417) -/

/-- Drops what a unit no longer runs for: a queued prefetch that ends fills the last-level cache (R417). A scrub tadpole ends with its reads. -/
def State.endUnit (s : State) (u : RunUnit) : State :=
  match u.kind with
  | .pfq block asid =>
    (match s.ctxOfAsid asid with
    | none => s
    | some slot =>
      s.fetchBlock (192 * homeDie block) 1 slot block)
  | _ => s

/-- The rates of units, in all and on a die. -/
def unitRates (us : List RunUnit) : Nat := (us.map fun u => u.rate).sum
def unitRatesOn (d : Nat) (us : List RunUnit) : Nat := ((us.filter fun u => u.die == some d).map fun u => u.rate).sum

/-! ### Ballast (R417 to R420) -/

/-- The idle awake sub-arrays of a die's running islands. -/
def State.idleSubs (s : State) (d : Nat) : Nat :=
  ((List.range 48).map fun i =>
    let v := 48 * d + i
    let c := s.cluster v
    if (s.island v).st = .run then
      ((List.range 4).filter fun n => c.subFree (s.ccOf v) n && !c.isGated (s.ccOf v) n).length
    else 0).sum

/-- The idle lane datapaths of a die's running islands. -/
def State.idleLanes (s : State) (d : Nat) : Nat :=
  ((List.range 192).filter fun i =>
    let k := 192 * d + i
    (s.island (clusterOf k)).st == .run && decide ((s.core k).laneFree ≤ s.ccOf (clusterOf k))).length

/-- DSTEPD (R407). -/
def State.dstepd (s : State) : Nat := min 4000 (max 100 (bits s.pkg.rampcfg.toNat 51 40)) * s.gov.vset / 2000

/-- A list of two dies. -/
def pair2 (l : List Nat) (d : Nat) : Nat := (l[d]?).getD 0

/-- What ballast is placed in a reference cycle: eighths of MXF passes and LST units, per die, and what found no idle resource (R417, R420). -/
structure Placed where
  mxf : List Nat
  lst : List Nat
  left : Nat
  deriving DecidableEq, Repr

/-- The ballast of a reference cycle (R419): MXF by eighths of 24, first on a die whose real load at the start of the step lies below its load in
the last one, then LST by units of 1; no die rises by more than DSTEPD. -/
def State.ballast (s : State) (need : Nat) : Placed :=
  let g := s.gov
  let lim := fun (d : Nat) => pair2 g.prevDie d + g.dstepd - g.dieLoad d
  let cap := fun (d : Nat) => min (8 * s.idleSubs d) (lim d / 24)
  let first := fun (d : Nat) =>
    if pair2 g.startDie d < pair2 g.prevDie d then min (cap d) (ceilDiv (pair2 g.prevDie d - g.dieLoad d) 24) else 0
  let m := need / 24
  let a0 := min m (first 0)
  let a1 := min (m - a0) (first 1)
  let b0 := min (m - a0 - a1) (cap 0 - a0)
  let b1 := min (m - a0 - a1 - b0) (cap 1 - a1)
  let left := need - 24 * (a0 + b0) - 24 * (a1 + b1)
  let l0 := min left (min (4 * s.idleLanes 0) (lim 0 - 24 * (a0 + b0)))
  let l1 := min (left - l0) (min (4 * s.idleLanes 1) (lim 1 - 24 * (a1 + b1)))
  { mxf := [a0 + b0, a1 + b1], lst := [l0, l1], left := left - l0 - l1 }

/-- The rate of what is placed on a die. -/
def Placed.on (p : Placed) (d : Nat) : Nat := 24 * pair2 p.mxf d + pair2 p.lst d

/-- The ballast of this reference cycle. -/
def State.ballastNow (s : State) : Placed := s.ballast (s.gov.level - s.gov.loadNow)

/-- Self-test vectors of a cycle with ballast mismatch, which counter 8 counts (R417, log entry 5). -/
def State.countMisses (s : State) (p : Placed) : State :=
  match s.gov.misses with
  | n :: ns => if p.on 0 + p.on 1 = 0 then s else ({ s with gov := { s.gov with misses := ns } } : State).count 8 n
  | [] => s

/-- A unit has run to its end. -/
def RunUnit.expired (u : RunUnit) (now : Nat) : Bool := decide (u.endsAt ≤ now)

/-- The last reference cycle closes, its ballast counted, and this one opens with the units that run on (R407, R408). A scrub tadpole that has
ended waits for its reads. -/
def State.openCycle (s : State) : State :=
  let g := s.gov
  if g.openAt = s.time then s
  else
    let b := s.ballastNow
    let on := g.units.filter fun u => !u.expired s.time
    let s := s.countMisses b
    let s := { s with gov := { s.gov with
      dieSum := [pair2 g.dieSum 0 + g.dieLoad 0 + b.on 0, pair2 g.dieSum 1 + g.dieLoad 1 + b.on 1]
      short := g.short || b.left != 0
      units := g.units.filter fun u => u.kind == .scrub || !u.expired s.time
      loadNow := unitRates on
      dieNow := [unitRatesOn 0 on, unitRatesOn 1 on]
      openAt := s.time } }
    (g.units.filter fun u => u.expired s.time).foldl State.endUnit s

/-! ### Ready units (R407) -/

/-- The free sub-arrays of a cluster in the order in which they are granted, and whether each is gated (R316, R317). -/
def State.freeSubs (s : State) (v : Nat) : List Bool :=
  let c := s.cluster v
  let now := s.ccOf v
  let free := (List.range 4).filter (c.subFree now)
  (free.filter fun n => !c.isGated now n).map (fun _ => false) ++ (free.filter fun n => c.isGated now n).map fun _ => true

/-- The rates of the passes and window operations of a cluster that wait for admission. -/
def State.mxWaiting (s : State) (v : Nat) : List Nat :=
  let passes := ((s.readyPasses v).zip (s.freeSubs v)).map fun x =>
    let w := if x.2 then s.price 42 0 else 0
    s.unitRate v (s.passCost x.1 + w) (x.1.cycles + if x.2 then wakeCycles else 0)
  let ops := ((s.readyEntries v).filter MxEntry.isWindow).map fun e => s.unitRate v (s.windowWork e).1 (s.windowWork e).2
  passes ++ ops

/-- The rates of a cluster's sampling work that is granted on its own. -/
def State.saWaiting (s : State) (v : Nat) : List Nat :=
  let c := s.cluster v
  (c.saQ.filter fun q => q.running && !q.op.isPass && decide (q.batch < q.units (c.saSlot q.slot)) && decide (q.nextAt ≤ s.ccOf v)).map fun q =>
    s.unitRate v (s.saWork v q).1 (s.saWork v q).2

/-- A stream's head waits for the grant of a piece. -/
def State.copyReady (s : State) (q : CopyCmd) : Bool :=
  !q.finished && decide (s.cc ≥ q.nextAt) && (q.started || !s.tagWaits q)

/-- The rates of a cluster's copy pieces that wait. -/
def State.cpWaiting (s : State) (v : Nat) : List Nat :=
  let e := (s.cluster v).copy
  ((e.loc.take 1 ++ e.rem.take 1).filter s.copyReady).map fun q => (s.pieceCost v q q.piece.2).2

/-- A step has a piece that waits: its data has come, or its grant has. -/
def ClProg.pieceReady (p : ClProg) (a : ClStep) : Bool :=
  (a.arrived.isSome && (decide (a.inMoved < p.bytes) || (a.reduces && decide (a.redMoved < p.bytes)))) ||
    match a.out with
    | some (r, _) => (a.inn.isNone || a.payload.isSome) && decide (a.outMoved < p.bytes) && p.grants.any fun g => g.rank == r && g.k == a.seqOut
    | none => false

/-- The rates of the collective pieces that wait: of a piece to send or to receive, and of one to reduce. -/
def State.clWaiting (s : State) : List Nat :=
  let rate := fun (f : Nat) => ceilDiv (s.price 46 f * 200) 4096
  (s.chans.filterMap fun kc => kc.2.progs.head?).flatMap fun p =>
    (p.active.filter fun a => p.started && p.pieceReady a).flatMap fun a =>
      if a.arrived.isSome then
        (if a.inMoved < p.bytes ∧ s.time ≥ a.nextAt then [rate 0] else []) ++
          (if a.reduces ∧ a.redMoved < min p.bytes (a.inMoved + 4096) ∧ s.time ≥ a.redAt then [rate 1] else [])
      else if s.time ≥ a.nextAt then [rate 0] else []

/-! ### Islands (R424 to R427, R434) -/

/-- A cluster's island has work: a resident team, or accepted engine work (R426). -/
def State.clusterBusy (s : State) (v : Nat) : Bool :=
  let c := s.cluster v
  (s.teams.any fun t => t.res != .evicted && clusterOf t.home == v) || !c.entries.isEmpty || !c.saQ.isEmpty || !c.copy.all.isEmpty ||
    !c.winWait.isEmpty

/-- The wake time of an island from RET, in reference cycles (R434). -/
def wakeTime (i : Nat) : Nat := if i < 96 then 2000 else if i < 112 then 3000 else if i < 120 then 5000 else 20000

/-- The die of an island that lies on one (R424). -/
def islandDie (i : Nat) : Option Nat := if i < 96 then some (i / 48) else if i < 112 then some ((i - 96) / 8) else none

/-- A cluster's sub-arrays or lane datapaths carry ballast in this reference cycle: they are taken in ascending order (R419, R426). -/
def State.hasTadpole (s : State) (v : Nat) : Bool :=
  let d := v / 48
  let p := s.ballastNow
  let before := (List.range (v % 48)).map fun i => 48 * d + i
  let subs := fun (v : Nat) =>
    ((List.range 4).filter fun n => (s.cluster v).subFree (s.ccOf v) n && !(s.cluster v).isGated (s.ccOf v) n).length
  let lanes := fun (v : Nat) => ((List.range 4).filter fun k => decide ((s.core (4 * v + k)).laneFree ≤ s.ccOf v)).length
  let running := before.filter fun u => (s.island u).st == .run
  decide (8 * (running.map subs).sum < pair2 p.mxf d) || decide (4 * (running.map lanes).sum < pair2 p.lst d)

/-- System software's direction of an island other than a cluster (R426). -/
def State.directed (s : State) (i : Nat) (st : Island) : Bool := decide (96 ≤ i) && s.gov.directs.contains (i, st)

/-- An island is wanted: a cluster that has work, an island that an access waits for or that is directed to run (R426). -/
def State.islandWanted (s : State) (i : Nat) : Bool := (decide (i < 96) && s.clusterBusy i) || s.gov.wanted.contains i || s.directed i .run

/-- Sets an island's state; its clock's cycles so far are kept (R425). -/
def State.putIsland (s : State) (i : Nat) (st : Island) (since : Nat) : State :=
  { s with islands := SMap.put s.islands i { s.island i with st := st, since := since, base := s.ccOf i + s.later, from_ := s.cc } }

/-- A direction of an island has been followed. -/
def State.undirect (s : State) (i : Nat) (st : Island) : State :=
  { s with gov := { s.gov with directs := s.gov.directs.filter fun d => d != (i, st) } }

/-- One island at most enters or leaves RET in a ramp step (R427). -/
def State.retFree (s : State) : Bool := s.gov.retStep != some (s.time / 4)

/-- An island enters or leaves RET in this step. -/
def State.noteRet (s : State) : State := { s with gov := { s.gov with retStep := some (s.time / 4) } }

/-- The ports of an island's group go down with it, or come up (R362, R426). -/
def State.groupPorts (s : State) (i : Nat) (up : Bool) : State :=
  if i < 120 then s
  else (List.range 8).foldl (fun (s : State) k =>
    let p := 8 * (i - 120) + k
    let s := { s with pkg := { s.pkg with portsUp := s.pkg.portsUp.mapIdx fun j u => if j = p then up else u } }
    if up then s else s.clPortsDown (p / 4)) s

/-- ISLAND_IDLE: a cluster island with no work and no tadpole, or another that is directed so, enters IDLE (R426). -/
def execIslandIdle (i : Nat) (s : State) : Out State :=
  .next (if (s.island i).st = .run ∧ (if i < 96 then !s.clusterBusy i && !s.hasTadpole i else s.directed i .idle) then
      (s.putIsland i .idle s.time).undirect i .idle
    else s)

/-- ISLAND_RETENTION: a cluster island idle for 65,536 reference cycles, or another that is directed so, enters RET, once the running islands can
fill the level with ballast (R426, R427). -/
def execIslandRetention (i : Nat) (s : State) : Out State :=
  let x := s.island i
  let due : Bool := if i < 96 then x.st == .idle && decide (s.time ≥ x.since + 65536) else (x.st == .idle || x.st == .run) && s.directed i .ret
  .next (if due ∧ s.retFree ∧ s.ballastNow.left = 0 then (((s.putIsland i .ret s.time).undirect i .ret).groupPorts i false).noteRet else s)

/-- ISLAND_WAKE: a wanted island wakes: from IDLE in 50 cycles, from RET as a unit of rate 64 that the governor admits (R427, R434). -/
def execIslandWake (i : Nat) (s : State) : Out State :=
  let x := s.island i
  let s := s.openCycle
  .next (if !s.islandWanted i then s
    else if x.st = .idle then s.putIsland i .waking (s.time + 50)
    else if x.st ≠ .ret ∨ !s.retFree then s
    else
      let g := s.gov
      let fits : Bool := decide (g.loadNow + 64 ≤ g.level) &&
        (match islandDie i with | some d => decide (g.dieLoad d + 64 ≤ g.dieCapOf d) | none => true)
      if fits then
        let u : RunUnit := { kind := .wake i, rate := 64, die := islandDie i, endsAt := s.time + wakeTime i, work := none }
        ({ (s.putIsland i .waking (s.time + wakeTime i)) with gov := g.addUnit u } : State).noteRet
      else s)

/-- ISLAND_WAKE_DONE: the wake time has passed, and what waited for the island goes on (R426, R434). -/
def execIslandWakeDone (i : Nat) (s : State) : Out State :=
  let x := s.island i
  .next (if x.st = .waking ∧ s.time ≥ x.since then
      let old := s.remoteWait
      let s := ((s.putIsland i .run s.time).undirect i .run).groupPorts i true
      let s := { s with gov := { s.gov with wanted := s.gov.wanted.filter fun k => k != i }, remoteWait := if i < 96 then old else [] }
      if i < 96 then s else old.foldl State.arriveRemote s
    else s)

/-! ### Operating points (R411, R428) -/

/-- A unit at its cluster's new clock: its rate and what is left of its time follow (R406, R411). -/
def RunUnit.atClock (u : RunUnit) (i old new now : Nat) : RunUnit :=
  match u.work with
  | some (v, cost, d) =>
    if v = i then { u with rate := ceilDiv (cost * new) (1000 * max 1 d), endsAt := now + ceilDiv ((u.endsAt - now) * old) new } else u
  | none => u

/-- The rise of the load that an operating point asks for. -/
def State.clockRise (s : State) (p : Nat × Nat) : Nat :=
  let run := s.gov.units.filter fun u => !u.expired s.time
  unitRates (run.map fun u => u.atClock p.1 (s.clusterMhz p.1) p.2 s.time) - unitRates run

/-- An operating point that an island can have: at most the 2.2 GHz of R1. -/
def pointOk (p : Nat × Nat) : Bool := decide (p.1 < 128) && decide (0 < p.2) && decide (p.2 ≤ 2200)

/-- An island takes an operating point; the rates of its cluster's running units change with it. -/
def State.setClock (s : State) (p : Nat × Nat) : State :=
  let x := s.island p.1
  let old := unitRates s.gov.units
  let units := s.gov.units.map fun u => u.atClock p.1 (s.clusterMhz p.1) p.2 s.time
  let new := unitRates units
  { s with
    islands := SMap.put s.islands p.1 { x with mhz := p.2, base := s.ccOf p.1 + s.later, from_ := s.cc }
    gov := { s.gov with
      units := units
      loadNow := s.gov.loadNow + new - old
      dieNow := s.gov.dieNow.mapIdx fun d x => if some d = islandDie p.1 then x + new - old else x } }

/-- Operating points that lower a clock, which take effect at the step boundary (R428). -/
def State.lowers (s : State) (p : Nat × Nat) : Bool := decide (p.2 ≤ s.clusterMhz p.1)

/-- The lowerings that wait take effect (R428). -/
def State.lowerClocks (s : State) : State :=
  let s := { s with gov := { s.gov with points := s.gov.points.filter pointOk } }
  let now := s.gov.points.filter s.lowers
  now.foldl State.setClock { s with gov := { s.gov with points := s.gov.points.filter fun p => !s.lowers p } }

/-- The raises that wait take effect as far as their rises fit under the level and the die's cap (R411, R428). -/
def State.raiseClocks (s : State) : State :=
  s.gov.points.foldl (fun (s : State) p =>
    let d := s.clockRise p
    if s.gov.loadNow + d ≤ s.gov.level ∧ ((islandDie p.1).all fun k => decide (d = 0) || decide (s.gov.dieLoad k + d ≤ s.gov.dieCapOf k)) then
      ({ s with gov := { s.gov with points := s.gov.points.filter fun q => q != p } } : State).setClock p
    else s) s

/-! ### The step (R407, R413, R414, R423, R433) -/

/-- The rates that wait for admission. -/
def State.waitingRates (s : State) : Nat :=
  let cl := (s.clusters.map fun kc => (s.mxWaiting kc.1 ++ s.saWaiting kc.1 ++ s.cpWaiting kc.1).sum).sum
  let wake := 64 * ((s.islands.filter fun e => e.2.st == .ret && s.islandWanted e.1).length)
  cl + s.clWaiting.sum + wake + (s.gov.points.map s.clockRise).sum

/-- The want of a step. -/
def State.want (s : State) : Nat := s.gov.loadNow + s.waitingRates + s.dieDemand 0 + s.dieDemand 1

/-- The band of a level in the ramp table. -/
def State.band (s : State) (level : Nat) : Nat := min 15 (level / 2 ^ (bits s.pkg.rampcfg.toNat 11 8 + 10))

/-- DSTEP (R407). -/
def State.dstepOf (s : State) : Nat := min 4000 (max 100 (bits s.pkg.rampcfg.toNat 63 52)) * s.gov.vset / 2000

/-- The largest rise and fall of the current band. -/
def State.upDn (s : State) : Nat × Nat :=
  let w := (s.rampTab (s.band s.gov.level)).toNat
  (min (bits w 31 16) s.dstepOf, min (bits w 15 0) s.dstepOf)

/-- The share of an intent in the floor of the step of this reference cycle (R430). -/
def Intent.ramp (i : Intent) (now up : Nat) : Nat := if now / 4 < i.start / 4 then 0 else min i.dr (up * (now / 4 - i.start / 4 + 1))

/-- The least of some numbers, or 0. -/
def leastOf : List Nat → Nat
  | [] => 0
  | [x] => x
  | x :: xs => min x (leastOf xs)

/-- The intent floor (R430). -/
def State.intentFloor (s : State) (up : Nat) : Nat :=
  leastOf (s.gov.intents.map fun e => e.2.base) + (s.gov.intents.map fun e => e.2.ramp s.time up).sum

/-- The banks and regulators forbid a rise of this size (R407, R423). -/
def State.riseHeld (s : State) (up : Nat) : Bool :=
  let c := s.pkg.capchg.toNat
  let low := bits s.pkg.rampcfg.toNat 23 16
  ((List.range 8).any fun i => decide (bits c (7 * i + 6) (7 * i) < low)) || decide (16 * bits c 63 56 * s.gov.vset < up * 8)

/-- GMIN (R414). -/
def State.gmin (s : State) : Nat := bits s.pkg.ramplim.toNat 19 0

/-- Starts queued prefetches of a die while they fit the ballast and the die's cap (R418, R419). -/
def startPfq (now d : Nat) : List Prefetch → Governor → List Prefetch × Governor
  | [], g => ([], g)
  | p :: ps, g =>
    if g.loadNow + 4 ≤ g.level ∧ g.dieLoad d + 4 ≤ g.dieCapOf d then
      startPfq now d ps (g.addUnit { kind := .pfq p.va p.asid, rate := 4, die := some d, endsAt := now + 4, work := none })
    else (p :: ps, g)

/-- Starts scrub tadpoles, up to SCRB in flight, while they fit the ballast (R418, R419). -/
def startScrub (now most : Nat) : Nat → Governor → Governor
  | 0, g => g
  | n + 1, g =>
    if (g.units.filter fun u => u.kind == .scrub && !u.expired now).length < most ∧ g.loadNow + 8 ≤ g.level then
      startScrub now most n (g.addUnit { kind := .scrub, rate := 8, die := none, endsAt := now + 16, work := none })
    else g

/-- The tadpoles that count as real load start in the first reference cycle of a step, where they fit the ballast that ready units and refills have
left (R408, R418, R419); what is left is the step's ballast rate (R414). -/
def State.startTadpoles (s : State) : State :=
  let g := s.gov
  let a := startPfq s.time 0 ((g.pfq[0]?).getD []) g
  let b := startPfq s.time 1 ((g.pfq[1]?).getD []) a.2
  let g := startScrub s.time (bits s.pkg.rampcfg.toNat 15 12) 15 { b.2 with pfq := [a.1, b.1] }
  { s with gov := { g with balr := g.level - g.loadNow } }

/-- The external offset holds the first rise after 1,024 steps at GMIN that no intent floor covers (R433): whether it holds this step, the
steps that are left, and the steps counted at GMIN. -/
def Governor.offset (g : Governor) (xoff target floor : Nat) : Bool × Nat × Nat :=
  if g.xoffLeft > 0 then (true, g.xoffLeft - 1, 0)
  else if g.atMin ≥ 1024 ∧ target > g.level ∧ floor < target ∧ xoff > 0 then (true, xoff - 1, 0)
  else (false, 0, g.atMin)

/-- SHORT advances by one step, and saturates (R414, R420). -/
def State.addShort (s : State) : State :=
  let w := s.pkg.ramplim.toNat
  if s.gov.short then { s with pkg := { s.pkg with ramplim := BitVec.ofNat 64 (withBits w 63 32 (min (2 ^ 32 - 1) (bits w 63 32 + 1))) } } else s

/-- Samples `CAPCHG` (R422): the power module's next report, or the last one again (log entry 5). -/
def State.sampleBanks (s : State) : State :=
  match s.gov.reports with
  | r :: rs => { s with gov := { s.gov with reports := rs }, pkg := { s.pkg with capchg := r } }
  | [] => s

/-- A ramp register takes a value; the fields that hardware writes keep theirs (R414). -/
def Pkg.setRamp (p : Pkg) (n : Nat) (v : DWord) : Pkg :=
  if n = 0x260 then { p with rampcfg := v }
  else if n = 0x262 then { p with ramplim := BitVec.ofNat 64 (withBits p.ramplim.toNat 19 0 (bits v.toNat 19 0)) }
  else { p with ramptab := SMap.set 0xFFFFFFFF p.ramptab (n - 0x270) (BitVec.ofNat 32 v.toNat) }

/-- Writes of the ramp registers take effect at the step boundary (R414). -/
def State.applyRamp (s : State) : State :=
  s.pkg.rampWrites.foldl (fun (s : State) w => { s with pkg := s.pkg.setRamp w.1 w.2 }) { s with pkg := { s.pkg with rampWrites := [] } }

/-- RAMP_STEP: at a step boundary register writes and lower clocks take effect, the charge is sampled, the want and the level are formed, the die
caps are set, and raised clocks are admitted (R407, R414, R422, R428). -/
def execRampStep (s : State) : Out State :=
  if s.time % 4 ≠ 0 then .next s
  else
    let s := s.openCycle.applyRamp.lowerClocks
    let s := s.sampleBanks.addShort
    let g := s.gov
    let ud := s.upDn
    let fl := s.intentFloor ud.1
    let target := max (max s.want fl) s.gmin
    let off := g.offset (bits s.pkg.rampcfg.toNat 39 32) target fl
    let up := if s.riseHeld ud.1 || off.1 then 0 else ud.1
    let level := max g.loadNow (min (max target (g.level - ud.2)) (g.level + up))
    let ld := [pair2 g.dieSum 0 / 4, pair2 g.dieSum 1 / 4]
    let g := { g with
      level := level
      cfg := s.pkg.rampcfg
      up := ud.1
      dstep := s.dstepOf
      dstepd := s.dstepd
      prevDie := ld
      dieCap := [pair2 ld 0 + s.dstepd, pair2 ld 1 + s.dstepd]
      dieSum := [0, 0]
      startDie := g.dieNow
      short := false
      xoffLeft := off.2.1
      atMin := if level = s.gmin then off.2.2 + 1 else 0 }
    .next ({ s with gov := g } : State).raiseClocks

/-! ### Admission (R408, R409) -/

/-- The state after an event. -/
def afterEvent (s : State) : Out State → State
  | .next t => t
  | _ => s

/-- A piece of work that asks for a grant: whether it is a late copy, the acceptance of its command, its rank and cluster, and the event that
grants it. -/
structure Asking where
  late : Bool
  id : Nat
  rank : Nat
  v : Nat
  act : State → Out State

/-- The admission order of R409. -/
def Asking.before (a b : Asking) : Bool :=
  if a.late != b.late then a.late
  else if a.id ≠ b.id then decide (a.id < b.id)
  else if a.rank ≠ b.rank then decide (a.rank < b.rank)
  else decide (a.v < b.v)

/-- A copy has passed its promise (R327), its team there or not. -/
def State.copyIsLate (s : State) (q : CopyCmd) : Bool := !q.finished && decide (s.time > q.promise)

/-- What asks for a grant in a cluster: the passes that the arbiter chooses for the free sub-arrays (R316), window operations, the sampling work
that takes no free sub-array, and the heads of the copy streams, where a late copy hurries the whole stream (R327). -/
def State.askingIn (s : State) (v : Nat) : List Asking :=
  let c := s.cluster v
  let ask := fun (id rank : Nat) (act : State → Out State) => ({ late := false, id := id, rank := rank, v := v, act := act } : Asking)
  let passes := ((s.readyPasses v).take (s.freeSubs v).length).map fun e => ask e.joint e.rank fun s => .next (s.grantReady v e)
  let ops := ((s.readyEntries v).filter MxEntry.isWindow).map fun e => ask e.id e.rank (execMxWindowOpComplete v e.id)
  let alone := fun (q : SaCmd) => q.running && (!q.op.isPass || c.entries.any fun e => q.entry == some e.id && e.sub.isSome)
  let sas := (c.saQ.filter alone).map fun q => ask q.id 0 (execSaBatchPass v q.slot)
  let cps := fun (remote : Bool) => ((c.copy.stream remote).take 1).map fun q =>
    { ask q.id 0 (execCopyCommandStart v remote) with late := (c.copy.stream remote).any s.copyIsLate }
  passes ++ ops ++ sas ++ cps false ++ cps true

/-- What asks for a grant in a channel. -/
def Channel.asking (ch : Nat) (c : Channel) : List Asking :=
  match c.progs.head? with
  | some p => if p.started then
      (List.range p.active.length).reverse.map fun i => ({ late := false, id := p.id, rank := i, v := 0, act := execClStepComplete ch i } : Asking)
    else []
  | none => []

/-- GOVERNOR_CYCLE: the units that end leave the load, and ready units are granted in admission order while they fit; the ballast of the cycle is
what is left under the level when it closes. The refills that the level bounds are placed at the core cycles of this reference cycle
(R393, R408). -/
def execGovernorCycle (s : State) : Out State :=
  let s := s.openCycle
  let asks := s.clusters.flatMap (fun kc => s.askingIn kc.1) ++ s.chans.flatMap fun kc => kc.2.asking kc.1
  .next ((sortBy Asking.before asks).foldl (fun (s : State) a => afterEvent s (a.act s)) s)

/-! ### Intents (R429 to R433) -/

/-- The position of an intent accepted at `acc` with lead `b` (R431). -/
def State.intentPos (s : State) (ctx acc b : Nat) : Nat :=
  let part := s.keyedPart ctx
  min 255 (s.gov.rx.filter fun r => decide (r.peer < s.peerId) && part == some r.part && decide (r.at_ + 64 * b ≥ acc) &&
    decide (r.at_ ≤ acc + 64 * b)).length

/-- The start of an intent's ramp, by the band and `RAMPCFG` of the current step (R414, R429, R433). -/
def State.intentStart (s : State) (due dr p : Nat) : Nat :=
  let up := s.gov.up
  let c := s.gov.cfg.toNat
  let back := 4 * (ceilDiv dr up + p * bits c 31 24 + bits c 39 32)
  let first := (s.time / 4 + 1) * 4
  if up = 0 ∨ due < back + first then first else due - back

/-- Ramps that have not begun are placed again when what was received changes (R431). -/
def State.restagger (s : State) : State :=
  { s with gov := { s.gov with intents := s.gov.intents.map fun e =>
      if e.2.start > s.time then
        (e.1, { e.2 with start := s.intentStart e.2.due e.2.dr (s.intentPos e.2.ctx (e.2.due - 64 * e.2.lead) e.2.lead) })
      else e } }

/-- `tk.intent`. -/
def execTkIntent (h : Hdr) (d a b : RegNo) (s : State) : Out State :=
  let i : Instr := .tkIntent h d a b
  withTeam i s (teamOp i h d 1 [(a, 1), (b, 1)] fun s t gs lead vs =>
    let x := vs.headD 0
    let y := (vs[1]?).getD 0
    if x ≥ 65536 ∨ x = 0 ∨ y ≥ 65536 ∨ y = 0 then .stop (t.leadStop lead .bounds) s
    else
      match (List.range 16).find? fun n => (SMap.find s.gov.intents n).isNone with
      | none => .done (s.answer t.uid d 1 gs 0)
      | some n =>
        let gen := s.gov.gen % 4095 + 1
        let due := s.time + 64 * y
        let e : Intent := { ctx := t.ctx, gen := gen, dr := x, lead := y, due := due,
                            start := s.intentStart due x (s.intentPos t.ctx s.time y), base := s.gov.level }
        let out := match s.openPart t.ctx with
          | some m => s.outbox ++ [OutMsg.intent n gen x y m]
          | none => s.outbox
        let s := { s with gov := { s.gov with gen := gen, intents := SMap.put s.gov.intents n e }, outbox := out }
        .done (s.answer t.uid d 1 gs (gen * 16 + n)))

/-- `tk.icncl`. -/
def execTkIcncl (h : Hdr) (d a : RegNo) (s : State) : Out State :=
  let i : Instr := .tkIcncl h d a
  withTeam i s (teamOp i h d 1 [(a, 1)] fun s t gs _ vs =>
    let x := bits (vs.headD 0) 15 0
    match SMap.find s.gov.intents (x % 16) with
    | none => .done (s.answer t.uid d 1 gs 0)
    | some e =>
      if e.gen ≠ x / 16 ∨ e.ctx ≠ t.ctx then .done (s.answer t.uid d 1 gs 0)
      else
        let out := match s.openPart t.ctx with
          | some m => s.outbox ++ [OutMsg.intentCancel (x % 16) e.gen m]
          | none => s.outbox
        .done (({ s with gov := { s.gov with intents := SMap.del s.gov.intents (x % 16) }, outbox := out } : State).answer t.uid d 1 gs 1))

/-- A message of the governor control class passes its check, or is discarded and counted (R431). -/
def State.govMessage (s : State) (part : Nat) (auth : Bool) (k : State → State) : State :=
  if auth ∧ (s.partCtx part).isSome then k s else { s with pkg := { s.pkg with discarded := s.pkg.discarded + 1 } }

/-- INTENT_RECEIVE (R431). -/
def execIntentReceive (peer idx gen dr lead part : Nat) (auth : Bool) (s : State) : Out State :=
  .next (s.govMessage part auth fun s =>
    let r : IntentRx := { peer := peer, idx := idx, gen := gen, dr := dr, lead := lead, part := part, at_ := s.time }
    ({ s with gov := { s.gov with rx := s.gov.rx ++ [r] } } : State).restagger)

/-- INTENT_CANCEL_RECEIVE (R429). -/
def execIntentCancelReceive (peer idx gen part : Nat) (auth : Bool) (s : State) : Out State :=
  .next (s.govMessage part auth fun s =>
    ({ s with gov := { s.gov with rx := s.gov.rx.filter fun r => !(r.peer == peer && r.idx == idx && r.gen == gen && r.part == part) } } :
      State).restagger)

/-- INTENT_EXPIRE: an intent ends at the step that contains its due time and the hold after it (R430). -/
def execIntentExpire (idx : Nat) (s : State) : Out State :=
  .next (match SMap.find s.gov.intents idx with
    | none => s
    | some e =>
      if s.time / 4 ≥ (e.due + 4 * bits s.gov.cfg.toNat 7 0) / 4 then
        { s with gov := { s.gov with intents := SMap.del s.gov.intents idx } }
      else s)

end Sys2Proof.Machine
end

