-- ==== Sys2Proof/Machine/HostIf.lean ====
section
/-! DEFINITION. The host interface (R435 to R452): ownership, the management registers, context commands, save, restore and destroy, partitions
and keys, attestation, cold boot, wear counters, and the links' going down and up. -/

namespace Sys2Proof.Machine

open Sys2Proof

/-! ### Ownership (R440) -/

/-- `MOWN`.PEND. -/
def Pkg.offered (p : Pkg) : Nat := bits p.mown.toNat 61 60

/-- The interface of a master is down: the host's link, all 64 ports, or the board's bus, which is silent but for the accesses that are heard on it
(R440, log entry 45). -/
def State.masterDown (s : State) (m : Nat) : Bool :=
  match m with
  | 1 => !s.pkg.hostUp
  | 2 => s.pkg.portsUp.all fun u => !u
  | 3 => true
  | _ => false

/-- Notes since when the owner's interface has been down. -/
def State.watchOwner (s : State) : State :=
  let since := if s.masterDown s.pkg.owner then (if s.pkg.ownerDownSince.isSome then s.pkg.ownerDownSince else some s.time) else none
  { s with pkg := { s.pkg with ownerDownSince := since } }

/-- `MOWN` with PEND cleared and a new owner; a change of OWNER increments GEN. -/
def mownFor (mown owner : Nat) : Nat :=
  let m := withBits mown 63 62 owner
  if bits mown 63 62 = owner then m else withBits m 47 32 (bits mown 47 32 + 1)

/-- Ownership passes to a master, or becomes vacant. -/
def State.setOwner (s : State) (owner : Nat) : State :=
  let s := s.setMown (mownFor s.pkg.mown.toNat owner)
  ({ s with pkg := { s.pkg with ownerDownSince := none } } : State).watchOwner

/-- PEND takes a value. -/
def State.setPend (s : State) (m : Nat) : State :=
  let s := s.setMown (withBits s.pkg.mown.toNat 61 60 m)
  { s with pkg := { s.pkg with pendSince := s.time } }

/-- A word that `MCLAIM` and `MACCEPT` take: the writing master's own ID. -/
def ownId (master : Nat) (value : DWord) : Bool := decide (1 ≤ master) && decide (master ≤ 3) && value.toNat == master

/-- MCLAIM_WRITE: the claims of one reference cycle (R440): each wrong word advances DROPS, and while nobody owns the package the lowest
claiming ID takes it. -/
def execMclaimWrite (claims : List (Nat × DWord)) (s : State) : Out State :=
  let s := (claims.filter fun c => !ownId c.1 c.2).foldl (fun (s : State) _ => s.dropWrite) ((claims.map Prod.fst).foldl State.heard s)
  let ids := (claims.filter fun c => ownId c.1 c.2).map Prod.fst
  .next (if s.pkg.owner ≠ 0 then s
    else match ids with
      | [] => s
      | m :: ms => s.setOwner (ms.foldl min m))

/-- MACCEPT_WRITE: the master named in PEND takes ownership (R440). -/
def execMacceptWrite (master : Nat) (value : DWord) (s : State) : Out State :=
  .next (if !ownId master value then (s.heard master).dropWrite
    else if s.pkg.offered = master then (s.setPend 0).setOwner master
    else s)

/-- MOWN_PEND_WRITE: the owner offers the package to a master (R440). -/
def execMownPendWrite (master : Nat) (value : DWord) (s : State) : Out State :=
  .next (s.ownerWrite master fun s => s.setPend (bits value.toNat 61 60))

/-- PEND_TIMEOUT: an offer that nobody accepts within 10⁹ reference cycles is cleared (R440). -/
def execPendTimeout (s : State) : Out State :=
  .next (if s.pkg.offered ≠ 0 ∧ s.time ≥ s.pkg.pendSince + 10 ^ 9 then s.setPend 0 else s)

/-- OWNER_VACANCY: the owner's interface has been down for 10⁹ reference cycles (R440). -/
def execOwnerVacancy (s : State) : Out State :=
  .next (match s.pkg.ownerDownSince with
    | some t => if s.pkg.owner ≠ 0 ∧ s.time ≥ t + 10 ^ 9 then s.setOwner 0 else s
    | none => s)

/-- HOST_LINK_DOWN: no context goes down; the owner's vacancy count starts where the host owns the package (R435, R440). -/
def execHostLinkDown (s : State) : Out State := .next ({ s with pkg := { s.pkg with hostUp := false } } : State).watchOwner

/-- A firmware image passes: its signature verifies under a key whose digest is fused, and its version is not below the rollback counter (R449). -/
def FwImage.passes (n : Nvm) (f : FwImage) : Bool := f.signer == some n.fused && decide (n.rollback.toNat ≤ f.version)

/-- The firmware that runs: that of the first bank that passes. -/
def Nvm.running (n : Nvm) : Option FwImage := n.banks.find? (FwImage.passes n)

/-- A bank of firmware passes. -/
def Nvm.fwOk (n : Nvm) : Bool := n.running.isSome

/-- HOST_LINK_UP: without firmware that passes, the link stays down (R449). -/
def execHostLinkUp (s : State) : Out State :=
  .next (if s.nvm.fwOk then ({ s with pkg := { s.pkg with hostUp := true } } : State).watchOwner else s)

/-- Sets a port's state. -/
def State.setPort (s : State) (port : Nat) (up : Bool) : State :=
  ({ s with pkg := { s.pkg with portsUp := s.pkg.portsUp.mapIdx fun i u => if i = port then up else u } } : State).watchOwner

/-- FABRIC_PORT_DOWN: a channel whose four ports are all down faults its programs (R362, R379). -/
def execFabricPortDown (port : Nat) (s : State) : Out State := .next ((s.setPort port false).clPortsDown (port / 4))

/-- FABRIC_PORT_UP: without firmware that passes, the ports stay down (R449). -/
def execFabricPortUp (port : Nat) (s : State) : Out State := .next (if s.nvm.fwOk then s.setPort port true else s)

/-! ### Host windows (R295, R438) -/

/-- A host access that is discarded advances HERR, which saturates (R438). -/
def State.hostError (s : State) : State :=
  let m := s.pkg.mown.toNat
  s.setMown (withBits m 31 16 (min 65535 (bits m 31 16 + 1)))

/-- The answer to a host's read. -/
def State.answerHost (s : State) (off : Nat) (data : List Byte) : State := { s with outbox := s.outbox ++ [OutMsg.hostRead off data] }

/-- A host access that would fault: all ones for a read, nothing for a write (R438). -/
def State.hostFault (s : State) (write : Bool) (off n : Nat) : State :=
  let s := s.hostError
  if write then s else s.answerHost off (List.replicate n 0xFF)

/-! ### Context commands (R230, R443) -/

/-- `CTXCTL` of a slot. -/
def State.ctl (s : State) (slot : Nat) : Nat := (SMap.get 0 s.pkg.ctxctl slot).toNat

/-- Writes `CTXCTL` of a slot. -/
def State.setCtl (s : State) (slot v : Nat) : State :=
  { s with pkg := { s.pkg with ctxctl := SMap.set 0 s.pkg.ctxctl slot (BitVec.ofNat 64 v) } }

/-- Sets ST. -/
def State.setSt (s : State) (slot st : Nat) : State := s.setCtl slot (withBits (s.ctl slot) 59 57 st)

/-- What a context keeps of its queues and its tape when it is empty. -/
def Ctx.emptied (c : Ctx) : Ctx := { c with queues := [], packets := [], tape := none, tdepth := 0, pageReqs := [] }

/-- The memory that a window names, as the place of an image: the window, its context slot and its first address. -/
def State.imagePlace (s : State) (w : Nat) : Nat :=
  let x := (SMap.get 0 s.pkg.win w).toNat
  w * 2 ^ 62 + bits x 5 0 * 2 ^ 56 + bits x 55 32 * 2 ^ 32

/-- The context through whose window an image is written and read. -/
def State.imageCtx (s : State) (place : Nat) : Ctx := s.ctx (place / 2 ^ 56 % 64)

/-- The bytes of an image (R230, log entry 33). -/
def SavedCtx.bytes (im : SavedCtx) (n : Nat) : List Byte := (List.range (65536 * im.size)).map (Config.imageByte n)

/-- The memory at a place holds the bytes of an image, wherever they come from (R230, R443, R452). -/
def State.holdsImage (s : State) (place n : Nat) (im : SavedCtx) : Bool :=
  s.vaRead (s.imageCtx place) (place % 2 ^ 56) (65536 * im.size) == some (im.bytes n)

/-- The image that the memory at a place holds: the part knows what it has written into each. -/
def State.imageAt (s : State) (place : Nat) : Option SavedCtx :=
  (s.saved.find? fun e => s.holdsImage place e.1 e.2).map Prod.snd

/-- Matrix and sampling commands of a context that have not begun are cancelled (R443). -/
def State.cancelQueued (s : State) (slot : Nat) : State :=
  let mine := fun (gid : Nat) => s.grids.any fun g => g.gid == gid && g.ctx == slot
  s.clusters.foldl (fun (s : State) kc =>
    let s := (kc.2.saQ.filter fun q => mine q.gid && !q.running).foldl (fun (s : State) q => s.endSa kc.1 q .cancelled none) s
    ((s.cluster kc.1).entries.filter fun e => mine e.gid && e.sub.isNone && !e.started && e.tile == 0 &&
        (s.cluster kc.1).saQ.all fun q => q.entry != some e.id).foldl (fun (s : State) e => s.endEntry kc.1 e .cancelled) s) s

/-- A destroy begins: every team ends, queued engine work is cancelled, and nothing starts (R443). -/
def State.startDestroy (s : State) (slot : Nat) : State :=
  if s.pkg.dying.contains slot then s
  else
    let s := { s with pkg := { s.pkg with dying := s.pkg.dying ++ [slot] } }
    let s := ((s.teams.filter fun t => t.ctx == slot).map fun t => t.uid).foldl State.dropTeam s
    let s := s.cancelQueued slot
    let qs := s.clusters.flatMap fun kc => (kc.2.copy.all.filter fun q => q.ctx == slot && !q.started).map fun q => (kc.1, q.id)
    let s := qs.foldl (fun (s : State) x => (s.cancelCopy x.1 x.2).cancelTag x.2) s
    let s := (s.progs.filter fun p => p.ctx == slot && !p.started).foldl (fun (s : State) p => s.clStop p .cancelled none) s
    { s with gov := { s.gov with intents := s.gov.intents.filter fun e => e.2.ctx != slot }
             loads := s.loads.filter fun l => l.asid != (s.ctx slot).asid }

/-- A command written to `CTXCTL`. A save or restore whose image window is no enabled window is refused with IERR; a save is for a running
context. -/
def State.ctxCommand (s : State) (slot cmd : Nat) : State :=
  let w := bits (s.ctl slot) 5 0
  let st := bits (s.ctl slot) 59 57
  if cmd = 3 then s.startDestroy slot
  else if cmd ≠ 1 ∧ cmd ≠ 2 then s
  else if w > 15 ∨ !bit (SMap.get 0 s.pkg.win w).toNat 63 then s.setCtl slot (withBits (s.ctl slot) 56 56 1)
  else if cmd = 1 ∧ st ≠ 1 then s
  else
    let s := { s with pkg := { s.pkg with img := SMap.put s.pkg.img slot (s.imagePlace w) } }
    s.setCtl slot (withBits (withBits (s.ctl slot) 56 56 0) 59 57 (if cmd = 1 then 2 else 4))

/-- The RW fields of `CTXCTL`: ASID while V = 0, IMGW, and V, which makes the slot a context that runs. A written V = 0 destroys the context
(log entry 31). -/
def State.ctxFields (s : State) (slot v : Nat) : State :=
  let old := s.ctl slot
  let x := withBits old 5 0 (bits v 5 0)
  if bit old 63 then
    let s := s.setCtl slot x
    if bit v 63 then s else s.startDestroy slot
  else
    let x := withBits x 31 20 (bits v 31 20)
    if !bit v 63 then s.setCtl slot x
    else
      let s := s.setCtl slot (withBits (withBits x 63 63 1) 59 57 1)
      s.modCtx slot fun c => { c.emptied with valid := true, asid := bits v 31 20, flogpos := 0, prqpos := 0 }

/-- A write of `CTXCTL` (R443): while a save or restore is in progress only IMGW can change, and no command is taken. -/
def State.writeCtl (s : State) (slot v : Nat) : State :=
  let st := bits (s.ctl slot) 59 57
  if slot ≥ 64 then s
  else if st = 2 ∨ st = 4 ∨ s.pkg.dying.contains slot then s.setCtl slot (withBits (s.ctl slot) 5 0 (bits v 5 0))
  else (s.ctxFields slot v).ctxCommand slot (bits v 62 60)

/-- CTX_SAVE_CMD: an owner's write of `CTXCTL` with the save command. -/
def execCtxSaveCmd (master slot : Nat) (value : DWord) (s : State) : Out State :=
  .next (s.ownerWrite master fun s => s.writeCtl slot (withBits value.toNat 62 60 1))

/-- CTX_RESTORE_CMD. -/
def execCtxRestoreCmd (master slot : Nat) (value : DWord) (s : State) : Out State :=
  .next (s.ownerWrite master fun s => s.writeCtl slot (withBits value.toNat 62 60 2))

/-- CTX_DESTROY_CMD. -/
def execCtxDestroyCmd (master slot : Nat) (value : DWord) (s : State) : Out State :=
  .next (s.ownerWrite master fun s => s.writeCtl slot (withBits value.toNat 62 60 3))

/-- A copy or a collective program that a save cancels is reported in the fault log with KIND 4, for its team (R230, R231); the `TPC` of a team
that has gone reads 0. -/
def State.logCancel (s : State) (slot uid gid : Nat) : State :=
  let t := s.ident uid
  let tpc := match s.team? uid with | some u => bits u.tpc.toNat 15 0 | none => 0
  s.fileLog slot (flogWord 4 0 (s.queueOf gid) (s.ctx slot).asid t.pair t.home) 0 (t.lin * 2 ^ 32 + tpc * 2 ^ 16)

/-- CONTEXT_SAVE: the context's teams drain, copies that have not started and queued programs become CANCELLED and are logged, and its
intents go (R230, R333, R384, R430). -/
def execContextSave (slot : Nat) (s : State) : Out State :=
  .next (if s.ctxSt slot ≠ 2 then s
    else
      let s : State := { s with teams := s.teams.map fun (t : Team) =>
        if t.ctx == slot && (t.res == .resident || t.res == .starting) then { t with res := .draining } else t }
      let qs := s.clusters.flatMap fun kc =>
        (kc.2.copy.all.filter fun q => q.ctx == slot && !q.started && q.kind != .mcast).map fun q => (kc.1, q)
      let s := qs.foldl (fun (s : State) x =>
        ((s.cancelCopy x.1 x.2.id).cancelTag x.2.id).logCancel slot x.2.uid x.2.gid) s
      let s := (s.progs.filter fun p => p.ctx == slot && !p.started).foldl (fun (s : State) p =>
        (s.clStop p .cancelled none).logCancel slot p.uid p.gid) s
      { s with gov := { s.gov with intents := s.gov.intents.filter fun e => e.2.ctx != slot } })

/-- Engine work of a context that has been accepted and not ended: matrix and sampling commands, copies, programs, loads of code, arrivals
at barriers and moves of pages. -/
def State.ctxBusy (s : State) (slot : Nat) : Bool :=
  let asid := (s.ctx slot).asid
  let mine := fun (gid : Nat) => s.grids.any fun g => g.gid == gid && g.ctx == slot
  let team := fun (uid : Nat) => s.teams.any fun t => t.uid == uid && t.ctx == slot
  (s.clusters.any fun kc => kc.2.entries.any (fun e => mine e.gid) || kc.2.saQ.any (fun q => mine q.gid) ||
      kc.2.copy.all.any fun q => q.ctx == slot) ||
    (s.progs.any fun p => p.ctx == slot) || (s.loads.any fun l => l.asid == asid) || (s.arrivals.any fun a => team a.uid) ||
    (s.moves.any fun m => m.ctx == slot) || s.cores.any fun kc => kc.2.code.any fun e => e.2.waiters.any fun w => team w.who.uid

/-- The vault ranges of grids, as keys and lengths. -/
def regionRanges (gs : List Grid) : List (Nat × Nat) := gs.flatMap fun g => g.regions.map fun r => (vaultKey (r.1 * 2 ^ 23 + r.2), g.vbytes)

/-- A key lies in a range. -/
def inRanges (rs : List (Nat × Nat)) (k : Nat) : Bool := rs.any fun r => decide (r.1 ≤ k) && decide (k < r.1 + r.2)

/-- The accumulator rows of the gangs of some grids, as clusters, first rows and lengths. -/
def State.gangRows (s : State) (mine : Nat → Bool) : List (Nat × Nat × Nat) :=
  s.clusters.flatMap fun kc => kc.2.gangs.filterMap fun g =>
    if mine g.2.gid then g.2.base.map fun b => (kc.1, b, g.2.n * g.2.rows) else none

/-- What a save writes to the image (R230). -/
def State.imageOf (s : State) (slot : Nat) : SavedCtx :=
  let gs := s.grids.filter fun g => g.ctx == slot
  let mine := fun (gid : Nat) => gs.any fun g => g.gid == gid
  let rs := regionRanges gs
  let rows := s.gangRows mine
  { ctx := s.ctx slot
    teams := s.teams.filter fun t => t.ctx == slot
    grids := gs
    bars := s.cores.flatMap fun kc => (kc.2.bars.filter fun b => mine b.2.gid).map fun b => (kc.1, b.1, b.2)
    vault := s.mem.filter fun c => inRanges rs c.1
    poison := (s.poison.filter fun e => inRanges rs (e.1 * 64)).map Prod.fst
    gangs := s.clusters.flatMap fun kc => (kc.2.gangs.filter fun g => mine g.2.gid).map fun g => (kc.1, g.1, g.2)
    rows := s.clusters.flatMap fun kc =>
      (kc.2.acc.filter fun e => rows.any fun r => r.1 == kc.1 && decide (r.2.1 ≤ e.1 / 64) && decide (e.1 / 64 < r.2.1 + r.2.2)).map
        fun e => (kc.1, e.1, e.2)
    slots := s.clusters.flatMap fun kc =>
      (kc.2.sa.mapIdx fun i sl => (kc.1, i, sl)).filter fun x => x.2.2.st != .free && mine x.2.2.gid
    tags := s.tagUses.filter fun u => u.ctx == slot }

/-- A context leaves the machine: its teams, grids, barrier slots, gangs, sampling slots and tags (R230, R443). -/
def State.removeCtx (s : State) (slot : Nat) : State :=
  let mine := fun (gid : Nat) => s.grids.any fun g => g.gid == gid && g.ctx == slot
  let uids := (s.teams.filter fun t => t.ctx == slot).map fun t => t.uid
  let s := (s.drain fun w => mine w.gid || uids.contains w.uid).ackAll
  { s with
    teams := s.teams.filter fun t => t.ctx != slot
    grids := s.grids.filter fun g => g.ctx != slot
    pick := s.pick.filter fun u => !uids.contains u
    arrivals := s.arrivals.filter fun a => !uids.contains a.uid
    cores := s.cores.map fun kc => (kc.1, { kc.2 with bars := kc.2.bars.filter fun b => !mine b.2.gid })
    clusters := s.clusters.map fun kc => (kc.1, { kc.2 with
      winWait := kc.2.winWait.filter fun w => !((SMap.find kc.2.gangs w.slot).any fun g => mine g.gid)
      gangs := kc.2.gangs.filter fun g => !mine g.2.gid
      sa := kc.2.sa.map fun sl => if sl.st != .free && mine sl.gid then SaSlot.reset else sl })
    tagUses := s.tagUses.filter fun u => u.ctx != slot
    gov := { s.gov with pfq := s.gov.pfq.map fun q => q.filter fun p => !mine p.gid } }

/-- CONTEXT_SAVE_COMPLETE: every team is out and all accepted work has ended; the image is written through its window and ST reads saved (R230,
R443). The image's size is a free value of at least one unit (log entries 5, 33). -/
def execContextSaveComplete (slot : Nat) (s : State) : Out State :=
  .next (if s.ctxSt slot ≠ 2 ∨ s.ctxBusy slot || s.teams.any (fun t => t.ctx == slot && t.res != .evicted) then s
    else
      match SMap.find s.pkg.img slot with
      | none => s
      | some place =>
        let gids := (s.grids.filter fun g => g.ctx == slot).map fun g => g.gid
        let s := (s.drain fun w => gids.contains w.gid).ackAll
        let free := s.fresh
        let image := { free.2.imageOf slot with size := 1 + bits free.1.toNat 15 0 % 65535 }
        let id := (free.2.removeCtx slot).newId
        let s := { id.2 with saved := SMap.put id.2.saved id.1 image }
        let s := (s.modCtx slot Ctx.emptied).setCtl slot (withBits (withBits (s.ctl slot) 59 57 3) 47 32 image.size)
        s.writeRecord (place / 2 ^ 56 % 64) (place % 2 ^ 56) (image.bytes id.1))

/-- What an image needs is free: vault regions, barrier slots, gang slots, accumulator rows, sampling slots and team and grid numbers. -/
def State.imageFits (s : State) (im : SavedCtx) : Bool :=
  let rows := s.gangRows fun _ => true
  (im.grids.all fun g => s.grids.all fun x => x.gid != g.gid && g.regions.all fun r => match SMap.find x.regions r.1 with
      | some b => !meets b x.vbytes r.2 g.vbytes
      | none => true) &&
    (im.grids.all fun g => s.grids.all fun x => g.barCore.isNone || g.barCore != x.barCore || !meets x.barBase x.nbar g.barBase g.nbar) &&
    (im.teams.all fun t => (s.team? t.uid).isNone) &&
    (im.bars.all fun b => (SMap.find (s.core b.1).bars b.2.1).isNone) &&
    (im.gangs.all fun g => (SMap.find (s.cluster g.1).gangs g.2.1).isNone && match g.2.2.base with
      | some b => rows.all fun r => r.1 != g.1 || !meets r.2.1 r.2.2 b (g.2.2.n * g.2.2.rows)
      | none => true) &&
    im.slots.all fun x => match (s.cluster x.1).sa[x.2.1]? with
      | some sl => sl.st == .free
      | none => false

/-- The vault regions of an image are written back, whole: their old bytes go, their blocks belong to the context, and those that were poisoned
are so again. -/
def State.fillRegions (s : State) (asid : Nat) (im : SavedCtx) : State :=
  let rs := regionRanges im.grids
  let blocks := rs.flatMap fun r => (List.range ((r.2 + 63) / 64)).map fun i => r.1 / 64 + i
  { s with
    mem := im.vault.foldl (fun (m : List Host.Cell) c => SMap.set 0 m c.1 c.2) (s.mem.filter fun c => !inRanges rs c.1)
    poison := im.poison.foldl (fun (m : SMap Bool) b => SMap.put m b true) (s.poison.filter fun e => !inRanges rs (e.1 * 64))
    codeErrs := s.codeErrs.filter fun e => !inRanges rs (e.1 * 64)
    tags := blocks.foldl (fun (m : SMap Nat) b => SMap.put m b asid) s.tags }

/-- Writes one cluster's part of an image back. -/
def Cluster.fill (c : Cluster) (k : Nat) (now : Nat) (im : SavedCtx) : Cluster :=
  let gs := im.gangs.filter fun g => g.1 == k
  { c with
    gangs := gs.foldl (fun (m : SMap Gang) g => SMap.put m g.2.1 g.2.2) c.gangs
    winWait := c.winWait ++ (gs.filter fun g => g.2.2.formed && g.2.2.base.isNone).map fun g => { slot := g.2.1, since := now }
    acc := (im.rows.filter fun r => r.1 == k).foldl (fun (m : SMap Word) r => SMap.put m r.2.1 r.2.2) (gs.foldl (fun (m : SMap Word) g =>
      match g.2.2.base with
      | some b => m.filter fun e => !meets (e.1 / 64) 1 b (g.2.2.n * g.2.2.rows)
      | none => m) c.acc)
    sa := c.sa.mapIdx fun i sl => ((im.slots.find? fun x => x.1 == k && x.2.1 == i).map fun x => x.2.2).getD sl }

/-- An image comes back: its teams are out, to be restored, and its queues, tape and loss scale are as saved (R230). -/
def State.placeImage (s : State) (slot : Nat) (im : SavedCtx) : State :=
  let asid := (s.ctx slot).asid
  let s := s.fillRegions asid im
  let s := im.bars.foldl (fun (s : State) b => s.putCore b.1 { s.core b.1 with bars := SMap.put (s.core b.1).bars b.2.1 b.2.2 }) s
  let ks := distinct (im.gangs.map Prod.fst ++ im.slots.map Prod.fst)
  let s := ks.foldl (fun (s : State) k => s.putCluster k ((s.cluster k).fill k (s.ccOf k) im)) s
  let s := { s with
    teams := s.teams ++ im.teams.map fun (t : Team) => { t with ctx := slot, asid := asid }
    grids := s.grids ++ im.grids.map fun (g : Grid) => { g with ctx := slot }
    tagUses := s.tagUses ++ im.tags.map fun (u : TagUse) => { u with ctx := slot } }
  let here := fun (g : Grid) => { g with ctx := slot }
  s.modCtx slot fun c =>
    { c with queues := im.ctx.queues, packets := im.ctx.packets.map fun p => { p with ready := p.ready.map here },
             tape := im.ctx.tape.map fun r => { r with popped := r.popped.map fun x => (x.1, here x.2) }, tdepth := im.ctx.tdepth, pageReqs := im.ctx.pageReqs,
             lscale := im.ctx.lscale, lskip := im.ctx.lskip }

/-- The reads of an image whose memory is the host's or another device's are asked for. -/
def State.readImageAgain (s : State) (slot : Nat) : State :=
  match SMap.find s.pkg.img slot with
  | none => s
  | some p => s.saved.foldl (fun (s : State) e =>
      match s.vaRange (s.imageCtx p) .read (p % 2 ^ 56) (65536 * e.2.size) with
      | .wait n => s.emitNeeds n
      | _ => s) s

/-- CONTEXT_RESTORE_COMPLETE: the image is read through its window, and what it needs is free; the context resumes (R230, R443). -/
def execContextRestoreComplete (slot : Nat) (s : State) : Out State :=
  .next (if s.ctxSt slot ≠ 4 ∨ s.ctxBusy slot || s.teams.any (fun t => t.ctx == slot) || s.grids.any (fun g => g.ctx == slot) then s
    else
      match (SMap.find s.pkg.img slot).bind s.imageAt with
      | none => s.readImageAgain slot
      | some im =>
        if !s.imageFits im then s
        else
          let s := s.modCtx slot fun c => { c with valid := true, asid := bits (s.ctl slot) 31 20 }
          let s := (s.placeImage slot im).setSt slot 1
          s.setCtl slot (withBits (s.ctl slot) 63 63 1))

/-- CONTEXT_DESTROY_COMPLETE: accepted work has drained; the slots are freed and V reads 0 (R443). -/
def execContextDestroyComplete (slot : Nat) (s : State) : Out State :=
  .next (if !s.pkg.dying.contains slot || s.ctxBusy slot then s
    else
      let s := (s.removeCtx slot).modCtx slot fun c => { c.emptied with valid := false }
      let s := s.setCtl slot (withBits (withBits (s.ctl slot) 63 63 0) 59 57 0)
      { s with pkg := { s.pkg with dying := s.pkg.dying.filter fun x => x != slot } })

/-- LSCFG_WRITE (R208). -/
def execLscfgWrite (master slot : Nat) (value : DWord) (s : State) : Out State :=
  .next (s.ownerWrite master fun s => if slot < 64 then s.modCtx slot fun c => c.writeLscfg value.toNat else s)

/-! ### Partitions and keys (R442, R444, R446) -/

/-- `PART` of a partition. -/
def State.partWord (s : State) (m : Nat) : Nat := (SMap.get 0 s.pkg.part m).toNat

/-- Writes `PART` of a partition. -/
def State.setPart (s : State) (m v : Nat) : State := { s with pkg := { s.pkg with part := SMap.set 0 s.pkg.part m (BitVec.ofNat 64 v) } }

/-- `PARTCFG`: the peer number is taken only while no partition is valid (R442). -/
def State.writePartcfg (s : State) (v : Nat) : State :=
  if s.pkg.part.any fun e => e.2.getLsbD 63 then s
  else { s with pkg := { s.pkg with peerid := BitVec.ofNat 64 (bits v 8 0), partSet := true } }

/-- PARTCFG_WRITE. -/
def execPartcfgWrite (master : Nat) (value : DWord) (s : State) : Out State :=
  .next (s.ownerWrite master fun s => s.writePartcfg value.toNat)

/-- A write of `PART`: V := 0 dissolves the partition, and its link key is to be zeroised (R444). -/
def State.writePart (s : State) (m v : Nat) : State :=
  if m ≥ 64 then s
  else
    let old := s.partWord m
    let s := s.setPart m (withBits (withBits (withBits old 63 63 (bits v 63 63)) 37 32 (bits v 37 32)) 31 0 (bits v 31 0))
    if bit old 63 && !bit v 63 && s.pkg.linkKeys.contains m then
      { s with pkg := { s.pkg with zeroing := s.pkg.zeroing ++ [64 * bits old 37 32 + m] } }
    else s

/-- PART_WRITE. -/
def execPartWrite (master m : Nat) (value : DWord) (s : State) : Out State := .next (s.ownerWrite master fun s => s.writePart m value.toNat)

/-- LINK_KEY_ZEROISE: every port zeroises the key of a dissolved partition, and its programs fault with FABRIC_KEY (R380, R444). -/
def execLinkKeyZeroise (m : Nat) (s : State) : Out State :=
  .next (match s.pkg.zeroing.find? fun x => x % 64 == m with
    | none => s
    | some x =>
      let s := { s with pkg := { s.pkg with zeroing := s.pkg.zeroing.erase x, linkKeys := s.pkg.linkKeys.filter fun k => k != m } }
      (s.setPart m (withBits (s.partWord m) 62 62 0)).clKeyGone (x / 64))

/-- Bytes of a block of registers. -/
def regBytes (b : List Byte) (off n : Nat) : List Byte := (b.drop off).take n

/-- Writes bytes of a block of registers. -/
def putBlock (b : List Byte) (off : Nat) (bs : List Byte) : List Byte :=
  b.mapIdx fun i x => if off ≤ i ∧ i < off + bs.length then (bs[i - off]?).getD x else x

/-- KIND of the key command block. -/
def Pkg.keyKind (p : Pkg) : Nat := leNat (regBytes p.keyBlock 1 1)

/-- The key slot or partition of the key command block. -/
def Pkg.keyIndex (p : Pkg) : Nat := leNat (regBytes p.keyBlock 2 2)

/-- A key slot or partition joins a list of those that hold a key. -/
def addKey (l : List Nat) (k : Nat) : List Nat := if l.contains k then l else l ++ [k]

/-- What a key command does, and its STATUS (R446): a key is installed only where it unwraps to the length of its KIND. -/
def State.keyEffect (s : State) : State × Nat :=
  let p := s.pkg
  let n := p.keyIndex
  let key := Config.unwrapKey (regBytes p.keyBlock 16 97) (regBytes p.keyBlock 128 72)
  match p.keyKind with
  | 1 =>
    if n ≥ 512 then (s, 1)
    else if (key.map List.length) = some 64 then ({ s with pkg := { p with memKeys := addKey p.memKeys n } }, 0)
    else (s, 2)
  | 2 =>
    if n ≥ 64 then (s, 1)
    else if (key.map List.length) = some 32 then
      (({ s with pkg := { p with linkKeys := addKey p.linkKeys n } } : State).setPart n (withBits (s.partWord n) 62 62 1), 0)
    else (s, 2)
  | 3 => if n ≥ 512 then (s, 1) else ({ s with pkg := { p with memKeys := p.memKeys.filter fun k => k != n } }, 0)
  | _ => (s, 1)

/-- A key command runs: GO clears, STATUS is written, and vector 65 is signalled (R439, R446). -/
def State.keyCommand (s : State) : State :=
  let r := s.keyEffect
  let b := putBlock (putBlock r.1.pkg.keyBlock 0 [0]) 4 [BitVec.ofNat 8 r.2]
  ({ r.1 with pkg := { r.1.pkg with keyBlock := b } } : State).signal 65

/-- The owner writes 1 to byte 0 of the key command block, which asks for a command of a KIND. -/
def keyEvent (kind master : Nat) (s : State) : Out State :=
  .next (s.ownerWrite master fun s => if s.pkg.keyKind = kind then s.keyCommand else s)

/-- MEMORY_KEY_INSTALL (R446). -/
def execMemoryKeyInstall (master : Nat) (s : State) : Out State := keyEvent 1 master s

/-- LINK_KEY_INSTALL (R446). -/
def execLinkKeyInstall (master : Nat) (s : State) : Out State := keyEvent 2 master s

/-- CLEAR_KEY_SLOT (R446). -/
def execClearKeySlot (master : Nat) (s : State) : Out State := keyEvent 3 master s

/-! ### Attestation (R448) -/

/-- `n` bytes: a list cut, or filled with zeros. -/
def fitBytes (n : Nat) (l : List Byte) : List Byte := (l ++ List.replicate n 0).take n

/-- The fields of the training records. -/
def Nvm.recFields (v : Nvm) : List Int :=
  (v.hbmRecs ++ v.portRecs).flatMap fun r => [match r.signer with | some k => (k.toNat : Int) | none => -1, (r.vset : Int), r.temp]

/-- Bytes 64 to 511 of the attestation block: the package's own point, the digests of the firmware that runs and of the records, and the rest of
R448's table. -/
def State.report (s : State) : List Byte :=
  let key := s.nvm.identity.getD 0
  let head := fitBytes 97 (Config.identityPoint key) ++
    fitBytes 48 (Config.sha384 ((s.nvm.running.toList).map fun f => (f.code.toNat : Int))) ++
    fitBytes 48 (Config.sha384 s.nvm.recFields) ++ natLe 4 s.nvm.rollback.toNat ++ regBytes s.pkg.attBlock 16 48 ++
    natLe 8 s.time
  head ++ fitBytes 96 (Config.sign key head) ++ List.replicate 99 0

/-- A report is written, and vector 65 is signalled. -/
def State.attest (s : State) : State :=
  ({ s with pkg := { s.pkg with attBlock := putBlock s.pkg.attBlock 64 s.report } } : State).signal 65

/-- ATTESTATION_REQUEST: the owner writes 1 to byte 0 of the attestation block (R448). -/
def execAttestationRequest (master : Nat) (s : State) : Out State := .next (s.ownerWrite master State.attest)

/-! ### Management registers (R437) -/

/-- The bits of `v` that a register keeps. -/
def kept (mask v : Nat) : DWord := BitVec.ofNat 64 (v &&& mask)

/-- A write of a package register by its CSR number. -/
def State.writePkgReg (s : State) (n v : Nat) : State :=
  let p := s.pkg
  let put := fun (p : Pkg) => { s with pkg := p }
  match n with
  | 0x234 => put { p with frtab := kept 0x7F_FFFF_F000 v }
  | 0x235 => put { p with mpool := kept 0x7F_FFFF_F01F v }
  | 0x237 => put { p with mptail := BitVec.ofNat 64 v }
  | 0x238 => put { p with mlog := kept 0x7F_FFFF_FFFF v }
  | 0x241 => put { p with clcfg := kept 0x3F v }
  | 0x252 => put { p with pcap := bits v 59 32, pbal := min p.pbal (bits v 59 32) }
  | 0x260 | 0x262 => put { p with rampWrites := p.rampWrites ++ [(n, BitVec.ofNat 64 v)] }
  | n =>
    if 0x270 ≤ n ∧ n < 0x280 then put { p with rampWrites := p.rampWrites ++ [(n, BitVec.ofNat 64 v)] } else s

/-- A write of a context register by its CSR number. -/
def Ctx.writeReg (c : Ctx) (n v : Nat) : Ctx :=
  match n with
  | 0x018 => { c with otbase := kept 0xFF_FFFF_FFFF_FF00 v }
  | 0x019 => { c with otlen := BitVec.ofNat 32 (bits v 16 0) }
  | 0x220 => { c with qtbase := kept 0xFF_FFFF_FFFF_F800 v
                      queues := (List.range 64).foldl (fun (m : SMap Queue) q => SMap.put m q { c.queue q with rewritten := true }) c.queues }
  | 0x221 => { c with tapebase := kept 0xFF_FFFF_FFF8_0000 v }
  | 0x222 => { c with flogbase := kept 0xFF_FFFF_FFFF_FFFF v }
  | 0x224 => c.writeLscfg v
  | 0x230 => { c with ptbase := kept 0x7F_FFFF_0000 v }
  | 0x231 => { c with pgcfg := kept 0x1_000F_FFFF v }
  | 0x232 => { c with prqbase := kept 0xFF_FFFF_FFFF_F01F v }
  | 0x240 => { c with clgbase := kept 0xFF_FFFF_FFFF_E000 v }
  | _ => c

/-- A write of a window register; the window that a save or restore in progress was accepted with keeps its value, as does the one that its IMGW
names (R443). -/
def State.writeWin (s : State) (w v : Nat) : State :=
  let locked := s.pkg.ctxctl.any fun e =>
    let x := e.2.toNat
    (bits x 59 57 == 2 || bits x 59 57 == 4) && (bits x 5 0 == w || (SMap.find s.pkg.img e.1).any fun p => p / 2 ^ 62 == w)
  if locked then s else { s with pkg := { s.pkg with win := SMap.set 0 s.pkg.win w (kept 0x80FF_FFFF_0000_003F v) } }

/-- A write of `TKDIE` of a die: a lowered capacity cuts the balance (R392). -/
def State.writeTkdie (s : State) (d v : Nat) : State :=
  let k := bits v 55 32
  if d = 0 then { s with pkg := { s.pkg with dcap0 := k, dbal0 := min s.pkg.dbal0 k } }
  else { s with pkg := { s.pkg with dcap1 := k, dbal1 := min s.pkg.dbal1 k } }

/-- A write of a word of the key command block; a 1 in byte 0 starts the command (R446). -/
def State.writeKeyBlock (s : State) (off v : Nat) : State :=
  let s := { s with pkg := { s.pkg with keyBlock := putBlock s.pkg.keyBlock off (natLe 8 v) } }
  if off = 0 ∧ v % 256 = 1 then s.keyCommand else s

/-- A write of a word of the attestation block; a 1 in byte 0 asks for a report (R448). -/
def State.writeAttBlock (s : State) (off v : Nat) : State :=
  let s := { s with pkg := { s.pkg with attBlock := putBlock s.pkg.attBlock off (natLe 8 v) } }
  if off = 0 ∧ v % 256 = 1 then s.attest else s

/-- The free sub-arrays whose idle time has passed are gated, before `MXCFG`.GATE changes (R317). -/
def Cluster.settleGates (c : Cluster) (now : Nat) : Cluster :=
  { c with subs := c.subs.mapIdx fun i x => if c.subFree now i && c.isGated now i then { x with gated := true } else x }

/-- An owner's write at an offset of BAR0 (R437); one that holds nothing, or is not of an aligned word, is discarded. -/
def State.writeOffset (s : State) (off v : Nat) : State :=
  if off % 8 ≠ 0 then s
  else if off < 0x00_8000 then s.writePkgReg (off / 8) v
  else if 0x04_0000 ≤ off ∧ off < 0x04_2000 then
    s.setPrice ((off - 0x04_0000) / 8 / 16) ((off - 0x04_0000) / 8 % 16) v
  else if 0x06_0000 ≤ off ∧ off < 0x06_0C00 then
    let k := (off - 0x06_0000) / 8
    s.putCore k ((s.core k).setTk (BitVec.ofNat 64 v))
  else if off = 0x06_1000 ∨ off = 0x06_1008 then s.writeTkdie ((off - 0x06_1000) / 8) v
  else if 0x06_2000 ≤ off ∧ off < 0x06_2300 then
    let k := (off - 0x06_2000) / 8
    s.putCluster k { (s.cluster k).settleGates (s.ccOf k) with mxcfg := kept 0xFFFF_FFFF v }
  else if off = 0x08_0000 then s.setPend (bits v 61 60)
  else if 0x08_0100 ≤ off ∧ off < 0x08_0180 then s.writeWin ((off - 0x08_0100) / 8) v
  else if 0x08_0200 ≤ off ∧ off < 0x08_0400 then s.writeCtl ((off - 0x08_0200) / 8) v
  else if 0x08_0400 ≤ off ∧ off < 0x08_0600 then s.writePart ((off - 0x08_0400) / 8) v
  else if off = 0x08_0600 then s.writePartcfg v
  else if 0x08_1000 ≤ off ∧ off < 0x08_1100 then s.writeKeyBlock (off - 0x08_1000) v
  else if 0x08_2000 ≤ off ∧ off < 0x08_2200 then s.writeAttBlock (off - 0x08_2000) v
  else if 0x10_0000 ≤ off ∧ off < 0x30_0000 then
    s.modCtx ((off - 0x10_0000) / 0x8000) fun c => c.writeReg ((off - 0x10_0000) % 0x8000 / 8) v
  else s

/-- REGISTER_WRITE: a master's write at an offset of BAR0: `MCLAIM` and `MACCEPT` judge every master, the rest only the owner (R437, R440). -/
def execRegisterWrite (master off : Nat) (value : DWord) (s : State) : Out State :=
  if off = 0x08_0008 then execMclaimWrite [(master, value)] s
  else if off = 0x08_0010 then execMacceptWrite master value s
  else .next (s.ownerWrite master fun s => s.writeOffset off value.toNat)

/-- The value of a package register by its CSR number; none for a number that names none. -/
def State.readPkgReg (s : State) (n : Nat) : Nat :=
  if [0x010, 0x012, 0x252, 0x260, 0x261, 0x262, 0x241].contains n || (decide (0x234 ≤ n) && decide (n < 0x23B)) ||
      (decide (0x264 ≤ n) && decide (n < 0x268)) || (decide (0x270 ≤ n) && decide (n < 0x285)) then csrValue s Team.blank n
  else 0

/-- The value of a context register by its CSR number. -/
def Ctx.readReg (c : Ctx) (n : Nat) : Nat :=
  match n with
  | 0x013 => c.lscale.toNat
  | 0x014 => c.lskip.toNat
  | 0x018 => c.otbase.toNat
  | 0x019 => c.otlen.toNat
  | 0x220 => c.qtbase.toNat
  | 0x221 => c.tapebase.toNat
  | 0x222 => c.flogbase.toNat
  | 0x223 => c.flogpos.toNat
  | 0x224 => c.lscfg.toNat
  | 0x225 => c.tdepth.toNat
  | 0x230 => c.ptbase.toNat
  | 0x231 => c.pgcfg.toNat
  | 0x232 => c.prqbase.toNat
  | 0x233 => c.prqpos.toNat
  | 0x240 => c.clgbase.toNat
  | _ => 0

/-- What every master reads at an offset of BAR0 (R437): a register's fields, with zero for write-only ones (R8); zero where the offset holds
nothing. -/
def State.readOffset (s : State) (off : Nat) : Nat :=
  let p := s.pkg
  if off % 8 ≠ 0 then 0
  else if off < 0x00_8000 then s.readPkgReg (off / 8)
  else if 0x04_0000 ≤ off ∧ off < 0x04_2000 then s.price ((off - 0x04_0000) / 8 / 16) ((off - 0x04_0000) / 8 % 16)
  else if 0x06_0000 ≤ off ∧ off < 0x06_0C00 then (s.core ((off - 0x06_0000) / 8)).tkcore.toNat
  else if off = 0x06_1000 then p.dcap0 * 2 ^ 32 + p.dbal0
  else if off = 0x06_1008 then p.dcap1 * 2 ^ 32 + p.dbal1
  else if 0x06_2000 ≤ off ∧ off < 0x06_2300 then (s.cluster ((off - 0x06_2000) / 8)).mxcfg.toNat
  else if off = 0x08_0000 then p.mown.toNat
  else if 0x08_0100 ≤ off ∧ off < 0x08_0180 then (SMap.get 0 p.win ((off - 0x08_0100) / 8)).toNat
  else if 0x08_0200 ≤ off ∧ off < 0x08_0400 then withBits (s.ctl ((off - 0x08_0200) / 8)) 62 60 0
  else if 0x08_0400 ≤ off ∧ off < 0x08_0600 then s.partWord ((off - 0x08_0400) / 8)
  else if off = 0x08_0600 then (if p.partSet then 2 ^ 9 else 0) + bits p.peerid.toNat 8 0
  else if 0x08_1000 ≤ off ∧ off < 0x08_1100 then leNat (regBytes p.keyBlock (off - 0x08_1000) 8)
  else if 0x08_2000 ≤ off ∧ off < 0x08_2200 then leNat (regBytes p.attBlock (off - 0x08_2000) 8)
  else if 0x10_0000 ≤ off ∧ off < 0x30_0000 then (s.ctx ((off - 0x10_0000) / 0x8000)).readReg ((off - 0x10_0000) % 0x8000 / 8)
  else 0

/-- A host access through an enabled window waits: for the host's translation, another device's answer or a page that is held, and a write also
until the host's earlier writes have registered, since each acts as though a release of the host came before it (R242, R252, R295, R438). -/
def State.hostHeld (s : State) (write : Bool) (off n : Nat) (bytes : List Byte) : Option (List Need) :=
  let w := (SMap.get 0 s.pkg.win (off / 2 ^ 32)).toNat
  let c := s.ctx (bits w 5 0)
  if !s.pkg.hostUp || decide (off ≥ 2 ^ 36) || !bit w 63 || !c.valid then none
  else if write && !s.registered s.pkg.hostTag then some []
  else
    match s.vaRange c (if write then .write else .read) (bits w 55 32 * 2 ^ 32 + off % 2 ^ 32) (if write then bytes.length else n) with
    | .wait ns => some ns
    | _ => none

/-- The interface of a master is up: the host's link, a port of the fabric, the board controller's bus (R440). -/
def Pkg.reaches (p : Pkg) (master : Nat) : Bool :=
  match master with
  | 1 => p.hostUp
  | 2 => p.portsUp.any id
  | 3 => p.boardUp
  | _ => false

/-- HOST_WINDOW_ACCESS: a load or store of the host at the virtual address that a window of BAR2 maps (R438); a write is registered in the order
of the link (R295), and an access that waits is made later. Offsets past BAR2's 64 GiB are those of BAR0, 2^24 for each master, whose registers it
reads and writes as aligned words (R437); the fourth 2^24 is the board controller's read of a firmware failure, 1 for one (R449; log entry 47). -/
def execHostWindowAccess (write : Bool) (off n : Nat) (bytes : List Byte) (s : State) : Out State :=
  let w := (SMap.get 0 s.pkg.win (off / 2 ^ 32)).toNat
  let c := s.ctx (bits w 5 0)
  let va := bits w 55 32 * 2 ^ 32 + off % 2 ^ 32
  let master := (off - 2 ^ 36) / 2 ^ 24 + 1
  if off ≥ 2 ^ 36 then
    if master = 4 ∧ s.pkg.boardUp ∧ !write then .next ((s.heard 3).answerHost off (natLe 8 (if s.nvm.fwOk then 0 else 1)))
    else if !s.pkg.reaches master then .next s
    else if write then execRegisterWrite master (off % 2 ^ 24) (BitVec.ofNat 64 (leNat bytes)) s
    else .next ((s.heard master).answerHost off (natLe 8 (s.readOffset (off % 2 ^ 24))))
  else if !s.pkg.hostUp then .next s
  else .next (
    if !bit w 63 || !c.valid then s.hostFault write off n
    else
      match s.hostHeld write off n bytes with
      | some ns => s.emitNeeds ns
      | none =>
        if write then
          match s.spaceWrite c 0 va bytes with
          | .ok s _ _ => { s with pkg := { s.pkg with hostTag := s.nextId } }
          | .wait n => s.emitNeeds n
          | .fault _ => s.hostFault write off n
        else
          match s.spaceRead (Finder.engine 0 c.asid 0) c 0 va n with
          | .ok s bs bad => if bad then s.hostFault write off n else s.answerHost off bs
          | .wait n => s.emitNeeds n
          | .fault _ => s.hostFault write off n)

/-! ### Power, boot and wear (R449 to R451) -/

/-- A saturating 32-bit counter in half of a register (R451). -/
def bump (w : DWord) (hi : Bool) : DWord :=
  let lo := if hi then 32 else 0
  BitVec.ofNat 64 (withBits w.toNat (lo + 31) lo (min (2 ^ 32 - 1) (bits w.toNat (lo + 31) lo + 1)))

/-- THERMAL_CYCLE_COUNT: a thermal cycle of ΔT in tenths of a degree is counted in its bin (R451). -/
def execThermalCycleCount (dt : Temp) (s : State) : Out State :=
  let n := s.nvm
  .next (if dt < 100 then s
    else if dt < 200 then { s with nvm := { n with wtc0 := bump n.wtc0 false } }
    else if dt < 400 then { s with nvm := { n with wtc0 := bump n.wtc0 true } }
    else if dt ≤ 600 then { s with nvm := { n with wtc1 := bump n.wtc1 false } }
    else { s with nvm := { n with wtc1 := bump n.wtc1 true } })

/-- A reading of the junction's temperature: a rise from the minimum that has come back to within 5 °C of it is a thermal cycle (R451, log
entry 43). -/
def State.senseTemp (s : State) : State :=
  match s.pkg.temps with
  | [] => s
  | t :: ts =>
    let s := { s with pkg := { s.pkg with temps := ts } }
    let set := fun (s : State) (x : Temp × Temp) => { s with pkg := { s.pkg with swing := some x } }
    match s.pkg.swing with
    | none => set s (t, t)
    | some (lo, hi) =>
      if t ≤ lo + 50 ∧ t < hi then
        match execThermalCycleCount (hi - lo) (set s (min lo t, min lo t)) with
        | .next s => s
        | _ => s
      else set s (min lo t, max hi t)

/-- HOURS_AT_TEMPERATURE: an hour at a temperature is counted in its bin (R451). -/
def execHoursAtTemperature (temp : Temp) (s : State) : Out State :=
  let n := s.nvm
  .next (if temp < 600 then { s with nvm := { n with whrs0 := bump n.whrs0 false } }
    else if temp < 850 then { s with nvm := { n with whrs0 := bump n.whrs0 true } }
    else if temp ≤ 1050 then { s with nvm := { n with whrs1 := bump n.whrs1 false } }
    else { s with nvm := { n with whrs1 := bump n.whrs1 true } })

/-- WEAR_COUNTER_SAVE: the counters are written to the non-volatile memory (R451). -/
def execWearCounterSave (s : State) : Out State :=
  let n := s.nvm
  .next { s with nvm := { n with saved := [n.wtc0, n.wtc1, n.wpwr, n.whrs0, n.whrs1] } }

/-- The non-volatile memory after a loss of power: the counters are those last written (R451). -/
def Nvm.kept (n : Nvm) : Nvm :=
  { n with wtc0 := n.saved.headD 0, wtc1 := (n.saved[1]?).getD 0, wpwr := (n.saved[2]?).getD 0, whrs0 := (n.saved[3]?).getD 0,
           whrs1 := (n.saved[4]?).getD 0 }

/-- The package without power: nothing but the non-volatile memory stands. What the outside world does next stays in `inputs`, and free values
go on from the one that is next. -/
def State.unpowered (n : Nvm) (free : Nat) (inputs : List Instr) : State :=
  { State.reset with
    powered := false
    nvm := n
    freeCtr := free
    inputs := inputs
    pkg := { Pkg.reset with hostUp := false, portsUp := List.replicate 64 false, boardUp := false } }

/-- POWER_LOSS (R451). -/
def execPowerLoss (s : State) : Out State := .next (State.unpowered s.nvm.kept s.freeCtr s.inputs)

/-- A training record can be reused by the holder of an identity key, at a setpoint and a site's temperature in tenths of a degree (R450). -/
def TrainRec.usable (r : TrainRec) (key : Option DWord) (vset : Nat) (temp : Temp) : Bool :=
  r.signer.isSome && r.signer == key && decide (vset ≤ r.vset + 20) && decide (r.vset ≤ vset + 20) && decide (temp ≤ r.temp + 100) &&
    decide (r.temp ≤ temp + 100)

/-- The records after boot: those that cannot be reused are retrained and rewritten. -/
def retrain (key : Option DWord) (vset : Nat) : List TrainRec → List Temp → List TrainRec
  | r :: rs, t :: ts => (if r.usable key vset t then r else { signer := key, vset := vset, temp := t }) :: retrain key vset rs ts
  | rs, _ => rs

/-- How many records are retrained. -/
def retrained (key : Option DWord) (vset : Nat) (rs : List TrainRec) (ts : List Temp) : Nat :=
  ((rs.zip ts).filter fun p => !p.1.usable key vset p.2).length

/-- The reference cycles from the release of reset to the first queue read (R35, R450). -/
def bootCycles (nStacks nPorts : Nat) : Nat := 4700000000 + 3000000000 * nStacks + 1375000000 * nPorts

/-- The non-volatile memory at a power-up, which is counted: the first makes the identity key pair, a free value (R445, R451). -/
def Nvm.powerUp (n : Nvm) (key : DWord) : Nvm := { n with wpwr := bump n.wpwr false, identity := some (n.identity.getD key) }

/-- COLD_BOOT (R450): with firmware that passes, records are reused or retrained, the counters of R451 advance, and the machine stands as after
reset; otherwise ports and host link stay down (R449). -/
def execColdBoot (vset : Nat) (stackTemps portTemps : List Temp) (s : State) : Out State :=
  .next (if s.powered then s
    else
      let free := s.fresh
      let n := s.nvm.powerUp free.1
      let a := retrained n.identity vset n.hbmRecs stackTemps
      let b := retrained n.identity vset n.portRecs portTemps
      let off := State.unpowered n free.2.freeCtr s.inputs
      if !n.fwOk then { off with powered := true, pkg := { off.pkg with boardUp := true } }
      else
        let n := { n with hbmRecs := retrain n.identity vset n.hbmRecs stackTemps
                          portRecs := retrain n.identity vset n.portRecs portTemps
                          wpwr := if a + b = 0 then n.wpwr else bump n.wpwr true }
        { State.reset with
          nvm := n
          inputs := s.inputs
          freeCtr := free.2.freeCtr
          cyc := BitVec.ofNat 64 (bootCycles a b)
          cc := 2 * bootCycles a b
          gov := { Governor.reset with
            vset := vset, up := 1000 * vset / 2000, dstep := 1000 * vset / 2000, dstepd := 600 * vset / 2000,
            dieCap := [600 * vset / 2000, 600 * vset / 2000], openAt := bootCycles a b } })

end Sys2Proof.Machine
end

