-- ==== Sys2Proof/Machine/Issue.lean ====
section
/-! DEFINITION. Fetch and issue (R27 to R29, R69 to R77, R136 to R145, R395 to R399): what happens to a team between instructions, when its
next instruction may issue, what it pays, and how the two pipes of a core choose. -/

namespace Sys2Proof.Machine

open Sys2Proof

/-! ### Fetch (R70, R136 to R138) -/

/-- What a fetch at a team's PC comes to. -/
inductive Fetched where
  | words (ws : List Word)
  | wait
  | stop (c : Cause)
  deriving DecidableEq, Repr

/-- The loop buffer that a team fetches from at its PC: one that it uses, also after it has bound the segment to another image (DESIGN CHOICE, log
entry 71). -/
def State.bufAt (s : State) (t : Team) : Option LoopBuf :=
  match s.liveBuf t with
  | some b => if b.covers t.pc then some b else none
  | none => none

/-- The words of a team's slot from a PC on, where the segment has landed; the fetch waits for one that is loading, and stops otherwise
(R136). -/
def State.slotFetch (s : State) (t : Team) (pc : Nat) : Fetched :=
  match s.segStatus t (pc / 4096) with
  | 2 => .words (s.slotRun t pc)
  | 1 => .wait
  | _ => .stop .fetch

/-- The words from a team's PC on, from its loop buffer or from its home core's code slot. An instruction that a transfer into an extension
word or a target list makes of a buffer's last words takes the words past the buffer from the slot (R70). -/
def State.fetch (s : State) (t : Team) : Fetched :=
  match s.bufAt t with
  | some b =>
    let held := b.words.drop (t.pc.toNat % 4096 - b.start)
    if (match held with | w :: _ => instrWords w | [] => 1) ≤ held.length then .words held
    else match s.slotFetch t (t.pc.toNat / 4096 * 4096 + b.start + b.words.length) with
      | .words ws => .words (held ++ ws)
      | r => r
  | none => s.slotFetch t t.pc.toNat

/-- The buffer of another team of the core whose range holds the PC, copied from the same slot since that slot last landed (R137, R138). -/
def State.sharedBuf (s : State) (t : Team) : Option LoopBuf :=
  match (s.core t.home).slotFor t.asid (t.segAddr (t.pc.toNat / 4096)) with
  | none => none
  | some (n, sl) =>
    (s.teams.filterMap fun u =>
      if u.uid != t.uid && u.home == t.home && u.asid == t.asid then
        (s.liveBuf u).filter fun b => b.covers t.pc && b.slot == n && b.landedAt == sl.landedAt && sl.st == .landed
      else none).head?

/-- A team's use of loop buffers as it fetches: it leaves a buffer that does not hold its PC, and joins another's that does. -/
def State.bufferUse (s : State) (t : Team) : Team :=
  match s.bufAt t with
  | some _ => t
  | none => { t with loopBuf := s.sharedBuf t }

/-! ### Lookahead (R29, R76, R141, R142) -/

/-- An instruction that completes only after every earlier one of its team has: transfers, synchronization, CSR writes, the format and seed
words and system words (R142); and `dp.lsstep`, whose stop comes after its effect (R143). `tk.wait` is none of them: the model reads the
waits of R142 as those of R119 (DESIGN CHOICE, log entry 8). -/
def Instr.drains (i : Instr) : Bool :=
  match i with
  | .sCsrr .. | .cpProm .. | .cpRenew .. | .cpCncl .. => false
  | .dpLsstep _ => true
  | i =>
    match Instr.info i with
    | some n => n.cls == 19 || n.cls == 20 || n.cls == 21 || n.cls == 23
    | none => false

/-- A flight makes an instruction wait: the window has ended, the registers meet, the flight still has to write a predicate, or it has still to take
a rounding draw of its lanes (number 512), which no later lane instruction takes before it (R57; log entry 8). -/
def Flight.holds (f : Flight) (now : Nat) (i : Instr) : Bool :=
  decide (now - f.seq > f.la) || decide (now - f.seq > 15) || Instr.drains i || f.regs.any fun r =>
    if r = 512 then (Instr.info i).any fun n => n.lane else decide (r ≥ 256) || (Instr.touches i).contains r

/-- The team's next instruction waits for a long-latency instruction in flight. -/
def Team.waitsFor (t : Team) (i : Instr) : Bool := t.flight.any fun f => f.holds t.issued i

/-! ### Prices (R389, R390) and what a core says to them (R395) -/

/-- The groups that hold an active lane, whatever the guard. -/
def Team.activeGroups (t : Team) : List Nat := (List.range t.groups).filter fun g => !(t.groupActive g).isEmpty

/-- The units of an instruction on the home core and on the odd one (R390): guards do not change them. -/
def Team.units (t : Team) (n : Info) : Nat × Nat :=
  if n.lane then (t.passes.1 * n.cpp, t.passes.2 * n.cpp)
  else if n.team then (1, 0)
  else t.batches t.activeGroups

/-- A word that occupies the uniform pipe for one core cycle whatever its groups: transfers, synchronization, CSR writes and the format and
seed words (R127); and `s.exit`, which the table does not name (DESIGN CHOICE, log entry 71). -/
def Instr.oneCycle (i : Instr) : Bool :=
  match i with
  | .sCsrr .. => false
  | i =>
    match Instr.info i with
    | some n => n.cls == 19 || n.cls == 20 || n.cls == 21 || n.cls == 23 || n.team
    | none => true

/-- The core cycles for which an instruction occupies its pipe on each core (R19, R127, R162); a word that decode refuses takes its issue
cycle only (R27). -/
def Team.occupies (t : Team) (i : Instr) : Nat × Nat :=
  if t.refuses i || Instr.oneCycle i then (1, 1)
  else match Instr.info i with
    | some n =>
      let u := if n.lane then t.units n else t.batches (t.groupsFor n.hdr)
      (max 1 u.1, max 1 u.2)
    | none => (1, 1)

/-- A fenced jump of every active lane to a segment that has not landed: it is not eligible, and raises its cause instead (R28, R135). -/
def State.jumpMisses (s : State) (t : Team) (i : Instr) : Bool :=
  match i with
  | .sJmpf h p =>
    !(t.groupsFor h).isEmpty && t.activeLanes.all (fun l => (t.groupsFor h).contains (l / t.group)) && (s.fenceTo t p).isSome
  | _ => false

/-- A word that is not eligible to issue and stops the team instead, paying nothing (R27, R28, R399). -/
def State.stopsUnpaid (s : State) (t : Team) (i : Instr) : Bool := t.refuses i || s.jumpMisses t i

/-- An instruction's price on each core; a word that stops the team unpaid has none. -/
def State.costs (s : State) (t : Team) (i : Instr) : Nat × Nat :=
  if s.stopsUnpaid t i then (0, 0)
  else match Instr.info i with
    | some n =>
      let u := t.units n
      let p := s.price n.cls (t.priceCol n)
      (p * u.1, p * u.2)
    | none => (0, 0)

/-- The cores of a team with the price and the answer of each. -/
def State.answers (s : State) (t : Team) (i : Instr) : List (Nat × Nat × Pay) :=
  let p := s.costs t i
  (t.home, p.1, (s.core t.home).pay t.debtHome p.1) ::
    (if t.pair then [(t.home + 1, p.2, (s.core (t.home + 1)).pay t.debtOdd p.2)] else [])

/-- What issue says to a price: every share is payable; one would make too large a debt; or one has to wait. -/
inductive Afford where
  | pays | overflow | held
  deriving DecidableEq, Repr

/-- The answers together (R395). -/
def State.afford (s : State) (t : Team) (i : Instr) : Afford :=
  let xs := s.answers t i
  if xs.any fun x => x.2.2 == .held then .held
  else if xs.any fun x => x.2.2 == .overflow then .overflow
  else .pays

/-- Pays for an instruction on each of its cores. -/
def State.payFor (s : State) (t : Team) (i : Instr) : State :=
  (s.answers t i).foldl (fun (s : State) x => s.debit t.uid x.1 x.2.1) s

/-! ### Issue of a chosen team -/

/-- Between two states the team has passed its instruction, stopped, ended or begun to be held by it; a wait for a translation, for the link or
for another device is none of these. -/
def progressed (t : Team) (s : State) : Bool :=
  match s.team? t.uid with
  | none => true
  | some u =>
    u.pc != t.pc || u.issued != t.issued || u.tcw != t.tcw || (u.stopReq.isSome && t.stopReq.isNone) ||
      match u.hold with
      | .free | .ats .. | .link | .remote => false
      | _ => true

/-- No team's instruction is being executed any more. -/
def State.idle (s : State) : State := { s with cur := none }

/-- An instruction that found no progress has paid nothing, and its team's ready time starts again (R28). -/
def State.retryLater (s : State) (uid : Nat) : State := s.idle.modTeam uid fun t => { t with readyAt := none }

/-- A team issues: any reservation of its passes on, its instruction's ready time and its counts of held cycles end (R396, R397). -/
def State.issued (s : State) (t : Team) : State :=
  (s.passReservation t).modTeam t.uid fun t => { t with readyAt := none, heldHome := 0, heldOdd := 0 }

/-- Issues an instruction for a team, `ex` being the meaning of instructions: a word that is not eligible runs unpaid to its stop; any other
pays and runs, and one that cannot yet begin is tried again unpaid, with its reservation. -/
def State.issue (ex : Instr → State → Out State) (s : State) (t : Team) (i : Instr) : Out State :=
  let run := fun (s : State) => ex i { s with cur := some t.uid }
  if s.stopsUnpaid t i then
    match run (s.issued t) with
    | .next u => .next u.idle
    | r => r
  else
    match s.afford t i with
    | .held => .next (s.retryLater t.uid)
    | .overflow => .next (s.takeStop t.uid i.length (Stop.of .tokenDebtOvf))
    | .pays =>
      match run ((s.payFor t i).issued t) with
      | .next u =>
        if progressed t u then .next u.idle
        else
          match run s with
          | .next u => .next (u.retryLater t.uid)
          | r => r
      | r => r

/-- Runs the next instruction of a chosen team. -/
def State.runTeam (ex : Instr → State → Out State) (uid : Nat) (s : State) : Out State :=
  match s.team? uid with
  | none => .next s
  | some t =>
    match s.fetch t with
    | .wait => .next s
    | .stop c => .next (s.takeStop uid 0 (Stop.of c))
    | .words ws =>
      match decode ws with
      | none => .next (s.takeStop uid 0 (Stop.of .illegal))
      | some (i, _) => s.issue ex t i

/-! ### Between instructions -/

/-- The segments that a team's start waits for: the current one, and the handler's where `TVB`.EN is 1 (R151, R214). -/
def Team.startSegs (t : Team) : List Nat :=
  t.pc.toNat / 4096 :: (if t.tvb.getLsbD 31 then [bits t.tvb.toNat 15 12] else [])

/-- The code of a starting team is there, or will not come. -/
def State.codeReady (s : State) (t : Team) : Bool :=
  (t.startSegs.all fun n => s.segStatus t n != 1) &&
    !(s.loads.any fun l => l.asid == t.asid && t.cores.contains l.core && t.codeNeeds.contains l.addr)

/-- A place at which an asynchronous cause is taken: before an instruction, or at the latch (R33, R302). -/
def Hold.boundary : Hold → Bool
  | .free | .latch | .link | .ats .. => true
  | _ => false

/-- Takes the asynchronous causes of a team; an arrival at the latch is withdrawn where its trap is delivered (R302). Handler mode holds the cause
and delivers no trap (R147), so that the arrival stays. A team with an unanswered instruction in flight waits for it (R143). -/
def State.takeAsync (s : State) (t : Team) : State :=
  if t.unanswered then s else (if t.hold = .latch ∧ !t.handler then s.withdraw t else s).takePending t.uid

/-- A fetch of the instruction at a team's PC meets the codes of its words in the slots that they come from, on each of its
cores (R128, R136, R196). -/
def State.meetCode (s : State) (t : Team) : State :=
  if s.codeErrs.isEmpty || (s.bufAt t).isSome then s
  else t.cores.foldl (fun (s : State) k =>
    match (s.core k).slotFor t.asid (t.segAddr (t.pc.toNat / 4096)) with
    | some (n, _) => (List.range (s.lengthAt t t.pc.toNat)).foldl (fun (s : State) i => s.meetCodeWord k n (t.pc.toNat % 4096 + i)) s
    | none => s) s

/-- The instruction at the PC of a team that nothing else concerns: skipped, found to be no instruction, or waiting for a flight. -/
def State.settleWord (s : State) (t : Team) : State :=
  let s := s.meetCode t
  match s.fetch t with
  | .wait => s
  | .stop c => s.takeStop t.uid 0 (Stop.of c)
  | .words ws =>
    match decode ws with
    | none => s.takeStop t.uid 0 (Stop.of .illegal)
    | some (i, _) =>
      if t.doneBits % 2 = 1 then s.advance t.uid i.length
      else if t.waitsFor i then afterEvent s (execLoadDataReturn t.uid s)
      else s

/-- What comes before a team's next instruction: its start, a stop asked of it, pops at reconvergence, asynchronous causes at the PC that is
next to issue, and the instructions that `TSKIP` passes over (R110, R135, R139, R145). A team whose entry or handler segment is not there stops with
FETCH at its start (DESIGN CHOICE, log entry 28). -/
def State.settleTeam (s : State) (uid : Nat) : State :=
  match s.team? uid with
  | none => s
  | some t =>
    match t.res with
    | .starting =>
      if !s.codeReady t then s
      else
        let s := s.putTeam { t with res := .resident }
        if t.startSegs.any fun n => s.segStatus t n != 2 then s.takeStop uid 0 (Stop.of .fetch)
        else if t.flight.isEmpty then s
        else afterEvent s (execLoadDataReturn uid s)
    | .resident =>
      if t.stopReq.isSome then afterEvent s (execPreciseStop uid s)
      else if t.hold ≠ .free then (if t.pendCauses ≠ 0 ∧ t.hold.boundary then s.takeAsync t else s)
      else
        match s.popPaths t.depth t with
        | .exits => s.dropTeam uid
        | .stop c u => (s.putTeam u).takeStop uid 0 (Stop.of c)
        | .asks u n => (s.putTeam u).holdNeeds uid n
        | .go u =>
          let u := s.bufferUse u
          if u.pendCauses ≠ 0 then (s.putTeam u).takeAsync u else (s.putTeam u).settleWord u
    | _ => s

/-! ### The choice of the pipes (R28, R396, R397) -/

/-- An engine command that writes a handle into its destination (R31). -/
def Instr.wantsHandle : Instr → Bool
  | .sCfetch .. | .sCfetchReload .. | .mxGang .. | .mxMma .. | .mxZero .. | .mxLd .. | .mxSt .. | .saOpen .. | .saClose .. | .saNorm ..
  | .saBuild .. | .saDraw .. | .saFin .. | .cpCopy .. | .cpMcast .. | .cpOff .. | .cpRet .. | .pgReq .. | .pgShoot .. | .pgMig ..
  | .clRun .. => true
  | _ => false

/-- The target engine's queue has room for a command (R28): the copy engine's 64 entries, the 64 of the reservation table, and the eight
that may wait on a collective channel, which the lead group's operand names. -/
def State.queueRoom (s : State) (t : Team) (lead : Nat) (i : Instr) : Bool :=
  let c := s.cluster (clusterOf t.home)
  match i with
  | .cpCopy .. | .cpMcast .. | .cpOff .. | .cpRet .. => decide (c.copy.all.length < 64)
  | .mxZero .. | .mxLd .. | .mxSt .. | .saDraw .. | .saFin .. => decide (c.entries.length < 64)
  | .clRun _ _ _ b _ _ =>
    let ch := wordsNat (t.sRun b.toNat 1 lead)
    decide (ch ≥ 16) || decide (((s.chan ch).progs.filter fun p => !p.started).length < 8)
  | _ => true

/-- Condition 4 of R28: for an engine command, room in the engine's queue and a free handle slot. A command that no group executes needs
neither, nor does one that decode refuses. -/
def State.roomy (s : State) (t : Team) (i : Instr) : Bool :=
  match Instr.info i with
  | none => true
  | some n =>
    match t.groupsFor n.hdr with
    | [] => true
    | lead :: _ => t.refuses i || ((!Instr.wantsHandle i || !t.freeSlots.isEmpty) && s.queueRoom t lead i)

/-- A store, an atomic or a `v.atomn`. -/
def Instr.writesMem : Instr → Bool
  | .vSt .. | .vAtom .. | .vAtomn .. | .vCas .. => true
  | _ => false

/-- A memory instruction, and a team-scoped instruction that loads as one (R226). -/
def Instr.isMem : Instr → Bool
  | .vLd .. | .vLdr .. | .vPf .. | .dpLaunch .. | .dpTadd .. => true
  | i => Instr.writesMem i

/-- An engine command that carries ACQ (R290). -/
def Instr.carriesAcq : Instr → Bool
  | .mxMma _ _ _ _ _ _ _ q | .mxLd _ _ _ _ _ _ q | .mxSt _ _ _ _ _ _ q _ | .saNorm _ _ _ _ q | .saDraw _ _ _ q | .cpCopy _ _ _ _ q _
  | .cpMcast _ _ _ _ _ q _ | .cpOff _ _ _ _ _ q _ | .cpRet _ _ _ _ _ q _ | .clRun _ _ _ _ q _ => q
  | _ => false

/-- An engine command: the team-scoped rows of uniform opcodes 0x20 to 0x3B (R20), with those that write a handle. -/
def Instr.isEngine (i : Instr) : Bool :=
  Instr.wantsHandle i ||
    match i with
    | .mxFree .. | .saStat .. | .cpProm .. | .cpRenew .. | .cpCncl .. | .pgProbe .. | .pgCnt .. | .clCncl .. | .clInfo .. | .clProg ..
    | .clAbort .. | .dpLaunch .. | .dpQstat .. | .dpTadd .. | .dpTdrop .. | .dpTdepth .. | .dpLsovf .. | .dpLsstep .. | .tkWait ..
    | .tkIntent .. | .tkIcncl .. => true
    | _ => false

/-- A fence that waits for its release holds an instruction (R288). -/
def FenceWait.holds (f : FenceWait) (i : Instr) : Bool :=
  match f with
  | .none => false
  | .rel => Instr.writesMem i || Instr.carriesAcq i
  | .sc => Instr.isMem i || Instr.isEngine i

/-- The instruction that a team could issue: the conditions 1 to 4 of R28, and no fence that holds it. -/
def State.readyInstr (s : State) (t : Team) : Option Instr :=
  if t.res != .resident || t.hold != .free || t.stopReq.isSome || t.pendCauses != 0 || t.doneBits % 2 == 1 ||
      t.top.mask == 0 || (t.top.rpc == some t.top.pc && decide (t.depth > 1)) || (s.island (clusterOf t.home)).st != .run then none
  else
    match s.fetch t with
    | .words ws =>
      match decode ws with
      | some (i, _) => if t.waitsFor i || t.fence.holds i || !s.roomy t i then none else some i
      | none => none
    | _ => none

/-- The instruction belongs to the lane pipe (R67). -/
def Instr.isLane (i : Instr) : Bool := match Instr.info i with | some n => n.lane | none => false

/-- A pipe of a core is free. -/
def State.pipeFree (s : State) (k : Nat) (lane : Bool) : Bool :=
  decide ((if lane then (s.core k).laneFree else (s.core k).uniFree) ≤ s.ccOf (clusterOf k))

/-- The team's pipe is free on every core that it runs on. -/
def State.pipesFree (s : State) (t : Team) (i : Instr) : Bool := t.cores.all fun k => s.pipeFree k (Instr.isLane i)

/-- No other team's reservation bars the instruction (R396). -/
def State.unbarred (s : State) (t : Team) (i : Instr) : Bool :=
  (s.answers t i).all fun x => x.2.1 == 0 || match (s.core x.1).resv with
    | some r => r == t.uid
    | none => true

/-- The instruction can be chosen now. -/
def State.choosable (s : State) (t : Team) (i : Instr) : Bool :=
  s.pipesFree t i && s.unbarred t i && (s.afford t i != .held)

/-- The order of R396: earliest ready time, then the first slot from the pointer on. -/
def earlier (ptr : Nat) (a b : Team × Instr) : Bool :=
  let r := fun (t : Team) => t.readyAt.getD 0
  let d := fun (t : Team) => (t.slot + 16 - ptr) % 16
  decide (r a.1 < r b.1) || (r a.1 == r b.1 && decide (d a.1 < d b.1))

/-- The choice of a pipe of a core among candidates. -/
def State.choose (s : State) (k : Nat) (lane : Bool) (cs : List (Team × Instr)) : Option (Team × Instr) :=
  let ptr := if lane then (s.core k).lanePtr else (s.core k).uniPtr
  (sortBy (earlier ptr) (cs.filter fun x => Instr.isLane x.2 == lane && s.choosable x.1 x.2)).head?

/-- A core's pipe takes an instruction: its pointer moves on and it is busy for the instruction's cycles. -/
def Core.take (c : Core) (lane : Bool) (slot until_ : Nat) : Core :=
  if lane then { c with lanePtr := (slot + 1) % 16, laneFree := until_ } else { c with uniPtr := (slot + 1) % 16, uniFree := until_ }

/-- A chosen team's pipes are taken on each of its cores. -/
def State.takeChoice (s : State) (t : Team) (i : Instr) : State :=
  let lane := Instr.isLane i
  let n := t.occupies i
  let s := s.putCore t.home ((s.core t.home).take lane t.slot (s.ccOf (clusterOf t.home) + n.1))
  if t.pair then s.putCore (t.home + 1) ((s.core (t.home + 1)).take lane t.slot (s.ccOf (clusterOf t.home) + n.2)) else s

/-- The instructions that a pipe of several cores chooses among candidates: on each core the first by R396, and a team of the pair where it is
the first on both. A team whose debt would be too large is to stop and takes no pipe, which chooses again (R395). `fuel` is the number of
candidates. -/
def State.chooseOn (s : State) (ks : List Nat) (lane : Bool) : Nat → List (Team × Instr) → List (Team × Instr)
  | 0, _ => []
  | fuel + 1, cs =>
    let best := fun (k : Nat) => s.choose k lane (cs.filter fun x => x.1.cores.contains k)
    let bests := (ks.filterMap best).foldl (fun (acc : List (Team × Instr)) x =>
      if acc.any fun y => y.1.uid == x.1.uid then acc else acc ++ [x]) []
    let without := fun (x : Team × Instr) => cs.filter fun y => y.1.uid != x.1.uid
    match bests.find? fun x => x.1.cores.any fun k => (best k).all fun y => y.1.uid != x.1.uid with
    | some x => s.chooseOn ks lane fuel (without x)
    | none =>
      match bests.find? fun x => s.afford x.1 x.2 == .overflow with
      | some x => x :: s.chooseOn ks lane fuel (without x)
      | none => bests

/-- The chosen instructions that issue, and do not stop their team for a debt. -/
def State.issuing (s : State) (xs : List (Team × Instr)) : List (Team × Instr) := xs.filter fun x => s.afford x.1 x.2 != .overflow

/-- The state that the second pipe chooses in: what the first has chosen has been paid for (R395, R396). -/
def State.afterFirst (s : State) (xs : List (Team × Instr)) : State :=
  (s.issuing xs).foldl (fun (s : State) x => ((s.takeChoice x.1 x.2).payFor x.1 x.2).passReservation x.1) s

/-- Two pipes choose, each among the teams that the other has left; the first choice's debit is made before the second. The chosen teams, the
first pipe's first, and those of them whose pipes are taken. -/
def State.choosePipes (s : State) (ks : List Nat) (first : Bool) (cs : List (Team × Instr)) : State × List Nat :=
  let xs := s.chooseOn ks first cs.length cs
  let s1 := s.afterFirst xs
  let ys := s1.chooseOn ks (!first) cs.length (cs.filter fun y => xs.all fun x => x.1.uid != y.1.uid)
  let taken := s.issuing xs ++ s1.issuing ys
  (taken.foldl (fun (s : State) x => s.takeChoice x.1 x.2) s, (xs ++ ys).map fun x => x.1.uid)

/-- The count of a team's cycles held for payment alone goes on, or starts again (R397): `s0` is the state in which its pipe, free then, chose. -/
def State.countHeld (s0 s : State) (t : Team) (i : Instr) : State :=
  let free := s0.pipesFree t i
  let on := fun (k : Nat) => free && (s0.answers t i).any fun x => x.1 == k && x.2.2 == .held
  s.modTeam t.uid fun u =>
    { u with heldHome := if on t.home then u.heldHome + 1 else 0, heldOdd := if t.pair && on (t.home + 1) then u.heldOdd + 1 else 0 }

/-- A team in `tk.wait`: it completes, or is held for payment for another cycle. A reservation that it has taken stays with it until it issues
again, so that it finds the balance that it waited for (R397, R402; log entry 18). -/
def State.pollTokens (s : State) (uid : Nat) : State :=
  match s.team? uid with
  | none => s
  | some t =>
    match t.hold with
    | .tokens m =>
      if t.res != .resident then s
      else if s.tokensMet t m then (s.modTeam uid fun u => { u with heldHome := 0 }).completeHeld uid
      else s.modTeam uid fun u => { u with heldHome := u.heldHome + 1 }
    | _ => s

/-- A team that is not held for payment alone starts its count again (R397). -/
def State.countNot (s : State) (uid : Nat) : State :=
  s.modTeam uid fun t => match t.hold with
    | .tokens _ => t
    | _ => { t with heldHome := 0, heldOdd := 0 }

/-- The cores whose pipes an ISSUE_CYCLE of a core works: its own, with the odd core's where a resident team of the pair has it as its home, and
none where the core is the odd one of such a team, which the even core's event works (R16, R28). -/
def State.issueCores (s : State) (core : Nat) : List Nat :=
  if s.teams.any fun t => t.pair && t.res != .evicted && t.home + 1 == core then []
  else if s.teams.any fun t => t.pair && t.res != .evicted && t.home == core then [core, core + 1]
  else [core]

/-- ISSUE_CYCLE: a core's teams settle, and its two pipes each choose one payable instruction (R396). -/
def execIssueCycle (core : Nat) (s : State) : Out State :=
  let ks := s.issueCores core
  let uids := (s.teams.filter fun t => ks.contains t.home && !s.pick.contains t.uid).map fun t => t.uid
  let s := uids.foldl State.settleTeam s
  let s := uids.foldl State.pollTokens s
  let s := uids.foldl (fun (s : State) u => s.modTeam u fun t =>
    { t with readyAt := if (s.readyInstr t).isSome then some (t.readyAt.getD (s.ccOf (clusterOf core))) else none }) s
  let cs := (uids.filterMap s.team?).filterMap fun t => (s.readyInstr t).map fun i => (t, i)
  let first := s.ccOf (clusterOf core) % 2 == 0
  let s1 := s.afterFirst (s.chooseOn ks first cs.length cs)
  let r := s.choosePipes ks first cs
  let s' := { r.1 with pick := s.pick ++ r.2 }
  let s' := (cs.filter fun x => !r.2.contains x.1.uid).foldl (fun (s' : State) x =>
    State.countHeld (if Instr.isLane x.2 == first then s else s1) s' x.1 x.2) s'
  .next ((uids.filter fun u => cs.all fun x => x.1.uid != u).foldl State.countNot s')

/-- ASYNC_FAULT: an engine finds a fault after acceptance: the handle reads FAULTED and the cause is pending at the team (R33). -/
def execAsyncFault (uid slot : Nat) (cause : Nat) (s : State) : Out State :=
  .next (match s.team? uid with
    | none => s
    | some t =>
      if (t.slotOf slot).status = .pending then s.finish { uid := uid, slot := slot, gid := t.gid } .faulted (some (Cause.ofBit cause))
      else s)

end Sys2Proof.Machine
end

