-- ==== Sys2Proof/Machine/Cycle.lean ====
section
/-! DEFINITION. What the package does by itself as time passes: a core cycle, with a reference cycle in every second one, runs every event
whose time has come (R4, R35, R36, R40). The order of events in one cycle, and how the next input is taken, are the model's (log entry 2). -/

namespace Sys2Proof.Machine

open Sys2Proof

/-- Runs an event for each of several things, one after another. -/
def State.each {α : Type} (s : State) (l : List α) (f : α → State → Out State) : State :=
  l.foldl (fun (s : State) x => afterEvent s (f x s)) s

/-! ### Registration and waits -/

/-- The die of the atomic unit of a write: its vault's, or that of its home slice (R234, R271). -/
def PWrite.unitDie (w : PWrite) : Nat := if w.vault then clusterDie (w.va / 2 ^ 23) else homeDie w.va

/-- The port order of requests that reach their units in one core cycle (R274): cores of the unit's own die before the other die's, then
ascending cores. -/
def PWrite.portBefore (a b : PWrite) : Bool :=
  let far := fun (w : PWrite) => dieOf w.core != w.unitDie
  if far a != far b then !far a else decide (a.core < b.core)

/-- The no-return atomics that have been accepted are applied in port order, the lanes of one instruction together (R271, R274). -/
def State.applyAtoms (s : State) : State :=
  (sortBy PWrite.portBefore (s.pend.filter fun w => !w.isStore)).foldl (fun (s : State) w =>
    match findPlace (fun x => x == w) s.pend with
    | some (n, _) => afterEvent s (execAtomicApply n s)
    | none => s) s

/-- The atomics are applied, the oldest pending store registers, and the oldest revoke of a core of this device is acknowledged (R284). -/
def State.cycleMemory (s : State) : State :=
  let s := s.applyAtoms
  let s := match findPlace PWrite.isStore s.pend with
    | some (n, _) => afterEvent s (execHomeStoreRegister n s)
    | none => s
  let s := match findPlace Revoke.isLocal s.revokes with
    | some (n, _) => afterEvent s (execRevokeAck n s)
    | none => s
  let asked := fun (a : Nat) => s.remAsks.any fun x => x.asker == .engine && x.asid == a && x.ans.isNone && !x.registers
  { s with remAsks := s.remAsks.filter fun a =>
      !(a.asker == .engine && a.ans.isSome && a.cmd.isNone && decide (a.at_ + 64 ≤ s.cc) && !asked a.asid) }

/-- Nothing that a team waits for at other devices is unanswered: its own questions, and those of the engines of its context, of which at least
one has been answered. -/
def State.remoteMet (s : State) (t : Team) : Bool :=
  let engine := s.remAsks.filter fun a => a.asker == .engine && a.asid == t.asid && !a.registers
  !(s.remAsks.any fun a => a.asker == .team t.uid && a.ans.isNone && (!a.registers || !a.ret.isEmpty)) &&
    (engine.all (fun a => a.ans.isSome) || engine.any fun a => a.ans.isSome)

/-- What a held team waits for may have come. -/
def State.cycleHold (s : State) (uid : Nat) : State :=
  match s.team? uid with
  | none => s
  | some t =>
    match t.hold with
    | .sleep _ => afterEvent s (execSleepWake uid s)
    | .wait .. | .waitAll => afterEvent s (execHandleCompleteWake uid s)
    | .barTok .. => if t.dueAt ≤ s.cc then afterEvent s (execBarrierTokenReturn uid s) else s
    | .barWait .. => if t.dueAt ≤ s.cc then afterEvent s (execBarrierRelease uid s) else s
    | .remote => if s.remoteMet t then s.modTeam uid fun u => { u with hold := .free } else s
    | .link => s.endFence uid
    | _ => s

/-- A team's fence may end (R288). -/
def State.cycleFence (s : State) (uid : Nat) : State :=
  match s.team? uid with
  | some t => if t.fence = .none then s else s.endFence uid
  | none => s

/-- Arrivals in the order in which they reach their slots: by core cycle, then by ascending core (R116). -/
def sortArrivals (l : List Arrival) : List Arrival :=
  sortBy (fun (a b : Arrival) => decide (a.at_ < b.at_) || (a.at_ == b.at_ && decide (a.src < b.src))) l

/-- The barrier arrivals whose time has come reach their slots, and held teams look at what they wait for. -/
def State.cycleTeams (s : State) : State :=
  let s := { s with arrivals := sortArrivals s.arrivals }
  let due := (s.arrivals.filter fun a => decide (a.at_ ≤ s.cc)).length
  let s := (List.range due).foldl (fun (s : State) _ => afterEvent s (execBarrierArrival 0 s)) s
  let uids := s.teams.map fun t => t.uid
  uids.foldl State.cycleFence (uids.foldl State.cycleHold s)

/-! ### Cores and clusters -/

/-- A core's code slots and records. -/
def State.cycleCode (s : State) (k : Nat) : State :=
  let slots := (s.core k).code.filterMap fun e => if e.2.st = .loading then some e.1 else none
  let pins := (s.core k).code.filterMap fun e => if e.2.pinned then some e.1 else none
  let recs := (s.core k).mcrec.filterMap fun e => if !e.2.readable then some e.1 else none
  let s := s.each slots (execCfetchLand k)
  let s := s.each pins (execCodeSlotPinExpiry k)
  let s := if s.loads.any fun l => l.core == k then s.serveLoads k else s
  s.each recs (execMcrecReadable k)

/-- The teams of a core that have been held for payment long enough ask for its reservation (R397). -/
def State.cycleReserve (s : State) (k : Nat) : State :=
  s.each (((s.teamsOn k).filter fun t => decide (t.heldOn k ≥ (s.core k).rto)).map fun t => t.uid) (execReservationTake k)

/-- The words that the returning atomic of a chosen team reaches on this device, with the die of each one's unit (R271, R274). -/
def State.atomWords (s : State) (uid : Nat) : List (Nat × Nat) :=
  match s.team? uid with
  | none => []
  | some t =>
    let words := fun (h : Hdr) (m : MemForm) => (t.lanesFor h).filterMap fun l =>
      match s.laneAccess t l .atomic m.vt m.size (m.addr t l) with
      | .ok key va _ => if peerHome key then none else some (key, if m.vt then clusterDie (va / 2 ^ 23) else homeDie va)
      | _ => none
    match s.fetch t with
    | .words ws =>
      match decode ws with
      | some (.vAtom h _ ty _ a _ c sp, _) => words h (MemForm.atom a c sp (tyBytes ty))
      | some (.vCas h ty _ a _ c sp, _) => words h (MemForm.atom a c sp (tyBytes ty))
      | _ => []
    | _ => []

/-- A chosen team's atomic reaches a common word before another's that was chosen in the same cycle: its core lies on the die of the word's unit, and
the other's does not (R274). -/
def portFirst (a b : Nat × Nat × List (Nat × Nat)) : Bool :=
  a.2.2.any fun w => b.2.2.contains w && dieOf a.2.1 == w.2 && dieOf b.2.1 != w.2

/-- The chosen teams in the order in which their atomics reach common words (R274; log entry 2). -/
def State.portPicks (s : State) : State :=
  let xs := s.pick.map fun uid => (uid, ((s.team? uid).map fun t => t.home).getD 0, s.atomWords uid)
  { s with pick := (sortBy portFirst xs).map Prod.fst }

/-- The pipes of a core choose. -/
def State.cycleIssue (s : State) (k : Nat) : State := afterEvent s (execIssueCycle k s)

/-- The cores that hold anything: a team, or code on its way. -/
def State.activeCores (s : State) : List Nat :=
  (List.range 384).filter fun k => (s.teams.any fun t => t.cores.contains k && t.res != .evicted) || (SMap.find s.cores k).isSome

/-- A cluster's engines. -/
def State.cycleCluster (s : State) (v : Nat) : State :=
  let c := s.cluster v
  let s := s.each (c.gangs.map Prod.fst) (execGangForm v)
  let s := afterEvent s (execWindowAllocate v s)
  let s := s.each (c.gangs.map Prod.fst) (execMmaLatchComplete v)
  let s := s.each (List.range 4) (execMxPassEnd v)
  let s := s.cancelBroken v
  let s := s.each ((c.entries.filter fun e => e.isWindow && e.started).map fun e => e.id) (execMxWindowOpComplete v)
  let s := s.each (List.range 4) (execSaCommandStart v)
  let s := s.each (List.range 4) (execSaCommandComplete v)
  let s := s.answerStats v
  let s := s.each [false, true] (execCopyComplete v)
  s.each (List.range 4) (execSubarrayGate v)

/-- A channel's program. -/
def State.cycleChannel (s : State) (ch : Nat) : State :=
  let s := afterEvent s (execClProgramStart ch s)
  let s := afterEvent s (execClStepStart ch s)
  s.each ((List.range (((s.clHead ch).map fun p => p.active.length + 1).getD 0)).reverse) (execClStepTimeout ch)

/-! ### Dispatch -/

/-- The engine learns that a queue's table entry or its tail word holds other words than it has read (R209, R210). -/
def State.cycleQueue (s : State) (slot q : Nat) : State :=
  let c := s.ctx slot
  let x := c.queue q
  let s := match s.vaRange c .read (c.entryVa q) 32, s.entryWords slot q with
    | .wait n, _ => if x.rewritten then s.emitNeeds n else s
    | _, some e =>
      if x.rewritten || (if x.entry.isEmpty then e.any fun w => w != 0 else noV e != noV x.entry) then
        afterEvent s (execQueueTableEntryWrite slot q s)
      else s
    | _, none => s
  let x := (s.ctx slot).queue q
  if !x.valid || x.dl || x.stopped then s
  else match s.vaRange c .read (x.word 2) 8 with
    | .ok ps => if leNat (s.partsBytes ps) = x.tail then s else afterEvent s (execQueueTailStore slot q s)
    | .wait n => s.emitNeeds n
    | .fault _ => if x.told then afterEvent s (execQueueTailStore slot q s) else s

/-- A context's queues and tape. -/
def State.cycleCtx (s : State) (slot : Nat) : State :=
  if !(s.ctx slot).valid || s.ctxStopped slot then s
  else
    let s := (List.range 64).foldl (fun (s : State) q => s.cycleQueue slot q) s
    let qs := (s.ctx slot).queues.map Prod.fst
    let s := s.each qs (execLaunchPacketConsume slot)
    let s := s.each qs (execPacketStart slot)
    let s := s.each qs (execTapeRunStart slot)
    let s := s.each qs (execStepEndClose slot)
    afterEvent s (execTapePop slot s)

/-- The grids in the order in which the engine tries them (R211). -/
def State.gridsInOrder (s : State) : List Nat :=
  (sortBy (fun (a b : Grid) => decide (a.pri > b.pri) || (a.pri == b.pri && decide (a.seq < b.seq))) s.grids).map fun g => g.gid

/-- Places what it can of a grid: all of it, or pack after pack (R211, R217). -/
def State.placeGrid (s : State) (gid : Nat) : State :=
  match s.grid? gid with
  | none => s
  | some g =>
    if g.whole then afterEvent s (execWholeGridPlace gid s)
    else (List.range g.packsLeft).foldl (fun (s : State) _ => afterEvent s (execPackPlace gid s)) s

/-- Evictions, restores, placement and the ends of grids (R211, R215, R217, R228, R229). -/
def State.cycleDispatch (s : State) : State :=
  let s := (s.ctxs.map Prod.fst).foldl State.cycleCtx s
  let s := s.each (s.teams.map fun t => t.uid) execEvictionDrainDone
  let s := s.each (s.evictedTeams.map fun t => t.uid) execTeamRestore
  let s := s.gridsInOrder.foldl State.placeGrid s
  let s := s.each s.gridsInOrder execPartialEviction
  s.each s.gridsInOrder execGridEnd

/-! ### The other package engines -/

/-- The moves of pages at their home: the hold and the switch follow one another (R249). -/
def State.cycleMoves (s : State) : State :=
  let mine := s.moves.filter fun m => m.home == s.peerId
  let s := s.each mine fun m s => execMigrationHold m.ctx m.va s
  s.each mine fun m s => execMigrationSwitch m.ctx m.va false [] s

/-- The scrubber has a read to make: a tadpole's has ended, or its floor is due (R200). -/
def State.scrubDue (s : State) : Bool :=
  (s.gov.units.any fun u => u.kind == .scrub && decide (u.endsAt ≤ s.time)) ||
    decide ((s.scrubPasses * scrubHbm + min s.scrubPos scrubHbm) * 10 ^ 9 < s.time * 2 ^ 20)

/-- Commands on contexts, keys and ownership, the junction's temperature, and the wear counters' save every 3,600 s (R451). -/
def State.cycleHost (s : State) : State :=
  let slots := s.pkg.ctxctl.map Prod.fst
  let s := s.each (slots.filter fun k => s.ctxSt k == 2) execContextSave
  let s := s.each (slots.filter fun k => s.ctxSt k == 2) execContextSaveComplete
  let s := s.each (slots.filter fun k => s.ctxSt k == 4) execContextRestoreComplete
  let s := s.each s.pkg.dying execContextDestroyComplete
  let s := s.each (s.pkg.zeroing.map fun x => x % 64) execLinkKeyZeroise
  let s := s.senseTemp
  let s := if s.time % 3600000000000 = 0 then afterEvent s (execWearCounterSave s) else s
  afterEvent (afterEvent s (execPendTimeout s)) (execOwnerVacancy (afterEvent s (execPendTimeout s)))

/-- The islands: wake times that have passed, wakes, and entries into IDLE and RET (R426, R427). -/
def State.cycleIslands (s : State) : State :=
  let all := List.range 128
  let s := s.each all execIslandWakeDone
  let s := s.each all execIslandWake
  let s := s.each all execIslandIdle
  s.each all execIslandRetention

/-- A reference cycle: intents expire, the governor's step at every fourth, its grants, the refills of the die buckets, and the package's engines
(R407, R408, R430). -/
def State.refCycle (s : State) : State :=
  let s := s.each (s.gov.intents.map Prod.fst) execIntentExpire
  let s := if s.time % 4 = 0 then afterEvent s (execRampStep s) else s
  let s := s.cycleIslands
  let s := afterEvent s (execDieRefill s)
  let s := afterEvent s (execGovernorCycle s)
  let s := s.each (s.teams.map fun t => t.uid) execCopyLateCheck
  let s := (s.chans.map Prod.fst).foldl State.cycleChannel s
  let s := s.cycleHost
  let s := if s.recWaits.isEmpty then s else s.retryRecs
  let s := s.cycleDispatch
  let s := s.cycleMoves
  if s.scrubDue then afterEvent s (execScrubRead s) else s

/-- The core cycles that a core makes in this half reference cycle: one at 2 GHz, at times two above it and none below or while its clock is
stopped (R6, R425, R428). -/
def State.cyclesNow (s : State) (k : Nat) : Nat :=
  let x := s.island (clusterOf k)
  if x.st = .run then (s.cc - x.from_) * x.mhz / 2000 - (s.cc - 1 - x.from_) * x.mhz / 2000 else 0

/-- A core cycle of cores: their refills, their code, and what their pipes choose. -/
def State.cycleCores (s : State) (ks : List Nat) : State :=
  let s := s.each (s.refillOrder ks) execCoreRefill
  let s := ks.foldl State.cycleCode s
  ks.foldl State.cycleIssue (ks.foldl State.cycleReserve s)

/-- Half a reference cycle. `CYC` advances with every second one, whose work follows that of the cluster engines that ends with it (R35, R407); at the
end of the first reference cycle of a step, after its refills, tadpoles start (R408, R418). Without power nothing happens. -/
def State.coreCycle (s : State) : State :=
  if !s.powered then s
  else
    let s := { s with cc := s.cc + 1 }
    let even : Bool := s.cc % 2 == 0
    let s := if even then ({ s with cyc := s.cyc + 1 } : State).openCycle else s
    let s := (s.clusters.map Prod.fst).foldl State.cycleCluster s
    let s := if even then s.refCycle else s
    let s := s.cycleMemory
    let s := s.cycleTeams
    let ks := s.activeCores
    let twice := ks.filter fun k => decide (s.cyclesNow k ≥ 2)
    let s := if twice.isEmpty then s else { ({ s with later := 1 } : State).cycleCores twice with later := 0 }
    let s := s.cycleCores (ks.filter fun k => decide (s.cyclesNow k ≥ 1))
    (if !even && s.time % 4 == 0 then s.startTadpoles else s).portPicks

/-! ### The next step -/

/-- A question that has been sent and not been answered, or that a write of this device on its way holds back. -/
def State.needOut (s : State) : Need → Bool
  | .ats p v => s.outbox.contains (OutMsg.ats p v)
  | .island i => s.gov.wanted.contains i
  | .remote asid _ va op =>
    (op == .load 64 && s.writesOut asid va) ||
      s.remAsks.any fun a => a.asker == .engine && a.asid == asid && a.va == va && a.op == op && a.ans.isNone

/-- What an input waits for, where it cannot be served yet (R242, R252, R295): a host access, or a message whose group table cannot be read. -/
def State.inputHeld (s : State) : Instr → Option (List Need)
  | .hostWindowAccess write off n bytes => s.hostHeld write off n bytes
  | .clMessageArrive m | .clAbortArrive m =>
    if m.full then none else ((if m.auth then s.keyedCtx m.part else none).bind fun slot => s.groupNeeds (s.ctx slot))
  | _ => none

/-- An input waits, and all that it waits for has been asked for. -/
def State.inputWaits (s : State) (i : Instr) : Bool := (s.inputHeld i).any fun ns => ns.all s.needOut

/-- An accept takes effect after every other write of its cycle (R440). -/
def Instr.isAccept : Instr → Bool
  | .macceptWrite .. => true
  | .registerWrite _ off _ => off == 0x08_0010
  | .hostWindowAccess write off _ _ => write && decide (off ≥ 2 ^ 36) && off % 2 ^ 24 == 0x08_0010
  | _ => false

/-- A host access but for an accept: they are served in the order in which the link delivers them (R295). -/
def Instr.isHost (i : Instr) : Bool :=
  match i with
  | .hostWindowAccess _ off _ _ => decide (off < 2 ^ 36 + 2 ^ 24) && !Instr.isAccept i
  | _ => false

/-- The master of a claim of the package that is one write of its own (R440). -/
def Instr.claims : Instr → Option Nat
  | .registerWrite m off v => if off = 0x08_0008 ∧ ownId m v then some m else none
  | .mclaimWrite [(m, v)] => if ownId m v then some m else none
  | .hostWindowAccess true off _ bytes =>
    let m := (off - 2 ^ 36) / 2 ^ 24 + 1
    if off ≥ 2 ^ 36 ∧ off % 2 ^ 24 = 0x08_0008 ∧ ownId m (BitVec.ofNat 64 (leNat bytes)) then some m else none
  | _ => none

/-- The device that sends a request, an answer or a revoke over the fabric. -/
def Instr.fabricPeer : Instr → Option Nat
  | .remoteRequestArrive req => some req.peer
  | _ => none

/-- The place of the first of the smallest inputs under a numbering. -/
def leastPlace (num : Instr → Option Nat) (l : List Instr) : Nat :=
  let m := (l.filterMap num).foldl (fun (m : Option Nat) x => some (match m with | some y => min x y | none => x)) none
  ((findPlace (fun i => (num i).isSome && num i == m) l).map Prod.fst).getD 0

/-- The place of the input that is served instead of the one at a place whose turn it is: of the claims of a cycle that of the lowest ID (R440), and of
messages over the fabric that come one after another those of the lowest peer (R274). -/
def State.servedPlace (s : State) (n : Nat) (i : Instr) : Nat :=
  if (Instr.claims i).isSome then leastPlace Instr.claims s.inputs
  else if (Instr.fabricPeer i).isSome then
    n + leastPlace Instr.fabricPeer ((s.inputs.drop n).takeWhile fun j => (Instr.fabricPeer j).isSome)
  else n

/-- The next input and those that are left: the first that does not wait, host accesses in their order, and accepts last. Instruction words are no
inputs. -/
def State.nextInput (s : State) : Option (Instr × List Instr) :=
  let host := (findPlace Instr.isHost s.inputs).map Prod.fst
  let can := fun (x : Instr × Nat) => (Instr.info x.1).isNone && (!Instr.isHost x.1 || host == some x.2) && !s.inputWaits x.1
  match (s.inputs.zipIdx.find? fun x => can x && !Instr.isAccept x.1).orElse fun _ => s.inputs.zipIdx.find? can with
  | none => none
  | some x =>
    let n := s.servedPlace x.2 x.1
    (s.inputs[n]?).map fun i => (i, s.inputs.eraseIdx n)

/-- One step of the package, `ex` being the meaning of instructions and events: a chosen team's instruction; else the next input; else a core
cycle. -/
def State.advanceBy (ex : Instr → State → Out State) (s : State) : Out State :=
  match s.pick with
  | uid :: rest => State.runTeam ex uid { s with pick := rest }
  | [] =>
    match s.nextInput with
    | some (i, rest) =>
      match ex i { s with inputs := rest } with
      | .next u => .next { u with inputs := if (s.inputHeld i).isSome then i :: u.inputs else u.inputs }
      | r => r
    | none => .next s.coreCycle

/-! ### A team that is placed by hand (log entry 6) -/

/-- The address that the placed team's segment 0 is bound to. -/
def launchedImage : Nat := 0x4000

/-- A privileged team of one group of 32 lanes on core 0, at PC 0, with every lane active. -/
def launchedTeam (uid asid : Nat) : Team :=
  { Team.blank with
    uid := uid, asid := asid, nv := 192, tcw := 0x8000_0000,
    stack := [({ pc := 0, mask := fullMask 32, rpc := none, fmt := 0 } : PathEntry)],
    segs := (Team.blank.segs.set 0 (BitVec.ofNat 64 launchedImage)), segBind := (Team.blank.segBind.set 0 (BitVec.ofNat 64 launchedImage)) }

/-- A core whose code slot 0 holds words, with a full bucket that nobody has reserved. -/
def Core.holding (c : Core) (asid : Nat) (ws : List Word) : Core :=
  { (c.putCode 0 { CodeSlot.reset with asid := asid, addr := launchedImage, st := .landed, words := ws }) with bal := c.cap, resv := none }

/-- A team stands at words of code on core 0, chosen to issue. -/
def State.launched (s : State) (ws : List Word) : State :=
  let asid := (s.ctx 0).asid
  { (s.putCore 0 ((s.core 0).holding asid ws)) with
    teams := s.teams ++ [launchedTeam s.nextId asid], pick := [s.nextId], nextId := s.nextId + 1, inputs := [], powered := true }

end Sys2Proof.Machine
end

