-- ==== Sys2Proof/Machine/LaneInt.lean ====
section
/-! DEFINITION. The integer, address and predicate instructions of the lane engine, opcodes 0x00 to 0x13 of the lane pipe (R153 to R160). -/

namespace Sys2Proof.Machine

open Sys2Proof

/-! ### Functions of values -/

/-- An operation applied to each element's value, wrapping or saturating (R155). -/
def elemWise (ty : Ty) (sat : Bool) (f : Int → Int → Int) (a b : Nat) : Nat :=
  mapElems ty (fun x y =>
    let z := f (tyVal ty x) (tyVal ty y)
    wrap ty.width (if sat then saturate ty z else z)) a b

/-- The sum with a sign-extended immediate (R155). -/
def addImm (ty : Ty) (sat : Bool) (a : Nat) (imm : BitVec 8) : Nat :=
  let z := tyVal ty a + imm.toInt
  wrap ty.width (if sat then saturate ty z else z)

/-- A product or multiply-add, exact (R155). -/
def madExact (ty : Ty) (a b : Nat) (c : Int) : Int := tyVal ty a * tyVal ty b + c

/-- The four-byte dot product (R155). -/
def dot4 (ty ty2 : Ty) (sat : Bool) (a b c : Nat) : Nat :=
  let z := dotSum ty ty2 a b c
  wrap 32 (if sat then saturate .s32 z else z)

/-- The funnel shifts (R156). -/
def funnelL (a b n : Nat) : Nat := (a * 2 ^ 32 + b) * 2 ^ n / 2 ^ 32 % 2 ^ 32
/-- The right funnel shift. -/
def funnelR (a b n : Nat) : Nat := (a * 2 ^ 32 + b) / 2 ^ n % 2 ^ 32

/-- The width of a bit field that B names (R156). -/
def fieldWid (b : Nat) : Nat := min (bits b 13 8) (32 - b % 32)

/-- A bit field extracted (R156). -/
def bfx (ty : Ty) (a b : Nat) : Nat :=
  let wid := fieldWid b
  if wid = 0 then 0 else extend ty.isSigned wid 32 (a / 2 ^ (b % 32))

/-- A bit field inserted into C (R156). -/
def bfi (a b c : Nat) : Nat :=
  let wid := fieldWid b
  let pos := b % 32
  if wid = 0 then c else c - c / 2 ^ pos % 2 ^ wid * 2 ^ pos + a % 2 ^ wid * 2 ^ pos

/-- The number of ones among the low `w` bits (R156). -/
def popc (w a : Nat) : Nat := ((List.range w).filter fun i => a.testBit i).length
/-- Leading zeros of `w` bits. -/
def clz (w a : Nat) : Nat := ((List.range w).reverse.find? fun i => a.testBit i).elim w fun i => w - 1 - i
/-- Trailing zeros of `w` bits. -/
def ctz (w a : Nat) : Nat := ((List.range w).find? fun i => a.testBit i).getD w
/-- The bits of `w` bits reversed. -/
def brev (w a : Nat) : Nat := (List.range w).foldl (fun (r : Nat) i => 2 * r + a / 2 ^ i % 2) 0

/-- The byte permute (R157): with `sign`, a selector's high bit gives the byte's sign. -/
def perm (sign : Bool) (a b c : Nat) : Nat :=
  let x := a + 2 ^ 32 * b
  packElems 8 ((List.range 4).map fun i =>
    let sel := elem c i 4
    let y := elem x (sel % 8) 8
    if sel < 8 then y else if sign && decide (y ≥ 128) then 255 else 0)

/-- An integer conversion (R158). -/
def cvtInt (dst src : Ty) (sat : Bool) (idx a : Nat) : Nat :=
  let x := tyVal src (elem a idx src.width)
  let z := if sat then saturate dst x else tyVal dst (wrap dst.width x)
  wrap (if dst.is64 then 64 else 32) z

/-! ### Shapes of instruction -/

/-- Values of a list of sources. -/
def nth (vs : List Nat) (k : Nat) : Nat := (vs[k]?).getD 0

/-- A lane instruction on two sources of its type. -/
def laneBin (i : Instr) (h : Hdr) (ty : Ty) (d a b : RegNo) (f : Nat → Nat → Nat) : State → Team → Res :=
  laneOp i h 0 d [(a, regsOf ty), (b, regsOf ty)] fun _ _ vs => LRes.num (regsOf ty) (f (nth vs 0) (nth vs 1))

/-- A lane instruction on one source of its type. -/
def laneUn (i : Instr) (h : Hdr) (ty : Ty) (n : Nat) (d a : RegNo) (f : Nat → Nat) : State → Team → Res :=
  laneOp i h 0 d [(a, regsOf ty)] fun _ _ vs => LRes.num n (f (nth vs 0))

/-- A lane instruction on three single registers. -/
def laneTri (i : Instr) (h : Hdr) (d a b c : RegNo) (f : Nat → Nat → Nat → Nat) : State → Team → Res :=
  laneOp i h 0 d [(a, 1), (b, 1), (c, 1)] fun _ _ vs => LRes.num 1 (f (nth vs 0) (nth vs 1) (nth vs 2))

/-- A predicate instruction. -/
def lanePred (i : Instr) (h : Hdr) (p : BitVec 4) (f : Team → Nat → Bool) : State → Team → Res :=
  laneOp i h 0 0 [] fun t l _ => LRes.flag p.toNat (f t l)

/-! ### Meanings -/

/-- `v.add` (R155). -/
def execVAdd (h : Hdr) (ty : Ty) (d a b : RegNo) (s : State) : Out State :=
  let i : Instr := .vAdd h ty d a b
  withTeam i s (laneBin i h ty d a b (elemWise ty false fun x y => x + y))

/-- `v.adds` (R155). -/
def execVAdds (h : Hdr) (ty : Ty) (d a b : RegNo) (s : State) : Out State :=
  let i : Instr := .vAdds h ty d a b
  withTeam i s (laneBin i h ty d a b (elemWise ty true fun x y => x + y))

/-- `v.sub` (R155). -/
def execVSub (h : Hdr) (ty : Ty) (d a b : RegNo) (s : State) : Out State :=
  let i : Instr := .vSub h ty d a b
  withTeam i s (laneBin i h ty d a b (elemWise ty false fun x y => x - y))

/-- `v.subs` (R155). -/
def execVSubs (h : Hdr) (ty : Ty) (d a b : RegNo) (s : State) : Out State :=
  let i : Instr := .vSubs h ty d a b
  withTeam i s (laneBin i h ty d a b (elemWise ty true fun x y => x - y))

/-- `v.mul` (R155). -/
def execVMul (h : Hdr) (ty : Ty) (d a b : RegNo) (s : State) : Out State :=
  let i : Instr := .vMul h ty d a b
  withTeam i s (laneBin i h ty d a b (aluMul ty))

/-- `v.mulh` (R155). -/
def execVMulh (h : Hdr) (ty : Ty) (d a b : RegNo) (s : State) : Out State :=
  let i : Instr := .vMulh h ty d a b
  withTeam i s (laneBin i h ty d a b (aluMulh ty))

/-- `v.mulw` (R155): a pair whatever the type. -/
def execVMulw (h : Hdr) (ty : Ty) (d a b : RegNo) (s : State) : Out State :=
  let i : Instr := .vMulw h ty d a b
  withTeam i s (laneOp i h 0 d [(a, 1), (b, 1)] fun _ _ vs => LRes.num 2 (wrap 64 (madExact ty (nth vs 0) (nth vs 1) 0)))

/-- `v.mad` (R155). -/
def execVMad (h : Hdr) (ty : Ty) (d a b c : RegNo) (s : State) : Out State :=
  let i : Instr := .vMad h ty d a b c
  withTeam i s (laneOp i h 0 d [(a, regsOf ty), (b, regsOf ty), (c, regsOf ty)] fun _ _ vs =>
    LRes.num (regsOf ty) (wrap ty.width (madExact ty (nth vs 0) (nth vs 1) (tyVal ty (nth vs 2)))))

/-- `v.madh` (R155). -/
def execVMadh (h : Hdr) (ty : Ty) (d a b c : RegNo) (s : State) : Out State :=
  let i : Instr := .vMadh h ty d a b c
  withTeam i s (laneOp i h 0 d [(a, 1), (b, 1), (c, 1)] fun _ _ vs =>
    LRes.num 1 (wrap 64 (madExact ty (nth vs 0) (nth vs 1) (tyVal ty (nth vs 2))) / 2 ^ 32))

/-- `v.madw` (R155): C names a pair, signed for s32. -/
def execVMadw (h : Hdr) (ty : Ty) (d a b c : RegNo) (s : State) : Out State :=
  let i : Instr := .vMadw h ty d a b c
  withTeam i s (laneOp i h 0 d [(a, 1), (b, 1), (c, 2)] fun _ _ vs =>
    LRes.num 2 (wrap 64 (madExact ty (nth vs 0) (nth vs 1) (if ty.isSigned then signedVal 64 (nth vs 2) else nth vs 2))))

/-- `v.dot4` (R155). -/
def execVDot4 (h : Hdr) (ty ty2 : Ty) (d a b c : RegNo) (s : State) : Out State :=
  let i : Instr := .vDot4 h ty ty2 d a b c
  withTeam i s (laneTri i h d a b c (dot4 ty ty2 false))

/-- `v.dot4s` (R155). -/
def execVDot4s (h : Hdr) (ty ty2 : Ty) (d a b c : RegNo) (s : State) : Out State :=
  let i : Instr := .vDot4s h ty ty2 d a b c
  withTeam i s (laneTri i h d a b c (dot4 ty ty2 true))

/-- `v.and` (R156). -/
def execVAnd (h : Hdr) (ty : Ty) (d a b : RegNo) (s : State) : Out State :=
  let i : Instr := .vAnd h ty d a b
  withTeam i s (laneBin i h ty d a b (aluAnd ty))

/-- `v.or` (R156). -/
def execVOr (h : Hdr) (ty : Ty) (d a b : RegNo) (s : State) : Out State :=
  let i : Instr := .vOr h ty d a b
  withTeam i s (laneBin i h ty d a b (aluOr ty))

/-- `v.xor` (R156). -/
def execVXor (h : Hdr) (ty : Ty) (d a b : RegNo) (s : State) : Out State :=
  let i : Instr := .vXor h ty d a b
  withTeam i s (laneBin i h ty d a b (aluXor ty))

/-- `v.andn` (R156). -/
def execVAndn (h : Hdr) (ty : Ty) (d a b : RegNo) (s : State) : Out State :=
  let i : Instr := .vAndn h ty d a b
  withTeam i s (laneBin i h ty d a b (aluAndn ty))

/-- `v.shl` (R156). -/
def execVShl (h : Hdr) (ty : Ty) (d a b : RegNo) (s : State) : Out State :=
  let i : Instr := .vShl h ty d a b
  withTeam i s (laneBin i h ty d a b fun x n => shl ty.width x (shiftCount n))

/-- `v.shr` (R156). -/
def execVShr (h : Hdr) (ty : Ty) (d a b : RegNo) (s : State) : Out State :=
  let i : Instr := .vShr h ty d a b
  withTeam i s (laneBin i h ty d a b fun x n => shr ty.width x (shiftCount n))

/-- `v.sra` (R156). -/
def execVSra (h : Hdr) (ty : Ty) (d a b : RegNo) (s : State) : Out State :=
  let i : Instr := .vSra h ty d a b
  withTeam i s (laneBin i h ty d a b fun x n => sra ty.width x (shiftCount n))

/-- `v.rotl` (R156). -/
def execVRotl (h : Hdr) (ty : Ty) (d a b : RegNo) (s : State) : Out State :=
  let i : Instr := .vRotl h ty d a b
  withTeam i s (laneBin i h ty d a b fun x n => rotl ty.width x (shiftCount n))

/-- `v.rotr` (R156). -/
def execVRotr (h : Hdr) (ty : Ty) (d a b : RegNo) (s : State) : Out State :=
  let i : Instr := .vRotr h ty d a b
  withTeam i s (laneBin i h ty d a b fun x n => rotl ty.width x (ty.width - shiftCount n % ty.width))

/-- `v.addi` (R155). -/
def execVAddi (h : Hdr) (ty : Ty) (d a : RegNo) (imm : BitVec 8) (s : State) : Out State :=
  let i : Instr := .vAddi h ty d a imm
  withTeam i s (laneUn i h ty (regsOf ty) d a fun x => addImm ty false x imm)

/-- `v.addis` (R155). -/
def execVAddis (h : Hdr) (ty : Ty) (d a : RegNo) (imm : BitVec 8) (s : State) : Out State :=
  let i : Instr := .vAddis h ty d a imm
  withTeam i s (laneUn i h ty (regsOf ty) d a fun x => addImm ty true x imm)

/-- `v.andi` (R156). -/
def execVAndi (h : Hdr) (ty : Ty) (d a : RegNo) (imm : BitVec 8) (s : State) : Out State :=
  let i : Instr := .vAndi h ty d a imm
  withTeam i s (laneUn i h ty (regsOf ty) d a fun x => aluAnd ty x imm.toNat)

/-- `v.ori` (R156). -/
def execVOri (h : Hdr) (ty : Ty) (d a : RegNo) (imm : BitVec 8) (s : State) : Out State :=
  let i : Instr := .vOri h ty d a imm
  withTeam i s (laneUn i h ty (regsOf ty) d a fun x => aluOr ty x imm.toNat)

/-- `v.xori` (R156). -/
def execVXori (h : Hdr) (ty : Ty) (d a : RegNo) (imm : BitVec 8) (s : State) : Out State :=
  let i : Instr := .vXori h ty d a imm
  withTeam i s (laneUn i h ty (regsOf ty) d a fun x => aluXor ty x imm.toNat)

/-- `v.shli` (R156). -/
def execVShli (h : Hdr) (ty : Ty) (d a : RegNo) (imm : BitVec 8) (s : State) : Out State :=
  let i : Instr := .vShli h ty d a imm
  withTeam i s (laneUn i h ty (regsOf ty) d a fun x => shl ty.width x imm.toNat)

/-- `v.shri` (R156). -/
def execVShri (h : Hdr) (ty : Ty) (d a : RegNo) (imm : BitVec 8) (s : State) : Out State :=
  let i : Instr := .vShri h ty d a imm
  withTeam i s (laneUn i h ty (regsOf ty) d a fun x => shr ty.width x imm.toNat)

/-- `v.srai` (R156). -/
def execVSrai (h : Hdr) (ty : Ty) (d a : RegNo) (imm : BitVec 8) (s : State) : Out State :=
  let i : Instr := .vSrai h ty d a imm
  withTeam i s (laneUn i h ty (regsOf ty) d a fun x => sra ty.width x imm.toNat)

/-- `v.rotli` (R156). -/
def execVRotli (h : Hdr) (ty : Ty) (d a : RegNo) (imm : BitVec 8) (s : State) : Out State :=
  let i : Instr := .vRotli h ty d a imm
  withTeam i s (laneUn i h ty (regsOf ty) d a fun x => rotl ty.width x imm.toNat)

/-- `v.min` (R155). -/
def execVMin (h : Hdr) (ty : Ty) (d a b : RegNo) (s : State) : Out State :=
  let i : Instr := .vMin h ty d a b
  withTeam i s (laneBin i h ty d a b (mapElems ty (aluMin ty)))

/-- `v.max` (R155). -/
def execVMax (h : Hdr) (ty : Ty) (d a b : RegNo) (s : State) : Out State :=
  let i : Instr := .vMax h ty d a b
  withTeam i s (laneBin i h ty d a b (mapElems ty (aluMax ty)))

/-- `v.fshl` (R156). -/
def execVFshl (h : Hdr) (d a b c : RegNo) (s : State) : Out State :=
  let i : Instr := .vFshl h d a b c
  withTeam i s (laneTri i h d a b c fun x y n => funnelL x y (n % 32))

/-- `v.fshr` (R156). -/
def execVFshr (h : Hdr) (d a b c : RegNo) (s : State) : Out State :=
  let i : Instr := .vFshr h d a b c
  withTeam i s (laneTri i h d a b c fun x y n => funnelR x y (n % 32))

/-- `v.bfx` (R156). -/
def execVBfx (h : Hdr) (ty : Ty) (d a b : RegNo) (s : State) : Out State :=
  let i : Instr := .vBfx h ty d a b
  withTeam i s (laneBin i h ty d a b (bfx ty))

/-- `v.bfi` (R156). -/
def execVBfi (h : Hdr) (d a b c : RegNo) (s : State) : Out State :=
  let i : Instr := .vBfi h d a b c
  withTeam i s (laneTri i h d a b c bfi)

/-- `v.popc` (R156): one register, even for b64. -/
def execVPopc (h : Hdr) (ty : Ty) (d a : RegNo) (s : State) : Out State :=
  let i : Instr := .vPopc h ty d a
  withTeam i s (laneUn i h ty 1 d a (popc ty.width))

/-- `v.clz` (R156): one register, even for b64. -/
def execVClz (h : Hdr) (ty : Ty) (d a : RegNo) (s : State) : Out State :=
  let i : Instr := .vClz h ty d a
  withTeam i s (laneUn i h ty 1 d a (clz ty.width))

/-- `v.ctz` (R156): one register, even for b64. -/
def execVCtz (h : Hdr) (ty : Ty) (d a : RegNo) (s : State) : Out State :=
  let i : Instr := .vCtz h ty d a
  withTeam i s (laneUn i h ty 1 d a (ctz ty.width))

/-- `v.brev` (R156). -/
def execVBrev (h : Hdr) (ty : Ty) (d a : RegNo) (s : State) : Out State :=
  let i : Instr := .vBrev h ty d a
  withTeam i s (laneUn i h ty (regsOf ty) d a (brev ty.width))

/-- `v.perm` (R157). -/
def execVPerm (h : Hdr) (d a b c : RegNo) (s : State) : Out State :=
  let i : Instr := .vPerm h d a b c
  withTeam i s (laneTri i h d a b c (perm false))

/-- `v.perms` (R157). -/
def execVPerms (h : Hdr) (d a b c : RegNo) (s : State) : Out State :=
  let i : Instr := .vPerms h d a b c
  withTeam i s (laneTri i h d a b c (perm true))

/-- `v.cmp` (R157). -/
def execVCmp (h : Hdr) (cc : Cc) (ty : Ty) (p : BitVec 4) (a b : RegNo) (s : State) : Out State :=
  let i : Instr := .vCmp h cc ty p a b
  withTeam i s (laneOp i h 0 0 [(a, regsOf ty), (b, regsOf ty)] fun _ _ vs =>
    LRes.flag p.toNat (Cc.holds cc (tyVal ty (nth vs 0)) (tyVal ty (nth vs 1))))

/-- `v.cmpi` (R157). -/
def execVCmpi (h : Hdr) (cc : Cc) (ty : Ty) (p : BitVec 4) (a : RegNo) (imm : BitVec 8) (s : State) : Out State :=
  let i : Instr := .vCmpi h cc ty p a imm
  withTeam i s (laneOp i h 0 0 [(a, regsOf ty)] fun _ _ vs =>
    LRes.flag p.toNat (Cc.holds cc (tyVal ty (nth vs 0)) (immCmp ty imm)))

/-- `v.sel` (R157): the code of the source chosen is checked (R161). -/
def execVSel (h : Hdr) (ty : Ty) (d a b : RegNo) (p : BitVec 4) (neg : Bool) (s : State) : Out State :=
  let i : Instr := .vSel h ty d a b p neg
  withTeam i s (laneWith i h 0 false d (fun t l _ => pickChecks (t.rRun (if t.pGet p.toNat l != neg then a else b).toNat (regsOf ty) l))
    fun t l => LRes.val (t.rRun (if t.pGet p.toNat l != neg then a else b).toNat (regsOf ty) l))

/-- `v.mov` (R157): the word moves with its code (R161). -/
def execVMov (h : Hdr) (ty : Ty) (d a : RegNo) (s : State) : Out State :=
  let i : Instr := .vMov h ty d a
  withTeam i s (laneWith i h 0 true d (fun _ _ _ => []) fun t l => LRes.val (t.rRun a.toNat (regsOf ty) l))

/-- `v.lid` (R157). -/
def execVLid (h : Hdr) (d : RegNo) (s : State) : Out State :=
  let i : Instr := .vLid h d
  withTeam i s (laneOp i h 0 d [] fun _ l _ => LRes.num 1 l)

/-- `v.glid` (R157). -/
def execVGlid (h : Hdr) (d : RegNo) (s : State) : Out State :=
  let i : Instr := .vGlid h d
  withTeam i s (laneOp i h 0 d [] fun t l _ => LRes.num 1 (t.lin * t.lanes + l))

/-- `v.movi` (R157). -/
def execVMovi (h : Hdr) (ty : Ty) (d : RegNo) (imm : BitVec 16) (s : State) : Out State :=
  let i : Instr := .vMovi h ty d imm
  withTeam i s (laneOp i h 0 d [] fun _ _ _ => LRes.num (regsOf ty) (immMov ty imm))

/-- `v.movhi` (R157): the low half of D is unchanged; the code that D carried is not checked (DESIGN CHOICE, log entry 72). -/
def execVMovhi (h : Hdr) (d : RegNo) (imm : BitVec 16) (s : State) : Out State :=
  let i : Instr := .vMovhi h d imm
  withTeam i s (laneOp i h 0 d [] fun t l _ =>
    LRes.num 1 (imm.toNat * 2 ^ 16 + wordsNat (t.rRun d.toNat 1 l) % 2 ^ 16))

/-- `v.cvt` (R158). -/
def execVCvt (h : Hdr) (ty ty2 : Ty) (d a : RegNo) (sat : Bool) (idx : BitVec 2) (s : State) : Out State :=
  let i : Instr := .vCvt h ty ty2 d a sat idx
  withTeam i s (laneOp i h 0 d [(a, regsOf ty2)] fun _ _ vs =>
    LRes.num (regsOf ty) (cvtInt ty ty2 sat idx.toNat (nth vs 0)))

/-- `v.lea` (R159). -/
def execVLea (h : Hdr) (ty : Ty) (d a b : RegNo) (sh : BitVec 4) (s : State) : Out State :=
  let i : Instr := .vLea h ty d a b sh
  withTeam i s (laneOp i h 0 d [(a, 2), (b, 1)] fun _ _ vs =>
    LRes.num 2 (aluLea ty (nth vs 0) (nth vs 1) sh.toNat))

/-- `v.pand` (R160). -/
def execVPand (h : Hdr) (p pa pb : BitVec 4) (s : State) : Out State :=
  let i : Instr := .vPand h p pa pb
  withTeam i s (lanePred i h p fun t l => t.pGet pa.toNat l && t.pGet pb.toNat l)

/-- `v.por` (R160). -/
def execVPor (h : Hdr) (p pa pb : BitVec 4) (s : State) : Out State :=
  let i : Instr := .vPor h p pa pb
  withTeam i s (lanePred i h p fun t l => t.pGet pa.toNat l || t.pGet pb.toNat l)

/-- `v.pxor` (R160). -/
def execVPxor (h : Hdr) (p pa pb : BitVec 4) (s : State) : Out State :=
  let i : Instr := .vPxor h p pa pb
  withTeam i s (lanePred i h p fun t l => t.pGet pa.toNat l != t.pGet pb.toNat l)

/-- `v.pandn` (R160). -/
def execVPandn (h : Hdr) (p pa pb : BitVec 4) (s : State) : Out State :=
  let i : Instr := .vPandn h p pa pb
  withTeam i s (lanePred i h p fun t l => t.pGet pa.toNat l && !t.pGet pb.toNat l)

/-- `v.pq` (R160): the predicate of the lane's group. -/
def execVPq (h : Hdr) (p : BitVec 4) (qa : BitVec 3) (s : State) : Out State :=
  let i : Instr := .vPq h p qa
  withTeam i s (lanePred i h p fun t l => t.qGet qa.toNat (l / t.group))

end Sys2Proof.Machine
end

