-- ==== Sys2Proof/Machine/LaneFloat.lean ====
section
/-! DEFINITION. The floating-point instructions of the lane engine, opcodes 0x14 to 0x20 of the lane pipe (R163 to R174). -/

namespace Sys2Proof.Machine

open Sys2Proof

/-! ### Elements and rounding -/

/-- The format of a type that an encoding of this chapter admits. -/
def fmtOf (ty : Ty) : Fmt := (tyFmt ty).getD .f32

/-- Floating-point elements of a word (R44, R164). -/
def fcount (ty : Ty) : Nat := 32 / ty.width

/-- Operates on each element: `f` gets the place and the elements of the sources, and the draw of the element. -/
def fElems (ty : Ty) (t : Team) (l : Nat) (draws : Bool) (vs : List Nat) (f : Nat → List Nat → Nat) : LRes :=
  let w := ty.width
  let n := fcount ty
  { words := natWords 1 (packElems w ((List.range n).map fun i => f (t.draw l i) (vs.map fun v => elem v i w)))
    pred := none
    draws := if draws then n * t.step else 0 }

/-- An element-wise operation that rounds an exact value once. -/
def fRound (ty : Ty) (g : Nat → List FVal → FVal) (t : Team) (l : Nat) (vs : List Nat) : LRes :=
  fElems ty t l true vs fun d xs => (fmtOf ty).round t.rm d (g t.rm (xs.map (fmtOf ty).val))

/-- An element-wise operation on encodings that rounds nothing. -/
def fBits (ty : Ty) (g : List Nat → Nat) (t : Team) (l : Nat) (vs : List Nat) : LRes := fElems ty t l false vs fun _ xs => g xs

/-- The value of a place in a list. -/
def fnth (xs : List FVal) (k : Nat) : FVal := (xs[k]?).getD (.fin false 0 0)

/-- Three sources of one register. -/
def laneF3 (i : Instr) (h : Hdr) (d a b c : RegNo) (f : Team → Nat → List Nat → LRes) : State → Team → Res :=
  laneOp i h 1 d [(a, 1), (b, 1), (c, 1)] f

/-- Two sources of one register. -/
def laneF2 (i : Instr) (h : Hdr) (d a b : RegNo) (f : Team → Nat → List Nat → LRes) : State → Team → Res :=
  laneOp i h 1 d [(a, 1), (b, 1)] f

/-- One source of one register. -/
def laneF1 (i : Instr) (h : Hdr) (d a : RegNo) (f : Team → Nat → List Nat → LRes) : State → Team → Res :=
  laneOp i h 1 d [(a, 1)] f

/-- A result of one FP32 word that takes one draw. -/
def sfuRes (f : Nat → Nat → Nat) (t : Team) (l : Nat) : LRes :=
  { words := natWords 1 (f t.rm (t.draw l 0)), pred := none, draws := t.step }

/-! ### Comparison and class (R167) -/

/-- The relation of two FP32 encodings. -/
def Fcc.holds (cc : Fcc) (a b : Nat) : Bool :=
  let x := Fmt.val .f32 a
  let y := Fmt.val .f32 b
  let un := x == .nan || y == .nan
  match cc with
  | .eq => x.eqv y
  | .ne => un || !x.eqv y
  | .lt => x.lt y
  | .le => x.lt y || x.eqv y
  | .gt => y.lt x
  | .ge => y.lt x || x.eqv y
  | .un => un

/-- The class bit of an FP32 encoding. -/
def fclassBit (a : Nat) : Nat :=
  let ex := bits a 30 23
  let fr := bits a 22 0
  let neg := a.testBit 31
  if ex = 255 then
    (if fr = 0 then (if neg then 0 else 7) else if a.testBit 22 then 9 else 8)
  else if ex = 0 then (if fr = 0 then (if neg then 3 else 4) else if neg then 2 else 5)
  else if neg then 1 else 6

/-! ### Scaled quantisation (R170) -/

/-- The largest magnitude of a destination. -/
def quantMax (ty : Ty) : Nat :=
  match ty with
  | .e4m3 => 448 | .e5m2 => 57344 | .e2m1 => 6 | _ => 127

/-- The tile scale that `v.fscl` chooses: |a| / (S · Mq) into E3M5. -/
def fsclScale (ty : Ty) (rm draw : Nat) (a b : Nat) : Nat :=
  let sup := (Fmt.val .bf16 (bits b 31 16)).mul (FVal.ofInt (quantMax ty))
  match Fmt.val .f32 a, sup with
  | .nan, _ => 0
  | _, .nan => 0
  | .inf _, .inf _ => 0
  | .inf _, .fin n _ _ => Fmt.round .e3m5 rm draw (.inf n)
  | .fin _ _ _, .inf _ => 0
  | .fin _ m e, .fin n k f =>
    if k = 0 then (if m = 0 then 0 else Fmt.round .e3m5 rm draw (.inf n))
    else
      let r := quot m e k f
      Fmt.roundFin .e3m5 rm draw n r.1 r.2.2 r.2.1

/-- Places a value in a quantised type (R47). -/
def placeQuant (ty : Ty) (rm draw : Nat) (v : FVal) (sticky : Bool) : Nat :=
  match tyFmt ty, v with
  | some f, .fin n m e => f.roundFin rm draw n m sticky e
  | some f, x => f.round rm draw x
  | none, .fin n m e =>
    let z : Int := roundToInt rm draw n m sticky e
    wrap 8 (saturate .s8 (if n then -z else z))
  | none, x => toIntTy .s8 rm draw x

/-- A quantised element of `v.fqnt`. -/
def fqntElem (ty : Ty) (rm draw : Nat) (x b : Nat) : Nat :=
  let vx := Fmt.val .f32 x
  let vs := Fmt.val .bf16 (bits b 31 16)
  let sg := vx.isNeg != vs.isNeg
  match vx, vs with
  | .nan, _ => placeQuant ty rm draw .nan false
  | _, .nan => placeQuant ty rm draw .nan false
  | .inf _, .inf _ => placeQuant ty rm draw .nan false
  | .inf _, _ => placeQuant ty rm draw (.inf sg) false
  | _, .inf _ => placeQuant ty rm draw (.fin sg 0 0) false
  | .fin _ m e, vs =>
    match vs.mul (Fmt.val .e3m5 (b % 256)) with
    | .fin _ k f =>
      if k = 0 then placeQuant ty rm draw (.fin false 0 0) false
      else
        let r := quot m e k f
        placeQuant ty rm draw (.fin sg r.1 r.2.1) r.2.2
    | _ => placeQuant ty rm draw .nan false

/-- The eight or four elements of `v.fqnt`. -/
def fqntWord (ty : Ty) (t : Team) (l : Nat) (xs : List Nat) (b : Nat) : LRes :=
  { words := natWords 1 (packElems ty.width (xs.mapIdx fun i x => fqntElem ty t.rm (t.draw l i) x b))
    pred := none
    draws := xs.length * t.step }

/-! ### Meanings -/

/-- `v.fadd` (R164). -/
def execVFadd (h : Hdr) (ty : Ty) (d a b : RegNo) (s : State) : Out State :=
  let i : Instr := .vFadd h ty d a b
  withTeam i s (laneF2 i h d a b (fRound ty fun rm xs => (fnth xs 0).add rm (fnth xs 1)))

/-- `v.fsub` (R164). -/
def execVFsub (h : Hdr) (ty : Ty) (d a b : RegNo) (s : State) : Out State :=
  let i : Instr := .vFsub h ty d a b
  withTeam i s (laneF2 i h d a b (fRound ty fun rm xs => (fnth xs 0).add rm (fnth xs 1).neg))

/-- `v.fmul` (R164). -/
def execVFmul (h : Hdr) (ty : Ty) (d a b : RegNo) (s : State) : Out State :=
  let i : Instr := .vFmul h ty d a b
  withTeam i s (laneF2 i h d a b (fRound ty fun _ xs => (fnth xs 0).mul (fnth xs 1)))

/-- `v.fma` (R164): one rounding. -/
def execVFma (h : Hdr) (ty : Ty) (d a b c : RegNo) (s : State) : Out State :=
  let i : Instr := .vFma h ty d a b c
  withTeam i s (laneF3 i h d a b c (fRound ty fun rm xs => ((fnth xs 0).mul (fnth xs 1)).add rm (fnth xs 2)))

/-- `v.fms` (R164): one rounding. -/
def execVFms (h : Hdr) (ty : Ty) (d a b c : RegNo) (s : State) : Out State :=
  let i : Instr := .vFms h ty d a b c
  withTeam i s (laneF3 i h d a b c (fRound ty fun rm xs => ((fnth xs 0).mul (fnth xs 1)).add rm (fnth xs 2).neg))

/-- `v.fnma` (R164): one rounding. -/
def execVFnma (h : Hdr) (ty : Ty) (d a b c : RegNo) (s : State) : Out State :=
  let i : Instr := .vFnma h ty d a b c
  withTeam i s (laneF3 i h d a b c (fRound ty fun rm xs => ((fnth xs 0).mul (fnth xs 1)).neg.add rm (fnth xs 2)))

/-- `v.fnms` (R164): one rounding. -/
def execVFnms (h : Hdr) (ty : Ty) (d a b c : RegNo) (s : State) : Out State :=
  let i : Instr := .vFnms h ty d a b c
  withTeam i s (laneF3 i h d a b c (fRound ty fun rm xs => ((fnth xs 0).mul (fnth xs 1)).neg.add rm (fnth xs 2).neg))

/-- `v.fmin` (R165). -/
def execVFmin (h : Hdr) (ty : Ty) (d a b : RegNo) (s : State) : Out State :=
  let i : Instr := .vFmin h ty d a b
  withTeam i s (laneF2 i h d a b (fBits ty fun xs => (fmtOf ty).minOf (nth xs 0) (nth xs 1)))

/-- `v.fmax` (R165). -/
def execVFmax (h : Hdr) (ty : Ty) (d a b : RegNo) (s : State) : Out State :=
  let i : Instr := .vFmax h ty d a b
  withTeam i s (laneF2 i h d a b (fBits ty fun xs => (fmtOf ty).maxOf (nth xs 0) (nth xs 1)))

/-- `v.fneg` (R165): the sign bit complements. -/
def execVFneg (h : Hdr) (ty : Ty) (d a : RegNo) (s : State) : Out State :=
  let i : Instr := .vFneg h ty d a
  withTeam i s (laneF1 i h d a (fBits ty fun xs => nth xs 0 ^^^ 2 ^ (ty.width - 1)))

/-- `v.fabs` (R165): the sign bit clears. -/
def execVFabs (h : Hdr) (ty : Ty) (d a : RegNo) (s : State) : Out State :=
  let i : Instr := .vFabs h ty d a
  withTeam i s (laneF1 i h d a (fBits ty fun xs => nth xs 0 % 2 ^ (ty.width - 1)))

/-- `v.fcsgn` (R165): the sign of b over the rest of a. -/
def execVFcsgn (h : Hdr) (ty : Ty) (d a b : RegNo) (s : State) : Out State :=
  let i : Instr := .vFcsgn h ty d a b
  withTeam i s (laneF2 i h d a b (fBits ty fun xs =>
    nth xs 0 % 2 ^ (ty.width - 1) + nth xs 1 / 2 ^ (ty.width - 1) * 2 ^ (ty.width - 1)))

/-- `v.fcmp` (R167). -/
def execVFcmp (h : Hdr) (cc : Fcc) (p : BitVec 4) (a b : RegNo) (s : State) : Out State :=
  let i : Instr := .vFcmp h cc p a b
  withTeam i s (laneF2 i h 0 a b fun _ _ vs => LRes.flag p.toNat (Fcc.holds cc (nth vs 0) (nth vs 1)))

/-- `v.fclass` (R167). -/
def execVFclass (h : Hdr) (d a : RegNo) (s : State) : Out State :=
  let i : Instr := .vFclass h d a
  withTeam i s (laneF1 i h d a fun _ _ vs => LRes.num 1 (2 ^ fclassBit (nth vs 0)))

/-- `v.fcvt` (R168). -/
def execVFcvt (h : Hdr) (ty ty2 : Ty) (d a : RegNo) (idx : BitVec 3) (s : State) : Out State :=
  let i : Instr := .vFcvt h ty ty2 d a idx
  withTeam i s (laneF1 i h d a fun t l vs =>
    { words := natWords 1 ((fmtOf ty).round t.rm (t.draw l 0) ((fmtOf ty2).val (elem (nth vs 0) idx.toNat ty2.width)))
      pred := none
      draws := if convRounds (fmtOf ty2) (fmtOf ty) then t.step else 0 })

/-- `v.fcvt.pk` (R168). -/
def execVFcvtPk (h : Hdr) (ty : Ty) (d a b : RegNo) (s : State) : Out State :=
  let i : Instr := .vFcvtPk h ty d a b
  withTeam i s (laneF2 i h d a b fun t l vs =>
    { words := natWords 1 ((fmtOf ty).round t.rm (t.draw l 0) (Fmt.val .f32 (nth vs 0)) +
        2 ^ 16 * (fmtOf ty).round t.rm (t.draw l 1) (Fmt.val .f32 (nth vs 1)))
      pred := none
      draws := 2 * t.step })

/-- `v.ftoi` (R169): narrow results are extended under the type. -/
def execVFtoi (h : Hdr) (ty ty2 : Ty) (d a : RegNo) (idx : BitVec 3) (s : State) : Out State :=
  let i : Instr := .vFtoi h ty ty2 d a idx
  withTeam i s (laneF1 i h d a fun t l vs =>
    let z := toIntTy ty t.rm (t.draw l 0) ((fmtOf ty2).val (elem (nth vs 0) idx.toNat ty2.width))
    { words := natWords (regsOf ty) (extend ty.isSigned ty.width (32 * regsOf ty) z)
      pred := none
      draws := t.step })

/-- `v.itof` (R169). -/
def execVItof (h : Hdr) (ty ty2 : Ty) (d a : RegNo) (s : State) : Out State :=
  let i : Instr := .vItof h ty ty2 d a
  withTeam i s (laneOp i h 1 d [(a, regsOf ty2)] fun t l vs =>
    { words := natWords 1 ((fmtOf ty).round t.rm (t.draw l 0) (FVal.ofInt (tyVal ty2 (nth vs 0)))), pred := none, draws := t.step })

/-- `v.fscl` (R170). -/
def execVFscl (h : Hdr) (ty : Ty) (d a b : RegNo) (s : State) : Out State :=
  let i : Instr := .vFscl h ty d a b
  withTeam i s (laneF2 i h d a b fun t l vs =>
    { words := natWords 1 (fsclScale ty t.rm (t.draw l 0) (nth vs 0) (nth vs 1)), pred := none, draws := t.step })

/-- `v.fqnt` (R170): a run of four or eight registers from A. -/
def execVFqnt (h : Hdr) (ty : Ty) (d a b : RegNo) (s : State) : Out State :=
  let i : Instr := .vFqnt h ty d a b
  withTeam i s (laneOp i h 1 d [(a, 32 / ty.width), (b, 1)] fun t l vs =>
    fqntWord ty t l ((List.range (32 / ty.width)).map fun k => elem (nth vs 0) k 32) (nth vs 1))

/-- `v.frcp` (R171). -/
def execVFrcp (h : Hdr) (d a : RegNo) (s : State) : Out State :=
  let i : Instr := .vFrcp h d a
  withTeam i s (laneF1 i h d a fun t l vs => sfuRes (fun rm dr => recip rm dr (Fmt.val .f32 (nth vs 0))) t l)

/-- `v.fsqrt` (R171). -/
def execVFsqrt (h : Hdr) (d a : RegNo) (s : State) : Out State :=
  let i : Instr := .vFsqrt h d a
  withTeam i s (laneF1 i h d a fun t l vs => sfuRes (fun rm dr => fsqrt rm dr (Fmt.val .f32 (nth vs 0))) t l)

/-- `v.frsq` (R171). -/
def execVFrsq (h : Hdr) (d a : RegNo) (s : State) : Out State :=
  let i : Instr := .vFrsq h d a
  withTeam i s (laneF1 i h d a fun t l vs => sfuRes (fun rm dr => frsqrt rm dr (Fmt.val .f32 (nth vs 0))) t l)

/-- `v.fexp2` (R172, R173). -/
def execVFexp2 (h : Hdr) (d a : RegNo) (s : State) : Out State :=
  let i : Instr := .vFexp2 h d a
  withTeam i s (laneF1 i h d a fun t l vs => sfuRes (fun rm dr => fexp2 rm dr (BitVec.ofNat 32 (nth vs 0))) t l)

/-- `v.flog2` (R172, R173). -/
def execVFlog2 (h : Hdr) (d a : RegNo) (s : State) : Out State :=
  let i : Instr := .vFlog2 h d a
  withTeam i s (laneF1 i h d a fun t l vs => sfuRes (fun rm dr => flog2 rm dr (BitVec.ofNat 32 (nth vs 0))) t l)

/-- `v.fsin` (R172, R173). -/
def execVFsin (h : Hdr) (d a : RegNo) (s : State) : Out State :=
  let i : Instr := .vFsin h d a
  withTeam i s (laneF1 i h d a fun t l vs => sfuRes (fun rm dr => fsinOf false 2 rm dr (BitVec.ofNat 32 (nth vs 0))) t l)

/-- `v.fcos` (R172, R173). -/
def execVFcos (h : Hdr) (d a : RegNo) (s : State) : Out State :=
  let i : Instr := .vFcos h d a
  withTeam i s (laneF1 i h d a fun t l vs => sfuRes (fun rm dr => fsinOf true 3 rm dr (BitVec.ofNat 32 (nth vs 0))) t l)

/-- `v.frr` (R174). -/
def execVFrr (h : Hdr) (d a : RegNo) (s : State) : Out State :=
  let i : Instr := .vFrr h d a
  withTeam i s (laneF1 i h d a fun t l vs => sfuRes (fun rm dr => frr rm dr (BitVec.ofNat 32 (nth vs 0))) t l)

/-- `v.frr.turn` (R174): exact, no draw. -/
def execVFrrTurn (h : Hdr) (d a : RegNo) (s : State) : Out State :=
  let i : Instr := .vFrrTurn h d a
  withTeam i s (laneF1 i h d a fun _ _ vs => LRes.num 1 (frrTurn (BitVec.ofNat 32 (nth vs 0))))

/-- `v.fsincos` (R173): the sine in D, the cosine in D+1; the sine draws first. -/
def execVFsincos (h : Hdr) (d a : RegNo) (s : State) : Out State :=
  let i : Instr := .vFsincos h d a
  withTeam i s (laneF1 i h d a fun t l vs =>
    let x := BitVec.ofNat 32 (nth vs 0)
    { words := natWords 2 (fsinOf false 4 t.rm (t.draw l 0) x + 2 ^ 32 * fsinOf true 5 t.rm (t.draw l 1) x), pred := none, draws := 2 * t.step })

/-- `v.fdot2` (R166): the exact sum of C and two products, rounded once. -/
def execVFdot2 (h : Hdr) (ty2 : Ty) (d a b c : RegNo) (s : State) : Out State :=
  let i : Instr := .vFdot2 h ty2 d a b c
  withTeam i s (laneF3 i h d a b c fun t l vs =>
    let x := fun (k : Nat) => (fmtOf ty2).val (elem (nth vs 0) k ty2.width)
    let y := fun (k : Nat) => (fmtOf ty2).val (elem (nth vs 1) k ty2.width)
    let z := ((Fmt.val .f32 (nth vs 2)).add t.rm ((x 0).mul (y 0))).add t.rm ((x 1).mul (y 1))
    { words := natWords 1 (Fmt.round .f32 t.rm (t.draw l 0) z), pred := none, draws := t.step })

end Sys2Proof.Machine
end

