-- ==== Sys2Proof/Machine/CrossLane.lean ====
section
/-! DEFINITION. The cross-lane instructions and the keyed generator, opcodes 0x22 to 0x28 of the lane pipe (R62, R63, R175 to R181). -/

namespace Sys2Proof.Machine

open Sys2Proof

/-! ### Moves (R175) -/

/-- A move: each lane takes the words of the lane of its group at offset `src`, its own where `src` gives none. The words' codes move with
them and are checked on arrival (R182). -/
def laneMove (i : Instr) (h : Hdr) (ty : Ty) (d a : RegNo) (bad : Team → Nat → Bool) (src : Team → Nat → Nat → Option Nat) : State → Team → Res :=
  let from_ := fun (t : Team) (l : Nat) =>
    match src t l (l % t.group) with
    | some j => l / t.group * t.group + j
    | none => l
  laneWith i h 1 false d (fun t l ws => (if bad t l then plainChecks true ws else []) ++ operandChecks (t.rRun a.toNat (regsOf ty) (from_ t l))) fun t l =>
    LRes.val (t.rRun a.toNat (regsOf ty) (from_ t l))

/-- No further source is checked. -/
def noBad : Team → Nat → Bool := fun _ _ => false

/-- The lanes of a lane's group that the instruction executes for. -/
def Team.peers (t : Team) (h : Hdr) (l : Nat) : List Nat := (t.lanesFor h).filter fun j => j / t.group == l / t.group

/-! ### Matches and votes (R176, R177) -/

/-- The group mask of the offsets of lanes. -/
def Team.offsetMask (t : Team) (ls : List Nat) : Nat := (ls.map fun j => 2 ^ (j % t.group)).sum

/-! ### Reductions and scans (R62, R63, R178, R179) -/

/-- A node of the pairwise tree: its value, its lowest lane, the draws that lane has taken, and the draws of the other lanes that have. -/
structure RedNode where
  val : Nat
  low : Nat
  cnt : Nat
  rest : List (Nat × Nat)
  deriving DecidableEq, Repr

/-- Joins two nodes; the draw of the step comes from the lowest lane. -/
def RedNode.join (draw : Nat → Nat → Nat) (steps : Bool) (f : Nat → Nat → Nat → Nat) : Option RedNode → Option RedNode → Option RedNode
  | none, y => y
  | x, none => x
  | some x, some y =>
    some { val := f (draw x.low x.cnt) x.val y.val, low := x.low, cnt := if steps then x.cnt + 1 else x.cnt,
           rest := x.rest ++ (y.low, y.cnt) :: y.rest }

/-- The node of level `k` whose lowest lane place is `lo`. -/
def redTree (draw : Nat → Nat → Nat) (steps : Bool) (f : Nat → Nat → Nat → Nat) (leaf : Nat → Option Nat) : Nat → Nat → Option RedNode
  | 0, lo => (leaf lo).map fun v => { val := v, low := lo, cnt := 0, rest := [] }
  | k + 1, lo =>
    RedNode.join draw steps f (redTree draw steps f leaf k lo) (redTree draw steps f leaf k (lo + 2 ^ k))

/-- The draws that a node's lane took. -/
def RedNode.drawsOf (n : RedNode) (l : Nat) : Nat :=
  if n.low = l then n.cnt else match n.rest.find? fun p => p.1 == l with | some p => p.2 | none => 0

/-- The word at a node of the tree, as its checks see it, and the checks of the nodes under it and of itself (R189). -/
def redChecks (draw : Nat → Nat → Nat) (steps : Bool) (f : Nat → Nat → Nat → Nat) (cls : NodeCls) (leaf : Nat → Option RWord) :
    Nat → Nat → Option RWord × List WordCheck
  | 0, lo => (leaf lo, [])
  | k + 1, lo =>
    let l := redChecks draw steps f cls leaf k lo
    let r := redChecks draw steps f cls leaf k (lo + 2 ^ k)
    match l.1, r.1 with
    | some x, some y =>
      let w := RWord.ofNat (((redTree draw steps f (fun j => (leaf j).map fun w => w.val.toNat) (k + 1) lo).map fun n => n.val).getD 0)
      (some w, l.2 ++ r.2 ++ [cls.check x y w])
    | some x, none => (some x, l.2)
    | none, y => (y, r.2)

/-- A reduction of A over the group's lanes (R178), checked node by node; a lane alone in its group takes its own word, whose code is checked. -/
def laneRed (i : Instr) (h : Hdr) (d a : RegNo) (steps : Bool) (cls : NodeCls) (f : Team → Nat → Nat → Nat → Nat) : State → Team → Res :=
  let leaf := fun (t : Team) (l j : Nat) => if (t.peers h l).contains j then (t.rRun a.toNat 1 j).head? else none
  laneWith i h 1 false d (fun t l ws =>
    let r := redChecks t.draw (steps && t.rm == 5) (f t) cls (leaf t l) (log2 t.group) (l / t.group * t.group)
    if (t.peers h l).length ≤ 1 then operandChecks (t.rRun a.toNat 1 l)
    else ws.map (fun w => { bad := false, word := some w.val, pred := none }) ++ r.2) fun t l =>
    match redTree t.draw (steps && t.rm == 5) (f t) (fun j => (leaf t l j).map fun w => w.val.toNat) (log2 t.group) (l / t.group * t.group) with
    | some n => { words := natWords 1 n.val, pred := none, draws := n.drawsOf l }
    | none => LRes.num 1 0

/-- The values that a scan gives the lanes of a group, in ascending order (R179). -/
def scanList (f : Nat → Nat → Nat → Nat) (val : Nat → Nat) : Option Nat → List Nat → List (Nat × Nat)
  | _, [] => []
  | none, l :: ls => (l, val l) :: scanList f val (some (val l)) ls
  | some x, l :: ls => (l, f l x (val l)) :: scanList f val (some (f l x (val l))) ls

/-- The checks of the nodes of a chain that begins with a word (R189). -/
def chainChecks (f : Nat → Nat → Nat → Nat) (cls : NodeCls) (val : Nat → RWord) : RWord → List Nat → List WordCheck
  | _, [] => []
  | x, l :: ls =>
    let w := RWord.ofNat (f l x.val.toNat (val l).val.toNat)
    cls.check x (val l) w :: chainChecks f cls val w ls

/-- An inclusive scan of A over the group's lanes (R179), checked node by node; `f` gets the lane that draws. The first lane takes its own word,
whose code is checked. -/
def laneScan (i : Instr) (h : Hdr) (d a : RegNo) (steps : Bool) (cls : NodeCls) (f : Team → Nat → Nat → Nat → Nat) : State → Team → Res :=
  let word := fun (t : Team) (j : Nat) => ((t.rRun a.toNat 1 j).head?).getD RWord.zero
  laneWith i h 1 false d (fun t l ws =>
    match (t.peers h l).filter fun j => decide (j ≤ l) with
    | [] => []
    | [j] => operandChecks [word t j]
    | j :: js => ws.map (fun w => { bad := false, word := some w.val, pred := none }) ++ chainChecks (f t) cls (word t) (word t j) js) fun t l =>
    let ps := t.peers h l
    let r := scanList (f t) (fun j => wordsNat (t.rRun a.toNat 1 j)) none ps
    { words := natWords 1 (match r.find? fun p => p.1 == l with | some p => p.2 | none => 0)
      pred := none
      draws := if steps && ps.head? != some l then t.step else 0 }

/-- The nodes of a sum (R182). -/
def sumCls (ty : Ty) : NodeCls := if ty = .f32 then .fsig else .sum

/-- The sum of a type: FP32 rounds with a draw, integers wrap. -/
def redSum (ty : Ty) (t : Team) (draw x y : Nat) : Nat :=
  if ty = .f32 then Fmt.round .f32 t.rm draw ((Fmt.val .f32 x).add t.rm (Fmt.val .f32 y)) else aluAdd ty x y

/-- The lesser of two values of a type. -/
def redMin (ty : Ty) (x y : Nat) : Nat := if ty = .f32 then Fmt.minOf .f32 x y else aluMin ty x y
/-- The greater of two values of a type. -/
def redMax (ty : Ty) (x y : Nat) : Nat := if ty = .f32 then Fmt.maxOf .f32 x y else aluMax ty x y

/-! ### Meanings -/

/-- `v.shfl` (R175): the offset is B modulo G. -/
def execVShfl (h : Hdr) (ty : Ty) (d a b : RegNo) (s : State) : Out State :=
  let i : Instr := .vShfl h ty d a b
  withTeam i s (laneMove i h ty d a (fun t l => !goodRun (t.rRun b.toNat 1 l)) fun t l _ =>
    some (wordsNat (t.rRun b.toNat 1 l) % t.group))

/-- `v.shup` (R175). -/
def execVShup (h : Hdr) (ty : Ty) (d a c : RegNo) (s : State) : Out State :=
  let i : Instr := .vShup h ty d a c
  withTeam i s (laneMove i h ty d a noBad fun _ _ o => if c.toNat ≤ o then some (o - c.toNat) else none)

/-- `v.shdn` (R175). -/
def execVShdn (h : Hdr) (ty : Ty) (d a c : RegNo) (s : State) : Out State :=
  let i : Instr := .vShdn h ty d a c
  withTeam i s (laneMove i h ty d a noBad fun t _ o => if o + c.toNat < t.group then some (o + c.toNat) else none)

/-- `v.xswz` (R175). -/
def execVXswz (h : Hdr) (ty : Ty) (d a c : RegNo) (s : State) : Out State :=
  let i : Instr := .vXswz h ty d a c
  withTeam i s (laneMove i h ty d a noBad fun _ _ o => some (o ^^^ c.toNat))

/-- `v.bcast` (R175). -/
def execVBcast (h : Hdr) (ty : Ty) (d a c : RegNo) (s : State) : Out State :=
  let i : Instr := .vBcast h ty d a c
  withTeam i s (laneMove i h ty d a noBad fun _ _ _ => some c.toNat)

/-- `v.bcastf` (R175): the lowest lane of the group that takes part. -/
def execVBcastf (h : Hdr) (ty : Ty) (d a : RegNo) (s : State) : Out State :=
  let i : Instr := .vBcastf h ty d a
  withTeam i s (laneMove i h ty d a noBad fun t l _ => (t.peers h l).head?.map fun j => j % t.group)

/-- `v.match` (R176). -/
def execVMatch (h : Hdr) (ty : Ty) (d a : RegNo) (s : State) : Out State :=
  let i : Instr := .vMatch h ty d a
  withTeam i s (laneWith i h 1 false d (fun t l => plainChecks (!(t.peers h l).all fun j => goodRun (t.rRun a.toNat (regsOf ty) j))) fun t l =>
    let v := fun (j : Nat) => wordsNat (t.rRun a.toNat (regsOf ty) j)
    LRes.num 2 (t.offsetMask ((t.peers h l).filter fun j => v j == v l)))

/-- `v.vote.any` (R177). -/
def execVVoteAny (h : Hdr) (p pa : BitVec 4) (s : State) : Out State :=
  let i : Instr := .vVoteAny h p pa
  withTeam i s (laneOp i h 1 0 [] fun t l _ => LRes.flag p.toNat ((t.peers h l).any fun j => t.pGet pa.toNat j))

/-- `v.vote.all` (R177). -/
def execVVoteAll (h : Hdr) (p pa : BitVec 4) (s : State) : Out State :=
  let i : Instr := .vVoteAll h p pa
  withTeam i s (laneOp i h 1 0 [] fun t l _ => LRes.flag p.toNat ((t.peers h l).all fun j => t.pGet pa.toNat j))

/-- `v.ballot` (R177). -/
def execVBallot (h : Hdr) (d : RegNo) (pa : BitVec 4) (s : State) : Out State :=
  let i : Instr := .vBallot h d pa
  withTeam i s (laneOp i h 1 d [] fun t l _ =>
    LRes.num 2 (t.offsetMask ((t.peers h l).filter fun j => t.pGet pa.toNat j)))

/-- `v.red.add` (R62, R178). -/
def execVRedAdd (h : Hdr) (ty : Ty) (d a : RegNo) (s : State) : Out State :=
  let i : Instr := .vRedAdd h ty d a
  withTeam i s (laneRed i h d a (ty == .f32) (sumCls ty) fun t dr x y => redSum ty t dr x y)

/-- `v.red.min` (R178). -/
def execVRedMin (h : Hdr) (ty : Ty) (d a : RegNo) (s : State) : Out State :=
  let i : Instr := .vRedMin h ty d a
  withTeam i s (laneRed i h d a false .sel fun _ _ x y => redMin ty x y)

/-- `v.red.max` (R178). -/
def execVRedMax (h : Hdr) (ty : Ty) (d a : RegNo) (s : State) : Out State :=
  let i : Instr := .vRedMax h ty d a
  withTeam i s (laneRed i h d a false .sel fun _ _ x y => redMax ty x y)

/-- `v.red.and` (R178). -/
def execVRedAnd (h : Hdr) (d a : RegNo) (s : State) : Out State :=
  let i : Instr := .vRedAnd h d a
  withTeam i s (laneRed i h d a false (.logic 4) fun _ _ x y => x &&& y)

/-- `v.red.or` (R178). -/
def execVRedOr (h : Hdr) (d a : RegNo) (s : State) : Out State :=
  let i : Instr := .vRedOr h d a
  withTeam i s (laneRed i h d a false (.logic 4) fun _ _ x y => x ||| y)

/-- `v.red.xor` (R178). -/
def execVRedXor (h : Hdr) (d a : RegNo) (s : State) : Out State :=
  let i : Instr := .vRedXor h d a
  withTeam i s (laneRed i h d a false (.logic 1) fun _ _ x y => x ^^^ y)

/-- `v.scan.add` (R63, R179). -/
def execVScanAdd (h : Hdr) (ty : Ty) (d a : RegNo) (s : State) : Out State :=
  let i : Instr := .vScanAdd h ty d a
  withTeam i s (laneScan i h d a (ty == .f32) (sumCls ty) fun t l x y => redSum ty t (t.draw l 0) x y)

/-- `v.scan.min` (R179). -/
def execVScanMin (h : Hdr) (ty : Ty) (d a : RegNo) (s : State) : Out State :=
  let i : Instr := .vScanMin h ty d a
  withTeam i s (laneScan i h d a false .sel fun _ _ x y => redMin ty x y)

/-- `v.scan.max` (R179). -/
def execVScanMax (h : Hdr) (ty : Ty) (d a : RegNo) (s : State) : Out State :=
  let i : Instr := .vScanMax h ty d a
  withTeam i s (laneScan i h d a false .sel fun _ _ x y => redMax ty x y)

/-- `v.scan.addx` (R179): the first lane receives 0. -/
def execVScanAddx (h : Hdr) (ty : Ty) (d a : RegNo) (s : State) : Out State :=
  let i : Instr := .vScanAddx h ty d a
  let word := fun (t : Team) (j : Nat) => ((t.rRun a.toNat 1 j).head?).getD RWord.zero
  withTeam i s (laneWith i h 1 false d (fun t l ws =>
      ws.map (fun w => { bad := false, word := some w.val, pred := none }) ++
        chainChecks (fun _ x y => x + y) .sum (word t) RWord.zero ((t.peers h l).filter fun j => decide (j < l))) fun t l =>
    LRes.num 1 ((((t.peers h l).filter fun j => decide (j < l)).map fun j => wordsNat (t.rRun a.toNat 1 j)).sum))

/-- `v.kgen` (R180, R181). -/
def execVKgen (h : Hdr) (d a b c : RegNo) (s : State) : Out State :=
  let i : Instr := .vKgen h d a b c
  withTeam i s (laneOp i h 1 d [(a, 2), (b, 2), (c, 1)] fun _ _ vs =>
    LRes.num 1 (kg (BitVec.ofNat 64 (nth vs 0)) (nth vs 2) (BitVec.ofNat 64 (nth vs 1))).toNat)

end Sys2Proof.Machine
end

