-- ==== Sys2Proof/Machine/Dispatch.lean ====
section
/-! DEFINITION. The meaning of every instruction and event: one arm for each constructor of `Instr`. -/

namespace Sys2Proof.Machine

open Sys2Proof

/-- Executes an instruction word of the issuing team, or an event. -/
def exec (i : Instr) (s : State) : Host.Outcome State Fault Refusal :=
  match i with
  | .sAdd h ty d a b => Sys2Proof.Machine.execSAdd h ty d a b s
  | .sSub h ty d a b => Sys2Proof.Machine.execSSub h ty d a b s
  | .sMul h ty d a b => Sys2Proof.Machine.execSMul h ty d a b s
  | .sMulh h ty d a b => Sys2Proof.Machine.execSMulh h ty d a b s
  | .sAnd h ty d a b => Sys2Proof.Machine.execSAnd h ty d a b s
  | .sOr h ty d a b => Sys2Proof.Machine.execSOr h ty d a b s
  | .sXor h ty d a b => Sys2Proof.Machine.execSXor h ty d a b s
  | .sAndn h ty d a b => Sys2Proof.Machine.execSAndn h ty d a b s
  | .sShl h ty d a b => Sys2Proof.Machine.execSShl h ty d a b s
  | .sShr h ty d a b => Sys2Proof.Machine.execSShr h ty d a b s
  | .sSra h ty d a b => Sys2Proof.Machine.execSSra h ty d a b s
  | .sMin h ty d a b => Sys2Proof.Machine.execSMin h ty d a b s
  | .sMax h ty d a b => Sys2Proof.Machine.execSMax h ty d a b s
  | .sLea h ty d a b sh => Sys2Proof.Machine.execSLea h ty d a b sh s
  | .sAddi h ty d a imm => Sys2Proof.Machine.execSAddi h ty d a imm s
  | .sAndi h ty d a imm => Sys2Proof.Machine.execSAndi h ty d a imm s
  | .sOri h ty d a imm => Sys2Proof.Machine.execSOri h ty d a imm s
  | .sXori h ty d a imm => Sys2Proof.Machine.execSXori h ty d a imm s
  | .sShli h ty d a imm => Sys2Proof.Machine.execSShli h ty d a imm s
  | .sShri h ty d a imm => Sys2Proof.Machine.execSShri h ty d a imm s
  | .sSrai h ty d a imm => Sys2Proof.Machine.execSSrai h ty d a imm s
  | .sMovi h ty d imm => Sys2Proof.Machine.execSMovi h ty d imm s
  | .sMovhi h d imm => Sys2Proof.Machine.execSMovhi h d imm s
  | .sCmp h cc ty q a b => Sys2Proof.Machine.execSCmp h cc ty q a b s
  | .sCmpi h cc ty q a imm => Sys2Proof.Machine.execSCmpi h cc ty q a imm s
  | .sSel h ty d a b q neg => Sys2Proof.Machine.execSSel h ty d a b q neg s
  | .sMov h ty d a b => Sys2Proof.Machine.execSMov h ty d a b s
  | .sVrd h ty d a b c => Sys2Proof.Machine.execSVrd h ty d a b c s
  | .sVrdf h ty d a b => Sys2Proof.Machine.execSVrdf h ty d a b s
  | .sQand h q qa qb => Sys2Proof.Machine.execSQand h q qa qb s
  | .sQor h q qa qb => Sys2Proof.Machine.execSQor h q qa qb s
  | .sQxor h q qa qb => Sys2Proof.Machine.execSQxor h q qa qb s
  | .sQany h q pa => Sys2Proof.Machine.execSQany h q pa s
  | .sQall h q pa => Sys2Proof.Machine.execSQall h q pa s
  | .sJmp h off rcv => Sys2Proof.Machine.execSJmp h off rcv s
  | .sBr h sel off rcv => Sys2Proof.Machine.execSBr h sel off rcv s
  | .sBrAll h sel off rcv => Sys2Proof.Machine.execSBrAll h sel off rcv s
  | .sBrAny h sel off rcv => Sys2Proof.Machine.execSBrAny h sel off rcv s
  | .sLoop h n off rcv => Sys2Proof.Machine.execSLoop h n off rcv s
  | .sCall h off rcv => Sys2Proof.Machine.execSCall h off rcv s
  | .sJr h n rcv => Sys2Proof.Machine.execSJr h n rcv s
  | .sCallr h n rcv => Sys2Proof.Machine.execSCallr h n rcv s
  | .sBtab h idx rcv targets => Sys2Proof.Machine.execSBtab h idx rcv targets s
  | .sBtabc h idx rcv targets => Sys2Proof.Machine.execSBtabc h idx rcv targets s
  | .sExit h => Sys2Proof.Machine.execSExit h s
  | .sNop h => Sys2Proof.Machine.execSNop h s
  | .sBarSync h d bar => Sys2Proof.Machine.execSBarSync h d bar s
  | .sBarArr h d bar c => Sys2Proof.Machine.execSBarArr h d bar c s
  | .sBarWait h d bar => Sys2Proof.Machine.execSBarWait h d bar s
  | .sSleepu h a => Sys2Proof.Machine.execSSleepu h a s
  | .sWait h d a => Sys2Proof.Machine.execSWait h d a s
  | .sPoll h d a => Sys2Proof.Machine.execSPoll h d a s
  | .sWaitall h => Sys2Proof.Machine.execSWaitall h s
  | .sFenceAcq h => Sys2Proof.Machine.execSFenceAcq h s
  | .sFenceRel h => Sys2Proof.Machine.execSFenceRel h s
  | .sFenceAcqrel h => Sys2Proof.Machine.execSFenceAcqrel h s
  | .sFenceSc h => Sys2Proof.Machine.execSFenceSc h s
  | .sFmt h imm => Sys2Proof.Machine.execSFmt h imm s
  | .sCsrr h d csr => Sys2Proof.Machine.execSCsrr h d csr s
  | .sCsrw h d csr => Sys2Proof.Machine.execSCsrw h d csr s
  | .sCsrs h d csr => Sys2Proof.Machine.execSCsrs h d csr s
  | .sCsrc h d csr => Sys2Proof.Machine.execSCsrc h d csr s
  | .sSeed h n a => Sys2Proof.Machine.execSSeed h n a s
  | .sSeedmix h n a => Sys2Proof.Machine.execSSeedmix h n a s
  | .sCfetch h d a n => Sys2Proof.Machine.execSCfetch h d a n s
  | .sCfetchReload h d a n => Sys2Proof.Machine.execSCfetchReload h d a n s
  | .sCstat h d n => Sys2Proof.Machine.execSCstat h d n s
  | .sJmpf h target => Sys2Proof.Machine.execSJmpf h target s
  | .sCfence h => Sys2Proof.Machine.execSCfence h s
  | .sTrap h code => Sys2Proof.Machine.execSTrap h code s
  | .sBrk h code => Sys2Proof.Machine.execSBrk h code s
  | .sRth h => Sys2Proof.Machine.execSRth h s
  | .vAdd h ty d a b => Sys2Proof.Machine.execVAdd h ty d a b s
  | .vAdds h ty d a b => Sys2Proof.Machine.execVAdds h ty d a b s
  | .vSub h ty d a b => Sys2Proof.Machine.execVSub h ty d a b s
  | .vSubs h ty d a b => Sys2Proof.Machine.execVSubs h ty d a b s
  | .vMul h ty d a b => Sys2Proof.Machine.execVMul h ty d a b s
  | .vMulh h ty d a b => Sys2Proof.Machine.execVMulh h ty d a b s
  | .vMulw h ty d a b => Sys2Proof.Machine.execVMulw h ty d a b s
  | .vMad h ty d a b c => Sys2Proof.Machine.execVMad h ty d a b c s
  | .vMadh h ty d a b c => Sys2Proof.Machine.execVMadh h ty d a b c s
  | .vMadw h ty d a b c => Sys2Proof.Machine.execVMadw h ty d a b c s
  | .vDot4 h ty ty2 d a b c => Sys2Proof.Machine.execVDot4 h ty ty2 d a b c s
  | .vDot4s h ty ty2 d a b c => Sys2Proof.Machine.execVDot4s h ty ty2 d a b c s
  | .vAnd h ty d a b => Sys2Proof.Machine.execVAnd h ty d a b s
  | .vOr h ty d a b => Sys2Proof.Machine.execVOr h ty d a b s
  | .vXor h ty d a b => Sys2Proof.Machine.execVXor h ty d a b s
  | .vAndn h ty d a b => Sys2Proof.Machine.execVAndn h ty d a b s
  | .vShl h ty d a b => Sys2Proof.Machine.execVShl h ty d a b s
  | .vShr h ty d a b => Sys2Proof.Machine.execVShr h ty d a b s
  | .vSra h ty d a b => Sys2Proof.Machine.execVSra h ty d a b s
  | .vRotl h ty d a b => Sys2Proof.Machine.execVRotl h ty d a b s
  | .vRotr h ty d a b => Sys2Proof.Machine.execVRotr h ty d a b s
  | .vAddi h ty d a imm => Sys2Proof.Machine.execVAddi h ty d a imm s
  | .vAddis h ty d a imm => Sys2Proof.Machine.execVAddis h ty d a imm s
  | .vAndi h ty d a imm => Sys2Proof.Machine.execVAndi h ty d a imm s
  | .vOri h ty d a imm => Sys2Proof.Machine.execVOri h ty d a imm s
  | .vXori h ty d a imm => Sys2Proof.Machine.execVXori h ty d a imm s
  | .vShli h ty d a imm => Sys2Proof.Machine.execVShli h ty d a imm s
  | .vShri h ty d a imm => Sys2Proof.Machine.execVShri h ty d a imm s
  | .vSrai h ty d a imm => Sys2Proof.Machine.execVSrai h ty d a imm s
  | .vRotli h ty d a imm => Sys2Proof.Machine.execVRotli h ty d a imm s
  | .vMin h ty d a b => Sys2Proof.Machine.execVMin h ty d a b s
  | .vMax h ty d a b => Sys2Proof.Machine.execVMax h ty d a b s
  | .vFshl h d a b c => Sys2Proof.Machine.execVFshl h d a b c s
  | .vFshr h d a b c => Sys2Proof.Machine.execVFshr h d a b c s
  | .vBfx h ty d a b => Sys2Proof.Machine.execVBfx h ty d a b s
  | .vBfi h d a b c => Sys2Proof.Machine.execVBfi h d a b c s
  | .vPopc h ty d a => Sys2Proof.Machine.execVPopc h ty d a s
  | .vClz h ty d a => Sys2Proof.Machine.execVClz h ty d a s
  | .vCtz h ty d a => Sys2Proof.Machine.execVCtz h ty d a s
  | .vBrev h ty d a => Sys2Proof.Machine.execVBrev h ty d a s
  | .vPerm h d a b c => Sys2Proof.Machine.execVPerm h d a b c s
  | .vPerms h d a b c => Sys2Proof.Machine.execVPerms h d a b c s
  | .vCmp h cc ty p a b => Sys2Proof.Machine.execVCmp h cc ty p a b s
  | .vCmpi h cc ty p a imm => Sys2Proof.Machine.execVCmpi h cc ty p a imm s
  | .vSel h ty d a b p neg => Sys2Proof.Machine.execVSel h ty d a b p neg s
  | .vMov h ty d a => Sys2Proof.Machine.execVMov h ty d a s
  | .vLid h d => Sys2Proof.Machine.execVLid h d s
  | .vGlid h d => Sys2Proof.Machine.execVGlid h d s
  | .vMovi h ty d imm => Sys2Proof.Machine.execVMovi h ty d imm s
  | .vMovhi h d imm => Sys2Proof.Machine.execVMovhi h d imm s
  | .vCvt h ty ty2 d a sat idx => Sys2Proof.Machine.execVCvt h ty ty2 d a sat idx s
  | .vLea h ty d a b sh => Sys2Proof.Machine.execVLea h ty d a b sh s
  | .vPand h p pa pb => Sys2Proof.Machine.execVPand h p pa pb s
  | .vPor h p pa pb => Sys2Proof.Machine.execVPor h p pa pb s
  | .vPxor h p pa pb => Sys2Proof.Machine.execVPxor h p pa pb s
  | .vPandn h p pa pb => Sys2Proof.Machine.execVPandn h p pa pb s
  | .vPq h p qa => Sys2Proof.Machine.execVPq h p qa s
  | .vFadd h ty d a b => Sys2Proof.Machine.execVFadd h ty d a b s
  | .vFsub h ty d a b => Sys2Proof.Machine.execVFsub h ty d a b s
  | .vFmul h ty d a b => Sys2Proof.Machine.execVFmul h ty d a b s
  | .vFma h ty d a b c => Sys2Proof.Machine.execVFma h ty d a b c s
  | .vFms h ty d a b c => Sys2Proof.Machine.execVFms h ty d a b c s
  | .vFnma h ty d a b c => Sys2Proof.Machine.execVFnma h ty d a b c s
  | .vFnms h ty d a b c => Sys2Proof.Machine.execVFnms h ty d a b c s
  | .vFmin h ty d a b => Sys2Proof.Machine.execVFmin h ty d a b s
  | .vFmax h ty d a b => Sys2Proof.Machine.execVFmax h ty d a b s
  | .vFneg h ty d a => Sys2Proof.Machine.execVFneg h ty d a s
  | .vFabs h ty d a => Sys2Proof.Machine.execVFabs h ty d a s
  | .vFcsgn h ty d a b => Sys2Proof.Machine.execVFcsgn h ty d a b s
  | .vFcmp h cc p a b => Sys2Proof.Machine.execVFcmp h cc p a b s
  | .vFclass h d a => Sys2Proof.Machine.execVFclass h d a s
  | .vFcvt h ty ty2 d a idx => Sys2Proof.Machine.execVFcvt h ty ty2 d a idx s
  | .vFcvtPk h ty d a b => Sys2Proof.Machine.execVFcvtPk h ty d a b s
  | .vFtoi h ty ty2 d a idx => Sys2Proof.Machine.execVFtoi h ty ty2 d a idx s
  | .vItof h ty ty2 d a => Sys2Proof.Machine.execVItof h ty ty2 d a s
  | .vFscl h ty d a b => Sys2Proof.Machine.execVFscl h ty d a b s
  | .vFqnt h ty d a b => Sys2Proof.Machine.execVFqnt h ty d a b s
  | .vFrcp h d a => Sys2Proof.Machine.execVFrcp h d a s
  | .vFsqrt h d a => Sys2Proof.Machine.execVFsqrt h d a s
  | .vFrsq h d a => Sys2Proof.Machine.execVFrsq h d a s
  | .vFexp2 h d a => Sys2Proof.Machine.execVFexp2 h d a s
  | .vFlog2 h d a => Sys2Proof.Machine.execVFlog2 h d a s
  | .vFrr h d a => Sys2Proof.Machine.execVFrr h d a s
  | .vFrrTurn h d a => Sys2Proof.Machine.execVFrrTurn h d a s
  | .vFsin h d a => Sys2Proof.Machine.execVFsin h d a s
  | .vFcos h d a => Sys2Proof.Machine.execVFcos h d a s
  | .vFsincos h d a => Sys2Proof.Machine.execVFsincos h d a s
  | .vFdot2 h ty2 d a b c => Sys2Proof.Machine.execVFdot2 h ty2 d a b c s
  | .vShfl h ty d a b => Sys2Proof.Machine.execVShfl h ty d a b s
  | .vShup h ty d a c => Sys2Proof.Machine.execVShup h ty d a c s
  | .vShdn h ty d a c => Sys2Proof.Machine.execVShdn h ty d a c s
  | .vXswz h ty d a c => Sys2Proof.Machine.execVXswz h ty d a c s
  | .vBcast h ty d a c => Sys2Proof.Machine.execVBcast h ty d a c s
  | .vBcastf h ty d a => Sys2Proof.Machine.execVBcastf h ty d a s
  | .vMatch h ty d a => Sys2Proof.Machine.execVMatch h ty d a s
  | .vVoteAny h p pa => Sys2Proof.Machine.execVVoteAny h p pa s
  | .vVoteAll h p pa => Sys2Proof.Machine.execVVoteAll h p pa s
  | .vBallot h d pa => Sys2Proof.Machine.execVBallot h d pa s
  | .vRedAdd h ty d a => Sys2Proof.Machine.execVRedAdd h ty d a s
  | .vRedMin h ty d a => Sys2Proof.Machine.execVRedMin h ty d a s
  | .vRedMax h ty d a => Sys2Proof.Machine.execVRedMax h ty d a s
  | .vRedAnd h d a => Sys2Proof.Machine.execVRedAnd h d a s
  | .vRedOr h d a => Sys2Proof.Machine.execVRedOr h d a s
  | .vRedXor h d a => Sys2Proof.Machine.execVRedXor h d a s
  | .vScanAdd h ty d a => Sys2Proof.Machine.execVScanAdd h ty d a s
  | .vScanMin h ty d a => Sys2Proof.Machine.execVScanMin h ty d a s
  | .vScanMax h ty d a => Sys2Proof.Machine.execVScanMax h ty d a s
  | .vScanAddx h ty d a => Sys2Proof.Machine.execVScanAddx h ty d a s
  | .vKgen h d a b c => Sys2Proof.Machine.execVKgen h d a b c s
  | .vLd h ty d a b c m => Sys2Proof.Machine.execVLd h ty d a b c m s
  | .vSt h ty d a b c m => Sys2Proof.Machine.execVSt h ty d a b c m s
  | .vLdr h ty d a b c m p => Sys2Proof.Machine.execVLdr h ty d a b c m p s
  | .vPf h a b c m => Sys2Proof.Machine.execVPf h a b c m s
  | .vAtom h aop ty d a b c sp => Sys2Proof.Machine.execVAtom h aop ty d a b c sp s
  | .vAtomn h aop ty a b c sp => Sys2Proof.Machine.execVAtomn h aop ty a b c sp s
  | .vCas h ty d a b c sp => Sys2Proof.Machine.execVCas h ty d a b c sp s
  | .ckRes h d a => Sys2Proof.Machine.execCkRes h d a s
  | .ckVfy h ty p a => Sys2Proof.Machine.execCkVfy h ty p a s
  | .ckInjr h d a b => Sys2Proof.Machine.execCkInjr h d a b s
  | .ckMcrd h d a => Sys2Proof.Machine.execCkMcrd h d a s
  | .ckEcnt h d a => Sys2Proof.Machine.execCkEcnt h d a s
  | .ckInjmGCe h a => Sys2Proof.Machine.execCkInjmGCe h a s
  | .ckInjmGUe h a => Sys2Proof.Machine.execCkInjmGUe h a s
  | .ckInjmVtCe h a => Sys2Proof.Machine.execCkInjmVtCe h a s
  | .ckInjmVtUe h a => Sys2Proof.Machine.execCkInjmVtUe h a s
  | .mxGang h d a b => Sys2Proof.Machine.execMxGang h d a b s
  | .mxFree h => Sys2Proof.Machine.execMxFree h s
  | .mxMma h d a b c acc z acq => Sys2Proof.Machine.execMxMma h d a b c acc z acq s
  | .mxZero h d a c => Sys2Proof.Machine.execMxZero h d a c s
  | .mxLd h ty d a c tr acq => Sys2Proof.Machine.execMxLd h ty d a c tr acq s
  | .mxSt h d a c tr clr acq rel => Sys2Proof.Machine.execMxSt h d a c tr clr acq rel s
  | .saOpen h d a b c => Sys2Proof.Machine.execSaOpen h d a b c s
  | .saClose h d a => Sys2Proof.Machine.execSaClose h d a s
  | .saNorm h d a b acq => Sys2Proof.Machine.execSaNorm h d a b acq s
  | .saBuild h d a b c => Sys2Proof.Machine.execSaBuild h d a b c s
  | .saDraw h d a acq => Sys2Proof.Machine.execSaDraw h d a acq s
  | .saFin h d a => Sys2Proof.Machine.execSaFin h d a s
  | .saStat h d a => Sys2Proof.Machine.execSaStat h d a s
  | .cpCopy h d a b acq rel => Sys2Proof.Machine.execCpCopy h d a b acq rel s
  | .cpMcast h d a b c acq rel => Sys2Proof.Machine.execCpMcast h d a b c acq rel s
  | .cpOff h d a b c acq rel => Sys2Proof.Machine.execCpOff h d a b c acq rel s
  | .cpRet h d a b c acq rel => Sys2Proof.Machine.execCpRet h d a b c acq rel s
  | .cpProm h d a => Sys2Proof.Machine.execCpProm h d a s
  | .cpRenew h d a => Sys2Proof.Machine.execCpRenew h d a s
  | .cpCncl h d a => Sys2Proof.Machine.execCpCncl h d a s
  | .pgReq h d a => Sys2Proof.Machine.execPgReq h d a s
  | .pgProbe h d a => Sys2Proof.Machine.execPgProbe h d a s
  | .pgShoot h d a b => Sys2Proof.Machine.execPgShoot h d a b s
  | .pgMig h d a b => Sys2Proof.Machine.execPgMig h d a b s
  | .pgCnt h d a => Sys2Proof.Machine.execPgCnt h d a s
  | .clRun h d a b acq rel => Sys2Proof.Machine.execClRun h d a b acq rel s
  | .clCncl h d a => Sys2Proof.Machine.execClCncl h d a s
  | .clInfo h d a => Sys2Proof.Machine.execClInfo h d a s
  | .clProg h d a => Sys2Proof.Machine.execClProg h d a s
  | .clAbort h d a => Sys2Proof.Machine.execClAbort h d a s
  | .dpLaunch h d a b => Sys2Proof.Machine.execDpLaunch h d a b s
  | .dpQstat h d b => Sys2Proof.Machine.execDpQstat h d b s
  | .dpTadd h d a => Sys2Proof.Machine.execDpTadd h d a s
  | .dpTdrop h d a => Sys2Proof.Machine.execDpTdrop h d a s
  | .dpTdepth h d => Sys2Proof.Machine.execDpTdepth h d s
  | .dpLsovf h => Sys2Proof.Machine.execDpLsovf h s
  | .dpLsstep h => Sys2Proof.Machine.execDpLsstep h s
  | .tkPrice h d a => Sys2Proof.Machine.execTkPrice h d a s
  | .tkWait h a => Sys2Proof.Machine.execTkWait h a s
  | .tkDbal h d a => Sys2Proof.Machine.execTkDbal h d a s
  | .tkIntent h d a b => Sys2Proof.Machine.execTkIntent h d a b s
  | .tkIcncl h d a => Sys2Proof.Machine.execTkIcncl h d a s
  | .coldBoot vset stackTemps portTemps => Sys2Proof.Machine.execColdBoot vset stackTemps portTemps s
  | .hostLinkDown => Sys2Proof.Machine.execHostLinkDown s
  | .ownerVacancy => Sys2Proof.Machine.execOwnerVacancy s
  | .mclaimWrite claims => Sys2Proof.Machine.execMclaimWrite claims s
  | .macceptWrite master value => Sys2Proof.Machine.execMacceptWrite master value s
  | .mownPendWrite master value => Sys2Proof.Machine.execMownPendWrite master value s
  | .pendTimeout => Sys2Proof.Machine.execPendTimeout s
  | .registerWrite master off value => Sys2Proof.Machine.execRegisterWrite master off value s
  | .hostWindowAccess write off n bytes => Sys2Proof.Machine.execHostWindowAccess write off n bytes s
  | .ctxSaveCmd master slot value => Sys2Proof.Machine.execCtxSaveCmd master slot value s
  | .ctxRestoreCmd master slot value => Sys2Proof.Machine.execCtxRestoreCmd master slot value s
  | .ctxDestroyCmd master slot value => Sys2Proof.Machine.execCtxDestroyCmd master slot value s
  | .contextSave slot => Sys2Proof.Machine.execContextSave slot s
  | .contextSaveComplete slot => Sys2Proof.Machine.execContextSaveComplete slot s
  | .contextDestroyComplete slot => Sys2Proof.Machine.execContextDestroyComplete slot s
  | .partcfgWrite master value => Sys2Proof.Machine.execPartcfgWrite master value s
  | .partWrite master m value => Sys2Proof.Machine.execPartWrite master m value s
  | .linkKeyZeroise m => Sys2Proof.Machine.execLinkKeyZeroise m s
  | .memoryKeyInstall master => Sys2Proof.Machine.execMemoryKeyInstall master s
  | .linkKeyInstall master => Sys2Proof.Machine.execLinkKeyInstall master s
  | .clearKeySlot master => Sys2Proof.Machine.execClearKeySlot master s
  | .attestationRequest master => Sys2Proof.Machine.execAttestationRequest master s
  | .priceTableWrite master c f value => Sys2Proof.Machine.execPriceTableWrite master c f value s
  | .tkcoreWrite master core value => Sys2Proof.Machine.execTkcoreWrite master core value s
  | .lscfgWrite master slot value => Sys2Proof.Machine.execLscfgWrite master slot value s
  | .wearCounterSave => Sys2Proof.Machine.execWearCounterSave s
  | .thermalCycleCount dt => Sys2Proof.Machine.execThermalCycleCount dt s
  | .queueTableEntryWrite slot q => Sys2Proof.Machine.execQueueTableEntryWrite slot q s
  | .queueTailStore slot q => Sys2Proof.Machine.execQueueTailStore slot q s
  | .launchPacketConsume slot q => Sys2Proof.Machine.execLaunchPacketConsume slot q s
  | .packetStart slot q => Sys2Proof.Machine.execPacketStart slot q s
  | .packPlace gid => Sys2Proof.Machine.execPackPlace gid s
  | .wholeGridPlace gid => Sys2Proof.Machine.execWholeGridPlace gid s
  | .partialEviction gid => Sys2Proof.Machine.execPartialEviction gid s
  | .evictionDrainDone uid => Sys2Proof.Machine.execEvictionDrainDone uid s
  | .teamRestore uid => Sys2Proof.Machine.execTeamRestore uid s
  | .gridEnd gid => Sys2Proof.Machine.execGridEnd gid s
  | .tapeRunStart slot q => Sys2Proof.Machine.execTapeRunStart slot q s
  | .tapePop slot => Sys2Proof.Machine.execTapePop slot s
  | .stepEndClose slot q => Sys2Proof.Machine.execStepEndClose slot q s
  | .issueCycle core => Sys2Proof.Machine.execIssueCycle core s
  | .mcrecReadable core n => Sys2Proof.Machine.execMcrecReadable core n s
  | .preciseStop uid => Sys2Proof.Machine.execPreciseStop uid s
  | .asyncFault uid slot cause => Sys2Proof.Machine.execAsyncFault uid slot cause s
  | .barrierArrival n => Sys2Proof.Machine.execBarrierArrival n s
  | .barrierRelease uid => Sys2Proof.Machine.execBarrierRelease uid s
  | .barrierTokenReturn uid => Sys2Proof.Machine.execBarrierTokenReturn uid s
  | .handleCompleteWake uid => Sys2Proof.Machine.execHandleCompleteWake uid s
  | .sleepWake uid => Sys2Proof.Machine.execSleepWake uid s
  | .copyLateCheck uid => Sys2Proof.Machine.execCopyLateCheck uid s
  | .cfetchLand core slot => Sys2Proof.Machine.execCfetchLand core slot s
  | .coreRefill core => Sys2Proof.Machine.execCoreRefill core s
  | .dieRefill => Sys2Proof.Machine.execDieRefill s
  | .reservationTake core uid => Sys2Proof.Machine.execReservationTake core uid s
  | .rampStep => Sys2Proof.Machine.execRampStep s
  | .governorCycle => Sys2Proof.Machine.execGovernorCycle s
  | .intentReceive peer idx gen dr lead part auth => Sys2Proof.Machine.execIntentReceive peer idx gen dr lead part auth s
  | .intentCancelReceive peer idx gen part auth => Sys2Proof.Machine.execIntentCancelReceive peer idx gen part auth s
  | .intentExpire idx => Sys2Proof.Machine.execIntentExpire idx s
  | .islandIdle n => Sys2Proof.Machine.execIslandIdle n s
  | .islandRetention n => Sys2Proof.Machine.execIslandRetention n s
  | .islandWake n => Sys2Proof.Machine.execIslandWake n s
  | .islandWakeDone n => Sys2Proof.Machine.execIslandWakeDone n s
  | .subarrayGate v sub => Sys2Proof.Machine.execSubarrayGate v sub s
  | .gangForm v id => Sys2Proof.Machine.execGangForm v id s
  | .windowAllocate v => Sys2Proof.Machine.execWindowAllocate v s
  | .mmaLatchComplete v id => Sys2Proof.Machine.execMmaLatchComplete v id s
  | .mxPassGrant v => Sys2Proof.Machine.execMxPassGrant v s
  | .mxPassEnd v sub => Sys2Proof.Machine.execMxPassEnd v sub s
  | .mxWindowOpComplete v op => Sys2Proof.Machine.execMxWindowOpComplete v op s
  | .saCommandStart v slot => Sys2Proof.Machine.execSaCommandStart v slot s
  | .saBatchPass v slot => Sys2Proof.Machine.execSaBatchPass v slot s
  | .saCommandComplete v slot => Sys2Proof.Machine.execSaCommandComplete v slot s
  | .copyCommandStart v remote => Sys2Proof.Machine.execCopyCommandStart v remote s
  | .copyComplete v remote => Sys2Proof.Machine.execCopyComplete v remote s
  | .clProgramStart ch => Sys2Proof.Machine.execClProgramStart ch s
  | .clStepStart ch => Sys2Proof.Machine.execClStepStart ch s
  | .clMessageArrive msg => Sys2Proof.Machine.execClMessageArrive msg s
  | .clStepComplete ch idx => Sys2Proof.Machine.execClStepComplete ch idx s
  | .clStepTimeout ch idx => Sys2Proof.Machine.execClStepTimeout ch idx s
  | .clAbortArrive msg => Sys2Proof.Machine.execClAbortArrive msg s
  | .fabricPeerLost peer => Sys2Proof.Machine.execFabricPeerLost peer s
  | .fabricPortDown port => Sys2Proof.Machine.execFabricPortDown port s
  | .llcMissTranslate slot va acc => Sys2Proof.Machine.execLlcMissTranslate slot va acc s
  | .pageWalkComplete slot va => Sys2Proof.Machine.execPageWalkComplete slot va s
  | .remoteRequestArrive req => Sys2Proof.Machine.execRemoteRequestArrive req s
  | .pendingRequestRewalk slot => Sys2Proof.Machine.execPendingRequestRewalk slot s
  | .atsInvalidate pasid va n => Sys2Proof.Machine.execAtsInvalidate pasid va n s
  | .priResponse pasid va success => Sys2Proof.Machine.execPriResponse pasid va success s
  | .mreqArrive peer part va => Sys2Proof.Machine.execMreqArrive peer part va s
  | .migrationHold slot va => Sys2Proof.Machine.execMigrationHold slot va s
  | .migrationSwitch slot va incoming bytes => Sys2Proof.Machine.execMigrationSwitch slot va incoming bytes s
  | .homeStoreRegister n => Sys2Proof.Machine.execHomeStoreRegister n s
  | .revokeAck n => Sys2Proof.Machine.execRevokeAck n s
  | .atomicApply n => Sys2Proof.Machine.execAtomicApply n s
  | .loadDataReturn uid => Sys2Proof.Machine.execLoadDataReturn uid s
  | .scrubRead => Sys2Proof.Machine.execScrubRead s
  | .hostLinkUp => Sys2Proof.Machine.execHostLinkUp s
  | .fabricPortUp port => Sys2Proof.Machine.execFabricPortUp port s
  | .powerLoss => Sys2Proof.Machine.execPowerLoss s
  | .hoursAtTemperature temp => Sys2Proof.Machine.execHoursAtTemperature temp s
  | .atsTranslationCompletion pasid va r w => Sys2Proof.Machine.execAtsTranslationCompletion pasid va r w s
  | .zeroLengthReadComplete uid => Sys2Proof.Machine.execZeroLengthReadComplete uid s
  | .contextRestoreComplete slot => Sys2Proof.Machine.execContextRestoreComplete slot s
  | .migrationRefusal slot va peer => Sys2Proof.Machine.execMigrationRefusal slot va peer s
  | .codeSlotPinExpiry core slot => Sys2Proof.Machine.execCodeSlotPinExpiry core slot s

end Sys2Proof.Machine
end

