-- ==== Sys2Proof/Machine/Step.lean ====
section
/-! DEFINITION. The step of the package, and a state in which a given instruction is the next to run. -/

namespace Sys2Proof.Machine

open Sys2Proof

/-- One step: a chosen team's instruction, else the next input, else a core cycle. -/
def step (s : State) : Host.Outcome State Fault Refusal := State.advanceBy exec s

/-- A state whose next step fetches and runs an instruction: it stands in for a launch that has placed a team of one group of 32 lanes on core
0 with the instruction at its PC (log entry 6). -/
def State.withFetchWord (s : State) (nbits w : Nat) : State := s.launched (tableWords maxWords (w % 2 ^ nbits))

end Sys2Proof.Machine
end

