-- ==== Sys2Proof/Safety.lean ====
section
/-! DEFINITION. The terms that statements about runs use: what makes an instruction word run for a team without a stop, operands whose residue
codes are right, and the invariant of the state. -/

namespace Sys2Proof.Machine

open Sys2Proof

/-- A word runs to its effect for the issuing team: the team is there, the word passes the checks of R79 and R80, it does not end at the
segment's last word (R69), and `CKINJ` is not armed (R203). -/
structure Runs (s : State) (t : Team) (i : Instr) : Prop where
  cur : s.cur = some t.uid
  team : s.team? t.uid = some t
  legal : Instr.legal t t.pc i = true
  priv : Instr.isPriv i = true → t.privileged = true
  fits : t.pc.toNat % 4096 + i.length < 4096
  calm : t.ckinj.getLsbD 31 = false

/-- Every lane that the word executes for reads right codes from the listed runs of registers (R185). -/
def Team.lanesGood (t : Team) (h : Hdr) (srcs : List (RegNo × Nat)) : Prop :=
  ∀ l ∈ t.lanesFor h, (t.laneSrcs srcs l).all goodRun = true

/-- Every group that the word executes for reads right codes from the listed runs of registers (R185). -/
def Team.groupsGood (t : Team) (h : Hdr) (srcs : List (RegNo × Nat)) : Prop :=
  ∀ g ∈ t.groupsFor h, (t.groupSrcs srcs g).all goodRun = true

/-- A team with other lane registers: `v` registers, predicates and rounding counters. -/
def Team.laneRegs (t : Team) (v : SMap RWord) (p : SMap Bool) (n : SMap (BitVec 32)) : Team := { t with v := v, p := p, rounds := n }

/-- A team with other group registers: `s` registers and uniform predicates. -/
def Team.groupRegs (t : Team) (m : SMap RWord) (q : SMap Bool) : Team := { t with s := m, q := q }

/-- The state's invariant: the memory holds its canonical form. -/
def State.Inv (s : State) : Prop := Memory.wf s.mem = true

end Sys2Proof.Machine
end

