-- ==== Sys2Proof/Certificates/Slice0/Obligations.lean ====
section
/-! DEFINITION. The statements for the provers, and the tables of the spec's rules that they are stated with. -/

namespace Sys2Proof.Claims

open Sys2Proof Sys2Proof.Machine

/-! ### Uniform arithmetic (R19, R100 to R103) -/

/-- What a uniform word does in a group: its header, destination, the registers it reads, its result from their values, and the words that a
selection takes. -/
structure GroupRule where
  h : Hdr
  d : RegNo
  srcs : List (RegNo × Nat)
  res : Team → Nat → List Nat → URes
  chosen : Team → Nat → List RWord := fun _ _ => []

/-- The words that a uniform word's result is computed or taken from carry right codes in every group that it executes for (R185, R187). -/
def GroupRule.codesGood (r : GroupRule) (t : Team) : Prop :=
  t.groupsGood r.h r.srcs ∧ ∀ g ∈ t.groupsFor r.h, goodRun (r.chosen t g) = true

/-- The state after a uniform word: the results are in the groups that it executes for (R19), and the team is past the word. -/
def GroupRule.after (r : GroupRule) (s : State) (t : Team) (i : Instr) : State :=
  s.putTeam ((t.writeGroups r.d.toNat (t.groupsFor r.h) fun g => r.res t g ((t.groupSrcs r.srcs g).map wordsNat)).pass i.length)

/-- A rule in the words of a table. -/
def groupRule (h : Hdr) (d : RegNo) (srcs : List (RegNo × Nat)) (res : Team → Nat → List Nat → URes) : Option GroupRule :=
  some { h := h, d := d, srcs := srcs, res := res }

/-- A selection: its result is the words chosen, whose codes are checked (R161, SEL). -/
def groupChoice (h : Hdr) (d : RegNo) (f : Team → Nat → List RWord) : Option GroupRule :=
  some { h := h, d := d, srcs := [], res := fun t g _ => { words := f t g, pred := none }, chosen := f }

/-- A result of a type, as bits. -/
def bitsRes (ty : Ty) (x : BitVec ty.width) : URes := URes.num (regsOf ty) x.toNat

/-- A function of the bits of two sources. -/
def onTwo (ty : Ty) (f : BitVec ty.width → BitVec ty.width → BitVec ty.width) (vs : List Nat) : BitVec ty.width :=
  f (BitVec.ofNat ty.width (vs.headD 0)) (BitVec.ofNat ty.width ((vs.drop 1).headD 0))

/-- A word on two sources. -/
def twoRule (h : Hdr) (ty : Ty) (d a b : RegNo) (f : BitVec ty.width → BitVec ty.width → BitVec ty.width) : Option GroupRule :=
  groupRule h d [(a, regsOf ty), (b, regsOf ty)] fun _ _ vs => bitsRes ty (onTwo ty f vs)

/-- A shift of A by the low word of B, unsigned. -/
def shiftRule (h : Hdr) (ty : Ty) (d a b : RegNo) (f : BitVec ty.width → Nat → BitVec ty.width) : Option GroupRule :=
  groupRule h d [(a, regsOf ty), (b, regsOf ty)] fun _ _ vs => bitsRes ty (f (BitVec.ofNat ty.width (vs.headD 0)) (BitVec.ofNat 32 ((vs.drop 1).headD 0)).toNat)

/-- A word on one source. -/
def oneRule (h : Hdr) (ty : Ty) (d a : RegNo) (f : BitVec ty.width → BitVec ty.width) : Option GroupRule :=
  groupRule h d [(a, regsOf ty)] fun _ _ vs => bitsRes ty (f (BitVec.ofNat ty.width (vs.headD 0)))

/-- The bits of a type's value are compared as the type says (R44). -/
def valueOf (ty : Ty) (x : BitVec ty.width) : Int := if ty.isSigned then x.toInt else (x.toNat : Int)

/-- R101: the uniform arithmetic. -/
def uniformArithmetic : Instr → Option GroupRule
  | .sAdd h ty d a b => twoRule h ty d a b (· + ·)
  | .sSub h ty d a b => twoRule h ty d a b (· - ·)
  | .sMul h ty d a b => twoRule h ty d a b (· * ·)
  | .sMulh h ty d a b => twoRule h ty d a b fun x y => BitVec.ofInt ty.width (valueOf ty x * valueOf ty y / 2 ^ ty.width)
  | .sAnd h ty d a b => twoRule h ty d a b (· &&& ·)
  | .sOr h ty d a b => twoRule h ty d a b (· ||| ·)
  | .sXor h ty d a b => twoRule h ty d a b (· ^^^ ·)
  | .sAndn h ty d a b => twoRule h ty d a b fun x y => x &&& ~~~y
  | .sShl h ty d a b => shiftRule h ty d a b fun x n => x <<< n
  | .sShr h ty d a b => shiftRule h ty d a b fun x n => x >>> n
  | .sSra h ty d a b => shiftRule h ty d a b fun x n => x.sshiftRight n
  | .sMin h ty d a b => twoRule h ty d a b fun x y => if valueOf ty y < valueOf ty x then y else x
  | .sMax h ty d a b => twoRule h ty d a b fun x y => if valueOf ty y > valueOf ty x then y else x
  | .sLea h ty d a b sh => groupRule h d [(a, 2), (b, 1)] fun _ _ vs =>
      URes.num 2 (BitVec.ofNat 64 (vs.headD 0) +
        (BitVec.ofInt 64 (valueOf ty (BitVec.ofNat ty.width ((vs.drop 1).headD 0)))) <<< sh.toNat).toNat
  | .sAddi h ty d a imm => oneRule h ty d a fun x => x + imm.signExtend ty.width
  | .sAndi h ty d a imm => oneRule h ty d a fun x => x &&& imm.zeroExtend ty.width
  | .sOri h ty d a imm => oneRule h ty d a fun x => x ||| imm.zeroExtend ty.width
  | .sXori h ty d a imm => oneRule h ty d a fun x => x ^^^ imm.zeroExtend ty.width
  | .sShli h ty d a imm => oneRule h ty d a fun x => x <<< immCount ty imm
  | .sShri h ty d a imm => oneRule h ty d a fun x => x >>> immCount ty imm
  | .sSrai h ty d a imm => oneRule h ty d a fun x => x.sshiftRight (immCount ty imm)
  | .sMovi h ty d imm => groupRule h d [] fun _ _ _ =>
      URes.num (regsOf ty) (if ty.isSigned then (imm.signExtend ty.width).toNat else imm.toNat)
  | .sMovhi h d imm => groupRule h d [] fun t g _ =>
      URes.num 1 (imm ++ ((t.sGet (d.toNat - 192) g).val.extractLsb' 0 16)).toNat
  | .sNop h => groupRule h 192 [] fun _ _ _ => { words := [], pred := none }
  | _ => none

/-- R102: the uniform compares and predicates; q0 stays true (`Team.qPut`). -/
def uniformPredicates : Instr → Option GroupRule
  | .sCmp h cc ty q a b => groupRule h 192 [(a, regsOf ty), (b, regsOf ty)] fun _ _ vs =>
      URes.flag q.toNat (Cc.holds cc (valueOf ty (BitVec.ofNat ty.width (vs.headD 0)))
        (valueOf ty (BitVec.ofNat ty.width ((vs.drop 1).headD 0))))
  | .sCmpi h cc ty q a imm => groupRule h 192 [(a, regsOf ty)] fun _ _ vs =>
      URes.flag q.toNat (Cc.holds cc (valueOf ty (BitVec.ofNat ty.width (vs.headD 0)))
        (if ty.isSigned then imm.toInt else imm.toNat))
  | .sQand h q qa qb => groupRule h 192 [] fun t g _ =>
      URes.flag q.toNat (t.qGet qa.toNat g && t.qGet qb.toNat g)
  | .sQor h q qa qb => groupRule h 192 [] fun t g _ =>
      URes.flag q.toNat (t.qGet qa.toNat g || t.qGet qb.toNat g)
  | .sQxor h q qa qb => groupRule h 192 [] fun t g _ =>
      URes.flag q.toNat (t.qGet qa.toNat g ^^ t.qGet qb.toNat g)
  | .sQany h q pa => groupRule h 192 [] fun t g _ =>
      URes.flag q.toNat (decide (∃ l ∈ t.groupLanes g, t.active l = true ∧ t.pGet pa.toNat l = true))
  | .sQall h q pa => groupRule h 192 [] fun t g _ =>
      URes.flag q.toNat (decide (∀ l ∈ t.groupLanes g, t.active l = true → t.pGet pa.toNat l = true))
  | _ => none

/-- R102, R103: the uniform selection, and the moves, which copy words with their residue codes (R161). -/
def uniformMoves : Instr → Option GroupRule
  | .sSel h ty d a b q neg => groupChoice h d fun t g => t.sRun (if t.qGet q.toNat g = neg then b else a).toNat (regsOf ty) g
  | .sMov h ty d a _ => groupRule h d [] fun t g _ => { words := t.sRun a.toNat (regsOf ty) g, pred := none }
  | .sVrd h ty d a _ c => groupRule h d [] fun t g _ =>
      { words := t.rRun a.toNat (regsOf ty) (g * t.group + c.toNat), pred := none }
  | .sVrdf h ty d a _ => groupRule h d [] fun t g _ =>
      { words := t.rRun a.toNat (regsOf ty) (((t.groupLanes g).find? t.active).getD 0), pred := none }
  | _ => none

/-- Every word that a table lists runs to what the table says. -/
def groupWordsRun (table : Instr → Option GroupRule) : Prop :=
  ∀ (s : State) (t : Team) (i : Instr) (r : GroupRule), table i = some r → Runs s t i → r.codesGood t → exec i s = .next (r.after s t i)

/-! ### The integer instructions of the lane engine (R153 to R160) -/

/-- What a lane word does in a lane: its header, its destination, the registers it reads, its result from their values, and the words that a
selection takes. -/
structure LaneRule where
  h : Hdr
  d : RegNo
  srcs : List (RegNo × Nat)
  res : Team → Nat → List Nat → LRes
  chosen : Team → Nat → List RWord := fun _ _ => []

/-- The words that a lane word's result is computed or taken from carry right codes in every lane that it executes for (R185, R187). -/
def LaneRule.codesGood (r : LaneRule) (t : Team) : Prop :=
  t.lanesGood r.h r.srcs ∧ ∀ l ∈ t.lanesFor r.h, goodRun (r.chosen t l) = true

/-- The state after a lane word: the results are in the lanes that it executes for, all sources having been read before (R18, R75), and the
team is past the word. -/
def LaneRule.after (r : LaneRule) (s : State) (t : Team) (i : Instr) : State :=
  s.putTeam ((t.writeLanes r.d.toNat (t.lanesFor r.h) fun l => r.res t l ((t.laneSrcs r.srcs l).map wordsNat)).pass i.length)

/-- Every word that a table lists runs to what the table says. -/
def laneWordsRun (table : Instr → Option LaneRule) : Prop :=
  ∀ (s : State) (t : Team) (i : Instr) (r : LaneRule), table i = some r → Runs s t i → r.codesGood t → exec i s = .next (r.after s t i)

/-- A rule in the words of a table. -/
def laneRule (h : Hdr) (d : RegNo) (srcs : List (RegNo × Nat)) (res : Team → Nat → List Nat → LRes) : Option LaneRule :=
  some { h := h, d := d, srcs := srcs, res := res }

/-- A selection: its result is the words chosen, whose codes are checked (R161, SEL). -/
def laneChoice (h : Hdr) (d : RegNo) (f : Team → Nat → List RWord) : Option LaneRule :=
  some { h := h, d := d, srcs := [], res := fun t l _ => LRes.val (f t l), chosen := f }

/-- The `k`-th source value, as bits of a width. -/
def arg (w : Nat) (vs : List Nat) (k : Nat) : BitVec w := BitVec.ofNat w ((vs[k]?).getD 0)

/-- A function of two elements' bits, in each of the max(1, 32/w) elements (R154). -/
def eachElem (ty : Ty) (f : BitVec ty.width → BitVec ty.width → BitVec ty.width) (a b : Nat) : Nat :=
  ((List.range (max 1 (32 / ty.width))).map fun i =>
    (f (BitVec.ofNat ty.width (a / 2 ^ (ty.width * i))) (BitVec.ofNat ty.width (b / 2 ^ (ty.width * i)))).toNat * 2 ^ (ty.width * i)).sum

/-- An exact result clamped to a type's range (R154). -/
def clampTo (ty : Ty) (z : Int) : BitVec ty.width :=
  BitVec.ofInt ty.width (if ty.isSigned then max (-2 ^ (ty.width - 1)) (min z (2 ^ (ty.width - 1) - 1)) else max 0 (min z (2 ^ ty.width - 1)))

/-- A lane word on two sources of its type. -/
def laneTwo (h : Hdr) (ty : Ty) (d a b : RegNo) (f : Nat → Nat → Nat) : Option LaneRule :=
  laneRule h d [(a, regsOf ty), (b, regsOf ty)] fun _ _ vs => LRes.num (regsOf ty) (f ((vs[0]?).getD 0) ((vs[1]?).getD 0))

/-- A lane word on the bits of two whole sources. -/
def laneBits (h : Hdr) (ty : Ty) (d a b : RegNo) (f : BitVec ty.width → BitVec ty.width → BitVec ty.width) : Option LaneRule :=
  laneTwo h ty d a b fun x y => (f (BitVec.ofNat ty.width x) (BitVec.ofNat ty.width y)).toNat

/-- A lane word on the bits of one source and an immediate. -/
def laneOne (h : Hdr) (ty : Ty) (d a : RegNo) (f : BitVec ty.width → BitVec ty.width) : Option LaneRule :=
  laneRule h d [(a, regsOf ty)] fun _ _ vs => LRes.num (regsOf ty) (f (arg ty.width vs 0)).toNat

/-- A lane word on three single registers. -/
def laneThree (h : Hdr) (d a b c : RegNo) (f : BitVec 32 → BitVec 32 → BitVec 32 → BitVec 32) : Option LaneRule :=
  laneRule h d [(a, 1), (b, 1), (c, 1)] fun _ _ vs => LRes.num 1 (f (arg 32 vs 0) (arg 32 vs 1) (arg 32 vs 2)).toNat

/-- The exact value A · B + C of a multiply word. -/
def exactMad (ty : Ty) (vs : List Nat) (c : Int) : Int := valueOf ty (arg ty.width vs 0) * valueOf ty (arg ty.width vs 1) + c

/-- The exact four-byte dot product on C (R155). -/
def exactDot (ty ty2 : Ty) (vs : List Nat) : Int :=
  (arg 32 vs 2).toInt + ((List.range 4).map fun i =>
    tyVal ty ((arg 32 vs 0).extractLsb' (8 * i) 8).toNat * tyVal ty2 ((arg 32 vs 1).extractLsb' (8 * i) 8).toNat).sum

/-- The sources of a word with three sources of the type. -/
def threeSrcs (ty : Ty) (a b c : RegNo) : List (RegNo × Nat) := [(a, regsOf ty), (b, regsOf ty), (c, regsOf ty)]

/-- R155: the lane arithmetic. -/
def laneArithmetic : Instr → Option LaneRule
  | .vAdd h ty d a b => laneTwo h ty d a b (eachElem ty (· + ·))
  | .vAdds h ty d a b => laneTwo h ty d a b (eachElem ty fun x y => clampTo ty (valueOf ty x + valueOf ty y))
  | .vSub h ty d a b => laneTwo h ty d a b (eachElem ty (· - ·))
  | .vSubs h ty d a b => laneTwo h ty d a b (eachElem ty fun x y => clampTo ty (valueOf ty x - valueOf ty y))
  | .vMin h ty d a b => laneTwo h ty d a b (eachElem ty fun x y => if valueOf ty y < valueOf ty x then y else x)
  | .vMax h ty d a b => laneTwo h ty d a b (eachElem ty fun x y => if valueOf ty y > valueOf ty x then y else x)
  | .vAddi h ty d a imm => laneOne h ty d a fun x => x + imm.signExtend ty.width
  | .vAddis h ty d a imm => laneOne h ty d a fun x => clampTo ty (valueOf ty x + imm.toInt)
  | .vMul h ty d a b => laneBits h ty d a b (· * ·)
  | .vMulh h ty d a b => laneBits h ty d a b fun x y => BitVec.ofInt ty.width (valueOf ty x * valueOf ty y / 2 ^ ty.width)
  | .vMulw h ty d a b => laneRule h d [(a, 1), (b, 1)] fun _ _ vs =>
      LRes.num 2 (BitVec.ofInt 64 (exactMad ty vs 0)).toNat
  | .vMad h ty d a b c => laneRule h d (threeSrcs ty a b c) fun _ _ vs =>
      LRes.num (regsOf ty) (BitVec.ofInt ty.width (exactMad ty vs (valueOf ty (arg ty.width vs 2)))).toNat
  | .vMadh h ty d a b c => laneRule h d [(a, 1), (b, 1), (c, 1)] fun _ _ vs =>
      LRes.num 1 (BitVec.ofInt 32 (exactMad ty vs (valueOf ty (arg ty.width vs 2)) / 2 ^ 32)).toNat
  | .vMadw h ty d a b c => laneRule h d [(a, 1), (b, 1), (c, 2)] fun _ _ vs =>
      LRes.num 2 (BitVec.ofInt 64 (exactMad ty vs (if ty.isSigned then (arg 64 vs 2).toInt else ((vs[2]?).getD 0 : Nat)))).toNat
  | .vDot4 h ty ty2 d a b c => laneRule h d [(a, 1), (b, 1), (c, 1)] fun _ _ vs =>
      LRes.num 1 (BitVec.ofInt 32 (exactDot ty ty2 vs)).toNat
  | .vDot4s h ty ty2 d a b c => laneRule h d [(a, 1), (b, 1), (c, 1)] fun _ _ vs =>
      LRes.num 1 (clampTo .s32 (exactDot ty ty2 vs)).toNat
  | .vLea h ty d a b sh => laneRule h d [(a, 2), (b, 1)] fun _ _ vs =>
      LRes.num 2 (arg 64 vs 0 + BitVec.ofInt 64 (valueOf ty (arg ty.width vs 1)) <<< sh.toNat).toNat
  | .vLid h d => laneRule h d [] fun _ l _ => LRes.num 1 l
  | .vGlid h d => laneRule h d [] fun t l _ => LRes.num 1 (t.lin * t.lanes + l)
  | .vMovi h ty d imm => laneRule h d [] fun _ _ _ =>
      LRes.num (regsOf ty) (if ty.isSigned then (imm.signExtend ty.width).toNat else imm.toNat)
  | .vMovhi h d imm => laneRule h d [] fun t l _ =>
      LRes.num 1 (imm ++ ((t.rGet d.toNat l).val.extractLsb' 0 16)).toNat
  | _ => none

/-- The position and width of a bit field that B names (R156). -/
def bitField (b : BitVec 32) : Nat × Nat :=
  ((b.extractLsb' 0 5).toNat, min (b.extractLsb' 8 6).toNat (32 - (b.extractLsb' 0 5).toNat))

/-- The source count of a shift or rotate by a register: B[31:0] (R156). -/
def laneShift (h : Hdr) (ty : Ty) (d a b : RegNo) (f : BitVec ty.width → Nat → BitVec ty.width) : Option LaneRule :=
  laneTwo h ty d a b fun x y => (f (BitVec.ofNat ty.width x) (y % 2 ^ 32)).toNat

/-- A count of bits of one source, in one register. -/
def laneCount (h : Hdr) (ty : Ty) (d a : RegNo) (f : BitVec ty.width → Nat) : Option LaneRule :=
  laneRule h d [(a, regsOf ty)] fun _ _ vs => LRes.num 1 (f (arg ty.width vs 0))

/-- A byte of `v.perm`'s eight-byte source, chosen by a selector (R157). -/
def permByte (sign : Bool) (a b c : BitVec 32) (i : Nat) : BitVec 8 :=
  let sel := (c.extractLsb' (4 * i) 4).toNat
  let y := (b ++ a).extractLsb' (8 * (sel % 8)) 8
  if sel < 8 then y else if sign && y.getLsbD 7 then 0xFF#8 else 0#8

/-- R156, R157: the bitwise instructions, shifts, bit fields, counts and byte permutes. -/
def laneBitwise : Instr → Option LaneRule
  | .vAnd h ty d a b => laneBits h ty d a b (· &&& ·)
  | .vOr h ty d a b => laneBits h ty d a b (· ||| ·)
  | .vXor h ty d a b => laneBits h ty d a b (· ^^^ ·)
  | .vAndn h ty d a b => laneBits h ty d a b fun x y => x &&& ~~~y
  | .vAndi h ty d a imm => laneOne h ty d a fun x => x &&& imm.zeroExtend ty.width
  | .vOri h ty d a imm => laneOne h ty d a fun x => x ||| imm.zeroExtend ty.width
  | .vXori h ty d a imm => laneOne h ty d a fun x => x ^^^ imm.zeroExtend ty.width
  | .vShl h ty d a b => laneShift h ty d a b fun x n => x <<< n
  | .vShr h ty d a b => laneShift h ty d a b fun x n => x >>> n
  | .vSra h ty d a b => laneShift h ty d a b fun x n => x.sshiftRight n
  | .vRotl h ty d a b => laneShift h ty d a b fun x n => x.rotateLeft n
  | .vRotr h ty d a b => laneShift h ty d a b fun x n => x.rotateRight n
  | .vShli h ty d a imm => laneOne h ty d a fun x => x <<< imm.toNat
  | .vShri h ty d a imm => laneOne h ty d a fun x => x >>> imm.toNat
  | .vSrai h ty d a imm => laneOne h ty d a fun x => x.sshiftRight imm.toNat
  | .vRotli h ty d a imm => laneOne h ty d a fun x => x.rotateLeft imm.toNat
  | .vFshl h d a b c => laneThree h d a b c fun x y n => (((x ++ y) <<< (n.toNat % 32)).extractLsb' 32 32)
  | .vFshr h d a b c => laneThree h d a b c fun x y n => (((x ++ y) >>> (n.toNat % 32)).extractLsb' 0 32)
  | .vBfx h ty d a b => laneTwo h ty d a b fun x y =>
      let f := bitField (BitVec.ofNat 32 y)
      let z := (BitVec.ofNat 32 x).extractLsb' f.1 f.2
      (if ty.isSigned then z.signExtend 32 else z.zeroExtend 32).toNat
  | .vBfi h d a b c => laneThree h d a b c fun x y z =>
      let f := bitField y
      let m := (BitVec.allOnes f.2).zeroExtend 32 <<< f.1
      (z &&& ~~~m) ||| ((x <<< f.1) &&& m)
  | .vPopc h ty d a => laneCount h ty d a fun x => ((List.range ty.width).filter fun i => x.getLsbD i).length
  | .vClz h ty d a => laneCount h ty d a fun x => if x = 0 then ty.width else ty.width - 1 - Nat.log2 x.toNat
  | .vCtz h ty d a => laneCount h ty d a fun x => ((List.range ty.width).takeWhile fun i => !x.getLsbD i).length
  | .vBrev h ty d a => laneOne h ty d a fun x => x.reverse
  | .vPerm h d a b c => laneThree h d a b c fun x y z =>
      permByte false x y z 3 ++ permByte false x y z 2 ++ permByte false x y z 1 ++ permByte false x y z 0
  | .vPerms h d a b c => laneThree h d a b c fun x y z =>
      permByte true x y z 3 ++ permByte true x y z 2 ++ permByte true x y z 1 ++ permByte true x y z 0
  | .vCvt h ty ty2 d a sat idx => laneRule h d [(a, regsOf ty2)] fun _ _ vs =>
      let x := valueOf ty2 (BitVec.ofNat ty2.width ((vs[0]?).getD 0 / 2 ^ (ty2.width * idx.toNat)))
      let z := if sat then clampTo ty x else BitVec.ofInt ty.width x
      LRes.num (regsOf ty) (if ty.isSigned then z.signExtend (32 * regsOf ty) else z.zeroExtend (32 * regsOf ty)).toNat
  | _ => none

/-- R157, R160: the compares and the predicate instructions of the lanes; p0 stays true (`Team.pPut`). -/
def lanePredicates : Instr → Option LaneRule
  | .vCmp h cc ty p a b => laneRule h 0 [(a, regsOf ty), (b, regsOf ty)] fun _ _ vs =>
      LRes.flag p.toNat (Cc.holds cc (valueOf ty (arg ty.width vs 0)) (valueOf ty (arg ty.width vs 1)))
  | .vCmpi h cc ty p a imm => laneRule h 0 [(a, regsOf ty)] fun _ _ vs =>
      LRes.flag p.toNat (Cc.holds cc (valueOf ty (arg ty.width vs 0)) (if ty.isSigned then imm.toInt else imm.toNat))
  | .vPand h p pa pb => laneRule h 0 [] fun t l _ =>
      LRes.flag p.toNat (t.pGet pa.toNat l && t.pGet pb.toNat l)
  | .vPor h p pa pb => laneRule h 0 [] fun t l _ =>
      LRes.flag p.toNat (t.pGet pa.toNat l || t.pGet pb.toNat l)
  | .vPxor h p pa pb => laneRule h 0 [] fun t l _ =>
      LRes.flag p.toNat (t.pGet pa.toNat l ^^ t.pGet pb.toNat l)
  | .vPandn h p pa pb => laneRule h 0 [] fun t l _ =>
      LRes.flag p.toNat (t.pGet pa.toNat l && !t.pGet pb.toNat l)
  | .vPq h p qa => laneRule h 0 [] fun t l _ => LRes.flag p.toNat (t.qGet qa.toNat (l / t.group))
  | _ => none

/-- R157, R161: the lane selection, and the move, which copies words with their residue codes. -/
def laneMoves : Instr → Option LaneRule
  | .vSel h ty d a b p neg => laneChoice h d fun t l => t.rRun (if t.pGet p.toNat l = neg then b else a).toNat (regsOf ty) l
  | .vMov h ty d a => laneRule h d [] fun t l _ => LRes.val (t.rRun a.toNat (regsOf ty) l)
  | _ => none

/-! ### The floating-point instructions of the lane engine (R163 to R174) -/

/-- A floating-point word on single registers. -/
def floatRule (h : Hdr) (d : RegNo) (srcs : List RegNo) (res : Team → Nat → List Nat → LRes) : Option LaneRule :=
  laneRule h d (srcs.map fun r => (r, 1)) res

/-- An element's exact value (R43). -/
def elemVal (ty : Ty) (vs : List Nat) (k i : Nat) : FVal := (fmtOf ty).val (elem ((vs[k]?).getD 0) i ty.width)

/-- R164: the exact value of an element, rounded once with the element's own draw (R53 to R56). -/
def roundedElems (ty : Ty) (exact : Nat → List Nat → Nat → FVal) (t : Team) (l : Nat) (vs : List Nat) : LRes :=
  { words := natWords 1 (packElems ty.width ((List.range (32 / ty.width)).map fun i =>
      (fmtOf ty).round t.rm (t.draw l i) (exact t.rm vs i)))
    pred := none
    draws := 32 / ty.width * (if t.rm = 5 then 1 else 0) }

/-- R165: a function of the elements' encodings, which rounds nothing and draws nothing. -/
def plainElems (ty : Ty) (n : Nat) (f : List (BitVec ty.width) → Nat) (_ : Team) (_ : Nat) (vs : List Nat) : LRes :=
  LRes.num 1 (packElems ty.width ((List.range (32 / ty.width)).map fun i =>
    f ((List.range n).map fun k => BitVec.ofNat ty.width (elem ((vs[k]?).getD 0) i ty.width))))

/-- One rounded FP32 result with one draw. -/
def oneRounded (f : Nat → Nat → BitVec 32 → Nat) (t : Team) (l : Nat) (vs : List Nat) : LRes :=
  { words := natWords 1 (f t.rm (t.draw l 0) (arg 32 vs 0)), pred := none, draws := if t.rm = 5 then 1 else 0 }

/-- The sign bit of an encoding. -/
def signBit (w : Nat) : BitVec w := BitVec.twoPow w (w - 1)

/-- R164 to R167: the sums, products, minima, signs, comparison and class of the lanes. -/
def floatArithmetic : Instr → Option LaneRule
  | .vFadd h ty d a b => floatRule h d [a, b] (roundedElems ty fun rm vs i => (elemVal ty vs 0 i).add rm (elemVal ty vs 1 i))
  | .vFsub h ty d a b => floatRule h d [a, b] (roundedElems ty fun rm vs i => (elemVal ty vs 0 i).add rm (elemVal ty vs 1 i).neg)
  | .vFmul h ty d a b => floatRule h d [a, b] (roundedElems ty fun _ vs i => (elemVal ty vs 0 i).mul (elemVal ty vs 1 i))
  | .vFma h ty d a b c => floatRule h d [a, b, c] (roundedElems ty fun rm vs i =>
      ((elemVal ty vs 0 i).mul (elemVal ty vs 1 i)).add rm (elemVal ty vs 2 i))
  | .vFms h ty d a b c => floatRule h d [a, b, c] (roundedElems ty fun rm vs i =>
      ((elemVal ty vs 0 i).mul (elemVal ty vs 1 i)).add rm (elemVal ty vs 2 i).neg)
  | .vFnma h ty d a b c => floatRule h d [a, b, c] (roundedElems ty fun rm vs i =>
      ((elemVal ty vs 0 i).mul (elemVal ty vs 1 i)).neg.add rm (elemVal ty vs 2 i))
  | .vFnms h ty d a b c => floatRule h d [a, b, c] (roundedElems ty fun rm vs i =>
      ((elemVal ty vs 0 i).mul (elemVal ty vs 1 i)).neg.add rm (elemVal ty vs 2 i).neg)
  | .vFdot2 h ty2 d a b c => floatRule h d [a, b, c] fun t l vs =>
      { words := natWords 1 (Fmt.round .f32 t.rm (t.draw l 0)
          (((elemVal .f32 vs 2 0).add t.rm ((elemVal ty2 vs 0 0).mul (elemVal ty2 vs 1 0))).add t.rm
            ((elemVal ty2 vs 0 1).mul (elemVal ty2 vs 1 1))))
        pred := none
        draws := if t.rm = 5 then 1 else 0 }
  | .vFmin h ty d a b => floatRule h d [a, b] (plainElems ty 2 fun xs => (fmtOf ty).minOf (xs.headD 0).toNat ((xs.drop 1).headD 0).toNat)
  | .vFmax h ty d a b => floatRule h d [a, b] (plainElems ty 2 fun xs => (fmtOf ty).maxOf (xs.headD 0).toNat ((xs.drop 1).headD 0).toNat)
  | .vFneg h ty d a => floatRule h d [a] (plainElems ty 1 fun xs => (xs.headD 0 ^^^ signBit ty.width).toNat)
  | .vFabs h ty d a => floatRule h d [a] (plainElems ty 1 fun xs => (xs.headD 0 &&& ~~~signBit ty.width).toNat)
  | .vFcsgn h ty d a b => floatRule h d [a, b] (plainElems ty 2 fun xs =>
      ((xs.headD 0 &&& ~~~signBit ty.width) ||| ((xs.drop 1).headD 0 &&& signBit ty.width)).toNat)
  | .vFcmp h cc p a b => floatRule h 0 [a, b] fun _ _ vs => LRes.flag p.toNat (Fcc.holds cc ((vs[0]?).getD 0) ((vs[1]?).getD 0))
  | .vFclass h d a => floatRule h d [a] fun _ _ vs => LRes.num 1 (2 ^ fclassBit ((vs[0]?).getD 0))
  | _ => none

/-- R168 to R170: the conversions and the scaled quantisation of the lanes. -/
def floatConversion : Instr → Option LaneRule
  | .vFcvt h ty ty2 d a idx => floatRule h d [a] fun t l vs =>
      { words := natWords 1 ((fmtOf ty).round t.rm (t.draw l 0) (elemVal ty2 vs 0 idx.toNat))
        pred := none
        draws := if convRounds (fmtOf ty2) (fmtOf ty) && t.rm = 5 then 1 else 0 }
  | .vFcvtPk h ty d a b => floatRule h d [a, b] fun t l vs =>
      { words := natWords 1 ((fmtOf ty).round t.rm (t.draw l 0) (Fmt.val .f32 ((vs[0]?).getD 0)) +
          2 ^ 16 * (fmtOf ty).round t.rm (t.draw l 1) (Fmt.val .f32 ((vs[1]?).getD 0)))
        pred := none
        draws := if t.rm = 5 then 2 else 0 }
  | .vFtoi h ty ty2 d a idx => floatRule h d [a] fun t l vs =>
      { words := natWords (regsOf ty) (extend ty.isSigned ty.width (32 * regsOf ty) (toIntTy ty t.rm (t.draw l 0) (elemVal ty2 vs 0 idx.toNat)))
        pred := none
        draws := if t.rm = 5 then 1 else 0 }
  | .vItof h ty ty2 d a => laneRule h d [(a, regsOf ty2)] fun t l vs =>
      { words := natWords 1 ((fmtOf ty).round t.rm (t.draw l 0) (FVal.ofInt (valueOf ty2 (arg ty2.width vs 0))))
        pred := none
        draws := if t.rm = 5 then 1 else 0 }
  | .vFscl h ty d a b => floatRule h d [a, b] fun t l vs =>
      { words := natWords 1 (fsclScale ty t.rm (t.draw l 0) ((vs[0]?).getD 0) ((vs[1]?).getD 0))
        pred := none
        draws := if t.rm = 5 then 1 else 0 }
  | .vFqnt h ty d a b => laneRule h d [(a, 32 / ty.width), (b, 1)] fun t l vs =>
      { words := natWords 1 (packElems ty.width ((List.range (32 / ty.width)).map fun i =>
          fqntElem ty t.rm (t.draw l i) (elem ((vs[0]?).getD 0) i 32) ((vs[1]?).getD 0)))
        pred := none
        draws := 32 / ty.width * (if t.rm = 5 then 1 else 0) }
  | _ => none

/-- R171 to R174: the roots, exponentials, logarithms, circular functions and turn reductions. The approximation of R172 enters through
`fexp2`, `flog2` and `fsinOf` as a free value within its bound (log entry 10). -/
def floatFunctions : Instr → Option LaneRule
  | .vFrcp h d a => floatRule h d [a] (oneRounded fun rm dr x => recip rm dr (Fmt.val .f32 x.toNat))
  | .vFsqrt h d a => floatRule h d [a] (oneRounded fun rm dr x => fsqrt rm dr (Fmt.val .f32 x.toNat))
  | .vFrsq h d a => floatRule h d [a] (oneRounded fun rm dr x => frsqrt rm dr (Fmt.val .f32 x.toNat))
  | .vFexp2 h d a => floatRule h d [a] (oneRounded fexp2)
  | .vFlog2 h d a => floatRule h d [a] (oneRounded flog2)
  | .vFsin h d a => floatRule h d [a] (oneRounded (fsinOf false 2))
  | .vFcos h d a => floatRule h d [a] (oneRounded (fsinOf true 3))
  | .vFsincos h d a => floatRule h d [a] fun t l vs =>
      { words := natWords 2 (fsinOf false 4 t.rm (t.draw l 0) (arg 32 vs 0) + 2 ^ 32 * fsinOf true 5 t.rm (t.draw l 1) (arg 32 vs 0))
        pred := none
        draws := if t.rm = 5 then 2 else 0 }
  | .vFrr h d a => floatRule h d [a] (oneRounded frr)
  | .vFrrTurn h d a => floatRule h d [a] fun _ _ vs => LRes.num 1 (frrTurn (arg 32 vs 0))
  | _ => none

/-! ### Cross-lane words and the keyed generator (R175 to R181) -/

/-- Every register that a lane reads carries its word's residue. -/
def allGood (t : Team) : Prop := ∀ r l : Nat, (t.rGet r l).good = true

/-- The first lane of a lane's group. -/
def groupBase (t : Team) (l : Nat) : Nat := l / t.group * t.group

/-- The lanes of a lane's group that a word executes for, ascending. -/
def groupPeers (t : Team) (h : Hdr) (l : Nat) : List Nat :=
  (List.range t.lanes).filter fun j => t.active j && t.laneGuard h j && j / t.group == l / t.group

/-- R175: a lane takes the words of another lane of its group, with their codes. -/
def moveRule (h : Hdr) (ty : Ty) (d a : RegNo) (src : Team → Nat → Nat) : Option LaneRule :=
  laneRule h d [] fun t l _ => LRes.val (t.rRun a.toNat (regsOf ty) (src t l))

/-- A word whose result in a lane comes from its group's registers. -/
def groupValue (h : Hdr) (d : RegNo) (n : Nat) (f : Team → Nat → Nat) : Option LaneRule :=
  laneRule h d [] fun t l _ => LRes.num n (f t l)

/-- The value of a register in a lane. -/
def laneVal (t : Team) (a : RegNo) (n l : Nat) : Nat := wordsNat (t.rRun a.toNat n l)

/-- The bit of each listed lane's place in its group. -/
def placeMask (t : Team) (ls : List Nat) : Nat := (ls.map fun j => 2 ^ (j % t.group)).sum

/-- R175 to R177, R180: moves between lanes, matches, votes and the keyed generator. -/
def crossLaneWords : Instr → Option LaneRule
  | .vShfl h ty d a b => moveRule h ty d a fun t l => groupBase t l + laneVal t b 1 l % t.group
  | .vShup h ty d a c => moveRule h ty d a fun t l => if c.toNat ≤ l % t.group then l - c.toNat else l
  | .vShdn h ty d a c => moveRule h ty d a fun t l => if l % t.group + c.toNat < t.group then l + c.toNat else l
  | .vXswz h ty d a c => moveRule h ty d a fun t l => groupBase t l + ((l % t.group) ^^^ c.toNat)
  | .vBcast h ty d a c => moveRule h ty d a fun t l => groupBase t l + c.toNat
  | .vBcastf h ty d a => moveRule h ty d a fun t l => (groupPeers t h l).headD l
  | .vMatch h ty d a => groupValue h d 2 fun t l =>
      placeMask t ((groupPeers t h l).filter fun j => laneVal t a (regsOf ty) j == laneVal t a (regsOf ty) l)
  | .vVoteAny h p pa => laneRule h 0 [] fun t l _ =>
      LRes.flag p.toNat (decide (∃ j ∈ groupPeers t h l, t.pGet pa.toNat j = true))
  | .vVoteAll h p pa => laneRule h 0 [] fun t l _ =>
      LRes.flag p.toNat (decide (∀ j ∈ groupPeers t h l, t.pGet pa.toNat j = true))
  | .vBallot h d pa => groupValue h d 2 fun t l => placeMask t ((groupPeers t h l).filter fun j => t.pGet pa.toNat j)
  | .vKgen h d a b c => laneRule h d [(a, 2), (b, 2), (c, 1)] fun _ _ vs =>
      LRes.num 1 (kg (arg 64 vs 0) ((vs[2]?).getD 0) (arg 64 vs 1)).toNat
  | _ => none

/-- A reduction by an operation whose grouping does not matter: over the group's lanes that take part (R178). -/
def foldRule (h : Hdr) (d a : RegNo) (f : Nat → Nat → Nat) : Option LaneRule :=
  groupValue h d 1 fun t l => match (groupPeers t h l).map (laneVal t a 1) with
    | [] => 0
    | x :: xs => xs.foldl f x

/-- The integer reductions (R178) and the integer scans (R179), by type. -/
def reductionWords : Instr → Option LaneRule
  | .vRedAdd h ty d a => if ty = .s32 ∨ ty = .n32 then
      groupValue h d 1 fun t l => ((groupPeers t h l).map (laneVal t a 1)).sum else none
  | .vRedMin h ty d a => if ty = .s32 ∨ ty = .n32 then foldRule h d a (aluMin ty) else none
  | .vRedMax h ty d a => if ty = .s32 ∨ ty = .n32 then foldRule h d a (aluMax ty) else none
  | .vRedAnd h d a => foldRule h d a (· &&& ·)
  | .vRedOr h d a => foldRule h d a (· ||| ·)
  | .vRedXor h d a => foldRule h d a (· ^^^ ·)
  | .vScanAdd h ty d a => if ty = .s32 ∨ ty = .n32 then
      groupValue h d 1 fun t l => (((groupPeers t h l).filter (· ≤ l)).map (laneVal t a 1)).sum else none
  | .vScanMin h ty d a => if ty = .s32 ∨ ty = .n32 then
      groupValue h d 1 fun t l => match ((groupPeers t h l).filter (· ≤ l)).map (laneVal t a 1) with
        | [] => 0
        | x :: xs => xs.foldl (aluMin ty) x
    else none
  | .vScanMax h ty d a => if ty = .s32 ∨ ty = .n32 then
      groupValue h d 1 fun t l => match ((groupPeers t h l).filter (· ≤ l)).map (laneVal t a 1) with
        | [] => 0
        | x :: xs => xs.foldl (aluMax ty) x
    else none
  | .vScanAddx h ty d a => if ty = .s32 ∨ ty = .n32 then
      groupValue h d 1 fun t l => (((groupPeers t h l).filter (· < l)).map (laneVal t a 1)).sum else none
  | _ => none

/-- R62: the fixed pairwise tree over the lanes of a group that take part; `join` gets the draw of the step's lane. -/
def pairwiseRule (h : Hdr) (d a : RegNo) (draws : Bool) (join : Team → Nat → Nat → Nat → Nat) : Option LaneRule :=
  laneRule h d [] fun t l _ =>
    match redTree t.draw (draws && t.rm == 5) (join t)
        (fun j => if (groupPeers t h l).contains j then some (laneVal t a 1 j) else none) (log2 t.group) (groupBase t l) with
    | some n => { words := natWords 1 n.val, pred := none, draws := n.drawsOf l }
    | none => LRes.num 1 0

/-- R63: the scan in ascending lane order; each lane but the first takes a draw where the sum rounds stochastically. -/
def scanRule (h : Hdr) (d a : RegNo) (draws : Bool) (join : Team → Nat → Nat → Nat → Nat) : Option LaneRule :=
  laneRule h d [] fun t l _ =>
    { words := natWords 1 (match (groupPeers t h l).filter (· ≤ l) with
        | [] => 0
        | x :: xs => xs.foldl (fun acc j => join t j acc (laneVal t a 1 j)) (laneVal t a 1 x))
      pred := none
      draws := if draws && t.rm = 5 && (groupPeers t h l).head? != some l then 1 else 0 }

/-- A rounded FP32 sum. -/
def roundedSum (t : Team) (draw x y : Nat) : Nat := Fmt.round .f32 t.rm draw ((Fmt.val .f32 x).add t.rm (Fmt.val .f32 y))

/-- R62, R63, R178, R179: the FP32 reductions and scans. -/
def floatReductionWords : Instr → Option LaneRule
  | .vRedAdd h ty d a => if ty = .f32 then pairwiseRule h d a true roundedSum else none
  | .vRedMin h ty d a => if ty = .f32 then pairwiseRule h d a false fun _ _ x y => Fmt.minOf .f32 x y else none
  | .vRedMax h ty d a => if ty = .f32 then pairwiseRule h d a false fun _ _ x y => Fmt.maxOf .f32 x y else none
  | .vScanAdd h ty d a => if ty = .f32 then scanRule h d a true fun t j x y => roundedSum t (t.draw j 0) x y else none
  | .vScanMin h ty d a => if ty = .f32 then scanRule h d a false fun _ _ x y => Fmt.minOf .f32 x y else none
  | .vScanMax h ty d a => if ty = .f32 then scanRule h d a false fun _ _ x y => Fmt.maxOf .f32 x y else none
  | _ => none


/-! ### The memory words of the lanes (R258 to R276) -/

/-- No stored code error, no poisoned block and no write on its way to its home: an access meets nothing but the bytes at their homes and the
copies in caches. -/
structure Quiet (s : State) : Prop where
  codes : s.codeErrs = []
  clean : s.poison = []
  still : s.pend = []

/-- Every lane that a memory word executes for reaches its place: the home key, address and leaf that `at_` names (R263, R265); and where a
lane's home is another device that has to be asked, it has answered and does not refuse (R242, R243). -/
def reaches (s : State) (t : Team) (h : Hdr) (acc : Acc) (m : MemForm) (extra : LaneAcc → LaneAcc) (at_ : Nat → Nat × Nat × Option Leaf) :
    Prop :=
  ∀ l ∈ t.lanesFor h,
    extra (s.laneAccess t l acc m.vt m.size (m.addr t l)) = .ok (at_ l).1 (at_ l).2.1 (at_ l).2.2 ∧
    ∀ n, s.laneNeed t acc m.size (l, .ok (at_ l).1 (at_ l).2.1 (at_ l).2.2) = some n →
      ∃ a bs, s.asked t.uid n.2.2.1 n.2.2.2 = some a ∧ a.ans = some (.bytes bs)

/-- The bytes that a lane's load finds (R260, R267): a vault's at their home; a global address's as the lane's core sees them, those of another
device from the block that it has sent. -/
def seenBytes (s : State) (t : Team) (l size : Nat) (p : Nat × Nat × Option Leaf) : List Byte :=
  (List.range size).map fun i =>
    match p.2.2 with
    | none => s.byte (p.1 + i)
    | some lf => s.laneByte t (t.coreOf l) (s.ctxOf t) (p.2.1 + i) (p.1 + i) lf

/-- Where the lanes of a load could be served by more than one copy, as on the two cores of a pair, the copies of their bytes hold what they see. -/
def copiesAgree (s : State) (t : Team) (h : Hdr) (size : Nat) (at_ : Nat → Nat × Nat × Option Leaf) : Prop :=
  ∀ l ∈ t.lanesFor h, ∀ lf, (at_ l).2.2 = some lf → t.pair = true ∨ peerHome (at_ l).1 = true →
    (∀ k ∈ t.cores, differs s.l1 (fun o => o.val) (l1Key k t.asid (at_ l).2.1) (seenBytes s t l size (at_ l)) = false) ∧
    differs s.remote id (spaceKey t.asid (at_ l).2.1) (seenBytes s t l size (at_ l)) = false

/-- What a load gives a lane (R267, R268). -/
def loadRes (ty : Ty) (m : MemF) (flag : Option Nat) (bs : List Byte) : LRes :=
  { words := loadWords ty m.q (leNat bs), pred := flag.map fun p => (p, true), draws := 0 }

/-- A load: its word, header, type, destination, address form, space and the predicate of a residency load. -/
def isLoad (i : Instr) (h : Hdr) (ty : Ty) (d : RegNo) (f : MemForm) (m : MemF) (flag : Option Nat) : Prop :=
  (∃ a b c, i = .vLd h ty d a b c m ∧ f = MemForm.of a b c m (accessSize ty m.q) ∧ flag = none) ∨
  (∃ a b c p, i = .vLdr h ty d a b c m p ∧ f = MemForm.of a b c m (accessSize ty m.q) ∧ flag = some p.toNat)

/-- The writes that lanes make, in lane order, as they go on their way (R266). -/
def sentWrites (t : Team) (i : Instr) (h : Hdr) (vt : Bool) (at_ : Nat → Nat × Nat × Option Leaf) (kind : Nat → WriteKind)
    (bytes : Nat → List Byte) : List PWrite :=
  (t.lanesFor h).map fun l =>
    { uid := t.uid, seq := t.issued, core := t.coreOf l, cores := t.cores, gid := t.gid, asid := t.asid, va := (at_ l).2.1, vault := vt,
      key := (at_ l).1, lane := l, pc := t.pc, base := (recWords i).1, ext := (recWords i).2, bytes := bytes l, kind := kind l }

/-- Atomic units at work in lane order (R274): each lane meets the word that the lanes before it left, and leaves its own. -/
def unitSequence (n : Nat) (new : Nat → Nat → Nat) : (Nat → Byte) → List (Nat × Nat) → List (Nat × Nat) × (Nat → Byte)
  | mem, [] => ([], mem)
  | mem, (l, key) :: rest =>
    let old := leNat ((List.range n).map fun i => mem (key + i))
    let bs := natLe n (new l old)
    let r := unitSequence n new (fun a => if key ≤ a ∧ a < key + n then (bs[a - key]?).getD 0 else mem a) rest
    ((l, old) :: r.1, r.2)

/-- The data of a lane's atomic operation: none for `rr` (R272). -/
def atomData_ (t : Team) (aop : AtomOp) (ty : Ty) (b : RegNo) (l : Nat) : Nat := if aop = .rr then 0 else wordsNat (t.rRun b.toNat (regsOf ty) l)

/-- The draw that a lane's atomic carries: a floating add's, where it rounds stochastically (R58). -/
def atomDraw (t : Team) (aop : AtomOp) (l : Nat) : Nat := if aop = .fadd ∧ t.rm = 5 then t.draw l 0 else 0

/-- A returning atomic: its word, operation, type, destination, address form, the new word of a lane, and what the host link offers. -/
def isAtomic (t : Team) (i : Instr) (h : Hdr) (aop : AtomOp) (ty : Ty) (d : RegNo) (f : MemForm) (okHost : Bool)
    (new : Nat → Nat → Nat) : Prop :=
  (∃ a b c sp, i = .vAtom h aop ty d a b c sp ∧ f = MemForm.atom a c sp (ty.width / 8) ∧ okHost = hostOp aop ∧
    new = fun l old => atomNew aop ty old (atomData_ t aop ty b l) t.rm (atomDraw t aop l)) ∨
  (∃ a b c sp, i = .vCas h ty d a b c sp ∧ f = MemForm.atom a c sp (ty.width / 8) ∧ okHost = true ∧ aop = .xchg ∧
    new = fun l old => if old = wordsNat (t.rRun b.toNat (regsOf ty) l) % 2 ^ ty.width then
      wordsNat (t.rRun (b.toNat + regsOf ty) (regsOf ty) l) % 2 ^ ty.width else old)

/-! ### Control transfers (R104 to R110, R135) -/

/-- A lane is in a group that the word executes for (R19). -/
def inGroups (t : Team) (h : Hdr) (l : Nat) : Bool := (t.groupsFor h).contains (l / t.group)

/-- The condition that a selector names holds for a lane (R105). -/
def selects (t : Team) (l : Nat) : Sel → Bool
  | .p false n => t.pGet n.toNat l
  | .p true n => !t.pGet n.toNat l
  | .q false n => t.qGet n.toNat (l / t.group)
  | .q true n => !t.qGet n.toNat (l / t.group)
  | .reg n => decide ((t.sGet n.toNat (l / t.group)).val.toNat ≠ 0)

/-- What a transfer does: the target and its index for each active lane that leaves, its reconvergence offset, the registers that it writes,
and where R105 lets it run without a stop. -/
structure JumpRule where
  rcv : BitVec 13
  goes : Nat → Option (Nat × BitVec 16)
  write : Team
  ok : Prop

/-- The PC at a signed offset in the segment (R72). -/
def offTarget (t : Team) (off : BitVec 13) : BitVec 16 := t.pc + off.signExtend 16

/-- A transfer of the lanes of a list to one target. -/
def oneTarget (rcv : BitVec 13) (which : Nat → Bool) (p : BitVec 16) (write : Team) : Option JumpRule :=
  some { rcv := rcv, goes := fun l => if which l then some (0, p) else none, write := write, ok := True }

/-- The groups' `s63` takes the fall-through PC (R106). -/
def linked (t : Team) (h : Hdr) (len : Nat) : Team :=
  t.writeGroups 255 (t.groupsFor h) fun _ => URes.num 1 (t.pc + BitVec.ofNat 16 len).toNat

/-- A transfer by register within the segment: the qualifying groups agree on bits 15:0. -/
def regRule (t : Team) (h : Hdr) (n : BitVec 6) (rcv : BitVec 13) (write : Team) : Option JumpRule :=
  let pcOf := fun (g : Nat) => (t.sGet n.toNat g).val.truncate 16
  some { rcv := rcv, goes := fun l => if inGroups t h l then some (0, pcOf (l / t.group)) else none, write := write,
         ok := ∀ g ∈ t.groupsFor h, (∀ g' ∈ t.groupsFor h, pcOf g' = pcOf g) ∧ (pcOf g).toNat / 4096 = t.pc.toNat / 4096 }

/-- A transfer by table: every lane's index is within the list and its target within the segment (R73). -/
def tableRule (t : Team) (h : Hdr) (idx : RegNo) (rcv : BitVec 13) (ts : List (BitVec 16)) (write : Team) : Option JumpRule :=
  let at_ := fun (l : Nat) => (t.rGet idx.toNat l).val.toNat
  some { rcv := rcv, goes := fun l => if inGroups t h l then some (at_ l, (ts[at_ l]?).getD 0) else none, write := write,
         ok := ts.length ≤ 256 ∧ ∀ l ∈ t.activeLanes, inGroups t h l = true → ∃ p, ts[at_ l]? = some p ∧ p.toNat / 4096 = t.pc.toNat / 4096 }

/-- R105, R106: the destinations and register writes of the transfers. -/
def jumpRule (t : Team) (i : Instr) : Option JumpRule :=
  match i with
  | .sJmp h off rcv => oneTarget rcv (inGroups t h) (offTarget t off) t
  | .sBr h sel off rcv => oneTarget rcv (fun l => inGroups t h l && selects t l sel) (offTarget t off) t
  | .sBrAll h sel off rcv => oneTarget rcv
      (fun l => inGroups t h l && t.activeLanes.all fun m => !inGroups t h m || selects t m sel) (offTarget t off) t
  | .sBrAny h sel off rcv => oneTarget rcv
      (fun l => inGroups t h l && t.activeLanes.any fun m => inGroups t h m && selects t m sel) (offTarget t off) t
  | .sLoop h n off rcv => oneTarget rcv
      (fun l => inGroups t h l && decide ((t.sGet n.toNat (l / t.group)).val ≠ 1)) (offTarget t off)
      (t.writeGroups (192 + n.toNat) (t.groupsFor h) fun g => URes.num 1 ((t.sGet n.toNat g).val - 1).toNat)
  | .sCall h off rcv => oneTarget rcv (inGroups t h) (offTarget t off) (linked t h i.length)
  | .sJr h n rcv => regRule t h n rcv t
  | .sCallr h n rcv => regRule t h n rcv (linked t h i.length)
  | .sBtab h idx rcv ts => tableRule t h idx rcv ts t
  | .sBtabc h idx rcv ts => tableRule t h idx rcv ts (linked t h i.length)
  | _ => none

/-- A team after a transfer that its sequencer took: the stack is given, the count of `TSKIP` ends outside handler mode (R145), and the loop
buffer is the sequencer's (R137). -/
def arrived (t : Team) (stack : List PathEntry) (b : Option LoopBuf) : Team :=
  { t with stack := stack, loopBuf := b, issued := t.issued + 1, tskip := if t.handler then t.tskip else 0, skipPos := 0 }

/-- One path runs before another (R109): a target before the fall-through PC, and of two targets that of the lower index. -/
def runsBefore (t : Team) (r : JumpRule) (ft p q : BitVec 16) : Prop :=
  p ≠ ft ∧ (q = ft ∨ ∃ l ∈ t.activeLanes, ∃ k, r.goes l = some (k, p) ∧ ∀ m ∈ t.activeLanes, ∀ k', r.goes m = some (k', q) → k < k')

/-- The stack after a diverging transfer (R109): the paths whose PC is not the reconvergence point, first in run order on top; below them the
reconvergence entry. -/
def splitStack (t : Team) (dest : Nat → BitVec 16) (rcv : BitVec 16) (ps : List (BitVec 16)) : List PathEntry :=
  ((ps.filter fun p => decide (p ≠ rcv)).map fun p =>
    { pc := p, mask := maskOf (t.activeLanes.filter fun l => decide (dest l = p)), rpc := some rcv, fmt := t.top.fmt }) ++
  (if t.top.rpc = some rcv then t.stack.tail else { t.top with pc := rcv } :: t.stack.tail)

/-- Where a transfer's lanes go. -/
def JumpRule.dest (r : JumpRule) (ft : BitVec 16) (l : Nat) : BitVec 16 := match r.goes l with | some (_, p) => p | none => ft

/-- The reconvergence point that RCV names (R68). -/
def JumpRule.point (r : JumpRule) (t : Team) (ft : BitVec 16) : BitVec 16 := if r.rcv = 0 then ft else t.pc + r.rcv.signExtend 16

/-- A word comes to a state that holds this team, with every byte of memory as before. -/
def comesTo (i : Instr) (s : State) (t : Team) : Prop :=
  ∃ s', exec i s = .next s' ∧ s'.team? t.uid = some t ∧ ∀ a, s'.byte a = s.byte a

/-- The lanes of the groups that a word executes for. -/
def exitMask (t : Team) (h : Hdr) : Mask := maskOf (t.activeLanes.filter (inGroups t h))

/-- Lanes leave every held entry and the handler's frame (R107, R146). -/
def withoutLanes (t : Team) (m : Mask) : Team :=
  { t with stack := t.stack.map (fun e => { e with mask := e.mask &&& ~~~m }), frame := t.frame.map fun e => { e with mask := e.mask &&& ~~~m } }

/-! ### Barriers, waits and fences (R114 to R121, R285 to R291) -/

/-- What an acquire leaves (R286): in the L1 of a core of the team only words that the core owns, none of a HOST page, and remote copies only of
words that a core owns. -/
def acquired (owners : SMap Nat) (t : Team) (s' : State) : Prop :=
  (∀ e ∈ s'.l1, t.cores.contains (e.1 / 2 ^ 68) = true → e.2.host = false ∧
    SMap.find owners (spaceKey (e.1 / 2 ^ 56 % 2 ^ 12) (e.1 % 2 ^ 56 / 4 * 4)) = some (e.1 / 2 ^ 68)) ∧
  ∀ e ∈ s'.remote, ∃ o, SMap.find owners (e.1 / 4 * 4) = some o ∧ o < 512

/-- What a release that is complete leaves (R285): no write is on its way, and every revoke is acknowledged. -/
def released (s' : State) : Prop := s'.pend = [] ∧ s'.revokes = []

/-- A release that the team begins needs no answer of another device: its word has not begun one yet, no stored code error or poisoned block
is met, and no write, revoke or question concerns another device (R284, R285). -/
def localRelease (s : State) (t : Team) : Prop :=
  t.relIssue ≠ some t.issued ∧ s.codeErrs = [] ∧ s.poison = [] ∧ (∀ w ∈ s.pend, peerHome w.key = false ∧ w.core < 512) ∧
    (∀ e ∈ s.owners, e.2 ≤ 512) ∧ (∀ r ∈ s.revokes, r.core < 512) ∧ ∀ a ∈ s.remAsks, a.registers = false

/-- A release of the team completes at once: nor has it stored to a HOST page since its last zero-length read (R295). -/
def releasesNow (s : State) (t : Team) : Prop := localRelease s t ∧ t.hostStores = false

/-- The team as a release leaves it: it waits for what was noted before a number. -/
def releasing (t : Team) (tag : Nat) : Team := { t with hostStores := false, relTag := tag, relIssue := some t.issued }

/-- The core cycles that a message between a team's core and a barrier's takes (R118). -/
def barrierDistance (x y : Nat) : Nat := if x = y then 2 else if x / 4 = y / 4 then 6 else if x / 192 = y / 192 then 20 else 48

/-- The lead group and the others that a team-scoped word executes for. -/
def leads (t : Team) (h : Hdr) (lead : Nat) (rest : List Nat) : Prop := t.groupsFor h = lead :: rest

/-- A number in a pair or single register of the lead group. -/
def leadVal (t : Team) (lead : Nat) (a : RegNo) (n : Nat) : Nat := wordsNat (t.sRun a.toNat n lead)

/-- A team that its held word lets go on. -/
def woken (t : Team) : Team := Team.pass { t with hold := .free, copyLateHeld := false } t.heldLen

/-- A held word does not end at its segment's last word. -/
def heldFits (t : Team) : Prop := t.pc.toNat % 4096 + t.heldLen < 4096

/-- The slot of a barrier, and what a team that names it has to find (R114, R116). -/
def barrierAt (s : State) (t : Team) (b core idx : Nat) (g : Grid) : Prop :=
  s.grid? t.gid = some g ∧ b < g.nbar ∧ g.barCore = some core ∧ idx = g.barBase + b

/-- A team with a handle status written in its groups. -/
def answered (t : Team) (d : RegNo) (gs : List Nat) (st : HStatus) : Team := t.sAll d.toNat gs [RWord.ofNat st.code]

/-- The slot's arrival of R116: a count that agrees is counted, and the last one of a phase ends it. -/
def counted (b : BarSlot) (n : Nat) : BarSlot :=
  if b.cnt + 1 = n then { b with exp := n, cnt := 0, gen := b.gen + 1 } else { b with exp := n, cnt := b.cnt + 1 }

/-! ### CSRs, seeds, traps and the return from a handler (R122 to R126, R139 to R150) -/

/-- A word of a machine-check record as a team reads it: zero before it is readable, and of another address space's record unless the team is
privileged (R194, R195). -/
def recordWord (s : State) (t : Team) (n w : Nat) : Nat :=
  let r := (s.core t.home).mcRec n
  if r.readable = true ∧ (t.privileged = true ∨ (r.words.headD 0).toNat / 2 ^ 32 % 2 ^ 12 = t.asid) then ((r.words[w]?).getD 0).toNat else 0

/-- The states of 32 islands, two bits each (R425). -/
def islandStates (s : State) (n : Nat) : Nat :=
  ((List.range 32).map fun i =>
    (match (s.island (32 * n + i)).st with | .run => 0 | .idle => 1 | .ret => 2 | .waking => 3) * 4 ^ i).sum

/-- The CSRs that a team reads, with their width in registers (R95, R123 to R126, R195, R208, R241, R299, R317, R364, R391, R392, R400, R414, R425,
R451). -/
def csrReads (s : State) (t : Team) : List (Nat × Nat × Nat) :=
  let c := s.ctxOf t
  [(0x000, 1, t.tcw.toNat), (0x001, 1, t.top.fmt.toNat), (0x004, 2, t.seed0.toNat), (0x005, 2, t.seed1.toNat), (0x006, 2, t.seed2.toNat),
   (0x007, 2, t.seed3.toNat), (0x008, 1, t.lin), (0x009, 1, t.lanes * 65536 + t.group), (0x00A, 1, (if t.pair then 512 else 0) + t.home),
   (0x00B, 2, t.tstka.toNat), (0x010, 2, s.cyc.toNat), (0x012, 2, s.pkg.capchg.toNat), (0x013, 1, c.lscale.toNat), (0x014, 1, c.lskip.toNat),
   (0x018, 2, c.otbase.toNat), (0x019, 1, c.otlen.toNat), (0x020, 2, t.tcause.toNat), (0x021, 1, t.tpc.toNat), (0x022, 1, t.tvb.toNat),
   (0x023, 1, t.tskip.toNat), (0x200, 1, t.ckinj.toNat), (0x210, 1, t.mxgang.toNat), (0x211, 1, t.mxwin.toNat),
   (0x011, 1, min 65535 t.debtHome * 2 ^ 16 + (if (s.core t.home).resv = some t.uid then 2 ^ 15 else 0) + (s.core t.home).bal % 2 ^ 12),
   (0x015, 1, 0x60408480), (0x212, 1, (s.cluster (t.home / 4)).mxcfg.toNat), (0x234, 2, s.pkg.frtab.toNat), (0x235, 2, s.pkg.mpool.toNat),
   (0x236, 2, s.pkg.mphead.toNat), (0x237, 2, s.pkg.mptail.toNat), (0x238, 2, s.pkg.mlog.toNat), (0x239, 2, s.pkg.mlogpos.toNat),
   (0x241, 2, s.pkg.clcfg.toNat), (0x252, 2, s.pkg.pcap * 2 ^ 32 + s.pkg.pbal), (0x260, 2, s.pkg.rampcfg.toNat),
   (0x251, 2, if t.home < 192 then s.pkg.dcap0 * 2 ^ 32 + s.pkg.dbal0 else s.pkg.dcap1 * 2 ^ 32 + s.pkg.dbal1),
   (0x261, 2, s.gov.level * 2 ^ 44 + s.gov.balr * 2 ^ 24 + s.gov.vset * 2 ^ 12 + s.gov.dstep), (0x262, 2, s.pkg.ramplim.toNat),
   (0x264, 2, islandStates s 0), (0x265, 2, islandStates s 1), (0x266, 2, islandStates s 2), (0x267, 2, islandStates s 3),
   (0x281, 2, s.nvm.wtc1.toNat), (0x283, 2, s.nvm.whrs0.toNat), (0x284, 2, s.nvm.whrs1.toNat),
   (0x220, 2, c.qtbase.toNat), (0x221, 2, c.tapebase.toNat), (0x222, 2, c.flogbase.toNat), (0x223, 2, c.flogpos.toNat),
   (0x224, 2, c.lscfg.toNat), (0x225, 2, c.tdepth.toNat), (0x230, 2, c.ptbase.toNat), (0x231, 2, c.pgcfg.toNat), (0x232, 2, c.prqbase.toNat),
   (0x233, 2, c.prqpos.toNat), (0x23A, 2, s.pkg.peerid.toNat), (0x240, 2, c.clgbase.toNat), (0x250, 2, (s.core t.home).tkcore.toNat),
   (0x280, 2, s.nvm.wtc0.toNat), (0x282, 2, s.nvm.wpwr.toNat)] ++
  (List.range 128).map (fun n => (0x100 + n, 2, recordWord s t (n / 8) (n % 8))) ++
  (List.range 16).map (fun b => (0x270 + b, 1, (SMap.get 0xFFFFFFFF s.pkg.ramptab b).toNat)) ++
  (List.range 32).map (fun n => (0x040 + n, 1, (t.flm.extractLsb' (32 * n) 32).toNat)) ++
  (List.range 32).map (fun n => (0x060 + n, 1, (t.dropl.extractLsb' (32 * n) 32).toNat))

/-- The 64-bit value of a team's own register (R123), zero-extended. -/
def ownCsr (t : Team) (n : Nat) : BitVec 64 :=
  match n with
  | 0x000 => t.tcw.zeroExtend 64
  | 0x001 => t.top.fmt.zeroExtend 64
  | 0x004 => t.seed0 | 0x005 => t.seed1 | 0x006 => t.seed2 | 0x007 => t.seed3
  | 0x021 => t.tpc.zeroExtend 64
  | 0x022 => t.tvb.zeroExtend 64
  | 0x023 => t.tskip.zeroExtend 64
  | 0x200 => t.ckinj.zeroExtend 64
  | _ => 0

/-- The formula of R122 for RW fields: `s.csrw`, `s.csrs` and `s.csrc`. -/
def rwFormula : CsrOp → BitVec 64 → BitVec 64 → BitVec 64
  | .write, _, x => x
  | .set, old, x => old ||| x
  | .clear, old, x => old &&& ~~~x

/-- What a write clears of W1C bits (R122). -/
def w1c : CsrOp → BitVec 64 → BitVec 64
  | .set, _ => 0
  | _, x => x

/-- The RW bits of a 32-bit register take the new value's. -/
def keepRo (rw old : Word) (y : BitVec 64) : Word := (old &&& ~~~rw) ||| (y.truncate 32 &&& rw)

/-- The team after a CSR write that R113 and R124 allow: RO fields and registers are as before. -/
def csrWritten (t : Team) (op : CsrOp) (n : Nat) (x : BitVec 64) : Option Team :=
  let y := rwFormula op (ownCsr t n) x
  match n with
  | 0x000 => if y.toNat % 8 < 6 then some { t with tcw := keepRo 0x0000E007 t.tcw y } else none
  | 0x001 => if fmtOk (y.toNat % 65536) then some (t.setTop { t.top with fmt := (y.truncate 16).zeroExtend 32 }) else none
  | 0x004 => some { t with seed0 := y }
  | 0x005 => some { t with seed1 := y }
  | 0x006 => some { t with seed2 := y }
  | 0x007 => some { t with seed3 := y }
  | 0x020 => some { t with tcause := t.tcause &&& ~~~(w1c op x &&& 0x1FFF_FFFF) }
  | 0x021 => if t.handler then some { t with tpc := keepRo 0x0000FFFF t.tpc y } else none
  | 0x022 => some { t with tvb := keepRo 0x8000FFFF t.tvb y }
  | 0x023 => if t.handler then some { t with tskip := y.truncate 32 &&& 0x7FFF } else none
  | 0x200 => some { t with ckinj := keepRo 0xFFE003FF t.ckinj y }
  | n =>
    if 0x060 ≤ n ∧ n < 0x080 then
      some { t with dropl := t.dropl &&& ~~~(((w1c op x).truncate 32).zeroExtend 1024 <<< (32 * (n - 0x060))) }
    else if (0x008 ≤ n ∧ n ≤ 0x00B) ∨ (0x010 ≤ n ∧ n ≤ 0x019) ∨ (0x040 ≤ n ∧ n < 0x060) ∨ 0x210 ≤ n then some t
    else none

/-- The three CSR writes. -/
def csrWord (op : CsrOp) (h : Hdr) (d : RegNo) (csr : BitVec 12) : Instr :=
  match op with
  | .write => .sCsrw h d csr
  | .set => .sCsrs h d csr
  | .clear => .sCsrc h d csr

/-- A team with a seed register written (R125). -/
def seeded (t : Team) (n : BitVec 2) (x : BitVec 64) : Team :=
  { t with seed0 := if n = 0 then x else t.seed0, seed1 := if n = 1 then x else t.seed1,
           seed2 := if n = 2 then x else t.seed2, seed3 := if n = 3 then x else t.seed3 }

/-- A seed register. -/
def seedOf (t : Team) (n : BitVec 2) : BitVec 64 := if n = 0 then t.seed0 else if n = 1 then t.seed1 else if n = 2 then t.seed2 else t.seed3

/-- A change of the team's PC passes the fence (R135): it stays in the segment, or the other segment has landed. -/
def fencePasses (s : State) (t : Team) (p : Nat) : Prop := p / 4096 = t.pc.toNat / 4096 ∨ s.segStatus t (p / 4096) = 2

/-- The loop buffer that a team has the use of after a change of its PC: none in another segment (R135). -/
def keptBuf (t : Team) (p : Nat) : Option LoopBuf := if p / 4096 = t.pc.toNat / 4096 then t.loopBuf else none

/-- The handler can be entered at a stop (R146): `TVB`.EN is set, handler mode is off and the change to the handler's PC passes the fence; and
nothing is in flight, pending or skipped. -/
def handlerReady (s : State) (t : Team) : Prop :=
  t.tvb.getLsbD 31 = true ∧ t.tcw.getLsbD 30 = false ∧ fencePasses s t (t.tvb.toNat % 65536) ∧ t.flight = [] ∧ t.pendCauses = 0 ∧
  t.tskip = 0

/-- The team in its handler (R139, R143, R146). -/
def entered (t : Team) (resume code : BitVec 16) (c : Cause) (lanes : Mask) : Team :=
  { t with
    tpc := code ++ resume
    tskip := 0
    skipPos := 0
    tcause := (1 : BitVec 64) <<< c.bit
    flm := if c ∈ [Cause.btabRange, .page, .perm, .align, .bounds, .rights, .vault, .mcheck] then lanes else t.flm
    frame := some { t.top with pc := resume }
    frameDepth := t.depth
    stack := { t.top with pc := t.tvb.truncate 16, rpc := none } :: t.stack.tail
    tcw := t.tcw ||| 0x4000_0000
    loopBuf := keptBuf t (t.tvb.toNat % 65536)
    hold := .free
    relIssue := none
    stopReq := none
    heldHome := 0
    heldOdd := 0 }

/-! ### The check engine's words (R195, R200 to R206) -/

/-- A lane's result is written in each lane that a word executes for, and the team is past the word. -/
def lanesWritten (s : State) (t : Team) (h : Hdr) (d : RegNo) (i : Instr) (res : Nat → LRes) : State :=
  s.putTeam ((t.writeLanes d.toNat (t.lanesFor h) res).pass i.length)

/-- The code that `ck.injr` gives a word (R205). -/
def chosenCode (x : Word) (d : Nat) : BitVec 3 := if d = 7 then 7 else BitVec.ofNat 3 ((x.toNat % 7 + d) % 7)

/-- The form of an injection word: a 64-byte block at each lane's pair A (R206). -/
def injForm (vt : Bool) (a : RegNo) : MemForm := { vt := vt, a := a, b := 0, ix := false, sc := 0, c := 0, size := 64 }

/-- The injection words. -/
def isInjection (i : Instr) (h : Hdr) (vt : Bool) (e : CodeErr) (a : RegNo) : Prop :=
  (i = .ckInjmGCe h a ∧ vt = false ∧ e = .ce) ∨ (i = .ckInjmGUe h a ∧ vt = false ∧ e = .ue) ∨
  (i = .ckInjmVtCe h a ∧ vt = true ∧ e = .ce) ∨ (i = .ckInjmVtUe h a ∧ vt = true ∧ e = .ue)

/-! ### The matrix engine (R298 to R317) -/

/-- A team whose command took a handle (R31, R32): the free list's first slot is PENDING in its next generation, and the handle is written in
the groups. -/
def handed (t : Team) (eng slot : Nat) (rest : List Nat) (d : RegNo) (gs : List Nat) (promise : Option Nat) : Team :=
  let gen := ((SMap.get HSlot.reset t.handles slot).gen + 1) % 128
  Team.sAll { t with handles := SMap.put t.handles slot { gen := gen, status := .pending, eng := eng, promise := promise }, freeSlots := rest }
    d.toNat gs [RWord.ofNat (eng * 8192 + gen * 64 + slot)]

/-- The premises of an engine command: its groups, a free slot, right codes, and with ACQ a release that completes at once. -/
def commands (s : State) (t : Team) (i : Instr) (h : Hdr) (lead : Nat) (gs : List Nat) (slot : Nat) (rest : List Nat) (acq : Bool) : Prop :=
  Runs s t i ∧ allGood t ∧ t.groupsFor h = lead :: gs ∧ t.freeSlots = slot :: rest ∧ slot < 64 ∧ (acq = true → releasesNow s t)

/-- A team whose engine command has released with ACQ, from a number on, and is as it was without (R290). -/
def sending (t : Team) (acq : Bool) (n : Nat) : Team := if acq then releasing t n else t

/-- The cluster of a team's engines (R11, R26). -/
def engineOf (t : Team) : Nat := t.home / 4

/-- A control word names rows inside the team's window (R303, R310). -/
def inWindow (t : Team) (ctrl n : Nat) : Prop :=
  t.mxwin.getLsbD 31 = true ∧ ctrl / 2 ^ 13 % 8 = 0 ∧ t.mxwin.toNat % 2 ^ 13 + ctrl % 2 ^ 13 + n ≤ t.mxwin.toNat / 2 ^ 16 % 2 ^ 13 + 1

/-- A tile lies at a 64-byte aligned vault address in a region of the team's grid (R259, R305). -/
def tileInRegion (s : State) (t : Team) (a n : Nat) : Prop := a % 64 = 0 ∧ ∃ g, s.grid? t.gid = some g ∧ g.holdsVault a n = true

/-- A window operation has joined the reservation table (R313, R315). -/
def queuedMx (s s' : State) (t : Team) (slot ctrl : Nat) (kind : MxKind) : Prop :=
  ∃ e, (s'.cluster (engineOf t)).entries = (s.cluster (engineOf t)).entries ++ [e] ∧ e.kind = kind ∧ e.uid = t.uid ∧
    e.who = { uid := t.uid, slot := slot, gid := t.gid } ∧ e.winBase = t.mxwin.toNat % 2 ^ 13 ∧
    e.row = t.mxwin.toNat % 2 ^ 13 + ctrl % 2 ^ 13 ∧ e.fmt = t.top.fmt ∧ e.deps = [(t.uid, BitVec.ofNat 16 (ctrl / 2 ^ 16))]

/-- A member's operands at the latch (R301), with the words of its `mx.mma`. -/
def latchArrival (t : Team) (i : Instr) (acc z acq : Bool) (d : RegNo) (gs : List Nat) (av bv ctrl : Nat) : MmaArrival :=
  { rank := t.mxgang.toNat / 256 % 8, uid := t.uid, f := BitVec.ofNat 7 (acc.toNat + 2 * z.toNat + 4 * acq.toNat), aAddr := BitVec.ofNat 32 av,
    aLay := BitVec.ofNat 32 (av / 2 ^ 32), bAddr := BitVec.ofNat 32 bv, bLay := BitVec.ofNat 32 (bv / 2 ^ 32), ctrl := BitVec.ofNat 32 ctrl,
    fmt := t.top.fmt, d := d, groups := gs, pc := t.pc, ins := recWords i }

/-! ### The sampling engine (R335 to R360) -/

/-- A sampling command has joined its engine's queue (R338, R357). -/
def queuedSa (s s' : State) (t : Team) (slot word : Nat) (op : SaOp) : Prop :=
  ∃ q, (s'.cluster (engineOf t)).saQ = (s.cluster (engineOf t)).saQ ++ [q] ∧ q.slot = word / 2 ^ 14 % 4 ∧ q.word = BitVec.ofNat 32 word ∧
    q.op = op ∧ q.uid = t.uid ∧ q.fmt = t.top.fmt ∧ q.who = { uid := t.uid, slot := slot, gid := t.gid } ∧ q.running = false

/-- R278: the core cycles in which a cluster reads a tile, 512 bytes a cycle from its own vault and 128 from another. -/
def tileReads (v : Nat) (addr : Word) (ty : Ty) (scaled : Bool) : Nat :=
  let rate := if addr.toNat / 2 ^ 23 = v then 512 else 128
  (tileSize ty scaled + (rate - 1)) / rate

/-- A sampling command that writes the window has an entry of the reservation table (R353, R358). -/
def entersWindow (s s' : State) (t : Team) (kind : MxKind) : Prop :=
  ∃ e, (s'.cluster (engineOf t)).entries = (s.cluster (engineOf t)).entries ++ [e] ∧ e.kind = kind ∧ e.uid = t.uid

/-- A pending slot of a handle table that its team still has takes a status. -/
def settles (s s' : State) (who : HRef) (st : HStatus) : Prop :=
  ∀ t, s.team? who.uid = some t → (t.slotOf who.slot).status = .pending →
    ∃ t', s'.team? who.uid = some t' ∧ (t'.slotOf who.slot).status = st

/-- No gang of a cluster is about to be freed (R304). -/
def gangsStay (s : State) (v : Nat) : Prop := ∀ g ∈ (s.cluster v).gangs, ∃ m ∈ g.2.members, m.left = false

/-! ### The copy engine (R318 to R334) -/

/-- A transfer has been accepted (R326, R333): its engine holds a command for it, and its handle carries a promise. -/
def acceptedCopy (i : Instr) (s : State) (t : Team) (slot : Nat) (rest : List Nat) (d : RegNo) (gs : List Nat) (kind : CopyKind) (x y : Shape)
    (vaults : List Nat) (tag : Nat) (acq rel : Bool) : Prop :=
  ∃ s' q p n, exec i s = .next s' ∧ q ∈ (s'.cluster (engineOf t)).copy.all ∧ q ∉ (s.cluster (engineOf t)).copy.all ∧ q.kind = kind ∧ q.dst = x ∧
    q.src = y ∧ q.vaults = vaults ∧ q.tag = tag ∧ q.rel = rel ∧ q.uid = t.uid ∧ q.asid = t.asid ∧ q.moved = 0 ∧ q.started = false ∧
    q.finished = false ∧ q.who = { uid := t.uid, slot := slot, gid := t.gid } ∧
    s'.team? t.uid = some ((handed (sending t acq n) 3 slot rest d gs (some p)).pass i.length)

/-- Two records pass the checks of a transfer as the engine reads them, one after the other (R97, R320, R323). -/
def recordsPass (s : State) (t : Team) (i : Instr) (di si : Nat) (roleD roleS : Shape → Bool) (x y : Shape) : Prop :=
  let f := Finder.command (4 * engineOf t) t.asid t.pc (recWords i)
  let s1 := s.meetRecord (s.ctxOf t) f di
  let s2 := s1.meetRecord (s.ctxOf t) f si
  s1.record (s.ctxOf t) di roleD = .ok x ∧ s2.record (s.ctxOf t) si roleS = .ok y ∧ s2.pairCheck t x y = none

/-- The premises of a data command of the copy engine: room in its queue, no stored code error, and with ACQ nothing on its way. -/
def copyCommands (s : State) (t : Team) (i : Instr) (h : Hdr) (lead : Nat) (gs : List Nat) (slot : Nat) (rest : List Nat) (acq : Bool) : Prop :=
  commands s t i h lead gs slot rest acq ∧ (s.cluster (engineOf t)).copy.all.length < 64 ∧ s.codeErrs = [] ∧
  (acq = true → s.pend = [] ∧ s.remAsks = []) ∧ ∀ q ∈ (s.cluster (engineOf t)).copy.all, q.id < s.nextId

/-- A copy handle of the team that is not stale (R31, R32). -/
def freshCopyHandle (t : Team) (x : Nat) : Prop := x / 2 ^ 13 % 8 = 3 ∧ (t.slotOf (x % 64)).gen = x / 64 % 128

/-! ### The page engine (R232 to R256) and the access engine's events -/

/-- A team whose command took a handle that has ended at once (R32): the slot has its status and stands last in the free list. -/
def answeredHandle (t : Team) (eng slot : Nat) (rest : List Nat) (d : RegNo) (gs : List Nat) (st : HStatus) : Team :=
  let gen := ((SMap.get HSlot.reset t.handles slot).gen + 1) % 128
  Team.sAll { t with handles := SMap.put t.handles slot { gen := gen, status := st, eng := eng, promise := none }, freeSlots := rest ++ [slot] }
    d.toNat gs [RWord.ofNat (eng * 8192 + gen * 64 + slot)]

/-- The result of `pg.probe` for a leaf that is not a HOST page's (R256). -/
def probeResult (s : State) (c : Ctx) (va : Nat) (l : Leaf) (ok : Bool) : Nat :=
  2 ^ 31 + (ok && l.res && l.r).toNat * 2 ^ 30 + l.mode * 2 ^ 28 + l.r.toNat * 2 ^ 27 + l.w.toNat * 2 ^ 26 + l.a.toNat * 2 ^ 25 +
    l.x.toNat * 2 ^ 24 + (4 - l.level) * 2 ^ 22 + (s.moving c.asid va).toNat * 2 ^ 21 + l.thr * 2 ^ 18 + l.peer * 2 ^ 9 + l.key

/-- A move of a page that a device has asked for (R249); `agreed` once the device that is to become the home has. -/
def askedMove (s : State) (slot va home target : Nat) (agreed : Bool) (ws : List HRef) : Move :=
  { ctx := slot, asid := (s.ctx slot).asid, va := va, home := home, target := target, agreed := agreed, frame := none, held := false, queue := []
    waiters := ws }

/-- The ports carry data (R442), and no home has answered that it has lost a block. -/
def portsOpen (s : State) : Prop := s.pkg.partSet = true ∧ ∀ a ∈ s.remAsks, a.ans ≠ some (.refused .lost)

/-- A message of another device that asks for an access to memory. -/
def asksAccess (op : RemoteOp) : Prop :=
  (∃ n, op = .load n) ∨ (∃ bs, op = .store bs) ∨ (∃ aop ty x rm draw, op = .atomic aop ty x rm draw) ∨ ∃ ty cmp swap, op = .cas ty cmp swap

/-- What a home's own entry refuses an access for (R242, R245, R265). -/
def refusedFor (why : Refused) (r : Trans) : Prop :=
  (why = .absent ∧ r = .absent) ∨ (why = .perm ∧ r = .fault .perm) ∨ (why = .aliased ∧ r = .fault .aliased) ∨ (why = .page ∧ r = .fault .page)

/-- No access is on its way, no code error is stored and no block is poisoned. -/
def Calm (s : State) : Prop := s.pend = [] ∧ s.codeErrs = [] ∧ s.poison = []

/-! ### The collective engine (R362 to R384) -/

/-- A program stands at the head of its channel, and no other there has its number. -/
def heads (s : State) (ch : Nat) (p : ClProg) (ps : List ClProg) : Prop :=
  (s.chan ch).progs = p :: ps ∧ p.ch = ch ∧ ∀ q ∈ ps, q.id ≠ p.id

/-- No channel holds a message (R374). -/
def noneHeld (s : State) : Prop := ∀ kc ∈ s.chans, kc.2.held = []

/-- The state's channel now starts with this program. -/
def leadsChannel (s' : State) (ch : Nat) (p : ClProg) (ps : List ClProg) : Prop := (s'.chan ch).progs = p :: ps

/-- A message of a program (R374, R442): what it says of its sender, and what it carries. -/
def messageOf (s : State) (p : ClProg) (m : Nat) (kind : ClMsgKind) (chunk k : Nat) (data : List Byte) : ClMsg :=
  { peer := s.peerId, ch := p.ch, part := m, auth := true, gtag := p.gtag, h := p.h, hash := p.hash, rank := p.rank, kind := kind, chunk := chunk,
    k := k, data := data }

/-- What a program's step reads and writes is free, lies in its records and has its rights (R367, R373, R381). -/
def stepFree (p : ClProg) (o : ClOp) : Prop :=
  p.active.length < 8 ∧ (∀ a ∈ p.active, a.conflicts o.reads o.writes = false) ∧ p.access o.reads (fun x => x.rd) = none ∧
    p.access o.writes (fun x => x.wr) = none

/-- The number of a loop step: KIND, the count or target, and the counter (R369, R372). -/
def loopWord (kind x j : Nat) : Nat := kind * 2 ^ 60 + x * 2 ^ 8 + j

/-! ### The dispatch engine (R208 to R226) -/

/-- The premises of a team-scoped word that reads a number of the lead group. -/
def teamWord (s : State) (t : Team) (i : Instr) (h : Hdr) (lead : Nat) (gs : List Nat) : Prop := Runs s t i ∧ allGood t ∧ leads t h lead gs

/-- The team after a word that has written one number in its groups. -/
def wrote1 (t : Team) (i : Instr) (d : RegNo) (gs : List Nat) (v : Nat) : Team := (t.sAll d.toNat gs (natWords 1 v)).pass i.length

/-- Nothing is on its way and no block is lost: every release and acquire finds its work done (R285). -/
def Settled (s : State) : Prop := Quiet s ∧ s.revokes = [] ∧ ∀ b, s.blockLost b = false

/-- The bytes that a team reads at an address, as a number (R226, R383). -/
def bytesAt (s : State) (t : Team) (n a key : Nat) (l : Leaf) : Nat :=
  leNat ((List.range n).map fun i => s.coreByte t.home (s.ctxOf t) (a + i) (key + i) l)

/-- A team can read a range now, and what it reads there (R226, R383). -/
def reads (s : State) (t : Team) (n a x : Nat) : Prop :=
  ∃ ps key l, s.vaRange (s.ctxOf t) .read a n = .ok ps ∧ s.translate (s.ctxOf t) a .read = .ok key l ∧ x = bytesAt s t n a key l

/-- A message finds its program (R374): its group entry can be read and is the first with its tag, as the engine's read of the table finds it, and
the program is that group's. -/
def finds (s : State) (msg : ClMsg) (p : ClProg) : Prop :=
  msg.auth = true ∧ msg.full = false ∧ ∃ slot g e, s.keyedCtx msg.part = some slot ∧ s.groupNeeds (s.ctx slot) = none ∧
    let c := s.ctx slot
    (s.meetRange (Finder.engine 0 c.asid 0) c (c.groupVa 0) 8192).groupOf c msg.gtag = some (g, e) ∧ s.clProgOf slot g msg.gtag msg.h = some p

/-- A command or program with REL has had all that it wrote registered (R290). -/
def settledRel (s : State) (rel : Bool) (tag : Option Nat) : Prop := rel = true → ∃ n, tag = some n ∧ s.registered n = true

/-- R224: a step has closed, from a context's `LSKIP` and `LSCALE` to another's. -/
def stepClosed (c c' : Ctx) : Prop :=
  let k := c.lskip.toNat
  let e : Int := ((c.lscale.toNat / 2 ^ 23 % 2 ^ 8 : Nat) : Int) - 127
  let emin := (c.lscfg.extractLsb' 8 8).toInt
  let emax := (c.lscfg.extractLsb' 16 8).toInt
  let n := max 1 (c.lscfg.toNat / 2 ^ 32 % 2 ^ 16)
  let skips := k / 2 ^ 16 % 2 ^ 13
  let clean := k % 2 ^ 16
  let power : Int → Prop := fun x => c'.lscale.toNat = (x + 127).toNat * 2 ^ 23
  (k.testBit 30 = true → c'.lskip.toNat = 2 ^ 31 + (if emin < e then 0 else 2 ^ 29) + min (skips + 1) 8191 * 2 ^ 16 ∧
    (emin < e → power (e - 1)) ∧ (e ≤ emin → power e)) ∧
  (k.testBit 30 = false →
    (n ≤ clean + 1 → c'.lskip.toNat = skips * 2 ^ 16 ∧ (e < emax → power (e + 1)) ∧ (emax ≤ e → power e)) ∧
    (clean + 1 < n → c'.lskip.toNat = skips * 2 ^ 16 + clean + 1 ∧ c'.lscale = c.lscale))

/-- Neither the host nor another device has to answer first (R243, R252). -/
def noAts (s : State) (c : Ctx) (acc : Acc) (va n : Nat) : Prop := ∀ ns, s.vaRange c acc va n ≠ .wait ns

/-- The bytes of a completion word (R215): eight where a packet has a `DONEADDR`. -/
def doneLen (addr : Nat) : Nat := if addr = 0 then 0 else 8

/-- A grid's end has no release left to wait for (R215): the one that it began is complete, or nothing is out that one would wait for. -/
def gridReleases (s : State) (g : Grid) : Prop :=
  (∃ n, g.relTag = some n ∧ s.registered n = true) ∨
    (g.relTag = none ∧ s.pend = [] ∧ s.revokes = [] ∧ s.remAsks = [] ∧ (s.ctx g.ctx).hostStores = false)

/-- A packet has left its context. -/
def gone (s' : State) (slot seq : Nat) : Prop := ∀ x ∈ (s'.ctx slot).packets, x.seq ≠ seq

/-- A cluster has no home for a grid's next team: no room for the grid's region, or no core that fits (R214, R217). -/
def noHome (s : State) (g : Grid) (n v : Nat) : Prop :=
  s.ensureRegion g v = none ∨ ∃ s0 g0, s.ensureRegion g v = some s0 ∧ s0.grid? g.gid = some g0 ∧
    s0.newId.2.findHome (g0.newTeam (s0.ctx g0.ctx).asid s.nextId n) v (s0.barOk g0) = none

/-- The engine now keeps a queue so. -/
def keeps (s' : State) (slot q : Nat) (x : Queue) : Prop := (s'.ctx slot).queue q = x

/-- The state in which the dispatch engine has read a range of a context's memory. -/
def engineReads (s : State) (slot va n : Nat) : State := s.meetRange (Finder.engine 0 (s.ctx slot).asid 0) (s.ctx slot) va n

/-- The state in which the engine has read a packet's image, where its packet names one (R213). -/
def imageRead (s : State) (slot p : Nat) : State :=
  if packetKind p = 0 ∧ field p 8 8 % 16384 = 0 then engineReads s slot (field p 8 8) 192 else s

/-- A queue stops, with a record (R210). -/
def stopsQueue (s : State) (i : Instr) (slot q : Nat) (x : Queue) : Prop :=
  ∃ s' z u, exec i s = .next s' ∧ keeps s' slot q { x with stopped := true, rewritten := z, told := u } ∧
    (s'.ctx slot).flogpos = (s.ctx slot).flogpos + 1

/-- R210: the tail word of a queue that the engine now keeps as `x` is read; one in order is the queue's tail, any other, or one that cannot be read,
stops the queue. -/
def tailRead (s : State) (i : Instr) (slot q : Nat) (x : Queue) : Prop :=
  let g := s.putQueue slot q x
  noAts g (g.ctx slot) .read (x.word 2) 8 →
    (∀ bs, (engineReads g slot (x.word 2) 8).vaRead (g.ctx slot) (x.word 2) 8 = some bs →
      (x.head ≤ leNat bs → leNat bs ≤ x.head + x.slots →
        ∃ s', exec i s = .next s' ∧ keeps s' slot q { x with tail := leNat bs, told := false, acqTag := s.nextId }) ∧
      (leNat bs < x.head ∨ x.head + x.slots < leNat bs → stopsQueue s i slot q x)) ∧
    ((engineReads g slot (x.word 2) 8).vaRead (g.ctx slot) (x.word 2) 8 = none → stopsQueue s i slot q x)

/-- A grid has been added, with its number, its packet's sequence and whether it comes from the tape. -/
def gridAdded (s s' : State) (g : Grid) (gid seq : Nat) (tape : Bool) : Prop :=
  s'.grids = s.grids ++ [{ g with gid := gid, seq := seq, fromTape := tape }]

/-! ### The metering engine (R387 to R434) -/

/-- A uniform word on A, as a rule. -/
def onA (h : Hdr) (d a : RegNo) (f : Team → Nat → Nat) : GroupRule :=
  { h := h, d := d, srcs := [(a, 1)], res := fun t _ vs => URes.num 1 (f t (vs.headD 0)) }

/-- The intent that a `tk.intent` of rise A and lead B enters (R429). -/
def isIntentOf (s : State) (t : Team) (x y : Nat) (e : Intent) : Prop :=
  e.ctx = t.ctx ∧ e.gen = s.gov.gen % 4095 + 1 ∧ e.dr = x ∧ e.lead = y ∧ e.due = s.time + 64 * y ∧ e.base = s.gov.level ∧
    (0 < s.gov.up → e.start = max ((s.time / 4 + 1) * 4) (e.due - 4 * (ceilDiv x s.gov.up +
      s.intentPos t.ctx s.time y * (s.gov.cfg.toNat / 2 ^ 24 % 2 ^ 8) + s.gov.cfg.toNat / 2 ^ 32 % 2 ^ 8)))

/-- The least free entry of the intents (R429). -/
def firstFree (s : State) (n : Nat) : Prop :=
  n < 16 ∧ SMap.find s.gov.intents n = none ∧ ∀ m < n, SMap.find s.gov.intents m ≠ none

/-- A write of a master that owns the package is performed; any other advances DROPS (R437, R440). -/
def ownedBy (s : State) (master : Nat) : Prop := master ≠ 0 ∧ s.pkg.mown.toNat / 2 ^ 62 % 4 = master

/-- The write has been discarded: DROPS has advanced, up to 65,535, and nothing else of `MOWN` has changed. -/
def dropped (s s' : State) : Prop :=
  s'.pkg.mown.toNat % 2 ^ 16 = min 65535 (s.pkg.mown.toNat % 2 ^ 16 + 1) ∧ s'.pkg.mown.toNat / 2 ^ 16 = s.pkg.mown.toNat / 2 ^ 16

/-- An island's record. -/
def islandIs (s' : State) (i : Nat) (st : Island) (since : Nat) : Prop := (s'.island i).st = st ∧ (s'.island i).since = since

/-! ### The host interface, power and boot (R435 to R451) -/

/-- The fields of `MOWN` (R440). -/
def mownOwner (s : State) : Nat := s.pkg.mown.toNat / 2 ^ 62 % 4
def mownPend (s : State) : Nat := s.pkg.mown.toNat / 2 ^ 60 % 4
def mownGen (s : State) : Nat := s.pkg.mown.toNat / 2 ^ 32 % 2 ^ 16
def mownHerr (s : State) : Nat := s.pkg.mown.toNat / 2 ^ 16 % 2 ^ 16

/-- The owner has changed to a master, and GEN has advanced (R440). -/
def ownerNow (s s' : State) (m : Nat) : Prop := mownOwner s' = m ∧ mownGen s' = (mownGen s + 1) % 2 ^ 16

/-- The package registers that software writes: CSR number, register and the bits that are kept (R241, R364). -/
def packageRegisters : List (Nat × (Pkg → DWord) × Nat) :=
  [(0x234, Pkg.frtab, 0x7F_FFFF_F000), (0x235, Pkg.mpool, 0x7F_FFFF_F01F), (0x237, Pkg.mptail, 2 ^ 64 - 1), (0x238, Pkg.mlog, 0x7F_FFFF_FFFF),
   (0x241, Pkg.clcfg, 0x3F)]

/-- The context registers that software writes (R95, R208, R241, R364). -/
def contextRegisters : List (Nat × (Ctx → DWord) × Nat) :=
  [(0x018, Ctx.otbase, 0xFF_FFFF_FFFF_FF00), (0x220, Ctx.qtbase, 0xFF_FFFF_FFFF_F800), (0x221, Ctx.tapebase, 0xFF_FFFF_FFF8_0000),
   (0x222, Ctx.flogbase, 0xFF_FFFF_FFFF_FFFF), (0x230, Ctx.ptbase, 0x7F_FFFF_0000), (0x231, Ctx.pgcfg, 0x1_000F_FFFF),
   (0x232, Ctx.prqbase, 0xFF_FFFF_FFFF_F01F), (0x240, Ctx.clgbase, 0xFF_FFFF_FFFF_E000)]

/-- The fields of `CTXCTL` (R443). -/
def ctlV (s : State) (slot : Nat) : Nat := s.ctl slot / 2 ^ 63
def ctlSt (s : State) (slot : Nat) : Nat := s.ctl slot / 2 ^ 57 % 8
def ctlErr (s : State) (slot : Nat) : Nat := s.ctl slot / 2 ^ 56 % 2

/-- A slot that holds a running context and is not ended by a command in progress. -/
def runsCtx (s : State) (slot : Nat) : Prop := slot < 64 ∧ ctlV s slot = 1 ∧ ctlSt s slot = 1 ∧ slot ∉ s.pkg.dying

/-- An enabled window (R438). -/
def windowOn (s : State) (w : Nat) : Prop := w < 16 ∧ (SMap.get 0 s.pkg.win w).getLsbD 63 = true

/-- GO and STATUS of the key command block (R446). -/
def keyDone (s' : State) (status : Byte) : Prop := s'.pkg.keyBlock[0]? = some 0 ∧ s'.pkg.keyBlock[4]? = some status

/-- The bins of a 64-bit wear register (R451): its low half and its high half. -/
def lowBin (w : DWord) : Nat := w.toNat % 2 ^ 32
def highBin (w : DWord) : Nat := w.toNat / 2 ^ 32

/-- One more, saturating at 32 bits (R451). -/
def oneMore (n : Nat) : Nat := min (2 ^ 32 - 1) (n + 1)

/-- A bin of a register has counted, and the other has not. -/
def countedLow (w w' : DWord) : Prop := lowBin w' = oneMore (lowBin w) ∧ highBin w' = highBin w
def countedHigh (w w' : DWord) : Prop := highBin w' = oneMore (highBin w) ∧ lowBin w' = lowBin w

/-! ### Decoding, stepping and the whole machine -/

/-- A header without guard and lookahead. -/
def plain (x : Bool) : Hdr := { x := x, g := 0, gn := false, la := 0 }

/-- Words of the spec's encoding examples, with the instructions that they stand for. -/
def exampleWords : List (List Word × Instr) :=
  [([0x40090303, 0x00000000], .vAdd (plain true) .s8 9 3 3), ([0x40080303, 0x00010000], .vAdds (plain true) .s8 8 3 3),
   ([0x43070304, 0x00030600], .vDot4 (plain true) .s8 .s8 7 3 4 6), ([0x14030405], .vFadd (plain false) .f32 3 4 5),
   ([0x5A0D0A00, 0x0010009A], .vFcvt (plain true) .f32 .bf16 13 10 1), ([0x520AC407, 0x00020002], .vLea (plain true) .s32 10 196 7 2),
   ([0x6D14D009, 0x0078000E], .vSt (plain true) .b64 20 208 9 0 { sp := true, ix := true, sc := 3, q := false, hint := 0 }),
   ([0x71000307, 0x00400236], .vAtomn (plain true) .max .n32 3 7 2 true), ([0x36050900], .ckRes (plain false) 5 9),
   ([0xE2D8C8CA, 0x0006CC00], .mxMma (plain true) 216 200 202 204 false true true), ([0xB4D4C0C2], .clRun (plain false) 212 192 194 false false),
   ([0xECC4C6C7, 0x00030000], .cpCopy (plain true) 196 198 199 true true), ([0xF0C9C400, 0x01010000], .pgProbe { plain true with la := 2 } 201 196),
   ([0xB8C4C6C8], .dpLaunch (plain false) 196 198 200), ([0xFBC8CACB, 0x00030000], .tkIntent (plain true) 200 202 203),
   ([0xEADBE700, 0x00040000], .saDraw (plain true) 219 231 true)]

/-- The words that stand at a team's PC, from a landed segment of its home core. -/
def wordsAt (s : State) (t : Team) (ws : List Word) : Prop :=
  s.bufAt t = none ∧ s.segStatus t (t.pc.toNat / 4096) = 2 ∧
    ∃ n sl, (s.core t.home).slotFor t.asid (t.segAddr (t.pc.toNat / 4096)) = some (n, sl) ∧
      ws = (sl.words.drop (t.pc.toNat % 4096)).take 130

/-- The tables of lane words. -/
def laneTables : List (Instr → Option LaneRule) :=
  [laneArithmetic, laneBitwise, lanePredicates, laneMoves, floatArithmetic, floatConversion, floatFunctions]

/-- The tables of uniform words. -/
def groupTables : List (Instr → Option GroupRule) := [uniformArithmetic, uniformPredicates, uniformMoves]

/-- A team is another but for registers, predicates, rounding counters, its PC and the count of the instructions that it has passed. -/
def sameButRegisters (t t' : Team) (len : Nat) : Prop :=
  t' = { t with v := t'.v, p := t'.p, rounds := t'.rounds, s := t'.s, q := t'.q,
                stack := { t.top with pc := t.pc + BitVec.ofNat 16 len } :: t.stack.tail, issued := t'.issued, tskip := t'.tskip,
                skipPos := t'.skipPos }

/-- R441: contexts, queues, grids and engine work are as they were. -/
def workGoesOn (s s' : State) : Prop :=
  s'.ctxs = s.ctxs ∧ s'.grids = s.grids ∧ s'.teams = s.teams ∧ s'.clusters = s.clusters ∧ s'.chans = s.chans ∧ s'.cores = s.cores ∧
    s'.pend = s.pend ∧ s'.moves = s.moves ∧ s'.mem = s.mem

/-! ### Parts of the statements below -/

/-- R101: every uniform arithmetic word completes, for every state in which it runs, with the result R101 gives in each group that it
executes for. -/
def uniformArithmeticCompletes : Prop := groupWordsRun uniformArithmetic

/-- R102: every uniform compare and predicate word completes with the predicate R102 gives. -/
def uniformPredicatesComplete : Prop := groupWordsRun uniformPredicates

/-- R102, R103: the uniform moves complete, and the words keep their residue codes. -/
def uniformMovesComplete : Prop := groupWordsRun uniformMoves

/-- R155, R157, R159: every lane arithmetic word completes with the result of its rule in each lane that it executes for. -/
def laneArithmeticCompletes : Prop := laneWordsRun laneArithmetic

/-- R156 to R158: every bitwise, shift, bit-field, count, permute and conversion word of the lanes completes with the result of its rule. -/
def laneBitwiseCompletes : Prop := laneWordsRun laneBitwise

/-- R157, R160: every compare and predicate word of the lanes completes with the predicate of its rule. -/
def lanePredicatesComplete : Prop := laneWordsRun lanePredicates

/-- R157, R161: the lane moves complete, and the words keep their residue codes. -/
def laneMovesComplete : Prop := laneWordsRun laneMoves

/-- R164 to R167: every floating-point sum, product, minimum, sign, comparison and class word completes with its rule's result. -/
def floatArithmeticCompletes : Prop := laneWordsRun floatArithmetic

/-- R168 to R170: every conversion and quantisation word of the lanes completes with its rule's result. -/
def floatConversionCompletes : Prop := laneWordsRun floatConversion

/-- R178, R179: an integer reduction or scan completes with the fold of its group's lanes, whatever tree the engine uses. -/
def reductionsComplete : Prop :=
  ∀ (s : State) (t : Team) (i : Instr) (r : LaneRule), reductionWords i = some r → Runs s t i → allGood t →
    (t.group = 16 ∨ t.group = 32 ∨ t.group = 64) → exec i s = .next (r.after s t i)

/-- R62, R63: an FP32 reduction completes with the fixed pairwise tree's result, and an FP32 scan with the sums in ascending order. -/
def floatReductionsComplete : Prop :=
  ∀ (s : State) (t : Team) (i : Instr) (r : LaneRule), floatReductionWords i = some r → Runs s t i → allGood t →
    exec i s = .next (r.after s t i)

/-- R260, R267, R268: a load whose lanes reach their places completes; without lookahead each lane's registers take the bytes that it sees, and
with lookahead they are in flight until LOAD_DATA_RETURN; no byte of memory changes. -/
def loadsComplete : Prop :=
  ∀ (s : State) (t : Team) (i : Instr) (h : Hdr) (ty : Ty) (d : RegNo) (f : MemForm) (m : MemF) (flag : Option Nat)
    (at_ : Nat → Nat × Nat × Option Leaf), isLoad i h ty d f m flag → Runs s t i → allGood t → Quiet s → reaches s t h .read f id at_ →
    copiesAgree s t h f.size at_ →
    ∃ s' t', exec i s = .next s' ∧ s'.team? t.uid = some t' ∧ (∀ a, s'.byte a = s.byte a) ∧
      (h.la = 0 → t' = (t.writeLanes d.toNat (t.lanesFor h) fun l => loadRes ty m flag (seenBytes s t l f.size (at_ l))).pass i.length) ∧
      (h.la ≠ 0 → ∃ u fl, t' = Team.pass u i.length ∧ u = { t with flight := t.flight ++ [fl] } ∧ fl.stop = none ∧
        fl.writes = (t.lanesFor h).flatMap fun l => laneWrites d.toNat l (loadRes ty m flag (seenBytes s t l f.size (at_ l))))

/-- R29, R76: the oldest long-latency word in flight, where no engine has still to answer it, lands without a fault: its writes are made, and it
is no longer in flight. -/
def flightLands : Prop :=
  ∀ (s : State) (t : Team) (fl : Flight) (rest : List Flight), s.team? t.uid = some t → t.flight = fl :: rest → fl.stat = none →
    fl.stop = none →
    exec (.loadDataReturn t.uid) s = .next (s.putTeam { (fl.writes.foldl Team.applyWrite t) with flight := rest })

/-- R271 to R274: a returning atomic or compare-and-swap acts at the homes in lane order; each lane receives the word that it met, a floating
add passes its draws, and every byte that no lane's word holds is as before. -/
def atomicsComplete : Prop :=
  ∀ (s : State) (t : Team) (i : Instr) (h : Hdr) (aop : AtomOp) (ty : Ty) (d : RegNo) (f : MemForm) (okHost : Bool)
    (new : Nat → Nat → Nat) (at_ : Nat → Nat × Nat × Option Leaf), isAtomic t i h aop ty d f okHost new → Runs s t i → allGood t → Quiet s →
    h.la = 0 → reaches s t h .atomic f (hostAtomic okHost) at_ → (∀ l ∈ t.lanesFor h, peerHome (at_ l).1 = false) →
    let r := unitSequence (ty.width / 8) new s.byte ((t.lanesFor h).map fun l => (l, (at_ l).1))
    ∃ s', exec i s = .next s' ∧ (∀ a, s'.byte a = r.2 a) ∧
      s'.team? t.uid = some (((t.drawAtoms aop (t.lanesFor h)).writeLanes d.toNat (t.lanesFor h) fun l =>
        LRes.num (regsOf ty) (((r.1.find? fun x => x.1 == l).map Prod.snd).getD 0)).pass i.length)

/-- R56, R58, R266, R271, R272: a no-return atomic completes at acceptance: one write a lane is on its way with the operation, its data, mode
and draw, and the rounding counters pass the draws. -/
def noReturnAtomicsComplete : Prop :=
  ∀ (s : State) (t : Team) (h : Hdr) (aop : AtomOp) (ty : Ty) (a b c : RegNo) (sp : Bool) (at_ : Nat → Nat × Nat × Option Leaf),
    let i : Instr := .vAtomn h aop ty a b c sp
    Runs s t i → allGood t → s.poison = [] → s.codeErrs = [] →
    reaches s t h .atomic (MemForm.atom a c sp (ty.width / 8)) (hostAtomic (hostOp aop)) at_ →
    ∃ s', exec i s = .next s' ∧ s'.team? t.uid = some ((t.drawAtoms aop (t.lanesFor h)).pass i.length) ∧ (∀ k, s'.byte k = s.byte k) ∧
      s'.pend = s.pend ++ sentWrites t i h sp at_
        (fun l => .atomic aop ty (BitVec.ofNat 64 (atomData_ t aop ty b l)) t.rm (atomDraw t aop l) 0) (fun _ => [])

/-- R266, R284: a store registers at its home on this device or the host: exactly its bytes change there, and it is no longer on its way. -/
def storeRegistersAtHome : Prop :=
  ∀ (s : State) (n : Nat) (w : PWrite), s.pend[n]? = some w → w.kind = .store → blockedWrite s n w = false → peerHome w.key = false →
    SMap.get false s.poison (w.key / 64) = false →
    ∃ s', exec (.homeStoreRegister n) s = .next s' ∧ s'.pend = s.pend.eraseIdx n ∧
      ∀ a, s'.byte a = if w.key ≤ a ∧ a < w.key + w.bytes.length then (w.bytes[a - w.key]?).getD 0 else s.byte a

/-- R271, R272, R274: a no-return atomic that no other lane of its word's instruction shares a word with is applied at its unit: the word at its
home becomes the operation's result on it, and no other byte changes. -/
def atomicAppliesAtHome : Prop :=
  ∀ (s : State) (n : Nat) (w : PWrite) (op : AtomOp) (ty : Ty) (data : DWord) (rm draw : Nat), s.pend[n]? = some w →
    w.kind = .atomic op ty data rm draw 0 → s.pend.filter w.fellow = [w] → blockedWrite s n w = false → peerHome w.key = false →
    s.codeErrs = [] → SMap.get false s.poison (w.key / 64) = false →
    let bs := natLe (ty.width / 8) (atomNew op ty (leNat (s.bytes w.key (ty.width / 8))) data.toNat rm draw)
    ∃ s', exec (.atomicApply n) s = .next s' ∧ s'.pend = s.pend.eraseIdx n ∧
      ∀ a, s'.byte a = if w.key ≤ a ∧ a < w.key + ty.width / 8 then (bs[a - w.key]?).getD 0 else s.byte a

/-- A memory word without lookahead stops the team with ALIGN at its PC, naming the lanes whose address is not a multiple of its size. -/
def alignStop (s : State) (t : Team) (i : Instr) (h : Hdr) (f : MemForm) : Prop :=
  let bad := (t.lanesFor h).filter fun l => f.addr t l % (f.size : Int) ≠ 0
  Runs s t i → allGood t → s.codeErrs = [] → h.la = 0 → bad ≠ [] →
    exec i s = .next ((s.putTeam t).takeStop t.uid i.length (Stop.lanesOf .align (maskOf bad)))

/-- R263, R265: where a lane's address is not a multiple of the access size, every memory word without lookahead stops the team with ALIGN. -/
def misalignedAccessStops : Prop :=
  ∀ (s : State) (t : Team) (h : Hdr) (ty : Ty) (aop : AtomOp) (d a b c : RegNo) (m : MemF) (p : BitVec 4) (sp : Bool),
    let f := MemForm.of a b c m (accessSize ty m.q)
    let g := MemForm.atom a c sp (ty.width / 8)
    alignStop s t (.vLd h ty d a b c m) h f ∧ alignStop s t (.vLdr h ty d a b c m p) h f ∧ alignStop s t (.vSt h ty d a b c m) h f ∧
    alignStop s t (.vAtom h aop ty d a b c sp) h g ∧ alignStop s t (.vCas h ty d a b c sp) h g ∧
    alignStop s t (.vAtomn h aop ty a b c sp) h g ∧
    ∀ i e, isInjection i h sp e a → alignStop s t i h (injForm sp a)

/-- R105: where a lane of a table transfer has an index beyond the list, the team stops with
BTAB_RANGE at this PC, naming those lanes, and nothing is changed before the stop. -/
def indexBeyondTableStops : Prop :=
  ∀ (s : State) (t : Team) (h : Hdr) (idx : RegNo) (rcv : BitVec 13) (ts : List (BitVec 16)),
    let out := t.activeLanes.filter fun l => inGroups t h l && decide ((t.rGet idx.toNat l).val.toNat ≥ ts.length)
    allGood t → out ≠ [] →
    (Runs s t (.sBtab h idx rcv ts) → exec (.sBtab h idx rcv ts) s = .next ((s.putTeam t).takeStop t.uid
      (Instr.length (.sBtab h idx rcv ts)) (Stop.lanesOf .btabRange (maskOf out)))) ∧
    (Runs s t (.sBtabc h idx rcv ts) → exec (.sBtabc h idx rcv ts) s = .next ((s.putTeam t).takeStop t.uid
      (Instr.length (.sBtabc h idx rcv ts)) (Stop.lanesOf .btabRange (maskOf out))))

/-- R130, R133 to R136: the overlay words complete. `s.jmpf` of every active lane goes to a target whose segment is LANDED and stops with
OVL_MISS where it is ABSENT or LOADING; `s.cfence` ends the use of a loop buffer; `s.cstat` gives the status and the bound bit. -/
def overlayWordsComplete : Prop :=
  ∀ (s : State) (t : Team) (h : Hdr), allGood t →
    (∀ p, Runs s t (.sJmpf h p) → t.groupsFor h ≠ [] → (∀ l ∈ t.activeLanes, inGroups t h l = true) → p.toNat / 4096 ≠ t.pc.toNat / 4096 →
      (s.segStatus t (p.toNat / 4096) = 2 → comesTo (.sJmpf h p) s (arrived t ({ t.top with pc := p } :: t.stack.tail) none)) ∧
      (s.segStatus t (p.toNat / 4096) < 2 → exec (.sJmpf h p) s =
        .next ((s.putTeam t).takeStop t.uid (Instr.length (.sJmpf h p)) (Stop.of .ovlMiss)))) ∧
    (Runs s t (.sCfence h) → t.groupsFor h ≠ [] →
      exec (.sCfence h) s = .next (s.putTeam (Team.pass { t with loopBuf := none } (Instr.length (.sCfence h))))) ∧
    (∀ d n, Runs s t (.sCstat h d n) → exec (.sCstat h d n) s = .next (s.putTeam ((t.writeGroups d.toNat (t.groupsFor h) fun _ =>
      URes.num 1 (s.segStatus t n.toNat + if t.segAddr n.toNat = 0 then 0 else 4)).pass (Instr.length (.sCstat h d n)))))

/-- R31, R32, R133: where a segment's image has landed on every core of the team, `s.cfetch` answers a handle that reads DONE, and binds the
segment; `s.cfetch.reload` starts the load anew and answers a handle that is PENDING while the team's core reads the code. -/
def codeFetchesComplete : Prop :=
  ∀ (s : State) (t : Team) (h : Hdr) (d a : RegNo) (n : BitVec 4) (slot : Nat) (rest : List Nat) (lead : Nat) (gs : List Nat)
    (k : Nat) (sl : CodeSlot),
    let adr := wordsNat (t.sRun a.toNat 2 lead)
    allGood t → t.freeSlots = slot :: rest → t.groupsFor h = lead :: gs → adr ≠ 0 → adr % 16384 = 0 → t.pair = false →
    (s.core t.home).slotFor t.asid adr = some (k, sl) → sl.st = .landed → s.loads = [] → t.segs.length = 16 → slot < 64 →
    (∀ kc ∈ s.cores, kc.2.code.all (fun e => e.2.waiters.isEmpty) = true) →
    (Runs s t (.sCfetch h d a n) → ∃ s' t' hnd, exec (.sCfetch h d a n) s = .next s' ∧ s'.team? t.uid = some t' ∧
      t'.segAddr n.toNat = adr ∧ t'.hStatus hnd = .done ∧ t'.s = (t.sAll d.toNat (lead :: gs) [RWord.ofNat hnd.toNat]).s ∧
      bits hnd.toNat 15 13 = 6 ∧ bits hnd.toNat 5 0 = slot) ∧
    (Runs s t (.sCfetchReload h d a n) → ∃ s' t' hnd, exec (.sCfetchReload h d a n) s = .next s' ∧ s'.team? t.uid = some t' ∧
      t'.segAddr n.toNat = adr ∧ t'.hStatus hnd = .pending ∧ t'.s = (t.sAll d.toNat (lead :: gs) [RWord.ofNat hnd.toNat]).s ∧
      ((s'.core t.home).codeSlot k).st = .loading)

/-- R32, R119, R291: `s.poll`, and `s.wait` and `s.waitall` with nothing pending, write the status and go on, having acquired where it reads
DONE; `s.sleepu` goes on once `CYC` has reached the value; otherwise the words hold the team: `s.wait` for its PENDING handle, `s.waitall` for the
slots that are PENDING, where no promised time is past, `s.sleepu` for its value; and the wakes let it go on. -/
def waitsComplete : Prop :=
  (∀ (s : State) (t : Team) (h : Hdr) (d a : RegNo) (lead : Nat) (rest : List Nat), leads t h lead rest → allGood t →
    let st := t.hStatus (BitVec.ofNat 16 (leadVal t lead a 1))
    (Runs s t (.sPoll h d a) → ∃ s', exec (.sPoll h d a) s = .next s' ∧ (st = .done → acquired s.owners t s') ∧
      s'.team? t.uid = some ((answered t d (lead :: rest) st).pass (Instr.length (.sPoll h d a)))) ∧
    (Runs s t (.sWait h d a) → st ≠ .pending → ∃ s', exec (.sWait h d a) s = .next s' ∧ (st = .done → acquired s.owners t s') ∧
      s'.team? t.uid = some ((answered t d (lead :: rest) st).pass (Instr.length (.sWait h d a)))) ∧
    (Runs s t (.sWait h d a) → st = .pending →
      (∀ p, (t.slotOf (leadVal t lead a 1 % 64)).promise = some p → s.time ≤ p) → exec (.sWait h d a) s =
        .next (s.putTeam { t with hold := .wait (BitVec.ofNat 16 (leadVal t lead a 1)) d (lead :: rest), heldLen := Instr.length (.sWait h d a) })) ∧
    (Runs s t (.sWaitall h) → (∃ e ∈ t.handles, e.2.status = .pending) →
      (∀ e ∈ t.handles, e.2.status = .pending → ∀ p, e.2.promise = some p → s.time ≤ p) →
      exec (.sWaitall h) s = .next (s.putTeam { t with hold := .waitAll, heldLen := Instr.length (.sWaitall h) })) ∧
    (Runs s t (.sWaitall h) → (∀ e ∈ t.handles, e.2.status ≠ .pending) → ∃ s', exec (.sWaitall h) s = .next s' ∧ acquired s.owners t s' ∧
      s'.team? t.uid = some (t.pass (Instr.length (.sWaitall h)))) ∧
    (Runs s t (.sSleepu h a) → leadVal t lead a 2 ≤ s.time →
      exec (.sSleepu h a) s = .next (s.putTeam (t.pass (Instr.length (.sSleepu h a))))) ∧
    (Runs s t (.sSleepu h a) → s.time < leadVal t lead a 2 → exec (.sSleepu h a) s =
      .next (s.putTeam { t with hold := .sleep (leadVal t lead a 2), heldLen := Instr.length (.sSleepu h a) }))) ∧
  (∀ (s : State) (t : Team), s.team? t.uid = some t → t.res = .resident → heldFits t →
    (∀ u, t.hold = .sleep u → u ≤ s.time → exec (.sleepWake t.uid) s = .next (s.putTeam (woken t))) ∧
    (∀ hd d gs, t.hold = .wait hd d gs → t.hStatus hd ≠ .pending → ∃ s', exec (.handleCompleteWake t.uid) s = .next s' ∧
      (t.hStatus hd = .done → acquired s.owners t s') ∧ s'.team? t.uid = some (woken (answered t d gs (t.hStatus hd)))) ∧
    (t.hold = .waitAll → (∀ e ∈ t.handles, e.2.status ≠ .pending) → ∃ s', exec (.handleCompleteWake t.uid) s = .next s' ∧
      acquired s.owners t s' ∧ s'.team? t.uid = some (woken t)))

/-- R120: a wait for a copy whose promised time is past stops the team with COPY_LATE at its PC and writes no status, when it issues and while
it is held (in handler mode R147 holds the cause instead). -/
def lateCopyStops : Prop :=
  ∀ (s : State) (t : Team) (h : Hdr) (d a : RegNo) (lead : Nat) (rest : List Nat) (p : Nat), t.handler = false →
    (Runs s t (.sWait h d a) → leads t h lead rest → allGood t →
      let hd := BitVec.ofNat 16 (leadVal t lead a 1)
      t.hStatus hd = .pending → (t.slotOf (hd.toNat % 64)).promise = some p → p < s.time →
      exec (.sWait h d a) s = .next ((s.putTeam t).takeStop t.uid (Instr.length (.sWait h d a)) (Stop.of .copyLate))) ∧
    (∀ (hd : BitVec 16) gs, s.team? t.uid = some t → t.res = .resident → t.hold = .wait hd d gs → t.hStatus hd = .pending →
      (t.slotOf (hd.toNat % 64)).promise = some p → p < s.time →
      exec (.copyLateCheck t.uid) s = .next (s.takeStop t.uid t.heldLen (Stop.of .copyLate)))

/-- R79, R80, R139, R143, R146: outside handler mode every stop of a team that can enter its handler does so, at its word's PC or after it; a word
of any kind that breaks decode's checks stops so with ILLEGAL, and a privileged word in a team without the privileged flag with PRIV. -/
def stopsEnterTheHandler : Prop :=
  ∀ (s : State) (t : Team), s.team? t.uid = some t → handlerReady s t →
    (∀ (st : Stop) (len : Nat), (st.after = true → t.pc.toNat % 4096 + len < 4096) → (s.takeStop t.uid len st).team? t.uid = some (entered t
      (if st.after then t.pc + BitVec.ofNat 16 len else t.pc) (if st.cause = .swtrap ∨ st.cause = .brk then st.code else 0) st.cause st.lanes)) ∧
    (s.cur = some t.uid → ∀ i : Instr, (Instr.info i).isSome = true → Instr.legal t t.pc i = false →
      comesTo i s (entered t t.pc 0 .illegal 0)) ∧
    (s.cur = some t.uid → t.privileged = false → ∀ i : Instr, (Instr.info i).isSome = true → Instr.legal t t.pc i = true →
      Instr.isPriv i = true → comesTo i s (entered t t.pc 0 .priv 0))

/-- R149, R231: a stop that arrives while `TVB`.EN is 0 or in handler mode, with no engine still to answer a word in flight, ends the team, and its
context's fault log counts a record. -/
def stopWithoutHandlerEndsTeam : Prop :=
  ∀ (s : State) (t : Team) (st : Stop) (len : Nat), s.team? t.uid = some t → (∀ f ∈ t.flight, f.stat = none) →
    (t.tvb.getLsbD 31 = false ∨ t.tcw.getLsbD 30 = true) →
    (s.takeStop t.uid len st).team? t.uid = none ∧ ((s.takeStop t.uid len st).ctx t.ctx).flogpos = (s.ctx t.ctx).flogpos + 1

/-- R206: `ck.injm` puts the code error on exactly the HBM and vault blocks of this device that its lanes name; data and registers are as before
(a page of the host or of another device has no block here: log entry 65). -/
def injectionsComplete : Prop :=
  ∀ (s : State) (t : Team) (i : Instr) (h : Hdr) (vt : Bool) (e : CodeErr) (a : RegNo) (at_ : Nat → Nat × Nat × Option Leaf),
    isInjection i h vt e a → Runs s t i → allGood t → Quiet s → reaches s t h .write (injForm vt a) id at_ →
    ∃ s', exec i s = .next s' ∧ s'.team? t.uid = some (t.pass i.length) ∧ (∀ k, s'.byte k = s.byte k) ∧
      ∀ b, SMap.find s'.codeErrs b = if ∃ l ∈ t.lanesFor h, (at_ l).1 < 2 ^ 80 ∧ (at_ l).1 / 64 = b then some e else none

/-- No scrub tadpole has run to its end, so that a scrub read is one of 16 blocks (R417). -/
def noScrubEnded (s : State) : Prop := ∀ u ∈ s.gov.units, u.scrubbed s.time = false

/-- R194, R200, R201: a record reads as filed once its 40 core cycles are past; a scrub read of HBM or a vault corrects the correctable errors of
the 16 blocks at the scrubber's place, touches no other block and moves the place on; after the caches' lines and the accumulator rows the
pass begins again. -/
def recordsAndScrubbing : Prop :=
  (∀ (s : State) (core n : Nat), let r := (s.core core).mcRec n
    r.readable = false → r.readyAt ≤ s.ccOf (clusterOf core) → ∃ s', exec (.mcrecReadable core n) s = .next s' ∧
      (s'.core core).mcRec n = { r with readable := true }) ∧
  (∀ (s : State), let b := (s.scrubAt s.scrubPos).1 / 64
    s.scrubPos < 384 * 2 ^ 20 + 96 * 5120 → noScrubEnded s → (∀ e ∈ s.lines, e.2.dirty = false) → (∀ j < 16, SMap.find s.codeErrs (b + j) ≠ some .ue) →
    ∃ s', exec .scrubRead s = .next s' ∧ s'.scrubPos = s.scrubPos + 1 ∧
      ∀ k, SMap.find s'.codeErrs k = if b ≤ k ∧ k < b + 16 then none else SMap.find s.codeErrs k) ∧
  (∀ (s : State), s.codeErrs = [] → noScrubEnded s → ∃ s', exec .scrubRead s = .next s' ∧
    s'.scrubPos = (if s.scrubPos + 1 = 384 * 2 ^ 20 + 96 * 5120 + 2 * 131072 + 96 * 2048 then 0 else s.scrubPos + 1))

/-- R96, R97, R320, R323, R324, R326, R329, R330: a transfer whose records pass its checks is accepted: the four data words take a handle with a
promise, and their engine holds the command. -/
def copyWordsComplete : Prop :=
  ∀ (s : State) (t : Team) (h : Hdr) (d a b c : RegNo) (acq rel : Bool) (lead : Nat) (gs : List Nat) (slot : Nat) (rest : List Nat) (x y : Shape),
    let di := leadVal t lead a 1
    let si := leadVal t lead b 1
    let tag := leadVal t lead c 1
    (copyCommands s t (.cpCopy h d a b acq rel) h lead gs slot rest acq → recordsPass s t (.cpCopy h d a b acq rel) di si (fun z => z.wr) (fun z => z.rd) x y →
      x.overlaps y 0 = false → acceptedCopy (.cpCopy h d a b acq rel) s t slot rest d (lead :: gs) .copy x y [] 0 acq rel) ∧
    (∀ g zs, copyCommands s t (.cpMcast h d a b c acq rel) h lead gs slot rest acq →
      recordsPass s t (.cpMcast h d a b c acq rel) di si (fun z => z.mc) (fun z => z.rd) x y → x.space = 1 → s.grid? t.gid = some g →
      let vs := (List.range 96).filter fun v => (leadVal t lead c 3).testBit v
      mcastShifts g x vs = some zs → x.overlaps y 0 = false → (∀ z ∈ zs, x.overlaps y z = false) →
      acceptedCopy (.cpMcast h d a b c acq rel) s t slot rest d (lead :: gs) .mcast x y vs 0 acq rel) ∧
    (copyCommands s t (.cpOff h d a b c acq rel) h lead gs slot rest acq →
      recordsPass s t (.cpOff h d a b c acq rel) di si (fun z => z.off && z.wr) (fun z => z.off && z.rd) x y → x.space = 0 → tag < 65536 → x.overlaps y 0 = false →
      (s.tagUses.filter fun u => u.ctx == t.ctx).length < 1024 →
      acceptedCopy (.cpOff h d a b c acq rel) s t slot rest d (lead :: gs) .off x y [] tag acq rel) ∧
    (copyCommands s t (.cpRet h d a b c acq rel) h lead gs slot rest acq →
      recordsPass s t (.cpRet h d a b c acq rel) di si (fun z => z.off && z.wr) (fun z => z.off && z.rd) x y → tag < 65536 → x.overlaps y 0 = false →
      (∀ u ∈ s.tagUses, u.ctx = t.ctx → u.tag ≠ tag) →
      acceptedCopy (.cpRet h d a b c acq rel) s t slot rest d (lead :: gs) .ret x y [] tag acq rel)

/-- R325, R328: `cp.prom` answers a live copy handle's promise, `cp.renew` makes a new one from what remains, and `cp.cncl` ends a pending
transfer with CANCELLED and answers 1; a stale handle is answered with zero. -/
def copyHandleWordsComplete : Prop :=
  ∀ (s : State) (t : Team) (h : Hdr) (d a : RegNo) (lead : Nat) (gs : List Nat), leads t h lead gs → allGood t →
    let x := leadVal t lead a 1
    let n := x % 64
    (Runs s t (.cpProm h d a) →
      (freshCopyHandle t x → exec (.cpProm h d a) s = .next (s.putTeam
        ((t.sAll d.toNat (lead :: gs) (natWords 2 (((t.slotOf n).promise).getD 0))).pass (Instr.length (.cpProm h d a))))) ∧
      (¬ freshCopyHandle t x → exec (.cpProm h d a) s =
        .next (s.putTeam ((t.sAll d.toNat (lead :: gs) (natWords 2 0)).pass (Instr.length (.cpProm h d a)))))) ∧
    (Runs s t (.cpRenew h d a) →
      (¬ freshCopyHandle t x → exec (.cpRenew h d a) s =
        .next (s.putTeam ((t.sAll d.toNat (lead :: gs) (natWords 2 0)).pass (Instr.length (.cpRenew h d a))))) ∧
      (∀ v q, s.copyOf t x = some (v, q) →
        let p := s.time + ceilDiv (q.remaining (s.ccOf v) * 1000) (s.clusterMhz v) + q.heldCycles
        exec (.cpRenew h d a) s = .next ((s.modCopy v q.id fun z => { z with promise := p }).putTeam
          (((t.putSlot n { t.slotOf n with promise := some p }).sAll d.toNat (lead :: gs) (natWords 2 p)).pass (Instr.length (.cpRenew h d a)))))) ∧
    (Runs s t (.cpCncl h d a) →
      (¬ freshCopyHandle t x → exec (.cpCncl h d a) s =
        .next (s.putTeam ((t.sAll d.toNat (lead :: gs) (natWords 1 0)).pass (Instr.length (.cpCncl h d a))))) ∧
      (∀ v q, s.copyOf t x = some (v, q) → s.copyCmd v q.id = some q →
        ∃ s' t', exec (.cpCncl h d a) s = .next s' ∧ (∀ z ∈ (s'.cluster v).copy.all, z.id ≠ q.id) ∧ s'.team? t.uid = some t' ∧
          (t'.slotOf n).status = .cancelled ∧ t'.s = (t.sAll d.toNat (lead :: gs) (natWords 1 1)).s ∧
          t'.pc = t.pc + BitVec.ofNat 16 (Instr.length (.cpCncl h d a))))

/-- R266, R267: a store whose lanes reach their places completes at acceptance: its writes are on their way in lane order, with the bytes of the
data registers, the registers are as before, and no home byte has changed yet; a store to a HOST page is noted for the next release (R295). -/
def storesComplete : Prop :=
  ∀ (s : State) (t : Team) (h : Hdr) (ty : Ty) (d a b c : RegNo) (m : MemF) (at_ : Nat → Nat × Nat × Option Leaf),
    let i : Instr := .vSt h ty d a b c m
    let size := accessSize ty m.q
    Runs s t i → allGood t → s.poison = [] → s.codeErrs = [] → reaches s t h .write (MemForm.of a b c m size) id at_ →
    ∃ s', exec i s = .next s' ∧ (∀ a, s'.byte a = s.byte a) ∧
      s'.team? t.uid = some (Team.pass { t with
        hostStores := t.hostStores || decide (∃ l ∈ t.lanesFor h, hostHome (at_ l).1 = true) } i.length) ∧
      s'.pend = s.pend ++ sentWrites t i h m.sp at_ (fun _ => .store)
        (fun l => natLe size (wordsNat (t.rRun d.toNat (if m.q then 4 else if ty.is64 then 2 else 1) l)))

/-- R269: a prefetch never faults and returns nothing: the team is past it with its registers as before, and where it has no write on its way no
home byte changes; no stored code error is met. -/
def prefetchCompletes : Prop :=
  ∀ (s : State) (t : Team) (h : Hdr) (a b c : RegNo) (m : MemF), let i : Instr := .vPf h a b c m
    Runs s t i → allGood t → s.codeErrs = [] → (∀ w ∈ s.pend, w.uid ≠ t.uid) →
    ∃ s', exec i s = .next s' ∧ s'.team? t.uid = some (t.pass i.length) ∧ (∀ k, s'.byte k = s.byte k) ∧ s'.pend = s.pend

/-- R115, R116, R118: an `s.bar.sync` or `s.bar.arr` in range, after the release of the team's earlier stores, sends its arrival to the slot, which
it reaches after R118's delay, and holds the team; an `s.bar.wait` whose phase has passed acquires and goes on, and one whose phase has not
is held. -/
def barrierWordsComplete : Prop :=
  ∀ (s : State) (t : Team) (h : Hdr) (d c : RegNo) (bar : BitVec 11) (lead : Nat) (rest : List Nat) (core idx : Nat) (g : Grid),
    leads t h lead rest → allGood t → barrierAt s t bar.toNat core idx g →
    (Runs s t (.sBarSync h d bar) → releasesNow s t → 1 ≤ leadVal t lead d 1 → leadVal t lead d 1 ≤ 6144 →
      ∃ s' n, exec (.sBarSync h d bar) s = .next s' ∧ released s' ∧
        s'.team? t.uid = some { releasing t n with hold := .barIn, heldLen := Instr.length (.sBarSync h d bar) } ∧
        s'.arrivals = s.arrivals ++ [{ uid := t.uid, src := t.home, at_ := s.cc + s.ticks (engineOf t) (barrierDistance t.home core), core := core, idx := idx,
                                       count := leadVal t lead d 1, sync := true, d := 192, groups := lead :: rest }]) ∧
    (Runs s t (.sBarArr h d bar c) → releasesNow s t → 1 ≤ leadVal t lead c 1 → leadVal t lead c 1 ≤ 6144 →
      ∃ s' n, exec (.sBarArr h d bar c) s = .next s' ∧ released s' ∧
        s'.team? t.uid = some { releasing t n with hold := .barIn, heldLen := Instr.length (.sBarArr h d bar c) } ∧
        s'.arrivals = s.arrivals ++ [{ uid := t.uid, src := t.home, at_ := s.cc + s.ticks (engineOf t) (barrierDistance t.home core), core := core, idx := idx,
                                       count := leadVal t lead c 1, sync := false, d := d, groups := lead :: rest }]) ∧
    (Runs s t (.sBarWait h d bar) →
      (s.barGen core idx t.gid ≠ BitVec.ofNat 16 (leadVal t lead d 1) → ∃ s', exec (.sBarWait h d bar) s = .next s' ∧
        acquired s.owners t s' ∧ s'.team? t.uid = some (t.pass (Instr.length (.sBarWait h d bar)))) ∧
      (s.barGen core idx t.gid = BitVec.ofNat 16 (leadVal t lead d 1) → ∃ s', exec (.sBarWait h d bar) s = .next s' ∧
        s'.team? t.uid = some { t with hold := .barWait idx (BitVec.ofNat 16 (leadVal t lead d 1)), heldLen := Instr.length (.sBarWait h d bar) }))

/-- R116, R117: an arrival at its slot takes the slot's generation as its token and is counted, or asks for the stop BARRIER where its count
differs; a token that returns is written and the team goes on; a team whose phase has completed acquires and goes on. -/
def barrierEventsComplete : Prop :=
  (∀ (s : State) (n : Nat) (a : Arrival) (t : Team), s.arrivals[n]? = some a → s.team? a.uid = some t →
    let b := (s.core a.core).bar a.idx t.gid
    ((b.cnt = 0 ∨ b.exp = a.count) → ∃ s' u, exec (.barrierArrival n) s = .next s' ∧ s'.arrivals = s.arrivals.eraseIdx n ∧
      (s'.core a.core).bar a.idx t.gid = counted b a.count ∧
      s'.team? a.uid = some { t with hold := if a.sync then .barWait a.idx b.gen else .barTok b.gen a.d a.groups, dueAt := u }) ∧
    (b.cnt ≠ 0 → b.exp ≠ a.count → ∃ s', exec (.barrierArrival n) s = .next s' ∧ s'.arrivals = s.arrivals.eraseIdx n ∧
      (s'.core a.core).bar a.idx t.gid = b ∧
      s'.team? a.uid = some { t with hold := .free, stopReq := some (Stop.of .barrier) })) ∧
  (∀ (s : State) (t : Team) (token : BitVec 16) (d : RegNo) (gs : List Nat), s.team? t.uid = some t → heldFits t →
    t.hold = .barTok token d gs →
    exec (.barrierTokenReturn t.uid) s = .next (s.putTeam (woken (t.sAll d.toNat gs [RWord.ofNat token.toNat])))) ∧
  (∀ (s : State) (t : Team) (g : Grid) (core idx : Nat) (token : BitVec 16), s.team? t.uid = some t → heldFits t →
    t.hold = .barWait idx token → t.res = .resident → s.grid? t.gid = some g → g.barCore = some core → s.barGen core idx t.gid ≠ token →
    ∃ s', exec (.barrierRelease t.uid) s = .next s' ∧ acquired s.owners t s' ∧ s'.team? t.uid = some (woken t))

end Sys2Proof.Claims

open Sys2Proof Sys2Proof.Machine Sys2Proof.Claims

/-- R101 to R103: every uniform arithmetic word completes with R101's result in each group that it executes for; every uniform compare and predicate word
with R102's predicate; and the uniform moves complete and keep the words' residue codes. -/
def Obligations.UniformWordsComplete : Prop :=
  uniformArithmeticCompletes ∧ uniformPredicatesComplete ∧ uniformMovesComplete


/-- R155 to R159: every lane arithmetic word, and every bitwise, shift, bit-field, count, permute and conversion word of the lanes, completes with the
result of its rule in each lane that it executes for. -/
def Obligations.LaneIntegersComplete : Prop :=
  laneArithmeticCompletes ∧ laneBitwiseCompletes

/-- R157, R160, R161: every compare and predicate word of the lanes completes with the predicate of its rule; the lane moves complete, and the words
keep their residue codes. -/
def Obligations.LanePredicatesAndMovesComplete : Prop :=
  lanePredicatesComplete ∧ laneMovesComplete


/-- R164 to R170: every floating-point sum, product, minimum, sign, comparison and class word, and every conversion and quantisation word, completes
with its rule's result. -/
def Obligations.FloatWordsComplete : Prop :=
  floatArithmeticCompletes ∧ floatConversionCompletes

/-- R171 to R174: every root, exponential, logarithm, circular and turn-reduction word completes with its rule's result. That each function is
the exact one plus a free error within the spec's bound is the model's choice (log entry 10). -/
def Obligations.FloatFunctionsComplete : Prop := laneWordsRun floatFunctions

/-- R175 to R177, R180: moves between lanes, matches, votes and the keyed generator complete with their rules' results, where every register
carries its residue. -/
def Obligations.CrossLaneCompletes : Prop :=
  ∀ (s : State) (t : Team) (i : Instr) (r : LaneRule), crossLaneWords i = some r → Runs s t i → allGood t →
    exec i s = .next (r.after s t i)

/-- R62, R63, R178, R179: an integer reduction or scan completes with the fold of its group's lanes, whatever tree the engine uses; an FP32 reduction with
the fixed pairwise tree's result, and an FP32 scan with the sums in ascending order. -/
def Obligations.AllReductionsComplete : Prop :=
  reductionsComplete ∧ floatReductionsComplete


/-- R260, R267, R268: a load whose lanes reach their places completes; without lookahead each lane's registers take the bytes that it sees, and
with lookahead they are in flight until LOAD_DATA_RETURN; no byte of memory changes. R29, R76: the oldest long-latency word in flight, where no
engine has still to answer it, lands without a fault: its writes are made, and it is no longer in flight. When a flight is made, and when it
ends, are the model's reading (log entry 8). -/
def Obligations.LoadsCompleteAndLand : Prop :=
  loadsComplete ∧ flightLands

/-- R266, R267: a store whose lanes reach their places completes at acceptance: its writes are on their way in lane order, with the bytes of the
data registers, the registers are as before, and no home byte has changed yet; a store to a HOST page is noted for the next release (R295). R269:
a prefetch never faults and returns nothing: the team is past it with its registers as before, and where it has no write on its way no home byte
changes. -/
def Obligations.StoresAndPrefetchComplete : Prop :=
  storesComplete ∧ prefetchCompletes

/-- R271 to R274: a returning atomic or compare-and-swap on words at home on this device or the host acts at the homes in lane order; each lane
receives the word that it met, a floating add passes its draws, and every byte that no lane's word holds is as before. R56, R58, R266, R271, R272:
a no-return atomic completes at acceptance: one write a lane is on its way with the operation, its data, mode and draw, and the rounding counters
pass the draws. -/
def Obligations.AllAtomicsComplete : Prop :=
  atomicsComplete ∧ noReturnAtomicsComplete

/-- R266, R284: a store registers at its home on this device or the host: exactly its bytes change there, and it is no longer on its way. R271,
R272, R274: a no-return atomic that no other lane of its instruction shares a word with is applied at its unit: the word at its home becomes the
operation's result on it, and no other byte changes. -/
def Obligations.WritesReachTheirHome : Prop :=
  storeRegistersAtHome ∧ atomicAppliesAtHome


/-- R72, R73, R105, R106, R109: a control transfer within its segment completes. Where no active lane leaves, the team goes on; where all go to
one PC, the PC becomes it; where the lanes part, the stack is R109's. The registers that the transfer names are written, and no byte changes.
The order of a path whose PC several targets share is the model's choice (log entry 62). -/
def Obligations.TransfersComplete : Prop :=
  ∀ (s : State) (t : Team) (i : Instr) (r : JumpRule), jumpRule t i = some r → Runs s t i → allGood t → r.ok →
    let ft := t.pc + BitVec.ofNat 16 i.length
    let dest := r.dest ft
    ((∀ l ∈ t.activeLanes, dest l = ft) → exec i s = .next (s.putTeam (r.write.pass i.length))) ∧
    (∀ p, p ≠ ft → t.activeLanes ≠ [] → (∀ l ∈ t.activeLanes, dest l = p) →
      ∃ b, comesTo i s (arrived r.write ({ t.top with pc := p } :: t.stack.tail) b)) ∧
    (∀ ps : List (BitVec 16), 2 ≤ ps.length → (∀ p, p ∈ ps ↔ ∃ l ∈ t.activeLanes, dest l = p) → ps.Pairwise (runsBefore t r ft) →
      t.stack.length + ps.length ≤ 16 → t.depth + ps.length ≤ 256 →
      ∃ b, comesTo i s (arrived r.write (splitStack t dest (r.point t ft) ps) b))

/-- R263, R265: where a lane's address is not a multiple of the access size, a memory word without lookahead stops the team with ALIGN at its
PC, naming those lanes. R105: where a lane of a table transfer has an index beyond the list, the team stops with BTAB_RANGE at this PC, naming
those lanes, and nothing is changed before the stop. That a table transfer's index is checked before its target's segment is the model's reading
(log entry 25). -/
def Obligations.AddressAndIndexStops : Prop :=
  misalignedAccessStops ∧ indexBeyondTableStops

/-- R107: `s.exit` takes the active lanes of its groups out of every entry. When none remains in the base entry the team is gone; otherwise
the team goes on past the word. (Stated for a stack with nothing spilled.) -/
def Obligations.ExitCompletes : Prop :=
  ∀ (s : State) (t : Team) (h : Hdr), Runs s t (.sExit h) → t.spilled = 0 → t.stack ≠ [] →
    let u := withoutLanes t (exitMask t h)
    ((u.stack.getLast?.getD t.top).mask = 0 → ∃ s', exec (.sExit h) s = .next s' ∧ s'.team? t.uid = none ∧ ∀ a, s'.byte a = s.byte a) ∧
    ((u.stack.getLast?.getD t.top).mask ≠ 0 → ∃ s' u', exec (.sExit h) s = .next s' ∧ s'.team? t.uid = some u' ∧
      u'.stack = (u.setPc (t.pc + BitVec.ofNat 16 (Instr.length (.sExit h)))).stack ∧ u'.frame = u.frame ∧
      u'.v = t.v ∧ u'.s = t.s ∧ u'.p = t.p ∧ u'.q = t.q ∧ ∀ a, s'.byte a = s.byte a)

/-- R130, R133 to R136: the overlay words complete. `s.jmpf` of every active lane goes to a target whose segment is LANDED and stops with
OVL_MISS where it is ABSENT or LOADING; `s.cfence` ends the use of a loop buffer; `s.cstat` gives the status and the bound bit. R31, R32, R133: where a segment's image has landed on every core of the team, `s.cfetch` answers a handle that reads DONE, and binds the
segment; `s.cfetch.reload` starts the load anew and answers a handle that is PENDING while the team's core reads the code. -/
def Obligations.OverlaysAndCodeFetchesComplete : Prop :=
  overlayWordsComplete ∧ codeFetchesComplete


/-- R115, R116, R118: an `s.bar.sync` or `s.bar.arr` in range, after the release of the team's earlier stores, sends its arrival to the slot,
which it reaches after R118's delay, and holds the team; an `s.bar.wait` whose phase has passed acquires and goes on, and one whose phase has
not is held. R116, R117: an arrival at its slot takes the slot's generation as its token and is counted, or asks for the stop BARRIER where its
count differs; a token that returns is written and the team goes on; a team whose phase has completed acquires and goes on. What a release or an
acquire does to pending stores and copies is the model's form of it (log entry 11). -/
def Obligations.BarriersComplete : Prop :=
  barrierWordsComplete ∧ barrierEventsComplete

/-- R32, R119, R291: `s.poll`, and `s.wait` and `s.waitall` with nothing pending, write the status and go on, having acquired where it reads
DONE; `s.sleepu` goes on once `CYC` has reached the value. Otherwise the words hold the team: `s.sleepu` until that cycle, `s.wait` while its
handle is PENDING, and `s.waitall` while a slot of its mask is; the wakes let it go on. R120: a wait for a copy whose promised time is past stops
the team with COPY_LATE at its PC and writes no status, when it issues and while it is held (in handler mode R147 holds the cause instead). -/
def Obligations.WaitsCompleteOrStopLate : Prop :=
  waitsComplete ∧ lateCopyStops

/-- R285 to R288, R295: a fence completes: an acquire leaves in the caches only what is owned, a release leaves no write on its way and every
revoke acknowledged, and the team goes on with its registers as before. After stores to HOST pages a release sends a zero-length read, and what
the fence orders waits for it. What a release or an acquire does to pending stores and copies is the model's form of it (log entry 11). -/
def Obligations.FencesComplete : Prop :=
  ∀ (s : State) (t : Team) (h : Hdr), t.groupsFor h ≠ [] →
    (Runs s t (.sFenceAcq h) → ∃ s', exec (.sFenceAcq h) s = .next s' ∧ acquired s.owners t s' ∧
      s'.team? t.uid = some (t.pass (Instr.length (.sFenceAcq h))) ∧ ∀ a, s'.byte a = s.byte a) ∧
    (releasesNow s t →
      (Runs s t (.sFenceRel h) → ∃ s' n, exec (.sFenceRel h) s = .next s' ∧ released s' ∧
        s'.team? t.uid = some ((releasing t n).pass (Instr.length (.sFenceRel h)))) ∧
      (Runs s t (.sFenceAcqrel h) → ∃ s' n, exec (.sFenceAcqrel h) s = .next s' ∧ released s' ∧ acquired s.owners t s' ∧
        s'.team? t.uid = some ((releasing t n).pass (Instr.length (.sFenceAcqrel h)))) ∧
      (Runs s t (.sFenceSc h) → ∃ s' n, exec (.sFenceSc h) s = .next s' ∧ released s' ∧ acquired s'.owners t s' ∧
        s'.team? t.uid = some ((releasing t n).pass (Instr.length (.sFenceSc h))))) ∧
    (localRelease s t → t.hostStores = true → t.fence = .none →
      (Runs s t (.sFenceRel h) → ∃ s' n, exec (.sFenceRel h) s = .next s' ∧ released s' ∧ OutMsg.zeroRead (n - 1) ∈ s'.outbox ∧
        s'.team? t.uid = some (Team.pass { releasing t n with fence := .rel } (Instr.length (.sFenceRel h)))) ∧
      (Runs s t (.sFenceAcqrel h) → ∃ s' n, exec (.sFenceAcqrel h) s = .next s' ∧ released s' ∧ OutMsg.zeroRead (n - 1) ∈ s'.outbox ∧
        s'.team? t.uid = some (Team.pass { releasing t n with fence := .rel } (Instr.length (.sFenceAcqrel h)))) ∧
      (Runs s t (.sFenceSc h) → ∃ s' n, exec (.sFenceSc h) s = .next s' ∧ released s' ∧ OutMsg.zeroRead (n - 1) ∈ s'.outbox ∧
        s'.team? t.uid = some (Team.pass { releasing t n with fence := .sc } (Instr.length (.sFenceSc h)))))

/-- R122 to R126 and the engine chapters' registers: `s.csrr` completes with the register's value in each group that it executes for. -/
def Obligations.CsrReadsComplete : Prop :=
  ∀ (s : State) (t : Team) (h : Hdr) (d : RegNo) (csr : BitVec 12) (n v : Nat), (csr.toNat, n, v) ∈ csrReads s t → Runs s t (.sCsrr h d csr) →
    exec (.sCsrr h d csr) s =
      .next (s.putTeam ((t.writeGroups d.toNat (t.groupsFor h) fun _ => URes.num n v).pass (Instr.length (.sCsrr h d csr))))

/-- R113, R122, R124, R203: `s.csrw`, `s.csrs` and `s.csrc` complete: RW bits follow R122's formula, W1C bits are cleared, RO bits and
registers stay. -/
def Obligations.CsrWritesComplete : Prop :=
  ∀ (s : State) (t u : Team) (op : CsrOp) (h : Hdr) (d : RegNo) (csr : BitVec 12) (lead : Nat) (rest : List Nat), leads t h lead rest →
    allGood t → csrWritten t op csr.toNat (BitVec.ofNat 64 (leadVal t lead d (csrWidth csr))) = some u → Runs s t (csrWord op h d csr) →
    exec (csrWord op h d csr) s = .next (s.putTeam (u.pass (Instr.length (csrWord op h d csr))))

/-- R113, R125: `s.fmt` writes the format word, `s.seed` a seed register, and `s.seedmix` mixes one with the keyed generator. -/
def Obligations.FormatAndSeedsComplete : Prop :=
  ∀ (s : State) (t : Team) (h : Hdr) (lead : Nat) (rest : List Nat), leads t h lead rest → allGood t →
    (∀ imm, Runs s t (.sFmt h imm) → exec (.sFmt h imm) s =
      .next (s.putTeam (Team.pass (t.setTop { t.top with fmt := imm.zeroExtend 32 }) (Instr.length (.sFmt h imm))))) ∧
    (∀ n a, Runs s t (.sSeed h n a) → exec (.sSeed h n a) s =
      .next (s.putTeam (Team.pass (seeded t n (BitVec.ofNat 64 (leadVal t lead a 2))) (Instr.length (.sSeed h n a))))) ∧
    (∀ n a, Runs s t (.sSeedmix h n a) →
      let v := BitVec.ofNat 64 (leadVal t lead a 2)
      exec (.sSeedmix h n a) s = .next (s.putTeam (Team.pass (seeded t n (BitVec.ofNat 64
        ((kg (seedOf t n) 0x80000001 v).toNat * 2 ^ 32 + (kg (seedOf t n) 0x80000002 v).toNat))) (Instr.length (.sSeedmix h n a)))))

/-- R139, R143, R146, R150: where the handler can be entered, `s.trap` and `s.brk` enter it with SWTRAP resuming after the word and BREAK at the
word, the code in `TPC`; and a stop that an engine asked of a held team is taken at that team's word. -/
def Obligations.TrapsEnterTheHandler : Prop :=
  ∀ (s : State) (t : Team), handlerReady s t →
    (∀ h code, Runs s t (.sTrap h code) → t.groupsFor h ≠ [] →
      comesTo (.sTrap h code) s (entered t (t.pc + BitVec.ofNat 16 (Instr.length (.sTrap h code))) code .swtrap 0)) ∧
    (∀ h code, Runs s t (.sBrk h code) → t.groupsFor h ≠ [] → comesTo (.sBrk h code) s (entered t t.pc code .brk 0)) ∧
    (∀ st, s.team? t.uid = some t → t.res = .resident → t.stopReq = some st → st.after = false → st.code = 0 →
      comesTo (.preciseStop t.uid) s (entered t t.pc 0 st.cause st.lanes))

/-- R79, R80, R139, R143, R146: outside handler mode every stop of a team that can enter its handler does so, at its word's PC or after it; a word
of any kind that breaks decode's checks stops so with ILLEGAL, and a privileged word in a team without the privileged flag with PRIV. R149, R231:
a stop that arrives while `TVB`.EN is 0 or in handler mode, with no engine still to answer a word in flight, ends the team, and its context's
fault log counts a record. -/
def Obligations.StopsAreTaken : Prop :=
  stopsEnterTheHandler ∧ stopWithoutHandlerEndsTeam

/-- R148: in handler mode with nothing spilled, `s.rth` pops the handler's entries and, with no bit of `TCAUSE` left, restores the frame at
`TPC` and clears HM; with a bit left it enters the handler again. Outside handler mode it stops with ILLEGAL. -/
def Obligations.ReturnFromHandler : Prop :=
  ∀ (s : State) (t : Team) (h : Hdr), Runs s t (.sRth h) →
    (∀ fr, t.handler = true → t.frame = some fr → t.spilled = 0 → t.frameDepth ≤ t.stack.length →
      (t.tcause.toNat % 2 ^ 29 = 0 → fencePasses s t (t.tpc.toNat % 65536) → exec (.sRth h) s = .next (s.putTeam
        { t with stack := { fr with pc := t.tpc.truncate 16 } :: (t.stack.drop (t.stack.length - t.frameDepth)).tail
                 tcw := t.tcw &&& ~~~0x4000_0000, frame := none, skipPos := 0, issued := t.issued + 1
                 loopBuf := keptBuf t (t.tpc.toNat % 65536) })) ∧
      (t.tcause.toNat % 2 ^ 29 ≠ 0 → fencePasses s t (t.tvb.toNat % 65536) → exec (.sRth h) s = .next (s.putTeam
        (Team.setPc { t with stack := t.stack.drop (t.stack.length - t.frameDepth), issued := t.issued + 1
                             loopBuf := keptBuf t (t.tvb.toNat % 65536) }
          (t.tvb.truncate 16))))) ∧
    (t.handler = false → exec (.sRth h) s = .next (s.takeStop t.uid (Instr.length (.sRth h)) (Stop.of .illegal)))

/-- R195, R202, R205: the check words complete: `ck.res` gives the code that A carries and `ck.vfy` whether a code is wrong, whatever the codes
are; `ck.injr` copies A with the chosen code; `ck.mcrd` gives a record's word and `ck.ecnt` a counter. -/
def Obligations.CheckWordsComplete : Prop :=
  ∀ (s : State) (t : Team) (h : Hdr) (d a : RegNo),
    (Runs s t (.ckRes h d a) → exec (.ckRes h d a) s =
      .next (lanesWritten s t h d (.ckRes h d a) fun l => LRes.num 1 (t.rGet a.toNat l).code.toNat)) ∧
    (∀ ty p, Runs s t (.ckVfy h ty p a) → exec (.ckVfy h ty p a) s = .next (lanesWritten s t h 0 (.ckVfy h ty p a) fun l =>
      LRes.flag p.toNat (decide (∃ k < regsOf ty, (t.rGet (a.toNat + k) l).code ≠ BitVec.ofNat 3 ((t.rGet (a.toNat + k) l).val.toNat % 7))))) ∧
    (∀ b, Runs s t (.ckInjr h d a b) → (∀ l ∈ t.lanesFor h, (t.rGet b.toNat l).good = true) → exec (.ckInjr h d a b) s =
      .next (lanesWritten s t h d (.ckInjr h d a b) fun l => LRes.val [RWord.mk
        (t.rGet a.toNat l).val (chosenCode (t.rGet a.toNat l).val ((t.rGet b.toNat l).val.toNat % 8))])) ∧
    (Runs s t (.ckMcrd h d a) → t.lanesGood h [(a, 1)] → exec (.ckMcrd h d a) s = .next (lanesWritten s t h d (.ckMcrd h d a) fun l =>
      LRes.num 2 (recordWord s t ((t.rGet a.toNat l).val.toNat / 8 % 16) ((t.rGet a.toNat l).val.toNat % 8)))) ∧
    (Runs s t (.ckEcnt h d a) → t.lanesGood h [(a, 1)] → exec (.ckEcnt h d a) s = .next (lanesWritten s t h d (.ckEcnt h d a) fun l =>
      LRes.num 1 (SMap.get 0 s.counters ((t.rGet a.toNat l).val.toNat % 64))))

/-- R206: `ck.injm` puts the code error on exactly the HBM and vault blocks of this device that its lanes name; data and registers are as before
(a page of the host or of another device has no block here: log entry 65). R194, R200, R201: a record reads as filed once its 40 core cycles are
past; a scrub read of HBM or a vault corrects the correctable errors of the 16 blocks at the scrubber's place, touches no other block and moves
the place on; after the caches' lines and the accumulator rows, whose place in the order is the model's choice (log entry 27), the pass begins
again. -/
def Obligations.InjectionsRecordsAndScrubbing : Prop :=
  injectionsComplete ∧ recordsAndScrubbing


/-- R300, R301, R304, R309, R311, R313: the matrix words complete. `mx.gang` and `mx.mma` arrive at their slot and hold the team; `mx.free`
leaves the gang; `mx.zero`, `mx.ld` and `mx.st` take a handle and join the reservation table. -/
def Obligations.MatrixWordsComplete : Prop :=
  ∀ (s : State) (t : Team) (h : Hdr) (d a b c : RegNo) (lead : Nat) (gs : List Nat) (slot : Nat) (rest : List Nat),
    (commands s t (.mxGang h d a b) h lead gs slot rest false → t.mxgang.toNat / 2 ^ 30 = 0 →
      let x := leadVal t lead a 1
      let rows := leadVal t lead b 1
      let id := x % 16
      let n := x / 16 % 8
      let rank := x / 256 % 8
      x / 2 ^ 11 = 0 → x / 128 % 2 = 0 → 2 ≤ n → n ≤ 6 → rank < n → (rank = 0 → 0 < rows ∧ rows % 64 = 0 ∧ n * rows ≤ 8192) →
      let g := ((s.cluster (engineOf t)).gang? id).getD
        { gid := t.gid, n := n, formed := false, formedAt := 0, rows := 0, base := none, members := [], latch := [] }
      g.gid = t.gid → g.formed = false → g.n = n → (∀ m ∈ g.members, m.rank ≠ rank) →
      ∃ s', exec (.mxGang h d a b) s = .next s' ∧
        s'.team? t.uid = some { t with mxgang := BitVec.ofNat 32 (2 ^ 30 + rank * 2 ^ 8 + n * 2 ^ 4 + id), hold := .latch,
                                       heldLen := Instr.length (.mxGang h d a b) } ∧
        (s'.cluster (engineOf t)).gang? id = some { g with rows := if rank = 0 then rows else g.rows, members := g.members ++
          [{ rank := rank, uid := t.uid, rows := rows, d := d, groups := lead :: gs, handle := none, left := false, q := 0 }] }) ∧
    (Runs s t (.mxFree h) → t.groupsFor h ≠ [] → t.hold = .free → t.mxgang.toNat / 2 ^ 30 ≠ 0 →
      ∃ s', exec (.mxFree h) s = .next s' ∧
        s'.team? t.uid = some (Team.pass { t with mxgang := 0, mxwin := 0, stopReq := none } (Instr.length (.mxFree h)))) ∧
    (∀ acc z acq g, commands s t (.mxMma h d a b c acc z acq) h lead gs slot rest acq →
      let av := leadVal t lead a 2
      let ctrl := leadVal t lead c 1
      let leader := t.mxgang.toNat / 256 % 8 = 0
      let bv := if leader then leadVal t lead b 2 else 0
      s.mmaCheck t acc (av % 2 ^ 32) (av / 2 ^ 32) (if leader then some (bv % 2 ^ 32, bv / 2 ^ 32) else none) ctrl = none →
      (s.cluster (engineOf t)).gang? t.gangSlot = some g →
      let i : Instr := .mxMma h d a b c acc z acq
      ∃ s' n, exec i s = .next s' ∧ s'.team? t.uid = some { sending t acq n with hold := .latch, heldLen := i.length } ∧
        (s'.cluster (engineOf t)).gang? t.gangSlot = some { g with latch := g.latch ++ [latchArrival t i acc z acq d (lead :: gs) av bv ctrl] }) ∧
    (commands s t (.mxZero h d a c) h lead gs slot rest false → (s.cluster (engineOf t)).entries.length < 64 →
      1 ≤ leadVal t lead a 1 → leadVal t lead a 1 ≤ 128 → inWindow t (leadVal t lead c 1) (64 * leadVal t lead a 1) →
      ∃ s', exec (.mxZero h d a c) s = .next s' ∧ queuedMx s s' t slot (leadVal t lead c 1) (.zero (leadVal t lead a 1)) ∧
        s'.team? t.uid = some ((handed t 1 slot rest d (lead :: gs) none).pass (Instr.length (.mxZero h d a c)))) ∧
    (∀ ty tr acq, commands s t (.mxLd h ty d a c tr acq) h lead gs slot rest acq → (s.cluster (engineOf t)).entries.length < 64 →
      inWindow t (leadVal t lead c 1) 64 → tileInRegion s t (leadVal t lead a 1) (512 * ty.width) →
      ∃ s' n, exec (.mxLd h ty d a c tr acq) s = .next s' ∧
        queuedMx s s' t slot (leadVal t lead c 1) (.ld tr ty (BitVec.ofNat 32 (leadVal t lead a 1))) ∧
        s'.team? t.uid = some ((handed (sending t acq n) 1 slot rest d (lead :: gs) none).pass (Instr.length (.mxLd h ty d a c tr acq)))) ∧
    (∀ tr clr acq rel, commands s t (.mxSt h d a c tr clr acq rel) h lead gs slot rest acq →
      (s.cluster (engineOf t)).entries.length < 64 → inWindow t (leadVal t lead c 1) 64 →
      tileInRegion s t (leadVal t lead a 1) (512 * (fmtO t.top.fmt).width) →
      ∃ s' n, exec (.mxSt h d a c tr clr acq rel) s = .next s' ∧
        queuedMx s s' t slot (leadVal t lead c 1) (.st tr clr rel (BitVec.ofNat 32 (leadVal t lead a 1))) ∧
        s'.team? t.uid = some ((handed (sending t acq n) 1 slot rest d (lead :: gs) none).pass (Instr.length (.mxSt h d a c tr clr acq rel))))

/-- R300, R301: a gang whose members have all arrived forms, and every member gets its handle and goes on; the first waiting gang that fits gets
its windows, which read zero, and every member's handle, gone from the gang or not, reads DONE; a product at whose latch all members stand and
agree is accepted, one part a member. -/
def Obligations.GangEventsComplete : Prop :=
  (∀ (s : State) (v id : Nat) (g : Gang), (s.cluster v).gang? id = some g → g.formed = false → g.n ≤ g.members.length →
    (g.members.map fun m => m.uid).Nodup → (∀ m ∈ g.members, ∃ t slot rest, s.team? m.uid = some t ∧ t.freeSlots = slot :: rest ∧ heldFits t) →
    ∃ s' g', exec (.gangForm v id) s = .next s' ∧ (s'.cluster v).gang? id = some g' ∧ g'.formed = true ∧ g'.formedAt = s.ccOf v ∧
      (s'.cluster v).winWait = (s.cluster v).winWait ++ [{ slot := id, since := s.ccOf v }] ∧
      ∀ m ∈ g.members, ∀ t slot rest, s.team? m.uid = some t → t.freeSlots = slot :: rest → slot < 64 → s'.team? m.uid = some (woken
        { handed t 1 slot rest m.d m.groups none with mxgang := BitVec.ofNat 32 (2 ^ 31 + m.rank * 2 ^ 8 + g.n * 2 ^ 4 + id) })) ∧
  (∀ (s : State) (v base : Nat) (w : WinWait) (ws : List WinWait) (g : Gang), (s.cluster v).winWait = w :: ws →
    (s.cluster v).gang? w.slot = some g → (s.cluster v).freeRows (g.n * g.rows) = some base → (g.members.map fun m => m.uid).Nodup →
    (∀ m ∈ g.members, ∀ who, m.handle = some who → who.uid = m.uid) → (∃ m ∈ g.members, m.left = false) →
    ∃ s', exec (.windowAllocate v) s = .next s' ∧ (s'.cluster v).gang? w.slot = some { g with base := some base } ∧
      (∀ r col, base ≤ r → r < base + g.n * g.rows → col < 64 → (s'.cluster v).accGet r col = 0) ∧
      ∀ m ∈ g.members, ∀ t, s.team? m.uid = some t → ∃ t', s'.team? m.uid = some t' ∧
        (m.left = false →
          t'.mxwin = BitVec.ofNat 32 (2 ^ 31 + (base + m.rank * g.rows + g.rows - 1) * 2 ^ 16 + (base + m.rank * g.rows))) ∧
        (m.left = true → t'.mxwin = t.mxwin) ∧
        ∀ who, m.handle = some who → (t.slotOf who.slot).status = .pending → (t'.slotOf who.slot).status = .done) ∧
  (∀ (s : State) (v id : Nat) (g : Gang) (l : MmaArrival), (s.cluster v).gang? id = some g → g.formed = true → g.n ≤ g.latch.length →
    (s.cluster v).entries.length + g.n ≤ 64 → g.latch.find? (fun m => m.rank == 0) = some l →
    (∀ m ∈ g.latch, m.f = l.f ∧ m.fmt = l.fmt ∧ m.aLay.toNat / 2 ^ 25 % 64 = l.aLay.toNat / 2 ^ 25 % 64) →
    (g.latch.map fun m => m.uid).Nodup → (∀ m ∈ g.latch, ∃ t, s.team? m.uid = some t ∧ t.freeSlots ≠ [] ∧ heldFits t) →
    ∃ s' g', exec (.mmaLatchComplete v id) s = .next s' ∧ (s'.cluster v).gang? id = some g' ∧ g'.latch = [] ∧
      (s'.cluster v).entries.length = (s.cluster v).entries.length + g.latch.length)

/-- R312, R313, R315 to R317: the first ready pass, a product's or a sampling command's, is granted to a sub-array for its cycles; a pass that
ends leaves R312's sums in its rows; a window operation that ends leaves its rows or its tile, and its entry is gone; a sub-array idle for GATE
cycles is gated. -/
def Obligations.MatrixEventsComplete : Prop :=
  (∀ (s s1 : State) (v n : Nat) (wake : Bool) (e : MxEntry) (es : List MxEntry), s.readyPasses v = e :: es →
    (s.cluster v).pickSub (s.ccOf v) = some (n, wake) →
    let d := e.cycles + if wake then 96 else 0
    s.grantWork v (s.passCost e + if wake then s.price 42 0 else 0) d = some s1 →
    ∃ s' x, exec (.mxPassGrant v) s = .next s' ∧ x ∈ (s'.cluster v).entries ∧ x.id = e.id ∧ x.sub = some n ∧ x.endsAt = s.ccOf v + d) ∧
  (∀ (s : State) (v sub : Nat) (e : MxEntry) (z acc : Bool) (aA aL bA bL : Word) (nk : Nat),
    ((s.cluster v).entries.find? fun x => x.sub == some sub && x.isMma) = some e → e.endsAt ≤ s.ccOf v → e.kind = .mma z acc aA aL bA bL nk →
    s.codeErrs = [] → e.inj = 0 →
    ∃ s', exec (.mxPassEnd v sub) s = .next s' ∧
      let len := chunkLen (fmtA e.fmt) (fmtB e.fmt)
      ∀ i < 64, ∀ n < 64, (s'.cluster v).accGet (e.row + i) n = mmaElem e len (64 / len) e.tile (e.row + i) n
        (s.aElem (s.cluster v) e acc aA aL e.tile i) (fun k => s.bElem e bA bL e.tile k n)
        (if z = true ∧ e.tile = 0 then 0 else (s.cluster v).accGet (e.row + i) n)) ∧
  (∀ (s : State) (v : Nat) (e : MxEntry), (s.cluster v).entries = [e] → e.started = true → e.endsAt ≤ s.ccOf v → s.codeErrs = [] → e.inj = 0 →
    s.poison = [] →
    (∀ n, e.kind = .zero n → ∃ s', exec (.mxWindowOpComplete v e.id) s = .next s' ∧ (s'.cluster v).entries = [] ∧
      ∀ r col, e.row ≤ r → r < e.row + 64 * n → col < 64 → (s'.cluster v).accGet r col = 0) ∧
    (∀ tr ty a, e.kind = .ld tr ty a → ∃ s', exec (.mxWindowOpComplete v e.id) s = .next s' ∧ (s'.cluster v).entries = [] ∧
      ∀ i < 64, ∀ n < 64, (s'.cluster v).accGet (e.row + i) n = toF32 (s.tileVal ty false tr (vaultKey a.toNat) i n)) ∧
    (∀ tr clr rel a, e.kind = .st tr clr rel a → a.toNat % 64 = 0 → ∃ s', exec (.mxWindowOpComplete v e.id) s = .next s' ∧
      (s'.cluster v).entries = [] ∧ ∀ k x, (tileBytes (fmtO e.fmt).width fun z =>
        stElem (s.cluster v) e (if tr then (zRowCol z).2 else (zRowCol z).1) (if tr then (zRowCol z).1 else (zRowCol z).2))[k]? = some x →
        s'.byte (vaultKey a.toNat + k) = x)) ∧
  (∀ (s : State) (v sub : Nat) (x : SubArray), (s.cluster v).subs[sub]? = some x → (s.cluster v).mxcfg.toNat % 65536 ≠ 0 → x.gated = false →
    (∀ e ∈ (s.cluster v).entries, e.sub ≠ some sub) → x.busyTill ≤ s.ccOf v → x.lastPass + (s.cluster v).mxcfg.toNat % 65536 ≤ s.ccOf v →
    ∃ s', exec (.subarrayGate v sub) s = .next s' ∧ (s'.cluster v).subs[sub]? = some { x with gated := true })

/-- R337, R338, R352 to R354, R357: the sampling words complete: each takes a handle and joins its engine's queue, `sa.draw` and `sa.fin` with an
entry of the reservation table; `sa.stat` answers the selected statistic of an own slot, and zero for another's, in its register at once or, with
lookahead, in flight. -/
def Obligations.SamplingWordsComplete : Prop :=
  ∀ (s : State) (t : Team) (h : Hdr) (d a b c : RegNo) (lead : Nat) (gs : List Nat) (slot : Nat) (rest : List Nat),
    let x := leadVal t lead a 1
    (commands s t (.saOpen h d a b c) h lead gs slot rest false →
      let av := leadVal t lead a 2
      let bv := leadVal t lead b 2
      let cv := leadVal t lead c 2
      pairOk (fmtA t.top.fmt) (fmtB t.top.fmt) = true → inWindow t (cv / 2 ^ 32) 64 → av % 64 = 0 → bv % 64 = 0 →
      s.openBounds t (av % 2 ^ 32) (av / 2 ^ 32) (bv % 2 ^ 32) (bv / 2 ^ 32) (cv % 2 ^ 32) = false →
      ∃ s' q, exec (.saOpen h d a b c) s = .next s' ∧ (s'.cluster (engineOf t)).saQ = (s.cluster (engineOf t)).saQ ++ [q] ∧
        q.op = .opened (BitVec.ofNat 32 av) (BitVec.ofNat 32 (av / 2 ^ 32)) (BitVec.ofNat 32 bv) (BitVec.ofNat 32 (bv / 2 ^ 32))
          (BitVec.ofNat 32 cv) (BitVec.ofNat 32 (cv / 2 ^ 32)) ∧ q.slot = cv / 2 ^ 14 % 4 ∧ q.uid = t.uid ∧
        s'.team? t.uid = some ((handed t 2 slot rest d (lead :: gs) none).pass (Instr.length (.saOpen h d a b c)))) ∧
    (commands s t (.saClose h d a) h lead gs slot rest false → ∃ s', exec (.saClose h d a) s = .next s' ∧ queuedSa s s' t slot x .close ∧
      s'.team? t.uid = some ((handed t 2 slot rest d (lead :: gs) none).pass (Instr.length (.saClose h d a)))) ∧
    (∀ acq, commands s t (.saNorm h d a b acq) h lead gs slot rest acq → ∃ s', exec (.saNorm h d a b acq) s = .next s' ∧
      queuedSa s s' t slot x (.norm (BitVec.ofNat 32 (leadVal t lead b 1))) ∧
      ∃ n, s'.team? t.uid = some ((handed (sending t acq n) 2 slot rest d (lead :: gs) none).pass (Instr.length (.saNorm h d a b acq)))) ∧
    (commands s t (.saBuild h d a b c) h lead gs slot rest false →
      let e := leadVal t lead b 2
      let p := leadVal t lead c 4
      ∃ s', exec (.saBuild h d a b c) s = .next s' ∧ queuedSa s s' t slot x (.build (BitVec.ofNat 32 e) (BitVec.ofNat 32 (e / 2 ^ 32))
          (BitVec.ofNat 32 p) (BitVec.ofNat 32 (p / 2 ^ 32)) (BitVec.ofNat 32 (p / 2 ^ 64)) (BitVec.ofNat 32 (p / 2 ^ 96))) ∧
        s'.team? t.uid = some ((handed t 2 slot rest d (lead :: gs) none).pass (Instr.length (.saBuild h d a b c)))) ∧
    (∀ acq, commands s t (.saDraw h d a acq) h lead gs slot rest acq → t.mxwin.getLsbD 31 = true →
      (s.cluster (engineOf t)).entries.length < 64 → ∃ s', exec (.saDraw h d a acq) s = .next s' ∧ queuedSa s s' t slot x .draw ∧
        entersWindow s s' t (.draw (x / 2 ^ 14 % 4) (x % 2 ^ 14)) ∧
        ∃ n, s'.team? t.uid = some ((handed (sending t acq n) 2 slot rest d (lead :: gs) none).pass (Instr.length (.saDraw h d a acq)))) ∧
    (commands s t (.saFin h d a) h lead gs slot rest false → t.mxwin.getLsbD 31 = true → (s.cluster (engineOf t)).entries.length < 64 →
      ∃ s', exec (.saFin h d a) s = .next s' ∧ queuedSa s s' t slot x .fin ∧ entersWindow s s' t (.fin (x / 2 ^ 14 % 4)) ∧
        s'.team? t.uid = some ((handed t 2 slot rest d (lead :: gs) none).pass (Instr.length (.saFin h d a)))) ∧
    (Runs s t (.saStat h d a) → allGood t → leads t h lead gs → (∀ q ∈ (s.cluster (engineOf t)).saQ, q.slot ≠ x / 2 ^ 14 % 4) →
      let y := (s.cluster (engineOf t)).saSlot (x / 2 ^ 14 % 4)
      let v := if y.st ≠ .free ∧ y.uid = t.uid then ([y.status, y.t, y.mean.toNat, y.m2.toNat, y.nlost, y.nbld][x % 2 ^ 14]?).getD 0 else 0
      (h.la = 0 →
        exec (.saStat h d a) s = .next (s.putTeam ((t.sAll d.toNat (lead :: gs) [RWord.ofNat v]).pass (Instr.length (.saStat h d a))))) ∧
      (h.la ≠ 0 → ∃ fl, fl.stat = none ∧ fl.stop = none ∧ fl.writes = (if d.toNat = 254 then [] else (lead :: gs).map fun k =>
          .sreg ((d.toNat - 192) * 1024 + k) (RWord.ofNat v)) ∧
        exec (.saStat h d a) s = .next (s.putTeam (Team.pass { t with flight := t.flight ++ [fl] } (Instr.length (.saStat h d a))))))

/-- R340, R341, R347, R355, R357, R361, R406: a slot's first command starts when its dependence is complete and nothing refuses it; a unit of norm work
norms its k-tile, in the cycles in which the cluster reads its two tiles and 8 more, and a batch takes 32 draws; a command that has done its units takes effect, leaves the queue, and its handle reads DONE. -/
def Obligations.SamplingEventsComplete : Prop :=
  ∀ (s : State) (v n : Nat) (q : SaCmd), (s.cluster v).saHead n = some q → n < (s.cluster v).sa.length →
    let x := (s.cluster v).saSlot n
    (q.running = false → s.saDep q = .done →
      (x.refusal q = 0 → ∃ s', exec (.saCommandStart v n) s = .next s' ∧ (s'.cluster v).saHead n = some { q with running := true }) ∧
      (x.refusal q ≠ 0 → ∃ s', exec (.saCommandStart v n) s = .next s' ∧ (∀ y ∈ (s'.cluster v).saQ, y.id ≠ q.id) ∧ settles s s' q.who .faulted)) ∧
    (∀ s1 first, q.running = true → q.op = .norm first → q.batch < q.word.toNat % 2 ^ 14 → q.nextAt ≤ s.ccOf v → q.inj = 0 → s.codeErrs = [] →
      let d := tileReads v x.aAddr (fmtA x.fmt) (fmtAsc x.fmt) + tileReads v x.bAddr (fmtB x.fmt) (fmtBsc x.fmt) + 8
      s.grantWork v (s.price 44 2) d = some s1 →
      ∃ s', exec (.saBatchPass v n) s = .next s' ∧ (s'.cluster v).saSlot n = x.norm s q.rnd (first.toNat + q.batch) false ∧
        (s'.cluster v).saHead n = some { q with batch := q.batch + 1, nextAt := s.ccOf v + d }) ∧
    (∀ e m, q.running = true → q.op = .draw → x.st ≠ .stopped → q.batch < q.word.toNat % 2 ^ 14 → q.nextAt ≤ s.ccOf v → s.codeErrs = [] →
      ((s.cluster v).entries.find? fun e => q.entry == some e.id) = some e → e.sub = some m → e.endsAt ≤ s.ccOf v → x.t + 32 ≤ 2 ^ 31 →
      ∃ s', exec (.saBatchPass v n) s = .next s' ∧ ((s'.cluster v).saSlot n).t = x.t + 32 ∧
        (s'.cluster v).saHead n = some { q with batch := q.batch + 1, nextAt := s.ccOf v + x.gap v }) ∧
    (q.running = true → q.units x ≤ q.batch → (q.op = .draw ∨ q.nextAt ≤ s.ccOf v) → q.inj = 0 → gangsStay s v →
      ∃ s', exec (.saCommandComplete v n) s = .next s' ∧ (∀ y ∈ (s'.cluster v).saQ, y.id ≠ q.id) ∧ settles s s' q.who .done ∧
        let y := (s'.cluster v).saSlot n
        (q.op = .close → y.st = .free) ∧
        (∀ a al b bl desc ctrl, q.op = .opened a al b bl desc ctrl → y.st = .opened ∧ y.uid = q.uid ∧ y.fmt = q.fmt ∧
          y.nk = desc.toNat / 2 ^ 22 + 1 ∧ y.sid = desc.toNat % 2 ^ 14 ∧ y.row = ctrl.toNat % 2 ^ 13) ∧
        (∀ e2 a2 u0 u1 v0 v1, q.op = .build e2 a2 u0 u1 v0 v1 → y.st = .built ∧ y.t = 0 ∧ y.nbld = (x.nbld + 1) % 65536 ∧
          y.tmin = 32 * (q.word.toNat % 2 ^ 14) ∧ y.signU = u1 ++ u0 ∧ y.signV = v1 ++ v0 ∧ (y.thr, y.alias_) = aliasTable y.counts))

/-- R96, R97, R320, R323, R324, R326, R329, R330: a transfer whose records pass its checks is accepted: the four data words take a handle with a
promise, and their engine holds the command. R325, R328: `cp.prom` answers a live copy handle's promise, `cp.renew` makes a new one from what remains, and `cp.cncl` ends a pending
transfer with CANCELLED and answers 1; a stale handle is answered with zero. -/
def Obligations.AllCopyWordsComplete : Prop :=
  copyWordsComplete ∧ copyHandleWordsComplete

/-- R290, R321, R323, R326, R328, R394: the piece of a stream's head is moved once it is granted, and counts as held time while it is not; one that
fails ends its handle FAULTED. A transfer whose bytes are all written and taken by their homes, and with REL have registered, leaves its stream, and
its handle reads DONE, with REL it stays until then; where a home has refused a write of it, it reads FAULTED. -/
def Obligations.CopyEventsComplete : Prop :=
  ∀ (s : State) (v : Nat) (remote : Bool) (q : CopyCmd), ((s.cluster v).copy.stream remote).head? = some q → s.codeErrs = [] →
    q.nextAt ≤ s.ccOf v →
    (q.finished = false → (q.started = true ∨ s.tagWaits q = false) →
      let w := s.pieceCost v q q.piece.2
      let grant := s.grantUnit w.1 w.2 (some (v / 48)) (s.time + ceilDiv (ceilDiv q.piece.2 q.rate * 1000) (s.clusterMhz v))
      (grant = none → ∃ s', exec (.copyCommandStart v remote) s = .next s' ∧
        ((s'.cluster v).copy.stream remote).head? = some { q with started := true, heldCycles := q.heldCycles + 1 }) ∧
      (∀ g p, grant = some g → g.movePiece v q = .ok p → ∃ s' q', exec (.copyCommandStart v remote) s = .next s' ∧
        (∀ a, s'.byte a = p.s.byte a) ∧ ((p.s.cluster v).copy = (s.cluster v).copy →
          ((s'.cluster v).copy.stream remote).head? = some q' ∧ q'.id = q.id ∧ q'.moved = q.moved + q.piece.2 ∧
          q'.elems = q.elems + q.piece.1.length ∧
          q'.finished = decide (q.src.lines.length + q.src.count ≤ q.elems + q.piece.1.length))) ∧
      (∀ g c, grant = some g → g.movePiece v q = .fault c → ∃ s', exec (.copyCommandStart v remote) s = .next s' ∧
        (∀ z ∈ (s'.cluster v).copy.all, z.id ≠ q.id) ∧ settles s s' q.who .faulted)) ∧
    (∀ c, q.finished = true → s.writesAway q.who = false → s.writeRefused q.who = some c →
      ∃ s', exec (.copyComplete v remote) s = .next s' ∧ (∀ z ∈ (s'.cluster v).copy.all, z.id ≠ q.id) ∧ settles s s' q.who .faulted) ∧
    (q.finished = true → s.writesAway q.who = false → s.writeRefused q.who = none →
      settledRel s q.rel q.relTag → ∃ s', exec (.copyComplete v remote) s = .next s' ∧
        (∀ z ∈ (s'.cluster v).copy.all, z.id ≠ q.id) ∧ settles s s' q.who .done) ∧
    (∀ n, q.finished = true → s.writesAway q.who = false → s.writeRefused q.who = none → q.rel = true → q.relTag = some n → s.registered n = false → exec (.copyComplete v remote) s = .next s)

/-- R246 to R249, R255, R256: the page words complete. `pg.req` answers DONE for a resident page and otherwise joins a pending request; `pg.probe`
answers R256's word; `pg.shoot` leaves no translation and no L1 copy of its range; `pg.mig` ends where the page is already at the device
named, or asks its home; `pg.cnt` reads a counter, which is zero afterwards. -/
def Obligations.PageWordsComplete : Prop :=
  ∀ (s : State) (t : Team) (h : Hdr) (d a b : RegNo) (lead : Nat) (gs : List Nat) (slot : Nat) (rest : List Nat),
    let va := leadVal t lead a 2
    let c := s.ctxOf t
    let who : HRef := { uid := t.uid, slot := slot, gid := t.gid }
    (commands s t (.pgReq h d a) h lead gs slot rest false → va < 2 ^ 56 →
      (s.pageOutcome c va = .resident → exec (.pgReq h d a) s =
        .next (s.putTeam ((answeredHandle t 4 slot rest d (lead :: gs) .done).pass (Instr.length (.pgReq h d a))))) ∧
      (s.pageOutcome c va = .absent → (∀ r ∈ c.pageReqs, r.va ≠ (s.requestPage c va).1) → c.pageReqs.length < 64 →
        ∃ s', exec (.pgReq h d a) s = .next s' ∧ s'.team? t.uid = some ((handed t 4 slot rest d (lead :: gs) none).pass (Instr.length (.pgReq h d a))) ∧
          (s'.ctx t.ctx).pageReqs = c.pageReqs ++ [{ va := (s.requestPage c va).1, host := (s.requestPage c va).2, waiters := [who] }])) ∧
    (Runs s t (.pgProbe h d a) → allGood t → leads t h lead gs → va < 2 ^ 56 →
      (∀ l ok, s.probeLeaf c va = some (l, ok) → l.mode ≠ 3 → exec (.pgProbe h d a) s = .next (s.putTeam
        ((t.sAll d.toNat (lead :: gs) [RWord.ofNat (probeResult s c va l ok)]).pass (Instr.length (.pgProbe h d a))))) ∧
      (s.probeLeaf c va = none → exec (.pgProbe h d a) s =
        .next (s.putTeam ((t.sAll d.toNat (lead :: gs) [RWord.ofNat 0]).pass (Instr.length (.pgProbe h d a)))))) ∧
    (commands s t (.pgShoot h d a b) h lead gs slot rest true → va % 2 ^ 19 = 0 → c.pageReqs = [] →
      let n := leadVal t lead b 1
      1 ≤ n → n ≤ 1048576 → ∃ s' m, exec (.pgShoot h d a b) s = .next s' ∧
        s'.team? t.uid = some ((answeredHandle (releasing t m) 4 slot rest d (lead :: gs) .done).pass (Instr.length (.pgShoot h d a b))) ∧
        (∀ e ∈ s'.tlb, e.asid = c.asid → e.page * pageSize e.leaf.level + pageSize e.leaf.level ≤ va ∨
          va + n * 2 ^ 19 ≤ e.page * pageSize e.leaf.level) ∧
        ∀ e ∈ s'.l1, e.1 / 2 ^ 56 % 2 ^ 12 = c.asid → e.1 % 2 ^ 56 < va ∨ va + n * 2 ^ 19 ≤ e.1 % 2 ^ 56) ∧
    (∀ l, commands s t (.pgMig h d a b) h lead gs slot rest false → va % 2 ^ 19 = 0 → s.walk c va = some l → l.mode ≠ 3 →
      let p := leadVal t lead b 1
      (p < 512 → l.peer = p → exec (.pgMig h d a b) s =
        .next (s.putTeam ((answeredHandle t 4 slot rest d (lead :: gs) .done).pass (Instr.length (.pgMig h d a b))))) ∧
      (p < 512 → l.peer ≠ p → p = s.peerId → c.migen = true → s.poolHas = true → s.pkg.partSet = true → ∃ s', exec (.pgMig h d a b) s = .next s' ∧
        s'.moves = s.moves ++ [askedMove s t.ctx va l.peer p true [who]] ∧ s'.outbox = s.outbox ++ [.mreq l.peer p c.asid va] ∧
        s'.team? t.uid = some ((handed t 4 slot rest d (lead :: gs) none).pass (Instr.length (.pgMig h d a b)))) ∧
      (p < 512 → l.peer ≠ p → p ≠ s.peerId → (l.isLocal s = true → s.canMove c va = true) → s.pkg.partSet = true → ∃ s', exec (.pgMig h d a b) s = .next s' ∧
        s'.moves = s.moves ++ [askedMove s t.ctx va l.peer p false [who]] ∧ s'.outbox = s.outbox ++ [.mreq l.peer p c.asid va] ∧
        s'.team? t.uid = some ((handed t 4 slot rest d (lead :: gs) none).pass (Instr.length (.pgMig h d a b))))) ∧
    (Runs s t (.pgCnt h d a) → allGood t → leads t h lead gs → va < 2 ^ 56 →
      let v := ((s.migCount c.asid (va / 2 ^ 19 * 2 ^ 19)).map fun m => m.count).getD 0
      ∃ s', exec (.pgCnt h d a) s = .next s' ∧
        (s'.migCount c.asid (va / 2 ^ 19 * 2 ^ 19)).map (fun m => m.count) = (s.migCount c.asid (va / 2 ^ 19 * 2 ^ 19)).map (fun _ => 0) ∧
        s'.team? t.uid = some ((t.sAll d.toNat (lead :: gs) [RWord.ofNat v]).pass (Instr.length (.pgCnt h d a))))

/-- R233, R235, R246, R252, R253: a walk's leaf enters the TLB; a pending page that has become resident ends its request, and its handle reads
DONE; the host's answers free the teams that wait for them, and its invalidations leave no translation of their range. -/
def Obligations.TranslationEventsComplete : Prop :=
  (∀ (s : State) (k va : Nat), (s.ctx k).valid = true →
    (∀ acc key l, s.translate (s.ctx k) va acc = .ok key l → SMap.find s.lines ((s.ctx k).asid * 2 ^ 56 + va / 64) = none → ∃ s', exec (.llcMissTranslate k va acc) s = .next s' ∧
      ({ ctrl := homeCtrl va, asid := (s.ctx k).asid, page := va / pageSize l.level, leaf := l } : TlbEntry) ∈ s'.tlb) ∧
    (∀ l, s.walk (s.ctx k) va = some l → (l.isLocal s = true → s.checkLocal (s.ctx k) va l = none) →
      ∃ s', exec (.pageWalkComplete k va) s = .next s' ∧
      ({ ctrl := homeCtrl va, asid := (s.ctx k).asid, page := va / pageSize l.level, leaf := l } : TlbEntry) ∈ s'.tlb)) ∧
  (∀ (s : State) (k : Nat) (r : PageReq) (who : HRef), (s.ctx k).pageReqs = [r] → r.waiters = [who] →
    (s.pageOutcome (s.ctx k) r.va = .resident → ∃ s', exec (.pendingRequestRewalk k) s = .next s' ∧ (s'.ctx k).pageReqs = [] ∧
      settles s s' who .done) ∧
    (∀ pasid, s.pasidCtxs pasid = [k] → r.host = true →
      ∃ s', exec (.priResponse pasid r.va false) s = .next s' ∧ (r.va % 4096 = 0 → (s'.ctx k).pageReqs = [] ∧ settles s s' who .faulted))) ∧
  (∀ (s : State) (pasid va : Nat) (r w : Bool), s.remoteWait = [] → s.recWaits = [] → ∃ s', exec (.atsTranslationCompletion pasid va r w) s = .next s' ∧
    SMap.find s'.ats (pasid * 2 ^ 52 + va / 4096) = some { r := r, w := w } ∧
    ∀ t, s.team? t.uid = some t → t.hold = .ats pasid (va / 4096 * 4096) → ∃ t', s'.team? t.uid = some t' ∧ t'.hold = .free) ∧
  (∀ (s : State) (pasid va n : Nat), s.codeErrs = [] → ∃ s', exec (.atsInvalidate pasid va n) s = .next s' ∧
    .invalidateDone pasid va ∈ s'.outbox ∧ ∀ e ∈ s'.ats, e.1 / 2 ^ 52 = pasid → e.1 % 2 ^ 52 * 4096 + 4096 ≤ va ∨ va + n ≤ e.1 % 2 ^ 52 * 4096)

/-- R242, R243, R245, R249, R250, R265: a request of another device for a page at home is served there and answered, one for a page elsewhere is
forwarded until it has made three hops, and one that is refused is answered with the reason; a migration request that the home can grant starts a move, its hold
makes the accesses of other devices for the page join the move's queue, and at the switch the page leaves with its ownership records and the handles
that wait read DONE; a refusal faults them. How messages name owners is the model's choice (log entry 66). -/
def Obligations.PeerEventsComplete : Prop :=
  (∀ (s : State) (req : RemoteReq) (k key : Nat) (l : Leaf), Calm s → portsOpen s → req.more = [] → s.revokes = [] → s.replies = [] →
    s.partCtx req.part = some k → s.translate (s.ctx k) req.va (remoteAcc req.op) = .ok key l →
    (∀ n, req.op = .load n → l.isLocal s = true → ∃ s', exec (.remoteRequestArrive req) s = .next s' ∧
      s'.outbox = s.outbox ++ [.reply req.peer req.va req.tag (s.bytes key n)] ∧ ∀ a, s'.byte a = s.byte a) ∧
    (∀ bs, req.op = .store bs → l.isLocal s = true → (∀ e ∈ s.owners, e.2 ≤ 512) →
      ∃ s', exec (.remoteRequestArrive req) s = .next s' ∧ s'.outbox = s.outbox ++ [.reply req.peer req.va req.tag []] ∧
      ∀ j b, bs[j]? = some b → s'.byte (key + j) = b) ∧
    (∀ n, req.op = .load n → l.mode ≠ 3 → l.isLocal s = false → ∃ s', exec (.remoteRequestArrive req) s = .next s' ∧
      (∀ a, s'.byte a = s.byte a) ∧ s'.outbox = s.outbox ++ [if req.hops < 3 then .forward l.peer { req with hops := req.hops + 1 }
        else .replyFail req.peer req.va req.tag .page])) ∧
  (∀ (s : State) (req : RemoteReq), portsOpen s → asksAccess req.op →
    (s.partCtx req.part = none → ∃ s', exec (.remoteRequestArrive req) s = .next s' ∧ (∀ a, s'.byte a = s.byte a) ∧
      s'.outbox = s.outbox ++ [.replyFail req.peer req.va req.tag .page]) ∧
    (∀ k why, s.partCtx req.part = some k → refusedFor why (s.translate (s.ctx k) req.va (remoteAcc req.op)) →
      ∃ s', exec (.remoteRequestArrive req) s = .next s' ∧ (∀ a, s'.byte a = s.byte a) ∧
        s'.outbox = s.outbox ++ [.replyFail req.peer req.va req.tag why]) ∧
    (∀ k m, s.partCtx req.part = some k → s.translate (s.ctx k) req.va (remoteAcc req.op) = .held → s.moves = [m] →
      s.outgoing k (req.va / 2 ^ 19 * 2 ^ 19) = some m →
      exec (.remoteRequestArrive req) s = .next { s with moves := [{ m with queue := m.queue ++ [req] }] })) ∧
  (∀ (s : State) (peer part va k : Nat), s.pkg.partSet = true → s.partCtx part = some k → peer ≠ s.peerId →
    let page := va / 2 ^ 19 * 2 ^ 19
    (∀ m ∈ s.moves, m.ctx = k → m.va = page → m.home = s.peerId → m.target ≠ peer) →
    (s.canMove (s.ctx k) page = true → ∃ s', exec (.mreqArrive peer part va) s = .next s' ∧
      s'.moves = s.moves ++ [askedMove s k page s.peerId peer true []]) ∧
    (s.canMove (s.ctx k) page = false → ∃ s', exec (.mreqArrive peer part va) s = .next s' ∧ s'.moves = s.moves ∧
      s'.outbox = s.outbox ++ [.migRefuse peer (s.ctx k).asid page])) ∧
  (∀ (s : State) (k va : Nat) (m : Move), Calm s → s.pkg.partSet = true → s.moves = [m] → s.outgoing k va = some m →
    (∃ s', exec (.migrationHold k va) s = .next s' ∧ s'.moves = [{ m with held := true }]) ∧
    (∀ l who, m.held = true → s.walk (s.ctx m.ctx) m.va = some l → m.waiters = [who] → m.queue = [] →
      ∃ s', exec (.migrationSwitch k va false []) s = .next s' ∧ s'.moves = [] ∧ settles s s' who .done ∧
        s'.outbox = s.outbox ++ [.migPage m.target m.asid m.va (s.bytes (l.frame * 2 ^ 19) (2 ^ 19) ++ s.ownerBytes m.asid m.va)])) ∧
  (∀ (s : State) (k va peer : Nat) (m : Move) (who : HRef), s.moves = [m] → m.ctx = k → m.va = va → m.home = peer → peer ≠ s.peerId →
    m.queue = [] → m.waiters = [who] → ∃ s', exec (.migrationRefusal k va peer) s = .next s' ∧ s'.moves = [] ∧ settles s s' who .faulted)

/-- R33, R131, R133, R151, R266, R284, R288, R295, R396: a revoke takes the word from the L1 that held it; the host's answer to a zero-length
read frees the team whose release it ends, which acquires where its fence was `sc`;
code that has been read is LANDED and pinned, for 1,024 core cycles; a fault after acceptance is recorded and pending; a drained team is
saved; a restored one starts; and a core issues the one instruction that it can. -/
def Obligations.TeamEventsComplete : Prop :=
  (∀ (s : State) (n : Nat) (r : Revoke), s.revokes[n]? = some r → ∃ s', exec (.revokeAck n) s = .next s' ∧ s'.revokes = s.revokes.eraseIdx n ∧
    (r.core < 512 → ∀ e ∈ s'.l1, e.1 < l1Key r.core r.asid r.va ∨ l1Key r.core r.asid r.va + 4 ≤ e.1)) ∧
  (∀ (s : State) (t : Team), s.team? t.uid = some t →
    (∀ a, s.remAsks = [a] → hostHome a.key = true → a.asker = .team t.uid → s.revokes = [] →
      let u := { t with fence := .none, hold := if t.hold = .link then .free else t.hold }
      ∃ s', exec (.zeroLengthReadComplete a.tag) s = .next s' ∧ s'.remAsks = [] ∧ s'.team? t.uid = some u ∧ (∀ k, s'.byte k = s.byte k) ∧
        (t.fence = .sc → acquired s.owners t s')) ∧
    (∀ n c, c < 29 → (t.slotOf n).status = .pending → ∃ s' t', exec (.asyncFault t.uid n c) s = .next s' ∧ s'.team? t.uid = some t' ∧
      (t'.slotOf n).status = .faulted ∧ t'.pendCauses = t.pendCauses ||| (1 : BitVec 64) <<< c) ∧
    (t.res = .draining → t.hold.arriving = false → t.unanswered = false → t.inGang = false → t.flight = [] → ∃ s' t', exec (.evictionDrainDone t.uid) s = .next s' ∧
      s'.team? t.uid = some t' ∧ t'.res = .evicted ∧ t'.v = t.v ∧ t'.s = t.s ∧ t'.p = t.p ∧ t'.q = t.q ∧ t'.stack = t.stack ∧
      t'.handles = t.handles) ∧
    (∀ home, t.res = .evicted → s.ctxStopped t.ctx = false → s.higherWaits t = false → s.earlierOut t = false →
      s.restoreHome t = some home → ∃ s' t', exec (.teamRestore t.uid) s = .next s' ∧ s'.team? t.uid = some t' ∧ t'.res = .starting ∧
      t'.home = home ∧ t'.v = t.v ∧ t'.s = t.s ∧ t'.p = t.p ∧ t'.q = t.q ∧ t'.stack = t.stack) ∧
    (∀ i, s.teams = [t] → s.codeErrs = [] → s.readyInstr t = some i → t.loopBuf = none → s.choosable t i = true → t.uid ∉ s.pick →
      ∃ s', exec (.issueCycle t.home) s = .next s' ∧ s'.pick = s.pick ++ [t.uid])) ∧
  (∀ (s : State) (core n : Nat), s.loads = [] → s.codeErrs = [] → (∀ b, s.blockLost b = false) →
    let sl := (s.core core).codeSlot n
    (∀ k parts w, sl.st = .loading → s.ctxOfAsid sl.asid = some k → s.vaRange (s.ctx k) .fetch sl.addr 16384 = .ok parts → sl.waiters = [w] →
      ∃ s', exec (.cfetchLand core n) s = .next s' ∧ (s'.core core).codeSlot n =
        { sl with st := .landed, landedAt := s.ccOf (clusterOf core), pinned := true, words := bytesWords (s.partsBytes parts), waiters := [] }) ∧
    (sl.pinned = true → sl.landedAt + 1024 ≤ s.ccOf (clusterOf core) → ∃ s', exec (.codeSlotPinExpiry core n) s = .next s' ∧
      (s'.core core).codeSlot n = { sl with pinned := false })) ∧
  (∀ (s h : State) (g : Grid) (t u : Team), s.grid? g.gid = some g → s.evictionPlan g = some h → s.team? t.uid = some t → t.res = .resident →
    h.team? t.uid = some u → u.res = .evicted → ∃ s', exec (.partialEviction g.gid) s = .next s' ∧
    s'.team? t.uid = some { t with res := .draining })

/-- R363, R374, R382, R383: the collective words complete. An accepted `cl.run` takes a handle and its program stands last in its channel;
`cl.cncl` and `cl.abort` end programs with CANCELLED; `cl.info` reads the group entry and `cl.prog` the program's state. -/
def Obligations.CollectiveWordsComplete : Prop :=
  ∀ (s : State) (t : Team) (h : Hdr) (d a b : RegNo) (acq rel : Bool) (lead : Nat) (gs : List Nat) (slot : Nat) (rest : List Nat),
    let x := leadVal t lead a 1
    let ch := leadVal t lead b 1
    let c := s.ctxOf t
    (∀ s1 p, let i : Instr := .clRun h d a b acq rel
      commands s t i h lead gs slot rest acq → s.codeErrs = [] → (acq = true → s.pend = [] ∧ s.remAsks = []) → noneHeld s → ch < 16 →
      s.chanDown ch = false → ((s.chan ch).progs.filter fun p => !p.started).length < 8 →
      (s.clMeets t i (leadVal t lead a 2)).clCheck t i (leadVal t lead a 2) ch rel = .ok (s1, p) →
      ∃ s' id n, exec i s = .next s' ∧
        (s'.chan ch).progs = (s.chan ch).progs ++ [{ p with id := id, who := { uid := t.uid, slot := slot, gid := t.gid } }] ∧
        (∀ k, s'.byte k = s1.byte k) ∧
        s'.team? t.uid = some ((handed (sending t acq n) 5 slot rest d (lead :: gs) none).pass i.length)) ∧
    (allGood t → leads t h lead gs →
      let answers := fun (i : Instr) (v : Nat) => exec i s = .next (s.putTeam ((t.sAll d.toNat (lead :: gs) (natWords 1 v)).pass i.length))
      (Runs s t (.clCncl h d a) →
        (s.clOf t x = none → answers (.clCncl h d a) 0) ∧
        (∀ p, s.clOf t x = some p → (t.slotOf (x % 64)).status = .pending → ∃ s' t', exec (.clCncl h d a) s = .next s' ∧
          (∀ q ∈ (s'.chan p.ch).progs, q.id ≠ p.id) ∧ s'.team? t.uid = some t' ∧ (t'.slotOf (x % 64)).status = .cancelled ∧
          t'.s = (t.sAll d.toNat (lead :: gs) (natWords 1 1)).s ∧ t'.pc = t.pc + BitVec.ofNat 16 (Instr.length (.clCncl h d a)))) ∧
      let answersFrom := fun (m : State) (v : Nat) =>
        exec (.clInfo h d a) s = .next (m.putTeam ((t.sAll d.toNat (lead :: gs) (natWords 1 v)).pass (Instr.length (.clInfo h d a))))
      (Runs s t (.clInfo h d a) → Calm s → (∀ b, s.blockLost b = false) → (2 ^ 20 ≤ x → answers (.clInfo h d a) (2 ^ 32 - 1)) ∧
        (∀ f, s.vaRange c .read (c.groupVa (x / 8 % 256)) 32 = .fault f → answers (.clInfo h d a) (2 ^ 32 - 1)) ∧
        ∀ e, reads s t 32 (c.groupVa (x / 8 % 256)) e → x < 2 ^ 20 →
        let m := s.useRange c (c.groupVa (x / 8 % 256)) 32
        (e.testBit 63 = false → answersFrom m (2 ^ 32 - 1)) ∧
        (e.testBit 63 = true →
          (x % 8 = 0 → answersFrom m (e / 2 ^ 44 % 2 ^ 9)) ∧ (x % 8 = 1 → answersFrom m (e / 2 ^ 53 % 2 ^ 10)) ∧
          (x % 8 = 2 → answersFrom m (e / 2 ^ 128 % 2 ^ 32)) ∧ (x % 8 = 4 → answersFrom m (e % 2 ^ 32)) ∧
          (x % 8 = 3 → e / 2 ^ 53 % 2 ^ 10 ≤ x / 2 ^ 11 → answersFrom m (2 ^ 32 - 1)) ∧
          (∀ y, let va := e / 2 ^ 65 % 2 ^ 55 * 2 + x / 2 ^ 11 * 2
            x % 8 = 3 → x / 2 ^ 11 < e / 2 ^ 53 % 2 ^ 10 → reads m t 2 va y → answersFrom (m.useRange c va 2) (y % 2 ^ 9)) ∧
          (5 ≤ x % 8 → answersFrom m 0))) ∧
      (Runs s t (.clProg h d a) →
        (t.clHandle x = false → answers (.clProg h d a) (3 * 2 ^ 30)) ∧
        (t.clHandle x = true → (t.slotOf (x % 64)).eng = 5 →
          (∀ p, s.clOf t x = some p → answers (.clProg h d a) (if p.started then 2 ^ 30 + p.next else 0)) ∧
          (s.clOf t x = none → answers (.clProg h d a) (2 * 2 ^ 30)))) ∧
      (Runs s t (.clAbort h d a) →
        (256 ≤ x → answers (.clAbort h d a) 0) ∧
        (x < 256 →
          let ps := s.progs.filter fun p => p.ctx == t.ctx && p.grp == x
          ∃ s' t', exec (.clAbort h d a) s = .next s' ∧ (∀ p ∈ ps, (∀ q ∈ (s'.chan p.ch).progs, q.id ≠ p.id) ∧ settles s s' p.who .cancelled) ∧
            s'.team? t.uid = some t' ∧ t'.s = (t.sAll d.toNat (lead :: gs) (natWords 1 ps.length)).s ∧
            t'.pc = t.pc + BitVec.ofNat 16 (Instr.length (.clAbort h d a)))))

/-- R369, R372 to R374, R378, R379: the head of a channel starts with its words; `wait`, `loop`, `next`, `send`, `recv` and `end` start as their
rows say; a signal is counted, a disagreement and an abort fault the program; a step in flight moves its pieces and completes; a late step
and a lost peer fault the programs that wait for them. -/
def Obligations.CollectiveEventsComplete : Prop :=
  ∀ (s : State) (ch : Nat) (p : ClProg) (ps : List ClProg), heads s ch p ps → s.codeErrs = [] →
    (∀ x, p.started = false → (s.island (120 + ch / 2)).st = .run → s.chanDown ch = false → noneHeld s →
      (s.meetRange p.finder (s.ctx p.ctx) p.steps (8 * p.nsteps)).look (s.ctx p.ctx) p.steps (8 * p.nsteps) = .ok x → ∃ s', exec (.clProgramStart ch) s = .next s' ∧
      leadsChannel s' ch { p with started := true, words := natDwords p.nsteps x } ps) ∧
    (p.started = true →
      (∀ k n, p.waiting = some (k, n) → n ≤ (p.sigs[k]?).getD 0 → ∃ s', exec (.clStepStart ch) s = .next s' ∧
        leadsChannel s' ch { p with sigs := setAt p.sigs k ((p.sigs[k]?).getD 0 - n), waiting := none } ps) ∧
      (∀ w, p.waiting = none → p.words[p.next]? = some w →
        (w = 0 → p.active = [] → s.writesAway p.who = false → s.writeRefused p.who = none → settledRel s p.rel p.relTag → ∃ s', exec (.clStepStart ch) s = .next s' ∧ (s'.chan ch).progs = ps ∧ settles s s' p.who .done) ∧
        (∀ n j, w.toNat = loopWord 10 n j → 1 ≤ n → n < 2 ^ 15 → j < 4 → ∃ s', exec (.clStepStart ch) s = .next s' ∧
          leadsChannel s' ch { p with loops := setAt p.loops j 0, counts := setAt p.counts j n, next := p.next + 1 } ps) ∧
        (∀ x j, w.toNat = loopWord 11 x j → x < 2 ^ 16 → x < p.next → j < 4 → ∃ s', exec (.clStepStart ch) s = .next s' ∧
          leadsChannel s' ch { p with loops := setAt p.loops j ((p.loops[j]?).getD 0 + 1),
                                      next := if (p.loops[j]?).getD 0 + 1 < (p.counts[j]?).getD 0 then x else p.next + 1 } ps) ∧
        (∀ o e m, p.decode w.toNat = some o → stepFree p o → p.peer s o.x1 = some e → s.keyedPart p.ctx = some m → s.pkg.partSet = true →
          (o.kind = 1 → ∃ s' p' st, exec (.clStepStart ch) s = .next s' ∧ leadsChannel s' ch p' ps ∧ p'.next = p.next + 1 ∧
            p'.active = p.active ++ [st] ∧ st.kind = 1 ∧ st.out = some (o.x1, o.x2) ∧
            s'.outbox = s.outbox ++ [.coll e (messageOf s p m .offer o.x2 (SMap.get 0 p.sendSeq o.x1) [])]) ∧
          (o.kind = 2 → ∃ s' p' st, exec (.clStepStart ch) s = .next s' ∧ leadsChannel s' ch p' ps ∧ p'.next = p.next + 1 ∧
            p'.active = p.active ++ [st] ∧ st.kind = 2 ∧ st.inn = some (o.x1, o.x2) ∧
            s'.outbox = s.outbox ++ [.coll e (messageOf s p m .grant o.x2 (SMap.get 0 p.recvSeq o.x1) [])]))) ∧
      (∀ msg, msg.ch = ch → finds s msg p →
        (msg.kind = .signal → msg.hash = p.hash → ∃ s', exec (.clMessageArrive msg) s = .next s' ∧
          leadsChannel s' ch { p with sigs := setAt p.sigs (msg.k % 8) ((p.sigs[msg.k % 8]?).getD 0 + 1) } ps) ∧
        (msg.kind = .signal → msg.hash ≠ p.hash → s.pkg.partSet = true → ∃ s' l, exec (.clMessageArrive msg) s = .next s' ∧ (s'.chan ch).progs = ps ∧
          settles s s' p.who .faulted ∧
          s'.outbox = s.outbox ++ [.coll msg.peer { msg with
            peer := s.peerId, rank := p.rank, hash := p.hash, kind := .refuseMismatch, chunk := 0, k := 0, data := [] }] ++ l) ∧
        (∃ s', exec (.clAbortArrive msg) s = .next s' ∧ (s'.chan ch).progs = ps ∧ settles s s' p.who .faulted)) ∧
      (∀ idx a, p.active[idx]? = some a → a.nextAt ≤ s.time →
        (∀ dest c g bs m e, a.kind = 1 → a.inn = none → a.out = some (dest, c) → a.payload = some bs →
          p.grants.find? (fun g => g.rank == dest && g.k == a.seqOut) = some g → g.chunk = c → p.bytes ≤ a.outMoved →
          p.peer s dest = some e → s.keyedPart p.ctx = some m → s.pkg.partSet = true →
          ∃ s', exec (.clStepComplete ch idx) s = .next s' ∧ leadsChannel s' ch { p with active := p.active.eraseIdx idx } ps ∧
            s'.outbox = s.outbox ++ [.coll e (messageOf s p m .data c a.seqOut bs)]) ∧
        (∀ frm c bs sh g x y, a.kind = 2 → a.inn = some (frm, c) → a.out = none → a.arrived = some bs → p.bytes ≤ a.inMoved →
          a.redAt ≤ s.time → a.writes = some (a.sb, c) → p.slot a.sb = some sh →
          p.writeChunk (s.ctx p.ctx) p.finder sh c ((List.range p.chunk).zip (unpackChunk p.ty.width p.chunk bs)) (p.linesIn bs) s = .ok g x y →
          (g.chan ch).progs = p :: ps →
          ∃ s', exec (.clStepComplete ch idx) s = .next s' ∧ leadsChannel s' ch { p with active := p.active.eraseIdx idx } ps ∧
            ∀ k, s'.byte k = g.byte k) ∧
        (∀ x, a.since = some x → x + s.clTmo ≤ s.time → ∃ s', exec (.clStepTimeout ch idx) s = .next s' ∧ (s'.chan ch).progs = ps ∧
          settles s s' p.who .faulted)) ∧
      (∀ peer, s.progs = [p] → p.names peer = true → ∃ s', exec (.fabricPeerLost peer) s = .next s' ∧ peer ∈ s'.pkg.lost ∧
        (s'.chan ch).progs = ps ∧ settles s s' p.who .faulted))

/-- R224 to R226: the dispatch words complete. `dp.launch` writes the packet that it read to the queue's slot and moves the tail on; `dp.tadd`
pushes it; `dp.tdrop`, `dp.tdepth` and `dp.qstat` answer the depth and the queue's room; `dp.lsovf` sets PEND; `dp.lsstep` closes the step. -/
def Obligations.DispatchWordsComplete : Prop :=
  ∀ (s : State) (t : Team) (h : Hdr) (d a b : RegNo) (lead : Nat) (gs : List Nat),
    let c := s.ctxOf t
    let va := leadVal t lead a 2
    let q := leadVal t lead b 1
    let x := c.queue q
    let answers := fun (i : Instr) (v : Nat) => exec i s = .next (s.putTeam (wrote1 t i d (lead :: gs) v))
    let m := s.useRange c va 128
    (∀ p ps qs, teamWord s t (.dpLaunch h d a b) h lead gs → Settled s → releasesNow s t → q < 64 → x.valid = true → x.dl = true →
      va % 128 = 0 → reads s t 128 va p → x.tail - x.head < x.slots → m.vaRange c .write (x.slotVa x.tail) 128 = .ok ps →
      let g := m.engineStore c (x.slotVa x.tail) ps (natLe 128 p)
      g.vaRange c .write (x.word 2) 8 = .ok qs →
      ∃ s' n z u, exec (.dpLaunch h d a b) s = .next s' ∧
        s'.team? t.uid = some (wrote1 (releasing t n) (.dpLaunch h d a b) d (lead :: gs) (x.tail % 2 ^ 32)) ∧
        keeps s' t.ctx q { x with tail := x.tail + 1, parents := SMap.put x.parents x.tail t.gid, rewritten := z, told := u } ∧
        ∀ k, s'.byte k = (g.engineStore c (x.word 2) qs (natLe 8 (x.tail + 1))).byte k) ∧
    (teamWord s t (.dpQstat h d b) h lead gs →
      (64 ≤ q ∨ x.valid = false → answers (.dpQstat h d b) 0) ∧
      (q < 64 → x.valid = true → answers (.dpQstat h d b) (2 ^ 31 + (x.slots - (x.tail - x.head))))) ∧
    (∀ p ps, teamWord s t (.dpTadd h d a) h lead gs → Settled s → releasesNow s t → va % 128 = 0 → reads s t 128 va p → c.tape = none →
      c.tdepth.toNat < 4096 → m.vaRange c .write (c.recordVa c.tdepth.toNat) 128 = .ok ps →
      ∃ s' n, exec (.dpTadd h d a) s = .next s' ∧
        s'.team? t.uid = some (wrote1 (releasing t n) (.dpTadd h d a) d (lead :: gs) (c.tdepth.toNat + 1)) ∧
        (s'.ctx t.ctx).tdepth = c.tdepth + 1 ∧
        ∀ k, s'.byte k = (m.engineStore c (c.recordVa c.tdepth.toNat) ps (natLe 128 p)).byte k) ∧
    (teamWord s t (.dpTdrop h d a) h lead gs → c.tape = none →
      let n := min (leadVal t lead a 1) c.tdepth.toNat
      ∃ s', exec (.dpTdrop h d a) s = .next s' ∧ s'.team? t.uid = some (wrote1 t (.dpTdrop h d a) d (lead :: gs) n) ∧
        (s'.ctx t.ctx).tdepth.toNat = c.tdepth.toNat - n) ∧
    (teamWord s t (.dpTdepth h d) h lead gs → answers (.dpTdepth h d) c.tdepth.toNat) ∧
    (teamWord s t (.dpLsovf h) h lead gs → ∃ s', exec (.dpLsovf h) s = .next s' ∧ s'.team? t.uid = some (t.pass (Instr.length (.dpLsovf h))) ∧
      (s'.ctx t.ctx).lskip = c.lskip ||| 0x4000_0000 ∧ (s'.ctx t.ctx).lscale = c.lscale) ∧
    (teamWord s t (.dpLsstep h) h lead gs →
      (c.lskip.getLsbD 30 = true → (c.lscfg.extractLsb' 8 8).toInt < ((c.lscale.toNat / 2 ^ 23 % 2 ^ 8 : Nat) : Int) - 127) →
      ∃ s', exec (.dpLsstep h) s = .next s' ∧ s'.team? t.uid = some (t.pass (Instr.length (.dpLsstep h))) ∧ stepClosed c (s'.ctx t.ctx))

/-- R209 to R213, R220: a rewritten entry is read, and a store to the tail word is told to the engine; either way a tail that R210 forbids, or that
cannot be read, stops the queue with a record; a consumed packet joins its queue's packets or is rejected with a record; a packet that may start
becomes a grid. -/
def Obligations.QueueEventsComplete : Prop :=
  ∀ (s : State) (slot q : Nat), s.codeErrs = [] → s.poison = [] →
    let c := s.ctx slot
    (c.valid = true → q < 64 → ∀ e, s.readEntry slot q = some e →
      let x : Queue := { c.queue q with entry := e, stopped := false, rewritten := false }
      let y : Queue := { c.queue q with entry := e }
      (x.valid = false ∨ (c.queue q).valid = true ∧ x.dl = true → ∃ s', exec (.queueTableEntryWrite slot q) s = .next s' ∧ keeps s' slot q x) ∧
      ((c.queue q).valid = true → x.valid = true → x.dl = false → tailRead s (.queueTableEntryWrite slot q) slot q x) ∧
      ((c.queue q).valid = true → (c.queue q).stopped = false → (c.queue q).dl = false → y.valid = true → y.dl = false →
        tailRead s (.queueTailStore slot q) slot q y)) ∧
    (let x := c.queue q
      let g := s.engineAcquire x.acqTag
      let m := engineReads g slot (x.slotVa x.head) 128
      ∀ bs ps, c.valid = true → s.ctxStopped slot = false → x.stopped = false → x.valid = true → x.head < x.tail →
        noAts g c .read (x.slotVa x.head) 128 → m.vaRead c (x.slotVa x.head) 128 = some bs →
        let p := leNat bs
        let n := imageRead m slot p
        noAts m c .read (field p 8 8) 192 →
        noAts n c .write (field p 48 8) (doneLen (field p 48 8)) → n.vaRange c .write (x.word 3) 8 = .ok ps →
        let z := n.engineStore c (x.word 3) ps (natLe 8 (x.head + 1))
        let why := packetReason p (if packetKind p = 0 then z.readImage (z.ctx slot) p else none) x.privOk
        (why = 0 → ∃ s' pk, exec (.launchPacketConsume slot q) s = .next s' ∧ (s'.ctx slot).packets = c.packets ++ [pk] ∧ pk.q = q ∧
          pk.pos = x.head ∧ pk.words = natDwords 16 p ∧ pk.st = .waiting ∧ ((s'.ctx slot).queue q).head = x.head + 1 ∧
          ∀ k, s'.byte k = z.byte k) ∧
        (why ≠ 0 → ∃ s', exec (.launchPacketConsume slot q) s = .next s' ∧ (s'.ctx slot).packets = c.packets ∧
          ((s'.ctx slot).queue q).head = x.head + 1 ∧ ((s'.ctx slot).flogpos = c.flogpos + 1 ∨ (s'.ctx slot).flogpos = c.flogpos + 2))) ∧
    (∀ pk g, s.startable slot q = some pk → pk.ready = some g → s.retDone slot (dwordsNat pk.words) = true →
      ∃ s', exec (.packetStart slot q) s = .next s' ∧ gridAdded s s' g s.nextId pk.seq false ∧
        ∀ y ∈ (s'.ctx slot).packets, y.seq = pk.seq → y.st = .grid s.nextId)

/-- R214 to R218: the next pack of one team goes to the first cluster of its grid's order where a home is found, past those that have none, for a
grid that starts as its packs are placed and for a WHOLE grid whose last pack it is: the team starts there, and the grid's place and cursor
move on. -/
def Obligations.PlacementComplete : Prop :=
  ∀ (s s0 : State) (g g0 : Grid) (n v : Nat) (us vs : List Nat) (home : Nat), s.grid? g.gid = some g → g.pack = 1 → g.next < g.order.length →
    s.ctxStopped g.ctx = false → (∀ u ∈ s.teams, u.uid < s.nextId) → g.order[g.next]? = some n → g.clusters = us ++ v :: vs →
    (∀ u ∈ us, noHome s g n u) →
    s.ensureRegion g v = some s0 → s0.grid? g.gid = some g0 →
    s0.newId.2.findHome (g0.newTeam (s0.ctx g0.ctx).asid s.nextId n) v (s0.barOk g0) = some home →
    ∀ i, (i = Instr.packPlace g.gid ∧ g.whole = false ∨ i = Instr.wholeGridPlace g.gid ∧ g.whole = true ∧ g.next + 1 = g.order.length) →
      ∃ s' t g', exec i s = .next s' ∧ s'.team? s.nextId = some t ∧ t.lin = n ∧ t.gid = g.gid ∧ t.home = home ∧ t.res = .starting ∧
        t.lanes = g.lanes ∧ t.group = g.group ∧ t.pc = g.entryPc ∧ s'.grid? g.gid = some g' ∧ g'.next = g.next + 1 ∧
        g'.cursor = (v + 1) % 96 ∧ (g.barCore = none → g'.barCore = some home)

/-- R215, R222, R224: a grid whose teams and engine work have ended, and whose release is complete, leaves, and its completion word is stored; a
tape run starts, pops its records one by one, and ends at its mark; a record popped waits for its RETWAIT tags; a STEP_END packet closes the
step. -/
def Obligations.TapeAndEndEventsComplete : Prop :=
  (∀ (s : State) (g : Grid) (pk : Packet), s.grid? g.gid = some g → g.next = g.order.length → (∀ t ∈ s.teams, t.gid ≠ g.gid) →
    s.gridBusy g.gid = false → s.endsInOrder g = true → noAts s (s.ctx g.ctx) .write g.doneAddr.toNat (doneLen g.doneAddr.toNat) →
    g.fromTape = false → gridReleases s g →
    let z := s.closeGrid g
    (z.ctx g.ctx).packets.find? (fun x => x.seq == g.seq) = some pk →
    let p := dwordsNat pk.words
    ∃ s', exec (.gridEnd g.gid) s = .next s' ∧ s'.grid? g.gid = none ∧ gone s' g.ctx g.seq ∧
      (field p 48 8 = 0 → ∀ k, s'.byte k = z.byte k) ∧
      ∀ ps, field p 48 8 ≠ 0 → z.vaRange (z.ctx g.ctx) .write (field p 48 8) 8 = .ok ps →
        ∀ k, s'.byte k = (z.engineStore (z.ctx g.ctx) (field p 48 8) ps (natLe 8 (field p 56 8))).byte k) ∧
  (∀ (s : State) (slot q : Nat) (pk : Packet), s.startable slot q = some pk →
    let c := s.ctx slot
    let p := dwordsNat pk.words
    noAts s c .write (field p 48 8) (doneLen (field p 48 8)) →
    (packetKind p = 1 → c.tape = none →
      (c.tdepth.toNat ≤ field p 4 2 → ∃ s', exec (.tapeRunStart slot q) s = .next s' ∧ gone s' slot pk.seq ∧ (s'.ctx slot).tape = none) ∧
      (field p 4 2 < c.tdepth.toNat → ∃ s', exec (.tapeRunStart slot q) s = .next s' ∧
        (s'.ctx slot).tape = some { q := q, pos := pk.pos, mark := field p 4 2, popped := none, running := none })) ∧
    (packetKind p = 2 → ∃ s', exec (.stepEndClose slot q) s = .next s' ∧ gone s' slot pk.seq ∧ stepClosed c (s'.ctx slot))) ∧
  (∀ (s : State) (slot : Nat) (run : TapeRun),
    let c := s.ctx slot
    c.tape = some run → run.running = none → s.ctxStopped slot = false →
    (∀ p g, run.popped = some (p, g) →
      (s.retDone slot p = true → ∃ s', exec (.tapePop slot) s = .next s' ∧ gridAdded s s' g (s.nextId + 1) s.nextId true ∧
        (s'.ctx slot).tape = some { run with popped := none, running := some (s.nextId + 1) }) ∧
      (s.retDone slot p = false → ∃ s', exec (.tapePop slot) s = .next s' ∧ s'.grids = s.grids ∧ (s'.ctx slot).tape = some run)) ∧
    (∀ pk, run.popped = none → c.tdepth.toNat ≤ run.mark → c.runPacket = some pk →
      let p := dwordsNat pk.words
      noAts s c .write (field p 48 8) (doneLen (field p 48 8)) → ∃ s', exec (.tapePop slot) s = .next s' ∧ (s'.ctx slot).tape = none ∧
        gone s' slot pk.seq) ∧
    (∀ bs, run.popped = none → c.valid = true → s.codeErrs = [] → run.mark < c.tdepth.toNat →
      let m := engineReads s slot (c.recordVa (c.tdepth.toNat - 1)) 128
      noAts s c .read (c.recordVa (c.tdepth.toNat - 1)) 128 → m.vaRead c (c.recordVa (c.tdepth.toNat - 1)) 128 = some bs →
      let p := leNat bs
      let n := imageRead m slot p
      noAts m c .read (field p 8 8) 192 → noAts n c .write (field p 48 8) (doneLen (field p 48 8)) →
      let z := n.modCtx slot fun c => { c with tdepth := c.tdepth - 1 }
      let retired := ∃ s', exec (.tapePop slot) s = .next s' ∧ s'.grids = s.grids ∧ (s'.ctx slot).tdepth = c.tdepth - 1 ∧
        (s'.ctx slot).tape = some run
      (packetKind p = 0 → p.testBit 19 = true → c.lskip.getLsbD 30 = true → retired) ∧
      (packetKind p ≠ 0 → retired) ∧
      (∀ im, packetKind p = 0 → (p.testBit 19 = false ∨ c.lskip.getLsbD 30 = false) → z.readImage (z.ctx slot) p = some im →
        packetReason p (some im) (c.queue run.q).privOk = 0 →
        let g := packetGrid slot run.q run.pos (c.queue run.q).pri p im
        (s.retDone slot p = true → ∃ s', exec (.tapePop slot) s = .next s' ∧ gridAdded s s' g (s.nextId + 1) s.nextId true ∧
          (s'.ctx slot).tdepth = c.tdepth - 1 ∧ (s'.ctx slot).tape = some { run with running := some (s.nextId + 1) }) ∧
        (s.retDone slot p = false → ∃ s', exec (.tapePop slot) s = .next s' ∧ s'.grids = s.grids ∧
          (s'.ctx slot).tdepth = c.tdepth - 1 ∧ (s'.ctx slot).tape = some { run with popped := some (p, g) }))))

/-- R388, R392, R402, R429: the metering words complete. `tk.price` and `tk.dbal` read the table and the buckets in each group; `tk.wait` goes on
when the tokens are there, and holds the team until then; `tk.intent` enters an intent, and `tk.icncl` frees one. -/
def Obligations.MeteringWordsComplete : Prop :=
  ∀ (s : State) (t : Team) (h : Hdr) (d a b : RegNo) (lead : Nat) (gs : List Nat),
    let x := leadVal t lead a 1
    let y := leadVal t lead b 1
    (Runs s t (.tkPrice h d a) → t.groupsGood h [(a, 1)] →
      exec (.tkPrice h d a) s = .next ((onA h d a fun _ v => s.price (v / 16 % 64) (v % 16)).after s t (.tkPrice h d a))) ∧
    (Runs s t (.tkDbal h d a) → t.groupsGood h [(a, 1)] →
      exec (.tkDbal h d a) s = .next ((onA h d a fun u v =>
        if v % 4 = 0 then s.dieBal (dieOf u.home) else if v % 4 = 1 then s.dieBal (1 - dieOf u.home)
        else if v % 4 = 2 then s.pkg.pbal else (s.core u.home).bal).after s t (.tkDbal h d a))) ∧
    (teamWord s t (.tkWait h a) h lead gs →
      let m := min x (s.core t.home).cap
      (t.debtHome = 0 → m ≤ (s.core t.home).bal → comesTo (.tkWait h a) s (t.pass (Instr.length (.tkWait h a)))) ∧
      (0 < t.debtHome ∨ (s.core t.home).bal < m →
        comesTo (.tkWait h a) s { t with hold := .tokens m, heldLen := Instr.length (.tkWait h a) })) ∧
    (teamWord s t (.tkIntent h d a b) h lead gs → 0 < x → x < 2 ^ 16 → 0 < y → y < 2 ^ 16 →
      ((∀ n < 16, SMap.find s.gov.intents n ≠ none) →
        exec (.tkIntent h d a b) s = .next (s.putTeam (wrote1 t (.tkIntent h d a b) d (lead :: gs) 0))) ∧
      (∀ n, firstFree s n → ∃ s' e, exec (.tkIntent h d a b) s = .next s' ∧ SMap.find s'.gov.intents n = some e ∧ isIntentOf s t x y e ∧
        s'.gov.gen = e.gen ∧ s'.team? t.uid = some (wrote1 t (.tkIntent h d a b) d (lead :: gs) (e.gen * 16 + n)) ∧
        (s.pkg.partSet = false → s'.outbox = s.outbox) ∧
        ∀ m, s.pkg.partSet = true → s.keyedPart t.ctx = some m → s'.outbox = s.outbox ++ [.intent n e.gen x y m])) ∧
    (teamWord s t (.tkIcncl h d a) h lead gs →
      (∀ e, SMap.find s.gov.intents (x % 16) = some e → e.gen = x % 2 ^ 16 / 16 → e.ctx = t.ctx → ∃ s', exec (.tkIcncl h d a) s = .next s' ∧
        SMap.find s'.gov.intents (x % 16) = none ∧ s'.team? t.uid = some (wrote1 t (.tkIcncl h d a) d (lead :: gs) 1)) ∧
      ((∀ e, SMap.find s.gov.intents (x % 16) = some e → e.gen ≠ x % 2 ^ 16 / 16 ∨ e.ctx ≠ t.ctx) →
        exec (.tkIcncl h d a) s = .next (s.putTeam (wrote1 t (.tkIcncl h d a) d (lead :: gs) 0))))

/-- R388, R391, R393, R394, R397: a core's refill goes to its debts in order and then to its bucket, a die's comes from the package's income,
and its cores are served from a pointer that moves on; a team held for RTO cycles takes the reservation or joins its queue; the owner's writes
of prices and of `TKCORE` are performed, any other is dropped. That the income of a cycle is the level of its step, and where each die's pointer
starts, are the model's reading (log entry 18). -/
def Obligations.MeteringEventsComplete : Prop :=
  (∀ (s : State) (core : Nat),
    let c := s.core core
    let die := dieOf core
    let k := fun (owed : Nat) =>
      min (min ((c.frac + c.rate) / 16) (owed + (c.cap - c.bal))) (min (s.dieBal die) (s.gov.level - s.gov.loadNow))
    c.bal ≤ c.cap →
    (s.debtors core = [] → ∃ s', exec (.coreRefill core) s = .next s' ∧ (s'.core core).bal = c.bal + k 0 ∧
      (s'.core core).frac = (c.frac + c.rate) % 16 ∧ s'.dieBal die = s.dieBal die - k 0 ∧ s'.gov.loadNow = s.gov.loadNow + k 0) ∧
    (∀ t, s.debtors core = [t] → s.team? t.uid = some t → t.debtOn core < 65536 → ∃ s' t', exec (.coreRefill core) s = .next s' ∧
      s'.team? t.uid = some t' ∧ t'.debtOn core = t.debtOn core - k (t.debtOn core) ∧
      (s'.core core).bal = min c.cap (c.bal + (k (t.debtOn core) - t.debtOn core)))) ∧
  (∀ s : State,
    let p := min s.pkg.pcap (s.pkg.pbal + s.gov.level)
    ∃ s', exec .dieRefill s = .next s' ∧
      (s.time % 2 = 0 → s'.pkg.dbal0 = s.pkg.dbal0 + min p (s.pkg.dcap0 - s.pkg.dbal0) ∧
        s'.pkg.dbal1 = s.pkg.dbal1 + min (p - min p (s.pkg.dcap0 - s.pkg.dbal0)) (s.pkg.dcap1 - s.pkg.dbal1)) ∧
      (s.time % 2 = 1 → s'.pkg.dbal1 = s.pkg.dbal1 + min p (s.pkg.dcap1 - s.pkg.dbal1) ∧
        s'.pkg.dbal0 = s.pkg.dbal0 + min (p - min p (s.pkg.dcap1 - s.pkg.dbal1)) (s.pkg.dcap0 - s.pkg.dbal0)) ∧
      s'.pkg.pbal + s'.pkg.dbal0 + s'.pkg.dbal1 = p + s.pkg.dbal0 + s.pkg.dbal1 ∧
      s'.pkg.diePtr0 = (s.pkg.diePtr0 + 1) % 192 ∧ s'.pkg.diePtr1 = (s.pkg.diePtr1 + 1) % 192) ∧
  (∀ (s : State) (core : Nat) (t : Team), s.team? t.uid = some t → core ∈ t.cores → t.res ≠ .evicted →
    max 1 ((s.core core).tkcore.toNat / 2 ^ 40 % 2 ^ 12) ≤ t.heldOn core → (s.core core).resv ≠ some t.uid → t.uid ∉ (s.core core).resvQ →
    ((s.core core).resv = none → ∃ s', exec (.reservationTake core t.uid) s = .next s' ∧ (s'.core core).resv = some t.uid) ∧
    (∀ u, (s.core core).resv = some u → ∃ s', exec (.reservationTake core t.uid) s = .next s' ∧ (s'.core core).resv = some u ∧
      (s'.core core).resvQ = (s.core core).resvQ ++ [t.uid])) ∧
  (∀ (s : State) (master : Nat) (v : DWord),
    (∀ cls f, (ownedBy s master → cls < 64 → f < 16 → ∃ s', exec (.priceTableWrite master cls f v) s = .next s' ∧
      s'.price cls f = (if reservedClass cls then 0 else v.toNat % 65536) ∧
      ∀ x y, x < 64 → y < 16 → (x ≠ cls ∨ y ≠ f) → s'.price x y = s.price x y) ∧
      (¬ ownedBy s master → ∃ s', exec (.priceTableWrite master cls f v) s = .next s' ∧ dropped s s' ∧ s'.prices = s.prices)) ∧
    ∀ core, core < 384 → ownedBy s master → ∃ s', exec (.tkcoreWrite master core v) s = .next s' ∧
      (s'.core core).tkcore = v &&& 0x000F_FFFF_CFFF_FFFF ∧ (s'.core core).bal = min (s.core core).bal (v.toNat / 2 ^ 16 % 2 ^ 12))

/-- R407, R408, R414, R422, R426, R427, R429 to R431, R434: at a step boundary the level is R407's, and the step goes by the configuration then
written; a unit that ends leaves the load; intents are received, withdrawn and expire; an island without work idles, is retained after 65,536
cycles, and wakes where it is wanted. -/
def Obligations.GovernorEventsComplete : Prop :=
  (∀ s : State, s.time % 4 = 0 →
    let z := s.openCycle.applyRamp.lowerClocks.sampleBanks.addShort
    let g := z.gov
    let F := z.intentFloor z.upDn.1
    let target := max (max z.want F) (z.pkg.ramplim.toNat % 2 ^ 20)
    let up := if z.riseHeld z.upDn.1 = true ∨ (g.offset (z.pkg.rampcfg.toNat / 2 ^ 32 % 2 ^ 8) target F).1 = true then 0 else z.upDn.1
    ∃ s', exec .rampStep s = .next s' ∧ s'.gov.level = max g.loadNow (min (max target (g.level - z.upDn.2)) (g.level + up)) ∧
      s'.gov.dieCap = [pair2 g.dieSum 0 / 4 + z.dstepd, pair2 g.dieSum 1 / 4 + z.dstepd] ∧ s'.gov.cfg = z.pkg.rampcfg ∧ s'.gov.up = z.upDn.1 ∧
      s'.pkg.rampWrites = [] ∧
      (∀ v, s.pkg.rampWrites = [(0x260, v)] → s'.pkg.rampcfg = v) ∧
      (∀ b v, b < 16 → s.pkg.rampWrites = [(0x270 + b, v)] → (SMap.get 0xFFFFFFFF s'.pkg.ramptab b).toNat = v.toNat % 2 ^ 32) ∧
      (∀ v, s.pkg.rampWrites = [(0x262, v)] → s'.pkg.ramplim.toNat % 2 ^ 20 = v.toNat % 2 ^ 20) ∧
      ∀ i mhz, i < 128 → 0 < mhz → mhz ≤ 2200 → s.openCycle.gov.points = [(i, mhz)] → mhz ≤ s.openCycle.applyRamp.clusterMhz i →
        s'.clusterMhz i = mhz ∧ s'.gov.points = []) ∧
  (∀ s : State, s.gov.openAt ≠ s.time → s.clusters = [] → s.chans = [] → (∀ u ∈ s.gov.units, u.kind = .engine) →
    ∃ s', exec .governorCycle s = .next s' ∧ s'.gov.units = s.gov.units.filter (fun u => decide (s.time < u.endsAt)) ∧
      s'.gov.loadNow = (s'.gov.units.map fun u => u.rate).sum ∧ s'.gov.openAt = s.time) ∧
  (∀ (s : State) (peer idx gen dr lead part : Nat) (auth : Bool),
    (auth = true → (s.partCtx part).isSome = true →
      (∃ s', exec (.intentReceive peer idx gen dr lead part auth) s = .next s' ∧
        s'.gov.rx = s.gov.rx ++ [{ peer := peer, idx := idx, gen := gen, dr := dr, lead := lead, part := part, at_ := s.time }]) ∧
      ∃ s', exec (.intentCancelReceive peer idx gen part auth) s = .next s' ∧
        ∀ r, r ∈ s'.gov.rx ↔ r ∈ s.gov.rx ∧ ¬ (r.peer = peer ∧ r.idx = idx ∧ r.gen = gen ∧ r.part = part)) ∧
    (auth = false ∨ s.partCtx part = none →
      (∃ s', exec (.intentReceive peer idx gen dr lead part auth) s = .next s' ∧ s'.gov.rx = s.gov.rx ∧
        s'.pkg.discarded = s.pkg.discarded + 1) ∧
      ∃ s', exec (.intentCancelReceive peer idx gen part auth) s = .next s' ∧ s'.gov.rx = s.gov.rx ∧
        s'.pkg.discarded = s.pkg.discarded + 1)) ∧
  (∀ (s : State) (idx : Nat) (e : Intent), SMap.find s.gov.intents idx = some e →
    (e.due + 4 * (s.gov.cfg.toNat % 2 ^ 8)) / 4 ≤ s.time / 4 → ∃ s', exec (.intentExpire idx) s = .next s' ∧
      SMap.find s'.gov.intents idx = none) ∧
  (∀ (s : State) (i : Nat),
    ((s.island i).st = .run → (i < 96 → s.clusterBusy i = false ∧ s.hasTadpole i = false) → (96 ≤ i → (i, Island.idle) ∈ s.gov.directs) →
      ∃ s', exec (.islandIdle i) s = .next s' ∧ islandIs s' i Island.idle s.time) ∧
    ((i < 96 → (s.island i).st = .idle ∧ (s.island i).since + 65536 ≤ s.time) →
      (96 ≤ i → ((s.island i).st = .idle ∨ (s.island i).st = .run) ∧ (i, Island.ret) ∈ s.gov.directs) →
      s.gov.retStep ≠ some (s.time / 4) → s.ballastNow.left = 0 →
      ∃ s', exec (.islandRetention i) s = .next s' ∧ islandIs s' i Island.ret s.time ∧ s'.gov.retStep = some (s.time / 4)) ∧
    (s.gov.openAt = s.time → s.islandWanted i = true →
      ((s.island i).st = .idle → ∃ s', exec (.islandWake i) s = .next s' ∧ islandIs s' i Island.waking (s.time + 50)) ∧
      ((s.island i).st = .ret → s.gov.retStep ≠ some (s.time / 4) → s.gov.loadNow + 64 ≤ s.gov.level →
        (∀ d, islandDie i = some d → s.gov.dieLoad d + 64 ≤ s.gov.dieCapOf d) → ∃ s', exec (.islandWake i) s = .next s' ∧
          islandIs s' i Island.waking (s.time + wakeTime i) ∧ s'.gov.loadNow = s.gov.loadNow + 64 ∧ s'.gov.retStep = some (s.time / 4))) ∧
    ((s.island i).st = .waking → (s.island i).since ≤ s.time → ∃ s', exec (.islandWakeDone i) s = .next s' ∧ islandIs s' i Island.run s.time))

/-- R435, R440: claims, handover, vacancy and the interfaces' going down and up: a right claim of a vacant package takes it, the lowest ID
first; the master that PEND names takes it by accepting; any other word is discarded and counted; every change of owner advances GEN. That a
right claim or acceptance that changes nothing is not counted is the model's reading (log entry 42). -/
def Obligations.OwnershipEventsComplete : Prop :=
  ∀ s : State,
    (∀ (claims : List (Nat × DWord)) (m : Nat), (∀ c ∈ claims, 1 ≤ c.1 ∧ c.1 ≤ 3 ∧ c.2.toNat = c.1) → (∃ c ∈ claims, c.1 = m) →
      (∀ c ∈ claims, m ≤ c.1) → ∃ s', exec (.mclaimWrite claims) s = .next s' ∧
        (mownOwner s = 0 → ownerNow s s' m) ∧ (mownOwner s ≠ 0 → s'.pkg.mown = s.pkg.mown)) ∧
    (∀ (m : Nat) (v : DWord), v.toNat ≠ m →
      (∃ s', exec (.mclaimWrite [(m, v)]) s = .next s' ∧ dropped s s') ∧ ∃ s', exec (.macceptWrite m v) s = .next s' ∧ dropped s s') ∧
    (∀ (m : Nat) (v : DWord), 1 ≤ m → m ≤ 3 → v.toNat = m → mownPend s = m → mownOwner s ≠ m → ∃ s', exec (.macceptWrite m v) s = .next s' ∧
      ownerNow s s' m ∧ mownPend s' = 0) ∧
    (∀ (m : Nat) (v : DWord), (ownedBy s m → ∃ s', exec (.mownPendWrite m v) s = .next s' ∧ mownPend s' = v.toNat / 2 ^ 60 % 4 ∧
        mownOwner s' = mownOwner s ∧ s'.pkg.pendSince = s.time) ∧
      (¬ ownedBy s m → ∃ s', exec (.mownPendWrite m v) s = .next s' ∧ dropped s s')) ∧
    (mownPend s ≠ 0 → s.pkg.pendSince + 10 ^ 9 ≤ s.time → ∃ s', exec .pendTimeout s = .next s' ∧ mownPend s' = 0 ∧ mownOwner s' = mownOwner s) ∧
    (∀ x, s.pkg.ownerDownSince = some x → mownOwner s ≠ 0 → x + 10 ^ 9 ≤ s.time → ∃ s', exec .ownerVacancy s = .next s' ∧ ownerNow s s' 0) ∧
    (∃ s', exec .hostLinkDown s = .next s' ∧ s'.pkg.hostUp = false ∧ s'.ctxs = s.ctxs ∧ s'.teams = s.teams ∧
      (mownOwner s = 1 → s'.pkg.ownerDownSince = some (s.pkg.ownerDownSince.getD s.time))) ∧
    (s.nvm.fwOk = true → ∃ s', exec .hostLinkUp s = .next s' ∧ s'.pkg.hostUp = true ∧ (mownOwner s = 1 → s'.pkg.ownerDownSince = none)) ∧
    (s.nvm.fwOk = false → exec .hostLinkUp s = .next s ∧ ∀ port, exec (.fabricPortUp port) s = .next s) ∧
    (∀ port, (∃ s', exec (.fabricPortDown port) s = .next s' ∧
        (∀ i u, s.pkg.portsUp[i]? = some u → s'.pkg.portsUp[i]? = some (if i = port then false else u)) ∧
        ((∀ i < 4, s'.pkg.portsUp[4 * (port / 4) + i]? = some false) → (∀ p ∈ (s.chan (port / 4)).progs, p.ch = port / 4) →
          (s'.chan (port / 4)).progs = [] ∧ (s.codeErrs = [] → ∀ p ∈ (s.chan (port / 4)).progs, settles s s' p.who .faulted))) ∧
      (s.nvm.fwOk = true → ∃ s', exec (.fabricPortUp port) s = .next s' ∧
        (∀ i u, s.pkg.portsUp[i]? = some u → s'.pkg.portsUp[i]? = some (if i = port then true else u)) ∧ s'.chans = s.chans))

/-- R208, R437, R438, R442, R444, R446, R448: the owner's writes of registers, of partitions and of the command blocks, a host's accesses through
a window, and every master's reads of `MCLAIM`, `MACCEPT` and the CMD of `CTXCTL`, which read 0; where R438 discards an access, HERR advances and a
read answers all ones; a write of a ramp register waits for the step boundary (R414). The model's choices: that an offset past BAR2 is one of
BAR0, one range for each master, and the board controller's read of a firmware failure (log entry 47). -/
def Obligations.HostInterfaceCompletes : Prop :=
  ∀ (s : State) (master : Nat) (v : DWord),
    (ownedBy s master →
      (∀ r ∈ packageRegisters, ∃ s', exec (.registerWrite master (8 * r.1) v) s = .next s' ∧ r.2.1 s'.pkg = BitVec.ofNat 64 (v.toNat &&& r.2.2)) ∧
      (∀ n, n = 0x260 ∨ n = 0x262 ∨ (0x270 ≤ n ∧ n < 0x280) → ∃ s', exec (.registerWrite master (8 * n) v) s = .next s' ∧
        s'.pkg.rampWrites = s.pkg.rampWrites ++ [(n, v)] ∧ s'.pkg.rampcfg = s.pkg.rampcfg ∧ s'.pkg.ramplim = s.pkg.ramplim ∧
        s'.pkg.ramptab = s.pkg.ramptab) ∧
      (∀ r ∈ contextRegisters, ∀ slot < 64, ∃ s', exec (.registerWrite master (0x10_0000 + 0x8000 * slot + 8 * r.1) v) s = .next s' ∧
        r.2.1 (s'.ctx slot) = BitVec.ofNat 64 (v.toNat &&& r.2.2)) ∧
      (∀ slot < 64, ∃ s', exec (.lscfgWrite master slot v) s = .next s' ∧
        let f := fun (i : Nat) => (v.extractLsb' i 8).toInt
        (-126 ≤ f 8 → f 8 ≤ f 24 → f 24 ≤ f 16 → (s'.ctx slot).lscfg = v &&& 0x0000_FFFF_FFFF_FF00 ∧
          (s'.ctx slot).lscale.toNat = (f 24 + 127).toNat * 2 ^ 23 ∧ (s'.ctx slot).lskip = 0) ∧
        (¬ (-126 ≤ f 8 ∧ f 8 ≤ f 24 ∧ f 24 ≤ f 16) → s'.ctx slot = s.ctx slot)) ∧
      (∃ s', exec (.partcfgWrite master v) s = .next s' ∧
        ((∀ e ∈ s.pkg.part, e.2.getLsbD 63 = false) → s'.pkg.peerid.toNat = v.toNat % 2 ^ 9 ∧ s'.pkg.partSet = true) ∧
        (∀ e ∈ s.pkg.part, e.2.getLsbD 63 = true → s'.pkg.peerid = s.pkg.peerid ∧ s'.pkg.partSet = s.pkg.partSet)) ∧
      (∀ m < 64, ∃ s', exec (.partWrite master m v) s = .next s' ∧ s'.partWord m / 2 ^ 63 = v.toNat / 2 ^ 63 ∧
        s'.partWord m / 2 ^ 62 % 2 = s.partWord m / 2 ^ 62 % 2 ∧ s'.partWord m / 2 ^ 32 % 2 ^ 6 = v.toNat / 2 ^ 32 % 2 ^ 6 ∧
        s'.partWord m % 2 ^ 32 = v.toNat % 2 ^ 32) ∧
      (∀ n, s.pkg.keyBlock.length = 256 → s.pkg.keyIndex = n →
        let key := Config.unwrapKey (regBytes s.pkg.keyBlock 16 97) (regBytes s.pkg.keyBlock 128 72)
        (s.pkg.keyKind = 1 → n < 512 → ∃ s', exec (.memoryKeyInstall master) s = .next s' ∧
          (if key.map List.length = some 64 then n ∈ s'.pkg.memKeys ∧ keyDone s' 0 else s'.pkg.memKeys = s.pkg.memKeys ∧ keyDone s' 2)) ∧
        (s.pkg.keyKind = 2 → n < 64 → ∃ s', exec (.linkKeyInstall master) s = .next s' ∧
          (if key.map List.length = some 32 then n ∈ s'.pkg.linkKeys ∧ s'.partWord n / 2 ^ 62 % 2 = 1 ∧ keyDone s' 0
            else s'.pkg.linkKeys = s.pkg.linkKeys ∧ keyDone s' 2)) ∧
        (s.pkg.keyKind = 3 → ∃ s', exec (.clearKeySlot master) s = .next s' ∧
          (if n < 512 then n ∉ s'.pkg.memKeys ∧ keyDone s' 0 else s'.pkg.memKeys = s.pkg.memKeys ∧ keyDone s' 1))) ∧
      (s.pkg.attBlock.length = 512 → ∃ s', exec (.attestationRequest master) s = .next s' ∧
        regBytes s'.pkg.attBlock 257 4 = natLe 4 s.nvm.rollback.toNat ∧ regBytes s'.pkg.attBlock 261 48 = regBytes s.pkg.attBlock 16 48 ∧
        regBytes s'.pkg.attBlock 309 8 = natLe 8 s.time ∧ ∀ i, 413 ≤ i → i < 512 → s'.pkg.attBlock[i]? = some 0)) ∧
    (∀ off, ¬ ownedBy s master → off ≠ 0x08_0008 → off ≠ 0x08_0010 → ∃ s', exec (.registerWrite master off v) s = .next s' ∧ dropped s s' ∧
      s'.ctxs = s.ctxs) ∧
    (∀ m slot, m < 64 → slot < 64 → s.pkg.zeroing = [64 * slot + m] → s.codeErrs = [] → ∃ s', exec (.linkKeyZeroise m) s = .next s' ∧
      m ∉ s'.pkg.linkKeys ∧ s'.partWord m / 2 ^ 62 % 2 = 0 ∧ ∀ p ∈ s.progs, p.ctx = slot → settles s s' p.who .faulted) ∧
    (∀ (off n : Nat) (bs : List Byte), 1 ≤ master → master ≤ 3 → s.pkg.reaches master = true →
      let at_ := 2 ^ 36 + (master - 1) * 2 ^ 24 + off
      let reads := fun (w : Nat) => ∃ s', exec (.hostWindowAccess false at_ n bs) s = .next s' ∧
        s'.outbox = s.outbox ++ [.hostRead at_ (natLe 8 w)] ∧ s'.pkg = { s.pkg with ownerDownSince := s'.pkg.ownerDownSince }
      (off = 0x08_0008 ∨ off = 0x08_0010 → reads 0) ∧ (off = 0x08_0000 → reads s.pkg.mown.toNat) ∧
      ∀ slot < 64, off = 0x08_0200 + 8 * slot → reads (s.ctl slot / 2 ^ 63 * 2 ^ 63 + s.ctl slot % 2 ^ 60)) ∧
    (∀ (off n : Nat) (bs : List Byte), s.pkg.boardUp = true → off < 2 ^ 24 →
      ∃ s', exec (.hostWindowAccess false (2 ^ 36 + 3 * 2 ^ 24 + off) n bs) s = .next s' ∧
        s'.outbox = s.outbox ++ [.hostRead (2 ^ 36 + 3 * 2 ^ 24 + off) (natLe 8 (if s.nvm.fwOk = true then 0 else 1))]) ∧
    (∀ (off n : Nat) (bs : List Byte), s.pkg.hostUp = true → off < 2 ^ 36 →
      let w := (SMap.get 0 s.pkg.win (off / 2 ^ 32)).toNat
      let c := s.ctx (w % 2 ^ 6)
      let va := w / 2 ^ 32 % 2 ^ 24 * 2 ^ 32 + off % 2 ^ 32
      (w / 2 ^ 63 = 1 → c.valid = true →
        (s.registered s.pkg.hostTag = false → exec (.hostWindowAccess true off n bs) s = .next s) ∧
        (∀ g xs b, s.registered s.pkg.hostTag = true → s.spaceWrite c 0 va bs = .ok g xs b →
          ∃ s', exec (.hostWindowAccess true off n bs) s = .next s' ∧ s'.pkg.hostTag = g.nextId ∧ ∀ k, s'.byte k = g.byte k) ∧
        (∀ g xs, s.spaceRead (Finder.engine 0 c.asid 0) c 0 va n = .ok g xs false → ∃ s', exec (.hostWindowAccess false off n bs) s = .next s' ∧
          s'.outbox = g.outbox ++ [.hostRead off xs])) ∧
      (w / 2 ^ 63 = 0 ∨ c.valid = false → (∃ s', exec (.hostWindowAccess false off n bs) s = .next s' ∧
        mownHerr s' = min 65535 (mownHerr s + 1) ∧ s'.outbox = s.outbox ++ [.hostRead off (List.replicate n 0xFF)]) ∧
        ∃ s', exec (.hostWindowAccess true off n bs) s = .next s' ∧ mownHerr s' = min 65535 (mownHerr s + 1) ∧ s'.outbox = s.outbox))

/-- R230, R443: a save, restore or destroy command of the owner is taken, or refused for its window; a save drains the context's teams and then
keeps them in the image; a restore brings them back; a destroy ends them and frees the slot. Where an image lies and what bytes it has are the
model's choice (log entry 33). -/
def Obligations.ContextEventsComplete : Prop :=
  ∀ (s : State) (slot : Nat),
    (∀ (master : Nat) (v : DWord), ownedBy s master →
      (runsCtx s slot → v.getLsbD 63 = true →
        (windowOn s (v.toNat % 2 ^ 6) → ∃ s', exec (.ctxSaveCmd master slot v) s = .next s' ∧ ctlSt s' slot = 2 ∧ ctlErr s' slot = 0) ∧
        (¬ windowOn s (v.toNat % 2 ^ 6) → ∃ s', exec (.ctxSaveCmd master slot v) s = .next s' ∧ ctlSt s' slot = 1 ∧ ctlErr s' slot = 1) ∧
        ∃ s', exec (.ctxDestroyCmd master slot v) s = .next s' ∧ slot ∈ s'.pkg.dying ∧ ∀ t ∈ s'.teams, t.ctx ≠ slot) ∧
      (slot < 64 → ctlV s slot = 0 → ctlSt s slot = 0 → slot ∉ s.pkg.dying → v.getLsbD 63 = false → windowOn s (v.toNat % 2 ^ 6) →
        ∃ s', exec (.ctxRestoreCmd master slot v) s = .next s' ∧ ctlSt s' slot = 4 ∧ ctlErr s' slot = 0)) ∧
    (ctlSt s slot = 2 → ∃ s', exec (.contextSave slot) s = .next s' ∧ ∀ t, s.team? t.uid = some t → t.ctx = slot →
      t.res = .resident ∨ t.res = .starting → ∃ t', s'.team? t.uid = some t' ∧ t'.res = .draining) ∧
    (∀ place, ctlSt s slot = 2 → s.ctxBusy slot = false → (∀ t ∈ s.teams, t.ctx = slot → t.res = .evicted) → s.pend = [] →
      SMap.find s.pkg.img slot = some place → ∃ s' n im, exec (.contextSaveComplete slot) s = .next s' ∧ ctlSt s' slot = 3 ∧
        SMap.find s'.saved n = some im ∧ im.teams = s.teams.filter (fun t => t.ctx == slot) ∧ im.ctx.tdepth = (s.ctx slot).tdepth ∧
        im.ctx.lscale = (s.ctx slot).lscale ∧ im.ctx.lskip = (s.ctx slot).lskip ∧ ∀ t ∈ s'.teams, t.ctx ≠ slot) ∧
    (∀ place im, ctlSt s slot = 4 → s.ctxBusy slot = false → (∀ t ∈ s.teams, t.ctx ≠ slot) → (∀ g ∈ s.grids, g.ctx ≠ slot) →
      SMap.find s.pkg.img slot = some place → s.imageAt place = some im → s.imageFits im = true →
      ∃ s', exec (.contextRestoreComplete slot) s = .next s' ∧ ctlSt s' slot = 1 ∧ ctlV s' slot = 1 ∧ (s'.ctx slot).valid = true ∧
        (s'.ctx slot).tdepth = im.ctx.tdepth ∧ (s'.ctx slot).lscale = im.ctx.lscale ∧ (s'.ctx slot).lskip = im.ctx.lskip ∧
        ∀ t ∈ im.teams, ∃ t' ∈ s'.teams, t'.uid = t.uid ∧ t'.ctx = slot ∧ t'.v = t.v ∧ t'.s = t.s ∧ t'.p = t.p ∧ t'.q = t.q ∧ t'.stack = t.stack ∧
          t'.handles = t.handles) ∧
    (slot ∈ s.pkg.dying → s.ctxBusy slot = false → s.pend = [] → ∃ s', exec (.contextDestroyComplete slot) s = .next s' ∧ ctlV s' slot = 0 ∧
      ctlSt s' slot = 0 ∧ (s'.ctx slot).valid = false ∧ slot ∉ s'.pkg.dying ∧ (∀ t ∈ s'.teams, t.ctx ≠ slot) ∧ ∀ g ∈ s'.grids, g.ctx ≠ slot)

/-- R35, R449 to R451: a thermal cycle and an hour are counted in their bins; a loss of power leaves the counters that were last written; a boot
counts a power-up, retrains what it cannot reuse, starts `CYC` and runs nothing, and without firmware keeps ports and link down. The bins'
bounds, and temperatures as events, are the model's reading (log entry 43). -/
def Obligations.PowerEventsComplete : Prop :=
  ∀ s : State,
    let n := s.nvm
    (∀ dt : Temp, ∃ s', exec (.thermalCycleCount dt) s = .next s' ∧
      (dt < 100 → s'.nvm = n) ∧
      (100 ≤ dt → dt < 200 → countedLow n.wtc0 s'.nvm.wtc0 ∧ s'.nvm.wtc1 = n.wtc1) ∧
      (200 ≤ dt → dt < 400 → countedHigh n.wtc0 s'.nvm.wtc0 ∧ s'.nvm.wtc1 = n.wtc1) ∧
      (400 ≤ dt → dt ≤ 600 → countedLow n.wtc1 s'.nvm.wtc1 ∧ s'.nvm.wtc0 = n.wtc0) ∧
      (600 < dt → countedHigh n.wtc1 s'.nvm.wtc1 ∧ s'.nvm.wtc0 = n.wtc0)) ∧
    (∀ temp : Temp, ∃ s', exec (.hoursAtTemperature temp) s = .next s' ∧
      (temp < 600 → countedLow n.whrs0 s'.nvm.whrs0 ∧ s'.nvm.whrs1 = n.whrs1) ∧
      (600 ≤ temp → temp < 850 → countedHigh n.whrs0 s'.nvm.whrs0 ∧ s'.nvm.whrs1 = n.whrs1) ∧
      (850 ≤ temp → temp ≤ 1050 → countedLow n.whrs1 s'.nvm.whrs1 ∧ s'.nvm.whrs0 = n.whrs0) ∧
      (1050 < temp → countedHigh n.whrs1 s'.nvm.whrs1 ∧ s'.nvm.whrs0 = n.whrs0)) ∧
    (∃ s', exec .wearCounterSave s = .next s' ∧ s'.nvm.saved = [n.wtc0, n.wtc1, n.wpwr, n.whrs0, n.whrs1]) ∧
    (∀ a b c d e, n.saved = [a, b, c, d, e] → ∃ s', exec .powerLoss s = .next s' ∧ s'.powered = false ∧ s'.nvm.wtc0 = a ∧ s'.nvm.wtc1 = b ∧
      s'.nvm.wpwr = c ∧ s'.nvm.whrs0 = d ∧ s'.nvm.whrs1 = e ∧ s'.nvm.hbmRecs = n.hbmRecs ∧ s'.nvm.identity = n.identity ∧ s'.teams = [] ∧ s'.mem = []) ∧
    (∀ (vset : Nat) (ts us : List Temp), s.powered = false →
      (n.fwOk = true → ∃ s' key, exec (.coldBoot vset ts us) s = .next s' ∧ s'.powered = true ∧ s'.teams = [] ∧ s'.mem = [] ∧
        lowBin s'.nvm.wpwr = oneMore (lowBin n.wpwr) ∧ s'.nvm.identity = some key ∧ (∀ k, n.identity = some k → key = k) ∧
        (let a := retrained (some key) vset n.hbmRecs ts
         let b := retrained (some key) vset n.portRecs us
         highBin s'.nvm.wpwr = (if a + b = 0 then highBin n.wpwr else oneMore (highBin n.wpwr)) ∧
         s'.cyc = BitVec.ofNat 64 (4700000000 + 3000000000 * a + 1375000000 * b)) ∧
        s'.nvm.hbmRecs = retrain (some key) vset n.hbmRecs ts ∧ s'.nvm.portRecs = retrain (some key) vset n.portRecs us) ∧
      (n.fwOk = false → ∃ s', exec (.coldBoot vset ts us) s = .next s' ∧ s'.powered = true ∧ s'.pkg.hostUp = false ∧
        s'.pkg.portsUp = List.replicate 64 false ∧ s'.pkg.boardUp = true ∧ s'.teams = []))

/-- R134: `s.cstat` writes bits 1:0 as the status of the segment, bit 2 where the entry is bound, and zero above, in each group. -/
def Obligations.SegmentStatusWord : Prop :=
  ∀ (s : State) (t : Team) (h : Hdr) (d : RegNo) (n : BitVec 4), Runs s t (.sCstat h d n) →
    ∃ v, exec (.sCstat h d n) s = .next (s.putTeam ((t.writeGroups d.toNat (t.groupsFor h) fun _ => URes.num 1 v).pass
        (Instr.length (.sCstat h d n)))) ∧
      v % 4 = s.segStatus t n.toNat ∧ (v / 4 % 2 = 1 ↔ t.segAddr n.toNat ≠ 0) ∧ v < 8

/-- R441: contexts, queues, grids and engine work continue across every change of owner, including a vacancy, and a change of owner undoes no
write: no register but `MOWN` changes. -/
def Obligations.OwnersChangeOnlyTheOwner : Prop :=
  ∀ (s : State) (i : Instr), ((∃ claims, i = .mclaimWrite claims) ∨ (∃ m v, i = .macceptWrite m v) ∨ i = .ownerVacancy ∨ i = .pendTimeout) →
    ∃ s', exec i s = .next s' ∧ workGoesOn s s' ∧ s'.prices = s.prices ∧ s'.gov = s.gov ∧
      s'.pkg = { s.pkg with mown := s'.pkg.mown, pendSince := s'.pkg.pendSince, ownerDownSince := s'.pkg.ownerDownSince, msix := s'.pkg.msix }

/-- R67, R68, R73: words written out from the spec's encodings decode to the instructions that they stand for. -/
def Obligations.ExampleWordsDecode : Prop := ∀ e ∈ exampleWords, decode e.1 = some (e.2, [])

/-- R67 to R79: decoding the words of a well-formed instruction, whatever follows them, gives it back with every operand. -/
def Obligations.DecodeOfEncode : Prop :=
  ∀ (i : Instr) (rest : List Word), i.wf = true → decode (encode i ++ rest) = some (i, rest) ∧ (encode i).length = i.length

/-- R69, R70, R79, R81, R395: a step of a chosen team runs the instruction that the words at its PC decode to, paid for where its team can pay;
one that is not eligible (illegal, privileged in a team that is not, or a fenced jump that misses) runs unpaid to its stop, one that cannot yet
begin pays nothing, and one that would make too large a debt stops the team; words that decode to nothing, the words 0x3F00_0000 and 0xFFFF_FFFF
among them, stop the team with ILLEGAL. With no team chosen the next input runs, and without one a core cycle passes. The order of teams, inputs
and core cycles is the model's choice (log entry 2). -/
def Obligations.StepRunsTheDecodedInstruction : Prop :=
  ∀ s : State,
    (∀ uid rest t ws, s.pick = uid :: rest → s.team? uid = some t →
      let z := { s with pick := rest }
      wordsAt z t ws →
      (∀ i more, decode ws = some (i, more) →
        (Instr.legal t t.pc i = false ∨ (Instr.isPriv i = true ∧ t.privileged = false) ∨ z.jumpMisses t i = true →
          ∀ u, exec i { z.issued t with cur := some uid } = .next u → step s = .next { u with cur := none }) ∧
        (Instr.legal t t.pc i = true → (Instr.isPriv i = true → t.privileged = true) → z.jumpMisses t i = false →
          (z.afford t i = .pays → ∀ u, exec i { (z.payFor t i).issued t with cur := some uid } = .next u →
            (progressed t u = true → step s = .next { u with cur := none }) ∧
            (progressed t u = false → ∀ w, exec i { z with cur := some uid } = .next w → step s = .next (w.retryLater uid))) ∧
          (z.afford t i = .overflow → step s = .next (z.takeStop uid i.length (Stop.of .tokenDebtOvf))) ∧
          (z.afford t i = .held → step s = .next (z.retryLater uid)))) ∧
      (decode ws = none → step s = .next (z.takeStop uid 0 (Stop.of .illegal))) ∧
      (ws.head? = some 0x3F000000 ∨ ws.head? = some 0xFFFFFFFF → decode ws = none)) ∧
    (s.pick = [] →
      (∀ i rest u, s.nextInput = some (i, rest) → exec i { s with inputs := rest } = .next u →
        (s.inputHeld i = none → step s = .next u) ∧
        (s.inputHeld i ≠ none → step s = .next { u with inputs := i :: u.inputs })) ∧
      (s.nextInput = none → step s = .next s.coreCycle))

/-- No step of the machine refuses or faults: from every state, whatever its teams, words and inputs are, a step answers a next state. -/
def Obligations.EveryStepGoesOn : Prop := ∀ s : State, ∃ s', step s = .next s'

/-- What the spec gives for reset (R35, R208, R364, R391, R392, R400, R414, R440, R443, R444): the time, the registers of every core, context and
of the package, and no owner. -/
def Obligations.ResetValues : Prop :=
  let s := State.reset
  s.cyc = 0 ∧ s.teams = [] ∧ s.grids = [] ∧
  (∀ k, (s.core k).tkcore.toNat = 256 * 2 ^ 40 + 128 * 2 ^ 30 + 1024 * 2 ^ 16 + 65535 ∧ (s.core k).bal = 1024 ∧ (s.core k).resv = none) ∧
  (∀ k, (s.ctx k).lscfg.toNat = 2000 * 2 ^ 32 + 16 * 2 ^ 24 + 24 * 2 ^ 16 ∧ (s.ctx k).tdepth = 0 ∧ (s.ctx k).lskip = 0 ∧ (s.ctx k).flogpos = 0 ∧
    (s.ctx k).qtbase = 0 ∧ (s.ctx k).tapebase = 0 ∧ (s.ctx k).flogbase = 0 ∧ (s.ctx k).clgbase = 0 ∧ (s.ctx k).ptbase = 0 ∧
    (s.ctx k).valid = false ∧ s.ctl k = 0) ∧
  s.pkg.clcfg = 30 ∧ s.pkg.rampcfg.toNat = 1000 * 2 ^ 52 + 600 * 2 ^ 40 + 4 * 2 ^ 24 + 40 * 2 ^ 16 + 4 * 2 ^ 12 + 4 * 2 ^ 8 + 64 ∧
  s.pkg.ramplim = 0 ∧ (∀ b, s.rampTab b = 0xFFFFFFFF) ∧ s.gov.level = 0 ∧ s.pkg.dcap0 = 1048576 ∧ s.pkg.dcap1 = 1048576 ∧
  s.pkg.dbal0 = 1048576 ∧ s.pkg.dbal1 = 1048576 ∧ s.pkg.pcap = 16777216 ∧ s.pkg.pbal = 16777216 ∧ s.pkg.mown = 0 ∧
  (∀ w, SMap.get 0 s.pkg.win w = 0) ∧ (∀ m, s.partWord m = 0) ∧ ∀ v, (s.cluster v).mxcfg.toNat % 2 ^ 16 = 1024

/-- The memory right after reset holds its canonical form. The form, and that unwritten memory reads as zero, are the model's own (log entry 3). -/
def Obligations.ResetMemoryCanonical : Prop := State.reset.Inv

/-- From every state whose memory holds its canonical form (addresses strictly rising, no entry equal to what an unlisted address reads as),
every step leaves one that does. The form is the model's own (log entry 3). -/
def Obligations.StepKeepsMemoryCanonical : Prop := ∀ s s' : State, s.Inv → step s = .next s' → s'.Inv

/-- R18, R19, R75: the frames of the lane and uniform words of the tables: nothing of the state but the team changes; of the team, a lane word
changes only its destination registers and predicate in the lanes that it executes for, and the counters of the draws; a uniform word only
its destination in the groups that it executes for; each leaves every special register, accumulator and exception register as it was. -/
def Obligations.WordFrames : Prop :=
  (∀ tbl ∈ laneTables, ∀ (s s' : State) (t : Team) (i : Instr) (r : LaneRule), tbl i = some r → Runs s t i → r.codesGood t →
    exec i s = .next s' → ∃ t', s' = s.putTeam t' ∧ sameButRegisters t t' i.length ∧ t'.s = t.s ∧ t'.q = t.q ∧
      ∀ n l, l < 1024 →
        let res := r.res t l ((t.laneSrcs r.srcs l).map wordsNat)
        (l ∉ t.lanesFor r.h ∨ n < r.d.toNat ∨ r.d.toNat + res.words.length ≤ n → t'.vGet n l = t.vGet n l) ∧
        (l ∉ t.lanesFor r.h ∨ (∀ b, res.pred ≠ some (n, b)) → t'.pGet n l = t.pGet n l)) ∧
  (∀ tbl ∈ groupTables, ∀ (s s' : State) (t : Team) (i : Instr) (r : GroupRule), tbl i = some r → Runs s t i → r.codesGood t →
    t.lanes ≤ 1024 → exec i s = .next s' → ∃ t', s' = s.putTeam t' ∧ sameButRegisters t t' i.length ∧ t'.v = t.v ∧ t'.p = t.p ∧
      t'.rounds = t.rounds ∧
      ∀ n g, g < 1024 →
        let res := r.res t g ((t.groupSrcs r.srcs g).map wordsNat)
        (g ∉ t.groupsFor r.h ∨ n < r.d.toNat - 192 ∨ r.d.toNat - 192 + res.words.length ≤ n → t'.sGet n g = t.sGet n g) ∧
        (g ∉ t.groupsFor r.h ∨ (∀ b, res.pred ≠ some (n, b)) → t'.qGet n g = t.qGet n g))
end

