-- ==== Sys2Proof/Laws/Map.lean ====
section
/-! SUPPORT. Laws of sparse tables: reading after writing, and the canonical form. -/

namespace Sys2Proof.Machine

open Sys2Proof

/-! ### Reading after writing -/

theorem SMap.find_put {α : Type} (m : SMap α) (x y : Nat) (v : α) :
    SMap.find (SMap.put m x v) y = if y = x then some v else SMap.find m y := by
  induction m with
  | nil => simp [SMap.put, SMap.find]
  | cons e m ih =>
    obtain ⟨k, w⟩ := e
    by_cases hk : x = k
    · subst hk
      by_cases hy : y = x <;> simp [SMap.put, SMap.find, hy]
    · have hk' : ¬ k = x := fun h => hk h.symm
      by_cases hl : x < k
      · simp [SMap.put, SMap.find, hk, hl]
      · by_cases hy : y = k
        · subst hy
          simp [SMap.put, SMap.find, hk, hl, hk']
        · simp [SMap.put, SMap.find, hk, hl, hy, ih]

theorem SMap.find_del {α : Type} (m : SMap α) (x y : Nat) :
    SMap.find (SMap.del m x) y = if y = x then none else SMap.find m y := by
  induction m with
  | nil => simp [SMap.del, SMap.find]
  | cons e m ih =>
    obtain ⟨k, w⟩ := e
    by_cases hk : x = k
    · subst hk
      by_cases hy : y = x
      · subst hy
        simpa [SMap.del] using ih
      · simp [SMap.del, SMap.find, hy, ih]
    · have hk' : ¬ k = x := fun h => hk h.symm
      by_cases hy : y = k
      · subst hy
        simp [SMap.del, SMap.find, hk, hk']
      · simp [SMap.del, SMap.find, hk, hy, ih]

theorem SMap.get_put {α : Type} (d : α) (m : SMap α) (x y : Nat) (v : α) :
    SMap.get d (SMap.put m x v) y = if y = x then v else SMap.get d m y := by
  by_cases h : y = x <;> simp [SMap.get, SMap.find_put, h]

/-- Reading a table after a write gives the value written at its key, and at every other key what was there. -/
theorem SMap.get_set {α : Type} [DecidableEq α] (d : α) (m : SMap α) (x y : Nat) (v : α) :
    SMap.get d (SMap.set d m x v) y = if y = x then v else SMap.get d m y := by
  by_cases hv : v = d
  · by_cases h : y = x <;> simp [SMap.set, hv, SMap.get, SMap.find_del, h]
  · simp [SMap.set, hv, SMap.get_put]

/-! ### The canonical form -/

theorem SMap.wfFrom_mono {α : Type} {lo hi : Nat} {m : SMap α} (h : lo ≤ hi) (hm : SMap.wfFrom (some hi) m = true) :
    SMap.wfFrom (some lo) m = true := by
  cases m with
  | nil => rfl
  | cons e m =>
    obtain ⟨k, w⟩ := e
    simp only [SMap.wfFrom, Bool.and_eq_true, decide_eq_true_eq] at hm ⊢
    exact ⟨by omega, hm.2⟩

/-- A key may follow a bound. -/
def SMap.follows (lo : Option Nat) (k : Nat) : Bool := match lo with | none => true | some l => decide (l < k)

theorem SMap.wfFrom_cons {α : Type} (lo : Option Nat) (k : Nat) (w : α) (m : SMap α) :
    SMap.wfFrom lo ((k, w) :: m) = (SMap.follows lo k && SMap.wfFrom (some k) m) := rfl

theorem SMap.wfFrom_put {α : Type} (v : α) : ∀ (m : SMap α) (lo : Option Nat) (x : Nat), SMap.follows lo x = true →
    SMap.wfFrom lo m = true → SMap.wfFrom lo (SMap.put m x v) = true
  | [], lo, x, hx, _ => by rw [SMap.put, SMap.wfFrom_cons, hx]; rfl
  | (k, w) :: m, lo, x, hx, h => by
    rw [SMap.wfFrom_cons, Bool.and_eq_true] at h
    by_cases hk : x = k
    · subst hk
      simp [SMap.put, SMap.wfFrom_cons, h]
    · by_cases hl : x < k
      · rw [SMap.put, if_neg hk, if_pos hl, SMap.wfFrom_cons, SMap.wfFrom_cons, hx, h.2]
        simp [SMap.follows, hl]
      · have := SMap.wfFrom_put v m (some k) x (by simp [SMap.follows]; omega) h.2
        simp [SMap.put, hk, hl, SMap.wfFrom_cons, h.1, this]

theorem SMap.wfFrom_weaken {α : Type} {lo : Option Nat} {k : Nat} {m : SMap α} (h : SMap.follows lo k = true)
    (hm : SMap.wfFrom (some k) m = true) : SMap.wfFrom lo m = true := by
  cases lo with
  | some l => exact SMap.wfFrom_mono (Nat.le_of_lt (by simpa [SMap.follows] using h)) hm
  | none =>
    cases m with
    | nil => rfl
    | cons e m =>
      rw [SMap.wfFrom_cons, Bool.and_eq_true] at hm
      rw [SMap.wfFrom_cons, hm.2]
      rfl

theorem SMap.wfFrom_del {α : Type} : ∀ (m : SMap α) (lo : Option Nat) (x : Nat),
    SMap.wfFrom lo m = true → SMap.wfFrom lo (SMap.del m x) = true
  | [], _, _, h => h
  | (k, w) :: m, lo, x, h => by
    rw [SMap.wfFrom_cons, Bool.and_eq_true] at h
    have ih := SMap.wfFrom_del m (some k) x h.2
    by_cases hk : x = k
    · rw [SMap.del, if_pos hk]
      exact SMap.wfFrom_weaken h.1 ih
    · rw [SMap.del, if_neg hk, SMap.wfFrom_cons, h.1, ih]
      rfl

theorem SMap.all_put {α : Type} (p : Nat × α → Bool) (v : α) : ∀ (m : SMap α) (x : Nat), p (x, v) = true → m.all p = true →
    (SMap.put m x v).all p = true
  | [], x, hv, _ => by simp [SMap.put, hv]
  | (k, w) :: m, x, hv, h => by
    rw [List.all_cons, Bool.and_eq_true] at h
    by_cases hk : x = k
    · rw [SMap.put, if_pos hk, List.all_cons, hv, h.2]; rfl
    · by_cases hl : x < k
      · rw [SMap.put, if_neg hk, if_pos hl, List.all_cons, hv, List.all_cons, h.1, h.2]; rfl
      · rw [SMap.put, if_neg hk, if_neg hl, List.all_cons, h.1, SMap.all_put p v m x hv h.2]; rfl

theorem SMap.all_del {α : Type} (p : Nat × α → Bool) : ∀ (m : SMap α) (x : Nat), m.all p = true → (SMap.del m x).all p = true
  | [], _, _ => rfl
  | (k, w) :: m, x, h => by
    rw [List.all_cons, Bool.and_eq_true] at h
    by_cases hk : x = k
    · rw [SMap.del, if_pos hk]
      exact SMap.all_del p m x h.2
    · rw [SMap.del, if_neg hk, List.all_cons, h.1, SMap.all_del p m x h.2]; rfl

/-- A write keeps the canonical form. -/
theorem SMap.wf_set {α : Type} [DecidableEq α] (d : α) (m : SMap α) (x : Nat) (v : α) (h : SMap.wf d m = true) :
    SMap.wf d (SMap.set d m x v) = true := by
  simp only [SMap.wf, Bool.and_eq_true] at h ⊢
  by_cases hv : v = d
  · simp only [SMap.set, hv, if_true]
    exact ⟨SMap.wfFrom_del m none x h.1, SMap.all_del _ m x h.2⟩
  · simp only [SMap.set, hv, if_false]
    exact ⟨SMap.wfFrom_put v m none x rfl h.1, SMap.all_put _ v m x (by simp [hv]) h.2⟩

/-! ### Memory -/

/-- Reading a byte after a write of a run of bytes. -/
theorem get_memWrite : ∀ (bs : List Byte) (m : List Host.Cell) (key a : Nat),
    SMap.get 0 (memWrite m key bs) a = if key ≤ a ∧ a < key + bs.length then (bs[a - key]?).getD 0 else SMap.get 0 m a
  | [], m, key, a => by
    have : ¬ (key ≤ a ∧ a < key) := by omega
    simp [memWrite, this]
  | b :: bs, m, key, a => by
    rw [memWrite, get_memWrite bs]
    by_cases h : a = key
    · subst h
      simp [SMap.get_set]
    · by_cases h2 : key + 1 ≤ a ∧ a < key + 1 + bs.length
      · have h3 : key ≤ a ∧ a < key + (b :: bs).length := by simp only [List.length_cons]; omega
        have h4 : a - key = (a - (key + 1)) + 1 := by omega
        rw [if_pos h2, if_pos h3, h4, List.getElem?_cons_succ]
      · have h3 : ¬ (key ≤ a ∧ a < key + (b :: bs).length) := by simp only [List.length_cons]; omega
        rw [if_neg h2, if_neg h3, SMap.get_set, if_neg h]

/-- Writing bytes keeps the canonical form of memory. -/
theorem memWrite_wf : ∀ (bs : List Byte) (m : List Host.Cell) (key : Nat), Memory.wf m = true → Memory.wf (memWrite m key bs) = true
  | [], _, _, h => h
  | b :: bs, m, key, h => by
    rw [memWrite]
    exact memWrite_wf bs _ (key + 1) (SMap.wf_set 0 m key b h)

theorem byte_poke (s : State) (key a : Nat) (bs : List Byte) :
    (s.poke key bs).byte a = if key ≤ a ∧ a < key + bs.length then (bs[a - key]?).getD 0 else s.byte a :=
  get_memWrite bs s.mem key a

theorem poke_wf (s : State) (key : Nat) (bs : List Byte) (h : Memory.wf s.mem = true) : Memory.wf (s.poke key bs).mem = true :=
  memWrite_wf bs s.mem key h

end Sys2Proof.Machine
end

