-- ==== Sys2Proof/Laws/State.lean ====
section
/-! SUPPORT. What each named update of the state or of a team leaves alone: one lemma per field per update. -/

namespace Sys2Proof.Machine

open Sys2Proof

/-! ### `State.poke` -/

@[simp] theorem State.poke_cyc (s : State) (key : Nat) (bs : List Byte) : (s.poke key bs).cyc = s.cyc := rfl
@[simp] theorem State.poke_cc (s : State) (key : Nat) (bs : List Byte) : (s.poke key bs).cc = s.cc := rfl
@[simp] theorem State.poke_later (s : State) (key : Nat) (bs : List Byte) : (s.poke key bs).later = s.later := rfl
@[simp] theorem State.poke_powered (s : State) (key : Nat) (bs : List Byte) : (s.poke key bs).powered = s.powered := rfl
@[simp] theorem State.poke_tags (s : State) (key : Nat) (bs : List Byte) : (s.poke key bs).tags = s.tags := rfl
@[simp] theorem State.poke_poison (s : State) (key : Nat) (bs : List Byte) : (s.poke key bs).poison = s.poison := rfl
@[simp] theorem State.poke_codeErrs (s : State) (key : Nat) (bs : List Byte) : (s.poke key bs).codeErrs = s.codeErrs := rfl
@[simp] theorem State.poke_pend (s : State) (key : Nat) (bs : List Byte) : (s.poke key bs).pend = s.pend := rfl
@[simp] theorem State.poke_revokes (s : State) (key : Nat) (bs : List Byte) : (s.poke key bs).revokes = s.revokes := rfl
@[simp] theorem State.poke_l1 (s : State) (key : Nat) (bs : List Byte) : (s.poke key bs).l1 = s.l1 := rfl
@[simp] theorem State.poke_l1Rights (s : State) (key : Nat) (bs : List Byte) : (s.poke key bs).l1Rights = s.l1Rights := rfl
@[simp] theorem State.poke_owners (s : State) (key : Nat) (bs : List Byte) : (s.poke key bs).owners = s.owners := rfl
@[simp] theorem State.poke_lines (s : State) (key : Nat) (bs : List Byte) : (s.poke key bs).lines = s.lines := rfl
@[simp] theorem State.poke_remote (s : State) (key : Nat) (bs : List Byte) : (s.poke key bs).remote = s.remote := rfl
@[simp] theorem State.poke_tlb (s : State) (key : Nat) (bs : List Byte) : (s.poke key bs).tlb = s.tlb := rfl
@[simp] theorem State.poke_walks (s : State) (key : Nat) (bs : List Byte) : (s.poke key bs).walks = s.walks := rfl
@[simp] theorem State.poke_frames (s : State) (key : Nat) (bs : List Byte) : (s.poke key bs).frames = s.frames := rfl
@[simp] theorem State.poke_ats (s : State) (key : Nat) (bs : List Byte) : (s.poke key bs).ats = s.ats := rfl
@[simp] theorem State.poke_counters (s : State) (key : Nat) (bs : List Byte) : (s.poke key bs).counters = s.counters := rfl
@[simp] theorem State.poke_scrubPos (s : State) (key : Nat) (bs : List Byte) : (s.poke key bs).scrubPos = s.scrubPos := rfl
@[simp] theorem State.poke_scrubPasses (s : State) (key : Nat) (bs : List Byte) : (s.poke key bs).scrubPasses = s.scrubPasses := rfl
@[simp] theorem State.poke_cores (s : State) (key : Nat) (bs : List Byte) : (s.poke key bs).cores = s.cores := rfl
@[simp] theorem State.poke_clusters (s : State) (key : Nat) (bs : List Byte) : (s.poke key bs).clusters = s.clusters := rfl
@[simp] theorem State.poke_ctxs (s : State) (key : Nat) (bs : List Byte) : (s.poke key bs).ctxs = s.ctxs := rfl
@[simp] theorem State.poke_saved (s : State) (key : Nat) (bs : List Byte) : (s.poke key bs).saved = s.saved := rfl
@[simp] theorem State.poke_teams (s : State) (key : Nat) (bs : List Byte) : (s.poke key bs).teams = s.teams := rfl
@[simp] theorem State.poke_grids (s : State) (key : Nat) (bs : List Byte) : (s.poke key bs).grids = s.grids := rfl
@[simp] theorem State.poke_arrivals (s : State) (key : Nat) (bs : List Byte) : (s.poke key bs).arrivals = s.arrivals := rfl
@[simp] theorem State.poke_loads (s : State) (key : Nat) (bs : List Byte) : (s.poke key bs).loads = s.loads := rfl
@[simp] theorem State.poke_chans (s : State) (key : Nat) (bs : List Byte) : (s.poke key bs).chans = s.chans := rfl
@[simp] theorem State.poke_tagUses (s : State) (key : Nat) (bs : List Byte) : (s.poke key bs).tagUses = s.tagUses := rfl
@[simp] theorem State.poke_migCounts (s : State) (key : Nat) (bs : List Byte) : (s.poke key bs).migCounts = s.migCounts := rfl
@[simp] theorem State.poke_moves (s : State) (key : Nat) (bs : List Byte) : (s.poke key bs).moves = s.moves := rfl
@[simp] theorem State.poke_prices (s : State) (key : Nat) (bs : List Byte) : (s.poke key bs).prices = s.prices := rfl
@[simp] theorem State.poke_islands (s : State) (key : Nat) (bs : List Byte) : (s.poke key bs).islands = s.islands := rfl
@[simp] theorem State.poke_gov (s : State) (key : Nat) (bs : List Byte) : (s.poke key bs).gov = s.gov := rfl
@[simp] theorem State.poke_pkg (s : State) (key : Nat) (bs : List Byte) : (s.poke key bs).pkg = s.pkg := rfl
@[simp] theorem State.poke_nvm (s : State) (key : Nat) (bs : List Byte) : (s.poke key bs).nvm = s.nvm := rfl
@[simp] theorem State.poke_outbox (s : State) (key : Nat) (bs : List Byte) : (s.poke key bs).outbox = s.outbox := rfl
@[simp] theorem State.poke_inputs (s : State) (key : Nat) (bs : List Byte) : (s.poke key bs).inputs = s.inputs := rfl
@[simp] theorem State.poke_remoteWait (s : State) (key : Nat) (bs : List Byte) : (s.poke key bs).remoteWait = s.remoteWait := rfl
@[simp] theorem State.poke_pick (s : State) (key : Nat) (bs : List Byte) : (s.poke key bs).pick = s.pick := rfl
@[simp] theorem State.poke_recWaits (s : State) (key : Nat) (bs : List Byte) : (s.poke key bs).recWaits = s.recWaits := rfl
@[simp] theorem State.poke_remAsks (s : State) (key : Nat) (bs : List Byte) : (s.poke key bs).remAsks = s.remAsks := rfl
@[simp] theorem State.poke_replies (s : State) (key : Nat) (bs : List Byte) : (s.poke key bs).replies = s.replies := rfl
@[simp] theorem State.poke_gone (s : State) (key : Nat) (bs : List Byte) : (s.poke key bs).gone = s.gone := rfl
@[simp] theorem State.poke_cur (s : State) (key : Nat) (bs : List Byte) : (s.poke key bs).cur = s.cur := rfl
@[simp] theorem State.poke_nextId (s : State) (key : Nat) (bs : List Byte) : (s.poke key bs).nextId = s.nextId := rfl
@[simp] theorem State.poke_freeCtr (s : State) (key : Nat) (bs : List Byte) : (s.poke key bs).freeCtr = s.freeCtr := rfl

/-! ### `State.setCtx` -/

@[simp] theorem State.setCtx_cyc (s : State) (slot : Nat) (c : Ctx) : (s.setCtx slot c).cyc = s.cyc := rfl
@[simp] theorem State.setCtx_cc (s : State) (slot : Nat) (c : Ctx) : (s.setCtx slot c).cc = s.cc := rfl
@[simp] theorem State.setCtx_later (s : State) (slot : Nat) (c : Ctx) : (s.setCtx slot c).later = s.later := rfl
@[simp] theorem State.setCtx_powered (s : State) (slot : Nat) (c : Ctx) : (s.setCtx slot c).powered = s.powered := rfl
@[simp] theorem State.setCtx_mem (s : State) (slot : Nat) (c : Ctx) : (s.setCtx slot c).mem = s.mem := rfl
@[simp] theorem State.setCtx_tags (s : State) (slot : Nat) (c : Ctx) : (s.setCtx slot c).tags = s.tags := rfl
@[simp] theorem State.setCtx_poison (s : State) (slot : Nat) (c : Ctx) : (s.setCtx slot c).poison = s.poison := rfl
@[simp] theorem State.setCtx_codeErrs (s : State) (slot : Nat) (c : Ctx) : (s.setCtx slot c).codeErrs = s.codeErrs := rfl
@[simp] theorem State.setCtx_pend (s : State) (slot : Nat) (c : Ctx) : (s.setCtx slot c).pend = s.pend := rfl
@[simp] theorem State.setCtx_revokes (s : State) (slot : Nat) (c : Ctx) : (s.setCtx slot c).revokes = s.revokes := rfl
@[simp] theorem State.setCtx_l1 (s : State) (slot : Nat) (c : Ctx) : (s.setCtx slot c).l1 = s.l1 := rfl
@[simp] theorem State.setCtx_l1Rights (s : State) (slot : Nat) (c : Ctx) : (s.setCtx slot c).l1Rights = s.l1Rights := rfl
@[simp] theorem State.setCtx_owners (s : State) (slot : Nat) (c : Ctx) : (s.setCtx slot c).owners = s.owners := rfl
@[simp] theorem State.setCtx_lines (s : State) (slot : Nat) (c : Ctx) : (s.setCtx slot c).lines = s.lines := rfl
@[simp] theorem State.setCtx_remote (s : State) (slot : Nat) (c : Ctx) : (s.setCtx slot c).remote = s.remote := rfl
@[simp] theorem State.setCtx_tlb (s : State) (slot : Nat) (c : Ctx) : (s.setCtx slot c).tlb = s.tlb := rfl
@[simp] theorem State.setCtx_walks (s : State) (slot : Nat) (c : Ctx) : (s.setCtx slot c).walks = s.walks := rfl
@[simp] theorem State.setCtx_frames (s : State) (slot : Nat) (c : Ctx) : (s.setCtx slot c).frames = s.frames := rfl
@[simp] theorem State.setCtx_ats (s : State) (slot : Nat) (c : Ctx) : (s.setCtx slot c).ats = s.ats := rfl
@[simp] theorem State.setCtx_counters (s : State) (slot : Nat) (c : Ctx) : (s.setCtx slot c).counters = s.counters := rfl
@[simp] theorem State.setCtx_scrubPos (s : State) (slot : Nat) (c : Ctx) : (s.setCtx slot c).scrubPos = s.scrubPos := rfl
@[simp] theorem State.setCtx_scrubPasses (s : State) (slot : Nat) (c : Ctx) : (s.setCtx slot c).scrubPasses = s.scrubPasses := rfl
@[simp] theorem State.setCtx_cores (s : State) (slot : Nat) (c : Ctx) : (s.setCtx slot c).cores = s.cores := rfl
@[simp] theorem State.setCtx_clusters (s : State) (slot : Nat) (c : Ctx) : (s.setCtx slot c).clusters = s.clusters := rfl
@[simp] theorem State.setCtx_saved (s : State) (slot : Nat) (c : Ctx) : (s.setCtx slot c).saved = s.saved := rfl
@[simp] theorem State.setCtx_teams (s : State) (slot : Nat) (c : Ctx) : (s.setCtx slot c).teams = s.teams := rfl
@[simp] theorem State.setCtx_grids (s : State) (slot : Nat) (c : Ctx) : (s.setCtx slot c).grids = s.grids := rfl
@[simp] theorem State.setCtx_arrivals (s : State) (slot : Nat) (c : Ctx) : (s.setCtx slot c).arrivals = s.arrivals := rfl
@[simp] theorem State.setCtx_loads (s : State) (slot : Nat) (c : Ctx) : (s.setCtx slot c).loads = s.loads := rfl
@[simp] theorem State.setCtx_chans (s : State) (slot : Nat) (c : Ctx) : (s.setCtx slot c).chans = s.chans := rfl
@[simp] theorem State.setCtx_tagUses (s : State) (slot : Nat) (c : Ctx) : (s.setCtx slot c).tagUses = s.tagUses := rfl
@[simp] theorem State.setCtx_migCounts (s : State) (slot : Nat) (c : Ctx) : (s.setCtx slot c).migCounts = s.migCounts := rfl
@[simp] theorem State.setCtx_moves (s : State) (slot : Nat) (c : Ctx) : (s.setCtx slot c).moves = s.moves := rfl
@[simp] theorem State.setCtx_prices (s : State) (slot : Nat) (c : Ctx) : (s.setCtx slot c).prices = s.prices := rfl
@[simp] theorem State.setCtx_islands (s : State) (slot : Nat) (c : Ctx) : (s.setCtx slot c).islands = s.islands := rfl
@[simp] theorem State.setCtx_gov (s : State) (slot : Nat) (c : Ctx) : (s.setCtx slot c).gov = s.gov := rfl
@[simp] theorem State.setCtx_pkg (s : State) (slot : Nat) (c : Ctx) : (s.setCtx slot c).pkg = s.pkg := rfl
@[simp] theorem State.setCtx_nvm (s : State) (slot : Nat) (c : Ctx) : (s.setCtx slot c).nvm = s.nvm := rfl
@[simp] theorem State.setCtx_outbox (s : State) (slot : Nat) (c : Ctx) : (s.setCtx slot c).outbox = s.outbox := rfl
@[simp] theorem State.setCtx_inputs (s : State) (slot : Nat) (c : Ctx) : (s.setCtx slot c).inputs = s.inputs := rfl
@[simp] theorem State.setCtx_remoteWait (s : State) (slot : Nat) (c : Ctx) : (s.setCtx slot c).remoteWait = s.remoteWait := rfl
@[simp] theorem State.setCtx_pick (s : State) (slot : Nat) (c : Ctx) : (s.setCtx slot c).pick = s.pick := rfl
@[simp] theorem State.setCtx_recWaits (s : State) (slot : Nat) (c : Ctx) : (s.setCtx slot c).recWaits = s.recWaits := rfl
@[simp] theorem State.setCtx_remAsks (s : State) (slot : Nat) (c : Ctx) : (s.setCtx slot c).remAsks = s.remAsks := rfl
@[simp] theorem State.setCtx_replies (s : State) (slot : Nat) (c : Ctx) : (s.setCtx slot c).replies = s.replies := rfl
@[simp] theorem State.setCtx_gone (s : State) (slot : Nat) (c : Ctx) : (s.setCtx slot c).gone = s.gone := rfl
@[simp] theorem State.setCtx_cur (s : State) (slot : Nat) (c : Ctx) : (s.setCtx slot c).cur = s.cur := rfl
@[simp] theorem State.setCtx_nextId (s : State) (slot : Nat) (c : Ctx) : (s.setCtx slot c).nextId = s.nextId := rfl
@[simp] theorem State.setCtx_freeCtr (s : State) (slot : Nat) (c : Ctx) : (s.setCtx slot c).freeCtr = s.freeCtr := rfl

/-! ### `State.modCtx` -/

@[simp] theorem State.modCtx_cyc (s : State) (slot : Nat) (f : Ctx → Ctx) : (s.modCtx slot f).cyc = s.cyc := rfl
@[simp] theorem State.modCtx_cc (s : State) (slot : Nat) (f : Ctx → Ctx) : (s.modCtx slot f).cc = s.cc := rfl
@[simp] theorem State.modCtx_later (s : State) (slot : Nat) (f : Ctx → Ctx) : (s.modCtx slot f).later = s.later := rfl
@[simp] theorem State.modCtx_powered (s : State) (slot : Nat) (f : Ctx → Ctx) : (s.modCtx slot f).powered = s.powered := rfl
@[simp] theorem State.modCtx_mem (s : State) (slot : Nat) (f : Ctx → Ctx) : (s.modCtx slot f).mem = s.mem := rfl
@[simp] theorem State.modCtx_tags (s : State) (slot : Nat) (f : Ctx → Ctx) : (s.modCtx slot f).tags = s.tags := rfl
@[simp] theorem State.modCtx_poison (s : State) (slot : Nat) (f : Ctx → Ctx) : (s.modCtx slot f).poison = s.poison := rfl
@[simp] theorem State.modCtx_codeErrs (s : State) (slot : Nat) (f : Ctx → Ctx) : (s.modCtx slot f).codeErrs = s.codeErrs := rfl
@[simp] theorem State.modCtx_pend (s : State) (slot : Nat) (f : Ctx → Ctx) : (s.modCtx slot f).pend = s.pend := rfl
@[simp] theorem State.modCtx_revokes (s : State) (slot : Nat) (f : Ctx → Ctx) : (s.modCtx slot f).revokes = s.revokes := rfl
@[simp] theorem State.modCtx_l1 (s : State) (slot : Nat) (f : Ctx → Ctx) : (s.modCtx slot f).l1 = s.l1 := rfl
@[simp] theorem State.modCtx_l1Rights (s : State) (slot : Nat) (f : Ctx → Ctx) : (s.modCtx slot f).l1Rights = s.l1Rights := rfl
@[simp] theorem State.modCtx_owners (s : State) (slot : Nat) (f : Ctx → Ctx) : (s.modCtx slot f).owners = s.owners := rfl
@[simp] theorem State.modCtx_lines (s : State) (slot : Nat) (f : Ctx → Ctx) : (s.modCtx slot f).lines = s.lines := rfl
@[simp] theorem State.modCtx_remote (s : State) (slot : Nat) (f : Ctx → Ctx) : (s.modCtx slot f).remote = s.remote := rfl
@[simp] theorem State.modCtx_tlb (s : State) (slot : Nat) (f : Ctx → Ctx) : (s.modCtx slot f).tlb = s.tlb := rfl
@[simp] theorem State.modCtx_walks (s : State) (slot : Nat) (f : Ctx → Ctx) : (s.modCtx slot f).walks = s.walks := rfl
@[simp] theorem State.modCtx_frames (s : State) (slot : Nat) (f : Ctx → Ctx) : (s.modCtx slot f).frames = s.frames := rfl
@[simp] theorem State.modCtx_ats (s : State) (slot : Nat) (f : Ctx → Ctx) : (s.modCtx slot f).ats = s.ats := rfl
@[simp] theorem State.modCtx_counters (s : State) (slot : Nat) (f : Ctx → Ctx) : (s.modCtx slot f).counters = s.counters := rfl
@[simp] theorem State.modCtx_scrubPos (s : State) (slot : Nat) (f : Ctx → Ctx) : (s.modCtx slot f).scrubPos = s.scrubPos := rfl
@[simp] theorem State.modCtx_scrubPasses (s : State) (slot : Nat) (f : Ctx → Ctx) : (s.modCtx slot f).scrubPasses = s.scrubPasses := rfl
@[simp] theorem State.modCtx_cores (s : State) (slot : Nat) (f : Ctx → Ctx) : (s.modCtx slot f).cores = s.cores := rfl
@[simp] theorem State.modCtx_clusters (s : State) (slot : Nat) (f : Ctx → Ctx) : (s.modCtx slot f).clusters = s.clusters := rfl
@[simp] theorem State.modCtx_saved (s : State) (slot : Nat) (f : Ctx → Ctx) : (s.modCtx slot f).saved = s.saved := rfl
@[simp] theorem State.modCtx_teams (s : State) (slot : Nat) (f : Ctx → Ctx) : (s.modCtx slot f).teams = s.teams := rfl
@[simp] theorem State.modCtx_grids (s : State) (slot : Nat) (f : Ctx → Ctx) : (s.modCtx slot f).grids = s.grids := rfl
@[simp] theorem State.modCtx_arrivals (s : State) (slot : Nat) (f : Ctx → Ctx) : (s.modCtx slot f).arrivals = s.arrivals := rfl
@[simp] theorem State.modCtx_loads (s : State) (slot : Nat) (f : Ctx → Ctx) : (s.modCtx slot f).loads = s.loads := rfl
@[simp] theorem State.modCtx_chans (s : State) (slot : Nat) (f : Ctx → Ctx) : (s.modCtx slot f).chans = s.chans := rfl
@[simp] theorem State.modCtx_tagUses (s : State) (slot : Nat) (f : Ctx → Ctx) : (s.modCtx slot f).tagUses = s.tagUses := rfl
@[simp] theorem State.modCtx_migCounts (s : State) (slot : Nat) (f : Ctx → Ctx) : (s.modCtx slot f).migCounts = s.migCounts := rfl
@[simp] theorem State.modCtx_moves (s : State) (slot : Nat) (f : Ctx → Ctx) : (s.modCtx slot f).moves = s.moves := rfl
@[simp] theorem State.modCtx_prices (s : State) (slot : Nat) (f : Ctx → Ctx) : (s.modCtx slot f).prices = s.prices := rfl
@[simp] theorem State.modCtx_islands (s : State) (slot : Nat) (f : Ctx → Ctx) : (s.modCtx slot f).islands = s.islands := rfl
@[simp] theorem State.modCtx_gov (s : State) (slot : Nat) (f : Ctx → Ctx) : (s.modCtx slot f).gov = s.gov := rfl
@[simp] theorem State.modCtx_pkg (s : State) (slot : Nat) (f : Ctx → Ctx) : (s.modCtx slot f).pkg = s.pkg := rfl
@[simp] theorem State.modCtx_nvm (s : State) (slot : Nat) (f : Ctx → Ctx) : (s.modCtx slot f).nvm = s.nvm := rfl
@[simp] theorem State.modCtx_outbox (s : State) (slot : Nat) (f : Ctx → Ctx) : (s.modCtx slot f).outbox = s.outbox := rfl
@[simp] theorem State.modCtx_inputs (s : State) (slot : Nat) (f : Ctx → Ctx) : (s.modCtx slot f).inputs = s.inputs := rfl
@[simp] theorem State.modCtx_remoteWait (s : State) (slot : Nat) (f : Ctx → Ctx) : (s.modCtx slot f).remoteWait = s.remoteWait := rfl
@[simp] theorem State.modCtx_pick (s : State) (slot : Nat) (f : Ctx → Ctx) : (s.modCtx slot f).pick = s.pick := rfl
@[simp] theorem State.modCtx_recWaits (s : State) (slot : Nat) (f : Ctx → Ctx) : (s.modCtx slot f).recWaits = s.recWaits := rfl
@[simp] theorem State.modCtx_remAsks (s : State) (slot : Nat) (f : Ctx → Ctx) : (s.modCtx slot f).remAsks = s.remAsks := rfl
@[simp] theorem State.modCtx_replies (s : State) (slot : Nat) (f : Ctx → Ctx) : (s.modCtx slot f).replies = s.replies := rfl
@[simp] theorem State.modCtx_gone (s : State) (slot : Nat) (f : Ctx → Ctx) : (s.modCtx slot f).gone = s.gone := rfl
@[simp] theorem State.modCtx_cur (s : State) (slot : Nat) (f : Ctx → Ctx) : (s.modCtx slot f).cur = s.cur := rfl
@[simp] theorem State.modCtx_nextId (s : State) (slot : Nat) (f : Ctx → Ctx) : (s.modCtx slot f).nextId = s.nextId := rfl
@[simp] theorem State.modCtx_freeCtr (s : State) (slot : Nat) (f : Ctx → Ctx) : (s.modCtx slot f).freeCtr = s.freeCtr := rfl

/-! ### `State.putCore` -/

@[simp] theorem State.putCore_cyc (s : State) (k : Nat) (c : Core) : (s.putCore k c).cyc = s.cyc := rfl
@[simp] theorem State.putCore_cc (s : State) (k : Nat) (c : Core) : (s.putCore k c).cc = s.cc := rfl
@[simp] theorem State.putCore_later (s : State) (k : Nat) (c : Core) : (s.putCore k c).later = s.later := rfl
@[simp] theorem State.putCore_powered (s : State) (k : Nat) (c : Core) : (s.putCore k c).powered = s.powered := rfl
@[simp] theorem State.putCore_mem (s : State) (k : Nat) (c : Core) : (s.putCore k c).mem = s.mem := rfl
@[simp] theorem State.putCore_tags (s : State) (k : Nat) (c : Core) : (s.putCore k c).tags = s.tags := rfl
@[simp] theorem State.putCore_poison (s : State) (k : Nat) (c : Core) : (s.putCore k c).poison = s.poison := rfl
@[simp] theorem State.putCore_codeErrs (s : State) (k : Nat) (c : Core) : (s.putCore k c).codeErrs = s.codeErrs := rfl
@[simp] theorem State.putCore_pend (s : State) (k : Nat) (c : Core) : (s.putCore k c).pend = s.pend := rfl
@[simp] theorem State.putCore_revokes (s : State) (k : Nat) (c : Core) : (s.putCore k c).revokes = s.revokes := rfl
@[simp] theorem State.putCore_l1 (s : State) (k : Nat) (c : Core) : (s.putCore k c).l1 = s.l1 := rfl
@[simp] theorem State.putCore_l1Rights (s : State) (k : Nat) (c : Core) : (s.putCore k c).l1Rights = s.l1Rights := rfl
@[simp] theorem State.putCore_owners (s : State) (k : Nat) (c : Core) : (s.putCore k c).owners = s.owners := rfl
@[simp] theorem State.putCore_lines (s : State) (k : Nat) (c : Core) : (s.putCore k c).lines = s.lines := rfl
@[simp] theorem State.putCore_remote (s : State) (k : Nat) (c : Core) : (s.putCore k c).remote = s.remote := rfl
@[simp] theorem State.putCore_tlb (s : State) (k : Nat) (c : Core) : (s.putCore k c).tlb = s.tlb := rfl
@[simp] theorem State.putCore_walks (s : State) (k : Nat) (c : Core) : (s.putCore k c).walks = s.walks := rfl
@[simp] theorem State.putCore_frames (s : State) (k : Nat) (c : Core) : (s.putCore k c).frames = s.frames := rfl
@[simp] theorem State.putCore_ats (s : State) (k : Nat) (c : Core) : (s.putCore k c).ats = s.ats := rfl
@[simp] theorem State.putCore_counters (s : State) (k : Nat) (c : Core) : (s.putCore k c).counters = s.counters := rfl
@[simp] theorem State.putCore_scrubPos (s : State) (k : Nat) (c : Core) : (s.putCore k c).scrubPos = s.scrubPos := rfl
@[simp] theorem State.putCore_scrubPasses (s : State) (k : Nat) (c : Core) : (s.putCore k c).scrubPasses = s.scrubPasses := rfl
@[simp] theorem State.putCore_clusters (s : State) (k : Nat) (c : Core) : (s.putCore k c).clusters = s.clusters := rfl
@[simp] theorem State.putCore_ctxs (s : State) (k : Nat) (c : Core) : (s.putCore k c).ctxs = s.ctxs := rfl
@[simp] theorem State.putCore_saved (s : State) (k : Nat) (c : Core) : (s.putCore k c).saved = s.saved := rfl
@[simp] theorem State.putCore_teams (s : State) (k : Nat) (c : Core) : (s.putCore k c).teams = s.teams := rfl
@[simp] theorem State.putCore_grids (s : State) (k : Nat) (c : Core) : (s.putCore k c).grids = s.grids := rfl
@[simp] theorem State.putCore_arrivals (s : State) (k : Nat) (c : Core) : (s.putCore k c).arrivals = s.arrivals := rfl
@[simp] theorem State.putCore_loads (s : State) (k : Nat) (c : Core) : (s.putCore k c).loads = s.loads := rfl
@[simp] theorem State.putCore_chans (s : State) (k : Nat) (c : Core) : (s.putCore k c).chans = s.chans := rfl
@[simp] theorem State.putCore_tagUses (s : State) (k : Nat) (c : Core) : (s.putCore k c).tagUses = s.tagUses := rfl
@[simp] theorem State.putCore_migCounts (s : State) (k : Nat) (c : Core) : (s.putCore k c).migCounts = s.migCounts := rfl
@[simp] theorem State.putCore_moves (s : State) (k : Nat) (c : Core) : (s.putCore k c).moves = s.moves := rfl
@[simp] theorem State.putCore_prices (s : State) (k : Nat) (c : Core) : (s.putCore k c).prices = s.prices := rfl
@[simp] theorem State.putCore_islands (s : State) (k : Nat) (c : Core) : (s.putCore k c).islands = s.islands := rfl
@[simp] theorem State.putCore_gov (s : State) (k : Nat) (c : Core) : (s.putCore k c).gov = s.gov := rfl
@[simp] theorem State.putCore_pkg (s : State) (k : Nat) (c : Core) : (s.putCore k c).pkg = s.pkg := rfl
@[simp] theorem State.putCore_nvm (s : State) (k : Nat) (c : Core) : (s.putCore k c).nvm = s.nvm := rfl
@[simp] theorem State.putCore_outbox (s : State) (k : Nat) (c : Core) : (s.putCore k c).outbox = s.outbox := rfl
@[simp] theorem State.putCore_inputs (s : State) (k : Nat) (c : Core) : (s.putCore k c).inputs = s.inputs := rfl
@[simp] theorem State.putCore_remoteWait (s : State) (k : Nat) (c : Core) : (s.putCore k c).remoteWait = s.remoteWait := rfl
@[simp] theorem State.putCore_pick (s : State) (k : Nat) (c : Core) : (s.putCore k c).pick = s.pick := rfl
@[simp] theorem State.putCore_recWaits (s : State) (k : Nat) (c : Core) : (s.putCore k c).recWaits = s.recWaits := rfl
@[simp] theorem State.putCore_remAsks (s : State) (k : Nat) (c : Core) : (s.putCore k c).remAsks = s.remAsks := rfl
@[simp] theorem State.putCore_replies (s : State) (k : Nat) (c : Core) : (s.putCore k c).replies = s.replies := rfl
@[simp] theorem State.putCore_gone (s : State) (k : Nat) (c : Core) : (s.putCore k c).gone = s.gone := rfl
@[simp] theorem State.putCore_cur (s : State) (k : Nat) (c : Core) : (s.putCore k c).cur = s.cur := rfl
@[simp] theorem State.putCore_nextId (s : State) (k : Nat) (c : Core) : (s.putCore k c).nextId = s.nextId := rfl
@[simp] theorem State.putCore_freeCtr (s : State) (k : Nat) (c : Core) : (s.putCore k c).freeCtr = s.freeCtr := rfl

/-! ### `State.putCluster` -/

@[simp] theorem State.putCluster_cyc (s : State) (k : Nat) (c : Cluster) : (s.putCluster k c).cyc = s.cyc := rfl
@[simp] theorem State.putCluster_cc (s : State) (k : Nat) (c : Cluster) : (s.putCluster k c).cc = s.cc := rfl
@[simp] theorem State.putCluster_later (s : State) (k : Nat) (c : Cluster) : (s.putCluster k c).later = s.later := rfl
@[simp] theorem State.putCluster_powered (s : State) (k : Nat) (c : Cluster) : (s.putCluster k c).powered = s.powered := rfl
@[simp] theorem State.putCluster_mem (s : State) (k : Nat) (c : Cluster) : (s.putCluster k c).mem = s.mem := rfl
@[simp] theorem State.putCluster_tags (s : State) (k : Nat) (c : Cluster) : (s.putCluster k c).tags = s.tags := rfl
@[simp] theorem State.putCluster_poison (s : State) (k : Nat) (c : Cluster) : (s.putCluster k c).poison = s.poison := rfl
@[simp] theorem State.putCluster_codeErrs (s : State) (k : Nat) (c : Cluster) : (s.putCluster k c).codeErrs = s.codeErrs := rfl
@[simp] theorem State.putCluster_pend (s : State) (k : Nat) (c : Cluster) : (s.putCluster k c).pend = s.pend := rfl
@[simp] theorem State.putCluster_revokes (s : State) (k : Nat) (c : Cluster) : (s.putCluster k c).revokes = s.revokes := rfl
@[simp] theorem State.putCluster_l1 (s : State) (k : Nat) (c : Cluster) : (s.putCluster k c).l1 = s.l1 := rfl
@[simp] theorem State.putCluster_l1Rights (s : State) (k : Nat) (c : Cluster) : (s.putCluster k c).l1Rights = s.l1Rights := rfl
@[simp] theorem State.putCluster_owners (s : State) (k : Nat) (c : Cluster) : (s.putCluster k c).owners = s.owners := rfl
@[simp] theorem State.putCluster_lines (s : State) (k : Nat) (c : Cluster) : (s.putCluster k c).lines = s.lines := rfl
@[simp] theorem State.putCluster_remote (s : State) (k : Nat) (c : Cluster) : (s.putCluster k c).remote = s.remote := rfl
@[simp] theorem State.putCluster_tlb (s : State) (k : Nat) (c : Cluster) : (s.putCluster k c).tlb = s.tlb := rfl
@[simp] theorem State.putCluster_walks (s : State) (k : Nat) (c : Cluster) : (s.putCluster k c).walks = s.walks := rfl
@[simp] theorem State.putCluster_frames (s : State) (k : Nat) (c : Cluster) : (s.putCluster k c).frames = s.frames := rfl
@[simp] theorem State.putCluster_ats (s : State) (k : Nat) (c : Cluster) : (s.putCluster k c).ats = s.ats := rfl
@[simp] theorem State.putCluster_counters (s : State) (k : Nat) (c : Cluster) : (s.putCluster k c).counters = s.counters := rfl
@[simp] theorem State.putCluster_scrubPos (s : State) (k : Nat) (c : Cluster) : (s.putCluster k c).scrubPos = s.scrubPos := rfl
@[simp] theorem State.putCluster_scrubPasses (s : State) (k : Nat) (c : Cluster) : (s.putCluster k c).scrubPasses = s.scrubPasses := rfl
@[simp] theorem State.putCluster_cores (s : State) (k : Nat) (c : Cluster) : (s.putCluster k c).cores = s.cores := rfl
@[simp] theorem State.putCluster_ctxs (s : State) (k : Nat) (c : Cluster) : (s.putCluster k c).ctxs = s.ctxs := rfl
@[simp] theorem State.putCluster_saved (s : State) (k : Nat) (c : Cluster) : (s.putCluster k c).saved = s.saved := rfl
@[simp] theorem State.putCluster_teams (s : State) (k : Nat) (c : Cluster) : (s.putCluster k c).teams = s.teams := rfl
@[simp] theorem State.putCluster_grids (s : State) (k : Nat) (c : Cluster) : (s.putCluster k c).grids = s.grids := rfl
@[simp] theorem State.putCluster_arrivals (s : State) (k : Nat) (c : Cluster) : (s.putCluster k c).arrivals = s.arrivals := rfl
@[simp] theorem State.putCluster_loads (s : State) (k : Nat) (c : Cluster) : (s.putCluster k c).loads = s.loads := rfl
@[simp] theorem State.putCluster_chans (s : State) (k : Nat) (c : Cluster) : (s.putCluster k c).chans = s.chans := rfl
@[simp] theorem State.putCluster_tagUses (s : State) (k : Nat) (c : Cluster) : (s.putCluster k c).tagUses = s.tagUses := rfl
@[simp] theorem State.putCluster_migCounts (s : State) (k : Nat) (c : Cluster) : (s.putCluster k c).migCounts = s.migCounts := rfl
@[simp] theorem State.putCluster_moves (s : State) (k : Nat) (c : Cluster) : (s.putCluster k c).moves = s.moves := rfl
@[simp] theorem State.putCluster_prices (s : State) (k : Nat) (c : Cluster) : (s.putCluster k c).prices = s.prices := rfl
@[simp] theorem State.putCluster_islands (s : State) (k : Nat) (c : Cluster) : (s.putCluster k c).islands = s.islands := rfl
@[simp] theorem State.putCluster_gov (s : State) (k : Nat) (c : Cluster) : (s.putCluster k c).gov = s.gov := rfl
@[simp] theorem State.putCluster_pkg (s : State) (k : Nat) (c : Cluster) : (s.putCluster k c).pkg = s.pkg := rfl
@[simp] theorem State.putCluster_nvm (s : State) (k : Nat) (c : Cluster) : (s.putCluster k c).nvm = s.nvm := rfl
@[simp] theorem State.putCluster_outbox (s : State) (k : Nat) (c : Cluster) : (s.putCluster k c).outbox = s.outbox := rfl
@[simp] theorem State.putCluster_inputs (s : State) (k : Nat) (c : Cluster) : (s.putCluster k c).inputs = s.inputs := rfl
@[simp] theorem State.putCluster_remoteWait (s : State) (k : Nat) (c : Cluster) : (s.putCluster k c).remoteWait = s.remoteWait := rfl
@[simp] theorem State.putCluster_pick (s : State) (k : Nat) (c : Cluster) : (s.putCluster k c).pick = s.pick := rfl
@[simp] theorem State.putCluster_recWaits (s : State) (k : Nat) (c : Cluster) : (s.putCluster k c).recWaits = s.recWaits := rfl
@[simp] theorem State.putCluster_remAsks (s : State) (k : Nat) (c : Cluster) : (s.putCluster k c).remAsks = s.remAsks := rfl
@[simp] theorem State.putCluster_replies (s : State) (k : Nat) (c : Cluster) : (s.putCluster k c).replies = s.replies := rfl
@[simp] theorem State.putCluster_gone (s : State) (k : Nat) (c : Cluster) : (s.putCluster k c).gone = s.gone := rfl
@[simp] theorem State.putCluster_cur (s : State) (k : Nat) (c : Cluster) : (s.putCluster k c).cur = s.cur := rfl
@[simp] theorem State.putCluster_nextId (s : State) (k : Nat) (c : Cluster) : (s.putCluster k c).nextId = s.nextId := rfl
@[simp] theorem State.putCluster_freeCtr (s : State) (k : Nat) (c : Cluster) : (s.putCluster k c).freeCtr = s.freeCtr := rfl

/-! ### `State.modTeam` -/

@[simp] theorem State.modTeam_cyc (s : State) (uid : Nat) (f : Team → Team) : (s.modTeam uid f).cyc = s.cyc := rfl
@[simp] theorem State.modTeam_cc (s : State) (uid : Nat) (f : Team → Team) : (s.modTeam uid f).cc = s.cc := rfl
@[simp] theorem State.modTeam_later (s : State) (uid : Nat) (f : Team → Team) : (s.modTeam uid f).later = s.later := rfl
@[simp] theorem State.modTeam_powered (s : State) (uid : Nat) (f : Team → Team) : (s.modTeam uid f).powered = s.powered := rfl
@[simp] theorem State.modTeam_mem (s : State) (uid : Nat) (f : Team → Team) : (s.modTeam uid f).mem = s.mem := rfl
@[simp] theorem State.modTeam_tags (s : State) (uid : Nat) (f : Team → Team) : (s.modTeam uid f).tags = s.tags := rfl
@[simp] theorem State.modTeam_poison (s : State) (uid : Nat) (f : Team → Team) : (s.modTeam uid f).poison = s.poison := rfl
@[simp] theorem State.modTeam_codeErrs (s : State) (uid : Nat) (f : Team → Team) : (s.modTeam uid f).codeErrs = s.codeErrs := rfl
@[simp] theorem State.modTeam_pend (s : State) (uid : Nat) (f : Team → Team) : (s.modTeam uid f).pend = s.pend := rfl
@[simp] theorem State.modTeam_revokes (s : State) (uid : Nat) (f : Team → Team) : (s.modTeam uid f).revokes = s.revokes := rfl
@[simp] theorem State.modTeam_l1 (s : State) (uid : Nat) (f : Team → Team) : (s.modTeam uid f).l1 = s.l1 := rfl
@[simp] theorem State.modTeam_l1Rights (s : State) (uid : Nat) (f : Team → Team) : (s.modTeam uid f).l1Rights = s.l1Rights := rfl
@[simp] theorem State.modTeam_owners (s : State) (uid : Nat) (f : Team → Team) : (s.modTeam uid f).owners = s.owners := rfl
@[simp] theorem State.modTeam_lines (s : State) (uid : Nat) (f : Team → Team) : (s.modTeam uid f).lines = s.lines := rfl
@[simp] theorem State.modTeam_remote (s : State) (uid : Nat) (f : Team → Team) : (s.modTeam uid f).remote = s.remote := rfl
@[simp] theorem State.modTeam_tlb (s : State) (uid : Nat) (f : Team → Team) : (s.modTeam uid f).tlb = s.tlb := rfl
@[simp] theorem State.modTeam_walks (s : State) (uid : Nat) (f : Team → Team) : (s.modTeam uid f).walks = s.walks := rfl
@[simp] theorem State.modTeam_frames (s : State) (uid : Nat) (f : Team → Team) : (s.modTeam uid f).frames = s.frames := rfl
@[simp] theorem State.modTeam_ats (s : State) (uid : Nat) (f : Team → Team) : (s.modTeam uid f).ats = s.ats := rfl
@[simp] theorem State.modTeam_counters (s : State) (uid : Nat) (f : Team → Team) : (s.modTeam uid f).counters = s.counters := rfl
@[simp] theorem State.modTeam_scrubPos (s : State) (uid : Nat) (f : Team → Team) : (s.modTeam uid f).scrubPos = s.scrubPos := rfl
@[simp] theorem State.modTeam_scrubPasses (s : State) (uid : Nat) (f : Team → Team) : (s.modTeam uid f).scrubPasses = s.scrubPasses := rfl
@[simp] theorem State.modTeam_cores (s : State) (uid : Nat) (f : Team → Team) : (s.modTeam uid f).cores = s.cores := rfl
@[simp] theorem State.modTeam_clusters (s : State) (uid : Nat) (f : Team → Team) : (s.modTeam uid f).clusters = s.clusters := rfl
@[simp] theorem State.modTeam_ctxs (s : State) (uid : Nat) (f : Team → Team) : (s.modTeam uid f).ctxs = s.ctxs := rfl
@[simp] theorem State.modTeam_saved (s : State) (uid : Nat) (f : Team → Team) : (s.modTeam uid f).saved = s.saved := rfl
@[simp] theorem State.modTeam_grids (s : State) (uid : Nat) (f : Team → Team) : (s.modTeam uid f).grids = s.grids := rfl
@[simp] theorem State.modTeam_arrivals (s : State) (uid : Nat) (f : Team → Team) : (s.modTeam uid f).arrivals = s.arrivals := rfl
@[simp] theorem State.modTeam_loads (s : State) (uid : Nat) (f : Team → Team) : (s.modTeam uid f).loads = s.loads := rfl
@[simp] theorem State.modTeam_chans (s : State) (uid : Nat) (f : Team → Team) : (s.modTeam uid f).chans = s.chans := rfl
@[simp] theorem State.modTeam_tagUses (s : State) (uid : Nat) (f : Team → Team) : (s.modTeam uid f).tagUses = s.tagUses := rfl
@[simp] theorem State.modTeam_migCounts (s : State) (uid : Nat) (f : Team → Team) : (s.modTeam uid f).migCounts = s.migCounts := rfl
@[simp] theorem State.modTeam_moves (s : State) (uid : Nat) (f : Team → Team) : (s.modTeam uid f).moves = s.moves := rfl
@[simp] theorem State.modTeam_prices (s : State) (uid : Nat) (f : Team → Team) : (s.modTeam uid f).prices = s.prices := rfl
@[simp] theorem State.modTeam_islands (s : State) (uid : Nat) (f : Team → Team) : (s.modTeam uid f).islands = s.islands := rfl
@[simp] theorem State.modTeam_gov (s : State) (uid : Nat) (f : Team → Team) : (s.modTeam uid f).gov = s.gov := rfl
@[simp] theorem State.modTeam_pkg (s : State) (uid : Nat) (f : Team → Team) : (s.modTeam uid f).pkg = s.pkg := rfl
@[simp] theorem State.modTeam_nvm (s : State) (uid : Nat) (f : Team → Team) : (s.modTeam uid f).nvm = s.nvm := rfl
@[simp] theorem State.modTeam_outbox (s : State) (uid : Nat) (f : Team → Team) : (s.modTeam uid f).outbox = s.outbox := rfl
@[simp] theorem State.modTeam_inputs (s : State) (uid : Nat) (f : Team → Team) : (s.modTeam uid f).inputs = s.inputs := rfl
@[simp] theorem State.modTeam_remoteWait (s : State) (uid : Nat) (f : Team → Team) : (s.modTeam uid f).remoteWait = s.remoteWait := rfl
@[simp] theorem State.modTeam_pick (s : State) (uid : Nat) (f : Team → Team) : (s.modTeam uid f).pick = s.pick := rfl
@[simp] theorem State.modTeam_recWaits (s : State) (uid : Nat) (f : Team → Team) : (s.modTeam uid f).recWaits = s.recWaits := rfl
@[simp] theorem State.modTeam_remAsks (s : State) (uid : Nat) (f : Team → Team) : (s.modTeam uid f).remAsks = s.remAsks := rfl
@[simp] theorem State.modTeam_replies (s : State) (uid : Nat) (f : Team → Team) : (s.modTeam uid f).replies = s.replies := rfl
@[simp] theorem State.modTeam_gone (s : State) (uid : Nat) (f : Team → Team) : (s.modTeam uid f).gone = s.gone := rfl
@[simp] theorem State.modTeam_cur (s : State) (uid : Nat) (f : Team → Team) : (s.modTeam uid f).cur = s.cur := rfl
@[simp] theorem State.modTeam_nextId (s : State) (uid : Nat) (f : Team → Team) : (s.modTeam uid f).nextId = s.nextId := rfl
@[simp] theorem State.modTeam_freeCtr (s : State) (uid : Nat) (f : Team → Team) : (s.modTeam uid f).freeCtr = s.freeCtr := rfl

/-! ### `State.putTeam` -/

@[simp] theorem State.putTeam_cyc (s : State) (t : Team) : (s.putTeam t).cyc = s.cyc := rfl
@[simp] theorem State.putTeam_cc (s : State) (t : Team) : (s.putTeam t).cc = s.cc := rfl
@[simp] theorem State.putTeam_later (s : State) (t : Team) : (s.putTeam t).later = s.later := rfl
@[simp] theorem State.putTeam_powered (s : State) (t : Team) : (s.putTeam t).powered = s.powered := rfl
@[simp] theorem State.putTeam_mem (s : State) (t : Team) : (s.putTeam t).mem = s.mem := rfl
@[simp] theorem State.putTeam_tags (s : State) (t : Team) : (s.putTeam t).tags = s.tags := rfl
@[simp] theorem State.putTeam_poison (s : State) (t : Team) : (s.putTeam t).poison = s.poison := rfl
@[simp] theorem State.putTeam_codeErrs (s : State) (t : Team) : (s.putTeam t).codeErrs = s.codeErrs := rfl
@[simp] theorem State.putTeam_pend (s : State) (t : Team) : (s.putTeam t).pend = s.pend := rfl
@[simp] theorem State.putTeam_revokes (s : State) (t : Team) : (s.putTeam t).revokes = s.revokes := rfl
@[simp] theorem State.putTeam_l1 (s : State) (t : Team) : (s.putTeam t).l1 = s.l1 := rfl
@[simp] theorem State.putTeam_l1Rights (s : State) (t : Team) : (s.putTeam t).l1Rights = s.l1Rights := rfl
@[simp] theorem State.putTeam_owners (s : State) (t : Team) : (s.putTeam t).owners = s.owners := rfl
@[simp] theorem State.putTeam_lines (s : State) (t : Team) : (s.putTeam t).lines = s.lines := rfl
@[simp] theorem State.putTeam_remote (s : State) (t : Team) : (s.putTeam t).remote = s.remote := rfl
@[simp] theorem State.putTeam_tlb (s : State) (t : Team) : (s.putTeam t).tlb = s.tlb := rfl
@[simp] theorem State.putTeam_walks (s : State) (t : Team) : (s.putTeam t).walks = s.walks := rfl
@[simp] theorem State.putTeam_frames (s : State) (t : Team) : (s.putTeam t).frames = s.frames := rfl
@[simp] theorem State.putTeam_ats (s : State) (t : Team) : (s.putTeam t).ats = s.ats := rfl
@[simp] theorem State.putTeam_counters (s : State) (t : Team) : (s.putTeam t).counters = s.counters := rfl
@[simp] theorem State.putTeam_scrubPos (s : State) (t : Team) : (s.putTeam t).scrubPos = s.scrubPos := rfl
@[simp] theorem State.putTeam_scrubPasses (s : State) (t : Team) : (s.putTeam t).scrubPasses = s.scrubPasses := rfl
@[simp] theorem State.putTeam_cores (s : State) (t : Team) : (s.putTeam t).cores = s.cores := rfl
@[simp] theorem State.putTeam_clusters (s : State) (t : Team) : (s.putTeam t).clusters = s.clusters := rfl
@[simp] theorem State.putTeam_ctxs (s : State) (t : Team) : (s.putTeam t).ctxs = s.ctxs := rfl
@[simp] theorem State.putTeam_saved (s : State) (t : Team) : (s.putTeam t).saved = s.saved := rfl
@[simp] theorem State.putTeam_grids (s : State) (t : Team) : (s.putTeam t).grids = s.grids := rfl
@[simp] theorem State.putTeam_arrivals (s : State) (t : Team) : (s.putTeam t).arrivals = s.arrivals := rfl
@[simp] theorem State.putTeam_loads (s : State) (t : Team) : (s.putTeam t).loads = s.loads := rfl
@[simp] theorem State.putTeam_chans (s : State) (t : Team) : (s.putTeam t).chans = s.chans := rfl
@[simp] theorem State.putTeam_tagUses (s : State) (t : Team) : (s.putTeam t).tagUses = s.tagUses := rfl
@[simp] theorem State.putTeam_migCounts (s : State) (t : Team) : (s.putTeam t).migCounts = s.migCounts := rfl
@[simp] theorem State.putTeam_moves (s : State) (t : Team) : (s.putTeam t).moves = s.moves := rfl
@[simp] theorem State.putTeam_prices (s : State) (t : Team) : (s.putTeam t).prices = s.prices := rfl
@[simp] theorem State.putTeam_islands (s : State) (t : Team) : (s.putTeam t).islands = s.islands := rfl
@[simp] theorem State.putTeam_gov (s : State) (t : Team) : (s.putTeam t).gov = s.gov := rfl
@[simp] theorem State.putTeam_pkg (s : State) (t : Team) : (s.putTeam t).pkg = s.pkg := rfl
@[simp] theorem State.putTeam_nvm (s : State) (t : Team) : (s.putTeam t).nvm = s.nvm := rfl
@[simp] theorem State.putTeam_outbox (s : State) (t : Team) : (s.putTeam t).outbox = s.outbox := rfl
@[simp] theorem State.putTeam_inputs (s : State) (t : Team) : (s.putTeam t).inputs = s.inputs := rfl
@[simp] theorem State.putTeam_remoteWait (s : State) (t : Team) : (s.putTeam t).remoteWait = s.remoteWait := rfl
@[simp] theorem State.putTeam_pick (s : State) (t : Team) : (s.putTeam t).pick = s.pick := rfl
@[simp] theorem State.putTeam_recWaits (s : State) (t : Team) : (s.putTeam t).recWaits = s.recWaits := rfl
@[simp] theorem State.putTeam_remAsks (s : State) (t : Team) : (s.putTeam t).remAsks = s.remAsks := rfl
@[simp] theorem State.putTeam_replies (s : State) (t : Team) : (s.putTeam t).replies = s.replies := rfl
@[simp] theorem State.putTeam_gone (s : State) (t : Team) : (s.putTeam t).gone = s.gone := rfl
@[simp] theorem State.putTeam_cur (s : State) (t : Team) : (s.putTeam t).cur = s.cur := rfl
@[simp] theorem State.putTeam_nextId (s : State) (t : Team) : (s.putTeam t).nextId = s.nextId := rfl
@[simp] theorem State.putTeam_freeCtr (s : State) (t : Team) : (s.putTeam t).freeCtr = s.freeCtr := rfl

/-! ### `State.modGrid` -/

@[simp] theorem State.modGrid_cyc (s : State) (gid : Nat) (f : Grid → Grid) : (s.modGrid gid f).cyc = s.cyc := rfl
@[simp] theorem State.modGrid_cc (s : State) (gid : Nat) (f : Grid → Grid) : (s.modGrid gid f).cc = s.cc := rfl
@[simp] theorem State.modGrid_later (s : State) (gid : Nat) (f : Grid → Grid) : (s.modGrid gid f).later = s.later := rfl
@[simp] theorem State.modGrid_powered (s : State) (gid : Nat) (f : Grid → Grid) : (s.modGrid gid f).powered = s.powered := rfl
@[simp] theorem State.modGrid_mem (s : State) (gid : Nat) (f : Grid → Grid) : (s.modGrid gid f).mem = s.mem := rfl
@[simp] theorem State.modGrid_tags (s : State) (gid : Nat) (f : Grid → Grid) : (s.modGrid gid f).tags = s.tags := rfl
@[simp] theorem State.modGrid_poison (s : State) (gid : Nat) (f : Grid → Grid) : (s.modGrid gid f).poison = s.poison := rfl
@[simp] theorem State.modGrid_codeErrs (s : State) (gid : Nat) (f : Grid → Grid) : (s.modGrid gid f).codeErrs = s.codeErrs := rfl
@[simp] theorem State.modGrid_pend (s : State) (gid : Nat) (f : Grid → Grid) : (s.modGrid gid f).pend = s.pend := rfl
@[simp] theorem State.modGrid_revokes (s : State) (gid : Nat) (f : Grid → Grid) : (s.modGrid gid f).revokes = s.revokes := rfl
@[simp] theorem State.modGrid_l1 (s : State) (gid : Nat) (f : Grid → Grid) : (s.modGrid gid f).l1 = s.l1 := rfl
@[simp] theorem State.modGrid_l1Rights (s : State) (gid : Nat) (f : Grid → Grid) : (s.modGrid gid f).l1Rights = s.l1Rights := rfl
@[simp] theorem State.modGrid_owners (s : State) (gid : Nat) (f : Grid → Grid) : (s.modGrid gid f).owners = s.owners := rfl
@[simp] theorem State.modGrid_lines (s : State) (gid : Nat) (f : Grid → Grid) : (s.modGrid gid f).lines = s.lines := rfl
@[simp] theorem State.modGrid_remote (s : State) (gid : Nat) (f : Grid → Grid) : (s.modGrid gid f).remote = s.remote := rfl
@[simp] theorem State.modGrid_tlb (s : State) (gid : Nat) (f : Grid → Grid) : (s.modGrid gid f).tlb = s.tlb := rfl
@[simp] theorem State.modGrid_walks (s : State) (gid : Nat) (f : Grid → Grid) : (s.modGrid gid f).walks = s.walks := rfl
@[simp] theorem State.modGrid_frames (s : State) (gid : Nat) (f : Grid → Grid) : (s.modGrid gid f).frames = s.frames := rfl
@[simp] theorem State.modGrid_ats (s : State) (gid : Nat) (f : Grid → Grid) : (s.modGrid gid f).ats = s.ats := rfl
@[simp] theorem State.modGrid_counters (s : State) (gid : Nat) (f : Grid → Grid) : (s.modGrid gid f).counters = s.counters := rfl
@[simp] theorem State.modGrid_scrubPos (s : State) (gid : Nat) (f : Grid → Grid) : (s.modGrid gid f).scrubPos = s.scrubPos := rfl
@[simp] theorem State.modGrid_scrubPasses (s : State) (gid : Nat) (f : Grid → Grid) : (s.modGrid gid f).scrubPasses = s.scrubPasses := rfl
@[simp] theorem State.modGrid_cores (s : State) (gid : Nat) (f : Grid → Grid) : (s.modGrid gid f).cores = s.cores := rfl
@[simp] theorem State.modGrid_clusters (s : State) (gid : Nat) (f : Grid → Grid) : (s.modGrid gid f).clusters = s.clusters := rfl
@[simp] theorem State.modGrid_ctxs (s : State) (gid : Nat) (f : Grid → Grid) : (s.modGrid gid f).ctxs = s.ctxs := rfl
@[simp] theorem State.modGrid_saved (s : State) (gid : Nat) (f : Grid → Grid) : (s.modGrid gid f).saved = s.saved := rfl
@[simp] theorem State.modGrid_teams (s : State) (gid : Nat) (f : Grid → Grid) : (s.modGrid gid f).teams = s.teams := rfl
@[simp] theorem State.modGrid_arrivals (s : State) (gid : Nat) (f : Grid → Grid) : (s.modGrid gid f).arrivals = s.arrivals := rfl
@[simp] theorem State.modGrid_loads (s : State) (gid : Nat) (f : Grid → Grid) : (s.modGrid gid f).loads = s.loads := rfl
@[simp] theorem State.modGrid_chans (s : State) (gid : Nat) (f : Grid → Grid) : (s.modGrid gid f).chans = s.chans := rfl
@[simp] theorem State.modGrid_tagUses (s : State) (gid : Nat) (f : Grid → Grid) : (s.modGrid gid f).tagUses = s.tagUses := rfl
@[simp] theorem State.modGrid_migCounts (s : State) (gid : Nat) (f : Grid → Grid) : (s.modGrid gid f).migCounts = s.migCounts := rfl
@[simp] theorem State.modGrid_moves (s : State) (gid : Nat) (f : Grid → Grid) : (s.modGrid gid f).moves = s.moves := rfl
@[simp] theorem State.modGrid_prices (s : State) (gid : Nat) (f : Grid → Grid) : (s.modGrid gid f).prices = s.prices := rfl
@[simp] theorem State.modGrid_islands (s : State) (gid : Nat) (f : Grid → Grid) : (s.modGrid gid f).islands = s.islands := rfl
@[simp] theorem State.modGrid_gov (s : State) (gid : Nat) (f : Grid → Grid) : (s.modGrid gid f).gov = s.gov := rfl
@[simp] theorem State.modGrid_pkg (s : State) (gid : Nat) (f : Grid → Grid) : (s.modGrid gid f).pkg = s.pkg := rfl
@[simp] theorem State.modGrid_nvm (s : State) (gid : Nat) (f : Grid → Grid) : (s.modGrid gid f).nvm = s.nvm := rfl
@[simp] theorem State.modGrid_outbox (s : State) (gid : Nat) (f : Grid → Grid) : (s.modGrid gid f).outbox = s.outbox := rfl
@[simp] theorem State.modGrid_inputs (s : State) (gid : Nat) (f : Grid → Grid) : (s.modGrid gid f).inputs = s.inputs := rfl
@[simp] theorem State.modGrid_remoteWait (s : State) (gid : Nat) (f : Grid → Grid) : (s.modGrid gid f).remoteWait = s.remoteWait := rfl
@[simp] theorem State.modGrid_pick (s : State) (gid : Nat) (f : Grid → Grid) : (s.modGrid gid f).pick = s.pick := rfl
@[simp] theorem State.modGrid_recWaits (s : State) (gid : Nat) (f : Grid → Grid) : (s.modGrid gid f).recWaits = s.recWaits := rfl
@[simp] theorem State.modGrid_remAsks (s : State) (gid : Nat) (f : Grid → Grid) : (s.modGrid gid f).remAsks = s.remAsks := rfl
@[simp] theorem State.modGrid_replies (s : State) (gid : Nat) (f : Grid → Grid) : (s.modGrid gid f).replies = s.replies := rfl
@[simp] theorem State.modGrid_gone (s : State) (gid : Nat) (f : Grid → Grid) : (s.modGrid gid f).gone = s.gone := rfl
@[simp] theorem State.modGrid_cur (s : State) (gid : Nat) (f : Grid → Grid) : (s.modGrid gid f).cur = s.cur := rfl
@[simp] theorem State.modGrid_nextId (s : State) (gid : Nat) (f : Grid → Grid) : (s.modGrid gid f).nextId = s.nextId := rfl
@[simp] theorem State.modGrid_freeCtr (s : State) (gid : Nat) (f : Grid → Grid) : (s.modGrid gid f).freeCtr = s.freeCtr := rfl

/-! ### `State.count` -/

@[simp] theorem State.count_cyc (s : State) (n k : Nat) : (s.count n k).cyc = s.cyc := rfl
@[simp] theorem State.count_cc (s : State) (n k : Nat) : (s.count n k).cc = s.cc := rfl
@[simp] theorem State.count_later (s : State) (n k : Nat) : (s.count n k).later = s.later := rfl
@[simp] theorem State.count_powered (s : State) (n k : Nat) : (s.count n k).powered = s.powered := rfl
@[simp] theorem State.count_mem (s : State) (n k : Nat) : (s.count n k).mem = s.mem := rfl
@[simp] theorem State.count_tags (s : State) (n k : Nat) : (s.count n k).tags = s.tags := rfl
@[simp] theorem State.count_poison (s : State) (n k : Nat) : (s.count n k).poison = s.poison := rfl
@[simp] theorem State.count_codeErrs (s : State) (n k : Nat) : (s.count n k).codeErrs = s.codeErrs := rfl
@[simp] theorem State.count_pend (s : State) (n k : Nat) : (s.count n k).pend = s.pend := rfl
@[simp] theorem State.count_revokes (s : State) (n k : Nat) : (s.count n k).revokes = s.revokes := rfl
@[simp] theorem State.count_l1 (s : State) (n k : Nat) : (s.count n k).l1 = s.l1 := rfl
@[simp] theorem State.count_l1Rights (s : State) (n k : Nat) : (s.count n k).l1Rights = s.l1Rights := rfl
@[simp] theorem State.count_owners (s : State) (n k : Nat) : (s.count n k).owners = s.owners := rfl
@[simp] theorem State.count_lines (s : State) (n k : Nat) : (s.count n k).lines = s.lines := rfl
@[simp] theorem State.count_remote (s : State) (n k : Nat) : (s.count n k).remote = s.remote := rfl
@[simp] theorem State.count_tlb (s : State) (n k : Nat) : (s.count n k).tlb = s.tlb := rfl
@[simp] theorem State.count_walks (s : State) (n k : Nat) : (s.count n k).walks = s.walks := rfl
@[simp] theorem State.count_frames (s : State) (n k : Nat) : (s.count n k).frames = s.frames := rfl
@[simp] theorem State.count_ats (s : State) (n k : Nat) : (s.count n k).ats = s.ats := rfl
@[simp] theorem State.count_scrubPos (s : State) (n k : Nat) : (s.count n k).scrubPos = s.scrubPos := rfl
@[simp] theorem State.count_scrubPasses (s : State) (n k : Nat) : (s.count n k).scrubPasses = s.scrubPasses := rfl
@[simp] theorem State.count_cores (s : State) (n k : Nat) : (s.count n k).cores = s.cores := rfl
@[simp] theorem State.count_clusters (s : State) (n k : Nat) : (s.count n k).clusters = s.clusters := rfl
@[simp] theorem State.count_ctxs (s : State) (n k : Nat) : (s.count n k).ctxs = s.ctxs := rfl
@[simp] theorem State.count_saved (s : State) (n k : Nat) : (s.count n k).saved = s.saved := rfl
@[simp] theorem State.count_teams (s : State) (n k : Nat) : (s.count n k).teams = s.teams := rfl
@[simp] theorem State.count_grids (s : State) (n k : Nat) : (s.count n k).grids = s.grids := rfl
@[simp] theorem State.count_arrivals (s : State) (n k : Nat) : (s.count n k).arrivals = s.arrivals := rfl
@[simp] theorem State.count_loads (s : State) (n k : Nat) : (s.count n k).loads = s.loads := rfl
@[simp] theorem State.count_chans (s : State) (n k : Nat) : (s.count n k).chans = s.chans := rfl
@[simp] theorem State.count_tagUses (s : State) (n k : Nat) : (s.count n k).tagUses = s.tagUses := rfl
@[simp] theorem State.count_migCounts (s : State) (n k : Nat) : (s.count n k).migCounts = s.migCounts := rfl
@[simp] theorem State.count_moves (s : State) (n k : Nat) : (s.count n k).moves = s.moves := rfl
@[simp] theorem State.count_prices (s : State) (n k : Nat) : (s.count n k).prices = s.prices := rfl
@[simp] theorem State.count_islands (s : State) (n k : Nat) : (s.count n k).islands = s.islands := rfl
@[simp] theorem State.count_gov (s : State) (n k : Nat) : (s.count n k).gov = s.gov := rfl
@[simp] theorem State.count_pkg (s : State) (n k : Nat) : (s.count n k).pkg = s.pkg := rfl
@[simp] theorem State.count_nvm (s : State) (n k : Nat) : (s.count n k).nvm = s.nvm := rfl
@[simp] theorem State.count_outbox (s : State) (n k : Nat) : (s.count n k).outbox = s.outbox := rfl
@[simp] theorem State.count_inputs (s : State) (n k : Nat) : (s.count n k).inputs = s.inputs := rfl
@[simp] theorem State.count_remoteWait (s : State) (n k : Nat) : (s.count n k).remoteWait = s.remoteWait := rfl
@[simp] theorem State.count_pick (s : State) (n k : Nat) : (s.count n k).pick = s.pick := rfl
@[simp] theorem State.count_recWaits (s : State) (n k : Nat) : (s.count n k).recWaits = s.recWaits := rfl
@[simp] theorem State.count_remAsks (s : State) (n k : Nat) : (s.count n k).remAsks = s.remAsks := rfl
@[simp] theorem State.count_replies (s : State) (n k : Nat) : (s.count n k).replies = s.replies := rfl
@[simp] theorem State.count_gone (s : State) (n k : Nat) : (s.count n k).gone = s.gone := rfl
@[simp] theorem State.count_cur (s : State) (n k : Nat) : (s.count n k).cur = s.cur := rfl
@[simp] theorem State.count_nextId (s : State) (n k : Nat) : (s.count n k).nextId = s.nextId := rfl
@[simp] theorem State.count_freeCtr (s : State) (n k : Nat) : (s.count n k).freeCtr = s.freeCtr := rfl

/-! ### `State.signal` -/

@[simp] theorem State.signal_cyc (s : State) (v : Nat) : (s.signal v).cyc = s.cyc := rfl
@[simp] theorem State.signal_cc (s : State) (v : Nat) : (s.signal v).cc = s.cc := rfl
@[simp] theorem State.signal_later (s : State) (v : Nat) : (s.signal v).later = s.later := rfl
@[simp] theorem State.signal_powered (s : State) (v : Nat) : (s.signal v).powered = s.powered := rfl
@[simp] theorem State.signal_mem (s : State) (v : Nat) : (s.signal v).mem = s.mem := rfl
@[simp] theorem State.signal_tags (s : State) (v : Nat) : (s.signal v).tags = s.tags := rfl
@[simp] theorem State.signal_poison (s : State) (v : Nat) : (s.signal v).poison = s.poison := rfl
@[simp] theorem State.signal_codeErrs (s : State) (v : Nat) : (s.signal v).codeErrs = s.codeErrs := rfl
@[simp] theorem State.signal_pend (s : State) (v : Nat) : (s.signal v).pend = s.pend := rfl
@[simp] theorem State.signal_revokes (s : State) (v : Nat) : (s.signal v).revokes = s.revokes := rfl
@[simp] theorem State.signal_l1 (s : State) (v : Nat) : (s.signal v).l1 = s.l1 := rfl
@[simp] theorem State.signal_l1Rights (s : State) (v : Nat) : (s.signal v).l1Rights = s.l1Rights := rfl
@[simp] theorem State.signal_owners (s : State) (v : Nat) : (s.signal v).owners = s.owners := rfl
@[simp] theorem State.signal_lines (s : State) (v : Nat) : (s.signal v).lines = s.lines := rfl
@[simp] theorem State.signal_remote (s : State) (v : Nat) : (s.signal v).remote = s.remote := rfl
@[simp] theorem State.signal_tlb (s : State) (v : Nat) : (s.signal v).tlb = s.tlb := rfl
@[simp] theorem State.signal_walks (s : State) (v : Nat) : (s.signal v).walks = s.walks := rfl
@[simp] theorem State.signal_frames (s : State) (v : Nat) : (s.signal v).frames = s.frames := rfl
@[simp] theorem State.signal_ats (s : State) (v : Nat) : (s.signal v).ats = s.ats := rfl
@[simp] theorem State.signal_counters (s : State) (v : Nat) : (s.signal v).counters = s.counters := rfl
@[simp] theorem State.signal_scrubPos (s : State) (v : Nat) : (s.signal v).scrubPos = s.scrubPos := rfl
@[simp] theorem State.signal_scrubPasses (s : State) (v : Nat) : (s.signal v).scrubPasses = s.scrubPasses := rfl
@[simp] theorem State.signal_cores (s : State) (v : Nat) : (s.signal v).cores = s.cores := rfl
@[simp] theorem State.signal_clusters (s : State) (v : Nat) : (s.signal v).clusters = s.clusters := rfl
@[simp] theorem State.signal_ctxs (s : State) (v : Nat) : (s.signal v).ctxs = s.ctxs := rfl
@[simp] theorem State.signal_saved (s : State) (v : Nat) : (s.signal v).saved = s.saved := rfl
@[simp] theorem State.signal_teams (s : State) (v : Nat) : (s.signal v).teams = s.teams := rfl
@[simp] theorem State.signal_grids (s : State) (v : Nat) : (s.signal v).grids = s.grids := rfl
@[simp] theorem State.signal_arrivals (s : State) (v : Nat) : (s.signal v).arrivals = s.arrivals := rfl
@[simp] theorem State.signal_loads (s : State) (v : Nat) : (s.signal v).loads = s.loads := rfl
@[simp] theorem State.signal_chans (s : State) (v : Nat) : (s.signal v).chans = s.chans := rfl
@[simp] theorem State.signal_tagUses (s : State) (v : Nat) : (s.signal v).tagUses = s.tagUses := rfl
@[simp] theorem State.signal_migCounts (s : State) (v : Nat) : (s.signal v).migCounts = s.migCounts := rfl
@[simp] theorem State.signal_moves (s : State) (v : Nat) : (s.signal v).moves = s.moves := rfl
@[simp] theorem State.signal_prices (s : State) (v : Nat) : (s.signal v).prices = s.prices := rfl
@[simp] theorem State.signal_islands (s : State) (v : Nat) : (s.signal v).islands = s.islands := rfl
@[simp] theorem State.signal_gov (s : State) (v : Nat) : (s.signal v).gov = s.gov := rfl
@[simp] theorem State.signal_nvm (s : State) (v : Nat) : (s.signal v).nvm = s.nvm := rfl
@[simp] theorem State.signal_outbox (s : State) (v : Nat) : (s.signal v).outbox = s.outbox := rfl
@[simp] theorem State.signal_inputs (s : State) (v : Nat) : (s.signal v).inputs = s.inputs := rfl
@[simp] theorem State.signal_remoteWait (s : State) (v : Nat) : (s.signal v).remoteWait = s.remoteWait := rfl
@[simp] theorem State.signal_pick (s : State) (v : Nat) : (s.signal v).pick = s.pick := rfl
@[simp] theorem State.signal_recWaits (s : State) (v : Nat) : (s.signal v).recWaits = s.recWaits := rfl
@[simp] theorem State.signal_remAsks (s : State) (v : Nat) : (s.signal v).remAsks = s.remAsks := rfl
@[simp] theorem State.signal_replies (s : State) (v : Nat) : (s.signal v).replies = s.replies := rfl
@[simp] theorem State.signal_gone (s : State) (v : Nat) : (s.signal v).gone = s.gone := rfl
@[simp] theorem State.signal_cur (s : State) (v : Nat) : (s.signal v).cur = s.cur := rfl
@[simp] theorem State.signal_nextId (s : State) (v : Nat) : (s.signal v).nextId = s.nextId := rfl
@[simp] theorem State.signal_freeCtr (s : State) (v : Nat) : (s.signal v).freeCtr = s.freeCtr := rfl

/-! ### `State.finish` -/

@[simp] theorem State.finish_cyc (s : State) (h : HRef) (st : HStatus) (fault : Option Cause) : (s.finish h st fault).cyc = s.cyc := rfl
@[simp] theorem State.finish_cc (s : State) (h : HRef) (st : HStatus) (fault : Option Cause) : (s.finish h st fault).cc = s.cc := rfl
@[simp] theorem State.finish_later (s : State) (h : HRef) (st : HStatus) (fault : Option Cause) : (s.finish h st fault).later = s.later := rfl
@[simp] theorem State.finish_powered (s : State) (h : HRef) (st : HStatus) (fault : Option Cause) : (s.finish h st fault).powered = s.powered := rfl
@[simp] theorem State.finish_mem (s : State) (h : HRef) (st : HStatus) (fault : Option Cause) : (s.finish h st fault).mem = s.mem := rfl
@[simp] theorem State.finish_tags (s : State) (h : HRef) (st : HStatus) (fault : Option Cause) : (s.finish h st fault).tags = s.tags := rfl
@[simp] theorem State.finish_poison (s : State) (h : HRef) (st : HStatus) (fault : Option Cause) : (s.finish h st fault).poison = s.poison := rfl
@[simp] theorem State.finish_codeErrs (s : State) (h : HRef) (st : HStatus) (fault : Option Cause) : (s.finish h st fault).codeErrs = s.codeErrs := rfl
@[simp] theorem State.finish_pend (s : State) (h : HRef) (st : HStatus) (fault : Option Cause) : (s.finish h st fault).pend = s.pend := rfl
@[simp] theorem State.finish_revokes (s : State) (h : HRef) (st : HStatus) (fault : Option Cause) : (s.finish h st fault).revokes = s.revokes := rfl
@[simp] theorem State.finish_l1 (s : State) (h : HRef) (st : HStatus) (fault : Option Cause) : (s.finish h st fault).l1 = s.l1 := rfl
@[simp] theorem State.finish_l1Rights (s : State) (h : HRef) (st : HStatus) (fault : Option Cause) : (s.finish h st fault).l1Rights = s.l1Rights := rfl
@[simp] theorem State.finish_owners (s : State) (h : HRef) (st : HStatus) (fault : Option Cause) : (s.finish h st fault).owners = s.owners := rfl
@[simp] theorem State.finish_lines (s : State) (h : HRef) (st : HStatus) (fault : Option Cause) : (s.finish h st fault).lines = s.lines := rfl
@[simp] theorem State.finish_remote (s : State) (h : HRef) (st : HStatus) (fault : Option Cause) : (s.finish h st fault).remote = s.remote := rfl
@[simp] theorem State.finish_tlb (s : State) (h : HRef) (st : HStatus) (fault : Option Cause) : (s.finish h st fault).tlb = s.tlb := rfl
@[simp] theorem State.finish_walks (s : State) (h : HRef) (st : HStatus) (fault : Option Cause) : (s.finish h st fault).walks = s.walks := rfl
@[simp] theorem State.finish_frames (s : State) (h : HRef) (st : HStatus) (fault : Option Cause) : (s.finish h st fault).frames = s.frames := rfl
@[simp] theorem State.finish_ats (s : State) (h : HRef) (st : HStatus) (fault : Option Cause) : (s.finish h st fault).ats = s.ats := rfl
@[simp] theorem State.finish_counters (s : State) (h : HRef) (st : HStatus) (fault : Option Cause) : (s.finish h st fault).counters = s.counters := rfl
@[simp] theorem State.finish_scrubPos (s : State) (h : HRef) (st : HStatus) (fault : Option Cause) : (s.finish h st fault).scrubPos = s.scrubPos := rfl
@[simp] theorem State.finish_scrubPasses (s : State) (h : HRef) (st : HStatus) (fault : Option Cause) : (s.finish h st fault).scrubPasses = s.scrubPasses := rfl
@[simp] theorem State.finish_cores (s : State) (h : HRef) (st : HStatus) (fault : Option Cause) : (s.finish h st fault).cores = s.cores := rfl
@[simp] theorem State.finish_clusters (s : State) (h : HRef) (st : HStatus) (fault : Option Cause) : (s.finish h st fault).clusters = s.clusters := rfl
@[simp] theorem State.finish_ctxs (s : State) (h : HRef) (st : HStatus) (fault : Option Cause) : (s.finish h st fault).ctxs = s.ctxs := rfl
@[simp] theorem State.finish_saved (s : State) (h : HRef) (st : HStatus) (fault : Option Cause) : (s.finish h st fault).saved = s.saved := rfl
@[simp] theorem State.finish_grids (s : State) (h : HRef) (st : HStatus) (fault : Option Cause) : (s.finish h st fault).grids = s.grids := rfl
@[simp] theorem State.finish_arrivals (s : State) (h : HRef) (st : HStatus) (fault : Option Cause) : (s.finish h st fault).arrivals = s.arrivals := rfl
@[simp] theorem State.finish_loads (s : State) (h : HRef) (st : HStatus) (fault : Option Cause) : (s.finish h st fault).loads = s.loads := rfl
@[simp] theorem State.finish_chans (s : State) (h : HRef) (st : HStatus) (fault : Option Cause) : (s.finish h st fault).chans = s.chans := rfl
@[simp] theorem State.finish_tagUses (s : State) (h : HRef) (st : HStatus) (fault : Option Cause) : (s.finish h st fault).tagUses = s.tagUses := rfl
@[simp] theorem State.finish_migCounts (s : State) (h : HRef) (st : HStatus) (fault : Option Cause) : (s.finish h st fault).migCounts = s.migCounts := rfl
@[simp] theorem State.finish_moves (s : State) (h : HRef) (st : HStatus) (fault : Option Cause) : (s.finish h st fault).moves = s.moves := rfl
@[simp] theorem State.finish_prices (s : State) (h : HRef) (st : HStatus) (fault : Option Cause) : (s.finish h st fault).prices = s.prices := rfl
@[simp] theorem State.finish_islands (s : State) (h : HRef) (st : HStatus) (fault : Option Cause) : (s.finish h st fault).islands = s.islands := rfl
@[simp] theorem State.finish_gov (s : State) (h : HRef) (st : HStatus) (fault : Option Cause) : (s.finish h st fault).gov = s.gov := rfl
@[simp] theorem State.finish_pkg (s : State) (h : HRef) (st : HStatus) (fault : Option Cause) : (s.finish h st fault).pkg = s.pkg := rfl
@[simp] theorem State.finish_nvm (s : State) (h : HRef) (st : HStatus) (fault : Option Cause) : (s.finish h st fault).nvm = s.nvm := rfl
@[simp] theorem State.finish_outbox (s : State) (h : HRef) (st : HStatus) (fault : Option Cause) : (s.finish h st fault).outbox = s.outbox := rfl
@[simp] theorem State.finish_inputs (s : State) (h : HRef) (st : HStatus) (fault : Option Cause) : (s.finish h st fault).inputs = s.inputs := rfl
@[simp] theorem State.finish_remoteWait (s : State) (h : HRef) (st : HStatus) (fault : Option Cause) : (s.finish h st fault).remoteWait = s.remoteWait := rfl
@[simp] theorem State.finish_pick (s : State) (h : HRef) (st : HStatus) (fault : Option Cause) : (s.finish h st fault).pick = s.pick := rfl
@[simp] theorem State.finish_recWaits (s : State) (h : HRef) (st : HStatus) (fault : Option Cause) : (s.finish h st fault).recWaits = s.recWaits := rfl
@[simp] theorem State.finish_remAsks (s : State) (h : HRef) (st : HStatus) (fault : Option Cause) : (s.finish h st fault).remAsks = s.remAsks := rfl
@[simp] theorem State.finish_replies (s : State) (h : HRef) (st : HStatus) (fault : Option Cause) : (s.finish h st fault).replies = s.replies := rfl
@[simp] theorem State.finish_gone (s : State) (h : HRef) (st : HStatus) (fault : Option Cause) : (s.finish h st fault).gone = s.gone := rfl
@[simp] theorem State.finish_cur (s : State) (h : HRef) (st : HStatus) (fault : Option Cause) : (s.finish h st fault).cur = s.cur := rfl
@[simp] theorem State.finish_nextId (s : State) (h : HRef) (st : HStatus) (fault : Option Cause) : (s.finish h st fault).nextId = s.nextId := rfl
@[simp] theorem State.finish_freeCtr (s : State) (h : HRef) (st : HStatus) (fault : Option Cause) : (s.finish h st fault).freeCtr = s.freeCtr := rfl

/-! ### `State.answer` -/

@[simp] theorem State.answer_cyc (s : State) (uid : Nat) (d : RegNo) (n : Nat) (gs : List Nat) (x : Nat) : (s.answer uid d n gs x).cyc = s.cyc := rfl
@[simp] theorem State.answer_cc (s : State) (uid : Nat) (d : RegNo) (n : Nat) (gs : List Nat) (x : Nat) : (s.answer uid d n gs x).cc = s.cc := rfl
@[simp] theorem State.answer_later (s : State) (uid : Nat) (d : RegNo) (n : Nat) (gs : List Nat) (x : Nat) : (s.answer uid d n gs x).later = s.later := rfl
@[simp] theorem State.answer_powered (s : State) (uid : Nat) (d : RegNo) (n : Nat) (gs : List Nat) (x : Nat) : (s.answer uid d n gs x).powered = s.powered := rfl
@[simp] theorem State.answer_mem (s : State) (uid : Nat) (d : RegNo) (n : Nat) (gs : List Nat) (x : Nat) : (s.answer uid d n gs x).mem = s.mem := rfl
@[simp] theorem State.answer_tags (s : State) (uid : Nat) (d : RegNo) (n : Nat) (gs : List Nat) (x : Nat) : (s.answer uid d n gs x).tags = s.tags := rfl
@[simp] theorem State.answer_poison (s : State) (uid : Nat) (d : RegNo) (n : Nat) (gs : List Nat) (x : Nat) : (s.answer uid d n gs x).poison = s.poison := rfl
@[simp] theorem State.answer_codeErrs (s : State) (uid : Nat) (d : RegNo) (n : Nat) (gs : List Nat) (x : Nat) : (s.answer uid d n gs x).codeErrs = s.codeErrs := rfl
@[simp] theorem State.answer_pend (s : State) (uid : Nat) (d : RegNo) (n : Nat) (gs : List Nat) (x : Nat) : (s.answer uid d n gs x).pend = s.pend := rfl
@[simp] theorem State.answer_revokes (s : State) (uid : Nat) (d : RegNo) (n : Nat) (gs : List Nat) (x : Nat) : (s.answer uid d n gs x).revokes = s.revokes := rfl
@[simp] theorem State.answer_l1 (s : State) (uid : Nat) (d : RegNo) (n : Nat) (gs : List Nat) (x : Nat) : (s.answer uid d n gs x).l1 = s.l1 := rfl
@[simp] theorem State.answer_l1Rights (s : State) (uid : Nat) (d : RegNo) (n : Nat) (gs : List Nat) (x : Nat) : (s.answer uid d n gs x).l1Rights = s.l1Rights := rfl
@[simp] theorem State.answer_owners (s : State) (uid : Nat) (d : RegNo) (n : Nat) (gs : List Nat) (x : Nat) : (s.answer uid d n gs x).owners = s.owners := rfl
@[simp] theorem State.answer_lines (s : State) (uid : Nat) (d : RegNo) (n : Nat) (gs : List Nat) (x : Nat) : (s.answer uid d n gs x).lines = s.lines := rfl
@[simp] theorem State.answer_remote (s : State) (uid : Nat) (d : RegNo) (n : Nat) (gs : List Nat) (x : Nat) : (s.answer uid d n gs x).remote = s.remote := rfl
@[simp] theorem State.answer_tlb (s : State) (uid : Nat) (d : RegNo) (n : Nat) (gs : List Nat) (x : Nat) : (s.answer uid d n gs x).tlb = s.tlb := rfl
@[simp] theorem State.answer_walks (s : State) (uid : Nat) (d : RegNo) (n : Nat) (gs : List Nat) (x : Nat) : (s.answer uid d n gs x).walks = s.walks := rfl
@[simp] theorem State.answer_frames (s : State) (uid : Nat) (d : RegNo) (n : Nat) (gs : List Nat) (x : Nat) : (s.answer uid d n gs x).frames = s.frames := rfl
@[simp] theorem State.answer_ats (s : State) (uid : Nat) (d : RegNo) (n : Nat) (gs : List Nat) (x : Nat) : (s.answer uid d n gs x).ats = s.ats := rfl
@[simp] theorem State.answer_counters (s : State) (uid : Nat) (d : RegNo) (n : Nat) (gs : List Nat) (x : Nat) : (s.answer uid d n gs x).counters = s.counters := rfl
@[simp] theorem State.answer_scrubPos (s : State) (uid : Nat) (d : RegNo) (n : Nat) (gs : List Nat) (x : Nat) : (s.answer uid d n gs x).scrubPos = s.scrubPos := rfl
@[simp] theorem State.answer_scrubPasses (s : State) (uid : Nat) (d : RegNo) (n : Nat) (gs : List Nat) (x : Nat) : (s.answer uid d n gs x).scrubPasses = s.scrubPasses := rfl
@[simp] theorem State.answer_cores (s : State) (uid : Nat) (d : RegNo) (n : Nat) (gs : List Nat) (x : Nat) : (s.answer uid d n gs x).cores = s.cores := rfl
@[simp] theorem State.answer_clusters (s : State) (uid : Nat) (d : RegNo) (n : Nat) (gs : List Nat) (x : Nat) : (s.answer uid d n gs x).clusters = s.clusters := rfl
@[simp] theorem State.answer_ctxs (s : State) (uid : Nat) (d : RegNo) (n : Nat) (gs : List Nat) (x : Nat) : (s.answer uid d n gs x).ctxs = s.ctxs := rfl
@[simp] theorem State.answer_saved (s : State) (uid : Nat) (d : RegNo) (n : Nat) (gs : List Nat) (x : Nat) : (s.answer uid d n gs x).saved = s.saved := rfl
@[simp] theorem State.answer_grids (s : State) (uid : Nat) (d : RegNo) (n : Nat) (gs : List Nat) (x : Nat) : (s.answer uid d n gs x).grids = s.grids := rfl
@[simp] theorem State.answer_arrivals (s : State) (uid : Nat) (d : RegNo) (n : Nat) (gs : List Nat) (x : Nat) : (s.answer uid d n gs x).arrivals = s.arrivals := rfl
@[simp] theorem State.answer_loads (s : State) (uid : Nat) (d : RegNo) (n : Nat) (gs : List Nat) (x : Nat) : (s.answer uid d n gs x).loads = s.loads := rfl
@[simp] theorem State.answer_chans (s : State) (uid : Nat) (d : RegNo) (n : Nat) (gs : List Nat) (x : Nat) : (s.answer uid d n gs x).chans = s.chans := rfl
@[simp] theorem State.answer_tagUses (s : State) (uid : Nat) (d : RegNo) (n : Nat) (gs : List Nat) (x : Nat) : (s.answer uid d n gs x).tagUses = s.tagUses := rfl
@[simp] theorem State.answer_migCounts (s : State) (uid : Nat) (d : RegNo) (n : Nat) (gs : List Nat) (x : Nat) : (s.answer uid d n gs x).migCounts = s.migCounts := rfl
@[simp] theorem State.answer_moves (s : State) (uid : Nat) (d : RegNo) (n : Nat) (gs : List Nat) (x : Nat) : (s.answer uid d n gs x).moves = s.moves := rfl
@[simp] theorem State.answer_prices (s : State) (uid : Nat) (d : RegNo) (n : Nat) (gs : List Nat) (x : Nat) : (s.answer uid d n gs x).prices = s.prices := rfl
@[simp] theorem State.answer_islands (s : State) (uid : Nat) (d : RegNo) (n : Nat) (gs : List Nat) (x : Nat) : (s.answer uid d n gs x).islands = s.islands := rfl
@[simp] theorem State.answer_gov (s : State) (uid : Nat) (d : RegNo) (n : Nat) (gs : List Nat) (x : Nat) : (s.answer uid d n gs x).gov = s.gov := rfl
@[simp] theorem State.answer_pkg (s : State) (uid : Nat) (d : RegNo) (n : Nat) (gs : List Nat) (x : Nat) : (s.answer uid d n gs x).pkg = s.pkg := rfl
@[simp] theorem State.answer_nvm (s : State) (uid : Nat) (d : RegNo) (n : Nat) (gs : List Nat) (x : Nat) : (s.answer uid d n gs x).nvm = s.nvm := rfl
@[simp] theorem State.answer_outbox (s : State) (uid : Nat) (d : RegNo) (n : Nat) (gs : List Nat) (x : Nat) : (s.answer uid d n gs x).outbox = s.outbox := rfl
@[simp] theorem State.answer_inputs (s : State) (uid : Nat) (d : RegNo) (n : Nat) (gs : List Nat) (x : Nat) : (s.answer uid d n gs x).inputs = s.inputs := rfl
@[simp] theorem State.answer_remoteWait (s : State) (uid : Nat) (d : RegNo) (n : Nat) (gs : List Nat) (x : Nat) : (s.answer uid d n gs x).remoteWait = s.remoteWait := rfl
@[simp] theorem State.answer_pick (s : State) (uid : Nat) (d : RegNo) (n : Nat) (gs : List Nat) (x : Nat) : (s.answer uid d n gs x).pick = s.pick := rfl
@[simp] theorem State.answer_recWaits (s : State) (uid : Nat) (d : RegNo) (n : Nat) (gs : List Nat) (x : Nat) : (s.answer uid d n gs x).recWaits = s.recWaits := rfl
@[simp] theorem State.answer_remAsks (s : State) (uid : Nat) (d : RegNo) (n : Nat) (gs : List Nat) (x : Nat) : (s.answer uid d n gs x).remAsks = s.remAsks := rfl
@[simp] theorem State.answer_replies (s : State) (uid : Nat) (d : RegNo) (n : Nat) (gs : List Nat) (x : Nat) : (s.answer uid d n gs x).replies = s.replies := rfl
@[simp] theorem State.answer_gone (s : State) (uid : Nat) (d : RegNo) (n : Nat) (gs : List Nat) (x : Nat) : (s.answer uid d n gs x).gone = s.gone := rfl
@[simp] theorem State.answer_cur (s : State) (uid : Nat) (d : RegNo) (n : Nat) (gs : List Nat) (x : Nat) : (s.answer uid d n gs x).cur = s.cur := rfl
@[simp] theorem State.answer_nextId (s : State) (uid : Nat) (d : RegNo) (n : Nat) (gs : List Nat) (x : Nat) : (s.answer uid d n gs x).nextId = s.nextId := rfl
@[simp] theorem State.answer_freeCtr (s : State) (uid : Nat) (d : RegNo) (n : Nat) (gs : List Nat) (x : Nat) : (s.answer uid d n gs x).freeCtr = s.freeCtr := rfl

/-! ### `State.passed` -/

@[simp] theorem State.passed_cyc (s : State) (uid : Nat) : (s.passed uid).cyc = s.cyc := rfl
@[simp] theorem State.passed_cc (s : State) (uid : Nat) : (s.passed uid).cc = s.cc := rfl
@[simp] theorem State.passed_later (s : State) (uid : Nat) : (s.passed uid).later = s.later := rfl
@[simp] theorem State.passed_powered (s : State) (uid : Nat) : (s.passed uid).powered = s.powered := rfl
@[simp] theorem State.passed_mem (s : State) (uid : Nat) : (s.passed uid).mem = s.mem := rfl
@[simp] theorem State.passed_tags (s : State) (uid : Nat) : (s.passed uid).tags = s.tags := rfl
@[simp] theorem State.passed_poison (s : State) (uid : Nat) : (s.passed uid).poison = s.poison := rfl
@[simp] theorem State.passed_codeErrs (s : State) (uid : Nat) : (s.passed uid).codeErrs = s.codeErrs := rfl
@[simp] theorem State.passed_pend (s : State) (uid : Nat) : (s.passed uid).pend = s.pend := rfl
@[simp] theorem State.passed_revokes (s : State) (uid : Nat) : (s.passed uid).revokes = s.revokes := rfl
@[simp] theorem State.passed_l1 (s : State) (uid : Nat) : (s.passed uid).l1 = s.l1 := rfl
@[simp] theorem State.passed_l1Rights (s : State) (uid : Nat) : (s.passed uid).l1Rights = s.l1Rights := rfl
@[simp] theorem State.passed_owners (s : State) (uid : Nat) : (s.passed uid).owners = s.owners := rfl
@[simp] theorem State.passed_lines (s : State) (uid : Nat) : (s.passed uid).lines = s.lines := rfl
@[simp] theorem State.passed_remote (s : State) (uid : Nat) : (s.passed uid).remote = s.remote := rfl
@[simp] theorem State.passed_tlb (s : State) (uid : Nat) : (s.passed uid).tlb = s.tlb := rfl
@[simp] theorem State.passed_walks (s : State) (uid : Nat) : (s.passed uid).walks = s.walks := rfl
@[simp] theorem State.passed_frames (s : State) (uid : Nat) : (s.passed uid).frames = s.frames := rfl
@[simp] theorem State.passed_ats (s : State) (uid : Nat) : (s.passed uid).ats = s.ats := rfl
@[simp] theorem State.passed_counters (s : State) (uid : Nat) : (s.passed uid).counters = s.counters := rfl
@[simp] theorem State.passed_scrubPos (s : State) (uid : Nat) : (s.passed uid).scrubPos = s.scrubPos := rfl
@[simp] theorem State.passed_scrubPasses (s : State) (uid : Nat) : (s.passed uid).scrubPasses = s.scrubPasses := rfl
@[simp] theorem State.passed_cores (s : State) (uid : Nat) : (s.passed uid).cores = s.cores := rfl
@[simp] theorem State.passed_clusters (s : State) (uid : Nat) : (s.passed uid).clusters = s.clusters := rfl
@[simp] theorem State.passed_ctxs (s : State) (uid : Nat) : (s.passed uid).ctxs = s.ctxs := rfl
@[simp] theorem State.passed_saved (s : State) (uid : Nat) : (s.passed uid).saved = s.saved := rfl
@[simp] theorem State.passed_grids (s : State) (uid : Nat) : (s.passed uid).grids = s.grids := rfl
@[simp] theorem State.passed_arrivals (s : State) (uid : Nat) : (s.passed uid).arrivals = s.arrivals := rfl
@[simp] theorem State.passed_loads (s : State) (uid : Nat) : (s.passed uid).loads = s.loads := rfl
@[simp] theorem State.passed_chans (s : State) (uid : Nat) : (s.passed uid).chans = s.chans := rfl
@[simp] theorem State.passed_tagUses (s : State) (uid : Nat) : (s.passed uid).tagUses = s.tagUses := rfl
@[simp] theorem State.passed_migCounts (s : State) (uid : Nat) : (s.passed uid).migCounts = s.migCounts := rfl
@[simp] theorem State.passed_moves (s : State) (uid : Nat) : (s.passed uid).moves = s.moves := rfl
@[simp] theorem State.passed_prices (s : State) (uid : Nat) : (s.passed uid).prices = s.prices := rfl
@[simp] theorem State.passed_islands (s : State) (uid : Nat) : (s.passed uid).islands = s.islands := rfl
@[simp] theorem State.passed_gov (s : State) (uid : Nat) : (s.passed uid).gov = s.gov := rfl
@[simp] theorem State.passed_pkg (s : State) (uid : Nat) : (s.passed uid).pkg = s.pkg := rfl
@[simp] theorem State.passed_nvm (s : State) (uid : Nat) : (s.passed uid).nvm = s.nvm := rfl
@[simp] theorem State.passed_outbox (s : State) (uid : Nat) : (s.passed uid).outbox = s.outbox := rfl
@[simp] theorem State.passed_inputs (s : State) (uid : Nat) : (s.passed uid).inputs = s.inputs := rfl
@[simp] theorem State.passed_remoteWait (s : State) (uid : Nat) : (s.passed uid).remoteWait = s.remoteWait := rfl
@[simp] theorem State.passed_pick (s : State) (uid : Nat) : (s.passed uid).pick = s.pick := rfl
@[simp] theorem State.passed_recWaits (s : State) (uid : Nat) : (s.passed uid).recWaits = s.recWaits := rfl
@[simp] theorem State.passed_remAsks (s : State) (uid : Nat) : (s.passed uid).remAsks = s.remAsks := rfl
@[simp] theorem State.passed_replies (s : State) (uid : Nat) : (s.passed uid).replies = s.replies := rfl
@[simp] theorem State.passed_gone (s : State) (uid : Nat) : (s.passed uid).gone = s.gone := rfl
@[simp] theorem State.passed_cur (s : State) (uid : Nat) : (s.passed uid).cur = s.cur := rfl
@[simp] theorem State.passed_nextId (s : State) (uid : Nat) : (s.passed uid).nextId = s.nextId := rfl
@[simp] theorem State.passed_freeCtr (s : State) (uid : Nat) : (s.passed uid).freeCtr = s.freeCtr := rfl

/-! ### `Team.vPut` -/

@[simp] theorem Team.vPut_uid (t : Team) (n lane : Nat) (w : RWord) : (t.vPut n lane w).uid = t.uid := rfl
@[simp] theorem Team.vPut_gid (t : Team) (n lane : Nat) (w : RWord) : (t.vPut n lane w).gid = t.gid := rfl
@[simp] theorem Team.vPut_ctx (t : Team) (n lane : Nat) (w : RWord) : (t.vPut n lane w).ctx = t.ctx := rfl
@[simp] theorem Team.vPut_asid (t : Team) (n lane : Nat) (w : RWord) : (t.vPut n lane w).asid = t.asid := rfl
@[simp] theorem Team.vPut_pri (t : Team) (n lane : Nat) (w : RWord) : (t.vPut n lane w).pri = t.pri := rfl
@[simp] theorem Team.vPut_home (t : Team) (n lane : Nat) (w : RWord) : (t.vPut n lane w).home = t.home := rfl
@[simp] theorem Team.vPut_pair (t : Team) (n lane : Nat) (w : RWord) : (t.vPut n lane w).pair = t.pair := rfl
@[simp] theorem Team.vPut_slot (t : Team) (n lane : Nat) (w : RWord) : (t.vPut n lane w).slot = t.slot := rfl
@[simp] theorem Team.vPut_lanes (t : Team) (n lane : Nat) (w : RWord) : (t.vPut n lane w).lanes = t.lanes := rfl
@[simp] theorem Team.vPut_group (t : Team) (n lane : Nat) (w : RWord) : (t.vPut n lane w).group = t.group := rfl
@[simp] theorem Team.vPut_nv (t : Team) (n lane : Nat) (w : RWord) : (t.vPut n lane w).nv = t.nv := rfl
@[simp] theorem Team.vPut_lin (t : Team) (n lane : Nat) (w : RWord) : (t.vPut n lane w).lin = t.lin := rfl
@[simp] theorem Team.vPut_res (t : Team) (n lane : Nat) (w : RWord) : (t.vPut n lane w).res = t.res := rfl
@[simp] theorem Team.vPut_placedAt (t : Team) (n lane : Nat) (w : RWord) : (t.vPut n lane w).placedAt = t.placedAt := rfl
@[simp] theorem Team.vPut_evictedAt (t : Team) (n lane : Nat) (w : RWord) : (t.vPut n lane w).evictedAt = t.evictedAt := rfl
@[simp] theorem Team.vPut_stack (t : Team) (n lane : Nat) (w : RWord) : (t.vPut n lane w).stack = t.stack := rfl
@[simp] theorem Team.vPut_spilled (t : Team) (n lane : Nat) (w : RWord) : (t.vPut n lane w).spilled = t.spilled := rfl
@[simp] theorem Team.vPut_area (t : Team) (n lane : Nat) (w : RWord) : (t.vPut n lane w).area = t.area := rfl
@[simp] theorem Team.vPut_frame (t : Team) (n lane : Nat) (w : RWord) : (t.vPut n lane w).frame = t.frame := rfl
@[simp] theorem Team.vPut_frameDepth (t : Team) (n lane : Nat) (w : RWord) : (t.vPut n lane w).frameDepth = t.frameDepth := rfl
@[simp] theorem Team.vPut_s (t : Team) (n lane : Nat) (w : RWord) : (t.vPut n lane w).s = t.s := rfl
@[simp] theorem Team.vPut_p (t : Team) (n lane : Nat) (w : RWord) : (t.vPut n lane w).p = t.p := rfl
@[simp] theorem Team.vPut_q (t : Team) (n lane : Nat) (w : RWord) : (t.vPut n lane w).q = t.q := rfl
@[simp] theorem Team.vPut_tcw (t : Team) (n lane : Nat) (w : RWord) : (t.vPut n lane w).tcw = t.tcw := rfl
@[simp] theorem Team.vPut_seed0 (t : Team) (n lane : Nat) (w : RWord) : (t.vPut n lane w).seed0 = t.seed0 := rfl
@[simp] theorem Team.vPut_seed1 (t : Team) (n lane : Nat) (w : RWord) : (t.vPut n lane w).seed1 = t.seed1 := rfl
@[simp] theorem Team.vPut_seed2 (t : Team) (n lane : Nat) (w : RWord) : (t.vPut n lane w).seed2 = t.seed2 := rfl
@[simp] theorem Team.vPut_seed3 (t : Team) (n lane : Nat) (w : RWord) : (t.vPut n lane w).seed3 = t.seed3 := rfl
@[simp] theorem Team.vPut_tstka (t : Team) (n lane : Nat) (w : RWord) : (t.vPut n lane w).tstka = t.tstka := rfl
@[simp] theorem Team.vPut_tcause (t : Team) (n lane : Nat) (w : RWord) : (t.vPut n lane w).tcause = t.tcause := rfl
@[simp] theorem Team.vPut_tpc (t : Team) (n lane : Nat) (w : RWord) : (t.vPut n lane w).tpc = t.tpc := rfl
@[simp] theorem Team.vPut_tvb (t : Team) (n lane : Nat) (w : RWord) : (t.vPut n lane w).tvb = t.tvb := rfl
@[simp] theorem Team.vPut_tskip (t : Team) (n lane : Nat) (w : RWord) : (t.vPut n lane w).tskip = t.tskip := rfl
@[simp] theorem Team.vPut_skipPos (t : Team) (n lane : Nat) (w : RWord) : (t.vPut n lane w).skipPos = t.skipPos := rfl
@[simp] theorem Team.vPut_flm (t : Team) (n lane : Nat) (w : RWord) : (t.vPut n lane w).flm = t.flm := rfl
@[simp] theorem Team.vPut_dropl (t : Team) (n lane : Nat) (w : RWord) : (t.vPut n lane w).dropl = t.dropl := rfl
@[simp] theorem Team.vPut_ckinj (t : Team) (n lane : Nat) (w : RWord) : (t.vPut n lane w).ckinj = t.ckinj := rfl
@[simp] theorem Team.vPut_mxgang (t : Team) (n lane : Nat) (w : RWord) : (t.vPut n lane w).mxgang = t.mxgang := rfl
@[simp] theorem Team.vPut_mxwin (t : Team) (n lane : Nat) (w : RWord) : (t.vPut n lane w).mxwin = t.mxwin := rfl
@[simp] theorem Team.vPut_segs (t : Team) (n lane : Nat) (w : RWord) : (t.vPut n lane w).segs = t.segs := rfl
@[simp] theorem Team.vPut_segBind (t : Team) (n lane : Nat) (w : RWord) : (t.vPut n lane w).segBind = t.segBind := rfl
@[simp] theorem Team.vPut_segFaulted (t : Team) (n lane : Nat) (w : RWord) : (t.vPut n lane w).segFaulted = t.segFaulted := rfl
@[simp] theorem Team.vPut_handles (t : Team) (n lane : Nat) (w : RWord) : (t.vPut n lane w).handles = t.handles := rfl
@[simp] theorem Team.vPut_freeSlots (t : Team) (n lane : Nat) (w : RWord) : (t.vPut n lane w).freeSlots = t.freeSlots := rfl
@[simp] theorem Team.vPut_rounds (t : Team) (n lane : Nat) (w : RWord) : (t.vPut n lane w).rounds = t.rounds := rfl
@[simp] theorem Team.vPut_pendCauses (t : Team) (n lane : Nat) (w : RWord) : (t.vPut n lane w).pendCauses = t.pendCauses := rfl
@[simp] theorem Team.vPut_hold (t : Team) (n lane : Nat) (w : RWord) : (t.vPut n lane w).hold = t.hold := rfl
@[simp] theorem Team.vPut_heldLen (t : Team) (n lane : Nat) (w : RWord) : (t.vPut n lane w).heldLen = t.heldLen := rfl
@[simp] theorem Team.vPut_relTag (t : Team) (n lane : Nat) (w : RWord) : (t.vPut n lane w).relTag = t.relTag := rfl
@[simp] theorem Team.vPut_relIssue (t : Team) (n lane : Nat) (w : RWord) : (t.vPut n lane w).relIssue = t.relIssue := rfl
@[simp] theorem Team.vPut_fence (t : Team) (n lane : Nat) (w : RWord) : (t.vPut n lane w).fence = t.fence := rfl
@[simp] theorem Team.vPut_hostStores (t : Team) (n lane : Nat) (w : RWord) : (t.vPut n lane w).hostStores = t.hostStores := rfl
@[simp] theorem Team.vPut_dueAt (t : Team) (n lane : Nat) (w : RWord) : (t.vPut n lane w).dueAt = t.dueAt := rfl
@[simp] theorem Team.vPut_debtSeqOdd (t : Team) (n lane : Nat) (w : RWord) : (t.vPut n lane w).debtSeqOdd = t.debtSeqOdd := rfl
@[simp] theorem Team.vPut_copyLateHeld (t : Team) (n lane : Nat) (w : RWord) : (t.vPut n lane w).copyLateHeld = t.copyLateHeld := rfl
@[simp] theorem Team.vPut_debtHome (t : Team) (n lane : Nat) (w : RWord) : (t.vPut n lane w).debtHome = t.debtHome := rfl
@[simp] theorem Team.vPut_debtOdd (t : Team) (n lane : Nat) (w : RWord) : (t.vPut n lane w).debtOdd = t.debtOdd := rfl
@[simp] theorem Team.vPut_heldHome (t : Team) (n lane : Nat) (w : RWord) : (t.vPut n lane w).heldHome = t.heldHome := rfl
@[simp] theorem Team.vPut_heldOdd (t : Team) (n lane : Nat) (w : RWord) : (t.vPut n lane w).heldOdd = t.heldOdd := rfl
@[simp] theorem Team.vPut_readyAt (t : Team) (n lane : Nat) (w : RWord) : (t.vPut n lane w).readyAt = t.readyAt := rfl
@[simp] theorem Team.vPut_debtSeq (t : Team) (n lane : Nat) (w : RWord) : (t.vPut n lane w).debtSeq = t.debtSeq := rfl
@[simp] theorem Team.vPut_loopBuf (t : Team) (n lane : Nat) (w : RWord) : (t.vPut n lane w).loopBuf = t.loopBuf := rfl
@[simp] theorem Team.vPut_flight (t : Team) (n lane : Nat) (w : RWord) : (t.vPut n lane w).flight = t.flight := rfl
@[simp] theorem Team.vPut_issued (t : Team) (n lane : Nat) (w : RWord) : (t.vPut n lane w).issued = t.issued := rfl
@[simp] theorem Team.vPut_stopReq (t : Team) (n lane : Nat) (w : RWord) : (t.vPut n lane w).stopReq = t.stopReq := rfl

/-! ### `Team.setTop` -/

@[simp] theorem Team.setTop_uid (t : Team) (e : PathEntry) : (t.setTop e).uid = t.uid := rfl
@[simp] theorem Team.setTop_gid (t : Team) (e : PathEntry) : (t.setTop e).gid = t.gid := rfl
@[simp] theorem Team.setTop_ctx (t : Team) (e : PathEntry) : (t.setTop e).ctx = t.ctx := rfl
@[simp] theorem Team.setTop_asid (t : Team) (e : PathEntry) : (t.setTop e).asid = t.asid := rfl
@[simp] theorem Team.setTop_pri (t : Team) (e : PathEntry) : (t.setTop e).pri = t.pri := rfl
@[simp] theorem Team.setTop_home (t : Team) (e : PathEntry) : (t.setTop e).home = t.home := rfl
@[simp] theorem Team.setTop_pair (t : Team) (e : PathEntry) : (t.setTop e).pair = t.pair := rfl
@[simp] theorem Team.setTop_slot (t : Team) (e : PathEntry) : (t.setTop e).slot = t.slot := rfl
@[simp] theorem Team.setTop_lanes (t : Team) (e : PathEntry) : (t.setTop e).lanes = t.lanes := rfl
@[simp] theorem Team.setTop_group (t : Team) (e : PathEntry) : (t.setTop e).group = t.group := rfl
@[simp] theorem Team.setTop_nv (t : Team) (e : PathEntry) : (t.setTop e).nv = t.nv := rfl
@[simp] theorem Team.setTop_lin (t : Team) (e : PathEntry) : (t.setTop e).lin = t.lin := rfl
@[simp] theorem Team.setTop_res (t : Team) (e : PathEntry) : (t.setTop e).res = t.res := rfl
@[simp] theorem Team.setTop_placedAt (t : Team) (e : PathEntry) : (t.setTop e).placedAt = t.placedAt := rfl
@[simp] theorem Team.setTop_evictedAt (t : Team) (e : PathEntry) : (t.setTop e).evictedAt = t.evictedAt := rfl
@[simp] theorem Team.setTop_spilled (t : Team) (e : PathEntry) : (t.setTop e).spilled = t.spilled := rfl
@[simp] theorem Team.setTop_area (t : Team) (e : PathEntry) : (t.setTop e).area = t.area := rfl
@[simp] theorem Team.setTop_frame (t : Team) (e : PathEntry) : (t.setTop e).frame = t.frame := rfl
@[simp] theorem Team.setTop_frameDepth (t : Team) (e : PathEntry) : (t.setTop e).frameDepth = t.frameDepth := rfl
@[simp] theorem Team.setTop_v (t : Team) (e : PathEntry) : (t.setTop e).v = t.v := rfl
@[simp] theorem Team.setTop_s (t : Team) (e : PathEntry) : (t.setTop e).s = t.s := rfl
@[simp] theorem Team.setTop_p (t : Team) (e : PathEntry) : (t.setTop e).p = t.p := rfl
@[simp] theorem Team.setTop_q (t : Team) (e : PathEntry) : (t.setTop e).q = t.q := rfl
@[simp] theorem Team.setTop_tcw (t : Team) (e : PathEntry) : (t.setTop e).tcw = t.tcw := rfl
@[simp] theorem Team.setTop_seed0 (t : Team) (e : PathEntry) : (t.setTop e).seed0 = t.seed0 := rfl
@[simp] theorem Team.setTop_seed1 (t : Team) (e : PathEntry) : (t.setTop e).seed1 = t.seed1 := rfl
@[simp] theorem Team.setTop_seed2 (t : Team) (e : PathEntry) : (t.setTop e).seed2 = t.seed2 := rfl
@[simp] theorem Team.setTop_seed3 (t : Team) (e : PathEntry) : (t.setTop e).seed3 = t.seed3 := rfl
@[simp] theorem Team.setTop_tstka (t : Team) (e : PathEntry) : (t.setTop e).tstka = t.tstka := rfl
@[simp] theorem Team.setTop_tcause (t : Team) (e : PathEntry) : (t.setTop e).tcause = t.tcause := rfl
@[simp] theorem Team.setTop_tpc (t : Team) (e : PathEntry) : (t.setTop e).tpc = t.tpc := rfl
@[simp] theorem Team.setTop_tvb (t : Team) (e : PathEntry) : (t.setTop e).tvb = t.tvb := rfl
@[simp] theorem Team.setTop_tskip (t : Team) (e : PathEntry) : (t.setTop e).tskip = t.tskip := rfl
@[simp] theorem Team.setTop_skipPos (t : Team) (e : PathEntry) : (t.setTop e).skipPos = t.skipPos := rfl
@[simp] theorem Team.setTop_flm (t : Team) (e : PathEntry) : (t.setTop e).flm = t.flm := rfl
@[simp] theorem Team.setTop_dropl (t : Team) (e : PathEntry) : (t.setTop e).dropl = t.dropl := rfl
@[simp] theorem Team.setTop_ckinj (t : Team) (e : PathEntry) : (t.setTop e).ckinj = t.ckinj := rfl
@[simp] theorem Team.setTop_mxgang (t : Team) (e : PathEntry) : (t.setTop e).mxgang = t.mxgang := rfl
@[simp] theorem Team.setTop_mxwin (t : Team) (e : PathEntry) : (t.setTop e).mxwin = t.mxwin := rfl
@[simp] theorem Team.setTop_segs (t : Team) (e : PathEntry) : (t.setTop e).segs = t.segs := rfl
@[simp] theorem Team.setTop_segBind (t : Team) (e : PathEntry) : (t.setTop e).segBind = t.segBind := rfl
@[simp] theorem Team.setTop_segFaulted (t : Team) (e : PathEntry) : (t.setTop e).segFaulted = t.segFaulted := rfl
@[simp] theorem Team.setTop_handles (t : Team) (e : PathEntry) : (t.setTop e).handles = t.handles := rfl
@[simp] theorem Team.setTop_freeSlots (t : Team) (e : PathEntry) : (t.setTop e).freeSlots = t.freeSlots := rfl
@[simp] theorem Team.setTop_rounds (t : Team) (e : PathEntry) : (t.setTop e).rounds = t.rounds := rfl
@[simp] theorem Team.setTop_pendCauses (t : Team) (e : PathEntry) : (t.setTop e).pendCauses = t.pendCauses := rfl
@[simp] theorem Team.setTop_hold (t : Team) (e : PathEntry) : (t.setTop e).hold = t.hold := rfl
@[simp] theorem Team.setTop_heldLen (t : Team) (e : PathEntry) : (t.setTop e).heldLen = t.heldLen := rfl
@[simp] theorem Team.setTop_relTag (t : Team) (e : PathEntry) : (t.setTop e).relTag = t.relTag := rfl
@[simp] theorem Team.setTop_relIssue (t : Team) (e : PathEntry) : (t.setTop e).relIssue = t.relIssue := rfl
@[simp] theorem Team.setTop_fence (t : Team) (e : PathEntry) : (t.setTop e).fence = t.fence := rfl
@[simp] theorem Team.setTop_hostStores (t : Team) (e : PathEntry) : (t.setTop e).hostStores = t.hostStores := rfl
@[simp] theorem Team.setTop_dueAt (t : Team) (e : PathEntry) : (t.setTop e).dueAt = t.dueAt := rfl
@[simp] theorem Team.setTop_debtSeqOdd (t : Team) (e : PathEntry) : (t.setTop e).debtSeqOdd = t.debtSeqOdd := rfl
@[simp] theorem Team.setTop_copyLateHeld (t : Team) (e : PathEntry) : (t.setTop e).copyLateHeld = t.copyLateHeld := rfl
@[simp] theorem Team.setTop_debtHome (t : Team) (e : PathEntry) : (t.setTop e).debtHome = t.debtHome := rfl
@[simp] theorem Team.setTop_debtOdd (t : Team) (e : PathEntry) : (t.setTop e).debtOdd = t.debtOdd := rfl
@[simp] theorem Team.setTop_heldHome (t : Team) (e : PathEntry) : (t.setTop e).heldHome = t.heldHome := rfl
@[simp] theorem Team.setTop_heldOdd (t : Team) (e : PathEntry) : (t.setTop e).heldOdd = t.heldOdd := rfl
@[simp] theorem Team.setTop_readyAt (t : Team) (e : PathEntry) : (t.setTop e).readyAt = t.readyAt := rfl
@[simp] theorem Team.setTop_debtSeq (t : Team) (e : PathEntry) : (t.setTop e).debtSeq = t.debtSeq := rfl
@[simp] theorem Team.setTop_loopBuf (t : Team) (e : PathEntry) : (t.setTop e).loopBuf = t.loopBuf := rfl
@[simp] theorem Team.setTop_flight (t : Team) (e : PathEntry) : (t.setTop e).flight = t.flight := rfl
@[simp] theorem Team.setTop_issued (t : Team) (e : PathEntry) : (t.setTop e).issued = t.issued := rfl
@[simp] theorem Team.setTop_stopReq (t : Team) (e : PathEntry) : (t.setTop e).stopReq = t.stopReq := rfl

/-! ### `Team.setPc` -/

@[simp] theorem Team.setPc_uid (t : Team) (pc : BitVec 16) : (t.setPc pc).uid = t.uid := rfl
@[simp] theorem Team.setPc_gid (t : Team) (pc : BitVec 16) : (t.setPc pc).gid = t.gid := rfl
@[simp] theorem Team.setPc_ctx (t : Team) (pc : BitVec 16) : (t.setPc pc).ctx = t.ctx := rfl
@[simp] theorem Team.setPc_asid (t : Team) (pc : BitVec 16) : (t.setPc pc).asid = t.asid := rfl
@[simp] theorem Team.setPc_pri (t : Team) (pc : BitVec 16) : (t.setPc pc).pri = t.pri := rfl
@[simp] theorem Team.setPc_home (t : Team) (pc : BitVec 16) : (t.setPc pc).home = t.home := rfl
@[simp] theorem Team.setPc_pair (t : Team) (pc : BitVec 16) : (t.setPc pc).pair = t.pair := rfl
@[simp] theorem Team.setPc_slot (t : Team) (pc : BitVec 16) : (t.setPc pc).slot = t.slot := rfl
@[simp] theorem Team.setPc_lanes (t : Team) (pc : BitVec 16) : (t.setPc pc).lanes = t.lanes := rfl
@[simp] theorem Team.setPc_group (t : Team) (pc : BitVec 16) : (t.setPc pc).group = t.group := rfl
@[simp] theorem Team.setPc_nv (t : Team) (pc : BitVec 16) : (t.setPc pc).nv = t.nv := rfl
@[simp] theorem Team.setPc_lin (t : Team) (pc : BitVec 16) : (t.setPc pc).lin = t.lin := rfl
@[simp] theorem Team.setPc_res (t : Team) (pc : BitVec 16) : (t.setPc pc).res = t.res := rfl
@[simp] theorem Team.setPc_placedAt (t : Team) (pc : BitVec 16) : (t.setPc pc).placedAt = t.placedAt := rfl
@[simp] theorem Team.setPc_evictedAt (t : Team) (pc : BitVec 16) : (t.setPc pc).evictedAt = t.evictedAt := rfl
@[simp] theorem Team.setPc_spilled (t : Team) (pc : BitVec 16) : (t.setPc pc).spilled = t.spilled := rfl
@[simp] theorem Team.setPc_area (t : Team) (pc : BitVec 16) : (t.setPc pc).area = t.area := rfl
@[simp] theorem Team.setPc_frame (t : Team) (pc : BitVec 16) : (t.setPc pc).frame = t.frame := rfl
@[simp] theorem Team.setPc_frameDepth (t : Team) (pc : BitVec 16) : (t.setPc pc).frameDepth = t.frameDepth := rfl
@[simp] theorem Team.setPc_v (t : Team) (pc : BitVec 16) : (t.setPc pc).v = t.v := rfl
@[simp] theorem Team.setPc_s (t : Team) (pc : BitVec 16) : (t.setPc pc).s = t.s := rfl
@[simp] theorem Team.setPc_p (t : Team) (pc : BitVec 16) : (t.setPc pc).p = t.p := rfl
@[simp] theorem Team.setPc_q (t : Team) (pc : BitVec 16) : (t.setPc pc).q = t.q := rfl
@[simp] theorem Team.setPc_tcw (t : Team) (pc : BitVec 16) : (t.setPc pc).tcw = t.tcw := rfl
@[simp] theorem Team.setPc_seed0 (t : Team) (pc : BitVec 16) : (t.setPc pc).seed0 = t.seed0 := rfl
@[simp] theorem Team.setPc_seed1 (t : Team) (pc : BitVec 16) : (t.setPc pc).seed1 = t.seed1 := rfl
@[simp] theorem Team.setPc_seed2 (t : Team) (pc : BitVec 16) : (t.setPc pc).seed2 = t.seed2 := rfl
@[simp] theorem Team.setPc_seed3 (t : Team) (pc : BitVec 16) : (t.setPc pc).seed3 = t.seed3 := rfl
@[simp] theorem Team.setPc_tstka (t : Team) (pc : BitVec 16) : (t.setPc pc).tstka = t.tstka := rfl
@[simp] theorem Team.setPc_tcause (t : Team) (pc : BitVec 16) : (t.setPc pc).tcause = t.tcause := rfl
@[simp] theorem Team.setPc_tpc (t : Team) (pc : BitVec 16) : (t.setPc pc).tpc = t.tpc := rfl
@[simp] theorem Team.setPc_tvb (t : Team) (pc : BitVec 16) : (t.setPc pc).tvb = t.tvb := rfl
@[simp] theorem Team.setPc_tskip (t : Team) (pc : BitVec 16) : (t.setPc pc).tskip = t.tskip := rfl
@[simp] theorem Team.setPc_skipPos (t : Team) (pc : BitVec 16) : (t.setPc pc).skipPos = t.skipPos := rfl
@[simp] theorem Team.setPc_flm (t : Team) (pc : BitVec 16) : (t.setPc pc).flm = t.flm := rfl
@[simp] theorem Team.setPc_dropl (t : Team) (pc : BitVec 16) : (t.setPc pc).dropl = t.dropl := rfl
@[simp] theorem Team.setPc_ckinj (t : Team) (pc : BitVec 16) : (t.setPc pc).ckinj = t.ckinj := rfl
@[simp] theorem Team.setPc_mxgang (t : Team) (pc : BitVec 16) : (t.setPc pc).mxgang = t.mxgang := rfl
@[simp] theorem Team.setPc_mxwin (t : Team) (pc : BitVec 16) : (t.setPc pc).mxwin = t.mxwin := rfl
@[simp] theorem Team.setPc_segs (t : Team) (pc : BitVec 16) : (t.setPc pc).segs = t.segs := rfl
@[simp] theorem Team.setPc_segBind (t : Team) (pc : BitVec 16) : (t.setPc pc).segBind = t.segBind := rfl
@[simp] theorem Team.setPc_segFaulted (t : Team) (pc : BitVec 16) : (t.setPc pc).segFaulted = t.segFaulted := rfl
@[simp] theorem Team.setPc_handles (t : Team) (pc : BitVec 16) : (t.setPc pc).handles = t.handles := rfl
@[simp] theorem Team.setPc_freeSlots (t : Team) (pc : BitVec 16) : (t.setPc pc).freeSlots = t.freeSlots := rfl
@[simp] theorem Team.setPc_rounds (t : Team) (pc : BitVec 16) : (t.setPc pc).rounds = t.rounds := rfl
@[simp] theorem Team.setPc_pendCauses (t : Team) (pc : BitVec 16) : (t.setPc pc).pendCauses = t.pendCauses := rfl
@[simp] theorem Team.setPc_hold (t : Team) (pc : BitVec 16) : (t.setPc pc).hold = t.hold := rfl
@[simp] theorem Team.setPc_heldLen (t : Team) (pc : BitVec 16) : (t.setPc pc).heldLen = t.heldLen := rfl
@[simp] theorem Team.setPc_relTag (t : Team) (pc : BitVec 16) : (t.setPc pc).relTag = t.relTag := rfl
@[simp] theorem Team.setPc_relIssue (t : Team) (pc : BitVec 16) : (t.setPc pc).relIssue = t.relIssue := rfl
@[simp] theorem Team.setPc_fence (t : Team) (pc : BitVec 16) : (t.setPc pc).fence = t.fence := rfl
@[simp] theorem Team.setPc_hostStores (t : Team) (pc : BitVec 16) : (t.setPc pc).hostStores = t.hostStores := rfl
@[simp] theorem Team.setPc_dueAt (t : Team) (pc : BitVec 16) : (t.setPc pc).dueAt = t.dueAt := rfl
@[simp] theorem Team.setPc_debtSeqOdd (t : Team) (pc : BitVec 16) : (t.setPc pc).debtSeqOdd = t.debtSeqOdd := rfl
@[simp] theorem Team.setPc_copyLateHeld (t : Team) (pc : BitVec 16) : (t.setPc pc).copyLateHeld = t.copyLateHeld := rfl
@[simp] theorem Team.setPc_debtHome (t : Team) (pc : BitVec 16) : (t.setPc pc).debtHome = t.debtHome := rfl
@[simp] theorem Team.setPc_debtOdd (t : Team) (pc : BitVec 16) : (t.setPc pc).debtOdd = t.debtOdd := rfl
@[simp] theorem Team.setPc_heldHome (t : Team) (pc : BitVec 16) : (t.setPc pc).heldHome = t.heldHome := rfl
@[simp] theorem Team.setPc_heldOdd (t : Team) (pc : BitVec 16) : (t.setPc pc).heldOdd = t.heldOdd := rfl
@[simp] theorem Team.setPc_readyAt (t : Team) (pc : BitVec 16) : (t.setPc pc).readyAt = t.readyAt := rfl
@[simp] theorem Team.setPc_debtSeq (t : Team) (pc : BitVec 16) : (t.setPc pc).debtSeq = t.debtSeq := rfl
@[simp] theorem Team.setPc_loopBuf (t : Team) (pc : BitVec 16) : (t.setPc pc).loopBuf = t.loopBuf := rfl
@[simp] theorem Team.setPc_flight (t : Team) (pc : BitVec 16) : (t.setPc pc).flight = t.flight := rfl
@[simp] theorem Team.setPc_issued (t : Team) (pc : BitVec 16) : (t.setPc pc).issued = t.issued := rfl
@[simp] theorem Team.setPc_stopReq (t : Team) (pc : BitVec 16) : (t.setPc pc).stopReq = t.stopReq := rfl

/-! ### `Team.putSlot` -/

@[simp] theorem Team.putSlot_uid (t : Team) (n : Nat) (h : HSlot) : (t.putSlot n h).uid = t.uid := rfl
@[simp] theorem Team.putSlot_gid (t : Team) (n : Nat) (h : HSlot) : (t.putSlot n h).gid = t.gid := rfl
@[simp] theorem Team.putSlot_ctx (t : Team) (n : Nat) (h : HSlot) : (t.putSlot n h).ctx = t.ctx := rfl
@[simp] theorem Team.putSlot_asid (t : Team) (n : Nat) (h : HSlot) : (t.putSlot n h).asid = t.asid := rfl
@[simp] theorem Team.putSlot_pri (t : Team) (n : Nat) (h : HSlot) : (t.putSlot n h).pri = t.pri := rfl
@[simp] theorem Team.putSlot_home (t : Team) (n : Nat) (h : HSlot) : (t.putSlot n h).home = t.home := rfl
@[simp] theorem Team.putSlot_pair (t : Team) (n : Nat) (h : HSlot) : (t.putSlot n h).pair = t.pair := rfl
@[simp] theorem Team.putSlot_slot (t : Team) (n : Nat) (h : HSlot) : (t.putSlot n h).slot = t.slot := rfl
@[simp] theorem Team.putSlot_lanes (t : Team) (n : Nat) (h : HSlot) : (t.putSlot n h).lanes = t.lanes := rfl
@[simp] theorem Team.putSlot_group (t : Team) (n : Nat) (h : HSlot) : (t.putSlot n h).group = t.group := rfl
@[simp] theorem Team.putSlot_nv (t : Team) (n : Nat) (h : HSlot) : (t.putSlot n h).nv = t.nv := rfl
@[simp] theorem Team.putSlot_lin (t : Team) (n : Nat) (h : HSlot) : (t.putSlot n h).lin = t.lin := rfl
@[simp] theorem Team.putSlot_res (t : Team) (n : Nat) (h : HSlot) : (t.putSlot n h).res = t.res := rfl
@[simp] theorem Team.putSlot_placedAt (t : Team) (n : Nat) (h : HSlot) : (t.putSlot n h).placedAt = t.placedAt := rfl
@[simp] theorem Team.putSlot_evictedAt (t : Team) (n : Nat) (h : HSlot) : (t.putSlot n h).evictedAt = t.evictedAt := rfl
@[simp] theorem Team.putSlot_stack (t : Team) (n : Nat) (h : HSlot) : (t.putSlot n h).stack = t.stack := rfl
@[simp] theorem Team.putSlot_spilled (t : Team) (n : Nat) (h : HSlot) : (t.putSlot n h).spilled = t.spilled := rfl
@[simp] theorem Team.putSlot_area (t : Team) (n : Nat) (h : HSlot) : (t.putSlot n h).area = t.area := rfl
@[simp] theorem Team.putSlot_frame (t : Team) (n : Nat) (h : HSlot) : (t.putSlot n h).frame = t.frame := rfl
@[simp] theorem Team.putSlot_frameDepth (t : Team) (n : Nat) (h : HSlot) : (t.putSlot n h).frameDepth = t.frameDepth := rfl
@[simp] theorem Team.putSlot_v (t : Team) (n : Nat) (h : HSlot) : (t.putSlot n h).v = t.v := rfl
@[simp] theorem Team.putSlot_s (t : Team) (n : Nat) (h : HSlot) : (t.putSlot n h).s = t.s := rfl
@[simp] theorem Team.putSlot_p (t : Team) (n : Nat) (h : HSlot) : (t.putSlot n h).p = t.p := rfl
@[simp] theorem Team.putSlot_q (t : Team) (n : Nat) (h : HSlot) : (t.putSlot n h).q = t.q := rfl
@[simp] theorem Team.putSlot_tcw (t : Team) (n : Nat) (h : HSlot) : (t.putSlot n h).tcw = t.tcw := rfl
@[simp] theorem Team.putSlot_seed0 (t : Team) (n : Nat) (h : HSlot) : (t.putSlot n h).seed0 = t.seed0 := rfl
@[simp] theorem Team.putSlot_seed1 (t : Team) (n : Nat) (h : HSlot) : (t.putSlot n h).seed1 = t.seed1 := rfl
@[simp] theorem Team.putSlot_seed2 (t : Team) (n : Nat) (h : HSlot) : (t.putSlot n h).seed2 = t.seed2 := rfl
@[simp] theorem Team.putSlot_seed3 (t : Team) (n : Nat) (h : HSlot) : (t.putSlot n h).seed3 = t.seed3 := rfl
@[simp] theorem Team.putSlot_tstka (t : Team) (n : Nat) (h : HSlot) : (t.putSlot n h).tstka = t.tstka := rfl
@[simp] theorem Team.putSlot_tcause (t : Team) (n : Nat) (h : HSlot) : (t.putSlot n h).tcause = t.tcause := rfl
@[simp] theorem Team.putSlot_tpc (t : Team) (n : Nat) (h : HSlot) : (t.putSlot n h).tpc = t.tpc := rfl
@[simp] theorem Team.putSlot_tvb (t : Team) (n : Nat) (h : HSlot) : (t.putSlot n h).tvb = t.tvb := rfl
@[simp] theorem Team.putSlot_tskip (t : Team) (n : Nat) (h : HSlot) : (t.putSlot n h).tskip = t.tskip := rfl
@[simp] theorem Team.putSlot_skipPos (t : Team) (n : Nat) (h : HSlot) : (t.putSlot n h).skipPos = t.skipPos := rfl
@[simp] theorem Team.putSlot_flm (t : Team) (n : Nat) (h : HSlot) : (t.putSlot n h).flm = t.flm := rfl
@[simp] theorem Team.putSlot_dropl (t : Team) (n : Nat) (h : HSlot) : (t.putSlot n h).dropl = t.dropl := rfl
@[simp] theorem Team.putSlot_ckinj (t : Team) (n : Nat) (h : HSlot) : (t.putSlot n h).ckinj = t.ckinj := rfl
@[simp] theorem Team.putSlot_mxgang (t : Team) (n : Nat) (h : HSlot) : (t.putSlot n h).mxgang = t.mxgang := rfl
@[simp] theorem Team.putSlot_mxwin (t : Team) (n : Nat) (h : HSlot) : (t.putSlot n h).mxwin = t.mxwin := rfl
@[simp] theorem Team.putSlot_segs (t : Team) (n : Nat) (h : HSlot) : (t.putSlot n h).segs = t.segs := rfl
@[simp] theorem Team.putSlot_segBind (t : Team) (n : Nat) (h : HSlot) : (t.putSlot n h).segBind = t.segBind := rfl
@[simp] theorem Team.putSlot_segFaulted (t : Team) (n : Nat) (h : HSlot) : (t.putSlot n h).segFaulted = t.segFaulted := rfl
@[simp] theorem Team.putSlot_freeSlots (t : Team) (n : Nat) (h : HSlot) : (t.putSlot n h).freeSlots = t.freeSlots := rfl
@[simp] theorem Team.putSlot_rounds (t : Team) (n : Nat) (h : HSlot) : (t.putSlot n h).rounds = t.rounds := rfl
@[simp] theorem Team.putSlot_pendCauses (t : Team) (n : Nat) (h : HSlot) : (t.putSlot n h).pendCauses = t.pendCauses := rfl
@[simp] theorem Team.putSlot_hold (t : Team) (n : Nat) (h : HSlot) : (t.putSlot n h).hold = t.hold := rfl
@[simp] theorem Team.putSlot_heldLen (t : Team) (n : Nat) (h : HSlot) : (t.putSlot n h).heldLen = t.heldLen := rfl
@[simp] theorem Team.putSlot_relTag (t : Team) (n : Nat) (h : HSlot) : (t.putSlot n h).relTag = t.relTag := rfl
@[simp] theorem Team.putSlot_relIssue (t : Team) (n : Nat) (h : HSlot) : (t.putSlot n h).relIssue = t.relIssue := rfl
@[simp] theorem Team.putSlot_fence (t : Team) (n : Nat) (h : HSlot) : (t.putSlot n h).fence = t.fence := rfl
@[simp] theorem Team.putSlot_hostStores (t : Team) (n : Nat) (h : HSlot) : (t.putSlot n h).hostStores = t.hostStores := rfl
@[simp] theorem Team.putSlot_dueAt (t : Team) (n : Nat) (h : HSlot) : (t.putSlot n h).dueAt = t.dueAt := rfl
@[simp] theorem Team.putSlot_debtSeqOdd (t : Team) (n : Nat) (h : HSlot) : (t.putSlot n h).debtSeqOdd = t.debtSeqOdd := rfl
@[simp] theorem Team.putSlot_copyLateHeld (t : Team) (n : Nat) (h : HSlot) : (t.putSlot n h).copyLateHeld = t.copyLateHeld := rfl
@[simp] theorem Team.putSlot_debtHome (t : Team) (n : Nat) (h : HSlot) : (t.putSlot n h).debtHome = t.debtHome := rfl
@[simp] theorem Team.putSlot_debtOdd (t : Team) (n : Nat) (h : HSlot) : (t.putSlot n h).debtOdd = t.debtOdd := rfl
@[simp] theorem Team.putSlot_heldHome (t : Team) (n : Nat) (h : HSlot) : (t.putSlot n h).heldHome = t.heldHome := rfl
@[simp] theorem Team.putSlot_heldOdd (t : Team) (n : Nat) (h : HSlot) : (t.putSlot n h).heldOdd = t.heldOdd := rfl
@[simp] theorem Team.putSlot_readyAt (t : Team) (n : Nat) (h : HSlot) : (t.putSlot n h).readyAt = t.readyAt := rfl
@[simp] theorem Team.putSlot_debtSeq (t : Team) (n : Nat) (h : HSlot) : (t.putSlot n h).debtSeq = t.debtSeq := rfl
@[simp] theorem Team.putSlot_loopBuf (t : Team) (n : Nat) (h : HSlot) : (t.putSlot n h).loopBuf = t.loopBuf := rfl
@[simp] theorem Team.putSlot_flight (t : Team) (n : Nat) (h : HSlot) : (t.putSlot n h).flight = t.flight := rfl
@[simp] theorem Team.putSlot_issued (t : Team) (n : Nat) (h : HSlot) : (t.putSlot n h).issued = t.issued := rfl
@[simp] theorem Team.putSlot_stopReq (t : Team) (n : Nat) (h : HSlot) : (t.putSlot n h).stopReq = t.stopReq := rfl

/-! ### `Team.putSpill` -/

@[simp] theorem Team.putSpill_uid (t : Team) (j : Nat) (e : PathEntry) : (t.putSpill j e).uid = t.uid := rfl
@[simp] theorem Team.putSpill_gid (t : Team) (j : Nat) (e : PathEntry) : (t.putSpill j e).gid = t.gid := rfl
@[simp] theorem Team.putSpill_ctx (t : Team) (j : Nat) (e : PathEntry) : (t.putSpill j e).ctx = t.ctx := rfl
@[simp] theorem Team.putSpill_asid (t : Team) (j : Nat) (e : PathEntry) : (t.putSpill j e).asid = t.asid := rfl
@[simp] theorem Team.putSpill_pri (t : Team) (j : Nat) (e : PathEntry) : (t.putSpill j e).pri = t.pri := rfl
@[simp] theorem Team.putSpill_home (t : Team) (j : Nat) (e : PathEntry) : (t.putSpill j e).home = t.home := rfl
@[simp] theorem Team.putSpill_pair (t : Team) (j : Nat) (e : PathEntry) : (t.putSpill j e).pair = t.pair := rfl
@[simp] theorem Team.putSpill_slot (t : Team) (j : Nat) (e : PathEntry) : (t.putSpill j e).slot = t.slot := rfl
@[simp] theorem Team.putSpill_lanes (t : Team) (j : Nat) (e : PathEntry) : (t.putSpill j e).lanes = t.lanes := rfl
@[simp] theorem Team.putSpill_group (t : Team) (j : Nat) (e : PathEntry) : (t.putSpill j e).group = t.group := rfl
@[simp] theorem Team.putSpill_nv (t : Team) (j : Nat) (e : PathEntry) : (t.putSpill j e).nv = t.nv := rfl
@[simp] theorem Team.putSpill_lin (t : Team) (j : Nat) (e : PathEntry) : (t.putSpill j e).lin = t.lin := rfl
@[simp] theorem Team.putSpill_res (t : Team) (j : Nat) (e : PathEntry) : (t.putSpill j e).res = t.res := rfl
@[simp] theorem Team.putSpill_placedAt (t : Team) (j : Nat) (e : PathEntry) : (t.putSpill j e).placedAt = t.placedAt := rfl
@[simp] theorem Team.putSpill_evictedAt (t : Team) (j : Nat) (e : PathEntry) : (t.putSpill j e).evictedAt = t.evictedAt := rfl
@[simp] theorem Team.putSpill_stack (t : Team) (j : Nat) (e : PathEntry) : (t.putSpill j e).stack = t.stack := rfl
@[simp] theorem Team.putSpill_spilled (t : Team) (j : Nat) (e : PathEntry) : (t.putSpill j e).spilled = t.spilled := rfl
@[simp] theorem Team.putSpill_frame (t : Team) (j : Nat) (e : PathEntry) : (t.putSpill j e).frame = t.frame := rfl
@[simp] theorem Team.putSpill_frameDepth (t : Team) (j : Nat) (e : PathEntry) : (t.putSpill j e).frameDepth = t.frameDepth := rfl
@[simp] theorem Team.putSpill_v (t : Team) (j : Nat) (e : PathEntry) : (t.putSpill j e).v = t.v := rfl
@[simp] theorem Team.putSpill_s (t : Team) (j : Nat) (e : PathEntry) : (t.putSpill j e).s = t.s := rfl
@[simp] theorem Team.putSpill_p (t : Team) (j : Nat) (e : PathEntry) : (t.putSpill j e).p = t.p := rfl
@[simp] theorem Team.putSpill_q (t : Team) (j : Nat) (e : PathEntry) : (t.putSpill j e).q = t.q := rfl
@[simp] theorem Team.putSpill_tcw (t : Team) (j : Nat) (e : PathEntry) : (t.putSpill j e).tcw = t.tcw := rfl
@[simp] theorem Team.putSpill_seed0 (t : Team) (j : Nat) (e : PathEntry) : (t.putSpill j e).seed0 = t.seed0 := rfl
@[simp] theorem Team.putSpill_seed1 (t : Team) (j : Nat) (e : PathEntry) : (t.putSpill j e).seed1 = t.seed1 := rfl
@[simp] theorem Team.putSpill_seed2 (t : Team) (j : Nat) (e : PathEntry) : (t.putSpill j e).seed2 = t.seed2 := rfl
@[simp] theorem Team.putSpill_seed3 (t : Team) (j : Nat) (e : PathEntry) : (t.putSpill j e).seed3 = t.seed3 := rfl
@[simp] theorem Team.putSpill_tstka (t : Team) (j : Nat) (e : PathEntry) : (t.putSpill j e).tstka = t.tstka := rfl
@[simp] theorem Team.putSpill_tcause (t : Team) (j : Nat) (e : PathEntry) : (t.putSpill j e).tcause = t.tcause := rfl
@[simp] theorem Team.putSpill_tpc (t : Team) (j : Nat) (e : PathEntry) : (t.putSpill j e).tpc = t.tpc := rfl
@[simp] theorem Team.putSpill_tvb (t : Team) (j : Nat) (e : PathEntry) : (t.putSpill j e).tvb = t.tvb := rfl
@[simp] theorem Team.putSpill_tskip (t : Team) (j : Nat) (e : PathEntry) : (t.putSpill j e).tskip = t.tskip := rfl
@[simp] theorem Team.putSpill_skipPos (t : Team) (j : Nat) (e : PathEntry) : (t.putSpill j e).skipPos = t.skipPos := rfl
@[simp] theorem Team.putSpill_flm (t : Team) (j : Nat) (e : PathEntry) : (t.putSpill j e).flm = t.flm := rfl
@[simp] theorem Team.putSpill_dropl (t : Team) (j : Nat) (e : PathEntry) : (t.putSpill j e).dropl = t.dropl := rfl
@[simp] theorem Team.putSpill_ckinj (t : Team) (j : Nat) (e : PathEntry) : (t.putSpill j e).ckinj = t.ckinj := rfl
@[simp] theorem Team.putSpill_mxgang (t : Team) (j : Nat) (e : PathEntry) : (t.putSpill j e).mxgang = t.mxgang := rfl
@[simp] theorem Team.putSpill_mxwin (t : Team) (j : Nat) (e : PathEntry) : (t.putSpill j e).mxwin = t.mxwin := rfl
@[simp] theorem Team.putSpill_segs (t : Team) (j : Nat) (e : PathEntry) : (t.putSpill j e).segs = t.segs := rfl
@[simp] theorem Team.putSpill_segBind (t : Team) (j : Nat) (e : PathEntry) : (t.putSpill j e).segBind = t.segBind := rfl
@[simp] theorem Team.putSpill_segFaulted (t : Team) (j : Nat) (e : PathEntry) : (t.putSpill j e).segFaulted = t.segFaulted := rfl
@[simp] theorem Team.putSpill_handles (t : Team) (j : Nat) (e : PathEntry) : (t.putSpill j e).handles = t.handles := rfl
@[simp] theorem Team.putSpill_freeSlots (t : Team) (j : Nat) (e : PathEntry) : (t.putSpill j e).freeSlots = t.freeSlots := rfl
@[simp] theorem Team.putSpill_rounds (t : Team) (j : Nat) (e : PathEntry) : (t.putSpill j e).rounds = t.rounds := rfl
@[simp] theorem Team.putSpill_pendCauses (t : Team) (j : Nat) (e : PathEntry) : (t.putSpill j e).pendCauses = t.pendCauses := rfl
@[simp] theorem Team.putSpill_hold (t : Team) (j : Nat) (e : PathEntry) : (t.putSpill j e).hold = t.hold := rfl
@[simp] theorem Team.putSpill_heldLen (t : Team) (j : Nat) (e : PathEntry) : (t.putSpill j e).heldLen = t.heldLen := rfl
@[simp] theorem Team.putSpill_relTag (t : Team) (j : Nat) (e : PathEntry) : (t.putSpill j e).relTag = t.relTag := rfl
@[simp] theorem Team.putSpill_relIssue (t : Team) (j : Nat) (e : PathEntry) : (t.putSpill j e).relIssue = t.relIssue := rfl
@[simp] theorem Team.putSpill_fence (t : Team) (j : Nat) (e : PathEntry) : (t.putSpill j e).fence = t.fence := rfl
@[simp] theorem Team.putSpill_hostStores (t : Team) (j : Nat) (e : PathEntry) : (t.putSpill j e).hostStores = t.hostStores := rfl
@[simp] theorem Team.putSpill_dueAt (t : Team) (j : Nat) (e : PathEntry) : (t.putSpill j e).dueAt = t.dueAt := rfl
@[simp] theorem Team.putSpill_debtSeqOdd (t : Team) (j : Nat) (e : PathEntry) : (t.putSpill j e).debtSeqOdd = t.debtSeqOdd := rfl
@[simp] theorem Team.putSpill_copyLateHeld (t : Team) (j : Nat) (e : PathEntry) : (t.putSpill j e).copyLateHeld = t.copyLateHeld := rfl
@[simp] theorem Team.putSpill_debtHome (t : Team) (j : Nat) (e : PathEntry) : (t.putSpill j e).debtHome = t.debtHome := rfl
@[simp] theorem Team.putSpill_debtOdd (t : Team) (j : Nat) (e : PathEntry) : (t.putSpill j e).debtOdd = t.debtOdd := rfl
@[simp] theorem Team.putSpill_heldHome (t : Team) (j : Nat) (e : PathEntry) : (t.putSpill j e).heldHome = t.heldHome := rfl
@[simp] theorem Team.putSpill_heldOdd (t : Team) (j : Nat) (e : PathEntry) : (t.putSpill j e).heldOdd = t.heldOdd := rfl
@[simp] theorem Team.putSpill_readyAt (t : Team) (j : Nat) (e : PathEntry) : (t.putSpill j e).readyAt = t.readyAt := rfl
@[simp] theorem Team.putSpill_debtSeq (t : Team) (j : Nat) (e : PathEntry) : (t.putSpill j e).debtSeq = t.debtSeq := rfl
@[simp] theorem Team.putSpill_loopBuf (t : Team) (j : Nat) (e : PathEntry) : (t.putSpill j e).loopBuf = t.loopBuf := rfl
@[simp] theorem Team.putSpill_flight (t : Team) (j : Nat) (e : PathEntry) : (t.putSpill j e).flight = t.flight := rfl
@[simp] theorem Team.putSpill_issued (t : Team) (j : Nat) (e : PathEntry) : (t.putSpill j e).issued = t.issued := rfl
@[simp] theorem Team.putSpill_stopReq (t : Team) (j : Nat) (e : PathEntry) : (t.putSpill j e).stopReq = t.stopReq := rfl

/-! ### `Team.pendCause` -/

@[simp] theorem Team.pendCause_uid (t : Team) (c : Cause) : (t.pendCause c).uid = t.uid := rfl
@[simp] theorem Team.pendCause_gid (t : Team) (c : Cause) : (t.pendCause c).gid = t.gid := rfl
@[simp] theorem Team.pendCause_ctx (t : Team) (c : Cause) : (t.pendCause c).ctx = t.ctx := rfl
@[simp] theorem Team.pendCause_asid (t : Team) (c : Cause) : (t.pendCause c).asid = t.asid := rfl
@[simp] theorem Team.pendCause_pri (t : Team) (c : Cause) : (t.pendCause c).pri = t.pri := rfl
@[simp] theorem Team.pendCause_home (t : Team) (c : Cause) : (t.pendCause c).home = t.home := rfl
@[simp] theorem Team.pendCause_pair (t : Team) (c : Cause) : (t.pendCause c).pair = t.pair := rfl
@[simp] theorem Team.pendCause_slot (t : Team) (c : Cause) : (t.pendCause c).slot = t.slot := rfl
@[simp] theorem Team.pendCause_lanes (t : Team) (c : Cause) : (t.pendCause c).lanes = t.lanes := rfl
@[simp] theorem Team.pendCause_group (t : Team) (c : Cause) : (t.pendCause c).group = t.group := rfl
@[simp] theorem Team.pendCause_nv (t : Team) (c : Cause) : (t.pendCause c).nv = t.nv := rfl
@[simp] theorem Team.pendCause_lin (t : Team) (c : Cause) : (t.pendCause c).lin = t.lin := rfl
@[simp] theorem Team.pendCause_res (t : Team) (c : Cause) : (t.pendCause c).res = t.res := rfl
@[simp] theorem Team.pendCause_placedAt (t : Team) (c : Cause) : (t.pendCause c).placedAt = t.placedAt := rfl
@[simp] theorem Team.pendCause_evictedAt (t : Team) (c : Cause) : (t.pendCause c).evictedAt = t.evictedAt := rfl
@[simp] theorem Team.pendCause_stack (t : Team) (c : Cause) : (t.pendCause c).stack = t.stack := rfl
@[simp] theorem Team.pendCause_spilled (t : Team) (c : Cause) : (t.pendCause c).spilled = t.spilled := rfl
@[simp] theorem Team.pendCause_area (t : Team) (c : Cause) : (t.pendCause c).area = t.area := rfl
@[simp] theorem Team.pendCause_frame (t : Team) (c : Cause) : (t.pendCause c).frame = t.frame := rfl
@[simp] theorem Team.pendCause_frameDepth (t : Team) (c : Cause) : (t.pendCause c).frameDepth = t.frameDepth := rfl
@[simp] theorem Team.pendCause_v (t : Team) (c : Cause) : (t.pendCause c).v = t.v := rfl
@[simp] theorem Team.pendCause_s (t : Team) (c : Cause) : (t.pendCause c).s = t.s := rfl
@[simp] theorem Team.pendCause_p (t : Team) (c : Cause) : (t.pendCause c).p = t.p := rfl
@[simp] theorem Team.pendCause_q (t : Team) (c : Cause) : (t.pendCause c).q = t.q := rfl
@[simp] theorem Team.pendCause_tcw (t : Team) (c : Cause) : (t.pendCause c).tcw = t.tcw := rfl
@[simp] theorem Team.pendCause_seed0 (t : Team) (c : Cause) : (t.pendCause c).seed0 = t.seed0 := rfl
@[simp] theorem Team.pendCause_seed1 (t : Team) (c : Cause) : (t.pendCause c).seed1 = t.seed1 := rfl
@[simp] theorem Team.pendCause_seed2 (t : Team) (c : Cause) : (t.pendCause c).seed2 = t.seed2 := rfl
@[simp] theorem Team.pendCause_seed3 (t : Team) (c : Cause) : (t.pendCause c).seed3 = t.seed3 := rfl
@[simp] theorem Team.pendCause_tstka (t : Team) (c : Cause) : (t.pendCause c).tstka = t.tstka := rfl
@[simp] theorem Team.pendCause_tcause (t : Team) (c : Cause) : (t.pendCause c).tcause = t.tcause := rfl
@[simp] theorem Team.pendCause_tpc (t : Team) (c : Cause) : (t.pendCause c).tpc = t.tpc := rfl
@[simp] theorem Team.pendCause_tvb (t : Team) (c : Cause) : (t.pendCause c).tvb = t.tvb := rfl
@[simp] theorem Team.pendCause_tskip (t : Team) (c : Cause) : (t.pendCause c).tskip = t.tskip := rfl
@[simp] theorem Team.pendCause_skipPos (t : Team) (c : Cause) : (t.pendCause c).skipPos = t.skipPos := rfl
@[simp] theorem Team.pendCause_flm (t : Team) (c : Cause) : (t.pendCause c).flm = t.flm := rfl
@[simp] theorem Team.pendCause_dropl (t : Team) (c : Cause) : (t.pendCause c).dropl = t.dropl := rfl
@[simp] theorem Team.pendCause_ckinj (t : Team) (c : Cause) : (t.pendCause c).ckinj = t.ckinj := rfl
@[simp] theorem Team.pendCause_mxgang (t : Team) (c : Cause) : (t.pendCause c).mxgang = t.mxgang := rfl
@[simp] theorem Team.pendCause_mxwin (t : Team) (c : Cause) : (t.pendCause c).mxwin = t.mxwin := rfl
@[simp] theorem Team.pendCause_segs (t : Team) (c : Cause) : (t.pendCause c).segs = t.segs := rfl
@[simp] theorem Team.pendCause_segBind (t : Team) (c : Cause) : (t.pendCause c).segBind = t.segBind := rfl
@[simp] theorem Team.pendCause_segFaulted (t : Team) (c : Cause) : (t.pendCause c).segFaulted = t.segFaulted := rfl
@[simp] theorem Team.pendCause_handles (t : Team) (c : Cause) : (t.pendCause c).handles = t.handles := rfl
@[simp] theorem Team.pendCause_freeSlots (t : Team) (c : Cause) : (t.pendCause c).freeSlots = t.freeSlots := rfl
@[simp] theorem Team.pendCause_rounds (t : Team) (c : Cause) : (t.pendCause c).rounds = t.rounds := rfl
@[simp] theorem Team.pendCause_hold (t : Team) (c : Cause) : (t.pendCause c).hold = t.hold := rfl
@[simp] theorem Team.pendCause_heldLen (t : Team) (c : Cause) : (t.pendCause c).heldLen = t.heldLen := rfl
@[simp] theorem Team.pendCause_relTag (t : Team) (c : Cause) : (t.pendCause c).relTag = t.relTag := rfl
@[simp] theorem Team.pendCause_relIssue (t : Team) (c : Cause) : (t.pendCause c).relIssue = t.relIssue := rfl
@[simp] theorem Team.pendCause_fence (t : Team) (c : Cause) : (t.pendCause c).fence = t.fence := rfl
@[simp] theorem Team.pendCause_hostStores (t : Team) (c : Cause) : (t.pendCause c).hostStores = t.hostStores := rfl
@[simp] theorem Team.pendCause_dueAt (t : Team) (c : Cause) : (t.pendCause c).dueAt = t.dueAt := rfl
@[simp] theorem Team.pendCause_debtSeqOdd (t : Team) (c : Cause) : (t.pendCause c).debtSeqOdd = t.debtSeqOdd := rfl
@[simp] theorem Team.pendCause_copyLateHeld (t : Team) (c : Cause) : (t.pendCause c).copyLateHeld = t.copyLateHeld := rfl
@[simp] theorem Team.pendCause_debtHome (t : Team) (c : Cause) : (t.pendCause c).debtHome = t.debtHome := rfl
@[simp] theorem Team.pendCause_debtOdd (t : Team) (c : Cause) : (t.pendCause c).debtOdd = t.debtOdd := rfl
@[simp] theorem Team.pendCause_heldHome (t : Team) (c : Cause) : (t.pendCause c).heldHome = t.heldHome := rfl
@[simp] theorem Team.pendCause_heldOdd (t : Team) (c : Cause) : (t.pendCause c).heldOdd = t.heldOdd := rfl
@[simp] theorem Team.pendCause_readyAt (t : Team) (c : Cause) : (t.pendCause c).readyAt = t.readyAt := rfl
@[simp] theorem Team.pendCause_debtSeq (t : Team) (c : Cause) : (t.pendCause c).debtSeq = t.debtSeq := rfl
@[simp] theorem Team.pendCause_loopBuf (t : Team) (c : Cause) : (t.pendCause c).loopBuf = t.loopBuf := rfl
@[simp] theorem Team.pendCause_flight (t : Team) (c : Cause) : (t.pendCause c).flight = t.flight := rfl
@[simp] theorem Team.pendCause_issued (t : Team) (c : Cause) : (t.pendCause c).issued = t.issued := rfl
@[simp] theorem Team.pendCause_stopReq (t : Team) (c : Cause) : (t.pendCause c).stopReq = t.stopReq := rfl

/-! ### `Team.holdCause` -/

@[simp] theorem Team.holdCause_uid (t : Team) (c : Cause) : (t.holdCause c).uid = t.uid := rfl
@[simp] theorem Team.holdCause_gid (t : Team) (c : Cause) : (t.holdCause c).gid = t.gid := rfl
@[simp] theorem Team.holdCause_ctx (t : Team) (c : Cause) : (t.holdCause c).ctx = t.ctx := rfl
@[simp] theorem Team.holdCause_asid (t : Team) (c : Cause) : (t.holdCause c).asid = t.asid := rfl
@[simp] theorem Team.holdCause_pri (t : Team) (c : Cause) : (t.holdCause c).pri = t.pri := rfl
@[simp] theorem Team.holdCause_home (t : Team) (c : Cause) : (t.holdCause c).home = t.home := rfl
@[simp] theorem Team.holdCause_pair (t : Team) (c : Cause) : (t.holdCause c).pair = t.pair := rfl
@[simp] theorem Team.holdCause_slot (t : Team) (c : Cause) : (t.holdCause c).slot = t.slot := rfl
@[simp] theorem Team.holdCause_lanes (t : Team) (c : Cause) : (t.holdCause c).lanes = t.lanes := rfl
@[simp] theorem Team.holdCause_group (t : Team) (c : Cause) : (t.holdCause c).group = t.group := rfl
@[simp] theorem Team.holdCause_nv (t : Team) (c : Cause) : (t.holdCause c).nv = t.nv := rfl
@[simp] theorem Team.holdCause_lin (t : Team) (c : Cause) : (t.holdCause c).lin = t.lin := rfl
@[simp] theorem Team.holdCause_res (t : Team) (c : Cause) : (t.holdCause c).res = t.res := rfl
@[simp] theorem Team.holdCause_placedAt (t : Team) (c : Cause) : (t.holdCause c).placedAt = t.placedAt := rfl
@[simp] theorem Team.holdCause_evictedAt (t : Team) (c : Cause) : (t.holdCause c).evictedAt = t.evictedAt := rfl
@[simp] theorem Team.holdCause_stack (t : Team) (c : Cause) : (t.holdCause c).stack = t.stack := rfl
@[simp] theorem Team.holdCause_spilled (t : Team) (c : Cause) : (t.holdCause c).spilled = t.spilled := rfl
@[simp] theorem Team.holdCause_area (t : Team) (c : Cause) : (t.holdCause c).area = t.area := rfl
@[simp] theorem Team.holdCause_frame (t : Team) (c : Cause) : (t.holdCause c).frame = t.frame := rfl
@[simp] theorem Team.holdCause_frameDepth (t : Team) (c : Cause) : (t.holdCause c).frameDepth = t.frameDepth := rfl
@[simp] theorem Team.holdCause_v (t : Team) (c : Cause) : (t.holdCause c).v = t.v := rfl
@[simp] theorem Team.holdCause_s (t : Team) (c : Cause) : (t.holdCause c).s = t.s := rfl
@[simp] theorem Team.holdCause_p (t : Team) (c : Cause) : (t.holdCause c).p = t.p := rfl
@[simp] theorem Team.holdCause_q (t : Team) (c : Cause) : (t.holdCause c).q = t.q := rfl
@[simp] theorem Team.holdCause_tcw (t : Team) (c : Cause) : (t.holdCause c).tcw = t.tcw := rfl
@[simp] theorem Team.holdCause_seed0 (t : Team) (c : Cause) : (t.holdCause c).seed0 = t.seed0 := rfl
@[simp] theorem Team.holdCause_seed1 (t : Team) (c : Cause) : (t.holdCause c).seed1 = t.seed1 := rfl
@[simp] theorem Team.holdCause_seed2 (t : Team) (c : Cause) : (t.holdCause c).seed2 = t.seed2 := rfl
@[simp] theorem Team.holdCause_seed3 (t : Team) (c : Cause) : (t.holdCause c).seed3 = t.seed3 := rfl
@[simp] theorem Team.holdCause_tstka (t : Team) (c : Cause) : (t.holdCause c).tstka = t.tstka := rfl
@[simp] theorem Team.holdCause_tpc (t : Team) (c : Cause) : (t.holdCause c).tpc = t.tpc := rfl
@[simp] theorem Team.holdCause_tvb (t : Team) (c : Cause) : (t.holdCause c).tvb = t.tvb := rfl
@[simp] theorem Team.holdCause_tskip (t : Team) (c : Cause) : (t.holdCause c).tskip = t.tskip := rfl
@[simp] theorem Team.holdCause_skipPos (t : Team) (c : Cause) : (t.holdCause c).skipPos = t.skipPos := rfl
@[simp] theorem Team.holdCause_flm (t : Team) (c : Cause) : (t.holdCause c).flm = t.flm := rfl
@[simp] theorem Team.holdCause_dropl (t : Team) (c : Cause) : (t.holdCause c).dropl = t.dropl := rfl
@[simp] theorem Team.holdCause_ckinj (t : Team) (c : Cause) : (t.holdCause c).ckinj = t.ckinj := rfl
@[simp] theorem Team.holdCause_mxgang (t : Team) (c : Cause) : (t.holdCause c).mxgang = t.mxgang := rfl
@[simp] theorem Team.holdCause_mxwin (t : Team) (c : Cause) : (t.holdCause c).mxwin = t.mxwin := rfl
@[simp] theorem Team.holdCause_segs (t : Team) (c : Cause) : (t.holdCause c).segs = t.segs := rfl
@[simp] theorem Team.holdCause_segBind (t : Team) (c : Cause) : (t.holdCause c).segBind = t.segBind := rfl
@[simp] theorem Team.holdCause_segFaulted (t : Team) (c : Cause) : (t.holdCause c).segFaulted = t.segFaulted := rfl
@[simp] theorem Team.holdCause_handles (t : Team) (c : Cause) : (t.holdCause c).handles = t.handles := rfl
@[simp] theorem Team.holdCause_freeSlots (t : Team) (c : Cause) : (t.holdCause c).freeSlots = t.freeSlots := rfl
@[simp] theorem Team.holdCause_rounds (t : Team) (c : Cause) : (t.holdCause c).rounds = t.rounds := rfl
@[simp] theorem Team.holdCause_pendCauses (t : Team) (c : Cause) : (t.holdCause c).pendCauses = t.pendCauses := rfl
@[simp] theorem Team.holdCause_hold (t : Team) (c : Cause) : (t.holdCause c).hold = t.hold := rfl
@[simp] theorem Team.holdCause_heldLen (t : Team) (c : Cause) : (t.holdCause c).heldLen = t.heldLen := rfl
@[simp] theorem Team.holdCause_relTag (t : Team) (c : Cause) : (t.holdCause c).relTag = t.relTag := rfl
@[simp] theorem Team.holdCause_relIssue (t : Team) (c : Cause) : (t.holdCause c).relIssue = t.relIssue := rfl
@[simp] theorem Team.holdCause_fence (t : Team) (c : Cause) : (t.holdCause c).fence = t.fence := rfl
@[simp] theorem Team.holdCause_hostStores (t : Team) (c : Cause) : (t.holdCause c).hostStores = t.hostStores := rfl
@[simp] theorem Team.holdCause_dueAt (t : Team) (c : Cause) : (t.holdCause c).dueAt = t.dueAt := rfl
@[simp] theorem Team.holdCause_debtSeqOdd (t : Team) (c : Cause) : (t.holdCause c).debtSeqOdd = t.debtSeqOdd := rfl
@[simp] theorem Team.holdCause_copyLateHeld (t : Team) (c : Cause) : (t.holdCause c).copyLateHeld = t.copyLateHeld := rfl
@[simp] theorem Team.holdCause_debtHome (t : Team) (c : Cause) : (t.holdCause c).debtHome = t.debtHome := rfl
@[simp] theorem Team.holdCause_debtOdd (t : Team) (c : Cause) : (t.holdCause c).debtOdd = t.debtOdd := rfl
@[simp] theorem Team.holdCause_heldHome (t : Team) (c : Cause) : (t.holdCause c).heldHome = t.heldHome := rfl
@[simp] theorem Team.holdCause_heldOdd (t : Team) (c : Cause) : (t.holdCause c).heldOdd = t.heldOdd := rfl
@[simp] theorem Team.holdCause_readyAt (t : Team) (c : Cause) : (t.holdCause c).readyAt = t.readyAt := rfl
@[simp] theorem Team.holdCause_debtSeq (t : Team) (c : Cause) : (t.holdCause c).debtSeq = t.debtSeq := rfl
@[simp] theorem Team.holdCause_loopBuf (t : Team) (c : Cause) : (t.holdCause c).loopBuf = t.loopBuf := rfl
@[simp] theorem Team.holdCause_flight (t : Team) (c : Cause) : (t.holdCause c).flight = t.flight := rfl
@[simp] theorem Team.holdCause_issued (t : Team) (c : Cause) : (t.holdCause c).issued = t.issued := rfl
@[simp] theorem Team.holdCause_stopReq (t : Team) (c : Cause) : (t.holdCause c).stopReq = t.stopReq := rfl

/-! ### `Team.setHandler` -/

@[simp] theorem Team.setHandler_uid (t : Team) (b : Bool) : (t.setHandler b).uid = t.uid := rfl
@[simp] theorem Team.setHandler_gid (t : Team) (b : Bool) : (t.setHandler b).gid = t.gid := rfl
@[simp] theorem Team.setHandler_ctx (t : Team) (b : Bool) : (t.setHandler b).ctx = t.ctx := rfl
@[simp] theorem Team.setHandler_asid (t : Team) (b : Bool) : (t.setHandler b).asid = t.asid := rfl
@[simp] theorem Team.setHandler_pri (t : Team) (b : Bool) : (t.setHandler b).pri = t.pri := rfl
@[simp] theorem Team.setHandler_home (t : Team) (b : Bool) : (t.setHandler b).home = t.home := rfl
@[simp] theorem Team.setHandler_pair (t : Team) (b : Bool) : (t.setHandler b).pair = t.pair := rfl
@[simp] theorem Team.setHandler_slot (t : Team) (b : Bool) : (t.setHandler b).slot = t.slot := rfl
@[simp] theorem Team.setHandler_lanes (t : Team) (b : Bool) : (t.setHandler b).lanes = t.lanes := rfl
@[simp] theorem Team.setHandler_group (t : Team) (b : Bool) : (t.setHandler b).group = t.group := rfl
@[simp] theorem Team.setHandler_nv (t : Team) (b : Bool) : (t.setHandler b).nv = t.nv := rfl
@[simp] theorem Team.setHandler_lin (t : Team) (b : Bool) : (t.setHandler b).lin = t.lin := rfl
@[simp] theorem Team.setHandler_res (t : Team) (b : Bool) : (t.setHandler b).res = t.res := rfl
@[simp] theorem Team.setHandler_placedAt (t : Team) (b : Bool) : (t.setHandler b).placedAt = t.placedAt := rfl
@[simp] theorem Team.setHandler_evictedAt (t : Team) (b : Bool) : (t.setHandler b).evictedAt = t.evictedAt := rfl
@[simp] theorem Team.setHandler_stack (t : Team) (b : Bool) : (t.setHandler b).stack = t.stack := rfl
@[simp] theorem Team.setHandler_spilled (t : Team) (b : Bool) : (t.setHandler b).spilled = t.spilled := rfl
@[simp] theorem Team.setHandler_area (t : Team) (b : Bool) : (t.setHandler b).area = t.area := rfl
@[simp] theorem Team.setHandler_frame (t : Team) (b : Bool) : (t.setHandler b).frame = t.frame := rfl
@[simp] theorem Team.setHandler_frameDepth (t : Team) (b : Bool) : (t.setHandler b).frameDepth = t.frameDepth := rfl
@[simp] theorem Team.setHandler_v (t : Team) (b : Bool) : (t.setHandler b).v = t.v := rfl
@[simp] theorem Team.setHandler_s (t : Team) (b : Bool) : (t.setHandler b).s = t.s := rfl
@[simp] theorem Team.setHandler_p (t : Team) (b : Bool) : (t.setHandler b).p = t.p := rfl
@[simp] theorem Team.setHandler_q (t : Team) (b : Bool) : (t.setHandler b).q = t.q := rfl
@[simp] theorem Team.setHandler_seed0 (t : Team) (b : Bool) : (t.setHandler b).seed0 = t.seed0 := rfl
@[simp] theorem Team.setHandler_seed1 (t : Team) (b : Bool) : (t.setHandler b).seed1 = t.seed1 := rfl
@[simp] theorem Team.setHandler_seed2 (t : Team) (b : Bool) : (t.setHandler b).seed2 = t.seed2 := rfl
@[simp] theorem Team.setHandler_seed3 (t : Team) (b : Bool) : (t.setHandler b).seed3 = t.seed3 := rfl
@[simp] theorem Team.setHandler_tstka (t : Team) (b : Bool) : (t.setHandler b).tstka = t.tstka := rfl
@[simp] theorem Team.setHandler_tcause (t : Team) (b : Bool) : (t.setHandler b).tcause = t.tcause := rfl
@[simp] theorem Team.setHandler_tpc (t : Team) (b : Bool) : (t.setHandler b).tpc = t.tpc := rfl
@[simp] theorem Team.setHandler_tvb (t : Team) (b : Bool) : (t.setHandler b).tvb = t.tvb := rfl
@[simp] theorem Team.setHandler_tskip (t : Team) (b : Bool) : (t.setHandler b).tskip = t.tskip := rfl
@[simp] theorem Team.setHandler_skipPos (t : Team) (b : Bool) : (t.setHandler b).skipPos = t.skipPos := rfl
@[simp] theorem Team.setHandler_flm (t : Team) (b : Bool) : (t.setHandler b).flm = t.flm := rfl
@[simp] theorem Team.setHandler_dropl (t : Team) (b : Bool) : (t.setHandler b).dropl = t.dropl := rfl
@[simp] theorem Team.setHandler_ckinj (t : Team) (b : Bool) : (t.setHandler b).ckinj = t.ckinj := rfl
@[simp] theorem Team.setHandler_mxgang (t : Team) (b : Bool) : (t.setHandler b).mxgang = t.mxgang := rfl
@[simp] theorem Team.setHandler_mxwin (t : Team) (b : Bool) : (t.setHandler b).mxwin = t.mxwin := rfl
@[simp] theorem Team.setHandler_segs (t : Team) (b : Bool) : (t.setHandler b).segs = t.segs := rfl
@[simp] theorem Team.setHandler_segBind (t : Team) (b : Bool) : (t.setHandler b).segBind = t.segBind := rfl
@[simp] theorem Team.setHandler_segFaulted (t : Team) (b : Bool) : (t.setHandler b).segFaulted = t.segFaulted := rfl
@[simp] theorem Team.setHandler_handles (t : Team) (b : Bool) : (t.setHandler b).handles = t.handles := rfl
@[simp] theorem Team.setHandler_freeSlots (t : Team) (b : Bool) : (t.setHandler b).freeSlots = t.freeSlots := rfl
@[simp] theorem Team.setHandler_rounds (t : Team) (b : Bool) : (t.setHandler b).rounds = t.rounds := rfl
@[simp] theorem Team.setHandler_pendCauses (t : Team) (b : Bool) : (t.setHandler b).pendCauses = t.pendCauses := rfl
@[simp] theorem Team.setHandler_hold (t : Team) (b : Bool) : (t.setHandler b).hold = t.hold := rfl
@[simp] theorem Team.setHandler_heldLen (t : Team) (b : Bool) : (t.setHandler b).heldLen = t.heldLen := rfl
@[simp] theorem Team.setHandler_relTag (t : Team) (b : Bool) : (t.setHandler b).relTag = t.relTag := rfl
@[simp] theorem Team.setHandler_relIssue (t : Team) (b : Bool) : (t.setHandler b).relIssue = t.relIssue := rfl
@[simp] theorem Team.setHandler_fence (t : Team) (b : Bool) : (t.setHandler b).fence = t.fence := rfl
@[simp] theorem Team.setHandler_hostStores (t : Team) (b : Bool) : (t.setHandler b).hostStores = t.hostStores := rfl
@[simp] theorem Team.setHandler_dueAt (t : Team) (b : Bool) : (t.setHandler b).dueAt = t.dueAt := rfl
@[simp] theorem Team.setHandler_debtSeqOdd (t : Team) (b : Bool) : (t.setHandler b).debtSeqOdd = t.debtSeqOdd := rfl
@[simp] theorem Team.setHandler_copyLateHeld (t : Team) (b : Bool) : (t.setHandler b).copyLateHeld = t.copyLateHeld := rfl
@[simp] theorem Team.setHandler_debtHome (t : Team) (b : Bool) : (t.setHandler b).debtHome = t.debtHome := rfl
@[simp] theorem Team.setHandler_debtOdd (t : Team) (b : Bool) : (t.setHandler b).debtOdd = t.debtOdd := rfl
@[simp] theorem Team.setHandler_heldHome (t : Team) (b : Bool) : (t.setHandler b).heldHome = t.heldHome := rfl
@[simp] theorem Team.setHandler_heldOdd (t : Team) (b : Bool) : (t.setHandler b).heldOdd = t.heldOdd := rfl
@[simp] theorem Team.setHandler_readyAt (t : Team) (b : Bool) : (t.setHandler b).readyAt = t.readyAt := rfl
@[simp] theorem Team.setHandler_debtSeq (t : Team) (b : Bool) : (t.setHandler b).debtSeq = t.debtSeq := rfl
@[simp] theorem Team.setHandler_loopBuf (t : Team) (b : Bool) : (t.setHandler b).loopBuf = t.loopBuf := rfl
@[simp] theorem Team.setHandler_flight (t : Team) (b : Bool) : (t.setHandler b).flight = t.flight := rfl
@[simp] theorem Team.setHandler_issued (t : Team) (b : Bool) : (t.setHandler b).issued = t.issued := rfl
@[simp] theorem Team.setHandler_stopReq (t : Team) (b : Bool) : (t.setHandler b).stopReq = t.stopReq := rfl

/-! ### `Team.askStop` -/

@[simp] theorem Team.askStop_uid (t : Team) (c : Cause) : (t.askStop c).uid = t.uid := rfl
@[simp] theorem Team.askStop_gid (t : Team) (c : Cause) : (t.askStop c).gid = t.gid := rfl
@[simp] theorem Team.askStop_ctx (t : Team) (c : Cause) : (t.askStop c).ctx = t.ctx := rfl
@[simp] theorem Team.askStop_asid (t : Team) (c : Cause) : (t.askStop c).asid = t.asid := rfl
@[simp] theorem Team.askStop_pri (t : Team) (c : Cause) : (t.askStop c).pri = t.pri := rfl
@[simp] theorem Team.askStop_home (t : Team) (c : Cause) : (t.askStop c).home = t.home := rfl
@[simp] theorem Team.askStop_pair (t : Team) (c : Cause) : (t.askStop c).pair = t.pair := rfl
@[simp] theorem Team.askStop_slot (t : Team) (c : Cause) : (t.askStop c).slot = t.slot := rfl
@[simp] theorem Team.askStop_lanes (t : Team) (c : Cause) : (t.askStop c).lanes = t.lanes := rfl
@[simp] theorem Team.askStop_group (t : Team) (c : Cause) : (t.askStop c).group = t.group := rfl
@[simp] theorem Team.askStop_nv (t : Team) (c : Cause) : (t.askStop c).nv = t.nv := rfl
@[simp] theorem Team.askStop_lin (t : Team) (c : Cause) : (t.askStop c).lin = t.lin := rfl
@[simp] theorem Team.askStop_res (t : Team) (c : Cause) : (t.askStop c).res = t.res := rfl
@[simp] theorem Team.askStop_placedAt (t : Team) (c : Cause) : (t.askStop c).placedAt = t.placedAt := rfl
@[simp] theorem Team.askStop_evictedAt (t : Team) (c : Cause) : (t.askStop c).evictedAt = t.evictedAt := rfl
@[simp] theorem Team.askStop_stack (t : Team) (c : Cause) : (t.askStop c).stack = t.stack := rfl
@[simp] theorem Team.askStop_spilled (t : Team) (c : Cause) : (t.askStop c).spilled = t.spilled := rfl
@[simp] theorem Team.askStop_area (t : Team) (c : Cause) : (t.askStop c).area = t.area := rfl
@[simp] theorem Team.askStop_frame (t : Team) (c : Cause) : (t.askStop c).frame = t.frame := rfl
@[simp] theorem Team.askStop_frameDepth (t : Team) (c : Cause) : (t.askStop c).frameDepth = t.frameDepth := rfl
@[simp] theorem Team.askStop_v (t : Team) (c : Cause) : (t.askStop c).v = t.v := rfl
@[simp] theorem Team.askStop_s (t : Team) (c : Cause) : (t.askStop c).s = t.s := rfl
@[simp] theorem Team.askStop_p (t : Team) (c : Cause) : (t.askStop c).p = t.p := rfl
@[simp] theorem Team.askStop_q (t : Team) (c : Cause) : (t.askStop c).q = t.q := rfl
@[simp] theorem Team.askStop_tcw (t : Team) (c : Cause) : (t.askStop c).tcw = t.tcw := rfl
@[simp] theorem Team.askStop_seed0 (t : Team) (c : Cause) : (t.askStop c).seed0 = t.seed0 := rfl
@[simp] theorem Team.askStop_seed1 (t : Team) (c : Cause) : (t.askStop c).seed1 = t.seed1 := rfl
@[simp] theorem Team.askStop_seed2 (t : Team) (c : Cause) : (t.askStop c).seed2 = t.seed2 := rfl
@[simp] theorem Team.askStop_seed3 (t : Team) (c : Cause) : (t.askStop c).seed3 = t.seed3 := rfl
@[simp] theorem Team.askStop_tstka (t : Team) (c : Cause) : (t.askStop c).tstka = t.tstka := rfl
@[simp] theorem Team.askStop_tcause (t : Team) (c : Cause) : (t.askStop c).tcause = t.tcause := rfl
@[simp] theorem Team.askStop_tpc (t : Team) (c : Cause) : (t.askStop c).tpc = t.tpc := rfl
@[simp] theorem Team.askStop_tvb (t : Team) (c : Cause) : (t.askStop c).tvb = t.tvb := rfl
@[simp] theorem Team.askStop_tskip (t : Team) (c : Cause) : (t.askStop c).tskip = t.tskip := rfl
@[simp] theorem Team.askStop_skipPos (t : Team) (c : Cause) : (t.askStop c).skipPos = t.skipPos := rfl
@[simp] theorem Team.askStop_flm (t : Team) (c : Cause) : (t.askStop c).flm = t.flm := rfl
@[simp] theorem Team.askStop_dropl (t : Team) (c : Cause) : (t.askStop c).dropl = t.dropl := rfl
@[simp] theorem Team.askStop_ckinj (t : Team) (c : Cause) : (t.askStop c).ckinj = t.ckinj := rfl
@[simp] theorem Team.askStop_mxgang (t : Team) (c : Cause) : (t.askStop c).mxgang = t.mxgang := rfl
@[simp] theorem Team.askStop_mxwin (t : Team) (c : Cause) : (t.askStop c).mxwin = t.mxwin := rfl
@[simp] theorem Team.askStop_segs (t : Team) (c : Cause) : (t.askStop c).segs = t.segs := rfl
@[simp] theorem Team.askStop_segBind (t : Team) (c : Cause) : (t.askStop c).segBind = t.segBind := rfl
@[simp] theorem Team.askStop_segFaulted (t : Team) (c : Cause) : (t.askStop c).segFaulted = t.segFaulted := rfl
@[simp] theorem Team.askStop_handles (t : Team) (c : Cause) : (t.askStop c).handles = t.handles := rfl
@[simp] theorem Team.askStop_freeSlots (t : Team) (c : Cause) : (t.askStop c).freeSlots = t.freeSlots := rfl
@[simp] theorem Team.askStop_rounds (t : Team) (c : Cause) : (t.askStop c).rounds = t.rounds := rfl
@[simp] theorem Team.askStop_pendCauses (t : Team) (c : Cause) : (t.askStop c).pendCauses = t.pendCauses := rfl
@[simp] theorem Team.askStop_hold (t : Team) (c : Cause) : (t.askStop c).hold = t.hold := rfl
@[simp] theorem Team.askStop_heldLen (t : Team) (c : Cause) : (t.askStop c).heldLen = t.heldLen := rfl
@[simp] theorem Team.askStop_relTag (t : Team) (c : Cause) : (t.askStop c).relTag = t.relTag := rfl
@[simp] theorem Team.askStop_relIssue (t : Team) (c : Cause) : (t.askStop c).relIssue = t.relIssue := rfl
@[simp] theorem Team.askStop_fence (t : Team) (c : Cause) : (t.askStop c).fence = t.fence := rfl
@[simp] theorem Team.askStop_hostStores (t : Team) (c : Cause) : (t.askStop c).hostStores = t.hostStores := rfl
@[simp] theorem Team.askStop_dueAt (t : Team) (c : Cause) : (t.askStop c).dueAt = t.dueAt := rfl
@[simp] theorem Team.askStop_debtSeqOdd (t : Team) (c : Cause) : (t.askStop c).debtSeqOdd = t.debtSeqOdd := rfl
@[simp] theorem Team.askStop_copyLateHeld (t : Team) (c : Cause) : (t.askStop c).copyLateHeld = t.copyLateHeld := rfl
@[simp] theorem Team.askStop_debtHome (t : Team) (c : Cause) : (t.askStop c).debtHome = t.debtHome := rfl
@[simp] theorem Team.askStop_debtOdd (t : Team) (c : Cause) : (t.askStop c).debtOdd = t.debtOdd := rfl
@[simp] theorem Team.askStop_heldHome (t : Team) (c : Cause) : (t.askStop c).heldHome = t.heldHome := rfl
@[simp] theorem Team.askStop_heldOdd (t : Team) (c : Cause) : (t.askStop c).heldOdd = t.heldOdd := rfl
@[simp] theorem Team.askStop_readyAt (t : Team) (c : Cause) : (t.askStop c).readyAt = t.readyAt := rfl
@[simp] theorem Team.askStop_debtSeq (t : Team) (c : Cause) : (t.askStop c).debtSeq = t.debtSeq := rfl
@[simp] theorem Team.askStop_loopBuf (t : Team) (c : Cause) : (t.askStop c).loopBuf = t.loopBuf := rfl
@[simp] theorem Team.askStop_flight (t : Team) (c : Cause) : (t.askStop c).flight = t.flight := rfl
@[simp] theorem Team.askStop_issued (t : Team) (c : Cause) : (t.askStop c).issued = t.issued := rfl

/-! ### `Team.disarm` -/

@[simp] theorem Team.disarm_uid (t : Team) : (t.disarm).uid = t.uid := rfl
@[simp] theorem Team.disarm_gid (t : Team) : (t.disarm).gid = t.gid := rfl
@[simp] theorem Team.disarm_ctx (t : Team) : (t.disarm).ctx = t.ctx := rfl
@[simp] theorem Team.disarm_asid (t : Team) : (t.disarm).asid = t.asid := rfl
@[simp] theorem Team.disarm_pri (t : Team) : (t.disarm).pri = t.pri := rfl
@[simp] theorem Team.disarm_home (t : Team) : (t.disarm).home = t.home := rfl
@[simp] theorem Team.disarm_pair (t : Team) : (t.disarm).pair = t.pair := rfl
@[simp] theorem Team.disarm_slot (t : Team) : (t.disarm).slot = t.slot := rfl
@[simp] theorem Team.disarm_lanes (t : Team) : (t.disarm).lanes = t.lanes := rfl
@[simp] theorem Team.disarm_group (t : Team) : (t.disarm).group = t.group := rfl
@[simp] theorem Team.disarm_nv (t : Team) : (t.disarm).nv = t.nv := rfl
@[simp] theorem Team.disarm_lin (t : Team) : (t.disarm).lin = t.lin := rfl
@[simp] theorem Team.disarm_res (t : Team) : (t.disarm).res = t.res := rfl
@[simp] theorem Team.disarm_placedAt (t : Team) : (t.disarm).placedAt = t.placedAt := rfl
@[simp] theorem Team.disarm_evictedAt (t : Team) : (t.disarm).evictedAt = t.evictedAt := rfl
@[simp] theorem Team.disarm_stack (t : Team) : (t.disarm).stack = t.stack := rfl
@[simp] theorem Team.disarm_spilled (t : Team) : (t.disarm).spilled = t.spilled := rfl
@[simp] theorem Team.disarm_area (t : Team) : (t.disarm).area = t.area := rfl
@[simp] theorem Team.disarm_frame (t : Team) : (t.disarm).frame = t.frame := rfl
@[simp] theorem Team.disarm_frameDepth (t : Team) : (t.disarm).frameDepth = t.frameDepth := rfl
@[simp] theorem Team.disarm_v (t : Team) : (t.disarm).v = t.v := rfl
@[simp] theorem Team.disarm_s (t : Team) : (t.disarm).s = t.s := rfl
@[simp] theorem Team.disarm_p (t : Team) : (t.disarm).p = t.p := rfl
@[simp] theorem Team.disarm_q (t : Team) : (t.disarm).q = t.q := rfl
@[simp] theorem Team.disarm_tcw (t : Team) : (t.disarm).tcw = t.tcw := rfl
@[simp] theorem Team.disarm_seed0 (t : Team) : (t.disarm).seed0 = t.seed0 := rfl
@[simp] theorem Team.disarm_seed1 (t : Team) : (t.disarm).seed1 = t.seed1 := rfl
@[simp] theorem Team.disarm_seed2 (t : Team) : (t.disarm).seed2 = t.seed2 := rfl
@[simp] theorem Team.disarm_seed3 (t : Team) : (t.disarm).seed3 = t.seed3 := rfl
@[simp] theorem Team.disarm_tstka (t : Team) : (t.disarm).tstka = t.tstka := rfl
@[simp] theorem Team.disarm_tcause (t : Team) : (t.disarm).tcause = t.tcause := rfl
@[simp] theorem Team.disarm_tpc (t : Team) : (t.disarm).tpc = t.tpc := rfl
@[simp] theorem Team.disarm_tvb (t : Team) : (t.disarm).tvb = t.tvb := rfl
@[simp] theorem Team.disarm_tskip (t : Team) : (t.disarm).tskip = t.tskip := rfl
@[simp] theorem Team.disarm_skipPos (t : Team) : (t.disarm).skipPos = t.skipPos := rfl
@[simp] theorem Team.disarm_flm (t : Team) : (t.disarm).flm = t.flm := rfl
@[simp] theorem Team.disarm_dropl (t : Team) : (t.disarm).dropl = t.dropl := rfl
@[simp] theorem Team.disarm_mxgang (t : Team) : (t.disarm).mxgang = t.mxgang := rfl
@[simp] theorem Team.disarm_mxwin (t : Team) : (t.disarm).mxwin = t.mxwin := rfl
@[simp] theorem Team.disarm_segs (t : Team) : (t.disarm).segs = t.segs := rfl
@[simp] theorem Team.disarm_segBind (t : Team) : (t.disarm).segBind = t.segBind := rfl
@[simp] theorem Team.disarm_segFaulted (t : Team) : (t.disarm).segFaulted = t.segFaulted := rfl
@[simp] theorem Team.disarm_handles (t : Team) : (t.disarm).handles = t.handles := rfl
@[simp] theorem Team.disarm_freeSlots (t : Team) : (t.disarm).freeSlots = t.freeSlots := rfl
@[simp] theorem Team.disarm_rounds (t : Team) : (t.disarm).rounds = t.rounds := rfl
@[simp] theorem Team.disarm_pendCauses (t : Team) : (t.disarm).pendCauses = t.pendCauses := rfl
@[simp] theorem Team.disarm_hold (t : Team) : (t.disarm).hold = t.hold := rfl
@[simp] theorem Team.disarm_heldLen (t : Team) : (t.disarm).heldLen = t.heldLen := rfl
@[simp] theorem Team.disarm_relTag (t : Team) : (t.disarm).relTag = t.relTag := rfl
@[simp] theorem Team.disarm_relIssue (t : Team) : (t.disarm).relIssue = t.relIssue := rfl
@[simp] theorem Team.disarm_fence (t : Team) : (t.disarm).fence = t.fence := rfl
@[simp] theorem Team.disarm_hostStores (t : Team) : (t.disarm).hostStores = t.hostStores := rfl
@[simp] theorem Team.disarm_dueAt (t : Team) : (t.disarm).dueAt = t.dueAt := rfl
@[simp] theorem Team.disarm_debtSeqOdd (t : Team) : (t.disarm).debtSeqOdd = t.debtSeqOdd := rfl
@[simp] theorem Team.disarm_copyLateHeld (t : Team) : (t.disarm).copyLateHeld = t.copyLateHeld := rfl
@[simp] theorem Team.disarm_debtHome (t : Team) : (t.disarm).debtHome = t.debtHome := rfl
@[simp] theorem Team.disarm_debtOdd (t : Team) : (t.disarm).debtOdd = t.debtOdd := rfl
@[simp] theorem Team.disarm_heldHome (t : Team) : (t.disarm).heldHome = t.heldHome := rfl
@[simp] theorem Team.disarm_heldOdd (t : Team) : (t.disarm).heldOdd = t.heldOdd := rfl
@[simp] theorem Team.disarm_readyAt (t : Team) : (t.disarm).readyAt = t.readyAt := rfl
@[simp] theorem Team.disarm_debtSeq (t : Team) : (t.disarm).debtSeq = t.debtSeq := rfl
@[simp] theorem Team.disarm_loopBuf (t : Team) : (t.disarm).loopBuf = t.loopBuf := rfl
@[simp] theorem Team.disarm_flight (t : Team) : (t.disarm).flight = t.flight := rfl
@[simp] theorem Team.disarm_issued (t : Team) : (t.disarm).issued = t.issued := rfl
@[simp] theorem Team.disarm_stopReq (t : Team) : (t.disarm).stopReq = t.stopReq := rfl

end Sys2Proof.Machine
end

