-- ==== Sys2Proof/Laws/Shell.lean ====
section
/-! SUPPORT. What the shells of an instruction word do: the team they find, the check that finds nothing, and the word that completes. -/

namespace Sys2Proof.Machine

open Sys2Proof

/-! ### Teams of a state -/

theorem State.putTeam_putTeam (s : State) {a b : Team} (h : a.uid = b.uid) : (s.putTeam a).putTeam b = s.putTeam b := by
  have e : replaceWhere (fun x : Team => x.uid == b.uid) (fun _ => b) (replaceWhere (fun x : Team => x.uid == b.uid) (fun _ => a) s.teams) =
      replaceWhere (fun x : Team => x.uid == b.uid) (fun _ => b) s.teams := by
    unfold replaceWhere
    rw [List.map_map]
    apply List.map_congr_left
    intro x _
    by_cases hx : x.uid = b.uid <;> simp [hx, h]
  simp only [State.putTeam, State.modTeam, h, e]

/-- The search for a team in a list where the teams of its number have been replaced. -/
theorem find_replaceWhere (t u : Team) : ∀ l : List Team, l.find? (fun x => x.uid == t.uid) = some u →
    (replaceWhere (fun x : Team => x.uid == t.uid) (fun _ => t) l).find? (fun x => x.uid == t.uid) = some t
  | [], h => by simp at h
  | x :: l, h => by
    unfold replaceWhere
    rw [List.map_cons]
    by_cases hx : x.uid = t.uid
    · simp [hx]
    · have hb : (x.uid == t.uid) = false := by simp [hx]
      rw [List.find?_cons, hb] at h
      simp only [hb, Bool.false_eq_true, if_false, List.find?_cons]
      exact find_replaceWhere t u l h

theorem find_replaceWhere_ne (t : Team) {uid : Nat} (h : uid ≠ t.uid) : ∀ l : List Team,
    (replaceWhere (fun x : Team => x.uid == t.uid) (fun _ => t) l).find? (fun x => x.uid == uid) = l.find? (fun x => x.uid == uid)
  | [] => rfl
  | x :: l => by
    have ih := find_replaceWhere_ne t h l
    unfold replaceWhere at ih ⊢
    rw [List.map_cons, List.find?_cons, List.find?_cons, ih]
    by_cases hx : x.uid = t.uid
    · have h1 : (t.uid == uid) = false := by simp [Ne.symm h]
      have h2 : (x.uid == uid) = false := by simp [hx, Ne.symm h]
      simp only [hx, beq_self_eq_true, if_true, h1]
    · simp [hx]

/-- A team put into a state that has one of its number is found there. -/
theorem State.team?_putTeam {s : State} {t u : Team} (h : s.team? t.uid = some u) : (s.putTeam t).team? t.uid = some t :=
  find_replaceWhere t u s.teams h

theorem State.team?_uid {s : State} {uid : Nat} {t : Team} (h : s.team? uid = some t) : t.uid = uid := by
  have := List.find?_some h
  simpa using this

/-- Another team is not touched. -/
theorem State.team?_putTeam_ne (s : State) (t : Team) {uid : Nat} (h : uid ≠ t.uid) : (s.putTeam t).team? uid = s.team? uid :=
  find_replaceWhere_ne t h s.teams

/-! ### What the writers of results leave alone -/

theorem Team.vRun_eq (t : Team) : ∀ (ws : List RWord) (u : Team) (r l : Nat) (v : SMap RWord) (p : SMap Bool) (n : SMap (BitVec 32)),
    u = t.laneRegs v p n → ∃ m, u.vRun r l ws = t.laneRegs m p n
  | [], _, _, _, v, _, _, h => ⟨v, h⟩
  | w :: ws, u, r, l, v, p, n, h => by
    subst h
    exact Team.vRun_eq t ws _ (r + 1) l _ p n rfl

theorem Team.pPut_eq (t : Team) (n l : Nat) (b : Bool) : ∃ p, t.pPut n l b = t.laneRegs t.v p t.rounds := by
  unfold Team.pPut
  split
  · exact ⟨t.p, rfl⟩
  · exact ⟨_, rfl⟩

/-- A lane's result changes `v` registers, predicates and rounding counters only. -/
theorem Team.writeLane_eq (t : Team) (d l : Nat) (r : LRes) : ∃ v p n, t.writeLane d l r = t.laneRegs v p n := by
  obtain ⟨v, hv⟩ := Team.vRun_eq t r.words t d l t.v t.p t.rounds rfl
  obtain ⟨p, hp⟩ : ∃ p, (match r.pred with | some (p, b) => (t.vRun d l r.words).pPut p l b | none => t.vRun d l r.words) =
      t.laneRegs v p t.rounds := by
    cases r.pred with
    | none => exact ⟨t.p, hv⟩
    | some x =>
      obtain ⟨p, h⟩ := Team.pPut_eq (t.vRun d l r.words) x.1 l x.2
      exact ⟨p, h.trans (by rw [hv]; rfl)⟩
  have e : t.writeLane d l r =
      (let u := (match r.pred with | some (p, b) => (t.vRun d l r.words).pPut p l b | none => t.vRun d l r.words)
       if r.draws = 0 then u else u.laneRegs u.v u.p (SMap.set 0 u.rounds l (SMap.get 0 u.rounds l + BitVec.ofNat 32 r.draws))) := rfl
  rw [e, hp]
  dsimp only
  split
  · exact ⟨v, p, t.rounds, rfl⟩
  · exact ⟨v, p, _, rfl⟩

theorem Team.writeLanes_eq (t : Team) (d : Nat) (res : Nat → LRes) : ∀ (ls : List Nat) (u : Team) (v : SMap RWord) (p : SMap Bool)
    (n : SMap (BitVec 32)), u = t.laneRegs v p n → ∃ v p n, u.writeLanes d ls res = t.laneRegs v p n
  | [], _, v, p, n, h => ⟨v, p, n, h⟩
  | l :: ls, u, v, p, n, h => by
    obtain ⟨v', p', n', e⟩ := Team.writeLane_eq u d l (res l)
    exact Team.writeLanes_eq t d res ls (u.writeLane d l (res l)) v' p' n' (by rw [e, h]; rfl)

theorem Team.sPut_eq (t : Team) (n g : Nat) (w : RWord) : ∃ m, t.sPut n g w = t.groupRegs m t.q := by
  unfold Team.sPut
  split
  · exact ⟨t.s, rfl⟩
  · exact ⟨_, rfl⟩

theorem Team.sFrom_eq (t : Team) : ∀ (ws : List RWord) (u : Team) (n g : Nat) (m : SMap RWord) (q : SMap Bool),
    u = t.groupRegs m q → ∃ m, u.sFrom n g ws = t.groupRegs m q
  | [], _, _, _, m, _, h => ⟨m, h⟩
  | w :: ws, u, n, g, m, q, h => by
    obtain ⟨m', e⟩ := Team.sPut_eq u n g w
    exact Team.sFrom_eq t ws (u.sPut n g w) (n + 1) g m' q (by rw [e, h]; rfl)

theorem Team.sWrite_eq (t : Team) (ws : List RWord) (u : Team) (r g : Nat) (m : SMap RWord) (q : SMap Bool) (h : u = t.groupRegs m q) :
    ∃ m, u.sWrite r g ws = t.groupRegs m q := Team.sFrom_eq t ws u (r - 192) g m q h

theorem Team.qPut_eq (t : Team) (n g : Nat) (b : Bool) : ∃ q, t.qPut n g b = t.groupRegs t.s q := by
  unfold Team.qPut
  split
  · exact ⟨t.q, rfl⟩
  · exact ⟨_, rfl⟩

/-- A group's result changes `s` registers and uniform predicates only. -/
theorem Team.writeGroup_eq (t : Team) (d g : Nat) (r : URes) : ∃ m q, t.writeGroup d g r = t.groupRegs m q := by
  obtain ⟨m, h⟩ := Team.sWrite_eq t r.words t d g t.s t.q rfl
  unfold Team.writeGroup
  cases r.pred with
  | none => exact ⟨m, t.q, h⟩
  | some x =>
    obtain ⟨q, hq⟩ := Team.qPut_eq (t.sWrite d g r.words) x.1 g x.2
    exact ⟨m, q, hq.trans (by rw [h]; rfl)⟩

theorem Team.writeGroups_eq (t : Team) (d : Nat) (res : Nat → URes) : ∀ (gs : List Nat) (u : Team) (m : SMap RWord) (q : SMap Bool),
    u = t.groupRegs m q → ∃ m q, u.writeGroups d gs res = t.groupRegs m q
  | [], _, m, q, h => ⟨m, q, h⟩
  | g :: gs, u, m, q, h => by
    obtain ⟨m', q', e⟩ := Team.writeGroup_eq u d g (res g)
    exact Team.writeGroups_eq t d res gs (u.writeGroup d g (res g)) m' q' (by rw [e, h]; rfl)

theorem Team.sAll_eq (t : Team) (r : Nat) (ws : List RWord) : ∀ (gs : List Nat) (u : Team) (m : SMap RWord) (q : SMap Bool),
    u = t.groupRegs m q → ∃ m, u.sAll r gs ws = t.groupRegs m q
  | [], _, m, _, h => ⟨m, h⟩
  | g :: gs, u, m, q, h => by
    obtain ⟨m', e⟩ := Team.sWrite_eq t ws u r g m q h
    exact Team.sAll_eq t r ws gs (u.sWrite r g ws) m' q e

/-! ### Words that run -/

/-- A word that runs is not turned away by decode, and comes to what its effect comes to. -/
theorem withTeam_runs {s : State} {t : Team} {i : Instr} (r : Runs s t i) (k : State → Team → Res) :
    withTeam i s k = .next (conclude t.uid i.length (k s t)) := by
  have hp : (Instr.isPriv i && !t.privileged) = false := by
    cases h : Instr.isPriv i with
    | false => rfl
    | true => simp [r.priv h]
  simp [withTeam, r.cur, r.team, State.runWord, r.legal, hp]

/-- The next word follows a word that completes. -/
theorem State.advance_eq {s : State} {uid len : Nat} {t : Team} (h : s.team? uid = some t) (hf : t.pc.toNat % 4096 + len < 4096) :
    s.advance uid len = s.putTeam (t.pass len) := by
  simp [State.advance, h, endsSegment, Nat.not_le.mpr hf]

theorem Team.pass_uid (t : Team) (len : Nat) : (t.pass len).uid = t.uid := by
  simp only [Team.pass, Team.passSkip]
  split
  · rfl
  · split <;> rfl

/-- A word that completes by writing into its team comes to the state with that team, past the word. -/
theorem conclude_done {s : State} {t u : Team} {len : Nat} (ht : s.team? t.uid = some t) (hu : u.uid = t.uid) (hs : u.stack = t.stack)
    (hf : t.pc.toNat % 4096 + len < 4096) : conclude t.uid len (.done (s.putTeam u)) = s.putTeam (u.pass len) := by
  have h : (s.putTeam u).team? t.uid = some u := by
    have := State.team?_putTeam (s := s) (t := u) (u := t) (by rw [hu]; exact ht)
    rwa [hu] at this
  have hp : u.pc = t.pc := by simp [Team.pc, Team.top, hs]
  rw [conclude, State.advance_eq h (by rw [hp]; exact hf), State.putTeam_putTeam]
  rw [Team.pass_uid]

/-! ### Checks that find nothing -/

/-- A list of checks none of which fails. -/
def passing (cs : List WordCheck) : Prop := cs.any WordCheck.bad = false

/-- The words that a prediction uses are words of the sources. -/
theorem ResCls.feeds_sub (c : ResCls) (srcs : List (List RWord)) (d : List RWord) (k : Nat) {w : RWord} (h : w ∈ c.feeds srcs d k) :
    ∃ r ∈ srcs, w ∈ r := by
  simp only [ResCls.feeds, List.mem_flatten, List.mem_mapIdx] at h
  obtain ⟨_, ⟨n, hn, rfl⟩, h⟩ := h
  simp only [List.mem_flatten, List.mem_mapIdx] at h
  obtain ⟨_, ⟨j, hj, rfl⟩, hw⟩ := h
  refine ⟨srcs[n], List.getElem_mem hn, ?_⟩
  split at hw
  · rw [List.mem_singleton.mp hw]
    exact List.getElem_mem hj
  · simp at hw

/-- Operands that carry right codes give no check that fails (R161, R185). -/
theorem resChecks_good (c : ResCls) {srcs : List (List RWord)} (words : List RWord) (h : srcs.all goodRun = true) :
    passing (resChecks c srcs words) := by
  have good : ∀ {w : RWord} {r : List RWord}, r ∈ srcs → w ∈ r → w.good = true := fun hr hw =>
    List.all_eq_true.mp (List.all_eq_true.mp h _ hr) _ hw
  have hall : srcs.flatten.all RWord.good = true := List.all_eq_true.mpr fun w hw => by
    obtain ⟨r, hr, hw⟩ := List.mem_flatten.mp hw
    exact good hr hw
  have hf : ∀ (d : List RWord) (k : Nat), (c.feeds srcs d k).all RWord.good = true := fun d k => List.all_eq_true.mpr fun w hw => by
    obtain ⟨r, hr, hw⟩ := c.feeds_sub srcs d k hw
    exact good hr hw
  have key : ∀ d : List RWord, passing (match d with
      | [] => [{ bad := !(srcs.flatten.all RWord.good), word := none, pred := none }]
      | _ => d.mapIdx fun k w =>
          { bad := !(c.feeds srcs d k).all RWord.good, word := some w.val
            pred := (c.shiftOf srcs d k).map fun x => (w.val.toNat % 7 + x) % 7 }) := fun d => by
    unfold passing
    split
    · simp [hall]
    · simp only [List.any_eq_false, List.mem_mapIdx, hf]
      rintro x ⟨k, hk, rfl⟩
      simp
  exact key _

/-- The same of operands that no result word is computed from. -/
theorem operandChecks_good {ws : List RWord} (h : ws.all RWord.good = true) : passing (operandChecks ws) := by
  simpa [passing, operandChecks, List.any_eq_false] using h

/-- The words of good runs are good. -/
theorem flatten_good {srcs : List (List RWord)} (h : srcs.all goodRun = true) : srcs.flatten.all RWord.good = true := by
  rw [List.all_flatten]
  exact h

/-- The check of an instruction that reads right codes, while no injection is armed, changes nothing. -/
theorem judge_calm {s : State} {t : Team} {i : Instr} {unit : Nat} {ids : List Nat} {checks : Nat → List WordCheck}
    {lanesOf : Nat → List Nat} {passOf : Nat → Nat × Bool} {copies : Bool} (hc : t.ckinj.getLsbD 31 = false)
    (hb : ∀ d ∈ ids, passing (checks d)) :
    judge s t i unit ids checks lanesOf passOf copies = { s := s, t := t, failed := [], stop := none, flip := none } := by
  have hf : (ids.filter fun d => (checks d).any WordCheck.bad) = [] := List.filter_eq_nil_iff.mpr fun d hd => by rw [hb d hd]; simp
  have hi : t.injects unit = none := by unfold Team.injects; rw [hc]; rfl
  unfold judge
  simp [hi, hf]

theorem laneWith_calm {s : State} {t : Team} {i : Instr} {h : Hdr} {unit : Nat} {copies : Bool} {d : RegNo}
    {chk : Team → Nat → List RWord → List WordCheck} {f : Team → Nat → LRes} (hc : t.ckinj.getLsbD 31 = false)
    (hb : ∀ l ∈ t.lanesFor h, passing (chk t l (f t l).words)) :
    laneWith i h unit copies d chk f s t = .done (s.putTeam (t.writeLanes d.toNat (t.lanesFor h) (f t))) := by
  simp only [laneWith, judge_calm hc hb, List.contains_nil, Bool.false_eq_true, if_false]
  congr

theorem groupWith_calm {s : State} {t : Team} {i : Instr} {h : Hdr} {copies : Bool} {d : RegNo}
    {chk : Team → Nat → List RWord → List WordCheck} {f : Team → Nat → URes} (hc : t.ckinj.getLsbD 31 = false)
    (hb : ∀ g ∈ t.groupsFor h, passing (chk t g (f t g).words)) :
    groupWith i h copies d chk f s t = .done (s.putTeam (t.writeGroups d.toNat (t.groupsFor h) (f t))) := by
  simp only [groupWith, judgeGroups, judge_calm hc hb, List.contains_nil, Bool.false_eq_true, if_false]
  congr

/-- A lane word that runs and reads right codes completes with its results written in the lanes it executes for. -/
theorem laneWith_runs {s : State} {t : Team} {i : Instr} (r : Runs s t i) {h : Hdr} {unit : Nat} {copies : Bool} {d : RegNo}
    {chk : Team → Nat → List RWord → List WordCheck} {f : Team → Nat → LRes}
    (hb : ∀ l ∈ t.lanesFor h, passing (chk t l (f t l).words)) :
    withTeam i s (laneWith i h unit copies d chk f) =
      .next (s.putTeam ((t.writeLanes d.toNat (t.lanesFor h) (f t)).pass i.length)) := by
  rw [withTeam_runs r, laneWith_calm r.calm hb]
  obtain ⟨v, p, n, e⟩ := Team.writeLanes_eq t d.toNat (f t) (t.lanesFor h) t t.v t.p t.rounds rfl
  rw [conclude_done r.team (by rw [e]; rfl) (by rw [e]; rfl) r.fits]

theorem laneOp_runs {s : State} {t : Team} {i : Instr} (r : Runs s t i) {h : Hdr} {unit : Nat} {d : RegNo} {srcs : List (RegNo × Nat)}
    {f : Team → Nat → List Nat → LRes} (hb : t.lanesGood h srcs) :
    withTeam i s (laneOp i h unit d srcs f) = .next (s.putTeam ((t.writeLanes d.toNat (t.lanesFor h)
      (fun l => f t l ((t.laneSrcs srcs l).map wordsNat))).pass i.length)) :=
  laneWith_runs r fun l hl => resChecks_good _ _ (hb l hl)

/-- A uniform word that runs and reads right codes completes with its results written in the groups it executes for. -/
theorem groupWith_runs {s : State} {t : Team} {i : Instr} (r : Runs s t i) {h : Hdr} {copies : Bool} {d : RegNo}
    {chk : Team → Nat → List RWord → List WordCheck} {f : Team → Nat → URes}
    (hb : ∀ g ∈ t.groupsFor h, passing (chk t g (f t g).words)) :
    withTeam i s (groupWith i h copies d chk f) =
      .next (s.putTeam ((t.writeGroups d.toNat (t.groupsFor h) (f t)).pass i.length)) := by
  rw [withTeam_runs r, groupWith_calm r.calm hb]
  obtain ⟨m, q, e⟩ := Team.writeGroups_eq t d.toNat (f t) (t.groupsFor h) t t.s t.q rfl
  rw [conclude_done r.team (by rw [e]; rfl) (by rw [e]; rfl) r.fits]

theorem groupOp_runs {s : State} {t : Team} {i : Instr} (r : Runs s t i) {h : Hdr} {d : RegNo} {srcs : List (RegNo × Nat)}
    {f : Team → Nat → List Nat → URes} (hb : t.groupsGood h srcs) :
    withTeam i s (groupOp i h d srcs f) = .next (s.putTeam ((t.writeGroups d.toNat (t.groupsFor h)
      (fun g => f t g ((t.groupSrcs srcs g).map wordsNat))).pass i.length)) :=
  groupWith_runs r fun g hg => resChecks_good _ _ (hb g hg)

/-- A team-scoped word whose lead group reads right codes goes on with the lead group's values (R20). -/
theorem teamOp_calm {s : State} {t : Team} {i : Instr} {h : Hdr} {d : RegNo} {n : Nat} {srcs : List (RegNo × Nat)}
    {k : State → Team → List Nat → Nat → List Nat → Res} {lead : Nat} {rest : List Nat} (hc : t.ckinj.getLsbD 31 = false)
    (hg : t.groupsFor h = lead :: rest) (hb : (t.groupSrcs srcs lead).all goodRun = true) :
    teamOp i h d n srcs k s t = k (s.putTeam t) t (lead :: rest) lead ((t.groupSrcs srcs lead).map wordsNat) := by
  have hj := judge_calm (s := s) (i := i) (unit := 2) (lanesOf := t.groupActive) (passOf := fun _ => (0, false)) (copies := false) hc
    (ids := [lead]) (checks := fun g => operandChecks (t.groupSrcs srcs g).flatten) fun d hd => by
      rw [List.mem_singleton] at hd
      subst hd
      exact operandChecks_good (flatten_good hb)
  simp only [teamOp, hg, hj, List.isEmpty_nil, if_true]

/-- A team-scoped word for which no group qualifies does nothing (R20). -/
theorem teamOp_none {s : State} {t : Team} {i : Instr} {h : Hdr} {d : RegNo} {n : Nat} {srcs : List (RegNo × Nat)}
    {k : State → Team → List Nat → Nat → List Nat → Res} (hg : t.groupsFor h = []) : teamOp i h d n srcs k s t = .done s := by
  simp [teamOp, hg]

end Sys2Proof.Machine
end

