-- ==== Sys2Proof/Tests/Slice0.lean ====
section
/-! SUPPORT. Tests of the model: ill-formed terms that the checks refuse, words written out from the spec's encodings, small steps with results from the spec, and for
every statement states that meet its premises. -/

namespace Sys2Proof.Tests

open Sys2Proof Sys2Proof.Machine Sys2Proof.Claims

/- One theorem after another: side by side, their threads would fill the memory. -/
set_option Elab.async false

/-! ### Helpers -/

/-- A header without guard and lookahead, long form. -/
def hx : Hdr := { x := true, g := 0, gn := false, la := 0 }

/-- A header of the short form. -/
def hs : Hdr := { x := false, g := 0, gn := false, la := 0 }

/-- The team of the tests: one group of 32 lanes on core 0, with an unwritten register file. -/
def wTeam : Team := launchedTeam 1 0

/-- A machine that runs a word of one team. -/
def wState (t : Team) : State := { State.reset with teams := [t], cur := some 1, nextId := 100 }

/-- A team whose listed registers carry right codes reads right codes everywhere. -/
theorem SMap.find_all {α : Type} {p : α → Bool} : ∀ {m : SMap α} {x : Nat} {v : α}, (m.all fun e => p e.2) = true → SMap.find m x = some v → p v = true
  | [], _, _, _, h => by simp [SMap.find] at h
  | (k, w) :: m, x, v, ha, h => by
    simp only [List.all_cons, Bool.and_eq_true] at ha
    unfold SMap.find at h
    split at h
    · simp only [Option.some.injEq] at h
      exact h ▸ ha.1
    · exact SMap.find_all ha.2 h

theorem get_good {m : SMap RWord} (x : Nat) (h : (m.all fun e => e.2.good) = true) : (SMap.get RWord.zero m x).good = true := by
  unfold SMap.get
  cases hf : SMap.find m x with
  | none => decide
  | some v => exact SMap.find_all h hf

theorem ofNat_good (n : Nat) : (RWord.ofNat n).good = true := by simp [RWord.ofNat, RWord.good, RWord.of]

theorem allGood_of {t : Team} (hv : (t.v.all fun e => e.2.good) = true) (hs : (t.s.all fun e => e.2.good) = true) : allGood t := by
  intro r l
  unfold Team.rGet Team.vGet Team.sGet
  split
  · exact get_good _ hv
  · split
    · exact ofNat_good _
    · exact get_good _ hs
/-- What makes a word run for a team (`Runs`), as one test. -/
def checks (t : Team) (i : Instr) : Bool :=
  Instr.legal t t.pc i && (!Instr.isPriv i || t.privileged) && decide (t.pc.toNat % 4096 + i.length < 4096) && !t.ckinj.getLsbD 31

theorem runs {s : State} {t : Team} {i : Instr} (hc : s.cur = some t.uid) (ht : s.team? t.uid = some t) (h : checks t i = true) : Runs s t i := by
  simp only [checks, Bool.and_eq_true, Bool.or_eq_true, Bool.not_eq_true', decide_eq_true_eq] at h
  exact { cur := hc, team := ht, legal := h.1.1.1, priv := fun hp => by simpa [hp] using h.1.1.2, fits := h.1.2, calm := h.2 }

theorem wTeam_good : allGood wTeam := allGood_of rfl rfl

theorem goodRun_of {t : Team} (h : allGood t) (r n l : Nat) : goodRun (t.rRun r n l) = true := by
  simp only [goodRun, Team.rRun, List.all_map, List.all_eq_true]
  exact fun k _ => h _ _

theorem lanesGood_of {t : Team} (h : allGood t) (hd : Hdr) (srcs : List (RegNo × Nat)) : t.lanesGood hd srcs := by
  intro l _
  simp only [Team.laneSrcs, List.all_map, List.all_eq_true]
  exact fun p _ => goodRun_of h _ _ _

theorem wTeam_sRun (r n g : Nat) : goodRun (wTeam.sRun r n g) = true := by
  simp only [goodRun, Team.sRun, List.all_map, List.all_eq_true]
  intro k _
  show RWord.good (wTeam.sGet _ _) = true
  unfold Team.sGet
  split
  · exact ofNat_good _
  · exact get_good _ rfl

theorem groupsGood_wTeam (hd : Hdr) (srcs : List (RegNo × Nat)) : wTeam.groupsGood hd srcs := by
  intro g _
  simp only [Team.groupSrcs, List.all_map, List.all_eq_true]
  exact fun p _ => wTeam_sRun _ _ _

/-- Every listed word runs in the test state, the table has a rule for it, and the words that it takes carry right codes. -/
def ready {α : Type} (table : Instr → Option α) (codes : α → Bool) (l : List Instr) : Bool :=
  l.all fun i => i.wf && checks wTeam i && match table i with
    | some r => codes r
    | none => false

/-- The words that a lane word takes carry right codes. -/
def laneCodes (r : LaneRule) : Bool := (wTeam.lanesFor r.h).all fun l => goodRun (r.chosen wTeam l)

/-- The words that a uniform word takes carry right codes. -/
def groupCodes (r : GroupRule) : Bool := (wTeam.groupsFor r.h).all fun g => goodRun (r.chosen wTeam g)

theorem of_ready {α : Type} {table : Instr → Option α} {codes : α → Bool} {l : List Instr} (h : ready table codes l = true) :
    ∀ i ∈ l, ∃ r, i.wf = true ∧ table i = some r ∧ Runs (wState wTeam) wTeam i ∧ codes r = true := by
  intro i hi
  have := List.all_eq_true.mp h i hi
  simp only [Bool.and_eq_true] at this
  obtain ⟨⟨hw, hc⟩, hr⟩ := this
  cases ht : table i with
  | none => simp [ht] at hr
  | some r => exact ⟨r, hw, rfl, runs rfl rfl hc, by simpa [ht] using hr⟩

theorem lanes_ready {table : Instr → Option LaneRule} {l : List Instr} (h : ready table laneCodes l = true) :
    ∀ i ∈ l, ∃ r, i.wf = true ∧ table i = some r ∧ Runs (wState wTeam) wTeam i ∧ r.codesGood wTeam := by
  intro i hi
  obtain ⟨r, hw, ht, hr, hc⟩ := of_ready h i hi
  exact ⟨r, hw, ht, hr, lanesGood_of wTeam_good _ _, List.all_eq_true.mp hc⟩

theorem groups_ready {table : Instr → Option GroupRule} {l : List Instr} (h : ready table groupCodes l = true) :
    ∀ i ∈ l, ∃ r, i.wf = true ∧ table i = some r ∧ Runs (wState wTeam) wTeam i ∧ r.codesGood wTeam := by
  intro i hi
  obtain ⟨r, hw, ht, hr, hc⟩ := of_ready h i hi
  exact ⟨r, hw, ht, hr, groupsGood_wTeam _ _, List.all_eq_true.mp hc⟩

/-! ### Witnesses: the words of the tables -/

def uniformArithmeticExamples : List Instr :=
  [.sAdd hs .s32 194 192 193, .sSub hs .s32 194 192 193, .sMul hs .s32 194 192 193, .sMulh hx .n32 194 192 193, .sAnd hs .b32 194 192 193,
   .sOr hx .b64 194 192 196, .sXor hx .b32 194 192 193, .sAndn hx .b32 194 192 193, .sShl hs .b32 194 192 193, .sShr hx .b32 194 192 193,
   .sSra hx .b32 194 192 193, .sMin hs .s32 194 192 193, .sMax hx .n64 194 192 196, .sLea hs .n32 194 192 193 0, .sAddi hs .s32 255 254 0xFF] ++
  [.sAndi hs .b32 194 192 7, .sOri hx .b32 194 192 7, .sXori hx .b32 194 192 7, .sShli hx .b32 194 192 31, .sShri hx .b32 194 192 31,
   .sSrai hx .b64 194 192 63, .sMovi hs .s32 194 0x8000, .sMovhi hs 194 1, .sNop hs]

theorem witness_uniform_arithmetic : ∀ i ∈ uniformArithmeticExamples,
    ∃ r, i.wf = true ∧ uniformArithmetic i = some r ∧ Runs (wState wTeam) wTeam i ∧ r.codesGood wTeam := groups_ready (by decide +kernel)

def uniformPredicateExamples : List Instr :=
  [.sCmp hs .eq .s32 1 192 193, .sCmpi hs .eq .s32 7 192 0x80, .sQand hs 1 0 2, .sQor hx 1 0 2, .sQxor hx 1 0 2, .sQany hx 1 15, .sQall hx 1 15]

theorem witness_uniform_predicates : ∀ i ∈ uniformPredicateExamples,
    ∃ r, i.wf = true ∧ uniformPredicates i = some r ∧ Runs (wState wTeam) wTeam i ∧ r.codesGood wTeam := groups_ready (by decide +kernel)

def uniformMoveExamples : List Instr := [.sSel hx .b64 194 192 196 7 true, .sMov hs .b32 194 254 0, .sVrd hx .b32 194 191 0 31, .sVrdf hx .b32 194 0 0]

theorem witness_uniform_moves : ∀ i ∈ uniformMoveExamples,
    ∃ r, i.wf = true ∧ uniformMoves i = some r ∧ Runs (wState wTeam) wTeam i ∧ r.codesGood wTeam := groups_ready (by decide +kernel)

def laneArithmeticExamples : List Instr :=
  [.vAdd hx .s8 9 3 191, .vAdds hx .n16 9 3 192, .vSub hx .s64 8 4 6, .vSubs hx .s32 9 3 4, .vMin hx .n8 9 3 4, .vMax hx .s64 8 4 6,
   .vAddi hx .s64 8 4 0x80, .vAddis hx .s32 9 3 0x80, .vMul hx .s32 9 3 4, .vMulh hx .n32 9 3 4, .vMulw hx .s32 8 3 4, .vMad hx .s32 9 3 4 5] ++
  [.vMadh hx .s32 9 3 4 5, .vMadw hx .n32 8 3 4 6, .vDot4 hx .s8 .n8 9 3 4 5, .vDot4s hx .n8 .s8 9 3 4 5, .vLea hx .s32 8 196 7 15,
   .vLid hx 0, .vGlid hx 0, .vMovi hx .s32 9 0x8000, .vMovhi hx 9 1]

theorem witness_lane_arithmetic : ∀ i ∈ laneArithmeticExamples,
    ∃ r, i.wf = true ∧ laneArithmetic i = some r ∧ Runs (wState wTeam) wTeam i ∧ r.codesGood wTeam := lanes_ready (by decide +kernel)

def laneBitwiseExamples : List Instr :=
  [.vAnd hx .b64 8 4 6, .vOr hx .b32 9 3 4, .vXor hx .b32 9 3 4, .vAndn hx .b32 9 3 4, .vAndi hx .b32 9 3 0xFF, .vOri hx .b32 9 3 1,
   .vXori hx .b32 9 3 1, .vShl hx .b32 9 3 4, .vShr hx .b64 8 4 6, .vSra hx .b32 9 3 4, .vRotl hx .b32 9 3 4, .vRotr hx .b32 9 3 4,
   .vShli hx .b64 8 4 63, .vShri hx .b32 9 3 31] ++
  [.vSrai hx .b32 9 3 31, .vRotli hx .b32 9 3 31, .vFshl hx 9 3 4 5, .vFshr hx 9 3 4 5, .vBfx hx .s32 9 3 4, .vBfi hx 9 3 4 5,
   .vPopc hx .b64 9 4, .vClz hx .b32 9 3, .vCtz hx .b32 9 3, .vBrev hx .b32 9 3, .vPerm hx 9 3 4 5, .vPerms hx 9 3 4 5,
   .vCvt hx .s32 .s8 9 3 true 3]

theorem witness_lane_bitwise : ∀ i ∈ laneBitwiseExamples,
    ∃ r, i.wf = true ∧ laneBitwise i = some r ∧ Runs (wState wTeam) wTeam i ∧ r.codesGood wTeam := lanes_ready (by decide +kernel)

def lanePredicateExamples : List Instr :=
  [.vCmp hx .lt .s32 15 3 4, .vCmpi hx .ge .n32 1 3 0xFF, .vPand hx 1 2 3, .vPor hx 1 2 3, .vPxor hx 1 2 3, .vPandn hx 1 2 0, .vPq hx 1 7]

theorem witness_lane_predicates : ∀ i ∈ lanePredicateExamples,
    ∃ r, i.wf = true ∧ lanePredicates i = some r ∧ Runs (wState wTeam) wTeam i ∧ r.codesGood wTeam := lanes_ready (by decide +kernel)

theorem witness_lane_moves : ∀ i ∈ ([.vSel hx .b64 8 4 6 15 true, .vMov hx .b32 191 255] : List Instr),
    ∃ r, i.wf = true ∧ laneMoves i = some r ∧ Runs (wState wTeam) wTeam i ∧ r.codesGood wTeam := lanes_ready (by decide +kernel)

/-! ### Witnesses: floating point, moves between lanes, reductions -/

def floatArithmeticExamples : List Instr :=
  [.vFadd hs .f32 3 4 5, .vFsub hx .bf16 3 4 5, .vFmul hs .f32 3 4 5, .vFma hx .f16 3 4 5 6, .vFms hx .f32 3 4 5 6, .vFnma hx .f32 3 4 5 6,
   .vFnms hx .f32 3 4 5 6, .vFdot2 hx .bf16 3 4 5 6, .vFmin hs .f32 3 4 5, .vFmax hx .f16 3 4 5, .vFneg hx .f32 3 4, .vFabs hx .f32 3 4] ++
  [.vFcsgn hx .f32 3 4 5, .vFcmp hs .eq 15 4 5, .vFclass hs 3 4]

theorem witness_float_arithmetic : ∀ i ∈ floatArithmeticExamples,
    ∃ r, i.wf = true ∧ floatArithmetic i = some r ∧ Runs (wState wTeam) wTeam i ∧ r.codesGood wTeam := lanes_ready (by decide +kernel)

def floatConversionExamples : List Instr :=
  [.vFcvt hx .f32 .e2m1 3 4 7, .vFcvtPk hx .bf16 3 4 5, .vFtoi hx .s64 .f32 8 4 0, .vItof hx .f16 .n64 3 4, .vFscl hx .e2m1 3 4 5, .vFqnt hx .e2m1 3 8 4]

theorem witness_float_conversion : ∀ i ∈ floatConversionExamples,
    ∃ r, i.wf = true ∧ floatConversion i = some r ∧ Runs (wState wTeam) wTeam i ∧ r.codesGood wTeam := lanes_ready (by decide +kernel)

def floatFunctionExamples : List Instr :=
  [.vFrcp hs 3 4, .vFsqrt hx 3 4, .vFrsq hx 3 4, .vFexp2 hs 3 4, .vFlog2 hx 3 4, .vFsin hx 3 4, .vFcos hx 3 4, .vFsincos hx 8 4, .vFrr hs 3 4,
   .vFrrTurn hx 3 4]

theorem witness_float_functions : ∀ i ∈ floatFunctionExamples,
    ∃ r, i.wf = true ∧ floatFunctions i = some r ∧ Runs (wState wTeam) wTeam i ∧ r.codesGood wTeam := lanes_ready (by decide +kernel)

theorem allGood_ready {table : Instr → Option LaneRule} {l : List Instr} (h : ready table laneCodes l = true) :
    ∀ i ∈ l, ∃ r, i.wf = true ∧ table i = some r ∧ Runs (wState wTeam) wTeam i ∧ allGood wTeam := by
  intro i hi
  obtain ⟨r, hw, hr, hru, _⟩ := lanes_ready h i hi
  exact ⟨r, hw, hr, hru, wTeam_good⟩

def crossLaneExamples : List Instr :=
  [.vShfl hs .b32 3 4 5, .vShup hx .b32 3 4 63, .vShdn hx .b64 8 4 1, .vXswz hx .b32 3 4 31, .vBcast hx .b32 3 4 31, .vBcastf hx .b32 3 4,
   .vMatch hx .b64 8 4, .vVoteAny hs 15 1, .vVoteAll hx 1 0, .vBallot hx 8 1, .vKgen hx 3 4 6 8]

theorem witness_cross_lane : ∀ i ∈ crossLaneExamples,
    ∃ r, i.wf = true ∧ crossLaneWords i = some r ∧ Runs (wState wTeam) wTeam i ∧ allGood wTeam := allGood_ready (by decide +kernel)

def reductionExamples : List Instr :=
  [.vRedAdd hx .s32 3 4, .vRedMin hx .n32 3 4, .vRedMax hx .s32 3 4, .vRedAnd hx 3 4, .vRedOr hx 3 4, .vRedXor hx 3 4, .vScanAdd hx .s32 3 4,
   .vScanMin hx .s32 3 4, .vScanMax hx .n32 3 4, .vScanAddx hx .s32 3 4]

theorem witness_reductions : (∀ i ∈ reductionExamples,
    ∃ r, i.wf = true ∧ reductionWords i = some r ∧ Runs (wState wTeam) wTeam i ∧ allGood wTeam) ∧
    (wTeam.group = 16 ∨ wTeam.group = 32 ∨ wTeam.group = 64) := ⟨allGood_ready (by decide +kernel), by decide⟩

def floatReductionExamples : List Instr :=
  [.vRedAdd hx .f32 3 4, .vRedMin hx .f32 3 4, .vRedMax hx .f32 3 4, .vScanAdd hx .f32 3 4, .vScanMin hx .f32 3 4, .vScanMax hx .f32 3 4]

theorem witness_float_reductions : ∀ i ∈ floatReductionExamples,
    ∃ r, i.wf = true ∧ floatReductionWords i = some r ∧ Runs (wState wTeam) wTeam i ∧ allGood wTeam := allGood_ready (by decide +kernel)

/-! ### Witnesses: memory words -/

/-- A team whose `v4` holds each lane's number. -/
def wLanes : Team := { wTeam with v := (List.range 31).map fun l => (4 * 1024 + l + 1, RWord.ofNat (l + 1)) }

/-- A local page of 512 KiB with every right, in frame 5. -/
def wLeaf : Leaf :=
  { level := 4, mode := 0, r := true, w := true, a := true, x := true, peer := 0, key := 0, thr := 0, res := true, frame := 5 }

/-- A grid of one team of 32 lanes, with a vault region of 4 KiB in vault 0. -/
def wGrid : Grid :=
  { gid := 0, ctx := 0, q := 0, pos := 0, pri := 0, seq := 0, fromTape := false, pack := 1, flags := 2, lanes := 32, group := 32, nv := 192,
    image := 0x4000, gx := 1, gy := 1, gz := 1, trav := 0, swz := 0, tcwi := 0, fmti := 0, nbar := 0, tvbi := 0, seed0 := 0, doneAddr := 0,
    doneVal := 0, cmask := 1, args := [], segMask := 1, entryPc := 0, vbytes := 4096, constVa := 0, dataVa := 0, stepsVa := 0, order := [0],
    next := 1, cursor := 0, regions := [(0, 0)], barCore := none, barBase := 0, relTag := none }

theorem any_some {α : Type} {o : Option α} {p : α → Bool} (h : o.any p = true) : ∃ x, o = some x ∧ p x = true := by
  cases o with
  | none => simp at h
  | some x => exact ⟨x, rfl, by simpa using h⟩

/-- A machine with a team, its grid, page 0 of its context in every TLB, and key slot 0 filled. -/
def wMem (t : Team) : State :=
  { wState t with
    grids := [wGrid]
    pkg := { Pkg.reset with memKeys := [0] }
    tlb := (List.range 64).map fun c => { ctrl := c, asid := 0, page := 0, leaf := wLeaf } }

theorem wMem_quiet (t : Team) : Quiet (wMem t) := ⟨rfl, rfl, rfl⟩

theorem wLanes_good : allGood wLanes := allGood_of (by decide) rfl

/-- The home of the `l`-th word of page 0. -/
def wordAt (l : Nat) : Nat × Nat × Option Leaf := (5 * 2 ^ 19 + 4 * l, 4 * l, some wLeaf)

/-- Index by `v4`, scaled by 4. -/
def mIx : MemF := { sp := false, ix := true, sc := 2, q := false, hint := 0 }

/-- A vault address of a single register, at offset C. -/
def mVault : MemF := { sp := true, ix := false, sc := 0, q := false, hint := 0 }

/-- Lanes that reach their places with nothing to ask another device. -/
theorem reaches_of {s : State} {t : Team} {h : Hdr} {acc : Acc} {m : MemForm} {extra : LaneAcc → LaneAcc} {at_ : Nat → Nat × Nat × Option Leaf}
    (H : ∀ l ∈ t.lanesFor h, extra (s.laneAccess t l acc m.vt m.size (m.addr t l)) = .ok (at_ l).1 (at_ l).2.1 (at_ l).2.2 ∧
      (s.laneNeed t acc m.size (l, .ok (at_ l).1 (at_ l).2.1 (at_ l).2.2)).isNone = true) : reaches s t h acc m extra at_ := by
  intro l hl
  refine ⟨(H l hl).1, fun n hn => ?_⟩
  have := (H l hl).2
  rw [hn] at this
  cases this

theorem wLanes_home : ∀ l ∈ wLanes.lanesFor hx, ¬ (wLanes.pair = true ∨ peerHome (wordAt l).1 = true) := by decide +kernel

theorem witness_load_global : isLoad (.vLd hx .b32 9 192 4 0 mIx) hx .b32 9 (MemForm.of 192 4 0 mIx 4) mIx none ∧
    Runs (wMem wLanes) wLanes (.vLd hx .b32 9 192 4 0 mIx) ∧ allGood wLanes ∧ Quiet (wMem wLanes) ∧
    reaches (wMem wLanes) wLanes hx .read (MemForm.of 192 4 0 mIx 4) id wordAt ∧ copiesAgree (wMem wLanes) wLanes hx 4 wordAt :=
  ⟨.inl ⟨_, _, _, rfl, rfl, rfl⟩, runs rfl rfl (by decide), wLanes_good, wMem_quiet _, reaches_of (by decide +kernel),
   fun l hl _ _ h => absurd h (wLanes_home l hl)⟩

theorem witness_load_vault_lookahead :
    let h : Hdr := { hx with la := 15 }
    isLoad (.vLd h .b32 9 0 0 127 mVault) h .b32 9 (MemForm.of 0 0 127 mVault 4) mVault none ∧
    Runs (wMem wLanes) wLanes (.vLd h .b32 9 0 0 127 mVault) ∧
    reaches (wMem wLanes) wLanes h .read (MemForm.of 0 0 127 mVault 4) id (fun _ => (2 ^ 44 + 508, 508, none)) ∧ h.la ≠ 0 :=
  ⟨.inl ⟨_, _, _, rfl, rfl, rfl⟩, runs rfl rfl (by decide), reaches_of (by decide +kernel), by decide⟩

theorem witness_residency_load : isLoad (.vLdr hx .b32 9 192 4 0 mIx 1) hx .b32 9 (MemForm.of 192 4 0 mIx 4) mIx (some 1) ∧
    Runs (wMem wLanes) wLanes (.vLdr hx .b32 9 192 4 0 mIx 1) ∧
    reaches (wMem wLanes) wLanes hx .read (MemForm.of 192 4 0 mIx 4) id wordAt :=
  ⟨.inr ⟨_, _, _, 1, rfl, rfl, rfl⟩, runs rfl rfl (by decide), reaches_of (by decide +kernel)⟩

/-- A load in flight. -/
def wFlight : Flight := { seq := 0, pc := 0, la := 15, regs := [9], stop := none, writes := [.reg (9 * 1024) (RWord.ofNat 7)], stat := none }

theorem witness_flight : let t : Team := { wTeam with flight := [wFlight] }
    (wState t).team? t.uid = some t ∧ t.flight = wFlight :: [] ∧ wFlight.stat = none ∧ wFlight.stop = none := ⟨rfl, rfl, rfl, rfl⟩

theorem witness_store : Runs (wMem wLanes) wLanes (.vSt hx .b32 4 192 4 0 mIx) ∧ allGood wLanes ∧ Quiet (wMem wLanes) ∧
    reaches (wMem wLanes) wLanes hx .write (MemForm.of 192 4 0 mIx (accessSize .b32 mIx.q)) id wordAt :=
  ⟨runs rfl rfl (by decide), wLanes_good, wMem_quiet _, reaches_of (by decide +kernel)⟩

theorem witness_prefetch : Runs (wMem wLanes) wLanes (.vPf hx 192 4 0 mIx) ∧ allGood wLanes := ⟨runs rfl rfl (by decide), wLanes_good⟩

theorem witness_atomic : ∃ new, isAtomic wLanes (.vAtom hx .add .n32 9 192 4 1 false) hx .add .n32 9 (MemForm.atom 192 1 false 4) true new ∧
    Runs (wMem wLanes) wLanes (.vAtom hx .add .n32 9 192 4 1 false) ∧
    Quiet (wMem wLanes) ∧ reaches (wMem wLanes) wLanes hx .atomic (MemForm.atom 192 1 false 4) (hostAtomic true) (fun _ => wordAt 1) ∧
    hx.la = 0 ∧ peerHome (wordAt 1).1 = false :=
  ⟨_, .inl ⟨_, _, _, _, rfl, rfl, rfl, rfl⟩, runs rfl rfl (by decide), wMem_quiet _, reaches_of (by decide +kernel), rfl, by decide⟩

theorem witness_cas : ∃ new, isAtomic wLanes (.vCas hx .b32 9 0 4 1 true) hx .xchg .b32 9 (MemForm.atom 0 1 true 4) true new ∧
    Runs (wMem wLanes) wLanes (.vCas hx .b32 9 0 4 1 true) ∧
    reaches (wMem wLanes) wLanes hx .atomic (MemForm.atom 0 1 true 4) (hostAtomic true) (fun _ => (2 ^ 44 + 4, 4, none)) :=
  ⟨_, .inr ⟨_, _, _, _, rfl, rfl, rfl, rfl, rfl⟩, runs rfl rfl (by decide), reaches_of (by decide +kernel)⟩

theorem witness_no_return_atomic : Runs (wMem wLanes) wLanes (.vAtomn hx .max .s32 192 4 1 false) ∧ allGood wLanes ∧ Quiet (wMem wLanes) ∧
    reaches (wMem wLanes) wLanes hx .atomic (MemForm.atom 192 1 false 4) (hostAtomic (hostOp .max)) (fun _ => wordAt 1) :=
  ⟨runs rfl rfl (by decide), wLanes_good, wMem_quiet _, reaches_of (by decide +kernel)⟩

/-- A write of four bytes on its way to the word at VA 4. -/
def wWrite (kind : WriteKind) : PWrite :=
  { uid := 1, seq := 0, core := 0, cores := [0], gid := 0, asid := 0, va := 4, vault := false, key := 5 * 2 ^ 19 + 4, lane := 0, pc := 0, base := 0, ext := 0,
    bytes := [1, 2, 3, 4], kind := kind }

theorem witness_store_registers : let s : State := { wMem wTeam with pend := [wWrite .store] }
    s.pend[0]? = some (wWrite .store) ∧ (wWrite .store).kind = .store ∧ blockedWrite s 0 (wWrite .store) = false ∧
    peerHome (wWrite .store).key = false ∧ SMap.get false s.poison ((wWrite .store).key / 64) = false := ⟨rfl, rfl, by decide, by decide, rfl⟩

theorem witness_atomic_applies : let w := wWrite (.atomic .add .n32 5 0 0 0)
    let s : State := { wMem wTeam with pend := [w] }
    s.pend[0]? = some w ∧ w.kind = .atomic .add .n32 5 0 0 0 ∧ s.pend.filter w.fellow = [w] ∧ blockedWrite s 0 w = false ∧
    peerHome w.key = false ∧ s.codeErrs = [] ∧ SMap.get false s.poison (w.key / 64) = false :=
  ⟨rfl, rfl, by decide, by decide, by decide, rfl, rfl⟩

theorem witness_misaligned : let m : MemF := { mIx with sc := 0 }
    let f := MemForm.of 192 4 0 m (accessSize .b32 m.q)
    allGood wLanes ∧ hx.la = 0 ∧ ((wLanes.lanesFor hx).filter fun l => decide (f.addr wLanes l % (f.size : Int) ≠ 0)) ≠ [] ∧
    Runs (wMem wLanes) wLanes (.vLd hx .b32 9 192 4 0 m) ∧ Runs (wMem wLanes) wLanes (.vLdr hx .b32 9 192 4 0 m 1) ∧
    Runs (wMem wLanes) wLanes (.vSt hx .b32 9 192 4 0 m) :=
  ⟨wLanes_good, rfl, by decide +kernel, runs rfl rfl (by decide), runs rfl rfl (by decide), runs rfl rfl (by decide)⟩

theorem witness_index_beyond : let ts : List (BitVec 16) := (List.range 31).map fun n => BitVec.ofNat 16 n
    (wLanes.activeLanes.filter fun l => inGroups wLanes hx l && decide ((wLanes.rGet 4 l).val.toNat ≥ ts.length)) ≠ [] ∧
    Runs (wMem wLanes) wLanes (.sBtab hx 4 0 ts) ∧ Runs (wMem wLanes) wLanes (.sBtabc hx 4 0 ts) :=
  ⟨by decide +kernel, runs rfl rfl (by decide), runs rfl rfl (by decide)⟩

/-! ### Witnesses: control transfers, overlays -/

/-- A team at PC 256 whose lanes 0 to 3 have p1 set, with numbers in `v4` and the return PC 0x0900 in `s63`; segment 5 is bound to segment 0's image. -/
def wJump : Team :=
  { wLanes with
    p := (List.range 4).map fun l => (1024 + l, true)
    s := [(63 * 1024, RWord.ofNat 0x900)]
    segs := wLanes.segs.set 5 0x4000
    stack := [{ pc := 256, mask := fullMask 32, rpc := none, fmt := 0 }] }

theorem wJump_good : allGood wJump := allGood_of (by decide) (by decide)

def jumpExamples : List Instr :=
  [.sJmp hs 0x1F00 0, .sBr hx (.p false 1) 16 32, .sBr hx (.q true 7) 16 0, .sBr hx (.reg 63) 16 0, .sBrAll hx (.p true 0) 16 32, .sBrAny hs (.p false 1) 0x0EFF 0,
   .sLoop hx 0 16 0, .sCall hs 16 0]

theorem witness_jumps : ∀ i ∈ jumpExamples, ∃ r, i.wf = true ∧ jumpRule wJump i = some r ∧ Runs (wState wJump) wJump i ∧ allGood wJump ∧ r.ok := by
  intro i hi
  simp only [jumpExamples, List.mem_cons, List.not_mem_nil, or_false] at hi
  rcases hi with rfl | rfl | rfl | rfl | rfl | rfl | rfl | rfl <;>
    exact ⟨_, by decide, rfl, runs rfl rfl (by decide), wJump_good, trivial⟩

theorem witness_register_jumps : ∀ i ∈ ([.sJr hs 63 0, .sCallr hs 63 0] : List Instr),
    ∃ r, i.wf = true ∧ jumpRule wJump i = some r ∧ Runs (wState wJump) wJump i ∧ r.ok := by
  intro i hi
  simp only [List.mem_cons, List.not_mem_nil, or_false] at hi
  rcases hi with rfl | rfl
  · exact ⟨_, by decide, rfl, runs rfl rfl (by decide), by simp only; decide +kernel⟩
  · exact ⟨_, by decide, rfl, runs rfl rfl (by decide), by simp only; decide +kernel⟩

/-- A table of 32 targets in the segment of the PC, the first half 0x0800, the rest 0x0FFF. -/
def wTargets : List (BitVec 16) := List.replicate 16 0x0800 ++ List.replicate 16 0x0FFF

theorem wTargets_ok (l : Nat) (h : l ∈ wJump.activeLanes) : ∃ p, wTargets[(wJump.rGet 4 l).val.toNat]? = some p ∧ p.toNat / 4096 = wJump.pc.toNat / 4096 := by
  have : (wJump.activeLanes.all fun l => match wTargets[(wJump.rGet 4 l).val.toNat]? with
      | some p => p.toNat / 4096 == wJump.pc.toNat / 4096 | none => false) = true := by decide +kernel
  have := List.all_eq_true.mp this l h
  split at this
  · rename_i p e
    exact ⟨p, e, by simpa using this⟩
  · simp at this

theorem witness_table_jumps : ∀ i ∈ ([.sBtab hx 4 0 wTargets, .sBtabc hx 4 64 wTargets] : List Instr),
    ∃ r, i.wf = true ∧ jumpRule wJump i = some r ∧ Runs (wState wJump) wJump i ∧ r.ok := by
  intro i hi
  simp only [List.mem_cons, List.not_mem_nil, or_false] at hi
  rcases hi with rfl | rfl
  · exact ⟨_, by decide, rfl, runs rfl rfl (by decide), by decide, fun l hl _ => wTargets_ok l hl⟩
  · exact ⟨_, by decide, rfl, runs rfl rfl (by decide), by decide, fun l hl _ => wTargets_ok l hl⟩

/-- The rule of a word in the test state. -/
def wRule (which : Nat → Bool) (p : BitVec 16) : JumpRule := { rcv := 0, goes := fun l => if which l then some (0, p) else none, write := wJump, ok := True }

/-- No lane leaves: p15 is clear in every lane. -/
theorem witness_jump_stays : ∃ r, jumpRule wJump (.sBr hx (.p false 15) 16 0) = some r ∧ ∀ l ∈ wJump.activeLanes, r.dest 258 l = 258 :=
  ⟨_, rfl, by simp only [JumpRule.dest]; decide +kernel⟩

/-- Every lane goes to PC 0. -/
theorem witness_jump_all : ∃ r, jumpRule wJump (.sJmp hs 0x1F00 0) = some r ∧ (0 : BitVec 16) ≠ 257 ∧ wJump.activeLanes ≠ [] ∧
    ∀ l ∈ wJump.activeLanes, r.dest 257 l = 0 :=
  ⟨_, rfl, by decide, by decide +kernel, by simp only [JumpRule.dest]; decide +kernel⟩

/-- The lanes part: p1's go to 272, the others go on at 258. -/
theorem witness_jump_parts : ∃ r, jumpRule wJump (.sBr hx (.p false 1) 16 0) = some r ∧
    (∀ p, p ∈ ([272, 258] : List (BitVec 16)) ↔ ∃ l ∈ wJump.activeLanes, r.dest 258 l = p) ∧
    ([272, 258] : List (BitVec 16)).Pairwise (runsBefore wJump r 258) ∧ wJump.stack.length + 2 ≤ 16 ∧ wJump.depth + 2 ≤ 256 := by
  refine ⟨_, rfl, ?_, ?_, by decide, by decide⟩
  · intro p
    constructor
    · intro h
      simp only [List.mem_cons, List.not_mem_nil, or_false] at h
      rcases h with rfl | rfl
      · exact ⟨0, by decide +kernel, by simp only [JumpRule.dest]; decide +kernel⟩
      · exact ⟨4, by decide +kernel, by simp only [JumpRule.dest]; decide +kernel⟩
    · rintro ⟨l, hl, rfl⟩
      revert l
      simp only [JumpRule.dest]
      decide +kernel
  · exact .cons (by intro q hq; simp only [List.mem_cons, List.not_mem_nil, or_false] at hq; subst hq; exact ⟨by decide, .inl rfl⟩)
      (.cons (by simp) .nil)

theorem laterIndex {g : Nat → Option (Nat × BitVec 16)} {q : BitVec 16} {l : List Nat}
    (h : (l.all fun m => match g m with | some (k, p) => p != q || decide (0 < k) | none => true) = true) : ∀ m ∈ l, ∀ k, g m = some (k, q) → 0 < k := by
  intro m hm k e
  have := List.all_eq_true.mp h m hm
  rw [e] at this
  simpa using this

/-- Two targets of a table: the lower index runs first. -/
theorem witness_table_parts : ∃ r, jumpRule wJump (.sBtab hx 4 0 wTargets) = some r ∧
    ([0x0800, 0x0FFF] : List (BitVec 16)).Pairwise (runsBefore wJump r 275) := by
  refine ⟨_, rfl, .cons ?_ (.cons (by simp) .nil)⟩
  intro q hq
  simp only [List.mem_cons, List.not_mem_nil, or_false] at hq
  subst hq
  exact ⟨by decide, .inr ⟨0, by decide +kernel, 0, by decide +kernel, laterIndex (by decide +kernel)⟩⟩

/-- `s.exit` of all lanes, and of the lanes of one of two groups. -/
def wTwo : Team := { wTeam with group := 16, q := [(1024, true)] }

theorem witness_exit_all : Runs (wState wTeam) wTeam (.sExit hs) ∧ wTeam.spilled = 0 ∧ wTeam.stack ≠ [] ∧
    ((withoutLanes wTeam (exitMask wTeam hs)).stack.getLast?.getD wTeam.top).mask = 0 := ⟨runs rfl rfl (by decide), rfl, by decide, by decide +kernel⟩

theorem witness_exit_some : let h : Hdr := { hx with g := 1 }
    Runs (wState wTwo) wTwo (.sExit h) ∧ ((withoutLanes wTwo (exitMask wTwo h)).stack.getLast?.getD wTwo.top).mask ≠ 0 :=
  ⟨runs rfl rfl (by decide), by decide +kernel⟩

/-- A code slot that holds the test image. -/
def wSlot : CodeSlot := { CodeSlot.reset with asid := 0, addr := 0x4000, st := .landed, words := [0x95000000] }

/-- A machine whose core 0 holds the image of the test team. -/
def wCode (t : Team) : State := { wState t with cores := [(0, { Core.reset with code := [(0, wSlot)] })] }

theorem witness_fenced_jump : Runs (wCode wJump) wJump (.sJmpf hs 0x5FFF) ∧ allGood wJump ∧ wJump.groupsFor hs ≠ [] ∧
    (∀ l ∈ wJump.activeLanes, inGroups wJump hs l = true) ∧ (0x5FFF#16).toNat / 4096 ≠ wJump.pc.toNat / 4096 ∧
    (wCode wJump).segStatus wJump ((0x5FFF#16).toNat / 4096) = 2 :=
  ⟨runs rfl rfl (by decide), wJump_good, by decide +kernel, by decide +kernel, by decide, by decide⟩

theorem witness_fenced_jump_misses : Runs (wCode wJump) wJump (.sJmpf hs 0x6000) ∧ (0x6000#16).toNat / 4096 ≠ wJump.pc.toNat / 4096 ∧
    (wCode wJump).segStatus wJump ((0x6000#16).toNat / 4096) < 2 := ⟨runs rfl rfl (by decide), by decide, by decide⟩

theorem witness_overlay_words : Runs (wCode wJump) wJump (.sCfence hs) ∧ Runs (wCode wJump) wJump (.sCstat hs 194 15) :=
  ⟨runs rfl rfl (by decide), runs rfl rfl (by decide)⟩

/-- A team with the image's address in `s4, s5`. -/
def wFetch : Team := { wJump with s := [(4 * 1024, RWord.ofNat 0x4000)] }

theorem witness_code_fetch : let t := wFetch
    let s := wCode t
    wordsNat (t.sRun (196 : RegNo).toNat 2 0) = 0x4000 ∧ allGood t ∧ t.freeSlots = 0 :: (List.range 64).tail ∧ t.groupsFor hx = 0 :: [] ∧ t.pair = false ∧
    (s.core t.home).slotFor t.asid 0x4000 = some (0, wSlot) ∧ wSlot.st = .landed ∧ s.loads = [] ∧ t.segs.length = 16 ∧
    (s.core t.home).code.all (fun e => e.2.waiters.isEmpty) = true ∧ Runs s t (.sCfetch hx 198 196 15) ∧ Runs s t (.sCfetchReload hx 198 196 0) :=
  ⟨by decide, allGood_of (by decide) (by decide), by decide, by decide +kernel, rfl, by decide, rfl, rfl, by decide, by decide, runs rfl rfl (by decide),
   runs rfl rfl (by decide)⟩

/-! ### Witnesses: barriers, waits, fences -/

/-- A team with numbers in the `s` registers of its group. -/
def withS (l : List (Nat × Nat)) : Team := { wTeam with s := l.map fun e => (e.1 * 1024, RWord.ofNat e.2) }

theorem withS_good (l : List (Nat × Nat)) : allGood (withS l) := by
  refine allGood_of rfl ?_
  simp only [withS, List.all_map, List.all_eq_true]
  exact fun e _ => ofNat_good _

/-- The grid of the barrier tests: four barriers, whose slots begin at 0 on core 0. -/
def wBarGrid : Grid := { wGrid with nbar := 4, barCore := some 0 }

def wBar (t : Team) : State := { wState t with grids := [wBarGrid] }

theorem witness_barrier_words : ∀ n ∈ ([1, 6144] : List Nat), let t := withS [(0, n)]
    let s := wBar t
    leads t hx 0 [] ∧ allGood t ∧ barrierAt s t 3 0 3 wBarGrid ∧ releasesNow s t ∧ 1 ≤ leadVal t 0 192 1 ∧ leadVal t 0 192 1 ≤ 6144 ∧
    Runs s t (.sBarSync hx 192 3) ∧ Runs s t (.sBarArr hx 194 3 192) ∧ Runs s t (.sBarWait hx 192 3) ∧
    s.barGen 0 3 t.gid ≠ BitVec.ofNat 16 (leadVal t 0 192 1) := by
  intro n hn
  simp only [List.mem_cons, List.not_mem_nil, or_false] at hn
  rcases hn with rfl | rfl <;>
    exact ⟨by unfold leads; decide +kernel, withS_good _, ⟨rfl, by decide, rfl, rfl⟩, (by unfold releasesNow localRelease; decide +kernel), by decide, by decide,
      runs rfl rfl (by decide), runs rfl rfl (by decide), runs rfl rfl (by decide), by decide⟩

theorem witness_barrier_holds : let s := wBar wTeam
    Runs s wTeam (.sBarWait hx 192 0) ∧ s.barGen 0 0 wTeam.gid = BitVec.ofNat 16 (leadVal wTeam 0 192 1) := ⟨runs rfl rfl (by decide), by decide⟩

/-- An arrival of the test team at barrier slot 3 of core 0. -/
def wArrival (count : Nat) : Arrival := { uid := 1, src := 0, at_ := 2, core := 0, idx := 3, count := count, sync := true, d := 192, groups := [0] }

theorem witness_arrival_counted : let s : State := { wBar wTeam with arrivals := [wArrival 1] }
    s.arrivals[0]? = some (wArrival 1) ∧ s.team? (wArrival 1).uid = some wTeam ∧ ((s.core 0).bar 3 0).cnt = 0 := ⟨rfl, rfl, rfl⟩

/-- A core whose slot 3 has counted one of two arrivals. -/
def wHalf : State :=
  { wBar wTeam with
    arrivals := [wArrival 3]
    cores := [(0, { Core.reset with bars := [(3, { gid := 0, exp := 2, cnt := 1, gen := 0 })] })] }

theorem witness_arrival_differs : wHalf.arrivals[0]? = some (wArrival 3) ∧ ((wHalf.core 0).bar 3 0).cnt ≠ 0 ∧ ((wHalf.core 0).bar 3 0).exp ≠ 3 :=
  ⟨rfl, by decide, by decide⟩

theorem witness_token : let t : Team := { wTeam with hold := .barTok 7 194 [0], heldLen := 2 }
    (wState t).team? t.uid = some t ∧ heldFits t ∧ t.hold = .barTok 7 194 [0] := ⟨rfl, (by unfold heldFits; decide), rfl⟩

theorem witness_barrier_release : let t : Team := { wTeam with hold := .barWait 3 7, heldLen := 2 }
    (wBar t).team? t.uid = some t ∧ heldFits t ∧ t.hold = .barWait 3 7 ∧ t.res = .resident ∧ (wBar t).grid? t.gid = some wBarGrid ∧
    wBarGrid.barCore = some 0 ∧ (wBar t).barGen 0 3 t.gid ≠ 7 := ⟨rfl, (by unfold heldFits; decide), rfl, rfl, rfl, rfl, by decide⟩

theorem witness_waits : let t := withS [(0, 0x6000)]
    leads t hx 0 [] ∧ allGood t ∧ Runs (wState t) t (.sPoll hx 194 192) ∧ Runs (wState t) t (.sWait hx 194 192) ∧
    t.hStatus (BitVec.ofNat 16 (leadVal t 0 192 1)) = .done ∧ Runs (wState t) t (.sWaitall hx) ∧ (∀ e ∈ t.handles, e.2.status ≠ .pending) ∧
    Runs (wState t) t (.sSleepu hx 192) ∧ (wState t).time < leadVal t 0 192 2 :=
  ⟨by unfold leads; decide +kernel, withS_good _, runs rfl rfl (by decide), runs rfl rfl (by decide), by decide, runs rfl rfl (by decide), by decide,
   runs rfl rfl (by decide), by decide⟩

/-- Atomics of a team whose `s0` holds an address that is no multiple of four. -/
theorem witness_misaligned_atomics : let t := withS [(0, 2)]
    let g := MemForm.atom 192 0 false 4
    allGood t ∧ ((t.lanesFor hx).filter fun l => decide (g.addr t l % (g.size : Int) ≠ 0)) ≠ [] ∧
    ∀ i ∈ ([.vAtom hx .add .n32 9 192 4 0 false, .vCas hx .b32 9 192 4 0 false, .vAtomn hx .add .n32 192 4 0 false] : List Instr),
      Runs (wMem t) t i := by
  refine ⟨withS_good _, by decide +kernel, ?_⟩
  intro i hi
  simp only [List.mem_cons, List.not_mem_nil, or_false] at hi
  rcases hi with rfl | rfl | rfl <;> exact runs rfl rfl (by decide)

theorem witness_misaligned_injection : let t : Team := { wTeam with v := [(4 * 1024, RWord.ofNat 32)] }
    allGood t ∧ ((t.lanesFor hx).filter fun l => decide ((injForm false 4).addr t l % ((injForm false 4).size : Int) ≠ 0)) ≠ [] ∧
    isInjection (.ckInjmGCe hx 4) hx false .ce 4 ∧ Runs (wMem t) t (.ckInjmGCe hx 4) :=
  ⟨allGood_of (by decide) rfl, by decide +kernel, .inl ⟨rfl, rfl, rfl⟩, runs rfl rfl (by decide)⟩

/-- A team whose copy handle 0x6000 is pending, promised for time 5. -/
def wLate : Team := { withS [(0, 0x6000)] with handles := [(0, { gen := 0, status := .pending, eng := 3, promise := some 5 })] }

theorem witness_wait_pending : let s : State := { wState wLate with cyc := 5 }
    leads wLate hx 0 [] ∧ allGood wLate ∧ Runs s wLate (.sWait hx 194 192) ∧ Runs s wLate (.sWaitall hx) ∧
    wLate.hStatus (BitVec.ofNat 16 (leadVal wLate 0 192 1)) = .pending ∧
    (∀ p, (wLate.slotOf (leadVal wLate 0 192 1 % 64)).promise = some p → s.time ≤ p) ∧ (∃ e ∈ wLate.handles, e.2.status = .pending) ∧
    ∀ e ∈ wLate.handles, e.2.status = .pending → ∀ p, e.2.promise = some p → s.time ≤ p := by
  refine ⟨by unfold leads; decide +kernel, allGood_of rfl (by decide), runs rfl rfl (by decide), runs rfl rfl (by decide), by decide, ?_,
    ⟨_, .head _, rfl⟩, ?_⟩
  · intro p h
    obtain rfl : 5 = p := Option.some.inj h
    decide
  · intro e he _ p h
    obtain rfl := List.mem_singleton.mp he
    obtain rfl : 5 = p := Option.some.inj h
    decide

theorem witness_sleep_over : let s : State := { wState (withS [(0, 9)]) with cyc := 9 }
    Runs s (withS [(0, 9)]) (.sSleepu hx 192) ∧ leadVal (withS [(0, 9)]) 0 192 2 ≤ s.time := ⟨runs rfl rfl (by decide), by decide⟩

theorem witness_sleep_wake : let t : Team := { wTeam with hold := .sleep 0, heldLen := 1 }
    (wState t).team? t.uid = some t ∧ t.res = .resident ∧ heldFits t ∧ t.hold = .sleep 0 ∧ 0 ≤ (wState t).time :=
  ⟨rfl, rfl, (by unfold heldFits; decide), rfl, by decide⟩

theorem witness_wait_wake : let t : Team := { wTeam with hold := .wait 0 194 [0], heldLen := 1 }
    (wState t).team? t.uid = some t ∧ heldFits t ∧ t.hold = .wait 0 194 [0] ∧ t.hStatus 0 ≠ .pending :=
  ⟨rfl, (by unfold heldFits; decide), rfl, by decide⟩

theorem witness_wait_all_wake : let t : Team := { wTeam with hold := .waitAll, heldLen := 1 }
    (wState t).team? t.uid = some t ∧ heldFits t ∧ t.hold = .waitAll ∧ ∀ e ∈ t.handles, e.2.status ≠ .pending :=
  ⟨rfl, (by unfold heldFits; decide), rfl, by decide⟩

theorem witness_late : let s : State := { wState wLate with cyc := 6 }
    wLate.handler = false ∧ Runs s wLate (.sWait hx 194 192) ∧ leads wLate hx 0 [] ∧ allGood wLate ∧
    wLate.hStatus (BitVec.ofNat 16 (leadVal wLate 0 192 1)) = .pending ∧ (wLate.slotOf 0).promise = some 5 ∧ 5 < s.time :=
  ⟨by decide, runs rfl rfl (by decide), by unfold leads; decide +kernel, allGood_of rfl (by decide), by decide, rfl, by decide⟩

theorem witness_late_held : let t : Team := { wLate with hold := .wait 0x6000 194 [0] }
    let s : State := { wState t with cyc := 6 }
    s.team? t.uid = some t ∧ t.res = .resident ∧ t.hold = .wait 0x6000 194 [0] ∧ t.hStatus 0x6000 = .pending ∧
    (t.slotOf ((0x6000#16).toNat % 64)).promise = some 5 ∧ 5 < s.time := ⟨rfl, rfl, rfl, by decide, by decide, by decide⟩

theorem witness_fences : wTeam.groupsFor hs ≠ [] ∧ releasesNow (wMem wTeam) wTeam ∧
    ∀ i ∈ ([.sFenceAcq hs, .sFenceRel hx, .sFenceAcqrel hx, .sFenceSc hx] : List Instr), i.wf = true ∧ Runs (wMem wTeam) wTeam i := by
  refine ⟨by decide +kernel, (by unfold releasesNow localRelease; decide +kernel), ?_⟩
  intro i hi
  simp only [List.mem_cons, List.not_mem_nil, or_false] at hi
  rcases hi with rfl | rfl | rfl | rfl <;> exact ⟨by decide, runs rfl rfl (by decide)⟩

/-- A team that has stored to a HOST page. -/
def wHostStore : Team := { wTeam with hostStores := true }

theorem witness_link_release : localRelease (wMem wHostStore) wHostStore ∧ wHostStore.hostStores = true ∧ wHostStore.fence = .none ∧
    ∀ i ∈ ([.sFenceRel hx, .sFenceAcqrel hx, .sFenceSc hx] : List Instr), Runs (wMem wHostStore) wHostStore i := by
  refine ⟨by unfold localRelease; decide +kernel, rfl, rfl, ?_⟩
  intro i hi
  simp only [List.mem_cons, List.not_mem_nil, or_false] at hi
  rcases hi with rfl | rfl | rfl <;> exact runs rfl rfl (by decide)

/-! ### Witnesses: CSRs, seeds, traps -/

theorem witness_csr_reads : ∀ e ∈ csrReads (wState wTeam) wTeam, Runs (wState wTeam) wTeam (.sCsrr hs 194 (BitVec.ofNat 12 e.1)) ∧
    (BitVec.ofNat 12 e.1).toNat = e.1 := by
  intro e he
  have : ((csrReads (wState wTeam) wTeam).all fun e => checks wTeam (.sCsrr hs 194 (BitVec.ofNat 12 e.1)) && (BitVec.ofNat 12 e.1).toNat == e.1) = true := by
    decide +kernel
  have := List.all_eq_true.mp this e he
  simp only [Bool.and_eq_true, beq_iff_eq] at this
  exact ⟨runs rfl rfl this.1, this.2⟩

/-- A team in its handler, with 0x0005 in `s0`. -/
def wHandler : Team := { withS [(0, 5)] with tcw := 0xC0000000 }

/-- The CSRs that the write tests use: every RW or W1C register of a team, and the first and last RO registers. -/
def csrTargets : List Nat :=
  [0x000, 0x004, 0x005, 0x006, 0x007, 0x020, 0x021, 0x022, 0x023, 0x200, 0x060, 0x07F, 0x008, 0x010, 0x040, 0x282]

theorem witness_csr_writes : leads wHandler hx 0 [] ∧ allGood wHandler ∧ ∀ op ∈ [CsrOp.write, .set, .clear], ∀ n ∈ csrTargets,
    ∃ u, csrWritten wHandler op (BitVec.ofNat 12 n).toNat (BitVec.ofNat 64 (leadVal wHandler 0 192 (csrWidth (BitVec.ofNat 12 n)))) = some u ∧
      Runs (wState wHandler) wHandler (csrWord op hx 192 (BitVec.ofNat 12 n)) := by
  refine ⟨by unfold leads; decide +kernel, allGood_of rfl (by decide), ?_⟩
  intro op ho n hn
  have : ([CsrOp.write, .set, .clear].all fun op => csrTargets.all fun n =>
      (csrWritten wHandler op (BitVec.ofNat 12 n).toNat (BitVec.ofNat 64 (leadVal wHandler 0 192 (csrWidth (BitVec.ofNat 12 n))))).isSome &&
        checks wHandler (csrWord op hx 192 (BitVec.ofNat 12 n))) = true := by decide +kernel
  have := List.all_eq_true.mp (List.all_eq_true.mp this op ho) n hn
  simp only [Bool.and_eq_true] at this
  obtain ⟨u, hu⟩ := Option.isSome_iff_exists.mp this.1
  exact ⟨u, hu, runs rfl rfl this.2⟩

/-- A team with a format and a number in `s0`. -/
def wFormat (f x : Nat) : Team := (withS [(0, x)]).setTop { (withS [(0, x)]).top with fmt := BitVec.ofNat 32 f }

theorem witness_format_writes : ∀ e ∈ ([(.write, 0, 0xF000), (.set, 0x8000, 0x7000), (.clear, 0xFF00, 0x0F00)] : List (CsrOp × Nat × Nat)),
    let t := wFormat e.2.1 e.2.2
    ∃ u, csrWritten t e.1 1 (BitVec.ofNat 64 (leadVal t 0 192 1)) = some u ∧ Runs (wState t) t (csrWord e.1 hx 192 1) := by
  intro e he
  simp only [List.mem_cons, List.not_mem_nil, or_false] at he
  rcases he with rfl | rfl | rfl <;> exact ⟨_, by rfl, runs rfl rfl (by decide)⟩

theorem witness_seeds : leads wTeam hx 0 [] ∧ Runs (wState wTeam) wTeam (.sFmt hs 0xF000) ∧ Runs (wState wTeam) wTeam (.sSeed hx 3 192) ∧
    Runs (wState wTeam) wTeam (.sSeedmix hx 0 192) :=
  ⟨by unfold leads; decide +kernel, runs rfl rfl (by decide), runs rfl rfl (by decide), runs rfl rfl (by decide)⟩

/-- A team whose handler stands in segment 0. -/
def wTrap : Team := { wTeam with tvb := 0x80000040 }

theorem wTrap_ready : handlerReady (wCode wTrap) wTrap := ⟨by decide, by decide, (by unfold fencePasses; decide), rfl, rfl, rfl⟩

theorem witness_traps : Runs (wCode wTrap) wTrap (.sTrap hs 0xFFFF) ∧ Runs (wCode wTrap) wTrap (.sBrk hs 0) ∧ wTrap.groupsFor hs ≠ [] :=
  ⟨runs rfl rfl (by decide), runs rfl rfl (by decide), by decide +kernel⟩

theorem witness_engine_stop : let t : Team := { wTrap with stopReq := some (Stop.of .gang), hold := .latch }
    handlerReady (wCode t) t ∧ (wCode t).team? t.uid = some t ∧ t.res = .resident ∧ t.stopReq = some (Stop.of .gang) ∧
    (Stop.of .gang).after = false ∧ (Stop.of .gang).code = 0 := ⟨⟨by decide, by decide, (by unfold fencePasses; decide), rfl, rfl, rfl⟩, rfl, rfl, rfl, rfl, rfl⟩

theorem witness_illegal : (wCode wTrap).team? wTrap.uid = some wTrap ∧ (wCode wTrap).cur = some wTrap.uid ∧
    (Instr.info (.vAdd hx .s64 3 4 6)).isSome = true ∧ Instr.legal wTrap wTrap.pc (.vAdd hx .s64 3 4 6) = false := ⟨rfl, rfl, rfl, by decide⟩

/-- A team without the privileged flag. -/
def wUser : Team := { wTrap with tcw := 0 }

theorem witness_privileged : handlerReady (wCode wUser) wUser ∧ (wCode wUser).cur = some wUser.uid ∧ wUser.privileged = false ∧
    (Instr.info (.ckInjmGCe hx 4)).isSome = true ∧ Instr.legal wUser wUser.pc (.ckInjmGCe hx 4) = true ∧ Instr.isPriv (.ckInjmGCe hx 4) = true :=
  ⟨⟨by decide, by decide, (by unfold fencePasses; decide), rfl, rfl, rfl⟩, rfl, by decide, rfl, by decide, rfl⟩

theorem witness_no_handler : (wState wTeam).team? wTeam.uid = some wTeam ∧ (∀ f ∈ wTeam.flight, f.stat = none) ∧ wTeam.tvb.getLsbD 31 = false ∧
    (wState wHandler).team? wHandler.uid = some wHandler ∧ wHandler.tcw.getLsbD 30 = true := ⟨rfl, by decide, by decide, rfl, by decide⟩

/-- A team in its handler with the frame of PC 16. -/
def wInside (cause : DWord) : Team :=
  { wTrap with tcw := 0xC0000000, frame := some { pc := 16, mask := fullMask 32, rpc := none, fmt := 0 }, frameDepth := 1, tcause := cause, tpc := 16 }

theorem witness_return : let t := wInside 0
    Runs (wCode t) t (.sRth hs) ∧ t.handler = true ∧ t.frame.isSome = true ∧ t.spilled = 0 ∧ t.frameDepth ≤ t.stack.length ∧
    t.tcause.toNat % 2 ^ 29 = 0 ∧ fencePasses (wCode t) t (t.tpc.toNat % 65536) :=
  ⟨runs rfl rfl (by decide), by decide, rfl, rfl, by decide, by decide, (by unfold fencePasses; decide)⟩

theorem witness_return_again : let t := wInside 0x10000000
    Runs (wCode t) t (.sRth hs) ∧ t.tcause.toNat % 2 ^ 29 ≠ 0 ∧ fencePasses (wCode t) t (t.tvb.toNat % 65536) :=
  ⟨runs rfl rfl (by decide), by decide, (by unfold fencePasses; decide)⟩

theorem witness_return_outside : Runs (wCode wTrap) wTrap (.sRth hs) ∧ wTrap.handler = false := ⟨runs rfl rfl (by decide), by decide⟩

/-! ### Witnesses: check words, injections, records, the scrubber -/

/-- A lane register with a wrong code: `v5` of lane 0. -/
def wWrong : Team := { wTeam with v := [(5 * 1024, { val := 1, code := 7 })] }

theorem witness_check_words : Runs (wState wWrong) wWrong (.ckRes hs 6 5) ∧ Runs (wState wWrong) wWrong (.ckVfy hx .b64 1 4) ∧
    Runs (wState wWrong) wWrong (.ckInjr hx 6 5 4) ∧ (∀ l ∈ wWrong.lanesFor hx, (wWrong.rGet 4 l).good = true) ∧
    Runs (wState wWrong) wWrong (.ckMcrd hs 8 4) ∧ Runs (wState wWrong) wWrong (.ckEcnt hx 6 4) ∧ wWrong.lanesGood hx [(4, 1)] :=
  ⟨runs rfl rfl (by decide), runs rfl rfl (by decide), runs rfl rfl (by decide), by decide +kernel, runs rfl rfl (by decide), runs rfl rfl (by decide),
   by unfold Team.lanesGood; decide +kernel⟩

theorem witness_injections : ∀ x ∈ ([(.ckInjmGCe hx 4, false, .ce), (.ckInjmGUe hx 4, false, .ue), (.ckInjmVtCe hx 4, true, .ce),
      (.ckInjmVtUe hx 4, true, .ue)] : List (Instr × Bool × CodeErr)),
    isInjection x.1 hx x.2.1 x.2.2 4 ∧ Runs (wMem wTeam) wTeam x.1 ∧ allGood wTeam ∧ Quiet (wMem wTeam) ∧
    reaches (wMem wTeam) wTeam hx .write (injForm x.2.1 4) id (fun _ => if x.2.1 then (2 ^ 44, 0, none) else (5 * 2 ^ 19, 0, some wLeaf)) := by
  intro x hx'
  simp only [List.mem_cons, List.not_mem_nil, or_false] at hx'
  rcases hx' with rfl | rfl | rfl | rfl
  · exact ⟨.inl ⟨rfl, rfl, rfl⟩, runs rfl rfl (by decide), wTeam_good, wMem_quiet _, reaches_of (by decide +kernel)⟩
  · exact ⟨.inr (.inl ⟨rfl, rfl, rfl⟩), runs rfl rfl (by decide), wTeam_good, wMem_quiet _, reaches_of (by decide +kernel)⟩
  · exact ⟨.inr (.inr (.inl ⟨rfl, rfl, rfl⟩)), runs rfl rfl (by decide), wTeam_good, wMem_quiet _, reaches_of (by decide +kernel)⟩
  · exact ⟨.inr (.inr (.inr ⟨rfl, rfl, rfl⟩)), runs rfl rfl (by decide), wTeam_good, wMem_quiet _, reaches_of (by decide +kernel)⟩

theorem witness_record : let s : State := { State.reset with cc := 40, cores := [(0, { Core.reset with mcrec := [(15, { McRec.reset with readyAt := 40, readable := false })] })] }
    ((s.core 0).mcRec 15).readable = false ∧ ((s.core 0).mcRec 15).readyAt ≤ s.cc := ⟨rfl, by decide⟩

theorem witness_scrub : ∀ p ∈ ([0, 384 * 2 ^ 20 + 96 * 5120 - 1] : List Nat),
    let s : State := { State.reset with scrubPos := p, codeErrs := [(15, .ce)] }
    s.scrubPos < 384 * 2 ^ 20 + 96 * 5120 ∧ noScrubEnded s ∧ s.lines = [] ∧ ∀ j < 16, SMap.find s.codeErrs ((s.scrubAt s.scrubPos).1 / 64 + j) ≠ some .ue := by
  intro p hp
  simp only [List.mem_cons, List.not_mem_nil, or_false] at hp
  rcases hp with rfl | rfl <;> exact ⟨by decide +kernel, fun _ h => absurd h List.not_mem_nil, rfl, by decide +kernel⟩

/-! ### Witnesses: the matrix engine -/

/-- The premises of a command for a team of one group with the free list of a start. -/
theorem commandsOf {s : State} {t : Team} {i : Instr} {h : Hdr} {acq : Bool} (r : Runs s t i) (hg : allGood t) (hl : t.groupsFor h = [0])
    (hf : t.freeSlots = 0 :: (List.range 64).tail) (ha : acq = true → releasesNow s t) :
    commands s t i h 0 [] 0 (List.range 64).tail acq := ⟨r, hg, hl, hf, by decide, ha⟩

/-- A team that starts, on a machine where nothing is on its way, releases at once. -/
theorem releasesNow_of {s : State} {t : Team} (hi : t.relIssue = none) (hh : t.hostStores = false) (hq : Quiet s) (ho : s.owners = [])
    (hr : s.revokes = []) (ha : s.remAsks = []) : releasesNow s t := by
  refine ⟨⟨by simp [hi], hq.codes, hq.clean, ?_, ?_, ?_, ?_⟩, hh⟩ <;> simp [hq.still, ho, hr, ha]

/-- A team that asks for gang slot 15 as rank 0 of two, with 4,096 rows each. -/
def wAsk : Team := withS [(0, 15 + 2 * 16), (1, 4096)]

theorem witness_gang_word : let x := leadVal wAsk 0 192 1
    let rows := leadVal wAsk 0 193 1
    let g := (((wMem wAsk).cluster (engineOf wAsk)).gang? (x % 16)).getD
      { gid := wAsk.gid, n := x / 16 % 8, formed := false, formedAt := 0, rows := 0, base := none, members := [], latch := [] }
    commands (wMem wAsk) wAsk (.mxGang hs 194 192 193) hs 0 [] 0 (List.range 64).tail false ∧ wAsk.mxgang.toNat / 2 ^ 30 = 0 ∧ x / 2 ^ 11 = 0 ∧
    x / 128 % 2 = 0 ∧ 2 ≤ x / 16 % 8 ∧ x / 16 % 8 ≤ 6 ∧ x / 256 % 8 < x / 16 % 8 ∧
    (x / 256 % 8 = 0 → 0 < rows ∧ rows % 64 = 0 ∧ x / 16 % 8 * rows ≤ 8192) ∧ g.gid = wAsk.gid ∧ g.formed = false ∧ g.n = x / 16 % 8 ∧
    ∀ m ∈ g.members, m.rank ≠ x / 256 % 8 :=
  ⟨commandsOf (runs rfl rfl (by decide)) (withS_good _) (by decide +kernel) rfl nofun, rfl, by decide, by decide, by decide, by decide, by decide, by decide,
   by decide, by decide, by decide, by decide⟩

/-- A member of gang 0, leader of two, with the window of rows 0 to 127; `s0` holds a vault address, `s4` is zero. -/
def wMember : Team := { withS [(6, 64)] with mxgang := 0x80000020, mxwin := 0x807F0000 }

theorem wMember_good : allGood wMember := allGood_of rfl (by decide)

/-- The member's gang. -/
def wGang : Gang :=
  { gid := 0, n := 2, formed := true, formedAt := 0, rows := 128, base := some 0, latch := [],
    members := [{ rank := 0, uid := 1, rows := 128, d := 194, groups := [0], handle := none, left := false, q := 0 },
      { rank := 1, uid := 2, rows := 128, d := 194, groups := [0], handle := none, left := false, q := 0 }] }

/-- A machine with the member's gang in cluster 0. -/
def wMx (t : Team) : State := { wMem t with clusters := [(0, { Cluster.reset with gangs := [(0, wGang)] })] }

theorem witness_free : Runs (wMx wMember) wMember (.mxFree hx) ∧ wMember.groupsFor hx ≠ [] ∧ wMember.hold = .free ∧ wMember.mxgang.toNat / 2 ^ 30 ≠ 0 :=
  ⟨runs rfl rfl (by decide), by decide +kernel, rfl, by decide⟩

theorem witness_product : let av := leadVal wMember 0 192 2
    commands (wMx wMember) wMember (.mxMma hx 202 192 194 196 false true true) hx 0 [] 0 (List.range 64).tail true ∧
    (wMx wMember).mmaCheck wMember false (av % 2 ^ 32) (av / 2 ^ 32)
      (some (leadVal wMember 0 194 2 % 2 ^ 32, leadVal wMember 0 194 2 / 2 ^ 32)) (leadVal wMember 0 196 1) = none ∧
    wMember.mxgang.toNat / 256 % 8 = 0 ∧ ((wMx wMember).cluster (engineOf wMember)).gang? wMember.gangSlot = some wGang :=
  ⟨commandsOf (runs rfl rfl (by decide)) wMember_good (by decide +kernel) rfl fun _ => releasesNow_of rfl rfl ⟨rfl, rfl, rfl⟩ rfl rfl rfl, by decide +kernel, by decide, by rfl⟩

theorem witness_zero : commands (wMx wMember) wMember (.mxZero hx 202 199 196) hx 0 [] 0 (List.range 64).tail false ∧
    ((wMx wMember).cluster (engineOf wMember)).entries.length < 64 :=
  ⟨commandsOf (runs rfl rfl (by decide)) wMember_good (by decide +kernel) rfl nofun, by decide⟩

/-- Two blocks fill the window of 128 rows. -/
theorem witness_zero_rows : let t : Team := { wMember with s := [(7 * 1024, RWord.ofNat 2)] }
    Runs (wMx t) t (.mxZero hx 202 199 196) ∧ allGood t ∧ 1 ≤ leadVal t 0 199 1 ∧ leadVal t 0 199 1 ≤ 128 ∧
    inWindow t (leadVal t 0 196 1) (64 * leadVal t 0 199 1) := ⟨runs rfl rfl (by decide), allGood_of rfl (by decide), by decide, by decide, by unfold inWindow; decide⟩

/-- A machine whose vault region holds an FP32 tile from offset 64 on, and no more. -/
def wTile : State := { wMx wMember with grids := [{ wGrid with vbytes := 16384 + 64 }] }

theorem wTile_at : tileInRegion wTile wMember (leadVal wMember 0 198 1) 16384 := ⟨by decide, { wGrid with vbytes := 16384 + 64 }, rfl, by decide⟩

theorem witness_tile_load : commands wTile wMember (.mxLd hx .f32 202 198 196 true true) hx 0 [] 0 (List.range 64).tail true ∧
    (wTile.cluster (engineOf wMember)).entries.length < 64 ∧ inWindow wMember (leadVal wMember 0 196 1) 64 ∧
    tileInRegion wTile wMember (leadVal wMember 0 198 1) (512 * Ty.f32.width) :=
  ⟨commandsOf (runs rfl rfl (by decide)) wMember_good (by decide +kernel) rfl fun _ => releasesNow_of rfl rfl ⟨rfl, rfl, rfl⟩ rfl rfl rfl, by decide,
   by unfold inWindow; decide, wTile_at⟩

theorem witness_tile_store : commands wTile wMember (.mxSt hx 202 198 196 false true false true) hx 0 [] 0 (List.range 64).tail false ∧
    tileInRegion wTile wMember (leadVal wMember 0 198 1) (512 * (fmtO wMember.top.fmt).width) :=
  ⟨commandsOf (runs rfl rfl (by decide)) wMember_good (by decide +kernel) rfl nofun, by decide, { wGrid with vbytes := 16384 + 64 }, rfl, by decide⟩

/-- A second team, beside the first. -/
def wOther (t : Team) : Team := { t with uid := 2 }

/-- Two members that are held at the latch of gang 0, which has not formed. -/
def wForming : State :=
  let t : Team := { wTeam with hold := .latch, heldLen := 1, mxgang := 0x40000020 }
  { wMem t with teams := [t, wOther t], clusters := [(0, { Cluster.reset with gangs := [(0, { wGang with formed := false, base := none })] })] }

theorem witness_gang_forms : let g : Gang := { wGang with formed := false, base := none }
    (wForming.cluster 0).gang? 0 = some g ∧ g.formed = false ∧ g.n ≤ g.members.length ∧ (g.members.map fun m => m.uid).Nodup ∧
    ∀ m ∈ g.members, ∃ t slot rest, wForming.team? m.uid = some t ∧ t.freeSlots = slot :: rest ∧ heldFits t := by
  refine ⟨rfl, rfl, by decide, by decide, ?_⟩
  intro m hm
  simp only [wGang, List.mem_cons, List.not_mem_nil, or_false] at hm
  rcases hm with rfl | rfl <;> exact ⟨_, 0, (List.range 64).tail, rfl, rfl, by unfold heldFits; decide⟩

theorem witness_window : let g : Gang := { wGang with base := none }
    let s : State := { wForming with clusters := [(0, { Cluster.reset with gangs := [(0, g)], winWait := [{ slot := 0, since := 0 }] })] }
    (s.cluster 0).winWait = { slot := 0, since := 0 } :: [] ∧ (s.cluster 0).gang? 0 = some g ∧ (s.cluster 0).freeRows (g.n * g.rows) = some 0 ∧
    (g.members.map fun m => m.uid).Nodup ∧ (∀ m ∈ g.members, ∀ who, m.handle = some who → who.uid = m.uid) ∧ ∃ m ∈ g.members, m.left = false :=
  ⟨rfl, rfl, by decide +kernel, by decide, by simp [wGang], by decide⟩

/-- A gang that one member has left before its windows, with its handle still PENDING. -/
theorem witness_window_of_a_left_member :
    let g : Gang := { wGang with
      base := none, members := wGang.members.map fun m => { m with left := m.rank == 1, handle := some { uid := m.uid, slot := 0, gid := 0 } } }
    (∃ m ∈ g.members, m.left = true ∧ m.handle.isSome = true) ∧ (∃ m ∈ g.members, m.left = false) ∧
    ∀ m ∈ g.members, ∀ who, m.handle = some who → who.uid = m.uid := by
  refine ⟨by decide, by decide, ?_⟩
  intro m hm who h
  simp only [wGang, List.map_cons, List.map_nil, List.mem_cons, List.not_mem_nil, or_false] at hm
  rcases hm with rfl | rfl <;> (simp only [Option.some.injEq] at h; subst h; rfl)

/-- A member's arrival at the latch for a product. -/
def wLatched (rank uid : Nat) : MmaArrival :=
  { rank := rank, uid := uid, f := 0, aAddr := 0, aLay := 0, bAddr := 0, bLay := 0, ctrl := 0, fmt := 0, d := 202, groups := [0], pc := 0, ins := (0, 0) }

theorem witness_latch : let g : Gang := { wGang with latch := [wLatched 1 2, wLatched 0 1] }
    let s : State := { wForming with clusters := [(0, { Cluster.reset with gangs := [(0, g)] })] }
    (s.cluster 0).gang? 0 = some g ∧ g.formed = true ∧ g.n ≤ g.latch.length ∧ (s.cluster 0).entries.length + g.n ≤ 64 ∧
    g.latch.find? (fun m => m.rank == 0) = some (wLatched 0 1) ∧
    (∀ m ∈ g.latch, m.f = (wLatched 0 1).f ∧ m.fmt = (wLatched 0 1).fmt ∧
      m.aLay.toNat / 2 ^ 25 % 64 = (wLatched 0 1).aLay.toNat / 2 ^ 25 % 64) ∧
    (g.latch.map fun m => m.uid).Nodup ∧ ∀ m ∈ g.latch, ∃ t, s.team? m.uid = some t ∧ t.freeSlots ≠ [] ∧ heldFits t := by
  refine ⟨rfl, rfl, by decide, by decide, rfl, by decide, by decide, ?_⟩
  intro m hm
  simp only [List.mem_cons, List.not_mem_nil, or_false] at hm
  rcases hm with rfl | rfl <;> exact ⟨_, rfl, by decide, by unfold heldFits; decide⟩

/-- An entry of the reservation table of the test gang. -/
def wEntry (kind : MxKind) : MxEntry :=
  { id := 50, joint := 50, uid := 1, gid := 0, asid := 0, who := { uid := 1, slot := 0, gid := 0 }, deps := [], pri := 0, at_ := 0, rank := 0,
    winBase := 0, row := 64, fmt := 0, rnd := { rm := 0, seed := 0 }, q := 0, by_ := 1, pc := 0, ins := (0, 0), inj := 0, kind := kind, tile := 0, sub := none, endsAt := 0,
    started := false }

/-- A machine with one entry in cluster 0, and a level that lets it run. -/
def wEntered (e : MxEntry) : State :=
  { wMx wMember with
    clusters := [(0, { Cluster.reset with gangs := [(0, wGang)], entries := [e] })]
    gov := { Governor.reset with level := 1000000, dieCap := [1000000, 1000000] } }

def wMma : MxEntry := wEntry (.mma false false 0 0 0 0 1)

theorem witness_pass_grant : (wEntered wMma).readyPasses 0 = [wMma] ∧ ((wEntered wMma).cluster 0).pickSub (wEntered wMma).cc = some (0, false) ∧
    ∃ s1, (wEntered wMma).grantWork 0 ((wEntered wMma).passCost wMma + 0) (wMma.cycles + 0) = some s1 :=
  ⟨by decide +kernel, by decide, Option.isSome_iff_exists.mp (by decide +kernel)⟩

theorem witness_pass_end : let e : MxEntry := { wMma with sub := some 3, endsAt := 0 }
    (((wEntered e).cluster 0).entries.find? fun x => x.sub == some 3 && x.isMma) = some e ∧ e.endsAt ≤ (wEntered e).cc ∧
    e.kind = .mma false false 0 0 0 0 1 ∧ (wEntered e).codeErrs = [] ∧ e.inj = 0 := ⟨by decide, by decide, rfl, rfl, rfl⟩

theorem witness_window_ops : ∀ k ∈ ([.zero 1, .ld true .f16 0, .st false true true 64] : List MxKind),
    let e : MxEntry := { wEntry k with started := true }
    ((wEntered e).cluster 0).entries = [e] ∧ e.started = true ∧ e.endsAt ≤ (wEntered e).cc ∧ (wEntered e).codeErrs = [] ∧ e.inj = 0 ∧
    (wEntered e).poison = [] := fun _ _ => ⟨rfl, rfl, by simp [wEntry], rfl, rfl, rfl⟩

theorem witness_gate : let s : State := { State.reset with cc := 1024 }
    (s.cluster 0).subs[3]? = some { gated := false, lastPass := 0, busyTill := 0 } ∧ (s.cluster 0).mxcfg.toNat % 65536 ≠ 0 ∧
    (∀ e ∈ (s.cluster 0).entries, e.sub ≠ some 3) ∧ 0 + (s.cluster 0).mxcfg.toNat % 65536 ≤ s.cc := ⟨rfl, by decide, by decide, by decide⟩

/-! ### Witnesses: the sampling engine -/

/-- The member's machine with a region for tiles. -/
def wSa : State := { wMx wMember with grids := [{ wGrid with vbytes := 65536 }] }

theorem releases_wSa : releasesNow wSa wMember := releasesNow_of rfl rfl ⟨rfl, rfl, rfl⟩ rfl rfl rfl

theorem witness_sampling_words : ∀ e ∈ ([(.saOpen hx 202 192 194 196, false), (.saClose hx 202 192, false), (.saNorm hs 202 192 194 false, false),
      (.saNorm hx 202 192 194 true, true), (.saBuild hx 202 192 194 196, false), (.saDraw hx 202 192 true, true), (.saFin hx 202 192, false)] : List (Instr × Bool)),
    commands wSa wMember e.1 (if e.1 = .saNorm hs 202 192 194 false then hs else hx) 0 [] 0 (List.range 64).tail e.2 := by
  intro e he
  simp only [List.mem_cons, List.not_mem_nil, or_false] at he
  rcases he with rfl | rfl | rfl | rfl | rfl | rfl | rfl <;>
    exact commandsOf (runs rfl rfl (by decide)) wMember_good (by decide +kernel) rfl fun _ => releases_wSa

theorem witness_open : let av := leadVal wMember 0 192 2
    let cv := leadVal wMember 0 196 2
    pairOk (fmtA wMember.top.fmt) (fmtB wMember.top.fmt) = true ∧ inWindow wMember (cv / 2 ^ 32) 64 ∧ av % 64 = 0 ∧
    wSa.openBounds wMember (av % 2 ^ 32) (av / 2 ^ 32) (av % 2 ^ 32) (av / 2 ^ 32) (cv % 2 ^ 32) = false :=
  ⟨by decide, by unfold inWindow; decide, by decide, by decide +kernel⟩

theorem witness_draw : wMember.mxwin.getLsbD 31 = true ∧ (wSa.cluster (engineOf wMember)).entries.length < 64 := ⟨by decide, by decide⟩

/-- `sa.stat` without lookahead and with it. -/
theorem witness_stat : Runs wSa wMember (.saStat hx 202 192) ∧ Runs wSa wMember (.saStat { hx with la := 1 } 202 192) ∧ allGood wMember ∧
    leads wMember hx 0 [] ∧ ∀ q ∈ (wSa.cluster (engineOf wMember)).saQ, q.slot ≠ leadVal wMember 0 192 1 / 2 ^ 14 % 4 :=
  ⟨runs rfl rfl (by decide), runs rfl rfl (by decide), wMember_good, by unfold leads; decide +kernel, by decide⟩

/-- A command of sampling slot 1 of the test member. -/
def wSaCmd (op : SaOp) (word : Word) (running : Bool) (batch : Nat) : SaCmd :=
  { id := 60, uid := 1, gid := 0, asid := 0, winBase := 0, row := 64, who := { uid := 1, slot := 0, gid := 0 }, slot := 1, word := word, op := op, fmt := 0, rnd := { rm := 0, seed := 0 },
    q := 0, entry := some 50, batch := batch, running := running, pc := 0, ins := (0, 0), inj := 0 }

/-- A machine with one sampling command, whose slot is in a state with one k-tile. -/
def wSampling (st : SaState) (q : SaCmd) : State :=
  { wEntered { wEntry (.draw 1 2) with sub := some 0 } with
    clusters := [(0, { Cluster.reset with
      gangs := [(0, wGang)], entries := [{ wEntry (.draw 1 2) with sub := some 0 }], saQ := [q]
      sa := [SaSlot.reset, { SaSlot.reset with st := st, uid := 1, nk := 1 }, SaSlot.reset, SaSlot.reset] })] }

theorem witness_command_start : let q := wSaCmd (.norm 0) 0x4001 false 0
    let s := wSampling .opened q
    (s.cluster 0).saHead 1 = some q ∧ 1 < (s.cluster 0).sa.length ∧ q.running = false ∧ s.saDep q = .done ∧ ((s.cluster 0).saSlot 1).refusal q = 0 :=
  ⟨by decide, by decide, rfl, by decide, by decide⟩

theorem witness_command_refused : let q := wSaCmd (.norm 1) 0x4001 false 0
    let s := wSampling .opened q
    (s.cluster 0).saHead 1 = some q ∧ s.saDep q = .done ∧ ((s.cluster 0).saSlot 1).refusal q ≠ 0 := ⟨by decide, by decide, by decide⟩

theorem witness_norm_unit : let q := wSaCmd (.norm 0) 0x4001 true 0
    let s := wSampling .opened q
    let x := (s.cluster 0).saSlot 1
    (s.cluster 0).saHead 1 = some q ∧ q.batch < q.word.toNat % 2 ^ 14 ∧ q.inj = 0 ∧ s.codeErrs = [] ∧
    ∃ s1, s.grantWork 0 (s.price 44 2) ((tileSize (fmtA x.fmt) (fmtAsc x.fmt) + tileSize (fmtB x.fmt) (fmtBsc x.fmt)) / 512 + 8) = some s1 :=
  ⟨by decide, by decide, rfl, rfl, Option.isSome_iff_exists.mp (by decide +kernel)⟩

theorem witness_draw_batch : let q := wSaCmd .draw 0x4002 true 0
    let s := wSampling .built q
    let e : MxEntry := { wEntry (.draw 1 2) with sub := some 0 }
    (s.cluster 0).saHead 1 = some q ∧ ((s.cluster 0).saSlot 1).st ≠ .stopped ∧ q.batch < q.word.toNat % 2 ^ 14 ∧
    ((s.cluster 0).entries.find? fun e => q.entry == some e.id) = some e ∧ e.sub = some 0 ∧ e.endsAt ≤ s.cc ∧ ((s.cluster 0).saSlot 1).t + 32 ≤ 2 ^ 31 :=
  ⟨by decide, by decide, by decide, by decide, rfl, by decide, by decide⟩

theorem witness_sampling_ends : ∀ op ∈ ([.close, .opened 0 0 0 0 0 0, .build 0 0 0 0 0 0] : List SaOp), let q := wSaCmd op 0x4001 true 1
    let s := wSampling .opened q
    (s.cluster 0).saHead 1 = some q ∧ q.running = true ∧ q.units ((s.cluster 0).saSlot 1) ≤ q.batch ∧ q.inj = 0 ∧ gangsStay s 0 := by
  intro op hop
  have hstay : ∀ q, gangsStay (wSampling .opened q) 0 := fun q => by
    show ∀ g ∈ [(0, wGang)], ∃ m ∈ g.2.members, m.left = false
    simp [wGang]
  simp only [List.mem_cons, List.not_mem_nil, or_false] at hop
  rcases hop with rfl | rfl | rfl <;> exact ⟨by decide, rfl, by decide +kernel, rfl, hstay _⟩

/-! ### Witnesses: the copy engine -/

/-- A record of 64 bytes in one dimension: its flag byte (V, RD, WR, MC, OFF), its space and its address. -/
def wRecord (flags space addr : Nat) : Nat :=
  flags * 2 ^ 56 + 1 * 2 ^ 52 + space * 2 ^ 44 + addr * 2 ^ 64 + 64 * 2 ^ 128 + 1 * 2 ^ 448 + 64 * 2 ^ 1088

/-- A record of two rows of four bytes, with a stride of the second dimension. -/
def wRows (str : Int) : Shape :=
  { v := true, rd := false, wr := true, mc := false, off := false, ndim := 2, ty := .s8, lay := 0, space := 0, addr := 0x2000, ext := [4, 2],
    str := [1, str], limit := 64, ok := true }

/-- R320: rows 2 bytes apart share two bytes; rows 4 bytes apart share none. -/
theorem test_rows_overlap : (wRows 2).apart = false ∧ ((List.range 8).map fun k => (wRows 2).meetsAny (List.range k) [] k 0) =
    [false, false, false, false, true, true, false, false] ∧ (wRows 4).apart = true ∧ (wRows (-4)).apart = true := by decide

/-- The cells of bytes from a key on. -/
def cellsAt (key n x : Nat) : List Host.Cell := ((List.range n).map fun k => (key + k, (BitVec.ofNat 8 (x / 256 ^ k)))).filter fun c => c.2 != 0

/-- Record 0 is a global destination, 1 a global source, 2 a vault destination of a multicast. -/
def wTable : List Host.Cell :=
  cellsAt (5 * 2 ^ 19 + 0x1000) 256 (wRecord 0xA8 0 0x2000) ++ cellsAt (5 * 2 ^ 19 + 0x1100) 256 (wRecord 0xC8 0 0x3000) ++
    cellsAt (5 * 2 ^ 19 + 0x1200) 256 (wRecord 0xB0 1 0)

/-- The team of the copy tests: record indices in `s0` to `s2`, the vault mask in `s4` to `s6`, a tag in `s7`. -/
def wCopyTeam : Team := withS [(1, 1), (2, 2), (4, 1), (7, 65535)]

/-- A machine with the three records. -/
def wCopy : State := { wMem wCopyTeam with mem := wTable, ctxs := [(0, { Ctx.reset with valid := true, otbase := 0x1000, otlen := 3 })] }

theorem copies {i : Instr} (h : Runs wCopy wCopyTeam i) : copyCommands wCopy wCopyTeam i hx 0 [] 0 (List.range 64).tail true :=
  ⟨commandsOf h (withS_good _) (by decide +kernel) rfl fun _ => releasesNow_of rfl rfl ⟨rfl, rfl, rfl⟩ rfl rfl rfl, by decide +kernel, rfl,
   fun _ => ⟨rfl, rfl⟩, by decide +kernel⟩

theorem witness_copy_records : recordsPass wCopy wCopyTeam (.cpOff hx 202 192 193 199 true true) (leadVal wCopyTeam 0 192 1) (leadVal wCopyTeam 0 193 1) (fun z => z.off && z.wr)
      (fun z => z.off && z.rd) (Shape.ofNat (wRecord 0xA8 0 0x2000)) (Shape.ofNat (wRecord 0xC8 0 0x3000)) ∧
    recordsPass wCopy wCopyTeam (.cpCopy hx 202 192 193 true true) 0 1 (fun z => z.wr) (fun z => z.rd) (Shape.ofNat (wRecord 0xA8 0 0x2000)) (Shape.ofNat (wRecord 0xC8 0 0x3000)) ∧
    (Shape.ofNat (wRecord 0xA8 0 0x2000)).overlaps (Shape.ofNat (wRecord 0xC8 0 0x3000)) 0 = false ∧ leadVal wCopyTeam 0 199 1 < 65536 ∧
    (Shape.ofNat (wRecord 0xA8 0 0x2000)).space = 0 ∧ (wCopy.tagUses.filter fun u => u.ctx == wCopyTeam.ctx).length < 1024 ∧
    ∀ u ∈ wCopy.tagUses, u.ctx = wCopyTeam.ctx → u.tag ≠ leadVal wCopyTeam 0 199 1 :=
  ⟨⟨by decide +kernel, by decide +kernel, by decide +kernel⟩, ⟨by decide +kernel, by decide +kernel, by decide +kernel⟩, by decide +kernel, by decide, by decide +kernel,
   by decide, by decide⟩

theorem witness_multicast : let x := Shape.ofNat (wRecord 0xB0 1 0)
    let y := Shape.ofNat (wRecord 0xC8 0 0x3000)
    recordsPass wCopy wCopyTeam (.cpMcast hx 202 194 193 196 true true) (leadVal wCopyTeam 0 194 1) 1 (fun z => z.mc) (fun z => z.rd) x y ∧ x.space = 1 ∧ wCopy.grid? wCopyTeam.gid = some wGrid ∧
    mcastShifts wGrid x ((List.range 96).filter fun v => (leadVal wCopyTeam 0 196 3).testBit v) = some [0] ∧ ∀ z ∈ ([0] : List Int), x.overlaps y z = false :=
  ⟨⟨by decide +kernel, by decide +kernel, by decide +kernel⟩, by decide +kernel, rfl, by decide +kernel, by decide +kernel⟩

theorem witness_copy_words : copyCommands wCopy wCopyTeam (.cpCopy hx 202 192 193 true true) hx 0 [] 0 (List.range 64).tail true ∧
    copyCommands wCopy wCopyTeam (.cpMcast hx 202 194 193 196 true true) hx 0 [] 0 (List.range 64).tail true ∧
    copyCommands wCopy wCopyTeam (.cpOff hx 202 192 193 199 true true) hx 0 [] 0 (List.range 64).tail true ∧
    copyCommands wCopy wCopyTeam (.cpRet hx 202 192 193 199 true true) hx 0 [] 0 (List.range 64).tail true :=
  ⟨copies (runs rfl rfl (by decide)), copies (runs rfl rfl (by decide)), copies (runs rfl rfl (by decide)), copies (runs rfl rfl (by decide))⟩

/-- A transfer of the 64 bytes of record 1 to record 0, accepted with handle slot 0. -/
def wTransfer (finished : Bool) : CopyCmd :=
  { id := 70, uid := 1, gid := 0, ctx := 0, asid := 0, who := { uid := 1, slot := 0, gid := 0 }, pc := 0, ins := (0, 0), kind := .copy,
    dst := Shape.ofNat (wRecord 0xA8 0 0x2000), src := Shape.ofNat (wRecord 0xC8 0 0x3000), vaults := [], tag := 0, after := false,
    rel := finished, relTag := if finished then some 0 else none, bytes := 64, rate := 256, setup := 0, moved := 0, elems := 0, skipped := [],
    started := false, nextAt := 0, heldCycles := 0, promise := 5, finished := finished }

/-- A team whose copy handle 0x6000 is pending, and a machine with its transfer, at a level. -/
def wMoving (level : Nat) (finished : Bool) : State :=
  { wCopy with
    teams := [wLate]
    clusters := [(0, { Cluster.reset with copy := { loc := [wTransfer finished], rem := [] } })]
    gov := { Governor.reset with level := level, dieCap := [1000000, 1000000] } }

theorem witness_copy_handles : leads wLate hx 0 [] ∧ allGood wLate ∧ freshCopyHandle wLate (leadVal wLate 0 192 1) ∧
    ¬ freshCopyHandle (withS []) (leadVal (withS []) 0 192 1) ∧
    (∀ i ∈ ([.cpProm hs 194 192, .cpRenew hx 194 192, .cpCncl hx 194 192] : List Instr), Runs (wMoving 0 false) wLate i) ∧
    (wMoving 0 false).copyOf wLate (leadVal wLate 0 192 1) = some (0, wTransfer false) ∧ (wMoving 0 false).copyCmd 0 70 = some (wTransfer false) := by
  refine ⟨by unfold leads; decide +kernel, allGood_of rfl (by decide), ⟨by decide, by decide⟩, fun h => absurd h.1 (by decide), ?_, by decide +kernel,
    by decide +kernel⟩
  intro i hi
  simp only [List.mem_cons, List.not_mem_nil, or_false] at hi
  rcases hi with rfl | rfl | rfl <;> exact runs rfl rfl (by decide)

theorem witness_stale_handles : ∀ i ∈ ([.cpProm hs 194 192, .cpRenew hx 194 192, .cpCncl hx 194 192] : List Instr),
    Runs (wState (withS [])) (withS []) i := by
  intro i hi
  simp only [List.mem_cons, List.not_mem_nil, or_false] at hi
  rcases hi with rfl | rfl | rfl <;> exact runs rfl rfl (by decide)

/-- The piece of a transfer as the metering engine answers it: held at level 0, granted above. -/
def wGrant (s : State) : Option State :=
  let q := wTransfer false
  let w := s.pieceCost 0 q q.piece.2
  s.grantUnit w.1 w.2 (some (0 / 48)) (s.time + ceilDiv (ceilDiv q.piece.2 q.rate * 1000) (s.clusterMhz 0))

theorem witness_piece_held : (((wMoving 0 false).cluster 0).copy.stream false).head? = some (wTransfer false) ∧ (wMoving 0 false).codeErrs = [] ∧
    (wTransfer false).nextAt ≤ (wMoving 0 false).cc ∧ (wMoving 0 false).tagWaits (wTransfer false) = false ∧ wGrant (wMoving 0 false) = none :=
  ⟨rfl, rfl, by decide, by decide +kernel, by decide +kernel⟩

/-- A move of a piece has succeeded. -/
def moved : PieceRes → Option Piece
  | .ok p => some p
  | _ => none

theorem witness_piece_moves : ∃ g p, wGrant (wMoving 1000000 false) = some g ∧ g.movePiece 0 (wTransfer false) = .ok p ∧
    (p.s.cluster 0).copy = ((wMoving 1000000 false).cluster 0).copy := by
  have : ((wGrant (wMoving 1000000 false)).any fun g => (moved (g.movePiece 0 (wTransfer false))).any fun p =>
    decide ((p.s.cluster 0).copy = ((wMoving 1000000 false).cluster 0).copy)) = true := by decide +kernel
  cases hg : wGrant (wMoving 1000000 false) with
  | none => simp [hg] at this
  | some g =>
  simp only [hg, Option.any_some] at this
  cases hm : g.movePiece 0 (wTransfer false) with
  | ok p => exact ⟨g, p, rfl, hm, by simpa [hm, moved] using this⟩
  | fault c => simp [hm, moved] at this
  | wait n => simp [hm, moved] at this

/-- A piece whose pages' key is gone since its acceptance. -/
theorem witness_piece_faults : let s : State := { wMoving 1000000 false with pkg := { Pkg.reset with memKeys := [] } }
    ∃ g, wGrant s = some g ∧ g.movePiece 0 (wTransfer false) = .fault .perm := by
  have : ((wGrant { wMoving 1000000 false with pkg := { Pkg.reset with memKeys := [] } }).any fun g => match g.movePiece 0 (wTransfer false) with
    | .fault c => c == .perm | _ => false) = true := by decide +kernel
  obtain ⟨g, hg, h⟩ := any_some this
  split at h
  · exact ⟨g, hg, by simp_all⟩
  · cases h

/-- A transfer whose store another device has refused. -/
theorem witness_copy_refused : let a : RemAsk := { tag := 9, asker := .team 1, core := 0, asid := 0, key := 0, va := 0x2000, op := .store [1], writes := [], ret := [],
                                                   ans := some (.refused .perm), at_ := 0, keep := false, cmd := some (wTransfer true).who }
    let s : State := { wMoving 0 true with remAsks := [a] }
    (wTransfer true).finished = true ∧ s.writesAway (wTransfer true).who = false ∧ s.writeRefused (wTransfer true).who = some .perm :=
  ⟨rfl, by decide, by decide⟩

/-- With REL, a transfer whose writes have registered, and one that another device has still to answer. -/
theorem witness_copy_done : (((wMoving 0 true).cluster 0).copy.stream false).head? = some (wTransfer true) ∧ (wTransfer true).finished = true ∧
    (wTransfer true).nextAt ≤ (wMoving 0 true).cc ∧ settledRel (wMoving 0 true) (wTransfer true).rel (wTransfer true).relTag :=
  ⟨rfl, rfl, by decide, fun _ => ⟨0, rfl, by decide⟩⟩

theorem witness_copy_waits : let q : CopyCmd := { wTransfer true with relTag := some 9 }
    let r : Revoke := { no := 8, core := 513, asid := 0, va := 0x2000, by_ := 512 }
    let s : State := { wMoving 0 true with clusters := [(0, { Cluster.reset with copy := { loc := [q], rem := [] } })], revokes := [r] }
    ((s.cluster 0).copy.stream false).head? = some q ∧ q.finished = true ∧ q.rel = true ∧ q.relTag = some 9 ∧ s.registered 9 = false :=
  ⟨rfl, rfl, rfl, rfl, by decide⟩

/-! ### Witnesses: pages -/

/-- A leaf entry (R237): mode, peer, residency and frame, with every right. -/
def wLeafEntry (mode peer res frame : Nat) : Nat :=
  2 ^ 63 + 2 ^ 62 + mode * 2 ^ 60 + 15 * 2 ^ 56 + peer * 2 ^ 47 + res * 2 ^ 34 + frame * 2 ^ 14

/-- Page tables at 256 MiB for four pages: local; of device 1 and absent; local and migrating; of device 7 and migrating. The frame table is at
512 MiB. -/
def wPages : List Host.Cell :=
  cellsAt (5 * 2 ^ 19 + 0x1000) 8 0 ++ cellsAt (2 ^ 28) 8 (2 ^ 63 + 2 ^ 28 + 2 ^ 16) ++ cellsAt (2 ^ 28 + 2 ^ 16) 8 (2 ^ 63 + 2 ^ 28 + 2 ^ 17) ++
    cellsAt (2 ^ 28 + 2 ^ 17) 8 (2 ^ 63 + 2 ^ 28 + 2 ^ 17 + 512) ++
    cellsAt (2 ^ 28 + 2 ^ 17 + 512) 32 (wLeafEntry 0 0 1 5 + wLeafEntry 0 1 0 0 * 2 ^ 64 + wLeafEntry 2 0 1 6 * 2 ^ 128 + wLeafEntry 2 7 1 0 * 2 ^ 192) ++
    cellsAt (2 ^ 29 + 40) 16 (2 ^ 63 + (2 ^ 63 + 2 * 2 ^ 13) * 2 ^ 64)

/-- The context of the page tests: MIGEN is set. -/
def wPageCtx : Ctx := { Ctx.reset with valid := true, ptbase := 0x10000000, pgcfg := 0x100000000 }

/-- A machine with the page tables, one frame in the migration pool, and partition 3 bound to context 0. -/
def wPage (t : Team) : State :=
  { wState t with
    mem := wPages
    ctxs := [(0, wPageCtx)]
    pkg := { Pkg.reset with frtab := 0x20000000, memKeys := [0], mptail := 1, part := [(3, 0x8000000000000000)], partSet := true } }

/-- A team with a page's address in `s0, s1`, 1,048,576 in `s2`, and a device number in `s3`. -/
def wAt (page dev : Nat) : Team := withS [(0, page * 2 ^ 19), (2, 1048576), (3, dev)]

theorem pageCommand {page dev : Nat} {i : Instr} {acq : Bool} (h : Runs (wPage (wAt page dev)) (wAt page dev) i)
    (hl : (wAt page dev).groupsFor hx = [0]) : commands (wPage (wAt page dev)) (wAt page dev) i hx 0 [] 0 (List.range 64).tail acq :=
  commandsOf h (withS_good _) hl rfl fun _ => releasesNow_of rfl rfl ⟨rfl, rfl, rfl⟩ rfl rfl rfl

theorem witness_page_request : commands (wPage (wAt 0 0)) (wAt 0 0) (.pgReq hx 202 192) hx 0 [] 0 (List.range 64).tail false ∧
    leadVal (wAt 0 0) 0 192 2 < 2 ^ 56 ∧ (wPage (wAt 0 0)).pageOutcome ((wPage (wAt 0 0)).ctxOf (wAt 0 0)) (leadVal (wAt 0 0) 0 192 2) = .resident :=
  ⟨pageCommand (runs rfl rfl (by decide)) (by decide +kernel), by decide, by decide +kernel⟩

theorem witness_page_absent : let s := wPage (wAt 1 0)
    let va := leadVal (wAt 1 0) 0 192 2
    commands s (wAt 1 0) (.pgReq hx 202 192) hx 0 [] 0 (List.range 64).tail false ∧ va < 2 ^ 56 ∧ s.pageOutcome (s.ctxOf (wAt 1 0)) va = .absent ∧
    (∀ r ∈ (s.ctxOf (wAt 1 0)).pageReqs, r.va ≠ (s.requestPage (s.ctxOf (wAt 1 0)) va).1) ∧ (s.ctxOf (wAt 1 0)).pageReqs.length < 64 :=
  ⟨pageCommand (runs rfl rfl (by decide)) (by decide +kernel), by decide, by decide +kernel, fun _ h => absurd h List.not_mem_nil, by decide⟩

theorem witness_probe : Runs (wPage (wAt 0 0)) (wAt 0 0) (.pgProbe hx 202 192) ∧ leads (wAt 0 0) hx 0 [] ∧
    (∃ l ok, (wPage (wAt 0 0)).probeLeaf wPageCtx (leadVal (wAt 0 0) 0 192 2) = some (l, ok) ∧ l.mode ≠ 3) ∧
    (wPage (wAt 4 0)).probeLeaf wPageCtx (leadVal (wAt 4 0) 0 192 2) = none ∧ leadVal (wAt 4 0) 0 192 2 < 2 ^ 56 :=
  ⟨runs rfl rfl (by decide), by unfold leads; decide +kernel, ⟨wLeaf, true, by decide +kernel, by decide⟩, by decide +kernel, by decide⟩

theorem witness_shoot : commands (wPage (wAt 0 0)) (wAt 0 0) (.pgShoot hx 202 192 194) hx 0 [] 0 (List.range 64).tail true ∧
    leadVal (wAt 0 0) 0 192 2 % 2 ^ 19 = 0 ∧ ((wPage (wAt 0 0)).ctxOf (wAt 0 0)).pageReqs = [] ∧ 1 ≤ leadVal (wAt 0 0) 0 194 1 ∧
    leadVal (wAt 0 0) 0 194 1 ≤ 1048576 :=
  ⟨pageCommand (runs rfl rfl (by decide)) (by decide +kernel), by decide, by decide, by decide, by decide⟩

/-- A migration of page 2 to where it is, and of page 3, of device 7, to here. -/
theorem witness_migrate_here : ∃ l, commands (wPage (wAt 2 0)) (wAt 2 0) (.pgMig hx 202 192 195) hx 0 [] 0 (List.range 64).tail false ∧
    leadVal (wAt 2 0) 0 192 2 % 2 ^ 19 = 0 ∧ (wPage (wAt 2 0)).walk wPageCtx (leadVal (wAt 2 0) 0 192 2) = some l ∧ l.mode ≠ 3 ∧
    l.peer = leadVal (wAt 2 0) 0 195 1 ∧ leadVal (wAt 2 0) 0 195 1 < 512 :=
  ⟨{ wLeaf with mode := 2, frame := 6 }, pageCommand (runs rfl rfl (by decide)) (by decide +kernel), by decide, by decide +kernel, by decide, by decide, by decide⟩

theorem witness_migrate_asks : ∃ l, commands (wPage (wAt 3 0)) (wAt 3 0) (.pgMig hx 202 192 195) hx 0 [] 0 (List.range 64).tail false ∧
    (wPage (wAt 3 0)).walk wPageCtx (leadVal (wAt 3 0) 0 192 2) = some l ∧ l.mode ≠ 3 ∧ l.peer ≠ leadVal (wAt 3 0) 0 195 1 ∧
    leadVal (wAt 3 0) 0 195 1 = (wPage (wAt 3 0)).peerId ∧ wPageCtx.migen = true ∧ (wPage (wAt 3 0)).poolHas = true :=
  ⟨{ wLeaf with mode := 2, peer := 7, frame := 0 }, pageCommand (runs rfl rfl (by decide)) (by decide +kernel), by decide +kernel, by decide, by decide, by decide,
   by decide, by decide⟩

/-- A migration of page 2, at home here, to device 5. -/
theorem witness_migrate_away : ∃ l, commands (wPage (wAt 2 5)) (wAt 2 5) (.pgMig hx 202 192 195) hx 0 [] 0 (List.range 64).tail false ∧
    (wPage (wAt 2 5)).walk ((wPage (wAt 2 5)).ctxOf (wAt 2 5)) (leadVal (wAt 2 5) 0 192 2) = some l ∧ l.mode ≠ 3 ∧ l.peer ≠ leadVal (wAt 2 5) 0 195 1 ∧
    leadVal (wAt 2 5) 0 195 1 < 512 ∧ leadVal (wAt 2 5) 0 195 1 ≠ (wPage (wAt 2 5)).peerId ∧
    (wPage (wAt 2 5)).canMove ((wPage (wAt 2 5)).ctxOf (wAt 2 5)) (leadVal (wAt 2 5) 0 192 2) = true :=
  ⟨{ wLeaf with mode := 2, frame := 6 }, pageCommand (runs rfl rfl (by decide)) (by decide +kernel), by decide +kernel, by decide, by decide, by decide,
   by decide, by decide +kernel⟩

theorem witness_count : Runs (wPage (wAt 3 0)) (wAt 3 0) (.pgCnt hx 202 192) ∧ leads (wAt 3 0) hx 0 [] ∧ leadVal (wAt 3 0) 0 192 2 < 2 ^ 56 :=
  ⟨runs rfl rfl (by decide), by unfold leads; decide +kernel, by decide⟩

theorem witness_translate : ((wPage wTeam).ctx 0).valid = true ∧ (wPage wTeam).translate ((wPage wTeam).ctx 0) 0 .fetch = .ok (5 * 2 ^ 19) wLeaf ∧
    (wPage wTeam).walk ((wPage wTeam).ctx 0) 0 = some wLeaf ∧ (wPage wTeam).checkLocal ((wPage wTeam).ctx 0) 0 wLeaf = none :=
  ⟨rfl, by decide +kernel, by decide +kernel, by decide +kernel⟩

/-- A machine whose context has one pending request. -/
def wPending (r : PageReq) : State := { wPage wTeam with ctxs := [(0, { wPageCtx with pageReqs := [r] })] }

theorem witness_rewalk : let r : PageReq := { va := 0, host := false, waiters := [{ uid := 1, slot := 0, gid := 0 }] }
    ((wPending r).ctx 0).pageReqs = [r] ∧ r.waiters = [{ uid := 1, slot := 0, gid := 0 }] ∧ (wPending r).pageOutcome ((wPending r).ctx 0) r.va = .resident :=
  ⟨rfl, rfl, by decide +kernel⟩

theorem witness_pri : let r : PageReq := { va := 4096, host := true, waiters := [{ uid := 1, slot := 0, gid := 0 }] }
    ((wPending r).ctx 0).pageReqs = [r] ∧ (wPending r).pasidCtxs 0 = [0] ∧ r.host = true ∧ r.va % 4096 = 0 := ⟨rfl, by decide, rfl, by decide⟩

theorem witness_host_answers : let t : Team := { wTeam with hold := .ats 0 4096 }
    (wPage t).remoteWait = [] ∧ (wPage t).recWaits = [] ∧ (wPage t).team? t.uid = some t ∧ t.hold = .ats 0 (4097 / 4096 * 4096) ∧ (wPage t).codeErrs = [] := ⟨rfl, rfl, rfl, rfl, rfl⟩

/-- A load and a store of another device, of page 0. -/
def wRequest (op : RemoteOp) : RemoteReq := { peer := 7, part := 3, core := 0, tag := 17, va := 64, op := op, hops := 0 }

theorem witness_remote : ∀ op ∈ ([.load 64, .store [1, 2, 3, 4]] : List RemoteOp), let req := wRequest op
    let s := wPage wTeam
    Calm s ∧ s.partCtx req.part = some 0 ∧ s.translate (s.ctx 0) req.va (remoteAcc req.op) = .ok (5 * 2 ^ 19 + 64) wLeaf ∧
    wLeaf.isLocal s = true ∧ s.revokes = [] ∧ s.replies = [] ∧ s.owners = [] := by
  intro op hop
  simp only [List.mem_cons, List.not_mem_nil, or_false] at hop
  rcases hop with rfl | rfl <;> exact ⟨⟨rfl, rfl, rfl⟩, by decide +kernel, by decide +kernel, by decide, rfl, rfl, rfl⟩

/-- A load of page 3, which is at device 7: a request that has made two trips is forwarded. -/
theorem witness_remote_elsewhere : ∃ key l, (wPage wTeam).partCtx 3 = some 0 ∧
    (wPage wTeam).translate ((wPage wTeam).ctx 0) (3 * 2 ^ 19) (remoteAcc (.load 64)) = .ok key l ∧ l.mode ≠ 3 ∧ l.isLocal (wPage wTeam) = false ∧
    ({ wRequest (.load 64) with va := 3 * 2 ^ 19, hops := 2 } : RemoteReq).hops < 3 ∧ (wPage wTeam).partCtx 4 = none :=
  ⟨((wPage wTeam).leaf ((wPage wTeam).ctx 0) (3 * 2 ^ 19)).toOption.elim 0 fun l => l.key_ (wPage wTeam) ((wPage wTeam).ctx 0) (3 * 2 ^ 19),
   { wLeaf with mode := 2, peer := 7, frame := 0 }, by decide +kernel, by decide +kernel, by decide, by decide, by decide, by decide +kernel⟩

/-- What a home's own entry refuses: an absent page, one without an entry, and one without the right; and a partition that no context is bound to. -/
theorem witness_remote_refused : let s := wPage wTeam
    let u : State := { s with mem := memWrite wPages (2 ^ 28 + 2 ^ 17 + 512 + 7) [BitVec.ofNat 8 0xC1] }
    asksAccess (.load 64) ∧ s.partCtx 3 = some 0 ∧ refusedFor .absent (s.translate (s.ctx 0) (1 * 2 ^ 19) (remoteAcc (.load 64))) ∧
    refusedFor .page (s.translate (s.ctx 0) (4 * 2 ^ 19) (remoteAcc (.load 64))) ∧ u.partCtx 3 = some 0 ∧
    refusedFor .perm (u.translate (u.ctx 0) 64 (remoteAcc (.store [1]))) ∧ s.partCtx 4 = none ∧ portsOpen s :=
  ⟨.inl ⟨_, rfl⟩, by decide +kernel, .inl ⟨rfl, by decide +kernel⟩, .inr (.inr (.inr ⟨rfl, by decide +kernel⟩)), by decide +kernel,
   .inr (.inl ⟨rfl, by decide +kernel⟩), by decide +kernel, rfl, fun _ h => absurd h List.not_mem_nil⟩

/-- R243: the device that a request reaches after two trips sends it on, and after three refuses it. -/
theorem test_fourth_hop : ([2, 3].map fun n =>
      ((wPage wTeam).arriveRemote { wRequest (.load 64) with va := 3 * 2 ^ 19, hops := n }).outbox) =
    [[.forward 7 { wRequest (.load 64) with va := 3 * 2 ^ 19, hops := 3 }], [.replyFail 7 (3 * 2 ^ 19) 17 .page]] := by decide +kernel

theorem witness_migration_request : (wPage wTeam).partCtx 3 = some 0 ∧ 7 ≠ (wPage wTeam).peerId ∧ (wPage wTeam).moves = [] ∧
    (wPage wTeam).canMove ((wPage wTeam).ctx 0) (2 * 2 ^ 19) = true ∧ (wPage wTeam).canMove ((wPage wTeam).ctx 0) 0 = false :=
  ⟨by decide +kernel, by decide, rfl, by decide +kernel, by decide +kernel⟩

/-- A move of page 2 to device 7, and one of page 3 to here. -/
def wMove (held : Bool) : Move := { askedMove (wPage wTeam) 0 (2 * 2 ^ 19) 0 7 true [{ uid := 1, slot := 0, gid := 0 }] with held := held }
def wWanted : Move := askedMove (wPage wTeam) 0 (3 * 2 ^ 19) 7 0 true [{ uid := 1, slot := 0, gid := 0 }]

theorem witness_migration : ∀ b, let s : State := { wPage wTeam with moves := [wMove b] }
    Calm s ∧ s.moves = [wMove b] ∧ s.outgoing 0 (2 * 2 ^ 19) = some (wMove b) ∧
    s.walk (s.ctx (wMove b).ctx) (wMove b).va = some { wLeaf with mode := 2, frame := 6 } ∧
    (wMove b).waiters = [{ uid := 1, slot := 0, gid := 0 }] ∧ (wMove b).queue = [] := by
  intro b
  cases b <;> exact ⟨⟨rfl, rfl, rfl⟩, rfl, by decide +kernel, by decide +kernel, rfl, rfl⟩

/-- R250: a request for a page that is held joins its move. -/
theorem witness_held_request : let s : State := { wPage wTeam with moves := [wMove true] }
    let req : RemoteReq := { wRequest (.store [1]) with va := 2 * 2 ^ 19 + 64 }
    asksAccess req.op ∧ portsOpen s ∧ s.partCtx req.part = some 0 ∧ s.translate (s.ctx 0) req.va (remoteAcc req.op) = .held ∧ s.moves = [wMove true] ∧
    s.outgoing 0 (req.va / 2 ^ 19 * 2 ^ 19) = some (wMove true) :=
  ⟨.inr (.inl ⟨_, rfl⟩), ⟨rfl, fun _ h => absurd h List.not_mem_nil⟩, by decide +kernel, by decide +kernel, rfl, by decide +kernel⟩

theorem witness_migration_refused : let s : State := { wPage wTeam with moves := [wWanted] }
    s.moves = [wWanted] ∧ wWanted.ctx = 0 ∧ wWanted.va = 3 * 2 ^ 19 ∧ wWanted.home = 7 ∧ 7 ≠ s.peerId ∧ wWanted.queue = [] ∧
    wWanted.waiters = [{ uid := 1, slot := 0, gid := 0 }] := ⟨rfl, rfl, rfl, rfl, by decide, rfl, rfl⟩

/-! ### Witnesses: what happens to teams -/

theorem witness_revoke : let r : Revoke := { no := 0, core := 383, asid := 0, va := 4, by_ := 0 }
    ({ State.reset with revokes := [r] } : State).revokes[0]? = some r := rfl

/-- A zero-length read of the link for the test team. -/
def wZeroRead : RemAsk :=
  { tag := 40, asker := .team 1, core := 0, asid := 0, key := 2 ^ 120, va := 0, op := .load 0, writes := [], ret := [], ans := none, at_ := 0, keep := true }

theorem witness_zero_read : ∀ f ∈ ([.rel, .sc] : List FenceWait), let t : Team := { wTeam with fence := f, hold := .link }
    let s : State := { wState t with remAsks := [wZeroRead] }
    s.team? t.uid = some t ∧ s.remAsks = [wZeroRead] ∧ hostHome wZeroRead.key = true ∧ wZeroRead.asker = .team t.uid ∧ s.revokes = [] :=
  fun _ _ => ⟨rfl, rfl, by decide, rfl, rfl⟩

theorem witness_team_events : (∃ t : Team, (wState t).team? t.uid = some t ∧ 28 < 29 ∧ (t.slotOf 0).status = .pending) ∧
    (∃ t : Team, (wState t).team? t.uid = some t ∧ t.res = .draining ∧ t.hold.arriving = false ∧ t.unanswered = false ∧ t.inGang = false ∧ t.flight = []) :=
  ⟨⟨wLate, rfl, by decide, rfl⟩, { wTeam with res := .draining }, rfl, rfl, by decide, by decide, by decide, rfl⟩

theorem witness_restore : let t : Team := { wTeam with res := .evicted }
    let s : State := { wState t with grids := [{ wGrid with cmask := 1 }] }
    s.team? t.uid = some t ∧ t.res = .evicted ∧ s.ctxStopped t.ctx = false ∧ s.higherWaits t = false ∧ s.earlierOut t = false ∧
    ∃ home, s.restoreHome t = some home := ⟨rfl, rfl, by decide, by decide, by decide +kernel, Option.isSome_iff_exists.mp (by decide +kernel)⟩

theorem witness_issue : let t := wTeam
    let s : State := { (wCode t) with cur := none, cores := [(0, { (Core.reset) with code := [(0, { wSlot with words := [0x95000000, 0x95000000] })] })] }
    s.teams = [t] ∧ s.codeErrs = [] ∧ ∃ i, s.readyInstr t = some i ∧ t.loopBuf = none ∧ s.choosable t i = true :=
  ⟨rfl, rfl, .sNop hs, by decide +kernel, rfl, by decide +kernel⟩

theorem witness_code_lands : let sl : CodeSlot := { CodeSlot.reset with addr := 0, st := .loading, waiters := [{ no := 0, who := { uid := 1, slot := 0, gid := 0 }, seg := 0 }] }
    let s : State := { wPage wTeam with cores := [(0, { Core.reset with code := [(15, sl)] })] }
    s.loads = [] ∧ s.codeErrs = [] ∧ s.poison = [] ∧ (s.core 0).codeSlot 15 = sl ∧ sl.st = .loading ∧ s.ctxOfAsid sl.asid = some 0 ∧
    (∃ parts, s.vaRange (s.ctx 0) .fetch sl.addr 16384 = .ok parts) := by
  refine ⟨rfl, rfl, rfl, rfl, rfl, by decide, ?_⟩
  exact ⟨(List.range 4).map fun n => (5 * 2 ^ 19 + 4096 * n, 4096), by decide +kernel⟩

theorem witness_pin : let sl : CodeSlot := { wSlot with pinned := true }
    let s : State := { State.reset with cc := 1024, cores := [(0, { Core.reset with code := [(0, sl)] })] }
    ((s.core 0).codeSlot 0).pinned = true ∧ ((s.core 0).codeSlot 0).landedAt + 1024 ≤ s.cc := ⟨rfl, by decide⟩


/-- Four teams that fill the cores of cluster 0, and a grid of higher priority with one team to place. -/
def wFull : State :=
  let t : Team := { wTeam with lanes := 512, gid := 6 }
  { wState wTeam with
    teams := (List.range 4).map fun k => { t with uid := k + 1, home := k, placedAt := k }
    grids := [{ wGrid with lanes := 512, pri := 2, next := 0, regions := [] }, { wGrid with gid := 6, lanes := 512 }] }

theorem witness_eviction : let g : Grid := { wGrid with lanes := 512, pri := 2, next := 0, regions := [] }
    wFull.grid? g.gid = some g ∧ ∃ h t u, wFull.evictionPlan g = some h ∧ wFull.team? t.uid = some t ∧ t.res = .resident ∧ h.team? t.uid = some u ∧
      u.res = .evicted := by
  refine ⟨rfl, ?_⟩
  obtain ⟨h, hp, hu⟩ := any_some (o := wFull.evictionPlan { wGrid with lanes := 512, pri := 2, next := 0, regions := [] })
    (p := fun h => (h.team? 1).any fun u => u.res == .evicted) (by decide +kernel)
  obtain ⟨u, hu, hr⟩ := any_some hu
  exact ⟨h, { wTeam with lanes := 512, gid := 6 }, u, hp, rfl, rfl, hu, by simpa using hr⟩

/-! ### Witnesses: the collective engine -/

/-- A descriptor at VA 0x1000 with no slot, a group of two ranks at index 0 (SEQ 0, tag 5, rank 0) and its map at VA 0x400: devices 0 and 7. -/
def wGroupMem : List Host.Cell :=
  cellsAt (5 * 2 ^ 19 + 0x400) 4 (7 * 2 ^ 16) ++ cellsAt (5 * 2 ^ 19 + 0x1000) 64 (255 * 2 ^ 16 + 1 * 2 ^ 32 + 1 * 2 ^ 64 + 1 * 2 ^ 80) ++
    cellsAt (5 * 2 ^ 19 + 0x2000) 32 (5 + 2 * 2 ^ 53 + 2 ^ 63 + 0x200 * 2 ^ 65)

/-- A team with the descriptor's address in `s0, s1`, a channel in `s2` and a selector in `s3`. -/
def wCl (ch sel : Nat) : Team := withS [(0, 0x1000), (2, ch), (3, sel)]

def wClState (t : Team) : State := { wMem t with mem := wGroupMem, ctxs := [(0, { Ctx.reset with valid := true, clgbase := 0x2000 })] }

/-- A look that succeeds. -/
def lookOk {α : Type} : Look α → Bool
  | .ok _ => true
  | _ => false

theorem look_ok {α : Type} {x : Look α} (h : lookOk x = true) : ∃ a, x = .ok a := by
  cases x with
  | ok a => exact ⟨a, rfl⟩
  | fault c => cases h
  | wait n => cases h

/-- What a team reads at an address, where it can. -/
def readNow (s : State) (t : Team) (n a : Nat) : Option Nat :=
  match s.vaRange (s.ctxOf t) .read a n, s.translate (s.ctxOf t) a .read with
  | .ok _, .ok key l => some (bytesAt s t n a key l)
  | _, _ => none

theorem reads_of {s : State} {t : Team} {n a x : Nat} (h : readNow s t n a = some x) : reads s t n a x := by
  unfold readNow at h
  split at h
  · rename_i ps key l h1 h2
    exact ⟨ps, key, l, h1, h2, by simpa using h.symm⟩
  · cases h

theorem wClState_clean (t : Team) (b : Nat) : (wClState t).blockLost b = false := rfl

theorem witness_run : let t := wCl 15 0
    let s := wClState t
    let i : Instr := .clRun hx 202 192 194 true true
    commands s t i hx 0 [] 0 (List.range 64).tail true ∧ s.codeErrs = [] ∧ s.pend = [] ∧ s.remAsks = [] ∧ noneHeld s ∧ leadVal t 0 194 1 < 16 ∧
    s.chanDown (leadVal t 0 194 1) = false ∧ ((s.chan (leadVal t 0 194 1)).progs.filter fun p => !p.started).length < 8 ∧
    ∃ r, (s.clMeets t i (leadVal t 0 192 2)).clCheck t i (leadVal t 0 192 2) (leadVal t 0 194 1) true = .ok r :=
  ⟨commandsOf (runs rfl rfl (by decide)) (withS_good _) (by decide +kernel) rfl fun _ => releasesNow_of rfl rfl ⟨rfl, rfl, rfl⟩ rfl rfl rfl, rfl, rfl, rfl,
   fun _ h => absurd h List.not_mem_nil, by decide +kernel, by decide +kernel, by decide +kernel, look_ok (by decide +kernel)⟩

/-- The selectors of the test, and what is said of each. -/
def infoReady (sel : Nat) : Bool :=
  checks (wCl 0 sel) (.clInfo hx 202 195) && (leadVal (wCl 0 sel) 0 195 1 == sel) &&
    (readNow (wClState (wCl 0 sel)) (wCl 0 sel) 32 (((wClState (wCl 0 sel)).ctxOf (wCl 0 sel)).groupVa (sel / 8 % 256))).any
      fun e => e.testBit 63 && e / 2 ^ 53 % 2 ^ 10 == 2

theorem witness_info : ∀ sel ∈ ([0, 1, 2, 3 + 2 ^ 11, 3 + 2 * 2 ^ 11, 4, 5, 7, 2 ^ 20] : List Nat), let t := wCl 0 sel
    Runs (wClState t) t (.clInfo hx 202 195) ∧ Calm (wClState t) ∧ leads t hx 0 [] ∧ allGood t ∧ leadVal t 0 195 1 = sel ∧
    ∃ e, reads (wClState t) t 32 (((wClState t).ctxOf t).groupVa (sel / 8 % 256)) e ∧ (e.testBit 63 = true ∧ e / 2 ^ 53 % 2 ^ 10 = 2) := by
  intro sel h
  have hl : ∀ sel, leads (wCl 0 sel) hx 0 [] := fun sel => show (wCl 0 0).groupsFor hx = [0] by decide +kernel
  have hr : infoReady sel = true :=
    List.all_eq_true.mp (show List.all [0, 1, 2, 3 + 2 ^ 11, 3 + 2 * 2 ^ 11, 4, 5, 7, 2 ^ 20] infoReady = true by decide +kernel) sel h
  simp only [infoReady, Bool.and_eq_true, beq_iff_eq] at hr
  obtain ⟨e, h1, h2⟩ := any_some hr.2
  simp only [Bool.and_eq_true, beq_iff_eq] at h2
  exact ⟨runs rfl rfl hr.1.1, ⟨rfl, rfl, rfl⟩, hl _, withS_good _, hr.1.2, e, reads_of h1, h2⟩

/-- The map's entry for rank 1 can be read: device 7. -/
theorem witness_info_map : let s := wClState (wCl 0 (3 + 2 ^ 11))
    reads (s.useRange (s.ctx 0) ((s.ctx 0).groupVa 0) 32) (wCl 0 (3 + 2 ^ 11)) 2 (0x400 + 2) 7 := reads_of (by decide +kernel)

/-- A machine whose group table cannot be read. -/
def wNoGroups : State := { wClState (wCl 0 0) with tlb := [] }

theorem witness_info_unreadable : Runs wNoGroups (wCl 0 0) (.clInfo hx 202 195) ∧
    ∃ f, wNoGroups.vaRange (wNoGroups.ctxOf (wCl 0 0)) .read ((wNoGroups.ctxOf (wCl 0 0)).groupVa 0) 32 = .fault f :=
  ⟨runs rfl rfl (by decide +kernel), .page, by decide +kernel⟩

/-- A program of two ranks on channel 3, this device being rank 0 and device 7 rank 1; its slot 0 is a record of 64 elements in vault 0. -/
def wProg : ClProg :=
  { id := 80, uid := 1, gid := 0, ctx := 0, asid := 0, home := 0, who := { uid := 1, slot := 0, gid := 0 }, pc := 0, ins := (0, 0),
    rel := true, relTag := some 0, ch := 3, grp := 0, ty := .s8, op := 255,
    chunk := 1, nc := 1, nsteps := 1, flagv := 0, flagaddr := 0, steps := 0, slots := [some (Shape.ofNat (wRecord 0xF0 1 0)), none, none, none], n := 2, rank := 0,
    gtag := 5, map := [0, 7], h := 0, hash := 9, rnd := { rm := 0, seed := 0 }, inj := 0, started := true, words := [], next := 0, loops := [0, 0, 0, 0],
    counts := [2, 0, 0, 0], sigs := List.replicate 8 0, active := [], waiting := none, waitSince := 0, sendSeq := [], recvSeq := [], grants := [] }

/-- A machine whose channel 3 runs a program, with partition 3 bound to context 0 and its link key installed. -/
def wRunning (p : ClProg) : State :=
  { wClState wTeam with
    chans := [(3, { progs := [p], held := [] })]
    pkg := { Pkg.reset with part := [(3, 0x8000000000000000)], linkKeys := [3], memKeys := [0], partSet := true } }

theorem wRunning_heads (p : ClProg) (h : p.ch = 3) : heads (wRunning p) 3 p [] := ⟨rfl, h, fun _ h => absurd h List.not_mem_nil⟩

theorem wRunning_none (p : ClProg) : noneHeld (wRunning p) := by simp [noneHeld, wRunning]

/-- A team whose collective handle 0xA000 is pending for the program, or stale. -/
def wClTeam : Team := { withS [(0, 0xA000)] with handles := [(0, { gen := 0, status := .pending, eng := 5, promise := none })] }

theorem witness_handle_words : let s : State := { wRunning wProg with teams := [wClTeam] }
    allGood wClTeam ∧ leads wClTeam hx 0 [] ∧ Runs s wClTeam (.clCncl hx 202 192) ∧ Runs s wClTeam (.clProg hs 202 192) ∧
    s.clOf wClTeam (leadVal wClTeam 0 192 1) = some wProg ∧ (wClTeam.slotOf (leadVal wClTeam 0 192 1 % 64)).status = .pending ∧
    wClTeam.clHandle (leadVal wClTeam 0 192 1) = true ∧ (wClTeam.slotOf (leadVal wClTeam 0 192 1 % 64)).eng = 5 :=
  ⟨allGood_of rfl (by decide), by unfold leads; decide +kernel, runs rfl rfl (by decide), runs rfl rfl (by decide), by decide +kernel, by decide, by decide,
   by decide⟩

theorem witness_ended_handle : let s := wClState wClTeam
    Runs s wClTeam (.clCncl hx 202 192) ∧ s.clOf wClTeam (leadVal wClTeam 0 192 1) = none ∧ Runs (wClState (withS [])) (withS []) (.clProg hs 202 192) ∧
    (withS []).clHandle (leadVal (withS []) 0 192 1) = false :=
  ⟨runs rfl rfl (by decide), by decide +kernel, runs rfl rfl (by decide), by decide⟩

theorem witness_abort_word : ∀ n ∈ ([255, 256] : List Nat), let t := withS [(0, n)]
    Runs { wRunning wProg with teams := [t] } t (.clAbort hx 202 192) ∧ leadVal t 0 192 1 = n := by
  intro n hn
  simp only [List.mem_cons, List.not_mem_nil, or_false] at hn
  rcases hn with rfl | rfl <;> exact ⟨runs rfl rfl (by decide), by decide⟩

theorem witness_program_start : let p : ClProg := { wProg with started := false }
    heads (wRunning p) 3 p [] ∧ p.started = false ∧ (wRunning p).chanDown 3 = false ∧ noneHeld (wRunning p) ∧
    ((wRunning p).island (120 + 3 / 2)).st = .run ∧
    ∃ x, ((wRunning p).meetRange p.finder ((wRunning p).ctx p.ctx) p.steps (8 * p.nsteps)).look ((wRunning p).ctx p.ctx) p.steps (8 * p.nsteps) = .ok x :=
  ⟨wRunning_heads _ rfl, rfl, by decide +kernel, wRunning_none _, rfl, look_ok (by decide +kernel)⟩

theorem witness_step_wait : let p : ClProg := { wProg with waiting := some (7, 1), sigs := [0, 0, 0, 0, 0, 0, 0, 1] }
    heads (wRunning p) 3 p [] ∧ p.started = true ∧ p.waiting = some (7, 1) ∧ 1 ≤ (p.sigs[7]?).getD 0 := ⟨wRunning_heads _ rfl, rfl, rfl, by decide⟩

theorem witness_step_words : ∀ w ∈ ([0, BitVec.ofNat 64 (loopWord 10 (2 ^ 15 - 1) 3), BitVec.ofNat 64 (loopWord 11 0 0)] : List DWord),
    let p : ClProg := { wProg with words := [0, w], next := 1 }
    heads (wRunning p) 3 p [] ∧ p.waiting = none ∧ p.words[p.next]? = some w ∧ p.active = [] ∧ settledRel (wRunning p) p.rel p.relTag ∧
    (wRunning p).writesAway p.who = false ∧ (wRunning p).writeRefused p.who = none :=
  fun _ _ => ⟨wRunning_heads _ rfl, rfl, rfl, rfl, fun _ => ⟨0, rfl, rfl⟩, rfl, rfl⟩

theorem witness_loop_words : (BitVec.ofNat 64 (loopWord 10 (2 ^ 15 - 1) 3)).toNat = loopWord 10 (2 ^ 15 - 1) 3 ∧
    (BitVec.ofNat 64 (loopWord 11 0 0)).toNat = loopWord 11 0 0 := ⟨by decide, by decide⟩

/-- `send` of slot 0's chunk 0 to rank 1 (X1: rank + 1), and `recv` of it from there. -/
theorem witness_send_recv : ∀ k ∈ ([1, 2] : List Nat), let w := k * 2 ^ 60 + 1 * 2 ^ 40 + 1 * 2 ^ 38
    let p : ClProg := { wProg with words := [BitVec.ofNat 64 w] }
    ∃ o, p.decode w = some o ∧ o.kind = k ∧ stepFree p o ∧ p.peer (wRunning p) o.x1 = some 7 ∧ (wRunning p).keyedPart p.ctx = some 3 ∧
      (wRunning p).pkg.partSet = true ∧ heads (wRunning p) 3 p [] := by
  intro k hk
  simp only [List.mem_cons, List.not_mem_nil, or_false] at hk
  rcases hk with rfl | rfl
  · exact ⟨{ kind := 1, sa := 0, sb := 0, x1 := 1, x2 := 0, x3 := 0, aux := 0, reads := some (0, 0), writes := none }, by decide +kernel, rfl,
      ⟨by decide, by decide, by decide +kernel, by decide⟩, by decide +kernel, by decide +kernel, rfl, wRunning_heads _ rfl⟩
  · exact ⟨{ kind := 2, sa := 0, sb := 0, x1 := 1, x2 := 0, x3 := 0, aux := 0, reads := none, writes := some (0, 0) }, by decide +kernel, rfl,
      ⟨by decide, by decide, by decide, by decide +kernel⟩, by decide +kernel, by decide +kernel, rfl, wRunning_heads _ rfl⟩

/-- A message of rank 1's device to the program. -/
def wMsg (kind : ClMsgKind) (hash : Word) : ClMsg :=
  { peer := 7, ch := 3, part := 3, auth := true, gtag := 5, h := 0, hash := hash, rank := 1, kind := kind, chunk := 0, k := 7, data := [] }

theorem witness_message : ∀ m ∈ ([wMsg .signal 9, wMsg .signal 8, wMsg .abort 9] : List ClMsg), heads (wRunning wProg) 3 wProg [] ∧ wProg.started = true ∧
    m.ch = 3 ∧ finds (wRunning wProg) m wProg := by
  intro m hm
  simp only [List.mem_cons, List.not_mem_nil, or_false] at hm
  have hg : (((wRunning wProg).meetRange (Finder.engine 0 ((wRunning wProg).ctx 0).asid 0) ((wRunning wProg).ctx 0)
      (((wRunning wProg).ctx 0).groupVa 0) 8192).groupOf ((wRunning wProg).ctx 0) 5).any fun x => x.1 == 0 := by decide +kernel
  obtain ⟨⟨g, e⟩, h1, h2⟩ := any_some hg
  obtain rfl : g = 0 := by simpa using h2
  rcases hm with rfl | rfl | rfl <;>
    exact ⟨wRunning_heads _ rfl, rfl, rfl, rfl, rfl, 0, 0, e, by decide +kernel, by decide +kernel, h1, by decide +kernel⟩

/-- A step in flight: a send of one byte whose grant has come, and a receive whose data has. -/
def wStep (kind : Nat) : ClStep :=
  { kind := kind, sa := 0, sb := 0, chunk := 0, reads := none, writes := some (0, 0), inn := if kind = 2 then some (1, 0) else none,
    out := if kind = 1 then some (1, 0) else none, seqIn := 0, seqOut := 0, tag := none, arrived := some [5], payload := some [5], inMoved := 1, outMoved := 1, nextAt := 0,
    wrote := false, since := some 0 }

theorem witness_send_ends : let p : ClProg := { wProg with active := [wStep 1], grants := [{ rank := 1, k := 0, chunk := 0 }] }
    heads (wRunning p) 3 p [] ∧ p.active[0]? = some (wStep 1) ∧ (wStep 1).nextAt ≤ (wRunning p).time ∧
    p.grants.find? (fun g => g.rank == 1 && g.k == (wStep 1).seqOut) = some { rank := 1, k := 0, chunk := 0 } ∧ p.bytes ≤ (wStep 1).outMoved ∧
    p.peer (wRunning p) 1 = some 7 ∧ (wRunning p).keyedPart p.ctx = some 3 :=
  ⟨wRunning_heads _ rfl, rfl, by decide, by decide, by decide, by decide +kernel, by decide +kernel⟩

/-- A chunk's write that keeps channel 3 as it is. -/
def chunkOk (p : ClProg) : SpRes → Bool
  | .ok g [] false => (g.chan 3).progs == [p]
  | _ => false

theorem chunk_ok {p : ClProg} {x : SpRes} (h : chunkOk p x = true) : ∃ g, x = .ok g [] false ∧ (g.chan 3).progs = p :: [] := by
  cases x with
  | ok g f w => cases f <;> cases w <;> simp_all [chunkOk]
  | _ => cases h

theorem witness_receive_ends : let p : ClProg := { wProg with active := [wStep 2] }
    heads (wRunning p) 3 p [] ∧ p.active[0]? = some (wStep 2) ∧ p.bytes ≤ (wStep 2).inMoved ∧ (wStep 2).redAt ≤ (wRunning p).time ∧
      (wStep 2).writes = some ((wStep 2).sb, 0) ∧ (∃ sh g, p.slot (wStep 2).sb = some sh ∧
      p.writeChunk ((wRunning p).ctx p.ctx) p.finder sh 0 ((List.range p.chunk).zip (unpackChunk p.ty.width p.chunk [5])) (p.linesIn [5]) (wRunning p) =
        .ok g [] false ∧ (g.chan 3).progs = p :: []) := by
  refine ⟨wRunning_heads _ rfl, rfl, by decide, by decide, rfl, ?_⟩
  obtain ⟨g, h1, h2⟩ := chunk_ok (p := { wProg with active := [wStep 2] }) (x := ({ wProg with active := [wStep 2] } : ClProg).writeChunk
    ((wRunning { wProg with active := [wStep 2] }).ctx 0) ({ wProg with active := [wStep 2] } : ClProg).finder (Shape.ofNat (wRecord 0xF0 1 0)) 0
    ((List.range 1).zip (unpackChunk 8 1 [5])) (({ wProg with active := [wStep 2] } : ClProg).linesIn [5]) (wRunning { wProg with active := [wStep 2] }))
    (by decide +kernel)
  exact ⟨Shape.ofNat (wRecord 0xF0 1 0), g, rfl, h1, h2⟩

theorem witness_step_late : let p : ClProg := { wProg with active := [wStep 1] }
    let s : State := { wRunning p with cyc := 1073741824 }
    heads s 3 p [] ∧ (wStep 1).since = some 0 ∧ 0 + s.clTmo ≤ s.time ∧ s.progs = [p] ∧ p.names 7 = true :=
  ⟨wRunning_heads _ rfl, rfl, by decide, rfl, by decide⟩

/-! ### Witnesses: the dispatch engine -/

def vaOk : VaRes → Bool
  | .ok _ => true
  | _ => false

theorem va_ok {x : VaRes} (h : vaOk x = true) : ∃ ps, x = .ok ps := by
  cases x with
  | ok ps => exact ⟨ps, rfl⟩
  | fault c => cases h
  | wait n => cases h

/-- A range that needs no translation of the host. -/
theorem noAts_ok {s : State} {c : Ctx} {acc : Acc} {va n : Nat} (h : vaOk (s.vaRange c acc va n) = true) : noAts s c acc va n := by
  obtain ⟨ps, h⟩ := va_ok h
  intro ns hns
  rw [h] at hns
  cases hns

/-- A GRID packet of one team, its image at VA 0x4000, with flags and a DONEADDR. -/
def wPacket (flags done : Nat) : Nat := flags * 2 ^ 16 + 0x4000 * 2 ^ 64 + 2 ^ 128 + 2 ^ 160 + 2 ^ 192 + done * 2 ^ 384 + 77 * 2 ^ 448

/-- A queue's entry: V, DL, P, four slots at VA 0x9000, the tail word at 0xA000 and the head word at 0xA008. -/
def wQueueEntry (dl : Nat) : Nat := (2 ^ 63 + dl * 2 ^ 62 + 2 ^ 61 + 2 * 2 ^ 52) + 0x9000 * 2 ^ 64 + 0xA000 * 2 ^ 128 + 0xA008 * 2 ^ 192

/-- VA 0 and slot 0 hold a packet; an image header (T 32, G 32, NV 8); the entry of queue 1; the tail word. -/
def wDpMem (p dl tail : Nat) : List Host.Cell :=
  cellsAt (5 * 2 ^ 19) 128 p ++ cellsAt (5 * 2 ^ 19 + 0x4000) 64 (0x09604B5A + 2 ^ 32 + 32 * 2 ^ 64 + 32 * 2 ^ 80 + 8 * 2 ^ 88) ++
    cellsAt (5 * 2 ^ 19 + 0x8020) 32 (wQueueEntry dl) ++ cellsAt (5 * 2 ^ 19 + 0x9000) 128 p ++ cellsAt (5 * 2 ^ 19 + 0xA000) 8 tail

/-- The queue as the engine holds it. -/
def wQueue (dl head tail : Nat) : Queue := { entry := natDwords 4 (wQueueEntry dl), head := head, tail := tail, stopped := false, rewritten := false, told := false, acqTag := 0, parents := [] }

def wDpCtx : Ctx := { Ctx.reset with valid := true, qtbase := 0x8000, queues := [(1, wQueue 1 0 1)] }

/-- A machine with this context, this packet, and a team with VA 0x80 in `s0, s1` and the queue 1 in `s2`. -/
def wDp (t : Team) (c : Ctx) (p dl tail : Nat) : State := { wMem t with mem := wDpMem p dl tail, ctxs := [(0, c)] }

def wDpTeam (q : Nat) : Team := withS [(0, 0x80), (2, q)]

theorem wDp_word {q : Nat} {c : Ctx} {i : Instr} (h : checks (wDpTeam q) i = true) : teamWord (wDp (wDpTeam q) c (wPacket 0 0) 1 1) (wDpTeam q) i hs 0 [] :=
  ⟨runs rfl rfl h, withS_good _, show (wDpTeam 0).groupsFor hs = [0] by decide +kernel⟩

theorem wDp_settled (t : Team) (c : Ctx) (p dl tail : Nat) : Settled (wDp t c p dl tail) := ⟨⟨rfl, rfl, rfl⟩, rfl, fun _ => rfl⟩

theorem readable {s : State} {t : Team} {n a : Nat} (h : (readNow s t n a).isSome = true) : ∃ x, reads s t n a x := by
  obtain ⟨x, h⟩ := Option.isSome_iff_exists.mp h
  exact ⟨x, reads_of h⟩

theorem witness_dp_launch : let t := wDpTeam 1
    let s := wDp t wDpCtx (wPacket 0 0) 1 1
    let c := s.ctxOf t
    let x := c.queue 1
    teamWord s t (.dpLaunch hs 202 192 194) hs 0 [] ∧ Settled s ∧ releasesNow s t ∧ leadVal t 0 194 1 = 1 ∧ x.valid = true ∧ x.dl = true ∧ leadVal t 0 192 2 % 128 = 0 ∧
    (∃ p, reads s t 128 (leadVal t 0 192 2) p) ∧ x.tail - x.head < x.slots ∧
    (∃ ps, (s.useRange c (leadVal t 0 192 2) 128).vaRange c .write (x.slotVa x.tail) 128 = .ok ps) :=
  ⟨wDp_word (by decide), wDp_settled _ _ _ _ _, releasesNow_of rfl rfl ⟨rfl, rfl, rfl⟩ rfl rfl rfl, by decide, by decide +kernel, by decide +kernel,
   by decide, readable (by decide +kernel), by decide +kernel, va_ok (by decide +kernel)⟩

/-- The tail word of the queue can be written when the packet has been stored. -/
theorem witness_dp_launch_tail : let s := wDp (wDpTeam 1) wDpCtx (wPacket 0 0) 1 1
    let m := s.useRange (s.ctx 0) 0x80 128
    ∃ qs, (m.engineStore (s.ctx 0) 0x9080 [(5 * 2 ^ 19 + 0x9080, 128)] (natLe 128 (wPacket 0 0))).vaRange (s.ctx 0) .write ((wQueue 1 0 1).word 2) 8 =
      .ok qs := va_ok (by decide +kernel)

theorem witness_dp_qstat : ∀ q ∈ ([64, 63, 1] : List Nat), let t := wDpTeam q
    teamWord (wDp t wDpCtx (wPacket 0 0) 1 1) t (.dpQstat hs 202 194) hs 0 [] ∧ leadVal t 0 194 1 = q := by
  intro q hq
  simp only [List.mem_cons, List.not_mem_nil, or_false] at hq
  rcases hq with rfl | rfl | rfl <;> exact ⟨wDp_word (by decide), by decide⟩

theorem witness_dp_tape : ∀ depth ∈ ([0, 4095] : List DWord), let t := wDpTeam 1
    let c : Ctx := { wDpCtx with tdepth := depth }
    let s := wDp t c (wPacket 0 0) 1 1
    teamWord s t (.dpTadd hs 202 192) hs 0 [] ∧ teamWord s t (.dpTdrop hs 202 194) hs 0 [] ∧ teamWord s t (.dpTdepth hs 202) hs 0 [] ∧
    teamWord s t (.dpLsovf hs) hs 0 [] ∧ Settled s ∧ releasesNow s t ∧ (∃ p, reads s t 128 (leadVal t 0 192 2) p) ∧ c.tape = none ∧ c.tdepth.toNat < 4096 ∧
    ∃ ps, (s.useRange (s.ctxOf t) (leadVal t 0 192 2) 128).vaRange (s.ctxOf t) .write ((s.ctxOf t).recordVa depth.toNat) 128 = .ok ps := by
  intro d hd
  simp only [List.mem_cons, List.not_mem_nil, or_false] at hd
  rcases hd with rfl | rfl <;>
    exact ⟨wDp_word (by decide), wDp_word (by decide), wDp_word (by decide), wDp_word (by decide), wDp_settled _ _ _ _ _,
      releasesNow_of rfl rfl ⟨rfl, rfl, rfl⟩ rfl rfl rfl, readable (by decide +kernel), rfl, by decide, va_ok (by decide +kernel)⟩

theorem witness_dp_lsstep : ∀ k ∈ ([0, 0x40000000] : List Word), let c : Ctx := { wDpCtx with lskip := k }
    teamWord (wDp (wDpTeam 1) c (wPacket 0 0) 1 1) (wDpTeam 1) (.dpLsstep hs) hs 0 [] ∧
    (c.lskip.getLsbD 30 = true → (c.lscfg.extractLsb' 8 8).toInt < ((c.lscale.toNat / 2 ^ 23 % 2 ^ 8 : Nat) : Int) - 127) := by
  intro k hk
  simp only [List.mem_cons, List.not_mem_nil, or_false] at hk
  rcases hk with rfl | rfl <;> exact ⟨wDp_word (by decide), by decide⟩

theorem isSome_eq {α : Type} {o : Option α} {p : α → Bool} (h : o.any p = true) : ∃ x, o = some x ∧ p x = true := any_some h

theorem witness_entry : ∀ dl ∈ ([0, 1] : List Nat), let s := wDp wTeam { wDpCtx with queues := [(1, wQueue dl 0 0)] } (wPacket 0 0) dl 4
    (s.ctx 0).valid = true ∧ ((s.ctx 0).queue 1).valid = true ∧ s.codeErrs = [] ∧ s.poison = [] ∧ ∃ e, s.readEntry 0 1 = some e ∧
      ({ (s.ctx 0).queue 1 with entry := e, stopped := false, rewritten := false } : Queue).valid = true := by
  intro d hd
  simp only [List.mem_cons, List.not_mem_nil, or_false] at hd
  rcases hd with rfl | rfl <;> refine ⟨rfl, by decide +kernel, rfl, rfl, ?_⟩
  · exact any_some (p := fun e => ({ wQueue 0 0 0 with entry := e, stopped := false, rewritten := false } : Queue).valid) (by decide +kernel)
  · exact any_some (p := fun e => ({ wQueue 1 0 0 with entry := e, stopped := false, rewritten := false } : Queue).valid) (by decide +kernel)

/-- The bytes of a range, as a number. -/
def rangeIs (s : State) (x : VaRes) (n : Nat) : Bool :=
  match x with
  | .ok ps => leNat (s.partsBytes ps) == n
  | _ => false

theorem range_is {s : State} {x : VaRes} {n : Nat} (h : rangeIs s x n = true) : ∃ ps, x = .ok ps ∧ leNat (s.partsBytes ps) = n := by
  cases x with
  | ok ps => exact ⟨ps, rfl, by simpa [rangeIs] using h⟩
  | fault c => cases h
  | wait n => cases h

/-- What an engine's read finds, as a number. -/
def readIs (x : Option (List Byte)) (n : Nat) : Bool := x.any fun bs => leNat bs == n

theorem read_is {x : Option (List Byte)} {n : Nat} (h : readIs x n = true) : ∃ bs, x = some bs ∧ leNat bs = n := by
  obtain ⟨bs, h1, h2⟩ := any_some h
  exact ⟨bs, h1, by simpa using h2⟩

/-- Tails at R210's limits: HEAD, HEAD + 4, below and above them. -/
theorem witness_tail : ∀ tail ∈ ([2, 6, 1, 7] : List Nat), let s := wDp wTeam { wDpCtx with queues := [(1, wQueue 0 2 2)] } (wPacket 0 0) 0 tail
    let g := s.putQueue 0 1 (wQueue 0 2 2)
    s.readEntry 0 1 = some (wQueue 0 2 2).entry ∧ (wQueue 0 2 2).valid = true ∧ (wQueue 0 2 2).dl = false ∧ (wQueue 0 2 2).stopped = false ∧
      noAts g (g.ctx 0) .read ((wQueue 0 2 2).word 2) 8 ∧
      ∃ bs, (engineReads g 0 ((wQueue 0 2 2).word 2) 8).vaRead (g.ctx 0) ((wQueue 0 2 2).word 2) 8 = some bs ∧ leNat bs = tail := by
  intro n hn
  simp only [List.mem_cons, List.not_mem_nil, or_false] at hn
  rcases hn with rfl | rfl | rfl | rfl <;>
    exact ⟨by decide +kernel, by decide +kernel, by decide +kernel, rfl, noAts_ok (by decide +kernel), read_is (by decide +kernel)⟩

/-- A queue whose tail word lies at VA 0xA0000, which no page holds. -/
theorem witness_tail_unreadable : let x : Queue := { wQueue 0 0 0 with entry := natDwords 4 (wQueueEntry 0 + 0x96000 * 2 ^ 128) }
    let g := (wDp wTeam wDpCtx (wPacket 0 0) 0 0).putQueue 0 1 x
    x.valid = true ∧ x.dl = false ∧ noAts g (g.ctx 0) .read (x.word 2) 8 ∧ (engineReads g 0 (x.word 2) 8).vaRead (g.ctx 0) (x.word 2) 8 = none := by
  refine ⟨by decide +kernel, by decide +kernel, ?_, by decide +kernel⟩
  intro ns h
  have hf : ¬ ∃ ns, ((wDp wTeam wDpCtx (wPacket 0 0) 0 0).putQueue 0 1
      { wQueue 0 0 0 with entry := natDwords 4 (wQueueEntry 0 + 0x96000 * 2 ^ 128) }).vaRange ((wDp wTeam wDpCtx (wPacket 0 0) 0 0).ctx 0) .read 0xA0000 8 =
      .wait ns := by
    have : ((wDp wTeam wDpCtx (wPacket 0 0) 0 0).putQueue 0 1
      { wQueue 0 0 0 with entry := natDwords 4 (wQueueEntry 0 + 0x96000 * 2 ^ 128) }).vaRange ((wDp wTeam wDpCtx (wPacket 0 0) 0 0).ctx 0) .read 0xA0000 8 =
      .fault .page := by decide +kernel
    rintro ⟨ns, e⟩
    rw [this] at e
    cases e
  exact hf ⟨ns, h⟩

/-- A machine whose queue 1 holds one packet. -/
def wConsume (flags : Nat) : State := wDp wTeam wDpCtx (wPacket flags 0xB000) 1 1

/-- The states in which the engine has acquired, read the packet, and read its image. -/
def wRead (flags : Nat) : State := engineReads ((wConsume flags).engineAcquire 0) 0 0x9000 128
def wRead2 (flags : Nat) : State := imageRead (wRead flags) 0 (wPacket flags 0xB000)

theorem witness_consume : ∀ flags ∈ ([0, 32] : List Nat), let s := wConsume flags
    let c := s.ctx 0
    let x := c.queue 1
    c.valid = true ∧ s.ctxStopped 0 = false ∧ x.stopped = false ∧ x.valid = true ∧ x.head < x.tail ∧ x.acqTag = 0 ∧ x.slotVa x.head = 0x9000 ∧
    noAts (s.engineAcquire 0) c .read 0x9000 128 ∧ (∃ bs, (wRead flags).vaRead c 0x9000 128 = some bs ∧ leNat bs = wPacket flags 0xB000) ∧
    noAts (wRead flags) c .read (field (wPacket flags 0xB000) 8 8) 192 ∧
    noAts (wRead2 flags) c .write (field (wPacket flags 0xB000) 48 8) (doneLen (field (wPacket flags 0xB000) 48 8)) ∧
    ∃ ps, (wRead2 flags).vaRange c .write (x.word 3) 8 = .ok ps := by
  intro f hf
  simp only [List.mem_cons, List.not_mem_nil, or_false] at hf
  rcases hf with rfl | rfl <;>
    exact ⟨rfl, by decide, rfl, by decide +kernel, by decide, rfl, by decide +kernel, noAts_ok (by decide +kernel), read_is (by decide +kernel),
      noAts_ok (by decide +kernel), noAts_ok (by decide +kernel), va_ok (by decide +kernel)⟩

/-- The packet passes R213 with the image's header, and with a reserved flag it does not. -/
theorem witness_reason : ((wConsume 0).readImage ((wConsume 0).ctx 0) (wPacket 0 0xB000)).any (fun im =>
      packetReason (wPacket 0 0xB000) (some im) true == 0 && packetReason (wPacket 32 0xB000) (some im) true == 1) = true := by decide +kernel

/-- A waiting packet of queue 1, and a machine that holds it. -/
def wWaiting (p : Nat) (st : PacketState) (ready : Option Grid) : Packet :=
  { q := 1, pos := 0, words := natDwords 16 p, parent := none, st := st, seq := 60, ready := ready }

def wHolding (pk : Packet) (c : Ctx) : State := wDp wTeam { c with packets := [pk] } (wPacket 0 0) 1 1

theorem witness_packet_start : let pk := wWaiting (wPacket 0 0) .waiting (some wGrid)
    (wHolding pk wDpCtx).startable 0 1 = some pk ∧ pk.ready = some wGrid ∧ pk.parent = none ∧
    (wHolding pk wDpCtx).retDone 0 (dwordsNat pk.words) = true := ⟨by decide +kernel, rfl, rfl, by decide +kernel⟩

/-- A grid of one team whose pack is still to be placed, alone or whole. -/
def wPlace (flags : BitVec 16) : Grid := { wGrid with flags := flags, next := 0, regions := [] }

def wPlacing (flags : BitVec 16) : State := { wState wTeam with teams := [], grids := [wPlace flags], nextId := 100 }

theorem witness_placement : ∀ flags ∈ ([0, 4] : List (BitVec 16)), let g := wPlace flags
    let s := wPlacing flags
    s.grid? g.gid = some g ∧ g.pack = 1 ∧ g.next < g.order.length ∧ s.ctxStopped g.ctx = false ∧ (∀ u ∈ s.teams, u.uid < s.nextId) ∧
    g.order[g.next]? = some 0 ∧ g.clusters = 0 :: [] ∧ (g.whole = true → g.next + 1 = g.order.length) ∧
    ∃ s0, s.ensureRegion g 0 = some s0 ∧ ∃ g0 home, s0.grid? g.gid = some g0 ∧
      s0.newId.2.findHome (g0.newTeam (s0.ctx g0.ctx).asid s.nextId 0) 0 (s0.barOk g0) = some home := by
  intro f hf
  simp only [List.mem_cons, List.not_mem_nil, or_false] at hf
  rcases hf with rfl | rfl <;>
    refine ⟨rfl, rfl, by decide, by decide, fun _ h => absurd h List.not_mem_nil, rfl, by decide +kernel, fun _ => rfl, _, rfl, _, ?_, rfl, ?_⟩ <;>
    first | exact 0 | decide +kernel

/-- A grid of two clusters whose first has no core with room. -/
theorem witness_placement_skips : let g : Grid := { wPlace 0 with cmask := 3, lanes := 1024 }
    let s : State := { wFull with grids := [g], nextId := 100 }
    g.clusters = [0] ++ 1 :: [] ∧ noHome s g 0 0 ∧ ∃ s0, s.ensureRegion g 1 = some s0 ∧ ∃ g0, s0.grid? g.gid = some g0 ∧
      s0.newId.2.findHome (g0.newTeam (s0.ctx g0.ctx).asid s.nextId 0) 1 (s0.barOk g0) = some 4 :=
  ⟨by decide +kernel, .inr ⟨_, _, rfl, rfl, by decide +kernel⟩, _, rfl, _, rfl, by decide +kernel⟩

theorem witness_grid_end : ∀ done ∈ ([0, 0xB000] : List Nat), let pk := wWaiting (wPacket 0 done) (.grid 0) none
    let g : Grid := { wGrid with q := 1, seq := 60, doneAddr := BitVec.ofNat 64 done }
    let s : State := { wHolding pk wDpCtx with teams := [], grids := [g] }
    s.grid? g.gid = some g ∧ g.next = g.order.length ∧ (∀ t ∈ s.teams, t.gid ≠ g.gid) ∧ s.gridBusy g.gid = false ∧ s.endsInOrder g = true ∧ gridReleases s g ∧
    noAts s (s.ctx g.ctx) .write g.doneAddr.toNat (doneLen g.doneAddr.toNat) ∧ g.fromTape = false ∧
    ((s.closeGrid g).ctx g.ctx).packets.find? (fun x => x.seq == g.seq) = some pk ∧ field (dwordsNat pk.words) 48 8 = done := by
  intro d hd
  simp only [List.mem_cons, List.not_mem_nil, or_false] at hd
  rcases hd with rfl | rfl <;> exact ⟨rfl, rfl, fun _ h => absurd h List.not_mem_nil, by decide +kernel, by decide +kernel,
    .inr ⟨rfl, rfl, rfl, rfl, by decide +kernel⟩, noAts_ok (by decide +kernel), rfl, by decide +kernel, by decide +kernel⟩

/-- A TAPE_RUN packet with a mark, and a STEP_END packet. -/
def wRunPacket (mark : Nat) : Nat := 1 + mark * 2 ^ 32 + 77 * 2 ^ 448

theorem witness_tape_run : ∀ e ∈ ([(wRunPacket 0, 0), (wRunPacket 0, 1), (2, 0)] : List (Nat × DWord)), let pk := wWaiting e.1 .waiting none
    let s := wHolding pk { wDpCtx with tdepth := e.2 }
    s.startable 0 1 = some pk ∧ noAts s (s.ctx 0) .write (field (dwordsNat pk.words) 48 8) (doneLen (field (dwordsNat pk.words) 48 8)) ∧
      packetKind (dwordsNat pk.words) = e.1 % 4 := by
  intro e he
  simp only [List.mem_cons, List.not_mem_nil, or_false] at he
  rcases he with rfl | rfl | rfl <;> exact ⟨by decide +kernel, noAts_ok (by decide +kernel), by decide +kernel⟩

/-- An active tape run with one record, the packet `p` at VA 0. -/
def wTape (p depth : Nat) (skip : Word) : State :=
  wDp wTeam { wDpCtx with tdepth := BitVec.ofNat 64 depth, lskip := skip, tape := some { q := 1, pos := 0, mark := 0, popped := none, running := none },
                          packets := [wWaiting (wRunPacket 0) .tapeRun none] } p 1 1

theorem witness_tape_end : let s := wTape 0 0 0
    (s.ctx 0).tape = some { q := 1, pos := 0, mark := 0, popped := none, running := none } ∧ s.ctxStopped 0 = false ∧ (s.ctx 0).tdepth.toNat ≤ 0 ∧
    (s.ctx 0).runPacket = some (wWaiting (wRunPacket 0) .tapeRun none) := ⟨rfl, by decide, by decide, by decide +kernel⟩

theorem witness_tape_pop : ∀ e ∈ ([(wPacket 0 0, 0), (wPacket 8 0, 0x40000000), (2, 0)] : List (Nat × Word)), let s := wTape e.1 1 e.2
    let c := s.ctx 0
    let m := engineReads s 0 (c.recordVa (c.tdepth.toNat - 1)) 128
    c.valid = true ∧ s.codeErrs = [] ∧ noAts s c .read (c.recordVa (c.tdepth.toNat - 1)) 128 ∧ 0 < c.tdepth.toNat ∧ s.retDone 0 e.1 = true ∧
    noAts m c .read (field e.1 8 8) 192 ∧ noAts (imageRead m 0 e.1) c .write (field e.1 48 8) (doneLen (field e.1 48 8)) ∧
    ∃ bs, m.vaRead c (c.recordVa (c.tdepth.toNat - 1)) 128 = some bs ∧ leNat bs = e.1 := by
  intro e he
  simp only [List.mem_cons, List.not_mem_nil, or_false] at he
  rcases he with rfl | rfl | rfl <;> exact ⟨rfl, rfl, noAts_ok (by decide +kernel), by decide +kernel, by decide +kernel, noAts_ok (by decide +kernel),
    noAts_ok (by decide +kernel), read_is (by decide +kernel)⟩

/-- A popped record that waits for a tag whose return is pending, and one that waits for none. -/
theorem witness_popped : ∀ n ∈ ([0, 1] : List Nat), let p := wPacket 0 0 + n * 7 * 2 ^ 608
    let run : TapeRun := { q := 1, pos := 0, mark := 0, popped := some (p, wGrid), running := none }
    let u : TagUse := { ctx := 0, tag := 7, cmd := 70, cluster := 0, isRet := true, pending := true, dead := false, src := none }
    let s : State := { wDp wTeam { wDpCtx with tape := some run } p 1 1 with tagUses := [u] }
    (s.ctx 0).tape = some run ∧ s.ctxStopped 0 = false ∧ s.retDone 0 p = (n == 0) := by
  intro n hn
  simp only [List.mem_cons, List.not_mem_nil, or_false] at hn
  rcases hn with rfl | rfl <;> exact ⟨rfl, by decide, by decide +kernel⟩

/-- The record's image passes, and its queue may carry the privileged flag. -/
theorem witness_tape_image : ((wTape (wPacket 8 0) 1 0).readImage ((wTape (wPacket 8 0) 1 0).ctx 0) (wPacket 8 0)).any (fun im =>
    packetReason (wPacket 8 0) (some im) (wQueue 1 0 1).privOk == 0) = true := by decide +kernel


/-! ### Witnesses: the metering engine -/

theorem witness_price_words : Runs (wState wTeam) wTeam (.tkPrice hx 202 192) ∧ wTeam.groupsGood hx [(192, 1)] ∧
    Runs (wState wTeam) wTeam (.tkDbal hx 202 192) :=
  ⟨runs rfl rfl (by decide), groupsGood_wTeam _ _, runs rfl rfl (by decide)⟩

/-- The premises of a team's word in a state of that team alone. -/
theorem word_of {s : State} {l : List (Nat × Nat)} {i : Instr} (hc : s.cur = some (withS l).uid) (ht : s.team? (withS l).uid = some (withS l))
    (h : checks (withS l) i = true) : teamWord s (withS l) i hx 0 [] :=
  ⟨runs hc ht h, withS_good l, show (withS []).groupsFor hx = [0] by decide +kernel⟩

/-- A team that waits for as many tokens as its core has, and one that waits for more than it has. -/
theorem witness_token_wait :
    (let t := withS [(0, 1024)]
     let s := wState t
     teamWord s t (.tkWait hx 192) hx 0 [] ∧ t.debtHome = 0 ∧ min (leadVal t 0 192 1) (s.core t.home).cap ≤ (s.core t.home).bal) ∧
    (let t := withS [(0, 1024)]
     let s : State := { wState t with cores := [(0, { Core.reset with bal := 1023 })] }
     teamWord s t (.tkWait hx 192) hx 0 [] ∧ (s.core t.home).bal < min (leadVal t 0 192 1) (s.core t.home).cap) :=
  ⟨⟨word_of rfl rfl (by decide), rfl, by decide⟩, word_of rfl rfl (by decide), by decide⟩

/-- An intent of context 0. -/
def wIntent : Intent := { ctx := 0, gen := 3, dr := 10, lead := 5, due := 320, start := 300, base := 0 }

/-- A machine whose governor holds these intents, with partition 3 keyed. -/
def wGov (t : Team) (l : List (Nat × Intent)) : State :=
  { wState t with gov := { Governor.reset with intents := l },
                  pkg := { Pkg.reset with part := [(3, 0x8000000000000000)], linkKeys := [3], memKeys := [0], partSet := true } }

def wLead (l : List (Nat × Intent)) : State := wGov (withS [(0, 1), (1, 65535)]) l

theorem witness_intent : teamWord (wLead []) (withS [(0, 1), (1, 65535)]) (.tkIntent hx 202 192 193) hx 0 [] ∧
    leadVal (withS [(0, 1), (1, 65535)]) 0 192 1 = 1 ∧ leadVal (withS [(0, 1), (1, 65535)]) 0 193 1 = 65535 ∧
    (wLead []).pkg.partSet = true ∧ (wState wTeam).pkg.partSet = false ∧ (wLead []).keyedPart 0 = some 3 :=
  ⟨word_of rfl rfl (by decide), by decide, by decide, rfl, rfl, by decide +kernel⟩

theorem witness_intents_full : teamWord (wLead ((List.range 16).map fun k => (k, wIntent))) (withS [(0, 1), (1, 65535)]) (.tkIntent hx 202 192 193) hx 0 [] ∧
    ∀ n < 16, SMap.find (wLead ((List.range 16).map fun k => (k, wIntent))).gov.intents n ≠ none :=
  ⟨word_of rfl rfl (by decide), by decide +kernel⟩

theorem witness_intent_free : firstFree (wLead []) 0 ∧ firstFree (wLead ((List.range 15).map fun k => (k, wIntent))) 15 :=
  ⟨⟨by decide, rfl, fun m h => absurd h (by omega)⟩, by decide, by decide +kernel, by decide +kernel⟩

/-- A number that names the intent, one of another generation, and one of a free entry. -/
theorem witness_intent_cancel : ∀ n ∈ ([3 * 16 + 2, 4 * 16 + 2, 3 * 16 + 15] : List Nat), let t := withS [(0, n)]
    let s := wGov t [(2, wIntent)]
    teamWord s t (.tkIcncl hx 202 192) hx 0 [] ∧ leadVal t 0 192 1 = n ∧ SMap.find s.gov.intents 2 = some wIntent ∧ SMap.find s.gov.intents 15 = none := by
  intro n hn
  simp only [List.mem_cons, List.not_mem_nil, or_false] at hn
  rcases hn with rfl | rfl | rfl <;> exact ⟨word_of rfl rfl (by decide), by decide, rfl, rfl⟩

/-- A team in debt on core 0. -/
def wDebtor : Team := { wTeam with debtHome := 65535, debtSeq := 1 }

theorem witness_refill : ((wState wTeam).core 0).bal ≤ ((wState wTeam).core 0).cap ∧ (wState wTeam).debtors 0 = [] ∧
    (wState wDebtor).debtors 0 = [wDebtor] ∧ (wState wDebtor).team? wDebtor.uid = some wDebtor ∧ wDebtor.debtOn 0 < 65536 :=
  ⟨by decide, by decide +kernel, rfl, rfl, by decide⟩

/-- A team held for the 256 cycles of RTO. -/
def wHeldTeam : Team := { wTeam with heldHome := 256 }

theorem witness_reservation : let s := wState wHeldTeam
    s.team? wHeldTeam.uid = some wHeldTeam ∧ 0 ∈ wHeldTeam.cores ∧ wHeldTeam.res ≠ .evicted ∧
    max 1 ((s.core 0).tkcore.toNat / 2 ^ 40 % 2 ^ 12) ≤ wHeldTeam.heldOn 0 ∧ (s.core 0).resv = none ∧ wHeldTeam.uid ∉ (s.core 0).resvQ ∧
    (let z : State := { s with cores := [(0, { Core.reset with resv := some 9 })] }
     (z.core 0).resv = some 9 ∧ (z.core 0).resv ≠ some wHeldTeam.uid ∧ wHeldTeam.uid ∉ (z.core 0).resvQ) :=
  ⟨rfl, by decide, by decide, by decide, rfl, by decide, rfl, by decide, by decide⟩

/-- A package that master 2 owns. -/
def wOwned : State := { State.reset with pkg := { Pkg.reset with mown := 0x8000000000000000 } }

theorem witness_owner : ownedBy wOwned 2 ∧ ¬ ownedBy wOwned 1 ∧ ¬ ownedBy State.reset 0 := ⟨⟨by decide, by decide⟩, fun h => absurd h.2 (by decide),
  fun h => h.1 rfl⟩

theorem witness_step_boundary : State.reset.time % 4 = 0 := by decide

theorem witness_cycle : let s : State := { State.reset with cyc := 5 }
    s.gov.openAt ≠ s.time ∧ s.clusters = [] ∧ s.chans = [] ∧ ∀ u ∈ s.gov.units, u.kind = .engine :=
  ⟨by decide, rfl, rfl, fun _ h => absurd h List.not_mem_nil⟩

theorem witness_intent_receipt : let s : State := { wLead [] with ctxs := [(0, { Ctx.reset with valid := true })] }
    (s.partCtx 3).isSome = true ∧ s.partCtx 4 = none := ⟨by decide +kernel, by decide +kernel⟩

theorem witness_intent_expires : let s : State := { wLead [(2, wIntent)] with cyc := 576 }
    SMap.find s.gov.intents 2 = some wIntent ∧ (wIntent.due + 4 * (s.gov.cfg.toNat % 2 ^ 8)) / 4 ≤ s.time / 4 := ⟨rfl, by decide +kernel⟩

/-- A machine whose island `i` is in a state. -/
def wIsland (i : Nat) (st : Island) (cyc : Nat) : State := { State.reset with cyc := BitVec.ofNat 64 cyc, islands := [(i, { IslandRec.reset with st := st })] }

theorem witness_island : (let s := wIsland 95 .run 5
      (s.island 95).st = .run ∧ s.clusterBusy 95 = false ∧ s.hasTadpole 95 = false) ∧
    (let s : State := { wIsland 96 .run 5 with gov := { Governor.reset with directs := [(96, .idle)] } }
     (s.island 96).st = .run ∧ (96, Island.idle) ∈ s.gov.directs) ∧
    (let s := wIsland 0 .idle 65536
     (s.island 0).st = .idle ∧ (s.island 0).since + 65536 ≤ s.time ∧ s.gov.retStep ≠ some (s.time / 4) ∧ s.ballastNow.left = 0) ∧
    (let s : State := { wIsland 127 .run 5 with gov := { Governor.reset with directs := [(127, .ret)] } }
     (s.island 127).st = .run ∧ (127, Island.ret) ∈ s.gov.directs ∧ s.gov.retStep ≠ some (s.time / 4) ∧ s.ballastNow.left = 0) ∧
    (let s : State := { wIsland 96 .idle 65535 with gov := { Governor.reset with wanted := [96], openAt := 65535 } }
     s.gov.openAt = s.time ∧ s.islandWanted 96 = true ∧ (s.island 96).st = .idle) ∧
    (let s : State := { wIsland 96 .ret 65535 with gov := { Governor.reset with level := 64, wanted := [96], openAt := 65535 } }
     s.gov.openAt = s.time ∧ s.islandWanted 96 = true ∧ (s.island 96).st = .ret ∧ s.gov.retStep ≠ some (s.time / 4) ∧ s.gov.loadNow + 64 ≤ s.gov.level ∧
       ∀ d, islandDie 96 = some d → s.gov.dieLoad d + 64 ≤ s.gov.dieCapOf d) ∧
    (let s := wIsland 0 .waking 0
     (s.island 0).st = .waking ∧ (s.island 0).since ≤ s.time) := by
  refine ⟨⟨rfl, by decide +kernel, by decide +kernel⟩, ⟨rfl, by decide⟩, ⟨rfl, by decide, by decide, by decide +kernel⟩,
    ⟨rfl, by decide, by decide, by decide +kernel⟩, ⟨by decide, by decide +kernel, rfl⟩,
    ⟨by decide, by decide +kernel, rfl, by decide, by decide, ?_⟩, rfl, by decide⟩
  intro d h
  obtain rfl : d = 0 := by simpa [islandDie] using h.symm
  decide

/-- Ramp registers that wait for a step boundary, and an operating point that lowers a clock. -/
theorem witness_boundary : let g : Governor := { Governor.reset with openAt := 1, points := [(3, 1000)] }
    let s : State := { State.reset with gov := g, pkg := { Pkg.reset with rampWrites := [(0x260, 0)] } }
    s.time % 4 = 0 ∧ s.pkg.rampWrites = [(0x260, 0)] ∧ s.openCycle.gov.points = [(3, 1000)] ∧ 1000 ≤ s.openCycle.applyRamp.clusterMhz 3 := by
  decide +kernel


/-! ### Witnesses: the host interface, contexts, power -/

/-- A package owned by master 1 that has named master 3 to take it, with nothing else. -/
def wHandover : State := { State.reset with pkg := { Pkg.reset with mown := 0x7000000000000000, ownerDownSince := some 0 }, cyc := 1000000000 }

theorem witness_claims : (∀ c ∈ ([(3, 3), (2, 2)] : List (Nat × DWord)), 1 ≤ c.1 ∧ c.1 ≤ 3 ∧ c.2.toNat = c.1) ∧ (∃ c ∈ ([(3, 3), (2, 2)] : List (Nat × DWord)), c.1 = 2) ∧
    (∀ c ∈ ([(3, 3), (2, 2)] : List (Nat × DWord)), 2 ≤ c.1) ∧ mownOwner State.reset = 0 ∧ mownOwner wHandover ≠ 0 := by decide

theorem witness_accept : (3 : DWord).toNat = 3 ∧ mownPend wHandover = 3 ∧ mownOwner wHandover ≠ 3 ∧ (2 : DWord).toNat ≠ 3 := by decide

theorem witness_vacancy : mownPend wHandover ≠ 0 ∧ wHandover.pkg.pendSince + 10 ^ 9 ≤ wHandover.time ∧ wHandover.pkg.ownerDownSince = some 0 ∧
    mownOwner wHandover ≠ 0 ∧ 0 + 10 ^ 9 ≤ wHandover.time := by decide +kernel

/-- The last port of channel 3 that is up, and its program. -/
theorem witness_ports : let s : State := { wRunning wProg with pkg := { Pkg.reset with portsUp := (List.range 64).map fun k => decide (k < 12 ∨ 15 ≤ k) } }
    (∀ i < 4, ((s.pkg.portsUp.set 15 false)[4 * (15 / 4) + i]?) = some false) ∧ ∀ p ∈ (s.chan (15 / 4)).progs, p.ch = 15 / 4 := by
  refine ⟨by decide, ?_⟩
  intro p hp
  rw [List.mem_singleton.mp (show p ∈ [wProg] from hp)]
  rfl

/-- Exponents at R224's limits, and beyond them. -/
theorem witness_lscfg : (let v : DWord := 0x0000000110181000; (-126 : Int) ≤ (v.extractLsb' 8 8).toInt ∧ (v.extractLsb' 8 8).toInt ≤ (v.extractLsb' 24 8).toInt ∧ (v.extractLsb' 24 8).toInt ≤ (v.extractLsb' 16 8).toInt) ∧
    (let v : DWord := 0x0000000110188100; ¬ ((-126 : Int) ≤ (v.extractLsb' 8 8).toInt)) := by decide

theorem witness_partitions : (∀ e ∈ ([] : SMap DWord), e.2.getLsbD 63 = false) ∧ ∀ e ∈ ([(0, 0x8000000000000000)] : SMap DWord), e.2.getLsbD 63 = true := by
  decide

/-- A command of a kind for a key slot or partition. -/
def wKeyCmd (kind n : Nat) : State :=
  { wOwned with pkg := { wOwned.pkg with keyBlock := [1, BitVec.ofNat 8 kind, BitVec.ofNat 8 n, BitVec.ofNat 8 (n / 256)] ++ List.replicate 252 0 } }

theorem witness_key_block : ∀ e ∈ ([(1, 511), (2, 63), (3, 511), (3, 512)] : List (Nat × Nat)), let s := wKeyCmd e.1 e.2
    ownedBy s 2 ∧ s.pkg.keyBlock.length = 256 ∧ s.pkg.keyIndex = e.2 ∧ s.pkg.keyKind = e.1 ∧ s.pkg.attBlock.length = 512 := by
  intro e he
  simp only [List.mem_cons, List.not_mem_nil, or_false] at he
  rcases he with rfl | rfl | rfl | rfl <;> exact ⟨⟨by decide, by decide⟩, by decide +kernel, by decide +kernel, by decide +kernel, by decide +kernel⟩

theorem witness_zeroise : let s : State := { wRunning wProg with pkg := { Pkg.reset with zeroing := [64 * 0 + 3] } }
    s.pkg.zeroing = [64 * 0 + 3] ∧ s.codeErrs = [] ∧ wProg ∈ s.progs ∧ wProg.ctx = 0 := ⟨rfl, rfl, by decide +kernel, rfl⟩

/-- A host interface that is up, with window 2 on context 0, whose page 0 can be read and written. -/
def wWindow : State :=
  { wMem wTeam with pkg := { Pkg.reset with memKeys := [0], win := [(2, 0x8000000000000000)] }, ctxs := [(0, { Ctx.reset with valid := true })] }

theorem witness_host_window : wWindow.pkg.hostUp = true ∧ 0x300000040 < 2 ^ 36 ∧ (SMap.get 0 wWindow.pkg.win (0x200000040 / 2 ^ 32)).toNat / 2 ^ 63 = 1 ∧
    (wWindow.ctx 0).valid = true ∧ (SMap.get 0 wWindow.pkg.win (0x300000040 / 2 ^ 32)).toNat / 2 ^ 63 = 0 :=
  ⟨rfl, by decide, by decide, rfl, by decide⟩

/-- Reads of a write-only register, and of the owner's register, by every master. -/
theorem witness_register_read : ∀ off ∈ [0x08_0008, 0x08_0010, 0x08_0000], ∀ m ∈ [1, 2, 3], wHandover.pkg.reaches m = true ∧
    (match exec (.hostWindowAccess false (2 ^ 36 + (m - 1) * 2 ^ 24 + off) 8 []) wHandover with
      | .next u => u.outbox == [.hostRead (2 ^ 36 + (m - 1) * 2 ^ 24 + off) (natLe 8 (if off = 0x08_0000 then 0x7000000000000000 else 0))]
      | _ => false) = true := by decide +kernel

/-- R449: the board controller reads that no firmware passes. -/
theorem witness_board : State.reset.pkg.boardUp = true ∧ (match exec (.hostWindowAccess false (2 ^ 36 + 3 * 2 ^ 24) 8 [])
      { State.reset with nvm := { Nvm.reset with banks := [] } } with
    | .next u => u.outbox == [.hostRead (2 ^ 36 + 3 * 2 ^ 24) (natLe 8 1)]
    | _ => false) = true := by decide +kernel

/-- An access that reads right words. -/
def cleanOk : SpRes → Bool
  | .ok _ _ false => true
  | _ => false

theorem clean_ok {x : SpRes} (h : cleanOk x = true) : ∃ g xs, x = .ok g xs false := by
  cases x with
  | ok g xs b => cases b <;> first | exact ⟨g, xs, rfl⟩ | cases h
  | _ => cases h

theorem witness_window_order : wWindow.registered wWindow.pkg.hostTag = true ∧
    ({ wWindow with revokes := [{ no := 99, core := 519, asid := 0, va := 4, by_ := 0 }] } : State).registered 100 = false := by decide +kernel

theorem witness_window_access : (∃ g xs, wWindow.spaceWrite (wWindow.ctx 0) 0 64 [1, 2] = .ok g xs false) ∧
    ∃ g xs, wWindow.spaceRead (Finder.engine 0 (wWindow.ctx 0).asid 0) (wWindow.ctx 0) 0 64 4 = .ok g xs false :=
  ⟨clean_ok (by decide +kernel), clean_ok (by decide +kernel)⟩

/-- A package of master 2 whose slot 63 has this `CTXCTL`, with window 15 enabled. -/
def wSlot63 (ctl : Nat) (t : Team) : State :=
  { wState t with pkg := { wOwned.pkg with win := [(15, 0x8000000000000000)], ctxctl := [(63, BitVec.ofNat 64 ctl)], img := [(63, 0x1000)] },
                  ctxs := [(63, { Ctx.reset with valid := true })] }

/-- A save command for window 15, and one for a window that is not enabled. -/
theorem witness_ctx_save : runsCtx (wSlot63 (2 ^ 63 + 2 ^ 57) wTeam) 63 ∧ ownedBy (wSlot63 (2 ^ 63 + 2 ^ 57) wTeam) 2 ∧
    (0x800000000000000F : DWord).getLsbD 63 = true ∧ windowOn (wSlot63 (2 ^ 63 + 2 ^ 57) wTeam) ((0x800000000000000F : DWord).toNat % 2 ^ 6) ∧
    ¬ windowOn (wSlot63 (2 ^ 63 + 2 ^ 57) wTeam) 14 ∧ ¬ windowOn (wSlot63 (2 ^ 63 + 2 ^ 57) wTeam) 16 := by
  refine ⟨⟨by decide, by decide, by decide, by decide⟩, ⟨by decide, by decide⟩, by decide, ⟨by decide, by decide⟩, ?_, ?_⟩
  · exact fun h => absurd h.2 (by decide)
  · exact fun h => absurd h.1 (by decide)

theorem witness_ctx_restore : let s := wSlot63 0 wTeam
    ctlV s 63 = 0 ∧ ctlSt s 63 = 0 ∧ 63 ∉ s.pkg.dying ∧ (15 : DWord).getLsbD 63 = false ∧ windowOn s ((15 : DWord).toNat % 2 ^ 6) :=
  ⟨by decide, by decide, by decide, by decide, by decide, by decide⟩

theorem witness_save_drains : let t : Team := { wTeam with ctx := 63 }
    let s := wSlot63 (2 ^ 63 + 2 * 2 ^ 57) t
    ctlSt s 63 = 2 ∧ s.team? t.uid = some t ∧ t.ctx = 63 ∧ t.res = .resident := ⟨by decide, rfl, rfl, rfl⟩

theorem witness_save_ends : let s := wSlot63 (2 ^ 63 + 2 * 2 ^ 57) { wTeam with ctx := 63, res := .evicted }
    ctlSt s 63 = 2 ∧ s.ctxBusy 63 = false ∧ (∀ t ∈ s.teams, t.ctx = 63 → t.res = .evicted) ∧ s.pend = [] ∧ SMap.find s.pkg.img 63 = some 0x1000 := by
  refine ⟨by decide, by decide +kernel, ?_, rfl, rfl⟩
  intro t ht _
  rw [List.mem_singleton.mp ht]

/-- A saved context of one team. -/
def wSaved : SavedCtx :=
  { ctx := { Ctx.reset with valid := true, tdepth := 5 }, teams := [{ wTeam with ctx := 63, res := .evicted, uid := 7 }], grids := [], bars := [], vault := [], gangs := [], rows := [],
    slots := [], tags := [], poison := [] }

theorem witness_restore_ends : let s : State := { wSlot63 (4 * 2 ^ 57) wTeam with saved := [(5, wSaved)] }
    ctlSt s 63 = 4 ∧ s.ctxBusy 63 = false ∧ (∀ t ∈ s.teams, t.ctx ≠ 63) ∧ (∀ g ∈ s.grids, g.ctx ≠ 63) ∧ SMap.find s.pkg.img 63 = some 0x1000 ∧
    s.imageAt 0x1000 = some wSaved ∧ s.imageFits wSaved = true := by
  refine ⟨by decide, by decide +kernel, ?_, fun _ h => absurd h List.not_mem_nil, rfl, by decide +kernel, by decide +kernel⟩
  intro t ht
  rw [List.mem_singleton.mp ht]
  decide

theorem witness_destroy_ends : let s : State := { wSlot63 (2 ^ 63 + 2 ^ 57) wTeam with pkg := { Pkg.reset with dying := [63] } }
    63 ∈ s.pkg.dying ∧ s.ctxBusy 63 = false ∧ s.pend = [] := ⟨by decide, by decide +kernel, rfl⟩

theorem witness_power : (∃ a b c d e, State.reset.nvm.saved = [a, b, c, d, e]) ∧ ({ State.reset with powered := false } : State).powered = false ∧
    State.reset.nvm.fwOk = true ∧ ({ State.reset with powered := false, nvm := { Nvm.reset with banks := [] } } : State).nvm.fwOk = false ∧
    ({ Nvm.reset with rollback := 1 } : Nvm).fwOk = false ∧ ({ Nvm.reset with identity := some 5 } : Nvm).identity = some 5 :=
  ⟨⟨_, _, _, _, _, rfl⟩, rfl, by decide, by decide, by decide, rfl⟩

/-- R449: the second bank runs where the first does not pass. -/
theorem test_second_bank : ({ Nvm.reset with banks := [{ code := 1, signer := some 9, version := 3 }, { code := 2, signer := some 0, version := 0 }] } :
    Nvm).running = some { code := 2, signer := some 0, version := 0 } := by decide

/-- R450: a record is reused within 20 mV and 10 °C by the key that signed it. -/
theorem test_record_reused : let r : TrainRec := { signer := some 7, vset := 720, temp := 550 }
    [r.usable (some 7) 740 650, r.usable (some 7) 741 550, r.usable (some 7) 720 651, r.usable (some 8) 720 550] = [true, false, false, false] := by decide

/-! ### Witnesses: decoding, stepping, the whole machine -/

theorem witness_status_word : Runs (wState wTeam) wTeam (.sCstat hx 202 15) := runs rfl rfl (by decide)

/-- A well-formed instruction with words after it. -/
theorem witness_encode : Instr.wf (.sBtab hx 0 0x0FFF (List.replicate 256 0x0FFF)) = true ∧ Instr.wf (.vAdd hs .s32 191 190 0) = true := by decide +kernel

/-- A team of a core whose segment holds these words. -/
def wSeg (ws : List Word) : State := { wCode wTeam with cores := [(0, { Core.reset with code := [(0, { wSlot with words := ws })] })], pick := [1] }

theorem wSeg_words (ws : List Word) (h : ws.length ≤ 130) : wordsAt { wSeg ws with pick := [] } wTeam ws := by
  refine ⟨rfl, rfl, 0, { wSlot with words := ws }, rfl, ?_⟩
  show ws = List.take 130 ws
  rw [List.take_of_length_le h]

/-- An answer with a next state that passes a test. -/
def nextAny (p : State → Bool) : Out State → Bool
  | .next u => p u
  | _ => false

theorem next_any {x : Out State} {p : State → Bool} (h : nextAny p x = true) : ∃ u, x = .next u ∧ p u = true := by
  cases x with
  | next u => exact ⟨u, rfl, h⟩
  | _ => cases h

/-- `s.nop` after which its team has gone on. -/
theorem witness_step : let s := wSeg [0x95000000]
    s.pick = 1 :: [] ∧ s.team? 1 = some wTeam ∧ wordsAt { s with pick := [] } wTeam [0x95000000] ∧ decode [0x95000000] = some (.sNop hs, []) ∧
    Instr.legal wTeam wTeam.pc (.sNop hs) = true ∧ Instr.isPriv (.sNop hs) = false ∧ ({ s with pick := [] } : State).afford wTeam (.sNop hs) = .pays ∧
    ∃ u, exec (.sNop hs) { (({ s with pick := [] } : State).payFor wTeam (.sNop hs)).issued wTeam with cur := some 1 } = .next u ∧ progressed wTeam u = true :=
  ⟨rfl, rfl, wSeg_words _ (by decide), by decide, by decide, rfl, by decide +kernel, next_any (by decide +kernel)⟩

/-- A word that its core cannot pay for, one whose debt would be too large, and a fenced jump that misses. -/
theorem witness_step_unpaid : let s : State := { wSeg [0x95000000] with pick := [] }
    let c : Core := { (s.core 0) with bal := 0 }
    ({ s with cores := [(0, c)] } : State).afford wTeam (.sNop hs) = .held ∧
    ({ s with cores := [(0, { c with tkcore := 0 })] } : State).afford wTeam (.sNop hs) = .overflow ∧
    s.jumpMisses wTeam (.sNop hs) = false ∧ (wCode wJump).jumpMisses wJump (.sJmpf hs 0x6000) = true :=
  ⟨by decide +kernel, by decide +kernel, rfl, by decide +kernel⟩

/-- A read of `MXCFG` by a team that may not read it. -/
theorem witness_step_privilege : decode (encode (.sCsrr hx 202 0x212)) = some (.sCsrr hx 202 0x212, []) ∧ Instr.isPriv (.sCsrr hx 202 0x212) = true ∧
    ({ wTeam with tcw := 0 } : Team).privileged = false ∧
    ∃ u, exec (.sCsrr hx 202 0x212) { wState { wTeam with tcw := 0 } with cur := some 1 } = .next u ∧ u.cyc = 0 := by
  refine ⟨by decide, by decide, by decide, ?_⟩
  obtain ⟨u, h, hc⟩ := next_any (x := exec (.sCsrr hx 202 0x212) { wState { wTeam with tcw := 0 } with cur := some 1 }) (p := fun u => u.cyc == 0) (by decide +kernel)
  exact ⟨u, h, by simpa using hc⟩

theorem witness_step_illegal : ∀ w ∈ ([0x3F000000, 0xFFFFFFFF, 0xBE030000] : List Word), wordsAt { wSeg [w] with pick := [] } wTeam [w] ∧ decode [w] = none := by
  intro w hw
  refine ⟨wSeg_words _ (by simp), ?_⟩
  simp only [List.mem_cons, List.not_mem_nil, or_false] at hw
  rcases hw with rfl | rfl | rfl <;> decide

/-- An input that waits to be taken, and none. -/
theorem witness_inputs : let s : State := { State.reset with inputs := [.hostLinkDown] }
    s.pick = [] ∧ s.nextInput = some (.hostLinkDown, []) ∧ State.reset.nextInput = none ∧
    ∃ u, exec .hostLinkDown { s with inputs := [] } = .next u ∧ u.inputWaits .hostLinkDown = false := by
  refine ⟨rfl, by decide +kernel, rfl, ?_⟩
  obtain ⟨u, h, _⟩ := next_any (x := exec .hostLinkDown { ({ State.reset with inputs := [.hostLinkDown] } : State) with inputs := [] }) (p := fun _ => true)
    (by decide +kernel)
  exact ⟨u, h, rfl⟩

theorem witness_canonical : Memory.wf State.reset.mem = true ∧ ∃ u, step State.reset = .next u := by
  refine ⟨by decide, ?_⟩
  obtain ⟨u, h, _⟩ := next_any (x := step State.reset) (p := fun _ => true) (by decide +kernel)
  exact ⟨u, h⟩

/-- The premises of the frames: a word of each kind of table, and the state that it answers. -/
theorem witness_frames : (∃ r, laneArithmetic (.vAdd hx .s8 9 3 3) = some r ∧ Runs (wState wTeam) wTeam (.vAdd hx .s8 9 3 3) ∧ r.codesGood wTeam) ∧
    (∃ r, uniformArithmetic (.sAdd hx .s32 202 192 193) = some r ∧ Runs (wState wTeam) wTeam (.sAdd hx .s32 202 192 193) ∧ r.codesGood wTeam) ∧
    wTeam.lanes ≤ 1024 ∧ (∃ u, exec (.vAdd hx .s8 9 3 3) (wState wTeam) = .next u) ∧ ∃ u, exec (.sAdd hx .s32 202 192 193) (wState wTeam) = .next u := by
  refine ⟨⟨_, rfl, runs rfl rfl (by decide), lanesGood_of wTeam_good _ _, fun _ _ => rfl⟩, ⟨_, rfl, runs rfl rfl (by decide), groupsGood_wTeam _ _, fun _ _ => rfl⟩, by decide, ?_, ?_⟩
  · obtain ⟨u, h, _⟩ := next_any (x := exec (.vAdd hx .s8 9 3 3) (wState wTeam)) (p := fun _ => true) (by decide +kernel)
    exact ⟨u, h⟩
  · obtain ⟨u, h, _⟩ := next_any (x := exec (.sAdd hx .s32 202 192 193) (wState wTeam)) (p := fun _ => true) (by decide +kernel)
    exact ⟨u, h⟩

/-! ### Ill-formed terms that the checks refuse -/

/-- A memory form of the global space without hint. -/
def mPlain : MemF := { sp := false, ix := false, sc := 0, q := false, hint := 0 }

/-- HINT 3, and a hint on a vault access (R262). -/
theorem test_wf_hint : Instr.wf (.vLd hx .b32 9 2 0 0 { mPlain with hint := 3 }) = false ∧ Instr.wf (.vLd hx .b32 9 2 0 0 { mPlain with sp := true, hint := 1 }) = false ∧
    Instr.wf (.vLd hx .b32 9 2 0 0 mPlain) = true := by decide

/-- `v.ldr` of a vault (R264). -/
theorem test_wf_ldr : Instr.wf (.vLdr hx .b32 9 2 0 0 { mPlain with sp := true } 4) = false ∧ Instr.wf (.vLdr hx .b32 9 2 0 0 mPlain 4) = true := by decide

/-- `v.pf` of a vault, with Q, with LEVEL 3 (R264, R269). -/
theorem test_wf_pf : Instr.wf (.vPf hx 2 0 0 { mPlain with sp := true }) = false ∧ Instr.wf (.vPf hx 2 0 0 { mPlain with q := true }) = false ∧
    Instr.wf (.vPf hx 2 0 0 { mPlain with hint := 3 }) = false ∧ Instr.wf (.vPf hx 2 0 0 mPlain) = true := by decide

/-- Q with a type that is not 64 bits wide, and an index without IX (R262, R264). -/
theorem test_wf_forms : Instr.wf (.vSt hx .b32 9 2 0 0 { mPlain with q := true }) = false ∧ Instr.wf (.vSt hx .b32 9 2 1 0 mPlain) = false := by decide

/-- A guard on a short word (R77). -/
theorem test_wf_short_guard : Instr.wf (.vAdd { hs with g := 1 } .s32 9 3 3) = false ∧ Instr.wf (.vAdd hs .s32 9 3 3) = true := by decide

/-- A lookahead count on a word that is not long-latency (R76). -/
theorem test_wf_la : Instr.wf (.vAdd { hx with la := 1 } .s32 9 3 3) = false ∧ Instr.wf (.sAdd { hx with la := 1 } .s32 202 192 193) = false ∧
    Instr.wf (.pgProbe { hx with la := 1 } 201 196) = true := by decide

/-- A uniform guard above q7 (R74). -/
theorem test_wf_uniform_guard : Instr.wf (.sAdd { hx with g := 8 } .s32 202 192 193) = false ∧ Instr.wf (.pgProbe { hx with g := 8 } 201 196) = false ∧
    Instr.wf (.sAdd { hx with g := 7 } .s32 202 192 193) = true := by decide

/-- Types that a row does not accept, and a short word of another type than its short one (R71, R77). -/
theorem test_wf_types : Instr.wf (.sAdd hx .b32 202 192 193) = false ∧ Instr.wf (.vFadd hx .s32 9 3 3) = false ∧ Instr.wf (.vAdd hs .s8 9 3 3) = false ∧
    Instr.wf (.vAtom hx .fadd .s32 5 8 6 0 false) = false ∧ Instr.wf (.vDot4 hx .s16 .s8 7 3 4 6) = false := by decide

/-- The loop register 62, and target lists of no and of 257 entries (R103, R105). -/
theorem test_wf_control : Instr.wf (.sLoop hx 62 0 0) = false ∧ Instr.wf (.sBtab hx 1 0 []) = false ∧ Instr.wf (.sBtab hx 1 0 (List.replicate 257 0)) = false ∧
    Instr.wf (.sBtab hs 1 0 [0]) = false ∧ Instr.wf (.sBtab hx 1 0 [0]) = true := by decide +kernel

/-- `s.rth` has no long form; an event is no word. -/
theorem test_wf_events : Instr.wf (.sRth hx) = false ∧ Instr.wf .rampStep = false ∧ Instr.wf (.coldBoot 0 [] []) = false := by decide

/-! ### Words written out from the spec's encodings -/

/-- These words decode to these instructions and to nothing more. -/
def decodes (l : List (List Word × Instr)) : Bool := l.all fun e => decode e.1 == some (e.2, [])

/-- A guard and a lookahead count on a long word. -/
def hg (g la : BitVec 4) : Hdr := { hx with g := g, la := la }

/-- The listing of the sequencer chapter. -/
theorem test_decode_control : decodes
    [([0xD0100203, 0x00000A00], .sBr hx (.p false 3) 4 10), ([0x90000380], .sJmp hs 7 0), ([0xD3010100, 0x00000600, 0x00090007], .sBtab hx 1 6 [7, 9]),
     ([0x94000000], .sExit hs), ([0x95000000], .sNop hs), ([0xDB000000, 0x20030000], .sFenceSc (hg 2 0)), ([0x9B000000], .sFenceAcq hs)] = true := by decide

theorem test_decode_uniform : decodes [([0x87C2C201], .sAddi hs .s32 194 194 1)] = true := by decide

theorem test_decode_system : decodes
    [([0xFCC4C603, 0x01800000], .sCfetch (hg 0 3) 196 198 3), ([0xBD005000], .sJmpf hs 0x5000), ([0xBE000005], .sTrap hs 5), ([0xBE010000], .sBrk hs 0),
     ([0xBE020000], .sRth hs)] = true := by decide

theorem test_decode_float : decodes
    [([0x56100C19, 0x0000100A], .vFma hx .f32 16 12 25 16), ([0x57181800, 0x2002000A], .vFneg (hg 2 0) .f32 24 24),
     ([0x5F180500, 0x0004000A], .vFsincos hx 24 5), ([0x620B0A00, 0x0003020D], .vXswz hx .b32 11 10 2)] = true := by decide

theorem test_decode_check : decodes
    [([0x36050900], .ckRes hs 5 9), ([0x761414C3, 0x0002000D], .ckInjr hx 20 20 195), ([0x37280200], .ckMcrd hs 40 2),
     ([0x77000800, 0x01030000], .ckInjmGUe (hg 0 2) 8)] = true := by decide

theorem test_decode_memory : decodes
    [([0x6C0A0200, 0x0000100D], .vLd hx .b32 10 2 0 0x10 mPlain), ([0x6E0A0800, 0x0000004D], .vLdr hx .b32 10 8 0 0 mPlain 4),
     ([0x70050806, 0x2080009A], .vAtom (hg 2 1) .fadd .f32 5 8 6 0 false), ([0x72050806, 0x0000000D], .vCas hx .b32 5 8 6 0 false)] = true := by decide

theorem test_decode_dispatch : decodes
    [([0xF8C500C8, 0x00010000], .dpQstat hx 197 200), ([0xB9C2CA00], .dpTadd hs 194 202), ([0xF9C2C700, 0x00010000], .dpTdrop hx 194 199),
     ([0xF9C30000, 0x00020000], .dpTdepth hx 195), ([0xBA000000], .dpLsovf hs), ([0xFA000000, 0x00010000], .dpLsstep hx)] = true := by decide

theorem test_decode_page : decodes
    [([0xB0C8C400], .pgReq hs 200 196), ([0xB1C2C6C5], .pgShoot hs 194 198 197), ([0xB2C3C6C7], .pgMig hs 195 198 199),
     ([0xF3CAC600, 0x00000000], .pgCnt hx 202 198)] = true := by decide

theorem test_decode_matrix : decodes
    [([0xA0D4D5D6], .mxGang hs 212 213 214), ([0xE0000000, 0x00010000], .mxFree hx), ([0xE2D9CECA, 0x0001CD00], .mxMma hx 217 206 202 205 true false false),
     ([0xE3DCC500, 0x0000C600], .mxZero hx 220 197 198), ([0xE4DBD000, 0x0004C60A], .mxLd hx .f32 219 208 198 false true),
     ([0xE5DAD000, 0x000ACF00], .mxSt hx 218 208 207 false true false true)] = true := by decide

theorem test_decode_copy : decodes
    [([0xACC4C6C7], .cpCopy hs 196 198 199 false false), ([0xEDC5C8C9, 0x0002CC00], .cpMcast hx 197 200 201 204 false true),
     ([0xEECAD4D5, 0x0001D600], .cpOff hx 202 212 213 214 true false), ([0xEECBD7D8, 0x000AD600], .cpRet hx 203 215 216 214 false true),
     ([0xAFC6C400], .cpProm hs 198 196), ([0xEFC6C400, 0x00010000], .cpRenew hx 198 196), ([0xEFC7C400, 0x00020000], .cpCncl hx 199 196)] = true := by decide

theorem test_decode_sampling : decodes
    [([0xE8D8E0E2, 0x0000E400], .saOpen hx 216 224 226 228), ([0xE9D9E6DF, 0x00040000], .saNorm hx 217 230 223 true),
     ([0xA9D9E6DF], .saNorm hs 217 230 223 false), ([0xE9DAE6E8, 0x0001EC00], .saBuild hx 218 230 232 236), ([0xEADCEA00, 0x00010000], .saFin hx 220 234),
     ([0xEBF0EB00, 0x00800000], .saStat (hg 0 1) 240 235), ([0xE8DDEA00, 0x00010000], .saClose hx 221 234)] = true := by decide

theorem test_decode_collective : decodes
    [([0xF4D4C0C2, 0x00030000], .clRun hx 212 192 194 true true), ([0xB5C7C400], .clCncl hs 199 196), ([0xF6C8D500, 0x00000000], .clInfo hx 200 213),
     ([0xF6C9D400, 0x01010000], .clProg (hg 0 2) 201 212), ([0xB7C3C600], .clAbort hs 195 198)] = true := by decide

theorem test_decode_metering : decodes
    [([0xBBC4C600], .tkPrice hs 196 198), ([0xFB00DA00, 0x00010000], .tkWait hx 218), ([0xFBC5C700, 0x00020000], .tkDbal hx 197 199),
     ([0xFBC9C800, 0x00040000], .tkIcncl hx 201 200)] = true := by decide

/-- R79: the padding word, the word of ones, a reserved opcode and a reserved field decode to nothing. -/
theorem test_decode_illegal : decode [0x3F000000] = none ∧ decode [0xFFFFFFFF] = none ∧ decode [0xBE030000] = none ∧ decode [0xE6000000, 0] = none := by decide

/-- The second word of a long word must be there. -/
theorem test_decode_short : decode [0x40090303] = none ∧ decode [] = none := by decide

/-! ### Values of the spec's examples -/

/-- A team whose lane 0 (and whose group 0) holds these registers. -/
def withV (vs ss : List (Nat × Nat)) : Team := { withS ss with v := vs.map fun e => (e.1 * 1024, RWord.ofNat e.2) }

/-- Lane `l`'s register `r` after an instruction. -/
def lane (t : Team) (i : Instr) (r l : Nat) : Option Nat :=
  match exec i (wState t) with
  | .next s => (s.team? t.uid).map fun u => (u.vGet r l).val.toNat
  | _ => none

/-- The integer chapter's example. -/
def wInts : Team := withV [(3, 0x05FD7F80), (4, 0x0202FF01), (6, 100)] [(4, 0), (5, 16)]

theorem test_value_bytes : lane wInts (.vAdd hx .s8 9 3 3) 9 0 = some 0x0AFAFE00 ∧ lane wInts (.vAdds hx .s8 8 3 3) 8 0 = some 0x0AFA7F80 := by decide +kernel

theorem test_value_dot4 : lane wInts (.vDot4 hx .s8 .s8 7 3 4 6) 7 0 = some 0xFFFFFF69 := by decide +kernel

theorem test_value_lea : let t := withV [(7, 0xFFFFFF69)] [(4, 0), (5, 16)]
    lane t (.vLea hx .s32 10 196 7 2) 10 0 = some 0xFFFFFDA4 ∧ lane t (.vLea hx .s32 10 196 7 2) 11 0 = some 0x0F := by decide +kernel

/-- R169: 2.5 gives 2 under RNE, 3.0e9 gives the largest integer. -/
theorem test_value_ftoi : let t := withV [(3, 0x40200000), (4, 0x4F32D05E)] []
    lane t (.vFtoi hx .s32 .f32 9 3 0) 9 0 = some 2 ∧ lane t (.vFtoi hx .s32 .f32 9 4 0) 9 0 = some 0x7FFFFFFF := by decide +kernel

/-- R164: −(1·1) + 1 is +0 under RNE. -/
theorem test_value_fnma : let t := withV [(3, 0x3F800000)] []
    lane t (.vFnma hx .f32 9 3 3 3) 9 0 = some 0 := by decide +kernel

/-- The check engine's example: the injected failure of lane 37 under DROP. -/
def wInjected : Team :=
  { wTeam with lanes := 64, lin := 7, home := 5, asid := 0x1A, ckinj := 0xC0800025, v := [(3 * 1024 + 37, RWord.ofNat 0x100)],
               stack := [({ wTeam.top with pc := 0x0212, mask := fullMask 64 } : PathEntry)] }

/-- The words of a core's first record after an instruction. -/
def record (t : Team) (i : Instr) : Option (List Nat) :=
  match exec i (wState t) with
  | .next s => some (((s.core t.home).mcrec.headD (0, McRec.reset)).2.words.map BitVec.toNat)
  | _ => none

theorem test_value_failed_lane : lane wInjected (.vAdd hs .s32 9 3 3) 9 37 = some 0 ∧
    (record wInjected (.vAdd hs .s32 9 3 3)).map (fun ws => [ws[0]?, ws[2]?, ws[3]?, ws[4]?]) =
      some [some 0x8100001A00050212, some 0x0009030300000007, some 0x0000000000210103, some 0x0000000200000020] := by decide +kernel

theorem test_value_failed_lane_stops : (record { wInjected with tcw := 0x2000 ||| wInjected.tcw } (.vAdd hs .s32 9 3 3)).map (fun ws => ws[0]?) =
    some (some 0x8200001A00050212) := by decide +kernel

/-- The dispatch chapter's example: three steps close. -/
def wStepCtx (skip scale : Word) : Ctx := { Ctx.reset with lscfg := 0x0000000200180000, lskip := skip, lscale := scale }

/-- `LSKIP` and `LSCALE` after `dp.lsstep`. -/
def closed (c : Ctx) : Option (Word × Word) :=
  match exec (.dpLsstep hx) { wState wTeam with ctxs := [(0, c)] } with
  | .next s => some ((s.ctx 0).lskip, (s.ctx 0).lscale)
  | _ => none

theorem test_value_steps : closed (wStepCtx 0x40000001 0x47800000) = some (0x80010000, 0x47000000) ∧
    closed (wStepCtx 0x80010000 0x47000000) = some (0x00010001, 0x47000000) ∧
    closed (wStepCtx 0x00010001 0x47000000) = some (0x00010000, 0x47800000) := by decide +kernel

/-- Reset memory holds the canonical form. -/
theorem test_reset_memory : Memory.wf State.reset.mem = true := by decide

/-! ### Behaviour of memory and of the sequencer -/

/-- A team of one lane with this address, and 77 in `s2`. -/
def oneLane (va : Nat) : Team :=
  { withS [(0, va), (2, 77)] with lanes := 1, stack := [({ wTeam.top with mask := 1 } : PathEntry)] }

/-- A load of the first word of a page of device 7. -/
def wPeer : State := wPage (oneLane (3 * 2 ^ 19))

/-- What an instruction leaves, if it answers a next state, with the team free to go on. -/
def left (i : Instr) (s : State) : State :=
  match exec i s with
  | .next u => u.modTeam 1 fun t => { t with hold := .free }
  | _ => s

/-- The home answers the request with this number. -/
def answered (op : RemoteOp) (tag : Nat) (s : State) : State :=
  s.arriveRemote { part := 3, peer := 7, core := 0, va := 3 * 2 ^ 19, op := op, hops := 0, tag := tag }

/-- R242: the home of the page is asked for the block and the loaded word is of the bytes that it sends. -/
theorem test_peer_load : let ld := Instr.vLd hx .b32 9 192 0 0 mPlain
    let s := left ld wPeer
    let u := left ld (answered (.data ((List.range 64).map fun i => BitVec.ofNat 8 (i + 1))) 100 s)
    s.outbox = [.request 7 { part := 3, peer := 0, core := 0, va := 1572864, op := .load 64, hops := 1, tag := 100 }] ∧
    (s.team? 1).map (fun t => t.pc) = some 0 ∧ (u.team? 1).map (fun t => (t.pc, (t.vGet 9 0).val)) = some (2, 0x04030201) := by decide +kernel

/-- The machine whose question about the block has been answered, with the team at its load again. -/
def wAnswered : State :=
  { answered (.data ((List.range 64).map fun i => BitVec.ofNat 8 (i + 1))) 100 (left (.vLd hx .b32 9 192 0 0 mPlain) wPeer) with cur := some 1 }

/-- The first word of page 3 at its home, device 7. -/
def peerAt (_ : Nat) : Nat × Nat × Option Leaf := (1210991854950884646060032, 1572864, some { wLeaf with mode := 2, peer := 7, frame := 0 })

/-- A question has been answered with bytes. -/
def hasBytes (a : Option RemAsk) : Bool := a.any fun a => match a.ans with | some (.bytes _) => true | _ => false

theorem has_bytes {a : Option RemAsk} (h : hasBytes a = true) : ∃ x bs, a = some x ∧ x.ans = some (.bytes bs) := by
  obtain ⟨x, h1, h2⟩ := any_some h
  split at h2
  · exact ⟨x, _, h1, ‹_›⟩
  · cases h2

theorem reaches_asked {s : State} {t : Team} {h : Hdr} {acc : Acc} {m : MemForm} {extra : LaneAcc → LaneAcc} {at_ : Nat → Nat × Nat × Option Leaf}
    (H : ∀ l ∈ t.lanesFor h, extra (s.laneAccess t l acc m.vt m.size (m.addr t l)) = .ok (at_ l).1 (at_ l).2.1 (at_ l).2.2 ∧
      (s.laneNeed t acc m.size (l, .ok (at_ l).1 (at_ l).2.1 (at_ l).2.2)).all (fun n => hasBytes (s.asked t.uid n.2.2.1 n.2.2.2)) = true) :
    reaches s t h acc m extra at_ := by
  intro l hl
  refine ⟨(H l hl).1, fun n hn => has_bytes ?_⟩
  have := (H l hl).2
  rw [hn] at this
  simpa using this

/-- R242: a load of another device's page whose home has answered. -/
theorem witness_load_peer : let t := ((wAnswered.team? 1).getD wTeam)
    isLoad (.vLd hx .b32 9 192 0 0 mPlain) hx .b32 9 (MemForm.of 192 0 0 mPlain 4) mPlain none ∧
    Runs wAnswered t (.vLd hx .b32 9 192 0 0 mPlain) ∧ allGood t ∧ Quiet wAnswered ∧
    reaches wAnswered t hx .read (MemForm.of 192 0 0 mPlain 4) id peerAt ∧ copiesAgree wAnswered t hx 4 peerAt ∧ peerHome (peerAt 0).1 = true := by
  refine ⟨.inl ⟨_, _, _, rfl, rfl, rfl⟩, runs (by decide +kernel) (by decide +kernel) (by decide +kernel),
    allGood_of (by decide +kernel) (by decide +kernel), ⟨by decide +kernel, by decide +kernel, by decide +kernel⟩, ?_, ?_, by decide +kernel⟩
  · exact reaches_asked (by decide +kernel)
  · intro l hl lf _ _
    exact (show ∀ l ∈ (((wAnswered.team? 1).getD wTeam).lanesFor hx),
      (∀ k ∈ ((wAnswered.team? 1).getD wTeam).cores, differs wAnswered.l1 (fun o => o.val) (l1Key k ((wAnswered.team? 1).getD wTeam).asid (peerAt l).2.1)
        (seenBytes wAnswered ((wAnswered.team? 1).getD wTeam) l 4 (peerAt l)) = false) ∧
      differs wAnswered.remote id (spaceKey ((wAnswered.team? 1).getD wTeam).asid (peerAt l).2.1)
        (seenBytes wAnswered ((wAnswered.team? 1).getD wTeam) l 4 (peerAt l)) = false from by decide +kernel) l hl

/-- A load of another device's page that pays and waits for its home. -/
theorem witness_step_waits : let t := oneLane (3 * 2 ^ 19)
    let i := Instr.vLd hx .b32 9 192 0 0 mPlain
    let s : State := { wPage t with cores := [(0, { Core.reset with code := [(0, { wSlot with words := encode i })] })] }
    wordsAt s t (encode i) ∧ decode (encode i) = some (i, []) ∧ Instr.legal t t.pc i = true ∧ Instr.isPriv i = false ∧ s.jumpMisses t i = false ∧
    s.afford t i = .pays ∧ (∃ u, exec i { (s.payFor t i).issued t with cur := some 1 } = .next u ∧ progressed t u = false) ∧
    ∃ w, exec i { s with cur := some 1 } = .next w := by
  refine ⟨⟨rfl, rfl, 0, _, rfl, rfl⟩, by decide, by decide, rfl, rfl, by decide +kernel, ?_, ?_⟩
  · obtain ⟨u, h, hp⟩ := next_any (p := fun u => !progressed (oneLane (3 * 2 ^ 19)) u) (x := exec (.vLd hx .b32 9 192 0 0 mPlain)
      { (({ wPage (oneLane (3 * 2 ^ 19)) with cores := [(0, { Core.reset with code := [(0, { wSlot with words := encode (.vLd hx .b32 9 192 0 0 mPlain) })] })] } : State).payFor
          (oneLane (3 * 2 ^ 19)) (.vLd hx .b32 9 192 0 0 mPlain)).issued (oneLane (3 * 2 ^ 19)) with cur := some 1 }) (by decide +kernel)
    exact ⟨u, h, by simpa using hp⟩
  · obtain ⟨u, h, _⟩ := next_any (p := fun _ => true) (x := exec (.vLd hx .b32 9 192 0 0 mPlain)
      { ({ wPage (oneLane (3 * 2 ^ 19)) with cores := [(0, { Core.reset with code := [(0, { wSlot with words := encode (.vLd hx .b32 9 192 0 0 mPlain) })] })] } : State)
          with cur := some 1 }) (by decide +kernel)
    exact ⟨u, h⟩

/-- R243, R265: a refused request is PAGE: the team, which has no handler, ends. -/
theorem test_peer_refused : let ld := Instr.vLd hx .b32 9 192 0 0 mPlain
    ((left ld (answered (.refused .page) 100 (left ld wPeer))).team? 1).isSome = false := by decide +kernel

/-- R270, R279: a prefetch beside the team's own store changes nothing that its load reads. -/
theorem test_prefetch_reads : let s := left (.vSt hx .b32 194 192 0 0 mPlain) (wPage (oneLane 0))
    let u := left (.vLd hx .b32 9 192 0 0 mPlain) (left (.vPf hx 192 0 0 { mPlain with hint := 0 }) s)
    (u.team? 1).map (fun t => (t.vGet 9 0).val) = some 77 := by decide +kernel

/-- R69: a team that completes the instruction ending at word 4,095 stops. -/
theorem test_segment_end : let t : Nat → Team := fun pc => { wTeam with stack := [({ wTeam.top with pc := BitVec.ofNat 16 pc } : PathEntry)] }
    ((left (.sNop hs) (wState (t 0x0FFF))).team? 1).isSome = false ∧ ((left (.sNop hs) (wState (t 0x0FFE))).team? 1).map (fun t => t.pc) = some 0x0FFF := by
  decide +kernel

end Sys2Proof.Tests
end

section
/-! SUPPORT. What an answer of the model says of memory, and folds of updates. From here on, `f_mem` says that `f` leaves memory as it
was, and `f_wf` that it keeps memory's canonical form: one such lemma per function of the model, in the model's order. -/

namespace Sys2Proof.Machine

open Sys2Proof

/-- The state that an instruction word leaves. -/
def Res.state : Res → State
  | .done s => s
  | .jump s => s
  | .hold s => s
  | .stop _ s => s

@[simp] theorem Res.state_done (s : State) : (Res.done s).state = s := by rfl

@[simp] theorem Res.state_jump (s : State) : (Res.jump s).state = s := by rfl

@[simp] theorem Res.state_hold (s : State) : (Res.hold s).state = s := by rfl

@[simp] theorem Res.state_stop (st : Stop) (s : State) : (Res.stop st s).state = s := by rfl

/-- The next state, if there is one, has its memory in canonical form. -/
def Out.MemWf : Out State → Prop
  | .next s => Memory.wf s.mem = true
  | _ => True

@[simp] theorem Out.memWf_next (s : State) : Out.MemWf (.next s) ↔ Memory.wf s.mem = true := Iff.rfl

theorem Out.MemWf.next {x : Out State} {s : State} (hx : x.MemWf) (h : x = .next s) : Memory.wf s.mem = true := by
  subst h
  exact hx

/-! ### Choices and folds -/

@[simp] theorem State.mem_ite (c : Prop) [Decidable c] (a b : State) : (if c then a else b).mem = if c then a.mem else b.mem :=
  apply_ite State.mem c a b

@[simp] theorem Memory.wf_ite (c : Prop) [Decidable c] (a b : List Host.Cell) :
    Memory.wf (if c then a else b) = if c then Memory.wf a else Memory.wf b :=
  apply_ite Memory.wf c a b

theorem Memory.wf_of_ite {c : Prop} [Decidable c] {a b : State} (ha : Memory.wf a.mem = true) (hb : Memory.wf b.mem = true) :
    Memory.wf (if c then a else b).mem = true := by
  split
  · exact ha
  · exact hb

/-- A fold of updates that leave memory alone leaves memory alone. -/
@[simp] theorem State.mem_foldl {α : Type} {f : State → α → State} (hf : ∀ s x, (f s x).mem = s.mem) (l : List α) (s : State) :
    (l.foldl f s).mem = s.mem := by
  induction l generalizing s with
  | nil => rfl
  | cons x l ih => rw [List.foldl_cons, ih, hf]

/-- The same for a fold that gathers a second value beside the state. -/
@[simp] theorem State.mem_foldl_fst {α β : Type} {f : State × β → α → State × β} (hf : ∀ r x, (f r x).1.mem = r.1.mem) (l : List α)
    (r : State × β) : (l.foldl f r).1.mem = r.1.mem := by
  induction l generalizing r with
  | nil => rfl
  | cons x l ih => rw [List.foldl_cons, ih, hf]

/-- A fold of updates that keep the canonical form for the items of the list keeps it. -/
theorem Memory.wf_foldl_mem {α : Type} {f : State → α → State} {l : List α}
    (hf : ∀ x ∈ l, ∀ s, Memory.wf s.mem = true → Memory.wf (f s x).mem = true) {s : State} (h : Memory.wf s.mem = true) :
    Memory.wf (l.foldl f s).mem = true := by
  induction l generalizing s with
  | nil => exact h
  | cons x l ih => exact ih (fun y hy => hf y (List.mem_cons_of_mem x hy)) (hf x List.mem_cons_self s h)

/-- A fold of updates that keep the canonical form keeps it. -/
theorem Memory.wf_foldl {α : Type} {f : State → α → State} (hf : ∀ s x, Memory.wf s.mem = true → Memory.wf (f s x).mem = true)
    (l : List α) {s : State} (h : Memory.wf s.mem = true) : Memory.wf (l.foldl f s).mem = true :=
  Memory.wf_foldl_mem (fun x _ s => hf s x) h

/-- The same for a fold that gathers a second value beside the state. -/
theorem Memory.wf_foldl_fst {α β : Type} {f : State × β → α → State × β}
    (hf : ∀ r x, Memory.wf r.1.mem = true → Memory.wf (f r x).1.mem = true) (l : List α) {r : State × β} (h : Memory.wf r.1.mem = true) :
    Memory.wf (l.foldl f r).1.mem = true := by
  induction l generalizing r with
  | nil => exact h
  | cons x l ih => exact ih (hf r x h)

/-- Leaving out entries keeps the keys rising. -/
theorem SMap.wfFrom_filter {α : Type} (p : Nat × α → Bool) : ∀ (m : SMap α) (lo : Option Nat), SMap.wfFrom lo m = true →
    SMap.wfFrom lo (m.filter p) = true
  | [], _, h => h
  | (k, w) :: m, lo, h => by
    rw [SMap.wfFrom_cons, Bool.and_eq_true] at h
    have ih := SMap.wfFrom_filter p m (some k) h.2
    by_cases hp : p (k, w) = true
    · rw [List.filter_cons_of_pos hp, SMap.wfFrom_cons, h.1, ih]
      rfl
    · rw [List.filter_cons_of_neg hp]
      exact SMap.wfFrom_weaken h.1 ih

/-- Leaving out cells keeps the canonical form. -/
theorem Memory.wf_filter (p : Host.Cell → Bool) {m : List Host.Cell} (h : Memory.wf m = true) : Memory.wf (m.filter p) = true := by
  obtain ⟨hk, hv⟩ := Bool.and_eq_true_iff.mp h
  refine Bool.and_eq_true_iff.mpr ⟨SMap.wfFrom_filter p m none hk, List.all_eq_true.mpr fun e he => ?_⟩
  exact List.all_eq_true.mp hv e (List.mem_of_mem_filter he)

/-- Writing cells one by one keeps the canonical form. -/
theorem Memory.wf_foldl_set (cs : List Host.Cell) {m : List Host.Cell} (h : Memory.wf m = true) :
    Memory.wf (cs.foldl (fun m c => SMap.set 0 m c.1 c.2) m) = true := by
  induction cs generalizing m with
  | nil => exact h
  | cons c cs ih => exact ih (SMap.wf_set 0 m c.1 c.2 h)

/-- A state that may be replaced by one with the same memory. -/
theorem State.mem_getD {o : Option State} {s : State} (h : ∀ s', o = some s' → s'.mem = s.mem) : (o.getD s).mem = s.mem := by
  cases o with
  | none => rfl
  | some s' => exact h s' rfl

/-- A state that may be replaced by one in canonical form. -/
theorem Memory.wf_getD {o : Option State} {s : State} (hs : Memory.wf s.mem = true) (h : ∀ s', o = some s' → Memory.wf s'.mem = true) :
    Memory.wf (o.getD s).mem = true := by
  cases o with
  | none => exact hs
  | some s' => exact h s' rfl

/-! ### Sorting -/

theorem mem_insertBy {α : Type} {lt : α → α → Bool} {x a : α} {l : List α} (h : a ∈ insertBy lt x l) : a = x ∨ a ∈ l := by
  induction l with
  | nil => simpa [insertBy] using h
  | cons y l ih =>
    rw [insertBy] at h
    split at h
    · exact List.mem_cons.mp h
    · obtain rfl | h := List.mem_cons.mp h
      · exact .inr List.mem_cons_self
      · exact (ih h).imp_right (List.mem_cons_of_mem y)

/-- Sorting brings in no item. -/
theorem mem_of_mem_sortBy {α : Type} {lt : α → α → Bool} {a : α} {l : List α} (h : a ∈ sortBy lt l) : a ∈ l := by
  suffices hl : ∀ acc : List α, a ∈ l.foldl (fun acc x => insertBy lt x acc) acc → a ∈ acc ∨ a ∈ l from
    (hl [] h).resolve_left List.not_mem_nil
  clear h
  induction l with
  | nil => exact fun acc h => .inl h
  | cons x l ih =>
    intro acc h
    obtain h | h := ih _ h
    · obtain rfl | h := mem_insertBy h
      · exact .inr List.mem_cons_self
      · exact .inl h
    · exact .inr (List.mem_cons_of_mem x h)

end Sys2Proof.Machine
end

section
/-! SUPPORT. Memory stays canonical: registers and contexts; the home of a block, translation, records. -/

namespace Sys2Proof.Machine

open Sys2Proof

@[simp] theorem State.setTag_mem (s : State) (key : Nat) (asid : Option Nat) : (s.setTag key asid).mem = s.mem := by
  unfold State.setTag
  repeat' split
  all_goals simp

@[simp] theorem State.modifyLines_mem (s : State) (key : Nat) : (s.modifyLines key).mem = s.mem := by simp [State.modifyLines]

@[simp] theorem State.homeWrite_wf {s : State} (asid : Option Nat) (key : Nat) (bs : List Byte) (hs : Memory.wf s.mem = true) :
    Memory.wf (s.homeWrite asid key bs).1.mem = true := by
  have hp := poke_wf s key bs hs
  unfold State.homeWrite
  split
  · simpa using hp
  · split
    · exact hs
    · simpa using hp

@[simp] theorem State.writeRange_wf : ∀ (fuel : Nat) {s : State} (asid : Option Nat) (key : Nat) (bs : List Byte),
    Memory.wf s.mem = true → Memory.wf (State.writeRange fuel s asid key bs).mem = true
  | 0, _, _, _, _, hs => hs
  | fuel + 1, s, asid, key, bs, hs => by
    rw [State.writeRange]
    split
    · exact hs
    · exact State.writeRange_wf fuel _ _ _ (State.homeWrite_wf _ _ _ hs)

@[simp] theorem State.pokeHbm64_wf {s : State} (pa v : Nat) (hs : Memory.wf s.mem = true) : Memory.wf (s.pokeHbm64 pa v).mem = true := by
  simp [State.pokeHbm64, hs]

@[simp] theorem State.setMigCount_mem (s : State) (asid va n : Nat) : (s.setMigCount asid va n).mem = s.mem := by simp [State.setMigCount]

@[simp] theorem State.sendPort_mem (s : State) (m : OutMsg) : (s.sendPort m).mem = s.mem := by simp [State.sendPort]

theorem State.requestMove_mem {s s' : State} {c : Ctx} {slot va home : Nat} {ws : List HRef}
    (h : s.requestMove c slot va home ws = some s') : s'.mem = s.mem := by
  unfold State.requestMove at h
  split at h <;> cases h
  rfl

@[simp] theorem State.countMiss_mem (s : State) (slot : Nat) (c : Ctx) (va : Nat) (l : Leaf) :
    (s.countMiss slot c va l).mem = s.mem := by
  simp only [State.countMiss]
  split
  · split
    · rw [State.mem_getD fun _ h => State.requestMove_mem h, State.setMigCount_mem]
    · exact State.setMigCount_mem ..
  · rfl

@[simp] theorem State.keepWalk_mem (s : State) (c : Ctx) (va : Nat) (l : Leaf) : (s.keepWalk c va l).mem = s.mem := by rfl

@[simp] theorem State.fillTlb_mem (s : State) (c : Ctx) (va : Nat) (l : Leaf) : (s.fillTlb c va l).mem = s.mem := by simp [State.fillTlb]

@[simp] theorem State.useTlb_mem (s : State) (c : Ctx) (va : Nat) : (s.useTlb c va).mem = s.mem := by
  unfold State.useTlb
  repeat' split
  all_goals simp

@[simp] theorem State.useRange_mem (s : State) (c : Ctx) (va n : Nat) : (s.useRange c va n).mem = s.mem := by simp [State.useRange]

@[simp] theorem State.dropLines_mem (s : State) (p : Nat → Bool) : (s.dropLines p).mem = s.mem := by rfl

@[simp] theorem State.boundLlc_mem (s : State) (die : Nat) : (s.boundLlc die).mem = s.mem := by simp [State.boundLlc]

@[simp] theorem State.fill_mem (s : State) (c : Ctx) (va : Nat) (l : Leaf) (ev : Bool) : (s.fill c va l ev).mem = s.mem := by simp [State.fill]

@[simp] theorem State.wantIslands_mem (s : State) (is : List Nat) : (s.wantIslands is).mem = s.mem := by rfl

@[simp] theorem State.boundL1_mem (s : State) (core : Nat) : (s.boundL1 core).mem = s.mem := by simp [State.boundL1]

@[simp] theorem State.fillL1_mem (s : State) (core : Nat) (c : Ctx) (va : Nat) (l : Leaf) (bs : List Byte) :
    (s.fillL1 core c va l bs).mem = s.mem := by
  simp [State.fillL1]

@[simp] theorem State.keepPart_mem (s : State) (core : Nat) (c : Ctx) (va key : Nat) (l : Leaf) (nc : Bool) :
    (s.keepPart core c va key l nc).mem = s.mem := by simp [State.keepPart]

@[simp] theorem State.keepBytes_mem (s : State) (core : Nat) (c : Ctx) (va key : Nat) (l : Leaf) (nc : Bool) (n : Nat) :
    (s.keepBytes core c va key l nc n).mem = s.mem := by simp [State.keepBytes]

@[simp] theorem State.keepBlock_mem (s : State) (core : Option Nat) (c : Ctx) (va : Nat) (l : Leaf) (bs : List Byte) :
    (s.keepBlock core c va l bs).mem = s.mem := by
  simp only [State.keepBlock]
  split <;> simp

@[simp] theorem State.dropL1_mem (s : State) (core asid va n : Nat) : (s.dropL1 core asid va n).mem = s.mem := by rfl

@[simp] theorem State.updateByte_mem (s : State) (cores : List Nat) (asid va : Nat) (b : Byte) :
    (s.updateByte cores asid va b).mem = s.mem := by
  simp only [State.updateByte, State.mem_ite]
  split <;> exact State.mem_foldl (fun s k => by split <;> rfl) ..

@[simp] theorem State.refreshByte_mem (s : State) (cores : List Nat) (asid va key : Nat) : (s.refreshByte cores asid va key).mem = s.mem := by
  simp [State.refreshByte]

@[simp] theorem State.dropCopies_mem (s : State) (cores : List Nat) (asid va n : Nat) :
    (s.dropCopies cores asid va n).mem = s.mem :=
  State.mem_foldl (fun _ _ => by simp) ..

@[simp] theorem State.refreshCopies_mem (s : State) (cores : List Nat) (asid va key n : Nat) : (s.refreshCopies cores asid va key n).mem = s.mem := by
  simp [State.refreshCopies]

@[simp] theorem State.dropL1All_mem (s : State) (asid va n : Nat) : (s.dropL1All asid va n).mem = s.mem := by rfl

@[simp] theorem State.acquire_mem (s : State) (core : Nat) : (s.acquire core).mem = s.mem := by rfl

@[simp] theorem State.engineAcquire_mem (s : State) (before : Nat) : (s.engineAcquire before).mem = s.mem := by rfl

@[simp] theorem State.ownWords_mem (s : State) (core asid va n : Nat) : (s.ownWords core asid va n).mem = s.mem := by
  refine State.mem_foldl (fun s i => ?_) ..
  dsimp only
  split
  · split
    · rfl
    · split <;> simp
  · rfl

@[simp] theorem State.ackRevoke_mem (s : State) (r : Revoke) : (s.ackRevoke r).mem = s.mem := by simp [State.ackRevoke]

@[simp] theorem State.ackAll_mem (s : State) : s.ackAll.mem = s.mem := by simp [State.ackAll]

end Sys2Proof.Machine
end

section
/-! SUPPORT. Memory stays canonical: handles, stops, records and requests. -/

namespace Sys2Proof.Machine

open Sys2Proof

@[simp] theorem State.newId_mem (s : State) : s.newId.2.mem = s.mem := by rfl

@[simp] theorem State.fresh_mem (s : State) : s.fresh.2.mem = s.mem := by rfl

@[simp] theorem State.fileMc_mem (s : State) (e : McEvent) : (s.fileMc e).mem = s.mem := by
  simp only [State.fileMc]
  split <;> simp

@[simp] theorem State.partsWrite_wf {s : State} (asid : Option Nat) (ps : List (Nat × Nat)) (bs : List Byte)
    (hs : Memory.wf s.mem = true) : Memory.wf (s.partsWrite asid ps bs).mem = true := by
  induction ps generalizing s bs with
  | nil => exact hs
  | cons p ps ih => exact ih _ (State.writeRange_wf _ _ _ _ hs)

@[simp] theorem State.emitAts_mem (s : State) (p v : Nat) : (s.emitAts p v).mem = s.mem := by simp [State.emitAts]

@[simp] theorem State.sendAccess_mem (s : State) (who : Asker) (core asid key va : Nat) (op : RemoteOp) (more : List (Nat × RemoteOp))
    (writes : List PWrite) (ret : List Nat) : (s.sendAccess who core asid key va op more writes ret).mem = s.mem := by rfl

@[simp] theorem State.sendAsk_mem (s : State) (who : Asker) (core asid key va : Nat) (op : RemoteOp) :
    (s.sendAsk who core asid key va op).mem = s.mem := by rfl

@[simp] theorem State.voidLoads_mem (s : State) (asid va n : Nat) : (s.voidLoads asid va n).mem = s.mem := by rfl

@[simp] theorem State.countMissAt_mem (s : State) (asid va : Nat) : (s.countMissAt asid va).mem = s.mem := by
  unfold State.countMissAt
  repeat' split
  all_goals simp

@[simp] theorem State.emitNeed_mem (s : State) (n : Need) : (s.emitNeed n).mem = s.mem := by
  cases n <;> simp [State.emitNeed]

@[simp] theorem State.emitNeeds_mem (s : State) (ns : List Need) : (s.emitNeeds ns).mem = s.mem :=
  State.mem_foldl State.emitNeed_mem ..

@[simp] theorem State.holdNeeds_mem (s : State) (uid : Nat) (ns : List Need) : (s.holdNeeds uid ns).mem = s.mem := by simp [State.holdNeeds]

@[simp] theorem State.askAts_mem (s : State) (uid : Nat) (needs : List (Nat × Nat)) : (s.askAts uid needs).mem = s.mem := by
  unfold State.askAts
  split <;> simp

@[simp] theorem State.noteTables_mem (s : State) (asid va n : Nat) : (s.noteTables asid va n).mem = s.mem := by
  unfold State.noteTables
  split <;> simp

@[simp] theorem State.engineStore_wf {s : State} (c : Ctx) (va : Nat) (ps : List (Nat × Nat)) (bs : List Byte)
    (hs : Memory.wf s.mem = true) : Memory.wf (s.engineStore c va ps bs).mem = true := by
  refine Memory.wf_foldl_fst (fun r p hr => ?_) ps ?_
  · dsimp only
    split <;> simpa using hr
  · dsimp only
    split
    · split <;> simp [hs]
    · simp [hs]

@[simp] theorem State.stampWrites_mem (s : State) (since : Nat) (who : HRef) : (s.stampWrites since who).mem = s.mem := by rfl

@[simp] theorem State.dropSent_mem (s : State) (who : HRef) : (s.dropSent who).mem = s.mem := by rfl

@[simp] theorem State.writeRecord_wf {s : State} (slot va : Nat) (bs : List Byte) (hs : Memory.wf s.mem = true) :
    Memory.wf (s.writeRecord slot va bs).mem = true := by
  simp only [State.writeRecord]
  split <;> simp [hs]

@[simp] theorem State.fileLog_wf {s : State} (slot : Nat) (w1 w2 w3 : Nat) (hs : Memory.wf s.mem = true) :
    Memory.wf (s.fileLog slot w1 w2 w3).mem = true := by simp [State.fileLog, hs]

@[simp] theorem State.cancelRendezvous_mem (s : State) (k slot : Nat) : (s.cancelRendezvous k slot).mem = s.mem := by
  unfold State.cancelRendezvous
  split
  · rfl
  · exact State.mem_foldl (fun _ _ => State.modTeam_mem ..) ..

@[simp] theorem State.leaveGang_mem (s : State) (uid : Nat) : (s.leaveGang uid).mem = s.mem := by
  unfold State.leaveGang
  split <;> simp

@[simp] theorem State.passReservation_mem (s : State) (t : Team) : (s.passReservation t).mem = s.mem := by
  unfold State.passReservation
  exact State.mem_foldl (fun _ _ => State.putCore_mem ..) ..

@[simp] theorem State.dropTeam_mem (s : State) (uid : Nat) : (s.dropTeam uid).mem = s.mem := by
  unfold State.dropTeam
  split <;> simp

@[simp] theorem State.endTeam_wf {s : State} (uid : Nat) (double : Option Cause) (hs : Memory.wf s.mem = true) :
    Memory.wf (s.endTeam uid double).mem = true := by
  unfold State.endTeam
  split <;> simp [hs]

@[simp] theorem State.deliver_wf {s : State} (uid : Nat) (c : Cause) (hs : Memory.wf s.mem = true) : Memory.wf (s.deliver uid c).mem = true := by
  simp only [State.deliver]
  repeat' split
  all_goals simp [hs]

@[simp] theorem State.takeStop_wf {s : State} (uid len : Nat) (st : Stop) (hs : Memory.wf s.mem = true) :
    Memory.wf (s.takeStop uid len st).mem = true := by
  unfold State.takeStop
  split <;> simp [hs]

@[simp] theorem State.takePending_wf {s : State} (uid : Nat) (hs : Memory.wf s.mem = true) : Memory.wf (s.takePending uid).mem = true := by
  unfold State.takePending
  repeat' split
  all_goals simp [hs]

theorem State.returnFromHandler_mem {s s' : State} {uid : Nat} (h : s.returnFromHandler uid = .ok s') : s'.mem = s.mem := by
  unfold State.returnFromHandler at h
  split at h
  · cases h; rfl
  · split at h
    · cases h; rfl
    · dsimp only at h
      split at h
      · cases h
      · cases h; simp
      · split at h
        · cases h
        · split at h <;> cases h <;> rfl

end Sys2Proof.Machine
end

section
/-! SUPPORT. Memory stays canonical: the frame of an instruction word; uniform words. -/

namespace Sys2Proof.Machine

open Sys2Proof

@[simp] theorem State.advance_wf {s : State} (uid len : Nat) (hs : Memory.wf s.mem = true) : Memory.wf (s.advance uid len).mem = true := by
  unfold State.advance
  split <;> simp [hs]

@[simp] theorem State.stopAt_wf {s : State} (uid len : Nat) (st : Stop) (hs : Memory.wf s.mem = true) :
    Memory.wf (s.stopAt uid len st).mem = true := by
  unfold State.stopAt
  split <;> simp [hs]

theorem conclude_wf {r : Res} (uid len : Nat) (hr : Memory.wf r.state.mem = true) : Memory.wf (conclude uid len r).mem = true := by
  cases r with
  | done s => exact State.advance_wf uid len hr
  | jump s => exact hr
  | hold s => exact hr
  | stop st s => exact State.stopAt_wf uid len st hr

theorem State.runWord_wf {k : State → Team → Res} {s : State} (i : Instr) (t : Team) (hs : Memory.wf s.mem = true)
    (hk : Memory.wf (k s t).state.mem = true) : Memory.wf (s.runWord i t k).mem = true := by
  unfold State.runWord
  split
  · exact State.takeStop_wf _ _ _ hs
  · split
    · exact State.takeStop_wf _ _ _ hs
    · exact conclude_wf _ _ hk

theorem withTeam_wf {k : State → Team → Res} {s : State} {i : Instr} (hs : Memory.wf s.mem = true)
    (hk : ∀ t, Memory.wf (k s t).state.mem = true) : (withTeam i s k).MemWf := by
  unfold withTeam
  split
  · trivial
  · split
    · trivial
    · exact State.runWord_wf i _ hs (hk _)

/-- A word whose effect leaves memory alone. -/
theorem withTeam_wf_of_mem {k : State → Team → Res} {s : State} {i : Instr} (hs : Memory.wf s.mem = true)
    (hk : ∀ t, (k s t).state.mem = s.mem) : (withTeam i s k).MemWf :=
  withTeam_wf hs fun t => (hk t).symm ▸ hs

@[simp] theorem payReplay_mem (s : State) (t : Team) (i : Instr) (home odd : Nat) : (payReplay s t i home odd).1.mem = s.mem := by
  unfold payReplay
  split <;> simp

@[simp] theorem judge_mem (s : State) (t : Team) (i : Instr) (unit : Nat) (ids : List Nat) (checks : Nat → List WordCheck)
    (lanesOf : Nat → List Nat) (passOf : Nat → Nat × Bool) (copies : Bool) :
    (judge s t i unit ids checks lanesOf passOf copies).s.mem = s.mem := by
  simp only [judge]
  repeat' split
  all_goals simp

@[simp] theorem laneWith_mem (i : Instr) (h : Hdr) (unit : Nat) (copies : Bool) (d : RegNo) (chk : Team → Nat → List RWord → List WordCheck)
    (f : Team → Nat → LRes) (s : State) (t : Team) : (laneWith i h unit copies d chk f s t).state.mem = s.mem := by
  simp only [laneWith]
  split <;> simp

@[simp] theorem laneOp_mem (i : Instr) (h : Hdr) (unit : Nat) (d : RegNo) (srcs : List (RegNo × Nat)) (f : Team → Nat → List Nat → LRes)
    (s : State) (t : Team) : (laneOp i h unit d srcs f s t).state.mem = s.mem := by simp [laneOp]

@[simp] theorem judgeGroups_mem (s : State) (t : Team) (i : Instr) (gs : List Nat) (checks : Nat → List WordCheck) (copies : Bool) :
    (judgeGroups s t i gs checks copies).s.mem = s.mem := by simp [judgeGroups]

@[simp] theorem groupWith_mem (i : Instr) (h : Hdr) (copies : Bool) (d : RegNo) (chk : Team → Nat → List RWord → List WordCheck)
    (f : Team → Nat → URes) (s : State) (t : Team) : (groupWith i h copies d chk f s t).state.mem = s.mem := by
  simp only [groupWith]
  split <;> simp

@[simp] theorem groupOp_mem (i : Instr) (h : Hdr) (d : RegNo) (srcs : List (RegNo × Nat)) (f : Team → Nat → List Nat → URes) (s : State)
    (t : Team) : (groupOp i h d srcs f s t).state.mem = s.mem := by simp [groupOp]

theorem teamOp_wf {k : State → Team → List Nat → Nat → List Nat → Res} {s : State} {i : Instr} {h : Hdr} {d : RegNo} {n : Nat}
    {srcs : List (RegNo × Nat)} (t : Team) (hs : Memory.wf s.mem = true)
    (hk : ∀ s t gs lead xs, Memory.wf s.mem = true → Memory.wf (k s t gs lead xs).state.mem = true) :
    Memory.wf (teamOp i h d n srcs k s t).state.mem = true := by
  unfold teamOp
  split
  · exact hs
  · dsimp only
    split
    · simpa using hs
    · split
      · exact hk _ _ _ _ _ (by simpa using hs)
      · simpa using hs

/-- A uniform word on the team's groups: its own part keeps the canonical form, so the word does. -/
theorem teamWord_wf {k : State → Team → List Nat → Nat → List Nat → Res} {s : State} {i j : Instr} {h : Hdr} {d : RegNo} {n : Nat}
    {srcs : List (RegNo × Nat)} (hs : Memory.wf s.mem = true)
    (hk : ∀ s t gs lead xs, Memory.wf s.mem = true → Memory.wf (k s t gs lead xs).state.mem = true) :
    (withTeam i s (teamOp j h d n srcs k)).MemWf :=
  withTeam_wf hs fun t => teamOp_wf t hs hk

theorem withHandle_wf {k : State → HRef → BitVec 16 → Res} {s : State} (t : Team) (d : RegNo) (gs : List Nat) (eng : Nat)
    (hs : Memory.wf s.mem = true) (hk : ∀ s who hnd, Memory.wf s.mem = true → Memory.wf (k s who hnd).state.mem = true) :
    Memory.wf (withHandle s t d gs eng k).state.mem = true := by
  unfold withHandle
  split
  · exact hs
  · exact hk _ _ _ hs

@[simp] theorem groupBin_mem (i : Instr) (h : Hdr) (ty : Ty) (d a b : RegNo) (f : Nat → Nat → Nat) (s : State) (t : Team) :
    (groupBin i h ty d a b f s t).state.mem = s.mem := by simp [groupBin]

@[simp] theorem groupUn_mem (i : Instr) (h : Hdr) (ty : Ty) (d a : RegNo) (f : Nat → Nat) (s : State) (t : Team) :
    (groupUn i h ty d a f s t).state.mem = s.mem := by simp [groupUn]

@[simp] theorem groupPred_mem (i : Instr) (h : Hdr) (q : BitVec 3) (f : Team → Nat → Bool) (s : State) (t : Team) :
    (groupPred i h q f s t).state.mem = s.mem := by simp [groupPred]

end Sys2Proof.Machine
end

section
/-! SUPPORT. Memory stays canonical: accesses, drains and releases. -/

namespace Sys2Proof.Machine

open Sys2Proof

@[simp] theorem State.endContext_mem (s : State) (asid : Nat) : (s.endContext asid).mem = s.mem := by
  simp only [State.endContext]
  split <;> simp

@[simp] theorem State.loseBlock_mem (s : State) (f : Finder) (key va level : Nat) : (s.loseBlock f key va level).mem = s.mem := by
  simp only [State.loseBlock]
  split <;> simp

@[simp] theorem State.readBlock_mem (s : State) (f : Finder) (key va : Nat) : (s.readBlock f key va).mem = s.mem := by
  unfold State.readBlock
  split <;> simp

@[simp] theorem State.readCaches_mem (s : State) (f : Finder) (core : Option Nat) (asid key va : Nat) :
    (s.readCaches f core asid key va).mem = s.mem := by
  simp only [State.readCaches]
  repeat' split
  all_goals simp

@[simp] theorem State.meetAcc_mem (s : State) (f : Finder) (cluster row : Nat) : (s.meetAcc f cluster row).mem = s.mem := by
  simp only [State.meetAcc]
  repeat' split
  all_goals simp

@[simp] theorem State.engineRead_mem (s : State) (f : Finder) (key va n : Nat) : (s.engineRead f key va n).1.mem = s.mem :=
  State.mem_foldl_fst (fun _ _ => State.readBlock_mem ..) ..

@[simp] theorem State.engineParts_mem (s : State) (f : Finder) (va : Nat) (ps : List (Nat × Nat)) :
    (s.engineParts f va ps).1.mem = s.mem := by
  induction ps generalizing s va with
  | nil => rfl
  | cons p ps ih => rw [State.engineParts, ih, State.engineRead_mem]

@[simp] theorem State.meetWalk_mem (s : State) (f : Finder) (c : Ctx) (va : Nat) : (s.meetWalk f c va).mem = s.mem := by simp [State.meetWalk]

@[simp] theorem State.meetRange_mem (s : State) (f : Finder) (c : Ctx) (va n : Nat) : (s.meetRange f c va n).mem = s.mem := by
  unfold State.meetRange
  split <;> simp

@[simp] theorem State.dropForAtomic_mem (s : State) (w : PWrite) : (s.dropForAtomic w).mem = s.mem :=
  State.mem_foldl (fun _ _ => State.dropL1_mem ..) ..

@[simp] theorem State.recordPoison_mem (s : State) (w : PWrite) : (s.recordPoison w).mem = s.mem := by simp [State.recordPoison]

@[simp] theorem State.atomicWrite_wf {s : State} (w : PWrite) (bs : List Byte) (hs : Memory.wf s.mem = true) :
    Memory.wf (s.atomicWrite w bs).mem = true := by simp [State.atomicWrite, hs]

@[simp] theorem State.atomicInjected_wf {s : State} (w : PWrite) (inj : Nat) (bs : List Byte) (hs : Memory.wf s.mem = true) :
    Memory.wf (s.atomicInjected w inj bs).mem = true := by simp [State.atomicInjected, hs]

@[simp] theorem State.sentCopies_wf {s : State} (w : PWrite) (hs : Memory.wf s.mem = true) : Memory.wf (s.sentCopies w).mem = true := by
  have hp := poke_wf s w.key w.bytes hs
  simp only [State.sentCopies]
  split
  · simpa using hp
  · simpa using hs

@[simp] theorem State.injectedAway_mem (s : State) (w : PWrite) (inj : Nat) : (s.injectedAway w inj).mem = s.mem := by simp [State.injectedAway]

@[simp] theorem State.sendWrites_wf {s : State} (ws : List PWrite) (hs : Memory.wf s.mem = true) :
    Memory.wf (s.sendWrites ws).mem = true := by
  have hi : Memory.wf ((ws.filter fun w => w.inj != 0).foldl (fun (s : State) w =>
      if w.inj % 4 = 2 then (s.count 32 1).injectedAway w w.inj else s.count 32 1) s).mem = true :=
    Memory.wf_foldl (fun s w hs => by split <;> simpa using hs) _ hs
  unfold State.sendWrites
  dsimp only
  split
  · exact hi
  · rw [State.sendAccess_mem]
    exact Memory.wf_foldl (fun s w hs => State.sentCopies_wf w hs) _ (by simpa using hi)

@[simp] theorem State.register_wf {s : State} (w : PWrite) (hs : Memory.wf s.mem = true) : Memory.wf (s.register w).mem = true := by
  unfold State.register
  split <;> simp [hs]

@[simp] theorem State.registerAll_wf : ∀ (fuel : Nat) (ws : List PWrite) {s : State}, Memory.wf s.mem = true →
    Memory.wf (State.registerAll fuel ws s).mem = true
  | 0, _, _, hs => hs
  | _ + 1, [], _, hs => hs
  | fuel + 1, w :: ws, s, hs => by
    rw [State.registerAll]
    split
    · exact State.registerAll_wf fuel _ (State.sendWrites_wf _ hs)
    · exact State.registerAll_wf fuel _ (State.register_wf w hs)

@[simp] theorem State.drain_wf {s : State} (p : PWrite → Bool) (hs : Memory.wf s.mem = true) : Memory.wf (s.drain p).mem = true :=
  State.registerAll_wf _ _ hs

@[simp] theorem State.drainOver_wf {s : State} (uid key n : Nat) (hs : Memory.wf s.mem = true) : Memory.wf (s.drainOver uid key n).mem = true := by
  simp [State.drainOver, hs]

@[simp] theorem State.settleWrites_wf {s : State} (hs : Memory.wf s.mem = true) : Memory.wf s.settleWrites.mem = true := by
  simp [State.settleWrites, hs]

@[simp] theorem State.startRelease_wf {s : State} (who : Asker) (asid : Nat) (host : Bool) (hs : Memory.wf s.mem = true) :
    Memory.wf (s.startRelease who asid host).mem = true := by simp [State.startRelease, hs]

@[simp] theorem State.release_wf {s : State} (t : Team) (hs : Memory.wf s.mem = true) : Memory.wf (s.release t).mem = true := by
  simp [State.release, hs]

@[simp] theorem State.releaseFor_wf {s : State} (slot : Nat) (hs : Memory.wf s.mem = true) : Memory.wf (s.releaseFor slot).2.mem = true := by
  simp [State.releaseFor, hs]

theorem State.releaseThen_wf {hold k : State → Res} {s : State} (t : Team) (hs : Memory.wf s.mem = true)
    (hh : ∀ s, Memory.wf s.mem = true → Memory.wf (hold s).state.mem = true)
    (hk : ∀ s, Memory.wf s.mem = true → Memory.wf (k s).state.mem = true) : Memory.wf (s.releaseThen t hold k).state.mem = true := by
  have hr := State.release_wf t hs
  unfold State.releaseThen
  dsimp only
  split
  · exact hk _ hr
  · exact hh _ hr

@[simp] theorem State.acquireFor_mem (s : State) (t : Team) : (s.acquireFor t).mem = s.mem :=
  State.mem_foldl State.acquire_mem ..

theorem State.fenceWith_wf {done : State → State} {s : State} (t : Team) (f : FenceWait) (hs : Memory.wf s.mem = true)
    (hd : ∀ s, Memory.wf s.mem = true → Memory.wf (done s).mem = true) : Memory.wf (s.fenceWith t f done).mem = true := by
  have hr := State.release_wf t hs
  unfold State.fenceWith
  dsimp only
  split
  · exact hd _ hr
  · exact hr

@[simp] theorem State.endFence_mem (s : State) (uid : Nat) : (s.endFence uid).mem = s.mem := by
  unfold State.endFence
  split <;> simp

@[simp] theorem State.engineNibble_wf {s : State} (c : Ctx) (va key nib v : Nat) (hs : Memory.wf s.mem = true) :
    Memory.wf (s.engineNibble c va key nib v).mem = true := by simp [State.engineNibble, hs]

@[simp] theorem State.peerStore_wf {s : State} (c : Ctx) (peer core va key : Nat) (bs : List Byte) (hs : Memory.wf s.mem = true) :
    Memory.wf (s.peerStore c peer core va key bs).mem = true := by simp [State.peerStore, hs]

end Sys2Proof.Machine
end

section
/-! SUPPORT. Memory stays canonical: control words; special registers. -/

namespace Sys2Proof.Machine

open Sys2Proof

@[simp] theorem State.copyLoop_mem (s : State) (t : Team) (p : BitVec 16) (n : Nat) : (s.copyLoop t p n).mem = s.mem := by
  simp only [State.copyLoop]
  split <;> simp

@[simp] theorem State.afterTaken_mem (s : State) (t : Team) (src : BitVec 16) (len : Nat) (p : BitVec 16) :
    (s.afterTaken t src len p).mem = s.mem := by
  unfold State.afterTaken
  split <;> simp

@[simp] theorem transfer_mem (len : Nat) (rcv : BitVec 13) (dest : Nat → Dest) (write : Team → Team) (s : State) (t : Team) :
    (transfer len rcv dest write s t).state.mem = s.mem := by
  simp only [transfer]
  repeat' split
  all_goals simp

theorem withGroups_wf {k : State → Team → List Nat → List Nat → Res} {s : State} {i : Instr} {h : Hdr} {chk : Team → Nat → List WordCheck}
    {zero : List RegNo} (t : Team) (hs : Memory.wf s.mem = true)
    (hk : ∀ s t gs lanes, Memory.wf s.mem = true → Memory.wf (k s t gs lanes).state.mem = true) :
    Memory.wf (withGroups i h chk zero k s t).state.mem = true := by
  unfold withGroups
  dsimp only
  split
  · simpa using hs
  · exact hk _ _ _ _ (by simpa using hs)

/-- A word that moves the team: its own part keeps the canonical form, so the word does. -/
theorem groupsWord_wf {k : State → Team → List Nat → List Nat → Res} {s : State} {i j : Instr} {h : Hdr}
    {chk : Team → Nat → List WordCheck} {zero : List RegNo} (hs : Memory.wf s.mem = true)
    (hk : ∀ s t gs lanes, Memory.wf s.mem = true → Memory.wf (k s t gs lanes).state.mem = true) :
    (withTeam i s (withGroups j h chk zero k)).MemWf :=
  withTeam_wf hs fun t => withGroups_wf t hs hk

@[simp] theorem execSJmp_wf {s : State} (h : Hdr) (off rcv : BitVec 13) (hs : Memory.wf s.mem = true) : (execSJmp h off rcv s).MemWf :=
  groupsWord_wf hs fun s t gs lanes hs => by simpa using hs

@[simp] theorem execSBr_wf {s : State} (h : Hdr) (sel : Sel) (off rcv : BitVec 13) (hs : Memory.wf s.mem = true) : (execSBr h sel off rcv s).MemWf :=
  groupsWord_wf hs fun s t gs lanes hs => by simpa using hs

@[simp] theorem execSBrAll_wf {s : State} (h : Hdr) (sel : Sel) (off rcv : BitVec 13) (hs : Memory.wf s.mem = true) :
    (execSBrAll h sel off rcv s).MemWf :=
  groupsWord_wf hs fun s t gs lanes hs => by simpa using hs

@[simp] theorem execSBrAny_wf {s : State} (h : Hdr) (sel : Sel) (off rcv : BitVec 13) (hs : Memory.wf s.mem = true) :
    (execSBrAny h sel off rcv s).MemWf :=
  groupsWord_wf hs fun s t gs lanes hs => by simpa using hs

@[simp] theorem execSLoop_wf {s : State} (h : Hdr) (n : BitVec 6) (off rcv : BitVec 13) (hs : Memory.wf s.mem = true) :
    (execSLoop h n off rcv s).MemWf :=
  groupsWord_wf hs fun s t gs lanes hs => by simpa using hs

@[simp] theorem execSCall_wf {s : State} (h : Hdr) (off rcv : BitVec 13) (hs : Memory.wf s.mem = true) : (execSCall h off rcv s).MemWf :=
  groupsWord_wf hs fun s t gs lanes hs => by simpa using hs

@[simp] theorem fencedJump_mem (p : BitVec 16) (write : Team → Team) (s : State) (t : Team) : (fencedJump p write s t).state.mem = s.mem := by
  unfold fencedJump
  split <;> simp

@[simp] theorem regTransfer_mem (i : Instr) (n : BitVec 6) (rcv : BitVec 13) (write : Team → List Nat → Team → Team) (s : State) (t : Team)
    (gs lanes : List Nat) : (regTransfer i n rcv write s t gs lanes).state.mem = s.mem := by
  simp only [regTransfer]
  repeat' split
  all_goals simp

@[simp] theorem execSJr_wf {s : State} (h : Hdr) (n : BitVec 6) (rcv : BitVec 13) (hs : Memory.wf s.mem = true) : (execSJr h n rcv s).MemWf :=
  groupsWord_wf hs fun s t gs lanes hs => by simpa using hs

@[simp] theorem execSCallr_wf {s : State} (h : Hdr) (n : BitVec 6) (rcv : BitVec 13) (hs : Memory.wf s.mem = true) : (execSCallr h n rcv s).MemWf :=
  groupsWord_wf hs fun s t gs lanes hs => by simpa using hs

@[simp] theorem tableTransfer_mem (i : Instr) (idx : RegNo) (rcv : BitVec 13) (targets : List (BitVec 16))
    (write : Team → List Nat → Team → Team) (s : State) (t : Team) (gs lanes : List Nat) :
    (tableTransfer i idx rcv targets write s t gs lanes).state.mem = s.mem := by
  simp only [tableTransfer]
  repeat' split
  all_goals simp

@[simp] theorem execSBtab_wf {s : State} (h : Hdr) (idx : RegNo) (rcv : BitVec 13) (targets : List (BitVec 16))
    (hs : Memory.wf s.mem = true) : (execSBtab h idx rcv targets s).MemWf :=
  groupsWord_wf hs fun s t gs lanes hs => by simpa using hs

@[simp] theorem execSBtabc_wf {s : State} (h : Hdr) (idx : RegNo) (rcv : BitVec 13) (targets : List (BitVec 16))
    (hs : Memory.wf s.mem = true) : (execSBtabc h idx rcv targets s).MemWf :=
  groupsWord_wf hs fun s t gs lanes hs => by simpa using hs

@[simp] theorem exitLanes_mem (len : Nat) (s : State) (t : Team) (lanes : List Nat) : (exitLanes len s t lanes).state.mem = s.mem := by
  simp only [exitLanes]
  repeat' split
  all_goals simp

@[simp] theorem execSExit_wf {s : State} (h : Hdr) (hs : Memory.wf s.mem = true) : (execSExit h s).MemWf :=
  groupsWord_wf hs fun s t gs lanes hs => by simpa using hs

@[simp] theorem jumpFenced_mem (h : Hdr) (p : BitVec 16) (s : State) (t : Team) : (jumpFenced h p s t).state.mem = s.mem := by
  simp only [jumpFenced]
  repeat' split
  all_goals simp

@[simp] theorem execSJmpf_wf {s : State} (h : Hdr) (target : BitVec 16) (hs : Memory.wf s.mem = true) : (execSJmpf h target s).MemWf :=
  teamWord_wf hs fun s t gs lead xs hs => by simpa using hs

@[simp] theorem execSCfence_wf {s : State} (h : Hdr) (hs : Memory.wf s.mem = true) : (execSCfence h s).MemWf :=
  teamWord_wf hs fun s t gs lead xs hs => by simpa using hs

@[simp] theorem execSTrap_wf {s : State} (h : Hdr) (code : BitVec 16) (hs : Memory.wf s.mem = true) : (execSTrap h code s).MemWf :=
  teamWord_wf hs fun s t gs lead xs hs => by simpa using hs

@[simp] theorem execSBrk_wf {s : State} (h : Hdr) (code : BitVec 16) (hs : Memory.wf s.mem = true) : (execSBrk h code s).MemWf :=
  teamWord_wf hs fun s t gs lead xs hs => by simpa using hs

@[simp] theorem execSRth_wf {s : State} (h : Hdr) (hs : Memory.wf s.mem = true) : (execSRth h s).MemWf := by
  refine withTeam_wf hs fun t => ?_
  split
  · exact hs
  · split
    · rw [Res.state_hold, State.returnFromHandler_mem ‹_›]
      exact hs
    · exact hs

@[simp] theorem clearValid_mem (s : State) (t : Team) (n : Nat) : (clearValid s t n).mem = s.mem := by simp [clearValid]

@[simp] theorem csrUpdate_mem (op : CsrOp) (n x : Nat) (s : State) (t : Team) : (csrUpdate op n x s t).state.mem = s.mem := by
  simp only [csrUpdate]
  repeat' split
  all_goals simp

@[simp] theorem execSCsrw_wf {s : State} (h : Hdr) (d : RegNo) (csr : BitVec 12) (hs : Memory.wf s.mem = true) : (execSCsrw h d csr s).MemWf :=
  teamWord_wf hs fun s t gs lead xs hs => by simpa using hs

@[simp] theorem execSCsrs_wf {s : State} (h : Hdr) (d : RegNo) (csr : BitVec 12) (hs : Memory.wf s.mem = true) : (execSCsrs h d csr s).MemWf :=
  teamWord_wf hs fun s t gs lead xs hs => by simpa using hs

@[simp] theorem execSCsrc_wf {s : State} (h : Hdr) (d : RegNo) (csr : BitVec 12) (hs : Memory.wf s.mem = true) : (execSCsrc h d csr s).MemWf :=
  teamWord_wf hs fun s t gs lead xs hs => by simpa using hs

@[simp] theorem execSFmt_wf {s : State} (h : Hdr) (imm : BitVec 16) (hs : Memory.wf s.mem = true) : (execSFmt h imm s).MemWf :=
  teamWord_wf hs fun s t gs lead xs hs => by simpa using hs

@[simp] theorem execSSeed_wf {s : State} (h : Hdr) (n : BitVec 2) (a : RegNo) (hs : Memory.wf s.mem = true) : (execSSeed h n a s).MemWf :=
  teamWord_wf hs fun s t gs lead xs hs => by simpa using hs

@[simp] theorem execSSeedmix_wf {s : State} (h : Hdr) (n : BitVec 2) (a : RegNo) (hs : Memory.wf s.mem = true) : (execSSeedmix h n a s).MemWf :=
  teamWord_wf hs fun s t gs lead xs hs => by simpa using hs

@[simp] theorem execMcrecReadable_wf {s : State} (core n : Nat) (hs : Memory.wf s.mem = true) : (execMcrecReadable core n s).MemWf := by
  simp [execMcrecReadable, hs]

end Sys2Proof.Machine
end

section
/-! SUPPORT. Memory stays canonical: memory words of the lanes; checking and scrubbing. -/

namespace Sys2Proof.Machine

open Sys2Proof

@[simp] theorem failStorage_mem (s : State) (t : Team) (i : Instr) (lanes : List Nat) (addr key : Nat) :
    (failStorage s t i lanes addr key).1.mem = s.mem := by
  unfold failStorage
  repeat' split
  all_goals simp

@[simp] theorem State.meetCodes_mem (s : State) (f : Finder) (acc : List (Nat × Nat × Nat)) : (s.meetCodes f acc).1.mem = s.mem := by
  simp [State.meetCodes]

@[simp] theorem State.meetLoads_mem (s : State) (t : Team) (f : Finder) (vt : Bool) (acc : List (Nat × Nat × Nat)) :
    (s.meetLoads t f vt acc).1.mem = s.mem := by
  unfold State.meetLoads
  split <;> simp

@[simp] theorem State.askOne_wf {s : State} (t : Team) (n : Nat × Nat × Nat × RemoteOp) (hs : Memory.wf s.mem = true) :
    Memory.wf (s.askOne t n).mem = true := by
  simp only [State.askOne]
  split
  · simp [hs]
  · split <;> simp [hs]

@[simp] theorem State.askRemote_wf {s : State} (t : Team) (ns : List (Nat × Nat × Nat × RemoteOp)) (hs : Memory.wf s.mem = true) :
    Memory.wf (s.askRemote t ns).mem = true :=
  Memory.wf_foldl (fun _ n hs => State.askOne_wf t n hs) ns hs

@[simp] theorem State.clearAsks_mem (s : State) (uid : Nat) : (s.clearAsks uid).mem = s.mem := by rfl

@[simp] theorem State.touchLanes_mem (s : State) (t : Team) (c : Ctx) (outs : List (Nat × Int × LaneAcc)) :
    (s.touchLanes t c outs).mem = s.mem := by
  simp [State.touchLanes]

@[simp] theorem State.meetWalks_mem (s : State) (f : Finder) (c : Ctx) (vas : List Int) : (s.meetWalks f c vas).mem = s.mem := by
  simp [State.meetWalks]

/-- The frame of a lane's memory word: the word's own part, from a state in canonical form and with a way to wait that keeps it, keeps it. -/
theorem memWith_wf {k : ((State → State) → Res) → State → Team → List Nat → List (Nat × LaneAcc) → Res} {s : State} (i : Instr)
    (h : Hdr) (m : MemForm) (acc : Acc) (ldr : Bool) (data : Team → Nat → List RWord) (extra : LaneAcc → LaneAcc) (t : Team)
    (hs : Memory.wf s.mem = true)
    (hk : ∀ wait s t failed outs,
      (∀ f : State → State, (∀ s, Memory.wf s.mem = true → Memory.wf (f s).mem = true) → Memory.wf (wait f).state.mem = true) →
      Memory.wf s.mem = true → Memory.wf (k wait s t failed outs).state.mem = true) :
    Memory.wf (memWith i h m acc ldr data extra k s t).state.mem = true := by
  unfold memWith
  dsimp only
  split
  · simpa using hs
  · generalize hw : (if m.vt = true then _ else _ : State) = w
    have hw : Memory.wf w.mem = true := by
      subst hw
      split <;> simpa using hs
    split
    · exact hw
    · split
      · split <;> exact hw
      · split
        · simpa using hs
        · split
          · simpa using hs
          · split
            · split
              · split <;> simpa using hw
              · exact hk _ _ _ _ _ (fun f hf => hf s hs) (by split <;> simpa using hw)
            · exact State.askRemote_wf _ _ hs

@[simp] theorem State.teamFresh_mem (s : State) (t : Team) (asid va : Nat) (bs : List Byte) : (s.teamFresh t asid va bs).mem = s.mem := by
  simp [State.teamFresh]

@[simp] theorem State.keepLoad_mem (s : State) (t : Team) (core : Nat) (c : Ctx) (va key : Nat) (l : Leaf) (nc : Bool) (n : Nat) :
    (s.keepLoad t core c va key l nc n).mem = s.mem := by
  unfold State.keepLoad
  split <;> simp

@[simp] theorem State.laneSee_mem (s : State) (t : Team) (l size : Nat) (a : LaneAcc) : (s.laneSee t l size a).1.mem = s.mem := by
  unfold State.laneSee
  split <;> simp

@[simp] theorem State.lanesSee_mem (t : Team) (size : Nat) (s : State) (os : List (Nat × LaneAcc)) :
    (State.lanesSee t size s os).1.mem = s.mem := by
  induction os generalizing s with
  | nil => rfl
  | cons o os ih => rw [State.lanesSee, ih, State.laneSee_mem]

@[simp] theorem State.laneKeep_mem (s : State) (t : Team) (hint : BitVec 2) (size : Nat) (o : Nat × LaneAcc) :
    (s.laneKeep t hint size o).mem = s.mem := by
  unfold State.laneKeep
  split <;> simp

@[simp] theorem State.lanesLoad_wf {s : State} (t : Team) (hint : BitVec 2) (size : Nat) (os : List (Nat × LaneAcc))
    (hs : Memory.wf s.mem = true) : Memory.wf (State.lanesLoad t hint size s os).1.mem = true := by
  unfold State.lanesLoad
  dsimp only
  rw [State.mem_foldl fun _ _ => State.laneKeep_mem .., State.lanesSee_mem]
  exact Memory.wf_foldl (fun s o hs => by split <;> simp [hs]) os hs

@[simp] theorem returnLanes_mem (i : Instr) (h : Hdr) (d : RegNo) (preds : List Nat) (res : List (Nat × LRes)) (s : State) (t : Team) :
    (returnLanes i h d preds res s t).state.mem = s.mem := by
  unfold returnLanes
  split <;> simp

theorem execLoad_wf {s : State} (i : Instr) (h : Hdr) (ty : Ty) (d a b c : RegNo) (m : MemF) (flag : Option Nat) (t : Team)
    (hs : Memory.wf s.mem = true) : Memory.wf (execLoad i h ty d a b c m flag s t).state.mem = true := by
  unfold execLoad
  refine memWith_wf i h _ .read _ _ id t hs fun _ s t failed outs _ hs => ?_
  dsimp only
  split
  · simpa using hs
  · split
    · simpa using hs
    · split
      · simp [hs]
      · rw [returnLanes_mem, State.clearAsks_mem]
        simp [hs]

@[simp] theorem execVLd_wf {s : State} (h : Hdr) (ty : Ty) (d a b c : RegNo) (m : MemF) (hs : Memory.wf s.mem = true) :
    (execVLd h ty d a b c m s).MemWf :=
  withTeam_wf hs fun t => execLoad_wf _ _ _ _ _ _ _ _ _ t hs

@[simp] theorem execVLdr_wf {s : State} (h : Hdr) (ty : Ty) (d a b c : RegNo) (m : MemF) (p : BitVec 4) (hs : Memory.wf s.mem = true) :
    (execVLdr h ty d a b c m p s).MemWf :=
  withTeam_wf hs fun t => execLoad_wf _ _ _ _ _ _ _ _ _ t hs

@[simp] theorem State.accept_mem (s : State) (w : PWrite) : (s.accept w).mem = s.mem := by rfl

theorem sendWrites_wf {k : State → Team → List PWrite → Res} {s : State} (i : Instr) (t : Team) (ws : List PWrite)
    (hs : Memory.wf s.mem = true) (hk : ∀ s t ws, Memory.wf s.mem = true → Memory.wf (k s t ws).state.mem = true) :
    Memory.wf (sendWrites i s t ws k).state.mem = true := by
  unfold sendWrites
  dsimp only
  split
  · simpa using hs
  · exact hk _ _ _ (by simpa using hs)

theorem storeLanes_wf {s : State} (i : Instr) (h : Hdr) (ty : Ty) (d a b c : RegNo) (m : MemF) (t : Team)
    (hs : Memory.wf s.mem = true) : Memory.wf (storeLanes i h ty d a b c m s t).state.mem = true := by
  unfold storeLanes
  refine memWith_wf i h _ .write false _ id t hs fun _ s t _ outs _ hs => ?_
  refine sendWrites_wf i t _ (by simpa using hs) fun s t ws hs => ?_
  rw [Res.state_done, State.mem_foldl State.accept_mem]
  exact hs

@[simp] theorem execVSt_wf {s : State} (h : Hdr) (ty : Ty) (d a b c : RegNo) (m : MemF) (hs : Memory.wf s.mem = true) :
    (execVSt h ty d a b c m s).MemWf :=
  withTeam_wf hs fun t => storeLanes_wf _ _ _ _ _ _ _ _ t hs

@[simp] theorem State.keepPrefetch_mem (s : State) (core level slot va key : Nat) (l : Leaf) :
    (s.keepPrefetch core level slot va key l).mem = s.mem := by simp [State.keepPrefetch]

@[simp] theorem State.fetchBlock_mem (s : State) (core level slot va : Nat) : (s.fetchBlock core level slot va).mem = s.mem := by
  simp only [State.fetchBlock]
  repeat' split
  all_goals simp

@[simp] theorem State.prefetch_wf {s : State} (t : Team) (l level : Nat) (a : Int) (hs : Memory.wf s.mem = true) :
    Memory.wf (s.prefetch t l level a).mem = true := by
  simp only [State.prefetch]
  repeat' split
  all_goals simp [hs]

@[simp] theorem execVPf_wf {s : State} (h : Hdr) (a b c : RegNo) (m : MemF) (hs : Memory.wf s.mem = true) :
    (execVPf h a b c m s).MemWf := by
  refine withTeam_wf hs fun t => ?_
  dsimp only
  split
  · simpa using hs
  · exact Memory.wf_foldl (fun s l hs => State.prefetch_wf _ _ _ _ hs) _ (by simpa using hs)

@[simp] theorem State.askAtoms_wf {s : State} (i : Instr) (kind : Nat → WriteKind) (t : Team) (acc : List (Nat × Nat × Nat))
    (hs : Memory.wf s.mem = true) : Memory.wf (State.askAtoms i kind t acc s).mem = true := by
  refine Memory.wf_foldl (fun s blk hs => ?_) _ hs
  dsimp only
  split
  · simp [hs]
  · split <;> simp [hs]

@[simp] theorem performAtoms_wf {s : State} (i : Instr) (kind : Nat → WriteKind) (t : Team) (vt : Bool) (ty : Ty)
    (acc : List (Nat × Nat × Nat)) (hs : Memory.wf s.mem = true) : Memory.wf (performAtoms i kind t vt ty s acc).1.mem = true := by
  induction acc generalizing s with
  | nil => exact hs
  | cons x acc ih =>
    obtain ⟨l, key, va⟩ := x
    rw [performAtoms]
    refine ih ?_
    split
    · simpa using hs
    · exact State.register_wf _ (State.drainOver_wf _ _ _ hs)

theorem atomReturn_wf {s : State} (i : Instr) (h : Hdr) (ty : Ty) (d : RegNo) (m : MemForm) (data : Team → Nat → List RWord)
    (okHost : Bool) (kind : Team → Nat → WriteKind) (op : AtomOp) (t : Team) (hs : Memory.wf s.mem = true) :
    Memory.wf (atomReturn i h ty d m data okHost kind op s t).state.mem = true := by
  unfold atomReturn
  refine memWith_wf i h m .atomic false data _ t hs fun wait s t failed outs hw hs => ?_
  dsimp only
  split
  · simpa using hs
  · split
    · simpa using hs
    · split
      · simpa using hs
      · split
        · simpa using hs
        · split
          · exact hw _ fun s hs => State.askAtoms_wf i _ t _ hs
          · split
            · simp [hs]
            · rw [returnLanes_mem]
              simp [hs]

@[simp] theorem execVAtom_wf {s : State} (h : Hdr) (aop : AtomOp) (ty : Ty) (d a b c : RegNo) (sp : Bool) (hs : Memory.wf s.mem = true) :
    (execVAtom h aop ty d a b c sp s).MemWf :=
  withTeam_wf hs fun t => atomReturn_wf _ _ _ _ _ _ _ _ _ t hs

@[simp] theorem execVCas_wf {s : State} (h : Hdr) (ty : Ty) (d a b c : RegNo) (sp : Bool) (hs : Memory.wf s.mem = true) :
    (execVCas h ty d a b c sp s).MemWf :=
  withTeam_wf hs fun t => atomReturn_wf _ _ _ _ _ _ _ _ _ t hs

@[simp] theorem State.acceptAtomic_mem (s : State) (w : PWrite) : (s.acceptAtomic w).mem = s.mem := by simp [State.acceptAtomic]

theorem sendAtoms_wf {s : State} (i : Instr) (h : Hdr) (aop : AtomOp) (ty : Ty) (b : RegNo) (sp : Bool) (t : Team)
    (acc : List (Nat × Nat × Nat)) (hs : Memory.wf s.mem = true) :
    Memory.wf (sendAtoms i h aop ty b sp s t acc).state.mem = true := by
  unfold sendAtoms
  refine sendWrites_wf i t _ hs fun s t ws hs => ?_
  rw [Res.state_done, State.putTeam_mem, State.mem_foldl State.acceptAtomic_mem]
  exact hs

@[simp] theorem execVAtomn_wf {s : State} (h : Hdr) (aop : AtomOp) (ty : Ty) (a b c : RegNo) (sp : Bool) (hs : Memory.wf s.mem = true) :
    (execVAtomn h aop ty a b c sp s).MemWf :=
  withTeam_wf hs fun t => memWith_wf _ _ _ _ _ _ _ t hs fun _ s t _ outs _ hs =>
    sendAtoms_wf _ _ _ _ _ _ t _ (by simpa using hs)

@[simp] theorem execHomeStoreRegister_wf {s : State} (i : Nat) (hs : Memory.wf s.mem = true) : (execHomeStoreRegister i s).MemWf := by
  unfold execHomeStoreRegister
  split <;> simp [hs]

@[simp] theorem execAtomicApply_wf {s : State} (i : Nat) (hs : Memory.wf s.mem = true) : (execAtomicApply i s).MemWf := by
  unfold execAtomicApply
  split <;> simp [hs]

@[simp] theorem execRevokeAck_wf {s : State} (i : Nat) (hs : Memory.wf s.mem = true) : (execRevokeAck i s).MemWf := by
  unfold execRevokeAck
  split <;> simp [hs]

@[simp] theorem execLoadDataReturn_wf {s : State} (uid : Nat) (hs : Memory.wf s.mem = true) : (execLoadDataReturn uid s).MemWf := by
  unfold execLoadDataReturn
  repeat' split
  all_goals simp [hs]

@[simp] theorem execLlcMissTranslate_wf {s : State} (slot va : Nat) (acc : Acc) (hs : Memory.wf s.mem = true) :
    (execLlcMissTranslate slot va acc s).MemWf := by
  simp only [execLlcMissTranslate]
  repeat' split
  all_goals simp [hs]

@[simp] theorem execPageWalkComplete_wf {s : State} (slot va : Nat) (hs : Memory.wf s.mem = true) : (execPageWalkComplete slot va s).MemWf := by
  simp only [execPageWalkComplete]
  repeat' split
  all_goals simp [hs]

@[simp] theorem execZeroLengthReadComplete_wf {s : State} (tag : Nat) (hs : Memory.wf s.mem = true) : (execZeroLengthReadComplete tag s).MemWf := by
  simp only [execZeroLengthReadComplete]
  repeat' split
  all_goals simp [hs]

@[simp] theorem State.injectBlock_wf {s : State} (e : CodeErr) (t : Team) (vt : Bool) (x : Nat × Nat × Nat) (hs : Memory.wf s.mem = true) :
    Memory.wf (State.injectBlock e t vt s x).mem = true := by simp [State.injectBlock, hs]

theorem injm_wf {s : State} (i : Instr) (h : Hdr) (vt : Bool) (e : CodeErr) (a : RegNo) (t : Team) (hs : Memory.wf s.mem = true) :
    Memory.wf (injm i h vt e a s t).state.mem = true :=
  memWith_wf i h _ .write false _ id t hs fun _ s t _ outs _ hs =>
    Memory.wf_foldl (fun s x hs => State.injectBlock_wf e t vt x hs) _ (by simpa using hs)

@[simp] theorem execCkInjmGCe_wf {s : State} (h : Hdr) (a : RegNo) (hs : Memory.wf s.mem = true) : (execCkInjmGCe h a s).MemWf :=
  withTeam_wf hs fun t => injm_wf _ _ _ _ _ t hs

@[simp] theorem execCkInjmGUe_wf {s : State} (h : Hdr) (a : RegNo) (hs : Memory.wf s.mem = true) : (execCkInjmGUe h a s).MemWf :=
  withTeam_wf hs fun t => injm_wf _ _ _ _ _ t hs

@[simp] theorem execCkInjmVtCe_wf {s : State} (h : Hdr) (a : RegNo) (hs : Memory.wf s.mem = true) : (execCkInjmVtCe h a s).MemWf :=
  withTeam_wf hs fun t => injm_wf _ _ _ _ _ t hs

@[simp] theorem execCkInjmVtUe_wf {s : State} (h : Hdr) (a : RegNo) (hs : Memory.wf s.mem = true) : (execCkInjmVtUe h a s).MemWf :=
  withTeam_wf hs fun t => injm_wf _ _ _ _ _ t hs

@[simp] theorem State.scrubBlock_mem (s : State) (f : Finder) (key va : Nat) : (s.scrubBlock f key va).mem = s.mem := by simp [State.scrubBlock]

@[simp] theorem State.scrubPlace_mem (s : State) (f : Finder) (p : Nat) : (s.scrubPlace f p).mem = s.mem := by simp [State.scrubPlace]

@[simp] theorem State.scrubOnce_mem (s : State) : s.scrubOnce.mem = s.mem := by simp [State.scrubOnce]

@[simp] theorem execScrubRead_wf {s : State} (hs : Memory.wf s.mem = true) : (execScrubRead s).MemWf := by simp [execScrubRead, hs]

end Sys2Proof.Machine
end

section
/-! SUPPORT. Memory stays canonical: code segments; waits, barriers and fences. -/

namespace Sys2Proof.Machine

open Sys2Proof

@[simp] theorem State.startLoad_mem (s : State) (k n asid addr : Nat) (ws : List CodeWaiter) : (s.startLoad k n asid addr ws).mem = s.mem := by rfl

@[simp] theorem State.mapWaiters_mem (s : State) (f : CodeWaiter → Option CodeWaiter) : (s.mapWaiters f).mem = s.mem := by rfl

@[simp] theorem State.landed_mem (s : State) (w : CodeWaiter) : (s.landed w).mem = s.mem := by simp [State.landed]

@[simp] theorem State.loadFailed_mem (s : State) (w : CodeWaiter) : (s.loadFailed w).mem = s.mem := by simp [State.loadFailed]

@[simp] theorem State.requestCode_mem (s : State) (k asid addr : Nat) (reload : Bool) (w : CodeWaiter) :
    (s.requestCode k asid addr reload w).mem = s.mem := by
  simp only [State.requestCode]
  repeat' split
  all_goals simp

@[simp] theorem State.serveLoads_mem (s : State) (k : Nat) : (s.serveLoads k).mem = s.mem := by simp [State.serveLoads]

theorem cfetch_wf {s : State} (reload : Bool) (d : RegNo) (n : Nat) (t : Team) (gs : List Nat) (lead a : Nat)
    (hs : Memory.wf s.mem = true) : Memory.wf (cfetch reload d n s t gs lead a).state.mem = true := by
  unfold cfetch
  split
  · exact hs
  · refine withHandle_wf t d gs 6 hs fun s who _ hs => ?_
    dsimp only
    generalize (if a = 0 then _ else a : Nat) = addr
    split
    · simpa using hs
    · rw [Res.state_done, State.landed_mem, State.mem_foldl fun _ _ => State.requestCode_mem ..]
      exact hs

@[simp] theorem execSCfetch_wf {s : State} (h : Hdr) (d a : RegNo) (n : BitVec 4) (hs : Memory.wf s.mem = true) :
    (execSCfetch h d a n s).MemWf :=
  teamWord_wf hs fun _ t gs lead _ hs => cfetch_wf false d n.toNat t gs lead _ hs

@[simp] theorem execSCfetchReload_wf {s : State} (h : Hdr) (d a : RegNo) (n : BitVec 4) (hs : Memory.wf s.mem = true) :
    (execSCfetchReload h d a n s).MemWf :=
  teamWord_wf hs fun _ t gs lead _ hs => cfetch_wf true d n.toNat t gs lead _ hs

@[simp] theorem State.clearCodeErrs_mem (s : State) (k n : Nat) : (s.clearCodeErrs k n).mem = s.mem := by rfl

@[simp] theorem State.meetCodeWord_mem (s : State) (k n word : Nat) : (s.meetCodeWord k n word).mem = s.mem := by
  unfold State.meetCodeWord
  split <;> simp

@[simp] theorem State.landCode_mem (s : State) (k n : Nat) (sl : CodeSlot) : (s.landCode k n sl).mem = s.mem := by
  have bad : ∀ s : State, (sl.waiters.foldl State.loadFailed
      (s.putCore k ((s.core k).putCode n { sl with st := .bad, waiters := [] }))).mem = s.mem := fun s =>
    State.mem_foldl State.loadFailed_mem ..
  unfold State.landCode
  dsimp only
  split
  · exact bad s
  · split
    · exact bad s
    · simp
    · split
      · rw [bad]; simp
      · rw [State.mem_foldl State.landed_mem]; simp

@[simp] theorem execCfetchLand_wf {s : State} (core slot : Nat) (hs : Memory.wf s.mem = true) : (execCfetchLand core slot s).MemWf := by
  simp [execCfetchLand, hs]

@[simp] theorem execCodeSlotPinExpiry_wf {s : State} (core slot : Nat) (hs : Memory.wf s.mem = true) : (execCodeSlotPinExpiry core slot s).MemWf := by
  simp [execCodeSlotPinExpiry, hs]

@[simp] theorem State.completeHeld_wf {s : State} (uid : Nat) (hs : Memory.wf s.mem = true) : Memory.wf (s.completeHeld uid).mem = true := by
  unfold State.completeHeld
  split <;> simp [hs]

@[simp] theorem State.holdTeam_mem (s : State) (uid len : Nat) (h : Hold) : (s.holdTeam uid len h).mem = s.mem := by rfl

theorem barArrive_wf {s : State} (len b n : Nat) (sync : Bool) (d : RegNo) (t : Team) (gs : List Nat) (hs : Memory.wf s.mem = true) :
    Memory.wf (barArrive len b n sync d s t gs).state.mem = true := by
  unfold barArrive
  split
  · exact hs
  · split
    · exact hs
    · split
      · exact hs
      · exact State.releaseThen_wf t hs (fun _ hs => hs) fun s hs => by simpa using hs

@[simp] theorem execSBarSync_wf {s : State} (h : Hdr) (d : RegNo) (bar : BitVec 11) (hs : Memory.wf s.mem = true) :
    (execSBarSync h d bar s).MemWf :=
  teamWord_wf hs fun _ t gs _ _ hs => barArrive_wf _ _ _ _ _ t gs hs

@[simp] theorem execSBarArr_wf {s : State} (h : Hdr) (d : RegNo) (bar : BitVec 11) (c : RegNo) (hs : Memory.wf s.mem = true) :
    (execSBarArr h d bar c s).MemWf :=
  teamWord_wf hs fun _ t gs _ _ hs => barArrive_wf _ _ _ _ _ t gs hs

@[simp] theorem barWait_mem (len : Nat) (b : Nat) (token : BitVec 16) (s : State) (t : Team) : (barWait len b token s t).state.mem = s.mem := by
  unfold barWait
  repeat' split
  all_goals simp

@[simp] theorem execSBarWait_wf {s : State} (h : Hdr) (d : RegNo) (bar : BitVec 11) (hs : Memory.wf s.mem = true) : (execSBarWait h d bar s).MemWf :=
  teamWord_wf hs fun s t gs lead xs hs => by simpa using hs

@[simp] theorem State.releasePhase_mem (s : State) (core idx gid : Nat) (token : BitVec 16) : (s.releasePhase core idx gid token).mem = s.mem :=
  by rfl

@[simp] theorem execBarrierArrival_wf {s : State} (n : Nat) (hs : Memory.wf s.mem = true) : (execBarrierArrival n s).MemWf := by
  simp only [execBarrierArrival]
  repeat' split
  all_goals simp [hs]

@[simp] theorem execBarrierTokenReturn_wf {s : State} (uid : Nat) (hs : Memory.wf s.mem = true) : (execBarrierTokenReturn uid s).MemWf := by
  unfold execBarrierTokenReturn
  repeat' split
  all_goals simp [hs]

@[simp] theorem execBarrierRelease_wf {s : State} (uid : Nat) (hs : Memory.wf s.mem = true) : (execBarrierRelease uid s).MemWf := by
  unfold execBarrierRelease
  repeat' split
  all_goals simp [hs]

@[simp] theorem execSSleepu_wf {s : State} (h : Hdr) (a : RegNo) (hs : Memory.wf s.mem = true) : (execSSleepu h a s).MemWf :=
  teamWord_wf hs fun s t _ _ _ hs => by split <;> simpa using hs

@[simp] theorem execSleepWake_wf {s : State} (uid : Nat) (hs : Memory.wf s.mem = true) : (execSleepWake uid s).MemWf := by
  unfold execSleepWake
  repeat' split
  all_goals simp [hs]

@[simp] theorem State.answerWait_mem (s : State) (t : Team) (st : HStatus) (d : RegNo) (gs : List Nat) : (s.answerWait t st d gs).mem = s.mem := by
  simp [State.answerWait]

@[simp] theorem State.lateHeld_mem (s : State) (uid : Nat) : (s.lateHeld uid).mem = s.mem := by rfl

@[simp] theorem waitOn_mem (len : Nat) (h : Hold) (slots : List HSlot) (s : State) (t : Team) : (waitOn len h slots s t).state.mem = s.mem := by
  unfold waitOn
  repeat' split
  all_goals simp

@[simp] theorem execSWait_wf {s : State} (h : Hdr) (d a : RegNo) (hs : Memory.wf s.mem = true) : (execSWait h d a s).MemWf :=
  teamWord_wf hs fun s t gs lead xs hs => by
  dsimp only
  split <;> simpa using hs

@[simp] theorem execSPoll_wf {s : State} (h : Hdr) (d a : RegNo) (hs : Memory.wf s.mem = true) : (execSPoll h d a s).MemWf :=
  teamWord_wf hs fun s t gs lead xs hs => by simpa using hs

@[simp] theorem execSWaitall_wf {s : State} (h : Hdr) (hs : Memory.wf s.mem = true) : (execSWaitall h s).MemWf :=
  teamWord_wf hs fun s t _ _ _ hs => by split <;> simpa using hs

@[simp] theorem execHandleCompleteWake_wf {s : State} (uid : Nat) (hs : Memory.wf s.mem = true) : (execHandleCompleteWake uid s).MemWf := by
  unfold execHandleCompleteWake
  repeat' split
  all_goals simp [hs]

@[simp] theorem execCopyLateCheck_wf {s : State} (uid : Nat) (hs : Memory.wf s.mem = true) : (execCopyLateCheck uid s).MemWf := by
  unfold execCopyLateCheck
  split <;> simp [hs]

@[simp] theorem execPreciseStop_wf {s : State} (uid : Nat) (hs : Memory.wf s.mem = true) : (execPreciseStop uid s).MemWf := by
  unfold execPreciseStop
  repeat' split
  all_goals simp [hs]

@[simp] theorem execSFenceAcq_wf {s : State} (h : Hdr) (hs : Memory.wf s.mem = true) : (execSFenceAcq h s).MemWf :=
  teamWord_wf hs fun s t gs lead xs hs => by simpa using hs

@[simp] theorem execSFenceRel_wf {s : State} (h : Hdr) (hs : Memory.wf s.mem = true) : (execSFenceRel h s).MemWf :=
  teamWord_wf hs fun _ t _ _ _ hs => State.fenceWith_wf t .rel hs fun _ hs => hs

@[simp] theorem execSFenceAcqrel_wf {s : State} (h : Hdr) (hs : Memory.wf s.mem = true) : (execSFenceAcqrel h s).MemWf :=
  teamWord_wf hs fun s t _ _ _ hs =>
    State.fenceWith_wf t .rel (by simpa using hs) fun _ hs => hs

@[simp] theorem execSFenceSc_wf {s : State} (h : Hdr) (hs : Memory.wf s.mem = true) : (execSFenceSc h s).MemWf :=
  teamWord_wf hs fun s t _ _ _ hs =>
    State.fenceWith_wf (done := fun s => s.acquireFor t) t .sc hs fun s hs => by simpa using hs

end Sys2Proof.Machine
end

section
/-! SUPPORT. Memory stays canonical: queues, packets and placement; eviction and restore. -/

namespace Sys2Proof.Machine

open Sys2Proof

@[simp] theorem State.logPacket_wf {s : State} (slot kind detail q pos : Nat) (hs : Memory.wf s.mem = true) :
    Memory.wf (s.logPacket slot kind detail q pos).mem = true := by simp [State.logPacket, hs]

@[simp] theorem State.doneWord_wf {s : State} (slot q pos addr val : Nat) (hs : Memory.wf s.mem = true) :
    Memory.wf (s.doneWord slot q pos addr val).mem = true := by
  unfold State.doneWord
  repeat' split
  all_goals simp [hs]

@[simp] theorem State.reject_wf {s : State} (slot q pos reason p : Nat) (hs : Memory.wf s.mem = true) :
    Memory.wf (s.reject slot q pos reason p).mem = true := by simp [State.reject, hs]

theorem State.unlessAts_wf {k : State → State} {s : State} (c : Ctx) (acc : Acc) (va n : Nat) (hs : Memory.wf s.mem = true)
    (hk : ∀ s, Memory.wf s.mem = true → Memory.wf (k s).mem = true) : Memory.wf (s.unlessAts c acc va n k).mem = true := by
  unfold State.unlessAts
  split
  · simpa using hs
  · exact hk s hs

theorem State.dispatchRead_wf {k : State → Option (List Byte) → State} {s : State} (slot va n : Nat) (hs : Memory.wf s.mem = true)
    (hk : ∀ s b, Memory.wf s.mem = true → Memory.wf (k s b).mem = true) : Memory.wf (s.dispatchRead slot va n k).mem = true := by
  refine State.unlessAts_wf _ _ _ _ hs fun s hs => ?_
  have hm : Memory.wf (s.meetRange (Finder.engine 0 (s.ctx slot).asid 0) (s.ctx slot) va n).mem = true := by simpa using hs
  dsimp only
  split
  · exact hk _ _ hm
  · exact hm

theorem State.withImage_wf {k : State → State} {s : State} (slot p : Nat) (hs : Memory.wf s.mem = true)
    (hk : ∀ s, Memory.wf s.mem = true → Memory.wf (k s).mem = true) : Memory.wf (s.withImage slot p k).mem = true := by
  unfold State.withImage
  split
  · exact hk s hs
  · exact State.dispatchRead_wf _ _ _ hs fun s _ hs => hk s hs

theorem State.withDone_wf {k : State → State} {s : State} (slot addr : Nat) (hs : Memory.wf s.mem = true)
    (hk : ∀ s, Memory.wf s.mem = true → Memory.wf (k s).mem = true) : Memory.wf (s.withDone slot addr k).mem = true :=
  State.unlessAts_wf _ _ _ _ hs hk

@[simp] theorem State.putQueue_mem (s : State) (slot q : Nat) (x : Queue) : (s.putQueue slot q x).mem = s.mem := by rfl

@[simp] theorem State.stopQueue_wf {s : State} (slot q reason : Nat) (hs : Memory.wf s.mem = true) :
    Memory.wf (s.stopQueue slot q reason).mem = true := by simp [State.stopQueue, hs]

@[simp] theorem State.readTail_wf {s : State} (slot q : Nat) (hs : Memory.wf s.mem = true) : Memory.wf (s.readTail slot q).mem = true := by
  unfold State.readTail
  dsimp only
  split
  · exact hs
  · refine State.dispatchRead_wf _ _ _ hs fun s b hs => ?_
    split
    · simp [hs]
    · split <;> simp [hs]

@[simp] theorem execQueueTableEntryWrite_wf {s : State} (slot q : Nat) (hs : Memory.wf s.mem = true) :
    (execQueueTableEntryWrite slot q s).MemWf := by
  simp only [execQueueTableEntryWrite, Out.memWf_next]
  split
  · exact hs
  · split
    · simpa using hs
    · exact hs
    · split
      · simp [hs]
      · refine State.dispatchRead_wf _ _ _ (by simpa using hs) fun s b hs => ?_
        split <;> simp [hs]

@[simp] theorem execQueueTailStore_wf {s : State} (slot q : Nat) (hs : Memory.wf s.mem = true) : (execQueueTailStore slot q s).MemWf := by
  unfold execQueueTailStore
  split <;> simp [hs]

@[simp] theorem State.takePacket_wf {s : State} (slot q pos p : Nat) (hs : Memory.wf s.mem = true) :
    Memory.wf (s.takePacket slot q pos p).mem = true := by simp [State.takePacket, hs]

@[simp] theorem execLaunchPacketConsume_wf {s : State} (slot q : Nat) (hs : Memory.wf s.mem = true) :
    (execLaunchPacketConsume slot q s).MemWf := by
  simp only [execLaunchPacketConsume, Out.memWf_next]
  split
  · exact hs
  · refine State.dispatchRead_wf _ _ _ (by simpa using hs) fun s b hs => ?_
    split
    · simp [hs]
    · refine State.withImage_wf _ _ hs fun s hs => State.withDone_wf _ _ hs fun s hs => ?_
      split <;> simp [hs]

@[simp] theorem State.modPacket_mem (s : State) (slot seq : Nat) (f : Packet → Packet) : (s.modPacket slot seq f).mem = s.mem := by rfl

@[simp] theorem State.endPacket_wf {s : State} (slot seq : Nat) (hs : Memory.wf s.mem = true) : Memory.wf (s.endPacket slot seq).mem = true := by
  unfold State.endPacket
  split <;> simp [hs]

@[simp] theorem State.startGrid_mem (s : State) (g : Grid) (seq : Nat) (tape : Bool) : (s.startGrid g seq tape).2.mem = s.mem := by rfl

@[simp] theorem execPacketStart_wf {s : State} (slot q : Nat) (hs : Memory.wf s.mem = true) : (execPacketStart slot q s).MemWf := by
  unfold execPacketStart
  repeat' split
  all_goals simp [hs]

@[simp] theorem State.loadTeamCode_mem (s : State) (t : Team) : (s.loadTeamCode t).mem = s.mem := by simp [State.loadTeamCode]

@[simp] theorem State.seat_mem (s : State) (g : Grid) (t : Team) (home : Nat) : (s.seat g t home).mem = s.mem := by simp [State.seat]

theorem State.placeTeam_mem {s s' : State} {gid lin cl : Nat} (h : s.placeTeam gid lin cl = some s') : s'.mem = s.mem := by
  unfold State.placeTeam at h
  split at h
  · cases h
  · obtain ⟨home, -, rfl⟩ := Option.map_eq_some_iff.mp h
    simp

theorem State.ensureRegion_mem {s s' : State} {g : Grid} {cl : Nat} (h : s.ensureRegion g cl = some s') : s'.mem = s.mem := by
  unfold State.ensureRegion at h
  split at h
  · cases h; rfl
  · obtain ⟨b, -, rfl⟩ := Option.map_eq_some_iff.mp h
    rfl

theorem State.placeTeams_mem {gid cl : Nat} : ∀ {ls : List Nat} {s s' : State}, State.placeTeams gid cl ls s = some s' → s'.mem = s.mem
  | [], _, _, h => by cases h; rfl
  | l :: ls, s, s', h => by
    obtain ⟨s1, h1, h2⟩ := Option.bind_eq_some_iff.mp h
    rw [State.placeTeams_mem h2, State.placeTeam_mem h1]

theorem State.placePack_mem {s s' : State} {g : Grid} {cl : Nat} (h : s.placePack g cl = some s') : s'.mem = s.mem := by
  obtain ⟨s2, h2, rfl⟩ := Option.map_eq_some_iff.mp h
  obtain ⟨s1, h1, h2⟩ := Option.bind_eq_some_iff.mp h2
  rw [State.modGrid_mem, State.placeTeams_mem h2, State.ensureRegion_mem h1]

theorem State.placeNext_mem {s s' : State} {gid : Nat} (h : s.placeNext gid = some s') : s'.mem = s.mem := by
  unfold State.placeNext at h
  split at h
  · cases h
  · obtain ⟨cl, -, h⟩ := List.exists_of_findSome?_eq_some h
    exact State.placePack_mem h

@[simp] theorem execPackPlace_wf {s : State} (gid : Nat) (hs : Memory.wf s.mem = true) : (execPackPlace gid s).MemWf := by
  simp only [execPackPlace, Out.memWf_next]
  split
  · exact hs
  · split
    · exact hs
    · rw [State.mem_getD fun _ => State.placeNext_mem]
      exact hs

theorem State.placeAll_mem {gid : Nat} : ∀ {n : Nat} {s s' : State}, State.placeAll gid n s = some s' → s'.mem = s.mem
  | 0, _, _, h => by cases h; rfl
  | n + 1, s, s', h => by
    obtain ⟨s1, h1, h2⟩ := Option.bind_eq_some_iff.mp h
    rw [State.placeAll_mem h2, State.placeNext_mem h1]

@[simp] theorem execWholeGridPlace_wf {s : State} (gid : Nat) (hs : Memory.wf s.mem = true) : (execWholeGridPlace gid s).MemWf := by
  simp only [execWholeGridPlace, Out.memWf_next]
  split
  · exact hs
  · split
    · exact hs
    · rw [State.mem_getD fun _ => State.placeAll_mem]
      exact hs

@[simp] theorem State.closeGrid_mem (s : State) (g : Grid) : (s.closeGrid g).mem = s.mem := by
  unfold State.closeGrid
  split <;> simp

theorem State.gridReleased_wf {k : State → State} {s : State} (g : Grid) (hs : Memory.wf s.mem = true)
    (hk : ∀ s, Memory.wf s.mem = true → Memory.wf (k s).mem = true) : Memory.wf (s.gridReleased g k).mem = true := by
  unfold State.gridReleased
  dsimp only
  split
  · split
    · exact hk _ hs
    · exact hs
  · split
    · exact hk _ (by simp [hs])
    · simp [hs]

@[simp] theorem execGridEnd_wf {s : State} (gid : Nat) (hs : Memory.wf s.mem = true) : (execGridEnd gid s).MemWf := by
  simp only [execGridEnd, Out.memWf_next]
  split
  · exact hs
  · split
    · exact hs
    · refine State.withDone_wf _ _ hs fun s hs => State.gridReleased_wf _ hs fun s hs => ?_
      split <;> simp [hs]

@[simp] theorem execTapeRunStart_wf {s : State} (slot q : Nat) (hs : Memory.wf s.mem = true) : (execTapeRunStart slot q s).MemWf := by
  simp only [execTapeRunStart, Out.memWf_next]
  split
  · exact hs
  · split
    · exact hs
    · refine State.withDone_wf _ _ hs fun s hs => ?_
      split <;> simp [hs]

@[simp] theorem State.startRecord_mem (s : State) (slot : Nat) (run : TapeRun) (p : Nat) (g : Grid) : (s.startRecord slot run p g).mem = s.mem := by
  simp [State.startRecord]

@[simp] theorem State.launchRecord_wf {s : State} (slot : Nat) (run : TapeRun) (p : Nat) (hs : Memory.wf s.mem = true) :
    Memory.wf (s.launchRecord slot run p).mem = true := by
  simp only [State.launchRecord]
  repeat' split
  all_goals simp [hs]

@[simp] theorem execTapePop_wf {s : State} (slot : Nat) (hs : Memory.wf s.mem = true) : (execTapePop slot s).MemWf := by
  simp only [execTapePop, Out.memWf_next]
  split
  · exact hs
  · split
    · exact hs
    · split
      · simpa using hs
      · split
        · split
          · exact hs
          · exact State.withDone_wf _ _ hs fun s hs => by simp [hs]
        · refine State.dispatchRead_wf _ _ _ hs fun s b hs => ?_
          split
          · simp [hs]
          · exact State.withImage_wf _ _ hs fun s hs => State.withDone_wf _ _ hs fun s hs => by simp [hs]

@[simp] theorem execStepEndClose_wf {s : State} (slot q : Nat) (hs : Memory.wf s.mem = true) : (execStepEndClose slot q s).MemWf := by
  simp only [execStepEndClose, Out.memWf_next]
  split
  · exact hs
  · split
    · exact hs
    · exact State.withDone_wf _ _ hs fun s hs => by simp [hs]

theorem withLoad_wf {k : State → Nat → Res} {s : State} (i : Instr) (d : RegNo) (gs : List Nat) (lead a n : Nat) (t : Team)
    (hs : Memory.wf s.mem = true) (hk : ∀ s x, Memory.wf s.mem = true → Memory.wf (k s x).state.mem = true) :
    Memory.wf (withLoad i d gs lead a n s t k).state.mem = true := by
  unfold withLoad
  dsimp only
  split
  · exact hs
  · simpa using hs
  · split
    · simp [hs]
    · split
      · exact hk _ _ (by simp [hs])
      · split <;> simp [hs]
  · exact hs

theorem withPacket_wf {k : State → Nat → Res} {s : State} (i : Instr) (d : RegNo) (gs : List Nat) (lead a : Nat) (t : Team)
    (hs : Memory.wf s.mem = true) (hk : ∀ s x, Memory.wf s.mem = true → Memory.wf (k s x).state.mem = true) :
    Memory.wf (withPacket i d gs lead a s t k).state.mem = true := by
  unfold withPacket
  split
  · exact hs
  · exact State.releaseThen_wf t hs (fun _ hs => hs) fun s hs => withLoad_wf i d gs lead a 128 t hs hk

@[simp] theorem execDpLaunch_wf {s : State} (h : Hdr) (d a b : RegNo) (hs : Memory.wf s.mem = true) : (execDpLaunch h d a b s).MemWf := by
  refine teamWord_wf hs fun s t gs lead xs hs => ?_
  dsimp only
  split
  · exact hs
  · refine withPacket_wf _ _ _ _ _ t hs fun s p hs => ?_
    split
    · exact hs
    · split
      · split <;> simp [hs]
      · simpa using hs
      · split <;> simp [hs]

@[simp] theorem execDpQstat_wf {s : State} (h : Hdr) (d b : RegNo) (hs : Memory.wf s.mem = true) : (execDpQstat h d b s).MemWf :=
  teamWord_wf hs fun s t gs lead xs hs => by simpa using hs

@[simp] theorem execDpTadd_wf {s : State} (h : Hdr) (d a : RegNo) (hs : Memory.wf s.mem = true) : (execDpTadd h d a s).MemWf := by
  refine teamWord_wf hs fun s t gs lead xs hs => ?_
  refine withPacket_wf _ _ _ _ _ t hs fun s p hs => ?_
  dsimp only
  split
  · exact hs
  · split <;> simp [hs]

@[simp] theorem execDpTdrop_wf {s : State} (h : Hdr) (d a : RegNo) (hs : Memory.wf s.mem = true) : (execDpTdrop h d a s).MemWf :=
  teamWord_wf hs fun s t gs lead xs hs => by
  dsimp only
  split <;> simpa using hs

@[simp] theorem execDpTdepth_wf {s : State} (h : Hdr) (d : RegNo) (hs : Memory.wf s.mem = true) : (execDpTdepth h d s).MemWf :=
  teamWord_wf hs fun s t gs lead xs hs => by simpa using hs

@[simp] theorem execDpLsovf_wf {s : State} (h : Hdr) (hs : Memory.wf s.mem = true) : (execDpLsovf h s).MemWf :=
  teamWord_wf hs fun s t gs lead xs hs => by simpa using hs

@[simp] theorem execDpLsstep_wf {s : State} (h : Hdr) (hs : Memory.wf s.mem = true) : (execDpLsstep h s).MemWf :=
  teamWord_wf hs fun s t gs lead xs hs => by
  dsimp only
  split <;> simpa using hs

@[simp] theorem execPartialEviction_wf {s : State} (gid : Nat) (hs : Memory.wf s.mem = true) : (execPartialEviction gid s).MemWf := by
  unfold execPartialEviction
  repeat' split
  all_goals simp [hs]

@[simp] theorem State.evict_mem (s : State) (t : Team) : (s.evict t).mem = s.mem := by simp [State.evict]

@[simp] theorem execEvictionDrainDone_wf {s : State} (uid : Nat) (hs : Memory.wf s.mem = true) : (execEvictionDrainDone uid s).MemWf := by
  unfold execEvictionDrainDone
  split <;> simp [hs]

@[simp] theorem State.reseat_mem (s : State) (t : Team) (home : Nat) : (s.reseat t home).mem = s.mem := by simp [State.reseat]

@[simp] theorem execTeamRestore_wf {s : State} (uid : Nat) (hs : Memory.wf s.mem = true) : (execTeamRestore uid s).MemWf := by
  unfold execTeamRestore
  repeat' split
  all_goals simp [hs]

end Sys2Proof.Machine
end

section
/-! SUPPORT. Memory stays canonical: grants of engine work; the matrix engine. -/

namespace Sys2Proof.Machine

open Sys2Proof

theorem withAcq_wf {k : State → Res} {s : State} (acq : Bool) (t : Team) (hs : Memory.wf s.mem = true)
    (hk : ∀ s, Memory.wf s.mem = true → Memory.wf (k s).state.mem = true) : Memory.wf (withAcq acq s t k).state.mem = true := by
  unfold withAcq
  split
  · exact State.releaseThen_wf t hs (fun _ hs => hs) fun s hs => hk _ (by simpa using hs)
  · exact hk _ hs

@[simp] theorem State.takeInj_mem (s : State) (uid unit : Nat) : (s.takeInj uid unit).mem = s.mem := by
  unfold State.takeInj
  split <;> simp

@[simp] theorem State.settleElement_mem (s : State) (inj unit uid asid : Nat) (pc : BitVec 16) (ins : Nat × Nat) (w : Nat) :
    (s.settleElement inj unit uid asid pc ins w).mem = s.mem := by simp [State.settleElement]

@[simp] theorem State.setDieBal_mem (s : State) (d x : Nat) : (s.setDieBal d x).mem = s.mem := by rfl

theorem State.grantRun_mem {s s' : State} {cost : Nat} {u : RunUnit} (h : s.grantRun cost u = some s') : s'.mem = s.mem := by
  unfold State.grantRun at h
  dsimp only at h
  split at h
  · cases h
  · split at h <;> split at h <;> cases h <;> rfl

theorem State.grantUnit_mem {s s' : State} {cost rate : Nat} {die : Option Nat} {endsAt : Nat}
    (h : s.grantUnit cost rate die endsAt = some s') : s'.mem = s.mem :=
  State.grantRun_mem h

theorem State.grantWork_mem {s s' : State} {v cost d : Nat} (h : s.grantWork v cost d = some s') : s'.mem = s.mem :=
  State.grantRun_mem h

@[simp] theorem State.meetRows_mem (s : State) (f : Finder) (v row n : Nat) : (s.meetRows f v row n).mem = s.mem := by simp [State.meetRows]

@[simp] theorem State.newRows_mem (s : State) (v row n : Nat) : (s.newRows v row n).mem = s.mem := by rfl

@[simp] theorem State.withdraw_mem (s : State) (t : Team) : (s.withdraw t).mem = s.mem := by
  simp only [State.withdraw]
  split <;> simp

theorem gangOp_wf {k : State → Team → List Nat → Nat → List Nat → Res} {s : State} {i : Instr} {h : Hdr} {d : RegNo} {n : Nat}
    {srcs : List (RegNo × Nat)} (t : Team) (hs : Memory.wf s.mem = true)
    (hk : ∀ s t gs lead xs, Memory.wf s.mem = true → Memory.wf (k s t gs lead xs).state.mem = true) :
    Memory.wf (gangOp i h d n srcs k s t).state.mem = true := by
  have ht : Memory.wf (teamOp i h d n srcs k s t).state.mem = true := teamOp_wf t hs hk
  unfold gangOp
  dsimp only
  split
  · rename_i s' e
    rw [e] at ht
    split <;> simpa using ht
  · exact ht

@[simp] theorem execMxGang_wf {s : State} (h : Hdr) (d a b : RegNo) (hs : Memory.wf s.mem = true) : (execMxGang h d a b s).MemWf := by
  refine withTeam_wf hs fun t => gangOp_wf t hs fun s t gs _ xs hs => ?_
  dsimp only
  repeat' split
  all_goals simpa using hs

@[simp] theorem State.joinGang_wf {s : State} (k id n : Nat) (m : GangMember) (hs : Memory.wf s.mem = true) :
    Memory.wf (s.joinGang k id n m).mem = true := by
  unfold State.joinGang
  split
  · exact hs
  · split
    · exact hs
    · refine State.completeHeld_wf _ ?_
      split
      · exact hs
      · rw [State.putCluster_mem]
        exact hs

@[simp] theorem execGangForm_wf {s : State} (v id : Nat) (hs : Memory.wf s.mem = true) : (execGangForm v id s).MemWf := by
  simp only [execGangForm, Out.memWf_next]
  split
  · exact hs
  · split
    · exact hs
    · exact Memory.wf_foldl (fun s m hs => State.joinGang_wf _ _ _ m hs) _ hs

@[simp] theorem execWindowAllocate_wf {s : State} (v : Nat) (hs : Memory.wf s.mem = true) : (execWindowAllocate v s).MemWf := by
  simp only [execWindowAllocate, Out.memWf_next]
  split
  · exact hs
  · split
    · exact hs
    · rw [State.putCluster_mem, State.mem_foldl fun s m => ?_, State.newRows_mem]
      · exact hs
      · split <;> split <;> simp

@[simp] theorem execMxFree_wf {s : State} (h : Hdr) (hs : Memory.wf s.mem = true) : (execMxFree h s).MemWf :=
  teamWord_wf hs fun s t _ _ _ hs => by simpa using hs

@[simp] theorem execMxMma_wf {s : State} (h : Hdr) (d a b c : RegNo) (acc z acq : Bool) (hs : Memory.wf s.mem = true) :
    (execMxMma h d a b c acc z acq s).MemWf := by
  refine withTeam_wf hs fun t => gangOp_wf t hs fun s t gs lead xs hs => ?_
  dsimp only
  split
  · exact hs
  · split
    · exact hs
    · refine withAcq_wf _ t hs fun s hs => ?_
      split <;> simpa using hs

@[simp] theorem State.takeQ_mem (s : State) (k id uid : Nat) : (s.takeQ k id uid).2.mem = s.mem := by
  simp only [State.takeQ]
  split <;> simp

@[simp] theorem State.addEntry_mem (s : State) (k : Nat) (e : MxEntry) : (s.addEntry k e).mem = s.mem := by rfl

@[simp] theorem State.acceptPart_wf {s : State} (k id joint : Nat) (l : MmaArrival) (rnd : Round) (m : MmaArrival)
    (hs : Memory.wf s.mem = true) : Memory.wf (s.acceptPart k id joint l rnd m).mem = true := by
  unfold State.acceptPart
  split
  · exact hs
  · split
    · exact hs
    · exact State.completeHeld_wf _ (by simpa using hs)

@[simp] theorem execMmaLatchComplete_wf {s : State} (v id : Nat) (hs : Memory.wf s.mem = true) : (execMmaLatchComplete v id s).MemWf := by
  simp only [execMmaLatchComplete, Out.memWf_next]
  split
  · exact hs
  · split
    · exact hs
    · split
      · exact hs
      · split
        · simpa using hs
        · exact Memory.wf_foldl (fun s m hs => State.acceptPart_wf _ _ _ _ _ m hs) _ hs

theorem acceptWindow_wf {s : State} (i : Instr) (d : RegNo) (ctrl : Nat) (acq : Bool) (kind : MxKind) (t : Team) (gs : List Nat)
    (hs : Memory.wf s.mem = true) : Memory.wf (acceptWindow i d ctrl acq kind s t gs).state.mem = true := by
  unfold acceptWindow
  split
  · exact hs
  · exact withAcq_wf _ t hs fun s hs => withHandle_wf t d gs 1 hs fun s who _ hs => by simpa using hs

@[simp] theorem execMxZero_wf {s : State} (h : Hdr) (d a c : RegNo) (hs : Memory.wf s.mem = true) : (execMxZero h d a c s).MemWf := by
  refine teamWord_wf hs fun s t gs _ xs hs => ?_
  dsimp only
  split
  · exact hs
  · exact acceptWindow_wf _ _ _ _ _ t gs hs

@[simp] theorem execMxLd_wf {s : State} (h : Hdr) (ty : Ty) (d a c : RegNo) (tr acq : Bool) (hs : Memory.wf s.mem = true) :
    (execMxLd h ty d a c tr acq s).MemWf := by
  refine teamWord_wf hs fun s t gs _ xs hs => ?_
  dsimp only
  split
  · exact hs
  · exact acceptWindow_wf _ _ _ _ _ t gs hs

@[simp] theorem execMxSt_wf {s : State} (h : Hdr) (d a c : RegNo) (tr clr acq rel : Bool) (hs : Memory.wf s.mem = true) :
    (execMxSt h d a c tr clr acq rel s).MemWf := by
  refine teamWord_wf hs fun s t gs _ xs hs => ?_
  dsimp only
  split
  · exact hs
  · exact acceptWindow_wf _ _ _ _ _ t gs hs

@[simp] theorem State.modEntry_mem (s : State) (k id : Nat) (f : MxEntry → MxEntry) : (s.modEntry k id f).mem = s.mem := by rfl

theorem State.grantPass_mem {s s' : State} {v : Nat} {e : MxEntry} (h : s.grantPass v e = some s') : s'.mem = s.mem := by
  unfold State.grantPass at h
  split at h
  · cases h
  · obtain ⟨s1, h1, rfl⟩ := Option.map_eq_some_iff.mp h
    simpa using State.grantWork_mem h1

@[simp] theorem State.endEntry_mem (s : State) (v : Nat) (e : MxEntry) (st : HStatus) : (s.endEntry v e st).mem = s.mem := by rfl

@[simp] theorem State.cancelBroken_mem (s : State) (v : Nat) : (s.cancelBroken v).mem = s.mem :=
  State.mem_foldl (fun _ _ => State.endEntry_mem ..) ..

@[simp] theorem State.runTile_mem (s : State) (v : Nat) (e : MxEntry) (z acc : Bool) (aAddr aLay bAddr bLay : Word) :
    (s.runTile v e z acc aAddr aLay bAddr bLay).mem = s.mem := by simp [State.runTile]

@[simp] theorem State.readOperands_mem (s : State) (v : Nat) (e : MxEntry) (z acc : Bool) (aAddr aLay bAddr bLay : Word) :
    (s.readOperands v e z acc aAddr aLay bAddr bLay).mem = s.mem := by simp [State.readOperands]

@[simp] theorem execMxPassEnd_wf {s : State} (v sub : Nat) (hs : Memory.wf s.mem = true) : (execMxPassEnd v sub s).MemWf := by
  simp only [execMxPassEnd, Out.memWf_next]
  split
  · exact hs
  · split
    · exact hs
    · split
      · split
        · simpa using hs
        · split <;> simpa using hs
      · exact hs

@[simp] theorem State.readWindow_mem (s : State) (v : Nat) (e : MxEntry) : (s.readWindow v e).mem = s.mem := by
  unfold State.readWindow
  split <;> simp

@[simp] theorem State.runWindow_wf {s : State} (v : Nat) (e : MxEntry) (hs : Memory.wf s.mem = true) : Memory.wf (s.runWindow v e).mem = true := by
  unfold State.runWindow
  dsimp only
  split
  · simpa using hs
  · simpa using hs
  · rw [State.settleElement_mem]
    have hw := fun n bs a p => State.writeRange_wf n a p bs hs
    split
    · rw [State.newRows_mem, State.putCluster_mem]
      exact hw _ _ _ _
    · exact hw _ _ _ _
  · exact hs

@[simp] theorem execMxWindowOpComplete_wf {s : State} (v op : Nat) (hs : Memory.wf s.mem = true) : (execMxWindowOpComplete v op s).MemWf := by
  have hc : Memory.wf (s.cancelBroken v).mem = true := by simpa using hs
  simp only [execMxWindowOpComplete, Out.memWf_next]
  split
  · exact hc
  · split
    · split
      · exact hc
      · split
        · exact hc
        · rw [State.modEntry_mem, State.grantWork_mem ‹_›]
          exact hc
    · split
      · exact hc
      · split
        · rw [State.endEntry_mem]
          exact State.runWindow_wf _ _ (by simpa using hc)
        · simpa using hc

@[simp] theorem execSubarrayGate_wf {s : State} (v sub : Nat) (hs : Memory.wf s.mem = true) : (execSubarrayGate v sub s).MemWf := by
  simp only [execSubarrayGate]
  split <;> simp [hs]

end Sys2Proof.Machine
end

section
/-! SUPPORT. Memory stays canonical: pages, migration and remote requests. -/

namespace Sys2Proof.Machine

open Sys2Proof

@[simp] theorem State.fileRequest_wf {s : State} (slot va lin core : Nat) (hs : Memory.wf s.mem = true) :
    Memory.wf (s.fileRequest slot va lin core).mem = true := by
  unfold State.fileRequest
  dsimp only
  split
  · exact hs
  · split <;> simp [hs]

theorem State.joinRequest_wf {s s' : State} {t : Team} {va : Nat} {who : HRef} (hs : Memory.wf s.mem = true)
    (h : s.joinRequest t va who = some s') : Memory.wf s'.mem = true := by
  unfold State.joinRequest at h
  dsimp only at h
  split at h
  · cases h
    exact hs
  · split at h
    · cases h
    · cases h
      split <;> exact State.fileRequest_wf _ _ _ _ hs

@[simp] theorem State.endRequest_mem (s : State) (slot : Nat) (r : PageReq) (st : HStatus) (f : Option Cause) :
    (s.endRequest slot r st f).mem = s.mem :=
  State.mem_foldl (fun _ _ => State.finish_mem ..) ..

@[simp] theorem State.rewalk_mem (s : State) (slot : Nat) (r : PageReq) : (s.rewalk slot r).mem = s.mem := by
  unfold State.rewalk
  split <;> simp

@[simp] theorem State.rewalkWhere_mem (s : State) (slot : Nat) (p : PageReq → Bool) : (s.rewalkWhere slot p).mem = s.mem := by
  simp [State.rewalkWhere]

@[simp] theorem execPgReq_wf {s : State} (h : Hdr) (d a : RegNo) (hs : Memory.wf s.mem = true) : (execPgReq h d a s).MemWf := by
  refine teamWord_wf hs fun s t gs lead xs hs => ?_
  dsimp only
  split
  · exact hs
  · split
    · simpa using hs
    · refine withHandle_wf t d gs 4 hs fun s who _ hs => ?_
      split
      · simpa using hs
      · exact Memory.wf_getD (by simpa using hs) fun _ => State.joinRequest_wf hs

@[simp] theorem execPgProbe_wf {s : State} (h : Hdr) (d a : RegNo) (hs : Memory.wf s.mem = true) : (execPgProbe h d a s).MemWf := by
  refine teamWord_wf hs fun s t gs _ xs hs => ?_
  dsimp only
  split
  · simpa using hs
  · split
    · split <;> simpa using hs
    · simpa using hs

@[simp] theorem State.shoot_wf {s : State} (c : Ctx) (va n : Nat) (hs : Memory.wf s.mem = true) : Memory.wf (s.shoot c va n).mem = true := by
  unfold State.shoot
  dsimp only
  rw [State.dropL1All_mem]
  exact State.drain_wf _ hs

@[simp] theorem execPgShoot_wf {s : State} (h : Hdr) (d a b : RegNo) (hs : Memory.wf s.mem = true) : (execPgShoot h d a b s).MemWf := by
  refine teamWord_wf hs fun s t gs lead xs hs => ?_
  dsimp only
  split
  · exact hs
  · split
    · exact hs
    · generalize hw : (if t.relIssue = some t.issued then _ else _ : State) = w
      have hw : Memory.wf w.mem = true := by
        subst hw
        split
        · exact hs
        · exact State.shoot_wf _ _ _ (State.release_wf t hs)
      split
      · exact hw
      · exact withHandle_wf t d gs 4 hw fun s who _ hs => by simpa using hs

@[simp] theorem State.rewriteLeaf_wf {s : State} (c : Ctx) (va peer : Nat) (frame : Option Nat) (hs : Memory.wf s.mem = true) :
    Memory.wf (s.rewriteLeaf c va peer frame).mem = true :=
  State.pokeHbm64_wf _ _ hs

@[simp] theorem State.writeFrame_wf {s : State} (f e : Nat) (hs : Memory.wf s.mem = true) : Memory.wf (s.writeFrame f e).mem = true :=
  State.pokeHbm64_wf _ _ hs

@[simp] theorem State.logMove_wf {s : State} (slot role asid va frame former new : Nat) (hs : Memory.wf s.mem = true) :
    Memory.wf (s.logMove slot role asid va frame former new).mem = true := by
  unfold State.logMove
  dsimp only
  rw [State.signal_mem]
  exact Memory.wf_foldl (fun s w hs => State.pokeHbm64_wf _ _ hs) _ hs

theorem State.takeFrame_mem {s : State} {r : Nat × State} (h : s.takeFrame = some r) : r.2.mem = s.mem := by
  unfold State.takeFrame at h
  split at h <;> cases h
  rfl

@[simp] theorem State.endMove_mem (s : State) (m : Move) (st : HStatus) (f : Option Cause) : (s.endMove m st f).mem = s.mem :=
  State.mem_foldl (fun _ _ => State.finish_mem ..) ..

@[simp] theorem State.newMove_mem (s : State) (slot va home target : Nat) (agreed : Bool) (ws : List HRef) :
    (s.newMove slot va home target agreed ws).mem = s.mem := by rfl

@[simp] theorem execPgMig_wf {s : State} (h : Hdr) (d a b : RegNo) (hs : Memory.wf s.mem = true) : (execPgMig h d a b s).MemWf := by
  refine teamWord_wf hs fun s t gs lead xs hs => ?_
  dsimp only
  split
  · exact hs
  · split
    · exact hs
    · refine withHandle_wf t d gs 4 hs fun s who _ hs => ?_
      have hf : Memory.wf (s.finish who .faulted (some .page)).mem = true := by simpa using hs
      split
      · exact hf
      · split
        · simpa using hs
        · split
          · exact hf
          · split
            · split
              · rw [Res.state_done, State.requestMove_mem ‹_›]
                exact hs
              · exact hf
            · split
              · exact hf
              · split
                · exact hf
                · simpa using hs

@[simp] theorem execPgCnt_wf {s : State} (h : Hdr) (d a : RegNo) (hs : Memory.wf s.mem = true) : (execPgCnt h d a s).MemWf := by
  refine teamWord_wf hs fun s t gs _ xs hs => ?_
  dsimp only
  split
  · simpa using hs
  · split <;> simpa using hs

@[simp] theorem State.agreeMove_mem (s : State) (slot page peer : Nat) : (s.agreeMove slot page peer).mem = s.mem := by
  unfold State.agreeMove
  split <;> simp

@[simp] theorem State.refuseMoves_mem (s : State) (p : Move → Bool) : (s.refuseMoves p).mem = s.mem := by simp [State.refuseMoves]

@[simp] theorem execMreqArrive_wf {s : State} (peer part va : Nat) (hs : Memory.wf s.mem = true) : (execMreqArrive peer part va s).MemWf := by
  simp only [execMreqArrive, Out.memWf_next]
  split
  · simpa using hs
  · split
    · split
      · exact hs
      · exact Memory.wf_getD (by simpa using hs) fun _ h => by rw [State.requestMove_mem h]; exact hs
    · split <;> simpa using hs

theorem State.acceptMove_mem {s : State} {m : Move} {r : Nat × State} (h : s.acceptMove m = some r) : r.2.mem = s.mem := by
  unfold State.acceptMove at h
  split at h
  · cases h; rfl
  · exact State.takeFrame_mem h

@[simp] theorem State.refuseIncoming_mem (s : State) (slot va : Nat) : (s.refuseIncoming slot va).mem = s.mem := by
  unfold State.refuseIncoming
  split <;> simp

@[simp] theorem execMigrationHold_wf {s : State} (slot va : Nat) (hs : Memory.wf s.mem = true) : (execMigrationHold slot va s).MemWf := by
  simp only [execMigrationHold, Out.memWf_next]
  split
  · rw [State.ackAll_mem]
    exact State.drain_wf _ hs
  · split
    · exact hs
    · split
      · simpa using hs
      · split
        · simpa using hs
        · have hm := State.acceptMove_mem ‹_›
          dsimp only at hm ⊢
          rw [hm]
          exact hs

@[simp] theorem State.forgetPage_mem (s : State) (asid va : Nat) : (s.forgetPage asid va).mem = s.mem := by rfl

@[simp] theorem State.takeOwners_mem (s : State) (asid va : Nat) (bs : List Byte) : (s.takeOwners asid va bs).mem = s.mem := by rfl

@[simp] theorem State.dropOwners_mem (s : State) (asid va : Nat) : (s.dropOwners asid va).mem = s.mem := by rfl

@[simp] theorem State.becomeHome_wf {s : State} (m : Move) (f : Nat) (bytes : List Byte) (hs : Memory.wf s.mem = true) :
    Memory.wf (s.becomeHome m f bytes).mem = true := by
  unfold State.becomeHome
  dsimp only
  rw [State.endMove_mem]
  refine State.logMove_wf _ _ _ _ _ _ _ ?_
  rw [State.forgetPage_mem]
  refine State.writeFrame_wf _ _ (State.rewriteLeaf_wf _ _ _ _ ?_)
  rw [State.takeOwners_mem]
  exact State.writeRange_wf _ _ _ _ hs

@[simp] theorem State.leaveHome_wf {s : State} (m : Move) (hs : Memory.wf s.mem = true) : Memory.wf (s.leaveHome m).mem = true := by
  unfold State.leaveHome
  dsimp only
  have hd := fun p => State.drain_wf p hs
  split
  · rw [State.endMove_mem]
    exact hd _
  · rw [State.endMove_mem]
    refine State.logMove_wf _ _ _ _ _ _ _ ?_
    rw [State.mem_foldl State.sendPort_mem, State.dropOwners_mem, State.dropL1All_mem, State.forgetPage_mem]
    exact State.writeFrame_wf _ _ (State.rewriteLeaf_wf _ _ _ _ (hd _))

@[simp] theorem execMigrationSwitch_wf {s : State} (slot va : Nat) (incoming : Bool) (bytes : List Byte) (hs : Memory.wf s.mem = true) :
    (execMigrationSwitch slot va incoming bytes s).MemWf := by
  simp only [execMigrationSwitch, Out.memWf_next]
  split
  · split
    · simpa using hs
    · split
      · simpa using hs
      · refine State.becomeHome_wf _ _ _ ?_
        have hm := State.acceptMove_mem ‹_›
        dsimp only at hm
        rw [hm]
        exact hs
  · split
    · split
      · exact State.leaveHome_wf _ hs
      · exact hs
    · split
      · split
        · exact hs
        · simpa using hs
      · exact hs

@[simp] theorem State.sendReplies_mem (s : State) : s.sendReplies.mem = s.mem := by simp [State.sendReplies]

@[simp] theorem State.answerPeer_mem (s : State) (m : OutMsg) : (s.answerPeer m).mem = s.mem := by simp [State.answerPeer]

@[simp] theorem State.serveOp_wf {s : State} (c : Ctx) (req : RemoteReq) (key : Nat) (o : Nat × RemoteOp) (hs : Memory.wf s.mem = true) :
    Memory.wf (s.serveOp c req key o).1.mem = true := by
  unfold State.serveOp
  dsimp only
  split <;> simp [hs]

@[simp] theorem State.serveRemote_wf {s : State} (c : Ctx) (req : RemoteReq) (key : Nat) (hs : Memory.wf s.mem = true) :
    Memory.wf (s.serveRemote c req key).mem = true := by
  unfold State.serveRemote
  extract_lets n d whole ops at_ r lost isStore done
  have hd : Memory.wf d.mem = true := State.drain_wf _ hs
  have hr : Memory.wf r.1.mem = true := by
    simp only [r]
    split <;> simp [hd]
  have hdone : Memory.wf done.1.mem = true := by
    simp only [done]
    refine Memory.wf_foldl_fst (fun x o hs => ?_) ops (r := (r.1, [])) hr
    exact State.serveOp_wf _ _ _ o hs
  split
  · simpa using hr
  · simpa using hdone

@[simp] theorem State.arriveAccess_wf {s : State} (req : RemoteReq) (hs : Memory.wf s.mem = true) :
    Memory.wf (s.arriveAccess req).mem = true := by
  have hu : ∀ c, Memory.wf (s.useTlb c req.va).mem = true := fun c => by simpa using hs
  unfold State.arriveAccess
  dsimp only
  split
  · simpa using hs
  · split
    · split
      · simpa using hs
      · split
        · exact State.serveRemote_wf _ _ _ (hu _)
        · simpa using hs
    · simpa using hs
    · split
      · exact hs
      · split <;> simpa using hs
    · simpa using hs
    · simpa using hs
    · simpa using hs
    · simpa using hs

@[simp] theorem State.takeRevoke_mem (s : State) (asid va core : Nat) : (s.takeRevoke asid va core).mem = s.mem := by rfl

@[simp] theorem State.takePrefetch_mem (s : State) (a : RemAsk) (level : Nat) (bs : List Byte) : (s.takePrefetch a level bs).mem = s.mem := by
  simp only [State.takePrefetch]
  repeat' split
  all_goals simp

@[simp] theorem State.takeEngineBlock_wf {s : State} (a : RemAsk) (bs : List Byte) (hs : Memory.wf s.mem = true) :
    Memory.wf (s.takeEngineBlock a bs).mem = true := by
  have hp := poke_wf s a.key bs hs
  unfold State.takeEngineBlock
  dsimp only
  split
  · exact hp
  · split
    · split <;> simpa using hp
    · exact hp

@[simp] theorem State.otherBlocks_mem (s : State) (a : RemAsk) : (s.otherBlocks a).mem = s.mem := by rfl

@[simp] theorem State.refuseWrite_mem (s : State) (a : RemAsk) (uid : Nat) (why : Refused) : (s.refuseWrite a uid why).mem = s.mem := by
  unfold State.refuseWrite
  split <;> simp

@[simp] theorem State.takeAnswer_wf {s : State} (tag : Nat) (ans : RemAns) (hs : Memory.wf s.mem = true) :
    Memory.wf (s.takeAnswer tag ans).mem = true := by
  unfold State.takeAnswer
  split
  · exact hs
  · dsimp only
    split
    · split <;> simpa using hs
    · exact hs
    · exact State.takeEngineBlock_wf _ _ (by simpa using hs)
    · simpa using hs
    · exact poke_wf _ _ _ hs
    · exact hs
    · exact hs
    · exact hs
    · split <;> simpa using hs
    · split <;> simpa using hs
    · split <;> exact hs
    · exact hs

@[simp] theorem State.arriveRemote_wf {s : State} (req : RemoteReq) (hs : Memory.wf s.mem = true) :
    Memory.wf (s.arriveRemote req).mem = true := by
  unfold State.arriveRemote
  dsimp only
  split
  · exact State.takeAnswer_wf _ _ hs
  · exact State.takeAnswer_wf _ _ hs
  · simpa using hs
  · simpa using hs
  · exact State.arriveAccess_wf _ hs

@[simp] theorem execRemoteRequestArrive_wf {s : State} (req : RemoteReq) (hs : Memory.wf s.mem = true) : (execRemoteRequestArrive req s).MemWf :=
  State.arriveRemote_wf req hs

@[simp] theorem execMigrationRefusal_wf {s : State} (slot va peer : Nat) (hs : Memory.wf s.mem = true) :
    (execMigrationRefusal slot va peer s).MemWf := by
  simp only [execMigrationRefusal, Out.memWf_next]
  split
  · exact hs
  · refine Memory.wf_foldl (fun s r hs => State.arriveRemote_wf r hs) _ ?_
    rw [State.endMove_mem]
    split
    · exact State.logMove_wf _ _ _ _ _ _ _ hs
    · exact hs

@[simp] theorem execPendingRequestRewalk_wf {s : State} (slot : Nat) (hs : Memory.wf s.mem = true) : (execPendingRequestRewalk slot s).MemWf := by
  simp [execPendingRequestRewalk, hs]

@[simp] theorem State.retryRec_wf {s : State} (w : RecWait) (hs : Memory.wf s.mem = true) : Memory.wf (s.retryRec w).mem = true := by
  unfold State.retryRec
  split <;> simp [hs]

@[simp] theorem State.retryRecs_wf {s : State} (hs : Memory.wf s.mem = true) : Memory.wf s.retryRecs.mem = true :=
  Memory.wf_foldl (fun _ w hs => State.retryRec_wf w hs) _ hs

@[simp] theorem State.boundAts_mem (s : State) : s.boundAts.mem = s.mem := by simp [State.boundAts]

@[simp] theorem execAtsTranslationCompletion_wf {s : State} (pasid va : Nat) (r w : Bool) (hs : Memory.wf s.mem = true) :
    (execAtsTranslationCompletion pasid va r w s).MemWf := by
  simp only [execAtsTranslationCompletion, Out.memWf_next]
  rw [State.mem_foldl fun _ _ => State.rewalkWhere_mem ..]
  refine State.retryRecs_wf (Memory.wf_foldl (fun s r hs => State.arriveRemote_wf r hs) _ ?_)
  simpa using hs

@[simp] theorem execAtsInvalidate_wf {s : State} (pasid va n : Nat) (hs : Memory.wf s.mem = true) : (execAtsInvalidate pasid va n s).MemWf := by
  simp only [execAtsInvalidate, Out.memWf_next]
  rw [State.mem_foldl fun _ _ => State.rewalkWhere_mem .., State.mem_foldl fun _ _ => State.dropL1All_mem ..]
  exact State.drain_wf _ hs

@[simp] theorem execPriResponse_wf {s : State} (pasid va : Nat) (success : Bool) (hs : Memory.wf s.mem = true) :
    (execPriResponse pasid va success s).MemWf := by
  simp only [execPriResponse, Out.memWf_next]
  rw [State.mem_foldl fun s k => ?_]
  · exact hs
  · split
    · rw [State.rewalkWhere_mem]
    · exact State.mem_foldl (fun _ _ => State.endRequest_mem ..) ..

end Sys2Proof.Machine
end

section
/-! SUPPORT. Memory stays canonical: the copy engine. -/

namespace Sys2Proof.Machine

open Sys2Proof

/-- The state that an access of an engine leaves has its memory in canonical form. -/
def SpRes.MemWf : SpRes → Prop
  | .ok s _ _ => Memory.wf s.mem = true
  | _ => True

theorem SpRes.MemWf.ok {r : SpRes} {s : State} {bs : List Byte} {bad : Bool} (hr : r.MemWf) (h : r = .ok s bs bad) :
    Memory.wf s.mem = true := by
  subst h
  exact hr

/-- The state that a piece of a copy leaves has its memory in canonical form. -/
def PieceRes.MemWf : PieceRes → Prop
  | .ok p => Memory.wf p.s.mem = true
  | _ => True

theorem PieceRes.MemWf.ok {r : PieceRes} {p : Piece} (hr : r.MemWf) (h : r = .ok p) : Memory.wf p.s.mem = true := by
  subst h
  exact hr

theorem State.spaceRead_wf {s : State} (f : Finder) (c : Ctx) (space a n : Nat) (hs : Memory.wf s.mem = true) :
    (s.spaceRead f c space a n).MemWf := by
  unfold State.spaceRead
  split
  · simpa [SpRes.MemWf] using hs
  · split
    · trivial
    · trivial
    · simpa [SpRes.MemWf] using hs

theorem State.spaceWrite_wf {s : State} (c : Ctx) (space a : Nat) (bs : List Byte) (hs : Memory.wf s.mem = true) :
    (s.spaceWrite c space a bs).MemWf := by
  unfold State.spaceWrite
  split
  · exact State.writeRange_wf _ _ _ _ hs
  · split
    · trivial
    · trivial
    · exact State.engineStore_wf _ _ _ _ hs

theorem State.nibbleWrite_wf {s : State} (f : Finder) (c : Ctx) (space a nib v : Nat) (hs : Memory.wf s.mem = true) :
    (s.nibbleWrite f c space a nib v).MemWf := by
  unfold State.nibbleWrite
  split
  · exact State.spaceWrite_wf _ _ _ _ (by simpa using hs)
  · split
    · trivial
    · trivial
    · exact Memory.wf_foldl (fun s p hs => State.engineNibble_wf _ _ _ _ _ (by simpa using hs)) _ hs

@[simp] theorem State.freeBit_mem (s : State) : s.freeBit.2.mem = s.mem := by rfl

@[simp] theorem Piece.put_mem (p : Piece) (a : Nat) (nib : Option Nat) (v : Nat) : (p.put a nib v).s.mem = p.s.mem := by rfl

@[simp] theorem Piece.putAll_mem (nib : Option Nat) : ∀ (vs : List (Nat × Bool)) (a : Nat) (p : Piece),
    (Piece.putAll nib vs a p).s.mem = p.s.mem
  | [], _, _ => by rfl
  | (v, contested) :: vs, a, p => by
    have hf : (if contested then p.s.freeBit else (false, p.s)).2.mem = p.s.mem := by split <;> simp
    rw [Piece.putAll, Piece.putAll_mem nib vs]
    generalize (if contested = true then p.s.freeBit else (false, p.s)) = choice at hf ⊢
    split
    · exact hf
    · rw [Piece.put_mem]
      exact hf

/-- Writes put among a piece's leave its state's memory alone. -/
theorem Piece.mem_foldl {α : Type} {f : Piece → α → Piece} (hf : ∀ p x, (f p x).s.mem = p.s.mem) (l : List α) (p : Piece) :
    (l.foldl f p).s.mem = p.s.mem := by
  induction l generalizing p with
  | nil => rfl
  | cons x l ih => rw [List.foldl_cons, ih, hf]

theorem Piece.item_wf {p : Piece} (c : Ctx) (f : Finder) (d src : Shape) (shifts : List Int) (i : Nat) (hs : Memory.wf p.s.mem = true) :
    (p.item c f d src shifts i).MemWf := by
  unfold Piece.item
  dsimp only
  split
  · trivial
  · trivial
  · next s bs bad heq =>
    have hr : Memory.wf s.mem = true := (State.spaceRead_wf _ _ _ _ _ hs).ok heq
    split
    · exact hr
    · split <;> (simp only [PieceRes.MemWf]; rw [Piece.mem_foldl fun _ _ => Piece.putAll_mem ..]; exact hr)

theorem Piece.items_wf (c : Ctx) (f : Finder) (d src : Shape) (shifts : List Int) : ∀ (is : List Nat) {p : Piece},
    Memory.wf p.s.mem = true → (Piece.items c f d src shifts is p).MemWf
  | [], _, hs => hs
  | i :: is, p, hs => by
    have hi := Piece.item_wf c f d src shifts i hs
    unfold Piece.items
    split
    · next heq => exact Piece.items_wf c f d src shifts is (hi.ok heq)
    · exact hi

theorem writeRuns_wf (c : Ctx) (space : Nat) : ∀ (xs : List (Nat × List Byte)) {s : State}, Memory.wf s.mem = true →
    (writeRuns c space xs s).MemWf
  | [], _, hs => hs
  | x :: xs, s, hs => by
    have hw := State.spaceWrite_wf c space x.1 x.2 hs
    unfold writeRuns
    split
    · next heq => exact writeRuns_wf c space xs (hw.ok heq)
    · exact hw

theorem writeNibbles_wf (c : Ctx) (f : Finder) (space : Nat) : ∀ (xs : List (Nat × Nat × Nat)) {s : State}, Memory.wf s.mem = true →
    (writeNibbles c f space xs s).MemWf
  | [], _, hs => hs
  | x :: xs, s, hs => by
    have hw := State.nibbleWrite_wf f c space x.1 x.2.1 x.2.2 hs
    unfold writeNibbles
    split
    · next heq => exact writeNibbles_wf c f space xs (hw.ok heq)
    · exact hw

theorem Piece.write_wf {p : Piece} (c : Ctx) (f : Finder) (space : Nat) (hs : Memory.wf p.s.mem = true) : (p.write c f space).MemWf := by
  unfold Piece.write
  dsimp only
  split
  · next heq => exact writeNibbles_wf c f space _ ((writeRuns_wf _ _ _ hs).ok heq)
  · exact writeRuns_wf _ _ _ hs

theorem landBytes_wf (c : Ctx) (space : Nat) (nib : Option (Nat × Nat)) : ∀ (bs : List Byte) (a : Nat) {s : State},
    Memory.wf s.mem = true → Memory.wf (landBytes c space nib bs a s).mem = true
  | [], _, _, hs => hs
  | b :: bs, a, s, hs => by
    have hf : Memory.wf s.freeBit.2.mem = true := by simpa using hs
    refine landBytes_wf c space nib bs _ ?_
    split
    · next heq =>
      split at heq
      · exact (State.spaceWrite_wf _ _ _ _ hf).ok heq
      · exact (State.nibbleWrite_wf _ _ _ _ _ _ hf).ok heq
    · exact hf

theorem landElems_wf (c : Ctx) (d src : Shape) (shifts : List Int) : ∀ (ks : List Nat) {s : State}, Memory.wf s.mem = true →
    Memory.wf (landElems c d src shifts ks s).mem = true
  | [], _, hs => hs
  | k :: ks, s, hs => by
    rw [landElems]
    refine landElems_wf c d src shifts ks ?_
    split
    · exact hs
    · exact Memory.wf_foldl (fun s z hs => landBytes_wf _ _ _ _ _ hs) _ hs

theorem landLines_wf (c : Ctx) (d src : Shape) (shifts : List Int) : ∀ (ps : List (Int × Int)) {s : State}, Memory.wf s.mem = true →
    Memory.wf (landLines c d src shifts ps s).mem = true
  | [], _, hs => hs
  | p :: ps, s, hs => by
    rw [landLines]
    refine landLines_wf c d src shifts ps ?_
    split
    · exact hs
    · exact Memory.wf_foldl (fun s z hs => landBytes_wf _ _ _ _ _ hs) _ hs

@[simp] theorem State.modCopy_mem (s : State) (v id : Nat) (f : CopyCmd → CopyCmd) : (s.modCopy v id f).mem = s.mem := by rfl

@[simp] theorem State.dropCopy_mem (s : State) (v id : Nat) : (s.dropCopy v id).mem = s.mem := by rfl

@[simp] theorem State.setPromise_mem (s : State) (h : HRef) (p : Nat) : (s.setPromise h p).mem = s.mem := by rfl

@[simp] theorem State.noteTag_mem (s : State) (u : TagUse) : (s.noteTag u).mem = s.mem := by simp [State.noteTag]

@[simp] theorem State.acceptCopy_mem (s : State) (t : Team) (i : Instr) (who : HRef) (kind : CopyKind) (d src : Shape) (vaults : List Nat)
    (shifts : List Int) (tag : Nat) (after rel : Bool) : (s.acceptCopy t i who kind d src vaults shifts tag after rel).mem = s.mem := by
  simp [State.acceptCopy]

@[simp] theorem failCopy_mem (who : HRef) (c : Cause) (s : State) : (failCopy who c s).state.mem = s.mem := by rfl

@[simp] theorem State.meetRecord_mem (s : State) (c : Ctx) (f : Finder) (idx : Nat) : (s.meetRecord c f idx).mem = s.mem := by simp [State.meetRecord]

theorem withRecord_wf {k : State → Shape → Res} {s : State} (i : Instr) (d : RegNo) (idx : Nat) (role : Shape → Bool) (t : Team)
    (gs : List Nat) (hs : Memory.wf s.mem = true) (hk : ∀ s x, Memory.wf s.mem = true → Memory.wf (k s x).state.mem = true) :
    Memory.wf (withRecord i d idx role s t gs k).state.mem = true := by
  have hm : Memory.wf (s.meetRecord (s.ctxOf t) (Finder.command (4 * t.clusterNo) t.asid t.pc (recWords i)) idx).mem = true := by
    simpa using hs
  unfold withRecord
  dsimp only
  split
  · exact hm
  · split
    · simpa using hs
    · exact withHandle_wf _ _ _ _ hm fun s who _ hs => by simpa using hs
    · exact hk _ _ hm

theorem copyHead_wf {k : State → HRef → Shape → Shape → Res} {s : State} (i : Instr) (acq : Bool) (d : RegNo) (di si : Nat)
    (roleD roleS : Shape → Bool) (t : Team) (gs : List Nat) (hs : Memory.wf s.mem = true)
    (hk : ∀ s who x y, Memory.wf s.mem = true → Memory.wf (k s who x y).state.mem = true) :
    Memory.wf (copyHead i acq d di si roleD roleS s t gs k).state.mem = true := by
  unfold copyHead
  split
  · exact hs
  · exact withAcq_wf _ t hs fun s hs => withRecord_wf i d di roleD t gs hs fun s x hs =>
      withRecord_wf i d si roleS t gs hs fun s y hs => withHandle_wf t d gs 3 hs fun s who _ hs => hk s who x y hs

@[simp] theorem execCpCopy_wf {s : State} (h : Hdr) (d a b : RegNo) (acq rel : Bool) (hs : Memory.wf s.mem = true) :
    (execCpCopy h d a b acq rel s).MemWf := by
  refine teamWord_wf hs fun s t gs _ xs hs => copyHead_wf _ _ _ _ _ _ _ t gs hs fun s who x y hs => ?_
  split <;> simpa using hs

@[simp] theorem execCpMcast_wf {s : State} (h : Hdr) (d a b c : RegNo) (acq rel : Bool) (hs : Memory.wf s.mem = true) :
    (execCpMcast h d a b c acq rel s).MemWf := by
  refine teamWord_wf hs fun s t gs _ xs hs => copyHead_wf _ _ _ _ _ _ _ t gs hs fun s who x y hs => ?_
  dsimp only
  split
  · simpa using hs
  · split
    · simpa using hs
    · simpa using hs
    · split <;> simpa using hs

@[simp] theorem execCpOff_wf {s : State} (h : Hdr) (d a b c : RegNo) (acq rel : Bool) (hs : Memory.wf s.mem = true) :
    (execCpOff h d a b c acq rel s).MemWf := by
  refine teamWord_wf hs fun s t gs _ xs hs => copyHead_wf _ _ _ _ _ _ _ t gs hs fun s who x y hs => ?_
  dsimp only
  split
  · simpa using hs
  · split
    · simpa using hs
    · split <;> simpa using hs

@[simp] theorem State.cancelCopy_mem (s : State) (v id : Nat) : (s.cancelCopy v id).mem = s.mem := by
  unfold State.cancelCopy
  split <;> simp

theorem retTransfer_wf {k : State → State} {s : State} (t : Team) (i : Instr) (who : HRef) (x y : Shape) (tag : Nat) (after rel : Bool)
    (hs : Memory.wf s.mem = true) (hk : ∀ s, Memory.wf s.mem = true → Memory.wf (k s).mem = true) :
    Memory.wf (retTransfer t i who x y tag after rel s k).state.mem = true := by
  unfold retTransfer
  split
  · simpa using hs
  · simpa using hk s hs

@[simp] theorem execCpRet_wf {s : State} (h : Hdr) (d a b c : RegNo) (acq rel : Bool) (hs : Memory.wf s.mem = true) :
    (execCpRet h d a b c acq rel s).MemWf := by
  refine teamWord_wf hs fun s t gs _ xs hs => copyHead_wf _ _ _ _ _ _ _ t gs hs fun s who x y hs => ?_
  dsimp only
  split
  · simpa using hs
  · have plain : ∀ i tag, Memory.wf (retTransfer t i who x y tag true rel s id).state.mem = true := fun i tag =>
      retTransfer_wf t i who x y tag true rel hs fun _ hs => hs
    split
    · exact plain _ _
    · split
      · exact plain _ _
      · split
        · exact plain _ _
        · split
          · split <;> simpa using hs
          · exact retTransfer_wf t _ who x _ _ false rel hs fun s hs => by simpa using hs

@[simp] theorem execCpProm_wf {s : State} (h : Hdr) (d a : RegNo) (hs : Memory.wf s.mem = true) : (execCpProm h d a s).MemWf :=
  teamWord_wf hs fun s t gs _ xs hs => by simpa using hs

@[simp] theorem execCpRenew_wf {s : State} (h : Hdr) (d a : RegNo) (hs : Memory.wf s.mem = true) : (execCpRenew h d a s).MemWf :=
  teamWord_wf hs fun s t gs _ xs hs => by split <;> simpa using hs

@[simp] theorem State.cancelTag_mem (s : State) (id : Nat) : (s.cancelTag id).mem = s.mem := by rfl

@[simp] theorem execCpCncl_wf {s : State} (h : Hdr) (d a : RegNo) (hs : Memory.wf s.mem = true) : (execCpCncl h d a s).MemWf :=
  teamWord_wf hs fun s t gs _ xs hs => by split <;> simpa using hs

theorem State.movePiece_wf {s : State} (v : Nat) (q : CopyCmd) (hs : Memory.wf s.mem = true) : (s.movePiece v q).MemWf := by
  have hi := fun c f d src z is => Piece.items_wf c f d src z is (p := { s := s, puts := [], skips := q.skipped }) hs
  unfold State.movePiece
  dsimp only
  split
  · trivial
  · split
    · next heq =>
      split
      · next hq =>
        have hw := (Piece.write_wf _ _ _ ((hi _ _ _ _ _ _).ok heq)).ok hq
        simpa only [PieceRes.MemWf, State.stampWrites_mem] using hw
      · trivial
      · trivial
    · exact hi ..

@[simp] theorem State.landRest_wf {s : State} (q : CopyCmd) (cause : Cause) (hs : Memory.wf s.mem = true) :
    Memory.wf (s.landRest q cause).mem = true := by
  unfold State.landRest
  split
  · exact hs
  · exact landElems_wf _ _ _ _ _ (landLines_wf _ _ _ _ _ hs)

@[simp] theorem State.faultCopy_wf {s : State} (v : Nat) (q : CopyCmd) (c : Cause) (hs : Memory.wf s.mem = true) :
    Memory.wf (s.faultCopy v q c).mem = true := by simp [State.faultCopy, hs]

@[simp] theorem execCopyCommandStart_wf {s : State} (v : Nat) (remote : Bool) (hs : Memory.wf s.mem = true) :
    (execCopyCommandStart v remote s).MemWf := by
  simp only [execCopyCommandStart, Out.memWf_next]
  split
  · exact hs
  · split
    · exact hs
    · split
      · simpa using hs
      · next g hg =>
        have hg : Memory.wf g.mem = true := by
          rw [State.grantUnit_mem hg]
          exact hs
        split
        · exact State.faultCopy_wf _ _ _ hg
        · simpa using hs
        · next hp => simpa using (State.movePiece_wf _ _ hg).ok hp

@[simp] theorem State.doneTag_mem (s : State) (q : CopyCmd) : (s.doneTag q).mem = s.mem := by simp [State.doneTag]

theorem relThen_wf {note : Nat → State → State} {k : State → State} {s : State} (rel : Bool) (tag : Option Nat) (ctx : Nat)
    (hs : Memory.wf s.mem = true) (hn : ∀ n s, Memory.wf s.mem = true → Memory.wf (note n s).mem = true)
    (hk : ∀ s, Memory.wf s.mem = true → Memory.wf (k s).mem = true) : Memory.wf (relThen rel tag ctx note k s).mem = true := by
  have hr := State.releaseFor_wf ctx hs
  unfold relThen
  split
  · exact hk _ hs
  · split
    · split
      · exact hk _ hs
      · exact hs
    · dsimp only
      split
      · exact hk _ hr
      · exact hn _ _ hr

@[simp] theorem execCopyComplete_wf {s : State} (v : Nat) (remote : Bool) (hs : Memory.wf s.mem = true) : (execCopyComplete v remote s).MemWf := by
  simp only [execCopyComplete, Out.memWf_next]
  split
  · exact hs
  · split
    · split
      · exact State.faultCopy_wf _ _ _ hs
      · exact relThen_wf _ _ _ hs (fun n s hs => by simpa using hs) fun s hs => by simpa using hs
    · exact hs

end Sys2Proof.Machine
end

section
/-! SUPPORT. Memory stays canonical: the collective engine. -/

namespace Sys2Proof.Machine

open Sys2Proof

@[simp] theorem State.putChan_mem (s : State) (ch : Nat) (c : Channel) : (s.putChan ch c).mem = s.mem := by rfl

@[simp] theorem State.modProg_mem (s : State) (ch id : Nat) (f : ClProg → ClProg) : (s.modProg ch id f).mem = s.mem := by rfl

@[simp] theorem State.dropProg_mem (s : State) (ch id : Nat) : (s.dropProg ch id).mem = s.mem := by rfl

@[simp] theorem State.clSend_mem (s : State) (p : ClProg) (r : Nat) (kind : ClMsgKind) (chunk k : Nat) (data : List Byte) :
    (s.clSend p r kind chunk k data).mem = s.mem := by
  unfold State.clSend
  split <;> simp

@[simp] theorem State.clRefuse_mem (s : State) (msg : ClMsg) (kind : ClMsgKind) (rank : Nat) (hash : Word) :
    (s.clRefuse msg kind rank hash).mem = s.mem := by simp [State.clRefuse]

@[simp] theorem State.clStop_mem (s : State) (p : ClProg) (st : HStatus) (c : Option Cause) : (s.clStop p st c).mem = s.mem := by simp [State.clStop]

@[simp] theorem State.clMeets_mem (s : State) (t : Team) (i : Instr) (da : Nat) : (s.clMeets t i da).mem = s.mem := by
  simp only [State.clMeets]
  repeat' split
  all_goals simp

/-- What a look finds, if it succeeds, has a property. -/
def Look.All {α : Type} (p : α → Prop) : Look α → Prop
  | .ok a => p a
  | _ => True

theorem Look.All.ok {α : Type} {p : α → Prop} {x : Look α} {a : α} (hx : x.All p) (h : x = .ok a) : p a := by
  subst h
  exact hx

theorem Look.all_bind {α β : Type} {p : β → Prop} {f : α → Look β} (x : Look α) (hf : ∀ a, (f a).All p) : (x.bind f).All p := by
  cases x with
  | ok a => exact hf a
  | fault c => trivial
  | wait n => trivial

theorem Look.all_check {β : Type} {p : β → Prop} {f : Look β} (bad : Bool) (c : Cause) (hf : f.All p) : (Look.check bad c f).All p := by
  unfold Look.check
  split
  · trivial
  · exact hf

theorem State.clCheck_wf {s : State} (t : Team) (i : Instr) (da chReg : Nat) (rel : Bool) (hs : Memory.wf s.mem = true) :
    (s.clCheck t i da chReg rel).All fun r => Memory.wf r.1.mem = true := by
  unfold State.clCheck
  dsimp only
  refine Look.all_check _ _ (Look.all_bind _ fun d => Look.all_bind _ fun e => Look.all_check _ _ (Look.all_check _ _ ?_))
  refine Look.all_check _ _ (Look.all_check _ _ (Look.all_bind _ fun m => Look.all_bind _ fun slots => ?_))
  split
  · trivial
  · trivial
  · exact State.engineStore_wf _ _ _ _ hs

@[simp] theorem State.freeLine_mem (s : State) : s.freeLine.2.mem = s.mem := by rfl

/-- The state that a read of a chunk leaves has its memory in canonical form. -/
def ChunkRes.MemWf : ChunkRes → Prop
  | .ok s _ _ => Memory.wf s.mem = true
  | _ => True

theorem ChunkRes.MemWf.ok {r : ChunkRes} {s : State} {vs : List Nat} {ls : List (List Byte)} (hr : r.MemWf) (h : r = .ok s vs ls) :
    Memory.wf s.mem = true := by
  subst h
  exact hr

theorem readLines_wf (ctx : Ctx) (f : Finder) (sh : Shape) : ∀ (zs : List Int) {s : State}, Memory.wf s.mem = true →
    (readLines ctx f sh zs s).MemWf
  | [], _, hs => hs
  | z :: zs, s, hs => by
    unfold readLines
    split
    · trivial
    · trivial
    · next bs bad heq =>
      have hl := (State.spaceRead_wf _ _ _ _ _ hs).ok heq
      have ht := readLines_wf ctx f sh zs (s := (if bad then State.freeLine _ else (bs, _)).2) (by split <;> simpa using hl)
      dsimp only
      split
      · next hq => exact ht.ok hq
      · exact ht

theorem ClProg.readElems_wf (p : ClProg) (ctx : Ctx) (f : Finder) (sh : Shape) (c : Nat) : ∀ (ms : List Nat) {s : State},
    Memory.wf s.mem = true → (p.readElems ctx f sh c ms s).MemWf
  | [], _, hs => hs
  | m :: ms, s, hs => by
    unfold ClProg.readElems
    dsimp only
    split
    · trivial
    · trivial
    · next heq =>
      have ht := p.readElems_wf ctx f sh c ms ((State.spaceRead_wf _ _ _ _ _ hs).ok heq)
      split
      · next hq => exact ht.ok hq
      · exact ht

theorem ClProg.readChunk_wf {s : State} (p : ClProg) (ctx : Ctx) (f : Finder) (sh : Shape) (c : Nat) (hs : Memory.wf s.mem = true) :
    (p.readChunk ctx f sh c s).MemWf := by
  have he := p.readElems_wf ctx f sh c (List.range p.chunk) hs
  unfold ClProg.readChunk
  split
  · next heq =>
    have hl := readLines_wf ctx f sh (sh.linesFor (c * p.chunk) p.chunk) (he.ok heq)
    split
    · next hq => exact hl.ok hq
    · exact hl
  · exact he

@[simp] theorem ClProg.putChunk_mem (p : ClProg) (sh : Shape) (c : Nat) (lines : List Int) : ∀ (ms : List (Nat × Nat)) (q : Piece),
    (p.putChunk sh c lines ms q).s.mem = q.s.mem
  | [], _ => by rfl
  | (m, v) :: ms, q => by
    rw [ClProg.putChunk, p.putChunk_mem sh c lines ms, Piece.putAll_mem]

@[simp] theorem putLines_mem (sh : Shape) : ∀ (ls : List (Int × List Byte)) (before : List Int) (q : Piece),
    (putLines sh ls before q).s.mem = q.s.mem
  | [], _, _ => by rfl
  | (z, bs) :: ls, before, q => by
    rw [putLines, putLines_mem sh ls, Piece.putAll_mem]

theorem ClProg.writeChunk_wf {s : State} (p : ClProg) (ctx : Ctx) (f : Finder) (sh : Shape) (c : Nat) (vs : List (Nat × Nat))
    (ls : List (List Byte)) (hs : Memory.wf s.mem = true) : (p.writeChunk ctx f sh c vs ls s).MemWf := by
  have hw := fun zs => Piece.write_wf (p := p.putChunk sh c (zs.map Prod.fst) vs (putLines sh zs [] { s := s, puts := [], skips := [] }))
    ctx f sh.space (by simpa using hs)
  unfold ClProg.writeChunk
  dsimp only
  split
  · next heq => simpa only [SpRes.MemWf, State.stampWrites_mem] using (hw _).ok heq
  · exact hw _

@[simp] theorem ClProg.landStep_wf {s : State} (p : ClProg) (a : ClStep) (hs : Memory.wf s.mem = true) : Memory.wf (p.landStep s a).mem = true := by
  unfold ClProg.landStep
  split
  · split
    · exact hs
    · dsimp only
      refine Memory.wf_foldl (fun s mv hs => ?_) _ (Memory.wf_foldl (fun s zl hs => landBytes_wf _ _ _ _ _ hs) _ hs)
      split
      · exact landBytes_wf _ _ _ _ _ hs
      · exact landBytes_wf _ _ _ _ _ hs
  · exact hs

@[simp] theorem State.clFault_wf {s : State} (p : ClProg) (c : Cause) (hs : Memory.wf s.mem = true) : Memory.wf (s.clFault p c).mem = true := by
  unfold State.clFault
  rw [State.clStop_mem]
  exact Memory.wf_foldl (fun s a hs => ClProg.landStep_wf p a hs) _ hs

@[simp] theorem State.clLaunch_wf {s : State} (p : ClProg) (o : ClOp) (inn out : Option (Nat × Nat)) (hs : Memory.wf s.mem = true) :
    Memory.wf (s.clLaunch p o inn out).mem = true := by
  unfold State.clLaunch
  split
  · exact State.clFault_wf _ _ hs
  · cases inn <;> cases out <;> simpa using hs

@[simp] theorem State.clEnd_wf {s : State} (p : ClProg) (hs : Memory.wf s.mem = true) : Memory.wf (s.clEnd p).mem = true := by
  unfold State.clEnd
  split
  · exact hs
  · split
    · exact State.clFault_wf _ _ hs
    · exact relThen_wf _ _ _ hs (fun n s hs => by simpa using hs) fun s hs => by simpa using hs

@[simp] theorem State.clReach_wf {s : State} (p : ClProg) (o : ClOp) (hs : Memory.wf s.mem = true) : Memory.wf (s.clReach p o).mem = true := by
  have hf := fun c => State.clFault_wf p c hs
  have hl := fun i r => State.clLaunch_wf p o i r hs
  unfold State.clReach
  dsimp only
  split
  · split
    · exact State.clEnd_wf p hs
    · exact hs
  · split
    · simpa using hs
    · split
      · simpa using hs
      · exact hf _
  · split
    · exact hf _
    · simpa using hs
  · generalize (if o.kind = 1 ∨ o.kind = 2 ∨ o.kind = 3 ∨ o.kind = 4 ∨ o.kind = 5 ∨ o.kind = 7 then [o.x1] else []) = near
    generalize (if o.kind = 3 ∨ o.kind = 4 then [o.x3] else []) = far
    split
    · exact hs
    · split
      · simpa using hs
      · split
        · exact hf _
        · split
          · exact hf _
          · exact hf _
          · split
            · exact hf _
            · split
              · split
                · exact hf _
                · simpa using hs
              · split
                · exact hl _ _
                · split
                  · exact hl _ _
                  · split <;> exact hl _ _

@[simp] theorem execClStepStart_wf {s : State} (ch : Nat) (hs : Memory.wf s.mem = true) : (execClStepStart ch s).MemWf := by
  simp only [execClStepStart, Out.memWf_next]
  split
  · exact hs
  · split
    · exact hs
    · split
      · split <;> simpa using hs
      · split
        · exact State.clFault_wf _ _ hs
        · split
          · exact State.clFault_wf _ _ hs
          · exact State.clReach_wf _ _ hs

@[simp] theorem State.clMismatch_wf {s : State} (p : ClProg) (msg : ClMsg) (hs : Memory.wf s.mem = true) :
    Memory.wf (s.clMismatch p msg).mem = true := by simp [State.clMismatch, hs]

@[simp] theorem State.clDeliver_wf {s : State} (p : ClProg) (msg : ClMsg) (hs : Memory.wf s.mem = true) :
    Memory.wf (s.clDeliver p msg).mem = true := by
  unfold State.clDeliver
  split
  · simpa using hs
  · split
    · exact State.clMismatch_wf _ _ hs
    · simpa using hs
  · dsimp only
    split
    · exact hs
    · split
      · exact State.clMismatch_wf _ _ hs
      · simpa using hs
  · exact hs

@[simp] theorem State.clHold_mem (s : State) (msg : ClMsg) : (s.clHold msg).mem = s.mem := by simp [State.clHold]

@[simp] theorem State.clResend_mem (s : State) (msg : ClMsg) : (s.clResend msg).mem = s.mem := by simp [State.clResend]

@[simp] theorem State.clMeet_wf {s : State} (p : ClProg) (msg : ClMsg) (hs : Memory.wf s.mem = true) :
    Memory.wf (s.clMeet p msg).mem = true := by
  unfold State.clMeet
  split
  · exact State.clFault_wf _ _ hs
  · exact State.clFault_wf _ _ hs
  · exact State.clFault_wf _ _ hs
  · split
    · exact State.clMismatch_wf _ _ hs
    · split
      · exact State.clDeliver_wf _ _ hs
      · simpa using hs

@[simp] theorem State.clJudge_wf {s : State} (slot : Nat) (msg : ClMsg) (hs : Memory.wf s.mem = true) :
    Memory.wf (s.clJudge slot msg).mem = true := by
  unfold State.clJudge
  dsimp only
  split
  · simpa using hs
  · split
    · split <;> simpa using hs
    · split
      · exact State.clMeet_wf _ _ (by simpa using hs)
      · split
        · simpa using hs
        · split <;> simpa using hs

@[simp] theorem State.clReject_wf {s : State} (msg : ClMsg) (hs : Memory.wf s.mem = true) : Memory.wf (s.clReject msg).mem = true := by
  unfold State.clReject
  dsimp only
  split
  · exact hs
  · split
    · split
      · exact State.clFault_wf _ _ hs
      · exact hs
    · exact hs

@[simp] theorem State.clArrive_wf {s : State} (msg : ClMsg) (hs : Memory.wf s.mem = true) : Memory.wf (s.clArrive msg).mem = true := by
  unfold State.clArrive
  split
  · exact State.clReject_wf _ hs
  · split
    · exact hs
    · split
      · simpa using hs
      · exact State.clJudge_wf _ _ hs

@[simp] theorem execClMessageArrive_wf {s : State} (msg : ClMsg) (hs : Memory.wf s.mem = true) : (execClMessageArrive msg s).MemWf :=
  State.clArrive_wf msg hs

@[simp] theorem execClAbortArrive_wf {s : State} (msg : ClMsg) (hs : Memory.wf s.mem = true) : (execClAbortArrive msg s).MemWf :=
  State.clArrive_wf _ hs

@[simp] theorem State.clRelease_wf {s : State} (p : ClProg) (hs : Memory.wf s.mem = true) : Memory.wf (s.clRelease p).mem = true := by
  unfold State.clRelease
  refine Memory.wf_foldl (fun s m hs => ?_) _ hs
  split
  · exact State.clMeet_wf _ _ hs
  · split <;> simpa using hs

@[simp] theorem execClProgramStart_wf {s : State} (ch : Nat) (hs : Memory.wf s.mem = true) : (execClProgramStart ch s).MemWf := by
  simp only [execClProgramStart, Out.memWf_next]
  split
  · exact hs
  · next p _ =>
    have hm : Memory.wf (s.meetRange p.finder (s.ctx p.ctx) p.steps (8 * p.nsteps)).mem = true := by simpa using hs
    split
    · exact hs
    · split
      · simpa using hs
      · split
        · exact State.clFault_wf _ _ hs
        · split
          · exact hm
          · split
            · exact State.clFault_wf _ _ hm
            · simpa using hm
            · exact State.clRelease_wf _ (by simpa using hm)

@[simp] theorem State.modStep_mem (s : State) (p : ClProg) (i : Nat) (f : ClStep → ClStep) : (s.modStep p i f).mem = s.mem := by rfl

@[simp] theorem State.dropStep_mem (s : State) (p : ClProg) (i : Nat) : (s.dropStep p i).mem = s.mem := by rfl

theorem State.clGrant_mem {s s' : State} {f n dur : Nat} (h : s.clGrant f n dur = some s') : s'.mem = s.mem :=
  State.grantUnit_mem h

@[simp] theorem State.clSendPart_wf {s : State} (p : ClProg) (i : Nat) (a : ClStep) (dest chunk : Nat) (hs : Memory.wf s.mem = true) :
    Memory.wf (s.clSendPart p i a dest chunk).mem = true := by
  unfold State.clSendPart
  split
  · exact hs
  · split
    · exact State.clFault_wf _ _ (by simpa using hs)
    · split
      · dsimp only
        split
        · exact hs
        · split
          · exact hs
          · rw [State.modStep_mem, State.clGrant_mem ‹_›]
            exact hs
      · split <;> simpa using hs

@[simp] theorem State.clApply_wf {s : State} (p : ClProg) (i : Nat) (a : ClStep) (chunk : Nat) (hs : Memory.wf s.mem = true) :
    Memory.wf (s.clApply p i a chunk).mem = true := by
  unfold State.clApply
  extract_lets c come ins red
  have hr : red.MemWf := by
    simp only [red]
    split
    · split
      · have hc := fun sh => p.readChunk_wf c p.finder sh chunk hs
        split
        · next heq => simpa only [ChunkRes.MemWf, State.settleElement_mem] using (hc _).ok heq
        · exact hc _
      · trivial
    · exact hs
  clear_value red
  cases red with
  | fault f => exact State.clFault_wf _ _ hs
  | wait n => simpa using hs
  | ok s1 outs ls =>
    have h1 : Memory.wf s1.mem = true := hr
    dsimp -zeta only
    extract_lets w
    have hw : w.MemWf := by
      simp only [w]
      split
      · exact p.writeChunk_wf _ _ _ _ _ _ h1
      · exact h1
    clear_value w
    cases w with
    | fault f => exact State.clFault_wf _ _ h1
    | wait n => simpa using h1
    | ok s2 _ _ =>
      have h2 : Memory.wf s2.mem = true := hw
      dsimp only
      split <;> split <;> simpa using h2

@[simp] theorem State.clReceive_mem (s : State) (p : ClProg) (i : Nat) (a : ClStep) : (s.clReceive p i a).1.mem = s.mem := by
  unfold State.clReceive
  dsimp only
  split
  · rfl
  · split
    · rfl
    · simpa using State.clGrant_mem ‹_›

@[simp] theorem State.clReduce_mem (s : State) (p : ClProg) (i : Nat) (a : ClStep) (come : Nat) :
    (s.clReduce p i a come).mem = s.mem := by
  unfold State.clReduce
  dsimp only
  split
  · rfl
  · split
    · rfl
    · simpa using State.clGrant_mem ‹_›

@[simp] theorem State.clRecvPart_wf {s : State} (p : ClProg) (i : Nat) (a : ClStep) (chunk : Nat) (hs : Memory.wf s.mem = true) :
    Memory.wf (s.clRecvPart p i a chunk).mem = true := by
  unfold State.clRecvPart
  split
  · exact hs
  · split
    · simpa using hs
    · split
      · exact hs
      · exact State.clApply_wf _ _ _ _ hs

@[simp] theorem State.clCopy_wf {s : State} (p : ClProg) (i : Nat) (a : ClStep) (hs : Memory.wf s.mem = true) :
    Memory.wf (s.clCopy p i a).mem = true := by
  unfold State.clCopy
  split
  · split
    · dsimp only
      split
      · exact State.clFault_wf _ _ hs
      · simpa using hs
      · next heq =>
        have h1 := (p.readChunk_wf _ _ _ _ hs).ok heq
        split
        · exact State.clFault_wf _ _ h1
        · simpa using h1
        · next hq => simpa using (p.writeChunk_wf _ _ _ _ _ _ h1).ok hq
    · exact State.clFault_wf _ _ hs
  · exact hs

@[simp] theorem State.flagExchange_wf {s : State} (p : ClProg) (va : Nat) (ps : List (Nat × Nat)) (hs : Memory.wf s.mem = true) :
    Memory.wf (s.flagExchange p va ps).2.mem = true := by
  unfold State.flagExchange
  dsimp only
  split <;> simp [hs]

@[simp] theorem State.clFlag_wf {s : State} (p : ClProg) (i idx : Nat) (a : ClStep) (hs : Memory.wf s.mem = true) :
    Memory.wf (s.clFlag p i idx a).mem = true := by
  unfold State.clFlag
  dsimp only
  split
  · split <;> simpa using hs
  · split
    · exact hs
    · refine relThen_wf _ _ _ hs (fun n s hs => by simpa using hs) fun s hs => ?_
      split
      · exact State.clFault_wf _ _ hs
      · simpa using hs
      · split <;> simp [hs]

@[simp] theorem State.clSendStep_wf {s : State} (p : ClProg) (i : Nat) (a : ClStep) (dest chunk : Nat) (hs : Memory.wf s.mem = true) :
    Memory.wf (s.clSendStep p i a dest chunk).mem = true := by
  unfold State.clSendStep
  split
  · exact State.clSendPart_wf _ _ _ _ _ hs
  · split
    · exact hs
    · split
      · exact State.clFault_wf _ _ hs
      · split
        · exact State.clFault_wf _ _ hs
        · simpa using hs
        · next heq =>
          have h1 := (p.readChunk_wf _ _ _ _ hs).ok heq
          exact State.clSendPart_wf _ _ _ _ _ (by simpa using h1)

@[simp] theorem execClStepComplete_wf {s : State} (ch idx : Nat) (hs : Memory.wf s.mem = true) : (execClStepComplete ch idx s).MemWf := by
  simp only [execClStepComplete, Out.memWf_next]
  split
  · exact hs
  · split
    · exact hs
    · split
      · exact State.clCopy_wf _ _ _ hs
      · exact State.clFlag_wf _ _ _ _ hs
      · exact State.clSendStep_wf _ _ _ _ _ hs
      · exact State.clRecvPart_wf _ _ _ _ hs
      · split
        · exact State.clSendPart_wf _ _ _ _ _ hs
        · exact State.clRecvPart_wf _ _ _ _ hs
      · exact hs

@[simp] theorem execClStepTimeout_wf {s : State} (ch idx : Nat) (hs : Memory.wf s.mem = true) : (execClStepTimeout ch idx s).MemWf := by
  simp only [execClStepTimeout, Out.memWf_next]
  split
  · exact hs
  · simp [hs]

@[simp] theorem execFabricPeerLost_wf {s : State} (peer : Nat) (hs : Memory.wf s.mem = true) : (execFabricPeerLost peer s).MemWf :=
  Memory.wf_foldl (fun _ p hs => State.clFault_wf p .collPeer hs) _ hs

@[simp] theorem State.clPortsDown_wf {s : State} (ch : Nat) (hs : Memory.wf s.mem = true) : Memory.wf (s.clPortsDown ch).mem = true := by
  unfold State.clPortsDown
  split
  · exact Memory.wf_foldl (fun s p hs => State.clFault_wf p .collPeer hs) _ hs
  · exact hs

@[simp] theorem State.clKeyGone_wf {s : State} (slot : Nat) (hs : Memory.wf s.mem = true) : Memory.wf (s.clKeyGone slot).mem = true :=
  Memory.wf_foldl (fun _ p hs => State.clFault_wf p .fabricKey hs) _ hs

@[simp] theorem execClRun_wf {s : State} (h : Hdr) (d a b : RegNo) (acq rel : Bool) (hs : Memory.wf s.mem = true) :
    (execClRun h d a b acq rel s).MemWf := by
  refine teamWord_wf hs fun s t gs _ xs hs => ?_
  dsimp only
  split
  · exact hs
  · refine withAcq_wf _ t hs fun s hs => ?_
    have hm : Memory.wf (s.clMeets t (.clRun h d a b acq rel) (xs.headD 0)).mem = true := by simpa using hs
    split
    · exact hm
    · split
      · simpa using hm
      · exact withHandle_wf t d gs 5 hm fun s who _ hs => by simpa using hs
      · refine withHandle_wf t d gs 5 hm fun s who _ hs => ?_
        split
        · next heq =>
          have hc := (State.clCheck_wf _ _ _ _ _ hs).ok heq
          exact State.clPortsDown_wf _ (State.clRelease_wf _ (by simpa using hc))
        · exact hs

@[simp] theorem execClCncl_wf {s : State} (h : Hdr) (d a : RegNo) (hs : Memory.wf s.mem = true) : (execClCncl h d a s).MemWf :=
  teamWord_wf hs fun s t gs _ xs hs => by split <;> simpa using hs

theorem infoLoad_wf {k : State → Nat → Res} {s : State} (i : Instr) (d : RegNo) (gs : List Nat) (lead a n : Nat) (t : Team)
    (hs : Memory.wf s.mem = true) (hk : ∀ s x, Memory.wf s.mem = true → Memory.wf (k s x).state.mem = true) :
    Memory.wf (infoLoad i d gs lead a n s t k).state.mem = true := by
  unfold infoLoad
  split
  · simpa using hs
  · exact withLoad_wf i d gs lead a n t hs hk

@[simp] theorem execClInfo_wf {s : State} (h : Hdr) (d a : RegNo) (hs : Memory.wf s.mem = true) : (execClInfo h d a s).MemWf := by
  refine teamWord_wf hs fun s t gs lead xs hs => ?_
  dsimp only
  split
  · simpa using hs
  · refine infoLoad_wf _ _ _ _ _ _ t hs fun s e hs => ?_
    split
    · simpa using hs
    · exact infoLoad_wf _ _ _ _ _ _ t hs fun s m hs => by simpa using hs

@[simp] theorem execClProg_wf {s : State} (h : Hdr) (d a : RegNo) (hs : Memory.wf s.mem = true) : (execClProg h d a s).MemWf :=
  teamWord_wf hs fun s t gs _ xs hs => by simpa using hs

@[simp] theorem execClAbort_wf {s : State} (h : Hdr) (d a : RegNo) (hs : Memory.wf s.mem = true) : (execClAbort h d a s).MemWf :=
  teamWord_wf hs fun s t gs _ xs hs => by
    rw [Res.state_done, State.answer_mem, State.mem_foldl fun _ _ => State.clStop_mem ..]
    exact hs

end Sys2Proof.Machine
end

section
/-! SUPPORT. Memory stays canonical: tokens and refills; the sampling engine. -/

namespace Sys2Proof.Machine

open Sys2Proof

@[simp] theorem State.setMown_mem (s : State) (m : Nat) : (s.setMown m).mem = s.mem := by simp [State.setMown]

@[simp] theorem State.dropWrite_mem (s : State) : s.dropWrite.mem = s.mem := by simp [State.dropWrite]

@[simp] theorem State.heard_mem (s : State) (master : Nat) : (s.heard master).mem = s.mem := by simp [State.heard]

theorem State.ownerWrite_wf {k : State → State} {s : State} (master : Nat) (hs : Memory.wf s.mem = true)
    (hk : ∀ s, Memory.wf s.mem = true → Memory.wf (k s).mem = true) : Memory.wf (s.ownerWrite master k).mem = true := by
  unfold State.ownerWrite
  split
  · exact hk _ (by simpa using hs)
  · simpa using hs

@[simp] theorem State.setPrice_mem (s : State) (c f v : Nat) : (s.setPrice c f v).mem = s.mem := by simp [State.setPrice]

@[simp] theorem execPriceTableWrite_wf {s : State} (master c f : Nat) (value : DWord) (hs : Memory.wf s.mem = true) :
    (execPriceTableWrite master c f value s).MemWf :=
  State.ownerWrite_wf master hs fun s hs => by simpa using hs

@[simp] theorem execTkcoreWrite_wf {s : State} (master core : Nat) (value : DWord) (hs : Memory.wf s.mem = true) :
    (execTkcoreWrite master core value s).MemWf :=
  State.ownerWrite_wf master hs fun s hs => by split <;> simpa using hs

@[simp] theorem State.debit_mem (s : State) (uid core p : Nat) : (s.debit uid core p).mem = s.mem := by
  unfold State.debit
  repeat' split
  all_goals simp

@[simp] theorem repay_mem (core : Nat) : ∀ (ts : List Team) (r : Nat) (s : State), (repay core ts r s).1.mem = s.mem
  | [], _, _ => rfl
  | t :: ts, r, s => by rw [repay, repay_mem core ts, State.modTeam_mem]

@[simp] theorem execCoreRefill_wf {s : State} (core : Nat) (hs : Memory.wf s.mem = true) : (execCoreRefill core s).MemWf := by
  simp only [execCoreRefill, Out.memWf_next, State.putCore_mem, repay_mem, State.setDieBal_mem]
  exact hs

@[simp] theorem State.fillDie_mem (s : State) (d : Nat) : (s.fillDie d).mem = s.mem := by rfl

@[simp] theorem execDieRefill_wf {s : State} (hs : Memory.wf s.mem = true) : (execDieRefill s).MemWf := by
  simp only [execDieRefill, Out.memWf_next]
  split <;> simpa using hs

@[simp] theorem execReservationTake_wf {s : State} (core uid : Nat) (hs : Memory.wf s.mem = true) : (execReservationTake core uid s).MemWf := by
  simp only [execReservationTake, Out.memWf_next]
  split
  · exact hs
  · split
    · exact hs
    · split <;> simpa using hs

@[simp] theorem execTkWait_wf {s : State} (h : Hdr) (a : RegNo) (hs : Memory.wf s.mem = true) : (execTkWait h a s).MemWf :=
  teamWord_wf hs fun s t _ _ xs hs => by dsimp only; split <;> simpa using hs

@[simp] theorem State.modSlot_mem (s : State) (v n : Nat) (f : SaSlot → SaSlot) : (s.modSlot v n f).mem = s.mem := by rfl

@[simp] theorem State.readElems_mem (s : State) (f : Finder) (ty : Ty) (scaled : Bool) (addr lay : Word) (j : Nat) (zs : List Nat) :
    (s.readElems f ty scaled addr lay j zs).mem = s.mem := by simp [State.readElems]

@[simp] theorem State.readTerm_mem (s : State) (f : Finder) (x : SaSlot) (k : Nat) : (s.readTerm f x k).mem = s.mem := by simp [State.readTerm]

@[simp] theorem State.settleSa_mem (s : State) (q : SaCmd) (w : Nat) : (s.settleSa q w).mem = s.mem := by simp [State.settleSa]

@[simp] theorem State.failStat_mem (s : State) (q : SaCmd) : (s.failStat q).mem = s.mem := by simp [State.failStat]

@[simp] theorem State.drawOne_mem (s : State) (v : Nat) (q : SaCmd) (first : Bool) : (s.drawOne v q first).mem = s.mem := by simp [State.drawOne]

@[simp] theorem State.drawBatch_mem (s : State) (v : Nat) (q : SaCmd) : (s.drawBatch v q).mem = s.mem := by simp [State.drawBatch]

@[simp] theorem State.finish64_mem (s : State) (v : Nat) (q : SaCmd) : (s.finish64 v q).mem = s.mem := by simp [State.finish64]

@[simp] theorem State.acceptSa_mem (s : State) (t : Team) (ins : Nat × Nat) (who : HRef) (slot : Nat) (word : Word) (op : SaOp)
    (rows : Nat × Nat) (q : Nat) (entry : Option Nat) : (s.acceptSa t ins who slot word op rows q entry).mem = s.mem := by simp [State.acceptSa]

@[simp] theorem execSaOpen_wf {s : State} (h : Hdr) (d a b c : RegNo) (hs : Memory.wf s.mem = true) : (execSaOpen h d a b c s).MemWf := by
  refine teamWord_wf hs fun s t gs _ xs hs => ?_
  dsimp only
  split
  · exact hs
  · split
    · exact hs
    · refine withHandle_wf t d gs 2 hs fun s who _ hs => ?_
      split
      · simpa using hs
      · split <;> simpa using hs

theorem saPlain_wf {s : State} (i : Instr) (d : RegNo) (acq : Bool) (word : Nat) (op : SaOp) (t : Team) (gs : List Nat)
    (hs : Memory.wf s.mem = true) : Memory.wf (saPlain i d acq word op s t gs).state.mem = true :=
  withAcq_wf _ t hs fun s hs => withHandle_wf t d gs 2 hs fun s who _ hs => by simpa using hs

@[simp] theorem execSaClose_wf {s : State} (h : Hdr) (d a : RegNo) (hs : Memory.wf s.mem = true) : (execSaClose h d a s).MemWf :=
  teamWord_wf hs fun _ t gs _ _ hs => saPlain_wf _ _ _ _ _ t gs hs

@[simp] theorem execSaNorm_wf {s : State} (h : Hdr) (d a b : RegNo) (acq : Bool) (hs : Memory.wf s.mem = true) :
    (execSaNorm h d a b acq s).MemWf :=
  teamWord_wf hs fun _ t gs _ _ hs => saPlain_wf _ _ _ _ _ t gs hs

@[simp] theorem execSaBuild_wf {s : State} (h : Hdr) (d a b c : RegNo) (hs : Memory.wf s.mem = true) : (execSaBuild h d a b c s).MemWf :=
  teamWord_wf hs fun _ t gs _ _ hs => saPlain_wf _ _ _ _ _ t gs hs

theorem saWindow_wf {s : State} (i : Instr) (d : RegNo) (acq : Bool) (word : Nat) (op : SaOp) (kind : MxKind) (t : Team) (gs : List Nat)
    (hs : Memory.wf s.mem = true) : Memory.wf (saWindow i d acq word op kind s t gs).state.mem = true := by
  unfold saWindow
  split
  · exact hs
  · split
    · exact hs
    · exact withAcq_wf _ t hs fun s hs => withHandle_wf t d gs 2 hs fun s who _ hs => by simpa using hs

@[simp] theorem execSaDraw_wf {s : State} (h : Hdr) (d a : RegNo) (acq : Bool) (hs : Memory.wf s.mem = true) : (execSaDraw h d a acq s).MemWf :=
  teamWord_wf hs fun _ t gs _ _ hs => saWindow_wf _ _ _ _ _ _ t gs hs

@[simp] theorem execSaFin_wf {s : State} (h : Hdr) (d a : RegNo) (hs : Memory.wf s.mem = true) : (execSaFin h d a s).MemWf :=
  teamWord_wf hs fun _ t gs _ _ hs => saWindow_wf _ _ _ _ _ _ t gs hs

@[simp] theorem execSaStat_wf {s : State} (h : Hdr) (d a : RegNo) (hs : Memory.wf s.mem = true) : (execSaStat h d a s).MemWf := by
  refine teamWord_wf hs fun s t gs _ xs hs => ?_
  dsimp only
  split
  · split <;> simpa using hs
  · simpa using hs

@[simp] theorem State.answerStats_mem (s : State) (v : Nat) : (s.answerStats v).mem = s.mem := by rfl

@[simp] theorem State.modSa_mem (s : State) (v id : Nat) (f : SaCmd → SaCmd) : (s.modSa v id f).mem = s.mem := by rfl

@[simp] theorem State.endSa_mem (s : State) (v : Nat) (q : SaCmd) (st : HStatus) (f : Option Cause) : (s.endSa v q st f).mem = s.mem := by rfl

@[simp] theorem execSaCommandStart_wf {s : State} (v slot : Nat) (hs : Memory.wf s.mem = true) : (execSaCommandStart v slot s).MemWf := by
  simp only [execSaCommandStart, Out.memWf_next]
  split
  · exact hs
  · split
    · exact hs
    · split
      · exact hs
      · simpa using hs
      · simpa using hs
      · split <;> simpa using hs

@[simp] theorem State.saPass_mem (s : State) (v : Nat) (q : SaCmd) (e : MxEntry) (sub : Nat) : (s.saPass v q e sub).mem = s.mem := by
  unfold State.saPass
  split <;> simp

@[simp] theorem State.readTiles_mem (s : State) (f : Finder) (x : SaSlot) (j : Nat) : (s.readTiles f x j).mem = s.mem := by simp [State.readTiles]

@[simp] theorem State.saUnit_mem (s : State) (v : Nat) (q : SaCmd) : (s.saUnit v q).mem = s.mem := by
  unfold State.saUnit
  dsimp only
  split
  · split
    · rfl
    · have hg := State.grantWork_mem ‹_›
      split
      · simpa using hg
      · split <;> simpa using hg
  · split
    · rfl
    · simpa using State.grantWork_mem ‹_›

@[simp] theorem State.grantReady_mem (s : State) (v : Nat) (e : MxEntry) : (s.grantReady v e).mem = s.mem := by
  unfold State.grantReady
  split
  · exact State.mem_getD fun _ => State.grantPass_mem
  · rfl

@[simp] theorem execSaBatchPass_wf {s : State} (v slot : Nat) (hs : Memory.wf s.mem = true) : (execSaBatchPass v slot s).MemWf := by
  simp only [execSaBatchPass, Out.memWf_next]
  split
  · exact hs
  · split
    · exact hs
    · split
      · simpa using hs
      · split
        · exact hs
        · split
          · split <;> simpa using hs
          · simpa using hs

@[simp] theorem execMxPassGrant_wf {s : State} (v : Nat) (hs : Memory.wf s.mem = true) : (execMxPassGrant v s).MemWf := by
  simp only [execMxPassGrant, Out.memWf_next]
  split <;> simpa using hs

@[simp] theorem execSaCommandComplete_wf {s : State} (v slot : Nat) (hs : Memory.wf s.mem = true) : (execSaCommandComplete v slot s).MemWf := by
  simp only [execSaCommandComplete, Out.memWf_next]
  split
  · exact hs
  · split <;> simpa using hs

end Sys2Proof.Machine
end

section
/-! SUPPORT. Memory stays canonical: islands, ramp and governor. -/

namespace Sys2Proof.Machine

open Sys2Proof

@[simp] theorem State.endUnit_mem (s : State) (u : RunUnit) : (s.endUnit u).mem = s.mem := by
  unfold State.endUnit
  repeat' split
  all_goals simp

@[simp] theorem State.countMisses_mem (s : State) (p : Placed) : (s.countMisses p).mem = s.mem := by
  unfold State.countMisses
  split <;> simp

@[simp] theorem State.openCycle_mem (s : State) : s.openCycle.mem = s.mem := by simp [State.openCycle]

@[simp] theorem State.putIsland_mem (s : State) (i : Nat) (st : Island) (since : Nat) : (s.putIsland i st since).mem = s.mem := by rfl

@[simp] theorem State.undirect_mem (s : State) (i : Nat) (st : Island) : (s.undirect i st).mem = s.mem := by rfl

@[simp] theorem State.noteRet_mem (s : State) : s.noteRet.mem = s.mem := by rfl

@[simp] theorem State.groupPorts_wf {s : State} (i : Nat) (up : Bool) (hs : Memory.wf s.mem = true) : Memory.wf (s.groupPorts i up).mem = true := by
  unfold State.groupPorts
  split
  · exact hs
  · refine Memory.wf_foldl (fun s k hs => ?_) _ hs
    dsimp only
    split
    · exact hs
    · exact State.clPortsDown_wf _ hs

@[simp] theorem execIslandIdle_wf {s : State} (i : Nat) (hs : Memory.wf s.mem = true) : (execIslandIdle i s).MemWf := by
  simp only [execIslandIdle, Out.memWf_next]
  simp [hs]

@[simp] theorem execIslandRetention_wf {s : State} (i : Nat) (hs : Memory.wf s.mem = true) : (execIslandRetention i s).MemWf := by
  simp only [execIslandRetention, Out.memWf_next]
  simp [hs]

@[simp] theorem execIslandWake_wf {s : State} (i : Nat) (hs : Memory.wf s.mem = true) : (execIslandWake i s).MemWf := by
  have ho : Memory.wf s.openCycle.mem = true := by simpa using hs
  simp only [execIslandWake, Out.memWf_next]
  split
  · exact ho
  · split
    · simpa using ho
    · split
      · exact ho
      · simp [hs]

@[simp] theorem execIslandWakeDone_wf {s : State} (i : Nat) (hs : Memory.wf s.mem = true) : (execIslandWakeDone i s).MemWf := by
  simp only [execIslandWakeDone, Out.memWf_next]
  split
  · have hg : Memory.wf (((s.putIsland i .run s.time).undirect i .run).groupPorts i true).mem = true :=
      State.groupPorts_wf _ _ (by simpa using hs)
    split
    · exact hg
    · exact Memory.wf_foldl (fun s r hs => State.arriveRemote_wf r hs) _ hg
  · exact hs

@[simp] theorem State.setClock_mem (s : State) (p : Nat × Nat) : (s.setClock p).mem = s.mem := by rfl

@[simp] theorem State.lowerClocks_mem (s : State) : s.lowerClocks.mem = s.mem :=
  State.mem_foldl State.setClock_mem ..

@[simp] theorem State.raiseClocks_mem (s : State) : s.raiseClocks.mem = s.mem := by simp [State.raiseClocks]

@[simp] theorem State.startTadpoles_mem (s : State) : s.startTadpoles.mem = s.mem := by rfl

@[simp] theorem State.addShort_mem (s : State) : s.addShort.mem = s.mem := by simp [State.addShort]

@[simp] theorem State.sampleBanks_mem (s : State) : s.sampleBanks.mem = s.mem := by
  unfold State.sampleBanks
  split <;> simp

@[simp] theorem State.applyRamp_mem (s : State) : s.applyRamp.mem = s.mem := by simp [State.applyRamp]

@[simp] theorem execRampStep_wf {s : State} (hs : Memory.wf s.mem = true) : (execRampStep s).MemWf := by
  unfold execRampStep
  split
  · exact hs
  · simp only [Out.memWf_next, State.raiseClocks_mem, State.addShort_mem, State.sampleBanks_mem, State.lowerClocks_mem,
      State.applyRamp_mem, State.openCycle_mem]
    exact hs

@[simp] theorem afterEvent_wf {s : State} {x : Out State} (hs : Memory.wf s.mem = true) (hx : x.MemWf) :
    Memory.wf (afterEvent s x).mem = true := by
  unfold afterEvent
  split
  · exact hx
  · exact hs

/-- What an engine's work waiting in a cluster does, if it runs, keeps the canonical form. -/
theorem State.askingIn_wf {s s' : State} {v : Nat} {a : Asking} (ha : a ∈ s.askingIn v) (hs : Memory.wf s'.mem = true) : (a.act s').MemWf := by
  simp only [State.askingIn, List.mem_append, List.mem_map] at ha
  obtain (((⟨e, _, rfl⟩ | ⟨e, _, rfl⟩) | ⟨q, _, rfl⟩) | ⟨q, _, rfl⟩) | ⟨q, _, rfl⟩ := ha
  · simpa using hs
  · exact execMxWindowOpComplete_wf _ _ hs
  · exact execSaBatchPass_wf _ _ hs
  · exact execCopyCommandStart_wf _ _ hs
  · exact execCopyCommandStart_wf _ _ hs

/-- What a channel's work waiting does, if it runs, keeps the canonical form. -/
theorem Channel.asking_wf {s : State} {ch : Nat} {c : Channel} {a : Asking} (ha : a ∈ c.asking ch) (hs : Memory.wf s.mem = true) :
    (a.act s).MemWf := by
  unfold Channel.asking at ha
  split at ha
  · split at ha
    · obtain ⟨i, _, rfl⟩ := List.mem_map.mp ha
      exact execClStepComplete_wf _ _ hs
    · cases ha
  · cases ha

@[simp] theorem execGovernorCycle_wf {s : State} (hs : Memory.wf s.mem = true) : (execGovernorCycle s).MemWf := by
  simp only [execGovernorCycle, Out.memWf_next]
  refine Memory.wf_foldl_mem (fun a ha s hs => afterEvent_wf hs ?_) (by simpa using hs)
  obtain ha | ha := List.mem_append.mp (mem_of_mem_sortBy ha)
  · obtain ⟨kc, _, ha⟩ := List.mem_flatMap.mp ha
    exact State.askingIn_wf ha hs
  · obtain ⟨kc, _, ha⟩ := List.mem_flatMap.mp ha
    exact Channel.asking_wf ha hs

@[simp] theorem State.restagger_mem (s : State) : s.restagger.mem = s.mem := by rfl

@[simp] theorem execTkIntent_wf {s : State} (h : Hdr) (d a b : RegNo) (hs : Memory.wf s.mem = true) : (execTkIntent h d a b s).MemWf := by
  refine teamWord_wf hs fun s t gs lead xs hs => ?_
  dsimp only
  split
  · exact hs
  · split <;> simpa using hs

@[simp] theorem execTkIcncl_wf {s : State} (h : Hdr) (d a : RegNo) (hs : Memory.wf s.mem = true) : (execTkIcncl h d a s).MemWf := by
  refine teamWord_wf hs fun s t gs _ xs hs => ?_
  dsimp only
  split
  · simpa using hs
  · split <;> simpa using hs

theorem State.govMessage_wf {k : State → State} {s : State} (part : Nat) (auth : Bool) (hs : Memory.wf s.mem = true)
    (hk : ∀ s, Memory.wf s.mem = true → Memory.wf (k s).mem = true) : Memory.wf (s.govMessage part auth k).mem = true := by
  unfold State.govMessage
  split
  · exact hk s hs
  · exact hs

@[simp] theorem execIntentReceive_wf {s : State} (peer idx gen dr lead part : Nat) (auth : Bool) (hs : Memory.wf s.mem = true) :
    (execIntentReceive peer idx gen dr lead part auth s).MemWf :=
  State.govMessage_wf part auth hs fun s hs => by simpa using hs

@[simp] theorem execIntentCancelReceive_wf {s : State} (peer idx gen part : Nat) (auth : Bool) (hs : Memory.wf s.mem = true) :
    (execIntentCancelReceive peer idx gen part auth s).MemWf :=
  State.govMessage_wf part auth hs fun s hs => by simpa using hs

@[simp] theorem execIntentExpire_wf {s : State} (idx : Nat) (hs : Memory.wf s.mem = true) : (execIntentExpire idx s).MemWf := by
  simp only [execIntentExpire, Out.memWf_next]
  split
  · exact hs
  · split <;> exact hs

end Sys2Proof.Machine
end

section
/-! SUPPORT. Memory stays canonical: the host interface. -/

namespace Sys2Proof.Machine

open Sys2Proof

@[simp] theorem State.watchOwner_mem (s : State) : s.watchOwner.mem = s.mem := by rfl

@[simp] theorem State.setOwner_mem (s : State) (owner : Nat) : (s.setOwner owner).mem = s.mem := by simp [State.setOwner]

@[simp] theorem State.setPend_mem (s : State) (m : Nat) : (s.setPend m).mem = s.mem := by simp [State.setPend]

@[simp] theorem execMclaimWrite_wf {s : State} (claims : List (Nat × DWord)) (hs : Memory.wf s.mem = true) : (execMclaimWrite claims s).MemWf := by
  simp only [execMclaimWrite, Out.memWf_next]
  generalize hw : (claims.filter _).foldl _ (List.foldl _ s _) = w
  have hw : Memory.wf w.mem = true := by
    rw [← hw, State.mem_foldl fun _ _ => State.dropWrite_mem .., State.mem_foldl State.heard_mem]
    exact hs
  split
  · exact hw
  · split
    · exact hw
    · simpa using hw

@[simp] theorem execMacceptWrite_wf {s : State} (master : Nat) (value : DWord) (hs : Memory.wf s.mem = true) :
    (execMacceptWrite master value s).MemWf := by
  simp only [execMacceptWrite, Out.memWf_next]
  split
  · simpa using hs
  · split <;> simpa using hs

@[simp] theorem execMownPendWrite_wf {s : State} (master : Nat) (value : DWord) (hs : Memory.wf s.mem = true) :
    (execMownPendWrite master value s).MemWf :=
  State.ownerWrite_wf master hs fun s hs => by simpa using hs

@[simp] theorem execPendTimeout_wf {s : State} (hs : Memory.wf s.mem = true) : (execPendTimeout s).MemWf := by
  simp only [execPendTimeout, Out.memWf_next]
  split <;> simpa using hs

@[simp] theorem execOwnerVacancy_wf {s : State} (hs : Memory.wf s.mem = true) : (execOwnerVacancy s).MemWf := by
  simp only [execOwnerVacancy, Out.memWf_next]
  split
  · split <;> simpa using hs
  · exact hs

@[simp] theorem execHostLinkDown_wf {s : State} (hs : Memory.wf s.mem = true) : (execHostLinkDown s).MemWf := by
  simpa [execHostLinkDown] using hs

@[simp] theorem execHostLinkUp_wf {s : State} (hs : Memory.wf s.mem = true) : (execHostLinkUp s).MemWf := by
  simp only [execHostLinkUp, Out.memWf_next]
  split <;> simpa using hs

@[simp] theorem State.setPort_mem (s : State) (port : Nat) (up : Bool) : (s.setPort port up).mem = s.mem := by rfl

@[simp] theorem execFabricPortDown_wf {s : State} (port : Nat) (hs : Memory.wf s.mem = true) : (execFabricPortDown port s).MemWf :=
  State.clPortsDown_wf _ (by simpa using hs)

@[simp] theorem execFabricPortUp_wf {s : State} (port : Nat) (hs : Memory.wf s.mem = true) : (execFabricPortUp port s).MemWf := by
  simp only [execFabricPortUp, Out.memWf_next]
  split <;> simpa using hs

@[simp] theorem State.hostError_mem (s : State) : s.hostError.mem = s.mem := by simp [State.hostError]

@[simp] theorem State.answerHost_mem (s : State) (off : Nat) (data : List Byte) : (s.answerHost off data).mem = s.mem := by rfl

@[simp] theorem State.hostFault_mem (s : State) (write : Bool) (off n : Nat) : (s.hostFault write off n).mem = s.mem := by simp [State.hostFault]

@[simp] theorem State.setCtl_mem (s : State) (slot v : Nat) : (s.setCtl slot v).mem = s.mem := by rfl

@[simp] theorem State.setSt_mem (s : State) (slot st : Nat) : (s.setSt slot st).mem = s.mem := by
  rw [State.setSt, State.setCtl_mem]

@[simp] theorem State.cancelQueued_mem (s : State) (slot : Nat) : (s.cancelQueued slot).mem = s.mem := by
  refine State.mem_foldl (fun s kc => ?_) ..
  dsimp only
  rw [State.mem_foldl fun _ _ => State.endEntry_mem .., State.mem_foldl fun _ _ => State.endSa_mem ..]

@[simp] theorem State.startDestroy_mem (s : State) (slot : Nat) : (s.startDestroy slot).mem = s.mem := by
  unfold State.startDestroy
  split
  · rfl
  · dsimp only
    rw [State.mem_foldl fun _ _ => State.clStop_mem .., State.mem_foldl fun _ _ => by simp, State.cancelQueued_mem,
      State.mem_foldl State.dropTeam_mem]

@[simp] theorem State.ctxCommand_mem (s : State) (slot cmd : Nat) : (s.ctxCommand slot cmd).mem = s.mem := by
  unfold State.ctxCommand
  dsimp only
  split
  · simp
  · split
    · rfl
    · split
      · simp
      · split
        · rfl
        · simp

@[simp] theorem State.ctxFields_mem (s : State) (slot v : Nat) : (s.ctxFields slot v).mem = s.mem := by
  unfold State.ctxFields
  dsimp only
  split
  · split
    · rw [State.setCtl_mem]
    · rw [State.startDestroy_mem, State.setCtl_mem]
  · split
    · rw [State.setCtl_mem]
    · rw [State.modCtx_mem, State.setCtl_mem]

@[simp] theorem State.writeCtl_mem (s : State) (slot v : Nat) : (s.writeCtl slot v).mem = s.mem := by simp [State.writeCtl]

@[simp] theorem execCtxSaveCmd_wf {s : State} (master slot : Nat) (value : DWord) (hs : Memory.wf s.mem = true) :
    (execCtxSaveCmd master slot value s).MemWf :=
  State.ownerWrite_wf master hs fun s hs => by simpa using hs

@[simp] theorem execCtxRestoreCmd_wf {s : State} (master slot : Nat) (value : DWord) (hs : Memory.wf s.mem = true) :
    (execCtxRestoreCmd master slot value s).MemWf :=
  State.ownerWrite_wf master hs fun s hs => by simpa using hs

@[simp] theorem execCtxDestroyCmd_wf {s : State} (master slot : Nat) (value : DWord) (hs : Memory.wf s.mem = true) :
    (execCtxDestroyCmd master slot value s).MemWf :=
  State.ownerWrite_wf master hs fun s hs => by simpa using hs

@[simp] theorem State.logCancel_wf {s : State} (slot uid gid : Nat) (hs : Memory.wf s.mem = true) : Memory.wf (s.logCancel slot uid gid).mem = true :=
  State.fileLog_wf _ _ _ _ hs

@[simp] theorem execContextSave_wf {s : State} (slot : Nat) (hs : Memory.wf s.mem = true) : (execContextSave slot s).MemWf := by
  simp only [execContextSave, Out.memWf_next]
  split
  · exact hs
  · refine Memory.wf_foldl (fun s p hs => State.logCancel_wf _ _ _ (by simpa using hs)) _ ?_
    exact Memory.wf_foldl (fun s x hs => State.logCancel_wf _ _ _ (by simpa using hs)) _ hs

@[simp] theorem State.removeCtx_wf {s : State} (slot : Nat) (hs : Memory.wf s.mem = true) : Memory.wf (s.removeCtx slot).mem = true := by
  unfold State.removeCtx
  dsimp only
  rw [State.ackAll_mem]
  exact State.drain_wf _ hs

@[simp] theorem execContextSaveComplete_wf {s : State} (slot : Nat) (hs : Memory.wf s.mem = true) : (execContextSaveComplete slot s).MemWf := by
  unfold execContextSaveComplete
  rw [Out.memWf_next]
  split
  · exact hs
  · split
    · exact hs
    · extract_lets gids s1 free old image id new s2 s3
      have h1 : Memory.wf s1.mem = true := by
        simp only [s1, State.ackAll_mem]
        exact State.drain_wf _ hs
      have h2 : Memory.wf s2.mem = true := by
        simp only [s2, new, id, State.newId_mem]
        refine State.removeCtx_wf slot ?_
        simp only [free, State.fresh_mem]
        exact h1
      refine State.writeRecord_wf _ _ _ ?_
      simp only [s3]
      rw [State.setCtl_mem, State.modCtx_mem]
      exact h2

/-- The vault of a restored context comes back by writes into what memory held outside its regions (R231). -/
theorem State.fillRegions_wf {s : State} (asid : Nat) (im : SavedCtx) (hs : Memory.wf s.mem = true) :
    Memory.wf (s.fillRegions asid im).mem = true := by
  unfold State.fillRegions
  exact Memory.wf_foldl_set _ (Memory.wf_filter _ hs)

theorem State.placeImage_wf {s : State} (slot : Nat) (im : SavedCtx) (hs : Memory.wf s.mem = true) :
    Memory.wf (s.placeImage slot im).mem = true := by
  unfold State.placeImage
  dsimp only
  rw [State.modCtx_mem, State.mem_foldl fun _ _ => State.putCluster_mem .., State.mem_foldl fun _ _ => State.putCore_mem ..]
  exact State.fillRegions_wf _ im hs

@[simp] theorem State.readImageAgain_mem (s : State) (slot : Nat) : (s.readImageAgain slot).mem = s.mem := by
  unfold State.readImageAgain
  split
  · rfl
  · exact State.mem_foldl (fun s _ => by split <;> simp) ..

@[simp] theorem execContextRestoreComplete_wf {s : State} (slot : Nat) (hs : Memory.wf s.mem = true) : (execContextRestoreComplete slot s).MemWf := by
  simp only [execContextRestoreComplete, Out.memWf_next]
  split
  · exact hs
  · split
    · simpa using hs
    · split
      · exact hs
      · rw [State.setCtl_mem, State.setSt_mem]
        exact State.placeImage_wf _ _ (by simpa using hs)

@[simp] theorem execContextDestroyComplete_wf {s : State} (slot : Nat) (hs : Memory.wf s.mem = true) : (execContextDestroyComplete slot s).MemWf := by
  simp only [execContextDestroyComplete, Out.memWf_next]
  split
  · exact hs
  · simp [hs]

@[simp] theorem execLscfgWrite_wf {s : State} (master slot : Nat) (value : DWord) (hs : Memory.wf s.mem = true) :
    (execLscfgWrite master slot value s).MemWf :=
  State.ownerWrite_wf master hs fun s hs => by split <;> simpa using hs

@[simp] theorem State.setPart_mem (s : State) (m v : Nat) : (s.setPart m v).mem = s.mem := by rfl

@[simp] theorem State.writePartcfg_mem (s : State) (v : Nat) : (s.writePartcfg v).mem = s.mem := by simp [State.writePartcfg]

@[simp] theorem execPartcfgWrite_wf {s : State} (master : Nat) (value : DWord) (hs : Memory.wf s.mem = true) :
    (execPartcfgWrite master value s).MemWf :=
  State.ownerWrite_wf master hs fun s hs => by simpa using hs

@[simp] theorem State.writePart_mem (s : State) (m v : Nat) : (s.writePart m v).mem = s.mem := by
  unfold State.writePart
  split
  · rfl
  · extract_lets old s1
    have h1 : s1.mem = s.mem := by
      simp only [s1]
      rw [State.setPart_mem]
    clear_value s1 old
    rw [State.mem_ite]
    dsimp only
    rw [ite_self]
    exact h1

@[simp] theorem execPartWrite_wf {s : State} (master m : Nat) (value : DWord) (hs : Memory.wf s.mem = true) :
    (execPartWrite master m value s).MemWf :=
  State.ownerWrite_wf master hs fun s hs => by simpa using hs

@[simp] theorem execLinkKeyZeroise_wf {s : State} (m : Nat) (hs : Memory.wf s.mem = true) : (execLinkKeyZeroise m s).MemWf := by
  simp only [execLinkKeyZeroise, Out.memWf_next]
  split
  · exact hs
  · exact State.clKeyGone_wf _ (by simpa using hs)

@[simp] theorem State.keyEffect_mem (s : State) : s.keyEffect.1.mem = s.mem := by
  unfold State.keyEffect
  dsimp only
  split
  · split
    · rfl
    · split <;> rfl
  · split
    · rfl
    · split
      · exact State.setPart_mem ..
      · rfl
  · split <;> rfl
  · rfl

@[simp] theorem State.keyCommand_mem (s : State) : s.keyCommand.mem = s.mem := by simp [State.keyCommand]

theorem keyEvent_wf {s : State} (kind master : Nat) (hs : Memory.wf s.mem = true) : (keyEvent kind master s).MemWf :=
  State.ownerWrite_wf master hs fun s hs => by split <;> simpa using hs

@[simp] theorem execMemoryKeyInstall_wf {s : State} (master : Nat) (hs : Memory.wf s.mem = true) : (execMemoryKeyInstall master s).MemWf :=
  keyEvent_wf 1 master hs

@[simp] theorem execLinkKeyInstall_wf {s : State} (master : Nat) (hs : Memory.wf s.mem = true) : (execLinkKeyInstall master s).MemWf :=
  keyEvent_wf 2 master hs

@[simp] theorem execClearKeySlot_wf {s : State} (master : Nat) (hs : Memory.wf s.mem = true) : (execClearKeySlot master s).MemWf :=
  keyEvent_wf 3 master hs

@[simp] theorem State.attest_mem (s : State) : s.attest.mem = s.mem := by rfl

@[simp] theorem execAttestationRequest_wf {s : State} (master : Nat) (hs : Memory.wf s.mem = true) : (execAttestationRequest master s).MemWf :=
  State.ownerWrite_wf master hs fun s hs => by simpa using hs

@[simp] theorem State.writePkgReg_mem (s : State) (n v : Nat) : (s.writePkgReg n v).mem = s.mem := by
  unfold State.writePkgReg
  split <;> simp

@[simp] theorem State.writeWin_mem (s : State) (w v : Nat) : (s.writeWin w v).mem = s.mem := by simp [State.writeWin]

@[simp] theorem State.writeTkdie_mem (s : State) (d v : Nat) : (s.writeTkdie d v).mem = s.mem := by simp [State.writeTkdie]

@[simp] theorem State.writeKeyBlock_mem (s : State) (off v : Nat) : (s.writeKeyBlock off v).mem = s.mem := by simp [State.writeKeyBlock]

@[simp] theorem State.writeAttBlock_mem (s : State) (off v : Nat) : (s.writeAttBlock off v).mem = s.mem := by simp [State.writeAttBlock]

@[simp] theorem State.writeOffset_mem (s : State) (off v : Nat) : (s.writeOffset off v).mem = s.mem := by simp [State.writeOffset]

@[simp] theorem execRegisterWrite_wf {s : State} (master off : Nat) (value : DWord) (hs : Memory.wf s.mem = true) :
    (execRegisterWrite master off value s).MemWf := by
  unfold execRegisterWrite
  split
  · exact execMclaimWrite_wf _ hs
  · split
    · exact execMacceptWrite_wf _ _ hs
    · exact State.ownerWrite_wf master hs fun s hs => by simpa using hs

@[simp] theorem execHostWindowAccess_wf {s : State} (write : Bool) (off n : Nat) (bytes : List Byte) (hs : Memory.wf s.mem = true) :
    (execHostWindowAccess write off n bytes s).MemWf := by
  have hf : Memory.wf (s.hostFault write off n).mem = true := by simpa using hs
  unfold execHostWindowAccess
  dsimp only
  split
  · split
    · simpa using hs
    · split
      · exact hs
      · split
        · exact execRegisterWrite_wf _ _ _ hs
        · simpa using hs
  · split
    · exact hs
    · rw [Out.memWf_next]
      split
      · exact hf
      · split
        · simpa using hs
        · split
          · split
            · next heq =>
              have hw := (State.spaceWrite_wf _ _ _ _ hs).ok heq
              exact hw
            · simpa using hs
            · exact hf
          · split
            · next heq =>
              have hr := (State.spaceRead_wf _ _ _ _ _ hs).ok heq
              split <;> simpa using hr
            · simpa using hs
            · exact hf

@[simp] theorem execThermalCycleCount_wf {s : State} (dt : Temp) (hs : Memory.wf s.mem = true) : (execThermalCycleCount dt s).MemWf := by
  simp only [execThermalCycleCount, Out.memWf_next]
  repeat' split
  all_goals exact hs

@[simp] theorem State.senseTemp_wf {s : State} (hs : Memory.wf s.mem = true) : Memory.wf s.senseTemp.mem = true := by
  unfold State.senseTemp
  split
  · exact hs
  · dsimp only
    split
    · exact hs
    · split
      · split
        · next heq =>
          refine Out.MemWf.next (execThermalCycleCount_wf _ ?_) heq
          exact hs
        · exact hs
      · exact hs

@[simp] theorem execHoursAtTemperature_wf {s : State} (temp : Temp) (hs : Memory.wf s.mem = true) : (execHoursAtTemperature temp s).MemWf := by
  simp only [execHoursAtTemperature, Out.memWf_next]
  repeat' split
  all_goals exact hs

@[simp] theorem execWearCounterSave_wf {s : State} (hs : Memory.wf s.mem = true) : (execWearCounterSave s).MemWf := hs

@[simp] theorem State.unpowered_mem (n : Nvm) (free : Nat) (inputs : List Instr) : (State.unpowered n free inputs).mem = [] := by rfl

@[simp] theorem execPowerLoss_wf (s : State) : (execPowerLoss s).MemWf := by
  rw [execPowerLoss, Out.memWf_next, State.unpowered_mem]
  rfl

@[simp] theorem execColdBoot_wf {s : State} (vset : Nat) (stackTemps portTemps : List Temp) (hs : Memory.wf s.mem = true) :
    (execColdBoot vset stackTemps portTemps s).MemWf := by
  simp only [execColdBoot, Out.memWf_next]
  split
  · exact hs
  · split <;> rfl

end Sys2Proof.Machine
end

section
/-! SUPPORT. Memory stays canonical: issue. -/

namespace Sys2Proof.Machine

open Sys2Proof

@[simp] theorem State.payFor_mem (s : State) (t : Team) (i : Instr) : (s.payFor t i).mem = s.mem := by simp [State.payFor]

@[simp] theorem State.idle_mem (s : State) : s.idle.mem = s.mem := by rfl

@[simp] theorem State.retryLater_mem (s : State) (uid : Nat) : (s.retryLater uid).mem = s.mem := by rfl

@[simp] theorem State.issued_mem (s : State) (t : Team) : (s.issued t).mem = s.mem := by simp [State.issued]

@[simp] theorem State.issue_wf {ex : Instr → State → Out State} {s : State} (t : Team) (i : Instr)
    (hex : ∀ i s, Memory.wf s.mem = true → (ex i s).MemWf) (hs : Memory.wf s.mem = true) : (s.issue ex t i).MemWf := by
  have hrun : ∀ s : State, Memory.wf s.mem = true → (ex i { s with cur := some t.uid }).MemWf := fun s hs => hex i _ hs
  unfold State.issue
  dsimp only
  split
  · have h := hrun (s.issued t) (by simpa using hs)
    split
    · next heq =>
      rw [heq] at h
      simpa using h
    · exact h
  · split
    · simpa using hs
    · exact State.takeStop_wf _ _ _ hs
    · have h := hrun ((s.payFor t i).issued t) (by simpa using hs)
      split
      · next heq =>
        rw [heq] at h
        split
        · simpa using h
        · have h := hrun s hs
          split
          · next heq =>
            rw [heq] at h
            simpa using h
          · exact h
      · exact h

@[simp] theorem State.runTeam_wf {ex : Instr → State → Out State} {s : State} (uid : Nat)
    (hex : ∀ i s, Memory.wf s.mem = true → (ex i s).MemWf) (hs : Memory.wf s.mem = true) : (s.runTeam ex uid).MemWf := by
  unfold State.runTeam
  split
  · exact hs
  · split
    · exact hs
    · exact State.takeStop_wf _ _ _ hs
    · split
      · exact State.takeStop_wf _ _ _ hs
      · exact State.issue_wf _ _ hex hs

@[simp] theorem State.takeAsync_wf {s : State} (t : Team) (hs : Memory.wf s.mem = true) : Memory.wf (s.takeAsync t).mem = true := by
  unfold State.takeAsync
  split
  · exact hs
  · refine State.takePending_wf _ ?_
    split <;> simpa using hs

@[simp] theorem State.meetCode_mem (s : State) (t : Team) : (s.meetCode t).mem = s.mem := by
  unfold State.meetCode
  split
  · rfl
  · refine State.mem_foldl (fun s k => ?_) ..
    split
    · exact State.mem_foldl (fun _ _ => State.meetCodeWord_mem ..) ..
    · rfl

@[simp] theorem State.settleWord_wf {s : State} (t : Team) (hs : Memory.wf s.mem = true) : Memory.wf (s.settleWord t).mem = true := by
  have hm : Memory.wf (s.meetCode t).mem = true := by simpa using hs
  unfold State.settleWord
  dsimp only
  split
  · exact hm
  · simp [hs]
  · split
    · simp [hs]
    · split
      · simp [hs]
      · split
        · exact afterEvent_wf hm (execLoadDataReturn_wf _ hm)
        · exact hm

@[simp] theorem State.settleTeam_wf {s : State} (uid : Nat) (hs : Memory.wf s.mem = true) : Memory.wf (s.settleTeam uid).mem = true := by
  unfold State.settleTeam
  split
  · exact hs
  · split
    · split
      · exact hs
      · dsimp only
        split
        · simp [hs]
        · split
          · simpa using hs
          · have hp : ∀ t, Memory.wf (s.putTeam t).mem = true := fun t => by simpa using hs
            exact afterEvent_wf (hp _) (execLoadDataReturn_wf _ (hp _))
    · split
      · exact afterEvent_wf hs (execPreciseStop_wf _ hs)
      · split
        · split
          · exact State.takeAsync_wf _ hs
          · exact hs
        · split
          · simpa using hs
          · simp [hs]
          · simpa using hs
          · dsimp only
            split <;> simp [hs]
    · exact hs

@[simp] theorem State.takeChoice_mem (s : State) (t : Team) (i : Instr) : (s.takeChoice t i).mem = s.mem := by simp [State.takeChoice]

@[simp] theorem State.choosePipes_mem (s : State) (ks : List Nat) (first : Bool) (cs : List (Team × Instr)) :
    (s.choosePipes ks first cs).1.mem = s.mem := by simp [State.choosePipes]

@[simp] theorem State.countHeld_mem (s0 s : State) (t : Team) (i : Instr) : (State.countHeld s0 s t i).mem = s.mem := by rfl

@[simp] theorem State.pollTokens_wf {s : State} (uid : Nat) (hs : Memory.wf s.mem = true) : Memory.wf (s.pollTokens uid).mem = true := by
  unfold State.pollTokens
  split
  · exact hs
  · split
    · split
      · exact hs
      · split <;> simp [hs]
    · exact hs

@[simp] theorem State.countNot_mem (s : State) (uid : Nat) : (s.countNot uid).mem = s.mem := by rfl

@[simp] theorem execIssueCycle_wf {s : State} (core : Nat) (hs : Memory.wf s.mem = true) : (execIssueCycle core s).MemWf := by
  simp only [execIssueCycle, Out.memWf_next]
  rw [State.mem_foldl State.countNot_mem, State.mem_foldl fun _ _ => State.countHeld_mem ..]
  dsimp only
  rw [State.choosePipes_mem, State.mem_foldl fun _ _ => State.modTeam_mem ..]
  exact Memory.wf_foldl (fun s u hs => State.pollTokens_wf u hs) _ (Memory.wf_foldl (fun s u hs => State.settleTeam_wf u hs) _ hs)

@[simp] theorem execAsyncFault_wf {s : State} (uid slot cause : Nat) (hs : Memory.wf s.mem = true) : (execAsyncFault uid slot cause s).MemWf := by
  simp only [execAsyncFault, Out.memWf_next]
  split
  · exact hs
  · split <;> simpa using hs

end Sys2Proof.Machine
end

section
/-! SUPPORT. Memory stays canonical: the core cycle. -/

namespace Sys2Proof.Machine

open Sys2Proof

theorem State.each_wf {α : Type} {s : State} (l : List α) {f : α → State → Out State} (hs : Memory.wf s.mem = true)
    (hf : ∀ x s, Memory.wf s.mem = true → (f x s).MemWf) : Memory.wf (s.each l f).mem = true :=
  Memory.wf_foldl (fun s x hs => afterEvent_wf hs (hf x s hs)) l hs

@[simp] theorem State.applyAtoms_wf {s : State} (hs : Memory.wf s.mem = true) : Memory.wf s.applyAtoms.mem = true := by
  unfold State.applyAtoms
  refine Memory.wf_foldl (fun s w hs => ?_) _ hs
  split
  · exact afterEvent_wf hs (execAtomicApply_wf _ hs)
  · exact hs

@[simp] theorem State.cycleMemory_wf {s : State} (hs : Memory.wf s.mem = true) : Memory.wf s.cycleMemory.mem = true := by
  unfold State.cycleMemory
  extract_lets s1 s2 s3 asked
  have h1 : Memory.wf s1.mem = true := State.applyAtoms_wf hs
  have h2 : Memory.wf s2.mem = true := by
    simp only [s2]
    split
    · exact afterEvent_wf h1 (execHomeStoreRegister_wf _ h1)
    · exact h1
  have h3 : Memory.wf s3.mem = true := by
    simp only [s3]
    split
    · exact afterEvent_wf h2 (execRevokeAck_wf _ h2)
    · exact h2
  exact h3

@[simp] theorem State.cycleHold_wf {s : State} (uid : Nat) (hs : Memory.wf s.mem = true) : Memory.wf (s.cycleHold uid).mem = true := by
  unfold State.cycleHold
  split
  · exact hs
  · split
    · exact afterEvent_wf hs (execSleepWake_wf _ hs)
    · exact afterEvent_wf hs (execHandleCompleteWake_wf _ hs)
    · exact afterEvent_wf hs (execHandleCompleteWake_wf _ hs)
    · split
      · exact afterEvent_wf hs (execBarrierTokenReturn_wf _ hs)
      · exact hs
    · split
      · exact afterEvent_wf hs (execBarrierRelease_wf _ hs)
      · exact hs
    · split <;> simpa using hs
    · simp [hs]
    · exact hs

@[simp] theorem State.cycleFence_mem (s : State) (uid : Nat) : (s.cycleFence uid).mem = s.mem := by
  unfold State.cycleFence
  split <;> simp

@[simp] theorem State.cycleTeams_wf {s : State} (hs : Memory.wf s.mem = true) : Memory.wf s.cycleTeams.mem = true := by
  unfold State.cycleTeams
  dsimp only
  rw [State.mem_foldl State.cycleFence_mem]
  refine Memory.wf_foldl (fun s uid hs => State.cycleHold_wf uid hs) _ ?_
  exact Memory.wf_foldl (fun s _ hs => afterEvent_wf hs (execBarrierArrival_wf _ hs)) _ hs

@[simp] theorem State.cycleCode_wf {s : State} (k : Nat) (hs : Memory.wf s.mem = true) : Memory.wf (s.cycleCode k).mem = true := by
  unfold State.cycleCode
  dsimp only
  refine State.each_wf _ ?_ fun n s hs => execMcrecReadable_wf k n hs
  have h : ∀ ls ps, Memory.wf ((s.each ls (execCfetchLand k)).each ps (execCodeSlotPinExpiry k)).mem = true := fun ls ps =>
    State.each_wf ps (State.each_wf ls hs fun n s hs => execCfetchLand_wf k n hs) fun n s hs => execCodeSlotPinExpiry_wf k n hs
  split
  · rw [State.serveLoads_mem]
    exact h _ _
  · exact h _ _

@[simp] theorem State.cycleReserve_wf {s : State} (k : Nat) (hs : Memory.wf s.mem = true) : Memory.wf (s.cycleReserve k).mem = true :=
  State.each_wf _ hs fun uid _ hs => execReservationTake_wf k uid hs

@[simp] theorem State.portPicks_mem (s : State) : s.portPicks.mem = s.mem := by rfl

@[simp] theorem State.cycleIssue_wf {s : State} (k : Nat) (hs : Memory.wf s.mem = true) : Memory.wf (s.cycleIssue k).mem = true :=
  afterEvent_wf hs (execIssueCycle_wf k hs)

@[simp] theorem State.cycleCluster_wf {s : State} (v : Nat) (hs : Memory.wf s.mem = true) : Memory.wf (s.cycleCluster v).mem = true := by
  unfold State.cycleCluster
  extract_lets c s1 s2 s3 s4 s5 s6 s7 s8 s9 s10
  have h1 : Memory.wf s1.mem = true := State.each_wf _ hs fun id s hs => execGangForm_wf v id hs
  have h2 : Memory.wf s2.mem = true := afterEvent_wf h1 (execWindowAllocate_wf v h1)
  have h3 : Memory.wf s3.mem = true := State.each_wf _ h2 fun id s hs => execMmaLatchComplete_wf v id hs
  have h4 : Memory.wf s4.mem = true := State.each_wf _ h3 fun n s hs => execMxPassEnd_wf v n hs
  have h5 : Memory.wf s5.mem = true := by
    simp only [s5, State.cancelBroken_mem]
    exact h4
  have h6 : Memory.wf s6.mem = true := State.each_wf _ h5 fun id s hs => execMxWindowOpComplete_wf v id hs
  have h7 : Memory.wf s7.mem = true := State.each_wf _ h6 fun n s hs => execSaCommandStart_wf v n hs
  have h8 : Memory.wf s8.mem = true := State.each_wf _ h7 fun n s hs => execSaCommandComplete_wf v n hs
  have h9 : Memory.wf s9.mem = true := by
    simp only [s9, State.answerStats_mem]
    exact h8
  have h10 : Memory.wf s10.mem = true := State.each_wf _ h9 fun remote s hs => execCopyComplete_wf v remote hs
  exact State.each_wf _ h10 fun n s hs => execSubarrayGate_wf v n hs

@[simp] theorem State.cycleChannel_wf {s : State} (ch : Nat) (hs : Memory.wf s.mem = true) : Memory.wf (s.cycleChannel ch).mem = true := by
  unfold State.cycleChannel
  extract_lets s1 s2
  have h1 : Memory.wf s1.mem = true := afterEvent_wf hs (execClProgramStart_wf ch hs)
  have h2 : Memory.wf s2.mem = true := afterEvent_wf h1 (execClStepStart_wf ch h1)
  exact State.each_wf _ h2 fun n s hs => execClStepTimeout_wf ch n hs

@[simp] theorem State.cycleQueue_wf {s : State} (slot q : Nat) (hs : Memory.wf s.mem = true) : Memory.wf (s.cycleQueue slot q).mem = true := by
  unfold State.cycleQueue
  extract_lets c x s1 y
  have h1 : Memory.wf s1.mem = true := by
    simp only [s1]
    split
    · split <;> simpa using hs
    · exact Memory.wf_of_ite (afterEvent_wf hs (execQueueTableEntryWrite_wf _ _ hs)) hs
    · exact hs
  have ht : Memory.wf (afterEvent s1 (execQueueTailStore slot q s1)).mem = true := afterEvent_wf h1 (execQueueTailStore_wf _ _ h1)
  split
  · exact h1
  · split
    · split
      · exact h1
      · exact ht
    · simpa using h1
    · split
      · exact ht
      · exact h1

@[simp] theorem State.cycleCtx_wf {s : State} (slot : Nat) (hs : Memory.wf s.mem = true) : Memory.wf (s.cycleCtx slot).mem = true := by
  unfold State.cycleCtx
  split
  · exact hs
  · extract_lets s1 qs s2 s3 s4 s5
    have h1 : Memory.wf s1.mem = true := Memory.wf_foldl (fun s q hs => State.cycleQueue_wf slot q hs) _ hs
    have h2 : Memory.wf s2.mem = true := State.each_wf _ h1 fun q s hs => execLaunchPacketConsume_wf slot q hs
    have h3 : Memory.wf s3.mem = true := State.each_wf _ h2 fun q s hs => execPacketStart_wf slot q hs
    have h4 : Memory.wf s4.mem = true := State.each_wf _ h3 fun q s hs => execTapeRunStart_wf slot q hs
    have h5 : Memory.wf s5.mem = true := State.each_wf _ h4 fun q s hs => execStepEndClose_wf slot q hs
    exact afterEvent_wf h5 (execTapePop_wf slot h5)

@[simp] theorem State.placeGrid_wf {s : State} (gid : Nat) (hs : Memory.wf s.mem = true) : Memory.wf (s.placeGrid gid).mem = true := by
  unfold State.placeGrid
  split
  · exact hs
  · split
    · exact afterEvent_wf hs (execWholeGridPlace_wf gid hs)
    · exact Memory.wf_foldl (fun s _ hs => afterEvent_wf hs (execPackPlace_wf gid hs)) _ hs

@[simp] theorem State.cycleDispatch_wf {s : State} (hs : Memory.wf s.mem = true) : Memory.wf s.cycleDispatch.mem = true := by
  unfold State.cycleDispatch
  extract_lets s1 s2 s3 s4 s5
  have h1 : Memory.wf s1.mem = true := Memory.wf_foldl (fun s k hs => State.cycleCtx_wf k hs) _ hs
  have h2 : Memory.wf s2.mem = true := State.each_wf _ h1 fun uid s hs => execEvictionDrainDone_wf uid hs
  have h3 : Memory.wf s3.mem = true := State.each_wf _ h2 fun uid s hs => execTeamRestore_wf uid hs
  have h4 : Memory.wf s4.mem = true := Memory.wf_foldl (fun s gid hs => State.placeGrid_wf gid hs) _ h3
  have h5 : Memory.wf s5.mem = true := State.each_wf _ h4 fun gid s hs => execPartialEviction_wf gid hs
  exact State.each_wf _ h5 fun gid s hs => execGridEnd_wf gid hs

@[simp] theorem State.cycleMoves_wf {s : State} (hs : Memory.wf s.mem = true) : Memory.wf s.cycleMoves.mem = true :=
  State.each_wf _ (State.each_wf _ hs fun m _ hs => execMigrationHold_wf m.ctx m.va hs) fun m _ hs =>
    execMigrationSwitch_wf m.ctx m.va false [] hs

@[simp] theorem State.cycleHost_wf {s : State} (hs : Memory.wf s.mem = true) : Memory.wf s.cycleHost.mem = true := by
  unfold State.cycleHost
  extract_lets slots s1 s2 s3 s4 s5 s6 s7
  have h1 : Memory.wf s1.mem = true := State.each_wf _ hs fun k s hs => execContextSave_wf k hs
  have h2 : Memory.wf s2.mem = true := State.each_wf _ h1 fun k s hs => execContextSaveComplete_wf k hs
  have h3 : Memory.wf s3.mem = true := State.each_wf _ h2 fun k s hs => execContextRestoreComplete_wf k hs
  have h4 : Memory.wf s4.mem = true := State.each_wf _ h3 fun k s hs => execContextDestroyComplete_wf k hs
  have h5 : Memory.wf s5.mem = true := State.each_wf _ h4 fun m s hs => execLinkKeyZeroise_wf m hs
  have h6 : Memory.wf s6.mem = true := State.senseTemp_wf h5
  have h7 : Memory.wf s7.mem = true := by
    simp only [s7]
    split
    · exact afterEvent_wf h6 (execWearCounterSave_wf h6)
    · exact h6
  have h8 : Memory.wf (afterEvent s7 (execPendTimeout s7)).mem = true := afterEvent_wf h7 (execPendTimeout_wf h7)
  exact afterEvent_wf h8 (execOwnerVacancy_wf h8)

@[simp] theorem State.cycleIslands_wf {s : State} (hs : Memory.wf s.mem = true) : Memory.wf s.cycleIslands.mem = true := by
  unfold State.cycleIslands
  extract_lets all s1 s2 s3
  have h1 : Memory.wf s1.mem = true := State.each_wf _ hs fun i s hs => execIslandWakeDone_wf i hs
  have h2 : Memory.wf s2.mem = true := State.each_wf _ h1 fun i s hs => execIslandWake_wf i hs
  have h3 : Memory.wf s3.mem = true := State.each_wf _ h2 fun i s hs => execIslandIdle_wf i hs
  exact State.each_wf _ h3 fun i s hs => execIslandRetention_wf i hs

@[simp] theorem State.refCycle_wf {s : State} (hs : Memory.wf s.mem = true) : Memory.wf s.refCycle.mem = true := by
  unfold State.refCycle
  extract_lets s1 s2 s3 s4 s5 s6 s7 s8 s9 s10 s11
  have h1 : Memory.wf s1.mem = true := State.each_wf _ hs fun n s hs => execIntentExpire_wf n hs
  clear_value s1
  have h2 : Memory.wf s2.mem = true := Memory.wf_of_ite (afterEvent_wf h1 (execRampStep_wf h1)) h1
  clear_value s2
  have h3 : Memory.wf s3.mem = true := State.cycleIslands_wf h2
  clear_value s3
  have h4 : Memory.wf s4.mem = true := afterEvent_wf h3 (execDieRefill_wf h3)
  clear_value s4
  have h5 : Memory.wf s5.mem = true := afterEvent_wf h4 (execGovernorCycle_wf h4)
  clear_value s5
  have h6 : Memory.wf s6.mem = true := State.each_wf _ h5 fun uid s hs => execCopyLateCheck_wf uid hs
  clear_value s6
  have h7 : Memory.wf s7.mem = true := Memory.wf_foldl (fun s ch hs => State.cycleChannel_wf ch hs) _ h6
  clear_value s7
  have h8 : Memory.wf s8.mem = true := State.cycleHost_wf h7
  clear_value s8
  have h9 : Memory.wf s9.mem = true := Memory.wf_of_ite h8 (State.retryRecs_wf h8)
  clear_value s9
  have h10 : Memory.wf s10.mem = true := State.cycleDispatch_wf h9
  clear_value s10
  have h11 : Memory.wf s11.mem = true := State.cycleMoves_wf h10
  clear_value s11
  exact Memory.wf_of_ite (afterEvent_wf h11 (execScrubRead_wf h11)) h11

@[simp] theorem State.cycleCores_wf {s : State} (ks : List Nat) (hs : Memory.wf s.mem = true) : Memory.wf (s.cycleCores ks).mem = true := by
  unfold State.cycleCores
  extract_lets s1 s2
  have h1 : Memory.wf s1.mem = true := State.each_wf _ hs fun k s hs => execCoreRefill_wf k hs
  have h2 : Memory.wf s2.mem = true := Memory.wf_foldl (fun s k hs => State.cycleCode_wf k hs) _ h1
  exact Memory.wf_foldl (fun s k hs => State.cycleIssue_wf k hs) _ (Memory.wf_foldl (fun s k hs => State.cycleReserve_wf k hs) _ h2)

@[simp] theorem State.coreCycle_wf {s : State} (hs : Memory.wf s.mem = true) : Memory.wf s.coreCycle.mem = true := by
  unfold State.coreCycle
  refine Memory.wf_of_ite hs ?_
  extract_lets s1 even s2 s3 s4 s5 s6 ks twice once s7 s8
  have h2 : Memory.wf s2.mem = true := by
    simp only [s2]
    refine Memory.wf_of_ite ?_ hs
    rw [State.openCycle_mem]
    exact hs
  clear_value s2 s1
  have h3 : Memory.wf s3.mem = true := Memory.wf_foldl (fun s v hs => State.cycleCluster_wf v hs) _ h2
  clear_value s3
  have h4 : Memory.wf s4.mem = true := Memory.wf_of_ite (State.refCycle_wf h3) h3
  clear_value s4
  have h5 : Memory.wf s5.mem = true := State.cycleMemory_wf h4
  clear_value s5
  have h6 : Memory.wf s6.mem = true := State.cycleTeams_wf h5
  clear_value s6
  have h7 : Memory.wf s7.mem = true := by
    simp only [s7]
    exact Memory.wf_of_ite h6 (State.cycleCores_wf _ (s := { s6 with later := 1 }) h6)
  clear_value s7
  have h8 : Memory.wf s8.mem = true := State.cycleCores_wf _ h7
  clear_value s8
  rw [State.portPicks_mem]
  refine Memory.wf_of_ite ?_ h8
  rw [State.startTadpoles_mem]
  exact h8

@[simp] theorem State.advanceBy_wf {ex : Instr → State → Out State} {s : State} (hex : ∀ i s, Memory.wf s.mem = true → (ex i s).MemWf)
    (hs : Memory.wf s.mem = true) : (s.advanceBy ex).MemWf := by
  unfold State.advanceBy
  split
  · exact State.runTeam_wf _ hex hs
  · split
    · next i rest _ =>
      have h := hex i { s with inputs := rest } hs
      split
      · next heq =>
        rw [heq] at h
        exact h
      · exact h
    · exact State.coreCycle_wf hs

end Sys2Proof.Machine
end

section
/-! SUPPORT. Memory stays canonical: lane words; lane floating-point words; cross-lane words. -/

namespace Sys2Proof.Machine

open Sys2Proof

@[simp] theorem laneBin_mem (i : Instr) (h : Hdr) (ty : Ty) (d a b : RegNo) (f : Nat → Nat → Nat) (s : State) (t : Team) :
    (laneBin i h ty d a b f s t).state.mem = s.mem := laneOp_mem ..

@[simp] theorem laneUn_mem (i : Instr) (h : Hdr) (ty : Ty) (n : Nat) (d a : RegNo) (f : Nat → Nat) (s : State) (t : Team) :
    (laneUn i h ty n d a f s t).state.mem = s.mem := laneOp_mem ..

@[simp] theorem laneTri_mem (i : Instr) (h : Hdr) (d a b c : RegNo) (f : Nat → Nat → Nat → Nat) (s : State) (t : Team) :
    (laneTri i h d a b c f s t).state.mem = s.mem := laneOp_mem ..

@[simp] theorem lanePred_mem (i : Instr) (h : Hdr) (p : BitVec 4) (f : Team → Nat → Bool) (s : State) (t : Team) :
    (lanePred i h p f s t).state.mem = s.mem := laneOp_mem ..

@[simp] theorem laneF3_mem (i : Instr) (h : Hdr) (d a b c : RegNo) (f : Team → Nat → List Nat → LRes) (s : State) (t : Team) :
    (laneF3 i h d a b c f s t).state.mem = s.mem := laneOp_mem ..

@[simp] theorem laneF2_mem (i : Instr) (h : Hdr) (d a b : RegNo) (f : Team → Nat → List Nat → LRes) (s : State) (t : Team) :
    (laneF2 i h d a b f s t).state.mem = s.mem := laneOp_mem ..

@[simp] theorem laneF1_mem (i : Instr) (h : Hdr) (d a : RegNo) (f : Team → Nat → List Nat → LRes) (s : State) (t : Team) :
    (laneF1 i h d a f s t).state.mem = s.mem := laneOp_mem ..

@[simp] theorem laneMove_mem (i : Instr) (h : Hdr) (ty : Ty) (d a : RegNo) (bad : Team → Nat → Bool)
    (src : Team → Nat → Nat → Option Nat) (s : State) (t : Team) : (laneMove i h ty d a bad src s t).state.mem = s.mem := by
  rw [laneMove, laneWith_mem]

@[simp] theorem laneRed_mem (i : Instr) (h : Hdr) (d a : RegNo) (steps : Bool) (cls : NodeCls) (f : Team → Nat → Nat → Nat → Nat)
    (s : State) (t : Team) : (laneRed i h d a steps cls f s t).state.mem = s.mem := by
  rw [laneRed, laneWith_mem]

@[simp] theorem laneScan_mem (i : Instr) (h : Hdr) (d a : RegNo) (steps : Bool) (cls : NodeCls) (f : Team → Nat → Nat → Nat → Nat)
    (s : State) (t : Team) : (laneScan i h d a steps cls f s t).state.mem = s.mem := by
  rw [laneScan, laneWith_mem]

end Sys2Proof.Machine
end

section
/-! SUPPORT. Memory stays canonical: every instruction; every step. -/

namespace Sys2Proof.Machine

open Sys2Proof

/-- Every instruction keeps the canonical form: the words of the tables touch registers only, each other word has its rule. -/
theorem exec_wf {s : State} (i : Instr) (hs : Memory.wf s.mem = true) : Out.MemWf (exec i s) := by
  cases i with
  | sAdd | sSub | sMul | sMulh | sAnd | sOr | sXor | sAndn | sShl | sShr | sSra | sMin | sMax =>
    exact withTeam_wf_of_mem hs fun _ => groupBin_mem ..
  | sLea | sMovi | sMovhi | sCmp | sCmpi | sNop | sCsrr | sCstat | tkPrice | tkDbal =>
    exact withTeam_wf_of_mem hs fun _ => groupOp_mem ..
  | sAddi | sAndi | sOri | sXori | sShli | sShri | sSrai =>
    exact withTeam_wf_of_mem hs fun _ => groupUn_mem ..
  | sSel | sMov | sVrd | sVrdf =>
    exact withTeam_wf_of_mem hs fun _ => groupWith_mem ..
  | sQand | sQor | sQxor | sQany | sQall =>
    exact withTeam_wf_of_mem hs fun _ => groupPred_mem ..
  | vAdd | vAdds | vSub | vSubs | vMul | vMulh | vAnd | vOr | vXor | vAndn | vShl | vShr | vSra | vRotl | vRotr | vMin | vMax | vBfx =>
    exact withTeam_wf_of_mem hs fun _ => laneBin_mem ..
  | vMulw | vMad | vMadh | vMadw | vCmp | vCmpi | vLid | vGlid | vMovi | vMovhi | vCvt | vLea | vItof | vFqnt | vVoteAny | vVoteAll |
    vBallot | vKgen | ckMcrd | ckEcnt =>
    exact withTeam_wf_of_mem hs fun _ => laneOp_mem ..
  | vDot4 | vDot4s | vFshl | vFshr | vBfi | vPerm | vPerms =>
    exact withTeam_wf_of_mem hs fun _ => laneTri_mem ..
  | vAddi | vAddis | vAndi | vOri | vXori | vShli | vShri | vSrai | vRotli | vPopc | vClz | vCtz | vBrev =>
    exact withTeam_wf_of_mem hs fun _ => laneUn_mem ..
  | vSel | vMov | vMatch | vScanAddx | ckRes | ckVfy | ckInjr =>
    exact withTeam_wf_of_mem hs fun _ => laneWith_mem ..
  | vPand | vPor | vPxor | vPandn | vPq =>
    exact withTeam_wf_of_mem hs fun _ => lanePred_mem ..
  | vFadd | vFsub | vFmul | vFmin | vFmax | vFcsgn | vFcmp | vFcvtPk | vFscl =>
    exact withTeam_wf_of_mem hs fun _ => laneF2_mem ..
  | vFma | vFms | vFnma | vFnms | vFdot2 =>
    exact withTeam_wf_of_mem hs fun _ => laneF3_mem ..
  | vFneg | vFabs | vFclass | vFcvt | vFtoi | vFrcp | vFsqrt | vFrsq | vFexp2 | vFlog2 | vFrr | vFrrTurn | vFsin | vFcos | vFsincos =>
    exact withTeam_wf_of_mem hs fun _ => laneF1_mem ..
  | vShfl | vShup | vShdn | vXswz | vBcast | vBcastf =>
    exact withTeam_wf_of_mem hs fun _ => laneMove_mem ..
  | vRedAdd | vRedMin | vRedMax | vRedAnd | vRedOr | vRedXor =>
    exact withTeam_wf_of_mem hs fun _ => laneRed_mem ..
  | vScanAdd | vScanMin | vScanMax =>
    exact withTeam_wf_of_mem hs fun _ => laneScan_mem ..
  | sJmp => exact execSJmp_wf (hs := hs) ..
  | sBr => exact execSBr_wf (hs := hs) ..
  | sBrAll => exact execSBrAll_wf (hs := hs) ..
  | sBrAny => exact execSBrAny_wf (hs := hs) ..
  | sLoop => exact execSLoop_wf (hs := hs) ..
  | sCall => exact execSCall_wf (hs := hs) ..
  | sJr => exact execSJr_wf (hs := hs) ..
  | sCallr => exact execSCallr_wf (hs := hs) ..
  | sBtab => exact execSBtab_wf (hs := hs) ..
  | sBtabc => exact execSBtabc_wf (hs := hs) ..
  | sExit => exact execSExit_wf (hs := hs) ..
  | sBarSync => exact execSBarSync_wf (hs := hs) ..
  | sBarArr => exact execSBarArr_wf (hs := hs) ..
  | sBarWait => exact execSBarWait_wf (hs := hs) ..
  | sSleepu => exact execSSleepu_wf (hs := hs) ..
  | sWait => exact execSWait_wf (hs := hs) ..
  | sPoll => exact execSPoll_wf (hs := hs) ..
  | sWaitall => exact execSWaitall_wf (hs := hs) ..
  | sFenceAcq => exact execSFenceAcq_wf (hs := hs) ..
  | sFenceRel => exact execSFenceRel_wf (hs := hs) ..
  | sFenceAcqrel => exact execSFenceAcqrel_wf (hs := hs) ..
  | sFenceSc => exact execSFenceSc_wf (hs := hs) ..
  | sFmt => exact execSFmt_wf (hs := hs) ..
  | sCsrw => exact execSCsrw_wf (hs := hs) ..
  | sCsrs => exact execSCsrs_wf (hs := hs) ..
  | sCsrc => exact execSCsrc_wf (hs := hs) ..
  | sSeed => exact execSSeed_wf (hs := hs) ..
  | sSeedmix => exact execSSeedmix_wf (hs := hs) ..
  | sCfetch => exact execSCfetch_wf (hs := hs) ..
  | sCfetchReload => exact execSCfetchReload_wf (hs := hs) ..
  | sJmpf => exact execSJmpf_wf (hs := hs) ..
  | sCfence => exact execSCfence_wf (hs := hs) ..
  | sTrap => exact execSTrap_wf (hs := hs) ..
  | sBrk => exact execSBrk_wf (hs := hs) ..
  | sRth => exact execSRth_wf (hs := hs) ..
  | vLd => exact execVLd_wf (hs := hs) ..
  | vSt => exact execVSt_wf (hs := hs) ..
  | vLdr => exact execVLdr_wf (hs := hs) ..
  | vPf => exact execVPf_wf (hs := hs) ..
  | vAtom => exact execVAtom_wf (hs := hs) ..
  | vAtomn => exact execVAtomn_wf (hs := hs) ..
  | vCas => exact execVCas_wf (hs := hs) ..
  | ckInjmGCe => exact execCkInjmGCe_wf (hs := hs) ..
  | ckInjmGUe => exact execCkInjmGUe_wf (hs := hs) ..
  | ckInjmVtCe => exact execCkInjmVtCe_wf (hs := hs) ..
  | ckInjmVtUe => exact execCkInjmVtUe_wf (hs := hs) ..
  | mxGang => exact execMxGang_wf (hs := hs) ..
  | mxFree => exact execMxFree_wf (hs := hs) ..
  | mxMma => exact execMxMma_wf (hs := hs) ..
  | mxZero => exact execMxZero_wf (hs := hs) ..
  | mxLd => exact execMxLd_wf (hs := hs) ..
  | mxSt => exact execMxSt_wf (hs := hs) ..
  | saOpen => exact execSaOpen_wf (hs := hs) ..
  | saClose => exact execSaClose_wf (hs := hs) ..
  | saNorm => exact execSaNorm_wf (hs := hs) ..
  | saBuild => exact execSaBuild_wf (hs := hs) ..
  | saDraw => exact execSaDraw_wf (hs := hs) ..
  | saFin => exact execSaFin_wf (hs := hs) ..
  | saStat => exact execSaStat_wf (hs := hs) ..
  | cpCopy => exact execCpCopy_wf (hs := hs) ..
  | cpMcast => exact execCpMcast_wf (hs := hs) ..
  | cpOff => exact execCpOff_wf (hs := hs) ..
  | cpRet => exact execCpRet_wf (hs := hs) ..
  | cpProm => exact execCpProm_wf (hs := hs) ..
  | cpRenew => exact execCpRenew_wf (hs := hs) ..
  | cpCncl => exact execCpCncl_wf (hs := hs) ..
  | pgReq => exact execPgReq_wf (hs := hs) ..
  | pgProbe => exact execPgProbe_wf (hs := hs) ..
  | pgShoot => exact execPgShoot_wf (hs := hs) ..
  | pgMig => exact execPgMig_wf (hs := hs) ..
  | pgCnt => exact execPgCnt_wf (hs := hs) ..
  | clRun => exact execClRun_wf (hs := hs) ..
  | clCncl => exact execClCncl_wf (hs := hs) ..
  | clInfo => exact execClInfo_wf (hs := hs) ..
  | clProg => exact execClProg_wf (hs := hs) ..
  | clAbort => exact execClAbort_wf (hs := hs) ..
  | dpLaunch => exact execDpLaunch_wf (hs := hs) ..
  | dpQstat => exact execDpQstat_wf (hs := hs) ..
  | dpTadd => exact execDpTadd_wf (hs := hs) ..
  | dpTdrop => exact execDpTdrop_wf (hs := hs) ..
  | dpTdepth => exact execDpTdepth_wf (hs := hs) ..
  | dpLsovf => exact execDpLsovf_wf (hs := hs) ..
  | dpLsstep => exact execDpLsstep_wf (hs := hs) ..
  | tkWait => exact execTkWait_wf (hs := hs) ..
  | tkIntent => exact execTkIntent_wf (hs := hs) ..
  | tkIcncl => exact execTkIcncl_wf (hs := hs) ..
  | coldBoot => exact execColdBoot_wf (hs := hs) ..
  | hostLinkDown => exact execHostLinkDown_wf (hs := hs) ..
  | ownerVacancy => exact execOwnerVacancy_wf (hs := hs) ..
  | mclaimWrite => exact execMclaimWrite_wf (hs := hs) ..
  | macceptWrite => exact execMacceptWrite_wf (hs := hs) ..
  | mownPendWrite => exact execMownPendWrite_wf (hs := hs) ..
  | pendTimeout => exact execPendTimeout_wf (hs := hs) ..
  | registerWrite => exact execRegisterWrite_wf (hs := hs) ..
  | hostWindowAccess => exact execHostWindowAccess_wf (hs := hs) ..
  | ctxSaveCmd => exact execCtxSaveCmd_wf (hs := hs) ..
  | ctxRestoreCmd => exact execCtxRestoreCmd_wf (hs := hs) ..
  | ctxDestroyCmd => exact execCtxDestroyCmd_wf (hs := hs) ..
  | contextSave => exact execContextSave_wf (hs := hs) ..
  | contextSaveComplete => exact execContextSaveComplete_wf (hs := hs) ..
  | contextDestroyComplete => exact execContextDestroyComplete_wf (hs := hs) ..
  | partcfgWrite => exact execPartcfgWrite_wf (hs := hs) ..
  | partWrite => exact execPartWrite_wf (hs := hs) ..
  | linkKeyZeroise => exact execLinkKeyZeroise_wf (hs := hs) ..
  | memoryKeyInstall => exact execMemoryKeyInstall_wf (hs := hs) ..
  | linkKeyInstall => exact execLinkKeyInstall_wf (hs := hs) ..
  | clearKeySlot => exact execClearKeySlot_wf (hs := hs) ..
  | attestationRequest => exact execAttestationRequest_wf (hs := hs) ..
  | priceTableWrite => exact execPriceTableWrite_wf (hs := hs) ..
  | tkcoreWrite => exact execTkcoreWrite_wf (hs := hs) ..
  | lscfgWrite => exact execLscfgWrite_wf (hs := hs) ..
  | wearCounterSave => exact execWearCounterSave_wf (hs := hs) ..
  | thermalCycleCount => exact execThermalCycleCount_wf (hs := hs) ..
  | queueTableEntryWrite => exact execQueueTableEntryWrite_wf (hs := hs) ..
  | queueTailStore => exact execQueueTailStore_wf (hs := hs) ..
  | launchPacketConsume => exact execLaunchPacketConsume_wf (hs := hs) ..
  | packetStart => exact execPacketStart_wf (hs := hs) ..
  | packPlace => exact execPackPlace_wf (hs := hs) ..
  | wholeGridPlace => exact execWholeGridPlace_wf (hs := hs) ..
  | partialEviction => exact execPartialEviction_wf (hs := hs) ..
  | evictionDrainDone => exact execEvictionDrainDone_wf (hs := hs) ..
  | teamRestore => exact execTeamRestore_wf (hs := hs) ..
  | gridEnd => exact execGridEnd_wf (hs := hs) ..
  | tapeRunStart => exact execTapeRunStart_wf (hs := hs) ..
  | tapePop => exact execTapePop_wf (hs := hs) ..
  | stepEndClose => exact execStepEndClose_wf (hs := hs) ..
  | issueCycle => exact execIssueCycle_wf (hs := hs) ..
  | mcrecReadable => exact execMcrecReadable_wf (hs := hs) ..
  | preciseStop => exact execPreciseStop_wf (hs := hs) ..
  | asyncFault => exact execAsyncFault_wf (hs := hs) ..
  | barrierArrival => exact execBarrierArrival_wf (hs := hs) ..
  | barrierRelease => exact execBarrierRelease_wf (hs := hs) ..
  | barrierTokenReturn => exact execBarrierTokenReturn_wf (hs := hs) ..
  | handleCompleteWake => exact execHandleCompleteWake_wf (hs := hs) ..
  | sleepWake => exact execSleepWake_wf (hs := hs) ..
  | copyLateCheck => exact execCopyLateCheck_wf (hs := hs) ..
  | cfetchLand => exact execCfetchLand_wf (hs := hs) ..
  | coreRefill => exact execCoreRefill_wf (hs := hs) ..
  | dieRefill => exact execDieRefill_wf (hs := hs) ..
  | reservationTake => exact execReservationTake_wf (hs := hs) ..
  | rampStep => exact execRampStep_wf (hs := hs) ..
  | governorCycle => exact execGovernorCycle_wf (hs := hs) ..
  | intentReceive => exact execIntentReceive_wf (hs := hs) ..
  | intentCancelReceive => exact execIntentCancelReceive_wf (hs := hs) ..
  | intentExpire => exact execIntentExpire_wf (hs := hs) ..
  | islandIdle => exact execIslandIdle_wf (hs := hs) ..
  | islandRetention => exact execIslandRetention_wf (hs := hs) ..
  | islandWake => exact execIslandWake_wf (hs := hs) ..
  | islandWakeDone => exact execIslandWakeDone_wf (hs := hs) ..
  | subarrayGate => exact execSubarrayGate_wf (hs := hs) ..
  | gangForm => exact execGangForm_wf (hs := hs) ..
  | windowAllocate => exact execWindowAllocate_wf (hs := hs) ..
  | mmaLatchComplete => exact execMmaLatchComplete_wf (hs := hs) ..
  | mxPassGrant => exact execMxPassGrant_wf (hs := hs) ..
  | mxPassEnd => exact execMxPassEnd_wf (hs := hs) ..
  | mxWindowOpComplete => exact execMxWindowOpComplete_wf (hs := hs) ..
  | saCommandStart => exact execSaCommandStart_wf (hs := hs) ..
  | saBatchPass => exact execSaBatchPass_wf (hs := hs) ..
  | saCommandComplete => exact execSaCommandComplete_wf (hs := hs) ..
  | copyCommandStart => exact execCopyCommandStart_wf (hs := hs) ..
  | copyComplete => exact execCopyComplete_wf (hs := hs) ..
  | clProgramStart => exact execClProgramStart_wf (hs := hs) ..
  | clStepStart => exact execClStepStart_wf (hs := hs) ..
  | clMessageArrive => exact execClMessageArrive_wf (hs := hs) ..
  | clStepComplete => exact execClStepComplete_wf (hs := hs) ..
  | clStepTimeout => exact execClStepTimeout_wf (hs := hs) ..
  | clAbortArrive => exact execClAbortArrive_wf (hs := hs) ..
  | fabricPeerLost => exact execFabricPeerLost_wf (hs := hs) ..
  | fabricPortDown => exact execFabricPortDown_wf (hs := hs) ..
  | llcMissTranslate => exact execLlcMissTranslate_wf (hs := hs) ..
  | pageWalkComplete => exact execPageWalkComplete_wf (hs := hs) ..
  | remoteRequestArrive => exact execRemoteRequestArrive_wf (hs := hs) ..
  | pendingRequestRewalk => exact execPendingRequestRewalk_wf (hs := hs) ..
  | atsInvalidate => exact execAtsInvalidate_wf (hs := hs) ..
  | priResponse => exact execPriResponse_wf (hs := hs) ..
  | mreqArrive => exact execMreqArrive_wf (hs := hs) ..
  | migrationHold => exact execMigrationHold_wf (hs := hs) ..
  | migrationSwitch => exact execMigrationSwitch_wf (hs := hs) ..
  | homeStoreRegister => exact execHomeStoreRegister_wf (hs := hs) ..
  | revokeAck => exact execRevokeAck_wf (hs := hs) ..
  | atomicApply => exact execAtomicApply_wf (hs := hs) ..
  | loadDataReturn => exact execLoadDataReturn_wf (hs := hs) ..
  | scrubRead => exact execScrubRead_wf (hs := hs) ..
  | hostLinkUp => exact execHostLinkUp_wf (hs := hs) ..
  | fabricPortUp => exact execFabricPortUp_wf (hs := hs) ..
  | powerLoss => exact execPowerLoss_wf s
  | hoursAtTemperature => exact execHoursAtTemperature_wf (hs := hs) ..
  | atsTranslationCompletion => exact execAtsTranslationCompletion_wf (hs := hs) ..
  | zeroLengthReadComplete => exact execZeroLengthReadComplete_wf (hs := hs) ..
  | contextRestoreComplete => exact execContextRestoreComplete_wf (hs := hs) ..
  | migrationRefusal => exact execMigrationRefusal_wf (hs := hs) ..
  | codeSlotPinExpiry => exact execCodeSlotPinExpiry_wf (hs := hs) ..

theorem step_wf {s : State} (hs : Memory.wf s.mem = true) : Out.MemWf (step s) :=
  State.advanceBy_wf (fun i _ hs => exec_wf i hs) hs

end Sys2Proof.Machine
end

section
/-! The canonical form of memory: the reset state, and every step. -/

namespace Sys2Proof.Claims

open Sys2Proof Sys2Proof.Machine

/-- Settles O58: memory is empty right after reset, and the empty list is canonical. -/
theorem resetMemoryCanonical : Obligations.ResetMemoryCanonical := by
  unfold Obligations.ResetMemoryCanonical
  exact rfl

/-- Settles O59: `step` runs an instruction, takes an input or passes a core cycle, and each of these keeps the form. Memory changes only by
writes of bytes (`poke_wf`), by the vault that comes back with a restored context (`State.fillRegions_wf`), and by a loss of power or a
cold boot, which empty it. -/
theorem stepKeepsMemoryCanonical : Obligations.StepKeepsMemoryCanonical := by
  unfold Obligations.StepKeepsMemoryCanonical
  intro s s' hs hstep
  exact (step_wf hs).next hstep

end Sys2Proof.Claims
end

section
/-! The reset values, and the counters and boots of the power events (R35, R449 to R451). -/

namespace Sys2Proof.Claims

open Sys2Proof Sys2Proof.Machine

/-- Settles O57: the tables of the reset state are empty, so that every core, context, register and cluster reads as its own reset value. -/
theorem resetValues : Obligations.ResetValues := by
  unfold Obligations.ResetValues
  have core (k : Nat) : State.reset.core k = Core.reset := rfl
  have ctx (k : Nat) : State.reset.ctx k = Ctx.reset := rfl
  have cluster (v : Nat) : State.reset.cluster v = Cluster.reset := rfl
  simp only [core, ctx, cluster]
  refine ⟨rfl, rfl, rfl, fun _ => by decide, fun _ => ?_, by decide, by decide, rfl, fun _ => rfl, rfl, by decide, by decide, by decide, by decide,
    by decide, by decide, rfl, fun _ => rfl, fun _ => rfl, fun _ => by decide⟩
  refine ⟨by decide, rfl, rfl, rfl, rfl, rfl, rfl, rfl, rfl, rfl, rfl⟩

/-! ### The halves of a wear register (R451) -/

/-- The first bin of a register counts in its low half. -/
theorem bump_low (w : DWord) : countedLow w (bump w false) := by
  have hw := w.isLt
  unfold countedLow lowBin highBin oneMore bump withBits bits
  simp only [Bool.false_eq_true, if_false, BitVec.toNat_ofNat]
  omega

/-- The second bin counts in its high half. -/
theorem bump_high (w : DWord) : countedHigh w (bump w true) := by
  have hw := w.isLt
  unfold countedHigh lowBin highBin oneMore bump withBits bits
  simp only [if_true, BitVec.toNat_ofNat]
  omega

/-! ### What the power events do -/

/-- A loss of power leaves the counters that were last written (R451). -/
theorem kept_of_saved (s : State) {a b c d e : DWord} (h : s.nvm.saved = [a, b, c, d, e]) :
    s.nvm.kept = { s.nvm with wtc0 := a, wtc1 := b, wpwr := c, whrs0 := d, whrs1 := e } := by
  simp [Nvm.kept, h]

/-- The identity key of a package after a power-up: the one that it has, else a new free value (R445). -/
def bootKey (s : State) : DWord := s.nvm.identity.getD s.fresh.1

/-- A power-up counts in the first bin of `WPWR`, and one with retraining in the second too (R451). -/
theorem wpwr_after_boot (w : DWord) (n : Nat) :
    lowBin (if n = 0 then bump w false else bump (bump w false) true) = oneMore (lowBin w) ∧
      highBin (if n = 0 then bump w false else bump (bump w false) true) = if n = 0 then highBin w else oneMore (highBin w) := by
  obtain ⟨hl, hh⟩ := bump_low w
  obtain ⟨hh', hl'⟩ := bump_high (bump w false)
  split
  · exact ⟨hl, hh⟩
  · exact ⟨hl'.trans hl, hh'.trans (congrArg oneMore hh)⟩

/-- A boot with firmware that passes: the records are reused or retrained, and the machine stands as after reset at the time of its first queue
read (R35, R450). -/
theorem coldBoot_passes (s : State) (vset : Nat) (ts us : List Temp) (hp : s.powered = false) (hf : s.nvm.fwOk = true) :
    let a := retrained (some (bootKey s)) vset s.nvm.hbmRecs ts
    let b := retrained (some (bootKey s)) vset s.nvm.portRecs us
    ∃ s', exec (.coldBoot vset ts us) s = .next s' ∧ s'.powered = true ∧ s'.teams = [] ∧ s'.mem = [] ∧
      s'.cyc = BitVec.ofNat 64 (bootCycles a b) ∧ s'.nvm = { s.nvm with
        identity := some (bootKey s)
        hbmRecs := retrain (some (bootKey s)) vset s.nvm.hbmRecs ts
        portRecs := retrain (some (bootKey s)) vset s.nvm.portRecs us
        wpwr := if a + b = 0 then bump s.nvm.wpwr false else bump (bump s.nvm.wpwr false) true } := by
  have hf' : (s.nvm.powerUp s.fresh.1).fwOk = true := hf
  refine ⟨_, congrArg Host.Outcome.next (if_neg (by simp [hp])), ?_⟩
  simp only [hf', Bool.not_true, Bool.false_eq_true, if_false]
  exact ⟨rfl, rfl, rfl, rfl, rfl⟩

/-- A boot without firmware that passes: ports and host link stay down, and nothing runs (R449). -/
theorem coldBoot_fails (s : State) (vset : Nat) (ts us : List Temp) (hp : s.powered = false) (hf : s.nvm.fwOk = false) :
    ∃ s', exec (.coldBoot vset ts us) s = .next s' ∧ s'.powered = true ∧ s'.pkg.hostUp = false ∧
      s'.pkg.portsUp = List.replicate 64 false ∧ s'.pkg.boardUp = true ∧ s'.teams = [] := by
  have hf' : (s.nvm.powerUp s.fresh.1).fwOk = false := hf
  refine ⟨_, congrArg Host.Outcome.next (if_neg (by simp [hp])), ?_⟩
  rw [if_pos (by simp [hf'])]
  exact ⟨rfl, rfl, rfl, rfl, rfl⟩

/-- A thermal cycle below 10 degrees is counted nowhere, any other in the bin of its bounds (R451). -/
theorem thermalCycle_counted (s : State) (dt : Int) :
    let n := s.nvm
    ∃ s', exec (.thermalCycleCount dt) s = .next s' ∧
      (dt < 100 → s'.nvm = n) ∧
      (100 ≤ dt → dt < 200 → countedLow n.wtc0 s'.nvm.wtc0 ∧ s'.nvm.wtc1 = n.wtc1) ∧
      (200 ≤ dt → dt < 400 → countedHigh n.wtc0 s'.nvm.wtc0 ∧ s'.nvm.wtc1 = n.wtc1) ∧
      (400 ≤ dt → dt ≤ 600 → countedLow n.wtc1 s'.nvm.wtc1 ∧ s'.nvm.wtc0 = n.wtc0) ∧
      (600 < dt → countedHigh n.wtc1 s'.nvm.wtc1 ∧ s'.nvm.wtc0 = n.wtc0) := by
  refine ⟨_, rfl, fun h => ?_, fun h h' => ?_, fun h h' => ?_, fun h h' => ?_, fun h => ?_⟩
  · rw [if_pos h]
  · have h1 : ¬ dt < 100 := by omega
    simp only [if_neg h1, if_pos h', bump_low, and_self]
  · have h1 : ¬ dt < 100 := by omega
    have h2 : ¬ dt < 200 := by omega
    simp only [if_neg h1, if_neg h2, if_pos h', bump_high, and_self]
  · have h1 : ¬ dt < 100 := by omega
    have h2 : ¬ dt < 200 := by omega
    have h3 : ¬ dt < 400 := by omega
    simp only [if_neg h1, if_neg h2, if_neg h3, if_pos h', bump_low, and_self]
  · have h1 : ¬ dt < 100 := by omega
    have h2 : ¬ dt < 200 := by omega
    have h3 : ¬ dt < 400 := by omega
    have h4 : ¬ dt ≤ 600 := by omega
    simp only [if_neg h1, if_neg h2, if_neg h3, if_neg h4, bump_high, and_self]

/-- An hour is counted in the bin of its temperature (R451). -/
theorem hour_counted (s : State) (temp : Int) :
    let n := s.nvm
    ∃ s', exec (.hoursAtTemperature temp) s = .next s' ∧
      (temp < 600 → countedLow n.whrs0 s'.nvm.whrs0 ∧ s'.nvm.whrs1 = n.whrs1) ∧
      (600 ≤ temp → temp < 850 → countedHigh n.whrs0 s'.nvm.whrs0 ∧ s'.nvm.whrs1 = n.whrs1) ∧
      (850 ≤ temp → temp ≤ 1050 → countedLow n.whrs1 s'.nvm.whrs1 ∧ s'.nvm.whrs0 = n.whrs0) ∧
      (1050 < temp → countedHigh n.whrs1 s'.nvm.whrs1 ∧ s'.nvm.whrs0 = n.whrs0) := by
  refine ⟨_, rfl, fun h => ?_, fun h h' => ?_, fun h h' => ?_, fun h => ?_⟩
  · simp only [if_pos h, bump_low, and_self]
  · have h1 : ¬ temp < 600 := by omega
    simp only [if_neg h1, if_pos h', bump_high, and_self]
  · have h1 : ¬ temp < 600 := by omega
    have h2 : ¬ temp < 850 := by omega
    simp only [if_neg h1, if_neg h2, if_pos h', bump_low, and_self]
  · have h1 : ¬ temp < 600 := by omega
    have h2 : ¬ temp < 850 := by omega
    have h3 : ¬ temp ≤ 1050 := by omega
    simp only [if_neg h1, if_neg h2, if_neg h3, bump_high, and_self]

/-- Settles O50: each event of the power chapter by what it does to the non-volatile memory. -/
theorem powerEventsComplete : Obligations.PowerEventsComplete := by
  unfold Obligations.PowerEventsComplete
  intro s n
  refine ⟨thermalCycle_counted s, hour_counted s, ⟨_, rfl, rfl⟩, fun a b c d e h => ?_,
    fun vset ts us hp => ⟨fun hf => ?_, coldBoot_fails s vset ts us hp⟩⟩
  case refine_1 =>
    refine ⟨State.unpowered s.nvm.kept s.freeCtr s.inputs, rfl, ?_⟩
    have hk : (State.unpowered s.nvm.kept s.freeCtr s.inputs).nvm = s.nvm.kept := rfl
    rw [hk, kept_of_saved s h]
    exact ⟨rfl, rfl, rfl, rfl, rfl, rfl, rfl, rfl, rfl, rfl⟩
  case refine_2 =>
    obtain ⟨s', he, hp', ht, hm, hc, hn⟩ := coldBoot_passes s vset ts us hp hf
    obtain ⟨hl, hh⟩ := wpwr_after_boot n.wpwr (retrained (some (bootKey s)) vset n.hbmRecs ts + retrained (some (bootKey s)) vset n.portRecs us)
    refine ⟨s', bootKey s, he, hp', ht, hm, ?_⟩
    rw [hn]
    rw [bootCycles] at hc
    exact ⟨hl, rfl, fun k hk => by simp [bootKey, show s.nvm.identity = some k from hk], ⟨hh, hc⟩, rfl, rfl⟩

end Sys2Proof.Claims
end

section
/-! What the writes of lane and group results leave alone, and the shape of what the tables' words write (R18, R19, R75). -/

namespace Sys2Proof.Machine

open Sys2Proof

/-! ### Lane registers and predicates after a lane's result -/

/-- A lane's run of registers changes in that lane alone, and there within the run. -/
theorem Team.vGet_vRun {l k : Nat} (n : Nat) (hl : l < 1024) (hk : k < 1024) : ∀ (ws : List RWord) (t : Team) (r : Nat),
    (k = l → n < r ∨ r + ws.length ≤ n) → (t.vRun r l ws).vGet n k = t.vGet n k
  | [], _, _, _ => rfl
  | w :: ws, t, r, h => by
    rw [List.length_cons] at h
    rw [Team.vRun, Team.vGet_vRun n hl hk ws _ (r + 1) fun e => by have := h e; omega]
    have hne : n * 1024 + k ≠ r * 1024 + l := fun e => by
      have hkl : k = l := by omega
      have := h hkl
      omega
    simp only [Team.vGet, Team.vPut, SMap.get_set, if_neg hne]

/-- Writing a lane's `v` registers changes no predicate. -/
theorem Team.vRun_p : ∀ (ws : List RWord) (t : Team) (r l : Nat), (t.vRun r l ws).p = t.p
  | [], _, _, _ => rfl
  | _ :: ws, _, r, l => Team.vRun_p ws _ (r + 1) l

/-- Writing a predicate changes no register. -/
theorem Team.pPut_v (t : Team) (n l : Nat) (b : Bool) : (t.pPut n l b).v = t.v := by
  obtain ⟨p, h⟩ := Team.pPut_eq t n l b
  rw [h]
  rfl

/-- A predicate is changed by a write of its own number in its own lane alone. -/
theorem Team.pGet_pPut {n m l k : Nat} (t : Team) (b : Bool) (hl : l < 1024) (hk : k < 1024) (h : k = l → m ≠ n) :
    (t.pPut m l b).pGet n k = t.pGet n k := by
  have hne : n * 1024 + k ≠ m * 1024 + l := fun e => h (by omega) (by omega)
  unfold Team.pPut
  split
  · rfl
  · simp only [Team.pGet, SMap.get_set, if_neg hne]

/-- The registers after a lane's result are those after its run of words. -/
theorem Team.writeLane_v (t : Team) (d l : Nat) (r : LRes) : (t.writeLane d l r).v = (t.vRun d l r.words).v := by
  unfold Team.writeLane
  cases r.pred <;> dsimp only <;> split <;> simp only [Team.pPut_v]

/-- The predicates after a lane's result are those after its predicate. -/
theorem Team.writeLane_p (t : Team) (d l : Nat) (r : LRes) :
    (t.writeLane d l r).p = match r.pred with
      | some (n, b) => ((t.vRun d l r.words).pPut n l b).p
      | none => t.p := by
  unfold Team.writeLane
  cases r.pred <;> dsimp only <;> split <;> simp only [Team.vRun_p]

theorem Team.vGet_writeLane {l k n : Nat} (t : Team) (d : Nat) (r : LRes) (hl : l < 1024) (hk : k < 1024)
    (h : k = l → n < d ∨ d + r.words.length ≤ n) : (t.writeLane d l r).vGet n k = t.vGet n k := by
  rw [Team.vGet, Team.writeLane_v]
  exact Team.vGet_vRun n hl hk r.words t d h

theorem Team.pGet_writeLane {l k n : Nat} (t : Team) (d : Nat) (r : LRes) (hl : l < 1024) (hk : k < 1024)
    (h : k = l → ∀ b, r.pred ≠ some (n, b)) : (t.writeLane d l r).pGet n k = t.pGet n k := by
  rw [Team.pGet, Team.writeLane_p]
  cases hp : r.pred with
  | none => rfl
  | some x =>
    have hx : k = l → x.1 ≠ n := fun e hn => h e x.2 (by rw [hp, ← hn])
    have he := Team.pGet_pPut (t.vRun d l r.words) x.2 hl hk hx
    simp only [Team.pGet, Team.vRun_p] at he ⊢
    exact he

/-- A register of a lane keeps its word through a word's results where that lane's own result does not reach it. -/
theorem Team.vGet_writeLanes {k n : Nat} (d : Nat) (f : Nat → LRes) (hk : k < 1024) : ∀ (ls : List Nat) (t : Team), (∀ l ∈ ls, l < 1024) →
    (k ∈ ls → n < d ∨ d + (f k).words.length ≤ n) → (t.writeLanes d ls f).vGet n k = t.vGet n k
  | [], _, _, _ => rfl
  | l :: ls, t, hl, h => by
    have hrest := Team.vGet_writeLanes d f hk ls (t.writeLane d l (f l)) (fun x hx => hl x (List.mem_cons_of_mem _ hx))
      fun hm => h (List.mem_cons_of_mem _ hm)
    refine hrest.trans (Team.vGet_writeLane t d (f l) (hl l List.mem_cons_self) hk fun e => ?_)
    subst e
    exact h List.mem_cons_self

/-- A predicate of a lane keeps its value through a word's results where that lane's own result does not name it. -/
theorem Team.pGet_writeLanes {k n : Nat} (d : Nat) (f : Nat → LRes) (hk : k < 1024) : ∀ (ls : List Nat) (t : Team), (∀ l ∈ ls, l < 1024) →
    (k ∈ ls → ∀ b, (f k).pred ≠ some (n, b)) → (t.writeLanes d ls f).pGet n k = t.pGet n k
  | [], _, _, _ => rfl
  | l :: ls, t, hl, h => by
    have hrest := Team.pGet_writeLanes d f hk ls (t.writeLane d l (f l)) (fun x hx => hl x (List.mem_cons_of_mem _ hx))
      fun hm => h (List.mem_cons_of_mem _ hm)
    refine hrest.trans (Team.pGet_writeLane t d (f l) (hl l List.mem_cons_self) hk fun e => ?_)
    subst e
    exact h List.mem_cons_self

/-! ### Group registers and predicates after a group's result -/

/-- A group's `s` register is changed by a write of its own number in its own group alone. -/
theorem Team.sGet_sPut {n m g k : Nat} (t : Team) (w : RWord) (hg : g < 1024) (hk : k < 1024) (h : k = g → m ≠ n) :
    (t.sPut m g w).sGet n k = t.sGet n k := by
  have hne : n * 1024 + k ≠ m * 1024 + g := fun e => h (by omega) (by omega)
  unfold Team.sPut
  split
  · rfl
  · simp only [Team.sGet, SMap.get_set, if_neg hne]

/-- A group's run of registers changes in that group alone, and there within the run. -/
theorem Team.sGet_sFrom {g k : Nat} (n : Nat) (hg : g < 1024) (hk : k < 1024) : ∀ (ws : List RWord) (t : Team) (m : Nat),
    (k = g → n < m ∨ m + ws.length ≤ n) → (t.sFrom m g ws).sGet n k = t.sGet n k
  | [], _, _, _ => rfl
  | w :: ws, t, m, h => by
    rw [List.length_cons] at h
    rw [Team.sFrom, Team.sGet_sFrom n hg hk ws _ (m + 1) fun e => by have := h e; omega]
    exact Team.sGet_sPut t w hg hk fun e => by have := h e; omega

/-- Writing a group's registers changes no predicate. -/
theorem Team.sWrite_q (t : Team) (r g : Nat) (ws : List RWord) : (t.sWrite r g ws).q = t.q := by
  obtain ⟨m, h⟩ := Team.sWrite_eq t ws t r g t.s t.q rfl
  rw [h]
  rfl

/-- Writing a group's predicate changes no register. -/
theorem Team.qPut_s (t : Team) (n g : Nat) (b : Bool) : (t.qPut n g b).s = t.s := by
  obtain ⟨q, h⟩ := Team.qPut_eq t n g b
  rw [h]
  rfl

/-- A group's predicate is changed by a write of its own number in its own group alone. -/
theorem Team.qGet_qPut {n m g k : Nat} (t : Team) (b : Bool) (hg : g < 1024) (hk : k < 1024) (h : k = g → m ≠ n) :
    (t.qPut m g b).qGet n k = t.qGet n k := by
  have hne : n * 1024 + k ≠ m * 1024 + g := fun e => h (by omega) (by omega)
  unfold Team.qPut
  split
  · rfl
  · simp only [Team.qGet, SMap.get_set, if_neg hne]

/-- The registers after a group's result are those after its run of words. -/
theorem Team.writeGroup_s (t : Team) (d g : Nat) (r : URes) : (t.writeGroup d g r).s = (t.sWrite d g r.words).s := by
  unfold Team.writeGroup
  cases r.pred with
  | none => rfl
  | some x => exact Team.qPut_s _ x.1 g x.2

theorem Team.sGet_writeGroup {g k n : Nat} (t : Team) (d : Nat) (r : URes) (hg : g < 1024) (hk : k < 1024)
    (h : k = g → n < d - 192 ∨ d - 192 + r.words.length ≤ n) : (t.writeGroup d g r).sGet n k = t.sGet n k := by
  rw [Team.sGet, Team.writeGroup_s]
  exact Team.sGet_sFrom n hg hk r.words t (d - 192) h

theorem Team.qGet_writeGroup {g k n : Nat} (t : Team) (d : Nat) (r : URes) (hg : g < 1024) (hk : k < 1024)
    (h : k = g → ∀ b, r.pred ≠ some (n, b)) : (t.writeGroup d g r).qGet n k = t.qGet n k := by
  have hq : (t.sWrite d g r.words).qGet n k = t.qGet n k := by simp only [Team.qGet, Team.sWrite_q]
  unfold Team.writeGroup
  cases hp : r.pred with
  | none => exact hq
  | some x => exact (Team.qGet_qPut _ x.2 hg hk fun e hn => h e x.2 (by rw [hp, ← hn])).trans hq

/-- A register of a group keeps its word through a word's results where that group's own result does not reach it. -/
theorem Team.sGet_writeGroups {k n : Nat} (d : Nat) (f : Nat → URes) (hk : k < 1024) : ∀ (gs : List Nat) (t : Team), (∀ g ∈ gs, g < 1024) →
    (k ∈ gs → n < d - 192 ∨ d - 192 + (f k).words.length ≤ n) → (t.writeGroups d gs f).sGet n k = t.sGet n k
  | [], _, _, _ => rfl
  | g :: gs, t, hg, h => by
    have hrest := Team.sGet_writeGroups d f hk gs (t.writeGroup d g (f g)) (fun x hx => hg x (List.mem_cons_of_mem _ hx))
      fun hm => h (List.mem_cons_of_mem _ hm)
    refine hrest.trans (Team.sGet_writeGroup t d (f g) (hg g List.mem_cons_self) hk fun e => ?_)
    subst e
    exact h List.mem_cons_self

/-- A predicate of a group keeps its value through a word's results where that group's own result does not name it. -/
theorem Team.qGet_writeGroups {k n : Nat} (d : Nat) (f : Nat → URes) (hk : k < 1024) : ∀ (gs : List Nat) (t : Team), (∀ g ∈ gs, g < 1024) →
    (k ∈ gs → ∀ b, (f k).pred ≠ some (n, b)) → (t.writeGroups d gs f).qGet n k = t.qGet n k
  | [], _, _, _ => rfl
  | g :: gs, t, hg, h => by
    have hrest := Team.qGet_writeGroups d f hk gs (t.writeGroup d g (f g)) (fun x hx => hg x (List.mem_cons_of_mem _ hx))
      fun hm => h (List.mem_cons_of_mem _ hm)
    refine hrest.trans (Team.qGet_writeGroup t d (f g) (hg g List.mem_cons_self) hk fun e => ?_)
    subst e
    exact h List.mem_cons_self

/-! ### The lanes and groups that a word executes for, and the word passed -/

theorem Team.lanesFor_lt (t : Team) (h : Hdr) : ∀ l ∈ t.lanesFor h, l < 1024 := fun l hl => by
  have ha : t.active l = true := (List.mem_filter.mp (List.mem_filter.mp hl).1).2
  exact BitVec.lt_of_getLsbD ha

theorem Team.groupsFor_lt (t : Team) (h : Hdr) (ht : t.lanes ≤ 1024) : ∀ g ∈ t.groupsFor h, g < 1024 := fun g hg => by
  have hlt : g < t.lanes / t.group := List.mem_range.mp (List.mem_filter.mp hg).1
  exact Nat.lt_of_lt_of_le hlt ((Nat.div_le_self _ _).trans ht)

/-- Passing a word moves the PC, the count of words passed and the place of `TSKIP` (R145). -/
theorem Team.pass_eq (t : Team) (len : Nat) : ∃ skip pos, t.pass len =
    { t.setPc (t.pc + BitVec.ofNat 16 len) with tskip := skip, skipPos := pos, issued := t.issued + 1 } := by
  unfold Team.pass Team.passSkip
  split
  · exact ⟨_, _, rfl⟩
  · split
    · exact ⟨_, _, rfl⟩
    · exact ⟨_, _, rfl⟩

end Sys2Proof.Machine

namespace Sys2Proof.Claims

open Sys2Proof Sys2Proof.Machine

/-! ### What the words of the tables write -/

/-- A team whose lane registers have changed, past a word, is the same but for its registers. -/
theorem sameButRegisters_laneRegs (t : Team) (v : SMap RWord) (p : SMap Bool) (n : SMap (BitVec 32)) (len : Nat) :
    sameButRegisters t ((t.laneRegs v p n).pass len) len := by
  obtain ⟨skip, pos, h⟩ := Team.pass_eq (t.laneRegs v p n) len
  rw [h]
  rfl

theorem sameButRegisters_groupRegs (t : Team) (m : SMap RWord) (q : SMap Bool) (len : Nat) :
    sameButRegisters t ((t.groupRegs m q).pass len) len := by
  obtain ⟨skip, pos, h⟩ := Team.pass_eq (t.groupRegs m q) len
  rw [h]
  rfl

/-- Two lane results name the same places: as many words, and the same predicate. -/
def sameLanePlaces (a b : LRes) : Prop := a.words.length = b.words.length ∧ a.pred.map Prod.fst = b.pred.map Prod.fst

/-- Two group results name the same places. -/
def sameGroupPlaces (a b : URes) : Prop := a.words.length = b.words.length ∧ a.pred.map Prod.fst = b.pred.map Prod.fst

theorem length_natWords : ∀ n x : Nat, (natWords n x).length = n
  | 0, _ => rfl
  | n + 1, x => congrArg (· + 1) (length_natWords n (x / 2 ^ 32))

theorem length_rRun (t : Team) (r n l : Nat) : (t.rRun r n l).length = n := by simp [Team.rRun]

theorem length_sRun (t : Team) (r n g : Nat) : (t.sRun r n g).length = n := by simp [Team.sRun]

theorem sameLanePlaces_words (n x y d e : Nat) :
    sameLanePlaces { words := natWords n x, pred := none, draws := d } { words := natWords n y, pred := none, draws := e } :=
  ⟨(length_natWords n x).trans (length_natWords n y).symm, rfl⟩

theorem sameLanePlaces_flag (p : Nat) (a b : Bool) : sameLanePlaces (LRes.flag p a) (LRes.flag p b) := ⟨rfl, rfl⟩

theorem sameGroupPlaces_words (n x y : Nat) : sameGroupPlaces (URes.num n x) (URes.num n y) :=
  ⟨(length_natWords n x).trans (length_natWords n y).symm, rfl⟩

theorem sameGroupPlaces_flag (p : Nat) (a b : Bool) : sameGroupPlaces (URes.flag p a) (URes.flag p b) := ⟨rfl, rfl⟩

/-- A word that runs with right codes writes, in each lane that it executes for, the places that the rule's result names. -/
def LaneRule.placesOf (r : LaneRule) (i : Instr) : Prop :=
  ∀ (s : State) (t : Team), Runs s t i → r.codesGood t → ∃ f : Nat → LRes,
    exec i s = .next (s.putTeam ((t.writeLanes r.d.toNat (t.lanesFor r.h) f).pass i.length)) ∧
    ∀ l, sameLanePlaces (f l) (r.res t l ((t.laneSrcs r.srcs l).map wordsNat))

/-- A word that runs with right codes writes, in each group that it executes for, the places that the rule's result names. -/
def GroupRule.placesOf (r : GroupRule) (i : Instr) : Prop :=
  ∀ (s : State) (t : Team), Runs s t i → r.codesGood t → ∃ f : Nat → URes,
    exec i s = .next (s.putTeam ((t.writeGroups r.d.toNat (t.groupsFor r.h) f).pass i.length)) ∧
    ∀ g, sameGroupPlaces (f g) (r.res t g ((t.groupSrcs r.srcs g).map wordsNat))

theorem laneWith_places {i : Instr} {r : LaneRule} {unit : Nat} {copies : Bool} {chk : Team → Nat → List RWord → List WordCheck}
    {f : Team → Nat → LRes} (he : ∀ s, exec i s = withTeam i s (laneWith i r.h unit copies r.d chk f))
    (hp : ∀ t, r.codesGood t → ∀ l ∈ t.lanesFor r.h, passing (chk t l (f t l).words))
    (hf : ∀ t l, sameLanePlaces (f t l) (r.res t l ((t.laneSrcs r.srcs l).map wordsNat))) : r.placesOf i := fun s t hr hg =>
  ⟨f t, (he s).trans (laneWith_runs hr (hp t hg)), hf t⟩

/-- A word over the values of its sources, which have right codes. -/
theorem laneOp_places {i : Instr} {h : Hdr} {unit : Nat} {d : RegNo} {srcs : List (RegNo × Nat)} {f g : Team → Nat → List Nat → LRes}
    (he : ∀ s, exec i s = withTeam i s (laneOp i h unit d srcs f)) (hf : ∀ t l vs, sameLanePlaces (f t l vs) (g t l vs)) :
    LaneRule.placesOf { h := h, d := d, srcs := srcs, res := g } i :=
  laneWith_places he (fun _ hg l hl => resChecks_good _ _ (hg.1 l hl)) fun t l => hf t l _

theorem groupWith_places {i : Instr} {r : GroupRule} {copies : Bool} {chk : Team → Nat → List RWord → List WordCheck} {f : Team → Nat → URes}
    (he : ∀ s, exec i s = withTeam i s (groupWith i r.h copies r.d chk f))
    (hp : ∀ t, r.codesGood t → ∀ g ∈ t.groupsFor r.h, passing (chk t g (f t g).words))
    (hf : ∀ t g, sameGroupPlaces (f t g) (r.res t g ((t.groupSrcs r.srcs g).map wordsNat))) : r.placesOf i := fun s t hr hg =>
  ⟨f t, (he s).trans (groupWith_runs hr (hp t hg)), hf t⟩

theorem groupOp_places {i : Instr} {h : Hdr} {d : RegNo} {srcs : List (RegNo × Nat)} {f g : Team → Nat → List Nat → URes}
    (he : ∀ s, exec i s = withTeam i s (groupOp i h d srcs f)) (hf : ∀ t l vs, sameGroupPlaces (f t l vs) (g t l vs)) :
    GroupRule.placesOf { h := h, d := d, srcs := srcs, res := g } i :=
  groupWith_places he (fun _ hg l hl => resChecks_good _ _ (hg.1 l hl)) fun t l => hf t l _

theorem groupBin_places {i : Instr} {h : Hdr} {ty : Ty} {d a b : RegNo} {f : Nat → Nat → Nat} {g : Team → Nat → List Nat → URes}
    (he : ∀ s, exec i s = withTeam i s (groupBin i h ty d a b f)) (hf : ∀ t l vs x, sameGroupPlaces (URes.num (regsOf ty) x) (g t l vs)) :
    GroupRule.placesOf { h := h, d := d, srcs := [(a, regsOf ty), (b, regsOf ty)], res := g } i :=
  groupOp_places (f := fun _ _ vs => URes.num (regsOf ty) (f (vs.headD 0) ((vs.drop 1).headD 0))) he fun t l vs => hf t l vs _

theorem groupUn_places {i : Instr} {h : Hdr} {ty : Ty} {d a : RegNo} {f : Nat → Nat} {g : Team → Nat → List Nat → URes}
    (he : ∀ s, exec i s = withTeam i s (groupUn i h ty d a f)) (hf : ∀ t l vs x, sameGroupPlaces (URes.num (regsOf ty) x) (g t l vs)) :
    GroupRule.placesOf { h := h, d := d, srcs := [(a, regsOf ty)], res := g } i :=
  groupOp_places (f := fun _ _ vs => URes.num (regsOf ty) (f (vs.headD 0))) he fun t l vs => hf t l vs _

theorem groupPred_places {i : Instr} {h : Hdr} {q : BitVec 3} {f : Team → Nat → Bool} {g : Team → Nat → List Nat → URes}
    (he : ∀ s, exec i s = withTeam i s (groupPred i h q f)) (hf : ∀ t l vs b, sameGroupPlaces (URes.flag q.toNat b) (g t l vs)) :
    GroupRule.placesOf { h := h, d := 192, srcs := [], res := g } i :=
  groupOp_places (f := fun t g _ => URes.flag q.toNat (f t g)) he fun t l vs => hf t l vs _

/-- A choice by a predicate, as the model and as the table write it. -/
theorem chosen_eq {α : Type} (p neg : Bool) (a b : α) : (if p != neg then a else b) = if p = neg then b else a := by
  cases p <;> cases neg <;> rfl

/-! ### The tables -/

/-- Every row of a lane table places its results as its rule says. -/
def lanePlaces (table : Instr → Option LaneRule) : Prop := ∀ i r, table i = some r → r.placesOf i

/-- Every row of a uniform table places its results as its rule says. -/
def groupPlaces (table : Instr → Option GroupRule) : Prop := ∀ i r, table i = some r → r.placesOf i

theorem laneArithmetic_places : lanePlaces laneArithmetic := by
  intro i r h
  unfold laneArithmetic at h
  split at h <;> cases h <;> exact laneOp_places (fun _ => rfl) fun _ _ _ => sameLanePlaces_words ..

theorem laneBitwise_places : lanePlaces laneBitwise := by
  intro i r h
  unfold laneBitwise at h
  split at h <;> cases h <;> exact laneOp_places (fun _ => rfl) fun _ _ _ => sameLanePlaces_words ..

theorem lanePredicates_places : lanePlaces lanePredicates := by
  intro i r h
  unfold lanePredicates at h
  split at h <;> cases h <;> exact laneOp_places (fun _ => rfl) fun _ _ _ => sameLanePlaces_flag ..

theorem laneMoves_places : lanePlaces laneMoves := by
  intro i r h
  unfold laneMoves at h
  split at h <;> cases h
  case h_1 h ty d a b p neg =>
    refine laneWith_places (fun _ => rfl) (fun t hg l hl => operandChecks_good ?_) fun t l => ⟨?_, rfl⟩
    · rw [chosen_eq]
      exact hg.2 l hl
    · exact (length_rRun ..).trans (length_rRun ..).symm
  case h_2 => exact laneWith_places (fun _ => rfl) (fun _ _ _ _ => rfl) fun _ _ => ⟨rfl, rfl⟩

theorem floatConversion_places : lanePlaces floatConversion := by
  intro i r h
  unfold floatConversion at h
  split at h <;> cases h <;> exact laneOp_places (fun _ => rfl) fun _ _ _ => sameLanePlaces_words ..

theorem floatFunctions_places : lanePlaces floatFunctions := by
  intro i r h
  unfold floatFunctions at h
  split at h <;> cases h <;> exact laneOp_places (fun _ => rfl) fun _ _ _ => sameLanePlaces_words ..

theorem floatArithmetic_places : lanePlaces floatArithmetic := by
  intro i r h
  unfold floatArithmetic at h
  split at h <;> cases h
  -- `v.fcmp`
  case h_14 => exact laneOp_places (fun _ => rfl) fun _ _ _ => sameLanePlaces_flag ..
  all_goals exact laneOp_places (fun _ => rfl) fun _ _ _ => sameLanePlaces_words ..

theorem uniformArithmetic_places : groupPlaces uniformArithmetic := by
  intro i r h
  unfold uniformArithmetic at h
  split at h <;> cases h
  -- `s.lea`, `s.movi`, `s.movhi`
  case h_14 | h_22 | h_23 => exact groupOp_places (fun _ => rfl) fun _ _ _ => sameGroupPlaces_words ..
  -- the immediate forms
  case h_15 | h_16 | h_17 | h_18 | h_19 | h_20 | h_21 => exact groupUn_places (fun _ => rfl) fun _ _ _ _ => sameGroupPlaces_words ..
  -- `s.nop`
  case h_24 => exact groupOp_places (fun _ => rfl) fun _ _ _ => ⟨rfl, rfl⟩
  all_goals exact groupBin_places (fun _ => rfl) fun _ _ _ _ => sameGroupPlaces_words ..

theorem uniformPredicates_places : groupPlaces uniformPredicates := by
  intro i r h
  unfold uniformPredicates at h
  split at h <;> cases h
  -- `s.cmp`, `s.cmpi`
  case h_1 | h_2 => exact groupOp_places (fun _ => rfl) fun _ _ _ => sameGroupPlaces_flag ..
  all_goals exact groupPred_places (fun _ => rfl) fun _ _ _ _ => sameGroupPlaces_flag ..

theorem uniformMoves_places : groupPlaces uniformMoves := by
  intro i r h
  unfold uniformMoves at h
  split at h <;> cases h
  case h_1 h ty d a b q neg =>
    refine groupWith_places (fun _ => rfl) (fun t hg g hl => operandChecks_good ?_) fun t g => ⟨?_, rfl⟩
    · rw [chosen_eq]
      exact hg.2 g hl
    · exact (length_sRun ..).trans (length_sRun ..).symm
  case h_2 => exact groupWith_places (fun _ => rfl) (fun _ _ _ _ => rfl) fun _ _ => ⟨rfl, rfl⟩
  case h_3 => exact groupWith_places (fun _ => rfl) (fun _ _ _ _ => rfl) fun _ _ => ⟨rfl, rfl⟩
  case h_4 => exact groupWith_places (fun _ => rfl) (fun _ _ _ _ => rfl) fun _ _ => ⟨(length_rRun ..).trans (length_rRun ..).symm, rfl⟩

theorem laneTables_places : ∀ tbl ∈ laneTables, lanePlaces tbl := by
  simp only [laneTables, List.forall_mem_cons, List.not_mem_nil, false_imp_iff, implies_true, and_true]
  exact ⟨laneArithmetic_places, laneBitwise_places, lanePredicates_places, laneMoves_places, floatArithmetic_places, floatConversion_places,
    floatFunctions_places⟩

theorem groupTables_places : ∀ tbl ∈ groupTables, groupPlaces tbl := by
  simp only [groupTables, List.forall_mem_cons, List.not_mem_nil, false_imp_iff, implies_true, and_true]
  exact ⟨uniformArithmetic_places, uniformPredicates_places, uniformMoves_places⟩

/-! ### The frames -/

/-- A result names no predicate that a result of the same places does not name. -/
theorem pred_ne_of_same {p q : Option (Nat × Bool)} {n : Nat} (h : p.map Prod.fst = q.map Prod.fst) (hq : ∀ b, q ≠ some (n, b)) (b : Bool) :
    p ≠ some (n, b) := by
  rintro rfl
  cases q with
  | none => simp at h
  | some x =>
    have hn : x.1 = n := by simpa using h.symm
    exact hq x.2 (by rw [← hn])

/-- The frame of a lane word that places its results as a rule says. -/
theorem laneWord_frame {i : Instr} {r : LaneRule} (hp : r.placesOf i) {s s' : State} {t : Team} (hr : Runs s t i) (hg : r.codesGood t)
    (he : exec i s = .next s') : ∃ t', s' = s.putTeam t' ∧ sameButRegisters t t' i.length ∧ t'.s = t.s ∧ t'.q = t.q ∧
      ∀ n l, l < 1024 →
        let res := r.res t l ((t.laneSrcs r.srcs l).map wordsNat)
        (l ∉ t.lanesFor r.h ∨ n < r.d.toNat ∨ r.d.toNat + res.words.length ≤ n → t'.vGet n l = t.vGet n l) ∧
        (l ∉ t.lanesFor r.h ∨ (∀ b, res.pred ≠ some (n, b)) → t'.pGet n l = t.pGet n l) := by
  obtain ⟨f, hx, hf⟩ := hp s t hr hg
  obtain ⟨v, p, m, hw⟩ := Team.writeLanes_eq t r.d.toNat f (t.lanesFor r.h) t t.v t.p t.rounds rfl
  have hlt := t.lanesFor_lt r.h
  have hs : s' = s.putTeam ((t.writeLanes r.d.toNat (t.lanesFor r.h) f).pass i.length) := Host.Outcome.next.inj (he.symm.trans hx)
  obtain ⟨skip, pos, hpass⟩ := Team.pass_eq (t.writeLanes r.d.toNat (t.lanesFor r.h) f) i.length
  refine ⟨_, hs, ?_, ?_, ?_, fun n l hl => ⟨fun h => ?_, fun h => ?_⟩⟩
  · rw [hw]
    exact sameButRegisters_laneRegs t v p m i.length
  · rw [hpass, hw]
    rfl
  · rw [hpass, hw]
    rfl
  · rw [hpass]
    refine Team.vGet_writeLanes r.d.toNat f hl _ t hlt fun hm => ?_
    rw [(hf l).1]
    exact h.resolve_left (not_not_intro hm)
  · rw [hpass]
    exact Team.pGet_writeLanes r.d.toNat f hl _ t hlt fun hm => pred_ne_of_same (hf l).2 (h.resolve_left (not_not_intro hm))

/-- The frame of a uniform word that places its results as a rule says. -/
theorem groupWord_frame {i : Instr} {r : GroupRule} (hp : r.placesOf i) {s s' : State} {t : Team} (hr : Runs s t i) (hg : r.codesGood t)
    (hl : t.lanes ≤ 1024) (he : exec i s = .next s') : ∃ t', s' = s.putTeam t' ∧ sameButRegisters t t' i.length ∧ t'.v = t.v ∧ t'.p = t.p ∧
      t'.rounds = t.rounds ∧
      ∀ n g, g < 1024 →
        let res := r.res t g ((t.groupSrcs r.srcs g).map wordsNat)
        (g ∉ t.groupsFor r.h ∨ n < r.d.toNat - 192 ∨ r.d.toNat - 192 + res.words.length ≤ n → t'.sGet n g = t.sGet n g) ∧
        (g ∉ t.groupsFor r.h ∨ (∀ b, res.pred ≠ some (n, b)) → t'.qGet n g = t.qGet n g) := by
  obtain ⟨f, hx, hf⟩ := hp s t hr hg
  obtain ⟨m, q, hw⟩ := Team.writeGroups_eq t r.d.toNat f (t.groupsFor r.h) t t.s t.q rfl
  have hlt := t.groupsFor_lt r.h hl
  have hs : s' = s.putTeam ((t.writeGroups r.d.toNat (t.groupsFor r.h) f).pass i.length) := Host.Outcome.next.inj (he.symm.trans hx)
  obtain ⟨skip, pos, hpass⟩ := Team.pass_eq (t.writeGroups r.d.toNat (t.groupsFor r.h) f) i.length
  refine ⟨_, hs, ?_, ?_, ?_, ?_, fun n g hk => ⟨fun h => ?_, fun h => ?_⟩⟩
  · rw [hw]
    exact sameButRegisters_groupRegs t m q i.length
  · rw [hpass, hw]
    rfl
  · rw [hpass, hw]
    rfl
  · rw [hpass, hw]
    rfl
  · rw [hpass]
    refine Team.sGet_writeGroups r.d.toNat f hk _ t hlt fun hm => ?_
    rw [(hf g).1]
    exact h.resolve_left (not_not_intro hm)
  · rw [hpass]
    exact Team.qGet_writeGroups r.d.toNat f hk _ t hlt fun hm => pred_ne_of_same (hf g).2 (h.resolve_left (not_not_intro hm))

/-- Settles O60: every row of a table places its results as its rule says, and what is placed leaves every other register as it was. -/
theorem wordFrames : Obligations.WordFrames := by
  unfold Obligations.WordFrames
  exact ⟨fun tbl ht _ _ _ i r hr hrun hg he => laneWord_frame (laneTables_places tbl ht i r hr) hrun hg he,
    fun tbl ht _ _ _ i r hr hrun hg hl he => groupWord_frame (groupTables_places tbl ht i r hr) hrun hg hl he⟩

end Sys2Proof.Claims
end

section
/-! Acquires, and the words and events of waits (R32, R119, R120, R286, R291). -/

namespace Sys2Proof.Machine

open Sys2Proof

/-! ### A team changed in place -/

/-- A change of a team that has been put into a state puts in the changed team. -/
theorem State.modTeam_putTeam (s : State) (t : Team) (f : Team → Team) (hf : (f t).uid = t.uid) :
    (s.putTeam t).modTeam t.uid f = s.putTeam (f t) := by
  have e : replaceWhere (fun x : Team => x.uid == t.uid) f (replaceWhere (fun x : Team => x.uid == t.uid) (fun _ => t) s.teams) =
      replaceWhere (fun x : Team => x.uid == t.uid) (fun _ => f t) s.teams := by
    unfold replaceWhere
    rw [List.map_map]
    apply List.map_congr_left
    intro x _
    by_cases hx : x.uid = t.uid <;> simp [hx]
  simp only [State.putTeam, State.modTeam, hf, e]

/-- The search for a number in teams that have been changed in place, where a change keeps the numbers. -/
theorem find_map_uid (f : Team → Team) (hf : ∀ u, (f u).uid = u.uid) (uid : Nat) (l : List Team) :
    (l.map f).find? (fun u => u.uid == uid) = (l.find? fun u => u.uid == uid).map f := by
  rw [List.find?_map]
  congr 2
  funext u
  simp [hf]

/-- The team of a number after a change of it. -/
theorem State.team?_modTeam {s : State} {uid : Nat} {t : Team} (f : Team → Team) (hf : ∀ u, (f u).uid = u.uid) (h : s.team? uid = some t) :
    (s.modTeam uid f).team? uid = some (f t) := by
  have hu := State.team?_uid h
  have hm := find_map_uid (fun u => if u.uid == uid then f u else u) (fun u => by split <;> simp [hf]) uid s.teams
  refine hm.trans ?_
  rw [show s.teams.find? (fun u => u.uid == uid) = some t from h]
  simp [hu]

theorem Team.sAll_uid (t : Team) (r : Nat) (gs : List Nat) (ws : List RWord) : (t.sAll r gs ws).uid = t.uid := by
  obtain ⟨m, h⟩ := Team.sAll_eq t r ws gs t t.s t.q rfl
  rw [h]
  rfl

theorem Team.sAll_stack (t : Team) (r : Nat) (gs : List Nat) (ws : List RWord) : (t.sAll r gs ws).stack = t.stack := by
  obtain ⟨m, h⟩ := Team.sAll_eq t r ws gs t t.s t.q rfl
  rw [h]
  rfl

theorem Team.sAll_heldLen (t : Team) (r : Nat) (gs : List Nat) (ws : List RWord) : (t.sAll r gs ws).heldLen = t.heldLen := by
  obtain ⟨m, h⟩ := Team.sAll_eq t r ws gs t t.s t.q rfl
  rw [h]
  rfl

/-! ### Acquires (R286) -/

theorem State.acquireFor_teams (s : State) (t : Team) : (s.acquireFor t).teams = s.teams := by
  unfold State.acquireFor Team.cores
  cases t.pair <;> rfl

theorem State.team?_acquireFor (s : State) (t : Team) (uid : Nat) : (s.acquireFor t).team? uid = s.team? uid := by
  unfold State.team?
  rw [State.acquireFor_teams]

/-- What an acquire of a core keeps of the L1s is its own only where the core owns the word, and of no HOST page. -/
theorem State.mem_acquire_l1 {s : State} {k : Nat} {e : Nat × L1Byte} (h : e ∈ (s.acquire k).l1) : e ∈ s.l1 ∧ (e.1 / 2 ^ 68 = k →
    e.2.host = false ∧ SMap.find s.owners (spaceKey (e.1 / 2 ^ 56 % 2 ^ 12) (e.1 % 2 ^ 56 / 4 * 4)) = some k) := by
  have hf := List.mem_filter.mp h
  refine ⟨hf.1, fun hk => ?_⟩
  have hown : (s.keepNone fun _ => true).owners = s.owners := rfl
  subst hk
  simpa [hown] using hf.2

/-- The remote copies that an acquire keeps are of words that a core of this device owns. -/
theorem mem_ownedCopies {owners : SMap Nat} {remote : SMap Byte} {e : Nat × Byte} (h : e ∈ ownedCopies owners remote) :
    ∃ o, SMap.find owners (e.1 / 4 * 4) = some o ∧ o < 512 := by
  have hf := (List.mem_filter.mp h).2
  split at hf
  next o ho => exact ⟨o, ho, of_decide_eq_true hf⟩
  next => simp at hf

end Sys2Proof.Machine

namespace Sys2Proof.Claims

open Sys2Proof Sys2Proof.Machine

/-- An acquire by a team leaves what R286 says. -/
theorem acquired_acquireFor (s : State) (t : Team) : acquired s.owners t (s.acquireFor t) := by
  unfold acquired State.acquireFor Team.cores
  cases t.pair with
  | false =>
    refine ⟨fun e he hc => ?_, fun e he => mem_ownedCopies he⟩
    have hk : e.1 / 2 ^ 68 = t.home := by simpa using hc
    have := (State.mem_acquire_l1 he).2 hk
    rw [hk]
    exact this
  | true =>
    refine ⟨fun e he hc => ?_, fun e he => mem_ownedCopies he⟩
    have hodd := State.mem_acquire_l1 he
    have hk : e.1 / 2 ^ 68 = t.home ∨ e.1 / 2 ^ 68 = t.home + 1 := by simpa using hc
    obtain hk | hk := hk
    · have := (State.mem_acquire_l1 hodd.1).2 hk
      rw [hk]
      exact this
    · have := hodd.2 hk
      rw [hk]
      exact this

/-- What an acquire has left stands where caches do not change. -/
theorem acquired_of_same {owners : SMap Nat} {t : Team} {s s' : State} (h : acquired owners t s) (hl : s'.l1 = s.l1) (hr : s'.remote = s.remote) :
    acquired owners t s' := by
  unfold acquired at *
  rw [hl, hr]
  exact h

/-- The state that a wait answers in: where the handle reads DONE the team has acquired (R291). -/
def waitAcquired (s : State) (t : Team) (st : HStatus) : State := if st = .done then s.acquireFor t else s

theorem waitAcquired_team? (s : State) (t : Team) (st : HStatus) (uid : Nat) : (waitAcquired s t st).team? uid = s.team? uid := by
  unfold waitAcquired
  split
  · exact State.team?_acquireFor s t uid
  · rfl

theorem waitAcquired_acquired (s : State) (t : Team) {st : HStatus} (h : st = .done) : acquired s.owners t (waitAcquired s t st) := by
  rw [waitAcquired, if_pos h]
  exact acquired_acquireFor s t

theorem answerWait_eq (s : State) (t : Team) (st : HStatus) (d : RegNo) (gs : List Nat) :
    s.answerWait t st d gs = (waitAcquired s t st).modTeam t.uid fun u => answered u d gs st := rfl

/-- An answered wait writes the status in its team. -/
theorem answerWait_team? {s : State} {t : Team} (st : HStatus) (d : RegNo) (gs : List Nat) (h : s.team? t.uid = some t) :
    (s.answerWait t st d gs).team? t.uid = some (answered t d gs st) := by
  rw [answerWait_eq]
  exact State.team?_modTeam _ (fun u => Team.sAll_uid u ..) ((waitAcquired_team? s t st t.uid).trans h)

/-- An answered wait has acquired where it reads DONE. -/
theorem answerWait_acquired (s : State) (t : Team) {st : HStatus} (d : RegNo) (gs : List Nat) (h : st = .done) :
    acquired s.owners t (s.answerWait t st d gs) :=
  acquired_of_same (waitAcquired_acquired s t h) rfl rfl

/-- A held word that fits its segment lets its team go on. -/
theorem completeHeld_eq {s : State} {t : Team} (h : s.team? t.uid = some t) (hf : heldFits t) :
    s.completeHeld t.uid = s.putTeam (woken t) := by
  have hu : (s.putTeam { t with hold := .free, copyLateHeld := false }).team? t.uid = some { t with hold := .free, copyLateHeld := false } :=
    State.team?_putTeam (t := { t with hold := .free, copyLateHeld := false }) h
  simp only [State.completeHeld, h]
  rw [State.advance_eq hu hf, State.putTeam_putTeam _ (Team.pass_uid _ _).symm]
  rfl

/-! ### Team-scoped words with right codes -/

/-- A group's registers carry right codes where every register that a lane reads does. -/
theorem sGet_good {t : Team} (ha : allGood t) (hg : 0 < t.group) (n g : Nat) : (t.sGet n g).good = true := by
  have h := ha (n + 192) (g * t.group)
  rwa [Team.rGet, if_neg (by omega), Nat.add_sub_cancel, Nat.mul_div_cancel _ hg] at h

/-- A word that has a lead group is of a team with lanes in groups. -/
theorem leads.group_pos {t : Team} {h : Hdr} {lead : Nat} {rest : List Nat} (hl : leads t h lead rest) : 0 < t.group := by
  have hm : lead ∈ t.groupsFor h := by rw [hl]; exact List.mem_cons_self
  have hlt : lead < t.lanes / t.group := List.mem_range.mp (List.mem_filter.mp hm).1
  rcases Nat.eq_zero_or_pos t.group with h0 | hpos
  · rw [h0, Nat.div_zero] at hlt
    omega
  · exact hpos

theorem groupSrcs_good {t : Team} {h : Hdr} {lead : Nat} {rest : List Nat} (hl : leads t h lead rest) (ha : allGood t) (srcs : List (RegNo × Nat)) :
    (t.groupSrcs srcs lead).all goodRun = true := by
  simp only [Team.groupSrcs, List.all_map, List.all_eq_true, Function.comp, goodRun, Team.sRun, List.mem_range]
  exact fun _ _ k _ => sGet_good ha hl.group_pos _ _

/-- A team-scoped word that runs with right codes comes to what it makes of its lead group's values (R20). -/
theorem teamOp_runs {s : State} {t : Team} {i : Instr} {h : Hdr} {d : RegNo} {n : Nat} {srcs : List (RegNo × Nat)}
    {k : State → Team → List Nat → Nat → List Nat → Res} {lead : Nat} {rest : List Nat} (hr : Runs s t i) (hl : leads t h lead rest)
    (ha : allGood t) : withTeam i s (teamOp i h d n srcs k) =
      .next (conclude t.uid i.length (k (s.putTeam t) t (lead :: rest) lead ((t.groupSrcs srcs lead).map wordsNat))) := by
  rw [withTeam_runs hr, teamOp_calm hr.calm hl (groupSrcs_good hl ha srcs)]

/-- A word that has changed its team, and whatever else, completes past itself. -/
theorem conclude_done_team {s : State} {t u : Team} {len : Nat} (h : s.team? t.uid = some u) (hs : u.stack = t.stack)
    (hf : t.pc.toNat % 4096 + len < 4096) :
    conclude t.uid len (.done s) = s.putTeam (u.pass len) ∧ (s.putTeam (u.pass len)).team? t.uid = some (u.pass len) := by
  have hp : u.pc = t.pc := by simp only [Team.pc, Team.top, hs]
  have hu : (u.pass len).uid = t.uid := (Team.pass_uid u len).trans (State.team?_uid h)
  refine ⟨State.advance_eq h (by rw [hp]; exact hf), ?_⟩
  have := State.team?_putTeam (s := s) (t := u.pass len) (u := u) (by rw [hu]; exact h)
  rwa [hu] at this

/-- A word that holds its team. -/
theorem holdTeam_putTeam (s : State) (t : Team) (len : Nat) (hd : Hold) :
    (s.putTeam t).holdTeam t.uid len hd = s.putTeam { t with hold := hd, heldLen := len } :=
  State.modTeam_putTeam s t _ rfl

/-! ### Late copies (R120) -/

/-- A slot is not late while its promised time is not past. -/
theorem not_late {sl : HSlot} {now : Nat} (h : sl.status = .pending → ∀ p, sl.promise = some p → now ≤ p) : sl.late now = false := by
  unfold HSlot.late
  by_cases hs : sl.status = .pending
  · cases hp : sl.promise with
    | none => simp
    | some p => simp [h hs p hp]
  · simp [hs]

/-- A pending slot whose promised time is past is late. -/
theorem late_of {sl : HSlot} {now p : Nat} (hs : sl.status = .pending) (hp : sl.promise = some p) (h : p < now) : sl.late now = true := by
  simp [HSlot.late, hs, hp, h]

/-- A handle that reads PENDING names a slot that is. -/
theorem slot_pending {t : Team} {hd : BitVec 16} (h : t.hStatus hd = .pending) : (t.slotOf (bits hd.toNat 5 0)).status = .pending := by
  unfold Team.hStatus at h
  simp only at h
  split at h
  · simp at h
  · exact h

/-- The slot that a handle names. -/
theorem handleSlot (hd : BitVec 16) : bits hd.toNat 5 0 = hd.toNat % 64 := by
  simp only [bits]
  omega

theorem handleSlot_ofNat (x : Nat) : bits (BitVec.ofNat 16 x).toNat 5 0 = x % 64 := by
  rw [handleSlot, BitVec.toNat_ofNat]
  omega

theorem waitOn_holds {s : State} {t : Team} {len : Nat} {hd : Hold} {slots : List HSlot} (h : ∀ sl ∈ slots, sl.late s.time = false) :
    waitOn len hd slots (s.putTeam t) t = .hold (s.putTeam { t with hold := hd, heldLen := len }) := by
  have hn : (slots.any fun sl => sl.late (s.putTeam t).time) = false := by
    rw [List.any_eq_false]
    exact fun sl hs => by rw [show (s.putTeam t).time = s.time from rfl, h sl hs]; simp
  unfold waitOn
  rw [if_neg (by simp [hn]), holdTeam_putTeam]

/-! ### The words -/

theorem anyPending_false {t : Team} (h : ∀ e ∈ t.handles, e.2.status ≠ .pending) : t.anyPending = false := by
  simpa [Team.anyPending, List.any_eq_false] using h

section
variable {s : State} {t : Team} {h : Hdr} {d a : RegNo} {lead : Nat} {rest : List Nat}

/-- A word that answers a wait completes with the status, having acquired where it reads DONE. -/
theorem answer_completes {i : Instr} (hr : Runs s t i) (st : HStatus) (d : RegNo) (gs : List Nat) : ∃ s',
    conclude t.uid i.length (.done ((s.putTeam t).answerWait t st d gs)) = s' ∧ (st = .done → acquired s.owners t s') ∧
      s'.team? t.uid = some ((answered t d gs st).pass i.length) := by
  obtain ⟨he, ht⟩ := conclude_done_team (answerWait_team? st d gs (State.team?_putTeam hr.team)) (Team.sAll_stack ..) hr.fits
  exact ⟨_, he, fun hst => acquired_of_same (answerWait_acquired (s.putTeam t) t d gs hst) rfl rfl, ht⟩

/-- A word that acquires and completes. -/
theorem acquire_completes {i : Instr} (hr : Runs s t i) : ∃ s', conclude t.uid i.length (.done ((s.putTeam t).acquireFor t)) = s' ∧
    acquired s.owners t s' ∧ s'.team? t.uid = some (t.pass i.length) := by
  obtain ⟨he, ht⟩ := conclude_done_team ((State.team?_acquireFor (s.putTeam t) t t.uid).trans (State.team?_putTeam hr.team)) rfl hr.fits
  exact ⟨_, he, acquired_of_same (acquired_acquireFor (s.putTeam t) t) rfl rfl, ht⟩

theorem sPoll_completes (hl : leads t h lead rest) (ha : allGood t) (hr : Runs s t (.sPoll h d a)) :
    let st := t.hStatus (BitVec.ofNat 16 (leadVal t lead a 1))
    ∃ s', exec (.sPoll h d a) s = .next s' ∧ (st = .done → acquired s.owners t s') ∧
      s'.team? t.uid = some ((answered t d (lead :: rest) st).pass (Instr.length (.sPoll h d a))) := by
  obtain ⟨s', he, hrest⟩ := answer_completes hr (t.hStatus (BitVec.ofNat 16 (leadVal t lead a 1))) d (lead :: rest)
  exact ⟨s', (teamOp_runs hr hl ha).trans (congrArg _ he), hrest⟩

/-- What `s.wait` comes to. -/
theorem sWait_eq (hl : leads t h lead rest) (ha : allGood t) (hr : Runs s t (.sWait h d a)) :
    let hd := BitVec.ofNat 16 (leadVal t lead a 1)
    exec (.sWait h d a) s = .next (conclude t.uid (Instr.length (.sWait h d a))
      (if t.hStatus hd = .pending then
        waitOn (Instr.length (.sWait h d a)) (.wait hd d (lead :: rest)) [t.slotOf (bits hd.toNat 5 0)] (s.putTeam t) t
      else .done ((s.putTeam t).answerWait t (t.hStatus hd) d (lead :: rest)))) := teamOp_runs hr hl ha

theorem sWait_completes (hl : leads t h lead rest) (ha : allGood t) (hr : Runs s t (.sWait h d a)) :
    let st := t.hStatus (BitVec.ofNat 16 (leadVal t lead a 1))
    st ≠ .pending → ∃ s', exec (.sWait h d a) s = .next s' ∧ (st = .done → acquired s.owners t s') ∧
      s'.team? t.uid = some ((answered t d (lead :: rest) st).pass (Instr.length (.sWait h d a))) := by
  intro st hst
  obtain ⟨s', he, hrest⟩ := answer_completes hr st d (lead :: rest)
  refine ⟨s', ?_, hrest⟩
  rw [sWait_eq hl ha hr, if_neg hst]
  exact congrArg _ he

theorem sWait_holds (hl : leads t h lead rest) (ha : allGood t) (hr : Runs s t (.sWait h d a))
    (hst : t.hStatus (BitVec.ofNat 16 (leadVal t lead a 1)) = .pending)
    (hp : ∀ p, (t.slotOf (leadVal t lead a 1 % 64)).promise = some p → s.time ≤ p) : exec (.sWait h d a) s =
      .next (s.putTeam { t with hold := .wait (BitVec.ofNat 16 (leadVal t lead a 1)) d (lead :: rest), heldLen := Instr.length (.sWait h d a) }) := by
  rw [sWait_eq hl ha hr, if_pos hst, waitOn_holds]
  · rfl
  · intro sl hsl
    rw [List.mem_singleton, handleSlot_ofNat] at hsl
    subst hsl
    exact not_late fun _ => hp

/-- R120: `s.wait` stops as it issues where its copy's promised time is past. -/
theorem sWait_stops_late {p : Nat} (hl : leads t h lead rest) (ha : allGood t) (hr : Runs s t (.sWait h d a)) (hh : t.handler = false)
    (hst : t.hStatus (BitVec.ofNat 16 (leadVal t lead a 1)) = .pending)
    (hp : (t.slotOf ((BitVec.ofNat 16 (leadVal t lead a 1)).toNat % 64)).promise = some p) (hlt : p < s.time) :
    exec (.sWait h d a) s = .next ((s.putTeam t).takeStop t.uid (Instr.length (.sWait h d a)) (Stop.of .copyLate)) := by
  have hlate := late_of (slot_pending hst) (by rw [handleSlot]; exact hp) hlt
  rw [sWait_eq hl ha hr, if_pos hst]
  simp only [waitOn, List.any_cons, List.any_nil, Bool.or_false, show (s.putTeam t).time = s.time from rfl, hlate, if_true, hh,
    Bool.false_eq_true, if_false, conclude, State.stopAt, State.team?_putTeam hr.team, Bool.false_and]

theorem sWaitall_holds (hl : leads t h lead rest) (ha : allGood t) (hr : Runs s t (.sWaitall h)) (he : ∃ e ∈ t.handles, e.2.status = .pending)
    (hp : ∀ e ∈ t.handles, e.2.status = .pending → ∀ p, e.2.promise = some p → s.time ≤ p) :
    exec (.sWaitall h) s = .next (s.putTeam { t with hold := .waitAll, heldLen := Instr.length (.sWaitall h) }) := by
  obtain ⟨e, hm, hs⟩ := he
  have ha' : t.anyPending = true := List.any_eq_true.mpr ⟨e, hm, by simp [hs]⟩
  refine (teamOp_runs hr hl ha).trans ?_
  rw [if_pos ha', waitOn_holds]
  · rfl
  · intro sl hsl
    obtain ⟨e, he, rfl⟩ := List.mem_map.mp hsl
    exact not_late (hp e he)

theorem sWaitall_completes (hl : leads t h lead rest) (ha : allGood t) (hr : Runs s t (.sWaitall h))
    (hn : ∀ e ∈ t.handles, e.2.status ≠ .pending) : ∃ s', exec (.sWaitall h) s = .next s' ∧ acquired s.owners t s' ∧
      s'.team? t.uid = some (t.pass (Instr.length (.sWaitall h))) := by
  obtain ⟨s', he, hrest⟩ := acquire_completes hr
  refine ⟨s', (teamOp_runs hr hl ha).trans ?_, hrest⟩
  rw [if_neg (by simp [anyPending_false hn])]
  exact congrArg _ he

/-- What `s.sleepu` comes to. -/
theorem sSleepu_eq (hl : leads t h lead rest) (ha : allGood t) (hr : Runs s t (.sSleepu h a)) :
    exec (.sSleepu h a) s = .next (conclude t.uid (Instr.length (.sSleepu h a))
      (if s.time ≥ leadVal t lead a 2 then .done (s.putTeam t)
      else .hold ((s.putTeam t).holdTeam t.uid (Instr.length (.sSleepu h a)) (.sleep (leadVal t lead a 2))))) := teamOp_runs hr hl ha

theorem sSleepu_completes (hl : leads t h lead rest) (ha : allGood t) (hr : Runs s t (.sSleepu h a)) (hv : leadVal t lead a 2 ≤ s.time) :
    exec (.sSleepu h a) s = .next (s.putTeam (t.pass (Instr.length (.sSleepu h a)))) := by
  rw [sSleepu_eq hl ha hr, if_pos hv, conclude_done hr.team rfl rfl hr.fits]

theorem sSleepu_holds (hl : leads t h lead rest) (ha : allGood t) (hr : Runs s t (.sSleepu h a)) (hv : s.time < leadVal t lead a 2) :
    exec (.sSleepu h a) s = .next (s.putTeam { t with hold := .sleep (leadVal t lead a 2), heldLen := Instr.length (.sSleepu h a) }) := by
  rw [sSleepu_eq hl ha hr, if_neg (by omega), holdTeam_putTeam]
  rfl

end

/-! ### The wakes -/

theorem sleepWake_eq {s : State} {t : Team} {u : Nat} (ht : s.team? t.uid = some t) (hres : t.res = .resident) (hf : heldFits t)
    (hh : t.hold = .sleep u) (hu : u ≤ s.time) : exec (.sleepWake t.uid) s = .next (s.putTeam (woken t)) := by
  have he : execSleepWake t.uid s = .next (s.completeHeld t.uid) := by
    simp only [execSleepWake, ht, hh, hres, true_and]
    rw [if_pos hu]
  exact he.trans (congrArg _ (completeHeld_eq ht hf))

theorem waitWake_completes {s : State} {t : Team} {hd : BitVec 16} {d : RegNo} {gs : List Nat} (ht : s.team? t.uid = some t)
    (hres : t.res = .resident) (hf : heldFits t) (hh : t.hold = .wait hd d gs) (hst : t.hStatus hd ≠ .pending) :
    ∃ s', exec (.handleCompleteWake t.uid) s = .next s' ∧ (t.hStatus hd = .done → acquired s.owners t s') ∧
      s'.team? t.uid = some (woken (answered t d gs (t.hStatus hd))) := by
  have he : execHandleCompleteWake t.uid s = .next ((s.answerWait t (t.hStatus hd) d gs).completeHeld t.uid) := by
    simp only [execHandleCompleteWake, ht, hh, hres, ne_eq, not_true, if_false, if_neg hst]
  have hu : (answered t d gs (t.hStatus hd)).uid = t.uid := Team.sAll_uid ..
  have hteam := answerWait_team? (t.hStatus hd) d gs ht
  have hf' : heldFits (answered t d gs (t.hStatus hd)) := by
    unfold heldFits Team.pc Team.top answered at *
    rw [Team.sAll_stack, Team.sAll_heldLen]
    exact hf
  have hc := completeHeld_eq (t := answered t d gs (t.hStatus hd)) (by rw [hu]; exact hteam) hf'
  rw [hu] at hc
  have hw : (woken (answered t d gs (t.hStatus hd))).uid = t.uid := (Team.pass_uid ..).trans hu
  refine ⟨_, he.trans (congrArg _ hc), fun hdone => acquired_of_same (answerWait_acquired s t d gs hdone) rfl rfl, ?_⟩
  have := State.team?_putTeam (t := woken (answered t d gs (t.hStatus hd))) (by rw [hw]; exact hteam)
  rwa [hw] at this

theorem waitAllWake_completes {s : State} {t : Team} (ht : s.team? t.uid = some t) (hres : t.res = .resident) (hf : heldFits t)
    (hh : t.hold = .waitAll) (hn : ∀ e ∈ t.handles, e.2.status ≠ .pending) : ∃ s', exec (.handleCompleteWake t.uid) s = .next s' ∧
      acquired s.owners t s' ∧ s'.team? t.uid = some (woken t) := by
  have hteam : (s.acquireFor t).team? t.uid = some t := (State.team?_acquireFor s t t.uid).trans ht
  have he : execHandleCompleteWake t.uid s = .next ((s.acquireFor t).completeHeld t.uid) := by
    simp only [execHandleCompleteWake, ht, hh, hres, ne_eq, not_true, if_false, anyPending_false hn, Bool.false_eq_true]
  have hw : (woken t).uid = t.uid := Team.pass_uid ..
  refine ⟨_, he.trans (congrArg _ (completeHeld_eq hteam hf)), acquired_of_same (acquired_acquireFor s t) rfl rfl, ?_⟩
  have := State.team?_putTeam (t := woken t) (by rw [hw]; exact hteam)
  rwa [hw] at this

/-- R120: a held `s.wait` stops once its copy's promised time is past. -/
theorem copyLateCheck_stops {s : State} {t : Team} {hd : BitVec 16} {d : RegNo} {gs : List Nat} {p : Nat} (ht : s.team? t.uid = some t)
    (hres : t.res = .resident) (hh : t.handler = false) (hw : t.hold = .wait hd d gs) (hst : t.hStatus hd = .pending)
    (hp : (t.slotOf (hd.toNat % 64)).promise = some p) (hlt : p < s.time) :
    exec (.copyLateCheck t.uid) s = .next (s.takeStop t.uid t.heldLen (Stop.of .copyLate)) := by
  have hlate : (t.waitSlots.any fun sl => sl.late s.time) = true := by
    have := late_of (slot_pending hst) (by rw [handleSlot]; exact hp) hlt
    simp [Team.waitSlots, hw, hst, this]
  have he : execCopyLateCheck t.uid s = .next (s.takeStop t.uid t.heldLen (Stop.of .copyLate)) := by
    simp only [execCopyLateCheck, ht, hres, true_and, hlate, if_true, hh, Bool.false_eq_true, if_false]
  exact he

/-- Settles O17: each word by what it makes of its lead group's value, each wake by the team that it finds held. -/
theorem waitsCompleteOrStopLate : Obligations.WaitsCompleteOrStopLate := by
  unfold Obligations.WaitsCompleteOrStopLate waitsComplete lateCopyStops
  refine ⟨⟨fun s t h d a lead rest hl ha => ?_, fun s t ht hres hf => ?_⟩, fun s t h d a lead rest p hh => ?_⟩
  case refine_1 =>
    exact ⟨sPoll_completes hl ha, sWait_completes hl ha, sWait_holds hl ha, sWaitall_holds hl ha, sWaitall_completes hl ha,
      sSleepu_completes hl ha, sSleepu_holds hl ha⟩
  case refine_2 =>
    exact ⟨fun _ => sleepWake_eq ht hres hf, fun _ _ _ => waitWake_completes ht hres hf, waitAllWake_completes ht hres hf⟩
  case refine_3 =>
    exact ⟨fun hr hl ha => sWait_stops_late hl ha hr hh, fun _ _ ht hres hw => copyLateCheck_stops ht hres hh hw⟩

end Sys2Proof.Claims
end

section
/-! What happens to teams between instructions: revokes, fences that end, code that lands, faults, drains, restores (R33, R131, R133, R151, R228,
R229, R284, R288, R295). -/

namespace Sys2Proof.Machine

open Sys2Proof

/-! ### Folds and tables -/

/-- A fold of updates that leave a part of a state alone leaves it alone. -/
theorem foldl_keeps {α β γ : Type} (p : β → γ) {f : β → α → β} (hf : ∀ s x, p (f s x) = p s) (l : List α) (s : β) :
    p (l.foldl f s) = p s := by
  induction l generalizing s with
  | nil => rfl
  | cons x l ih => rw [List.foldl_cons, ih, hf]

/-- Reading a table whose values have been changed one by one. -/
theorem SMap.find_mapValues {α : Type} (g : α → α) (m : SMap α) (x : Nat) :
    SMap.find (m.map fun e => (e.1, g e.2)) x = (SMap.find m x).map g := by
  induction m with
  | nil => rfl
  | cons e m ih =>
    rw [List.map_cons, SMap.find, SMap.find, ih]
    split <;> rfl

theorem SMap.get_mapValues {α : Type} (g : α → α) {d : α} (hd : g d = d) (m : SMap α) (x : Nat) :
    SMap.get d (m.map fun e => (e.1, g e.2)) x = g (SMap.get d m x) := by
  rw [SMap.get, SMap.get, SMap.find_mapValues]
  cases SMap.find m x with
  | none => exact hd.symm
  | some _ => rfl

theorem State.core_putCore (s : State) (k : Nat) (c : Core) : (s.putCore k c).core k = c := by
  simp [State.core, State.putCore, SMap.get_put]

theorem Core.codeSlot_putCode (c : Core) (n : Nat) (sl : CodeSlot) : (c.putCode n sl).codeSlot n = sl := by
  simp [Core.codeSlot, Core.putCode, SMap.get_put]

/-! ### Translations entering the TLBs change nothing else -/

/-- A state with other contents of its TLBs and walkers. -/
def State.translations (s : State) (tlb : List TlbEntry) (walks : List WalkEntry) (frames : List FrameEntry) : State :=
  { s with tlb := tlb, walks := walks, frames := frames }

theorem State.fillTlb_eq (s : State) (c : Ctx) (va : Nat) (l : Leaf) : ∃ x y z, s.fillTlb c va l = s.translations x y z := by
  unfold State.fillTlb
  split
  · exact ⟨_, _, _, rfl⟩
  · exact ⟨_, _, _, rfl⟩

theorem State.useTlb_eq (s : State) (c : Ctx) (va : Nat) : ∃ x y z, s.useTlb c va = s.translations x y z := by
  unfold State.useTlb
  split
  · exact ⟨_, _, _, rfl⟩
  · split
    · exact State.fillTlb_eq s c va _
    · exact ⟨_, _, _, rfl⟩

theorem State.useRange_eq (s : State) (c : Ctx) (va n : Nat) : ∃ x y z, s.useRange c va n = s.translations x y z := by
  have fold (l : List Nat) : ∀ u : State, (∃ x y z, u = s.translations x y z) →
      ∃ x y z, l.foldl (fun (s : State) i => s.useTlb c ((va / 64 + i) * 64)) u = s.translations x y z := by
    induction l with
    | nil => exact fun _ h => h
    | cons i l ih =>
      rintro _ ⟨x, y, z, rfl⟩
      obtain ⟨x', y', z', h⟩ := State.useTlb_eq (s.translations x y z) c ((va / 64 + i) * 64)
      exact ih _ ⟨x', y', z', h⟩
  exact fold _ s ⟨s.tlb, s.walks, s.frames, rfl⟩

/-! ### Reads that meet no error -/

theorem State.readBlock_clean {s : State} (h : s.codeErrs = []) (f : Finder) (key va : Nat) : s.readBlock f key va = s := by
  unfold State.readBlock
  rw [h]
  rfl

theorem State.engineRead_clean {s : State} (h : s.codeErrs = []) (hb : ∀ b, s.blockLost b = false) (f : Finder) (key va n : Nat) :
    s.engineRead f key va n = (s, false) :=
  List.foldl_fixed' (fun i => by simp only [State.readBlock_clean h, hb, Bool.or_false]) _

theorem State.engineParts_clean {s : State} (h : s.codeErrs = []) (hb : ∀ b, s.blockLost b = false) (f : Finder) :
    ∀ (ps : List (Nat × Nat)) (va : Nat), s.engineParts f va ps = (s, false)
  | [], _ => rfl
  | p :: ps, va => by
    rw [State.engineParts, State.engineRead_clean h hb]
    simp only [State.engineParts_clean h hb f ps, Bool.or_false]

/-! ### Loads of code -/

theorem State.requestCode_teams (s : State) (k asid addr : Nat) (reload : Bool) (w : CodeWaiter) :
    (s.requestCode k asid addr reload w).teams = s.teams := by
  unfold State.requestCode
  dsimp only
  cases (s.core k).slotFor asid addr with
  | none => cases s.chooseCode k <;> rfl
  | some e =>
    cases reload with
    | true => rfl
    | false => exact (apply_ite State.teams (e.2.st = .landed) s _).trans (ite_self _)

theorem State.loadTeamCode_teams (s : State) (t : Team) : (s.loadTeamCode t).teams = s.teams := by
  unfold State.loadTeamCode
  refine foldl_keeps State.teams (fun s n => ?_) _ s
  split
  · rfl
  · exact foldl_keeps State.teams (fun s k => State.requestCode_teams s k ..) _ s

theorem State.serveLoads_core {s : State} (h : s.loads = []) (k j : Nat) : (s.serveLoads k).core j = s.core j := by
  unfold State.serveLoads
  rw [h]
  rfl

/-- Changing the waiters of all loads changes no slot that none waits for. -/
theorem State.mapWaiters_codeSlot {s : State} {k n : Nat} (f : CodeWaiter → Option CodeWaiter) (h : ((s.core k).codeSlot n).waiters = []) :
    ((s.mapWaiters f).core k).codeSlot n = (s.core k).codeSlot n := by
  have hcore : (s.mapWaiters f).core k =
      { s.core k with code := (s.core k).code.map fun e => (e.1, { e.2 with waiters := e.2.waiters.filterMap f }) } :=
    SMap.get_mapValues (fun c : Core => { c with code := c.code.map fun e => (e.1, { e.2 with waiters := e.2.waiters.filterMap f }) }) rfl s.cores k
  have hslot := SMap.get_mapValues (fun sl : CodeSlot => { sl with waiters := sl.waiters.filterMap f }) (d := CodeSlot.reset) rfl (s.core k).code n
  rw [hcore]
  refine hslot.trans ?_
  rw [show SMap.get CodeSlot.reset (s.core k).code n = (s.core k).codeSlot n from rfl, h, List.filterMap_nil, ← h]

/-- A load that has landed changes no slot that none waits for, and starts no other load. -/
theorem State.landed_codeSlot {s : State} {k n : Nat} (w : CodeWaiter) (h : ((s.core k).codeSlot n).waiters = []) :
    ((s.landed w).core k).codeSlot n = (s.core k).codeSlot n := by
  unfold State.landed
  split
  · rfl
  · exact State.mapWaiters_codeSlot (s := s.modTeam w.who.uid _) _ h

theorem State.landed_loads {s : State} (w : CodeWaiter) (h : s.loads = []) : (s.landed w).loads = [] := by
  unfold State.landed
  split
  · exact h
  · exact (congrArg (List.filterMap _) h).trans rfl

/-- Code that comes back without an error: its slot takes it, and those who wait are answered. -/
theorem State.landCode_ok {s : State} {core n k : Nat} {sl : CodeSlot} {parts : List (Nat × Nat)} (he : s.codeErrs = [])
    (hb : ∀ b, s.blockLost b = false) (hk : s.ctxOfAsid sl.asid = some k) (hv : s.vaRange (s.ctx k) .fetch sl.addr 16384 = .ok parts) :
    ∃ x y z, s.landCode core n sl = sl.waiters.foldl State.landed
      (((s.translations x y z).clearCodeErrs core n).putCore core ((s.core core).putCode n
        { sl with st := .landed, landedAt := s.ccOf (clusterOf core), pinned := true, words := bytesWords (s.partsBytes parts), waiters := [] })) := by
  obtain ⟨x, y, z, hu⟩ := State.useRange_eq s (s.ctx k) sl.addr 16384
  have hp := State.engineParts_clean (s := s.translations x y z) he hb (Finder.engine core sl.asid 0) parts sl.addr
  refine ⟨x, y, z, ?_⟩
  simp only [State.landCode, hk, hv, hu, hp, Bool.false_eq_true, if_false]
  rfl

end Sys2Proof.Machine

namespace Sys2Proof.Claims

open Sys2Proof Sys2Proof.Machine

/-! ### The events -/

/-- R284: a revoke takes the word from the L1 that held it. -/
theorem revokeAck_eq {s : State} {n : Nat} {r : Revoke} (h : s.revokes[n]? = some r) : ∃ s', exec (.revokeAck n) s = .next s' ∧
    s'.revokes = s.revokes.eraseIdx n ∧
    (r.core < 512 → ∀ e ∈ s'.l1, e.1 < l1Key r.core r.asid r.va ∨ l1Key r.core r.asid r.va + 4 ≤ e.1) := by
  have he : execRevokeAck n s = .next (({ s with revokes := s.revokes.eraseIdx n } : State).ackRevoke r) := by simp only [execRevokeAck, h]
  refine ⟨_, he, ?_, fun hr e hm => ?_⟩
  · unfold State.ackRevoke
    split <;> rfl
  · have hl : r.isLocal = true := decide_eq_true hr
    rw [State.ackRevoke, if_pos hl] at hm
    have := (List.mem_filter.mp hm).2
    simp only [Bool.not_eq_true', Bool.and_eq_false_iff, decide_eq_false_iff_not] at this
    omega

/-- An acquire asks no peer (R291). -/
theorem acquireFor_noAsks {s : State} (t : Team) (h : s.remAsks = []) : (s.acquireFor t).remAsks = [] := by
  have fold (ks : List Nat) : ∀ u : State, u.remAsks = [] → (ks.foldl State.acquire u).remAsks = [] := by
    induction ks with
    | nil => exact fun _ h => h
    | cons k ks ih => exact fun u h => ih _ ((congrArg (List.map _) h).trans rfl)
  exact fold t.cores s h

/-- A team whose fence has ended. -/
def fenceEnded (t : Team) : Team := { t with fence := .none, hold := if t.hold = .link then .free else t.hold }

/-- Where nothing is asked and no revoke is out, the release of a team is complete and its fence ends. -/
theorem endFence_settled {s : State} {t : Team} (ht : s.team? t.uid = some t) (ha : s.remAsks = []) (hr : s.revokes = []) :
    (s.endFence t.uid).remAsks = [] ∧ (s.endFence t.uid).team? t.uid = some (fenceEnded t) ∧ (∀ k, (s.endFence t.uid).byte k = s.byte k) ∧
      (t.fence = .sc → acquired s.owners t (s.endFence t.uid)) := by
  have hrel : s.released t.uid = true := by simp [State.released, ht, State.registered, ha, hr]
  have hend : s.endFence t.uid = (if t.fence = .sc then s.acquireFor t else s).modTeam t.uid fenceEnded := by
    simp only [State.endFence, ht, hrel, Bool.not_true, Bool.false_eq_true, if_false]
    rfl
  rw [hend]
  split
  next hf =>
    refine ⟨?_, State.team?_modTeam fenceEnded (fun _ => rfl) ((State.team?_acquireFor s t t.uid).trans ht), fun k => ?_, fun _ => ?_⟩
    · exact acquireFor_noAsks t ha
    · exact congrArg (fun m => SMap.get 0 m k) (State.acquireFor_mem s t)
    · exact acquired_of_same (acquired_acquireFor s t) rfl rfl
  next hf => exact ⟨ha, State.team?_modTeam fenceEnded (fun _ => rfl) ht, fun _ => rfl, fun h => absurd h hf⟩

/-- R288, R295: the answer to the only question that is out ends the fence of the team that asked it. -/
theorem zeroLengthRead_ends {s : State} {t : Team} {a : RemAsk} (ht : s.team? t.uid = some t) (ha : s.remAsks = [a])
    (hh : hostHome a.key = true) (hw : a.asker = .team t.uid) (hr : s.revokes = []) : ∃ s',
    exec (.zeroLengthReadComplete a.tag) s = .next s' ∧ s'.remAsks = [] ∧ s'.team? t.uid = some (fenceEnded t) ∧ (∀ k, s'.byte k = s.byte k) ∧
      (t.fence = .sc → acquired s.owners t s') := by
  have he : execZeroLengthReadComplete a.tag s = .next (({ s with remAsks := [] } : State).endFence t.uid) := by
    simp [execZeroLengthReadComplete, ha, hh, hw]
  exact ⟨_, he, endFence_settled (s := { s with remAsks := [] }) ht rfl hr⟩

/-- The causes by their bits (R139). -/
theorem bit_ofBit : ∀ c < 29, (Cause.ofBit c).bit = c := by decide

/-- R33: a fault after acceptance is recorded in its slot, and its cause is pending. -/
theorem asyncFault_pends {s : State} {t : Team} {n c : Nat} (ht : s.team? t.uid = some t) (hc : c < 29) (hs : (t.slotOf n).status = .pending) :
    ∃ s' t', exec (.asyncFault t.uid n c) s = .next s' ∧ s'.team? t.uid = some t' ∧ (t'.slotOf n).status = .faulted ∧
      t'.pendCauses = t.pendCauses ||| (1 : BitVec 64) <<< c := by
  have he : execAsyncFault t.uid n c s = .next (s.finish { uid := t.uid, slot := n, gid := t.gid } .faulted (some (Cause.ofBit c))) := by
    simp only [execAsyncFault, ht, hs, if_true]
  have hu : ∀ u : Team, ((u.finishSlot n .faulted).pendCause (Cause.ofBit c)).uid = u.uid := fun u => by
    unfold Team.finishSlot
    split <;> rfl
  have hfin : t.finishSlot n .faulted = { t.putSlot n { t.slotOf n with status := .faulted } with freeSlots := t.freeSlots ++ [n] } := if_pos hs
  refine ⟨_, _, he, State.team?_modTeam (fun u => (u.finishSlot n .faulted).pendCause (Cause.ofBit c)) hu ht, ?_, ?_⟩
  · rw [hfin]
    simp [Team.pendCause, Team.slotOf, Team.putSlot, SMap.get_put]
  · rw [hfin]
    simp only [Team.pendCause, bit_ofBit c hc]
    rfl

theorem passReservation_teams (s : State) (t : Team) : (s.passReservation t).teams = s.teams := by
  unfold State.passReservation
  exact foldl_keeps State.teams (f := fun (s : State) k => s.putCore k ((s.core k).forget t.uid)) (fun _ _ => rfl) _ s

theorem drainFlights_uid (t : Team) : t.drainFlights.uid = t.uid :=
  foldl_keeps Team.uid (fun (u : Team) f => by
    unfold Team.land
    exact foldl_keeps Team.uid (fun (u : Team) w => by cases w <;> rfl) _ u) _ t

/-- A team of no gang that is evicted keeps what its flights leave (R228). -/
theorem evict_team? {s : State} {t : Team} (ht : s.team? t.uid = some t) (hg : t.inGang = false) : ∃ n, (s.evict t).team? t.uid =
    some { t.drainFlights with res := .evicted, evictedAt := n, loopBuf := none, readyAt := none, heldHome := 0, heldOdd := 0 } := by
  have hp : (s.passReservation t).team? t.uid = some t := by
    unfold State.team?
    rw [passReservation_teams]
    exact ht
  refine ⟨(s.passReservation t).newId.1, ?_⟩
  simp only [State.evict, hg, Bool.false_eq_true, if_false]
  exact State.team?_modTeam _ (fun u => drainFlights_uid u) hp

/-- R151, R228: a drained team is saved as it stands. -/
theorem drainDone_saves {s : State} {t : Team} (ht : s.team? t.uid = some t) (hres : t.res = .draining) (ha : t.hold.arriving = false)
    (hu : t.unanswered = false) (hg : t.inGang = false) (hf : t.flight = []) : ∃ s' t', exec (.evictionDrainDone t.uid) s = .next s' ∧
      s'.team? t.uid = some t' ∧ t'.res = .evicted ∧ t'.v = t.v ∧ t'.s = t.s ∧ t'.p = t.p ∧ t'.q = t.q ∧ t'.stack = t.stack ∧
      t'.handles = t.handles := by
  have he : execEvictionDrainDone t.uid s = .next (s.evict t) := by simp [execEvictionDrainDone, ht, hres, ha, hu]
  obtain ⟨n, hn⟩ := evict_team? ht hg
  have hd : t.drainFlights = { t with flight := [] } := by simp only [Team.drainFlights, hf, List.filter_nil, List.foldl_nil]
  refine ⟨_, _, he, hn, rfl, ?_⟩
  rw [hd]
  exact ⟨rfl, rfl, rfl, rfl, rfl, rfl⟩

/-- A team that starts anew on a home. -/
def reseated (s : State) (t : Team) (home : Nat) : Team :=
  { t with home := home, slot := s.freeSlot home, res := .starting, debtSeq := s.newId.1, debtSeqOdd := s.newId.1 }

/-- R151, R229: an evicted team that may return starts on the home that it is given. -/
theorem teamRestore_starts {s : State} {t : Team} {home : Nat} (ht : s.team? t.uid = some t) (hres : t.res = .evicted)
    (hc : s.ctxStopped t.ctx = false) (hw : s.higherWaits t = false) (ho : s.earlierOut t = false) (hh : s.restoreHome t = some home) :
    ∃ s' t', exec (.teamRestore t.uid) s = .next s' ∧ s'.team? t.uid = some t' ∧ t'.res = .starting ∧
      t'.home = home ∧ t'.v = t.v ∧ t'.s = t.s ∧ t'.p = t.p ∧ t'.q = t.q ∧ t'.stack = t.stack := by
  have he : execTeamRestore t.uid s = .next (s.reseat t home) := by simp [execTeamRestore, ht, hres, hc, hw, ho, hh]
  refine ⟨_, reseated s t home, he, ?_, rfl, rfl, rfl, rfl, rfl, rfl, rfl⟩
  refine (State.team?_acquireFor _ _ _).trans ?_
  unfold State.team?
  rw [State.loadTeamCode_teams]
  exact State.team?_putTeam (s := s.newId.2) (t := reseated s t home) ht

/-- R133: code that has been read is LANDED and pinned. -/
theorem cfetchLand_lands {s : State} {core n k : Nat} {parts : List (Nat × Nat)} {w : CodeWaiter} (hl : s.loads = []) (he : s.codeErrs = [])
    (hb : ∀ b, s.blockLost b = false) (hst : ((s.core core).codeSlot n).st = .loading)
    (hk : s.ctxOfAsid ((s.core core).codeSlot n).asid = some k)
    (hv : s.vaRange (s.ctx k) .fetch ((s.core core).codeSlot n).addr 16384 = .ok parts) (hw : ((s.core core).codeSlot n).waiters = [w]) :
    ∃ s', exec (.cfetchLand core n) s = .next s' ∧ (s'.core core).codeSlot n = { (s.core core).codeSlot n with
      st := .landed, landedAt := s.ccOf (clusterOf core), pinned := true, words := bytesWords (s.partsBytes parts), waiters := [] } := by
  obtain ⟨x, y, z, hland⟩ := State.landCode_ok (core := core) (n := n) he hb hk hv
  have hx : execCfetchLand core n s = .next ((s.landCode core n ((s.core core).codeSlot n)).serveLoads core) := by
    simp only [execCfetchLand, hst, if_true]
  refine ⟨_, hx, ?_⟩
  rw [hland, hw, List.foldl_cons, List.foldl_nil, State.serveLoads_core (State.landed_loads w (by exact hl)), State.landed_codeSlot,
    State.core_putCore, Core.codeSlot_putCode]
  rw [State.core_putCore, Core.codeSlot_putCode]

/-- R131: after 1,024 core cycles a landing pins its slot no longer. -/
theorem pinExpiry_unpins {s : State} {core n : Nat} (hl : s.loads = []) (hp : ((s.core core).codeSlot n).pinned = true)
    (hc : ((s.core core).codeSlot n).landedAt + 1024 ≤ s.ccOf (clusterOf core)) : ∃ s', exec (.codeSlotPinExpiry core n) s = .next s' ∧
      (s'.core core).codeSlot n = { (s.core core).codeSlot n with pinned := false } := by
  have hx : execCodeSlotPinExpiry core n s =
      .next ((s.putCore core ((s.core core).putCode n { (s.core core).codeSlot n with pinned := false })).serveLoads core) := by
    simp only [execCodeSlotPinExpiry]
    rw [if_pos ⟨hp, hc⟩]
  refine ⟨_, hx, ?_⟩
  rw [State.serveLoads_core (by exact hl), State.core_putCore, Core.codeSlot_putCode]

/-- A team as a partial eviction leaves it: it drains where the plan has it out (R228). -/
def toDrain (h : State) (t : Team) : Team :=
  if (t.res = .resident ∨ t.res = .starting) ∧ (h.team? t.uid).any (fun u => u.res == .evicted) then { t with res := .draining } else t

/-- R228: the resident teams that the plan has out begin to drain. -/
theorem partialEviction_drains {s h : State} {g : Grid} {t u : Team} (hg : s.grid? g.gid = some g) (hp : s.evictionPlan g = some h)
    (ht : s.team? t.uid = some t) (hres : t.res = .resident) (hu : h.team? t.uid = some u) (hev : u.res = .evicted) :
    ∃ s', exec (.partialEviction g.gid) s = .next s' ∧ s'.team? t.uid = some { t with res := .draining } := by
  have hx := find_map_uid (toDrain h) (fun t => by unfold toDrain; split <;> rfl) t.uid s.teams
  have hd : toDrain h t = { t with res := .draining } := if_pos ⟨.inl hres, by simp [hu, hev]⟩
  have he : execPartialEviction g.gid s = .next { s with teams := s.teams.map (toDrain h) } := by
    simp only [execPartialEviction, hg, hp]
    rfl
  refine ⟨_, he, hx.trans ?_⟩
  rw [show s.teams.find? (fun x => x.uid == t.uid) = some t from ht, Option.map_some, hd]

end Sys2Proof.Claims
end

section
/-! A core that issues the one instruction that it can (R28, R396). -/

namespace Sys2Proof.Claims

open Sys2Proof Sys2Proof.Machine

/-- A team that could issue is resident and free, on a path that nothing ends, and its instruction waits for no flight (R28, R110). -/
theorem readyInstr_inv {s : State} {t : Team} {i : Instr} (h : s.readyInstr t = some i) :
    (t.res = .resident ∧ t.hold = .free ∧ t.stopReq = none ∧ t.pendCauses = 0 ∧ t.doneBits % 2 ≠ 1) ∧
    (t.top.mask ≠ 0 ∧ ¬(t.top.rpc = some t.top.pc ∧ 1 < t.depth)) ∧
    ∃ ws more, s.fetch t = .words ws ∧ decode ws = some (i, more) ∧ t.waitsFor i = false := by
  unfold State.readyInstr at h
  split at h
  · cases h
  next hc =>
    simp only [Bool.or_eq_true, not_or, bne_iff_ne, ne_eq, not_not, Option.isSome_iff_ne_none, beq_iff_eq, Bool.and_eq_true,
      decide_eq_true_eq] at hc
    obtain ⟨⟨⟨⟨⟨⟨⟨hres, hhold⟩, hstop⟩, hpend⟩, hdone⟩, hmask⟩, hrpc⟩, -⟩ := hc
    refine ⟨⟨hres, hhold, hstop, hpend, hdone⟩, ⟨hmask, hrpc⟩, ?_⟩
    split at h
    next ws hws =>
      split at h
      next j more hj =>
        split at h
        · cases h
        next hw =>
          obtain rfl := Option.some.inj h
          simp only [Bool.or_eq_true, not_or, Bool.not_eq_true] at hw
          obtain ⟨⟨hwait, -⟩, -⟩ := hw
          exact ⟨ws, more, hws, hj, hwait⟩
      · cases h
    · cases h

/-- A path that is neither empty nor at its reconvergence point pops nothing (R110). -/
theorem popPaths_go (s : State) {t : Team} (hm : t.top.mask ≠ 0) (hr : ¬(t.top.rpc = some t.top.pc ∧ 1 < t.depth)) :
    ∀ fuel, s.popPaths fuel t = .go t
  | 0 => rfl
  | fuel + 1 => by
    unfold State.popPaths
    dsimp only
    split
    next h =>
      have hd : t.depth ≤ 1 := by
        obtain h | h := h
        · exact absurd h hm
        · exact Nat.le_of_not_lt fun hd => hr ⟨h, hd⟩
      rw [if_pos hd]
    next => rfl

section
variable {s : State} {t : Team}

/-- The only team of a package shares no loop buffer. -/
theorem bufferUse_alone (hs : s.teams = [t]) (hb : t.loopBuf = none) : s.bufferUse t = t := by
  have h : s.sharedBuf t = none := by
    unfold State.sharedBuf
    split
    · rfl
    · simp [hs]
  unfold State.bufferUse
  split
  · rfl
  · rw [h, ← hb]

theorem putTeam_alone (hs : s.teams = [t]) : s.putTeam t = s := by
  have : replaceWhere (fun u => u.uid == t.uid) (fun _ => t) s.teams = s.teams := by simp [hs, replaceWhere]
  unfold State.putTeam State.modTeam
  rw [this]

theorem team?_alone (hs : s.teams = [t]) : s.team? t.uid = some t := by simp [State.team?, hs]

/-- A team that could issue has nothing to settle. -/
theorem settleTeam_ready {i : Instr} (hs : s.teams = [t]) (he : s.codeErrs = []) (hb : t.loopBuf = none) (h : s.readyInstr t = some i) :
    s.settleTeam t.uid = s := by
  obtain ⟨⟨hres, hhold, hstop, hpend, hdone⟩, ⟨hmask, hrpc⟩, ws, more, hws, hdec, hwait⟩ := readyInstr_inv h
  have hmeet : s.meetCode t = s := if_pos (by simp [he])
  have hword : s.settleWord t = s := by simp [State.settleWord, hmeet, hws, hdec, hdone, hwait]
  simp [State.settleTeam, team?_alone hs, hres, hstop, hhold, popPaths_go s hmask hrpc, bufferUse_alone hs hb, hpend, putTeam_alone hs, hword]

theorem pollTokens_free (hs : s.teams = [t]) (hh : t.hold = .free) : s.pollTokens t.uid = s := by
  simp [State.pollTokens, team?_alone hs, hh]

/-- The cores of an only team are those whose pipes its home's cycle works (R16). -/
theorem issueCores_alone (hs : s.teams = [t]) (hres : t.res = .resident) : s.issueCores t.home = t.cores := by
  cases hp : t.pair <;> simp [State.issueCores, hs, hres, hp, Team.cores]

end

/-! ### The choice among one candidate -/

theorem choose_nil (s : State) (k : Nat) (lane : Bool) : s.choose k lane [] = none := rfl

theorem chooseOn_nil (s : State) (ks : List Nat) (lane : Bool) : ∀ fuel, s.chooseOn ks lane fuel [] = []
  | 0 => rfl
  | fuel + 1 => by simp [State.chooseOn, choose_nil]

/-- A pipe of a core chooses the one candidate where that belongs to it and can be chosen (R396). -/
theorem choose_one {s : State} {t : Team} {i : Instr} (k : Nat) (lane : Bool) (hc : s.choosable t i = true) :
    s.choose k lane [(t, i)] = if Instr.isLane i = lane then some (t, i) else none := by
  by_cases hl : Instr.isLane i = lane
  · simp only [State.choose, List.filter_cons, List.filter_nil, hc, hl, beq_self_eq_true, Bool.and_self, if_true]
    rfl
  · simp [State.choose, hl, sortBy]

/-- A pipe of a team's cores chooses the team, their one candidate, where its instruction belongs to the pipe (R395, R396). -/
theorem chooseOn_one {s : State} {t : Team} {i : Instr} (lane : Bool) (hc : s.choosable t i = true) :
    s.chooseOn t.cores lane 1 [(t, i)] = if Instr.isLane i = lane then [(t, i)] else [] := by
  by_cases hl : Instr.isLane i = lane
  · -- A debt that would be too large changes only which of the two last branches answers.
    cases hp : t.pair with
    | false => cases ho : (s.afford t i == Afford.overflow) <;> simp [State.chooseOn, choose_one, hc, hl, hp, ho, Team.cores]
    | true => cases ho : (s.afford t i == Afford.overflow) <;> simp [State.chooseOn, choose_one, hc, hl, hp, ho, Team.cores]
  · cases hp : t.pair <;> simp [State.chooseOn, choose_one, hc, hl, hp, Team.cores]

/-- Of the two pipes of a team's cores one chooses the team, their one candidate. -/
theorem choosePipes_one {s : State} {t : Team} {i : Instr} (first : Bool) (hc : s.choosable t i = true) :
    (s.choosePipes t.cores first [(t, i)]).2 = [t.uid] := by
  unfold State.choosePipes
  simp only [List.length_singleton, chooseOn_one first hc]
  by_cases hl : Instr.isLane i = first
  · simp [hl, chooseOn_nil]
  · have hl' : Instr.isLane i = !first := Bool.eq_not.mpr hl
    have hs : s.afterFirst [] = s := rfl
    rw [if_neg hl, hs, show [(t, i)].filter (fun y => List.all [] fun x : Team × Instr => x.1.uid != y.1.uid) = [(t, i)] from rfl,
      chooseOn_one (!first) hc, if_pos hl']
    rfl

/-! ### The cycle -/

section
variable {s : State} {t : Team} {i : Instr}

/-- A team as it stands among the ready. -/
def readied (s : State) (t : Team) : Team := { t with readyAt := some (t.readyAt.getD (s.ccOf (clusterOf t.home))) }

/-- A state with a sole team, which is ready. -/
def aloneReady (s : State) (t : Team) : State := { s with teams := [readied s t] }

theorem readyInstr_aloneReady : (aloneReady s t).readyInstr (readied s t) = s.readyInstr t := rfl

theorem choosable_aloneReady : (aloneReady s t).choosable (readied s t) i = s.choosable t i := rfl

/-- The team that is alone and could issue stands among the ready. -/
theorem markReady_alone (hs : s.teams = [t]) (h : s.readyInstr t = some i) : (s.modTeam t.uid fun t' =>
    { t' with readyAt := if (s.readyInstr t').isSome then some (t'.readyAt.getD (s.ccOf (clusterOf t.home))) else none }) = aloneReady s t := by
  simp [State.modTeam, replaceWhere, hs, h, aloneReady, readied]

theorem countNot_pick (s : State) (uid : Nat) : (s.countNot uid).pick = s.pick := rfl

/-- R396: a core issues the one instruction that it can. -/
theorem issueCycle_picks (hs : s.teams = [t]) (he : s.codeErrs = []) (h : s.readyInstr t = some i) (hb : t.loopBuf = none)
    (hc : s.choosable t i = true) (hp : t.uid ∉ s.pick) : ∃ s', exec (.issueCycle t.home) s = .next s' ∧ s'.pick = s.pick ++ [t.uid] := by
  obtain ⟨⟨hres, hhold, -⟩, -⟩ := readyInstr_inv h
  have huids : (s.teams.filter fun u => t.cores.contains u.home && !s.pick.contains u.uid).map (fun u => u.uid) = [t.uid] := by
    have hh : t.home ∈ t.cores := by unfold Team.cores; split <;> simp
    simp [hs, hp, hh]
  have hcs : ([t.uid].filterMap (aloneReady s t).team?).filterMap (fun u => ((aloneReady s t).readyInstr u).map fun i => (u, i)) =
      [(readied s t, i)] := by
    have ht : (aloneReady s t).team? t.uid = some (readied s t) := team?_alone (s := aloneReady s t) (t := readied s t) rfl
    simp [ht, readyInstr_aloneReady, h]
  have hpick := choosePipes_one (s := aloneReady s t) (t := readied s t) (i := i) (s.ccOf (clusterOf t.home) % 2 == 0) hc
  refine ⟨_, rfl, ?_⟩
  simp only [issueCores_alone hs hres, huids, List.foldl_cons, List.foldl_nil, settleTeam_ready hs he hb h, pollTokens_free hs hhold,
    markReady_alone hs h, hcs]
  rw [foldl_keeps State.pick countNot_pick, foldl_keeps State.pick fun s' x => ?_]
  · exact congrArg (s.pick ++ ·) hpick
  · rfl

end

/-- Settles O37: each event's lemma above, with the hypotheses that the statement names. -/
theorem teamEventsComplete : Obligations.TeamEventsComplete := by
  unfold Obligations.TeamEventsComplete
  refine ⟨fun s n r h => revokeAck_eq h, fun s t ht => ⟨?_, ?_, ?_, ?_, ?_⟩, fun s core n hl he hb => ⟨?_, ?_⟩, ?_⟩
  · exact fun a ha hh hw hr => zeroLengthRead_ends ht ha hh hw hr
  · exact fun n c hc hs => asyncFault_pends ht hc hs
  · exact fun hres ha hu hg hf => drainDone_saves ht hres ha hu hg hf
  · exact fun home hres hc hw ho hh => teamRestore_starts ht hres hc hw ho hh
  · exact fun i hs he h hb hc hp => issueCycle_picks hs he h hb hc hp
  · exact fun k parts w hst hk hv hw => cfetchLand_lands hl he hb hst hk hv hw
  · exact fun hp hc => pinExpiry_unpins hl hp hc
  · exact fun s h g t u hg hp ht hres hu hev => partialEviction_drains hg hp ht hres hu hev

end Sys2Proof.Claims
end

section
/-! The reductions and scans of the lanes: the fixed pairwise tree, the ascending chain, and the folds that both come to where the grouping of an
operation does not matter (R62, R63, R178, R179). -/

namespace Sys2Proof.Claims

open Sys2Proof Sys2Proof.Machine

/-! ### The lanes of a group and the words that they read -/

theorem peers_eq_groupPeers (t : Team) (h : Hdr) (l : Nat) : t.peers h l = groupPeers t h l := by
  simp only [Team.peers, groupPeers, Team.lanesFor, Team.activeLanes, List.filter_filter]
  refine List.filter_congr fun j _ => ?_
  cases t.active j <;> cases t.laneGuard h j <;> simp

theorem mem_groupPeers_self {t : Team} {h : Hdr} {l : Nat} (hl : l ∈ t.lanesFor h) : l ∈ groupPeers t h l := by
  rw [← peers_eq_groupPeers]
  exact List.mem_filter.mpr ⟨hl, beq_self_eq_true _⟩

theorem groupPeers_ascending (t : Team) (h : Hdr) (l : Nat) : (groupPeers t h l).Pairwise (· < ·) :=
  List.pairwise_lt_range.filter _

/-- The lanes that take part are among the places of their group. -/
theorem groupPlaces_filter_peers {t : Team} (h : Hdr) (l : Nat) (hG : 0 < t.group) :
    (List.range' (groupBase t l) t.group).filter (groupPeers t h l).contains = groupPeers t h l := by
  refine ((List.pairwise_lt_range' (step := 1)).filter _).eq_of_mem_iff (groupPeers_ascending t h l) fun j => ?_
  rw [List.mem_filter, List.contains_iff_mem, and_iff_right_iff_imp]
  intro hj
  obtain ⟨-, -, hd⟩ : j < t.lanes ∧ (t.active j = true ∧ t.laneGuard h j = true) ∧ j / t.group = l / t.group := by
    simpa [groupPeers] using hj
  have hm := Nat.div_add_mod' j t.group
  have hlt := Nat.mod_lt j hG
  rw [hd] at hm
  rw [List.mem_range'_1, groupBase]
  omega

theorem rRun_one (t : Team) (r l : Nat) : t.rRun r 1 l = [t.rGet r l] := rfl

theorem wordsNat_singleton (w : RWord) : wordsNat [w] = w.val.toNat := by simp [wordsNat]

theorem laneVal_one (t : Team) (a : RegNo) (l : Nat) : laneVal t a 1 l = (t.rGet a.toNat l).val.toNat := by
  rw [laneVal, rRun_one, wordsNat_singleton]

/-! ### Checks of nodes that find nothing (R189) -/

theorem good_ofNat (x : Nat) : (RWord.ofNat x).good = true := by simp [RWord.ofNat, RWord.of, RWord.good]

theorem passing_append {cs ds : List WordCheck} (hc : passing cs) (hd : passing ds) : passing (cs ++ ds) := by
  rw [passing, List.any_append, hc, hd]
  rfl

/-- The words of a result that no check of its own predicts. -/
theorem passing_unpredicted (ws : List RWord) : passing (ws.map fun w => { bad := false, word := some w.val, pred := none }) := by
  simp [passing]

/-- A node that joins two words with right codes passes its check, whichever of them it selects. -/
theorem passing_node (c : NodeCls) {x y : RWord} (w : RWord) (hx : x.good = true) (hy : y.good = true) : passing [c.check x y w] := by
  cases c with
  | sel =>
    by_cases hw : w.val = x.val
    · simp [passing, NodeCls.check, hw, hx]
    · simp [passing, NodeCls.check, hw, hy]
  | _ => simp [passing, NodeCls.check, hx, hy]

/-- A tree over words with right codes passes the checks of its nodes, and its own word has a right code. -/
theorem redChecks_good {draw : Nat → Nat → Nat} {steps : Bool} {f : Nat → Nat → Nat → Nat} {cls : NodeCls} {leaf : Nat → Option RWord}
    (hl : ∀ j, ∀ w ∈ leaf j, w.good = true) : ∀ k lo : Nat,
      (∀ w ∈ (redChecks draw steps f cls leaf k lo).1, w.good = true) ∧ passing (redChecks draw steps f cls leaf k lo).2
  | 0, lo => ⟨hl lo, rfl⟩
  | k + 1, lo => by
    obtain ⟨hx, hxs⟩ := redChecks_good (draw := draw) (steps := steps) (f := f) (cls := cls) hl k lo
    obtain ⟨hy, hys⟩ := redChecks_good (draw := draw) (steps := steps) (f := f) (cls := cls) hl k (lo + 2 ^ k)
    rw [redChecks]
    dsimp only
    split
    · next x y ex ey =>
      refine ⟨fun w hw => ?_, passing_append (passing_append hxs hys) (passing_node cls _ (hx x ex) (hy y ey))⟩
      rw [← Option.some.inj hw]
      exact good_ofNat _
    · next x ex _ => exact ⟨fun w hw => hx w (ex.trans hw), hxs⟩
    · exact ⟨hy, hys⟩

/-- A chain over words with right codes passes the checks of its nodes. -/
theorem chainChecks_good (f : Nat → Nat → Nat → Nat) (cls : NodeCls) {val : Nat → RWord} (hv : ∀ j, (val j).good = true) :
    ∀ (ls : List Nat) (x : RWord), x.good = true → passing (chainChecks f cls val x ls)
  | [], _, _ => rfl
  | l :: ls, _, hx => passing_append (passing_node cls _ hx (hv l)) (chainChecks_good f cls hv ls _ (good_ofNat _))

/-! ### What the lanes receive -/

/-- A word completes with these results in the lanes that it executes for. -/
def lanesReceive (s : State) (t : Team) (i : Instr) (h : Hdr) (d : RegNo) (res : Nat → LRes) : Prop :=
  exec i s = .next (s.putTeam ((t.writeLanes d.toNat (t.lanesFor h) res).pass i.length))

/-- Only the results in the lanes that the word executes for matter. -/
theorem lanesReceive.congr {s : State} {t : Team} {i : Instr} {h : Hdr} {d : RegNo} {f g : Nat → LRes} (hf : lanesReceive s t i h d f)
    (he : ∀ l ∈ t.lanesFor h, f l = g l) : lanesReceive s t i h d g := by
  have hw : t.writeLanes d.toNat (t.lanesFor h) f = t.writeLanes d.toNat (t.lanesFor h) g :=
    List.foldl_ext _ _ _ fun u l hl => by rw [he l hl]
  rw [lanesReceive, ← hw]
  exact hf

/-- The result in a lane of the pairwise tree over its group (R62). -/
def treeResult (t : Team) (h : Hdr) (a : RegNo) (draws : Bool) (join : Nat → Nat → Nat → Nat) (l : Nat) : LRes :=
  match redTree t.draw (draws && t.rm == 5) join (fun j => if (groupPeers t h l).contains j then some (laneVal t a 1 j) else none)
      (log2 t.group) (groupBase t l) with
  | some n => { words := natWords 1 n.val, pred := none, draws := n.drawsOf l }
  | none => LRes.num 1 0

/-- The value of the ascending chain over the listed lanes (R63). -/
def chainValue (t : Team) (a : RegNo) (join : Nat → Nat → Nat → Nat) : List Nat → Nat
  | [] => 0
  | x :: xs => xs.foldl (fun acc j => join j acc (laneVal t a 1 j)) (laneVal t a 1 x)

/-- The result in a lane of the scan of its group (R63). -/
def scanResult (t : Team) (h : Hdr) (a : RegNo) (draws : Bool) (join : Nat → Nat → Nat → Nat) (l : Nat) : LRes :=
  { words := natWords 1 (chainValue t a join ((groupPeers t h l).filter (· ≤ l)))
    pred := none
    draws := if draws && t.rm = 5 && (groupPeers t h l).head? != some l then 1 else 0 }

/-- A word that reads right codes and is a reduction gives each lane its group's tree (R62, R178). -/
theorem laneRed_receives {s : State} {t : Team} {i : Instr} {h : Hdr} {d a : RegNo} {steps : Bool} {cls : NodeCls}
    {f : Team → Nat → Nat → Nat → Nat} (he : exec i s = withTeam i s (laneRed i h d a steps cls f)) (hr : Runs s t i) (hg : allGood t)
    {draws : Bool} {join : Nat → Nat → Nat → Nat} (hs : steps = draws) (hf : f t = join) :
    lanesReceive s t i h d (treeResult t h a draws join) := by
  subst hs hf
  have hleaf : ∀ l j, ∀ w ∈ (if (t.peers h l).contains j then (t.rRun a.toNat 1 j).head? else none), w.good = true := fun l j w hw => by
    split at hw
    · rw [← Option.some.inj hw]
      exact hg a.toNat j
    · cases hw
  have hres : ∀ l j, (if (t.peers h l).contains j then (t.rRun a.toNat 1 j).head? else none).map (fun w => w.val.toNat) =
      if (groupPeers t h l).contains j then some (laneVal t a 1 j) else none := fun l j => by
    rw [apply_ite (Option.map _), peers_eq_groupPeers, laneVal_one]
    rfl
  rw [lanesReceive, he, laneRed, laneWith_runs hr]
  · simp only [hres]
    rfl
  · intro l _
    dsimp only
    split
    · exact operandChecks_good (by simp [rRun_one, hg a.toNat l])
    · exact passing_append (passing_unpredicted _) (redChecks_good (hleaf l) _ _).2

/-- None of the lanes above a lane is up to it. -/
theorem filter_le_eq_nil {k : Nat} {ls : List Nat} (hk : ∀ j ∈ ls, k < j) : ls.filter (· ≤ k) = [] :=
  List.filter_eq_nil_iff.mpr fun j hj => by simpa using hk j hj

/-- A scan gives each later lane the chain from `x` on over the lanes up to it. -/
theorem find_scanList_some (f : Nat → Nat → Nat → Nat) (val : Nat → Nat) {l : Nat} : ∀ (ls : List Nat) (x : Nat),
    ls.Pairwise (· < ·) → l ∈ ls →
      (scanList f val (some x) ls).find? (fun p => p.1 == l) = some (l, (ls.filter (· ≤ l)).foldl (fun acc j => f j acc (val j)) x)
  | k :: ls, x, hs, hl => by
    obtain ⟨hk, hs⟩ := List.pairwise_cons.mp hs
    obtain rfl | hl := List.mem_cons.mp hl
    · simp [scanList, filter_le_eq_nil hk]
    · have hlt := hk l hl
      simp [scanList, hlt.ne, hlt.le, find_scanList_some f val ls _ hs hl]

/-- A scan gives each lane of an ascending list the chain over the lanes up to it. -/
theorem find_scanList (f : Nat → Nat → Nat → Nat) (t : Team) (a : RegNo) {l : Nat} : ∀ ls : List Nat, ls.Pairwise (· < ·) → l ∈ ls →
    (scanList f (laneVal t a 1) none ls).find? (fun p => p.1 == l) = some (l, chainValue t a f (ls.filter (· ≤ l)))
  | k :: ls, hs, hl => by
    obtain ⟨hk, hs⟩ := List.pairwise_cons.mp hs
    obtain rfl | hl := List.mem_cons.mp hl
    · simp [scanList, filter_le_eq_nil hk, chainValue]
    · have hlt := hk l hl
      simp [scanList, hlt.ne, hlt.le, chainValue, find_scanList_some f (laneVal t a 1) ls _ hs hl]

/-- A word that reads right codes and is a scan gives each lane the chain over its group's lanes up to it (R63, R179). -/
theorem laneScan_receives {s : State} {t : Team} {i : Instr} {h : Hdr} {d a : RegNo} {steps : Bool} {cls : NodeCls}
    {f : Team → Nat → Nat → Nat → Nat} (he : exec i s = withTeam i s (laneScan i h d a steps cls f)) (hr : Runs s t i) (hg : allGood t)
    {draws : Bool} {join : Nat → Nat → Nat → Nat} (hs : steps = draws) (hf : f t = join) :
    lanesReceive s t i h d (scanResult t h a draws join) := by
  subst hs hf
  have hgood : ∀ j, (((t.rRun a.toNat 1 j).head?).getD RWord.zero).good = true := fun j => hg a.toNat j
  rw [laneScan] at he
  refine lanesReceive.congr (he.trans (laneWith_runs hr fun l _ => ?_)) fun l hl => ?_
  · dsimp only
    split
    · rfl
    · exact operandChecks_good (by simp [rRun_one, hg _ _])
    · exact passing_append (passing_unpredicted _) (chainChecks_good _ _ hgood _ _ (hgood _))
  · have hfind := find_scanList (f t) t a _ (groupPeers_ascending t h l) (mem_groupPeers_self hl)
    unfold laneVal at hfind
    rw [← peers_eq_groupPeers] at hfind
    dsimp only
    rw [hfind, scanResult, ← peers_eq_groupPeers, Team.step]
    by_cases hm : t.rm = 5 <;> simp [hm]

/-! ### Operations whose grouping does not matter (R178, R179) -/

/-- The fold of a list by an operation, if it has an item. -/
def foldAll (g : Nat → Nat → Nat) : List Nat → Option Nat
  | [] => none
  | x :: xs => some (xs.foldl g x)

/-- The fold of a list by an operation, 0 of none: what the table says of an integer reduction or scan. -/
def foldValue (g : Nat → Nat → Nat) : List Nat → Nat
  | [] => 0
  | x :: xs => xs.foldl g x

theorem getD_foldAll (g : Nat → Nat → Nat) (xs : List Nat) : (foldAll g xs).getD 0 = foldValue g xs := by
  cases xs <;> rfl

/-- The fold of two lists one after the other joins their folds. -/
theorem foldAll_append {g : Nat → Nat → Nat} [Std.Associative g] : ∀ xs ys : List Nat,
    foldAll g (xs ++ ys) = Option.merge g (foldAll g xs) (foldAll g ys)
  | [], ys => by simp [foldAll]
  | x :: xs, [] => by simp [foldAll]
  | x :: xs, y :: ys => by simp [foldAll, Option.merge, ← List.foldl_assoc]

theorem val_join (g : Nat → Nat → Nat) (draw : Nat → Nat → Nat) (steps : Bool) (x y : Option RedNode) :
    (RedNode.join draw steps (fun _ => g) x y).map RedNode.val = Option.merge g (x.map RedNode.val) (y.map RedNode.val) := by
  cases x <;> cases y <;> rfl

/-- The tree of level `k` holds the fold of its places' values. -/
theorem val_redTree {g : Nat → Nat → Nat} [Std.Associative g] (draw : Nat → Nat → Nat) (steps : Bool) (leaf : Nat → Option Nat) :
    ∀ k lo : Nat, (redTree draw steps (fun _ => g) leaf k lo).map RedNode.val = foldAll g ((List.range' lo (2 ^ k)).filterMap leaf)
  | 0, lo => by cases h : leaf lo <;> simp [redTree, foldAll, h]
  | k + 1, lo => by
    rw [redTree, val_join, val_redTree draw steps leaf k lo, val_redTree draw steps leaf k (lo + 2 ^ k), ← foldAll_append,
      ← List.filterMap_append, List.range'_append_1, pow_succ, Nat.mul_two]

/-- A tree whose steps take no draws: no lane has taken one. -/
theorem redTree_takes_no_draws {draw : Nat → Nat → Nat} {f : Nat → Nat → Nat → Nat} {leaf : Nat → Option Nat} : ∀ k lo : Nat,
    ∀ n ∈ redTree draw false f leaf k lo, n.cnt = 0 ∧ ∀ p ∈ n.rest, p.2 = 0
  | 0, lo, n, hn => by
    obtain ⟨v, -, rfl⟩ := Option.map_eq_some_iff.mp hn
    exact ⟨rfl, fun p hp => (List.not_mem_nil hp).elim⟩
  | k + 1, lo, n, hn => by
    have hx := redTree_takes_no_draws (draw := draw) (f := f) (leaf := leaf) k lo
    have hy := redTree_takes_no_draws (draw := draw) (f := f) (leaf := leaf) k (lo + 2 ^ k)
    rw [redTree] at hn
    generalize redTree draw false f leaf k lo = x at hn hx
    generalize redTree draw false f leaf k (lo + 2 ^ k) = y at hn hy
    match x, y with
    | none, y => exact hy n hn
    | some x, none => exact hx n hn
    | some x, some y =>
      obtain ⟨hxc, hxr⟩ := hx x rfl
      obtain ⟨hyc, hyr⟩ := hy y rfl
      rw [← Option.some.inj hn]
      refine ⟨hxc, fun p hp => ?_⟩
      obtain hp | rfl | hp := by simpa using hp
      · exact hxr p hp
      · exact hyc
      · exact hyr p hp

theorem drawsOf_eq_zero {n : RedNode} (hc : n.cnt = 0) (hr : ∀ p ∈ n.rest, p.2 = 0) (l : Nat) : n.drawsOf l = 0 := by
  unfold RedNode.drawsOf
  split
  · exact hc
  · split
    · next p hp => exact hr p (List.mem_of_find?_eq_some hp)
    · rfl

/-- The values of a group's places that take part are those of its lanes, in ascending order. -/
theorem groupPlaces_values {t : Team} (h : Hdr) (a : RegNo) (l : Nat) (hG : 0 < t.group) :
    (List.range' (groupBase t l) t.group).filterMap (fun j => if (groupPeers t h l).contains j then some (laneVal t a 1 j) else none) =
      (groupPeers t h l).map (laneVal t a 1) := by
  conv_rhs => rw [← groupPlaces_filter_peers h l hG]
  rw [← List.filterMap_eq_map, List.filterMap_filter]
  rfl

/-- The number of levels of a group's tree. -/
theorem two_pow_log2_group {t : Team} (hG : t.group = 16 ∨ t.group = 32 ∨ t.group = 64) : 2 ^ log2 t.group = t.group := by
  obtain h | h | h := hG <;> rw [h] <;> decide

/-- Whatever tree the engine uses, a reduction by an associative operation gives the fold of the group's lanes (R178). -/
theorem treeResult_fold {t : Team} (hG : t.group = 16 ∨ t.group = 32 ∨ t.group = 64) (h : Hdr) (a : RegNo) (g : Nat → Nat → Nat)
    [Std.Associative g] (l : Nat) :
    treeResult t h a false (fun _ => g) l = LRes.num 1 (foldValue g ((groupPeers t h l).map (laneVal t a 1))) := by
  have hv := val_redTree (g := g) t.draw (false && t.rm == 5)
    (fun j => if (groupPeers t h l).contains j then some (laneVal t a 1 j) else none) (log2 t.group) (groupBase t l)
  rw [two_pow_log2_group hG, groupPlaces_values h a l (by omega)] at hv
  rw [← getD_foldAll, ← hv, treeResult, Bool.false_and]
  split
  · next n hn =>
    obtain ⟨hc, hr⟩ := redTree_takes_no_draws _ _ n hn
    simp only [hn, drawsOf_eq_zero hc hr]
    rfl
  · next hn => rw [hn]; rfl

/-- The chain of an operation that no lane draws for is the fold of the lanes' values. -/
theorem chainValue_fold (t : Team) (a : RegNo) (g : Nat → Nat → Nat) (ls : List Nat) :
    chainValue t a (fun _ => g) ls = foldValue g (ls.map (laneVal t a 1)) := by
  cases ls with
  | nil => rfl
  | cons x xs => exact (List.foldl_map ..).symm

theorem scanResult_fold (t : Team) (h : Hdr) (a : RegNo) (g : Nat → Nat → Nat) (l : Nat) :
    scanResult t h a false (fun _ => g) l = LRes.num 1 (foldValue g (((groupPeers t h l).filter (· ≤ l)).map (laneVal t a 1))) := by
  rw [scanResult, chainValue_fold]
  rfl

/-! ### The integer operations -/

theorem tyVal_mod (ty : Ty) (x : Nat) : tyVal ty (x % 2 ^ ty.width) = tyVal ty x := by
  simp [tyVal, signedVal]

theorem aluAdd_assoc (ty : Ty) : Std.Associative (aluAdd ty) :=
  ⟨fun a b c => by simp [aluAdd, Nat.add_assoc]⟩

/-- Of three values the least is the same in either grouping, the first of equal ones. -/
theorem aluMin_assoc (ty : Ty) : Std.Associative (aluMin ty) :=
  ⟨fun a b c => by
    unfold aluMin
    split_ifs <;> simp only [tyVal_mod, Nat.mod_mod] at * <;> omega⟩

theorem aluMax_assoc (ty : Ty) : Std.Associative (aluMax ty) :=
  ⟨fun a b c => by
    unfold aluMax
    split_ifs <;> simp only [tyVal_mod, Nat.mod_mod] at * <;> omega⟩

/-- Numbers that agree in 32 bits give one register word. -/
theorem num_one_mod (x : Nat) : LRes.num 1 (x % 2 ^ 32) = LRes.num 1 x := by
  have he : BitVec.ofNat 32 (x % 2 ^ 32) = BitVec.ofNat 32 x := BitVec.eq_of_toNat_eq (by simp)
  simp only [LRes.num, natWords, RWord.ofNat, he]

theorem foldl_aluAdd_mod (ty : Ty) : ∀ (xs : List Nat) (x : Nat), xs.foldl (aluAdd ty) x % 2 ^ ty.width = (x + xs.sum) % 2 ^ ty.width
  | [], x => rfl
  | y :: xs, x => by
    rw [List.foldl_cons, foldl_aluAdd_mod ty xs, aluAdd, Nat.mod_add_mod, List.sum_cons, Nat.add_assoc]

/-- The wrapped sum of values is their sum in a register word. -/
theorem num_foldValue_aluAdd {ty : Ty} (hw : ty.width = 32) (xs : List Nat) : LRes.num 1 (foldValue (aluAdd ty) xs) = LRes.num 1 xs.sum := by
  cases xs with
  | nil => rfl
  | cons x xs =>
    rw [foldValue, ← num_one_mod, ← hw, foldl_aluAdd_mod, hw, num_one_mod, List.sum_cons]

/-- The integer types of the reductions and scans (R178, R179). -/
theorem int_width {ty : Ty} (hty : ty = .s32 ∨ ty = .n32) : ty.width = 32 := by
  obtain rfl | rfl := hty <;> rfl

theorem int_ne_f32 {ty : Ty} (hty : ty = .s32 ∨ ty = .n32) : ty ≠ .f32 := by
  obtain rfl | rfl := hty <;> decide

theorem redSum_int {ty : Ty} (hty : ty = .s32 ∨ ty = .n32) (t : Team) : redSum ty t = fun _ => aluAdd ty := by
  funext dr x y
  exact if_neg (int_ne_f32 hty)

theorem redMin_int {ty : Ty} (hty : ty = .s32 ∨ ty = .n32) : redMin ty = aluMin ty := by
  funext x y
  exact if_neg (int_ne_f32 hty)

theorem redMax_int {ty : Ty} (hty : ty = .s32 ∨ ty = .n32) : redMax ty = aluMax ty := by
  funext x y
  exact if_neg (int_ne_f32 hty)

theorem redSum_f32 (t : Team) : redSum .f32 t = roundedSum t := by
  funext dr x y
  exact if_pos rfl

theorem redMin_f32 : redMin .f32 = Fmt.minOf .f32 := by
  funext x y
  exact if_pos rfl

theorem redMax_f32 : redMax .f32 = Fmt.maxOf .f32 := by
  funext x y
  exact if_pos rfl

/-! ### The words -/

/-- A reduction by an associative operation gives each lane the fold of its group's lanes (R178). -/
theorem laneRed_folds {s : State} {t : Team} {i : Instr} {h : Hdr} {d a : RegNo} {steps : Bool} {cls : NodeCls}
    {f : Team → Nat → Nat → Nat → Nat} (he : exec i s = withTeam i s (laneRed i h d a steps cls f)) (hr : Runs s t i) (hg : allGood t)
    {g : Nat → Nat → Nat} (hs : steps = false) (hf : f t = fun _ => g) (ha : Std.Associative g)
    (hG : t.group = 16 ∨ t.group = 32 ∨ t.group = 64) :
    lanesReceive s t i h d fun l => LRes.num 1 (foldValue g ((groupPeers t h l).map (laneVal t a 1))) :=
  (laneRed_receives he hr hg hs hf).congr fun l _ => treeResult_fold hG h a g l

/-- A scan by an operation that no lane draws for gives each lane the fold of its group's lanes up to it (R179). -/
theorem laneScan_folds {s : State} {t : Team} {i : Instr} {h : Hdr} {d a : RegNo} {steps : Bool} {cls : NodeCls}
    {f : Team → Nat → Nat → Nat → Nat} (he : exec i s = withTeam i s (laneScan i h d a steps cls f)) (hr : Runs s t i) (hg : allGood t)
    {g : Nat → Nat → Nat} (hs : steps = false) (hf : f t = fun _ => g) :
    lanesReceive s t i h d fun l => LRes.num 1 (foldValue g (((groupPeers t h l).filter (· ≤ l)).map (laneVal t a 1))) :=
  (laneScan_receives he hr hg hs hf).congr fun l _ => scanResult_fold t h a g l

section
variable (h : Hdr) (ty : Ty) (d a : RegNo) (s : State)

theorem exec_vRedAdd : exec (.vRedAdd h ty d a) s = withTeam (.vRedAdd h ty d a) s
    (laneRed (.vRedAdd h ty d a) h d a (ty == .f32) (sumCls ty) (redSum ty)) := rfl

theorem exec_vRedMin : exec (.vRedMin h ty d a) s = withTeam (.vRedMin h ty d a) s
    (laneRed (.vRedMin h ty d a) h d a false .sel fun _ _ => redMin ty) := rfl

theorem exec_vRedMax : exec (.vRedMax h ty d a) s = withTeam (.vRedMax h ty d a) s
    (laneRed (.vRedMax h ty d a) h d a false .sel fun _ _ => redMax ty) := rfl

theorem exec_vRedAnd : exec (.vRedAnd h d a) s = withTeam (.vRedAnd h d a) s
    (laneRed (.vRedAnd h d a) h d a false (.logic 4) fun _ _ => (· &&& ·)) := rfl

theorem exec_vRedOr : exec (.vRedOr h d a) s = withTeam (.vRedOr h d a) s
    (laneRed (.vRedOr h d a) h d a false (.logic 4) fun _ _ => (· ||| ·)) := rfl

theorem exec_vRedXor : exec (.vRedXor h d a) s = withTeam (.vRedXor h d a) s
    (laneRed (.vRedXor h d a) h d a false (.logic 1) fun _ _ => (· ^^^ ·)) := rfl

theorem exec_vScanAdd : exec (.vScanAdd h ty d a) s = withTeam (.vScanAdd h ty d a) s
    (laneScan (.vScanAdd h ty d a) h d a (ty == .f32) (sumCls ty) fun t l => redSum ty t (t.draw l 0)) := rfl

theorem exec_vScanMin : exec (.vScanMin h ty d a) s = withTeam (.vScanMin h ty d a) s
    (laneScan (.vScanMin h ty d a) h d a false .sel fun _ _ => redMin ty) := rfl

theorem exec_vScanMax : exec (.vScanMax h ty d a) s = withTeam (.vScanMax h ty d a) s
    (laneScan (.vScanMax h ty d a) h d a false .sel fun _ _ => redMax ty) := rfl

end

/-- The exclusive sum gives each lane the sum of the lanes before it, the first 0 (R179). -/
theorem vScanAddx_receives {s : State} {t : Team} {h : Hdr} {ty : Ty} {d a : RegNo} (hr : Runs s t (.vScanAddx h ty d a)) (hg : allGood t) :
    lanesReceive s t (.vScanAddx h ty d a) h d fun l => LRes.num 1 (((groupPeers t h l).filter (· < l)).map (laneVal t a 1)).sum := by
  have hgood : ∀ j, (((t.rRun a.toNat 1 j).head?).getD RWord.zero).good = true := fun j => hg a.toNat j
  refine lanesReceive.congr (laneWith_runs hr fun l _ => ?_) fun l _ => ?_
  · exact passing_append (passing_unpredicted _) (chainChecks_good _ _ hgood _ _ rfl)
  · rw [peers_eq_groupPeers]
    rfl

/-- R178, R179: the integer words, whatever the tree. -/
theorem integerReductions_complete : reductionsComplete := by
  intro s t i r h hr hg hG
  unfold reductionWords at h
  split at h
  case h_1 =>
    split at h <;> cases h
    next hty =>
      have hb := beq_false_of_ne (int_ne_f32 hty)
      exact (laneRed_folds (exec_vRedAdd ..) hr hg hb (redSum_int hty t) (aluAdd_assoc _) hG).congr fun l _ =>
        num_foldValue_aluAdd (int_width hty) _
  case h_2 =>
    split at h <;> cases h
    next hty => exact laneRed_folds (exec_vRedMin ..) hr hg rfl (by rw [redMin_int hty]) (aluMin_assoc _) hG
  case h_3 =>
    split at h <;> cases h
    next hty => exact laneRed_folds (exec_vRedMax ..) hr hg rfl (by rw [redMax_int hty]) (aluMax_assoc _) hG
  case h_4 => cases h; exact laneRed_folds (exec_vRedAnd ..) hr hg rfl rfl ⟨Nat.and_assoc⟩ hG
  case h_5 => cases h; exact laneRed_folds (exec_vRedOr ..) hr hg rfl rfl ⟨Nat.or_assoc⟩ hG
  case h_6 => cases h; exact laneRed_folds (exec_vRedXor ..) hr hg rfl rfl ⟨Nat.xor_assoc⟩ hG
  case h_7 =>
    split at h <;> cases h
    next hty =>
      have hb := beq_false_of_ne (int_ne_f32 hty)
      exact (laneScan_folds (exec_vScanAdd ..) hr hg hb (by rw [redSum_int hty])).congr fun l _ => num_foldValue_aluAdd (int_width hty) _
  case h_8 =>
    split at h <;> cases h
    next hty => exact laneScan_folds (exec_vScanMin ..) hr hg rfl (by rw [redMin_int hty])
  case h_9 =>
    split at h <;> cases h
    next hty => exact laneScan_folds (exec_vScanMax ..) hr hg rfl (by rw [redMax_int hty])
  case h_10 =>
    split at h <;> cases h
    exact vScanAddx_receives hr hg
  case h_11 => cases h

/-- R62, R63: the FP32 words, by the fixed tree and in ascending order. -/
theorem floatReductions_complete : floatReductionsComplete := by
  intro s t i r h hr hg
  unfold floatReductionWords at h
  split at h
  case h_7 => cases h
  all_goals
    split at h <;> cases h
    subst ‹_ = Ty.f32›
  case h_1 => exact laneRed_receives (exec_vRedAdd ..) hr hg rfl (redSum_f32 t)
  case h_2 => exact laneRed_receives (exec_vRedMin ..) hr hg rfl (by rw [redMin_f32])
  case h_3 => exact laneRed_receives (exec_vRedMax ..) hr hg rfl (by rw [redMax_f32])
  case h_4 => exact laneScan_receives (exec_vScanAdd ..) hr hg rfl (by rw [redSum_f32])
  case h_5 => exact laneScan_receives (exec_vScanMin ..) hr hg rfl (by rw [redMin_f32])
  case h_6 => exact laneScan_receives (exec_vScanMax ..) hr hg rfl (by rw [redMax_f32])

/-- Settles O7: the tree of an associative operation holds the fold of its places' values, and the FP32 words follow the fixed tree and the
ascending chain. -/
theorem allReductionsComplete : Obligations.AllReductionsComplete := by
  unfold Obligations.AllReductionsComplete
  exact ⟨integerReductions_complete, floatReductions_complete⟩

end Sys2Proof.Claims
end

section
/-! The encoding: the parts of a field, and the row of the decoder that takes the fields of each well-formed instruction (R67 to R78). -/

namespace Sys2Proof

/- One theorem after another: side by side, their threads would fill the memory. -/
set_option Elab.async false

/-! ### Fields made of parts -/

section

open BitVec

@[simp] theorem parts8_5_3 (x : BitVec 5) (y : BitVec 3) : (x ++ y : BitVec 8).extractLsb' 3 5 = x ∧ (x ++ y : BitVec 8).extractLsb' 0 3 = y :=
  ⟨extractLsb'_append_eq_left, extractLsb'_append_eq_right⟩

@[simp] theorem parts8_4_4 (x y : BitVec 4) : (x ++ y : BitVec 8).extractLsb' 4 4 = x ∧ (x ++ y : BitVec 8).extractLsb' 0 4 = y :=
  ⟨extractLsb'_append_eq_left, extractLsb'_append_eq_right⟩

@[simp] theorem parts8_6_2 (x : BitVec 6) (y : BitVec 2) : (x ++ y : BitVec 8).extractLsb' 2 6 = x ∧ (x ++ y : BitVec 8).extractLsb' 0 2 = y :=
  ⟨extractLsb'_append_eq_left, extractLsb'_append_eq_right⟩

@[simp] theorem parts8_1_7 (x : BitVec 1) (y : BitVec 7) : (x ++ y : BitVec 8).extractLsb' 7 1 = x ∧ (x ++ y : BitVec 8).extractLsb' 0 7 = y :=
  ⟨extractLsb'_append_eq_left, extractLsb'_append_eq_right⟩

/-- A field that holds an offset's last bit above the selector of a register (R72). -/
@[simp] theorem parts8_1_over_7 (x : BitVec 1) (y : BitVec 7) : (x ++ y : BitVec 8).extractLsb' 0 6 = y.extractLsb' 0 6 ∧
    (x ++ y : BitVec 8)[6] = y[6] ∧ (x ++ y : BitVec 8)[7] = x[0] := by
  revert x y; decide

@[simp] theorem parts7_3_4 (x : BitVec 3) (y : BitVec 4) : (x ++ y : BitVec 7).extractLsb' 4 3 = x ∧ (x ++ y : BitVec 7).extractLsb' 0 4 = y :=
  ⟨extractLsb'_append_eq_left, extractLsb'_append_eq_right⟩

@[simp] theorem parts7_2_5 (x : BitVec 2) (y : BitVec 5) : (x ++ y : BitVec 7).extractLsb' 5 2 = x ∧ (x ++ y : BitVec 7).extractLsb' 0 5 = y :=
  ⟨extractLsb'_append_eq_left, extractLsb'_append_eq_right⟩

@[simp] theorem parts7_1_6 (x : BitVec 1) (y : BitVec 6) : (x ++ y : BitVec 7)[6] = x[0] ∧ (x ++ y : BitVec 7).extractLsb' 0 6 = y := by
  revert x y; decide

@[simp] theorem parts7_3_1_3 (x : BitVec 3) (y : BitVec 1) (z : BitVec 3) : (x ++ y ++ z : BitVec 7).extractLsb' 4 3 = x ∧
    (x ++ y ++ z : BitVec 7)[3] = y[0] ∧ (x ++ y ++ z : BitVec 7).extractLsb' 0 3 = z := by
  revert x y z; decide

@[simp] theorem parts7_2_1_4 (x : BitVec 2) (y : BitVec 1) (z : BitVec 4) : (x ++ y ++ z : BitVec 7).extractLsb' 5 2 = x ∧
    (x ++ y ++ z : BitVec 7)[4] = y[0] ∧ (x ++ y ++ z : BitVec 7).extractLsb' 0 4 = z := by
  revert x y z; decide

@[simp] theorem parts7_1_2_3_1 (x : BitVec 1) (y : BitVec 2) (z : BitVec 3) (w : BitVec 1) : (x ++ y ++ z ++ w : BitVec 7).extractLsb' 6 1 = x ∧
    (x ++ y ++ z ++ w : BitVec 7).extractLsb' 4 2 = y ∧ (x ++ y ++ z ++ w : BitVec 7).extractLsb' 1 3 = z ∧
    (x ++ y ++ z ++ w : BitVec 7)[0] = w[0] := by
  revert x y z w; decide

/-- An F field with two flags. -/
@[simp] theorem flags2 (x : BitVec 5) (q r : BitVec 1) : let f : BitVec 7 := x ++ q ++ r
    f[6] = x[4] ∧ f[5] = x[3] ∧ f[4] = x[2] ∧ f[3] = x[1] ∧ f[2] = x[0] ∧ f[1] = q[0] ∧ f[0] = r[0] := by
  revert x q r; decide

/-- An F field with three flags. -/
@[simp] theorem flags3 (x : BitVec 4) (p q r : BitVec 1) : let f : BitVec 7 := x ++ p ++ q ++ r
    f[6] = x[3] ∧ f[5] = x[2] ∧ f[4] = x[1] ∧ f[3] = x[0] ∧ f[2] = p[0] ∧ f[1] = q[0] ∧ f[0] = r[0] := by
  revert x p q r; decide

/-- An F field with four flags. -/
@[simp] theorem flags4 (x : BitVec 3) (o p q r : BitVec 1) : let f : BitVec 7 := x ++ o ++ p ++ q ++ r
    f[6] = x[2] ∧ f[5] = x[1] ∧ f[4] = x[0] ∧ f[3] = o[0] ∧ f[2] = p[0] ∧ f[1] = q[0] ∧ f[0] = r[0] := by
  revert x o p q r; decide

@[simp] theorem join_8_8 (x : BitVec 16) : (x.extractLsb' 8 8 ++ x.extractLsb' 0 8 : BitVec 16) = x :=
  extractLsb'_append_extractLsb' (w := 8)

@[simp] theorem join_5_8 (x : BitVec 13) : (x.extractLsb' 8 5 ++ x.extractLsb' 0 8 : BitVec 13) = x :=
  extractLsb'_append_extractLsb' (w := 5)

@[simp] theorem join_4_8 (x : BitVec 12) : (x.extractLsb' 8 4 ++ x.extractLsb' 0 8 : BitVec 12) = x :=
  extractLsb'_append_extractLsb' (w := 4)

@[simp] theorem join_3_8 (x : BitVec 11) : (x.extractLsb' 8 3 ++ x.extractLsb' 0 8 : BitVec 11) = x :=
  extractLsb'_append_extractLsb' (w := 3)

/-- The signed offset of a transfer, which its word holds in three parts (R72). -/
@[simp] theorem join_4_8_1 (x : BitVec 13) : (x.extractLsb' 9 4 ++ x.extractLsb' 1 8 ++ x.extractLsb' 0 1 : BitVec 13) = x :=
  (congrArg (· ++ x.extractLsb' 0 1) (extractLsb'_append_extractLsb'_eq_extractLsb' rfl)).trans
    (extractLsb'_append_extractLsb' (w := 12))

end

@[simp] theorem Sel.ofCode_reg (n : BitVec 6) : Sel.ofCode (1#1 ++ n) = some (.reg n) := by
  revert n; decide

@[simp] theorem Sel.ofCode_zero : Sel.ofCode 0#7 = some (.p false 0) := rfl

/-! ### Rows of the decoder

`delta` opens `Instr.wf` at a constructor: `simp` would first state an equation for every constructor. -/

/-- The word stands in a range of opcodes of a pipe. -/
def Instr.rowIn (i : Instr) (p : Bool) (lo hi : Nat) : Bool :=
  (toFields i).any fun f => f.p == p && decide (lo ≤ f.op.toNat) && decide (f.op.toNat < hi)

/-- The decoder's rows give an instruction back from its fields. -/
def Instr.Decodes (i : Instr) : Prop := ∀ f, toFields i = some f → decodeFields f = some i

/-- Uniform opcodes 0x00 to 0x07 (R101). -/
theorem decodes_uniform_arithmetic {i : Instr} (hw : i.wf = true) (hr : i.rowIn true 0 8 = true) : i.Decodes := by
  intro f hf
  cases i with
  | sAdd h | sSub h | sMul h | sMulh h | sAnd h | sOr h | sXor h | sAndn h | sShl h | sShr h | sSra h | sMin h | sMax h | sLea h | sAddi h =>
    cases h
    cases hf
    delta Instr.wf at hw
    simp [Hdr.okUni, Hdr.okUniLong] at hw
    simp [decodeFields, decUniform, decUniform00, decUniform01, decUniform02, decUniform03, decUniform04, decUniform05, decUniform06, decUniform07,
      Fields.hdr, Ty.ofCode_code, hw]
  | _ => exact absurd hr Bool.false_ne_true

/-- Uniform opcodes 0x08 to 0x0F (R101 to R103). -/
theorem decodes_uniform_moves {i : Instr} (hw : i.wf = true) (hr : i.rowIn true 8 16 = true) : i.Decodes := by
  intro f hf
  cases i with
  | sAndi h | sOri h | sXori h | sShli h | sShri h | sSrai h | sMovi h | sMovhi h | sCmp h | sCmpi h | sSel h | sMov h | sVrd h | sVrdf h | sQand h
  | sQor h | sQxor h | sQany h | sQall h =>
    cases h
    cases hf
    delta Instr.wf at hw
    simp [Hdr.okUni, Hdr.okUniLong] at hw
    simp [decodeFields, decUniform, decUniform08, decUniform09, decUniform0A, decUniform0B, decUniform0C, decUniform0D, decUniform0E, decUniform0F,
      Fields.hdr, Ty.ofCode_code, Cc.ofCode_code, hw]
  | _ => exact absurd hr Bool.false_ne_true

/-- Uniform opcodes 0x10 to 0x15 (R104 to R107). -/
theorem decodes_transfers {i : Instr} (hw : i.wf = true) (hr : i.rowIn true 16 24 = true) : i.Decodes := by
  intro f hf
  cases i with
  | sJmp h | sBr h | sBrAll h | sBrAny h | sLoop h | sCall h | sJr h | sCallr h | sExit h | sNop h =>
    cases h
    cases hf
    delta Instr.wf at hw
    simp [Hdr.okUni, Hdr.okUniLong] at hw
    simp [decodeFields, decUniform, decUniform10, decUniform11, decUniform12, decUniform14, decUniform15, Fields.hdr, Sel.ofCode_code, hw]
  | sBtab h _ _ ts | sBtabc h _ _ ts =>
    cases h
    cases hf
    delta Instr.wf at hw
    simp [Hdr.okUni, Hdr.okUniLong] at hw
    have hn : ts.length = (ts.length - 1) % 256 + 1 := by
      have := List.length_pos_iff.mpr hw.1.1.2
      omega
    simp [decodeFields, decUniform, decUniform13, Fields.hdr, ← hn, hw]
  | _ => exact absurd hr Bool.false_ne_true

/-- Uniform opcodes 0x18 to 0x1E (R113 to R125). -/
theorem decodes_synchronization {i : Instr} (hw : i.wf = true) (hr : i.rowIn true 24 32 = true) : i.Decodes := by
  intro f hf
  cases i with
  | sBarSync h | sBarArr h | sBarWait h | sSleepu h | sWait h | sPoll h | sWaitall h | sFenceAcq h | sFenceRel h | sFenceAcqrel h | sFenceSc h | sFmt h
  | sCsrr h | sCsrw h | sCsrs h | sCsrc h | sSeed h | sSeedmix h =>
    cases h
    cases hf
    delta Instr.wf at hw
    simp [Hdr.okUni, Hdr.okUniLong] at hw
    simp [decodeFields, decUniform, decUniform18, decUniform19, decUniform1A, decUniform1B, decUniform1C, decUniform1D, decUniform1E, Fields.hdr, hw]
  | _ => exact absurd hr Bool.false_ne_true

/-- Uniform opcodes 0x20 to 0x2F (R298, R335, R318). -/
theorem decodes_matrix_sampling_copy {i : Instr} (hw : i.wf = true) (hr : i.rowIn true 32 48 = true) : i.Decodes := by
  intro f hf
  cases i with
  | mxGang h | mxFree h | mxMma h | mxZero h | mxLd h | mxSt h | saOpen h | saClose h | saNorm h | saBuild h | saDraw h | saFin h | saStat h | cpCopy h
  | cpMcast h | cpOff h | cpRet h | cpProm h | cpRenew h | cpCncl h =>
    cases h
    cases hf
    delta Instr.wf at hw
    simp [Hdr.okUni, Hdr.okUniLong] at hw
    simp [decodeFields, decUniform, decUniform20, decUniform22, decUniform23, decUniform24, decUniform25, decUniform28, decUniform29, decUniform2A,
      decUniform2B, decUniform2C, decUniform2D, decUniform2E, decUniform2F, Fields.hdr, Ty.ofCode_code, hw]
  | _ => exact absurd hr Bool.false_ne_true

/-- Uniform opcodes 0x30 to 0x3E. -/
theorem decodes_page_collective_system {i : Instr} (hw : i.wf = true) (hr : i.rowIn true 48 64 = true) : i.Decodes := by
  intro f hf
  cases i with
  | sCfetch h | sCfetchReload h | sCstat h | sJmpf h | sCfence h | sTrap h | sBrk h | sRth h | pgReq h | pgProbe h | pgShoot h | pgMig h | pgCnt h
  | clRun h | clCncl h | clInfo h | clProg h | clAbort h | dpLaunch h | dpQstat h | dpTadd h | dpTdrop h | dpTdepth h | dpLsovf h | dpLsstep h
  | tkPrice h | tkWait h | tkDbal h | tkIntent h | tkIcncl h =>
    cases h
    cases hf
    delta Instr.wf at hw
    simp [Hdr.okUni, Hdr.okUniLong] at hw
    simp [decodeFields, decUniform, decUniform30, decUniform31, decUniform32, decUniform33, decUniform34, decUniform35, decUniform36, decUniform37,
      decUniform38, decUniform39, decUniform3A, decUniform3B, decUniform3C, decUniform3D, decUniform3E, Fields.hdr, hw]
  | _ => exact absurd hr Bool.false_ne_true

/-- Lane opcodes 0x00 to 0x07 (R155, R156). -/
theorem decodes_lane_arithmetic {i : Instr} (hw : i.wf = true) (hr : i.rowIn false 0 8 = true) : i.Decodes := by
  intro f hf
  cases i with
  | vAdd h | vAdds h | vSub h | vSubs h | vMul h | vMulh h | vMulw h | vMad h | vMadh h | vMadw h | vDot4 h | vDot4s h | vAnd h | vOr h | vXor h
  | vAndn h | vShl h | vShr h | vSra h | vRotl h | vRotr h | vAddi h | vAddis h | vAndi h | vOri h | vXori h | vShli h | vShri h | vSrai h | vRotli h
  | vMin h | vMax h =>
    cases h
    cases hf
    delta Instr.wf at hw
    simp [Hdr.okLane] at hw
    simp [decodeFields, decLane, decLane00, decLane01, decLane02, decLane03, decLane04, decLane05, decLane06, decLane07, Fields.hdr, Ty.ofCode_code, hw]
  | _ => exact absurd hr Bool.false_ne_true

/-- Lane opcodes 0x08 to 0x13 (R156 to R160). -/
theorem decodes_lane_moves {i : Instr} (hw : i.wf = true) (hr : i.rowIn false 8 20 = true) : i.Decodes := by
  intro f hf
  cases i with
  | vFshl h | vFshr h | vBfx h | vBfi h | vPopc h | vClz h | vCtz h | vBrev h | vPerm h | vPerms h | vCmp h | vCmpi h | vSel h | vMov h | vLid h
  | vGlid h | vMovi h | vMovhi h | vCvt h | vLea h | vPand h | vPor h | vPxor h | vPandn h | vPq h =>
    cases h
    cases hf
    delta Instr.wf at hw
    simp [Hdr.okLane] at hw
    simp [decodeFields, decLane, decLane08, decLane09, decLane0A, decLane0B, decLane0C, decLane0D, decLane0E, decLane0F, decLane10, decLane11, decLane12,
      decLane13, Fields.hdr, Ty.ofCode_code, Cc.ofCode_code, hw]
  | _ => exact absurd hr Bool.false_ne_true

/-- Lane opcodes 0x14 to 0x20 (R163 to R174). -/
theorem decodes_lane_float {i : Instr} (hw : i.wf = true) (hr : i.rowIn false 20 34 = true) : i.Decodes := by
  intro f hf
  cases i with
  | vFadd h | vFsub h | vFmul h | vFma h | vFms h | vFnma h | vFnms h | vFmin h | vFmax h | vFneg h | vFabs h | vFcsgn h | vFcmp h | vFclass h | vFcvt h
  | vFcvtPk h | vFtoi h | vItof h | vFscl h | vFqnt h | vFrcp h | vFsqrt h | vFrsq h | vFexp2 h | vFlog2 h | vFrr h | vFrrTurn h | vFsin h | vFcos h
  | vFsincos h | vFdot2 h =>
    cases h
    cases hf
    delta Instr.wf at hw
    simp [Hdr.okLane] at hw
    simp [decodeFields, decLane, decLane14, decLane15, decLane16, decLane17, decLane18, decLane19, decLane1A, decLane1B, decLane1C, decLane1D, decLane1E,
      decLane1F, decLane20, Fields.hdr, Ty.ofCode_code, Fcc.ofCode_code, hw]
  | _ => exact absurd hr Bool.false_ne_true

/-- Lane opcodes 0x22 to 0x28 (R175 to R181). -/
theorem decodes_cross_lane {i : Instr} (hw : i.wf = true) (hr : i.rowIn false 34 44 = true) : i.Decodes := by
  intro f hf
  cases i with
  | vShfl h | vShup h | vShdn h | vXswz h | vBcast h | vBcastf h | vMatch h | vVoteAny h | vVoteAll h | vBallot h | vRedAdd h | vRedMin h | vRedMax h
  | vRedAnd h | vRedOr h | vRedXor h | vScanAdd h | vScanMin h | vScanMax h | vScanAddx h | vKgen h =>
    cases h
    cases hf
    delta Instr.wf at hw
    simp [Hdr.okLane] at hw
    simp [decodeFields, decLane, decLane22, decLane23, decLane24, decLane25, decLane26, decLane27, decLane28, Fields.hdr, Ty.ofCode_code, hw]
  | _ => exact absurd hr Bool.false_ne_true

/-- Lane opcodes 0x2C to 0x37 (R205, R206, R262 to R273). -/
theorem decodes_memory_and_checks {i : Instr} (hw : i.wf = true) (hr : i.rowIn false 44 64 = true) : i.Decodes := by
  intro f hf
  cases i with
  | vLd h | vSt h | vLdr h | vPf h | vAtom h | vAtomn h | vCas h | ckRes h | ckVfy h | ckInjr h | ckMcrd h | ckEcnt h | ckInjmGCe h | ckInjmGUe h
  | ckInjmVtCe h | ckInjmVtUe h =>
    cases h
    cases hf
    delta Instr.wf at hw
    simp [Hdr.okLane] at hw
    simp [decodeFields, decLane, decLane2C, decLane2D, decLane2E, decLane2F, decLane30, decLane31, decLane32, decLane36, decLane37, Fields.hdr,
      Ty.ofCode_code, MemF.ofCode_code, AtomOp.ofCode_code, hw]
  | _ => exact absurd hr Bool.false_ne_true

/-- The decoder's rows give every well-formed instruction back. -/
theorem decodeFields_toFields {i : Instr} {f : Fields} (hw : i.wf = true) (hf : toFields i = some f) : decodeFields f = some i := by
  have hrow : ∀ lo hi, lo ≤ f.op.toNat → f.op.toNat < hi → i.rowIn f.p lo hi = true := fun lo hi h1 h2 => by
    simp [Instr.rowIn, hf, h1, h2]
  have hop : f.op.toNat < 64 := f.op.isLt
  suffices h : i.Decodes from h f hf
  cases hp : f.p with
  | true =>
    rw [hp] at hrow
    obtain h | h := Nat.lt_or_ge f.op.toNat 8
    · exact decodes_uniform_arithmetic hw (hrow _ _ (Nat.zero_le _) h)
    obtain h' | h := Nat.lt_or_ge f.op.toNat 16
    · exact decodes_uniform_moves hw (hrow _ _ h h')
    obtain h' | h := Nat.lt_or_ge f.op.toNat 24
    · exact decodes_transfers hw (hrow _ _ h h')
    obtain h' | h := Nat.lt_or_ge f.op.toNat 32
    · exact decodes_synchronization hw (hrow _ _ h h')
    obtain h' | h := Nat.lt_or_ge f.op.toNat 48
    · exact decodes_matrix_sampling_copy hw (hrow _ _ h h')
    · exact decodes_page_collective_system hw (hrow _ _ h hop)
  | false =>
    rw [hp] at hrow
    obtain h | h := Nat.lt_or_ge f.op.toNat 8
    · exact decodes_lane_arithmetic hw (hrow _ _ (Nat.zero_le _) h)
    obtain h' | h := Nat.lt_or_ge f.op.toNat 20
    · exact decodes_lane_moves hw (hrow _ _ h h')
    obtain h' | h := Nat.lt_or_ge f.op.toNat 34
    · exact decodes_lane_float hw (hrow _ _ h h')
    obtain h' | h := Nat.lt_or_ge f.op.toNat 44
    · exact decodes_cross_lane hw (hrow _ _ h h')
    · exact decodes_memory_and_checks hw (hrow _ _ h hop)

end Sys2Proof
end

section
/-! Decode of encode: the parts of a base word and of an extension word, the target list, and the round trip (R67 to R78). -/

namespace Sys2Proof

/- One theorem after another: side by side, their threads would fill the memory. -/
set_option Elab.async false

/-- The fields hold the targets of their base word's table, as many as its A field says (R73). -/
def Fields.TableFits (f : Fields) : Prop :=
  f.targets.length = if f.p && f.op == 0x13#6 then f.a.toNat + 1 else 0

/-- Fields without an extension word are those that X = 0 stands for (R77). -/
def Fields.ShortFits (f : Fields) : Prop :=
  f.x = false → shortForm f.p f.op = some f.ty ∧ f.g = 0 ∧ f.gn = false ∧ f.la = 0 ∧ f.f = 0 ∧ f.c = 0 ∧ f.ty2 = 0 ∧ f.targets = []

theorem toFields_tableFits {i : Instr} {f : Fields} (hw : i.wf = true) (hf : toFields i = some f) : f.TableFits := by
  cases i with
  | sBtab h _ _ ts | sBtabc h _ _ ts =>
    cases hf
    obtain ⟨hne, hle⟩ : ts ≠ [] ∧ ts.length ≤ 256 := by
      delta Instr.wf at hw
      simp at hw
      exact ⟨hw.1.1.2, hw.1.2⟩
    have hpos := List.length_pos_iff.mpr hne
    simp [Fields.TableFits]
    omega
  | _ => cases hf <;> rfl

theorem toFields_shortFits {i : Instr} {f : Fields} (hw : i.wf = true) (hf : toFields i = some f) : f.ShortFits := by
  intro hx
  cases i
  all_goals cases hf
  all_goals
    change Hdr.x _ = false at hx
    delta Instr.wf at hw
    simp [Hdr.ok, Hdr.okUni, Hdr.okLane, Hdr.okUniLong, hx] at hw <;>
      simp [hw, shortForm, Ty.code, Cc.code, Fcc.code]

/-! ### Words -/

theorem Fields.base_parts (f : Fields) : f.base.getLsbD 31 = f.p ∧ f.base.getLsbD 30 = f.x ∧ f.base.extractLsb' 24 6 = f.op ∧
    f.base.extractLsb' 16 8 = f.d ∧ f.base.extractLsb' 8 8 = f.a ∧ f.base.extractLsb' 0 8 = f.b := by
  unfold Fields.base
  grind

theorem Fields.ext_parts (f : Fields) : f.ext.extractLsb' 28 4 = f.g ∧ f.ext.getLsbD 27 = f.gn ∧ f.ext.extractLsb' 23 4 = f.la ∧
    f.ext.extractLsb' 16 7 = f.f ∧ f.ext.extractLsb' 8 8 = f.c ∧ f.ext.extractLsb' 4 4 = f.ty2 ∧ f.ext.extractLsb' 0 4 = f.ty := by
  unfold Fields.ext
  grind

theorem Fields.ofExt_base_ext {f : Fields} (hx : f.x = true) : Fields.ofExt f.base f.ext f.targets = f := by
  cases f
  cases hx
  simp only [Fields.ofExt, Fields.base_parts, Fields.ext_parts]

theorem Fields.ofShort_base {f : Fields} (hx : f.x = false) (hs : f.ShortFits) : Fields.ofShort f.base f.ty = f := by
  obtain ⟨-, hg, hgn, hla, hff, hc, hty2, hts⟩ := hs hx
  cases f
  cases hx; cases hg; cases hgn; cases hla; cases hff; cases hc; cases hty2; cases hts
  simp only [Fields.ofShort, Fields.base_parts]
  rfl

theorem isTableWord_base (f : Fields) : isTableWord f.base = (f.p && f.op == 0x13#6) := by
  simp only [isTableWord, f.base_parts]

/-! ### Target lists -/

theorem unpackTargets_packTargets (ts : List (BitVec 16)) (rest : List Word) :
    unpackTargets ts.length (packTargets ts ++ rest) = some ts := by
  induction ts using packTargets.induct with
  | case1 => rfl
  | case2 a => exact congrArg (some [·]) (BitVec.extractLsb'_append_eq_right (a := 0#16))
  | case3 a b ts ih =>
    have hlo : (b ++ a : BitVec 32).extractLsb' 0 16 = a := BitVec.extractLsb'_append_eq_right
    have hhi : (b ++ a : BitVec 32).extractLsb' 16 16 = b := BitVec.extractLsb'_append_eq_left
    simp [packTargets, unpackTargets, ih, hlo, hhi]

@[simp] theorem length_packTargets (ts : List (BitVec 16)) : (packTargets ts).length = (ts.length + 1) / 2 := by
  induction ts using packTargets.induct with
  | case1 => rfl
  | case2 a => simp [packTargets]
  | case3 a b ts ih =>
    simp only [packTargets, List.length_cons, ih]
    omega

/-! ### The round trip -/

theorem decode_short {f : Fields} {i : Instr} (hx : f.x = false) (hs : f.ShortFits) (hi : decodeFields f = some i) (rest : List Word) :
    decode (f.base :: rest) = some (i, rest) := by
  obtain ⟨hty, -⟩ := hs hx
  simp only [decode, f.base_parts, hx, hty, Fields.ofShort_base hx hs, hi, Bool.false_eq_true, if_false]

theorem decode_long {f : Fields} {i : Instr} (hx : f.x = true) (ht : f.TableFits) (hi : decodeFields f = some i) (rest : List Word) :
    decode (f.base :: f.ext :: (packTargets f.targets ++ rest)) = some (i, rest) := by
  have hn : (if isTableWord f.base = true then f.a.toNat + 1 else 0) = f.targets.length := by rw [isTableWord_base, ht]
  have hdrop : (packTargets f.targets ++ rest).drop ((f.targets.length + 1) / 2) = rest :=
    List.drop_left' (length_packTargets _)
  simp only [decode, f.base_parts, hx, hn, unpackTargets_packTargets, Fields.ofExt_base_ext hx, hi, hdrop, if_true]

theorem toFields_isSome_of_wf {i : Instr} (hw : i.wf = true) : ∃ f, toFields i = some f := by
  cases hf : toFields i with
  | some f => exact ⟨f, rfl⟩
  | none =>
    cases i
    all_goals cases hf
    all_goals cases hw

theorem decode_encode {i : Instr} (hw : i.wf = true) (rest : List Word) : decode (encode i ++ rest) = some (i, rest) := by
  obtain ⟨f, hf⟩ := toFields_isSome_of_wf hw
  have hi := decodeFields_toFields hw hf
  simp only [encode, hf]
  cases hx : f.x with
  | false =>
    have hs := toFields_shortFits hw hf
    obtain ⟨-, -, -, -, -, -, -, hts⟩ := hs hx
    simpa [hts, packTargets] using decode_short hx hs hi rest
  | true => simpa using decode_long hx (toFields_tableFits hw hf) hi rest

theorem length_encode (i : Instr) : (encode i).length = i.length := by
  unfold encode Instr.length
  cases toFields i with
  | none => rfl
  | some f =>
    cases hx : f.x <;> simp [hx] <;> omega

end Sys2Proof
end

section
/-! The obligation of decode and encode. -/

namespace Sys2Proof.Claims

open Sys2Proof

/-- Settles O54: the parts of each word are the fields that made it, the rows of the decoder give the instruction back from its fields,
and the target list unpacks from its words. -/
theorem decodeOfEncode : Obligations.DecodeOfEncode := by
  unfold Obligations.DecodeOfEncode
  intro i rest hw
  exact ⟨decode_encode hw rest, length_encode i⟩

end Sys2Proof.Claims
end

section
/-! A step of a chosen team, and of none: the words that it fetches, and what issue makes of each answer (R69, R70, R395). -/

namespace Sys2Proof.Machine

open Sys2Proof

theorem State.slot_landed {s : State} {t : Team} {n k : Nat} {sl : CodeSlot} (h2 : s.segStatus t n = 2)
    (hslot : (s.core t.home).slotFor t.asid (t.segAddr n) = some (k, sl)) : sl.st = .landed := by
  have hhome : s.segOn t t.home n ≥ 2 := by
    unfold State.segStatus Team.cores at h2
    split at h2
    · omega
    · split at h2
      all_goals
        simp only [List.map_cons, List.map_nil, List.foldl_cons, List.foldl_nil] at h2
        omega
  unfold State.segOn at hhome
  rw [hslot] at hhome
  by_contra hst
  simp only [hst, if_false] at hhome
  split at hhome <;> omega

theorem State.fetch_of_wordsAt {s : State} {t : Team} {ws : List Word} (h : Claims.wordsAt s t ws) : s.fetch t = .words ws := by
  obtain ⟨hbuf, h2, n, sl, hslot, hws⟩ := h
  simp only [State.fetch, hbuf, State.slotFetch, h2, State.slotRun, hslot, State.slot_landed h2 hslot, if_true, hws]
  rfl

/-! ### What issue makes of an instruction -/

section
variable {ex : Instr → State → Out State} {s u w : State} {t : Team} {i : Instr}

theorem State.issue_unpaid (h : s.stopsUnpaid t i = true) (hu : ex i { s.issued t with cur := some t.uid } = .next u) :
    s.issue ex t i = .next u.idle := by
  simp only [State.issue, h, if_true, hu]

theorem State.issue_pays (h : s.stopsUnpaid t i = false) (hp : s.afford t i = .pays)
    (hu : ex i { (s.payFor t i).issued t with cur := some t.uid } = .next u) (hg : progressed t u = true) :
    s.issue ex t i = .next u.idle := by
  simp only [State.issue, h, hp, hu, hg, if_true, Bool.false_eq_true, if_false]

theorem State.issue_retries (h : s.stopsUnpaid t i = false) (hp : s.afford t i = .pays)
    (hu : ex i { (s.payFor t i).issued t with cur := some t.uid } = .next u) (hg : progressed t u = false)
    (hw : ex i { s with cur := some t.uid } = .next w) : s.issue ex t i = .next (w.retryLater t.uid) := by
  simp only [State.issue, h, hp, hu, hg, hw, Bool.false_eq_true, if_false]

theorem State.issue_overflow (h : s.stopsUnpaid t i = false) (hp : s.afford t i = .overflow) :
    s.issue ex t i = .next (s.takeStop t.uid i.length (Stop.of .tokenDebtOvf)) := by
  simp only [State.issue, h, hp, Bool.false_eq_true, if_false]

theorem State.issue_held (h : s.stopsUnpaid t i = false) (hp : s.afford t i = .held) :
    s.issue ex t i = .next (s.retryLater t.uid) := by
  simp only [State.issue, h, hp, Bool.false_eq_true, if_false]

end

/-! ### Words that decode to nothing -/

theorem decode_eq_none_of_head {ws : List Word} (h : ws.head? = some 0x3F000000 ∨ ws.head? = some 0xFFFFFFFF) : decode ws = none := by
  match ws, h with
  | [], _ => rfl
  | w :: ws, .inl h =>
    cases h
    rfl
  | [w], .inr h =>
    cases h
    rfl
  | w :: e :: more, .inr h =>
    cases h
    rfl

/-! ### The step -/

theorem step_of_team {s : State} {uid : Nat} {rest : List Nat} (hp : s.pick = uid :: rest) :
    step s = State.runTeam exec uid { s with pick := rest } := by
  simp only [step, State.advanceBy, hp]

theorem step_of_word {s : State} {uid : Nat} {rest : List Nat} {t : Team} {ws more : List Word} {i : Instr} (hp : s.pick = uid :: rest)
    (ht : s.team? uid = some t) (hws : Claims.wordsAt { s with pick := rest } t ws) (hd : decode ws = some (i, more)) :
    step s = State.issue exec { s with pick := rest } t i := by
  have ht' : State.team? { s with pick := rest } uid = some t := ht
  simp only [step_of_team hp, State.runTeam, ht', State.fetch_of_wordsAt hws, hd]

theorem step_of_no_word {s : State} {uid : Nat} {rest : List Nat} {t : Team} {ws : List Word} (hp : s.pick = uid :: rest)
    (ht : s.team? uid = some t) (hws : Claims.wordsAt { s with pick := rest } t ws) (hd : decode ws = none) :
    step s = .next (State.takeStop { s with pick := rest } uid 0 (Stop.of .illegal)) := by
  have ht' : State.team? { s with pick := rest } uid = some t := ht
  simp only [step_of_team hp, State.runTeam, ht', State.fetch_of_wordsAt hws, hd]

theorem step_of_input {s u : State} {i : Instr} {rest : List Instr} (hp : s.pick = []) (hi : s.nextInput = some (i, rest))
    (hu : exec i { s with inputs := rest } = .next u) :
    step s = .next { u with inputs := if (s.inputHeld i).isSome then i :: u.inputs else u.inputs } := by
  have hs : { s with inputs := rest } = { s with inputs := rest, pick := [] } := by rw [← hp]
  rw [hs] at hu
  simp only [step, State.advanceBy, hp, hi, hu]

theorem step_of_no_input {s : State} (hp : s.pick = []) (hi : s.nextInput = none) : step s = .next s.coreCycle := by
  simp only [step, State.advanceBy, hp, hi]

end Sys2Proof.Machine
end

section
/-! The obligations of the example words and of what a step runs. -/

namespace Sys2Proof.Claims

open Sys2Proof Sys2Proof.Machine

/-- Settles O53: the decoder computes on each of the words. -/
theorem exampleWordsDecode : Obligations.ExampleWordsDecode := by
  unfold Obligations.ExampleWordsDecode exampleWords
  simp only [List.forall_mem_cons, List.not_mem_nil, false_implies, implies_true, and_true]
  refine ⟨?_, ?_, ?_, ?_, ?_, ?_, ?_, ?_, ?_, ?_, ?_, ?_, ?_, ?_, ?_, ?_⟩
  all_goals rfl

theorem stopsUnpaid_of {s : State} {t : Team} {i : Instr} (h : Instr.legal t t.pc i = false ∨ (Instr.isPriv i = true ∧ t.privileged = false) ∨
    s.jumpMisses t i = true) : s.stopsUnpaid t i = true := by
  obtain h | ⟨h, h'⟩ | h := h
  · simp [State.stopsUnpaid, Team.refuses, h]
  · simp [State.stopsUnpaid, Team.refuses, h, h']
  · simp [State.stopsUnpaid, h]

theorem not_stopsUnpaid_of {s : State} {t : Team} {i : Instr} (hl : Instr.legal t t.pc i = true)
    (hp : Instr.isPriv i = true → t.privileged = true) (hj : s.jumpMisses t i = false) : s.stopsUnpaid t i = false := by
  cases h : Instr.isPriv i
  · simp [State.stopsUnpaid, Team.refuses, hl, hj, h]
  · simp [State.stopsUnpaid, Team.refuses, hl, hj, hp h]

/-- Settles O55: the step of a chosen team is issue of what its fetched words decode to; each clause is one answer of issue. -/
theorem stepRunsTheDecodedInstruction : Obligations.StepRunsTheDecodedInstruction := by
  unfold Obligations.StepRunsTheDecodedInstruction
  intro s
  refine ⟨fun uid rest t ws hpick ht hws => ?_, fun hpick => ⟨fun i rest u hi hu => ⟨fun hh => ?_, fun hh => ?_⟩, step_of_no_input hpick⟩⟩
  · obtain rfl : t.uid = uid := State.team?_uid ht
    refine ⟨fun i more hd => ?_, step_of_no_word hpick ht hws, decode_eq_none_of_head⟩
    rw [step_of_word hpick ht hws hd]
    refine ⟨fun hstop u hu => State.issue_unpaid (stopsUnpaid_of hstop) hu, fun hl hp hj => ?_⟩
    have hgo := not_stopsUnpaid_of hl hp hj
    exact ⟨fun hpay u hu => ⟨State.issue_pays hgo hpay hu, fun hg w hw => State.issue_retries hgo hpay hu hg hw⟩,
      State.issue_overflow hgo, State.issue_held hgo⟩
  · rw [step_of_input hpick hi hu, hh]
    rfl
  · rw [step_of_input hpick hi hu, if_pos (Option.isSome_iff_ne_none.mpr hh)]

end Sys2Proof.Claims
end

section
/-! No step refuses or faults: the meaning of every word for a team that is there, of every input, and that an input is never a word. -/

namespace Sys2Proof.Machine

open Sys2Proof

/- One theorem after another: side by side, their threads would fill the memory. -/
set_option Elab.async false

/-! ### Words and events -/

/-- A word runs for the issuing team. -/
theorem exec_word {i : Instr} (h : (Instr.info i).isSome = true) (s : State) : ∃ k, exec i s = withTeam i s k := by
  cases i
  all_goals cases h
  all_goals exact ⟨_, rfl⟩

theorem execRegisterWrite_goesOn (m off : Nat) (v : DWord) (s : State) : ∃ s', execRegisterWrite m off v s = .next s' := by
  unfold execRegisterWrite
  split_ifs
  · exact ⟨_, rfl⟩
  · exact ⟨_, rfl⟩
  · exact ⟨_, rfl⟩

theorem execHostWindowAccess_goesOn (write : Bool) (off n : Nat) (bytes : List Byte) (s : State) :
    ∃ s', execHostWindowAccess write off n bytes s = .next s' := by
  unfold execHostWindowAccess
  extract_lets w c va master
  split
  · split
    · exact ⟨_, rfl⟩
    · split
      · exact ⟨_, rfl⟩
      · split
        · exact execRegisterWrite_goesOn ..
        · exact ⟨_, rfl⟩
  · split
    · exact ⟨_, rfl⟩
    · exact ⟨_, rfl⟩

theorem execRampStep_goesOn (s : State) : ∃ s', execRampStep s = .next s' := by
  unfold execRampStep
  split_ifs
  · exact ⟨_, rfl⟩
  · exact ⟨_, rfl⟩

/-- An event goes on in every state. -/
theorem exec_event {i : Instr} (h : Instr.info i = none) (s : State) : ∃ s', exec i s = .next s' := by
  cases i with
  | registerWrite m off v => exact execRegisterWrite_goesOn m off v s
  | hostWindowAccess write off n bytes => exact execHostWindowAccess_goesOn write off n bytes s
  | rampStep => exact execRampStep_goesOn s
  | _ => cases h <;> exact ⟨_, rfl⟩

/-- A word or an event goes on for a team that is there. -/
theorem exec_goesOn (i : Instr) {s : State} {uid : Nat} (hc : s.cur = some uid) (ht : (s.team? uid).isSome = true) :
    ∃ s', exec i s = .next s' := by
  cases hi : Instr.info i with
  | none => exact exec_event hi s
  | some n =>
    obtain ⟨k, hk⟩ := exec_word (i := i) (by rw [hi]; rfl) s
    obtain ⟨t, ht⟩ := Option.isSome_iff_exists.mp ht
    simp only [hk, withTeam, hc, ht]
    exact ⟨_, rfl⟩

/-! ### The team is there when its instruction runs -/

/-- A team put back takes nobody away and adds nobody. -/
theorem State.isSome_team?_putTeam (s : State) (t : Team) (uid : Nat) : ((s.putTeam t).team? uid).isSome = (s.team? uid).isSome := by
  have h := find_map_uid (fun u => if u.uid == t.uid then t else u) (fun u => by split <;> simp_all) uid s.teams
  exact (congrArg Option.isSome h).trans Option.isSome_map

theorem State.isSome_team?_debit (s : State) (who core p uid : Nat) : ((s.debit who core p).team? uid).isSome = (s.team? uid).isSome := by
  unfold State.debit
  split
  · rfl
  · split
    · extract_lets c s'
      split
      · rfl
      · exact State.isSome_team?_putTeam s' _ uid
    · rfl

theorem State.isSome_team?_payFor (s : State) (t : Team) (i : Instr) (uid : Nat) :
    ((s.payFor t i).team? uid).isSome = (s.team? uid).isSome :=
  foldl_keeps (fun s : State => (s.team? uid).isSome) (fun s _ => s.isSome_team?_debit ..) _ s

theorem State.isSome_team?_issued (s : State) (t : Team) (uid : Nat) : ((s.issued t).team? uid).isSome = (s.team? uid).isSome := by
  have h := find_map_uid (fun u => if u.uid == t.uid then { u with readyAt := none, heldHome := 0, heldOdd := 0 } else u)
    (fun u => by split <;> rfl) uid (s.passReservation t).teams
  exact (congrArg Option.isSome h).trans (Option.isSome_map.trans (by rw [Claims.passReservation_teams]; rfl))

theorem issue_goesOn {s : State} {t : Team} (i : Instr) (ht : (s.team? t.uid).isSome = true) : ∃ s', s.issue exec t i = .next s' := by
  have hissued : ∀ z : State, (z.team? t.uid).isSome = true → ∃ u, exec i { z.issued t with cur := some t.uid } = .next u := fun z hz =>
    exec_goesOn i rfl ((z.isSome_team?_issued t t.uid).trans hz)
  cases hstop : s.stopsUnpaid t i with
  | true =>
    obtain ⟨u, hu⟩ := hissued s ht
    exact ⟨_, State.issue_unpaid hstop hu⟩
  | false =>
    cases hp : s.afford t i with
    | held => exact ⟨_, State.issue_held hstop hp⟩
    | overflow => exact ⟨_, State.issue_overflow hstop hp⟩
    | pays =>
      obtain ⟨u, hu⟩ := hissued _ ((s.isSome_team?_payFor t i t.uid).trans ht)
      obtain ⟨w, hw⟩ := exec_goesOn i (s := { s with cur := some t.uid }) rfl ht
      cases hg : progressed t u with
      | true => exact ⟨_, State.issue_pays hstop hp hu hg⟩
      | false => exact ⟨_, State.issue_retries hstop hp hu hg hw⟩

theorem runTeam_goesOn (s : State) (uid : Nat) : ∃ s', s.runTeam exec uid = .next s' := by
  unfold State.runTeam
  split
  · exact ⟨_, rfl⟩
  · next t ht =>
    split
    · exact ⟨_, rfl⟩
    · exact ⟨_, rfl⟩
    · split
      · exact ⟨_, rfl⟩
      · next i _ _ =>
        obtain rfl := State.team?_uid ht
        exact issue_goesOn i (by rw [ht]; rfl)

/-! ### An input is never a word -/

theorem Instr.info_of_claims {i : Instr} (h : (Instr.claims i).isSome = true) : Instr.info i = none := by
  unfold Instr.claims at h
  split at h
  · rfl
  · rfl
  · rfl
  · cases h

theorem Instr.info_of_fabricPeer {i : Instr} (h : (Instr.fabricPeer i).isSome = true) : Instr.info i = none := by
  unfold Instr.fabricPeer at h
  split at h
  · rfl
  · cases h

theorem findPlace_spec {α : Type} {p : α → Bool} : ∀ {l : List α}, (∃ x ∈ l, p x = true) →
    ∃ k y, findPlace p l = some (k, y) ∧ l[k]? = some y ∧ p y = true
  | [], h => by simp at h
  | x :: xs, h => by
    cases hx : p x with
    | true => exact ⟨0, x, by simp [findPlace, hx], rfl, hx⟩
    | false =>
      obtain ⟨k, y, hk, hy, hp⟩ := findPlace_spec (p := p) (l := xs) (by simpa [hx] using h)
      exact ⟨k + 1, y, by simp [findPlace, hx, hk], hy, hp⟩

/-- A fold that keeps one of the elements that it meets ends with one of them. -/
theorem foldl_keeps_one {α : Type} {g : Option α → α → Option α} (hg : ∀ y x, g (some y) x = some y ∨ g (some y) x = some x) :
    ∀ (l : List α) (m : α), ∃ y ∈ m :: l, l.foldl g (some m) = some y
  | [], m => ⟨m, List.mem_cons_self, rfl⟩
  | x :: l, m => by
    rcases hg m x with h | h
    · obtain ⟨y, hy, he⟩ := foldl_keeps_one hg l m
      exact ⟨y, by simp only [List.mem_cons] at hy ⊢; tauto, by rw [List.foldl_cons, h, he]⟩
    · obtain ⟨y, hy, he⟩ := foldl_keeps_one hg l x
      exact ⟨y, List.mem_cons_of_mem _ hy, by rw [List.foldl_cons, h, he]⟩

theorem foldl_min_mem {g : Option Nat → Nat → Option Nat} (h0 : ∀ x, g none x = some x) (hg : ∀ y x, g (some y) x = some (min x y))
    {l : List Nat} (hl : l ≠ []) : ∃ y ∈ l, l.foldl g none = some y := by
  cases l with
  | nil => exact absurd rfl hl
  | cons x l =>
    rw [List.foldl_cons, h0]
    refine foldl_keeps_one (fun y x => ?_) l x
    rw [hg]
    rcases Nat.le_total x y with h | h
    · exact .inr (by rw [Nat.min_eq_left h])
    · exact .inl (by rw [Nat.min_eq_right h])

/-- The place of the least of the inputs that are numbered holds one that is. -/
theorem leastPlace_spec {num : Instr → Option Nat} {l : List Instr} (h : ∃ i ∈ l, (num i).isSome = true) :
    ∃ i, l[leastPlace num l]? = some i ∧ (num i).isSome = true := by
  obtain ⟨j, hj, hjn⟩ := h
  obtain ⟨a, ha⟩ := Option.isSome_iff_exists.mp hjn
  have hmem : a ∈ l.filterMap num := List.mem_filterMap.mpr ⟨j, hj, ha⟩
  unfold leastPlace
  extract_lets m
  obtain ⟨x, hx, hm⟩ : ∃ x ∈ l.filterMap num, m = some x :=
    foldl_min_mem (fun _ => rfl) (fun _ _ => rfl) (List.ne_nil_of_mem hmem)
  obtain ⟨i, hi, hix⟩ := List.mem_filterMap.mp hx
  obtain ⟨k, y, hk, hy, hp⟩ := findPlace_spec (p := fun i => (num i).isSome && num i == m) ⟨i, hi, by simp [hix, hm]⟩
  rw [hk]
  exact ⟨y, hy, (Bool.and_eq_true_iff.mp hp).1⟩

theorem State.info_servedPlace {s : State} {n : Nat} {x i : Instr} (hx : s.inputs[n]? = some x) (hxi : Instr.info x = none)
    (hi : s.inputs[s.servedPlace n x]? = some i) : Instr.info i = none := by
  unfold State.servedPlace at hi
  have hmem : x ∈ s.inputs := List.mem_of_getElem? hx
  split_ifs at hi with hc hf
  · obtain ⟨j, hj, hjc⟩ := leastPlace_spec ⟨x, hmem, hc⟩
    rw [hj] at hi
    cases hi
    exact Instr.info_of_claims hjc
  · set run := (s.inputs.drop n).takeWhile fun j => (Instr.fabricPeer j).isSome with hrun
    have hdrop : s.inputs.drop n = x :: s.inputs.drop (n + 1) := by
      obtain ⟨hlt, hget⟩ := List.getElem?_eq_some_iff.mp hx
      rw [List.drop_eq_getElem_cons hlt, hget]
    have hxrun : x ∈ run := by simp [hrun, hdrop, hf]
    obtain ⟨j, hj, hjf⟩ := leastPlace_spec ⟨x, hxrun, hf⟩
    obtain ⟨hlt, hget⟩ := List.getElem?_eq_some_iff.mp hj
    have hplace := List.prefix_iff_getElem?.mp (List.takeWhile_prefix _ : run <+: s.inputs.drop n) _ hlt
    rw [List.getElem?_drop, hi, hget] at hplace
    cases hplace
    exact Instr.info_of_fabricPeer hjf
  · rw [hx] at hi
    cases hi
    exact hxi

theorem State.info_nextInput {s : State} {i : Instr} {rest : List Instr} (h : s.nextInput = some (i, rest)) : Instr.info i = none := by
  unfold State.nextInput at h
  extract_lets host can at h
  split at h
  · cases h
  · next x hx =>
    have hfound : can x = true ∧ x ∈ s.inputs.zipIdx := by
      rw [Option.orElse_eq_or, Option.or_eq_some_iff] at hx
      rcases hx with hx | ⟨-, hx⟩
      · have := List.find?_some hx
        simp only [Bool.and_eq_true] at this
        exact ⟨this.1, List.mem_of_find?_eq_some hx⟩
      · exact ⟨List.find?_some hx, List.mem_of_find?_eq_some hx⟩
    obtain ⟨hcan, hmem⟩ := hfound
    obtain ⟨j, hj, hji⟩ := Option.map_eq_some_iff.mp h
    cases hji
    have hxi : Instr.info x.1 = none := by
      simp only [can, Bool.and_eq_true, Option.isNone_iff_eq_none] at hcan
      exact hcan.1.1
    exact State.info_servedPlace (List.mem_zipIdx_iff_getElem?.mp hmem) hxi hj

end Sys2Proof.Machine
end

section
/-! The obligation that every step goes on. -/

namespace Sys2Proof.Claims

open Sys2Proof Sys2Proof.Machine

/-- Settles O56: a chosen team is there when its word runs, and the next input is an event. -/
theorem everyStepGoesOn : Obligations.EveryStepGoesOn := by
  unfold Obligations.EveryStepGoesOn
  intro s
  cases hp : s.pick with
  | cons uid rest =>
    rw [step_of_team hp]
    exact runTeam_goesOn ..
  | nil =>
    cases hi : s.nextInput with
    | none => exact ⟨_, step_of_no_input hp hi⟩
    | some x =>
      obtain ⟨u, hu⟩ := exec_event (State.info_nextInput hi) { s with inputs := x.2 }
      exact ⟨_, step_of_input hp hi hu⟩

end Sys2Proof.Claims
end

section
/-! Stops: a stop that finds the handler ready enters it, and one that cannot ends the team and counts a record (R139, R143, R146, R149,
R231). -/

namespace Sys2Proof.Machine

open Sys2Proof Sys2Proof.Claims

/- One theorem after another: side by side, their threads would fill the memory. -/
set_option Elab.async false

/-! ### The fence of a change of the PC (R135) -/

theorem sameSegment_iff (p q : BitVec 16) : p.extractLsb' 12 4 = q.extractLsb' 12 4 ↔ p.toNat / 4096 = q.toNat / 4096 := by
  have hp : p.toNat / 4096 < 16 := by have := p.isLt; omega
  have hq : q.toNat / 4096 < 16 := by have := q.isLt; omega
  rw [← BitVec.toNat_inj]
  simp only [BitVec.extractLsb'_toNat, Nat.shiftRight_eq_div_pow, Nat.reducePow, Nat.mod_eq_of_lt hp, Nat.mod_eq_of_lt hq]

theorem State.fenceTo_of_passes {s : State} {t : Team} {p : BitVec 16} (h : fencePasses s t p.toNat) : s.fenceTo t p = none := by
  unfold State.fenceTo
  split
  · rfl
  · next hne =>
    have h2 := h.resolve_left (mt (sameSegment_iff p t.pc).mpr hne)
    simp only [State.fenceCheck, h2]

theorem Team.fenced_eq (t : Team) (p : BitVec 16) : t.fenced p = { t with loopBuf := keptBuf t p.toNat } := by
  unfold Team.fenced keptBuf
  simp only [sameSegment_iff]
  split <;> rfl

/-! ### Entry of the handler -/

theorem State.team?_passReservation (s : State) (t : Team) (uid : Nat) : (s.passReservation t).team? uid = s.team? uid := by
  unfold State.team?
  rw [passReservation_teams]

/-- The team that the delivery of a stop leaves in its handler (R146). -/
def Team.inHandler (t : Team) : Team :=
  { t with
    frame := some { t.top with pc := t.tpc.extractLsb' 0 16 }
    frameDepth := t.depth
    stack := { t.top with pc := t.tvb.truncate 16, rpc := none } :: t.stack.tail
    tcw := t.tcw ||| 0x4000_0000
    loopBuf := keptBuf t (t.tvb.toNat % 65536)
    hold := .free
    relIssue := none
    stopReq := none
    heldHome := 0
    heldOdd := 0 }

theorem State.deliver_enters {s : State} {t : Team} (c : Cause) (ht : s.team? t.uid = some t) (hen : t.tvb.getLsbD 31 = true)
    (hf : fencePasses s t (t.tvb.toNat % 65536)) : ∃ u, s.deliver t.uid c = (s.putTeam t.inHandler).passReservation u := by
  have hvec : (t.tvb.extractLsb' 0 16).toNat = t.tvb.toNat % 65536 := by simp
  have hfence : s.fenceTo t (t.tvb.extractLsb' 0 16) = none := State.fenceTo_of_passes (hvec ▸ hf)
  simp only [State.deliver, ht, hen, hfence, Team.fenced_eq, hvec, Bool.not_true, Bool.false_eq_true, if_false]
  exact ⟨_, rfl⟩

theorem Cause.hasLanes_iff (c : Cause) :
    c.hasLanes = true ↔ c ∈ ([.btabRange, .page, .perm, .align, .bounds, .rights, .vault, .mcheck] : List Cause) := by
  cases c <;> decide

/-- A team with nothing in flight or pending, as a stop leaves it before its delivery (R139, R143). -/
def Team.stopped (t : Team) (resume code : BitVec 16) (c : Cause) (lanes : Mask) : Team :=
  { t with
    flight := []
    hold := .free
    stopReq := none
    tpc := code ++ resume
    tskip := 0
    skipPos := 0
    flm := if c.hasLanes then lanes else t.flm
    tcause := (1 : DWord) <<< c.bit
    pendCauses := 0 }

theorem Team.stopped_inHandler {t : Team} (resume code : BitVec 16) (c : Cause) (lanes : Mask) (hf : t.flight = []) (hp : t.pendCauses = 0) :
    (t.stopped resume code c lanes).inHandler = entered t resume code c lanes := by
  have hpc : (code ++ resume : BitVec 32).extractLsb' 0 16 = resume := BitVec.extractLsb'_append_eq_right
  have hflm : (if c.hasLanes = true then lanes else t.flm) = (entered t resume code c lanes).flm := if_congr c.hasLanes_iff rfl rfl
  simp only [Team.stopped, Team.inHandler, entered, Team.top, Team.depth, keptBuf, Team.pc, hpc, hflm, hf, hp]
  rfl

theorem State.firstUndone_none (s : State) (t : Team) (n pc : Nat) : s.firstUndone t n pc 0 = (pc, 0) := by
  cases n <;> rfl

/-- A stop that finds the handler ready leaves the team stopped at its word's PC or after it, and is delivered. -/
theorem State.takeStop_of_ready {s : State} {t : Team} {st : Stop} {len : Nat} (ht : s.team? t.uid = some t) (hr : handlerReady s t)
    (hlen : st.after = true → t.pc.toNat % 4096 + len < 4096) :
    s.takeStop t.uid len st = (s.putTeam (t.stopped (if st.after then t.pc + BitVec.ofNat 16 len else t.pc)
      (if st.cause = .swtrap ∨ st.cause = .brk then st.code else 0) st.cause st.lanes)).deliver t.uid st.cause := by
  obtain ⟨hen, hhm, hfence, hflight, hpend, hskip⟩ := hr
  have hhand : t.handler = false := hhm
  have hdone : t.doneBits / 2 = 0 := by simp [Team.doneBits, hskip, bits]
  have hunans : t.unanswered = false := by simp [Team.unanswered, hflight]
  have hland : t.landAll = { t with flight := [] } := by simp only [Team.landAll, hflight, List.filter_nil, List.foldl_nil]
  simp only [State.takeStop, ht, hunans, hhand, hflight, hdone, hland, hpend, List.filter_nil, Bool.false_eq_true, if_false, State.firstUndone_none]
  cases hafter : st.after with
  | false => simp [Team.stopped]
  | true =>
    have hends : endsSegment t.pc len = false := by simpa [endsSegment] using hlen hafter
    have hpc : BitVec.ofNat 16 (t.pc.toNat + len) = t.pc + BitVec.ofNat 16 len := by
      apply BitVec.eq_of_toNat_eq
      simp
    simp [Team.stopped, hends, hpc]

theorem State.takeStop_enters {s : State} {t : Team} {st : Stop} {len : Nat} (ht : s.team? t.uid = some t) (hr : handlerReady s t)
    (hlen : st.after = true → t.pc.toNat % 4096 + len < 4096) :
    (s.takeStop t.uid len st).mem = s.mem ∧ (s.takeStop t.uid len st).team? t.uid =
      some (entered t (if st.after then t.pc + BitVec.ofNat 16 len else t.pc)
        (if st.cause = .swtrap ∨ st.cause = .brk then st.code else 0) st.cause st.lanes) := by
  rw [State.takeStop_of_ready ht hr hlen]
  obtain ⟨hen, -, hfence, hflight, hpend, -⟩ := hr
  generalize (if st.after then t.pc + BitVec.ofNat 16 len else t.pc) = resume
  generalize (if st.cause = .swtrap ∨ st.cause = .brk then st.code else 0) = code
  have hput := State.team?_putTeam (t := t.stopped resume code st.cause st.lanes) ht
  obtain ⟨u, hu⟩ := State.deliver_enters (t := t.stopped resume code st.cause st.lanes) st.cause hput hen hfence
  rw [show (t.stopped resume code st.cause st.lanes).uid = t.uid from rfl, Team.stopped_inHandler resume code st.cause st.lanes hflight hpend] at hu
  rw [hu]
  refine ⟨by simp, ?_⟩
  rw [State.team?_passReservation]
  exact State.team?_putTeam (t := entered t resume code st.cause st.lanes) hput

/-! ### Decode's checks of a word (R79, R80) -/

theorem comesTo_entered {s : State} {t : Team} {i : Instr} {c : Cause} (hc : c ≠ .swtrap ∧ c ≠ .brk) (ht : s.team? t.uid = some t)
    (hr : handlerReady s t) (h : exec i s = .next (s.takeStop t.uid i.length (Stop.of c))) : comesTo i s (entered t t.pc 0 c 0) := by
  obtain ⟨hmem, hteam⟩ := State.takeStop_enters (st := Stop.of c) (len := i.length) ht hr (fun h => by cases h)
  refine ⟨_, h, ?_, fun a => by rw [State.byte, hmem, State.byte]⟩
  have hid : (entered t t.pc 0 c 0).uid = t.uid := rfl
  rw [hid]
  simpa [Stop.of, hc] using hteam

theorem exec_illegal {s : State} {t : Team} {i : Instr} (hi : (Instr.info i).isSome = true) (hcur : s.cur = some t.uid)
    (ht : s.team? t.uid = some t) (hl : Instr.legal t t.pc i = false) :
    exec i s = .next (s.takeStop t.uid i.length (Stop.of .illegal)) := by
  obtain ⟨k, hk⟩ := exec_word hi s
  simp [hk, withTeam, hcur, ht, State.runWord, hl]

theorem exec_unprivileged {s : State} {t : Team} {i : Instr} (hi : (Instr.info i).isSome = true) (hcur : s.cur = some t.uid)
    (ht : s.team? t.uid = some t) (hl : Instr.legal t t.pc i = true) (hp : Instr.isPriv i = true) (hu : t.privileged = false) :
    exec i s = .next (s.takeStop t.uid i.length (Stop.of .priv)) := by
  obtain ⟨k, hk⟩ := exec_word hi s
  simp [hk, withTeam, hcur, ht, State.runWord, hl, hp, hu]

/-! ### Positions of a fault log: what files a record moves its context's alone -/

@[simp] theorem State.setTag_ctxs (s : State) (key : Nat) (asid : Option Nat) : (s.setTag key asid).ctxs = s.ctxs := by
  unfold State.setTag
  repeat' split
  all_goals rfl

@[simp] theorem State.modifyLines_ctxs (s : State) (key : Nat) : (s.modifyLines key).ctxs = s.ctxs := by
  unfold State.modifyLines
  split <;> rfl

@[simp] theorem State.homeWrite_ctxs (s : State) (asid : Option Nat) (key : Nat) (bs : List Byte) : (s.homeWrite asid key bs).1.ctxs = s.ctxs := by
  unfold State.homeWrite
  split
  · simp
  · split <;> simp

@[simp] theorem State.writeRange_ctxs : ∀ (fuel : Nat) (s : State) (asid : Option Nat) (key : Nat) (bs : List Byte),
    (State.writeRange fuel s asid key bs).ctxs = s.ctxs
  | 0, _, _, _, _ => rfl
  | fuel + 1, s, asid, key, bs => by
    rw [State.writeRange]
    split
    · rfl
    · exact (State.writeRange_ctxs fuel ..).trans (State.homeWrite_ctxs ..)

@[simp] theorem State.partsWrite_ctxs (s : State) (asid : Option Nat) (ps : List (Nat × Nat)) (bs : List Byte) :
    (s.partsWrite asid ps bs).ctxs = s.ctxs := by
  induction ps generalizing s bs with
  | nil => rfl
  | cons p ps ih => exact (ih ..).trans (State.writeRange_ctxs ..)

@[simp] theorem State.useRange_ctxs (s : State) (c : Ctx) (va n : Nat) : (s.useRange c va n).ctxs = s.ctxs := by
  obtain ⟨x, y, z, h⟩ := State.useRange_eq s c va n
  rw [h]
  rfl

@[simp] theorem State.sendPort_ctxs (s : State) (m : OutMsg) : (s.sendPort m).ctxs = s.ctxs := by
  unfold State.sendPort
  split <;> rfl

@[simp] theorem State.ownWords_ctxs (s : State) (core asid va n : Nat) : (s.ownWords core asid va n).ctxs = s.ctxs := by
  refine foldl_keeps State.ctxs (fun s i => ?_) _ s
  dsimp only
  split
  · split
    · rfl
    · split
      · rfl
      · simp
  · rfl

@[simp] theorem State.updateByte_ctxs (s : State) (cores : List Nat) (asid va : Nat) (b : Byte) :
    (s.updateByte cores asid va b).ctxs = s.ctxs := by
  have hfold := foldl_keeps State.ctxs (f := fun (s : State) k =>
    match SMap.find s.l1 (l1Key k asid va) with
    | some o => { s with l1 := SMap.put s.l1 (l1Key k asid va) { o with val := b } }
    | none => s) (fun s k => by split <;> rfl) cores s
  unfold State.updateByte
  extract_lets u
  split
  · exact hfold
  · exact hfold

@[simp] theorem State.setMigCount_ctxs (s : State) (asid va n : Nat) : (s.setMigCount asid va n).ctxs = s.ctxs := by
  simp only [State.setMigCount]
  split <;> rfl

theorem State.requestMove_ctxs {s s' : State} {c : Ctx} {slot va home : Nat} {ws : List HRef}
    (h : s.requestMove c slot va home ws = some s') : s'.ctxs = s.ctxs := by
  unfold State.requestMove at h
  split at h <;> cases h
  rfl

@[simp] theorem State.countMiss_ctxs (s : State) (slot : Nat) (c : Ctx) (va : Nat) (l : Leaf) : (s.countMiss slot c va l).ctxs = s.ctxs := by
  simp only [State.countMiss]
  split
  · split
    · cases h : (s.setMigCount c.asid (va / 2 ^ 19 * 2 ^ 19) 0).requestMove c slot (va / 2 ^ 19 * 2 ^ 19) l.peer [] with
      | none => exact State.setMigCount_ctxs ..
      | some s' => exact (State.requestMove_ctxs h).trans (State.setMigCount_ctxs ..)
    · exact State.setMigCount_ctxs ..
  · rfl

@[simp] theorem State.emitNeed_ctxs (s : State) (n : Need) : (s.emitNeed n).ctxs = s.ctxs := by
  cases n with
  | ats p v =>
    simp only [State.emitNeed, State.emitAts]
    split <;> rfl
  | island i => rfl
  | remote asid key va op =>
    simp only [State.emitNeed]
    split
    · rfl
    · change (s.countMissAt asid va).ctxs = s.ctxs
      unfold State.countMissAt
      split
      · rfl
      · split
        · exact State.countMiss_ctxs ..
        · rfl

@[simp] theorem State.emitNeeds_ctxs (s : State) (ns : List Need) : (s.emitNeeds ns).ctxs = s.ctxs :=
  foldl_keeps State.ctxs State.emitNeed_ctxs ns s

@[simp] theorem State.passReservation_ctxs (s : State) (t : Team) : (s.passReservation t).ctxs = s.ctxs :=
  foldl_keeps State.ctxs (f := fun (s : State) k => s.putCore k ((s.core k).forget t.uid)) (fun _ _ => rfl) _ s

@[simp] theorem State.cancelRendezvous_ctxs (s : State) (k slot : Nat) : (s.cancelRendezvous k slot).ctxs = s.ctxs := by
  unfold State.cancelRendezvous
  split
  · rfl
  · exact foldl_keeps State.ctxs (fun s u => State.modTeam_ctxs ..) _ _

@[simp] theorem State.leaveGang_ctxs (s : State) (uid : Nat) : (s.leaveGang uid).ctxs = s.ctxs := by
  unfold State.leaveGang
  split
  · rfl
  · split
    · rfl
    · exact State.cancelRendezvous_ctxs ..

/-- The position of a context's fault log. -/
def State.logPos (s : State) (slot : Nat) : DWord := (s.ctx slot).flogpos

theorem State.logPos_congr {s s' : State} (h : s'.ctxs = s.ctxs) (k : Nat) : s'.logPos k = s.logPos k := by
  simp only [State.logPos, State.ctx, h]

theorem State.logPos_modCtx (s : State) (slot : Nat) {f : Ctx → Ctx} (hf : ∀ c, (f c).flogpos = c.flogpos) (k : Nat) :
    (s.modCtx slot f).logPos k = s.logPos k := by
  simp only [State.logPos, State.ctx, State.modCtx, State.setCtx, SMap.get_put]
  split
  · next h => rw [h, hf]
  · rfl

theorem State.noteTables_logPos (s : State) (asid va n k : Nat) : (s.noteTables asid va n).logPos k = s.logPos k := by
  unfold State.noteTables
  split
  · rfl
  · next slot _ =>
    extract_lets base tail u
    have hu : u.logPos k = s.logPos k := by
      unfold u
      split
      · exact State.logPos_modCtx _ _ (by intro _; rfl) k
      · rfl
    split
    · exact (State.logPos_modCtx _ _ (by intro _; rfl) k).trans hu
    · exact hu

theorem State.engineStore_logPos (s : State) (c : Ctx) (va : Nat) (parts : List (Nat × Nat)) (bs : List Byte) (k : Nat) :
    (s.engineStore c va parts bs).logPos k = s.logPos k := by
  unfold State.engineStore
  extract_lets s1 s2 s3 s4 s5
  have h3 : s3.ctxs = s.ctxs :=
    (foldl_keeps State.ctxs (fun s b => State.updateByte_ctxs ..) _ _).trans (by simp [s1, s2])
  have h5 : s5.logPos k = s.logPos k := by
    have h4 : s4.logPos k = s.logPos k := (State.noteTables_logPos ..).trans (State.logPos_congr h3 k)
    unfold s5
    split
    · split
      · exact (State.logPos_modCtx _ _ (by intro _; rfl) k).trans h4
      · exact h4
    · exact h4
  refine (foldl_keeps (fun r : State × Nat => r.1.logPos k) (fun r p => ?_) parts (s5, 0)).trans h5
  dsimp only
  split <;> rfl

theorem State.writeRecord_logPos (s : State) (slot va : Nat) (bs : List Byte) (k : Nat) : (s.writeRecord slot va bs).logPos k = s.logPos k := by
  unfold State.writeRecord
  extract_lets c
  split
  · exact State.engineStore_logPos ..
  · rfl
  · exact State.logPos_congr (State.emitNeeds_ctxs ..) k

/-- A record counts in its context's fault log (R231). -/
theorem State.fileLog_logPos (s : State) (slot w1 w2 w3 : Nat) : (s.fileLog slot w1 w2 w3).logPos slot = s.logPos slot + 1 := by
  unfold State.fileLog
  extract_lets c base ring va bs u
  have hu : u.logPos slot = s.logPos slot := by
    unfold u
    split
    · rfl
    · exact State.writeRecord_logPos ..
  rw [← hu]
  simp [State.logPos, State.ctx, State.modCtx, State.setCtx, SMap.get_put]

theorem State.dropTeam_logPos (s : State) (uid k : Nat) : (s.dropTeam uid).logPos k = s.logPos k := by
  unfold State.dropTeam
  split
  · rfl
  · next t _ =>
    extract_lets s1 s2
    have h1 : s1.logPos k = s.logPos k := State.logPos_congr (by simp [s1]) k
    have h2 : s2.logPos k = s1.logPos k := by
      unfold s2
      split
      · exact State.logPos_modCtx _ _ (by intro _; rfl) k
      · rfl
    exact h2.trans h1

/-! ### The end of a team -/

theorem State.team?_dropTeam (s : State) (uid : Nat) : (s.dropTeam uid).team? uid = none := by
  unfold State.dropTeam
  split
  · assumption
  · simp [State.team?]

theorem State.endTeam_ends {s : State} {t : Team} (ht : s.team? t.uid = some t) (double : Option Cause) :
    (s.endTeam t.uid double).team? t.uid = none ∧ (s.endTeam t.uid double).logPos t.ctx = s.logPos t.ctx + 1 := by
  simp only [State.endTeam, ht]
  exact ⟨State.team?_dropTeam .., (State.dropTeam_logPos ..).trans (State.fileLog_logPos ..)⟩

theorem State.deliver_ends {s : State} {t : Team} (c : Cause) (ht : s.team? t.uid = some t) (hen : t.tvb.getLsbD 31 = false) :
    s.deliver t.uid c = s.endTeam t.uid none := by
  simp only [State.deliver, ht, hen, Bool.not_false, if_true]

theorem Team.applyWrite_keeps {α : Type} (p : Team → α) (hv : ∀ (t : Team) v, p { t with v := v } = p t) (hp : ∀ (t : Team) x, p { t with p := x } = p t)
    (hs : ∀ (t : Team) x, p { t with s := x } = p t) (t : Team) (w : PendWrite) : p (t.applyWrite w) = p t := by
  cases w with
  | reg k x => exact hv ..
  | pred k b => exact hp ..
  | sreg k x => exact hs ..

/-- What the flights' writes leave alone stays as it was when they all complete. -/
theorem Team.landAll_keeps {α : Type} (p : Team → α) (hv : ∀ (t : Team) v, p { t with v := v } = p t) (hp : ∀ (t : Team) x, p { t with p := x } = p t)
    (hs : ∀ (t : Team) x, p { t with s := x } = p t) (hf : ∀ (t : Team) x, p { t with flight := x } = p t) (t : Team) : p t.landAll = p t :=
  (hf ..).trans (foldl_keeps p (fun u (f : Flight) => foldl_keeps p (Team.applyWrite_keeps p hv hp hs) f.writes u) _ t)

/-- A stop ends the team where there is no handler to enter (R149). -/
theorem State.takeStop_ends {s : State} {t : Team} (st : Stop) (len : Nat) (ht : s.team? t.uid = some t) (hu : t.unanswered = false)
    (h : t.tvb.getLsbD 31 = false ∨ t.handler = true) :
    (s.takeStop t.uid len st).team? t.uid = none ∧ (s.takeStop t.uid len st).logPos t.ctx = s.logPos t.ctx + 1 := by
  have huid : t.landAll.uid = t.uid := Team.landAll_keeps Team.uid (fun _ _ => rfl) (fun _ _ => rfl) (fun _ _ => rfl) (fun _ _ => rfl) t
  have hctx : t.landAll.ctx = t.ctx := Team.landAll_keeps Team.ctx (fun _ _ => rfl) (fun _ _ => rfl) (fun _ _ => rfl) (fun _ _ => rfl) t
  have htvb : t.landAll.tvb = t.tvb := Team.landAll_keeps Team.tvb (fun _ _ => rfl) (fun _ _ => rfl) (fun _ _ => rfl) (fun _ _ => rfl) t
  have hend : ∀ (u : Team) (d : Option Cause), u.uid = t.uid → u.ctx = t.ctx →
      ((s.putTeam u).endTeam t.uid d).team? t.uid = none ∧ ((s.putTeam u).endTeam t.uid d).logPos t.ctx = s.logPos t.ctx + 1 := by
    intro u d hid hcx
    rw [← hid, ← hcx]
    rw [← hid] at ht
    exact State.endTeam_ends (State.team?_putTeam ht) d
  simp only [State.takeStop, ht, hu, Bool.false_eq_true, if_false]
  split
  · exact hend _ _ huid hctx
  · next hh =>
    have hen : t.landAll.tvb.getLsbD 31 = false := htvb ▸ h.resolve_right hh
    have hdeliver : ∀ (u : Team) (c : Cause), u.uid = t.uid → u.tvb.getLsbD 31 = false →
        (s.putTeam u).deliver t.uid c = (s.putTeam u).endTeam t.uid none := fun u c hid he =>
      hid ▸ State.deliver_ends c (State.team?_putTeam (hid ▸ ht)) he
    rw [hdeliver]
    · exact hend _ _ huid hctx
    · exact huid
    · exact hen

end Sys2Proof.Machine
end

section
/-! The obligation of stops. -/

namespace Sys2Proof.Claims

open Sys2Proof Sys2Proof.Machine

theorem stops_enter_the_handler : stopsEnterTheHandler := by
  intro s t ht hr
  refine ⟨fun st len hlen => (State.takeStop_enters ht hr hlen).2, fun hcur i hi hl => ?_, fun hcur hu i hi hl hp => ?_⟩
  · exact comesTo_entered (by decide) ht hr (exec_illegal hi hcur ht hl)
  · exact comesTo_entered (by decide) ht hr (exec_unprivileged hi hcur ht hl hp hu)

theorem stop_without_handler_ends_team : stopWithoutHandlerEndsTeam := by
  intro s t st len ht hfl h
  have hu : t.unanswered = false := by
    simp only [Team.unanswered, List.any_eq_false]
    intro f hf
    simp [hfl f hf]
  exact State.takeStop_ends st len ht hu h

/-- Settles O23: a stop with the handler ready is delivered to it, and decode's checks come to such a stop; without a handler the team ends,
and only the record that it files moves its context's log. -/
theorem stopsAreTaken : Obligations.StopsAreTaken := by
  unfold Obligations.StopsAreTaken
  exact ⟨stops_enter_the_handler, stop_without_handler_ends_team⟩

end Sys2Proof.Claims
end

section
/-! The order in which the paths of a transfer run (R109): the list of destinations is the one whose members are in run order. -/

namespace Sys2Proof.Machine

open Sys2Proof

/-! ### Sorting by a number -/

theorem insertBy_perm {α : Type} (lt : α → α → Bool) (x : α) : ∀ l : List α, (insertBy lt x l).Perm (x :: l)
  | [] => .refl _
  | y :: ys => by
    rw [insertBy]
    split
    · exact .refl _
    · exact ((insertBy_perm lt x ys).cons y).trans (.swap x y ys)

theorem insertBy_sorted {α : Type} (num : α → Nat) (x : α) : ∀ {l : List α}, l.Pairwise (fun a b => num a ≤ num b) →
    (insertBy (fun a b => decide (num a < num b)) x l).Pairwise fun a b => num a ≤ num b
  | [], _ => List.pairwise_singleton ..
  | y :: ys, h => by
    obtain ⟨hy, hys⟩ := List.pairwise_cons.mp h
    rw [insertBy]
    split
    · next hlt =>
      have hlt : num x < num y := of_decide_eq_true hlt
      refine List.pairwise_cons.mpr ⟨fun z hz => ?_, h⟩
      rcases List.mem_cons.mp hz with rfl | hz
      · exact hlt.le
      · exact hlt.le.trans (hy z hz)
    · next hge =>
      have hge : num y ≤ num x := by simpa using hge
      refine List.pairwise_cons.mpr ⟨fun z hz => ?_, insertBy_sorted num x hys⟩
      rcases mem_insertBy hz with rfl | hz
      · exact hge
      · exact hy z hz

theorem sortBy_sorted {α : Type} (num : α → Nat) (l : List α) :
    (sortBy (fun a b => decide (num a < num b)) l).Pairwise fun a b => num a ≤ num b := by
  suffices h : ∀ acc : List α, acc.Pairwise (fun a b => num a ≤ num b) →
      (l.foldl (fun acc x => insertBy (fun a b => decide (num a < num b)) x acc) acc).Pairwise fun a b => num a ≤ num b from h [] .nil
  induction l with
  | nil => exact fun _ h => h
  | cons x l ih => exact fun acc h => ih _ (insertBy_sorted num x h)

theorem mem_sortBy {α : Type} {lt : α → α → Bool} {a : α} {l : List α} : a ∈ sortBy lt l ↔ a ∈ l := by
  suffices h : ∀ acc : List α, a ∈ l.foldl (fun acc x => insertBy lt x acc) acc ↔ a ∈ acc ∨ a ∈ l from (h []).trans (by simp)
  induction l with
  | nil => simp
  | cons x l ih =>
    intro acc
    rw [List.foldl_cons, ih, (insertBy_perm lt x acc).mem_iff]
    simp only [List.mem_cons]
    tauto

/-! ### The first of equals -/

/-- The elements of a list without those that have stood before. -/
def firsts {α : Type} [BEq α] (l acc : List α) : List α := l.foldl (fun acc p => if acc.contains p then acc else acc ++ [p]) acc

theorem mem_firsts {α : Type} [BEq α] [LawfulBEq α] {p : α} {l : List α} : ∀ {acc : List α}, p ∈ firsts l acc ↔ p ∈ acc ∨ p ∈ l := by
  induction l with
  | nil => simp [firsts]
  | cons x l ih =>
    intro acc
    rw [firsts, List.foldl_cons, ← firsts, ih]
    split
    · next hx =>
      have hx : x ∈ acc := by simpa using hx
      constructor
      · rintro (h | h)
        · exact .inl h
        · exact .inr (List.mem_cons_of_mem _ h)
      · rintro (h | h)
        · exact .inl h
        · rcases List.mem_cons.mp h with rfl | h
          · exact .inl hx
          · exact .inr h
    · simp only [List.mem_append, List.mem_cons]
      tauto

/-- Of two values of a list sorted by a number, the one that stands first has an element that no element of the other is below. -/
theorem firsts_ordered {α : Type} [BEq α] [LawfulBEq α] (rest : List (Nat × α)) : ∀ (pre : List (Nat × α)) (acc : List α),
    (pre ++ rest).Pairwise (fun a b => a.1 ≤ b.1) → (∀ p, p ∈ acc ↔ p ∈ pre.map Prod.snd) →
    acc.Pairwise (fun p q => p ≠ q ∧ ∃ k, (k, p) ∈ pre ++ rest ∧ ∀ j, (j, q) ∈ pre ++ rest → k ≤ j) →
    (firsts (rest.map Prod.snd) acc).Pairwise fun p q => p ≠ q ∧ ∃ k, (k, p) ∈ pre ++ rest ∧ ∀ j, (j, q) ∈ pre ++ rest → k ≤ j := by
  induction rest with
  | nil => exact fun _ _ _ _ h => h
  | cons x rest ih =>
    intro pre acc hsort hacc hpair
    have happ : pre ++ x :: rest = (pre ++ [x]) ++ rest := by simp
    rw [List.map_cons, firsts, List.foldl_cons, ← firsts]
    rw [happ] at hsort hpair ⊢
    refine ih (pre ++ [x]) _ hsort ?_ ?_
    · intro p
      split
      · next hx =>
        have hx : x.2 ∈ pre.map Prod.snd := (hacc _).mp (by simpa using hx)
        simp only [hacc, List.map_append, List.mem_append, List.map_cons, List.map_nil, List.mem_singleton]
        exact ⟨.inl, fun h => h.elim id fun h => h ▸ hx⟩
      · simp only [List.mem_append, List.mem_singleton, hacc, List.map_append, List.map_cons, List.map_nil]
    · split
      · exact hpair
      · next hx =>
        have hx : x.2 ∉ acc := by simpa using hx
        refine List.pairwise_append.mpr ⟨hpair, List.pairwise_singleton .., fun p hp q hq => ?_⟩
        obtain rfl := List.mem_singleton.mp hq
        refine ⟨fun h => hx (h ▸ hp), ?_⟩
        obtain ⟨a, ha, rfl⟩ := List.mem_map.mp ((hacc p).mp hp)
        refine ⟨a.1, List.mem_append_left _ (List.mem_append_left _ ha), fun j hj => ?_⟩
        rw [← happ] at hj hsort
        rcases List.mem_append.mp hj with hj | hj
        · exact absurd ((hacc _).mpr (List.mem_map.mpr ⟨_, hj, rfl⟩)) hx
        · exact (List.pairwise_append.mp hsort).2.2 a ha (j, x.2) hj

/-! ### Run order -/

/-- The number that orders a destination, and its PC (R109). -/
def runKey (ft : BitVec 16) : Dest → Nat × BitVec 16
  | some (k, p) => if p = ft then (1000, ft) else (k, p)
  | none => (1000, ft)

/-- Of the destinations of a transfer, one path runs before another. -/
def Before (ft : BitVec 16) (ds : List Dest) (p q : BitVec 16) : Prop :=
  p ≠ ft ∧ (q = ft ∨ ∃ k, some (k, p) ∈ ds ∧ ∀ j, some (j, q) ∈ ds → k < j)

/-- A transfer's targets are named by indices below the fall-through path's number, each by its own. -/
def Indexed (ds : List Dest) : Prop :=
  (∀ k p, some (k, p) ∈ ds → k < 1000) ∧ ∀ k p q, some (k, p) ∈ ds → some (k, q) ∈ ds → p = q

theorem runKey_snd (ft : BitVec 16) (d : Dest) : (runKey ft d).2 = destPc ft d := by
  unfold runKey destPc
  split
  · split
    · next h => exact h.symm
    · rfl
  · rfl

theorem runKey_of_target {ft p : BitVec 16} {k : Nat} {d : Dest} (hp : p ≠ ft) : runKey ft d = (k, p) ↔ d = some (k, p) := by
  unfold runKey
  split
  · next j q =>
    split
    · next h => simp [h, Ne.symm hp]
    · simp
  · simp [Ne.symm hp]

theorem mem_map_runKey {ft p : BitVec 16} {k : Nat} {ds : List Dest} (hp : p ≠ ft) : (k, p) ∈ ds.map (runKey ft) ↔ some (k, p) ∈ ds := by
  simp [List.mem_map, runKey_of_target hp]

theorem destOrder_eq_firsts (ft : BitVec 16) (ds : List Dest) : destOrder ft ds =
    firsts ((sortBy (fun a b => decide (a.1 < b.1)) (ds.map (runKey ft))).map Prod.snd) [] := by
  have hkey : ds.map (runKey ft) = ds.map fun d => match d with
      | some (i, p) => if p = ft then (1000, ft) else (i, p)
      | none => (1000, ft) := List.map_congr_left fun d _ => by
    cases d <;> rfl
  rw [hkey]
  rfl

theorem mem_destOrder {ft p : BitVec 16} {ds : List Dest} : p ∈ destOrder ft ds ↔ ∃ d ∈ ds, destPc ft d = p := by
  rw [destOrder_eq_firsts, mem_firsts]
  simp only [List.not_mem_nil, false_or, List.mem_map, mem_sortBy]
  constructor
  · rintro ⟨_, ⟨d, hd, rfl⟩, rfl⟩
    exact ⟨d, hd, (runKey_snd ft d).symm⟩
  · rintro ⟨d, hd, rfl⟩
    exact ⟨_, ⟨d, hd, rfl⟩, runKey_snd ft d⟩

theorem destOrder_ordered {ft : BitVec 16} {ds : List Dest} (hi : Indexed ds) :
    (destOrder ft ds).Pairwise fun p q => p ≠ q ∧ Before ft ds p q := by
  obtain ⟨hbound, hone⟩ := hi
  rw [destOrder_eq_firsts]
  have h := firsts_ordered (sortBy (fun (a b : Nat × BitVec 16) => decide (a.1 < b.1)) (ds.map (runKey ft))) [] []
    (sortBy_sorted Prod.fst _) (by simp) .nil
  refine h.imp_of_mem fun {p q} hp hq ⟨hne, k, hk, hleast⟩ => ⟨hne, ?_⟩
  simp only [List.nil_append, mem_sortBy] at hk hleast
  by_cases hpf : p = ft
  · exfalso
    subst hpf
    obtain ⟨d, hd, hkd⟩ := List.mem_map.mp hk
    have hk1000 : k = 1000 := by
      unfold runKey at hkd
      split at hkd
      · split at hkd <;> simp_all
      · simp_all
    have hqp : q ≠ p := Ne.symm hne
    rw [← destOrder_eq_firsts, mem_destOrder] at hq
    obtain ⟨d', hd', rfl⟩ := hq
    match d', hd', hqp, hleast with
    | none, _, hqp, _ => exact hqp rfl
    | some (j, q), hd', hqp, hleast =>
      have := hleast j ((mem_map_runKey hqp).mpr hd')
      have := hbound j q hd'
      omega
  · refine ⟨hpf, ?_⟩
    by_cases hqf : q = ft
    · exact .inl hqf
    · have hkp := (mem_map_runKey hpf).mp hk
      refine .inr ⟨k, hkp, fun j hj => lt_of_le_of_ne (hleast j ((mem_map_runKey hqf).mpr hj)) ?_⟩
      rintro rfl
      exact hne (hone _ _ _ hkp hj)

theorem Before.asymm {ft p q : BitVec 16} {ds : List Dest} (h : Before ft ds p q) : ¬ Before ft ds q p := by
  obtain ⟨hp, h⟩ := h
  rintro ⟨hq, h'⟩
  obtain ⟨k, hk, hlt⟩ := h.resolve_left hq
  obtain ⟨j, hj, hlt'⟩ := h'.resolve_left hp
  have := hlt j hj
  have := hlt' k hk
  omega

/-- The destinations in run order are the only list of them in which each path runs before those that follow. -/
theorem destOrder_eq {ft : BitVec 16} {ds : List Dest} {ps : List (BitVec 16)} (hi : Indexed ds)
    (hmem : ∀ p, p ∈ ps ↔ ∃ d ∈ ds, destPc ft d = p) (hps : ps.Pairwise (Before ft ds)) : destOrder ft ds = ps := by
  have hord := destOrder_ordered (ft := ft) hi
  have hnodup : ps.Nodup := hps.imp fun h e => (e ▸ h).asymm (e ▸ h)
  have hperm : (destOrder ft ds).Perm ps :=
    (List.perm_ext_iff_of_nodup (hord.imp And.left) hnodup).mpr fun p => mem_destOrder.trans (hmem p).symm
  exact hperm.eq_of_pairwise (fun p q _ _ h h' => absurd h' h.asymm) (hord.imp And.right) hps

end Sys2Proof.Machine
end

section
/-! Control transfers within a segment (R72, R73, R105, R106, R109): what a transfer comes to when no lane leaves, when all go to one PC, and
when they part; and the destinations and writes of each word. -/

namespace Sys2Proof.Machine

open Sys2Proof Sys2Proof.Claims

/-! ### Where a transfer arrives -/

theorem Team.fall_eq {t : Team} {len : Nat} (hf : t.pc.toNat % 4096 + len < 4096) : t.fall len = t.pc + BitVec.ofNat 16 len := by
  apply BitVec.eq_of_toNat_eq
  have hlt := t.pc.isLt
  have hlo : (t.pc.extractLsb' 0 12 + BitVec.ofNat 12 len).toNat = t.pc.toNat % 4096 + len := by
    simp only [BitVec.toNat_add, BitVec.extractLsb'_toNat, BitVec.toNat_ofNat, Nat.shiftRight_zero]
    omega
  have hhi : (t.pc.extractLsb' 12 4).toNat = t.pc.toNat / 4096 := by
    simp only [BitVec.extractLsb'_toNat, Nat.shiftRight_eq_div_pow]
    omega
  have happ : (t.fall len).toNat = t.pc.toNat / 4096 * 4096 + (t.pc.toNat % 4096 + len) := by
    rw [Team.fall, nextPc, BitVec.toNat_append, ← Nat.shiftLeft_add_eq_or_of_lt (by rw [hlo]; exact hf), hlo, hhi, Nat.shiftLeft_eq]
  rw [happ, BitVec.toNat_add, BitVec.toNat_ofNat]
  omega

/-- A transfer that its sequencer takes leaves the team but for its loop buffer. -/
theorem State.team?_afterTaken {s : State} {u : Team} (hu : (s.team? u.uid).isSome = true) (src : BitVec 16) (len : Nat) (p : BitVec 16) :
    ∃ b, (s.afterTaken u src len p).team? u.uid = some { u with loopBuf := b } := by
  obtain ⟨v, hv⟩ := Option.isSome_iff_exists.mp hu
  have hput : ∀ b, (s.putTeam { u with loopBuf := b }).team? u.uid = some { u with loopBuf := b } := fun b =>
    State.team?_putTeam (t := { u with loopBuf := b }) hv
  unfold State.afterTaken
  split
  · exact ⟨u.loopBuf, hput u.loopBuf⟩
  · extract_lets last off
    split
    · unfold State.copyLoop
      extract_lets s1
      have hput1 : ∀ b, (s1.newId.2.putTeam { u with loopBuf := b }).team? u.uid = some { u with loopBuf := b } := fun b =>
        State.team?_putTeam (t := { u with loopBuf := b }) (s := s1.newId.2) (hput none)
      split
      · exact ⟨none, hput none⟩
      · split
        · exact ⟨_, hput1 _⟩
        · exact ⟨none, hput none⟩
    · exact ⟨none, hput none⟩

/-- A transfer that completes leaves the team arrived. -/
theorem conclude_jump {s : State} {uid len : Nat} {u v : Team} {stack : List PathEntry} {b : Option LoopBuf}
    (hv : v = { u with stack := stack, loopBuf := b }) (h : s.team? uid = some v) :
    (conclude uid len (.jump s)).team? uid = some (arrived u stack b) := by
  subst hv
  exact State.team?_modTeam (fun t => { t with issued := t.issued + 1, tskip := if t.handler then t.tskip else 0, skipPos := 0 }) (fun _ => rfl) h

/-! ### A transfer -/

/-- A word that runs makes this transfer: its lanes go where the rule says, and it writes the rule's registers. -/
structure Transfers (s : State) (t : Team) (i : Instr) (r : JumpRule) (dest : Nat → Dest) (write : Team → Team) : Prop where
  runs : exec i s = .next (conclude t.uid i.length (transfer i.length r.rcv dest write (s.putTeam t) t))
  goes : ∀ l ∈ t.activeLanes, dest l = r.goes l
  writes : write t = r.write
  regs : ∃ m q, r.write = t.groupRegs m q
  indexed : Indexed (t.activeLanes.map r.goes)

section
variable {s : State} {t : Team} {i : Instr} {r : JumpRule} {dest : Nat → Dest} {write : Team → Team}

theorem destPc_goes (r : JumpRule) (ft : BitVec 16) (l : Nat) : destPc ft (r.goes l) = r.dest ft l := by
  unfold destPc JumpRule.dest
  cases r.goes l <;> rfl

theorem Transfers.dests (h : Transfers s t i r dest write) : t.activeLanes.map dest = t.activeLanes.map r.goes :=
  List.map_congr_left h.goes

/-- The paths of a transfer in run order are those that the rule's destinations give. -/
theorem Transfers.order (h : Transfers s t i r dest write) {ft : BitVec 16} {ps : List (BitVec 16)}
    (hmem : ∀ p, p ∈ ps ↔ ∃ l ∈ t.activeLanes, r.dest ft l = p) (hps : ps.Pairwise (Before ft (t.activeLanes.map r.goes))) :
    destOrder ft (t.activeLanes.map dest) = ps := by
  rw [h.dests]
  refine destOrder_eq h.indexed (fun p => (hmem p).trans ?_) hps
  simp only [List.mem_map, exists_exists_and_eq_and, destPc_goes]

/-- Where all active lanes go to one PC, it is the only path. -/
theorem Transfers.order_one (h : Transfers s t i r dest write) {ft p : BitVec 16} (hne : t.activeLanes ≠ [])
    (hall : ∀ l ∈ t.activeLanes, r.dest ft l = p) : destOrder ft (t.activeLanes.map dest) = [p] := by
  obtain ⟨l, hl⟩ := List.exists_mem_of_ne_nil _ hne
  refine h.order (fun q => ?_) (List.pairwise_singleton ..)
  rw [List.mem_singleton]
  exact ⟨fun hq => ⟨l, hl, hq ▸ hall l hl⟩, fun ⟨m, hm, hq⟩ => hq ▸ hall m hm⟩

theorem Transfers.team (h : Transfers s t i r dest write) : ∃ m q, write t = t.groupRegs m q := h.writes ▸ h.regs

theorem Transfers.goes_on (h : Transfers s t i r dest write) (hr : Runs s t i)
    (hall : ∀ l ∈ t.activeLanes, r.dest (t.fall i.length) l = t.fall i.length) :
    exec i s = .next (s.putTeam (r.write.pass i.length)) := by
  have hends : endsSegment t.pc i.length = false := by simpa [endsSegment] using hr.fits
  have htransfer : transfer i.length r.rcv dest write (s.putTeam t) t = .done ((s.putTeam t).putTeam (write t)) := by
    by_cases hne : t.activeLanes = []
    · simp [transfer, hne, destOrder, sortBy]
    · simp [transfer, h.order_one hne hall, hends]
  obtain ⟨m, q, hw⟩ := h.team
  rw [h.runs, htransfer, conclude_done (State.team?_putTeam hr.team) (by rw [hw]; rfl) (by rw [hw]; rfl) hr.fits,
    State.putTeam_putTeam _ (by rw [Team.pass_uid, hw]; rfl), h.writes]

/-- A transfer that ends with its team put back with another stack, or taken by its sequencer, comes to the team arrived. -/
theorem Transfers.comes (h : Transfers s t i r dest write) (hr : Runs s t i) {v : Team} {stack : List PathEntry} {z : State}
    (hv : v = { write t with stack := stack }) (hz : z = (s.putTeam t).putTeam v ∨ ∃ p, z = (s.putTeam t).afterTaken v t.pc i.length p)
    (htransfer : transfer i.length r.rcv dest write (s.putTeam t) t = .jump z) : ∃ b, comesTo i s (arrived r.write stack b) := by
  obtain ⟨m, q, hw⟩ := h.team
  have huid : v.uid = t.uid := by rw [hv, hw]; rfl
  have hput := State.team?_putTeam hr.team
  have hput' : ((s.putTeam t).team? v.uid).isSome = true := by rw [huid, hput]; rfl
  have hmem : z.mem = s.mem := by
    rcases hz with rfl | ⟨p, rfl⟩
    · rfl
    · simp
  obtain ⟨b, hb⟩ : ∃ b, z.team? v.uid = some { v with loopBuf := b } := by
    rcases hz with rfl | ⟨p, rfl⟩
    · exact ⟨v.loopBuf, State.team?_putTeam (u := t) (by rw [huid]; exact hput)⟩
    · exact State.team?_afterTaken hput' ..
  refine ⟨b, _, h.runs, ?_, fun a => ?_⟩
  · have hid : (arrived r.write stack b).uid = t.uid := by rw [← h.writes, hw]; rfl
    rw [htransfer, hid]
    refine conclude_jump (v := { v with loopBuf := b }) ?_ (huid ▸ hb)
    rw [hv, h.writes]
  · rw [htransfer]
    simp [State.byte, conclude, hmem]

theorem Transfers.arrives (h : Transfers s t i r dest write) (hr : Runs s t i) {p : BitVec 16} (hp : p ≠ t.fall i.length)
    (hne : t.activeLanes ≠ []) (hall : ∀ l ∈ t.activeLanes, r.dest (t.fall i.length) l = p) :
    ∃ b, comesTo i s (arrived r.write ({ t.top with pc := p } :: t.stack.tail) b) := by
  have htransfer : transfer i.length r.rcv dest write (s.putTeam t) t =
      .jump ((s.putTeam t).afterTaken ((write t).setPc p) t.pc i.length p) := by
    simp [transfer, h.order_one hne hall, hp]
  obtain ⟨m, q, hw⟩ := h.team
  exact h.comes hr (by rw [hw]; rfl) (.inr ⟨p, rfl⟩) htransfer

/-- Entries that leave no more than 16 are pushed without a spill (R111). -/
theorem State.push_eq (s : State) (t : Team) {es : List PathEntry} (h : es.length + t.stack.length ≤ 16) :
    s.push t es = .ok { t with stack := es ++ t.stack } := by
  simp [State.push, spillDown, h]

theorem Transfers.mask (h : Transfers s t i r dest write) (ft p : BitVec 16) :
    pathMask t ft dest p = maskOf (t.activeLanes.filter fun l => decide (r.dest ft l = p)) := by
  unfold pathMask
  congr 1
  refine List.filter_congr fun l hl => ?_
  rw [h.goes l hl, destPc_goes]
  rfl

/-- A team with an active lane has a path. -/
theorem stack_length_pos {l : Nat} (hl : l ∈ t.activeLanes) : 0 < t.stack.length := by
  have ha : t.active l = true := (List.mem_filter.mp hl).2
  refine List.length_pos_iff.mpr fun hs => ?_
  simp [Team.active, Team.top, hs] at ha

theorem Transfers.diverges (h : Transfers s t i r dest write) {ft rcv : BitVec 16} {ps : List (BitVec 16)} {l : Nat} (hl : l ∈ t.activeLanes)
    (hlen : t.stack.length + ps.length ≤ 16) (hdepth : t.depth + ps.length ≤ 256) (z : State) :
    diverge z (write t) rcv (ps.map fun x => (x, pathMask t ft dest x)) =
      .ok { write t with stack := splitStack t (r.dest ft) rcv ps } := by
  obtain ⟨m, q, hw⟩ := h.team
  rw [hw]
  have hpos := stack_length_pos hl
  have hes : ((ps.map fun x => (x, pathMask t ft dest x)).filter fun p => p.1 != rcv).map
      (fun p => ({ pc := p.1, mask := p.2, rpc := some rcv, fmt := t.top.fmt } : PathEntry)) =
      (ps.filter fun p => decide (p ≠ rcv)).map fun p =>
        { pc := p, mask := maskOf (t.activeLanes.filter fun l => decide (r.dest ft l = p)), rpc := some rcv, fmt := t.top.fmt } := by
    simp only [List.filter_map, List.map_map, Function.comp_def, h.mask]
    congr 1
    exact List.filter_congr fun p _ => by simp [bne, BEq.beq]
  have hle : (ps.filter fun p => decide (p ≠ rcv)).length ≤ ps.length := List.length_filter_le _ _
  have htail : t.stack.tail.length + 1 = t.stack.length := by rw [List.length_tail]; omega
  have hroom : ∀ b : Bool, ¬ (t.depth + (if b = true then (ps.filter fun p => decide (p ≠ rcv)).length - 1
      else (ps.filter fun p => decide (p ≠ rcv)).length) > 256) := fun b => by
    split <;> omega
  simp only [diverge, show (t.groupRegs m q).top = t.top from rfl, show (t.groupRegs m q).depth = t.depth from rfl, hes, List.length_map, hroom,
    if_false]
  unfold splitStack
  by_cases hsame : t.top.rpc = some rcv
  · have hpush : (ps.filter fun p => decide (p ≠ rcv)).length + t.stack.tail.length ≤ 16 := by omega
    simp only [hsame, beq_self_eq_true, if_true]
    exact State.push_eq _ _ (by simpa [Team.groupRegs] using hpush)
  · have hb : (t.top.rpc == some rcv) = false := by simpa using hsame
    have hpush : (ps.filter fun p => decide (p ≠ rcv)).length + (t.stack.tail.length + 1) ≤ 16 := by omega
    simp only [hb, hsame, Bool.false_eq_true, if_false]
    exact State.push_eq _ _ (by simpa [Team.groupRegs, Team.setPc, Team.setTop] using hpush)

theorem Transfers.parts (h : Transfers s t i r dest write) (hr : Runs s t i) {ps : List (BitVec 16)} (htwo : 2 ≤ ps.length)
    (hmem : ∀ p, p ∈ ps ↔ ∃ l ∈ t.activeLanes, r.dest (t.fall i.length) l = p)
    (hps : ps.Pairwise (Before (t.fall i.length) (t.activeLanes.map r.goes))) (hlen : t.stack.length + ps.length ≤ 16)
    (hdepth : t.depth + ps.length ≤ 256) :
    ∃ b, comesTo i s (arrived r.write (splitStack t (r.dest (t.fall i.length)) (t.rcvPc i.length r.rcv) ps) b) := by
  match ps, htwo, h.order hmem hps with
  | p :: q :: rest, _, horder =>
    obtain ⟨l, hl, -⟩ := (hmem p).mp List.mem_cons_self
    have hends : endsSegment t.pc i.length = false := by simpa [endsSegment] using hr.fits
    have hdiv := h.diverges (ft := t.fall i.length) (rcv := t.rcvPc i.length r.rcv) hl hlen hdepth (s.putTeam t)
    set v : Team := { write t with stack := splitStack t (r.dest (t.fall i.length)) (t.rcvPc i.length r.rcv) (p :: q :: rest) } with hv
    have htransfer : transfer i.length r.rcv dest write (s.putTeam t) t =
        .jump (if v.pc = t.fall i.length then (s.putTeam t).putTeam v else (s.putTeam t).afterTaken v t.pc i.length v.pc) := by
      simp only [transfer, horder, hends, hdiv, Bool.false_and, Bool.false_eq_true, if_false]
    refine h.comes hr hv ?_ htransfer
    split
    · exact .inl rfl
    · exact .inr ⟨_, rfl⟩

end

/-! ### The words -/

theorem mem_groupActive {t : Team} {g l : Nat} : l ∈ t.groupActive g ↔ t.active l = true ∧ 0 < t.group ∧ l / t.group = g := by
  simp only [Team.groupActive, Team.groupLanes, List.mem_filter, List.mem_map, List.mem_range]
  constructor
  · rintro ⟨⟨k, hk, rfl⟩, ha⟩
    have hpos : 0 < t.group := by omega
    exact ⟨ha, hpos, by rw [Nat.mul_comm, Nat.mul_add_div hpos, Nat.div_eq_of_lt hk, Nat.add_zero]⟩
  · rintro ⟨ha, hpos, rfl⟩
    exact ⟨⟨l % t.group, Nat.mod_lt _ hpos, Nat.div_add_mod' l t.group⟩, ha⟩

theorem group_pos_of_mem {t : Team} {h : Hdr} {g : Nat} (hg : g ∈ t.groupsFor h) : 0 < t.group := by
  have hlt : g < t.lanes / t.group := List.mem_range.mp (List.mem_filter.mp hg).1
  rcases Nat.eq_zero_or_pos t.group with h0 | hpos
  · rw [h0, Nat.div_zero] at hlt
    omega
  · exact hpos

/-- The active lanes of the groups that a word executes for. -/
def goers (t : Team) (h : Hdr) : List Nat := (t.groupsFor h).flatMap t.groupActive

theorem mem_goers {t : Team} {h : Hdr} {l : Nat} : l ∈ goers t h ↔ t.active l = true ∧ inGroups t h l = true := by
  simp only [goers, List.mem_flatMap, mem_groupActive, inGroups, List.contains_iff_mem]
  constructor
  · rintro ⟨g, hg, ha, -, rfl⟩
    exact ⟨ha, hg⟩
  · rintro ⟨ha, hg⟩
    exact ⟨_, hg, ha, group_pos_of_mem hg, rfl⟩

/-- A lane of a group that a word executes for is a lane of the team. -/
theorem mem_goers_iff {t : Team} {h : Hdr} {l : Nat} : l ∈ goers t h ↔ l ∈ t.activeLanes ∧ inGroups t h l = true := by
  rw [mem_goers, Team.activeLanes, List.mem_filter, List.mem_range]
  refine ⟨fun ⟨ha, hg⟩ => ⟨⟨?_, ha⟩, hg⟩, fun ⟨⟨_, ha⟩, hg⟩ => ⟨ha, hg⟩⟩
  have hm : l / t.group ∈ t.groupsFor h := by simpa [inGroups] using hg
  have hlt : l / t.group < t.lanes / t.group := List.mem_range.mp (List.mem_filter.mp hm).1
  by_contra hge
  exact absurd (Nat.div_le_div_right (Nat.le_of_not_lt hge)) (Nat.not_le.mpr hlt)

theorem contains_goers {t : Team} {h : Hdr} {l : Nat} (hl : l ∈ t.activeLanes) : (goers t h).contains l = inGroups t h l := by
  rw [Bool.eq_iff_iff, List.contains_iff_mem, mem_goers_iff]
  exact ⟨And.right, fun hg => ⟨hl, hg⟩⟩

/-- A transfer's word that reads right codes goes on with the groups that it executes for and their active lanes. -/
theorem withGroups_runs {s : State} {t : Team} {i : Instr} (hr : Runs s t i) {h : Hdr} {chk : Team → Nat → List WordCheck} (zero : List RegNo)
    {k : State → Team → List Nat → List Nat → Res} (hb : ∀ g ∈ t.groupsFor h, passing (chk t g)) :
    withTeam i s (withGroups i h chk zero k) = .next (conclude t.uid i.length (k (s.putTeam t) t (t.groupsFor h) (goers t h))) := by
  have hzero : zero.foldl (fun (t : Team) r => t.sAll r.toNat [] [RWord.zero]) t = t := List.foldl_fixed' (fun _ => rfl) _
  rw [withTeam_runs hr]
  simp only [withGroups, judgeGroups, judge_calm hr.calm hb, hzero, List.contains_nil, Bool.not_false, List.filter_true, goers]

end Sys2Proof.Machine
end

section
/-! The transfers of each word (R72, R73, R105, R106), and the obligation of transfers. -/

namespace Sys2Proof.Claims

open Sys2Proof Sys2Proof.Machine

/-! ### Conditions and checks -/

theorem selects_eq (t : Team) (l : Nat) (sel : Sel) : Sel.holds t l sel = selects t l sel := by
  unfold Sel.holds selects
  match sel with
  | .p false n | .q false n => simp
  | .p true n | .q true n => simp
  | .reg n =>
    rw [Bool.eq_iff_iff]
    simp [BitVec.toNat_eq]

theorem all_goers (t : Team) (h : Hdr) (f : Nat → Bool) : (goers t h).all f = t.activeLanes.all fun m => !inGroups t h m || f m := by
  rw [Bool.eq_iff_iff]
  simp only [List.all_eq_true, mem_goers_iff, Bool.or_eq_true, Bool.not_eq_true']
  refine forall_congr' fun m => ?_
  cases inGroups t h m <;> simp

theorem any_goers (t : Team) (h : Hdr) (f : Nat → Bool) : (goers t h).any f = t.activeLanes.any fun m => inGroups t h m && f m := by
  rw [Bool.eq_iff_iff]
  simp only [List.any_eq_true, mem_goers_iff, Bool.and_eq_true, and_assoc]

theorem selChecks_passing {t : Team} {h : Hdr} (ha : allGood t) (sel : Sel) : ∀ g ∈ t.groupsFor h, passing (Sel.checks t g sel) := fun g hg => by
  cases sel with
  | reg n => exact operandChecks_good (by simp [sGet_good ha (group_pos_of_mem hg)])
  | p _ _ | q _ _ => rfl

theorem loopChecks_passing {t : Team} {h : Hdr} (ha : allGood t) (n : BitVec 6) : ∀ g ∈ t.groupsFor h, passing (loopChecks n t g) := fun g hg =>
  resChecks_good _ _ (by simp [goodRun, sGet_good ha (group_pos_of_mem hg)])

theorem indexChecks_passing {t : Team} (ha : allGood t) (idx : RegNo) (g : Nat) : passing (indexChecks idx t g) :=
  operandChecks_good (by simpa using fun l _ => ha idx.toNat l)

/-! ### Register writes (R105, R106) -/

theorem linked_eq {t : Team} {len : Nat} (h : Hdr) (hf : t.pc.toNat % 4096 + len < 4096) : t.link (t.groupsFor h) (t.fall len) = linked t h len := by
  rw [Team.fall_eq hf]
  rfl

theorem linked_regs (t : Team) (h : Hdr) (len : Nat) : ∃ m q, linked t h len = t.groupRegs m q := Team.writeGroups_eq t _ _ _ t t.s t.q rfl

theorem loopCount_ne_zero (t : Team) (n : BitVec 6) (g : Nat) : (loopCount t n g != 0#32) = decide ((t.sGet n.toNat g).val ≠ 1) := by
  have hone : ∀ w : Word, w - 1 = 0#32 ↔ w = 1 := fun w => by
    constructor <;> intro <;> bv_omega
  rw [Bool.eq_iff_iff, bne_iff_ne, decide_eq_true_iff, loopCount, Ne, hone]

theorem loop_writes (t u : Team) (n : BitVec 6) (gs : List Nat) :
    gs.foldl (fun (u : Team) g => u.sPut n.toNat g (RWord.of (loopCount t n g))) u =
      u.writeGroups (192 + n.toNat) gs fun g => URes.num 1 ((t.sGet n.toNat g).val - 1).toNat := by
  have hput (u : Team) (g : Nat) : u.writeGroup (192 + n.toNat) g (URes.num 1 ((t.sGet n.toNat g).val - 1).toNat) =
      u.sPut n.toNat g (RWord.of (loopCount t n g)) := by
    simp only [Team.writeGroup, URes.num, natWords, Team.sWrite, Team.sFrom, Nat.add_sub_cancel_left, RWord.ofNat, BitVec.ofNat_toNat,
      BitVec.setWidth_eq, loopCount]
  simp only [Team.writeGroups, hput]

/-! ### Destinations -/

theorem indexed_one (which : Nat → Bool) (p : BitVec 16) (ls : List Nat) :
    Indexed (ls.map fun l => if which l then some (0, p) else none) := by
  constructor
  · intro k q hq
    obtain ⟨l, -, hl⟩ := List.mem_map.mp hq
    split at hl <;> cases hl
    omega
  · intro k q q' hq hq'
    obtain ⟨l, -, hl⟩ := List.mem_map.mp hq
    obtain ⟨l', -, hl'⟩ := List.mem_map.mp hq'
    split at hl <;> split at hl' <;> cases hl <;> cases hl'
    rfl

theorem indexed_table (which : Nat → Bool) (index : Nat → Nat) {ts : List (BitVec 16)} {ls : List Nat} (hlen : ts.length ≤ 256)
    (hin : ∀ l ∈ ls, which l = true → index l < ts.length) :
    Indexed (ls.map fun l => if which l then some (index l, (ts[index l]?).getD 0) else none) := by
  constructor
  · intro k q hq
    obtain ⟨l, hl, hlq⟩ := List.mem_map.mp hq
    split at hlq <;> cases hlq
    next hw =>
      have := hin l hl hw
      omega
  · intro k q q' hq hq'
    obtain ⟨l, -, hl⟩ := List.mem_map.mp hq
    obtain ⟨l', -, hl'⟩ := List.mem_map.mp hq'
    split at hl <;> cases hl
    split at hl'
    · obtain ⟨hk, rfl⟩ := Prod.mk.inj (Option.some.inj hl')
      rw [hk]
    · cases hl'

section
variable {s : State} {t : Team} {i : Instr} {r : JumpRule}

/-- A transfer of some of the word's lanes to one target. -/
theorem transfers_one {rcv : BitVec 13} {which : Nat → Bool} {p : BitVec 16} {u : Team} {ls : List Nat} {write : Team → Team}
    (hrule : oneTarget rcv which p u = some r)
    (hexec : exec i s = .next (conclude t.uid i.length (transfer i.length rcv (goTo ls p) write (s.putTeam t) t)))
    (hls : ∀ l ∈ t.activeLanes, ls.contains l = which l) (hw : write t = u) (hregs : ∃ m q, u = t.groupRegs m q) :
    Transfers s t i r (goTo ls p) write := by
  cases hrule
  exact ⟨hexec, fun l hl => by rw [goTo, hls l hl], hw, hregs, indexed_one ..⟩

theorem contains_filter_goers {h : Hdr} {l : Nat} (hl : l ∈ t.activeLanes) (f : Nat → Bool) :
    ((goers t h).filter f).contains l = (inGroups t h l && f l) := by
  rw [← contains_goers hl, Bool.eq_iff_iff]
  simp

theorem contains_if_goers {h : Hdr} {l : Nat} (hl : l ∈ t.activeLanes) (b : Bool) :
    (if b = true then goers t h else []).contains l = (inGroups t h l && b) := by
  cases b with
  | false => simp
  | true => rw [if_pos rfl, contains_goers hl, Bool.and_true]

/-- A transfer by register, whose groups agree on a target within the segment. -/
theorem transfers_reg {h : Hdr} {n : BitVec 6} {rcv : BitVec 13} {u : Team} {write : Team → List Nat → Team → Team} {zero : List RegNo}
    (hr : Runs s t i) (ha : allGood t) (hrule : regRule t h n rcv u = some r) (hok : r.ok)
    (hexec : exec i s = withTeam i s (withGroups i h (fun t g => Sel.checks t g (.reg n)) zero (regTransfer i n rcv write)))
    (hw : write t (t.groupsFor h) t = u) (hregs : ∃ m q, u = t.groupRegs m q) (hnone : t.groupsFor h = [] → u = t) :
    ∃ dest write, Transfers s t i r dest write := by
  cases hrule
  have hexec := hexec.trans (withGroups_runs hr zero (selChecks_passing ha (.reg n)))
  cases hgs : t.groupsFor h with
  | nil =>
    have hno : ∀ l, inGroups t h l = false := fun l => by simp [inGroups, hgs]
    refine ⟨fun _ => none, id, ?_, fun l _ => by simp [hno], (hnone hgs).symm, hregs, ?_⟩
    · rw [hexec, hgs]
      rfl
    · simp [Indexed, hno]
  | cons lead rest =>
    have hlead : lead ∈ t.groupsFor h := by rw [hgs]; exact List.mem_cons_self
    obtain ⟨hagree, hseg⟩ := hok lead hlead
    have htrunc : ∀ g, (t.sGet n.toNat g).val.extractLsb' 0 16 = (t.sGet n.toNat g).val.truncate 16 := fun g => by
      apply BitVec.eq_of_toNat_eq
      simp
    have hgoes : ∀ l, (if inGroups t h l = true then some (0, (t.sGet n.toNat (l / t.group)).val.truncate 16) else none : Dest) =
        if inGroups t h l = true then some (0, (t.sGet n.toNat lead).val.truncate 16) else none := fun l => by
      split
      · next hin => exact congrArg (fun p => some (0, p)) (hagree _ (by simpa [inGroups] using hin))
      · rfl
    refine ⟨goTo (goers t h) ((t.sGet n.toNat lead).val.truncate 16), write t (t.groupsFor h), ?_, fun l hl => ?_, hw, hregs, ?_⟩
    · have hother : ((t.groupsFor h).filter fun g => (t.sGet n.toNat g).val.truncate 16 != (t.sGet n.toNat lead).val.truncate 16) = [] :=
        List.filter_eq_nil_iff.mpr fun g hg => by simp [hagree g hg]
      rw [hexec]
      simp only [regTransfer, hgs, htrunc]
      rw [← hgs, hother]
      simp only [List.isEmpty_nil, Bool.not_true, Bool.false_eq_true, if_false, (sameSegment_iff _ _).mpr hseg, if_true]
    · rw [goTo, contains_goers hl]
      exact (hgoes l).symm
    · rw [show (t.activeLanes.map fun l => (if inGroups t h l = true then some (0, (t.sGet n.toNat (l / t.group)).val.truncate 16) else none : Dest)) =
        _ from List.map_congr_left fun l _ => hgoes l]
      exact indexed_one ..

/-- A transfer by table, whose lanes' indices are within the list and whose targets are within the segment. -/
theorem transfers_table {h : Hdr} {idx : RegNo} {rcv : BitVec 13} {ts : List (BitVec 16)} {u : Team}
    {write : Team → List Nat → Team → Team} {zero : List RegNo}
    (hr : Runs s t i) (ha : allGood t) (hrule : tableRule t h idx rcv ts u = some r) (hok : r.ok)
    (hexec : exec i s = withTeam i s (withGroups i h (indexChecks idx) zero (tableTransfer i idx rcv ts write)))
    (hw : write t (t.groupsFor h) t = u) (hregs : ∃ m q, u = t.groupRegs m q) : ∃ dest write, Transfers s t i r dest write := by
  cases hrule
  obtain ⟨hlen, hin⟩ := hok
  have hexec := hexec.trans (withGroups_runs hr zero fun g _ => indexChecks_passing ha idx g)
  have hgoer : ∀ l ∈ goers t h, (t.rGet idx.toNat l).val.toNat < ts.length ∧
      ((ts[(t.rGet idx.toNat l).val.toNat]?).getD 0).toNat / 4096 = t.pc.toNat / 4096 := fun l hl => by
    obtain ⟨hact, hg⟩ := mem_goers_iff.mp hl
    obtain ⟨p, hp, hseg⟩ := hin l hact hg
    rw [hp]
    exact ⟨(List.getElem?_eq_some_iff.mp hp).1, hseg⟩
  refine ⟨fun l => if (goers t h).contains l then some ((t.rGet idx.toNat l).val.toNat, (ts[(t.rGet idx.toNat l).val.toNat]?).getD 0) else none,
    write t (t.groupsFor h), ?_, fun l hl => by rw [contains_goers hl], hw, hregs, ?_⟩
  · have hout : ((goers t h).filter fun l => decide ((t.rGet idx.toNat l).val.toNat ≥ ts.length)) = [] :=
      List.filter_eq_nil_iff.mpr fun l hl => by simpa using (hgoer l hl).1
    have hseg : ((goers t h).any fun l =>
        ((ts[(t.rGet idx.toNat l).val.toNat]?).getD 0).extractLsb' 12 4 != t.pc.extractLsb' 12 4) = false :=
      List.any_eq_false.mpr fun l hl => by simpa using (sameSegment_iff _ _).mpr (hgoer l hl).2
    rw [hexec]
    simp only [tableTransfer, hout, hseg, List.isEmpty_nil, Bool.not_true, Bool.false_eq_true, if_false]
  · exact indexed_table (inGroups t h) _ hlen fun l hl hg => (hgoer l (mem_goers_iff.mpr ⟨hl, hg⟩)).1

/-- Every word of the transfers makes the transfer of its rule. -/
theorem transfers_of_rule (hrule : jumpRule t i = some r) (hr : Runs s t i) (ha : allGood t) (hok : r.ok) :
    ∃ dest write, Transfers s t i r dest write := by
  have hself : ∃ m q, t = t.groupRegs m q := ⟨t.s, t.q, rfl⟩
  cases i with
  | sJmp h off rcv =>
    exact ⟨_, id, transfers_one hrule (withGroups_runs hr [] fun _ _ => rfl) (fun l hl => contains_goers hl) rfl hself⟩
  | sBr h sel off rcv =>
    refine ⟨_, id, transfers_one hrule (withGroups_runs hr [] (selChecks_passing ha sel)) (fun l hl => ?_) rfl hself⟩
    rw [contains_filter_goers hl, selects_eq]
  | sBrAll h sel off rcv =>
    refine ⟨_, id, transfers_one hrule (withGroups_runs hr [] (selChecks_passing ha sel)) (fun l hl => ?_) rfl hself⟩
    rw [contains_if_goers hl, all_goers]
    simp only [selects_eq]
  | sBrAny h sel off rcv =>
    refine ⟨_, id, transfers_one hrule (withGroups_runs hr [] (selChecks_passing ha sel)) (fun l hl => ?_) rfl hself⟩
    rw [contains_if_goers hl, any_goers]
    simp only [selects_eq]
  | sLoop h n off rcv =>
    refine ⟨_, _, transfers_one hrule (withGroups_runs hr _ (loopChecks_passing ha n)) (fun l hl => ?_) (loop_writes t t n _)
      (Team.writeGroups_eq t _ _ _ t t.s t.q rfl)⟩
    rw [contains_filter_goers hl, loopCount_ne_zero]
  | sCall h off rcv =>
    exact ⟨_, _, transfers_one hrule (withGroups_runs hr [linkReg] fun _ _ => rfl) (fun l hl => contains_goers hl) (linked_eq h hr.fits)
      (linked_regs t h _)⟩
  | sJr h n rcv => exact transfers_reg hr ha hrule hok rfl rfl hself fun _ => rfl
  | sCallr h n rcv =>
    exact transfers_reg hr ha hrule hok rfl (linked_eq h hr.fits) (linked_regs t h _) fun hg => by rw [linked, hg]; rfl
  | sBtab h idx rcv ts => exact transfers_table hr ha hrule hok rfl rfl hself
  | sBtabc h idx rcv ts => exact transfers_table hr ha hrule hok rfl (linked_eq h hr.fits) (linked_regs t h _)
  | _ => cases hrule

theorem before_of_runsBefore {ft p q : BitVec 16} (h : runsBefore t r ft p q) : Before ft (t.activeLanes.map r.goes) p q := by
  obtain ⟨hp, h⟩ := h
  refine ⟨hp, h.imp_right ?_⟩
  rintro ⟨l, hl, k, hk, hlt⟩
  refine ⟨k, List.mem_map.mpr ⟨l, hl, hk⟩, fun j hj => ?_⟩
  obtain ⟨m, hm, hj⟩ := List.mem_map.mp hj
  exact hlt m hm j hj

end

/-- Settles O12: each word makes one transfer, and that goes on, arrives or parts its lanes by where they go. -/
theorem transfersComplete : Obligations.TransfersComplete := by
  unfold Obligations.TransfersComplete
  intro s t i r hrule hr ha hok
  obtain ⟨dest, write, h⟩ := transfers_of_rule hrule hr ha hok
  rw [← Team.fall_eq hr.fits]
  exact ⟨h.goes_on hr, fun p hp hne hall => h.arrives hr hp hne hall, fun ps htwo hmem hps hlen hdepth =>
    h.parts hr htwo hmem (hps.imp before_of_runsBefore) hlen hdepth⟩

end Sys2Proof.Claims
end

section
/-! The uniform words (R100 to R103): each function of the model's arithmetic gives the number of the bits that the rule names, and each word of the
tables comes to its rule's result. -/

namespace Sys2Proof.Machine

open Sys2Proof Sys2Proof.Claims

/- One theorem after another: side by side, their threads would fill the memory. -/
set_option Elab.async false

/-! ### Numbers and the bits that they stand for -/

theorem wrap_eq (w : Nat) (z : Int) : wrap w z = (BitVec.ofInt w z).toNat := (BitVec.toNat_ofInt ..).symm

theorem signedVal_eq {w : Nat} (hw : 0 < w) (x : Nat) : signedVal w x = (BitVec.ofNat w x).toInt := by
  obtain ⟨v, rfl⟩ : ∃ v, w = v + 1 := ⟨w - 1, by omega⟩
  simp only [signedVal, BitVec.toInt_eq_toNat_cond, BitVec.toNat_ofNat, Nat.add_sub_cancel, Nat.pow_succ]
  have := Nat.mod_lt x (Nat.two_pow_pos (v + 1))
  push_cast
  split <;> split <;> omega

theorem width_pos (ty : Ty) : 0 < ty.width := by cases ty <;> decide

theorem tyVal_eq (ty : Ty) (x : Nat) : tyVal ty x = valueOf ty (BitVec.ofNat ty.width x) := by
  simp only [tyVal, valueOf, signedVal_eq (width_pos ty), BitVec.toNat_ofNat]

/-! ### Sums and products (R101) -/

section
variable (ty : Ty) (a b : Nat)

theorem aluAdd_eq : aluAdd ty a b = (BitVec.ofNat ty.width a + BitVec.ofNat ty.width b).toNat := by
  rw [BitVec.ofNat_add_ofNat, BitVec.toNat_ofNat, aluAdd]

theorem aluSub_eq : aluSub ty a b = (BitVec.ofNat ty.width a - BitVec.ofNat ty.width b).toNat := by
  rw [aluSub, wrap_eq, sub_eq_add_neg, BitVec.ofInt_add, BitVec.ofInt_neg, BitVec.ofInt_natCast, BitVec.ofInt_natCast, BitVec.sub_eq_add_neg]

theorem aluMul_eq : aluMul ty a b = (BitVec.ofNat ty.width a * BitVec.ofNat ty.width b).toNat := by
  rw [BitVec.toNat_mul, BitVec.toNat_ofNat, BitVec.toNat_ofNat, ← Nat.mul_mod, aluMul]

/-- The part of a number above a width, of twice the width's bits. -/
theorem wrap_div_two_pow (w : Nat) (z : Int) : wrap (2 * w) z / 2 ^ w = (BitVec.ofInt w (z / 2 ^ w)).toNat := by
  have hm : ((2 ^ (2 * w) : Nat) : Int) = 2 ^ w * 2 ^ w := by push_cast; ring
  have hpos : (0 : Int) < 2 ^ w := by positivity
  have hr : z % (2 ^ w * 2 ^ w) / 2 ^ w = z / 2 ^ w % 2 ^ w := by
    rw [Int.emod_def z (2 ^ w * 2 ^ w), ← Int.ediv_ediv_of_nonneg hpos.le, Int.emod_def (z / 2 ^ w), mul_assoc,
      Int.sub_mul_ediv_left _ _ hpos.ne']
  obtain ⟨r, hnat⟩ := Int.eq_ofNat_of_zero_le (Int.emod_nonneg z (b := 2 ^ w * 2 ^ w) (by positivity))
  rw [wrap, BitVec.toNat_ofInt, hm, Nat.cast_pow, Nat.cast_ofNat, ← hr, hnat]
  norm_cast

theorem aluMulh_eq : aluMulh ty a b =
    (BitVec.ofInt ty.width (valueOf ty (BitVec.ofNat ty.width a) * valueOf ty (BitVec.ofNat ty.width b) / 2 ^ ty.width)).toNat := by
  rw [aluMulh, tyVal_eq, tyVal_eq, wrap_div_two_pow]

/-! ### Bitwise operations (R101) -/

theorem aluAnd_eq : aluAnd ty a b = (BitVec.ofNat ty.width a &&& BitVec.ofNat ty.width b).toNat := by
  rw [aluAnd, BitVec.toNat_and, BitVec.toNat_ofNat, BitVec.toNat_ofNat, Nat.and_mod_two_pow]

theorem aluOr_eq : aluOr ty a b = (BitVec.ofNat ty.width a ||| BitVec.ofNat ty.width b).toNat := by
  rw [aluOr, BitVec.toNat_or, BitVec.toNat_ofNat, BitVec.toNat_ofNat, Nat.or_mod_two_pow]

theorem aluXor_eq : aluXor ty a b = (BitVec.ofNat ty.width a ^^^ BitVec.ofNat ty.width b).toNat := by
  rw [aluXor, BitVec.toNat_xor, BitVec.toNat_ofNat, BitVec.toNat_ofNat, Nat.xor_mod_two_pow]

theorem aluAndn_eq : aluAndn ty a b = (BitVec.ofNat ty.width a &&& ~~~BitVec.ofNat ty.width b).toNat := by
  rw [aluAndn, notBits, BitVec.toNat_and, BitVec.toNat_not, BitVec.toNat_ofNat, BitVec.toNat_ofNat]

/-! ### The lesser and the greater value (R101) -/

theorem aluMin_eq : aluMin ty a b = (if valueOf ty (BitVec.ofNat ty.width b) < valueOf ty (BitVec.ofNat ty.width a) then BitVec.ofNat ty.width b
    else BitVec.ofNat ty.width a).toNat := by
  rw [aluMin, tyVal_eq, tyVal_eq, apply_ite BitVec.toNat, BitVec.toNat_ofNat, BitVec.toNat_ofNat]

theorem aluMax_eq : aluMax ty a b = (if valueOf ty (BitVec.ofNat ty.width b) > valueOf ty (BitVec.ofNat ty.width a) then BitVec.ofNat ty.width b
    else BitVec.ofNat ty.width a).toNat := by
  rw [aluMax, tyVal_eq, tyVal_eq, apply_ite BitVec.toNat, BitVec.toNat_ofNat, BitVec.toNat_ofNat]

/-! ### Shifts (R101) -/

variable (w n : Nat)

theorem shl_eq : shl w a n = (BitVec.ofNat w a <<< n).toNat := by
  rw [BitVec.toNat_shiftLeft, BitVec.toNat_ofNat, Nat.shiftLeft_eq, Nat.mod_mul_mod, shl]
  split
  · next h => exact (Nat.mod_eq_zero_of_dvd ((Nat.pow_dvd_pow 2 h).mul_left a)).symm
  · rfl

theorem shr_eq : shr w a n = (BitVec.ofNat w a >>> n).toNat := by
  rw [BitVec.toNat_ushiftRight, BitVec.toNat_ofNat, Nat.shiftRight_eq_div_pow, shr]
  split
  · next h => exact (Nat.div_eq_of_lt ((Nat.mod_lt _ (Nat.two_pow_pos w)).trans_le (Nat.pow_le_pow_right (by decide) h))).symm
  · rfl

/-- A signed value shifted by its width or more is all sign. -/
theorem toInt_shiftRight_of_le {w n : Nat} (x : BitVec w) (h : w ≤ n) : x.toInt >>> n = x.toInt >>> w := by
  have hlt := @BitVec.two_mul_toInt_lt w x
  have hle := @BitVec.le_two_mul_toInt w x
  have key : ∀ k : Nat, w ≤ k → x.toInt >>> k = if x.toInt < 0 then -1 else 0 := fun k hk => by
    have hpow : (2 : Int) ^ w ≤ 2 ^ k := by exact_mod_cast Nat.pow_le_pow_right (by decide) hk
    rw [Int.shiftRight_eq_div_pow]
    push_cast
    split
    · exact (Int.ediv_eq_iff_of_pos (by positivity)).mpr ⟨by linarith, by linarith⟩
    · exact Int.ediv_eq_zero_of_lt (by omega) (by linarith)
  rw [key n h, key w le_rfl]

theorem sra_eq (hw : 0 < w) : sra w a n = ((BitVec.ofNat w a).sshiftRight n).toNat := by
  rw [sra, wrap_eq, signedVal_eq hw, BitVec.sshiftRight, ← Int.shiftRight_eq_div_pow]
  split
  · next h => rw [toInt_shiftRight_of_le _ h]
  · rfl

/-- The count of a register shift is a register's value. -/
theorem shiftCount_eq : shiftCount n = (BitVec.ofNat 32 n).toNat := (BitVec.toNat_ofNat ..).symm

theorem shl_count : shl w a (shiftCount n) = (BitVec.ofNat w a <<< (BitVec.ofNat 32 n).toNat).toNat := by rw [shl_eq, shiftCount_eq]

theorem shr_count : shr w a (shiftCount n) = (BitVec.ofNat w a >>> (BitVec.ofNat 32 n).toNat).toNat := by rw [shr_eq, shiftCount_eq]

theorem sra_count : sra ty.width a (shiftCount n) = ((BitVec.ofNat ty.width a).sshiftRight (BitVec.ofNat 32 n).toNat).toNat := by
  rw [sra_eq _ _ _ (width_pos ty), shiftCount_eq]

/-- A 64-bit base and an extended offset, shifted (R101). -/
theorem aluLea_eq : aluLea ty a b n = (BitVec.ofNat 64 a + BitVec.ofInt 64 (valueOf ty (BitVec.ofNat ty.width b)) <<< n).toNat := by
  have hpow : BitVec.ofNat 64 (2 ^ n) = BitVec.twoPow 64 n := BitVec.eq_of_toNat_eq (by rw [BitVec.toNat_ofNat, BitVec.toNat_twoPow])
  rw [aluLea, wrap_eq, tyVal_eq, BitVec.ofInt_add, BitVec.ofInt_mul, BitVec.shiftLeft_eq_mul_twoPow, BitVec.ofInt_natCast,
    BitVec.ofInt_natCast, hpow]

/-! ### Immediates (R101, R102) -/

variable {v : Nat} (imm : BitVec v)

theorem immSext_eq : immSext ty imm = (imm.signExtend ty.width).toNat := wrap_eq ..

theorem aluAdd_immSext : aluAdd ty a (immSext ty imm) = (BitVec.ofNat ty.width a + imm.signExtend ty.width).toNat := by
  rw [aluAdd_eq, immSext_eq, BitVec.ofNat_toNat, BitVec.setWidth_eq]

theorem aluAnd_imm : aluAnd ty a imm.toNat = (BitVec.ofNat ty.width a &&& imm.zeroExtend ty.width).toNat := by
  rw [aluAnd_eq, BitVec.ofNat_toNat]

theorem aluOr_imm : aluOr ty a imm.toNat = (BitVec.ofNat ty.width a ||| imm.zeroExtend ty.width).toNat := by
  rw [aluOr_eq, BitVec.ofNat_toNat]

theorem aluXor_imm : aluXor ty a imm.toNat = (BitVec.ofNat ty.width a ^^^ imm.zeroExtend ty.width).toNat := by
  rw [aluXor_eq, BitVec.ofNat_toNat]

end

end Sys2Proof.Machine
end

section
/-! The obligation of uniform words: the rows of the three tables. -/

namespace Sys2Proof.Claims

open Sys2Proof Sys2Proof.Machine

/- One theorem after another: side by side, their threads would fill the memory. -/
set_option Elab.async false

/-- A word that runs with right codes comes to what the rule says. -/
def GroupRule.ruleOf (r : GroupRule) (i : Instr) : Prop :=
  ∀ (s : State) (t : Team), Runs s t i → r.codesGood t → exec i s = .next (r.after s t i)

theorem groupWith_rule {i : Instr} {r : GroupRule} {copies : Bool} {chk : Team → Nat → List RWord → List WordCheck} {f : Team → Nat → URes}
    (he : ∀ s, exec i s = withTeam i s (groupWith i r.h copies r.d chk f))
    (hp : ∀ t, r.codesGood t → ∀ g ∈ t.groupsFor r.h, passing (chk t g (f t g).words))
    (hf : ∀ t g, f t g = r.res t g ((t.groupSrcs r.srcs g).map wordsNat)) : r.ruleOf i := fun s t hr hg => by
  rw [he, groupWith_runs hr (hp t hg), GroupRule.after, funext (hf t)]

/-- A word over the values of its sources. -/
theorem groupOp_rule {i : Instr} {h : Hdr} {d : RegNo} {srcs : List (RegNo × Nat)} {f g : Team → Nat → List Nat → URes}
    (he : ∀ s, exec i s = withTeam i s (groupOp i h d srcs f)) (hf : ∀ t k vs, f t k vs = g t k vs) :
    GroupRule.ruleOf { h := h, d := d, srcs := srcs, res := g } i :=
  groupWith_rule he (fun _ hg k hk => resChecks_good _ _ (hg.1 k hk)) fun t k => hf t k _

/-- A word on two sources of its type. -/
theorem groupBin_rule {i : Instr} {h : Hdr} {ty : Ty} {d a b : RegNo} {f : Nat → Nat → Nat} {g : Team → Nat → List Nat → URes}
    (he : ∀ s, exec i s = withTeam i s (groupBin i h ty d a b f))
    (hf : ∀ t k vs, URes.num (regsOf ty) (f (vs.headD 0) ((vs.drop 1).headD 0)) = g t k vs) :
    GroupRule.ruleOf { h := h, d := d, srcs := [(a, regsOf ty), (b, regsOf ty)], res := g } i :=
  groupOp_rule (f := fun _ _ vs => URes.num (regsOf ty) (f (vs.headD 0) ((vs.drop 1).headD 0))) he hf

/-- A word on one source of its type. -/
theorem groupUn_rule {i : Instr} {h : Hdr} {ty : Ty} {d a : RegNo} {f : Nat → Nat} {g : Team → Nat → List Nat → URes}
    (he : ∀ s, exec i s = withTeam i s (groupUn i h ty d a f)) (hf : ∀ t k vs, URes.num (regsOf ty) (f (vs.headD 0)) = g t k vs) :
    GroupRule.ruleOf { h := h, d := d, srcs := [(a, regsOf ty)], res := g } i :=
  groupOp_rule (f := fun _ _ vs => URes.num (regsOf ty) (f (vs.headD 0))) he hf

/-- A word on predicates. -/
theorem groupPred_rule {i : Instr} {h : Hdr} {q : BitVec 3} {f : Team → Nat → Bool} {g : Team → Nat → List Nat → URes}
    (he : ∀ s, exec i s = withTeam i s (groupPred i h q f)) (hf : ∀ t k vs, URes.flag q.toNat (f t k) = g t k vs) :
    GroupRule.ruleOf { h := h, d := 192, srcs := [], res := g } i :=
  groupOp_rule (f := fun t k _ => URes.flag q.toNat (f t k)) he hf

theorem sRun_one (t : Team) (r g : Nat) : wordsNat (t.sRun r 1 g) = (t.sGet (r - 192) g).val.toNat := by
  simp [Team.sRun, wordsNat]

/-- `s.movhi` puts the immediate above the low half of the register (R101). -/
theorem movhi_eq (imm : BitVec 16) (w : Word) : imm.toNat * 2 ^ 16 + w.toNat % 2 ^ 16 = (imm ++ w.extractLsb' 0 16).toNat := by
  rw [BitVec.toNat_append, BitVec.extractLsb'_toNat, Nat.shiftRight_zero, ← Nat.shiftLeft_add_eq_or_of_lt (Nat.mod_lt _ (by decide)),
    Nat.shiftLeft_eq]

/-- Every row of R101's table. -/
theorem uniformArithmetic_rule {i : Instr} {r : GroupRule} (hrule : uniformArithmetic i = some r) : r.ruleOf i := by
  cases i with
  | sAdd h ty d a b => cases hrule; exact groupBin_rule (fun _ => rfl) fun _ _ _ => congrArg (URes.num _) (aluAdd_eq ..)
  | sSub h ty d a b => cases hrule; exact groupBin_rule (fun _ => rfl) fun _ _ _ => congrArg (URes.num _) (aluSub_eq ..)
  | sMul h ty d a b => cases hrule; exact groupBin_rule (fun _ => rfl) fun _ _ _ => congrArg (URes.num _) (aluMul_eq ..)
  | sMulh h ty d a b => cases hrule; exact groupBin_rule (fun _ => rfl) fun _ _ _ => congrArg (URes.num _) (aluMulh_eq ..)
  | sAnd h ty d a b => cases hrule; exact groupBin_rule (fun _ => rfl) fun _ _ _ => congrArg (URes.num _) (aluAnd_eq ..)
  | sOr h ty d a b => cases hrule; exact groupBin_rule (fun _ => rfl) fun _ _ _ => congrArg (URes.num _) (aluOr_eq ..)
  | sXor h ty d a b => cases hrule; exact groupBin_rule (fun _ => rfl) fun _ _ _ => congrArg (URes.num _) (aluXor_eq ..)
  | sAndn h ty d a b => cases hrule; exact groupBin_rule (fun _ => rfl) fun _ _ _ => congrArg (URes.num _) (aluAndn_eq ..)
  | sShl h ty d a b => cases hrule; exact groupBin_rule (fun _ => rfl) fun _ _ _ => congrArg (URes.num _) (shl_count ..)
  | sShr h ty d a b => cases hrule; exact groupBin_rule (fun _ => rfl) fun _ _ _ => congrArg (URes.num _) (shr_count ..)
  | sSra h ty d a b => cases hrule; exact groupBin_rule (fun _ => rfl) fun _ _ _ => congrArg (URes.num _) (sra_count ..)
  | sMin h ty d a b => cases hrule; exact groupBin_rule (fun _ => rfl) fun _ _ _ => congrArg (URes.num _) (aluMin_eq ..)
  | sMax h ty d a b => cases hrule; exact groupBin_rule (fun _ => rfl) fun _ _ _ => congrArg (URes.num _) (aluMax_eq ..)
  | sLea h ty d a b sh => cases hrule; exact groupOp_rule (fun _ => rfl) fun _ _ _ => congrArg (URes.num _) (aluLea_eq ..)
  | sAddi h ty d a imm => cases hrule; exact groupUn_rule (fun _ => rfl) fun _ _ _ => congrArg (URes.num _) (aluAdd_immSext ..)
  | sAndi h ty d a imm => cases hrule; exact groupUn_rule (fun _ => rfl) fun _ _ _ => congrArg (URes.num _) (aluAnd_imm ..)
  | sOri h ty d a imm => cases hrule; exact groupUn_rule (fun _ => rfl) fun _ _ _ => congrArg (URes.num _) (aluOr_imm ..)
  | sXori h ty d a imm => cases hrule; exact groupUn_rule (fun _ => rfl) fun _ _ _ => congrArg (URes.num _) (aluXor_imm ..)
  | sShli h ty d a imm => cases hrule; exact groupUn_rule (fun _ => rfl) fun _ _ _ => congrArg (URes.num _) (shl_eq ..)
  | sShri h ty d a imm => cases hrule; exact groupUn_rule (fun _ => rfl) fun _ _ _ => congrArg (URes.num _) (shr_eq ..)
  | sSrai h ty d a imm => cases hrule; exact groupUn_rule (fun _ => rfl) fun _ _ _ => congrArg (URes.num _) (sra_eq _ _ _ (width_pos ty))
  | sMovi h ty d imm => cases hrule; exact groupOp_rule (fun _ => rfl) fun _ _ _ => by rw [immMov, immSext_eq]
  | sMovhi h d imm => cases hrule; exact groupOp_rule (fun _ => rfl) fun t g _ => congrArg (URes.num 1) (by rw [sRun_one, movhi_eq])
  | sNop h => cases hrule; exact groupOp_rule (fun _ => rfl) fun _ _ _ => rfl
  | _ => cases hrule

/-- The active lanes of a group, as R102's `s.qany` and `s.qall` count them. -/
theorem any_groupActive (t : Team) (g : Nat) (p : Nat → Bool) :
    (t.groupActive g).any p = decide (∃ l ∈ t.groupLanes g, t.active l = true ∧ p l = true) := by
  rw [Bool.eq_iff_iff, List.any_eq_true, decide_eq_true_iff]
  simp only [Team.groupActive, List.mem_filter, and_assoc]

theorem all_groupActive (t : Team) (g : Nat) (p : Nat → Bool) :
    (t.groupActive g).all p = decide (∀ l ∈ t.groupLanes g, t.active l = true → p l = true) := by
  rw [Bool.eq_iff_iff, List.all_eq_true, decide_eq_true_iff]
  simp only [Team.groupActive, List.mem_filter, and_imp]

/-- Every row of R102's table. -/
theorem uniformPredicates_rule {i : Instr} {r : GroupRule} (hrule : uniformPredicates i = some r) : r.ruleOf i := by
  cases i with
  | sCmp h cc ty q a b => cases hrule; exact groupOp_rule (fun _ => rfl) fun _ _ _ => by rw [tyVal_eq, tyVal_eq]
  | sCmpi h cc ty q a imm => cases hrule; exact groupOp_rule (fun _ => rfl) fun _ _ _ => by rw [tyVal_eq, immCmp]
  | sQand h q qa qb => cases hrule; exact groupPred_rule (fun _ => rfl) fun _ _ _ => rfl
  | sQor h q qa qb => cases hrule; exact groupPred_rule (fun _ => rfl) fun _ _ _ => rfl
  | sQxor h q qa qb => cases hrule; exact groupPred_rule (fun _ => rfl) fun _ _ _ => rfl
  | sQany h q pa => cases hrule; exact groupPred_rule (fun _ => rfl) fun _ _ _ => congrArg (URes.flag _) (any_groupActive ..)
  | sQall h q pa => cases hrule; exact groupPred_rule (fun _ => rfl) fun _ _ _ => congrArg (URes.flag _) (all_groupActive ..)
  | _ => cases hrule

theorem headD_groupActive (t : Team) (g : Nat) : (t.groupActive g).headD 0 = ((t.groupLanes g).find? t.active).getD 0 := by
  rw [Team.groupActive, List.headD_eq_head?_getD, List.head?_filter]

/-- Every row of the moves' table. -/
theorem uniformMoves_rule {i : Instr} {r : GroupRule} (hrule : uniformMoves i = some r) : r.ruleOf i := by
  cases i with
  | sSel h ty d a b q neg =>
    cases hrule
    refine groupWith_rule (fun _ => rfl) (fun t hg g hl => operandChecks_good ?_) fun t g => ?_
    · rw [chosen_eq]
      exact hg.2 g hl
    · rw [chosen_eq]
  | sMov h ty d a b => cases hrule; exact groupWith_rule (fun _ => rfl) (fun _ _ _ _ => rfl) fun _ _ => rfl
  | sVrd h ty d a b c => cases hrule; exact groupWith_rule (fun _ => rfl) (fun _ _ _ _ => rfl) fun _ _ => rfl
  | sVrdf h ty d a b => cases hrule; exact groupWith_rule (fun _ => rfl) (fun _ _ _ _ => rfl) fun t g => by rw [headD_groupActive]
  | _ => cases hrule

/-- Settles O1, row by row of the three tables. -/
theorem uniformWordsComplete : Obligations.UniformWordsComplete := by
  unfold Obligations.UniformWordsComplete
  exact ⟨fun s t _ _ h => uniformArithmetic_rule h s t, fun s t _ _ h => uniformPredicates_rule h s t,
    fun s t _ _ h => uniformMoves_rule h s t⟩

end Sys2Proof.Claims
end

section
/-! CSR reads (R122 to R126): the rows of the table. -/

namespace Sys2Proof.Claims

open Sys2Proof Sys2Proof.Machine

/- One theorem after another: side by side, their threads would fill the memory. -/
set_option Elab.async false

/-! ### The values of CSRs -/

theorem recordWord_eq (s : State) (t : Team) (n w : Nat) : (mcWord s t n w).toNat = recordWord s t n w := by
  simp only [mcWord, recordWord, bits]
  cases ((s.core t.home).mcRec n).readable with
  | false => simp
  | true => by_cases h : t.privileged = true ∨ (((s.core t.home).mcRec n).words.headD 0).toNat / 2 ^ 32 % 2 ^ 12 = t.asid <;> simp_all

theorem foldl_add_eq_sum (f : Nat → Nat) : ∀ (l : List Nat) (m : Nat), l.foldl (fun (m : Nat) i => m + f i) m = m + (l.map f).sum
  | [], m => by simp
  | i :: l, m => by rw [List.foldl_cons, foldl_add_eq_sum f l, List.map_cons, List.sum_cons, Nat.add_assoc]

theorem islst_eq (s : State) (n : Nat) : islst s n = islandStates s n := by
  rw [islst, foldl_add_eq_sum, Nat.zero_add, islandStates]
  rfl

/-- A CSR of a block of numbers: a word of `FLM` or of `DROPL`, a word of a record, or a row of the ramp table (R123, R195, R414). -/
theorem csrValue_block (s : State) (t : Team) (n : Nat)
    (h : (0x040 ≤ n ∧ n < 0x080) ∨ (0x100 ≤ n ∧ n < 0x180) ∨ (0x270 ≤ n ∧ n < 0x280)) :
    csrValue s t n =
      if 0x040 ≤ n ∧ n < 0x060 then (t.flm.extractLsb' (32 * (n - 0x040)) 32).toNat
      else if 0x060 ≤ n ∧ n < 0x080 then (t.dropl.extractLsb' (32 * (n - 0x060)) 32).toNat
      else if 0x100 ≤ n ∧ n < 0x180 then (mcWord s t ((n - 0x100) / 8) (n % 8)).toNat
      else if 0x270 ≤ n ∧ n < 0x280 then (s.rampTab (n - 0x270)).toNat
      else 0 := by
  unfold csrValue
  split
  case h_61 => rfl
  all_goals omega

theorem dieOf_eq_zero_iff (k : Nat) : dieOf k = 0 ↔ k < 192 := by
  rw [dieOf]
  omega

/-! ### The table of reads -/

/-- A row of the table of reads gives its register's width and value. -/
def ReadsRight (s : State) (t : Team) (e : Nat × Nat × Nat) : Prop := e.2.1 = csrWidthNat e.1 ∧ e.2.2 = csrValue s t e.1

theorem csrReads_right (s : State) (t : Team) : ∀ e ∈ csrReads s t, ReadsRight s t e := by
  unfold csrReads
  simp only [List.forall_mem_append, List.forall_mem_map, List.mem_range]
  refine ⟨⟨⟨⟨?named, fun n hn => ?record⟩, fun b hb => ?ramp⟩, fun n hn => ?flm⟩, fun n hn => ?dropl⟩
  case named =>
    simp only [← islst_eq, ← dieOf_eq_zero_iff, List.forall_mem_cons, List.not_mem_nil, false_imp_iff, implies_true, and_true]
    and_intros
    all_goals rfl
  case record =>
    refine ⟨(if_pos (by omega)).symm, ?_⟩
    rw [csrValue_block s t _ (by omega), if_neg (by omega), if_neg (by omega), if_pos (by omega), recordWord_eq, Nat.add_sub_cancel_left,
      show (0x100 + n) % 8 = n % 8 by omega]
  case ramp =>
    refine ⟨(if_neg (by omega)).symm, ?_⟩
    rw [csrValue_block s t _ (by omega), if_neg (by omega), if_neg (by omega), if_neg (by omega), if_pos (by omega), Nat.add_sub_cancel_left,
      State.rampTab]
  case flm =>
    refine ⟨(if_neg (by omega)).symm, ?_⟩
    rw [csrValue_block s t _ (by omega), if_pos (by omega), Nat.add_sub_cancel_left]
  case dropl =>
    refine ⟨(if_neg (by omega)).symm, ?_⟩
    rw [csrValue_block s t _ (by omega), if_neg (by omega), if_pos (by omega), Nat.add_sub_cancel_left]

/-- Settles O19: every row of the table is its register's width and value, which `s.csrr` writes in its groups. -/
theorem csrReadsComplete : Obligations.CsrReadsComplete := by
  unfold Obligations.CsrReadsComplete
  intro s t h d csr n v hmem hr
  obtain ⟨rfl, rfl⟩ : n = csrWidthNat csr.toNat ∧ v = csrValue s t csr.toNat := csrReads_right s t _ hmem
  have hop := groupOp_runs hr (h := h) (d := d) (srcs := []) (f := fun t _ _ => URes.num (csrWidthNat csr.toNat) (csrValue s t csr.toNat))
    fun _ _ => rfl
  rw [withTeam_runs hr] at hop
  exact (withTeam_runs hr _).trans hop

end Sys2Proof.Claims
end

section
/-! CSR writes, the format word and the seeds (R113, R122, R124, R125). -/

namespace Sys2Proof.Claims

open Sys2Proof Sys2Proof.Machine

/- One theorem after another: side by side, their threads would fill the memory. -/
set_option Elab.async false

/-! ### R122's formula in bits -/

theorem ofNat_apply {w : Nat} (op : CsrOp) (old : BitVec w) (x : Nat) :
    BitVec.ofNat 64 (op.apply old.toNat x) = rwFormula op (old.zeroExtend 64) (BitVec.ofNat 64 x) := by
  have hold : BitVec.ofNat 64 old.toNat = old.zeroExtend 64 := BitVec.ofNat_toNat 64 old
  cases op with
  | write => rfl
  | set => rw [CsrOp.apply, BitVec.ofNat_or, hold, rwFormula]
  | clear =>
    rw [CsrOp.apply, BitVec.ofNat_and, BitVec.ofNat_xor, BitVec.ofNat_or, hold, rwFormula]
    ext k hk
    simp only [BitVec.getElem_and, BitVec.getElem_xor, BitVec.getElem_or, BitVec.getElem_not]
    cases (old.zeroExtend 64)[k] <;> cases (BitVec.ofNat 64 x)[k] <;> rfl

theorem ofNat_clears (op : CsrOp) (x : Nat) : BitVec.ofNat 64 (op.clears x) = w1c op (BitVec.ofNat 64 x) := by
  cases op <;> rfl

/-- The low bits of a number are those of its 64 bits. -/
theorem truncate_ofNat {w : Nat} (hw : w ≤ 64) (y : Nat) : (BitVec.ofNat 64 y).truncate w = BitVec.ofNat w y := by
  apply BitVec.eq_of_toNat_eq
  rw [BitVec.truncate_eq_setWidth, BitVec.toNat_setWidth, BitVec.toNat_ofNat, BitVec.toNat_ofNat, Nat.mod_mod_of_dvd _ (Nat.pow_dvd_pow 2 hw)]

theorem mod_toNat_ofNat {k : Nat} (hk : k ≤ 64) (y : Nat) : (BitVec.ofNat 64 y).toNat % 2 ^ k = y % 2 ^ k := by
  rw [BitVec.toNat_ofNat, Nat.mod_mod_of_dvd _ (Nat.pow_dvd_pow 2 hk)]

theorem ofNat_mergeBits (mask : Nat) (old : Word) (y : Nat) :
    BitVec.ofNat 32 (mergeBits mask old.toNat y) = keepRo (BitVec.ofNat 32 mask) old (BitVec.ofNat 64 y) := by
  rw [mergeBits, keepRo, truncate_ofNat (by decide)]
  simp only [BitVec.ofNat_or, BitVec.ofNat_and, BitVec.ofNat_xor, BitVec.ofNat_toNat, BitVec.setWidth_eq]
  ext k hk
  simp only [BitVec.getElem_and, BitVec.getElem_xor, BitVec.getElem_or, BitVec.getElem_not]
  cases old[k] <;> cases (BitVec.ofNat 32 mask)[k] <;> cases (BitVec.ofNat 32 y)[k] <;> rfl

/-! ### The writes -/

theorem ofNat_apply_seed (op : CsrOp) (old : DWord) (x : Nat) : BitVec.ofNat 64 (op.apply old.toNat x) = rwFormula op old (BitVec.ofNat 64 x) :=
  (ofNat_apply op old x).trans (by rw [show old.zeroExtend 64 = old from BitVec.setWidth_eq old])

theorem ofNat_mod_two_pow (w k y : Nat) : BitVec.ofNat w (y % 2 ^ k) = BitVec.ofNat w y &&& BitVec.ofNat w (2 ^ k - 1) := by
  rw [← Nat.and_two_pow_sub_one_eq_mod, BitVec.ofNat_and]

/-- The RW bits of a 32-bit register after a write are R122's. -/
theorem ofNat_mergeBits_apply (op : CsrOp) (mask : Nat) (old : Word) (x : Nat) :
    BitVec.ofNat 32 (mergeBits mask old.toNat (op.apply old.toNat x)) =
      keepRo (BitVec.ofNat 32 mask) old (rwFormula op (old.zeroExtend 64) (BitVec.ofNat 64 x)) := by
  rw [ofNat_mergeBits, ofNat_apply]

theorem zeroExtend_truncate_ofNat {k w : Nat} (hk : k ≤ 64) (y : Nat) :
    ((BitVec.ofNat 64 y).truncate k).zeroExtend w = BitVec.ofNat w (y % 2 ^ k) := by
  rw [truncate_ofNat hk]
  apply BitVec.eq_of_toNat_eq
  rw [show (BitVec.ofNat k y).zeroExtend w = (BitVec.ofNat k y).setWidth w from rfl, BitVec.toNat_setWidth, BitVec.toNat_ofNat, BitVec.toNat_ofNat]

/-- A write of a register that has no row of its own in the table of writes. -/
theorem csrUpdate_other {op : CsrOp} {n x : Nat} {s : State} {t : Team}
    (h : (0x008 ≤ n ∧ n < 0x020) ∨ (0x040 ≤ n ∧ n < 0x200) ∨ 0x210 ≤ n) :
    csrUpdate op n x s t =
      if 0x060 ≤ n ∧ n < 0x080 then
        .done (s.putTeam { t with dropl := t.dropl &&& ~~~(BitVec.ofNat 1024 (op.clears x % 2 ^ 32) <<< (32 * (n - 0x060))) })
      else if 0x100 ≤ n ∧ n < 0x180 ∧ n % 8 = 0 ∧ bit (op.clears x) 63 then .done (clearValid s t ((n - 0x100) / 8))
      else .done (s.putTeam t) := by
  unfold csrUpdate
  dsimp only
  split
  case h_12 => rfl
  all_goals omega

theorem csrUpdate_of_written {s : State} {t u : Team} {op : CsrOp} {n x : Nat} (h : csrWritten t op n (BitVec.ofNat 64 x) = some u) :
    csrUpdate op n x s t = .done (s.putTeam u) := by
  unfold csrWritten at h
  dsimp only at h
  split at h
  case h_1 =>
    obtain ⟨hlt, ⟨⟩⟩ := Option.ite_none_right_eq_some.mp h
    have hlow : bits (op.apply t.tcw.toNat x) 2 0 < 6 := by
      have hy := mod_toNat_ofNat (k := 3) (by decide) (op.apply t.tcw.toNat x)
      rw [ofNat_apply] at hy
      rw [bits, Nat.pow_zero, Nat.div_one]
      exact hy ▸ hlt
    exact (if_neg (Nat.not_le.mpr hlow)).trans (congrArg (fun v => Res.done (s.putTeam { t with tcw := v })) (ofNat_mergeBits_apply ..))
  case h_2 =>
    obtain ⟨hok, ⟨⟩⟩ := Option.ite_none_right_eq_some.mp h
    have hy := mod_toNat_ofNat (k := 16) (by decide) (op.apply t.top.fmt.toNat x)
    have hv := zeroExtend_truncate_ofNat (k := 16) (w := 32) (by decide) (op.apply t.top.fmt.toNat x)
    rw [ofNat_apply] at hy hv
    have hfmt : (!fmtOk (op.apply t.top.fmt.toNat x % 2 ^ 16)) = false := by
      rw [← hy]
      exact congrArg not hok
    exact (if_neg (Bool.eq_false_iff.mp hfmt)).trans (congrArg (fun v => Res.done (s.putTeam (t.setTop { t.top with fmt := v }))) hv.symm)
  case h_3 => cases h; exact congrArg (fun v => Res.done (s.putTeam { t with seed0 := v })) (ofNat_apply_seed ..)
  case h_4 => cases h; exact congrArg (fun v => Res.done (s.putTeam { t with seed1 := v })) (ofNat_apply_seed ..)
  case h_5 => cases h; exact congrArg (fun v => Res.done (s.putTeam { t with seed2 := v })) (ofNat_apply_seed ..)
  case h_6 => cases h; exact congrArg (fun v => Res.done (s.putTeam { t with seed3 := v })) (ofNat_apply_seed ..)
  case h_7 =>
    cases h
    have hv : BitVec.ofNat 64 (op.clears x % 2 ^ 29) = w1c op (BitVec.ofNat 64 x) &&& 0x1FFF_FFFF := by
      rw [ofNat_mod_two_pow, ofNat_clears]; rfl
    exact congrArg (fun v => Res.done (s.putTeam { t with tcause := t.tcause &&& ~~~v })) hv
  case h_8 =>
    obtain ⟨hh, ⟨⟩⟩ := Option.ite_none_right_eq_some.mp h
    exact (if_pos hh).trans (congrArg (fun v => Res.done (s.putTeam { t with tpc := v })) (ofNat_mergeBits_apply ..))
  case h_9 => cases h; exact congrArg (fun v => Res.done (s.putTeam { t with tvb := v })) (ofNat_mergeBits_apply ..)
  case h_10 =>
    obtain ⟨hh, ⟨⟩⟩ := Option.ite_none_right_eq_some.mp h
    have hv : BitVec.ofNat 32 (op.apply t.tskip.toNat x % 2 ^ 15) =
        (rwFormula op (t.tskip.zeroExtend 64) (BitVec.ofNat 64 x)).truncate 32 &&& 0x7FFF := by
      rw [ofNat_mod_two_pow, ← ofNat_apply, truncate_ofNat (by decide)]
      rfl
    exact (if_pos hh).trans (congrArg (fun v => Res.done (s.putTeam { t with tskip := v })) hv)
  case h_11 => cases h; exact congrArg (fun v => Res.done (s.putTeam { t with ckinj := v })) (ofNat_mergeBits_apply ..)
  case h_12 =>
    split at h
    next hd =>
      cases h
      have hv := zeroExtend_truncate_ofNat (k := 32) (w := 1024) (by decide) (op.clears x)
      rw [ofNat_clears] at hv
      rw [csrUpdate_other (by omega), if_pos hd, hv]
    next hd =>
      obtain ⟨hro, ⟨⟩⟩ := Option.ite_none_right_eq_some.mp h
      rw [csrUpdate_other (by omega), if_neg hd, if_neg (by omega)]

/-- The team of a CSR write has the number and the PC of the team before. -/
theorem csrWritten_same {t u : Team} {op : CsrOp} {n : Nat} {x : BitVec 64} (h : csrWritten t op n x = some u) : u.uid = t.uid ∧ u.pc = t.pc := by
  unfold csrWritten at h
  dsimp only at h
  split at h
  case h_1 | h_2 | h_8 | h_10 => obtain ⟨-, ⟨⟩⟩ := Option.ite_none_right_eq_some.mp h; exact ⟨rfl, rfl⟩
  case h_12 =>
    split at h
    · cases h; exact ⟨rfl, rfl⟩
    · obtain ⟨-, ⟨⟩⟩ := Option.ite_none_right_eq_some.mp h; exact ⟨rfl, rfl⟩
  all_goals cases h; exact ⟨rfl, rfl⟩

/-- A word that completes by writing into its team, at its PC, comes to the state with that team, past the word. -/
theorem conclude_done_at {s : State} {t u : Team} {len : Nat} (ht : s.team? t.uid = some t) (hu : u.uid = t.uid) (hp : u.pc = t.pc)
    (hf : t.pc.toNat % 4096 + len < 4096) : conclude t.uid len (.done (s.putTeam u)) = s.putTeam (u.pass len) := by
  have h : (s.putTeam u).team? t.uid = some u := hu ▸ State.team?_putTeam (t := u) (u := t) (by rw [hu]; exact ht)
  rw [conclude, State.advance_eq h (by rw [hp]; exact hf), State.putTeam_putTeam _ (Team.pass_uid u len).symm]

/-- A team-scoped word that writes into its team, at its PC: it comes to the state with that team, past the word. -/
theorem teamOp_writes {s : State} {t u : Team} {i : Instr} {h : Hdr} {d : RegNo} {n : Nat} {srcs : List (RegNo × Nat)}
    {k : State → Team → List Nat → Nat → List Nat → Res} {lead : Nat} {rest : List Nat} (hr : Runs s t i) (hl : leads t h lead rest)
    (ha : allGood t) (hk : k (s.putTeam t) t (lead :: rest) lead ((t.groupSrcs srcs lead).map wordsNat) = .done ((s.putTeam t).putTeam u))
    (hu : u.uid = t.uid) (hp : u.pc = t.pc) :
    withTeam i s (teamOp i h d n srcs k) = .next (s.putTeam (u.pass i.length)) := by
  rw [teamOp_runs hr hl ha, hk, conclude_done_at (State.team?_putTeam hr.team) hu hp hr.fits,
    State.putTeam_putTeam _ ((Team.pass_uid u _).trans hu).symm]

/-- Settles O20: each row of the table of writes is what the model puts into the team. -/
theorem csrWritesComplete : Obligations.CsrWritesComplete := by
  unfold Obligations.CsrWritesComplete
  intro s t u op h d csr lead rest hl ha hw hr
  obtain ⟨huid, hpc⟩ := csrWritten_same hw
  have hexec : exec (csrWord op h d csr) s = withTeam (csrWord op h d csr) s
      (teamOp (csrWord op h d csr) h 192 0 [(d, csrWidth csr)] fun s t _ _ vs => csrUpdate op csr.toNat (vs.headD 0) s t) := by
    cases op <;> rfl
  exact hexec.trans (teamOp_writes hr hl ha (csrUpdate_of_written hw) huid hpc)

/-! ### The format word and the seeds -/

theorem setSeed_eq (t : Team) (n : BitVec 2) (x : DWord) : t.setSeed n x = seeded t n x := by
  match n with
  | 0#2 | 1#2 | 2#2 | 3#2 => rfl

theorem seed_eq (t : Team) (n : BitVec 2) : t.seed n = seedOf t n := by
  match n with
  | 0#2 | 1#2 | 2#2 | 3#2 => rfl

theorem mixSeed_eq (x v : DWord) : mixSeed x v = BitVec.ofNat 64 ((kg x 0x80000001 v).toNat * 2 ^ 32 + (kg x 0x80000002 v).toNat) := by
  rw [mixSeed]
  generalize kg x 0x80000001 v = a
  generalize kg x 0x80000002 v = b
  have hlt := b.isLt
  apply BitVec.eq_of_toNat_eq
  rw [BitVec.toNat_append, ← Nat.shiftLeft_add_eq_or_of_lt hlt, Nat.shiftLeft_eq, BitVec.toNat_ofNat]
  omega

/-- Settles O21: each of the three words writes its one field of the team. -/
theorem formatAndSeedsComplete : Obligations.FormatAndSeedsComplete := by
  unfold Obligations.FormatAndSeedsComplete
  intro s t h lead rest hl ha
  refine ⟨fun imm hr => ?fmt, fun n a hr => ?seed, fun n a hr => ?mix⟩
  case fmt => exact teamOp_writes hr hl ha rfl rfl rfl
  case seed => exact teamOp_writes hr hl ha (congrArg (fun u => Res.done ((s.putTeam t).putTeam u)) (setSeed_eq ..)) rfl rfl
  case mix =>
    refine teamOp_writes hr hl ha ?_ rfl rfl
    rw [setSeed_eq, mixSeed_eq, seed_eq]
    rfl

end Sys2Proof.Claims
end

section
/-! The exit of lanes (R107): a team whose last lane leaves is gone, and the others go on past the word. -/

namespace Sys2Proof.Claims

open Sys2Proof Sys2Proof.Machine

/- One theorem after another: side by side, their threads would fill the memory. -/
set_option Elab.async false

/-! ### Masks of lanes -/

theorem getLsbD_foldl_or (i : Nat) : ∀ (ls : List Nat) (m : Mask),
    (ls.foldl (fun (m : Mask) l => m ||| (1 : Mask) <<< l) m).getLsbD i = (m.getLsbD i || (decide (i < 1024) && ls.contains i))
  | [], m => by simp
  | l :: ls, m => by
    have hbit : ((1 : Mask) <<< l).getLsbD i = (decide (i < 1024) && (i == l)) := by
      refine (BitVec.getLsbD_twoPow l i).trans ?_
      rcases eq_or_ne i l with rfl | h
      · simp
      · simp [h, h.symm]
    rw [List.foldl_cons, getLsbD_foldl_or i ls, BitVec.getLsbD_or, hbit, List.contains_cons, Bool.or_assoc, Bool.and_or_distrib_left]

/-- Lists of the same lanes make the same mask. -/
theorem maskOf_congr {ls ks : List Nat} (h : ∀ l, l ∈ ls ↔ l ∈ ks) : maskOf ls = maskOf ks := by
  refine BitVec.eq_of_getLsbD_eq fun i _ => ?_
  rw [maskOf, maskOf, getLsbD_foldl_or, getLsbD_foldl_or]
  congr 2
  rw [Bool.eq_iff_iff, List.contains_iff_mem, List.contains_iff_mem, h]

theorem maskOf_goers (t : Team) (h : Hdr) : maskOf (goers t h) = exitMask t h :=
  maskOf_congr fun _ => mem_goers_iff.trans List.mem_filter.symm

/-! ### The team without its lanes -/

/-- What an exit comes to that leaves the team `u`: the end of the team, or its next word (R107). -/
def exitOf (s : State) (u : Team) (next : BitVec 16) : Res :=
  if (u.stack.getLast?.getD u.top).mask = 0 then .jump ((s.putTeam u).dropTeam u.uid)
  else if u.top.mask = 0 then .jump (s.putTeam (u.setPc next)) else .done (s.putTeam u)

theorem pc_withoutLanes {t : Team} (hs : t.stack ≠ []) (m : Mask) : (withoutLanes t m).pc = t.pc := by
  cases hst : t.stack with
  | nil => exact absurd hst hs
  | cons e es => simp [withoutLanes, Team.pc, Team.top, hst]

theorem State.team?_passed_none {s : State} {uid : Nat} (h : s.team? uid = none) : (s.passed uid).team? uid = none := by
  refine (find_map_uid _ (fun u => ?_) uid s.teams).trans (Option.map_eq_none_iff.mpr h)
  split <;> rfl

/-- What `s.exit` comes to. -/
theorem sExit_eq {s : State} {t : Team} {h : Hdr} (hr : Runs s t (.sExit h)) (hsp : t.spilled = 0) :
    exec (.sExit h) s = .next (conclude t.uid (Instr.length (.sExit h))
      (exitOf (s.putTeam t) (withoutLanes t (exitMask t h)) (t.fall (Instr.length (.sExit h))))) := by
  have h1 : exec (.sExit h) s = .next (conclude t.uid (Instr.length (.sExit h))
      (exitLanes (Instr.length (.sExit h)) (s.putTeam t) t (goers t h))) :=
    withGroups_runs hr (chk := fun _ _ => []) [] (k := fun s t _ lanes => exitLanes (Instr.length (.sExit h)) s t lanes) fun _ _ => rfl
  have h2 : exitLanes (Instr.length (.sExit h)) (s.putTeam t) t (goers t h) = 
      exitOf (s.putTeam t) (withoutLanes t (exitMask t h)) (t.fall (Instr.length (.sExit h))) := by
    rw [exitLanes, maskOf_goers, hsp]
    have hb : (t.clearLanes (exitMask t h)).baseMask =
        ((withoutLanes t (exitMask t h)).stack.getLast?.getD (withoutLanes t (exitMask t h)).top).mask :=
      if_pos hsp
    simp only [clearSpilled, exitOf, hb]
    rfl
  rw [h1, h2]

section
variable {s : State} {t u : Team} {len : Nat} (ht : s.team? t.uid = some t) (hu : u.uid = t.uid)

include hu in
/-- A team whose last lane leaves is gone (R107). -/
theorem conclude_exitOf_gone (next : BitVec 16) (hb : (u.stack.getLast?.getD u.top).mask = 0) :
    (conclude t.uid len (exitOf s u next)).team? t.uid = none ∧ (conclude t.uid len (exitOf s u next)).mem = s.mem := by
  rw [exitOf, if_pos hb, hu, conclude]
  exact ⟨State.team?_passed_none (State.team?_dropTeam ..), by simp⟩

include ht hu in
/-- A team with a lane left goes on past the word (R107). -/
theorem conclude_exitOf_stays (hp : u.pc = t.pc) (hf : t.pc.toNat % 4096 + len < 4096) (hb : (u.stack.getLast?.getD u.top).mask ≠ 0) :
    ∃ u', (conclude t.uid len (exitOf s u (t.fall len))).team? t.uid = some u' ∧
      u'.stack = (u.setPc (t.pc + BitVec.ofNat 16 len)).stack ∧ u'.frame = u.frame ∧ u'.v = u.v ∧ u'.s = u.s ∧ u'.p = u.p ∧ u'.q = u.q ∧
      (conclude t.uid len (exitOf s u (t.fall len))).mem = s.mem := by
  rw [exitOf, if_neg hb]
  have hput : ∀ v : Team, v.uid = t.uid → (s.putTeam v).team? t.uid = some v := fun v hv => by
    rw [← hv]
    exact State.team?_putTeam (u := t) (by rw [hv]; exact ht)
  by_cases htop : u.top.mask = 0
  · rw [if_pos htop, conclude, Team.fall_eq hf]
    exact ⟨_, State.team?_modTeam _ (fun _ => rfl) (hput (u.setPc _) hu), rfl, rfl, rfl, rfl, rfl, rfl, by simp⟩
  · rw [if_neg htop, conclude_done_at ht hu hp hf]
    obtain ⟨skip, pos, hpass⟩ := Team.pass_eq u len
    rw [hpass, ← hp]
    exact ⟨_, hput _ hu, rfl, rfl, rfl, rfl, rfl, rfl, rfl⟩

end

/-- Settles O14: the effect of `s.exit` is `exitOf`, which ends a team with no lane left and lets another go on. -/
theorem exitCompletes : Obligations.ExitCompletes := by
  unfold Obligations.ExitCompletes
  intro s t h hr hsp hne u
  have hbase : u.stack.getLast?.getD t.top = u.stack.getLast?.getD u.top := by
    have hu : u.stack ≠ [] := List.map_eq_nil_iff.not.mpr hne
    obtain ⟨e, he⟩ := Option.isSome_iff_exists.mp (List.getLast?_isSome.mpr hu)
    rw [he, Option.getD_some, Option.getD_some]
  rw [hbase]
  refine ⟨fun hb => ?gone, fun hb => ?stays⟩
  case gone =>
    obtain ⟨hnone, hmem⟩ := conclude_exitOf_gone (s := s.putTeam t) (len := Instr.length (.sExit h)) (t := t) (u := u) rfl _ hb
    exact ⟨_, sExit_eq hr hsp, hnone, fun a => by rw [State.byte, hmem]; rfl⟩
  case stays =>
    obtain ⟨u', hteam, hstack, hframe, hv, hs, hp, hq, hmem⟩ :=
      conclude_exitOf_stays (State.team?_putTeam hr.team) (rfl : u.uid = t.uid) (pc_withoutLanes hne _) hr.fits hb
    exact ⟨_, u', sExit_eq hr hsp, hteam, hstack, hframe, hv, hs, hp, hq, fun a => by rw [State.byte, hmem]; rfl⟩

end Sys2Proof.Claims
end

section
/-! Releases (R284, R285): what the registration of this device's writes leaves alone, and a release that completes at once. -/

namespace Sys2Proof.Machine

open Sys2Proof Sys2Proof.Claims

/- One theorem after another: side by side, their threads would fill the memory. -/
set_option Elab.async false

/-! ### What a registration leaves alone -/

/-- The parts of the state that the registration of a write here leaves alone while no block is poisoned and no stored code is wrong: the teams,
the arrivals on their way, the clock, the islands, the writes and questions that are out, the stored errors; and the owners and revokes, but
for those of the write's own words. -/
structure Still where
  teams : List Team
  arrivals : List Arrival
  cc : Nat
  islands : SMap IslandRec
  pend : List PWrite
  remAsks : List RemAsk
  codeErrs : SMap CodeErr
  poison : SMap Bool
  owners : SMap Nat
  revokes : List Revoke

def State.still (s : State) : Still :=
  { teams := s.teams, arrivals := s.arrivals, cc := s.cc, islands := s.islands, pend := s.pend, remAsks := s.remAsks, codeErrs := s.codeErrs,
    poison := s.poison, owners := s.owners, revokes := s.revokes }

theorem State.fileMc_still (s : State) (e : McEvent) : (s.fileMc e).still = s.still := by
  unfold State.fileMc
  extract_lets c
  split <;> rfl

theorem State.setTag_still (s : State) (key : Nat) (asid : Option Nat) : (s.setTag key asid).still = s.still := by
  unfold State.setTag
  split
  · cases asid <;> rfl
  · rfl

theorem State.modifyLines_still (s : State) (key : Nat) : (s.modifyLines key).still = s.still := by
  unfold State.modifyLines
  split <;> rfl

theorem State.homeWrite_still {s : State} (hp : s.poison = []) (hc : s.codeErrs = []) (asid : Option Nat) (key : Nat) (bs : List Byte) :
    (s.homeWrite asid key bs).1.still = s.still ∧ (s.homeWrite asid key bs).2 = true := by
  have hlines (s' : State) : ((s'.setTag key asid).modifyLines key).still = s'.still :=
    (State.modifyLines_still _ _).trans (State.setTag_still _ _ _)
  unfold State.homeWrite
  split
  · refine ⟨(State.modifyLines_still _ _).trans ?_, rfl⟩
    have hdel : { ((s.poke key bs).setTag key asid).still with
        poison := SMap.del s.poison (key / 64), codeErrs := SMap.del s.codeErrs (key / 64) } = s.still := by
      rw [State.setTag_still, State.still, State.still, hp, hc]
      rfl
    exact hdel
  · rw [hp]
    exact ⟨hlines _, rfl⟩

theorem State.updateByte_still (s : State) (cores : List Nat) (asid va : Nat) (b : Byte) : (s.updateByte cores asid va b).still = s.still := by
  unfold State.updateByte
  extract_lets s1
  have h1 : s1.still = s.still := foldl_keeps State.still (fun s k => by split <;> rfl) cores s
  split
  · exact h1
  · exact h1

theorem State.refreshCopies_still (s : State) (cores : List Nat) (asid va key n : Nat) : (s.refreshCopies cores asid va key n).still = s.still :=
  foldl_keeps State.still (fun s _ => State.updateByte_still s ..) _ s

theorem State.noteTables_still (s : State) (asid va n : Nat) : (s.noteTables asid va n).still = s.still := by
  unfold State.noteTables
  split
  · rfl
  · extract_lets base tail s1
    have h1 : s1.still = s.still := by unfold s1; split <;> rfl
    split <;> exact h1

theorem State.dropForAtomic_still (s : State) (w : PWrite) : (s.dropForAtomic w).still = s.still := by
  unfold State.dropForAtomic
  have hdrop := foldl_keeps State.still (f := fun (s : State) k => s.dropL1 k w.asid (w.va / 64 * 64) 64) (fun _ _ => rfl) w.cores s
  exact hdrop

/-! ### Local writes -/

/-- No write or revoke of the state concerns another device, no block is poisoned, and no stored code is wrong. -/
structure State.Local (s : State) : Prop where
  codes : s.codeErrs = []
  poison : s.poison = []
  owners : ∀ e ∈ s.owners, e.2 ≤ 512
  revokes : ∀ r ∈ s.revokes, r.core < 512

/-- What registrations leave of a state: all but the owners and the revokes, and nothing of another device. -/
structure Settles (s s' : State) : Prop where
  loc : s'.Local
  still : s'.still = { s.still with owners := s'.owners, revokes := s'.revokes }

theorem Settles.refl {s : State} (h : s.Local) : Settles s s := ⟨h, rfl⟩

theorem Settles.trans {a b c : State} (h : Settles a b) (k : Settles b c) : Settles a c :=
  ⟨k.loc, by rw [k.still, h.still]⟩

theorem State.Local.of_still {s s' : State} (h : s.Local) (hs : s'.still = s.still) : s'.Local where
  codes := (congrArg Still.codeErrs hs).trans h.codes
  poison := (congrArg Still.poison hs).trans h.poison
  owners := by
    rw [show s'.owners = s.owners from congrArg Still.owners hs]
    exact h.owners
  revokes := by
    rw [show s'.revokes = s.revokes from congrArg Still.revokes hs]
    exact h.revokes

theorem Settles.of_still {s s' : State} (h : s.Local) (hs : s'.still = s.still) : Settles s s' :=
  ⟨h.of_still hs, by
    rw [show s'.owners = s.owners from congrArg Still.owners hs, show s'.revokes = s.revokes from congrArg Still.revokes hs, hs]
    rfl⟩

theorem Settles.foldl {α : Type} {f : State → α → State} (hf : ∀ s x, s.Local → Settles s (f s x)) :
    ∀ (l : List α) {s : State}, s.Local → Settles s (l.foldl f s)
  | [], _, h => .refl h
  | x :: l, _, h => (hf _ x h).trans (Settles.foldl hf l (hf _ x h).loc)

/-- A word gets an owner on this device. -/
theorem Settles.own {s s' : State} (h : Settles s s') {core : Nat} (hc : core ≤ 512) (k : Nat) :
    Settles s { s' with owners := SMap.put s'.owners k core } where
  loc := { h.loc with
    owners := fun e he => of_decide_eq_true (List.all_eq_true.mp
      (SMap.all_put (fun e => decide (e.2 ≤ 512)) core s'.owners k (decide_eq_true hc)
        (List.all_eq_true.mpr fun e he => decide_eq_true (h.loc.owners e he))) e he) }
  still := by rw [show State.still { s' with owners := SMap.put s'.owners k core } = { s'.still with owners := SMap.put s'.owners k core } from rfl,
    h.still]

/-- A core of this device is asked to give a word up. -/
theorem Settles.revoke {s s' : State} (h : Settles s s') {r : Revoke} (hr : r.core < 512) (n : Nat) :
    Settles s { s' with revokes := s'.revokes ++ [r], nextId := n } where
  loc := { h.loc with
    revokes := fun x hx => by
      rcases List.mem_append.mp hx with hx | hx
      · exact h.loc.revokes x hx
      · rw [List.mem_singleton.mp hx]
        exact hr }
  still := by rw [show State.still { s' with revokes := s'.revokes ++ [r], nextId := n } = { s'.still with revokes := s'.revokes ++ [r] } from rfl,
    h.still]

theorem State.Local.owner_le {s : State} (h : s.Local) {k o : Nat} (ho : SMap.find s.owners k = some o) : o ≤ 512 :=
  of_decide_eq_true (Tests.SMap.find_all (p := fun o => decide (o ≤ 512))
    (List.all_eq_true.mpr fun e he => decide_eq_true (h.owners e he)) ho)

theorem State.ownWords_settles {s : State} (h : s.Local) {core : Nat} (hc : core ≤ 512) (asid va n : Nat) :
    Settles s (s.ownWords core asid va n) := by
  unfold State.ownWords
  refine Settles.foldl (fun s i h => ?_) _ h
  refine Settles.own ?_ hc _
  split
  next o ho =>
    split
    · exact .refl h
    next hne =>
      have hlt : o < atomicOwner := lt_of_le_of_ne (h.owner_le ho) (not_or.mp hne).2
      dsimp only
      rw [if_pos hlt]
      exact (Settles.refl h).revoke hlt _
  next => exact .refl h

theorem State.homeWrite_settles {s : State} (h : s.Local) (asid : Option Nat) (key : Nat) (bs : List Byte) :
    Settles s (s.homeWrite asid key bs).1 := .of_still h (State.homeWrite_still h.poison h.codes asid key bs).1

theorem State.atomicWrite_settles {s : State} (h : s.Local) (w : PWrite) (bs : List Byte) : Settles s (s.atomicWrite w bs) := by
  have hw := State.homeWrite_settles h (some w.asid) w.key bs
  unfold State.atomicWrite
  dsimp only
  rw [if_pos (State.homeWrite_still h.poison h.codes (some w.asid) w.key bs).2]
  split
  · exact hw
  · split
    · exact hw.trans (.of_still hw.loc (State.dropForAtomic_still _ w))
    · have hn := hw.trans (.of_still hw.loc (State.noteTables_still _ w.asid w.va bs.length))
      have ho := hn.trans (State.ownWords_settles hn.loc (core := atomicOwner) (Nat.le_refl 512) w.asid w.va bs.length)
      exact ho.trans (.of_still ho.loc (State.dropForAtomic_still _ w))

theorem State.atomicInjected_settles {s : State} (h : s.Local) (w : PWrite) (inj : Nat) (bs : List Byte) :
    Settles s (s.atomicInjected w inj bs) := by
  have hc (n : Nat) : Settles s ((s.count 32 1).count n 1) := .of_still h rfl
  unfold State.atomicInjected
  dsimp only
  split
  · exact (hc 6).trans (State.atomicWrite_settles (hc 6).loc w bs)
  · exact (hc 8).trans (.of_still (hc 8).loc (State.fileMc_still _ _))

theorem State.register_settles {s : State} (h : s.Local) {w : PWrite} (hw : w.core < 512) : Settles s (s.register w) := by
  have hatomic (inj : Nat) (bs : List Byte) : Settles s (if inj = 0 then s.atomicWrite w bs else s.atomicInjected w inj bs) := by
    split
    · exact State.atomicWrite_settles h w bs
    · exact State.atomicInjected_settles h w inj bs
  unfold State.register
  split
  next =>
    have hm := State.homeWrite_settles h (some w.asid) w.key w.bytes
    dsimp only
    rw [if_pos (State.homeWrite_still h.poison h.codes (some w.asid) w.key w.bytes).2]
    split
    · exact hm
    · have hn := hm.trans (.of_still hm.loc (State.noteTables_still _ w.asid w.va w.bytes.length))
      have hr := hn.trans (.of_still hn.loc (State.refreshCopies_still _ w.cores w.asid w.va w.key w.bytes.length))
      split
      · exact hr
      · exact hr.trans (State.ownWords_settles hr.loc (Nat.le_of_lt hw) w.asid w.va w.bytes.length)
  next =>
    rw [State.readBlock_clean h.codes]
    exact hatomic _ _
  next =>
    rw [State.readBlock_clean h.codes]
    exact hatomic _ _

theorem State.registerAll_settles : ∀ (fuel : Nat) {ws : List PWrite} {s : State}, s.Local →
    (∀ w ∈ ws, peerHome w.key = false ∧ w.core < 512) →
    Settles s (State.registerAll fuel ws s)
  | 0, _, _, h, _ => .refl h
  | _ + 1, [], _, h, _ => .refl h
  | fuel + 1, w :: ws, s, h, hw => by
    obtain ⟨hkey, hcore⟩ := hw w List.mem_cons_self
    rw [State.registerAll, if_neg (by simp [hkey])]
    have hreg := State.register_settles h hcore
    exact hreg.trans (State.registerAll_settles fuel hreg.loc fun x hx => hw x (List.mem_cons_of_mem _ hx))

/-! ### A release that completes at once (R285) -/

/-- What a release needs of a state to complete here: nothing that is out concerns another device. -/
theorem local_of_localRelease {s : State} {t : Team} (h : localRelease s t) : s.Local := by
  obtain ⟨-, hcodes, hpoison, -, howners, hrevokes, -⟩ := h
  exact ⟨hcodes, hpoison, howners, hrevokes⟩

theorem State.ackAll_still {s : State} (h : ∀ r ∈ s.revokes, r.core < 512) : s.ackAll.still = { s.still with revokes := [] } := by
  have hack (s : State) (r : Revoke) : (s.ackRevoke r).still = s.still := by
    unfold State.ackRevoke
    split <;> rfl
  have hfold := foldl_keeps State.still hack (s.revokes.filter Revoke.isLocal) s
  have hrest : (((s.revokes.filter Revoke.isLocal).foldl State.ackRevoke s).revokes.filter fun r => !r.isLocal) = [] := by
    rw [show ((s.revokes.filter Revoke.isLocal).foldl State.ackRevoke s).revokes = s.revokes from congrArg Still.revokes hfold,
      List.filter_eq_nil_iff]
    intro r hr
    have hlocal : r.isLocal = true := decide_eq_true (h r hr)
    simp [hlocal]
  rw [← hfold, ← hrest]
  rfl

/-- Everything accepted registers here, and every revoke is acknowledged. -/
theorem State.settleWrites_still {s : State} {t : Team} (h : localRelease s t) :
    ∃ owners, s.settleWrites.still = { s.still with pend := [], revokes := [], owners := owners } := by
  have hl := local_of_localRelease h
  have hloc : State.Local { s with pend := [] } := ⟨hl.codes, hl.poison, hl.owners, hl.revokes⟩
  obtain ⟨-, -, -, hpend, -⟩ := h
  have hdrain : (s.drain fun _ => true) = State.registerAll s.pend.length s.pend { s with pend := [] } := by
    rw [State.drain]
    simp
  have hall := State.registerAll_settles s.pend.length hloc hpend
  refine ⟨(s.drain fun _ => true).owners, ?_⟩
  rw [State.settleWrites, hdrain, State.ackAll_still hall.loc.revokes, hall.still]
  rfl

/-- A release that completes at once settles the writes, and the team notes its number. -/
theorem State.release_eq {s : State} {t : Team} (h : releasesNow s t) :
    s.release t = s.settleWrites.modTeam t.uid fun u =>
      { u with hostStores := false, relTag := s.settleWrites.nextId, relIssue := some t.issued } := by
  obtain ⟨⟨hissue, -⟩, hhost⟩ := h
  rw [State.release, if_neg hissue, hhost]
  rfl

/-- A word that releases goes on in its own step: no write is on its way, every revoke is acknowledged, and of the rest the team alone has
changed. -/
theorem State.releaseThen_eq {s : State} {t : Team} (ht : s.team? t.uid = some t) (h : releasesNow s t) (hold k : State → Res) :
    ∃ s' n, s.releaseThen t hold k = k s' ∧ Claims.released s' ∧ s'.team? t.uid = some (releasing t n) ∧
      s'.arrivals = s.arrivals ∧ s'.cc = s.cc ∧ s'.islands = s.islands := by
  obtain ⟨owners, hstill⟩ := State.settleWrites_still h.1
  have hteam : (s.release t).team? t.uid = some (releasing t s.settleWrites.nextId) := by
    rw [State.release_eq h]
    refine State.team?_modTeam _ (fun _ => rfl) ?_
    rw [State.team?, show s.settleWrites.teams = s.teams from congrArg Still.teams hstill]
    exact ht
  have hrev : (s.release t).revokes = [] := by
    rw [State.release_eq h]
    exact congrArg Still.revokes hstill
  have hasks : (s.release t).remAsks = s.remAsks := by
    rw [State.release_eq h]
    exact congrArg Still.remAsks hstill
  have hreg : (s.release t).released t.uid = true := by
    obtain ⟨⟨-, -, -, -, -, -, hnone⟩, -⟩ := h
    rw [State.released, hteam]
    simp only [State.registered, hrev, hasks, List.any_nil, Bool.not_false, Bool.and_true, Bool.not_eq_true', List.any_eq_false]
    intro a ha
    simp [hnone a ha]
  refine ⟨s.release t, s.settleWrites.nextId, by rw [State.releaseThen, if_pos hreg], ⟨?_, hrev⟩, hteam, ?_, ?_, ?_⟩
  all_goals rw [State.release_eq h]
  · exact congrArg Still.pend hstill
  · exact congrArg Still.arrivals hstill
  · exact congrArg Still.cc hstill
  · exact congrArg Still.islands hstill

end Sys2Proof.Machine
end

section
/-! Barriers (R114 to R118): the words that arrive and wait, and the events that count, answer and release. -/

namespace Sys2Proof.Claims

open Sys2Proof Sys2Proof.Machine

/- One theorem after another: side by side, their threads would fill the memory. -/
set_option Elab.async false

/-! ### The words -/

/-- A barrier's slot lies at the core that holds it, after the slots of its grid's earlier barriers (R114). -/
theorem barSlot_of_barrierAt {s : State} {t : Team} {b core idx : Nat} {g : Grid} (h : barrierAt s t b core idx g) :
    g.barSlot b = some (core, idx) := by
  obtain ⟨-, -, hcore, rfl⟩ := h
  rw [Grid.barSlot, hcore]
  rfl

/-- The arrival that a team's word sends to its slot (R116, R118). -/
def sentArrival (s : State) (t : Team) (core idx n : Nat) (sync : Bool) (d : RegNo) (gs : List Nat) : Arrival where
  uid := t.uid
  src := t.home
  at_ := s.cc + s.ticks (engineOf t) (barrierDistance t.home core)
  core := core
  idx := idx
  count := n
  sync := sync
  d := d
  groups := gs

/-- What sets the time of an arrival is the clock and the islands. -/
theorem sentArrival_congr {s s' : State} (hcc : s'.cc = s.cc) (hi : s'.islands = s.islands) (t : Team) (core idx n : Nat) (sync : Bool) (d : RegNo)
    (gs : List Nat) : sentArrival s' t core idx n sync d gs = sentArrival s t core idx n sync d gs := by
  simp only [sentArrival, State.ticks, State.clusterMhz, State.island, hcc, hi]

/-- In range, an arrival leaves for its slot after the release, and its team is held (R115, R116). -/
theorem barArrive_eq {s : State} {t : Team} {b core idx n : Nat} {g : Grid} (hb : barrierAt s t b core idx g) (h1 : 1 ≤ n) (h2 : n ≤ 6144)
    (len : Nat) (sync : Bool) (d : RegNo) (gs : List Nat) :
    barArrive len b n sync d s t gs = s.releaseThen t .hold fun s =>
      .hold (({ s with arrivals := s.arrivals ++ [sentArrival s t core idx n sync d gs] } : State).holdTeam t.uid len .barIn) := by
  have hslot := barSlot_of_barrierAt hb
  obtain ⟨hgrid, hnbar, -⟩ := hb
  have hok : ¬ (b ≥ g.nbar ∨ (!countOk n) = true) := by simp [countOk, h1, h2, hnbar]
  simp only [barArrive, hgrid, hslot]
  rw [if_neg hok]
  rfl

/-- Where the release completes at once, the arrival is on its way and the team held. -/
theorem barArrive_sends {s : State} {t : Team} {b core idx len n : Nat} {g : Grid} {sync : Bool} {d : RegNo} {gs : List Nat}
    (ht : s.team? t.uid = some t) (hb : barrierAt s t b core idx g) (hrel : releasesNow s t) (h1 : 1 ≤ n) (h2 : n ≤ 6144) :
    ∃ s' tag, barArrive len b n sync d s t gs = .hold s' ∧ released s' ∧
      s'.team? t.uid = some { releasing t tag with hold := .barIn, heldLen := len } ∧
      s'.arrivals = s.arrivals ++ [sentArrival s t core idx n sync d gs] := by
  rw [barArrive_eq hb h1 h2]
  obtain ⟨s1, tag, hthen, ⟨hpend, hrevokes⟩, hteam, harrivals, hcc, hislands⟩ := State.releaseThen_eq ht hrel .hold fun s =>
    .hold (({ s with arrivals := s.arrivals ++ [sentArrival s t core idx n sync d gs] } : State).holdTeam t.uid len .barIn)
  rw [← sentArrival_congr hcc hislands, ← harrivals]
  exact ⟨_, tag, hthen, ⟨hpend, hrevokes⟩, State.team?_modTeam _ (fun _ => rfl) hteam, rfl⟩

/-- `s.bar.wait` whose phase has passed acquires; one whose phase has not is held (R116; log entry 71). -/
theorem barWait_eq {s : State} {t : Team} {b core idx : Nat} {g : Grid} (hb : barrierAt s t b core idx g) (len : Nat) (token : BitVec 16) :
    barWait len b token s t =
      if s.barGen core idx t.gid = token then .hold (s.holdTeam t.uid len (.barWait idx token)) else .done (s.acquireFor t) := by
  have hslot := barSlot_of_barrierAt hb
  obtain ⟨hgrid, hnbar, -⟩ := hb
  simp only [barWait, hgrid, hslot]
  rw [if_neg (Nat.not_le.mpr hnbar)]

/-- A word that sends an arrival: `s.bar.sync` and `s.bar.arr` differ in their operands. -/
theorem arrival_completes {s : State} {t : Team} {i : Instr} {h : Hdr} {d c e : RegNo} {k b core idx lead : Nat} {rest : List Nat}
    {g : Grid} {sync : Bool}
    (hexec : exec i s = withTeam i s (teamOp i h d k [(c, 1)] fun s t gs _ vs => barArrive i.length b (vs.headD 0) sync e s t gs))
    (hl : leads t h lead rest) (ha : allGood t) (hb : barrierAt s t b core idx g) (hr : Runs s t i) (hrel : releasesNow s t)
    (h1 : 1 ≤ leadVal t lead c 1) (h2 : leadVal t lead c 1 ≤ 6144) :
    ∃ s' n, exec i s = .next s' ∧ released s' ∧ s'.team? t.uid = some { releasing t n with hold := .barIn, heldLen := i.length } ∧
      s'.arrivals = s.arrivals ++ [sentArrival s t core idx (leadVal t lead c 1) sync e (lead :: rest)] := by
  obtain ⟨s', n, hsent, hrest⟩ := barArrive_sends (s := s.putTeam t) (len := i.length) (sync := sync) (d := e) (gs := lead :: rest)
    (State.team?_putTeam hr.team) hb hrel h1 h2
  refine ⟨s', n, ?_, hrest⟩
  rw [hexec, teamOp_runs hr hl ha]
  exact congrArg _ (congrArg (conclude t.uid i.length) hsent)

/-- R115, R116, R118: the words that arrive differ in their operands alone. -/
theorem barrierWords : barrierWordsComplete := by
  intro s t h d c bar lead rest core idx g hl ha hb
  refine ⟨fun hr hrel h1 h2 => ?sync, fun hr hrel h1 h2 => ?arr, fun hr => ?wait⟩
  case sync => exact arrival_completes rfl hl ha hb hr hrel h1 h2
  case arr => exact arrival_completes rfl hl ha hb hr hrel h1 h2
  case wait =>
    have hexec : exec (.sBarWait h d bar) s = .next (conclude t.uid (Instr.length (.sBarWait h d bar))
        (barWait (Instr.length (.sBarWait h d bar)) bar.toNat (BitVec.ofNat 16 (leadVal t lead d 1)) (s.putTeam t) t)) :=
      teamOp_runs hr hl ha
    have hput : (s.putTeam t).team? t.uid = some t := State.team?_putTeam hr.team
    rw [barWait_eq (s := s.putTeam t) hb, show (s.putTeam t).barGen core idx t.gid = s.barGen core idx t.gid from rfl] at hexec
    refine ⟨fun hgen => ?passed, fun hgen => ?waits⟩
    case passed =>
      rw [if_neg hgen] at hexec
      obtain ⟨_, rfl, hacq, hteam⟩ := acquire_completes hr
      exact ⟨_, hexec, hacq, hteam⟩
    case waits =>
      rw [if_pos hgen] at hexec
      exact ⟨_, hexec, State.team?_modTeam _ (fun _ => rfl) hput⟩

/-! ### The events -/

/-- A count that agrees is counted (R116). -/
theorem arrive_of_agrees {b : BarSlot} {n : Nat} (h : b.cnt = 0 ∨ b.exp = n) : b.arrive n = some (counted b n) := by
  rw [BarSlot.arrive, if_neg (by tauto), counted]
  split <;> rfl

theorem arrive_of_differs {b : BarSlot} {n : Nat} (hc : b.cnt ≠ 0) (he : b.exp ≠ n) : b.arrive n = none := if_pos ⟨hc, he⟩

/-- The release of a phase changes of a team only when it is due. -/
theorem team?_releasePhase {s : State} {uid : Nat} {t : Team} (h : s.team? uid = some t) (core idx gid : Nat) (token : BitVec 16) :
    ∃ u, (s.releasePhase core idx gid token).team? uid = some { t with dueAt := u } := by
  have hm := find_map_uid (fun u => if u.gid = gid ∧ u.hold = .barWait idx token then
    { u with dueAt := s.cc + s.ticks (clusterOf u.home) (barDelay u.home core) } else u) (fun u => by split <;> rfl) uid s.teams
  rw [show s.teams.find? (fun u => u.uid == uid) = some t from h, Option.map_some] at hm
  by_cases hw : t.gid = gid ∧ t.hold = .barWait idx token
  · rw [if_pos hw] at hm
    exact ⟨_, hm⟩
  · rw [if_neg hw] at hm
    exact ⟨t.dueAt, hm⟩

/-- The state after an arrival that agrees, before the release of its phase: it is off its way, its slot counts it, and its team has its token. -/
def arrivalCounted (s : State) (n : Nat) (a : Arrival) (b : BarSlot) : State :=
  (({ s with arrivals := s.arrivals.eraseIdx n } : State).putCore a.core
    { s.core a.core with bars := SMap.put (s.core a.core).bars a.idx (counted b a.count) }).modTeam a.uid fun t =>
      { t with hold := if a.sync then .barWait a.idx b.gen else .barTok b.gen a.d a.groups,
               dueAt := s.cc + s.ticks (clusterOf a.src) (barDelay a.src a.core) }

theorem bar_arrivalCounted (s : State) (n : Nat) (a : Arrival) (b : BarSlot) (gid : Nat) :
    ((arrivalCounted s n a b).core a.core).bar a.idx gid = counted b a.count := by
  have hcore : (arrivalCounted s n a b).core a.core =
      { s.core a.core with bars := SMap.put (s.core a.core).bars a.idx (counted b a.count) } := State.core_putCore ..
  rw [hcore, Core.bar, SMap.get_put, if_pos rfl]

/-- An arrival that agrees is counted; the last one of a phase releases it (R116, R117). -/
theorem barrierArrival_eq {s : State} {n : Nat} {a : Arrival} {t : Team} {b : BarSlot} (ha : s.arrivals[n]? = some a) (ht : s.team? a.uid = some t)
    (hb : (s.core a.core).bar a.idx t.gid = b) (hc : b.cnt = 0 ∨ b.exp = a.count) :
    exec (.barrierArrival n) s = .next (if (counted b a.count).gen = b.gen then arrivalCounted s n a b
      else (arrivalCounted s n a b).releasePhase a.core a.idx t.gid b.gen) := by
  subst hb
  have harr : ((({ s with arrivals := s.arrivals.eraseIdx n } : State).core a.core).bar a.idx t.gid).arrive a.count =
      some (counted ((s.core a.core).bar a.idx t.gid) a.count) := arrive_of_agrees hc
  have ht' : ({ s with arrivals := s.arrivals.eraseIdx n } : State).team? a.uid = some t := ht
  change execBarrierArrival n s = _
  simp only [execBarrierArrival, ha, ht', harr]
  rfl

theorem barrierArrival_counts {s : State} {n : Nat} {a : Arrival} {t : Team} {b : BarSlot} (ha : s.arrivals[n]? = some a)
    (ht : s.team? a.uid = some t) (hb : (s.core a.core).bar a.idx t.gid = b) (hc : b.cnt = 0 ∨ b.exp = a.count) :
    ∃ s' u, exec (.barrierArrival n) s = .next s' ∧ s'.arrivals = s.arrivals.eraseIdx n ∧
      (s'.core a.core).bar a.idx t.gid = counted b a.count ∧
      s'.team? a.uid = some { t with hold := if a.sync then .barWait a.idx b.gen else .barTok b.gen a.d a.groups, dueAt := u } := by
  have hexec := barrierArrival_eq ha ht hb hc
  have hslot := bar_arrivalCounted s n a b t.gid
  have hteam : (arrivalCounted s n a b).team? a.uid = _ := State.team?_modTeam _ (fun _ => rfl) ht
  by_cases hgen : (counted b a.count).gen = b.gen
  · rw [if_pos hgen] at hexec
    exact ⟨_, _, hexec, rfl, hslot, hteam⟩
  · rw [if_neg hgen] at hexec
    obtain ⟨u, hu⟩ := team?_releasePhase hteam a.core a.idx t.gid b.gen
    exact ⟨_, u, hexec, rfl, hslot, hu⟩

/-- An arrival whose count differs is not counted: its team goes free with the stop BARRIER asked of it (R116). -/
theorem barrierArrival_stops {s : State} {n : Nat} {a : Arrival} {t : Team} (ha : s.arrivals[n]? = some a) (ht : s.team? a.uid = some t)
    (hc : ((s.core a.core).bar a.idx t.gid).cnt ≠ 0) (he : ((s.core a.core).bar a.idx t.gid).exp ≠ a.count) :
    exec (.barrierArrival n) s = .next (({ s with arrivals := s.arrivals.eraseIdx n } : State).modTeam a.uid fun t =>
      { (t.askStop .barrier) with hold := .free }) := by
  have harr : ((({ s with arrivals := s.arrivals.eraseIdx n } : State).core a.core).bar a.idx t.gid).arrive a.count = none :=
    arrive_of_differs hc he
  have ht' : ({ s with arrivals := s.arrivals.eraseIdx n } : State).team? a.uid = some t := ht
  change execBarrierArrival n s = _
  simp only [execBarrierArrival, ha, ht', harr]

theorem uid_woken (t : Team) : (woken t).uid = t.uid := Team.pass_uid _ _

/-- A token that returns is written, and its team goes on (R116). -/
theorem barrierTokenReturn_eq {s : State} {t : Team} {token : BitVec 16} {d : RegNo} {gs : List Nat} (ht : s.team? t.uid = some t) (hf : heldFits t)
    (hh : t.hold = .barTok token d gs) :
    exec (.barrierTokenReturn t.uid) s = .next (s.putTeam (woken (t.sAll d.toNat gs [RWord.ofNat token.toNat]))) := by
  have hexec : exec (.barrierTokenReturn t.uid) s =
      .next ((s.putTeam (t.sAll d.toNat gs [RWord.ofNat token.toNat])).completeHeld t.uid) := by
    change execBarrierTokenReturn t.uid s = _
    simp only [execBarrierTokenReturn, ht, hh]
  rw [hexec]
  have huid := Team.sAll_uid t d.toNat gs [RWord.ofNat token.toNat]
  have hstack := Team.sAll_stack t d.toNat gs [RWord.ofNat token.toNat]
  have hlen := Team.sAll_heldLen t d.toNat gs [RWord.ofNat token.toNat]
  generalize t.sAll d.toNat gs [RWord.ofNat token.toNat] = u at huid hstack hlen ⊢
  have hfits : heldFits u := by
    rw [heldFits, Team.pc, Team.top, hstack, hlen]
    exact hf
  have hput : (s.putTeam u).team? u.uid = some u := State.team?_putTeam (huid ▸ ht)
  rw [← huid, completeHeld_eq hput hfits, State.putTeam_putTeam _ (uid_woken u).symm]

/-- A team whose phase has completed acquires and goes on (R116, R117). -/
theorem barrierRelease_eq {s : State} {t : Team} {g : Grid} {core idx : Nat} {token : BitVec 16} (ht : s.team? t.uid = some t) (hf : heldFits t)
    (hh : t.hold = .barWait idx token) (hres : t.res = .resident) (hg : s.grid? t.gid = some g) (hcore : g.barCore = some core)
    (hgen : s.barGen core idx t.gid ≠ token) :
    exec (.barrierRelease t.uid) s = .next ((s.acquireFor t).putTeam (woken t)) := by
  have hacq : (s.acquireFor t).team? t.uid = some t := (State.team?_acquireFor s t t.uid).trans ht
  change execBarrierRelease t.uid s = _
  simp only [execBarrierRelease, ht, hh, hg, Option.bind_some, hcore]
  rw [if_pos ⟨hres, hgen⟩, completeHeld_eq hacq hf]

/-- R116, R117: the arrival, the token's return and the release. -/
theorem barrierEvents : barrierEventsComplete := by
  refine ⟨fun s n a t ha ht => ⟨fun hb => ?counts, fun hc he => ?differs⟩, fun s t token d gs ht hf hh => ?token,
    fun s t g core idx token ht hf hh hres hg hcore hgen => ?release⟩
  case counts => exact barrierArrival_counts ha ht rfl hb
  case differs => exact ⟨_, barrierArrival_stops ha ht hc he, rfl, rfl, State.team?_modTeam _ (fun _ => rfl) ht⟩
  case token => exact barrierTokenReturn_eq ht hf hh
  case release =>
    refine ⟨_, barrierRelease_eq ht hf hh hres hg hcore hgen, acquired_of_same (acquired_acquireFor s t) rfl rfl, ?_⟩
    have hput := State.team?_putTeam (s := s.acquireFor t) (t := woken t) (u := t)
    rw [uid_woken] at hput
    exact hput ((State.team?_acquireFor s t t.uid).trans ht)

/-- Settles O16: the words by the release that precedes an arrival and by the slot's generation, the events by what each does to its slot and
team. -/
theorem barriersComplete : Obligations.BarriersComplete := by
  unfold Obligations.BarriersComplete
  exact ⟨barrierWords, barrierEvents⟩

end Sys2Proof.Claims
end

section
/-! Traps and the return from the handler (R139, R143, R146, R148, R150): the words that stop their team, and `s.rth`. -/

namespace Sys2Proof.Machine

open Sys2Proof Sys2Proof.Claims

section
variable {s : State} {t : Team} {i : Instr} {h : Hdr} {d : RegNo} {n : Nat} {st : Stop}

/-! ### Words that stop their team -/

/-- A team-scoped word without sources runs for the groups that it executes for, whatever codes the registers carry (R20). -/
theorem teamOp_runs_noSources {k : State → Team → List Nat → Nat → List Nat → Res} {lead : Nat} {rest : List Nat} (hr : Runs s t i)
    (hl : leads t h lead rest) : withTeam i s (teamOp i h d n [] k) =
      .next (conclude t.uid i.length (k (s.putTeam t) t (lead :: rest) lead [])) := by
  rw [withTeam_runs hr, teamOp_calm hr.calm hl rfl]
  rfl

theorem exists_leads (hg : t.groupsFor h ≠ []) : ∃ lead rest, leads t h lead rest := List.exists_cons_of_ne_nil hg

/-- A stop is taken at its word, but for the causes of R150 in handler mode (R147). -/
theorem conclude_stop (ht : s.team? t.uid = some t) (hh : t.handler = false ∨ (st.cause ≠ .swtrap ∧ st.cause ≠ .brk)) (len : Nat) :
    conclude t.uid len (.stop st s) = s.takeStop t.uid len st := by
  have hheld : (t.handler && (st.cause == .swtrap || st.cause == .brk)) = false := by
    rcases hh with hh | ⟨h1, h2⟩
    · rw [hh, Bool.false_and]
    · simp [h1, h2]
  simp only [conclude, State.stopAt, ht, hheld, Bool.false_eq_true, if_false]

/-- A word that stops as it runs enters the handler where it can be entered. -/
theorem stop_enters {k : State → Team → List Nat → Nat → List Nat → Res} (hr : Runs s t i) (hready : handlerReady s t) (hg : t.groupsFor h ≠ [])
    (hexec : exec i s = withTeam i s (teamOp i h d n [] k)) (hk : ∀ u gs lead vs, k u t gs lead vs = .stop st u) :
    comesTo i s (entered t (if st.after then t.pc + BitVec.ofNat 16 i.length else t.pc)
      (if st.cause = .swtrap ∨ st.cause = .brk then st.code else 0) st.cause st.lanes) := by
  obtain ⟨lead, rest, hl⟩ := exists_leads hg
  have hput : (s.putTeam t).team? t.uid = some t := State.team?_putTeam hr.team
  have hready' : handlerReady (s.putTeam t) t := hready
  obtain ⟨hmem, hteam⟩ := State.takeStop_enters (st := st) hput hready' fun _ => hr.fits
  refine ⟨_, ?_, hteam, fun a => by rw [State.byte, hmem]; rfl⟩
  rw [hexec, teamOp_runs_noSources hr hl, hk, conclude_stop hput (.inl hready.2.1)]

theorem sTrap_enters {code : BitVec 16} (hr : Runs s t (.sTrap h code)) (hready : handlerReady s t) (hg : t.groupsFor h ≠ []) :
    comesTo (.sTrap h code) s (entered t (t.pc + BitVec.ofNat 16 (Instr.length (.sTrap h code))) code .swtrap 0) :=
  stop_enters (st := { cause := .swtrap, lanes := 0, code := code, after := true }) hr hready hg rfl fun _ _ _ _ => rfl

theorem sBrk_enters {code : BitVec 16} (hr : Runs s t (.sBrk h code)) (hready : handlerReady s t) (hg : t.groupsFor h ≠ []) :
    comesTo (.sBrk h code) s (entered t t.pc code .brk 0) :=
  stop_enters (st := { cause := .brk, lanes := 0, code := code, after := false }) hr hready hg rfl fun _ _ _ _ => rfl

/-- A stop that an engine asked of a resident team is taken at the word that it is held at. -/
theorem preciseStop_takes (ht : s.team? t.uid = some t) (hres : t.res = .resident) (hst : t.stopReq = some st) :
    exec (.preciseStop t.uid) s = .next (s.takeStop t.uid t.heldLen st) := by
  change execPreciseStop t.uid s = _
  simp only [execPreciseStop, ht, hst, hres, if_true]

theorem preciseStop_enters (ht : s.team? t.uid = some t) (hready : handlerReady s t) (hres : t.res = .resident) (hst : t.stopReq = some st)
    (hafter : st.after = false) (hcode : st.code = 0) : comesTo (.preciseStop t.uid) s (entered t t.pc 0 st.cause st.lanes) := by
  obtain ⟨hmem, hteam⟩ := State.takeStop_enters (len := t.heldLen) ht hready fun h => by rw [hafter] at h; cases h
  rw [hafter, hcode, ite_self] at hteam
  exact ⟨_, preciseStop_takes ht hres hst, hteam, fun a => by rw [State.byte, hmem]; rfl⟩

/-! ### The return from the handler (R148) -/

/-- A team with nothing spilled fills no entry. -/
theorem State.fillTo_ok (s : State) (h : t.spilled = 0) : ∀ n, s.fillTo n t = .ok t
  | 0 => rfl
  | n + 1 => by
    rw [State.fillTo, State.fillEntry, if_pos (.inl h), Spill.andThen]
    exact State.fillTo_ok s h n

theorem tcause_left_iff (x : DWord) : x &&& 0x1FFF_FFFF ≠ 0 ↔ x.toNat % 2 ^ 29 ≠ 0 := by
  have h : (x &&& 0x1FFF_FFFF).toNat = x.toNat % 2 ^ 29 := by
    rw [BitVec.toNat_and]
    exact Nat.and_two_pow_sub_one_eq_mod x.toNat 29
  rw [← h, ne_eq, ne_eq, ← BitVec.toNat_inj]
  rfl

/-- Where the return goes: into the handler again with a bit of `TCAUSE` left, otherwise to `TPC`. -/
def Team.returnPc (t : Team) : BitVec 16 := if t.tcause &&& 0x1FFF_FFFF ≠ 0 then t.tvb.extractLsb' 0 16 else t.tpc.extractLsb' 0 16

/-- The team without the entries above the handler's path, its PC about to change. -/
def Team.unwound (t : Team) (p : BitVec 16) : Team :=
  { t with stack := t.stack.drop (t.stack.length - t.frameDepth), loopBuf := keptBuf t p.toNat }

theorem Team.unwound_eq (hsp : t.spilled = 0) (p : BitVec 16) :
    { t.fenced p with stack := t.stack.drop (t.depth - t.frameDepth), spilled := t.spilled - (t.depth - t.frameDepth - t.stack.length) } =
      t.unwound p := by
  simp only [Team.fenced_eq, Team.unwound, Team.depth, hsp, Nat.add_zero, Nat.zero_sub]

/-- The team that `s.rth` leaves: in its handler again, or at its frame outside it. -/
def Team.returned (t : Team) (fr : PathEntry) : Team :=
  let u := { t.unwound t.returnPc with issued := (t.unwound t.returnPc).issued + 1 }
  if t.tcause &&& 0x1FFF_FFFF ≠ 0 then u.setPc t.returnPc
  else { (u.setTop { fr with pc := t.returnPc }).setHandler false with frame := none, skipPos := 0 }

theorem State.returnFromHandler_eq {fr : PathEntry} (ht : s.team? t.uid = some t) (hfr : t.frame = some fr) (hsp : t.spilled = 0)
    (hf : fencePasses s t t.returnPc.toNat) : s.returnFromHandler t.uid = .ok (s.putTeam (t.returned fr)) := by
  have hfence : s.fenceTo t t.returnPc = none := State.fenceTo_of_passes hf
  have hfilled : t.spilled - (t.depth - t.frameDepth - t.stack.length) = 0 := by rw [hsp, Nat.zero_sub]
  rw [Team.returned, ← Team.unwound_eq hsp]
  unfold Team.returnPc at hfence ⊢
  simp only [State.returnFromHandler, ht, hfr]
  rw [State.fillTo_ok s hfilled]
  by_cases hc : t.tcause &&& 0x1FFF_FFFF ≠ 0
  · simp only [if_pos hc] at hfence ⊢
    simp only [hfence]
  · simp only [if_neg hc] at hfence ⊢
    simp only [hfence]

theorem sRth_returns {fr : PathEntry} (hr : Runs s t (.sRth h)) (hh : t.handler = true) (hfr : t.frame = some fr) (hsp : t.spilled = 0)
    (hf : fencePasses s t t.returnPc.toNat) : exec (.sRth h) s = .next (s.putTeam (t.returned fr)) := by
  change execSRth h s = _
  rw [execSRth, withTeam_runs hr]
  simp only [hh, State.returnFromHandler_eq hr.team hfr hsp hf, Bool.not_true, Bool.false_eq_true, if_false, conclude]

theorem sRth_restores {fr : PathEntry} (hr : Runs s t (.sRth h)) (hh : t.handler = true) (hfr : t.frame = some fr) (hsp : t.spilled = 0)
    (hc : t.tcause.toNat % 2 ^ 29 = 0) (hf : fencePasses s t (t.tpc.toNat % 65536)) : exec (.sRth h) s = .next (s.putTeam
      { t with stack := { fr with pc := t.tpc.truncate 16 } :: (t.stack.drop (t.stack.length - t.frameDepth)).tail
               tcw := t.tcw &&& ~~~0x4000_0000, frame := none, skipPos := 0, issued := t.issued + 1
               loopBuf := keptBuf t (t.tpc.toNat % 65536) }) := by
  have hnone : ¬ t.tcause &&& 0x1FFF_FFFF ≠ 0 := fun hne => (tcause_left_iff _).mp hne hc
  have hpc : t.returnPc = t.tpc.truncate 16 := if_neg hnone
  have hnat : t.returnPc.toNat = t.tpc.toNat % 65536 := by simp [hpc]
  rw [sRth_returns hr hh hfr hsp (hnat ▸ hf), Team.returned, if_neg hnone, Team.unwound, hnat, hpc]
  rfl

theorem sRth_enters_again {fr : PathEntry} (hr : Runs s t (.sRth h)) (hh : t.handler = true) (hfr : t.frame = some fr) (hsp : t.spilled = 0)
    (hc : t.tcause.toNat % 2 ^ 29 ≠ 0) (hf : fencePasses s t (t.tvb.toNat % 65536)) : exec (.sRth h) s = .next (s.putTeam
      (Team.setPc { t with stack := t.stack.drop (t.stack.length - t.frameDepth), issued := t.issued + 1
                           loopBuf := keptBuf t (t.tvb.toNat % 65536) } (t.tvb.truncate 16))) := by
  have hleft : t.tcause &&& 0x1FFF_FFFF ≠ 0 := (tcause_left_iff _).mpr hc
  have hpc : t.returnPc = t.tvb.truncate 16 := if_pos hleft
  have hnat : t.returnPc.toNat = t.tvb.toNat % 65536 := by simp [hpc]
  rw [sRth_returns hr hh hfr hsp (hnat ▸ hf), Team.returned, if_pos hleft, Team.unwound, hnat, hpc]

theorem sRth_outside (hr : Runs s t (.sRth h)) (hh : t.handler = false) :
    exec (.sRth h) s = .next (s.takeStop t.uid (Instr.length (.sRth h)) (Stop.of .illegal)) := by
  change execSRth h s = _
  rw [execSRth, withTeam_runs hr, hh]
  exact congrArg _ (conclude_stop hr.team (.inl hh) _)

end

end Sys2Proof.Machine
end

section
/-! The obligations of traps and of the return from the handler. -/

namespace Sys2Proof.Claims

open Sys2Proof Sys2Proof.Machine

/-- Settles O22: each word comes to a stop that finds the handler ready. -/
theorem trapsEnterTheHandler : Obligations.TrapsEnterTheHandler := by
  unfold Obligations.TrapsEnterTheHandler
  exact fun s t hready => ⟨fun h code hr hg => sTrap_enters hr hready hg, fun h code hr hg => sBrk_enters hr hready hg,
    fun st ht hres hst hafter hcode => preciseStop_enters ht hready hres hst hafter hcode⟩

/-- Settles O24: nothing has to be filled, so the return comes at once to the frame or to the handler. -/
theorem returnFromHandler : Obligations.ReturnFromHandler := by
  unfold Obligations.ReturnFromHandler
  exact fun s t h hr => ⟨fun fr hh hfr hsp _ =>
    ⟨fun hc hf => sRth_restores hr hh hfr hsp hc hf, fun hc hf => sRth_enters_again hr hh hfr hsp hc hf⟩, sRth_outside hr⟩

end Sys2Proof.Claims
end

section
/-! Handles that a command takes (R31, R32): the slot of the free list, the handle's fields, and what is left of the team. -/

namespace Sys2Proof.Machine

open Sys2Proof Sys2Proof.Claims

/-- The handle of an engine's command in a slot's next generation (R31, R32). -/
def Team.nextHandle (t : Team) (eng slot : Nat) : Nat := eng * 8192 + ((t.slotOf slot).gen + 1) % 128 * 64 + slot

section
variable {t : Team} {eng slot : Nat} {rest : List Nat} {d : RegNo} {gs : List Nat}

theorem Team.nextHandle_fields (t : Team) (he : eng < 8) (hs : slot < 64) : (BitVec.ofNat 16 (t.nextHandle eng slot)).toNat = t.nextHandle eng slot ∧
    bits (t.nextHandle eng slot) 15 13 = eng ∧ bits (t.nextHandle eng slot) 12 6 = ((t.slotOf slot).gen + 1) % 128 ∧
    bits (t.nextHandle eng slot) 5 0 = slot := by
  simp only [Team.nextHandle, bits, BitVec.toNat_ofNat]
  omega

/-- A handle reads its slot's status while the slot is in the handle's generation (R32, R33). -/
theorem Team.hStatus_nextHandle {u : Team} (t : Team) (h0 : 0 < eng) (h7 : eng < 7) (hs : slot < 64)
    (hg : (u.slotOf slot).gen = ((t.slotOf slot).gen + 1) % 128) : u.hStatus (BitVec.ofNat 16 (t.nextHandle eng slot)) = (u.slotOf slot).status := by
  obtain ⟨hnat, heng, hgen, hslot⟩ := t.nextHandle_fields (Nat.lt_succ_of_lt h7) hs
  have hlive : ¬ (eng = 0 ∨ eng = 7 ∨ (u.slotOf slot).gen ≠ ((t.slotOf slot).gen + 1) % 128) := by omega
  simp only [Team.hStatus, hnat, heng, hgen, hslot, if_neg hlive]

theorem handed_uid (t : Team) (eng slot : Nat) (rest : List Nat) (d : RegNo) (gs : List Nat) (pr : Option Nat) :
    (handed t eng slot rest d gs pr).uid = t.uid := Team.sAll_uid ..

/-- A command of a team with a free slot goes on with the handle taken (R28, R32). -/
theorem withHandle_takes {s : State} {k : State → HRef → BitVec 16 → Res} (ht : s.team? t.uid = some t) (hfree : t.freeSlots = slot :: rest)
    (he : eng < 8) (hs : slot < 64) : withHandle (s.putTeam t) t d gs eng k = k (s.putTeam (handed t eng slot rest d gs none))
      { uid := t.uid, slot := slot, gid := t.gid } (BitVec.ofNat 16 (t.nextHandle eng slot)) := by
  have hput : (s.putTeam t).team? t.uid = some t := State.team?_putTeam ht
  have hnat := (t.nextHandle_fields he hs).1
  have halloc : t.alloc eng = some (slot, BitVec.ofNat 16 (t.nextHandle eng slot),
      { t.putSlot slot { gen := ((t.slotOf slot).gen + 1) % 128, status := .pending, eng := eng, promise := none } with freeSlots := rest }) := by
    simp only [Team.alloc, hfree]
    rfl
  simp only [withHandle, hput, Option.getD_some, halloc, hnat]
  exact congrArg (fun u => k u _ _) (State.putTeam_putTeam s (handed_uid t eng slot rest d gs none).symm)

theorem handed_eq (t : Team) (eng slot : Nat) (rest : List Nat) (d : RegNo) (gs : List Nat) (pr : Option Nat) : ∃ m, handed t eng slot rest d gs pr =
    Team.groupRegs { t with handles := SMap.put t.handles slot { gen := ((t.slotOf slot).gen + 1) % 128, status := .pending, eng := eng, promise := pr }
                            freeSlots := rest } m t.q :=
  Team.sAll_eq _ _ _ _ _ _ _ rfl

theorem Team.sPut_s {t u : Team} (h : t.s = u.s) (n g : Nat) (w : RWord) : (t.sPut n g w).s = (u.sPut n g w).s := by
  unfold Team.sPut
  split
  · exact h
  · exact congrArg (fun m => SMap.set RWord.zero m _ w) h

theorem Team.sFrom_s (ws : List RWord) : ∀ {t u : Team} (_ : t.s = u.s) (n g : Nat), (t.sFrom n g ws).s = (u.sFrom n g ws).s := by
  induction ws with
  | nil => exact fun h _ _ => h
  | cons w ws ih => exact fun h n g => ih (Team.sPut_s h n g w) (n + 1) g

/-- What is written to the groups' registers depends on no other part of the team. -/
theorem Team.sAll_s (r : Nat) (gs : List Nat) (ws : List RWord) : ∀ {t u : Team}, t.s = u.s → (t.sAll r gs ws).s = (u.sAll r gs ws).s := by
  induction gs with
  | nil => exact id
  | cons g gs ih => exact fun h => ih (Team.sFrom_s ws h (r - 192) g)

theorem handed_s (t : Team) (eng slot : Nat) (rest : List Nat) (d : RegNo) (gs : List Nat) (pr : Option Nat) :
    (handed t eng slot rest d gs pr).s = (t.sAll d.toNat gs [RWord.ofNat (t.nextHandle eng slot)]).s :=
  Team.sAll_s _ _ _ rfl

end

end Sys2Proof.Machine
end

section
/-! Code segments (R130 to R136): the words that ask for a segment, go to it and load it, and the handle that a load answers to. -/

namespace Sys2Proof.Machine

open Sys2Proof Sys2Proof.Claims

/-! ### The status of a segment (R130, R134) -/

theorem foldl_min_le (l : List Nat) (m : Nat) : l.foldl min m ≤ m := by
  induction l generalizing m with
  | nil => exact Nat.le_refl m
  | cons x l ih => exact (ih _).trans (Nat.min_le_left m x)

theorem State.segStatus_lt (s : State) (t : Team) (n : Nat) : s.segStatus t n < 4 := by
  unfold State.segStatus
  split
  · decide
  · exact Nat.lt_of_le_of_lt (foldl_min_le _ 2) (by decide)

/-- `s.cstat` reads no register, so that it completes whatever codes they carry. -/
theorem sCstat_completes {s : State} {t : Team} {h : Hdr} {d : RegNo} {n : BitVec 4} (hr : Runs s t (.sCstat h d n)) :
    exec (.sCstat h d n) s = .next (s.putTeam ((t.writeGroups d.toNat (t.groupsFor h) fun _ =>
      URes.num 1 (s.segStatus t n.toNat + if t.segAddr n.toNat = 0 then 0 else 4)).pass (Instr.length (.sCstat h d n)))) :=
  groupOp_runs hr fun _ _ => rfl

/-! ### Fenced jumps (R135, R136) -/

section
variable {s : State} {t : Team} {h : Hdr} {p : BitVec 16}

theorem State.fenceCheck_landed (h2 : s.segStatus t (p.toNat / 4096) = 2) : s.fenceCheck t p = none := by
  simp only [State.fenceCheck, h2]

theorem State.fenceCheck_misses (h2 : s.segStatus t (p.toNat / 4096) < 2) : s.fenceCheck t p = some .ovlMiss := by
  unfold State.fenceCheck
  split
  · next h => rw [h] at h2; omega
  · next h => rw [h] at h2; omega
  · rfl

/-- `s.jmpf` of every active lane to another segment is the fenced jump. -/
theorem sJmpf_eq (hr : Runs s t (.sJmpf h p)) (hg : t.groupsFor h ≠ []) (hin : ∀ l ∈ t.activeLanes, inGroups t h l = true)
    (hseg : p.toNat / 4096 ≠ t.pc.toNat / 4096) :
    exec (.sJmpf h p) s = .next (conclude t.uid (Instr.length (.sJmpf h p)) (fencedJump p id (s.putTeam t) t)) := by
  obtain ⟨lead, rest, hl⟩ := exists_leads hg
  have hstay : (t.activeLanes.filter fun l => !(t.groupsFor h).contains (l / t.group)) = [] :=
    List.filter_eq_nil_iff.mpr fun l hm => by simpa [inGroups] using hin l hm
  have hjump : jumpFenced h p (s.putTeam t) t = fencedJump p id (s.putTeam t) t := by
    unfold jumpFenced
    rw [hl] at hstay ⊢
    simp only [hstay, List.isEmpty_nil, Bool.not_true, Bool.false_eq_true, if_false, mt (sameSegment_iff p t.pc).mp hseg]
  rw [← hjump]
  exact teamOp_runs_noSources hr hl

theorem sJmpf_arrives (hr : Runs s t (.sJmpf h p)) (hg : t.groupsFor h ≠ []) (hin : ∀ l ∈ t.activeLanes, inGroups t h l = true)
    (hseg : p.toNat / 4096 ≠ t.pc.toNat / 4096) (h2 : s.segStatus t (p.toNat / 4096) = 2) :
    comesTo (.sJmpf h p) s (arrived t ({ t.top with pc := p } :: t.stack.tail) none) := by
  have hcheck : (s.putTeam t).fenceCheck t p = none := State.fenceCheck_landed h2
  have hjump : fencedJump p id (s.putTeam t) t =
      .jump ((s.putTeam t).putTeam { t with stack := { t.top with pc := p } :: t.stack.tail, loopBuf := none }) := by
    rw [fencedJump, hcheck]
    rfl
  have hexec := sJmpf_eq hr hg hin hseg
  rw [hjump] at hexec
  exact ⟨_, hexec, conclude_jump rfl (State.team?_putTeam (t := { t with stack := _, loopBuf := none }) (State.team?_putTeam hr.team)), fun _ => rfl⟩

theorem sJmpf_misses (hr : Runs s t (.sJmpf h p)) (hg : t.groupsFor h ≠ []) (hin : ∀ l ∈ t.activeLanes, inGroups t h l = true)
    (hseg : p.toNat / 4096 ≠ t.pc.toNat / 4096) (h2 : s.segStatus t (p.toNat / 4096) < 2) :
    exec (.sJmpf h p) s = .next ((s.putTeam t).takeStop t.uid (Instr.length (.sJmpf h p)) (Stop.of .ovlMiss)) := by
  have hcheck : (s.putTeam t).fenceCheck t p = some .ovlMiss := State.fenceCheck_misses h2
  rw [sJmpf_eq hr hg hin hseg]
  simp only [fencedJump, hcheck]
  rw [conclude_stop (State.team?_putTeam hr.team) (.inr (by decide))]

theorem sCfence_completes (hr : Runs s t (.sCfence h)) (hg : t.groupsFor h ≠ []) :
    exec (.sCfence h) s = .next (s.putTeam (Team.pass { t with loopBuf := none } (Instr.length (.sCfence h)))) := by
  obtain ⟨lead, rest, hl⟩ := exists_leads hg
  refine (teamOp_runs_noSources hr hl).trans ?_
  rw [conclude_done (u := { t with loopBuf := none }) (State.team?_putTeam hr.team) rfl rfl hr.fits,
    State.putTeam_putTeam _ (by rw [Team.pass_uid])]

end

/-! ### Loads and the waiters that they serve (R131, R133) -/

theorem SMap.mem_put {α : Type} (m : SMap α) (x : Nat) (v : α) : (x, v) ∈ SMap.put m x v := by
  induction m with
  | nil => exact List.mem_singleton_self _
  | cons e m ih =>
    rw [SMap.put]
    split
    · exact List.mem_cons_self
    · split
      · exact List.mem_cons_self
      · exact List.mem_cons_of_mem _ ih

section
variable {s : State} {w : CodeWaiter} {u : Team}

/-- An image that has landed on a core is there (R133). -/
theorem State.requestCode_landed {k j asid adr : Nat} {sl : CodeSlot} (hslot : (s.core k).slotFor asid adr = some (j, sl)) (hl : sl.st = .landed)
    (w : CodeWaiter) : s.requestCode k asid adr false w = s := by
  simp only [State.requestCode, hslot, hl, Bool.false_eq_true, if_false, if_true]

/-- A reload loads an image anew into the slot that holds it (R133). -/
theorem State.requestCode_reload {k j asid adr : Nat} {sl : CodeSlot} (hslot : (s.core k).slotFor asid adr = some (j, sl)) (w : CodeWaiter) :
    s.requestCode k asid adr true w = s.startLoad k j asid adr (sl.waiters ++ [w]) := by
  simp only [State.requestCode, hslot, if_true]

/-- Where no slot has a waiter and no load stands back, nobody waits. -/
theorem State.codeWaits_none (hl : s.loads = []) (hc : ∀ kc ∈ s.cores, kc.2.code.all (fun e => e.2.waiters.isEmpty) = true) :
    s.codeWaits w = false := by
  have hcores : (s.cores.any fun kc => kc.2.code.any fun e => e.2.st == .loading && e.2.waiters.contains w) = false := by
    refine List.any_eq_false.mpr fun kc hk => ?_
    rw [Bool.not_eq_true, List.any_eq_false]
    intro e he
    have hnone : e.2.waiters = [] := List.isEmpty_iff.mp (List.all_eq_true.mp (hc kc hk) e he)
    simp [hnone]
  rw [State.codeWaits, hcores, hl]
  rfl

/-- The last of a load's waiters waits for it once it has started. -/
theorem State.codeWaits_startLoad (s : State) (k n asid addr : Nat) (ws : List CodeWaiter) (w : CodeWaiter) :
    (s.startLoad k n asid addr (ws ++ [w])).codeWaits w = true := by
  rw [State.codeWaits, Bool.or_eq_true]
  refine .inl (List.any_eq_true.mpr ⟨_, SMap.mem_put .., List.any_eq_true.mpr ⟨_, SMap.mem_put .., ?_⟩⟩)
  simp

theorem State.landed_waits (h : s.codeWaits w = true) : s.landed w = s := by
  rw [State.landed, if_pos (.inl h)]

/-- A team whose load has landed: its handle's slot is done, and its segment not FAULTED (R130, R133). -/
def Team.served (t : Team) (seg slot : Nat) : Team := Team.finishSlot { t with segFaulted := t.segFaulted.set seg false } slot .done

theorem Team.served_keeps (t : Team) (seg slot : Nat) :
    (t.served seg slot).stack = t.stack ∧ (t.served seg slot).segs = t.segs ∧ (t.served seg slot).s = t.s := by
  unfold Team.served Team.finishSlot
  split
  · exact ⟨rfl, rfl, rfl⟩
  · exact ⟨rfl, rfl, rfl⟩

theorem Team.served_slotOf {seg slot : Nat} (h : (u.slotOf slot).status = .pending) :
    (u.served seg slot).slotOf slot = { u.slotOf slot with status := .done } := by
  have h' : (({ u with segFaulted := u.segFaulted.set seg false } : Team).slotOf slot).status = .pending := h
  rw [Team.served, Team.finishSlot, if_pos h']
  exact (SMap.get_put ..).trans (if_pos rfl)

/-- A waiter of whom no load is left is answered. -/
theorem State.landed_serves (h : s.codeWaits w = false) (hs : w.who.slot < 64) (hu : s.team? w.who.uid = some u) :
    (s.landed w).team? w.who.uid = some (u.served w.seg w.who.slot) := by
  have hgo : ¬ (s.codeWaits w = true ∨ w.who.slot ≥ 64) := not_or.mpr ⟨by simp [h], Nat.not_le.mpr hs⟩
  have hseg := State.team?_modTeam (fun t => { t with segFaulted := t.segFaulted.set w.seg false }) (fun _ => rfl) hu
  rw [State.landed, if_neg hgo]
  refine State.team?_modTeam (s := State.mapWaiters _ _) (fun t => t.finishSlot w.who.slot .done) (fun t => ?_) hseg
  unfold Team.finishSlot
  split <;> rfl

end

/-! ### Code fetches (R133) -/

theorem wordsNat_pair_lt (a b : RWord) : wordsNat [a, b] < 2 ^ 64 := by
  have ha := a.val.isLt
  have hb := b.val.isLt
  simp only [wordsNat]
  omega

theorem leadVal_pair_lt (t : Team) (lead : Nat) (a : RegNo) : leadVal t lead a 2 < 2 ^ 64 := wordsNat_pair_lt _ _

/-- The team of a fetch: it has its handle, and the segment is bound (R132, R133). -/
def bound (t : Team) (slot : Nat) (rest : List Nat) (d : RegNo) (gs : List Nat) (n adr : Nat) : Team :=
  { handed t 6 slot rest d gs none with segs := (handed t 6 slot rest d gs none).segs.set n (BitVec.ofNat 64 adr) }

section
variable {s : State} {t : Team} {h : Hdr} {d a : RegNo} {n : BitVec 4} {slot : Nat} {rest : List Nat} {lead : Nat} {gs : List Nat} {k : Nat}
  {sl : CodeSlot}

theorem bound_eq (t : Team) (slot : Nat) (rest : List Nat) (d : RegNo) (gs : List Nat) (n adr : Nat) : ∃ m, bound t slot rest d gs n adr =
    { t with handles := SMap.put t.handles slot { gen := ((t.slotOf slot).gen + 1) % 128, status := .pending, eng := 6, promise := none }
             freeSlots := rest, s := m, segs := t.segs.set n (BitVec.ofNat 64 adr) } := by
  obtain ⟨m, hm⟩ := handed_eq t 6 slot rest d gs none
  exact ⟨m, by rw [bound, hm]; rfl⟩

theorem bound_s (t : Team) (slot : Nat) (rest : List Nat) (d : RegNo) (gs : List Nat) (n adr : Nat) :
    (bound t slot rest d gs n adr).s = (t.sAll d.toNat gs [RWord.ofNat (t.nextHandle 6 slot)]).s := handed_s ..

theorem bound_slotOf (t : Team) (slot : Nat) (rest : List Nat) (d : RegNo) (gs : List Nat) (n adr : Nat) :
    (bound t slot rest d gs n adr).slotOf slot = { gen := ((t.slotOf slot).gen + 1) % 128, status := .pending, eng := 6, promise := none } := by
  obtain ⟨m, hm⟩ := bound_eq t slot rest d gs n adr
  rw [hm]
  simp [Team.slotOf, SMap.get_put]

theorem bound_uid (t : Team) (slot : Nat) (rest : List Nat) (d : RegNo) (gs : List Nat) (n adr : Nat) :
    (bound t slot rest d gs n adr).uid = t.uid := handed_uid ..

theorem bound_stack (t : Team) (slot : Nat) (rest : List Nat) (d : RegNo) (gs : List Nat) (n adr : Nat) :
    (bound t slot rest d gs n adr).stack = t.stack := Team.sAll_stack ..

/-- The waiter of a fetch. -/
def fetchWaiter (s : State) (t : Team) (slot n : Nat) : CodeWaiter :=
  { who := { uid := t.uid, slot := slot, gid := t.gid }, seg := n, no := s.nextId }

/-- The state that a fetch asks for its image in. -/
def fetching (s : State) (t : Team) (slot : Nat) (rest : List Nat) (d : RegNo) (gs : List Nat) (n adr : Nat) : State :=
  s.newId.2.putTeam (bound t slot rest d gs n adr)

theorem fetching_team? (ht : s.team? t.uid = some t) (slot : Nat) (rest : List Nat) (d : RegNo) (gs : List Nat) (n adr : Nat) :
    (fetching s t slot rest d gs n adr).team? t.uid = some (bound t slot rest d gs n adr) := by
  have hput := State.team?_putTeam (s := s.newId.2) (t := bound t slot rest d gs n adr) (u := t)
  rw [bound_uid] at hput
  exact hput ht

/-- A fetch by a team of one core takes its handle, binds the segment and asks the core for the image. -/
theorem cfetch_asks {reload : Bool} {adr : Nat} (ht : s.team? t.uid = some t) (hfree : t.freeSlots = slot :: rest) (hs : slot < 64)
    (h0 : adr ≠ 0) (hal : adr % 16384 = 0) (hpair : t.pair = false) (n : Nat) (gs : List Nat) (lead : Nat) :
    cfetch reload d n (s.putTeam t) t gs lead adr = .done (((fetching s t slot rest d gs n adr).requestCode t.home t.asid adr reload
      (fetchWaiter s t slot n)).landed (fetchWaiter s t slot n)) := by
  have huid := handed_uid t 6 slot rest d gs none
  have hmod : (s.putTeam (handed t 6 slot rest d gs none)).newId.2.modTeam t.uid
      (fun t => { t with segs := t.segs.set n (BitVec.ofNat 64 adr) }) = fetching s t slot rest d gs n adr := by
    rw [← huid]
    exact State.modTeam_putTeam s.newId.2 _ (fun t => { t with segs := t.segs.set n (BitVec.ofNat 64 adr) }) rfl
  have hal' : ¬ adr % 2 ^ 14 ≠ 0 := not_not.mpr hal
  rw [cfetch, if_neg hal', withHandle_takes ht hfree (by decide) hs]
  simp only [if_neg h0, hmod, Team.cores, hpair, Bool.false_eq_true, if_false, List.foldl_cons, List.foldl_nil]
  rfl

/-- The team once its word is past: the segment is bound, the handle is in the groups' registers, and reads as its slot. -/
theorem bound_pass {u : Team} {adr len : Nat} (hlen : t.segs.length = 16) (hadr : adr < 2 ^ 64) (hs : slot < 64)
    (hsegs : u.segs = (bound t slot rest d gs n.toNat adr).segs) (hregs : u.s = (bound t slot rest d gs n.toNat adr).s)
    (hgen : (u.slotOf slot).gen = ((t.slotOf slot).gen + 1) % 128) :
    (u.pass len).segAddr n.toNat = adr ∧ (u.pass len).hStatus (BitVec.ofNat 16 (t.nextHandle 6 slot)) = (u.slotOf slot).status ∧
      (u.pass len).s = (t.sAll d.toNat gs [RWord.ofNat (BitVec.ofNat 16 (t.nextHandle 6 slot)).toNat]).s := by
  obtain ⟨skip, pos, hpass⟩ := Team.pass_eq u len
  obtain ⟨m, hm⟩ := bound_eq t slot rest d gs n.toNat adr
  have hn : n.toNat < t.segs.length := hlen ▸ n.isLt
  have hget : u.segs[n.toNat]? = some (BitVec.ofNat 64 adr) := by
    rw [hsegs, hm]
    exact List.getElem?_set_self hn
  rw [hpass]
  refine ⟨?_, Team.hStatus_nextHandle (u := u) t (by decide) (by decide) hs hgen, ?_⟩
  · change ((u.segs[n.toNat]?).getD 0).toNat = adr
    rw [hget]
    exact Nat.mod_eq_of_lt hadr
  · rw [(t.nextHandle_fields (by decide) hs).1, ← bound_s t slot rest d gs n.toNat adr]
    exact hregs

/-- A fetch of an image that its core holds, by a team of one core with a free slot and right codes (R131, R133). -/
structure Fetches (s : State) (t : Team) (h : Hdr) (a : RegNo) (slot : Nat) (rest : List Nat) (lead : Nat) (gs : List Nat) (adr k : Nat)
    (sl : CodeSlot) : Prop where
  good : allGood t
  free : t.freeSlots = slot :: rest
  inTable : slot < 64
  leads : leads t h lead gs
  address : leadVal t lead a 2 = adr
  nonzero : adr ≠ 0
  aligned : adr % 16384 = 0
  single : t.pair = false
  image : (s.core t.home).slotFor t.asid adr = some (k, sl)

section
variable {adr : Nat} (f : Fetches s t h a slot rest lead gs adr k sl)
include f

theorem Fetches.image_found : ((fetching s t slot rest d (lead :: gs) n.toNat adr).core t.home).slotFor t.asid adr = some (k, sl) := f.image

theorem Fetches.exec_eq {reload : Bool} {i : Instr} (hr : Runs s t i)
    (hexec : exec i s = withTeam i s (teamOp i h d 1 [(a, 2)] fun s t gs lead vs => cfetch reload d n.toNat s t gs lead (vs.headD 0))) :
    exec i s = .next (conclude t.uid i.length (.done (((fetching s t slot rest d (lead :: gs) n.toNat adr).requestCode t.home t.asid adr reload
      (fetchWaiter s t slot n.toNat)).landed (fetchWaiter s t slot n.toNat)))) := by
  rw [hexec, teamOp_runs hr f.leads f.good, ← cfetch_asks hr.team f.free f.inTable f.nonzero f.aligned f.single n.toNat (lead :: gs) lead,
    ← f.address]
  rfl

/-- Where the image has landed, the fetch's handle is done as it is given. -/
theorem Fetches.lands (hr : Runs s t (.sCfetch h d a n)) (hl : sl.st = .landed) (hloads : s.loads = [])
    (hcores : ∀ kc ∈ s.cores, kc.2.code.all (fun e => e.2.waiters.isEmpty) = true) : ∃ s', exec (.sCfetch h d a n) s = .next s' ∧
      s'.team? t.uid = some (((bound t slot rest d (lead :: gs) n.toNat adr).served n.toNat slot).pass (Instr.length (.sCfetch h d a n))) := by
  have hwaits : (fetching s t slot rest d (lead :: gs) n.toNat adr).codeWaits (fetchWaiter s t slot n.toNat) = false :=
    State.codeWaits_none hloads hcores
  have hteam := State.landed_serves hwaits f.inTable (fetching_team? hr.team slot rest d (lead :: gs) n.toNat adr)
  have hstack := (Team.served_keeps _ n.toNat slot).1.trans (bound_stack t slot rest d (lead :: gs) n.toNat adr)
  obtain ⟨hconclude, hpassed⟩ := conclude_done_team hteam hstack hr.fits
  have hexec := f.exec_eq (d := d) (n := n) (reload := false) hr rfl
  rw [State.requestCode_landed f.image_found hl] at hexec
  exact ⟨_, hexec.trans (congrArg _ hconclude), hpassed⟩

/-- A reload's handle waits for the load that it starts. -/
theorem Fetches.loads (hr : Runs s t (.sCfetchReload h d a n)) : ∃ s', exec (.sCfetchReload h d a n) s = .next s' ∧
      s'.team? t.uid = some ((bound t slot rest d (lead :: gs) n.toNat adr).pass (Instr.length (.sCfetchReload h d a n))) ∧
      ((s'.core t.home).codeSlot k).st = .loading := by
  have hteam := fetching_team? hr.team slot rest d (lead :: gs) n.toNat adr
  obtain ⟨hconclude, hpassed⟩ := conclude_done_team (s := ((fetching s t slot rest d (lead :: gs) n.toNat adr).startLoad t.home k t.asid adr
    (sl.waiters ++ [fetchWaiter s t slot n.toNat]))) hteam (bound_stack ..) hr.fits
  have hexec := f.exec_eq (d := d) (n := n) (reload := true) hr rfl
  rw [State.requestCode_reload f.image_found, State.landed_waits (State.codeWaits_startLoad ..)] at hexec
  refine ⟨_, hexec.trans (congrArg _ hconclude), hpassed, ?_⟩
  change (((State.startLoad ..).core t.home).codeSlot k).st = .loading
  rw [State.startLoad, State.core_putCore, Core.codeSlot_putCode]

end

end

end Sys2Proof.Machine
end

section
/-! The obligations of the overlay words, the code fetches and the status word. -/

namespace Sys2Proof.Claims

open Sys2Proof Sys2Proof.Machine

theorem overlay_words_complete : overlayWordsComplete := by
  refine fun s t h _ => ⟨fun p hr hg hin hseg => ⟨fun h2 => ?_, fun h2 => ?_⟩, fun hr hg => ?_, fun d n hr => ?_⟩
  · exact sJmpf_arrives hr hg hin hseg h2
  · exact sJmpf_misses hr hg hin hseg h2
  · exact sCfence_completes hr hg
  · exact sCstat_completes hr

theorem code_fetches_complete : codeFetchesComplete := by
  intro s t h d a n slot rest lead gs k sl adr ha hfree hg h0 hal hpair himage hl hloads hsegs hs hcores
  have f : Fetches s t h a slot rest lead gs adr k sl := ⟨ha, hfree, hs, hg, rfl, h0, hal, hpair, himage⟩
  have hadr : adr < 2 ^ 64 := leadVal_pair_lt t lead a
  have hpending := bound_slotOf t slot rest d (lead :: gs) n.toNat adr
  obtain ⟨hnat, heng, -, hslot⟩ := t.nextHandle_fields (eng := 6) (by decide) hs
  refine ⟨fun hr => ?lands, fun hr => ?loads⟩
  case lands =>
    obtain ⟨s', hexec, hteam⟩ := f.lands hr hl hloads hcores
    obtain ⟨-, husegs, hus⟩ := Team.served_keeps (bound t slot rest d (lead :: gs) n.toNat adr) n.toNat slot
    have hdone := Team.served_slotOf (u := bound t slot rest d (lead :: gs) n.toNat adr) (seg := n.toNat) (slot := slot) (by rw [hpending])
    obtain ⟨haddr, hstatus, hregs⟩ := bound_pass hsegs hadr hs husegs hus (by rw [hdone, hpending])
    exact ⟨s', _, _, hexec, hteam, haddr, hstatus.trans (by rw [hdone]), hregs, by rw [hnat, heng], by rw [hnat, hslot]⟩
  case loads =>
    obtain ⟨s', hexec, hteam, hloading⟩ := f.loads hr
    obtain ⟨haddr, hstatus, hregs⟩ := bound_pass hsegs hadr hs rfl rfl (by rw [hpending])
    exact ⟨s', _, _, hexec, hteam, haddr, hstatus.trans (by rw [hpending]), hregs, hloading⟩

/-- Settles O15: the jump and its fence, and the handle of a fetch by what becomes of its waiter. -/
theorem overlaysAndCodeFetchesComplete : Obligations.OverlaysAndCodeFetchesComplete := by
  unfold Obligations.OverlaysAndCodeFetchesComplete
  exact ⟨overlay_words_complete, code_fetches_complete⟩

/-- Settles O51: a status is less than 4, so that the bound bit stands beside it. -/
theorem segmentStatusWord : Obligations.SegmentStatusWord := by
  unfold Obligations.SegmentStatusWord
  intro s t h d n hr
  have hlt := s.segStatus_lt t n.toNat
  refine ⟨_, sCstat_completes hr, ?_⟩
  split <;> omega

end Sys2Proof.Claims
end

section
/-! The lane arithmetic (R154, R155): each function of the model gives the number of the bits that the rule names. -/

namespace Sys2Proof.Machine

open Sys2Proof Sys2Proof.Claims

/- One theorem after another: side by side, their threads would fill the memory. -/
set_option Elab.async false

/-! ### Values of a type (R154) -/

theorem ofInt_valueOf (ty : Ty) (x : BitVec ty.width) : BitVec.ofInt ty.width (valueOf ty x) = x := by
  unfold valueOf
  split
  · exact BitVec.ofInt_toInt
  · rw [BitVec.ofInt_natCast, BitVec.ofNat_toNat, BitVec.setWidth_eq]

theorem tyVal_toNat (ty : Ty) (x : BitVec ty.width) : tyVal ty x.toNat = valueOf ty x := by
  rw [tyVal_eq, BitVec.ofNat_toNat, BitVec.setWidth_eq]

/-- A type's value in `n` bits: extended by sign or by zero, or cut. -/
theorem wrap_valueOf (ty : Ty) (n : Nat) (x : BitVec ty.width) :
    wrap n (valueOf ty x) = (if ty.isSigned then x.signExtend n else x.zeroExtend n).toNat := by
  rw [wrap_eq, valueOf]
  split
  · rfl
  · rw [BitVec.ofInt_natCast, BitVec.ofNat_toNat]

/-- A clamped value is in the type's range, so that its bits give it back. -/
theorem saturate_eq (ty : Ty) (z : Int) : saturate ty z = valueOf ty (clampTo ty z) := by
  obtain ⟨v, hv⟩ : ∃ v, ty.width = v + 1 := ⟨ty.width - 1, by have := width_pos ty; omega⟩
  have hpos : (0 : Int) < 2 ^ v := by positivity
  simp only [saturate, clampTo, valueOf]
  split
  · rw [BitVec.toInt_ofInt_eq_self (width_pos ty)] <;> simp only [hv, Nat.add_sub_cancel, Nat.cast_pow, Nat.cast_ofNat] <;> omega
  · rw [BitVec.toNat_ofInt, hv]
    simp only [Nat.cast_pow, Nat.cast_ofNat, Int.pow_succ]
    rw [Int.emod_eq_of_lt, Int.toNat_of_nonneg] <;> omega

theorem wrap_saturate (ty : Ty) (z : Int) : wrap ty.width (saturate ty z) = (clampTo ty z).toNat := by
  rw [saturate_eq, wrap_eq, ofInt_valueOf]

/-! ### Elements (R154, R155) -/

/-- Bits of a number that lie within `n` bits are a part of those bits. -/
theorem extractLsb'_ofNat {n p w : Nat} (h : p + w ≤ n) (x : Nat) : (BitVec.ofNat n x).extractLsb' p w = BitVec.ofNat w (x / 2 ^ p) := by
  ext i hi
  have hin : p + i < n := by omega
  simp [← BitVec.getLsbD_eq_getElem, BitVec.getLsbD_ofNat, hi, hin, Nat.testBit_div_two_pow, Nat.add_comm]

theorem elem_toNat {n : Nat} (x : BitVec n) (i w : Nat) : elem x.toNat i w = (x.extractLsb' (w * i) w).toNat := by
  rw [BitVec.extractLsb'_toNat, Nat.shiftRight_eq_div_pow, elem]

/-- Packed elements are the sum of their places. -/
theorem packElems_range {w : Nat} : ∀ (n : Nat) (f : Nat → BitVec w),
    packElems w ((List.range n).map fun i => (f i).toNat) = ((List.range n).map fun i => (f i).toNat * 2 ^ (w * i)).sum
  | 0, _ => rfl
  | n + 1, f => by
    have ih := packElems_range n fun i => f (i + 1)
    have hplace : ∀ i, (f (i + 1)).toNat * 2 ^ (w * (i + 1)) = 2 ^ w * ((f (i + 1)).toNat * 2 ^ (w * i)) := fun i => by ring
    simp only [List.range_succ_eq_map, List.map_cons, List.map_map, Function.comp_def, packElems, List.sum_cons, ih, hplace,
      List.sum_map_mul_left, Nat.mul_zero, Nat.pow_zero, Nat.mul_one, Nat.mod_eq_of_lt (f 0).isLt, Nat.succ_eq_add_one]

theorem elemCount_eq (ty : Ty) : elemCount ty = max 1 (32 / ty.width) := by cases ty <;> rfl

/-- An operation on numbers that agrees with one on bits agrees with it in each element. -/
theorem mapElems_eq {ty : Ty} {f : Nat → Nat → Nat} {g : BitVec ty.width → BitVec ty.width → BitVec ty.width}
    (hf : ∀ x y : BitVec ty.width, f x.toNat y.toNat = (g x y).toNat) (a b : Nat) : mapElems ty f a b = eachElem ty g a b := by
  have he : ∀ x i, elem x i ty.width = (BitVec.ofNat ty.width (x / 2 ^ (ty.width * i))).toNat := fun x i => (BitVec.toNat_ofNat ..).symm
  simp only [mapElems, eachElem, he, hf, elemCount_eq]
  exact packElems_range _ fun i => g (BitVec.ofNat ty.width (a / 2 ^ (ty.width * i))) (BitVec.ofNat ty.width (b / 2 ^ (ty.width * i)))

section
variable (ty ty2 : Ty) (a b : Nat)

theorem elemWise_add : elemWise ty false (fun x y => x + y) a b = eachElem ty (· + ·) a b :=
  mapElems_eq (f := fun x y => wrap ty.width (tyVal ty x + tyVal ty y)) (fun x y => by
    rw [tyVal_toNat, tyVal_toNat, wrap_eq, BitVec.ofInt_add, ofInt_valueOf, ofInt_valueOf]) a b

theorem elemWise_sub : elemWise ty false (fun x y => x - y) a b = eachElem ty (· - ·) a b :=
  mapElems_eq (f := fun x y => wrap ty.width (tyVal ty x - tyVal ty y)) (fun x y => by
    rw [tyVal_toNat, tyVal_toNat, wrap_eq, sub_eq_add_neg, BitVec.ofInt_add, BitVec.ofInt_neg, ofInt_valueOf, ofInt_valueOf,
      BitVec.sub_eq_add_neg]) a b

theorem elemWise_saturate (f : Int → Int → Int) :
    elemWise ty true f a b = eachElem ty (fun x y => clampTo ty (f (valueOf ty x) (valueOf ty y))) a b :=
  mapElems_eq (fun x y => by
    rw [tyVal_toNat, tyVal_toNat]
    exact wrap_saturate ..) a b

theorem mapElems_aluMin : mapElems ty (aluMin ty) a b = eachElem ty (fun x y => if valueOf ty y < valueOf ty x then y else x) a b :=
  mapElems_eq (fun x y => by simp only [aluMin_eq, BitVec.ofNat_toNat, BitVec.setWidth_eq]) a b

theorem mapElems_aluMax : mapElems ty (aluMax ty) a b = eachElem ty (fun x y => if valueOf ty y > valueOf ty x then y else x) a b :=
  mapElems_eq (fun x y => by simp only [aluMax_eq, BitVec.ofNat_toNat, BitVec.setWidth_eq]) a b

/-! ### Sums with immediates, multiply-adds and dot products (R155) -/

theorem addImm_wrap (imm : BitVec 8) : addImm ty false a imm = (BitVec.ofNat ty.width a + imm.signExtend ty.width).toNat := by
  rw [addImm, if_neg (by decide), wrap_eq, tyVal_eq, BitVec.ofInt_add, ofInt_valueOf, BitVec.signExtend]

theorem addImm_saturate (imm : BitVec 8) :
    addImm ty true a imm = (clampTo ty (valueOf ty (BitVec.ofNat ty.width a) + imm.toInt)).toNat :=
  (wrap_saturate ..).trans (by rw [tyVal_eq])

theorem wrap_madExact (w : Nat) (vs : List Nat) (c : Int) :
    wrap w (madExact ty (nth vs 0) (nth vs 1) c) = (BitVec.ofInt w (exactMad ty vs c)).toNat := by
  rw [wrap_eq, madExact, tyVal_eq, tyVal_eq]
  rfl

/-- The high word of a multiply-add (R155). -/
theorem wrap_madExact_high (vs : List Nat) (c : Int) :
    wrap 64 (madExact ty (nth vs 0) (nth vs 1) c) / 2 ^ 32 = (BitVec.ofInt 32 (exactMad ty vs c / 2 ^ 32)).toNat := by
  rw [show 64 = 2 * 32 from rfl, wrap_div_two_pow, madExact, tyVal_eq, tyVal_eq]
  rfl

/-- C of `v.madw`: a pair under the type's sign (R155). -/
theorem madwAddend_eq (c : Nat) : (if ty.isSigned then signedVal 64 c else (c : Int)) =
    if ty.isSigned then (BitVec.ofNat 64 c).toInt else (c : Int) := by rw [signedVal_eq (by decide)]

theorem dotSum_eq (vs : List Nat) : dotSum ty ty2 (nth vs 0) (nth vs 1) (nth vs 2) = exactDot ty ty2 vs := by
  have he : ∀ i ∈ List.range 4, ∀ k, elem (nth vs k) i 8 = ((arg 32 vs k).extractLsb' (8 * i) 8).toNat := fun i hi k => by
    rw [arg, extractLsb'_ofNat (by have := List.mem_range.mp hi; omega), BitVec.toNat_ofNat]
    rfl
  rw [exactDot, ← List.map_congr_left fun i hi => congrArg₂ (fun x y => tyVal ty x * tyVal ty2 y) (he i hi 0) (he i hi 1), dotSum,
    signedVal_eq (by decide)]
  simp only [List.range_succ, List.range_zero, List.nil_append, List.cons_append, List.foldl_cons, List.foldl_nil, List.map_cons, List.map_nil,
    List.sum_cons, List.sum_nil, add_zero, add_assoc]
  rfl

theorem dot4_wrap (vs : List Nat) : dot4 ty ty2 false (nth vs 0) (nth vs 1) (nth vs 2) = (BitVec.ofInt 32 (exactDot ty ty2 vs)).toNat := by
  rw [dot4, if_neg (by decide), wrap_eq, dotSum_eq]

theorem dot4_saturate (vs : List Nat) : dot4 ty ty2 true (nth vs 0) (nth vs 1) (nth vs 2) = (clampTo .s32 (exactDot ty ty2 vs)).toNat := by
  rw [dot4, if_pos rfl, dotSum_eq]
  exact wrap_saturate ..

end

end Sys2Proof.Machine
end

section
/-! The lane words of bits (R156 to R158): rotations, bit fields, counts, permuted bytes and conversions. -/

namespace Sys2Proof.Machine

open Sys2Proof Sys2Proof.Claims

/- One theorem after another: side by side, their threads would fill the memory. -/
set_option Elab.async false

/-! ### Rotations and funnel shifts (R156) -/

theorem rotl_eq {w : Nat} (hw : 0 < w) (a n : Nat) : rotl w a n = ((BitVec.ofNat w a).rotateLeft n).toNat := by
  have hm := Nat.mod_lt n hw
  have hpow : 2 ^ w = 2 ^ (n % w) * 2 ^ (w - n % w) := by rw [← Nat.pow_add]; congr 1; omega
  have hlow : a % 2 ^ w / 2 ^ (w - n % w) < 2 ^ (n % w) := by
    rw [Nat.div_lt_iff_lt_mul (Nat.two_pow_pos _), ← hpow]
    exact Nat.mod_lt _ (Nat.two_pow_pos _)
  have hhigh : a * 2 ^ (n % w) % 2 ^ w = (a % 2 ^ (w - n % w)) <<< (n % w) := by
    rw [hpow, Nat.mul_comm a, Nat.mul_mod_mul_left, Nat.shiftLeft_eq, Nat.mul_comm]
  rw [BitVec.toNat_rotateLeft, BitVec.toNat_ofNat, Nat.shiftLeft_eq, Nat.mod_mul_mod, Nat.shiftRight_eq_div_pow, hhigh,
    ← Nat.shiftLeft_add_eq_or_of_lt hlow, ← hhigh, rotl]

/-- A rotation to the right is one to the left by what is left of the width. -/
theorem rotateRight_eq_rotateLeft {w : Nat} (hw : 0 < w) (x : BitVec w) (n : Nat) : x.rotateRight n = x.rotateLeft (w - n % w) := by
  have hm := Nat.mod_lt n hw
  rw [BitVec.rotateRight_def, BitVec.rotateLeft_def, BitVec.or_comm]
  rcases Nat.eq_zero_or_pos (n % w) with h | h
  · simp [h, BitVec.ushiftRight_eq_zero]
  · rw [Nat.mod_eq_of_lt (by omega : w - n % w < w), show w - (w - n % w) = n % w by omega]

theorem rotl_right_eq {w : Nat} (hw : 0 < w) (a n : Nat) : rotl w a (w - n % w) = ((BitVec.ofNat w a).rotateRight n).toNat := by
  rw [rotl_eq hw, rotateRight_eq_rotateLeft hw]

theorem append_toNat {m n : Nat} (x : BitVec m) (y : BitVec n) : (x ++ y).toNat = x.toNat * 2 ^ n + y.toNat := by
  rw [BitVec.toNat_append, ← Nat.shiftLeft_add_eq_or_of_lt y.isLt, Nat.shiftLeft_eq]

theorem funnelL_eq (x y : Word) (n : Nat) : funnelL x.toNat y.toNat n = (((x ++ y) <<< n).extractLsb' 32 32).toNat := by
  rw [BitVec.extractLsb'_toNat, BitVec.toNat_shiftLeft, append_toNat, Nat.shiftLeft_eq, Nat.shiftRight_eq_div_pow, funnelL, Nat.pow_add,
    Nat.mod_mul_right_div_self, Nat.mod_mod]

theorem funnelR_eq (x y : Word) (n : Nat) : funnelR x.toNat y.toNat n = (((x ++ y) >>> n).extractLsb' 0 32).toNat := by
  rw [BitVec.extractLsb'_toNat, BitVec.toNat_ushiftRight, append_toNat, Nat.shiftRight_zero, Nat.shiftRight_eq_div_pow, funnelR]

/-! ### Bit fields (R156) -/

theorem bitField_ofNat (b : Nat) : bitField (BitVec.ofNat 32 b) = (b % 32, fieldWid b) := by
  have hp : ((BitVec.ofNat 32 b).extractLsb' 0 5).toNat = b % 32 := by
    rw [extractLsb'_ofNat (by decide), BitVec.toNat_ofNat, Nat.pow_zero, Nat.div_one]
  have hw : ((BitVec.ofNat 32 b).extractLsb' 8 6).toNat = bits b 13 8 := by
    rw [extractLsb'_ofNat (by decide), BitVec.toNat_ofNat, bits]
  rw [bitField, hp, hw, fieldWid]

theorem fieldWid_le (b : Nat) : b % 32 + fieldWid b ≤ 32 := by
  have := Nat.mod_lt b (show 0 < 32 by decide)
  rw [fieldWid]
  omega

theorem extend_eq (signed : Bool) {w n : Nat} (hw : 0 < w) (hn : w ≤ n) (x : Nat) :
    extend signed w n x = (if signed then (BitVec.ofNat w x).signExtend n else (BitVec.ofNat w x).zeroExtend n).toNat := by
  rw [extend]
  split
  · rw [wrap_eq, signedVal_eq hw, BitVec.signExtend]
  · rw [BitVec.toNat_setWidth_of_le hn, BitVec.toNat_ofNat]

theorem bfx_eq (ty : Ty) (a b : Nat) : bfx ty a b =
    (let f := bitField (BitVec.ofNat 32 b)
     let z := (BitVec.ofNat 32 a).extractLsb' f.1 f.2
     (if ty.isSigned then z.signExtend 32 else z.zeroExtend 32).toNat) := by
  have hle := fieldWid_le b
  rw [bitField_ofNat, bfx]
  dsimp only
  rw [extractLsb'_ofNat hle]
  generalize fieldWid b = w at hle
  split
  · next h => subst h; simp [BitVec.of_length_zero]
  · next h => exact extend_eq _ (by omega) (by omega) _

/-- The bits of a number in which `w` bits from `p` on are replaced. -/
theorem testBit_replaced (a c p w j : Nat) : (c - c / 2 ^ p % 2 ^ w * 2 ^ p + a % 2 ^ w * 2 ^ p).testBit j =
    if p ≤ j ∧ j < p + w then a.testBit (j - p) else c.testBit j := by
  have hlow := Nat.div_add_mod c (2 ^ p)
  have hmid := Nat.div_add_mod (c / 2 ^ p) (2 ^ w)
  have hparts : c - c / 2 ^ p % 2 ^ w * 2 ^ p + a % 2 ^ w * 2 ^ p =
      2 ^ p * (2 ^ w * (c / 2 ^ p / 2 ^ w) + a % 2 ^ w) + c % 2 ^ p := by
    rw [← hmid, Nat.mul_add] at hlow
    rw [Nat.mul_add, Nat.mul_comm (a % 2 ^ w), Nat.mul_comm (c / 2 ^ p % 2 ^ w)]
    omega
  rw [hparts, Nat.testBit_two_pow_mul_add _ (Nat.mod_lt _ (Nat.two_pow_pos p)),
    Nat.testBit_two_pow_mul_add _ (Nat.mod_lt _ (Nat.two_pow_pos w))]
  simp only [Nat.testBit_mod_two_pow, Nat.testBit_div_two_pow]
  by_cases h1 : j < p
  · simp [h1]
  · by_cases h2 : j < p + w
    · simp [h1, h2, show p ≤ j by omega, show j - p < w by omega]
    · simp [h1, h2, show ¬ j - p < w by omega, show j - p - w + w + p = j by omega]

/-- The mask of a bit field has the field's bits. -/
theorem getLsbD_fieldMask {p w : Nat} (hle : p + w ≤ 32) (j : Nat) :
    ((BitVec.allOnes w).zeroExtend 32 <<< p).getLsbD j = decide (p ≤ j ∧ j < p + w) := by
  simp only [BitVec.getLsbD_shiftLeft, BitVec.getLsbD_setWidth, BitVec.getLsbD_allOnes]
  rw [Bool.eq_iff_iff]
  simp only [Bool.and_eq_true, Bool.not_eq_true', decide_eq_true_eq, decide_eq_false_iff_not]
  omega

theorem bfi_eq_replaced (a b c : Nat) : bfi a b c =
    c - c / 2 ^ (b % 32) % 2 ^ fieldWid b * 2 ^ (b % 32) + a % 2 ^ fieldWid b * 2 ^ (b % 32) := by
  rw [bfi]
  split
  · next h => simp [h, Nat.mod_one]
  · rfl

theorem bfi_eq (x y z : Word) : bfi x.toNat y.toNat z.toNat =
    (let f := bitField y
     let m := (BitVec.allOnes f.2).zeroExtend 32 <<< f.1
     (z &&& ~~~m) ||| ((x <<< f.1) &&& m)).toNat := by
  have hf : bitField y = (y.toNat % 32, fieldWid y.toNat) := by rw [← bitField_ofNat, BitVec.ofNat_toNat, BitVec.setWidth_eq]
  have hle := fieldWid_le y.toNat
  refine Nat.eq_of_testBit_eq fun j => ?_
  rw [bfi_eq_replaced, testBit_replaced, hf]
  simp only [BitVec.testBit_toNat, BitVec.getLsbD_or, BitVec.getLsbD_and, BitVec.getLsbD_not, getLsbD_fieldMask hle]
  split
  · next h => simp [h, Nat.not_lt.mpr h.1, show j < 32 by omega, BitVec.getLsbD_eq_getElem (x := x) (show j - y.toNat % 32 < 32 by omega)]
  · next h =>
    by_cases hlt : j < 32
    · simp [h, hlt]
    · simp [h, BitVec.getLsbD_of_ge z j (by omega)]

/-! ### Counts of bits (R156) -/

theorem testBit_eq_getLsbD {w i : Nat} (hi : i < w) (a : Nat) : a.testBit i = (BitVec.ofNat w a).getLsbD i := by
  rw [BitVec.getLsbD_ofNat, decide_eq_true hi, Bool.true_and]

theorem popc_eq (w a : Nat) : popc w a = ((List.range w).filter fun i => (BitVec.ofNat w a).getLsbD i).length :=
  congrArg List.length (List.filter_congr fun _ hi => testBit_eq_getLsbD (List.mem_range.mp hi) a)

/-- The highest one among the low bits of a number is its logarithm's place. -/
theorem find_reverse_range (a : Nat) : ∀ w : Nat, (List.range w).reverse.find? (fun i => a.testBit i) =
    if a % 2 ^ w = 0 then none else some (Nat.log2 (a % 2 ^ w))
  | 0 => by simp [Nat.mod_one]
  | w + 1 => by
    have ih := find_reverse_range a w
    have hlt := Nat.mod_lt a (Nat.two_pow_pos w)
    rw [List.range_succ, List.reverse_append, List.reverse_singleton, List.singleton_append, List.find?_cons, Nat.mod_pow_succ,
      ← Nat.toNat_testBit]
    cases h : a.testBit w with
    | false => simpa using ih
    | true =>
      have hpos := Nat.two_pow_pos w
      have hne : a % 2 ^ w + 2 ^ w * true.toNat ≠ 0 := by simp
      have hlog : (a % 2 ^ w + 2 ^ w * true.toNat).log2 = w := (Nat.log2_eq_iff hne).mpr (by simp [Nat.pow_succ]; omega)
      rw [if_neg hne, hlog]

theorem clz_eq (w a : Nat) : clz w a = if BitVec.ofNat w a = 0 then w else w - 1 - Nat.log2 (BitVec.ofNat w a).toNat := by
  have h0 : BitVec.ofNat w a = 0 ↔ a % 2 ^ w = 0 := by rw [← BitVec.toNat_inj]; simp
  simp only [clz, find_reverse_range, h0, BitVec.toNat_ofNat]
  split <;> rfl

/-- The first place of a range where a property holds is after all those where it does not. -/
theorem find_range' (p q : Nat → Bool) : ∀ n k : Nat, (∀ i, k ≤ i → i < k + n → p i = !q i) →
    ((List.range' k n).find? p).getD (k + n) = k + ((List.range' k n).takeWhile q).length
  | 0, k, _ => rfl
  | n + 1, k, h => by
    have ih := find_range' p q n (k + 1) fun i hk hn => h i (by omega) (by omega)
    rw [List.range'_succ, List.find?_cons, List.takeWhile_cons, h k le_rfl (by omega)]
    cases q k with
    | false => rfl
    | true =>
      rw [show k + (n + 1) = k + 1 + n by omega]
      simpa [Nat.add_assoc, Nat.add_comm] using ih

theorem ctz_eq (w a : Nat) : ctz w a = ((List.range w).takeWhile fun i => !(BitVec.ofNat w a).getLsbD i).length := by
  have h := find_range' (fun i => a.testBit i) (fun i => !(BitVec.ofNat w a).getLsbD i) w 0 fun i _ hi => by
    rw [Bool.not_not, testBit_eq_getLsbD (w := w) (by omega)]
  rw [ctz, List.range_eq_range']
  simpa using h

/-- The bits that are taken up from the lowest on stand in reverse order. -/
theorem testBit_reversed (a : Nat) : ∀ w j : Nat,
    ((List.range w).foldl (fun (r : Nat) i => 2 * r + a / 2 ^ i % 2) 0).testBit j = (decide (j < w) && a.testBit (w - 1 - j))
  | 0, j => by simp
  | w + 1, 0 => by
    rw [List.range_succ, List.foldl_append, List.foldl_cons, List.foldl_nil, Nat.testBit_zero, Nat.mul_add_mod, Nat.mod_mod]
    simp [Nat.testBit_eq_decide_div_mod_eq]
  | w + 1, j + 1 => by
    have ih := testBit_reversed a w j
    rw [List.range_succ, List.foldl_append, List.foldl_cons, List.foldl_nil, Nat.testBit_succ, Nat.mul_add_div (by decide),
      Nat.div_eq_of_lt (Nat.mod_lt _ (by decide)), Nat.add_zero, ih]
    simp [Nat.sub_sub, Nat.add_comm]

theorem brev_eq (w a : Nat) : brev w a = (BitVec.ofNat w a).reverse.toNat := by
  refine Nat.eq_of_testBit_eq fun j => ?_
  rw [brev, testBit_reversed, BitVec.testBit_toNat, BitVec.getLsbD_reverse, BitVec.getMsbD]
  by_cases hj : j < w
  · rw [testBit_eq_getLsbD (w := w) (by omega)]
  · simp [hj]

/-! ### Permuted bytes and conversions (R157, R158) -/

theorem getLsbD_seven (v : BitVec 8) : v.getLsbD 7 = decide (v.toNat ≥ 128) := by
  have := BitVec.msb_eq_decide v
  rwa [BitVec.msb_eq_getLsbD_last] at this

theorem permByte_eq (sign : Bool) (x y z : Word) (i : Nat) : (permByte sign x y z i).toNat =
    (let sel := elem z.toNat i 4
     let v := elem (x.toNat + 2 ^ 32 * y.toNat) (sel % 8) 8
     if sel < 8 then v else if sign && decide (v ≥ 128) then 255 else 0) := by
  have hx : x.toNat + 2 ^ 32 * y.toNat = (y ++ x).toNat := by rw [append_toNat, Nat.mul_comm, Nat.add_comm]
  simp only [hx, elem_toNat, permByte, getLsbD_seven, apply_ite BitVec.toNat]
  rfl

theorem perm_eq (sign : Bool) (x y z : Word) : perm sign x.toNat y.toNat z.toNat =
    (permByte sign x y z 3 ++ permByte sign x y z 2 ++ permByte sign x y z 1 ++ permByte sign x y z 0).toNat := by
  rw [perm]
  simp only [← permByte_eq, append_toNat]
  simp only [List.range_succ, List.range_zero, List.nil_append, List.cons_append, List.map_cons, List.map_nil, packElems]
  omega

theorem cvtInt_eq (dst src : Ty) (sat : Bool) (idx a : Nat) : cvtInt dst src sat idx a =
    (let x := valueOf src (BitVec.ofNat src.width (a / 2 ^ (src.width * idx)))
     let z := if sat then clampTo dst x else BitVec.ofInt dst.width x
     (if dst.isSigned then z.signExtend (32 * regsOf dst) else z.zeroExtend (32 * regsOf dst)).toNat) := by
  have hx : tyVal src (elem a idx src.width) = valueOf src (BitVec.ofNat src.width (a / 2 ^ (src.width * idx))) := by
    rw [elem, tyVal_mod, tyVal_eq]
  have hn : (if dst.is64 then 64 else 32) = 32 * regsOf dst := by cases dst <;> rfl
  rw [cvtInt, hx, hn]
  cases sat with
  | false => rw [if_neg (by decide), wrap_eq dst.width, tyVal_toNat, wrap_valueOf]; rfl
  | true => rw [if_pos rfl, saturate_eq, wrap_valueOf]; rfl

end Sys2Proof.Machine
end

section
/-! The obligations of the lane words on integers, predicates and moves: the rows of their tables. -/

namespace Sys2Proof.Claims

open Sys2Proof Sys2Proof.Machine

/- One theorem after another: side by side, their threads would fill the memory. -/
set_option Elab.async false

/-- A word that runs with right codes comes to what the rule says. -/
def LaneRule.ruleOf (r : LaneRule) (i : Instr) : Prop :=
  ∀ (s : State) (t : Team), Runs s t i → r.codesGood t → exec i s = .next (r.after s t i)

theorem laneWith_rule {i : Instr} {r : LaneRule} {unit : Nat} {copies : Bool} {chk : Team → Nat → List RWord → List WordCheck}
    {f : Team → Nat → LRes} (he : ∀ s, exec i s = withTeam i s (laneWith i r.h unit copies r.d chk f))
    (hp : ∀ t, r.codesGood t → ∀ l ∈ t.lanesFor r.h, passing (chk t l (f t l).words))
    (hf : ∀ t l, f t l = r.res t l ((t.laneSrcs r.srcs l).map wordsNat)) : r.ruleOf i := fun s t hr hg => by
  rw [he, laneWith_runs hr (hp t hg), LaneRule.after, funext (hf t)]

/-- A word over the values of its sources, which are those of some lane's registers. -/
theorem laneOp_rule_of_srcs {i : Instr} {h : Hdr} {unit : Nat} {d : RegNo} {srcs : List (RegNo × Nat)} {f g : Team → Nat → List Nat → LRes}
    (he : ∀ s, exec i s = withTeam i s (laneOp i h unit d srcs f))
    (hf : ∀ t l, f t l ((t.laneSrcs srcs l).map wordsNat) = g t l ((t.laneSrcs srcs l).map wordsNat)) :
    LaneRule.ruleOf { h := h, d := d, srcs := srcs, res := g } i :=
  laneWith_rule he (fun _ hg l hl => resChecks_good _ _ (hg.1 l hl)) hf

/-- A word over the values of its sources, whatever they are. -/
theorem laneOp_rule {i : Instr} {h : Hdr} {unit : Nat} {d : RegNo} {srcs : List (RegNo × Nat)} {f g : Team → Nat → List Nat → LRes}
    (he : ∀ s, exec i s = withTeam i s (laneOp i h unit d srcs f)) (hf : ∀ t l vs, f t l vs = g t l vs) :
    LaneRule.ruleOf { h := h, d := d, srcs := srcs, res := g } i :=
  laneOp_rule_of_srcs he fun t l => hf t l _

/-- A word on two sources of its type. -/
theorem laneBin_rule {i : Instr} {h : Hdr} {ty : Ty} {d a b : RegNo} {f : Nat → Nat → Nat} {g : Team → Nat → List Nat → LRes}
    (he : ∀ s, exec i s = withTeam i s (laneBin i h ty d a b f))
    (hf : ∀ t l vs, LRes.num (regsOf ty) (f (nth vs 0) (nth vs 1)) = g t l vs) :
    LaneRule.ruleOf { h := h, d := d, srcs := [(a, regsOf ty), (b, regsOf ty)], res := g } i :=
  laneOp_rule (f := fun _ _ vs => LRes.num (regsOf ty) (f (nth vs 0) (nth vs 1))) he hf

/-- A word on one source of its type. -/
theorem laneUn_rule {i : Instr} {h : Hdr} {ty : Ty} {n : Nat} {d a : RegNo} {f : Nat → Nat} {g : Team → Nat → List Nat → LRes}
    (he : ∀ s, exec i s = withTeam i s (laneUn i h ty n d a f)) (hf : ∀ t l vs, LRes.num n (f (nth vs 0)) = g t l vs) :
    LaneRule.ruleOf { h := h, d := d, srcs := [(a, regsOf ty)], res := g } i :=
  laneOp_rule (f := fun _ _ vs => LRes.num n (f (nth vs 0))) he hf

/-- A word on three single registers, each of 32 bits. -/
theorem laneTri_rule {i : Instr} {h : Hdr} {d a b c : RegNo} {f : Nat → Nat → Nat → Nat} {g : Word → Word → Word → Word} {r : LaneRule}
    (he : ∀ s, exec i s = withTeam i s (laneTri i h d a b c f)) (hf : ∀ x y z : Word, f x.toNat y.toNat z.toNat = (g x y z).toNat)
    (hrule : laneThree h d a b c g = some r) : r.ruleOf i := by
  cases hrule
  refine laneOp_rule_of_srcs (f := fun _ _ vs => LRes.num 1 (f (nth vs 0) (nth vs 1) (nth vs 2))) he fun t l => congrArg (LRes.num 1) ?_
  simp only [Team.laneSrcs, List.map_cons, List.map_nil, rRun_one, wordsNat_singleton]
  exact (hf ..).trans (by simp [arg])

/-- A word on predicates. -/
theorem lanePred_rule {i : Instr} {h : Hdr} {p : BitVec 4} {f : Team → Nat → Bool} {g : Team → Nat → List Nat → LRes}
    (he : ∀ s, exec i s = withTeam i s (lanePred i h p f)) (hf : ∀ t l vs, LRes.flag p.toNat (f t l) = g t l vs) :
    LaneRule.ruleOf { h := h, d := 0, srcs := [], res := g } i :=
  laneOp_rule (f := fun t l _ => LRes.flag p.toNat (f t l)) he hf

/-- Every row of R155's table. -/
theorem laneArithmetic_rule {i : Instr} {r : LaneRule} (hrule : laneArithmetic i = some r) : r.ruleOf i := by
  cases i with
  | vAdd h ty d a b => cases hrule; exact laneBin_rule (fun _ => rfl) fun _ _ _ => congrArg (LRes.num _) (elemWise_add ..)
  | vAdds h ty d a b => cases hrule; exact laneBin_rule (fun _ => rfl) fun _ _ _ => congrArg (LRes.num _) (elemWise_saturate ..)
  | vSub h ty d a b => cases hrule; exact laneBin_rule (fun _ => rfl) fun _ _ _ => congrArg (LRes.num _) (elemWise_sub ..)
  | vSubs h ty d a b => cases hrule; exact laneBin_rule (fun _ => rfl) fun _ _ _ => congrArg (LRes.num _) (elemWise_saturate ..)
  | vMin h ty d a b => cases hrule; exact laneBin_rule (fun _ => rfl) fun _ _ _ => congrArg (LRes.num _) (mapElems_aluMin ..)
  | vMax h ty d a b => cases hrule; exact laneBin_rule (fun _ => rfl) fun _ _ _ => congrArg (LRes.num _) (mapElems_aluMax ..)
  | vAddi h ty d a imm => cases hrule; exact laneUn_rule (fun _ => rfl) fun _ _ _ => congrArg (LRes.num _) (addImm_wrap ..)
  | vAddis h ty d a imm => cases hrule; exact laneUn_rule (fun _ => rfl) fun _ _ _ => congrArg (LRes.num _) (addImm_saturate ..)
  | vMul h ty d a b => cases hrule; exact laneBin_rule (fun _ => rfl) fun _ _ _ => congrArg (LRes.num _) (aluMul_eq ..)
  | vMulh h ty d a b => cases hrule; exact laneBin_rule (fun _ => rfl) fun _ _ _ => congrArg (LRes.num _) (aluMulh_eq ..)
  | vMulw h ty d a b => cases hrule; exact laneOp_rule (fun _ => rfl) fun _ _ _ => congrArg (LRes.num _) (wrap_madExact ..)
  | vMad h ty d a b c =>
    cases hrule
    exact laneOp_rule (fun _ => rfl) fun _ _ _ => congrArg (LRes.num _) ((wrap_madExact ..).trans (by rw [tyVal_eq]; rfl))
  | vMadh h ty d a b c =>
    cases hrule
    exact laneOp_rule (fun _ => rfl) fun _ _ _ => congrArg (LRes.num _) ((wrap_madExact_high ..).trans (by rw [tyVal_eq]; rfl))
  | vMadw h ty d a b c =>
    cases hrule
    exact laneOp_rule (fun _ => rfl) fun _ _ _ => congrArg (LRes.num _) ((wrap_madExact ..).trans (by rw [madwAddend_eq]; rfl))
  | vDot4 h ty ty2 d a b c => cases hrule; exact laneOp_rule (fun _ => rfl) fun _ _ _ => congrArg (LRes.num _) (dot4_wrap ..)
  | vDot4s h ty ty2 d a b c => cases hrule; exact laneOp_rule (fun _ => rfl) fun _ _ _ => congrArg (LRes.num _) (dot4_saturate ..)
  | vLea h ty d a b sh => cases hrule; exact laneOp_rule (fun _ => rfl) fun _ _ _ => congrArg (LRes.num _) (aluLea_eq ..)
  | vLid h d => cases hrule; exact laneOp_rule (fun _ => rfl) fun _ _ _ => rfl
  | vGlid h d => cases hrule; exact laneOp_rule (fun _ => rfl) fun _ _ _ => rfl
  | vMovi h ty d imm => cases hrule; exact laneOp_rule (fun _ => rfl) fun _ _ _ => by rw [immMov, immSext_eq]
  | vMovhi h d imm =>
    cases hrule
    exact laneOp_rule (fun _ => rfl) fun _ _ _ => congrArg (LRes.num 1) (by rw [rRun_one, wordsNat_singleton, movhi_eq])
  | _ => cases hrule

/-- Every row of the table of R156 to R158. -/
theorem laneBitwise_rule {i : Instr} {r : LaneRule} (hrule : laneBitwise i = some r) : r.ruleOf i := by
  cases i with
  | vAnd h ty d a b => cases hrule; exact laneBin_rule (fun _ => rfl) fun _ _ _ => congrArg (LRes.num _) (aluAnd_eq ..)
  | vOr h ty d a b => cases hrule; exact laneBin_rule (fun _ => rfl) fun _ _ _ => congrArg (LRes.num _) (aluOr_eq ..)
  | vXor h ty d a b => cases hrule; exact laneBin_rule (fun _ => rfl) fun _ _ _ => congrArg (LRes.num _) (aluXor_eq ..)
  | vAndn h ty d a b => cases hrule; exact laneBin_rule (fun _ => rfl) fun _ _ _ => congrArg (LRes.num _) (aluAndn_eq ..)
  | vAndi h ty d a imm => cases hrule; exact laneUn_rule (fun _ => rfl) fun _ _ _ => congrArg (LRes.num _) (aluAnd_imm ..)
  | vOri h ty d a imm => cases hrule; exact laneUn_rule (fun _ => rfl) fun _ _ _ => congrArg (LRes.num _) (aluOr_imm ..)
  | vXori h ty d a imm => cases hrule; exact laneUn_rule (fun _ => rfl) fun _ _ _ => congrArg (LRes.num _) (aluXor_imm ..)
  | vShl h ty d a b => cases hrule; exact laneBin_rule (fun _ => rfl) fun _ _ _ => congrArg (LRes.num _) (shl_eq ..)
  | vShr h ty d a b => cases hrule; exact laneBin_rule (fun _ => rfl) fun _ _ _ => congrArg (LRes.num _) (shr_eq ..)
  | vSra h ty d a b => cases hrule; exact laneBin_rule (fun _ => rfl) fun _ _ _ => congrArg (LRes.num _) (sra_eq _ _ _ (width_pos ty))
  | vRotl h ty d a b => cases hrule; exact laneBin_rule (fun _ => rfl) fun _ _ _ => congrArg (LRes.num _) (rotl_eq (width_pos ty) ..)
  | vRotr h ty d a b => cases hrule; exact laneBin_rule (fun _ => rfl) fun _ _ _ => congrArg (LRes.num _) (rotl_right_eq (width_pos ty) ..)
  | vShli h ty d a imm => cases hrule; exact laneUn_rule (fun _ => rfl) fun _ _ _ => congrArg (LRes.num _) (shl_eq ..)
  | vShri h ty d a imm => cases hrule; exact laneUn_rule (fun _ => rfl) fun _ _ _ => congrArg (LRes.num _) (shr_eq ..)
  | vSrai h ty d a imm => cases hrule; exact laneUn_rule (fun _ => rfl) fun _ _ _ => congrArg (LRes.num _) (sra_eq _ _ _ (width_pos ty))
  | vRotli h ty d a imm => cases hrule; exact laneUn_rule (fun _ => rfl) fun _ _ _ => congrArg (LRes.num _) (rotl_eq (width_pos ty) ..)
  | vFshl h d a b c => exact laneTri_rule (fun _ => rfl) (fun x y n => funnelL_eq x y (n.toNat % 32)) hrule
  | vFshr h d a b c => exact laneTri_rule (fun _ => rfl) (fun x y n => funnelR_eq x y (n.toNat % 32)) hrule
  | vBfx h ty d a b => cases hrule; exact laneBin_rule (fun _ => rfl) fun _ _ _ => congrArg (LRes.num _) (bfx_eq ..)
  | vBfi h d a b c => exact laneTri_rule (fun _ => rfl) bfi_eq hrule
  | vPopc h ty d a => cases hrule; exact laneUn_rule (fun _ => rfl) fun _ _ _ => congrArg (LRes.num _) (popc_eq ..)
  | vClz h ty d a => cases hrule; exact laneUn_rule (fun _ => rfl) fun _ _ _ => congrArg (LRes.num _) (clz_eq ..)
  | vCtz h ty d a => cases hrule; exact laneUn_rule (fun _ => rfl) fun _ _ _ => congrArg (LRes.num _) (ctz_eq ..)
  | vBrev h ty d a => cases hrule; exact laneUn_rule (fun _ => rfl) fun _ _ _ => congrArg (LRes.num _) (brev_eq ..)
  | vPerm h d a b c => exact laneTri_rule (fun _ => rfl) (perm_eq false) hrule
  | vPerms h d a b c => exact laneTri_rule (fun _ => rfl) (perm_eq true) hrule
  | vCvt h ty ty2 d a sat idx => cases hrule; exact laneOp_rule (fun _ => rfl) fun _ _ _ => congrArg (LRes.num _) (cvtInt_eq ..)
  | _ => cases hrule

/-- Settles O2, row by row of the two tables. -/
theorem laneIntegersComplete : Obligations.LaneIntegersComplete := by
  unfold Obligations.LaneIntegersComplete
  exact ⟨fun s t _ _ h => laneArithmetic_rule h s t, fun s t _ _ h => laneBitwise_rule h s t⟩

/-- Every row of the table of R157's compares and R160. -/
theorem lanePredicates_rule {i : Instr} {r : LaneRule} (hrule : lanePredicates i = some r) : r.ruleOf i := by
  cases i with
  | vCmp h cc ty p a b => cases hrule; exact laneOp_rule (fun _ => rfl) fun _ _ _ => by rw [tyVal_eq, tyVal_eq]; rfl
  | vCmpi h cc ty p a imm => cases hrule; exact laneOp_rule (fun _ => rfl) fun _ _ _ => by rw [tyVal_eq, immCmp]; rfl
  | vPand h p pa pb => cases hrule; exact lanePred_rule (fun _ => rfl) fun _ _ _ => rfl
  | vPor h p pa pb => cases hrule; exact lanePred_rule (fun _ => rfl) fun _ _ _ => rfl
  | vPxor h p pa pb => cases hrule; exact lanePred_rule (fun _ => rfl) fun _ _ _ => rfl
  | vPandn h p pa pb => cases hrule; exact lanePred_rule (fun _ => rfl) fun _ _ _ => rfl
  | vPq h p qa => cases hrule; exact lanePred_rule (fun _ => rfl) fun _ _ _ => rfl
  | _ => cases hrule

/-- Every row of the moves' table: the codes that `v.sel` checks are those of the words that it takes, and `v.mov` checks none (R161). -/
theorem laneMoves_rule {i : Instr} {r : LaneRule} (hrule : laneMoves i = some r) : r.ruleOf i := by
  cases i with
  | vSel h ty d a b p neg =>
    cases hrule
    refine laneWith_rule (fun _ => rfl) (fun t hg l hl => operandChecks_good ?_) fun t l => ?_
    · rw [chosen_eq]
      exact hg.2 l hl
    · rw [chosen_eq]
  | vMov h ty d a => cases hrule; exact laneWith_rule (fun _ => rfl) (fun _ _ _ _ => rfl) fun _ _ => rfl
  | _ => cases hrule

/-- Settles O3, row by row of the two tables. -/
theorem lanePredicatesAndMovesComplete : Obligations.LanePredicatesAndMovesComplete := by
  unfold Obligations.LanePredicatesAndMovesComplete
  exact ⟨fun s t _ _ h => lanePredicates_rule h s t, fun s t _ _ h => laneMoves_rule h s t⟩

end Sys2Proof.Claims
end

section
/-! The floating-point words of the lanes (R164 to R174): elements, signs and draws as the rows of the tables write them. -/

namespace Sys2Proof.Claims

open Sys2Proof Sys2Proof.Machine

/- One theorem after another: side by side, their threads would fill the memory. -/
set_option Elab.async false

/-! ### Words on single registers (R163) -/

/-- Single registers read as the numbers of their words. -/
theorem laneSrcs_single (t : Team) (l : Nat) (rs : List RegNo) :
    (t.laneSrcs (rs.map fun r => (r, 1)) l).map wordsNat = rs.map fun r => (t.rGet r.toNat l).val.toNat := by
  simp only [Team.laneSrcs, List.map_map]
  exact List.map_congr_left fun r _ => laneVal_one t r l

/-- A word on single registers, whatever words of 32 bits they hold. -/
theorem floatOp_rule {i : Instr} {h : Hdr} {d : RegNo} {rs : List RegNo} {f g : Team → Nat → List Nat → LRes}
    (he : ∀ s, exec i s = withTeam i s (laneOp i h 1 d (rs.map fun r => (r, 1)) f))
    (hf : ∀ t l (v : RegNo → Word), f t l (rs.map fun r => (v r).toNat) = g t l (rs.map fun r => (v r).toNat)) :
    LaneRule.ruleOf { h := h, d := d, srcs := rs.map fun r => (r, 1), res := g } i :=
  laneOp_rule_of_srcs he fun t l => by
    rw [laneSrcs_single]
    exact hf t l fun r => (t.rGet r.toNat l).val

/-- The one FP32 element of a register is the register's word. -/
theorem elemVal_f32 {vs : List Nat} {k : Nat} {x : Word} (hx : vs[k]? = some x.toNat) : elemVal .f32 vs k 0 = Fmt.val .f32 x.toNat := by
  rw [elemVal, hx, Option.getD_some, elem_toNat]
  simp [fmtOf, tyFmt, Ty.width]

/-! ### Rounding steps (R55, R56) -/

theorem two_mul_step (t : Team) : 2 * t.step = if t.rm = 5 then 2 else 0 := by rw [Team.step, mul_ite]

/-- A conversion that need not round takes no draw (R168). -/
theorem step_of_rounds (b : Bool) (t : Team) : (if b then t.step else 0) = if b && t.rm = 5 then 1 else 0 := by
  cases b with
  | false => rfl
  | true => simp [Team.step]

/-! ### Elements (R44, R164, R165) -/

/-- An element-wise rounding rounds the exact value of each element's place. -/
theorem fRound_eq (ty : Ty) (g : Nat → List FVal → FVal) (t : Team) (l : Nat) (vs : List Nat) :
    fRound ty g t l vs = roundedElems ty (fun rm vs i => g rm (vs.map fun v => (fmtOf ty).val (elem v i ty.width))) t l vs := by
  simp only [fRound, fElems, List.map_map]
  rfl

/-- The elements at a place of a list of numbers are the numbers of their bits. -/
theorem map_elem (i w : Nat) (vs : List Nat) :
    (vs.map fun v => elem v i w) = ((List.range vs.length).map fun k => BitVec.ofNat w (elem ((vs[k]?).getD 0) i w)).map BitVec.toNat := by
  refine List.ext_getElem (by simp) fun k hk _ => ?_
  have hk : k < vs.length := by simpa using hk
  simp [hk, elem]

/-- An element-wise operation on numbers that agrees with one on encodings agrees with it at each place. -/
theorem fBits_eq {ty : Ty} {g : List Nat → Nat} {f : List (BitVec ty.width) → Nat} (hg : ∀ xs, g (xs.map BitVec.toNat) = f xs)
    (t : Team) (l : Nat) (vs : List Nat) : fBits ty g t l vs = plainElems ty vs.length f t l vs := by
  simp only [fBits, fElems, plainElems, map_elem, hg]
  rfl

section
variable {w : Nat} (xs : List (BitVec w))

theorem nth_zero_toNat : nth (xs.map BitVec.toNat) 0 = (xs.headD 0).toNat := by cases xs <;> simp [nth]

theorem nth_one_toNat : nth (xs.map BitVec.toNat) 1 = ((xs.drop 1).headD 0).toNat := by
  rw [← nth_zero_toNat]
  simp [nth]

end

/-- Numbering the values of places by their place. -/
theorem mapIdx_map_range {α β : Type} (n : Nat) (f : Nat → α) (g : Nat → α → β) :
    ((List.range n).map f).mapIdx g = (List.range n).map fun i => g i (f i) :=
  List.ext_getElem (by simp) fun k _ _ => by simp

/-! ### Signs (R165) -/

section
variable {w : Nat} (hw : 0 < w) (x y : BitVec w)
include hw

theorem signBit_toNat : (signBit w).toNat = 2 ^ (w - 1) := by
  rw [signBit, BitVec.toNat_twoPow, Nat.mod_eq_of_lt (Nat.pow_lt_pow_right (by decide) (by omega))]

theorem xor_signBit : x.toNat ^^^ 2 ^ (w - 1) = (x ^^^ signBit w).toNat := by rw [BitVec.toNat_xor, signBit_toNat hw]

theorem and_not_signBit : x.toNat % 2 ^ (w - 1) = (x &&& ~~~signBit w).toNat := by
  refine Nat.eq_of_testBit_eq fun j => ?_
  rw [Nat.testBit_mod_two_pow, BitVec.testBit_toNat, BitVec.testBit_toNat, BitVec.getLsbD_and, BitVec.getLsbD_not, signBit,
    BitVec.getLsbD_twoPow]
  by_cases hj : j < w
  · by_cases hs : j = w - 1
    · simp [hs]
    · simp [hj, show w - 1 ≠ j by omega, show j < w - 1 by omega]
  · simp [BitVec.getLsbD_of_ge x j (by omega)]

theorem and_signBit : y.toNat / 2 ^ (w - 1) * 2 ^ (w - 1) = (y &&& signBit w).toNat := by
  have hdiv : y.toNat / 2 ^ (w - 1) < 2 := by
    rw [Nat.div_lt_iff_lt_mul (Nat.two_pow_pos _), ← Nat.pow_succ', Nat.succ_eq_add_one, Nat.sub_add_cancel hw]
    exact y.isLt
  rw [BitVec.toNat_and, signBit_toNat hw, Nat.and_two_pow, Nat.toNat_testBit, Nat.mod_eq_of_lt hdiv]

theorem or_signBit : x.toNat % 2 ^ (w - 1) + y.toNat / 2 ^ (w - 1) * 2 ^ (w - 1) = ((x &&& ~~~signBit w) ||| (y &&& signBit w)).toNat := by
  rw [BitVec.toNat_or, ← and_not_signBit hw, ← and_signBit hw, Nat.or_comm, ← Nat.shiftLeft_eq,
    ← Nat.shiftLeft_add_eq_or_of_lt (Nat.mod_lt _ (Nat.two_pow_pos _)), Nat.add_comm]

end

end Sys2Proof.Claims
end

section
/-! The obligations of the floating-point words of the lanes: the rows of their tables. -/

namespace Sys2Proof.Claims

open Sys2Proof Sys2Proof.Machine

/- One theorem after another: side by side, their threads would fill the memory. -/
set_option Elab.async false

/-- An element-wise word on encodings (R165). -/
theorem fBits_rule {i : Instr} {h : Hdr} {ty : Ty} {d : RegNo} {rs : List RegNo} {g : List Nat → Nat} {f : List (BitVec ty.width) → Nat}
    (he : ∀ s, exec i s = withTeam i s (laneOp i h 1 d (rs.map fun r => (r, 1)) (fBits ty g))) (hg : ∀ xs, g (xs.map BitVec.toNat) = f xs) :
    LaneRule.ruleOf { h := h, d := d, srcs := rs.map fun r => (r, 1), res := plainElems ty rs.length f } i :=
  floatOp_rule he fun t l v => (fBits_eq hg t l _).trans (by rw [List.length_map])

/-- Every row of the table of R164 to R167. -/
theorem floatArithmetic_rule {i : Instr} {r : LaneRule} (hrule : floatArithmetic i = some r) : r.ruleOf i := by
  cases i with
  | vFadd h ty d a b => cases hrule; exact floatOp_rule (fun _ => rfl) fun _ _ _ => fRound_eq ..
  | vFsub h ty d a b => cases hrule; exact floatOp_rule (fun _ => rfl) fun _ _ _ => fRound_eq ..
  | vFmul h ty d a b => cases hrule; exact floatOp_rule (fun _ => rfl) fun _ _ _ => fRound_eq ..
  | vFma h ty d a b c => cases hrule; exact floatOp_rule (fun _ => rfl) fun _ _ _ => fRound_eq ..
  | vFms h ty d a b c => cases hrule; exact floatOp_rule (fun _ => rfl) fun _ _ _ => fRound_eq ..
  | vFnma h ty d a b c => cases hrule; exact floatOp_rule (fun _ => rfl) fun _ _ _ => fRound_eq ..
  | vFnms h ty d a b c => cases hrule; exact floatOp_rule (fun _ => rfl) fun _ _ _ => fRound_eq ..
  | vFdot2 h ty2 d a b c =>
    cases hrule
    exact floatOp_rule (fun _ => rfl) fun _ _ v => by rw [elemVal_f32 (x := v c) rfl]; rfl
  | vFmin h ty d a b => cases hrule; exact fBits_rule (fun _ => rfl) fun xs => by rw [nth_zero_toNat, nth_one_toNat]
  | vFmax h ty d a b => cases hrule; exact fBits_rule (fun _ => rfl) fun xs => by rw [nth_zero_toNat, nth_one_toNat]
  | vFneg h ty d a => cases hrule; exact fBits_rule (fun _ => rfl) fun xs => by rw [nth_zero_toNat, xor_signBit (width_pos ty)]
  | vFabs h ty d a => cases hrule; exact fBits_rule (fun _ => rfl) fun xs => by rw [nth_zero_toNat, and_not_signBit (width_pos ty)]
  | vFcsgn h ty d a b =>
    cases hrule
    exact fBits_rule (fun _ => rfl) fun xs => by rw [nth_zero_toNat, nth_one_toNat, or_signBit (width_pos ty)]
  | vFcmp h cc p a b => cases hrule; exact floatOp_rule (fun _ => rfl) fun _ _ _ => rfl
  | vFclass h d a => cases hrule; exact floatOp_rule (fun _ => rfl) fun _ _ _ => rfl
  | _ => cases hrule

/-- Every row of the table of R168 to R170. -/
theorem floatConversion_rule {i : Instr} {r : LaneRule} (hrule : floatConversion i = some r) : r.ruleOf i := by
  cases i with
  | vFcvt h ty ty2 d a idx => cases hrule; exact floatOp_rule (fun _ => rfl) fun _ _ _ => by rw [step_of_rounds]; rfl
  | vFcvtPk h ty d a b => cases hrule; exact floatOp_rule (fun _ => rfl) fun _ _ _ => by rw [two_mul_step]; rfl
  | vFtoi h ty ty2 d a idx => cases hrule; exact floatOp_rule (fun _ => rfl) fun _ _ _ => rfl
  | vItof h ty ty2 d a => cases hrule; exact laneOp_rule (fun _ => rfl) fun _ _ _ => by rw [tyVal_eq]; rfl
  | vFscl h ty d a b => cases hrule; exact floatOp_rule (fun _ => rfl) fun _ _ _ => rfl
  | vFqnt h ty d a b =>
    cases hrule
    exact laneOp_rule (fun _ => rfl) fun _ _ _ => by rw [fqntWord, mapIdx_map_range, List.length_map, List.length_range]; rfl
  | _ => cases hrule

/-- Settles O4, row by row of the two tables. -/
theorem floatWordsComplete : Obligations.FloatWordsComplete := by
  unfold Obligations.FloatWordsComplete
  exact ⟨fun s t _ _ h => floatArithmetic_rule h s t, fun s t _ _ h => floatConversion_rule h s t⟩

/-- A reciprocal or root of the value of one register (R171). -/
theorem fRoot_rule {i : Instr} {h : Hdr} {d a : RegNo} {f : Nat → Nat → FVal → Nat}
    (he : ∀ s, exec i s = withTeam i s (laneF1 i h d a fun t l vs => sfuRes (fun rm dr => f rm dr (Fmt.val .f32 (nth vs 0))) t l)) :
    LaneRule.ruleOf { h := h, d := d, srcs := [a].map fun r => (r, 1), res := oneRounded fun rm dr x => f rm dr (Fmt.val .f32 x.toNat) } i :=
  floatOp_rule he fun t l v => by simp [sfuRes, oneRounded, arg, nth, Team.step]

/-- Every row of the table of R171 to R174. -/
theorem floatFunctions_rule {i : Instr} {r : LaneRule} (hrule : floatFunctions i = some r) : r.ruleOf i := by
  cases i with
  | vFrcp h d a => cases hrule; exact fRoot_rule fun _ => rfl
  | vFsqrt h d a => cases hrule; exact fRoot_rule fun _ => rfl
  | vFrsq h d a => cases hrule; exact fRoot_rule fun _ => rfl
  | vFexp2 h d a => cases hrule; exact floatOp_rule (fun _ => rfl) fun _ _ _ => rfl
  | vFlog2 h d a => cases hrule; exact floatOp_rule (fun _ => rfl) fun _ _ _ => rfl
  | vFsin h d a => cases hrule; exact floatOp_rule (fun _ => rfl) fun _ _ _ => rfl
  | vFcos h d a => cases hrule; exact floatOp_rule (fun _ => rfl) fun _ _ _ => rfl
  | vFsincos h d a => cases hrule; exact floatOp_rule (fun _ => rfl) fun _ _ _ => by rw [two_mul_step]; rfl
  | vFrr h d a => cases hrule; exact floatOp_rule (fun _ => rfl) fun _ _ _ => rfl
  | vFrrTurn h d a => cases hrule; exact floatOp_rule (fun _ => rfl) fun _ _ _ => rfl
  | _ => cases hrule

/-- Settles O5, row by row of the table. -/
theorem floatFunctionsComplete : Obligations.FloatFunctionsComplete := by
  unfold Obligations.FloatFunctionsComplete
  exact fun s t _ _ h => floatFunctions_rule h s t

end Sys2Proof.Claims
end

section
/-! The moves between lanes, matches, votes and the keyed generator (R175 to R177, R180): the rows of their table. -/

namespace Sys2Proof.Claims

open Sys2Proof Sys2Proof.Machine

/- One theorem after another: side by side, their threads would fill the memory. -/
set_option Elab.async false

/-- A word that runs where every register carries its residue comes to what the rule says. -/
def LaneRule.ruleOfGood (r : LaneRule) (i : Instr) : Prop :=
  ∀ (s : State) (t : Team), Runs s t i → allGood t → exec i s = .next (r.after s t i)

theorem laneWith_ruleOfGood {i : Instr} {r : LaneRule} {unit : Nat} {copies : Bool} {chk : Team → Nat → List RWord → List WordCheck}
    {f : Team → Nat → LRes} (he : ∀ s, exec i s = withTeam i s (laneWith i r.h unit copies r.d chk f))
    (hp : ∀ t l, allGood t → passing (chk t l (f t l).words)) (hf : ∀ t l, f t l = r.res t l ((t.laneSrcs r.srcs l).map wordsNat)) :
    r.ruleOfGood i := fun s t hr hg => by
  rw [he, laneWith_runs hr fun l _ => hp t l hg, LaneRule.after, funext (hf t)]

/-- A word on the values of its sources. -/
theorem LaneRule.ruleOf.ofGood {i : Instr} {h : Hdr} {d : RegNo} {srcs : List (RegNo × Nat)} {g : Team → Nat → List Nat → LRes}
    (hr : LaneRule.ruleOf { h := h, d := d, srcs := srcs, res := g } i) : LaneRule.ruleOfGood { h := h, d := d, srcs := srcs, res := g } i :=
  fun s t ht hg => hr s t ht ⟨Tests.lanesGood_of hg h srcs, fun _ _ => rfl⟩

/-! ### Moves (R175) -/

/-- The lane at an offset in a lane's own group. -/
theorem groupBase_add_mod (t : Team) (l : Nat) : groupBase t l + l % t.group = l := Nat.div_add_mod' l t.group

/-- An offset that is given under a condition is that of lane `j`. -/
theorem offset_getD {t : Team} {l o j : Nat} {p : Prop} [Decidable p] (h : p → groupBase t l + o = j) :
    ((if p then some o else none).map (groupBase t l + ·)).getD l = if p then j else l := by
  split
  · next hp => exact h hp
  · rfl

/-- The lowest lane that takes part is found by its offset. -/
theorem head_groupPeers (t : Team) (h : Hdr) (l : Nat) :
    (((groupPeers t h l).head?.map (· % t.group)).map (groupBase t l + ·)).getD l = (groupPeers t h l).headD l := by
  cases hp : groupPeers t h l with
  | nil => rfl
  | cons j js =>
    have hj : j ∈ groupPeers t h l := by simp [hp]
    have hbase : groupBase t l = groupBase t j := by
      rw [groupBase, groupBase, eq_of_beq (Bool.and_eq_true_iff.mp (List.mem_filter.mp hj).2).2]
    simp [hbase, groupBase_add_mod]

/-- A move whose offsets, where it gives one, are those of the rule's lanes. -/
theorem laneMove_rule {i : Instr} {h : Hdr} {ty : Ty} {d a : RegNo} {bad : Team → Nat → Bool} {src : Team → Nat → Nat → Option Nat}
    {from_ : Team → Nat → Nat} (he : ∀ s, exec i s = withTeam i s (laneMove i h ty d a bad src))
    (hb : ∀ t l, allGood t → bad t l = false)
    (hf : ∀ t l, ((src t l (l % t.group)).map (groupBase t l + ·)).getD l = from_ t l) :
    LaneRule.ruleOfGood { h := h, d := d, srcs := [], res := fun t l _ => LRes.val (t.rRun a.toNat (regsOf ty) (from_ t l)) } i := by
  unfold laneMove at he
  refine laneWith_ruleOfGood he (fun t l hg => ?_) fun t l => ?_
  · rw [hb t l hg]
    exact operandChecks_good (Tests.goodRun_of hg ..)
  · dsimp only
    rw [← hf]
    cases src t l (l % t.group) <;> rfl

/-! ### Matches and votes (R176, R177) -/

theorem passing_plainChecks (ws : List RWord) : passing (plainChecks false ws) := by cases ws <;> simp [passing, plainChecks]

/-- Every row of the table of R175 to R177 and R180. -/
theorem crossLaneWords_rule {i : Instr} {r : LaneRule} (hrule : crossLaneWords i = some r) : r.ruleOfGood i := by
  cases i with
  | vShfl h ty d a b =>
    cases hrule
    exact laneMove_rule (fun _ => rfl) (fun t l hg => by rw [Tests.goodRun_of hg]; rfl) fun _ _ => rfl
  | vShup h ty d a c =>
    cases hrule
    refine laneMove_rule (fun _ => rfl) (fun _ _ _ => rfl) fun t l => offset_getD fun hc => ?_
    have hl := groupBase_add_mod t l
    omega
  | vShdn h ty d a c =>
    cases hrule
    refine laneMove_rule (fun _ => rfl) (fun _ _ _ => rfl) fun t l => offset_getD fun hc => ?_
    have hl := groupBase_add_mod t l
    omega
  | vXswz h ty d a c => cases hrule; exact laneMove_rule (fun _ => rfl) (fun _ _ _ => rfl) fun _ _ => rfl
  | vBcast h ty d a c => cases hrule; exact laneMove_rule (fun _ => rfl) (fun _ _ _ => rfl) fun _ _ => rfl
  | vBcastf h ty d a =>
    cases hrule
    exact laneMove_rule (fun _ => rfl) (fun _ _ _ => rfl) fun t l => by rw [peers_eq_groupPeers, head_groupPeers]
  | vMatch h ty d a =>
    cases hrule
    refine laneWith_ruleOfGood (fun _ => rfl) (fun t l hg => ?_) fun t l => by rw [peers_eq_groupPeers]; rfl
    rw [List.all_eq_true.mpr fun _ _ => Tests.goodRun_of hg ..]
    exact passing_plainChecks _
  | vVoteAny h p pa =>
    cases hrule
    exact (laneOp_rule (fun _ => rfl) fun t l _ => by rw [peers_eq_groupPeers, List.any_eq]).ofGood
  | vVoteAll h p pa =>
    cases hrule
    exact (laneOp_rule (fun _ => rfl) fun t l _ => by rw [peers_eq_groupPeers, List.all_eq]).ofGood
  | vBallot h d pa =>
    cases hrule
    exact (laneOp_rule (fun _ => rfl) fun _ _ _ => by rw [peers_eq_groupPeers]; rfl).ofGood
  | vKgen h d a b c => cases hrule; exact (laneOp_rule (fun _ => rfl) fun _ _ _ => rfl).ofGood
  | _ => cases hrule

/-- Settles O6, row by row of the table. -/
theorem crossLaneCompletes : Obligations.CrossLaneCompletes := by
  unfold Obligations.CrossLaneCompletes
  exact fun s t _ _ h => crossLaneWords_rule h s t

end Sys2Proof.Claims
end

section
/-! The obligations of the check engine: its words complete; the injections, refuted over a last level whose table lists a line twice. -/

namespace Sys2Proof.Claims

open Sys2Proof Sys2Proof.Machine

/- One theorem after another: side by side, their threads would fill the memory. -/
set_option Elab.async false

/-! ### Words that read or choose codes (R205) -/

theorem good_eq_false_iff (w : RWord) : w.good = false ↔ w.code ≠ BitVec.ofNat 3 (w.val.toNat % 7) := beq_eq_false_iff_ne

theorem not_goodRun_rRun (t : Team) (r n l : Nat) :
    (!goodRun (t.rRun r n l)) = decide (∃ k < n, (t.rGet (r + k) l).code ≠ BitVec.ofNat 3 ((t.rGet (r + k) l).val.toNat % 7)) := by
  rw [Bool.eq_iff_iff]
  simp [goodRun, Team.rRun, good_eq_false_iff]

theorem injCode_eq_chosenCode (x : Word) (d : Nat) : injCode x d = chosenCode x d := by
  have : x.toNat % 7 % 8 = x.toNat % 7 := Nat.mod_eq_of_lt (by omega)
  simp [injCode, chosenCode, residue7, this]

/-- A lane word that checks none of its operands completes, whatever codes they carry. -/
theorem laneWith_unchecked {s : State} {t : Team} {i : Instr} (r : Runs s t i) {h : Hdr} {unit : Nat} {copies : Bool} {d : RegNo}
    (f : Team → Nat → LRes) : withTeam i s (laneWith i h unit copies d (fun _ _ _ => []) f) = .next (lanesWritten s t h d i (f t)) :=
  laneWith_runs r fun _ _ => rfl

theorem ckRes_runs {s : State} {t : Team} {h : Hdr} {d a : RegNo} (r : Runs s t (.ckRes h d a)) :
    exec (.ckRes h d a) s = .next (lanesWritten s t h d (.ckRes h d a) fun l => LRes.num 1 (t.rGet a.toNat l).code.toNat) :=
  laneWith_unchecked r fun t l => LRes.num 1 (t.rGet a.toNat l).code.toNat

theorem ckVfy_runs {s : State} {t : Team} {h : Hdr} {ty : Ty} {p : BitVec 4} {a : RegNo} (r : Runs s t (.ckVfy h ty p a)) :
    exec (.ckVfy h ty p a) s = .next (lanesWritten s t h 0 (.ckVfy h ty p a) fun l => LRes.flag p.toNat
      (decide (∃ k < regsOf ty, (t.rGet (a.toNat + k) l).code ≠ BitVec.ofNat 3 ((t.rGet (a.toNat + k) l).val.toNat % 7)))) := by
  simp only [← not_goodRun_rRun]
  exact laneWith_unchecked r fun t l => LRes.flag p.toNat (!goodRun (t.rRun a.toNat (regsOf ty) l))

theorem ckInjr_runs {s : State} {t : Team} {h : Hdr} {d a b : RegNo} (r : Runs s t (.ckInjr h d a b))
    (hb : ∀ l ∈ t.lanesFor h, (t.rGet b.toNat l).good = true) :
    exec (.ckInjr h d a b) s = .next (lanesWritten s t h d (.ckInjr h d a b) fun l => LRes.val [RWord.mk
      (t.rGet a.toNat l).val (chosenCode (t.rGet a.toNat l).val ((t.rGet b.toNat l).val.toNat % 8))]) := by
  simp only [← injCode_eq_chosenCode]
  exact laneWith_runs r fun l hl => by
    rw [hb l hl]
    exact passing_plainChecks _

/-! ### Words that read records and counters (R195, R202) -/

theorem laneSrcs_one (t : Team) (a : RegNo) (l : Nat) : ((t.laneSrcs [(a, 1)] l).map wordsNat).headD 0 = (t.rGet a.toNat l).val.toNat :=
  wordsNat_singleton _

/-- A word whose effect in the state at its issue is a lane word on the values of its sources. -/
theorem withTeam_laneOp {s : State} {t : Team} {i : Instr} (r : Runs s t i) {h : Hdr} {unit : Nat} {d : RegNo} {srcs : List (RegNo × Nat)}
    {k : State → Team → Res} (f : Team → Nat → List Nat → LRes) (hk : k s t = laneOp i h unit d srcs f s t) (hg : t.lanesGood h srcs) :
    withTeam i s k = .next (lanesWritten s t h d i fun l => f t l ((t.laneSrcs srcs l).map wordsNat)) := by
  rw [withTeam_runs r, hk, ← withTeam_runs r, laneOp_runs r hg, lanesWritten]

theorem ckMcrd_runs {s : State} {t : Team} {h : Hdr} {d a : RegNo} (r : Runs s t (.ckMcrd h d a)) (hg : t.lanesGood h [(a, 1)]) :
    exec (.ckMcrd h d a) s = .next (lanesWritten s t h d (.ckMcrd h d a) fun l =>
      LRes.num 2 (recordWord s t ((t.rGet a.toNat l).val.toNat / 8 % 16) ((t.rGet a.toNat l).val.toNat % 8))) := by
  simp only [← recordWord_eq, ← laneSrcs_one]
  exact withTeam_laneOp r (fun t _ vs => LRes.num 2 (mcWord s t (bits (vs.headD 0) 6 3) (vs.headD 0 % 8)).toNat) rfl hg

theorem ckEcnt_runs {s : State} {t : Team} {h : Hdr} {d a : RegNo} (r : Runs s t (.ckEcnt h d a)) (hg : t.lanesGood h [(a, 1)]) :
    exec (.ckEcnt h d a) s = .next (lanesWritten s t h d (.ckEcnt h d a) fun l =>
      LRes.num 1 (SMap.get 0 s.counters ((t.rGet a.toNat l).val.toNat % 64))) := by
  simp only [← laneSrcs_one]
  exact withTeam_laneOp r (fun _ _ vs => LRes.num 1 (s.counter (vs.headD 0 % 64))) rfl hg

/-- Settles O25, word by word. -/
theorem checkWordsComplete : Obligations.CheckWordsComplete := by
  unfold Obligations.CheckWordsComplete
  exact fun _ _ _ _ _ => ⟨ckRes_runs, fun _ _ => ckVfy_runs, fun _ => ckInjr_runs, ckMcrd_runs, ckEcnt_runs⟩

/-! ### Injections over a line listed twice (R206) -/

/-- A team whose last lane names the second block of page 0 and whose other lanes name the first. -/
def twoBlocks : Team := { Tests.wTeam with v := [(4 * 1024 + 31, RWord.ofNat 64)] }

/-- The table of the last level lists a line of another address space twice: first the second block, then the first block, modified. The model's
own writes keep a table's keys strictly rising (`SMap.put`), but the statement is about every state, and `Quiet` leaves the lines open. -/
def doubleLine : State :=
  { Tests.wMem twoBlocks with
    lines := [(2 ^ 56, { leaf := Tests.wLeaf, pa := 5 * 2 ^ 19 + 64, ev := false, dirty := false }),
              (2 ^ 56, { leaf := Tests.wLeaf, pa := 5 * 2 ^ 19, ev := false, dirty := true })] }

/-- The block that each lane names. -/
def blockOf (l : Nat) : Nat × Nat × Option Leaf := if l = 31 then (5 * 2 ^ 19 + 64, 64, some Tests.wLeaf) else (5 * 2 ^ 19, 0, some Tests.wLeaf)

theorem doubleLine_runs : Runs doubleLine twoBlocks (.ckInjmGCe Tests.hx 4) := Tests.runs rfl rfl (by decide)

theorem doubleLine_reaches : reaches doubleLine twoBlocks Tests.hx .write (injForm false 4) id blockOf := Tests.reaches_of (by decide +kernel)

/-- The last lane's injection drops both entries of the line, as its drop goes by the line's number, and the write-back of the modified one takes
the first block's error away (R201). -/
theorem doubleLine_loses_injection : ∃ s', exec (.ckInjmGCe Tests.hx 4) doubleLine = .next s' ∧ SMap.find s'.codeErrs (5 * 2 ^ 13) = none := by
  obtain ⟨s', he, hf⟩ := Tests.next_any (p := fun s' => (SMap.find s'.codeErrs (5 * 2 ^ 13)).isNone) (x := exec (.ckInjmGCe Tests.hx 4) doubleLine)
    (by decide +kernel)
  exact ⟨s', he, Option.isNone_iff_eq_none.mp hf⟩

/-- Refuted by `doubleLine`: a correctable error put on both blocks stays on the second alone. -/
theorem not_injectionsComplete : ¬ injectionsComplete := fun h => by
  obtain ⟨s', he, -, -, hcodes⟩ := h doubleLine twoBlocks (.ckInjmGCe Tests.hx 4) Tests.hx false .ce 4 blockOf (.inl ⟨rfl, rfl, rfl⟩)
    doubleLine_runs (Tests.allGood_of (by decide) rfl) ⟨rfl, rfl, rfl⟩ doubleLine_reaches
  obtain ⟨s'', he', hnone⟩ := doubleLine_loses_injection
  obtain rfl : s' = s'' := by rw [he] at he'; injection he'
  have hlane : ∃ l ∈ twoBlocks.lanesFor Tests.hx, (blockOf l).1 < 2 ^ 80 ∧ (blockOf l).1 / 64 = 5 * 2 ^ 13 := ⟨0, by decide +kernel, by decide, by decide⟩
  have hsome := hcodes (5 * 2 ^ 13)
  rw [hnone, if_pos hlane] at hsome
  cases hsome

/-- Refutes O26: where the table of the last level's lines lists one line twice, an injection loses the error that an earlier lane put on a
block. -/
theorem not_injectionsRecordsAndScrubbing : ¬ Obligations.InjectionsRecordsAndScrubbing := by
  unfold Obligations.InjectionsRecordsAndScrubbing
  exact fun h => not_injectionsComplete h.1

end Sys2Proof.Claims
end

section
/-! Placement (R214, R217, R218): a team put on a home, and a grid's next pack of one team. -/

namespace Sys2Proof.Machine

open Sys2Proof

/- One theorem after another: side by side, their threads would fill the memory. -/
set_option Elab.async false

/-! ### Elements changed in place -/

/-- The search for an element that satisfies a test, in a list whose elements of that test have been changed and still satisfy it. -/
theorem find?_replaceWhere {α : Type} {p : α → Bool} {f : α → α} (hf : ∀ x, p (f x) = p x) (l : List α) :
    (replaceWhere p f l).find? p = (l.find? p).map f := by
  have hcomp : (p ∘ fun x => if p x then f x else x) = p := by
    funext x
    simp only [Function.comp]
    split
    · exact hf x
    · rfl
  rw [replaceWhere, List.find?_map, hcomp]
  cases h : l.find? p with
  | none => rfl
  | some x => simp [List.find?_some h]

theorem State.grid?_gid {s : State} {gid : Nat} {g : Grid} (h : s.grid? gid = some g) : g.gid = gid := by
  simpa using List.find?_some h

/-- The grid of a number after a change of it. -/
theorem State.grid?_modGrid {s : State} {gid : Nat} {g : Grid} (f : Grid → Grid) (hf : ∀ g, (f g).gid = g.gid) (h : s.grid? gid = some g) :
    (s.modGrid gid f).grid? gid = some (f g) := by
  have hfind := find?_replaceWhere (p := fun g : Grid => g.gid == gid) (f := f) (fun g => by rw [hf]) s.grids
  rw [show s.grids.find? (fun g => g.gid == gid) = some g from h] at hfind
  exact hfind

/-! ### What the seating of a team leaves alone -/

theorem State.requestCode_grids (s : State) (k asid addr : Nat) (reload : Bool) (w : CodeWaiter) :
    (s.requestCode k asid addr reload w).grids = s.grids := by
  unfold State.requestCode
  dsimp only
  split
  · split
    · rfl
    · split <;> rfl
  · split <;> rfl

theorem State.loadTeamCode_grids (s : State) (t : Team) : (s.loadTeamCode t).grids = s.grids := by
  unfold State.loadTeamCode
  refine foldl_keeps State.grids (fun s n => ?_) _ s
  split
  · rfl
  · exact foldl_keeps State.grids (fun s k => State.requestCode_grids s k ..) _ s

theorem State.acquireFor_grids (s : State) (t : Team) : (s.acquireFor t).grids = s.grids := by
  unfold State.acquireFor Team.cores
  cases t.pair <;> rfl

/-! ### A team on its home (R214, R217) -/

/-- A grid whose first team has a home keeps its barrier slots there. -/
def Grid.settled (g : Grid) (home base : Nat) : Grid := if g.barCore.isNone then { g with barCore := some home, barBase := base } else g

/-- A grid with other regions in the vaults. -/
def Grid.withRegions (g : Grid) (r : SMap Nat) : Grid := { g with regions := r }

/-- A grid that has placed a pack of one team in a cluster. -/
def Grid.advanced (g : Grid) (v : Nat) : Grid := { g with next := g.next + 1, cursor := (v + 1) % 96 }

/-- A new team as it stands on its home. -/
def Team.seated (t : Team) (home slot : Nat) (area : DWord) (region : Nat) : Team :=
  Team.sAll { t with home := home, slot := slot, tstka := area } 208 (List.range t.groups) [RWord.ofNat region]

theorem Team.seated_eq (t : Team) (home slot : Nat) (area : DWord) (region : Nat) :
    ∃ m, t.seated home slot area region = { t with home := home, slot := slot, tstka := area, s := m } := by
  obtain ⟨m, h⟩ := Team.sAll_eq { t with home := home, slot := slot, tstka := area } 208 [RWord.ofNat region] (List.range t.groups) _ t.s t.q rfl
  exact ⟨m, h⟩

theorem State.seat_teams (s : State) (g : Grid) (t : Team) (home : Nat) :
    ∃ slot area region, (s.seat g t home).teams = s.teams ++ [t.seated home slot area region] := by
  have hload (u : State) (v w : Team) : ((({ u with teams := u.teams ++ [v] } : State).loadTeamCode v).acquireFor w).teams = u.teams ++ [v] :=
    (State.acquireFor_teams ..).trans (State.loadTeamCode_teams ..)
  unfold State.seat
  extract_lets base s1 v region t1 t2
  refine ⟨t1.slot, t1.tstka, region, (hload s1 t2 t2).trans ?_⟩
  have hteams : s1.teams = s.teams := by
    unfold s1
    split <;> rfl
  rw [hteams]
  rfl

theorem State.seat_grid? {s : State} {g : Grid} (hg : s.grid? g.gid = some g) (t : Team) (home : Nat) :
    ∃ base, (s.seat g t home).grid? g.gid = some (g.settled home base) := by
  have hload (u : State) (v w : Team) : ((({ u with teams := u.teams ++ [v] } : State).loadTeamCode v).acquireFor w).grids = u.grids :=
    (State.acquireFor_grids ..).trans (State.loadTeamCode_grids ..)
  unfold State.seat
  extract_lets base s1 v region t1 t2
  refine ⟨base, ?_⟩
  rw [State.grid?, hload]
  show s1.grid? g.gid = _
  unfold s1 Grid.settled
  split
  · exact State.grid?_modGrid _ (by intro _; rfl) hg
  · exact hg

/-- A team that bears a number no other bears is found by it. -/
theorem State.team?_of_append {s s' : State} {t : Team} (h : s'.teams = s.teams ++ [t]) (hnew : ∀ u ∈ s.teams, u.uid ≠ t.uid) :
    s'.team? t.uid = some t := by
  have hnone : s.teams.find? (fun u => u.uid == t.uid) = none := List.find?_eq_none.mpr fun u hu => by simpa using hnew u hu
  rw [State.team?, h, List.find?_append, hnone]
  simp

theorem Grid.newTeam_eq (g : Grid) (asid uid lin : Nat) : ∃ m, g.newTeam asid uid lin =
    { Team.blank with
      uid := uid, gid := g.gid, ctx := g.ctx, asid := asid, pri := g.pri, pair := decide (g.lanes > 512), lanes := g.lanes, group := g.group
      nv := g.nv, lin := lin, res := .starting, placedAt := uid
      stack := [{ pc := g.entryPc, mask := fullMask g.lanes, rpc := none, fmt := g.fmti.zeroExtend 32 }]
      tcw := (if g.flags.getLsbD 1 then 0x8000_0000 else 0) ||| (g.tcwi &&& 0x0000_E007), seed0 := g.seed0
      tvb := g.tvbi &&& 0x8000_FFFF, segs := g.bindings, segBind := g.bindings, s := m } := by
  unfold Grid.newTeam
  extract_lets pc src t0 pairs ws
  obtain ⟨m, h⟩ := Team.sAll_eq t0 192 ws (List.range t0.groups) t0 t0.s t0.q rfl
  exact ⟨m, h⟩

/-! ### A pack of one team (R217) -/

theorem State.ensureRegion_eq {s s0 : State} {g : Grid} {v : Nat} (h : s.ensureRegion g v = some s0) :
    s0 = s ∨ ∃ b, s0 = s.modGrid g.gid fun g => { g with regions := SMap.put g.regions v b } := by
  unfold State.ensureRegion at h
  split at h
  · exact .inl (Option.some.inj h).symm
  · obtain ⟨b, -, hb⟩ := Option.map_eq_some_iff.mp h
    exact .inr ⟨b, hb.symm⟩

/-- What a region in a vault changes of a grid. -/
theorem State.ensureRegion_grid? {s s0 : State} {g : Grid} {v : Nat} (hg : s.grid? g.gid = some g) (h : s.ensureRegion g v = some s0) :
    s0.teams = s.teams ∧ s0.nextId = s.nextId ∧ ∃ r, s0.grid? g.gid = some (g.withRegions r) := by
  obtain rfl | ⟨b, rfl⟩ := State.ensureRegion_eq h
  · exact ⟨rfl, rfl, g.regions, hg⟩
  · exact ⟨rfl, rfl, _, State.grid?_modGrid _ (by intro _; rfl) hg⟩

theorem Grid.nextPack_one {g : Grid} {n : Nat} (hp : g.pack = 1) (hn : g.order[g.next]? = some n) : g.nextPack = [n] := by
  obtain ⟨hlt, hget⟩ := List.getElem?_eq_some_iff.mp hn
  rw [Grid.nextPack, hp, List.drop_eq_getElem_cons hlt, hget]
  rfl

/-- A pack of one team goes where its team goes. -/
theorem State.placePack_one {g : Grid} {n : Nat} (hn : g.nextPack = [n]) (s : State) (v : Nat) :
    s.placePack g v = ((s.ensureRegion g v).bind fun s => s.placeTeam g.gid n v).map fun s =>
      s.modGrid g.gid fun x => { x with next := x.next + 1, cursor := (v + 1) % 96 } := by
  have hteams : State.placeTeams g.gid v [n] = fun s => s.placeTeam g.gid n v := by
    funext s
    simp [State.placeTeams]
  rw [State.placePack, hn, hteams]
  rfl

/-- A pack of one team is placed nowhere in a cluster without a home for it. -/
theorem State.placePack_noHome {s : State} {g : Grid} {n v : Nat} (hg : s.grid? g.gid = some g) (hn : g.nextPack = [n])
    (h : Claims.noHome s g n v) : s.placePack g v = none := by
  rw [State.placePack_one hn]
  obtain hnone | ⟨s0, g0, hs0, hg0, hhome⟩ := h
  · rw [hnone]
    rfl
  · obtain ⟨-, hid, -⟩ := State.ensureRegion_grid? hg hs0
    rw [hs0, Option.bind_some, State.placeTeam, hg0]
    simp only
    rw [show s0.newId.1 = s.nextId from hid, hhome]
    rfl

/-- The next pack goes to the first cluster of the order that takes it. -/
theorem State.placeNext_first {s s' : State} {g : Grid} {us vs : List Nat} {v : Nat} (hg : s.grid? g.gid = some g)
    (hc : g.clusters = us ++ v :: vs) (hus : ∀ u ∈ us, s.placePack g u = none) (hv : s.placePack g v = some s') :
    s.placeNext g.gid = some s' := by
  have hskip : us.findSome? (s.placePack g) = none := List.findSome?_eq_none_iff.mpr hus
  rw [State.placeNext, hg]
  simp only
  rw [hc, List.findSome?_append, hskip, List.findSome?_cons, hv]
  rfl

/-- A pack of one team and the home found for it: the team stands there, and the grid's place and cursor move on. -/
theorem State.placePack_home {s s0 : State} {g g0 : Grid} {n v home : Nat} (hg : s.grid? g.gid = some g) (hn : g.nextPack = [n])
    (hnew : ∀ u ∈ s.teams, u.uid < s.nextId) (hs0 : s.ensureRegion g v = some s0) (hg0 : s0.grid? g.gid = some g0)
    (hhome : s0.newId.2.findHome (g0.newTeam (s0.ctx g0.ctx).asid s.nextId n) v (s0.barOk g0) = some home) :
    ∃ s' slot area region base, s.placePack g v = some s' ∧
      s'.team? s.nextId = some ((g0.newTeam (s0.ctx g0.ctx).asid s.nextId n).seated home slot area region) ∧
      s'.grid? g.gid = some ((g0.settled home base).advanced v) := by
  obtain ⟨hteams, hid, r, hr⟩ := State.ensureRegion_grid? hg hs0
  obtain rfl : g0 = g.withRegions r := Option.some.inj (hg0.symm.trans hr)
  set t := (g.withRegions r).newTeam (s0.ctx (g.withRegions r).ctx).asid s.nextId n with ht
  obtain ⟨m, hteam⟩ := Grid.newTeam_eq (g.withRegions r) (s0.ctx (g.withRegions r).ctx).asid s.nextId n
  obtain ⟨slot, area, region, hseat⟩ := State.seat_teams s0.newId.2 (g.withRegions r) t home
  obtain ⟨base, hgrid⟩ := State.seat_grid? (s := s0.newId.2) (g := g.withRegions r) hr t home
  have hplace : s0.placeTeam g.gid n v = some (s0.newId.2.seat (g.withRegions r) t home) := by
    rw [State.placeTeam, hr]
    simp only
    rw [show s0.newId.1 = s.nextId from hid, hhome]
    rfl
  refine ⟨_, slot, area, region, base, by rw [State.placePack_one hn, hs0, Option.bind_some, hplace]; rfl, ?_, ?_⟩
  · obtain ⟨q, hq⟩ := Team.seated_eq t home slot area region
    have huid : (t.seated home slot area region).uid = s.nextId := by rw [hq, ht, hteam]
    rw [← huid]
    refine State.team?_of_append (s := s0.newId.2) hseat fun u hu => ?_
    rw [huid]
    exact Nat.ne_of_lt (hnew u (hteams ▸ hu))
  · exact State.grid?_modGrid _ (by intro _; rfl) hgrid

end Sys2Proof.Machine

namespace Sys2Proof.Claims

open Sys2Proof Sys2Proof.Machine

set_option Elab.async false

/-- A grid that starts as its packs are placed, and a WHOLE grid with one pack left, place their next pack of one team alike. -/
theorem place_eq_placeNext {s : State} {g : Grid} (hg : s.grid? g.gid = some g) (hp : g.pack = 1) (hlt : g.next < g.order.length)
    (hs : s.ctxStopped g.ctx = false) {i : Instr} (hi : i = .packPlace g.gid ∧ g.whole = false ∨
      i = .wholeGridPlace g.gid ∧ g.whole = true ∧ g.next + 1 = g.order.length) :
    exec i s = .next ((s.placeNext g.gid).getD s) := by
  have hopen : g.placed = false := decide_eq_false (by omega)
  obtain ⟨rfl, hw⟩ | ⟨rfl, hw, hlast⟩ := hi
  · show execPackPlace g.gid s = _
    simp [execPackPlace, hg, hw, hopen, hs]
  · have hone : g.packsLeft = 1 := by
      rw [Grid.packsLeft, hp, ← hlast]
      simp [ceilDiv]
    show execWholeGridPlace g.gid s = _
    simp [execWholeGridPlace, hg, hw, hopen, hs, hone, State.placeAll]

/-- Settles O42: the clusters before the one with a home take no pack, and that one takes it. -/
theorem placementComplete : Obligations.PlacementComplete := by
  unfold Obligations.PlacementComplete
  intro s s0 g g0 n v us vs home hg hp hlt hs hnew hn hc hus hs0 hg0 hhome i hi
  have hpack := Grid.nextPack_one hp hn
  obtain ⟨s', slot, area, region, base, hplace, hteam, hgrid⟩ := State.placePack_home hg hpack hnew hs0 hg0 hhome
  have hnext := State.placeNext_first hg hc (fun u hu => State.placePack_noHome hg hpack (hus u hu)) hplace
  obtain ⟨-, -, r, hr⟩ := State.ensureRegion_grid? hg hs0
  obtain rfl : g0 = g.withRegions r := Option.some.inj (hg0.symm.trans hr)
  obtain ⟨q, hq⟩ := Team.seated_eq ((g.withRegions r).newTeam (s0.ctx (g.withRegions r).ctx).asid s.nextId n) home slot area region
  obtain ⟨m, hm⟩ := Grid.newTeam_eq (g.withRegions r) (s0.ctx (g.withRegions r).ctx).asid s.nextId n
  refine ⟨s', _, ((g.withRegions r).settled home base).advanced v, by rw [place_eq_placeNext hg hp hlt hs hi, hnext, Option.getD_some], hteam, ?_⟩
  rw [hq, hm]
  refine ⟨rfl, rfl, rfl, rfl, rfl, rfl, rfl, hgrid, ?_, rfl, fun hb => ?_⟩
  · simp only [Grid.settled]
    split <;> rfl
  · simp [Grid.settled, Grid.advanced, Grid.withRegions, hb]

end Sys2Proof.Claims
end

section
/-! What the engines' reads, stores and records leave alone (R199, R213, R215, R231, R267). -/

namespace Sys2Proof.Machine

open Sys2Proof

/- One theorem after another: side by side, their threads would fill the memory. -/
set_option Elab.async false

/-! ### Reads that meet no stored error -/

theorem State.engineRead_fst {s : State} (h : s.codeErrs = []) (f : Finder) (key va n : Nat) : (s.engineRead f key va n).1 = s := by
  have fold (l : List Nat) : ∀ b : Bool, (l.foldl (fun (r : State × Bool) i =>
      (r.1.readBlock f ((key / 64 + i) * 64) (va / 64 * 64 + 64 * i),
        r.2 || (r.1.readBlock f ((key / 64 + i) * 64) (va / 64 * 64 + 64 * i)).blockLost ((key / 64 + i) * 64 / 64))) (s, b)).1 = s := by
    induction l with
    | nil => exact fun _ => rfl
    | cons i l ih =>
      intro b
      rw [List.foldl_cons]
      simp only [State.readBlock_clean h] at ih ⊢
      exact ih _
  exact fold _ false

theorem State.engineParts_fst {s : State} (h : s.codeErrs = []) (f : Finder) :
    ∀ (ps : List (Nat × Nat)) (va : Nat), (s.engineParts f va ps).1 = s
  | [], _ => rfl
  | p :: ps, va => by
    simp only [State.engineParts, State.engineRead_fst h]
    exact State.engineParts_fst h f ps _

theorem State.meetRange_eq {s : State} (h : s.codeErrs = []) (f : Finder) (c : Ctx) (va n : Nat) :
    ∃ x y z, s.meetRange f c va n = s.translations x y z := by
  unfold State.meetRange
  split
  · obtain ⟨x, y, z, hu⟩ := State.useRange_eq s c va n
    exact ⟨x, y, z, by rw [hu]; exact State.engineParts_fst (s := s.translations x y z) h f _ va⟩
  · exact ⟨_, _, _, rfl⟩

/-! ### What a store, a record and a question leave alone -/

/-- A queue but for the notes of writes to its words (R209, R210). -/
def Queue.unnoted (x : Queue) : Queue := { x with rewritten := false, told := false }

/-- A context but for its fault log's position, the notes of its queues and of its stores to HOST pages. -/
def Ctx.unlogged (c : Ctx) : Ctx × (Nat → Queue) := ({ c with flogpos := 0, hostStores := false, queues := [] }, fun q => (c.queue q).unnoted)

/-- The parts of the state that no engine's store, record, question or signal changes: the teams and grids, the package but for the vectors
signalled, the saved contexts, the tags, and the contexts but for what a record or a store notes in them. -/
structure Unlogged where
  teams : List Team
  grids : List Grid
  tagUses : List TagUse
  saved : SMap SavedCtx
  pkg : Pkg
  ctx : Nat → Ctx × (Nat → Queue)

def State.unlogged (s : State) : Unlogged :=
  { teams := s.teams, grids := s.grids, tagUses := s.tagUses, saved := s.saved, pkg := { s.pkg with msix := [] }
    ctx := fun k => (s.ctx k).unlogged }

/-- The contexts of two states that agree but for logs and notes. -/
theorem State.ctx_unlogged {s s' : State} (h : s'.unlogged = s.unlogged) (slot : Nat) : (s'.ctx slot).unlogged = (s.ctx slot).unlogged :=
  congrFun (congrArg Unlogged.ctx h) slot

theorem State.modCtx_unlogged (s : State) (slot : Nat) {f : Ctx → Ctx} (hf : ∀ c, (f c).unlogged = c.unlogged) :
    (s.modCtx slot f).unlogged = s.unlogged := by
  have hctx (k : Nat) : ((s.modCtx slot f).ctx k).unlogged = (s.ctx k).unlogged := by
    simp only [State.ctx, State.modCtx, State.setCtx, SMap.get_put]
    split
    · next h => rw [h, hf]
    · rfl
  have hctxs : (s.modCtx slot f).unlogged.ctx = s.unlogged.ctx := funext hctx
  simp only [State.unlogged] at hctxs ⊢
  rw [hctxs]
  rfl

theorem State.setTag_unlogged (s : State) (key : Nat) (asid : Option Nat) : (s.setTag key asid).unlogged = s.unlogged := by
  unfold State.setTag
  split
  · cases asid <;> rfl
  · rfl

theorem State.modifyLines_unlogged (s : State) (key : Nat) : (s.modifyLines key).unlogged = s.unlogged := by
  unfold State.modifyLines
  split <;> rfl

theorem State.homeWrite_unlogged (s : State) (asid : Option Nat) (key : Nat) (bs : List Byte) :
    (s.homeWrite asid key bs).1.unlogged = s.unlogged := by
  have hlines (u : State) (hu : u.unlogged = ((s.poke key bs).setTag key asid).unlogged) : (u.modifyLines key).unlogged = s.unlogged :=
    (State.modifyLines_unlogged _ _).trans (hu.trans (State.setTag_unlogged _ _ _))
  unfold State.homeWrite
  split
  · exact hlines _ rfl
  · split
    · rfl
    · exact hlines _ rfl

theorem State.writeRange_unlogged : ∀ (fuel : Nat) (s : State) (asid : Option Nat) (key : Nat) (bs : List Byte),
    (State.writeRange fuel s asid key bs).unlogged = s.unlogged
  | 0, _, _, _, _ => rfl
  | fuel + 1, s, asid, key, bs => by
    rw [State.writeRange]
    split
    · rfl
    · exact (State.writeRange_unlogged fuel ..).trans (State.homeWrite_unlogged ..)

theorem State.partsWrite_unlogged (asid : Option Nat) : ∀ (ps : List (Nat × Nat)) (s : State) (bs : List Byte),
    (s.partsWrite asid ps bs).unlogged = s.unlogged
  | [], _, _ => rfl
  | _ :: ps, _, _ => (State.partsWrite_unlogged asid ps ..).trans (State.writeRange_unlogged ..)

theorem State.useRange_unlogged (s : State) (c : Ctx) (va n : Nat) : (s.useRange c va n).unlogged = s.unlogged := by
  obtain ⟨x, y, z, h⟩ := State.useRange_eq s c va n
  rw [h]
  rfl

theorem State.sendPort_unlogged (s : State) (m : OutMsg) : (s.sendPort m).unlogged = s.unlogged := by
  unfold State.sendPort
  split <;> rfl

theorem State.ownWords_unlogged (s : State) (core asid va n : Nat) : (s.ownWords core asid va n).unlogged = s.unlogged := by
  refine foldl_keeps State.unlogged (fun s i => ?_) _ s
  dsimp only
  split
  · split
    · rfl
    · split
      · rfl
      · exact State.sendPort_unlogged ..
  · rfl

theorem State.updateByte_unlogged (s : State) (cores : List Nat) (asid va : Nat) (b : Byte) :
    (s.updateByte cores asid va b).unlogged = s.unlogged := by
  unfold State.updateByte
  extract_lets u
  have hu : u.unlogged = s.unlogged := foldl_keeps State.unlogged (fun s k => by split <;> rfl) cores s
  split
  · exact hu
  · exact hu

/-- Notes of stores to the tail words of queues. -/
theorem Ctx.tellTails_unlogged (c : Ctx) (tail : Queue → Bool) :
    Ctx.unlogged { c with queues := c.queues.map fun e => (e.1, if tail e.2 then { e.2 with told := true } else e.2) } = c.unlogged := by
  refine congrArg (Prod.mk _) (funext fun q => ?_)
  simp only [Ctx.queue, SMap.get]
  rw [SMap.find_mapValues fun x : Queue => if tail x then { x with told := true } else x]
  cases SMap.find c.queues q with
  | none => rfl
  | some x =>
    simp only [Option.map_some, Option.getD_some]
    split <;> rfl

/-- Notes of writes to the entries of queues. -/
theorem Ctx.noteEntries_unlogged (c : Ctx) (qs : List Nat) :
    Ctx.unlogged { c with queues := qs.foldl (fun (m : SMap Queue) q => SMap.put m q { c.queue q with rewritten := true }) c.queues } =
      c.unlogged := by
  have fold (qs : List Nat) : ∀ m : SMap Queue, (∀ q, (SMap.get Queue.reset m q).unnoted = (c.queue q).unnoted) →
      ∀ q, (SMap.get Queue.reset (qs.foldl (fun (m : SMap Queue) q => SMap.put m q { c.queue q with rewritten := true }) m) q).unnoted =
        (c.queue q).unnoted := by
    induction qs with
    | nil => exact fun _ h => h
    | cons x qs ih =>
      refine fun m h => ih _ fun q => ?_
      rw [SMap.get_put]
      split
      · next hq => rw [hq]; rfl
      · exact h q
  exact congrArg (Prod.mk _) (funext (fold qs c.queues fun _ => rfl))

theorem State.noteTables_unlogged (s : State) (asid va n : Nat) : (s.noteTables asid va n).unlogged = s.unlogged := by
  unfold State.noteTables
  split
  · rfl
  · extract_lets base tail u
    have hu : u.unlogged = s.unlogged := by
      unfold u
      split
      · exact State.modCtx_unlogged _ _ fun c => Ctx.tellTails_unlogged c tail
      · rfl
    split
    · exact (State.modCtx_unlogged _ _ fun c => Ctx.noteEntries_unlogged c _).trans hu
    · exact hu

theorem State.noteHostStores_unlogged (s : State) (slot : Nat) (b : Bool) :
    (s.modCtx slot fun c => { c with hostStores := b }).unlogged = s.unlogged := State.modCtx_unlogged _ _ fun _ => rfl

theorem State.sendStore_unlogged (s : State) (asid core key va n : Nat) (op : RemoteOp) :
    ((s.voidLoads asid va n).sendAsk .engine core asid key va op).unlogged = s.unlogged := rfl

theorem State.engineStore_unlogged (s : State) (c : Ctx) (va : Nat) (parts : List (Nat × Nat)) (bs : List Byte) :
    (s.engineStore c va parts bs).unlogged = s.unlogged := by
  unfold State.engineStore
  extract_lets s1 s2 s3 s4 s5
  have h2 : s2.unlogged = s.unlogged :=
    (State.ownWords_unlogged ..).trans ((State.partsWrite_unlogged ..).trans (State.useRange_unlogged ..))
  have h3 : s3.unlogged = s2.unlogged := foldl_keeps State.unlogged (fun s b => State.updateByte_unlogged ..) _ _
  have h4 : s4.unlogged = s.unlogged := (State.noteTables_unlogged ..).trans (h3.trans h2)
  have h5 : s5.unlogged = s.unlogged := by
    unfold s5
    split
    · split
      · exact (State.noteHostStores_unlogged s4 _ true).trans h4
      · exact h4
    · exact h4
  refine (foldl_keeps (fun r : State × Nat => r.1.unlogged) (fun r p => ?_) parts (s5, 0)).trans h5
  dsimp only
  split
  · exact State.sendStore_unlogged ..
  · rfl

theorem State.setMigCount_unlogged (s : State) (asid va n : Nat) : (s.setMigCount asid va n).unlogged = s.unlogged := by
  simp only [State.setMigCount]
  split <;> rfl

theorem State.countMiss_unlogged (s : State) (slot : Nat) (c : Ctx) (va : Nat) (l : Leaf) : (s.countMiss slot c va l).unlogged = s.unlogged := by
  have hask (u : State) : ((u.requestMove c slot (va / 2 ^ 19 * 2 ^ 19) l.peer []).getD u).unlogged = u.unlogged := by
    unfold State.requestMove
    split <;> rfl
  simp only [State.countMiss]
  split
  · split
    · exact (hask _).trans (State.setMigCount_unlogged ..)
    · exact State.setMigCount_unlogged ..
  · rfl

theorem State.countMissAt_unlogged (s : State) (asid va : Nat) : (s.countMissAt asid va).unlogged = s.unlogged := by
  unfold State.countMissAt
  split
  · rfl
  · split
    · exact State.countMiss_unlogged ..
    · rfl

theorem State.emitNeed_unlogged (s : State) (n : Need) : (s.emitNeed n).unlogged = s.unlogged := by
  cases n with
  | ats p v =>
    simp only [State.emitNeed, State.emitAts]
    split <;> rfl
  | island i => rfl
  | remote asid key va op =>
    simp only [State.emitNeed]
    split
    · rfl
    · exact State.countMissAt_unlogged s asid va

theorem State.emitNeeds_unlogged (s : State) (ns : List Need) : (s.emitNeeds ns).unlogged = s.unlogged :=
  foldl_keeps State.unlogged State.emitNeed_unlogged ns s

/-! ### Records and completion words (R213, R215, R231) -/

theorem State.writeRecord_unlogged (s : State) (slot va : Nat) (bs : List Byte) : (s.writeRecord slot va bs).unlogged = s.unlogged := by
  unfold State.writeRecord
  extract_lets c
  split
  · exact State.engineStore_unlogged ..
  · rfl
  · exact State.emitNeeds_unlogged s _

theorem State.fileLog_unlogged (s : State) (slot w1 w2 w3 : Nat) : (s.fileLog slot w1 w2 w3).unlogged = s.unlogged := by
  unfold State.fileLog
  extract_lets c base ring va bs u
  have hu : u.unlogged = s.unlogged := by
    unfold u
    split
    · rfl
    · exact State.writeRecord_unlogged ..
  have hlog : (u.modCtx slot fun c => { c with flogpos := c.flogpos + 1 }).unlogged = u.unlogged := State.modCtx_unlogged _ _ fun _ => rfl
  exact hlog.trans hu

theorem State.logPacket_unlogged (s : State) (slot kind detail q pos : Nat) : (s.logPacket slot kind detail q pos).unlogged = s.unlogged :=
  State.fileLog_unlogged ..

theorem State.logPacket_logPos (s : State) (slot kind detail q pos : Nat) :
    (s.logPacket slot kind detail q pos).logPos slot = s.logPos slot + 1 := State.fileLog_logPos ..

theorem State.doneWord_unlogged (s : State) (slot q pos addr val : Nat) : (s.doneWord slot q pos addr val).unlogged = s.unlogged := by
  unfold State.doneWord
  split
  · rfl
  · split
    · exact State.engineStore_unlogged ..
    · exact State.logPacket_unlogged ..
    · exact State.emitNeeds_unlogged s _

/-- A completion word files at most one record, where it cannot be written. -/
theorem State.doneWord_logPos (s : State) (slot q pos addr val : Nat) :
    (s.doneWord slot q pos addr val).logPos slot = s.logPos slot ∨ (s.doneWord slot q pos addr val).logPos slot = s.logPos slot + 1 := by
  unfold State.doneWord
  split
  · exact .inl rfl
  · split
    · exact .inl (State.engineStore_logPos ..)
    · exact .inr (State.logPacket_logPos ..)
    · exact .inl (State.logPos_congr (State.emitNeeds_ctxs s _) slot)

theorem State.reject_unlogged (s : State) (slot q pos reason p : Nat) : (s.reject slot q pos reason p).unlogged = s.unlogged :=
  (State.doneWord_unlogged ..).trans (State.logPacket_unlogged ..)

/-- A rejected packet files its record, and one more where its completion word cannot be written. -/
theorem State.reject_logPos (s : State) (slot q pos reason p : Nat) :
    (s.reject slot q pos reason p).logPos slot = s.logPos slot + 1 ∨ (s.reject slot q pos reason p).logPos slot = s.logPos slot + 2 := by
  have hlog := State.logPacket_logPos s slot 3 reason q pos
  refine (State.doneWord_logPos (s.logPacket slot 3 reason q pos) slot q pos (field p 48 8) (2 ^ 63 + reason)).imp ?_ ?_
  · exact fun h => h.trans hlog
  · exact fun h => h.trans (by rw [hlog, BitVec.add_assoc]; rfl)

end Sys2Proof.Machine
end

section
/-! The events of queues (R209 to R213, R220): an entry and a tail word read, a packet consumed, a packet started. -/

namespace Sys2Proof.Claims

open Sys2Proof Sys2Proof.Machine

/- One theorem after another: side by side, their threads would fill the memory. -/
set_option Elab.async false

/-! ### Engine work that has nothing to wait for -/

theorem engineReads_eq {s : State} (h : s.codeErrs = []) (slot va n : Nat) : ∃ x y z, engineReads s slot va n = s.translations x y z :=
  State.meetRange_eq h ..

theorem imageRead_eq {s : State} (h : s.codeErrs = []) (slot p : Nat) : ∃ x y z, imageRead s slot p = s.translations x y z := by
  unfold imageRead
  split
  · exact engineReads_eq h ..
  · exact ⟨_, _, _, rfl⟩

theorem unlessAts_runs {s : State} {c : Ctx} {acc : Acc} {va n : Nat} (h : noAts s c acc va n) (k : State → State) :
    s.unlessAts c acc va n k = k s := by
  unfold State.unlessAts
  split
  · next ns hw => exact absurd hw (h ns)
  · rfl

theorem dispatchRead_runs {s : State} {slot va n : Nat} (hc : s.codeErrs = []) (hv : (s.ctx slot).valid = true)
    (hn : noAts s (s.ctx slot) .read va n) (k : State → Option (List Byte) → State) :
    s.dispatchRead slot va n k = k (engineReads s slot va n) ((engineReads s slot va n).vaRead (s.ctx slot) va n) := by
  obtain ⟨x, y, z, hm⟩ := engineReads_eq hc slot va n
  have hctx : (engineReads s slot va n).ctx slot = s.ctx slot := by rw [hm]; rfl
  rw [State.dispatchRead, unlessAts_runs hn]
  show (if ((engineReads s slot va n).ctx slot).valid = true then
      k (engineReads s slot va n) ((engineReads s slot va n).vaRead ((engineReads s slot va n).ctx slot) va n) else _) = _
  rw [hctx, if_pos hv]

theorem withImage_runs {s : State} {slot p : Nat} (hc : s.codeErrs = []) (hv : (s.ctx slot).valid = true)
    (hn : noAts s (s.ctx slot) .read (field p 8 8) 192) (k : State → State) : s.withImage slot p k = k (imageRead s slot p) := by
  unfold State.withImage imageRead
  by_cases h : packetKind p = 0 ∧ field p 8 8 % 16384 = 0
  · rw [if_neg (by omega), if_pos h, dispatchRead_runs hc hv hn]
  · rw [if_pos (by omega), if_neg h]

theorem withDone_runs {s : State} {slot addr : Nat} (h : noAts s (s.ctx slot) .write addr (doneLen addr)) (k : State → State) :
    s.withDone slot addr k = k s := unlessAts_runs h k

theorem vaRange_of_vaRead {s : State} {c : Ctx} {va n : Nat} {bs : List Byte} (h : s.vaRead c va n = some bs) :
    ∃ ps, s.vaRange c .read va n = .ok ps := by
  unfold State.vaRead at h
  split at h
  · exact ⟨_, by assumption⟩
  · cases h

/-! ### Queues as the engine keeps them -/

theorem ctx_modCtx (s : State) (slot : Nat) (f : Ctx → Ctx) : (s.modCtx slot f).ctx slot = f (s.ctx slot) := by
  simp [State.ctx, State.modCtx, State.setCtx, SMap.get_put]

theorem queue_putQueue (s : State) (slot q : Nat) (x : Queue) : ((s.putQueue slot q x).ctx slot).queue q = x := by
  rw [State.putQueue, ctx_modCtx]
  simp [Ctx.putQueue, Ctx.queue, SMap.get_put]

theorem logPos_putQueue (s : State) (slot q : Nat) (x : Queue) (k : Nat) : (s.putQueue slot q x).logPos k = s.logPos k :=
  State.logPos_modCtx _ (f := fun c => c.putQueue q x) _ (fun _ => rfl) k

theorem eq_of_unnoted {x y : Queue} (h : x.unnoted = y.unnoted) : x = { y with rewritten := x.rewritten, told := x.told } := by
  cases x
  cases y
  simp_all [Queue.unnoted]

/-- The queues of states that agree but for logs and notes. -/
theorem queue_unnoted {s s' : State} (h : s'.unlogged = s.unlogged) (slot q : Nat) :
    ((s'.ctx slot).queue q).unnoted = ((s.ctx slot).queue q).unnoted :=
  congrFun (congrArg Prod.snd (State.ctx_unlogged h slot)) q

/-! ### The tail word (R210) -/

theorem readTail_skips {s : State} {slot q : Nat} (h : ((s.ctx slot).queue q).valid = false ∨ ((s.ctx slot).queue q).dl = true) :
    s.readTail slot q = s := by
  unfold State.readTail
  refine if_pos ?_
  obtain h | h := h <;> simp [h]

/-- A queue that the engine stops, whose word may have been noted as written, is kept so, with a record. -/
theorem stopQueue_stops {s u : State} {i : Instr} {slot q reason : Nat} {x : Queue} (hi : exec i s = .next (u.stopQueue slot q reason))
    (hx : ((u.ctx slot).queue q).unnoted = x.unnoted) (hlog : u.logPos slot = s.logPos slot) : stopsQueue s i slot q x := by
  have hkeep := queue_unnoted (State.logPacket_unlogged
    (u.putQueue slot q { (u.ctx slot).queue q with stopped := true }) slot 3 reason q ((u.ctx slot).queue q).head) slot q
  rw [queue_putQueue] at hkeep
  replace hkeep : _ = Queue.unnoted { x with stopped := true } :=
    hkeep.trans (congrArg (fun y : Queue => { y with stopped := true }) hx)
  exact ⟨_, _, _, hi, eq_of_unnoted (y := { x with stopped := true }) hkeep,
    (State.logPacket_logPos ..).trans (by rw [logPos_putQueue, hlog]; rfl)⟩

/-- A word at which the engine reads the tail of a queue that producers write. -/
theorem tailRead_of_readTail {s : State} {i : Instr} {slot q : Nat} {x : Queue} (hi : exec i s = .next ((s.putQueue slot q x).readTail slot q))
    (hc : s.codeErrs = []) (hv : (s.ctx slot).valid = true) (hx : x.valid = true) (hd : x.dl = false) (hs : x.stopped = false) :
    tailRead s i slot q x := by
  unfold tailRead
  intro g hn
  have hq : (g.ctx slot).queue q = x := queue_putQueue s slot q x
  have hval : (g.ctx slot).valid = true := by
    rw [show g.ctx slot = _ from ctx_modCtx ..]
    exact hv
  obtain ⟨a, b, d, hm⟩ := engineReads_eq (s := g) hc slot (x.word 2) 8
  generalize hmdef : engineReads g slot (x.word 2) 8 = m at hm ⊢
  have hmq : (m.ctx slot).queue q = x := by rw [hm]; exact hq
  have hmlog : m.logPos slot = s.logPos slot := by rw [hm]; exact logPos_putQueue s slot q x slot
  have hmid (y : Queue) : (m.putQueue slot q y).nextId = s.nextId := by rw [hm]; rfl
  have htold : (m.putQueue slot q { x with told := false }).logPos slot = s.logPos slot := (logPos_putQueue ..).trans hmlog
  have hread : g.readTail slot q = match m.vaRead (g.ctx slot) (x.word 2) 8 with
      | none => (m.putQueue slot q { x with told := false }).stopQueue slot q 15
      | some bs =>
        if leNat bs < x.head ∨ leNat bs > x.head + x.slots then (m.putQueue slot q { x with told := false }).stopQueue slot q 14
        else (m.putQueue slot q { x with told := false }).putQueue slot q { x with told := false, tail := leNat bs, acqTag := s.nextId } := by
    unfold State.readTail
    simp only [hq]
    rw [if_neg (by simp [hx, hd, hs]), dispatchRead_runs (s := g) hc hval hn, hmdef]
    simp only [hmq, queue_putQueue, hmid] <;> rfl
  rw [hread] at hi
  refine ⟨fun bs hbs => ⟨fun hlo hhi => ?_, fun hbad => ?_⟩, fun hnone => ?_⟩
  · rw [hbs] at hi
    simp only [not_or.mpr ⟨Nat.not_lt.mpr hlo, Nat.not_lt.mpr hhi⟩, if_false] at hi
    exact ⟨_, hi, queue_putQueue ..⟩
  · rw [hbs] at hi
    simp only [hbad, gt_iff_lt, if_true] at hi
    exact stopQueue_stops hi (by rw [queue_putQueue]; rfl) htold
  · rw [hnone] at hi
    exact stopQueue_stops hi (by rw [queue_putQueue]; rfl) htold

section
variable {s : State} {slot q : Nat} {e : List DWord}

/-- An entry written for a queue that the engine knows, or one that is not valid, is kept, and the tail word is read. -/
theorem queueTableEntryWrite_eq (hv : (s.ctx slot).valid = true) (hq : q < 64) (he : s.readEntry slot q = some e)
    (hx : ((s.ctx slot).queue q).valid = true ∨
      Queue.valid { (s.ctx slot).queue q with entry := e, stopped := false, rewritten := false } = false) :
    exec (.queueTableEntryWrite slot q) s =
      .next ((s.putQueue slot q { (s.ctx slot).queue q with entry := e, stopped := false, rewritten := false }).readTail slot q) := by
  have hread : ∃ ps, s.vaRange (s.ctx slot) .read ((s.ctx slot).entryVa q) 32 = .ok ps := by
    obtain ⟨ws, hws, -⟩ := Option.map_eq_some_iff.mp (show Option.map _ (s.entryWords slot q) = some e from he)
    obtain ⟨bs, hbs, -⟩ := Option.map_eq_some_iff.mp (show Option.map _ (s.vaRead _ _ _) = some ws from hws)
    exact vaRange_of_vaRead hbs
  obtain ⟨ps, hps⟩ := hread
  show execQueueTableEntryWrite slot q s = _
  unfold execQueueTableEntryWrite
  rw [if_neg (by simp [hv, hq]), hps, he]
  simp only
  rw [if_pos (by obtain h | h := hx <;> simp [h])]

theorem queueTailStore_eq (hv : (s.ctx slot).valid = true) (he : s.readEntry slot q = some e) (hx : ((s.ctx slot).queue q).valid = true)
    (hs : ((s.ctx slot).queue q).stopped = false) (hd : ((s.ctx slot).queue q).dl = false) :
    exec (.queueTailStore slot q) s = .next ((s.putQueue slot q { (s.ctx slot).queue q with entry := e }).readTail slot q) := by
  show execQueueTailStore slot q s = _
  simp [execQueueTailStore, hv, hs, hx, hd, he]

end

/-! ### Packets (R210, R213) -/

/-- A packet taken joins its queue's packets where nothing rejects it, and files a record otherwise; its position is past either way. -/
theorem takePacket_eq (z : State) (slot q pos p : Nat) :
    let c := z.ctx slot
    let im := if packetKind p = 0 then z.readImage c p else none
    let why := packetReason p im (c.queue q).privOk
    (why = 0 → ∃ pk, ((z.takePacket slot q pos p).ctx slot).packets = c.packets ++ [pk] ∧ pk.q = q ∧ pk.pos = pos ∧
      pk.words = natDwords 16 p ∧ pk.st = .waiting ∧ (((z.takePacket slot q pos p).ctx slot).queue q).head = pos + 1 ∧
      (z.takePacket slot q pos p).mem = z.mem) ∧
    (why ≠ 0 → ((z.takePacket slot q pos p).ctx slot).packets = c.packets ∧ (((z.takePacket slot q pos p).ctx slot).queue q).head = pos + 1 ∧
      ((z.takePacket slot q pos p).logPos slot = z.logPos slot + 1 ∨ (z.takePacket slot q pos p).logPos slot = z.logPos slot + 2)) := by
  intro c im why
  set u := z.putQueue slot q { c.queue q with head := pos + 1, parents := SMap.del (c.queue q).parents pos } with hu
  have hpackets : (u.ctx slot).packets = c.packets := by
    rw [hu, State.putQueue, ctx_modCtx]
    rfl
  have hhead : ((u.ctx slot).queue q).head = pos + 1 := by rw [hu, queue_putQueue]
  constructor
  · intro hw
    set pk : Packet := { q := q, pos := pos, words := natDwords 16 p, parent := SMap.find (c.queue q).parents pos, st := .waiting, seq := u.nextId,
                         ready := im.map (packetGrid slot q pos (c.queue q).pri p) } with hpk
    have htake : z.takePacket slot q pos p = (u.newId.2).modCtx slot fun c => { c with packets := c.packets ++ [pk] } := by
      show (if why ≠ 0 then _ else _) = _
      rw [if_neg (by simp [hw])]
      rfl
    refine ⟨pk, ?_, rfl, rfl, rfl, rfl, ?_, by rw [htake]; rfl⟩
    · rw [htake, ctx_modCtx]
      exact congrArg (· ++ [pk]) hpackets
    · rw [htake, ctx_modCtx]
      exact hhead
  · intro hw
    have htake : z.takePacket slot q pos p = u.reject slot q pos why p := by
      show (if why ≠ 0 then _ else _) = _
      rw [if_pos hw]
    have hsame := State.reject_unlogged u slot q pos why p
    have hlog : u.logPos slot = z.logPos slot := logPos_putQueue ..
    rw [htake]
    refine ⟨?_, ?_, hlog ▸ State.reject_logPos u slot q pos why p⟩
    · exact (congrArg (fun c => c.1.packets) (State.ctx_unlogged hsame slot)).trans hpackets
    · exact (congrArg Queue.head (queue_unnoted hsame slot q)).trans hhead

/-- A packet consumed: its slot read, its image read, the head word written, the packet taken. -/
theorem launchPacketConsume_eq {s : State} {slot q : Nat} {bs : List Byte} {ps : List (Nat × Nat)} (hc : s.codeErrs = [])
    (hv : (s.ctx slot).valid = true) (hstop : s.ctxStopped slot = false) (hs : ((s.ctx slot).queue q).stopped = false)
    (hx : ((s.ctx slot).queue q).valid = true) (hlt : ((s.ctx slot).queue q).head < ((s.ctx slot).queue q).tail) :
    let c := s.ctx slot
    let x := c.queue q
    let g := s.engineAcquire x.acqTag
    let m := engineReads g slot (x.slotVa x.head) 128
    let n := imageRead m slot (leNat bs)
    noAts g c .read (x.slotVa x.head) 128 → m.vaRead c (x.slotVa x.head) 128 = some bs → noAts m c .read (field (leNat bs) 8 8) 192 →
    noAts n c .write (field (leNat bs) 48 8) (doneLen (field (leNat bs) 48 8)) → n.vaRange c .write (x.word 3) 8 = .ok ps →
    exec (.launchPacketConsume slot q) s =
      .next ((n.engineStore c (x.word 3) ps (natLe 8 (x.head + 1))).takePacket slot q x.head (leNat bs)) := by
  intro c x g m n hg hm hi hd hps
  obtain ⟨a1, a2, a3, hmeq⟩ := engineReads_eq (s := g) hc slot (x.slotVa x.head) 128
  have hmcodes : m.codeErrs = [] := by rw [show m = _ from hmeq]; exact hc
  have hmctx : m.ctx slot = c := by rw [show m = _ from hmeq]; rfl
  obtain ⟨b1, b2, b3, hneq⟩ := imageRead_eq hmcodes slot (leNat bs)
  have hnctx : n.ctx slot = c := by rw [show n = _ from hneq]; exact hmctx
  show execLaunchPacketConsume slot q s = _
  dsimp only [execLaunchPacketConsume]
  rw [if_neg (by simp [hv, hstop, hs, hx, hlt]), dispatchRead_runs (s := g) hc hv hg]
  rw [show (engineReads g slot (x.slotVa x.head) 128).vaRead (g.ctx slot) (x.slotVa x.head) 128 = some bs from hm]
  simp only
  rw [show (engineReads g slot (x.slotVa x.head) 128) = m from rfl,
    withImage_runs hmcodes (by rw [hmctx]; exact hv) (by rw [hmctx]; exact hi),
    withDone_runs (by rw [hnctx]; exact hd)]
  rw [show (imageRead m slot (leNat bs)).vaRange (s.ctx slot) .write (((s.ctx slot).queue q).word 3) 8 = .ok ps from hps]

/-! ### The start of a packet (R211, R219, R220) -/

theorem packetStart_eq {s : State} {slot q : Nat} {pk : Packet} {g : Grid} (hp : s.startable slot q = some pk) (hg : pk.ready = some g)
    (hr : s.retDone slot (dwordsNat pk.words) = true) :
    exec (.packetStart slot q) s = .next ((s.startGrid g pk.seq false).2.modPacket slot pk.seq fun p => { p with st := .grid s.nextId }) := by
  show execPacketStart slot q s = _
  simp only [execPacketStart, hp, hg, hr, Bool.not_true, Bool.false_eq_true, if_false]
  rfl

theorem mem_replaceWhere {α : Type} {p : α → Bool} {f : α → α} {l : List α} {y : α} (hy : y ∈ replaceWhere p f l)
    (hp : p y = true) : ∃ x, y = f x := by
  obtain ⟨x, -, rfl⟩ := List.mem_map.mp hy
  split
  · exact ⟨x, rfl⟩
  · next h => rw [if_neg h] at hp; exact absurd hp h

/-- Settles O41, event by event: what each comes to by the lemmas above. -/
theorem queueEventsComplete : Obligations.QueueEventsComplete := by
  unfold Obligations.QueueEventsComplete
  intro s slot q hc _
  refine ⟨fun hv hq e he => ⟨fun hx => ?_, fun hold hx hd => ?_, fun hold hs hd hy hyd => ?_⟩, ?_, fun pk g hp hg hr => ?_⟩
  · refine ⟨_, queueTableEntryWrite_eq hv hq he (hx.symm.imp And.left id), ?_⟩
    rw [readTail_skips]
    · exact queue_putQueue ..
    · rw [queue_putQueue]
      exact hx.imp id And.right
  · exact tailRead_of_readTail (queueTableEntryWrite_eq hv hq he (.inl hold)) hc hv hx hd rfl
  · exact tailRead_of_readTail (queueTailStore_eq hv he hold hs hd) hc hv hy hyd hs
  · intro x g m bs ps hv hstop hs hx hlt hg hm p n hi hd hps z why
    have hi := launchPacketConsume_eq hc hv hstop hs hx hlt hg hm hi hd hps
    obtain ⟨a1, a2, a3, hmeq⟩ := engineReads_eq (s := g) hc slot (x.slotVa x.head) 128
    obtain ⟨b1, b2, b3, hneq⟩ := imageRead_eq (s := m) (by rw [show m = _ from hmeq]; exact hc) slot p
    have hz : z.unlogged = s.unlogged := (State.engineStore_unlogged ..).trans (by
      rw [show n = _ from hneq, show m = _ from hmeq]
      rfl)
    have hzlog : z.logPos slot = s.logPos slot := (State.engineStore_logPos ..).trans (by
      rw [show n = _ from hneq, show m = _ from hmeq]
      rfl)
    have hpackets : (z.ctx slot).packets = (s.ctx slot).packets := congrArg (fun c => c.1.packets) (State.ctx_unlogged hz slot)
    have hpriv : ((z.ctx slot).queue q).privOk = x.privOk := by
      have hnoted := congrArg Queue.privOk (queue_unnoted hz slot q)
      exact hnoted
    obtain ⟨htaken, hrejected⟩ := takePacket_eq z slot q x.head p
    simp only [hpackets, hpriv, hzlog] at htaken hrejected
    refine ⟨fun h => ?_, fun h => ?_⟩
    · obtain ⟨pk, hpk, hq, hpos, hw, hst, hhead, hmem⟩ := htaken h
      exact ⟨_, pk, hi, hpk, hq, hpos, hw, hst, hhead, fun k => congrArg (fun m => SMap.get 0 m k) hmem⟩
    · obtain ⟨hpk, hhead, hlog⟩ := hrejected h
      exact ⟨_, hi, hpk, hhead, hlog⟩
  · refine ⟨_, packetStart_eq hp hg hr, rfl, fun y hy hseq => ?_⟩
    rw [State.modPacket, ctx_modCtx] at hy
    obtain ⟨x, rfl⟩ := mem_replaceWhere (p := fun p : Packet => p.seq == pk.seq) (f := fun p => { p with st := .grid s.nextId }) hy
      (by simpa using hseq)
    rfl

end Sys2Proof.Claims
end

section
/-! What a range's translation and an engine's store look at (R233, R267). -/

namespace Sys2Proof.Machine

open Sys2Proof

/- One theorem after another: side by side, their threads would fill the memory. -/
set_option Elab.async false

/-! ### Translations look at no team and at no context but their own -/

theorem State.vaParts_aside (s : State) (T : List Team) (C : SMap Ctx) (c : Ctx) (acc : Acc) : ∀ fuel va n : Nat,
    ({ s with teams := T, ctxs := C } : State).vaParts c acc fuel va n = s.vaParts c acc fuel va n
  | 0, _, _ => rfl
  | fuel + 1, va, n => by
    simp only [State.vaParts, State.vaParts_aside s T C c acc fuel]
    rfl

theorem State.vaRange_aside (s : State) (T : List Team) (C : SMap Ctx) (c : Ctx) (acc : Acc) (va n : Nat) :
    ({ s with teams := T, ctxs := C } : State).vaRange c acc va n = s.vaRange c acc va n := State.vaParts_aside ..

/-! ### The memory that an engine's store leaves -/

/-- What a write at its home looks at and changes: the bytes and the poisoned blocks. -/
def State.stored (s : State) : List Host.Cell × SMap Bool := (s.mem, s.poison)

theorem State.setTag_stored (s : State) (key : Nat) (asid : Option Nat) : (s.setTag key asid).stored = s.stored := by
  unfold State.setTag
  split
  · cases asid <;> rfl
  · rfl

theorem State.modifyLines_stored (s : State) (key : Nat) : (s.modifyLines key).stored = s.stored := by
  unfold State.modifyLines
  split <;> rfl

theorem State.homeWrite_stored_eq (s : State) (asid : Option Nat) (key : Nat) (bs : List Byte) :
    (s.homeWrite asid key bs).1.stored =
      if key % 64 = 0 ∧ bs.length = 64 then (memWrite s.mem key bs, SMap.del s.poison (key / 64))
      else if SMap.get false s.poison (key / 64) then s.stored else (memWrite s.mem key bs, s.poison) := by
  have htag := State.setTag_stored (s.poke key bs) key asid
  unfold State.homeWrite
  split
  · exact (State.modifyLines_stored _ _).trans (congrArg (fun p => (p.1, SMap.del s.poison (key / 64))) htag)
  · split
    · rfl
    · exact (State.modifyLines_stored _ _).trans htag

theorem State.homeWrite_stored {s u : State} (h : s.stored = u.stored) (asid : Option Nat) (key : Nat) (bs : List Byte) :
    (s.homeWrite asid key bs).1.stored = (u.homeWrite asid key bs).1.stored := by
  obtain ⟨hmem, hpoison⟩ := Prod.mk.inj h
  rw [State.homeWrite_stored_eq, State.homeWrite_stored_eq, h, hmem, hpoison]

theorem State.writeRange_stored (asid : Option Nat) : ∀ (fuel : Nat) {s u : State}, s.stored = u.stored → ∀ (key : Nat) (bs : List Byte),
    (State.writeRange fuel s asid key bs).stored = (State.writeRange fuel u asid key bs).stored
  | 0, _, _, h, _, _ => h
  | fuel + 1, s, u, h, key, bs => by
    rw [State.writeRange, State.writeRange]
    split
    · exact h
    · exact State.writeRange_stored asid fuel (State.homeWrite_stored h ..) ..

theorem State.partsWrite_stored (asid : Option Nat) : ∀ (ps : List (Nat × Nat)) {s u : State}, s.stored = u.stored → ∀ bs : List Byte,
    (s.partsWrite asid ps bs).stored = (u.partsWrite asid ps bs).stored
  | [], _, _, h, _ => h
  | _ :: ps, _, _, h, _ => State.partsWrite_stored asid ps (State.writeRange_stored asid _ h ..) _

theorem State.useRange_stored (s : State) (c : Ctx) (va n : Nat) : (s.useRange c va n).stored = s.stored := by
  obtain ⟨x, y, z, h⟩ := State.useRange_eq s c va n
  rw [h]
  rfl

theorem State.ownWords_stored (s : State) (core asid va n : Nat) : (s.ownWords core asid va n).stored = s.stored := by
  refine foldl_keeps State.stored (fun s i => ?_) _ s
  dsimp only
  split
  · split
    · rfl
    · split
      · rfl
      · unfold State.sendPort
        split <;> rfl
  · rfl

theorem State.updateByte_stored (s : State) (cores : List Nat) (asid va : Nat) (b : Byte) :
    (s.updateByte cores asid va b).stored = s.stored := by
  unfold State.updateByte
  extract_lets u
  have hu : u.stored = s.stored := foldl_keeps State.stored (fun s k => by split <;> rfl) cores s
  split
  · exact hu
  · exact hu

theorem State.noteTables_stored (s : State) (asid va n : Nat) : (s.noteTables asid va n).stored = s.stored := by
  unfold State.noteTables
  split
  · rfl
  · extract_lets base tail u
    have hu : u.stored = s.stored := by
      unfold u
      split <;> rfl
    split
    · exact hu
    · exact hu

/-- The memory after an engine's store is what its parts, written one by one, make of the memory before it. -/
theorem State.engineStore_stored {s u : State} (h : s.stored = u.stored) (c : Ctx) (va : Nat) (ps : List (Nat × Nat)) (bs : List Byte) :
    (s.engineStore c va ps bs).stored = (u.engineStore c va ps bs).stored := by
  have hstore (v : State) : (v.engineStore c va ps bs).stored = ((v.useRange c va bs.length).partsWrite (some c.asid) ps bs).stored := by
    unfold State.engineStore
    extract_lets s1 s2 s3 s4 s5
    have h3 : s3.stored = s1.stored :=
      (foldl_keeps State.stored (fun s b => State.updateByte_stored ..) _ _).trans (State.ownWords_stored ..)
    have h4 : s4.stored = s1.stored := (State.noteTables_stored ..).trans h3
    have h5 : s5.stored = s4.stored := by
      unfold s5
      split
      · split <;> rfl
      · rfl
    refine (foldl_keeps (fun r : State × Nat => r.1.stored) (fun r p => ?_) ps (s5, 0)).trans (h5.trans h4)
    dsimp only
    split <;> rfl
  rw [hstore, hstore]
  exact State.partsWrite_stored _ ps (((State.useRange_stored ..).trans h).trans (State.useRange_stored ..).symm) bs

theorem State.byte_of_stored {s u : State} (h : s.stored = u.stored) (k : Nat) : s.byte k = u.byte k :=
  congrArg (fun p : List Host.Cell × SMap Bool => SMap.get 0 p.1 k) h

end Sys2Proof.Machine
end

section
/-! The ends of packets, grids, tape runs and steps (R215, R222, R224). -/

namespace Sys2Proof.Claims

open Sys2Proof Sys2Proof.Machine

/- One theorem after another: side by side, their threads would fill the memory. -/
set_option Elab.async false

/-! ### The close of a step (R224) -/

theorem lskipWord_toNat (last pend floor : Bool) {skips clean : Nat} (hs : skips < 2 ^ 13) (hc : clean < 2 ^ 16) :
    (lskipWord last pend floor skips clean).toNat =
      (if last then 2 ^ 31 else 0) + (if pend then 2 ^ 30 else 0) + (if floor then 2 ^ 29 else 0) + skips * 2 ^ 16 + clean := by
  rw [lskipWord, BitVec.toNat_ofNat, Nat.mod_eq_of_lt]
  cases last <;> cases pend <;> cases floor <;> simp <;> omega

theorem scaleWord_toNat {e : Int} (h : e ≤ 256) : (scaleWord e).toNat = (e + 127).toNat * 2 ^ 23 := by
  rw [scaleWord, BitVec.toNat_ofNat, Nat.mod_eq_of_lt (by omega)]

theorem scaleExp_le (w : Word) : scaleExp w ≤ 128 := by
  have := Nat.mod_lt (w.toNat / 2 ^ 23) (y := 2 ^ 8) (by decide)
  simp only [scaleExp, bits]
  omega

theorem signedVal_field (x : BitVec 64) (lo : Nat) : signedVal 8 (x.toNat / 2 ^ lo % 2 ^ 8) = (x.extractLsb' lo 8).toInt := by
  rw [signedVal_eq (by decide)]
  congr 1
  apply BitVec.eq_of_toNat_eq
  simp [Nat.shiftRight_eq_div_pow]

/-- A skipped step closes: LSCALE halves, but at EMIN. -/
theorem closeStep_skipped {c : Ctx} (h : c.lskip.toNat.testBit 30 = true) :
    let low := decide (scaleExp c.lscale ≤ (c.lscfg.extractLsb' 8 8).toInt)
    c.closeStep = { c with lskip := lskipWord true false low (min (bits c.lskip.toNat 28 16 + 1) 8191) 0,
                           lscale := scaleWord (if low then scaleExp c.lscale else scaleExp c.lscale - 1) } := by
  dsimp only [Ctx.closeStep]
  rw [if_pos h, show signedVal 8 (bits c.lscfg.toNat 15 8) = _ from signedVal_field c.lscfg 8]

/-- A clean step closes: after INTERVAL of them LSCALE doubles, up to EMAX. -/
theorem closeStep_clean {c : Ctx} (h : c.lskip.toNat.testBit 30 = false) :
    c.closeStep = if bits c.lskip.toNat 15 0 + 1 ≥ max 1 (bits c.lscfg.toNat 47 32) then
        { c with lskip := lskipWord false false false (bits c.lskip.toNat 28 16) 0
                 lscale := scaleWord (if scaleExp c.lscale < (c.lscfg.extractLsb' 16 8).toInt then scaleExp c.lscale + 1 else scaleExp c.lscale) }
      else { c with lskip := lskipWord false false false (bits c.lskip.toNat 28 16) (bits c.lskip.toNat 15 0 + 1) } := by
  dsimp only [Ctx.closeStep]
  rw [if_neg (by rw [h]; decide), show signedVal 8 (bits c.lscfg.toNat 23 16) = _ from signedVal_field c.lscfg 16]

theorem closeStep_closes (c : Ctx) : stepClosed c c.closeStep := by
  have hskips : bits c.lskip.toNat 28 16 < 2 ^ 13 := Nat.mod_lt _ (by decide)
  have hclean : bits c.lskip.toNat 15 0 = c.lskip.toNat % 2 ^ 16 := by simp [bits]
  have hn : bits c.lscfg.toNat 47 32 < 2 ^ 16 := Nat.mod_lt _ (by decide)
  have hmost := scaleExp_le c.lscale
  have he : scaleExp c.lscale = ((c.lscale.toNat / 2 ^ 23 % 2 ^ 8 : Nat) : Int) - 127 := rfl
  rw [he] at hmost
  unfold stepClosed
  intro k e emin emax n skips clean power
  have hpower {x : Int} (hx : x ≤ 256) (h : c.closeStep.lscale = scaleWord x) : power x :=
    (congrArg BitVec.toNat h).trans (scaleWord_toNat hx)
  refine ⟨fun h => ⟨?_, fun hlow => ?_, fun hlow => ?_⟩, fun h => ⟨fun hle => ⟨?_, fun hup => ?_, fun hup => ?_⟩, fun hlt => ?_⟩⟩
  · rw [closeStep_skipped h, he, lskipWord_toNat _ _ _ (by omega) (by decide)]
    show 2 ^ 31 + 0 + (if decide (e ≤ emin) = true then 2 ^ 29 else 0) + min (skips + 1) 8191 * 2 ^ 16 + 0 =
      2 ^ 31 + (if emin < e then 0 else 2 ^ 29) + min (skips + 1) 8191 * 2 ^ 16
    by_cases hlow : e ≤ emin
    · rw [if_pos (decide_eq_true hlow), if_neg (not_lt.mpr hlow), Nat.add_zero, Nat.add_zero]
    · rw [if_neg (mt of_decide_eq_true hlow), if_pos (not_le.mp hlow), Nat.add_zero, Nat.add_zero]
  · exact hpower (x := e - 1) (by omega) (by rw [closeStep_skipped h, he]; exact congrArg scaleWord (if_neg (mt of_decide_eq_true (not_le.mpr hlow))))
  · exact hpower (x := e) (by omega) (by rw [closeStep_skipped h, he]; exact congrArg scaleWord (if_pos (decide_eq_true hlow)))
  · rw [closeStep_clean h, if_pos (by rw [hclean]; exact hle)]
    exact (lskipWord_toNat _ _ _ hskips (by decide)).trans (by simp [skips, k, bits])
  · refine hpower (x := e + 1) (by omega) ?_
    rw [closeStep_clean h, he, if_pos (by rw [hclean]; exact hle)]
    exact congrArg scaleWord (if_pos hup)
  · refine hpower (x := e) (by omega) ?_
    rw [closeStep_clean h, he, if_pos (by rw [hclean]; exact hle)]
    exact congrArg scaleWord (if_neg (not_lt.mpr hup))
  · have hlt' : ¬ bits c.lskip.toNat 15 0 + 1 ≥ max 1 (bits c.lscfg.toNat 47 32) := by rw [hclean]; exact not_le.mpr hlt
    rw [closeStep_clean h, if_neg hlt']
    refine ⟨(lskipWord_toNat _ _ _ hskips (by omega)).trans ?_, rfl⟩
    simp [skips, clean, k, bits, Nat.add_assoc]

/-! ### A packet's end (R211, R215) -/

theorem gone_endPacket (s : State) (slot seq : Nat) : gone (s.endPacket slot seq) slot seq := by
  intro x hx
  unfold State.endPacket at hx
  split at hx
  · next h => simpa using List.find?_eq_none.mp h x hx
  · rw [ctx_modCtx] at hx
    simpa using (List.mem_filter.mp hx).2

/-- A packet's end changes its context's packets, and what a record or a store notes there. -/
theorem endPacket_ctx (s : State) (slot seq : Nat) :
    ∃ (c : Ctx) (ps : List Packet), (s.endPacket slot seq).ctx slot = { c with packets := ps } ∧ c.unlogged = (s.ctx slot).unlogged := by
  unfold State.endPacket
  split
  · exact ⟨_, _, rfl, rfl⟩
  · rw [ctx_modCtx]
    exact ⟨_, _, rfl, State.ctx_unlogged (State.doneWord_unlogged ..) slot⟩

theorem endPacket_grids (s : State) (slot seq : Nat) : (s.endPacket slot seq).grids = s.grids := by
  unfold State.endPacket
  split
  · rfl
  · exact congrArg Unlogged.grids (State.doneWord_unlogged ..)

theorem endPacket_tape (s : State) (slot seq : Nat) : ((s.endPacket slot seq).ctx slot).tape = (s.ctx slot).tape := by
  obtain ⟨c, ps, hctx, h⟩ := endPacket_ctx s slot seq
  rw [hctx]
  exact congrArg (fun c => c.1.tape) h

/-- Whether a step closes shows in its context's loss scale alone. -/
theorem endPacket_closes {s : State} {slot seq : Nat} {c : Ctx} (h : stepClosed c (s.ctx slot)) : stepClosed c ((s.endPacket slot seq).ctx slot) := by
  obtain ⟨d, ps, hctx, hd⟩ := endPacket_ctx s slot seq
  have hskip : d.lskip = (s.ctx slot).lskip := congrArg (fun c => c.1.lskip) hd
  have hscale : d.lscale = (s.ctx slot).lscale := congrArg (fun c => c.1.lscale) hd
  rw [hctx]
  unfold stepClosed
  simp only
  rw [hskip, hscale]
  exact h

/-- The completion word of a packet that ends is all that its end stores. -/
theorem endPacket_byte {s : State} {slot seq : Nat} {pk : Packet} (h : (s.ctx slot).packets.find? (fun x => x.seq == seq) = some pk) (k : Nat) :
    let p := dwordsNat pk.words
    (s.endPacket slot seq).byte k = (s.doneWord slot pk.q pk.pos (field p 48 8) (field p 56 8)).byte k := by
  unfold State.endPacket
  rw [h]
  rfl

/-! ### A grid's end (R215) -/

theorem filter_replaceWhere {α : Type} {p q : α → Bool} {f : α → α} (hq : ∀ x, p x = true → q x = false)
    (hf : ∀ x, p x = true → q (f x) = false) (l : List α) : (replaceWhere p f l).filter q = l.filter q := by
  unfold replaceWhere
  induction l with
  | nil => rfl
  | cons x l ih =>
    rw [List.map_cons]
    by_cases hp : p x = true
    · rw [if_pos hp, List.filter_cons_of_neg (by simp [hf x hp]), List.filter_cons_of_neg (by simp [hq x hp]), ih]
    · rw [if_neg hp, List.filter_cons, List.filter_cons, ih]

theorem settleWrites_eq {s : State} (hp : s.pend = []) (hr : s.revokes = []) : s.settleWrites = s := by
  cases s
  simp only at hp hr
  subst hp hr
  rfl

theorem startRelease_eq {s : State} (hp : s.pend = []) (hr : s.revokes = []) (who : Asker) (asid : Nat) : s.startRelease who asid false = s :=
  settleWrites_eq hp hr

/-- A grid whose release is complete goes on: its context has no store to HOST pages left to cover, and other grids are as they were. -/
theorem gridReleased_runs {s : State} {g : Grid} (h : gridReleases s g) (k : State → State) :
    ∃ C G, s.gridReleased g k = k { s with ctxs := C, grids := G } ∧ (∀ n, SMap.get Ctx.reset C n = s.ctx n) ∧
      (G.filter fun x => x.gid != g.gid) = s.grids.filter fun x => x.gid != g.gid := by
  obtain ⟨n, hn, hreg⟩ | ⟨hn, hp, hr, ha, hhost⟩ := h
  · refine ⟨s.ctxs, s.grids, ?_, fun _ => rfl, rfl⟩
    unfold State.gridReleased
    simp only [hn, hreg, if_true]
  · have hrel : s.releaseFor g.ctx = (s.nextId, s.modCtx g.ctx fun c => { c with hostStores := false }) := by
      simp only [State.releaseFor, hhost, startRelease_eq hp hr]
      rfl
    refine ⟨SMap.put s.ctxs g.ctx { s.ctx g.ctx with hostStores := false },
      replaceWhere (fun x : Grid => x.gid == g.gid) (fun x => { x with relTag := some s.nextId }) s.grids, ?_, fun n => ?_, ?_⟩
    · unfold State.gridReleased
      simp only [hn, hrel]
      rw [if_pos]
      · rfl
      · show (!(List.any s.remAsks _) && !(List.any s.revokes _)) = true
        rw [ha, hr]
        rfl
    · show SMap.get Ctx.reset (SMap.put s.ctxs g.ctx _) n = _
      rw [SMap.get_put]
      split
      · next hk =>
        rw [hk, ← hhost]
      · rfl
    · exact filter_replaceWhere (fun x hx => by simp_all) (fun x hx => by simp_all) s.grids

theorem closeGrid_grids (s : State) (g : Grid) : (s.closeGrid g).grids = s.grids.filter fun x => x.gid != g.gid := by
  unfold State.closeGrid
  cases g.barCore <;> rfl

theorem closeGrid_aside {s : State} {g : Grid} {C : SMap Ctx} {G : List Grid}
    (h : (G.filter fun x => x.gid != g.gid) = s.grids.filter fun x => x.gid != g.gid) :
    ({ s with ctxs := C, grids := G } : State).closeGrid g = { s.closeGrid g with ctxs := C } := by
  have hclose : ({ s with ctxs := C, grids := G } : State).closeGrid g = { s.closeGrid g with ctxs := C, grids := G.filter fun x => x.gid != g.gid } := by
    unfold State.closeGrid
    cases g.barCore <;> rfl
  rw [hclose, h, ← closeGrid_grids]

/-- A placed grid with no team and no engine work left, whose packet is its queue's next to end, ends once its release is complete. -/
theorem gridEnd_eq {s : State} {g : Grid} (hg : s.grid? g.gid = some g) (hn : g.next = g.order.length) (ht : ∀ t ∈ s.teams, t.gid ≠ g.gid)
    (hb : s.gridBusy g.gid = false) (ho : s.endsInOrder g = true)
    (hd : noAts s (s.ctx g.ctx) .write g.doneAddr.toNat (doneLen g.doneAddr.toNat)) (htape : g.fromTape = false) :
    exec (.gridEnd g.gid) s = .next (s.gridReleased g fun s => (s.closeGrid g).endPacket g.ctx g.seq) := by
  have hteams : (s.teams.any fun t => t.gid == g.gid) = false := List.any_eq_false.mpr fun t h => by simpa using ht t h
  show execGridEnd g.gid s = _
  simp only [execGridEnd, hg]
  rw [if_neg (by simp [Grid.placed, hn, hteams, hb, ho]), withDone_runs hd]
  simp only [htape]
  rfl

theorem closeGrid_grid? (s : State) (g : Grid) {C : SMap Ctx} (slot seq : Nat) :
    ((({ s.closeGrid g with ctxs := C } : State).endPacket slot seq).grid? g.gid) = none := by
  rw [State.grid?, endPacket_grids, List.find?_eq_none]
  intro x hx
  rw [show ({ s.closeGrid g with ctxs := C } : State).grids = _ from closeGrid_grids s g] at hx
  simpa using (List.mem_filter.mp hx).2

/-! ### The tape (R222) -/

theorem startRecord_starts {s : State} {slot p : Nat} (h : s.retDone slot p = true) (run : TapeRun) (g : Grid) :
    (s.startRecord slot run p g).grids = s.grids ++ [{ g with gid := s.nextId + 1, seq := s.nextId, fromTape := true }] ∧
      (s.startRecord slot run p g).ctx slot = { s.ctx slot with tape := some { run with popped := none, running := some (s.nextId + 1) } } := by
  unfold State.startRecord
  rw [if_pos h]
  refine ⟨rfl, ?_⟩
  exact (ctx_modCtx ..).trans (congrArg (fun c : Ctx => { c with tape := some { run with popped := none, running := some (s.nextId + 1) } })
    (show (s.newId.2.startGrid g s.nextId true).2.ctx slot = s.ctx slot from rfl))

theorem startRecord_waits {s : State} {slot p : Nat} (h : s.retDone slot p = false) (run : TapeRun) (g : Grid) :
    (s.startRecord slot run p g).grids = s.grids ∧
      (s.startRecord slot run p g).ctx slot = { s.ctx slot with tape := some { run with popped := some (p, g) } } := by
  unfold State.startRecord
  rw [if_neg (by rw [h]; decide)]
  refine ⟨rfl, ?_⟩
  rw [ctx_modCtx]

theorem packetFlags_testBit_three (p : Nat) : (packetFlags p).testBit 3 = p.testBit 19 := by
  rw [packetFlags, field, Nat.testBit_mod_two_pow, Nat.testBit_div_two_pow]
  rfl

/-- A record popped that launches nothing leaves the grids, the depth and the run, for a retired step and for a record that is rejected. -/
theorem launchRecord_retires {z : State} {slot p : Nat} (run : TapeRun)
    (h : (packetKind p = 0 ∧ p.testBit 19 = true ∧ (z.ctx slot).lskip.getLsbD 30 = true) ∨ packetKind p ≠ 0) :
    (z.launchRecord slot run p).unlogged = z.unlogged := by
  unfold State.launchRecord
  extract_lets c x im why
  obtain ⟨hk, hp, hl⟩ | hk := h
  · rw [if_pos ⟨hk, by rw [packetFlags_testBit_three, hp], hl⟩]
    exact State.doneWord_unlogged ..
  · have hwhy : why = 1 := if_pos hk
    rw [if_neg fun h => hk h.1, if_pos (by rw [hwhy]; decide)]
    exact State.reject_unlogged ..

theorem launchRecord_starts {z : State} {slot p : Nat} {im : ImageRead} (run : TapeRun) (hk : packetKind p = 0)
    (hskip : p.testBit 19 = false ∨ (z.ctx slot).lskip.getLsbD 30 = false) (him : z.readImage (z.ctx slot) p = some im)
    (hwhy : packetReason p (some im) ((z.ctx slot).queue run.q).privOk = 0) :
    z.launchRecord slot run p = z.startRecord slot run p (packetGrid slot run.q run.pos ((z.ctx slot).queue run.q).pri p im) := by
  unfold State.launchRecord
  simp only [hk, him, if_true, ne_eq, not_true_eq_false, if_false, hwhy]
  rw [if_neg]
  rw [packetFlags_testBit_three]
  exact fun hall => hskip.elim (fun h => by simp [h] at hall) (fun h => absurd hall.2.2 (by rw [h]; decide))

/-- A record read at the top of the tape is popped and launched (R222). -/
theorem tapePop_pops {s m n : State} {slot : Nat} {run : TapeRun} {bs : List Byte} (ht : (s.ctx slot).tape = some run)
    (hrun : run.running = none) (hstop : s.ctxStopped slot = false) (hpop : run.popped = none) (hv : (s.ctx slot).valid = true)
    (hc : s.codeErrs = []) (hlt : run.mark < (s.ctx slot).tdepth.toNat)
    (hr : noAts s (s.ctx slot) .read ((s.ctx slot).recordVa ((s.ctx slot).tdepth.toNat - 1)) 128)
    (hmdef : engineReads s slot ((s.ctx slot).recordVa ((s.ctx slot).tdepth.toNat - 1)) 128 = m)
    (hm : m.vaRead (s.ctx slot) ((s.ctx slot).recordVa ((s.ctx slot).tdepth.toNat - 1)) 128 = some bs)
    (hi : noAts m (s.ctx slot) .read (field (leNat bs) 8 8) 192) (hndef : imageRead m slot (leNat bs) = n)
    (hd : noAts n (s.ctx slot) .write (field (leNat bs) 48 8) (doneLen (field (leNat bs) 48 8))) :
    exec (.tapePop slot) s = .next ((n.modCtx slot fun c => { c with tdepth := c.tdepth - 1 }).launchRecord slot run (leNat bs)) := by
  obtain ⟨a1, a2, a3, hmeq⟩ := engineReads_eq hc slot ((s.ctx slot).recordVa ((s.ctx slot).tdepth.toNat - 1)) 128
  rw [hmdef] at hmeq
  have hmcodes : m.codeErrs = [] := by rw [hmeq]; exact hc
  have hmctx : m.ctx slot = s.ctx slot := by rw [hmeq]; rfl
  obtain ⟨b1, b2, b3, hneq⟩ := imageRead_eq hmcodes slot (leNat bs)
  rw [hndef] at hneq
  have hnctx : n.ctx slot = s.ctx slot := by rw [hneq]; exact hmctx
  show execTapePop slot s = _
  dsimp only [execTapePop]
  rw [ht]
  dsimp only
  rw [if_neg (by simp [hrun, hstop]), hpop]
  dsimp only
  rw [if_neg (show ¬ (s.ctx slot).depth ≤ run.mark from not_le.mpr hlt), Ctx.depth, dispatchRead_runs hc hv hr, hmdef, hm]
  dsimp only
  rw [withImage_runs hmcodes (by rw [hmctx]; exact hv) (by rw [hmctx]; exact hi), hndef, withDone_runs (by rw [hnctx]; exact hd)]

/-- A tape run ends at its mark, with its packet. -/
theorem tapePop_ends {s : State} {slot : Nat} {run : TapeRun} {pk : Packet} (ht : (s.ctx slot).tape = some run)
    (hrun : run.running = none) (hstop : s.ctxStopped slot = false) (hpop : run.popped = none) (hle : (s.ctx slot).tdepth.toNat ≤ run.mark)
    (hpk : (s.ctx slot).runPacket = some pk)
    (hd : noAts s (s.ctx slot) .write (field (dwordsNat pk.words) 48 8) (doneLen (field (dwordsNat pk.words) 48 8))) :
    exec (.tapePop slot) s = .next ((s.endPacket slot pk.seq).modCtx slot fun c => { c with tape := none }) := by
  show execTapePop slot s = _
  dsimp only [execTapePop]
  rw [ht]
  dsimp only
  rw [if_neg (by simp [hrun, hstop]), hpop]
  dsimp only
  rw [if_pos (show (s.ctx slot).depth ≤ run.mark from hle), hpk]
  dsimp only
  rw [withDone_runs hd]

/-- A record that has been popped is looked at again. -/
theorem tapePop_waiting {s : State} {slot p : Nat} {run : TapeRun} {g : Grid} (ht : (s.ctx slot).tape = some run) (hrun : run.running = none)
    (hstop : s.ctxStopped slot = false) (hpop : run.popped = some (p, g)) : exec (.tapePop slot) s = .next (s.startRecord slot run p g) := by
  show execTapePop slot s = _
  dsimp only [execTapePop]
  rw [ht]
  dsimp only
  rw [if_neg (by simp [hrun, hstop]), hpop]

/-- A TAPE_RUN packet starts where no run is active. -/
theorem tapeRunStart_eq {s : State} {slot q : Nat} {pk : Packet} (hpk : s.startable slot q = some pk)
    (hd : noAts s (s.ctx slot) .write (field (dwordsNat pk.words) 48 8) (doneLen (field (dwordsNat pk.words) 48 8)))
    (hk : packetKind (dwordsNat pk.words) = 1) (ht : (s.ctx slot).tape = none) :
    exec (.tapeRunStart slot q) s = .next (
      if (s.ctx slot).tdepth.toNat ≤ field (dwordsNat pk.words) 4 2 then s.endPacket slot pk.seq
      else (s.modPacket slot pk.seq fun x => { x with st := .tapeRun }).modCtx slot fun c =>
        { c with tape := some { q := q, pos := pk.pos, mark := field (dwordsNat pk.words) 4 2, popped := none, running := none } }) := by
  show execTapeRunStart slot q s = _
  simp only [execTapeRunStart, hpk]
  rw [if_neg (by simp [hk, ht]), withDone_runs hd]
  rfl

theorem stepEndClose_eq {s : State} {slot q : Nat} {pk : Packet} (hpk : s.startable slot q = some pk)
    (hd : noAts s (s.ctx slot) .write (field (dwordsNat pk.words) 48 8) (doneLen (field (dwordsNat pk.words) 48 8)))
    (hk : packetKind (dwordsNat pk.words) = 2) :
    exec (.stepEndClose slot q) s = .next ((s.modCtx slot Ctx.closeStep).endPacket slot pk.seq) := by
  show execStepEndClose slot q s = _
  simp only [execStepEndClose, hpk]
  rw [if_neg (by simp [hk]), withDone_runs hd]

/-- What a packet's end stores does not depend on how its context's stores to HOST pages stand. -/
theorem endPacket_aside_byte {z : State} {C : SMap Ctx} {slot seq : Nat} {pk : Packet} (hC : ∀ n, SMap.get Ctx.reset C n = z.ctx n)
    (hpk : (z.ctx slot).packets.find? (fun x => x.seq == seq) = some pk) (k : Nat) :
    let p := dwordsNat pk.words
    let s' := ({ z with ctxs := C } : State).endPacket slot seq
    (field p 48 8 = 0 → s'.byte k = z.byte k) ∧
    ∀ ps, field p 48 8 ≠ 0 → z.vaRange (z.ctx slot) .write (field p 48 8) 8 = .ok ps →
      s'.byte k = (z.engineStore (z.ctx slot) (field p 48 8) ps (natLe 8 (field p 56 8))).byte k := by
  intro p s'
  have hctx : ({ z with ctxs := C } : State).ctx slot = z.ctx slot := hC slot
  have hbyte : s'.byte k = (({ z with ctxs := C } : State).doneWord slot pk.q pk.pos (field p 48 8) (field p 56 8)).byte k :=
    endPacket_byte (by rw [hctx]; exact hpk) k
  refine ⟨fun h => ?_, fun ps h hps => ?_⟩
  · rw [hbyte, State.doneWord, if_pos h]
    rfl
  · have hrange : ({ z with ctxs := C } : State).vaRange (z.ctx slot) .write (field p 48 8) 8 = .ok ps :=
      (State.vaRange_aside z z.teams C ..).trans hps
    rw [hbyte, State.doneWord, if_neg h, hctx, hrange]
    exact State.byte_of_stored (State.engineStore_stored (s := { z with ctxs := C }) (u := z) rfl _ _ _ _) k

/-- Settles O43, event by event: what each comes to by the lemmas above. -/
theorem tapeAndEndEventsComplete : Obligations.TapeAndEndEventsComplete := by
  unfold Obligations.TapeAndEndEventsComplete
  refine ⟨?_, ?_, ?_⟩
  · intro s g pk hg hn ht hb ho hd htape hrel z hpk p
    obtain ⟨C, G, hrun, hC, hG⟩ := gridReleased_runs hrel fun s => (s.closeGrid g).endPacket g.ctx g.seq
    have hz (n : Nat) : SMap.get Ctx.reset C n = z.ctx n := (hC n).trans (by
      unfold z State.closeGrid
      cases g.barCore <;> rfl)
    have hexec := gridEnd_eq hg hn ht hb ho hd htape
    rw [hrun, closeGrid_aside hG] at hexec
    exact ⟨_, hexec, closeGrid_grid? s g .., gone_endPacket _ _ _, fun h k => (endPacket_aside_byte hz hpk k).1 h,
      fun ps h hps k => (endPacket_aside_byte hz hpk k).2 ps h hps⟩
  · intro s slot q pk hpk c p hd
    refine ⟨fun hk ht => ⟨fun hle => ?_, fun hlt => ?_⟩, fun hk => ?_⟩
    · have hexec := tapeRunStart_eq hpk hd hk ht
      rw [if_pos hle] at hexec
      exact ⟨_, hexec, gone_endPacket _ _ _, (endPacket_tape ..).trans ht⟩
    · have hexec := tapeRunStart_eq hpk hd hk ht
      rw [if_neg (not_le.mpr hlt)] at hexec
      exact ⟨_, hexec, by rw [ctx_modCtx]⟩
    · refine ⟨_, stepEndClose_eq hpk hd hk, gone_endPacket _ _ _, endPacket_closes ?_⟩
      rw [ctx_modCtx]
      exact closeStep_closes c
  · intro s slot run c ht hrun hstop
    refine ⟨fun p g hpop => ⟨fun hret => ?_, fun hret => ?_⟩, ?_, ?_⟩
    · obtain ⟨hgrids, hctx⟩ := startRecord_starts hret run g
      exact ⟨_, tapePop_waiting ht hrun hstop hpop, hgrids, by rw [hctx]⟩
    · obtain ⟨hgrids, hctx⟩ := startRecord_waits hret run g
      exact ⟨_, tapePop_waiting ht hrun hstop hpop, hgrids, by rw [hctx, ← hpop]⟩
    · intro pk hpop hle hpk p hd
      refine ⟨_, tapePop_ends ht hrun hstop hpop hle hpk hd, by rw [ctx_modCtx], fun x hx => ?_⟩
      rw [ctx_modCtx] at hx
      exact gone_endPacket s slot pk.seq x hx
    · intro bs hpop hv hc hlt m hr hm p n hi hd z retired
      have hexec : exec (.tapePop slot) s = .next (z.launchRecord slot run p) :=
        tapePop_pops ht hrun hstop hpop hv hc hlt hr rfl hm hi rfl hd
      obtain ⟨a1, a2, a3, hmeq⟩ := engineReads_eq hc slot (c.recordVa (c.tdepth.toNat - 1)) 128
      obtain ⟨b1, b2, b3, hneq⟩ := imageRead_eq (s := m) (by rw [show m = _ from hmeq]; exact hc) slot p
      obtain ⟨hnctx, hgrids, hid, hretz⟩ : n.ctx slot = c ∧ z.grids = s.grids ∧ z.nextId = s.nextId ∧ z.retDone slot p = s.retDone slot p := by
        unfold z
        rw [show n = _ from hneq, show m = _ from hmeq]
        exact ⟨rfl, rfl, rfl, rfl⟩
      have hctx : z.ctx slot = { c with tdepth := c.tdepth - 1 } := (ctx_modCtx ..).trans (by rw [hnctx])
      have hretired (h : (packetKind p = 0 ∧ p.testBit 19 = true ∧ c.lskip.getLsbD 30 = true) ∨ packetKind p ≠ 0) : retired := by
        have hsame := launchRecord_retires run (z := z) (slot := slot) (by rw [hctx]; exact h)
        have hkept := State.ctx_unlogged hsame slot
        rw [hctx] at hkept
        exact ⟨_, hexec, (congrArg Unlogged.grids hsame).trans hgrids, congrArg (fun c => c.1.tdepth) hkept,
          (congrArg (fun c => c.1.tape) hkept).trans ht⟩
      refine ⟨fun hk hp hl => hretired (.inl ⟨hk, hp, hl⟩), fun hk => hretired (.inr hk), fun im hk hskip him hwhy => ?_⟩
      have hstart : exec (.tapePop slot) s = .next (z.startRecord slot run p (packetGrid slot run.q run.pos (c.queue run.q).pri p im)) := by
        rw [hexec, launchRecord_starts run hk (by rw [hctx]; exact hskip) him (by rw [hctx]; exact hwhy), hctx]
        rfl
      refine ⟨fun hret => ?_, fun hret => ?_⟩
      · obtain ⟨hg, hrec⟩ := startRecord_starts (hretz.trans hret) run (packetGrid slot run.q run.pos (c.queue run.q).pri p im)
        rw [hctx, hid, ← hpop] at hrec
        rw [hgrids, hid] at hg
        exact ⟨_, hstart, hg, by rw [hrec], by rw [hrec]⟩
      · obtain ⟨hg, hrec⟩ := startRecord_waits (hretz.trans hret) run (packetGrid slot run.q run.pos (c.queue run.q).pri p im)
        rw [hctx] at hrec
        exact ⟨_, hstart, hg.trans hgrids, by rw [hrec], by rw [hrec]⟩

end Sys2Proof.Claims
end

section
/-! Translations and stores of engines do not look at the teams (R233, R267). -/

namespace Sys2Proof.Machine

open Sys2Proof

/- One theorem after another: side by side, their threads would fill the memory. -/
set_option Elab.async false

/-- A state with other teams. -/
def State.withTeams (s : State) (T : List Team) : State := { s with teams := T }

theorem State.vaRange_withTeams (s : State) (T : List Team) (c : Ctx) (acc : Acc) (va n : Nat) :
    (s.withTeams T).vaRange c acc va n = s.vaRange c acc va n := State.vaRange_aside s T s.ctxs ..

theorem State.keepWalk_withTeams (s : State) (T : List Team) (c : Ctx) (va : Nat) (l : Leaf) :
    (s.withTeams T).keepWalk c va l = (s.keepWalk c va l).withTeams T := rfl

theorem State.fillTlb_withTeams (s : State) (T : List Team) (c : Ctx) (va : Nat) (l : Leaf) :
    (s.withTeams T).fillTlb c va l = (s.fillTlb c va l).withTeams T := by
  unfold State.fillTlb
  rw [State.keepWalk_withTeams, show (s.withTeams T).tlb = s.tlb from rfl]
  split <;> rfl

theorem State.useTlb_withTeams (s : State) (T : List Team) (c : Ctx) (va : Nat) :
    (s.withTeams T).useTlb c va = (s.useTlb c va).withTeams T := by
  unfold State.useTlb
  rw [show (s.withTeams T).leaf c va = s.leaf c va from rfl, show (s.withTeams T).lines = s.lines from rfl]
  split
  · rfl
  · cases s.leaf c va with
    | ok l => exact State.fillTlb_withTeams s T c va l
    | error _ => rfl

theorem State.useRange_withTeams (s : State) (T : List Team) (c : Ctx) (va n : Nat) :
    (s.withTeams T).useRange c va n = (s.useRange c va n).withTeams T :=
  List.foldl_hom (fun s : State => s.withTeams T) fun s _ => State.useTlb_withTeams s T c _

theorem State.setTag_withTeams (s : State) (T : List Team) (key : Nat) (asid : Option Nat) :
    (s.withTeams T).setTag key asid = (s.setTag key asid).withTeams T := by
  unfold State.setTag
  split
  · cases asid <;> rfl
  · rfl

theorem State.modifyLines_withTeams (s : State) (T : List Team) (key : Nat) :
    (s.withTeams T).modifyLines key = (s.modifyLines key).withTeams T := by
  unfold State.modifyLines
  rw [show (s.withTeams T).lines = s.lines from rfl, show (s.withTeams T).frameEntry = s.frameEntry from rfl]
  split <;> rfl

theorem State.homeWrite_withTeams (s : State) (T : List Team) (asid : Option Nat) (key : Nat) (bs : List Byte) :
    ((s.withTeams T).homeWrite asid key bs).1 = (s.homeWrite asid key bs).1.withTeams T := by
  unfold State.homeWrite
  rw [show (s.withTeams T).poison = s.poison from rfl, show (s.withTeams T).poke key bs = (s.poke key bs).withTeams T from rfl,
    State.setTag_withTeams]
  split
  · exact State.modifyLines_withTeams
      ({ (s.poke key bs).setTag key asid with poison := SMap.del s.poison (key / 64), codeErrs := SMap.del s.codeErrs (key / 64) }) T key
  · split
    · rfl
    · exact State.modifyLines_withTeams _ T key

theorem State.writeRange_withTeams (T : List Team) (asid : Option Nat) : ∀ (fuel : Nat) (s : State) (key : Nat) (bs : List Byte),
    State.writeRange fuel (s.withTeams T) asid key bs = (State.writeRange fuel s asid key bs).withTeams T
  | 0, _, _, _ => rfl
  | fuel + 1, s, key, bs => by
    simp only [State.writeRange, State.homeWrite_withTeams, State.writeRange_withTeams T asid fuel]
    split <;> rfl

theorem State.partsWrite_withTeams (T : List Team) (asid : Option Nat) : ∀ (ps : List (Nat × Nat)) (s : State) (bs : List Byte),
    (s.withTeams T).partsWrite asid ps bs = (s.partsWrite asid ps bs).withTeams T
  | [], _, _ => rfl
  | p :: ps, s, bs => by
    rw [State.partsWrite, State.partsWrite, State.writeRange_withTeams]
    exact State.partsWrite_withTeams T asid ps ..

theorem State.sendPort_withTeams (s : State) (T : List Team) (m : OutMsg) : (s.withTeams T).sendPort m = (s.sendPort m).withTeams T := by
  unfold State.sendPort
  rw [show (s.withTeams T).pkg = s.pkg from rfl]
  split <;> rfl

theorem State.ownWords_withTeams (s : State) (T : List Team) (core asid va n : Nat) :
    (s.withTeams T).ownWords core asid va n = (s.ownWords core asid va n).withTeams T := by
  refine List.foldl_hom (fun s : State => s.withTeams T) fun s i => ?_
  dsimp only
  rw [show (s.withTeams T).owners = s.owners from rfl]
  cases SMap.find s.owners (spaceKey asid ((va / 4 + i) * 4)) with
  | none => rfl
  | some o =>
    dsimp only
    split
    · rfl
    · split
      · rfl
      · exact congrArg (fun s : State => { s with owners := SMap.put s.owners (spaceKey asid ((va / 4 + i) * 4)) core })
          (State.sendPort_withTeams { s with
            revokes := s.revokes ++ [{ no := s.nextId, core := o, asid := asid, va := (va / 4 + i) * 4, by_ := core }], nextId := s.nextId + 1 } T
            (OutMsg.revoke ((o - 1024) / 512) asid ((va / 4 + i) * 4) ((o - 1024) % 512)))

theorem State.updateByte_withTeams (s : State) (T : List Team) (asid va : Nat) (b : Byte) :
    (s.withTeams T).updateByte [] asid va b = (s.updateByte [] asid va b).withTeams T := by
  unfold State.updateByte
  dsimp only [List.foldl_nil]
  rw [show (s.withTeams T).remote = s.remote from rfl]
  split <;> rfl

theorem State.noteTables_withTeams (s : State) (T : List Team) (asid va n : Nat) :
    (s.withTeams T).noteTables asid va n = (s.noteTables asid va n).withTeams T := by
  unfold State.noteTables
  rw [show (s.withTeams T).ctxOfAsid asid = s.ctxOfAsid asid from rfl]
  cases s.ctxOfAsid asid with
  | none => rfl
  | some slot =>
    dsimp only
    rw [show (s.withTeams T).ctx slot = s.ctx slot from rfl]
    split
    · split <;> rfl
    · split <;> rfl

theorem State.sendStore_withTeams (s : State) (T : List Team) (asid core key va n : Nat) (op : RemoteOp) :
    ((s.withTeams T).voidLoads asid va n).sendAsk .engine core asid key va op =
      ((s.voidLoads asid va n).sendAsk .engine core asid key va op).withTeams T := rfl

theorem State.engineStore_withTeams (s : State) (T : List Team) (c : Ctx) (va : Nat) (ps : List (Nat × Nat)) (bs : List Byte) :
    (s.withTeams T).engineStore c va ps bs = (s.engineStore c va ps bs).withTeams T := by
  have hbytes (u : State) : (bs.zipIdx).foldl (fun (s : State) b => s.updateByte [] c.asid (va + b.2) b.1) (u.withTeams T) =
      ((bs.zipIdx).foldl (fun (s : State) b => s.updateByte [] c.asid (va + b.2) b.1) u).withTeams T :=
    List.foldl_hom (fun s : State => s.withTeams T) fun s b => State.updateByte_withTeams s T ..
  unfold State.engineStore
  rw [State.useRange_withTeams, State.partsWrite_withTeams]
  dsimp only
  rw [State.ownWords_withTeams, hbytes, State.noteTables_withTeams]
  generalize State.noteTables _ c.asid va bs.length = u
  rw [show (u.withTeams T).ctxOfAsid c.asid = u.ctxOfAsid c.asid from rfl]
  have hsend (v : State) : (ps.foldl (fun (r : State × Nat) p =>
      (if peerHome p.1 then
          (r.1.voidLoads c.asid (va + r.2) p.2).sendAsk .engine atomicOwner c.asid p.1 (va + r.2) (.store ((bs.drop r.2).take p.2))
        else r.1, r.2 + p.2)) (v.withTeams T, 0)).1 = (ps.foldl (fun (r : State × Nat) p =>
      (if peerHome p.1 then
          (r.1.voidLoads c.asid (va + r.2) p.2).sendAsk .engine atomicOwner c.asid p.1 (va + r.2) (.store ((bs.drop r.2).take p.2))
        else r.1, r.2 + p.2)) (v, 0)).1.withTeams T := by
    refine congrArg Prod.fst (List.foldl_hom (fun r : State × Nat => (r.1.withTeams T, r.2)) (init := (v, 0)) fun r p => ?_)
    dsimp only
    split <;> rfl
  split
  · cases u.ctxOfAsid c.asid with
    | none => exact hsend u
    | some slot => exact hsend (u.modCtx slot fun c => { c with hostStores := true })
  · exact hsend u

end Sys2Proof.Machine
end

section
/-! The dispatch words (R224 to R226). -/

namespace Sys2Proof.Claims

open Sys2Proof Sys2Proof.Machine

/- One theorem after another: side by side, their threads would fill the memory. -/
set_option Elab.async false

/-! ### A word's own read of its context's memory -/

theorem readCaches_clean {s : State} (h : s.codeErrs = []) (f : Finder) (core : Option Nat) (asid key va : Nat) :
    s.readCaches f core asid key va = s := by
  have hfind (k : Nat) : SMap.find s.codeErrs k = none := by rw [h]; rfl
  unfold State.readCaches
  cases core with
  | none => simp only [hfind]
  | some k => simp only [hfind]

theorem meetWalk_clean {s : State} (h : s.codeErrs = []) (f : Finder) (c : Ctx) (va : Nat) : s.meetWalk f c va = s :=
  List.foldl_fixed' (fun _ => State.readBlock_clean h ..) _

theorem meetLoads_clean {s : State} (h : s.codeErrs = []) (t : Team) (f : Finder) (acc : List (Nat × Nat × Nat)) :
    (s.meetLoads t f false acc).1 = s := by
  refine List.foldl_fixed' (fun a => ?_) acc
  dsimp only
  rw [readCaches_clean h, ite_self]
  split
  · rfl
  · exact State.readBlock_clean h ..

theorem settled_pend {s : State} (h : Settled s) : s.pend = [] := h.1.still

/-- Where nothing is on its way, a word's read of what its team can read comes to the bytes there. -/
theorem withLoad_reads {s : State} {t u : Team} {T : List Team} {a n p : Nat} (h : Settled s) (hr : reads s t n a p)
    (ht : (s.withTeams T).team? t.uid = some u) (hhome : u.home = t.home) (i : Instr) (d : RegNo) (gs : List Nat) (lead : Nat)
    (k : State → Nat → Res) :
    withLoad i d gs lead a n (s.withTeams T) t k = k ((s.useRange (s.ctxOf t) a n).withTeams T) p := by
  obtain ⟨⟨hcodes, -, hpend⟩, -, hlost⟩ := h
  obtain ⟨ps, key, l, hps, htr, rfl⟩ := hr
  have hcodes' : (s.withTeams T).codeErrs = [] := hcodes
  have hrange : (s.withTeams T).vaRange ((s.withTeams T).ctxOf t) .read a n = .ok ps := (State.vaRange_withTeams ..).trans hps
  have htrans : (s.withTeams T).translate ((s.withTeams T).ctxOf t) a .read = .ok key l := htr
  have hdrain : (s.withTeams T).drainOver t.uid key n = s.withTeams T := by
    unfold State.drainOver
    rw [show (s.withTeams T).pend = [] from hpend]
    rfl
  obtain ⟨x, y, z, hu⟩ := State.useRange_eq s (s.ctxOf t) a n
  have hfine (b : Nat) : ((s.withTeams T).useRange ((s.withTeams T).ctxOf t) a n).blockLost b = false := by
    rw [show (s.withTeams T).useRange ((s.withTeams T).ctxOf t) a n = (s.useRange (s.ctxOf t) a n).withTeams T from
      State.useRange_withTeams .., hu]
    exact hlost b
  unfold withLoad
  simp only [hrange, htrans, hdrain, meetWalk_clean hcodes', meetLoads_clean hcodes', ht]
  rw [List.find?_eq_none.mpr fun b _ => by rw [hfine]; decide]
  dsimp only
  rw [show (s.withTeams T).useRange ((s.withTeams T).ctxOf t) a n = (s.useRange (s.ctxOf t) a n).withTeams T from
    State.useRange_withTeams .., hu, hhome]
  rfl

/-- Where nothing is on its way, a release is complete as it begins. -/
theorem releaseThen_settled {s : State} {t : Team} (ht : s.team? t.uid = some t) (hs : Settled s) (h : releasesNow s t) :
    ∃ T n, (∀ hold k : State → Res, s.releaseThen t hold k = k (s.withTeams T)) ∧ (s.withTeams T).team? t.uid = some (releasing t n) := by
  obtain ⟨hquiet, hrev, -⟩ := hs
  have hrel : s.release t = s.modTeam t.uid fun u => { u with hostStores := false, relTag := s.nextId, relIssue := some t.issued } := by
    rw [State.release_eq h, settleWrites_eq hquiet.still hrev]
  have hteam : (s.release t).team? t.uid = some (releasing t s.nextId) := by
    rw [hrel]
    exact State.team?_modTeam _ (fun _ => rfl) ht
  have hreg : (s.release t).released t.uid = true := by
    obtain ⟨⟨-, -, -, -, -, -, hnone⟩, -⟩ := h
    rw [State.released, hteam, hrel]
    show (!(List.any s.remAsks _) && !(List.any s.revokes _)) = true
    rw [hrev, List.any_eq_false.mpr fun a ha => by simp [hnone a ha]]
    rfl
  exact ⟨(s.release t).teams, s.nextId, fun hold k => by rw [State.releaseThen, if_pos hreg, hrel]; rfl, by rw [hrel] at hteam ⊢; exact hteam⟩

/-- A packet that a word reads from its context's memory, with nothing on its way: its team alone changes (R226). -/
theorem withPacket_reads {s : State} {t : Team} {a p : Nat} (ht : s.team? t.uid = some t) (hs : Settled s) (h : releasesNow s t)
    (ha : a % 128 = 0) (hr : reads s t 128 a p) :
    ∃ T n, (∀ i d gs lead k, withPacket i d gs lead a (s.putTeam t) t k = k ((s.useRange (s.ctxOf t) a 128).withTeams T) p) ∧
      ((s.useRange (s.ctxOf t) a 128).withTeams T).team? t.uid = some (releasing t n) := by
  have hs' : Settled (s.putTeam t) := ⟨⟨hs.1.codes, hs.1.clean, hs.1.still⟩, hs.2⟩
  obtain ⟨T, n, hthen, hteam⟩ := releaseThen_settled (State.team?_putTeam ht) hs' h
  refine ⟨T, n, fun i d gs lead k => ?_, hteam⟩
  rw [withPacket, if_neg (not_not.mpr ha), hthen]
  exact withLoad_reads hs hr hteam rfl ..

theorem ctx_useRange (s : State) (c : Ctx) (va n slot : Nat) : (s.useRange c va n).ctx slot = s.ctx slot := by
  obtain ⟨x, y, z, h⟩ := State.useRange_eq s c va n
  rw [h]
  rfl

theorem byte_withTeams (s : State) (T : List Team) (k : Nat) : (s.withTeams T).byte k = s.byte k := rfl

theorem team?_withTeams (s u : State) (T : List Team) (uid : Nat) : (s.withTeams T).team? uid = (u.withTeams T).team? uid := rfl

theorem modCtx_withTeams (s : State) (T : List Team) (slot : Nat) (f : Ctx → Ctx) :
    (s.withTeams T).modCtx slot f = (s.modCtx slot f).withTeams T := rfl

theorem ctx_withTeams (s : State) (T : List Team) (slot : Nat) : (s.withTeams T).ctx slot = s.ctx slot := rfl

theorem byte_putQueue (s : State) (slot q : Nat) (x : Queue) (k : Nat) : (s.putQueue slot q x).byte k = s.byte k := rfl

theorem putQueue_withTeams (s : State) (T : List Team) (slot q : Nat) (x : Queue) :
    (s.withTeams T).putQueue slot q x = (s.putQueue slot q x).withTeams T := rfl

theorem byte_modCtx (s : State) (slot : Nat) (f : Ctx → Ctx) (k : Nat) : (s.modCtx slot f).byte k = s.byte k := rfl

/-! ### Words that answer a number -/

section
variable {s : State} {t u : Team} {i : Instr}

theorem answers_eq (hr : Runs s t i) (d : RegNo) (gs : List Nat) (v : Nat) :
    conclude t.uid i.length (.done ((s.putTeam t).answer t.uid d 1 gs v)) = s.putTeam (wrote1 t i d gs v) := by
  rw [State.answer, State.modTeam_putTeam _ _ _ (Team.sAll_uid ..)]
  exact conclude_done hr.team (Team.sAll_uid ..) (Team.sAll_stack ..) hr.fits

/-- A word that has changed the state and its team, and answers a number: past that its team alone changes. -/
theorem answer_concludes {x : State} (hr : Runs s t i) (hx : x.team? t.uid = some u) (hs : u.stack = t.stack) (d : RegNo) (gs : List Nat) (v : Nat) :
    ∃ T, conclude t.uid i.length (.done (x.answer t.uid d 1 gs v)) = x.withTeams T ∧
      (x.withTeams T).team? t.uid = some (wrote1 u i d gs v) := by
  have hanswer : (x.answer t.uid d 1 gs v).team? t.uid = some (u.sAll d.toNat gs (natWords 1 v)) :=
    State.team?_modTeam _ (fun _ => Team.sAll_uid ..) hx
  obtain ⟨he, ht⟩ := conclude_done_team hanswer ((Team.sAll_stack ..).trans hs) hr.fits
  exact ⟨((x.answer t.uid d 1 gs v).putTeam ((u.sAll d.toNat gs (natWords 1 v)).pass i.length)).teams, he, ht⟩

end

section
variable {s : State} {t : Team} {h : Hdr} {d a b : RegNo} {lead : Nat} {gs : List Nat}

theorem dpQstat_answers (hw : teamWord s t (.dpQstat h d b) h lead gs) :
    let q := leadVal t lead b 1
    let x := (s.ctxOf t).queue q
    exec (.dpQstat h d b) s = .next (s.putTeam (wrote1 t (.dpQstat h d b) d (lead :: gs)
      (if q ≥ 64 ∨ !x.valid then 0 else 2 ^ 31 + (x.slots - (x.tail - x.head))))) := by
  obtain ⟨hr, ha, hl⟩ := hw
  intro q x
  show execDpQstat h d b s = _
  rw [execDpQstat, teamOp_runs hr hl ha]
  exact congrArg _ (answers_eq hr ..)

theorem dpTdepth_answers (hw : teamWord s t (.dpTdepth h d) h lead gs) :
    exec (.dpTdepth h d) s = .next (s.putTeam (wrote1 t (.dpTdepth h d) d (lead :: gs) (s.ctxOf t).tdepth.toNat)) := by
  obtain ⟨hr, ha, hl⟩ := hw
  show execDpTdepth h d s = _
  rw [execDpTdepth, teamOp_runs hr hl ha]
  exact congrArg _ (answers_eq hr ..)

theorem dpTdrop_answers (hw : teamWord s t (.dpTdrop h d a) h lead gs) (ht : (s.ctxOf t).tape = none) :
    let n := min (leadVal t lead a 1) (s.ctxOf t).tdepth.toNat
    ∃ s', exec (.dpTdrop h d a) s = .next s' ∧ s'.team? t.uid = some (wrote1 t (.dpTdrop h d a) d (lead :: gs) n) ∧
      (s'.ctx t.ctx).tdepth.toNat = (s.ctxOf t).tdepth.toNat - n := by
  obtain ⟨hr, ha, hl⟩ := hw
  intro n
  let x := (s.putTeam t).modCtx t.ctx fun c => { c with tdepth := c.tdepth - BitVec.ofNat 64 n }
  obtain ⟨T, he, hteam⟩ := answer_concludes (x := x) hr (State.team?_putTeam hr.team) rfl d (lead :: gs) n
  refine ⟨x.withTeams T, ?_, hteam, ?_⟩
  · show execDpTdrop h d a s = _
    rw [execDpTdrop, teamOp_runs hr hl ha]
    dsimp only
    rw [if_neg (by rw [show (s.putTeam t).ctxOf t = s.ctxOf t from rfl, ht]; decide)]
    exact congrArg _ he
  · show (x.ctx t.ctx).tdepth.toNat = _
    rw [ctx_modCtx]
    have hn : n ≤ (s.ctxOf t).tdepth.toNat := Nat.min_le_right ..
    have hlt := (s.ctxOf t).tdepth.isLt
    show ((s.ctxOf t).tdepth - BitVec.ofNat 64 n).toNat = _
    rw [BitVec.toNat_sub_of_le (by rw [BitVec.le_def, BitVec.toNat_ofNat]; omega), BitVec.toNat_ofNat, Nat.mod_eq_of_lt (by omega)]

/-! ### The loss scale (R224) -/

theorem lskipWord_getLsbD_low (last pend : Bool) {skips clean : Nat} (hs : skips < 2 ^ 13) (hc : clean < 2 ^ 16) :
    (lskipWord last pend false skips clean).getLsbD 29 = false := by
  rw [BitVec.getLsbD, lskipWord_toNat _ _ _ hs hc, Nat.testBit_eq_decide_div_mod_eq]
  cases last <;> cases pend <;> simp <;> omega

/-- A step that closes leaves no error of the scale unless it is skipped at EMIN. -/
theorem closeStep_no_stop {c : Ctx}
    (h : c.lskip.getLsbD 30 = true → (c.lscfg.extractLsb' 8 8).toInt < ((c.lscale.toNat / 2 ^ 23 % 2 ^ 8 : Nat) : Int) - 127) :
    c.closeStep.lskip.getLsbD 29 = false := by
  have hskips : bits c.lskip.toNat 28 16 < 2 ^ 13 := Nat.mod_lt _ (by decide)
  have hn : bits c.lscfg.toNat 47 32 < 2 ^ 16 := Nat.mod_lt _ (by decide)
  cases hp : c.lskip.toNat.testBit 30 with
  | true =>
    have hlow : ¬ scaleExp c.lscale ≤ (c.lscfg.extractLsb' 8 8).toInt := not_le.mpr (h hp)
    rw [closeStep_skipped hp]
    dsimp only
    rw [decide_eq_false hlow]
    exact lskipWord_getLsbD_low _ _ (by omega) (by decide)
  | false =>
    rw [closeStep_clean hp]
    split
    · exact lskipWord_getLsbD_low _ _ hskips (by decide)
    · exact lskipWord_getLsbD_low _ _ hskips (by omega)

/-- A word that changes its context alone completes past itself. -/
theorem modCtx_concludes {i : Instr} (hr : Runs s t i) (f : Ctx → Ctx) :
    ∃ s', conclude t.uid i.length (.done ((s.putTeam t).modCtx t.ctx f)) = s' ∧ s'.team? t.uid = some (t.pass i.length) ∧
      s'.ctx t.ctx = f (s.ctxOf t) := by
  obtain ⟨he, hteam⟩ := conclude_done_team (s := (s.putTeam t).modCtx t.ctx f) (State.team?_putTeam hr.team) rfl hr.fits
  exact ⟨_, he, hteam, ctx_modCtx (s.putTeam t) t.ctx f⟩

theorem dpLsovf_completes (hw : teamWord s t (.dpLsovf h) h lead gs) :
    ∃ s', exec (.dpLsovf h) s = .next s' ∧ s'.team? t.uid = some (t.pass (Instr.length (.dpLsovf h))) ∧
      (s'.ctx t.ctx).lskip = (s.ctxOf t).lskip ||| 0x4000_0000 ∧ (s'.ctx t.ctx).lscale = (s.ctxOf t).lscale := by
  obtain ⟨hr, ha, hl⟩ := hw
  obtain ⟨s', he, hteam, hctx⟩ := modCtx_concludes hr fun c => { c with lskip := c.lskip ||| 0x4000_0000 }
  refine ⟨s', ?_, hteam, by rw [hctx], by rw [hctx]⟩
  show execDpLsovf h s = _
  rw [execDpLsovf, teamOp_runs hr hl ha]
  exact congrArg _ he

theorem dpLsstep_closes (hw : teamWord s t (.dpLsstep h) h lead gs) (hstop : (s.ctxOf t).closeStep.lskip.getLsbD 29 = false) :
    ∃ s', exec (.dpLsstep h) s = .next s' ∧ s'.team? t.uid = some (t.pass (Instr.length (.dpLsstep h))) ∧
      stepClosed (s.ctxOf t) (s'.ctx t.ctx) := by
  obtain ⟨hr, ha, hl⟩ := hw
  obtain ⟨s', he, hteam, hctx⟩ := modCtx_concludes hr Ctx.closeStep
  refine ⟨s', ?_, hteam, by rw [hctx]; exact closeStep_closes _⟩
  have hafter : (((s.putTeam t).modCtx t.ctx Ctx.closeStep).ctx t.ctx).lskip.getLsbD 29 = false := by
    rw [ctx_modCtx]
    exact hstop
  show execDpLsstep h s = _
  rw [execDpLsstep, teamOp_runs hr hl ha]
  dsimp only
  rw [if_neg (by rw [hafter]; decide)]
  exact congrArg _ he

/-! ### Words that write what they read (R226) -/

theorem dpTadd_pushes {p : Nat} {ps : List (Nat × Nat)} (hw : teamWord s t (.dpTadd h d a) h lead gs) (hs : Settled s) (hrel : releasesNow s t)
    (halign : leadVal t lead a 2 % 128 = 0) (hread : reads s t 128 (leadVal t lead a 2) p) (htape : (s.ctxOf t).tape = none)
    (hdepth : (s.ctxOf t).tdepth.toNat < 4096) :
    let c := s.ctxOf t
    let m := s.useRange c (leadVal t lead a 2) 128
    m.vaRange c .write (c.recordVa c.tdepth.toNat) 128 = .ok ps →
    ∃ s' n, exec (.dpTadd h d a) s = .next s' ∧
      s'.team? t.uid = some (wrote1 (releasing t n) (.dpTadd h d a) d (lead :: gs) (c.tdepth.toNat + 1)) ∧
      (s'.ctx t.ctx).tdepth = c.tdepth + 1 ∧ ∀ k, s'.byte k = (m.engineStore c (c.recordVa c.tdepth.toNat) ps (natLe 128 p)).byte k := by
  obtain ⟨hr, ha, hl⟩ := hw
  intro c m hps
  let g := m.engineStore c (c.recordVa c.tdepth.toNat) ps (natLe 128 p)
  let x := g.modCtx t.ctx fun c => { c with tdepth := c.tdepth + 1 }
  have hmctx : m.ctx t.ctx = c := ctx_useRange ..
  have hg : (g.ctx t.ctx).tdepth = c.tdepth :=
    (congrArg (fun c => c.1.tdepth) (State.ctx_unlogged (State.engineStore_unlogged ..) t.ctx)).trans (congrArg Ctx.tdepth hmctx)
  obtain ⟨T, n, hpacket, hteam⟩ := withPacket_reads hr.team hs hrel halign hread
  obtain ⟨T', he, hdone⟩ := answer_concludes (x := x.withTeams T) hr ((team?_withTeams x m T t.uid).trans hteam) rfl d (lead :: gs) (c.tdepth.toNat + 1)
  refine ⟨_, n, ?_, hdone, ?_, fun k => by rw [byte_withTeams, byte_withTeams, byte_modCtx]⟩
  · show execDpTadd h d a s = _
    rw [execDpTadd, teamOp_runs hr hl ha]
    refine congrArg _ ((congrArg (conclude t.uid _) ((hpacket ..).trans ?_)).trans he)
    have hc : (m.withTeams T).ctxOf t = c := hmctx
    show (if ((m.withTeams T).ctxOf t).tape.isSome = true ∨ ((m.withTeams T).ctxOf t).depth ≥ 4096 then _ else _) = _
    rw [hc, if_neg (by rw [show c.tape = none from htape, Ctx.depth]; simp; exact hdepth),
      show (m.withTeams T).vaRange c .write (c.recordVa c.depth) 128 = .ok ps from (State.vaRange_withTeams ..).trans hps]
    dsimp only
    rw [State.engineStore_withTeams, modCtx_withTeams]
    rfl
  · rw [ctx_withTeams, ctx_withTeams, ctx_modCtx, hg]

/-- The queue's slot takes the packet and its tail word moves on; what the stores note in the queue may change too. -/
theorem dpLaunch_launches {p : Nat} {ps qs : List (Nat × Nat)} (hw : teamWord s t (.dpLaunch h d a b) h lead gs) (hs : Settled s)
    (hrel : releasesNow s t) (hq : leadVal t lead b 1 < 64) (halign : leadVal t lead a 2 % 128 = 0)
    (hread : reads s t 128 (leadVal t lead a 2) p) :
    let c := s.ctxOf t
    let x := c.queue (leadVal t lead b 1)
    let m := s.useRange c (leadVal t lead a 2) 128
    x.valid = true → x.dl = true → x.tail - x.head < x.slots → m.vaRange c .write (x.slotVa x.tail) 128 = .ok ps →
    let g := m.engineStore c (x.slotVa x.tail) ps (natLe 128 p)
    g.vaRange c .write (x.word 2) 8 = .ok qs →
    ∃ s' n z u, exec (.dpLaunch h d a b) s = .next s' ∧
      s'.team? t.uid = some (wrote1 (releasing t n) (.dpLaunch h d a b) d (lead :: gs) (x.tail % 2 ^ 32)) ∧
      keeps s' t.ctx (leadVal t lead b 1)
        { x with tail := x.tail + 1, parents := SMap.put x.parents x.tail t.gid, rewritten := z, told := u } ∧
      ∀ k, s'.byte k = (g.engineStore c (x.word 2) qs (natLe 8 (x.tail + 1))).byte k := by
  obtain ⟨hr, ha, hl⟩ := hw
  intro c x m hv hd hroom hps g hqs
  let f := g.engineStore c (x.word 2) qs (natLe 8 (x.tail + 1))
  let y := (f.ctx t.ctx).queue (leadVal t lead b 1)
  let w := f.putQueue t.ctx (leadVal t lead b 1) { y with tail := x.tail + 1, parents := SMap.put y.parents x.tail t.gid }
  have hmctx : m.ctx t.ctx = c := ctx_useRange ..
  have hy : y.unnoted = x.unnoted :=
    (queue_unnoted ((State.engineStore_unlogged ..).trans (State.engineStore_unlogged ..)) t.ctx (leadVal t lead b 1)).trans (by rw [hmctx])
  obtain ⟨T, n, hpacket, hteam⟩ := withPacket_reads hr.team hs hrel halign hread
  obtain ⟨T', he, hdone⟩ := answer_concludes (x := w.withTeams T) hr ((team?_withTeams w m T t.uid).trans hteam) rfl d (lead :: gs) (x.tail % 2 ^ 32)
  refine ⟨_, n, y.rewritten, y.told, ?_, hdone, ?_, fun k => by rw [byte_withTeams, byte_withTeams, byte_putQueue]⟩
  · show execDpLaunch h d a b s = _
    rw [execDpLaunch, teamOp_runs hr hl ha]
    refine congrArg _ (.trans (congrArg (conclude t.uid _) ?_) he)
    rw [show (t.groupSrcs [(a, 2), (b, 1)] lead).map wordsNat = [leadVal t lead a 2, leadVal t lead b 1] from rfl]
    simp only [List.headD_cons, List.getElem?_cons_succ, List.getElem?_cons_zero, Option.getD_some]
    rw [show ((s.putTeam t).ctxOf t).queue (leadVal t lead b 1) = x from rfl, if_neg (by simp [hv, hd, hq]), hpacket]
    have hc : (m.withTeams T).ctxOf t = c := hmctx
    rw [if_neg (not_le.mpr hroom), hc,
      show (m.withTeams T).vaRange c .write (x.slotVa x.tail) 128 = .ok ps from (State.vaRange_withTeams ..).trans hps]
    dsimp only
    rw [State.engineStore_withTeams,
      show (g.withTeams T).vaRange c .write (x.word 2) 8 = .ok qs from (State.vaRange_withTeams ..).trans hqs]
    dsimp only
    rw [State.engineStore_withTeams, putQueue_withTeams, ctx_withTeams]
  · rw [keeps, ctx_withTeams, ctx_withTeams, queue_putQueue, eq_of_unnoted hy]

end

/-- Settles O40, word by word: what each comes to by the lemmas above. -/
theorem dispatchWordsComplete : Obligations.DispatchWordsComplete := by
  unfold Obligations.DispatchWordsComplete
  intro s t h d a b lead gs c va q x answers m
  refine ⟨fun p ps qs hw hs hrel hq hv hd halign hread hroom hps => dpLaunch_launches hw hs hrel hq halign hread hv hd hroom hps,
    fun hw => ⟨fun hx => ?_, fun hq hv => ?_⟩,
    fun p ps hw hs hrel halign hread htape hdepth hps => dpTadd_pushes hw hs hrel halign hread htape hdepth hps,
    dpTdrop_answers, dpTdepth_answers, dpLsovf_completes, fun hw hlow => dpLsstep_closes hw (closeStep_no_stop hlow)⟩
  · have hans := dpQstat_answers hw
    dsimp only at hans
    rwa [if_pos (show q ≥ 64 ∨ (!x.valid) = true by simpa using hx)] at hans
  · have hans := dpQstat_answers hw
    dsimp only at hans
    rwa [if_neg (show ¬ (q ≥ 64 ∨ (!x.valid) = true) by simp [hv, hq])] at hans

end Sys2Proof.Claims
end

section
/-! Fields of registers, and the writes of the package's owner (R437, R440). -/

namespace Sys2Proof.Machine

open Sys2Proof

/- One theorem after another: side by side, their threads would fill the memory. -/
set_option Elab.async false

/-! ### Fields -/

theorem testBit_withBits {hi lo : Nat} (h : lo ≤ hi) (x v j : Nat) :
    (withBits x hi lo v).testBit j = if lo ≤ j ∧ j ≤ hi then v.testBit (j - lo) else x.testBit j := by
  rw [withBits, bits, testBit_replaced]
  congr 1
  exact propext (by omega)

theorem testBit_bits (x hi lo j : Nat) : (bits x hi lo).testBit j = (decide (j < hi + 1 - lo) && x.testBit (j + lo)) := by
  rw [bits, Nat.testBit_mod_two_pow, Nat.testBit_div_two_pow]

/-- A field that has been replaced. -/
theorem bits_withBits {hi lo : Nat} (h : lo ≤ hi) (x v : Nat) : bits (withBits x hi lo v) hi lo = v % 2 ^ (hi + 1 - lo) := by
  refine Nat.eq_of_testBit_eq fun j => ?_
  rw [testBit_bits, testBit_withBits h, Nat.testBit_mod_two_pow]
  by_cases hj : j < hi + 1 - lo
  · rw [if_pos (by omega), Nat.add_sub_cancel]
  · simp [hj]

/-- The fields beside one that has been replaced. -/
theorem bits_withBits_of_disjoint {hi lo hi' lo' : Nat} (h : lo ≤ hi) (hd : hi < lo' ∨ hi' < lo) (x v : Nat) :
    bits (withBits x hi lo v) hi' lo' = bits x hi' lo' := by
  refine Nat.eq_of_testBit_eq fun j => ?_
  rw [testBit_bits, testBit_bits, testBit_withBits h]
  by_cases hj : j < hi' + 1 - lo'
  · rw [if_neg (by omega)]
  · simp [hj]

theorem withBits_lt {hi lo n x : Nat} (h : lo ≤ hi) (hn : hi < n) (hx : x < 2 ^ n) (v : Nat) : withBits x hi lo v < 2 ^ n := by
  refine Nat.lt_pow_two_of_testBit _ fun j hj => ?_
  rw [testBit_withBits h, if_neg (by omega)]
  exact Nat.testBit_lt_two_pow (hx.trans_le (Nat.pow_le_pow_right (by decide) hj))

/-- A register written as a number reads back as it. -/
theorem toNat_ofNat_withBits {hi lo x : Nat} (h : lo ≤ hi) (hn : hi < 64) (hx : x < 2 ^ 64) (v : Nat) :
    (BitVec.ofNat 64 (withBits x hi lo v)).toNat = withBits x hi lo v := by
  rw [BitVec.toNat_ofNat, Nat.mod_eq_of_lt (withBits_lt h hn hx v)]

/-! ### Writes of the owner (R437, R440) -/

/-- The owner's write is performed, once it is heard on its bus. -/
theorem ownerWrite_runs {s : State} {master : Nat} (h : Claims.ownedBy s master) (k : State → State) :
    s.ownerWrite master k = k (s.heard master) := if_pos h

/-- What the part notes of a master that it hears. -/
theorem State.heard_eq (s : State) (master : Nat) : ∃ x, s.heard master = { s with pkg := { s.pkg with ownerDownSince := x } } := by
  unfold State.heard
  split
  · exact ⟨_, rfl⟩
  · exact ⟨s.pkg.ownerDownSince, rfl⟩

end Sys2Proof.Machine
end

section
/-! What teams keep of where they are while engine work ends, and what removes a context (R230, R328, R379, R443). -/

namespace Sys2Proof.Machine

open Sys2Proof

/- One theorem after another: side by side, their threads would fill the memory. -/
set_option Elab.async false

/-- What names a team and says whose it is and where it is. -/
def Team.stand (t : Team) : Nat × Nat × Residence := (t.uid, t.ctx, t.res)

/-- Where the teams stand, and the package but for the vectors signalled. -/
def State.standing (s : State) : List (Nat × Nat × Residence) × Pkg := (s.teams.map Team.stand, { s.pkg with msix := [] })

theorem State.standing_of_unlogged {s u : State} (h : s.unlogged = u.unlogged) : s.standing = u.standing := by
  have hteams : s.teams = u.teams := congrArg Unlogged.teams h
  have hpkg : ({ s.pkg with msix := [] } : Pkg) = { u.pkg with msix := [] } := congrArg Unlogged.pkg h
  rw [State.standing, State.standing, hteams, hpkg]

theorem State.modTeam_standing (s : State) (uid : Nat) {f : Team → Team} (hf : ∀ t, (f t).stand = t.stand) :
    (s.modTeam uid f).standing = s.standing := by
  have hteams : (replaceWhere (fun t : Team => t.uid == uid) f s.teams).map Team.stand = s.teams.map Team.stand := by
    rw [replaceWhere, List.map_map]
    refine List.map_congr_left fun t _ => ?_
    dsimp only [Function.comp]
    split
    · exact hf t
    · rfl
  exact congrArg (fun l => (l, { s.pkg with msix := [] })) hteams

theorem Team.finishSlot_stand (t : Team) (n : Nat) (st : HStatus) : (t.finishSlot n st).stand = t.stand := by
  unfold Team.finishSlot
  split <;> rfl

theorem State.finish_standing (s : State) (h : HRef) (st : HStatus) (fault : Option Cause) : (s.finish h st fault).standing = s.standing := by
  refine State.modTeam_standing s _ fun t => ?_
  cases fault with
  | none => exact Team.finishSlot_stand ..
  | some c => exact Team.finishSlot_stand ..

theorem State.endSa_standing (s : State) (v : Nat) (q : SaCmd) (st : HStatus) (f : Option Cause) : (s.endSa v q st f).standing = s.standing :=
  State.finish_standing ..

theorem State.endEntry_standing (s : State) (v : Nat) (e : MxEntry) (st : HStatus) : (s.endEntry v e st).standing = s.standing :=
  State.finish_standing ..

theorem State.cancelQueued_standing (s : State) (slot : Nat) : (s.cancelQueued slot).standing = s.standing := by
  refine foldl_keeps State.standing (fun s kc => ?_) _ s
  dsimp only
  exact (foldl_keeps State.standing (fun s e => State.endEntry_standing ..) _ _).trans
    (foldl_keeps State.standing (fun s q => State.endSa_standing ..) _ _)

theorem State.cancelCopy_standing (s : State) (v id : Nat) : (s.cancelCopy v id).standing = s.standing := by
  unfold State.cancelCopy
  split
  · rfl
  · exact State.finish_standing ..

theorem State.cancelTag_standing (s : State) (id : Nat) : (s.cancelTag id).standing = s.standing := rfl

theorem State.sendPort_standing (s : State) (m : OutMsg) : (s.sendPort m).standing = s.standing :=
  State.standing_of_unlogged (State.sendPort_unlogged s m)

theorem State.clSend_standing (s : State) (p : ClProg) (r : Nat) (kind : ClMsgKind) (chunk k : Nat) (data : List Byte) :
    (s.clSend p r kind chunk k data).standing = s.standing := by
  unfold State.clSend
  split
  · exact State.sendPort_standing ..
  · rfl

theorem State.clStop_standing (s : State) (p : ClProg) (st : HStatus) (c : Option Cause) : (s.clStop p st c).standing = s.standing := by
  unfold State.clStop
  extract_lets u
  have hu : u.standing = s.standing := foldl_keeps State.standing (fun s r => State.clSend_standing ..) _ s
  exact (State.finish_standing ..).trans hu

theorem State.logCancel_standing (s : State) (slot uid gid : Nat) : (s.logCancel slot uid gid).standing = s.standing :=
  State.standing_of_unlogged (State.fileLog_unlogged ..)

/-! ### Teams that leave -/

theorem State.cancelRendezvous_standing (s : State) (k slot : Nat) : (s.cancelRendezvous k slot).standing = s.standing := by
  unfold State.cancelRendezvous
  split
  · rfl
  · next g _ =>
    refine (foldl_keeps State.standing (fun s u => State.modTeam_standing s u fun t => ?_) _ _).trans rfl
    dsimp only
    split <;> split <;> rfl

theorem State.leaveGang_standing (s : State) (uid : Nat) : (s.leaveGang uid).standing = s.standing := by
  unfold State.leaveGang
  split
  · rfl
  · split
    · rfl
    · extract_lets k slot u
      exact (State.modTeam_standing _ uid (f := fun t => { t with mxgang := 0, mxwin := 0, stopReq := none }) fun _ => rfl).trans
        (State.cancelRendezvous_standing s k slot)

theorem State.passReservation_standing (s : State) (t : Team) : (s.passReservation t).standing = s.standing := by
  unfold State.passReservation Team.cores
  cases t.pair <;> rfl

/-- A team that leaves is gone, and the others stand as they stood. -/
theorem State.dropTeam_standing (s : State) (uid : Nat) :
    (s.dropTeam uid).standing = (s.standing.1.filter fun e => e.1 != uid, s.standing.2) := by
  unfold State.dropTeam
  split
  · next h =>
    have hall : ∀ e ∈ s.teams.map Team.stand, (e.1 != uid) = true := by
      intro e he
      obtain ⟨t, ht, rfl⟩ := List.mem_map.mp he
      simpa [Team.stand] using List.find?_eq_none.mp h t ht
    exact congrArg (fun l => (l, s.standing.2)) (List.filter_eq_self.mpr hall).symm
  · next t _ =>
    extract_lets s1 s2
    have h1 : s1.standing = s.standing := (State.passReservation_standing _ t).trans (State.leaveGang_standing s uid)
    have h2 : s2.standing = s.standing := by
      rw [← h1]
      unfold s2
      split <;> rfl
    rw [← h2]
    have hleft : (s2.teams.filter fun u => u.uid != uid).map Team.stand = (s2.teams.map Team.stand).filter fun e => e.1 != uid := by
      rw [List.filter_map]
      rfl
    exact congrArg (fun l => (l, s2.standing.2)) hleft

/-- Teams that leave one after another are gone. -/
theorem State.dropTeams_standing : ∀ (uids : List Nat) (s : State),
    (uids.foldl State.dropTeam s).standing = (s.standing.1.filter fun e => !uids.contains e.1, s.standing.2)
  | [], s => by
    refine congrArg (fun l => (l, s.standing.2)) (List.filter_eq_self.mpr fun _ _ => rfl).symm
  | uid :: uids, s => by
    rw [List.foldl_cons, State.dropTeams_standing uids, State.dropTeam_standing, List.filter_filter]
    refine congrArg (fun l => (l, s.standing.2)) (List.filter_congr fun e _ => ?_)
    rw [List.contains_cons, Bool.not_or, Bool.and_comm]
    rfl

theorem State.standing_aside (s : State) (g : Governor) (l : List CodeLoad) : ({ s with gov := g, loads := l } : State).standing = s.standing := rfl

/-- A destroy that begins ends the context's teams, and the slot is dying (R443). -/
theorem State.startDestroy_ends {s : State} {slot : Nat} (h : slot ∉ s.pkg.dying) :
    slot ∈ (s.startDestroy slot).pkg.dying ∧ ∀ t ∈ (s.startDestroy slot).teams, t.ctx ≠ slot := by
  have hstand : (s.startDestroy slot).standing =
      (((s.teams.map Team.stand).filter fun e => !((s.teams.filter fun t => t.ctx == slot).map fun t => t.uid).contains e.1),
        { s.pkg with dying := s.pkg.dying ++ [slot], msix := [] }) := by
    unfold State.startDestroy
    rw [if_neg (by simpa using h)]
    extract_lets pkg s1 s2 s3 qs s4 s5
    have h2 : s2.standing = _ := State.dropTeams_standing _ s1
    have h3 : s3.standing = s2.standing := State.cancelQueued_standing ..
    have h4 : s4.standing = s3.standing :=
      foldl_keeps State.standing (fun s x => (State.cancelTag_standing ..).trans (State.cancelCopy_standing ..)) _ _
    have h5 : s5.standing = s4.standing := foldl_keeps State.standing (fun s p => State.clStop_standing ..) _ _
    refine (State.standing_aside s5 _ _).trans ?_
    rw [h5, h4, h3, h2]
    rfl
  have hteams : (s.startDestroy slot).teams.map Team.stand = _ := congrArg Prod.fst hstand
  have hdying : (s.startDestroy slot).pkg.dying = s.pkg.dying ++ [slot] := congrArg (fun z => z.2.dying) hstand
  refine ⟨by rw [hdying]; simp, fun t ht hctx => ?_⟩
  have hmem : t.stand ∈ (s.startDestroy slot).teams.map Team.stand := List.mem_map_of_mem ht
  rw [hteams] at hmem
  obtain ⟨hin, hout⟩ := List.mem_filter.mp hmem
  obtain ⟨u, hu, hstandu⟩ := List.mem_map.mp hin
  obtain ⟨huid, huctx, -⟩ : u.uid = t.uid ∧ u.ctx = t.ctx ∧ u.res = t.res := by simpa [Team.stand] using hstandu
  have huids : t.uid ∈ (s.teams.filter fun t => t.ctx == slot).map fun t => t.uid :=
    List.mem_map.mpr ⟨u, List.mem_filter.mpr ⟨hu, by simp [huctx, hctx]⟩, huid⟩
  simp [Team.stand] at hout huids
  obtain ⟨u, ⟨hmem, hctxu⟩, huid⟩ := huids
  exact hout u hmem hctxu huid

/-! ### A context's drain for a save, and its removal (R230) -/

/-- A save begins with the context's teams on their way out. -/
def Team.draining (slot : Nat) (t : Team) : Team :=
  if t.ctx == slot && (t.res == .resident || t.res == .starting) then { t with res := .draining } else t

theorem State.ackAll_unlogged (s : State) : s.ackAll.unlogged = s.unlogged := by
  unfold State.ackAll
  extract_lets u
  exact foldl_keeps State.unlogged (fun s r => by unfold State.ackRevoke; split <;> rfl) _ s

theorem State.ackAll_pend (s : State) : s.ackAll.pend = s.pend := by
  unfold State.ackAll
  extract_lets u
  exact foldl_keeps State.pend (fun s r => by unfold State.ackRevoke; split <;> rfl) _ s

theorem State.drain_eq {s : State} (h : s.pend = []) (p : PWrite → Bool) : s.drain p = s := by
  unfold State.drain
  rw [h]
  cases s
  simp only at h
  subst h
  rfl

end Sys2Proof.Machine
end

section
/-! The commands of a context's slot, and the events that end them (R230, R443). -/

namespace Sys2Proof.Claims

open Sys2Proof Sys2Proof.Machine

/- One theorem after another: side by side, their threads would fill the memory. -/
set_option Elab.async false

/-! ### `CTXCTL` -/

theorem ctl_lt (s : State) (slot : Nat) : s.ctl slot < 2 ^ 64 := BitVec.isLt _

theorem ctlV_eq (s : State) (slot : Nat) : ctlV s slot = bits (s.ctl slot) 63 63 := by
  have := ctl_lt s slot
  simp only [ctlV, bits]
  omega

theorem ctl_setCtl (s : State) (slot : Nat) {v : Nat} (h : v < 2 ^ 64) : (s.setCtl slot v).ctl slot = v := by
  rw [State.ctl, State.setCtl, SMap.get_set, if_pos rfl, BitVec.toNat_ofNat, Nat.mod_eq_of_lt h]

theorem bit_eq_bits (x n : Nat) : bit x n = decide (bits x n n = 1) := by
  rw [bit, bits, Nat.testBit_eq_decide_div_mod_eq, Nat.add_sub_cancel_left, pow_one]

section
variable {s : State} {slot v : Nat}

/-- A command for a slot that runs takes the window with it. -/
theorem writeCtl_running (h : runsCtx s slot) (hv : bit v 63 = true) :
    s.writeCtl slot v = (s.setCtl slot (withBits (s.ctl slot) 5 0 (bits v 5 0))).ctxCommand slot (bits v 62 60) := by
  obtain ⟨hslot, hV, hst, hdying⟩ := h
  have hold : bit (s.ctl slot) 63 = true := by
    rw [bit_eq_bits, ← ctlV_eq, hV]
    rfl
  have hst' : bits (s.ctl slot) 59 57 = 1 := hst
  unfold State.writeCtl State.ctxFields
  simp only [hst', hold, hv, if_true]
  rw [if_neg (by omega), if_neg (by simp [hdying])]

/-- A command for a slot with no context takes the window and the ASID with it. -/
theorem writeCtl_free (hslot : slot < 64) (hV : ctlV s slot = 0) (hst : ctlSt s slot = 0) (hdying : slot ∉ s.pkg.dying) (hv : bit v 63 = false) :
    s.writeCtl slot v = (s.setCtl slot (withBits (withBits (s.ctl slot) 5 0 (bits v 5 0)) 31 20 (bits v 31 20))).ctxCommand slot (bits v 62 60) := by
  have hold : bit (s.ctl slot) 63 = false := by
    rw [bit_eq_bits, ← ctlV_eq, hV]
    rfl
  have hst' : bits (s.ctl slot) 59 57 = 0 := hst
  unfold State.writeCtl State.ctxFields
  simp only [hst', hold, hv]
  rw [if_neg (by omega), if_neg (by simp [hdying])]
  rfl

/-- A save or a restore whose image window is enabled is taken. -/
theorem ctxCommand_taken {cmd : Nat} (hcmd : cmd = 1 ∧ ctlSt s slot = 1 ∨ cmd = 2) (hw : windowOn s (bits (s.ctl slot) 5 0)) :
    ctlSt (s.ctxCommand slot cmd) slot = (if cmd = 1 then 2 else 4) ∧ ctlErr (s.ctxCommand slot cmd) slot = 0 := by
  obtain ⟨hlt, hon⟩ := hw
  have hon' : bit (SMap.get 0 s.pkg.win (bits (s.ctl slot) 5 0)).toNat 63 = true := hon
  have htaken : s.ctxCommand slot cmd = ({ s with pkg := { s.pkg with img := SMap.put s.pkg.img slot (s.imagePlace (bits (s.ctl slot) 5 0)) } } :
      State).setCtl slot (withBits (withBits (s.ctl slot) 56 56 0) 59 57 (if cmd = 1 then 2 else 4)) := by
    unfold State.ctxCommand
    simp only [hon']
    rw [if_neg (by omega), if_neg (by omega), if_neg (by simp; omega), if_neg]
    · rfl
    · exact fun h => hcmd.elim (fun h1 => h.2 h1.2) (fun h2 => by omega)
  have hctl : (s.ctxCommand slot cmd).ctl slot = withBits (withBits (s.ctl slot) 56 56 0) 59 57 (if cmd = 1 then 2 else 4) := by
    rw [htaken, ctl_setCtl]
    exact withBits_lt (by decide) (by decide) (withBits_lt (by decide) (by decide) (ctl_lt s slot) _) _
  refine ⟨?_, ?_⟩
  · show bits ((s.ctxCommand slot cmd).ctl slot) 59 57 = _
    rw [hctl, bits_withBits (by decide)]
    split <;> rfl
  · show bits ((s.ctxCommand slot cmd).ctl slot) 56 56 = _
    rw [hctl, bits_withBits_of_disjoint (by decide) (by decide), bits_withBits (by decide)]
    rfl

/-- A save or a restore whose image window is no enabled window is refused. -/
theorem ctxCommand_refused {cmd : Nat} (hcmd : cmd = 1 ∨ cmd = 2) (hw : ¬ windowOn s (bits (s.ctl slot) 5 0)) :
    ctlSt (s.ctxCommand slot cmd) slot = ctlSt s slot ∧ ctlErr (s.ctxCommand slot cmd) slot = 1 := by
  have hoff : bits (s.ctl slot) 5 0 > 15 ∨ (!bit (SMap.get 0 s.pkg.win (bits (s.ctl slot) 5 0)).toNat 63) = true := by
    by_cases hlt : bits (s.ctl slot) 5 0 < 16
    · refine .inr ?_
      cases hon : bit (SMap.get 0 s.pkg.win (bits (s.ctl slot) 5 0)).toNat 63 with
      | true => exact absurd ⟨hlt, hon⟩ hw
      | false => rfl
    · exact .inl (by omega)
  have hrefused : s.ctxCommand slot cmd = s.setCtl slot (withBits (s.ctl slot) 56 56 1) := by
    unfold State.ctxCommand
    dsimp only
    rw [if_neg (by omega), if_neg (by omega), if_pos hoff]
  have hctl : (s.ctxCommand slot cmd).ctl slot = withBits (s.ctl slot) 56 56 1 := by
    rw [hrefused, ctl_setCtl]
    exact withBits_lt (by decide) (by decide) (ctl_lt s slot) _
  refine ⟨?_, ?_⟩
  · show bits ((s.ctxCommand slot cmd).ctl slot) 59 57 = bits (s.ctl slot) 59 57
    rw [hctl, bits_withBits_of_disjoint (by decide) (by decide)]
  · show bits ((s.ctxCommand slot cmd).ctl slot) 56 56 = _
    rw [hctl, bits_withBits (by decide)]
    rfl

theorem windowOn_setCtl (w : Nat) : windowOn (s.setCtl slot v) w = windowOn s w := rfl

end

/-! ### Commands of the owner -/

section
variable {s : State} {slot : Nat} {v : DWord}

/-- The fields of the word that a command of a kind writes. -/
theorem command_fields (v : DWord) {cmd : Nat} (h : cmd < 8) : bits (withBits v.toNat 62 60 cmd) 62 60 = cmd ∧
    bits (withBits v.toNat 62 60 cmd) 5 0 = v.toNat % 2 ^ 6 ∧ bit (withBits v.toNat 62 60 cmd) 63 = v.getLsbD 63 := by
  refine ⟨(bits_withBits (by decide) ..).trans (Nat.mod_eq_of_lt h), ?_, ?_⟩
  · rw [bits_withBits_of_disjoint (by decide) (by decide), bits, pow_zero, Nat.div_one]
  · rw [bit, testBit_withBits (by decide), if_neg (by decide)]
    rfl

/-- The slot's window and state as a running context's command finds them. -/
theorem ctl_windowed (s : State) (slot : Nat) {x : Nat} (h : x < 2 ^ 6) :
    bits ((s.setCtl slot (withBits (s.ctl slot) 5 0 x)).ctl slot) 5 0 = x ∧
      ctlSt (s.setCtl slot (withBits (s.ctl slot) 5 0 x)) slot = ctlSt s slot := by
  have hctl : (s.setCtl slot (withBits (s.ctl slot) 5 0 x)).ctl slot = withBits (s.ctl slot) 5 0 x :=
    ctl_setCtl _ _ (withBits_lt (by decide) (by decide) (ctl_lt s slot) _)
  refine ⟨by rw [hctl, bits_withBits (by decide)]; exact Nat.mod_eq_of_lt h, ?_⟩
  show bits ((s.setCtl slot (withBits (s.ctl slot) 5 0 x)).ctl slot) 59 57 = bits (s.ctl slot) 59 57
  rw [hctl, bits_withBits_of_disjoint (by decide) (by decide)]

/-- A command of the owner for a running context, once the slot has taken its window. -/
theorem writeCtl_command (h : runsCtx s slot) (hv : v.getLsbD 63 = true) {cmd : Nat} (hcmd : cmd < 8) :
    s.writeCtl slot (withBits v.toNat 62 60 cmd) = (s.setCtl slot (withBits (s.ctl slot) 5 0 (v.toNat % 2 ^ 6))).ctxCommand slot cmd := by
  obtain ⟨hkind, hw, hbit⟩ := command_fields v hcmd
  rw [writeCtl_running h (hbit.trans hv), hkind, hw]

/-- A save of a running context is taken where its window is enabled, and refused where it is not. -/
theorem writeCtl_save (h : runsCtx s slot) (hv : v.getLsbD 63 = true) :
    (windowOn s (v.toNat % 2 ^ 6) →
      ctlSt (s.writeCtl slot (withBits v.toNat 62 60 1)) slot = 2 ∧ ctlErr (s.writeCtl slot (withBits v.toNat 62 60 1)) slot = 0) ∧
    (¬ windowOn s (v.toNat % 2 ^ 6) →
      ctlSt (s.writeCtl slot (withBits v.toNat 62 60 1)) slot = 1 ∧ ctlErr (s.writeCtl slot (withBits v.toNat 62 60 1)) slot = 1) := by
  obtain ⟨hwin, hst⟩ := ctl_windowed s slot (Nat.mod_lt v.toNat (y := 2 ^ 6) (by decide))
  obtain ⟨-, -, hst1, -⟩ := id h
  rw [writeCtl_command h hv (by decide)]
  generalize hu : s.setCtl slot (withBits (s.ctl slot) 5 0 (v.toNat % 2 ^ 6)) = u at hwin hst ⊢
  have hsame : windowOn u (bits (u.ctl slot) 5 0) ↔ windowOn s (v.toNat % 2 ^ 6) := by
    rw [hwin, ← hu, windowOn_setCtl]
  refine ⟨fun hon => ctxCommand_taken (.inl ⟨rfl, hst.trans hst1⟩) (hsame.mpr hon), fun hoff => ?_⟩
  obtain ⟨hkept, herr⟩ := ctxCommand_refused (cmd := 1) (.inl rfl) (mt hsame.mp hoff)
  exact ⟨hkept.trans (hst.trans hst1), herr⟩

theorem ctxCommand_destroys (s : State) (slot : Nat) : s.ctxCommand slot 3 = s.startDestroy slot := by
  unfold State.ctxCommand
  exact if_pos rfl

theorem writeCtl_destroy (h : runsCtx s slot) (hv : v.getLsbD 63 = true) :
    slot ∈ (s.writeCtl slot (withBits v.toNat 62 60 3)).pkg.dying ∧ ∀ t ∈ (s.writeCtl slot (withBits v.toNat 62 60 3)).teams, t.ctx ≠ slot := by
  obtain ⟨-, -, -, hdying⟩ := id h
  rw [writeCtl_command h hv (by decide), ctxCommand_destroys]
  exact State.startDestroy_ends (s := s.setCtl slot _) hdying

theorem writeCtl_restore (hslot : slot < 64) (hV : ctlV s slot = 0) (hst : ctlSt s slot = 0) (hdying : slot ∉ s.pkg.dying)
    (hv : v.getLsbD 63 = false) (hon : windowOn s (v.toNat % 2 ^ 6)) :
    ctlSt (s.writeCtl slot (withBits v.toNat 62 60 2)) slot = 4 ∧ ctlErr (s.writeCtl slot (withBits v.toNat 62 60 2)) slot = 0 := by
  obtain ⟨hkind, hw, hbit⟩ := command_fields v (cmd := 2) (by decide)
  rw [writeCtl_free hslot hV hst hdying (hbit.trans hv), hkind, hw]
  refine ctxCommand_taken (.inr rfl) ?_
  rw [ctl_setCtl _ _ (withBits_lt (by decide) (by decide) (withBits_lt (by decide) (by decide) (ctl_lt s slot) _) _),
    bits_withBits_of_disjoint (hi := 31) (lo := 20) (hi' := 5) (lo' := 0) (by decide) (by decide), bits_withBits (by decide), windowOn_setCtl]
  rw [show v.toNat % 2 ^ 6 % 2 ^ (5 + 1 - 0) = v.toNat % 2 ^ 6 from Nat.mod_mod ..]
  exact hon

/-- The owner's commands: a save, a destroy and a restore. -/
theorem commands_taken {master : Nat} (ho : ownedBy s master) :
    (runsCtx s slot → v.getLsbD 63 = true →
      (windowOn s (v.toNat % 2 ^ 6) → ∃ s', exec (.ctxSaveCmd master slot v) s = .next s' ∧ ctlSt s' slot = 2 ∧ ctlErr s' slot = 0) ∧
      (¬ windowOn s (v.toNat % 2 ^ 6) → ∃ s', exec (.ctxSaveCmd master slot v) s = .next s' ∧ ctlSt s' slot = 1 ∧ ctlErr s' slot = 1) ∧
      ∃ s', exec (.ctxDestroyCmd master slot v) s = .next s' ∧ slot ∈ s'.pkg.dying ∧ ∀ t ∈ s'.teams, t.ctx ≠ slot) ∧
    (slot < 64 → ctlV s slot = 0 → ctlSt s slot = 0 → slot ∉ s.pkg.dying → v.getLsbD 63 = false → windowOn s (v.toNat % 2 ^ 6) →
      ∃ s', exec (.ctxRestoreCmd master slot v) s = .next s' ∧ ctlSt s' slot = 4 ∧ ctlErr s' slot = 0) := by
  obtain ⟨x, hx⟩ := State.heard_eq s master
  let u : State := { s with pkg := { s.pkg with ownerDownSince := x } }
  have hrun (k : State → State) : s.ownerWrite master k = k u := by rw [ownerWrite_runs ho, hx]
  have hsave : exec (.ctxSaveCmd master slot v) s = .next (u.writeCtl slot (withBits v.toNat 62 60 1)) := congrArg _ (hrun _)
  have hdestroy : exec (.ctxDestroyCmd master slot v) s = .next (u.writeCtl slot (withBits v.toNat 62 60 3)) := congrArg _ (hrun _)
  have hrestore : exec (.ctxRestoreCmd master slot v) s = .next (u.writeCtl slot (withBits v.toNat 62 60 2)) := congrArg _ (hrun _)
  refine ⟨fun hr hv => ⟨fun hon => ⟨_, hsave, (writeCtl_save (s := u) hr hv).1 hon⟩, fun hoff => ⟨_, hsave, (writeCtl_save (s := u) hr hv).2 hoff⟩,
    ⟨_, hdestroy, writeCtl_destroy (s := u) hr hv⟩⟩, fun hslot hV hst hd hv hon => ⟨_, hrestore, writeCtl_restore (s := u) hslot hV hst hd hv hon⟩⟩

end

/-! ### Events (R230, R443) -/

theorem ctxSt_eq (s : State) (slot : Nat) : s.ctxSt slot = ctlSt s slot := rfl

section
variable {s : State} {slot : Nat}

theorem team?_stand {s u : State} (h : s.teams.map Team.stand = u.teams.map Team.stand) (uid : Nat) :
    (s.team? uid).map Team.stand = (u.team? uid).map Team.stand := by
  have hfind (v : State) : (v.team? uid).map Team.stand = (v.teams.map Team.stand).find? fun e => e.1 == uid := by
    rw [List.find?_map]
    rfl
  rw [hfind, hfind, h]

/-- A save begins: the context's teams are on their way out (R230). -/
theorem contextSave_drains (h : ctlSt s slot = 2) : ∃ s', exec (.contextSave slot) s = .next s' ∧
    s'.teams.map Team.stand = (s.teams.map (Team.draining slot)).map Team.stand := by
  refine ⟨_, show execContextSave slot s = _ by rw [execContextSave, if_neg (show ¬ s.ctxSt slot ≠ 2 from not_not.mpr h)], ?_⟩
  extract_lets s1 qs s2 s3
  have h2 : s2.standing = s1.standing := foldl_keeps State.standing (fun s x => (State.logCancel_standing ..).trans
    ((State.cancelTag_standing ..).trans (State.cancelCopy_standing ..))) _ _
  have h3 : s3.standing = s2.standing := foldl_keeps State.standing (fun s p => (State.logCancel_standing ..).trans (State.clStop_standing ..)) _ _
  exact congrArg Prod.fst (h3.trans h2)

theorem contextSave_completes (h : ctlSt s slot = 2) : ∃ s', exec (.contextSave slot) s = .next s' ∧ ∀ t, s.team? t.uid = some t → t.ctx = slot →
    t.res = .resident ∨ t.res = .starting → ∃ t', s'.team? t.uid = some t' ∧ t'.res = .draining := by
  obtain ⟨s', hexec, hstand⟩ := contextSave_drains h
  refine ⟨s', hexec, fun t ht hctx hres => ?_⟩
  have hdrain (u : Team) : (u.draining slot).uid = u.uid := by
    unfold Team.draining
    split <;> rfl
  have hfind : (s.teams.map (Team.draining slot)).find? (fun u => u.uid == t.uid) = some (t.draining slot) := by
    rw [find_map_uid _ hdrain, show s.teams.find? (fun u => u.uid == t.uid) = some t from ht]
    rfl
  have hmap : (s'.team? t.uid).map Team.stand = some (t.draining slot).stand := by
    rw [team?_stand (u := { s with teams := s.teams.map (Team.draining slot) }) hstand]
    exact congrArg (Option.map Team.stand) hfind
  obtain ⟨t', ht', hst⟩ := Option.map_eq_some_iff.mp hmap
  have hres' : (t.draining slot).res = .draining := by
    unfold Team.draining
    rw [if_pos (by obtain h | h := hres <;> simp [hctx, h])]
  exact ⟨t', ht', (congrArg (fun z => z.2.2) hst).trans hres'⟩

theorem ctl_unlogged {s u : State} (h : s.unlogged = u.unlogged) (slot : Nat) : s.ctl slot = u.ctl slot :=
  congrArg (fun x => (SMap.get 0 x.pkg.ctxctl slot).toNat) h

/-- A context leaves with nothing on its way: of the rest, its teams, grids and tags alone go with it. -/
theorem removeCtx_unlogged (hp : s.pend = []) : (s.removeCtx slot).unlogged = { s.unlogged with
    teams := s.teams.filter fun t => t.ctx != slot
    grids := s.grids.filter fun g => g.ctx != slot
    tagUses := s.tagUses.filter fun x => x.ctx != slot } := by
  have hsame := State.ackAll_unlogged s
  have hteams : s.ackAll.teams = s.teams := congrArg Unlogged.teams hsame
  have hgrids : s.ackAll.grids = s.grids := congrArg Unlogged.grids hsame
  have htags : s.ackAll.tagUses = s.tagUses := congrArg Unlogged.tagUses hsame
  have hremoved : (s.removeCtx slot).unlogged = { s.ackAll.unlogged with
      teams := s.ackAll.teams.filter fun t => t.ctx != slot
      grids := s.ackAll.grids.filter fun g => g.ctx != slot
      tagUses := s.ackAll.tagUses.filter fun x => x.ctx != slot } := by
    simp only [State.removeCtx, State.drain_eq hp]
    rfl
  rw [hremoved, hteams, hgrids, htags, hsame]

/-- A save completes: the image holds what the context was, and the slot is empty (R230). -/
theorem contextSaveComplete_keeps {place : Nat} (h : ctlSt s slot = 2) (hbusy : s.ctxBusy slot = false)
    (hout : ∀ t ∈ s.teams, t.ctx = slot → t.res = .evicted) (hp : s.pend = []) (hplace : SMap.find s.pkg.img slot = some place) :
    ∃ s' n im, exec (.contextSaveComplete slot) s = .next s' ∧ ctlSt s' slot = 3 ∧
      SMap.find s'.saved n = some im ∧ im.teams = s.teams.filter (fun t => t.ctx == slot) ∧ im.ctx.tdepth = (s.ctx slot).tdepth ∧
      im.ctx.lscale = (s.ctx slot).lscale ∧ im.ctx.lskip = (s.ctx slot).lskip ∧ ∀ t ∈ s'.teams, t.ctx ≠ slot := by
  have hany : (s.teams.any fun t => t.ctx == slot && t.res != .evicted) = false :=
    List.any_eq_false.mpr fun t ht => by simpa using hout t ht
  let a := s.ackAll.fresh
  let im : SavedCtx := { a.2.imageOf slot with size := 1 + bits a.1.toNat 15 0 % 65535 }
  let r := (a.2.removeCtx slot).newId
  let u : State := { r.2 with saved := SMap.put r.2.saved r.1 im }
  let x := (u.modCtx slot Ctx.emptied).setCtl slot (withBits (withBits (u.ctl slot) 59 57 3) 47 32 im.size)
  have hexec : exec (.contextSaveComplete slot) s = .next (x.writeRecord (place / 2 ^ 56 % 64) (place % 2 ^ 56) (im.bytes r.1)) := by
    show execContextSaveComplete slot s = _
    unfold execContextSaveComplete
    rw [if_neg (by simp [ctxSt_eq, h, hbusy, hany])]
    simp only [hplace, State.drain_eq hp]
    rfl
  have hkept := State.writeRecord_unlogged x (place / 2 ^ 56 % 64) (place % 2 ^ 56) (im.bytes r.1)
  have hctx : (s.ackAll.ctx slot).unlogged = (s.ctx slot).unlogged := State.ctx_unlogged (State.ackAll_unlogged s) slot
  have hteams : (a.2.removeCtx slot).teams = s.teams.filter fun t => t.ctx != slot := by
    refine (congrArg Unlogged.teams (removeCtx_unlogged (s := a.2) ((State.ackAll_pend s).trans hp))).trans ?_
    exact congrArg (List.filter fun t : Team => t.ctx != slot) (congrArg Unlogged.teams (State.ackAll_unlogged s))
  refine ⟨_, r.1, im, hexec, ?_, ?_, ?_, congrArg (fun c => c.1.tdepth) hctx, congrArg (fun c => c.1.lscale) hctx,
    congrArg (fun c => c.1.lskip) hctx, fun t ht => ?_⟩
  · show bits (State.ctl _ slot) 59 57 = 3
    rw [ctl_unlogged hkept, ctl_setCtl _ _ (withBits_lt (by decide) (by decide) (withBits_lt (by decide) (by decide) (ctl_lt u slot) _) _),
      bits_withBits_of_disjoint (by decide) (by decide), bits_withBits (by decide)]
    rfl
  · rw [show (x.writeRecord _ _ _).saved = x.saved from congrArg Unlogged.saved hkept]
    exact (SMap.find_put ..).trans (if_pos rfl)
  · exact congrArg (List.filter fun t : Team => t.ctx == slot) (congrArg Unlogged.teams (State.ackAll_unlogged s))
  · rw [show (x.writeRecord _ _ _).teams = x.teams from congrArg Unlogged.teams hkept, show x.teams = _ from hteams] at ht
    simpa using (List.mem_filter.mp ht).2

/-- An image comes back: its teams join the others, and its context is as it was kept. -/
theorem placeImage_places (s : State) (slot : Nat) (im : SavedCtx) :
    (s.placeImage slot im).pkg = s.pkg ∧
    (s.placeImage slot im).teams = s.teams ++ im.teams.map (fun t : Team => { t with ctx := slot, asid := (s.ctx slot).asid }) ∧
    ∃ qs ps tp rs, (s.placeImage slot im).ctx slot = { s.ctx slot with
      queues := qs, packets := ps, tape := tp, tdepth := im.ctx.tdepth, pageReqs := rs, lscale := im.ctx.lscale, lskip := im.ctx.lskip } := by
  unfold State.placeImage
  extract_lets asid s1 s2 ks s3 s4 here
  have h2 : (s2.teams, s2.ctxs, s2.pkg) = (s.teams, s.ctxs, s.pkg) :=
    foldl_keeps (fun s : State => (s.teams, s.ctxs, s.pkg))
      (f := fun s b => s.putCore b.1 { s.core b.1 with bars := SMap.put (s.core b.1).bars b.2.1 b.2.2 }) (fun _ _ => rfl) im.bars s1
  have h3 : (s3.teams, s3.ctxs, s3.pkg) = (s.teams, s.ctxs, s.pkg) :=
    (foldl_keeps (fun s : State => (s.teams, s.ctxs, s.pkg))
      (f := fun s k => s.putCluster k ((s.cluster k).fill k (s.ccOf k) im)) (fun _ _ => rfl) ks s2).trans h2
  obtain ⟨hteams, hctxs, hpkg⟩ : s3.teams = s.teams ∧ s3.ctxs = s.ctxs ∧ s3.pkg = s.pkg := by simpa using h3
  have hctx : s4.ctx slot = s.ctx slot := congrArg (fun m => SMap.get Ctx.reset m slot) hctxs
  refine ⟨hpkg, congrArg (· ++ _) hteams, im.ctx.queues, im.ctx.packets.map fun p => { p with ready := p.ready.map here },
    im.ctx.tape.map fun r => { r with popped := r.popped.map fun x => (x.1, here x.2) }, im.ctx.pageReqs, ?_⟩
  rw [ctx_modCtx, hctx]

theorem teams_setCtl (s : State) (slot v : Nat) : (s.setCtl slot v).teams = s.teams := rfl

theorem grids_setCtl (s : State) (slot v : Nat) : (s.setCtl slot v).grids = s.grids := rfl

theorem ctx_setCtl (s : State) (slot v k : Nat) : (s.setCtl slot v).ctx k = s.ctx k := rfl

/-- The slot's context runs (R443). -/
def resumed (s : State) (slot : Nat) : State := (s.setSt slot 1).setCtl slot (withBits ((s.setSt slot 1).ctl slot) 63 63 1)

theorem resumed_ctx (s : State) (slot k : Nat) : (resumed s slot).ctx k = s.ctx k := by
  rw [resumed, ctx_setCtl, State.setSt, ctx_setCtl]

theorem resumed_teams (s : State) (slot : Nat) : (resumed s slot).teams = s.teams := by
  rw [resumed, teams_setCtl, State.setSt, teams_setCtl]

theorem resumed_ctl (s : State) (slot : Nat) : ctlSt (resumed s slot) slot = 1 ∧ ctlV (resumed s slot) slot = 1 := by
  have hst : (s.setSt slot 1).ctl slot = withBits (s.ctl slot) 59 57 1 :=
    ctl_setCtl _ _ (withBits_lt (by decide) (by decide) (ctl_lt s slot) _)
  have hctl : (resumed s slot).ctl slot = withBits ((s.setSt slot 1).ctl slot) 63 63 1 :=
    ctl_setCtl _ _ (withBits_lt (by decide) (by decide) (ctl_lt _ slot) _)
  constructor
  · show bits _ 59 57 = 1
    rw [hctl, bits_withBits_of_disjoint (by decide) (by decide), hst, bits_withBits (by decide)]
    rfl
  · rw [ctlV_eq, hctl, bits_withBits (by decide)]
    rfl

/-- No destroy of the slot's context is in progress any more (R443). -/
def undying (s : State) (slot : Nat) : State := { s with pkg := { s.pkg with dying := s.pkg.dying.filter fun y => y != slot } }

theorem undying_ctx (s : State) (slot k : Nat) : (undying s slot).ctx k = s.ctx k := rfl

theorem undying_teams (s : State) (slot : Nat) : (undying s slot).teams = s.teams := rfl

theorem undying_grids (s : State) (slot : Nat) : (undying s slot).grids = s.grids := rfl

theorem undying_ctl (s : State) (slot : Nat) : (undying s slot).ctl slot = s.ctl slot := rfl

theorem not_mem_undying (s : State) (slot : Nat) : slot ∉ (undying s slot).pkg.dying := by
  simp [undying]

/-- `CTXCTL` of a slot that a destroy frees: V and ST are 0 (R443). -/
def freedCtl (s : State) (slot : Nat) : Nat := withBits (withBits (s.ctl slot) 63 63 0) 59 57 0

theorem freedCtl_cleared (s : State) (slot : Nat) :
    ctlV (undying (s.setCtl slot (freedCtl s slot)) slot) slot = 0 ∧ ctlSt (undying (s.setCtl slot (freedCtl s slot)) slot) slot = 0 := by
  have hctl : (undying (s.setCtl slot (freedCtl s slot)) slot).ctl slot = withBits (withBits (s.ctl slot) 63 63 0) 59 57 0 :=
    (undying_ctl ..).trans
      (ctl_setCtl _ _ (withBits_lt (by decide) (by decide) (withBits_lt (by decide) (by decide) (ctl_lt s slot) _) _))
  constructor
  · rw [ctlV_eq, hctl, bits_withBits_of_disjoint (by decide) (by decide), bits_withBits (by decide)]
    rfl
  · show bits _ 59 57 = 0
    rw [hctl, bits_withBits (by decide)]
    rfl

/-- A restore completes: the context runs again with what the image held (R230). -/
theorem contextRestoreComplete_restores {place : Nat} {im : SavedCtx} (h : ctlSt s slot = 4) (hbusy : s.ctxBusy slot = false)
    (hteams : ∀ t ∈ s.teams, t.ctx ≠ slot) (hgrids : ∀ g ∈ s.grids, g.ctx ≠ slot) (hplace : SMap.find s.pkg.img slot = some place)
    (him : s.imageAt place = some im) (hfits : s.imageFits im = true) :
    ∃ s', exec (.contextRestoreComplete slot) s = .next s' ∧ ctlSt s' slot = 1 ∧ ctlV s' slot = 1 ∧ (s'.ctx slot).valid = true ∧
      (s'.ctx slot).tdepth = im.ctx.tdepth ∧ (s'.ctx slot).lscale = im.ctx.lscale ∧ (s'.ctx slot).lskip = im.ctx.lskip ∧
      ∀ t ∈ im.teams, ∃ t' ∈ s'.teams, t'.uid = t.uid ∧ t'.ctx = slot ∧ t'.v = t.v ∧ t'.s = t.s ∧ t'.p = t.p ∧ t'.q = t.q ∧
        t'.stack = t.stack ∧ t'.handles = t.handles := by
  have hnoTeams : (s.teams.any fun t => t.ctx == slot) = false := List.any_eq_false.mpr fun t ht => by simpa using hteams t ht
  have hnoGrids : (s.grids.any fun g => g.ctx == slot) = false := List.any_eq_false.mpr fun g hg => by simpa using hgrids g hg
  have hexec : exec (.contextRestoreComplete slot) s =
      .next (resumed ((s.modCtx slot fun c => { c with valid := true, asid := bits (s.ctl slot) 31 20 }).placeImage slot im) slot) := by
    show execContextRestoreComplete slot s = _
    unfold execContextRestoreComplete
    rw [if_neg (by simp [ctxSt_eq, h, hbusy, hnoTeams, hnoGrids]), hplace, Option.bind_some, him]
    dsimp only
    rw [if_neg (by simp [hfits]), resumed]
  have hu : ((s.modCtx slot fun c => { c with valid := true, asid := bits (s.ctl slot) 31 20 }).ctx slot).valid = true := by
    rw [ctx_modCtx]
  revert hexec hu
  generalize (s.modCtx slot fun c => { c with valid := true, asid := bits (s.ctl slot) 31 20 }) = u
  intro hexec hu
  obtain ⟨-, hplaced, qs, ps, tp, rs, hctx⟩ := placeImage_places u slot im
  revert hexec hplaced hctx
  generalize u.placeImage slot im = y
  intro hexec hplaced hctx
  obtain ⟨hst, hv⟩ := resumed_ctl y slot
  refine ⟨_, hexec, hst, hv, ?_, ?_, ?_, ?_, fun t ht => ⟨{ t with ctx := slot, asid := (u.ctx slot).asid }, ?_, ?_⟩⟩
  · rw [resumed_ctx, hctx, hu]
  · rw [resumed_ctx, hctx]
  · rw [resumed_ctx, hctx]
  · rw [resumed_ctx, hctx]
  · rw [resumed_teams, hplaced]
    exact List.mem_append_right _ (List.mem_map.mpr ⟨t, ht, rfl⟩)
  · exact ⟨rfl, rfl, rfl, rfl, rfl, rfl, rfl, rfl⟩

/-- A destroy completes: the slot is free (R443). -/
theorem contextDestroyComplete_frees (h : slot ∈ s.pkg.dying) (hbusy : s.ctxBusy slot = false) (hp : s.pend = []) :
    ∃ s', exec (.contextDestroyComplete slot) s = .next s' ∧ ctlV s' slot = 0 ∧ ctlSt s' slot = 0 ∧ (s'.ctx slot).valid = false ∧
      slot ∉ s'.pkg.dying ∧ (∀ t ∈ s'.teams, t.ctx ≠ slot) ∧ ∀ g ∈ s'.grids, g.ctx ≠ slot := by
  have hexec : exec (.contextDestroyComplete slot) s =
      .next (undying (((s.removeCtx slot).modCtx slot fun c => { c.emptied with valid := false }).setCtl slot
        (freedCtl ((s.removeCtx slot).modCtx slot fun c => { c.emptied with valid := false }) slot)) slot) := by
    show execContextDestroyComplete slot s = _
    unfold execContextDestroyComplete
    rw [if_neg (by simp [h, hbusy]), undying, freedCtl]
  have hgone := removeCtx_unlogged (slot := slot) hp
  revert hexec hgone
  generalize s.removeCtx slot = u
  intro hexec hgone
  obtain ⟨hv, hst⟩ := freedCtl_cleared (u.modCtx slot fun c => { c.emptied with valid := false }) slot
  have hteams : u.teams = s.teams.filter fun t => t.ctx != slot := congrArg Unlogged.teams hgone
  have hgrids : u.grids = s.grids.filter fun g => g.ctx != slot := congrArg Unlogged.grids hgone
  refine ⟨_, hexec, hv, hst, ?_, not_mem_undying _ _, fun t ht => ?_, fun g hg => ?_⟩
  · rw [undying_ctx, ctx_setCtl, ctx_modCtx]
  · rw [undying_teams, teams_setCtl, show (u.modCtx slot _).teams = u.teams from rfl, hteams] at ht
    simpa using (List.mem_filter.mp ht).2
  · rw [undying_grids, grids_setCtl, show (u.modCtx slot _).grids = u.grids from rfl, hgrids] at hg
    simpa using (List.mem_filter.mp hg).2

end

/-- Settles O49, command by command and event by event: what each comes to by the lemmas above. -/
theorem contextEventsComplete : Obligations.ContextEventsComplete := by
  unfold Obligations.ContextEventsComplete
  exact fun s slot => ⟨fun master v ho => commands_taken ho, contextSave_completes,
    fun place h hbusy hout hp hplace => contextSaveComplete_keeps h hbusy hout hp hplace,
    fun place im h hbusy ht hg hplace him hfits => contextRestoreComplete_restores h hbusy ht hg hplace him hfits,
    contextDestroyComplete_frees⟩

end Sys2Proof.Claims
end

section
/-! The owner's writes of registers, of partitions and of the command blocks (R208, R414, R437, R442, R444, R446, R448). -/

namespace Sys2Proof.Claims

open Sys2Proof Sys2Proof.Machine

/- One theorem after another: side by side, their threads would fill the memory. -/
set_option Elab.async false

/-! ### Registers (R437) -/

theorem registerWrite_runs {s : State} {master off : Nat} (ho : ownedBy s master) (hclaim : off ≠ 0x08_0008) (haccept : off ≠ 0x08_0010)
    (v : DWord) : exec (.registerWrite master off v) s = .next ((s.heard master).writeOffset off v.toNat) := by
  show execRegisterWrite master off v s = _
  unfold execRegisterWrite
  rw [if_neg hclaim, if_neg haccept, ownerWrite_runs ho]

/-- A write of a master that does not own the package is discarded, but for those that every master is judged by (R440). -/
theorem registerWrite_drops {s : State} {master off : Nat} (ho : ¬ ownedBy s master) (hclaim : off ≠ 0x08_0008) (haccept : off ≠ 0x08_0010)
    (v : DWord) : exec (.registerWrite master off v) s = .next s.dropWrite := by
  show execRegisterWrite master off v s = _
  unfold execRegisterWrite
  rw [if_neg hclaim, if_neg haccept]
  exact congrArg Host.Outcome.next (if_neg ho)

theorem writeOffset_packageReg (s : State) {n : Nat} (h : n < 0x1000) (v : Nat) : s.writeOffset (8 * n) v = s.writePkgReg n v := by
  unfold State.writeOffset
  rw [if_neg (by omega), if_pos (by omega), Nat.mul_div_cancel_left _ (by decide)]

theorem writeOffset_contextReg (s : State) {slot n : Nat} (hslot : slot < 64) (h : n < 0x1000) (v : Nat) :
    s.writeOffset (0x10_0000 + 0x8000 * slot + 8 * n) v = s.modCtx slot fun c => c.writeReg n v := by
  unfold State.writeOffset
  rw [if_neg (by omega), if_neg (by omega), if_neg (by omega), if_neg (by omega), if_neg (by omega), if_neg (by omega), if_neg (by omega),
    if_neg (by omega), if_neg (by omega), if_neg (by omega), if_neg (by omega), if_neg (by omega), if_neg (by omega), if_pos (by omega),
    show (0x10_0000 + 0x8000 * slot + 8 * n - 0x10_0000) / 0x8000 = slot by omega,
    show (0x10_0000 + 0x8000 * slot + 8 * n - 0x10_0000) % 0x8000 / 8 = n by omega]

theorem writePkgReg_kept (s : State) (v : DWord) :
    ∀ r ∈ packageRegisters, r.1 < 0x1000 ∧ r.2.1 (s.writePkgReg r.1 v.toNat).pkg = BitVec.ofNat 64 (v.toNat &&& r.2.2) := by
  have hall : BitVec.ofNat 64 v.toNat = BitVec.ofNat 64 (v.toNat &&& (2 ^ 64 - 1)) := by
    rw [Nat.and_two_pow_sub_one_eq_mod, Nat.mod_eq_of_lt v.isLt]
  unfold packageRegisters
  simp only [List.forall_mem_cons]
  exact ⟨⟨by decide, rfl⟩, ⟨by decide, rfl⟩, ⟨by decide, hall⟩, ⟨by decide, rfl⟩, ⟨by decide, rfl⟩, nofun⟩

theorem writeReg_kept (c : Ctx) (v : Nat) :
    ∀ r ∈ contextRegisters, r.1 < 0x1000 ∧ r.2.1 (c.writeReg r.1 v) = BitVec.ofNat 64 (v &&& r.2.2) := by
  unfold contextRegisters
  simp only [List.forall_mem_cons]
  exact ⟨⟨by decide, rfl⟩, ⟨by decide, rfl⟩, ⟨by decide, rfl⟩, ⟨by decide, rfl⟩, ⟨by decide, rfl⟩, ⟨by decide, rfl⟩, ⟨by decide, rfl⟩,
    ⟨by decide, rfl⟩, nofun⟩

/-- A write of a ramp register waits for the step boundary (R414). -/
theorem writePkgReg_ramp (s : State) {n : Nat} (h : n = 0x260 ∨ n = 0x262 ∨ (0x270 ≤ n ∧ n < 0x280)) (v : Nat) :
    s.writePkgReg n v = { s with pkg := { s.pkg with rampWrites := s.pkg.rampWrites ++ [(n, BitVec.ofNat 64 v)] } } := by
  obtain rfl | rfl | h := h
  · rfl
  · rfl
  · unfold State.writePkgReg
    split
    case h_9 => exact if_pos h
    all_goals omega

section
variable {s : State} {master : Nat} (ho : ownedBy s master) (v : DWord)
include ho

theorem packageRegisters_written (r : Nat × (Pkg → DWord) × Nat) (hr : r ∈ packageRegisters) :
    ∃ s', exec (.registerWrite master (8 * r.1) v) s = .next s' ∧ r.2.1 s'.pkg = BitVec.ofNat 64 (v.toNat &&& r.2.2) := by
  obtain ⟨hn, hkept⟩ := writePkgReg_kept (s.heard master) v r hr
  refine ⟨_, registerWrite_runs ho (by omega) (by omega) v, ?_⟩
  rw [writeOffset_packageReg _ hn, hkept]

theorem rampRegisters_wait {n : Nat} (h : n = 0x260 ∨ n = 0x262 ∨ (0x270 ≤ n ∧ n < 0x280)) :
    ∃ s', exec (.registerWrite master (8 * n) v) s = .next s' ∧ s'.pkg.rampWrites = s.pkg.rampWrites ++ [(n, v)] ∧
      s'.pkg.rampcfg = s.pkg.rampcfg ∧ s'.pkg.ramplim = s.pkg.ramplim ∧ s'.pkg.ramptab = s.pkg.ramptab := by
  obtain ⟨x, hx⟩ := s.heard_eq master
  refine ⟨_, registerWrite_runs ho (by omega) (by omega) v, ?_⟩
  rw [writeOffset_packageReg _ (by omega), writePkgReg_ramp _ h, hx, BitVec.ofNat_toNat, BitVec.setWidth_eq]
  exact ⟨rfl, rfl, rfl, rfl⟩

theorem contextRegisters_written (r : Nat × (Ctx → DWord) × Nat) (hr : r ∈ contextRegisters) (slot : Nat) (hslot : slot < 64) :
    ∃ s', exec (.registerWrite master (0x10_0000 + 0x8000 * slot + 8 * r.1) v) s = .next s' ∧
      r.2.1 (s'.ctx slot) = BitVec.ofNat 64 (v.toNat &&& r.2.2) := by
  obtain ⟨hn, hkept⟩ := writeReg_kept ((s.heard master).ctx slot) v.toNat r hr
  refine ⟨_, registerWrite_runs ho (by omega) (by omega) v, ?_⟩
  rw [writeOffset_contextReg _ hslot hn, ctx_modCtx, hkept]

/-- A write of `LSCFG` is taken where it keeps the order of its exponents (R208). -/
theorem lscfg_written (slot : Nat) (hslot : slot < 64) : ∃ s', exec (.lscfgWrite master slot v) s = .next s' ∧
    let f := fun (i : Nat) => (v.extractLsb' i 8).toInt
    (-126 ≤ f 8 → f 8 ≤ f 24 → f 24 ≤ f 16 → (s'.ctx slot).lscfg = v &&& 0x0000_FFFF_FFFF_FF00 ∧
      (s'.ctx slot).lscale.toNat = (f 24 + 127).toNat * 2 ^ 23 ∧ (s'.ctx slot).lskip = 0) ∧
    (¬ (-126 ≤ f 8 ∧ f 8 ≤ f 24 ∧ f 24 ≤ f 16) → s'.ctx slot = s.ctx slot) := by
  obtain ⟨x, hx⟩ := s.heard_eq master
  have hexec : exec (.lscfgWrite master slot v) s = .next ((s.heard master).modCtx slot fun c => c.writeLscfg v.toNat) := by
    show execLscfgWrite master slot v s = _
    unfold execLscfgWrite
    rw [ownerWrite_runs ho, if_pos hslot]
  have hctx : ((s.heard master).modCtx slot fun c => c.writeLscfg v.toNat).ctx slot = (s.ctx slot).writeLscfg v.toNat := by
    rw [ctx_modCtx, hx]
    rfl
  refine ⟨_, hexec, ?_⟩
  rw [hctx]
  intro f
  have hlow : signedVal 8 (bits v.toNat 15 8) = f 8 := signedVal_field v 8
  have hinit : signedVal 8 (bits v.toNat 31 24) = f 24 := signedVal_field v 24
  have hhigh : signedVal 8 (bits v.toNat 23 16) = f 16 := signedVal_field v 16
  have hmost : f 24 < 2 ^ 7 := BitVec.toInt_lt (x := v.extractLsb' 24 8)
  have hmask : BitVec.ofNat 64 (mergeBits 0x0000_FFFF_FFFF_FF00 0 v.toNat) = v &&& 0x0000_FFFF_FFFF_FF00 := by
    rw [mergeBits, Nat.zero_and, Nat.zero_or, BitVec.ofNat_and, BitVec.ofNat_toNat, BitVec.setWidth_eq]
    rfl
  simp only [Ctx.writeLscfg, hlow, hinit, hhigh, hmask]
  constructor
  · intro h1 h2 h3
    rw [if_pos (by simp [h1, h2, h3])]
    exact ⟨rfl, scaleWord_toNat (by omega), rfl⟩
  · intro h
    exact if_neg (by simpa [and_assoc] using h)

end

/-! ### Partitions (R442, R444) -/

theorem partWord_setPart (s : State) (m : Nat) {w : Nat} (h : w < 2 ^ 64) : (s.setPart m w).partWord m = w := by
  rw [State.partWord, State.setPart, SMap.get_set, if_pos rfl, BitVec.toNat_ofNat, Nat.mod_eq_of_lt h]

theorem keyBlock_setPart (s : State) (m w : Nat) : (s.setPart m w).pkg.keyBlock = s.pkg.keyBlock := rfl

theorem linkKeys_setPart (s : State) (m w : Nat) : (s.setPart m w).pkg.linkKeys = s.pkg.linkKeys := rfl

theorem partWord_lt (s : State) (m : Nat) : s.partWord m < 2 ^ 64 := (SMap.get 0 s.pkg.part m).isLt

/-- The top bit of a word. -/
theorem div_eq_bits {x : Nat} (h : x < 2 ^ 64) : x / 2 ^ 63 = bits x 63 63 := by
  rw [bits]
  omega

theorem partWord_zeroing (s : State) (z : List Nat) (m : Nat) : ({ s with pkg := { s.pkg with zeroing := z } } : State).partWord m = s.partWord m :=
  rfl

/-- What a write of `PART` leaves in it: V, CTX and DIGEST as written, and the rest as it was (R444). -/
def takenPart (old v : Nat) : Nat := withBits (withBits (withBits old 63 63 (bits v 63 63)) 37 32 (bits v 37 32)) 31 0 (bits v 31 0)

theorem takenPart_lt {old : Nat} (h : old < 2 ^ 64) (v : Nat) : takenPart old v < 2 ^ 64 :=
  withBits_lt (by decide) (by decide) (withBits_lt (by decide) (by decide) (withBits_lt (by decide) (by decide) h _) _) _

theorem partWord_writePart (s : State) {m : Nat} (h : m < 64) (v : Nat) : (s.writePart m v).partWord m = takenPart (s.partWord m) v := by
  have htaken := partWord_setPart s m (takenPart_lt (partWord_lt s m) v)
  rw [State.writePart, if_neg (by omega)]
  unfold takenPart at htaken ⊢
  dsimp only
  split
  · rw [partWord_zeroing, htaken]
  · exact htaken

section
variable {s : State} {master : Nat} (ho : ownedBy s master) (v : DWord)
include ho

/-- The peer number is taken while no partition is valid (R442). -/
theorem partcfg_written : ∃ s', exec (.partcfgWrite master v) s = .next s' ∧
    ((∀ e ∈ s.pkg.part, e.2.getLsbD 63 = false) → s'.pkg.peerid.toNat = v.toNat % 2 ^ 9 ∧ s'.pkg.partSet = true) ∧
    (∀ e ∈ s.pkg.part, e.2.getLsbD 63 = true → s'.pkg.peerid = s.pkg.peerid ∧ s'.pkg.partSet = s.pkg.partSet) := by
  obtain ⟨x, hx⟩ := s.heard_eq master
  refine ⟨(s.heard master).writePartcfg v.toNat, congrArg Host.Outcome.next (ownerWrite_runs ho _), fun h => ?_, fun e he hv => ?_⟩
  · have hnone : (s.pkg.part.any fun e => e.2.getLsbD 63) = false := List.any_eq_false.mpr fun e he => ne_of_eq_of_ne (h e he) Bool.false_ne_true
    rw [hx, State.writePartcfg, if_neg (ne_of_eq_of_ne hnone Bool.false_ne_true)]
    refine ⟨?_, rfl⟩
    have hlow : bits v.toNat 8 0 = v.toNat % 2 ^ 9 := by rw [bits, pow_zero, Nat.div_one]
    show (BitVec.ofNat 64 (bits v.toNat 8 0)).toNat = _
    rw [hlow, BitVec.toNat_ofNat]
    omega
  · have hsome : (s.pkg.part.any fun e => e.2.getLsbD 63) = true := List.any_eq_true.mpr ⟨e, he, hv⟩
    rw [hx, State.writePartcfg, if_pos hsome]
    exact ⟨rfl, rfl⟩

theorem part_written (m : Nat) (hm : m < 64) : ∃ s', exec (.partWrite master m v) s = .next s' ∧
    s'.partWord m / 2 ^ 63 = v.toNat / 2 ^ 63 ∧ s'.partWord m / 2 ^ 62 % 2 = s.partWord m / 2 ^ 62 % 2 ∧
    s'.partWord m / 2 ^ 32 % 2 ^ 6 = v.toNat / 2 ^ 32 % 2 ^ 6 ∧ s'.partWord m % 2 ^ 32 = v.toNat % 2 ^ 32 := by
  obtain ⟨x, hx⟩ := s.heard_eq master
  have hold : (s.heard master).partWord m = s.partWord m := by
    rw [hx]
    rfl
  have hlow (y : Nat) : y % 2 ^ 32 = bits y 31 0 := by rw [bits, pow_zero, Nat.div_one]
  refine ⟨(s.heard master).writePart m v.toNat, congrArg Host.Outcome.next (ownerWrite_runs ho _), ?_, ?_, ?_, ?_⟩
  · rw [div_eq_bits (partWord_lt _ m), div_eq_bits v.isLt, partWord_writePart _ hm, takenPart, bits_withBits_of_disjoint (by decide) (by decide),
      bits_withBits_of_disjoint (by decide) (by decide), bits_withBits (by decide)]
    exact Nat.mod_mod _ _
  · show bits _ 62 62 = bits _ 62 62
    rw [partWord_writePart _ hm, takenPart, bits_withBits_of_disjoint (by decide) (by decide), bits_withBits_of_disjoint (by decide) (by decide),
      bits_withBits_of_disjoint (by decide) (by decide), hold]
  · show bits _ 37 32 = bits _ 37 32
    rw [partWord_writePart _ hm, takenPart, bits_withBits_of_disjoint (by decide) (by decide), bits_withBits (by decide)]
    exact Nat.mod_mod _ _
  · rw [hlow, hlow, partWord_writePart _ hm, takenPart, bits_withBits (by decide)]
    exact Nat.mod_mod _ _

end

/-! ### Blocks of registers (R446, R448) -/

theorem getElem?_putBlock (b : List Byte) (off : Nat) (bs : List Byte) (i : Nat) :
    (putBlock b off bs)[i]? = b[i]?.map fun x => if off ≤ i ∧ i < off + bs.length then (bs[i - off]?).getD x else x := by
  rw [putBlock, List.getElem?_mapIdx]

/-- A byte that has been written. -/
theorem getElem?_putBlock_written {b bs : List Byte} {off i : Nat} (hi : i < bs.length) (hfit : off + bs.length ≤ b.length) :
    (putBlock b off bs)[off + i]? = bs[i]? := by
  have hb : b[off + i]? = some b[off + i] := List.getElem?_eq_getElem (by omega)
  rw [getElem?_putBlock, hb, Option.map_some, if_pos (by omega), Nat.add_sub_cancel_left, List.getElem?_eq_getElem hi, Option.getD_some]

/-- Bytes that have been written. -/
theorem regBytes_putBlock {b bs : List Byte} {off i n : Nat} (hi : i + n ≤ bs.length) (hfit : off + bs.length ≤ b.length) :
    regBytes (putBlock b off bs) (off + i) n = regBytes bs i n := by
  refine List.ext_getElem? fun j => ?_
  rw [regBytes, regBytes, List.getElem?_take, List.getElem?_take, List.getElem?_drop, List.getElem?_drop]
  split
  · rw [Nat.add_assoc, getElem?_putBlock_written (by omega) hfit]
  · rfl

theorem length_natLe : ∀ n x : Nat, (natLe n x).length = n
  | 0, _ => rfl
  | n + 1, x => congrArg (· + 1) (length_natLe n (x / 256))

theorem length_fitBytes (n : Nat) (l : List Byte) : (fitBytes n l).length = n := by
  simp [fitBytes]

/-- A part of a block. -/
theorem regBytes_part (front part back : List Byte) : regBytes (front ++ (part ++ back)) front.length part.length = part := by
  rw [regBytes, List.drop_left, List.take_left]

/-! ### The attestation block (R448) -/

/-- The report's parts before its counter, its nonce and its time, and its signature. -/
def reportHead (s : State) : List Byte :=
  fitBytes 97 (Config.identityPoint (s.nvm.identity.getD 0)) ++
    fitBytes 48 (Config.sha384 ((s.nvm.running.toList).map fun f => (f.code.toNat : Int))) ++ fitBytes 48 (Config.sha384 s.nvm.recFields)

def reportSign (s : State) : List Byte :=
  fitBytes 96 (Config.sign (s.nvm.identity.getD 0)
    (reportHead s ++ natLe 4 s.nvm.rollback.toNat ++ regBytes s.pkg.attBlock 16 48 ++ natLe 8 s.time))

theorem report_eq (s : State) : s.report = reportHead s ++ natLe 4 s.nvm.rollback.toNat ++ regBytes s.pkg.attBlock 16 48 ++ natLe 8 s.time ++
    reportSign s ++ List.replicate 99 0 := rfl

theorem length_reportHead (s : State) : (reportHead s).length = 193 := by
  simp only [reportHead, List.length_append, length_fitBytes]

theorem length_reportSign (s : State) : (reportSign s).length = 96 := length_fitBytes _ _

theorem length_report {s : State} (h : s.pkg.attBlock.length = 512) : s.report.length = 448 := by
  have hnonce : (regBytes s.pkg.attBlock 16 48).length = 48 := by simp [regBytes, h]
  simp only [report_eq, List.length_append, length_reportHead, length_reportSign, length_natLe, hnonce, List.length_replicate]

/-- The counter, the nonce and the time of a report, and the zeros at its end. -/
theorem report_parts {s : State} (h : s.pkg.attBlock.length = 512) : regBytes s.report 193 4 = natLe 4 s.nvm.rollback.toNat ∧
    regBytes s.report 197 48 = regBytes s.pkg.attBlock 16 48 ∧ regBytes s.report 245 8 = natLe 8 s.time ∧
    ∀ i, 349 ≤ i → i < 448 → s.report[i]? = some 0 := by
  have hnonce : (regBytes s.pkg.attBlock 16 48).length = 48 := by simp [regBytes, h]
  rw [report_eq]
  refine ⟨?_, ?_, ?_, fun i hi hlt => ?_⟩
  · have := regBytes_part (reportHead s) (natLe 4 s.nvm.rollback.toNat)
      (regBytes s.pkg.attBlock 16 48 ++ (natLe 8 s.time ++ (reportSign s ++ List.replicate 99 0)))
    rw [length_reportHead, length_natLe] at this
    simpa only [List.append_assoc] using this
  · have := regBytes_part (reportHead s ++ natLe 4 s.nvm.rollback.toNat) (regBytes s.pkg.attBlock 16 48)
      (natLe 8 s.time ++ (reportSign s ++ List.replicate 99 0))
    rw [List.length_append, length_reportHead, length_natLe, hnonce] at this
    simpa only [List.append_assoc] using this
  · have := regBytes_part (reportHead s ++ natLe 4 s.nvm.rollback.toNat ++ regBytes s.pkg.attBlock 16 48) (natLe 8 s.time)
      (reportSign s ++ List.replicate 99 0)
    rw [List.length_append, List.length_append, length_reportHead, length_natLe, length_natLe, hnonce] at this
    simpa only [List.append_assoc] using this
  · have hfront : (reportHead s ++ natLe 4 s.nvm.rollback.toNat ++ regBytes s.pkg.attBlock 16 48 ++ natLe 8 s.time ++
        reportSign s).length = 349 := by
      simp only [List.length_append, length_reportHead, length_reportSign, length_natLe, hnonce]
    rw [List.getElem?_append_right (by omega), hfront, List.getElem?_replicate, if_pos (by omega)]

/-- A report stands in the attestation block (R448). -/
theorem attest_reports {s : State} (h : s.pkg.attBlock.length = 512) : regBytes s.attest.pkg.attBlock 257 4 = natLe 4 s.nvm.rollback.toNat ∧
    regBytes s.attest.pkg.attBlock 261 48 = regBytes s.pkg.attBlock 16 48 ∧ regBytes s.attest.pkg.attBlock 309 8 = natLe 8 s.time ∧
    ∀ i, 413 ≤ i → i < 512 → s.attest.pkg.attBlock[i]? = some 0 := by
  have hlen := length_report h
  obtain ⟨hcounter, hnonce, htime, hzeros⟩ := report_parts h
  have hblock : s.attest.pkg.attBlock = putBlock s.pkg.attBlock 64 s.report := rfl
  rw [hblock]
  refine ⟨?_, ?_, ?_, fun i hi hlt => ?_⟩
  · exact (regBytes_putBlock (off := 64) (i := 193) (by omega) (by omega)).trans hcounter
  · exact (regBytes_putBlock (off := 64) (i := 197) (by omega) (by omega)).trans hnonce
  · exact (regBytes_putBlock (off := 64) (i := 245) (by omega) (by omega)).trans htime
  · have := (getElem?_putBlock_written (b := s.pkg.attBlock) (off := 64) (i := i - 64) (by omega) (by omega)).trans
      (hzeros (i - 64) (by omega) (by omega))
    rwa [Nat.add_sub_cancel' (by omega)] at this

theorem attestation_written {s : State} {master : Nat} (ho : ownedBy s master) (h : s.pkg.attBlock.length = 512) :
    ∃ s', exec (.attestationRequest master) s = .next s' ∧
      regBytes s'.pkg.attBlock 257 4 = natLe 4 s.nvm.rollback.toNat ∧ regBytes s'.pkg.attBlock 261 48 = regBytes s.pkg.attBlock 16 48 ∧
      regBytes s'.pkg.attBlock 309 8 = natLe 8 s.time ∧ ∀ i, 413 ≤ i → i < 512 → s'.pkg.attBlock[i]? = some 0 := by
  obtain ⟨x, hx⟩ := s.heard_eq master
  refine ⟨(s.heard master).attest, congrArg Host.Outcome.next (ownerWrite_runs ho _), ?_⟩
  rw [hx]
  exact attest_reports (s := { s with pkg := { s.pkg with ownerDownSince := x } }) h

/-! ### The key command block (R446) -/

/-- What a key command leaves but for its block (R446). -/
theorem keyCommand_fields (s : State) : s.keyCommand.pkg.memKeys = s.keyEffect.1.pkg.memKeys ∧
    s.keyCommand.pkg.linkKeys = s.keyEffect.1.pkg.linkKeys ∧ ∀ m, s.keyCommand.partWord m = s.keyEffect.1.partWord m :=
  ⟨rfl, rfl, fun _ => rfl⟩

theorem keyCommand_done {s : State} (h : s.keyEffect.1.pkg.keyBlock.length = 256) : keyDone s.keyCommand (BitVec.ofNat 8 s.keyEffect.2) := by
  have hblock : s.keyCommand.pkg.keyBlock = putBlock (putBlock s.keyEffect.1.pkg.keyBlock 0 [0]) 4 [BitVec.ofNat 8 s.keyEffect.2] := rfl
  have hlen : (putBlock s.keyEffect.1.pkg.keyBlock 0 [0]).length = 256 := by rw [putBlock, List.length_mapIdx, h]
  have hgo : (putBlock s.keyEffect.1.pkg.keyBlock 0 [0])[0]? = some 0 :=
    getElem?_putBlock_written (off := 0) (i := 0) (by decide) (by simp [h])
  refine ⟨?_, ?_⟩
  · rw [hblock, getElem?_putBlock, hgo]
    rfl
  · rw [hblock]
    exact getElem?_putBlock_written (off := 4) (i := 0) (Nat.lt_add_one 0) (by rw [hlen, List.length_singleton]; decide)

theorem mem_addKey (l : List Nat) (k : Nat) : k ∈ addKey l k := by
  unfold addKey
  split
  · next h => simpa using h
  · simp

section
variable {s : State} (hlen : s.pkg.keyBlock.length = 256)
include hlen

theorem memoryKey_effect (hk : s.pkg.keyKind = 1) (hn : s.pkg.keyIndex < 512) :
    if (Config.unwrapKey (regBytes s.pkg.keyBlock 16 97) (regBytes s.pkg.keyBlock 128 72)).map List.length = some 64 then
      s.pkg.keyIndex ∈ s.keyCommand.pkg.memKeys ∧ keyDone s.keyCommand 0
    else s.keyCommand.pkg.memKeys = s.pkg.memKeys ∧ keyDone s.keyCommand 2 := by
  obtain ⟨hmem, -, -⟩ := keyCommand_fields s
  have hdone := keyCommand_done (s := s)
  rw [hmem]
  split
  · next h =>
    have he : s.keyEffect = ({ s with pkg := { s.pkg with memKeys := addKey s.pkg.memKeys s.pkg.keyIndex } }, 0) := by
      simp only [State.keyEffect, hk, if_neg (Nat.not_le.mpr hn), h, if_true]
    rw [he] at hdone ⊢
    exact ⟨mem_addKey _ _, hdone hlen⟩
  · next h =>
    have he : s.keyEffect = (s, 2) := by simp only [State.keyEffect, hk, if_neg (Nat.not_le.mpr hn), if_neg h]
    rw [he] at hdone ⊢
    exact ⟨rfl, hdone hlen⟩

theorem linkKey_effect (hk : s.pkg.keyKind = 2) (hn : s.pkg.keyIndex < 64) :
    if (Config.unwrapKey (regBytes s.pkg.keyBlock 16 97) (regBytes s.pkg.keyBlock 128 72)).map List.length = some 32 then
      s.pkg.keyIndex ∈ s.keyCommand.pkg.linkKeys ∧ s.keyCommand.partWord s.pkg.keyIndex / 2 ^ 62 % 2 = 1 ∧ keyDone s.keyCommand 0
    else s.keyCommand.pkg.linkKeys = s.pkg.linkKeys ∧ keyDone s.keyCommand 2 := by
  obtain ⟨-, hlinks, hpart⟩ := keyCommand_fields s
  have hdone := keyCommand_done (s := s)
  rw [hlinks, hpart]
  split
  · next h =>
    have he : s.keyEffect = (({ s with pkg := { s.pkg with linkKeys := addKey s.pkg.linkKeys s.pkg.keyIndex } } : State).setPart s.pkg.keyIndex
        (withBits (s.partWord s.pkg.keyIndex) 62 62 1), 0) := by
      simp only [State.keyEffect, hk, if_neg (Nat.not_le.mpr hn), h, if_true]
    rw [he] at hdone ⊢
    refine ⟨by rw [linkKeys_setPart]; exact mem_addKey _ _, ?_, hdone (by rw [keyBlock_setPart]; exact hlen)⟩
    show bits (State.partWord _ _) 62 62 = 1
    rw [partWord_setPart _ _ (withBits_lt (by decide) (by decide) (partWord_lt s _) _), bits_withBits (by decide)]
    rfl
  · next h =>
    have he : s.keyEffect = (s, 2) := by simp only [State.keyEffect, hk, if_neg (Nat.not_le.mpr hn), if_neg h]
    rw [he] at hdone ⊢
    exact ⟨rfl, hdone hlen⟩

theorem clearKey_effect (hk : s.pkg.keyKind = 3) :
    if s.pkg.keyIndex < 512 then s.pkg.keyIndex ∉ s.keyCommand.pkg.memKeys ∧ keyDone s.keyCommand 0
    else s.keyCommand.pkg.memKeys = s.pkg.memKeys ∧ keyDone s.keyCommand 1 := by
  obtain ⟨hmem, -, -⟩ := keyCommand_fields s
  have hdone := keyCommand_done (s := s)
  rw [hmem]
  split
  · next h =>
    have he : s.keyEffect = ({ s with pkg := { s.pkg with memKeys := s.pkg.memKeys.filter fun k => k != s.pkg.keyIndex } }, 0) := by
      simp only [State.keyEffect, hk, if_neg (Nat.not_le.mpr h)]
    rw [he] at hdone ⊢
    exact ⟨by simp, hdone hlen⟩
  · next h =>
    have he : s.keyEffect = (s, 1) := by simp only [State.keyEffect, hk, if_pos (Nat.not_lt.mp h)]
    rw [he] at hdone ⊢
    exact ⟨rfl, hdone hlen⟩

end

/-- The owner's command runs (R446). -/
theorem keyEvent_runs {s : State} {master kind : Nat} (ho : ownedBy s master) (hk : s.pkg.keyKind = kind) :
    keyEvent kind master s = .next (s.heard master).keyCommand := by
  obtain ⟨x, hx⟩ := s.heard_eq master
  have hkind : (s.heard master).pkg.keyKind = kind := by
    rw [hx]
    exact hk
  rw [keyEvent, ownerWrite_runs ho, if_pos hkind]

/-- The key commands of the owner, by the KIND of its block (R446). -/
theorem keys_written {s : State} {master : Nat} (ho : ownedBy s master) (n : Nat) (hlen : s.pkg.keyBlock.length = 256)
    (hn : s.pkg.keyIndex = n) :
    let key := Config.unwrapKey (regBytes s.pkg.keyBlock 16 97) (regBytes s.pkg.keyBlock 128 72)
    (s.pkg.keyKind = 1 → n < 512 → ∃ s', exec (.memoryKeyInstall master) s = .next s' ∧
      (if key.map List.length = some 64 then n ∈ s'.pkg.memKeys ∧ keyDone s' 0 else s'.pkg.memKeys = s.pkg.memKeys ∧ keyDone s' 2)) ∧
    (s.pkg.keyKind = 2 → n < 64 → ∃ s', exec (.linkKeyInstall master) s = .next s' ∧
      (if key.map List.length = some 32 then n ∈ s'.pkg.linkKeys ∧ s'.partWord n / 2 ^ 62 % 2 = 1 ∧ keyDone s' 0
        else s'.pkg.linkKeys = s.pkg.linkKeys ∧ keyDone s' 2)) ∧
    (s.pkg.keyKind = 3 → ∃ s', exec (.clearKeySlot master) s = .next s' ∧
      (if n < 512 then n ∉ s'.pkg.memKeys ∧ keyDone s' 0 else s'.pkg.memKeys = s.pkg.memKeys ∧ keyDone s' 1)) := by
  subst hn
  obtain ⟨x, hx⟩ := s.heard_eq master
  refine ⟨fun hk h => ⟨_, keyEvent_runs ho hk, ?_⟩, fun hk h => ⟨_, keyEvent_runs ho hk, ?_⟩, fun hk => ⟨_, keyEvent_runs ho hk, ?_⟩⟩
  all_goals rw [hx]
  · exact memoryKey_effect (s := { s with pkg := { s.pkg with ownerDownSince := x } }) hlen hk h
  · exact linkKey_effect (s := { s with pkg := { s.pkg with ownerDownSince := x } }) hlen hk h
  · exact clearKey_effect (s := { s with pkg := { s.pkg with ownerDownSince := x } }) hlen hk

end Sys2Proof.Claims
end

section
/-! Writes that are discarded, and the host's accesses through its windows and its registers (R437, R438, R440, R449). -/

namespace Sys2Proof.Claims

open Sys2Proof Sys2Proof.Machine

/- One theorem after another: side by side, their threads would fill the memory. -/
set_option Elab.async false

/-! ### `MOWN` (R438, R440) -/

theorem mown_setMown (s : State) (m : Nat) : (s.setMown m).pkg.mown = BitVec.ofNat 64 m := by
  rw [State.setMown]
  split
  · next h => exact h.symm
  · rfl

theorem setMown_ctxs (s : State) (m : Nat) : (s.setMown m).ctxs = s.ctxs := by
  unfold State.setMown
  dsimp only
  split <;> rfl

theorem setMown_outbox (s : State) (m : Nat) : (s.setMown m).outbox = s.outbox := by
  unfold State.setMown
  dsimp only
  split <;> rfl

/-- A discarded write advances DROPS and changes nothing else of `MOWN` (R440). -/
theorem dropWrite_drops (s : State) : dropped s s.dropWrite := by
  have hm : s.dropWrite.pkg.mown.toNat = withBits s.pkg.mown.toNat 15 0 (min 65535 (bits s.pkg.mown.toNat 15 0 + 1)) := by
    rw [State.dropWrite, mown_setMown, toNat_ofNat_withBits (by decide) (by decide) s.pkg.mown.isLt]
  have hlow (y : Nat) : y % 2 ^ 16 = bits y 15 0 := by rw [bits, pow_zero, Nat.div_one]
  have hhigh (y : Nat) (h : y < 2 ^ 64) : y / 2 ^ 16 = bits y 63 16 := by
    rw [bits]
    omega
  have hlt := s.dropWrite.pkg.mown.isLt
  refine ⟨?_, ?_⟩
  · rw [hlow, hlow, hm, bits_withBits (by decide)]
    omega
  · rw [hhigh _ hlt, hhigh _ s.pkg.mown.isLt, hm, bits_withBits_of_disjoint (by decide) (by decide)]

/-- An access that R438 discards advances HERR. -/
theorem hostError_counts (s : State) : mownHerr s.hostError = min 65535 (mownHerr s + 1) := by
  have hm : s.hostError.pkg.mown.toNat = withBits s.pkg.mown.toNat 31 16 (min 65535 (bits s.pkg.mown.toNat 31 16 + 1)) := by
    rw [State.hostError, mown_setMown, toNat_ofNat_withBits (by decide) (by decide) s.pkg.mown.isLt]
  have hherr (u : State) : mownHerr u = bits u.pkg.mown.toNat 31 16 := rfl
  rw [hherr, hherr, hm, bits_withBits (by decide)]
  omega

theorem registerWrite_dropped {s : State} {master : Nat} (v : DWord) (off : Nat) (ho : ¬ ownedBy s master) (hclaim : off ≠ 0x08_0008)
    (haccept : off ≠ 0x08_0010) : ∃ s', exec (.registerWrite master off v) s = .next s' ∧ dropped s s' ∧ s'.ctxs = s.ctxs :=
  ⟨_, registerWrite_drops ho hclaim haccept v, dropWrite_drops s, setMown_ctxs _ _⟩

/-! ### Reads of registers by a master (R437) -/

/-- What a master reads of a register: the offset's fields, and nothing changes but since when the owner is silent. -/
theorem register_read {s : State} {master off : Nat} (h1 : 1 ≤ master) (h3 : master ≤ 3) (hup : s.pkg.reaches master = true)
    (hoff : off < 2 ^ 24) (n : Nat) (bs : List Byte) {w : Nat} (hw : ∀ x, ({ s with pkg := { s.pkg with ownerDownSince := x } } : State).readOffset off = w) :
    ∃ s', exec (.hostWindowAccess false (2 ^ 36 + (master - 1) * 2 ^ 24 + off) n bs) s = .next s' ∧
      s'.outbox = s.outbox ++ [.hostRead (2 ^ 36 + (master - 1) * 2 ^ 24 + off) (natLe 8 w)] ∧
      s'.pkg = { s.pkg with ownerDownSince := s'.pkg.ownerDownSince } := by
  obtain ⟨x, hx⟩ := s.heard_eq master
  have hmaster : (2 ^ 36 + (master - 1) * 2 ^ 24 + off - 2 ^ 36) / 2 ^ 24 + 1 = master := by omega
  have hat : (2 ^ 36 + (master - 1) * 2 ^ 24 + off) % 2 ^ 24 = off := by omega
  have hexec : exec (.hostWindowAccess false (2 ^ 36 + (master - 1) * 2 ^ 24 + off) n bs) s =
      .next ((s.heard master).answerHost (2 ^ 36 + (master - 1) * 2 ^ 24 + off) (natLe 8 w)) := by
    show execHostWindowAccess false _ n bs s = _
    simp only [execHostWindowAccess, hmaster, hat]
    rw [if_pos (by omega), if_neg (by omega), if_neg (by simp [hup]), if_neg Bool.false_ne_true, hx, hw]
  refine ⟨_, hexec, ?_, ?_⟩
  · rw [hx]
    rfl
  · rw [hx]
    rfl

/-- `MCLAIM` and `MACCEPT` read 0. -/
theorem readOffset_claims (s : State) {off : Nat} (h : off = 0x08_0008 ∨ off = 0x08_0010) : s.readOffset off = 0 := by
  obtain rfl | rfl := h <;> rfl

theorem readOffset_mown (s : State) : s.readOffset 0x08_0000 = s.pkg.mown.toNat := rfl

/-- The CMD of `CTXCTL` reads 0. -/
theorem readOffset_ctl (s : State) {slot : Nat} (h : slot < 64) :
    s.readOffset (0x08_0200 + 8 * slot) = s.ctl slot / 2 ^ 63 * 2 ^ 63 + s.ctl slot % 2 ^ 60 := by
  have hlt : s.ctl slot < 2 ^ 64 := ctl_lt s slot
  unfold State.readOffset
  rw [if_neg (by omega), if_neg (by omega), if_neg (by omega), if_neg (by omega), if_neg (by omega), if_neg (by omega), if_neg (by omega),
    if_neg (by omega), if_neg (by omega), if_pos (by omega), show (0x08_0200 + 8 * slot - 0x08_0200) / 8 = slot by omega, withBits, bits]
  omega

/-- What every master reads of `MCLAIM`, `MACCEPT`, `MOWN` and `CTXCTL` (R437, R440, R443). -/
theorem registers_read {s : State} {master : Nat} (off n : Nat) (bs : List Byte) (h1 : 1 ≤ master) (h3 : master ≤ 3)
    (hup : s.pkg.reaches master = true) :
    let at_ := 2 ^ 36 + (master - 1) * 2 ^ 24 + off
    let reads := fun (w : Nat) => ∃ s', exec (.hostWindowAccess false at_ n bs) s = .next s' ∧
      s'.outbox = s.outbox ++ [.hostRead at_ (natLe 8 w)] ∧ s'.pkg = { s.pkg with ownerDownSince := s'.pkg.ownerDownSince }
    (off = 0x08_0008 ∨ off = 0x08_0010 → reads 0) ∧ (off = 0x08_0000 → reads s.pkg.mown.toNat) ∧
      ∀ slot < 64, off = 0x08_0200 + 8 * slot → reads (s.ctl slot / 2 ^ 63 * 2 ^ 63 + s.ctl slot % 2 ^ 60) := by
  refine ⟨fun h => ?_, fun h => ?_, fun slot hslot h => ?_⟩
  · exact register_read h1 h3 hup (by omega) n bs fun x => readOffset_claims _ h
  · subst h
    exact register_read h1 h3 hup (by decide) n bs fun x => readOffset_mown _
  · subst h
    exact register_read h1 h3 hup (by omega) n bs fun x => readOffset_ctl _ hslot

/-- The board controller reads whether firmware runs (R449). -/
theorem firmware_read {s : State} (off n : Nat) (bs : List Byte) (hup : s.pkg.boardUp = true) (hoff : off < 2 ^ 24) :
    ∃ s', exec (.hostWindowAccess false (2 ^ 36 + 3 * 2 ^ 24 + off) n bs) s = .next s' ∧
      s'.outbox = s.outbox ++ [.hostRead (2 ^ 36 + 3 * 2 ^ 24 + off) (natLe 8 (if s.nvm.fwOk = true then 0 else 1))] := by
  obtain ⟨x, hx⟩ := s.heard_eq 3
  have hmaster : (2 ^ 36 + 3 * 2 ^ 24 + off - 2 ^ 36) / 2 ^ 24 + 1 = 4 := by omega
  have hexec : exec (.hostWindowAccess false (2 ^ 36 + 3 * 2 ^ 24 + off) n bs) s =
      .next ((s.heard 3).answerHost (2 ^ 36 + 3 * 2 ^ 24 + off) (natLe 8 (if s.nvm.fwOk then 0 else 1))) := by
    show execHostWindowAccess false _ n bs s = _
    simp only [execHostWindowAccess, hmaster]
    rw [if_pos (by omega), if_pos ⟨trivial, hup, rfl⟩]
  refine ⟨_, hexec, ?_⟩
  rw [hx]
  rfl

/-! ### Windows of the host (R295, R438) -/

/-- The fields of a window. -/
theorem window_fields (w : Nat) : bits w 5 0 = w % 2 ^ 6 ∧ bits w 55 32 = w / 2 ^ 32 % 2 ^ 24 :=
  ⟨by rw [bits, pow_zero, Nat.div_one], rfl⟩

theorem window_on {w : Nat} (h : w / 2 ^ 63 = 1) : bit w 63 = true := by
  rw [bit, Nat.testBit_eq_decide_div_mod_eq, h]
  rfl

theorem window_off {w : Nat} (h : w / 2 ^ 63 = 0) : bit w 63 = false := by
  rw [bit, Nat.testBit_eq_decide_div_mod_eq, h]
  rfl

section
variable {s : State} {off n : Nat} {bs : List Byte} {w va : Nat} {c : Ctx} (hup : s.pkg.hostUp = true) (hoff : off < 2 ^ 36)
  (hw : (SMap.get 0 s.pkg.win (off / 2 ^ 32)).toNat = w) (hc : s.ctx (w % 2 ^ 6) = c) (hva : w / 2 ^ 32 % 2 ^ 24 * 2 ^ 32 + off % 2 ^ 32 = va)
include hup hoff hw hc hva

/-- An access through a window that maps nothing is discarded (R438). -/
theorem window_discards (h : w / 2 ^ 63 = 0 ∨ c.valid = false) (write : Bool) :
    exec (.hostWindowAccess write off n bs) s = .next (s.hostFault write off n) := by
  obtain ⟨hslot, -⟩ := window_fields w
  have hoff' : (!bit w 63 || !c.valid) = true := by
    obtain h | h := h
    · rw [window_off h]
      rfl
    · rw [h]
      simp
  show execHostWindowAccess write off n bs s = _
  simp only [execHostWindowAccess, hw, hslot, hc]
  rw [if_neg (by omega), if_neg (by simp [hup]), if_pos hoff']

omit hva in
/-- A write waits until the host's earlier ones have registered (R295). -/
theorem window_held_in_order (hon : w / 2 ^ 63 = 1) (hv : c.valid = true) (hr : s.registered s.pkg.hostTag = false) :
    s.hostHeld true off n bs = some [] := by
  obtain ⟨hslot, -⟩ := window_fields w
  unfold State.hostHeld
  simp only [hw, hslot, hc]
  rw [if_neg (by simp [hup, window_on hon, hv]; omega), if_pos (by simp [hr])]

/-- An access whose memory can be reached is not held. -/
theorem window_unheld (hon : w / 2 ^ 63 = 1) (hv : c.valid = true) (write : Bool) (hr : write = true → s.registered s.pkg.hostTag = true)
    (hwait : ∀ ns, s.vaRange c (if write then .write else .read) va (if write then bs.length else n) ≠ .wait ns) :
    s.hostHeld write off n bs = none := by
  obtain ⟨hslot, hbase⟩ := window_fields w
  unfold State.hostHeld
  simp only [hw, hslot, hc, hbase, hva]
  rw [if_neg (by simp [hup, window_on hon, hv]; omega), if_neg (by simpa using hr)]

theorem window_write_waits (hon : w / 2 ^ 63 = 1) (hv : c.valid = true) (hr : s.registered s.pkg.hostTag = false) :
    exec (.hostWindowAccess true off n bs) s = .next s := by
  have hheld := window_held_in_order hup hoff hw hc hon hv hr (n := n) (bs := bs)
  obtain ⟨hslot, -⟩ := window_fields w
  show execHostWindowAccess true off n bs s = _
  simp only [execHostWindowAccess, hw, hslot, hc, hheld]
  rw [if_neg (by omega), if_neg (by simp [hup]), if_neg (by simp [window_on hon, hv])]
  rfl

theorem window_writes (hon : w / 2 ^ 63 = 1) (hv : c.valid = true) {g : State} {xs : List Byte} {b : Bool}
    (hr : s.registered s.pkg.hostTag = true) (hg : s.spaceWrite c 0 va bs = .ok g xs b) :
    ∃ s', exec (.hostWindowAccess true off n bs) s = .next s' ∧ s'.pkg.hostTag = g.nextId ∧ ∀ k, s'.byte k = g.byte k := by
  have hwait (ns : List Need) : s.vaRange c .write va bs.length ≠ .wait ns := by
    intro h
    simp [State.spaceWrite, h] at hg
  have hheld := window_unheld hup hoff hw hc hva hon hv true (n := n) (fun _ => hr) hwait
  have hexec : exec (.hostWindowAccess true off n bs) s = .next { g with pkg := { g.pkg with hostTag := g.nextId } } := by
    obtain ⟨hslot, hbase⟩ := window_fields w
    show execHostWindowAccess true off n bs s = _
    simp only [execHostWindowAccess, hw, hslot, hc, hbase, hva, hheld, hg]
    rw [if_neg (by omega), if_neg (by simp [hup]), if_neg (by simp [window_on hon, hv]), if_pos trivial]
  exact ⟨_, hexec, rfl, fun k => rfl⟩

theorem window_reads (hon : w / 2 ^ 63 = 1) (hv : c.valid = true) {g : State} {xs : List Byte}
    (hg : s.spaceRead (Finder.engine 0 c.asid 0) c 0 va n = .ok g xs false) :
    ∃ s', exec (.hostWindowAccess false off n bs) s = .next s' ∧ s'.outbox = g.outbox ++ [.hostRead off xs] := by
  have hwait (ns : List Need) : s.vaRange c .read va n ≠ .wait ns := by
    intro h
    simp [State.spaceRead, h] at hg
  have hheld := window_unheld hup hoff hw hc hva hon hv false (bs := bs) nofun hwait
  have hexec : exec (.hostWindowAccess false off n bs) s = .next (g.answerHost off xs) := by
    obtain ⟨hslot, hbase⟩ := window_fields w
    show execHostWindowAccess false off n bs s = _
    simp only [execHostWindowAccess, hw, hslot, hc, hbase, hva, hheld, hg]
    rw [if_neg (by omega), if_neg (by simp [hup]), if_neg (by simp [window_on hon, hv]), if_neg Bool.false_ne_true,
      if_neg Bool.false_ne_true]
  exact ⟨_, hexec, rfl⟩

/-- What R438 discards: a read answers all ones, and HERR advances. -/
theorem window_faults (h : w / 2 ^ 63 = 0 ∨ c.valid = false) : (∃ s', exec (.hostWindowAccess false off n bs) s = .next s' ∧
      mownHerr s' = min 65535 (mownHerr s + 1) ∧ s'.outbox = s.outbox ++ [.hostRead off (List.replicate n 0xFF)]) ∧
    ∃ s', exec (.hostWindowAccess true off n bs) s = .next s' ∧ mownHerr s' = min 65535 (mownHerr s + 1) ∧ s'.outbox = s.outbox := by
  refine ⟨⟨_, window_discards hup hoff hw hc hva h false, hostError_counts s, ?_⟩,
    ⟨_, window_discards hup hoff hw hc hva h true, hostError_counts s, setMown_outbox _ _⟩⟩
  exact congrArg (· ++ [OutMsg.hostRead off (List.replicate n 0xFF)]) (setMown_outbox _ _)

end

end Sys2Proof.Claims
end

section
/-! What a collective program leaves that faults, and the end of a link key (R379, R380, R381, R444). -/

namespace Sys2Proof.Machine

open Sys2Proof

/- One theorem after another: side by side, their threads would fill the memory. -/
set_option Elab.async false

/-! ### Engines' writes where no stored code is wrong -/

theorem State.homeWrite_codes {s : State} (h : s.codeErrs = []) (asid : Option Nat) (key : Nat) (bs : List Byte) :
    (s.homeWrite asid key bs).1.codeErrs = [] := by
  have hcodes (u : State) : (u.modifyLines key).codeErrs = u.codeErrs := congrArg Still.codeErrs (State.modifyLines_still u key)
  have htag : ((s.poke key bs).setTag key asid).codeErrs = [] := (congrArg Still.codeErrs (State.setTag_still (s.poke key bs) key asid)).trans h
  unfold State.homeWrite
  split
  · refine (hcodes _).trans ?_
    show SMap.del s.codeErrs (key / 64) = []
    rw [h]
    rfl
  · split
    · exact h
    · exact (hcodes _).trans htag

theorem State.writeRange_codes : ∀ (fuel : Nat) {s : State}, s.codeErrs = [] → ∀ (asid : Option Nat) (key : Nat) (bs : List Byte),
    (State.writeRange fuel s asid key bs).codeErrs = []
  | 0, _, h, _, _, _ => h
  | fuel + 1, s, h, asid, key, bs => by
    rw [State.writeRange]
    split
    · exact h
    · exact State.writeRange_codes fuel (State.homeWrite_codes h ..) ..

theorem State.partsWrite_codes (asid : Option Nat) : ∀ (ps : List (Nat × Nat)) {s : State}, s.codeErrs = [] → ∀ bs : List Byte,
    (s.partsWrite asid ps bs).codeErrs = []
  | [], _, h, _ => h
  | _ :: ps, _, h, _ => State.partsWrite_codes asid ps (State.writeRange_codes _ h ..) _

theorem State.useRange_codes (s : State) (c : Ctx) (va n : Nat) : (s.useRange c va n).codeErrs = s.codeErrs := by
  obtain ⟨x, y, z, h⟩ := State.useRange_eq s c va n
  rw [h]
  rfl

theorem State.sendPort_codes (s : State) (m : OutMsg) : (s.sendPort m).codeErrs = s.codeErrs := by
  unfold State.sendPort
  split <;> rfl

theorem State.ownWords_codes (s : State) (core asid va n : Nat) : (s.ownWords core asid va n).codeErrs = s.codeErrs := by
  refine foldl_keeps State.codeErrs (fun s i => ?_) _ s
  dsimp only
  split
  · split
    · rfl
    · split
      · rfl
      · exact State.sendPort_codes ..
  · rfl

theorem State.engineStore_codes {s : State} (h : s.codeErrs = []) (c : Ctx) (va : Nat) (ps : List (Nat × Nat)) (bs : List Byte) :
    (s.engineStore c va ps bs).codeErrs = [] := by
  unfold State.engineStore
  extract_lets s1 s2 s3 s4 s5
  have h1 : s1.codeErrs = [] := State.partsWrite_codes _ ps ((State.useRange_codes ..).trans h) bs
  have h3 : s3.codeErrs = [] :=
    (foldl_keeps State.codeErrs (fun s b => congrArg Still.codeErrs (State.updateByte_still ..)) _ _).trans
      ((State.ownWords_codes ..).trans h1)
  have h4 : s4.codeErrs = [] := (congrArg Still.codeErrs (State.noteTables_still ..)).trans h3
  have h5 : s5.codeErrs = [] := by
    unfold s5
    split
    · split <;> exact h4
    · exact h4
  refine (foldl_keeps (fun r : State × Nat => r.1.codeErrs) (fun r p => ?_) ps (s5, 0)).trans h5
  dsimp only
  split <;> rfl

/-! ### What a faulting program's steps leave (R381) -/

/-- A state that still holds no wrong code, and agrees with an earlier one but for memory, logs and notes. -/
structure State.Undisturbed (s u : State) : Prop where
  codes : u.codeErrs = []
  same : u.unlogged = s.unlogged

theorem State.Undisturbed.trans {s u w : State} (h : s.Undisturbed u) (h' : u.Undisturbed w) : s.Undisturbed w :=
  ⟨h'.codes, h'.same.trans h.same⟩

theorem State.engineStore_undisturbed {s : State} (h : s.codeErrs = []) (c : Ctx) (va : Nat) (ps : List (Nat × Nat)) (bs : List Byte) :
    s.Undisturbed (s.engineStore c va ps bs) :=
  ⟨State.engineStore_codes h .., State.engineStore_unlogged ..⟩

theorem State.engineNibble_undisturbed {s : State} (h : s.codeErrs = []) (c : Ctx) (va key nib v : Nat) :
    s.Undisturbed (s.engineNibble c va key nib v) := by
  unfold State.engineNibble
  split
  · extract_lets u
    obtain ⟨x, y, z, hu⟩ := State.useTlb_eq u c va
    rw [hu]
    exact ⟨(State.ownWords_codes ..).trans h, (State.ownWords_unlogged ..).trans rfl⟩
  · exact State.engineStore_undisturbed h ..

theorem State.spaceWrite_undisturbed {s g : State} (h : s.codeErrs = []) {c : Ctx} {space a : Nat} {bs xs : List Byte} {b : Bool}
    (hg : s.spaceWrite c space a bs = .ok g xs b) : s.Undisturbed g := by
  unfold State.spaceWrite at hg
  split at hg
  · cases hg
    exact ⟨State.writeRange_codes _ h .., State.writeRange_unlogged ..⟩
  · split at hg <;> cases hg
    exact State.engineStore_undisturbed h ..

theorem State.nibbleWrite_undisturbed {s g : State} (h : s.codeErrs = []) {f : Finder} {c : Ctx} {space a nib v : Nat} {xs : List Byte} {b : Bool}
    (hg : s.nibbleWrite f c space a nib v = .ok g xs b) : s.Undisturbed g := by
  unfold State.nibbleWrite at hg
  split at hg
  · rw [State.readBlock_clean h] at hg
    exact State.spaceWrite_undisturbed h hg
  · split at hg <;> cases hg
    refine List.foldlRecOn (motive := s.Undisturbed) _ _ ⟨h, rfl⟩ fun u hu p _ => ?_
    rw [State.readBlock_clean hu.codes]
    exact hu.trans (State.engineNibble_undisturbed hu.codes ..)

/-- A byte that may be written, as a whole or by a nibble. -/
theorem landByte_undisturbed {s g : State} (h : s.codeErrs = []) {c : Ctx} {space a : Nat} {nib : Option (Nat × Nat)} {b : Byte} {xs : List Byte}
    {bad : Bool} (hg : (match nib with
      | none => s.spaceWrite c space a [b]
      | some x => s.nibbleWrite (Finder.engine 0 c.asid 0) c space a x.1 x.2) = .ok g xs bad) : s.Undisturbed g := by
  cases nib with
  | none => exact State.spaceWrite_undisturbed h hg
  | some x => exact State.nibbleWrite_undisturbed h hg

theorem landBytes_undisturbed (c : Ctx) (space : Nat) (nib : Option (Nat × Nat)) : ∀ (bs : List Byte) (a : Nat) {s : State}, s.codeErrs = [] →
    s.Undisturbed (landBytes c space nib bs a s)
  | [], _, _, h => ⟨h, rfl⟩
  | b :: bs, a, s, h => by
    have hchoice : s.Undisturbed s.freeBit.2 := ⟨h, rfl⟩
    have hnext : ∃ w, landBytes c space nib (b :: bs) a s = landBytes c space nib bs (a + 1) w ∧ s.Undisturbed w := by
      refine ⟨_, rfl, ?_⟩
      split
      · next g _ _ _ hg => exact hchoice.trans (landByte_undisturbed hchoice.codes hg)
      · exact hchoice
    obtain ⟨w, hw, hs⟩ := hnext
    rw [hw]
    exact hs.trans (landBytes_undisturbed c space nib bs (a + 1) hs.codes)

theorem ClProg.landStep_undisturbed (p : ClProg) {s : State} (h : s.codeErrs = []) (a : ClStep) : s.Undisturbed (p.landStep s a) := by
  unfold ClProg.landStep
  split
  · split
    · exact ⟨h, rfl⟩
    · extract_lets u
      have hu : s.Undisturbed u :=
        List.foldlRecOn (motive := s.Undisturbed) _ _ ⟨h, rfl⟩ fun u hu zl _ => hu.trans (landBytes_undisturbed _ _ _ _ _ hu.codes)
      clear_value u
      refine List.foldlRecOn (motive := s.Undisturbed) _ _ hu fun u hu mv _ => ?_
      dsimp only
      split <;> exact hu.trans (landBytes_undisturbed _ _ _ _ _ hu.codes)
  · exact ⟨h, rfl⟩

theorem ClProg.landSteps_undisturbed (p : ClProg) {s : State} (h : s.codeErrs = []) (l : List ClStep) : s.Undisturbed (l.foldl p.landStep s) :=
  List.foldlRecOn (motive := s.Undisturbed) l _ ⟨h, rfl⟩ fun _ hu a _ => hu.trans (p.landStep_undisturbed hu.codes a)

/-! ### Handles of programs that fault (R32, R379) -/

/-- What a slot of a team's handle table holds, while the team is there. -/
def State.handleStatus (s : State) (uid n : Nat) : Option HStatus := (s.team? uid).map fun t => (t.slotOf n).status

theorem State.handleStatus_of_teams {s u : State} (h : s.teams = u.teams) (uid n : Nat) : s.handleStatus uid n = u.handleStatus uid n := by
  rw [State.handleStatus, State.handleStatus, State.team?, State.team?, h]

theorem Team.finishSlot_uid (t : Team) (n : Nat) (st : HStatus) : (t.finishSlot n st).uid = t.uid := congrArg Prod.fst (t.finishSlot_stand n st)

/-- An operation that completes settles its own slot, where it is pending, and no other. -/
theorem Team.finishSlot_status (t : Team) (k n : Nat) (st : HStatus) : ((t.finishSlot k st).slotOf n).status =
    if n = k ∧ (t.slotOf n).status = .pending then st else (t.slotOf n).status := by
  unfold Team.finishSlot
  split
  · next h =>
    have hput : ({ (t.putSlot k { t.slotOf k with status := st }) with freeSlots := t.freeSlots ++ [k] } : Team).slotOf n =
        if n = k then { t.slotOf k with status := st } else t.slotOf n := SMap.get_put ..
    rw [hput]
    by_cases hn : n = k
    · subst hn
      rw [if_pos rfl, if_pos ⟨rfl, h⟩]
    · rw [if_neg hn, if_neg fun hc => hn hc.1]
  · next h =>
    have hother : ¬ (n = k ∧ (t.slotOf n).status = .pending) := fun hc => h (hc.1 ▸ hc.2)
    rw [if_neg hother]

theorem State.finish_status (s : State) (h : HRef) (st : HStatus) (c : Cause) (uid n : Nat) : (s.finish h st (some c)).handleStatus uid n =
    if uid = h.uid ∧ n = h.slot ∧ s.handleStatus uid n = some .pending then some st else s.handleStatus uid n := by
  have hteam : (s.finish h st (some c)).team? uid =
      (s.team? uid).map fun t => if t.uid == h.uid then (t.finishSlot h.slot st).pendCause c else t :=
    find_map_uid (fun t => if t.uid == h.uid then (t.finishSlot h.slot st).pendCause c else t)
      (fun t => by split; exacts [Team.finishSlot_uid .., rfl]) uid s.teams
  rw [State.handleStatus, State.handleStatus, hteam]
  cases ht : s.team? uid with
  | none => simp
  | some t =>
    have huid : t.uid = uid := State.team?_uid ht
    simp only [Option.map_some, Option.some.injEq, huid]
    by_cases hu : uid = h.uid
    · have hslot : (((t.finishSlot h.slot st).pendCause c).slotOf n).status = _ := t.finishSlot_status h.slot n st
      rw [if_pos (by simp [hu]), hslot]
      by_cases hn : n = h.slot ∧ (t.slotOf n).status = .pending
      · rw [if_pos hn, if_pos ⟨hu, hn⟩]
      · rw [if_neg hn, if_neg fun hc => hn hc.2]
    · rw [if_neg (by simp [hu]), if_neg fun hc => hu hc.1]

/-- A program that faults settles its own handle as faulted, and no other (R379). -/
theorem State.clStop_status (s : State) (p : ClProg) (c : Cause) (uid n : Nat) : (s.clStop p .faulted (some c)).handleStatus uid n =
    if uid = p.who.uid ∧ n = p.who.slot ∧ s.handleStatus uid n = some .pending then some .faulted else s.handleStatus uid n := by
  unfold State.clStop
  extract_lets u
  have hteams : u.teams = s.teams := foldl_keeps State.teams (fun s r => by
    unfold State.clSend
    split
    · exact congrArg Unlogged.teams (State.sendPort_unlogged ..)
    · rfl) _ s
  have hsame : ((u.dropProg p.ch p.id).dropSent p.who).handleStatus uid n = s.handleStatus uid n := State.handleStatus_of_teams hteams uid n
  rw [State.finish_status, hsame]

theorem State.clStop_codes (s : State) (p : ClProg) (st : HStatus) (c : Option Cause) : (s.clStop p st c).codeErrs = s.codeErrs := by
  unfold State.clStop
  extract_lets u
  have hu : u.codeErrs = s.codeErrs := foldl_keeps State.codeErrs (fun s r => by
    unfold State.clSend
    split
    · exact State.sendPort_codes ..
    · rfl) _ s
  exact hu

section
variable {s : State} (h : s.codeErrs = [])
include h

theorem State.clFault_codes (p : ClProg) (c : Cause) : (s.clFault p c).codeErrs = [] :=
  (State.clStop_codes ..).trans (p.landSteps_undisturbed h _).codes

theorem State.clFault_standing (p : ClProg) (c : Cause) : (s.clFault p c).standing = s.standing :=
  (State.clStop_standing ..).trans (State.standing_of_unlogged (p.landSteps_undisturbed h _).same)

theorem State.clFault_status (p : ClProg) (c : Cause) (uid n : Nat) : (s.clFault p c).handleStatus uid n =
    if uid = p.who.uid ∧ n = p.who.slot ∧ s.handleStatus uid n = some .pending then some .faulted else s.handleStatus uid n := by
  have hteams : (p.active.foldl p.landStep s).teams = s.teams := congrArg Unlogged.teams (p.landSteps_undisturbed h _).same
  rw [State.clFault, State.clStop_status, State.handleStatus_of_teams hteams uid n]

end

/-- Programs that fault one after another leave the package and where the teams stand, and settle each handle of theirs that was pending. -/
theorem State.clFaults_settle (c : Cause) : ∀ (l : List ClProg) {s : State}, s.codeErrs = [] →
    (l.foldl (fun (s : State) p => s.clFault p c) s).standing = s.standing ∧
      ∀ uid n, (s.handleStatus uid n = some .faulted → (l.foldl (fun (s : State) p => s.clFault p c) s).handleStatus uid n = some .faulted) ∧
        (s.handleStatus uid n = some .pending → (∃ p ∈ l, p.who.uid = uid ∧ p.who.slot = n) →
          (l.foldl (fun (s : State) p => s.clFault p c) s).handleStatus uid n = some .faulted)
  | [], s, _ => ⟨rfl, fun uid n => ⟨id, fun _ hex => by simp at hex⟩⟩
  | p :: l, s, h => by
    obtain ⟨hstand, hall⟩ := State.clFaults_settle c l (State.clFault_codes h p c)
    refine ⟨hstand.trans (State.clFault_standing h p c), fun uid n => ?_⟩
    obtain ⟨hfaulted, hpending⟩ := hall uid n
    have hone := State.clFault_status h p c uid n
    refine ⟨fun hf => hfaulted ?_, fun hp hex => ?_⟩
    · rw [hone, hf]
      split <;> rfl
    · by_cases hown : uid = p.who.uid ∧ n = p.who.slot
      · exact hfaulted (hone.trans (if_pos ⟨hown.1, hown.2, hp⟩))
      · refine hpending ((hone.trans (if_neg fun hc => hown ⟨hc.1, hc.2.1⟩)).trans hp) ?_
        obtain ⟨q, hq, hu, hn⟩ := hex
        obtain rfl | hq := List.mem_cons.mp hq
        · exact absurd ⟨hu.symm, hn.symm⟩ hown
        · exact ⟨q, hq, hu, hn⟩

end Sys2Proof.Machine
end

section
/-! The host interface (O48): what the clauses come to by the owner's writes, the host's accesses and the end of a link key. -/

namespace Sys2Proof.Claims

open Sys2Proof Sys2Proof.Machine

/- One theorem after another: side by side, their threads would fill the memory. -/
set_option Elab.async false

/-! ### The end of a link key (R380, R444) -/

/-- A partition's key is gone from the ports, and its request to be zeroised is served. -/
def keyErased (s : State) (m x : Nat) : State :=
  { s with pkg := { s.pkg with zeroing := s.pkg.zeroing.erase x, linkKeys := s.pkg.linkKeys.filter fun k => k != m } }

/-- The bit of `PART` that says that a key is installed is clear. -/
def keyCleared (s : State) (m : Nat) : State := s.setPart m (withBits (s.partWord m) 62 62 0)

theorem keyErased_linkKeys (s : State) (m x : Nat) : m ∉ (keyErased s m x).pkg.linkKeys := by
  simp [keyErased]

theorem keyCleared_linkKeys (s : State) (m : Nat) : (keyCleared s m).pkg.linkKeys = s.pkg.linkKeys := by
  rw [keyCleared, linkKeys_setPart]

theorem keyCleared_part (s : State) (m : Nat) : (keyCleared s m).partWord m / 2 ^ 62 % 2 = 0 := by
  show bits _ 62 62 = 0
  rw [keyCleared, partWord_setPart _ _ (withBits_lt (by decide) (by decide) (partWord_lt s m) _), bits_withBits (by decide)]
  rfl

/-- The key's end leaves the programs, the teams and the stored codes. -/
theorem setPart_others (s : State) (m v : Nat) : (s.setPart m v).progs = s.progs ∧ (s.setPart m v).codeErrs = s.codeErrs ∧
    ∀ uid, (s.setPart m v).team? uid = s.team? uid :=
  ⟨rfl, rfl, fun _ => rfl⟩

theorem keyErased_others (s : State) (m x : Nat) : (keyErased s m x).progs = s.progs ∧ (keyErased s m x).codeErrs = s.codeErrs ∧
    ∀ uid, (keyErased s m x).team? uid = s.team? uid :=
  ⟨rfl, rfl, fun _ => rfl⟩

theorem keyCleared_others (s : State) (m : Nat) : (keyCleared s m).progs = s.progs ∧ (keyCleared s m).codeErrs = s.codeErrs ∧
    ∀ uid, (keyCleared s m).team? uid = s.team? uid :=
  setPart_others s m _

/-- A handle's status, as the claims speak of it. -/
theorem settles_of_status {s s' : State} {who : HRef} {st : HStatus}
    (h : s.handleStatus who.uid who.slot = some .pending → s'.handleStatus who.uid who.slot = some st) : settles s s' who st := by
  intro t ht hp
  have hpending : s.handleStatus who.uid who.slot = some .pending := by
    rw [State.handleStatus, ht, Option.map_some, hp]
  exact Option.map_eq_some_iff.mp (h hpending)

theorem linkKeyZeroise_runs {s : State} {m slot : Nat} (hm : m < 64) (hz : s.pkg.zeroing = [64 * slot + m]) :
    exec (.linkKeyZeroise m) s = .next ((keyCleared (keyErased s m (64 * slot + m)) m).clKeyGone slot) := by
  have hfind : s.pkg.zeroing.find? (fun x => x % 64 == m) = some (64 * slot + m) := by
    rw [hz]
    exact List.find?_cons_of_pos (beq_iff_eq.mpr (by omega))
  have hslot : (64 * slot + m) / 64 = slot := by omega
  show execLinkKeyZeroise m s = _
  unfold execLinkKeyZeroise
  rw [hfind]
  dsimp only
  rw [hslot, keyCleared, keyErased]

/-- The programs of a context fault, and the keys stay (R380). -/
theorem clKeyGone_faults {s : State} (h : s.codeErrs = []) (slot : Nat) : (s.clKeyGone slot).pkg.linkKeys = s.pkg.linkKeys ∧
    (∀ m, (s.clKeyGone slot).partWord m = s.partWord m) ∧ ∀ p ∈ s.progs, p.ctx = slot →
      s.handleStatus p.who.uid p.who.slot = some .pending → (s.clKeyGone slot).handleStatus p.who.uid p.who.slot = some .faulted := by
  obtain ⟨hstand, hsettled⟩ := State.clFaults_settle .fabricKey (s.progs.filter fun p => p.ctx == slot) h
  refine ⟨congrArg (fun x : List (Nat × Nat × Residence) × Pkg => x.2.linkKeys) hstand,
    fun m => congrArg (fun x : List (Nat × Nat × Residence) × Pkg => (SMap.get 0 x.2.part m).toNat) hstand, fun p hp hslot hpending => ?_⟩
  exact (hsettled _ _).2 hpending ⟨p, List.mem_filter.mpr ⟨hp, beq_iff_eq.mpr hslot⟩, rfl, rfl⟩

/-- A zeroised key is gone, and the programs of its context fault (R380, R444). -/
theorem linkKey_zeroised (s : State) (m slot : Nat) (hm : m < 64) (hz : s.pkg.zeroing = [64 * slot + m]) (hc : s.codeErrs = []) :
    ∃ s', exec (.linkKeyZeroise m) s = .next s' ∧ m ∉ s'.pkg.linkKeys ∧ s'.partWord m / 2 ^ 62 % 2 = 0 ∧
      ∀ p ∈ s.progs, p.ctx = slot → settles s s' p.who .faulted := by
  obtain ⟨hprogs1, hcodes1, hteams1⟩ := keyErased_others s m (64 * slot + m)
  obtain ⟨hprogs2, hcodes2, hteams2⟩ := keyCleared_others (keyErased s m (64 * slot + m)) m
  obtain ⟨hlinks, hpart, hfaulted⟩ := clKeyGone_faults (hcodes2.trans (hcodes1.trans hc)) slot
  refine ⟨_, linkKeyZeroise_runs hm hz, ?_, ?_, fun p hp hslot => settles_of_status fun hpending => ?_⟩
  · rw [hlinks, keyCleared_linkKeys]
    exact keyErased_linkKeys _ _ _
  · rw [hpart]
    exact keyCleared_part ..
  · refine hfaulted p (by rw [hprogs2, hprogs1]; exact hp) hslot ?_
    rw [State.handleStatus, hteams2, hteams1]
    exact hpending

/-! ### The clauses together -/

/-- Settles O48, clause by clause. -/
theorem hostInterfaceCompletes : Obligations.HostInterfaceCompletes := by
  unfold Obligations.HostInterfaceCompletes
  intro s master v
  refine ⟨fun ho => ?_, registerWrite_dropped v, fun m slot hm _ hz hc => linkKey_zeroised s m slot hm hz hc,
    fun off n bs h1 h3 hup => registers_read off n bs h1 h3 hup, fun off n bs hup hoff => firmware_read off n bs hup hoff, fun off n bs hup hoff => ?_⟩
  · exact ⟨packageRegisters_written ho v, fun _ h => rampRegisters_wait ho v h, contextRegisters_written ho v, lscfg_written ho v,
      partcfg_written ho v, part_written ho v, fun n hlen hn => keys_written ho n hlen hn, attestation_written ho⟩
  · exact ⟨fun hon hv => ⟨window_write_waits hup hoff rfl rfl rfl hon hv, fun g xs b hr hg => window_writes hup hoff rfl rfl rfl hon hv hr hg,
      fun g xs hg => window_reads hup hoff rfl rfl rfl hon hv hg⟩, window_faults hup hoff rfl rfl rfl⟩

end Sys2Proof.Claims
end
